-- ==== Sys2Proof/Word.lean ====
section
/-! DEFINITION. The machine's plain word types and the element types of Table 6.1 (spec/06, R143). -/

namespace Sys2Proof

/-- A 64-bit general register, control register or instruction word (R271). -/
abbrev Word := BitVec 64

/-- One byte of memory. -/
abbrev Byte := BitVec 8

/-- A vector register: VLEN = 16,384 bits (R16, R17). -/
abbrev VReg := BitVec 16384

/-- A mask register: 8,192 bits (R174). -/
abbrev MReg := BitVec 8192

/-- One row of an accumulator tile: 128 elements of 32 bits (R176). -/
abbrev TileRow := BitVec 4096

/-- The element types of Table 6.1 (R143). -/
inductive ElemType where
  | i2 | i4 | i8 | n8 | i16 | n16 | i32 | n32 | i64
  | f8e4 | f8e5 | f16 | bf16 | f32 | f64 | f4
  deriving DecidableEq, Repr

/-- The ET code of Table 6.1 read as a type; every code is assigned (R143). -/
def ElemType.ofCode (c : BitVec 4) : ElemType :=
  match c.toNat with
  | 0 => .i2 | 1 => .i4 | 2 => .i8 | 3 => .n8 | 4 => .i16 | 5 => .n16 | 6 => .i32 | 7 => .n32
  | 8 => .i64 | 9 => .f8e4 | 10 => .f8e5 | 11 => .f16 | 12 => .bf16 | 13 => .f32 | 14 => .f64
  | _ => .f4

/-- The width column of Table 6.1, in bits (R143, R296). -/
def ElemType.width : ElemType → Nat
  | .i2 => 2 | .i4 => 4 | .i8 => 8 | .n8 => 8 | .i16 => 16 | .n16 => 16 | .i32 => 32 | .n32 => 32
  | .i64 => 64 | .f8e4 => 8 | .f8e5 => 8 | .f16 => 16 | .bf16 => 16 | .f32 => 32 | .f64 => 64 | .f4 => 4

/-- The floating types of Table 6.1. -/
def ElemType.isFloat : ElemType → Bool
  | .f8e4 | .f8e5 | .f16 | .bf16 | .f32 | .f64 | .f4 => true
  | _ => false

/-- The two's complement integer types, marked I in Table 6.1. -/
def ElemType.isSigned : ElemType → Bool
  | .i2 | .i4 | .i8 | .i16 | .i32 | .i64 => true
  | _ => false

/-- The float types that vector arithmetic accepts: F16, BF16, F32 and F64 (R148). -/
def ElemType.isArithFloat : ElemType → Bool
  | .f16 | .bf16 | .f32 | .f64 => true
  | _ => false

end Sys2Proof
end

