-- ==== Sys2Proof/Config.lean ====
section
/-! DEFINITION. What an implementation fixes and what the manual leaves open. Every value here is opaque: nothing can
be proved of it but that it is some value of its type. Each is named in notes/assumptions. -/

namespace Sys2Proof

/-- Bytes of DDR-5 that are populated, from the start of its range (Table 4.2: up to 8 TiB).
DESIGN CHOICE, safe: notes/assumptions/36. -/
opaque Config.ddrBytes : Nat

/-- The bits a parent's load finds in a shadow entry that is a revoked marker (R71 gives no encoding).
DESIGN CHOICE, safe: notes/assumptions/37. -/
opaque Config.revokedMarker : Word

/-- The n-th byte that a peer module returns to an access of this module (R303: the peer is outside the machine).
DESIGN CHOICE, safe: notes/assumptions/38. -/
opaque Config.peerByte : Nat → Byte

/-- What the peer's translation answers to the n-th remote access: 0 translates, 1 not present, 2 malformed,
anything else not permitted (R303). -/
opaque Config.peerAnswer : Nat → Nat

/-- Core cycles that pass on a core in the n-th step of the machine beyond the first: by step and core, since the cores have no
common time base (R12) and no figure is fixed (R467, R333).
DESIGN CHOICE, safe: notes/assumptions/6. -/
opaque Config.elapsed : Nat → Nat → Nat

/-- Module identity, the trailer's DEVID (Table 10.5).
DESIGN CHOICE, safe: notes/assumptions/35. -/
opaque Config.deviceId : BitVec 128

/-- The seed of the Ed25519 attestation key, derived from the device secret and the firmware's measurement (R307): neither the
secret nor the derivation is given.
DESIGN CHOICE, safe: notes/assumptions/33. -/
opaque Config.seedEd25519 : BitVec 384 → BitVec 256

/-- The seed of the ML-DSA-65 attestation key, derived likewise (R307). -/
opaque Config.seedMlDsa65 : BitVec 384 → BitVec 256

/-- The random bytes that hedge the n-th ML-DSA-65 signature (R313). -/
opaque Config.hedge : Nat → BitVec 256

/-- What stands for the n-th ML-DSA-65 signature where none of the tries that FIPS 204 asks for gives one. -/
opaque Config.signMlDsa65 : Nat → BitVec 26472

/-- Whether the module checks an Ed25519 signature with the factor 8 or without it: RFC 8032 allows both. -/
opaque Config.ed25519Cofactor : Bool

/-- The SHA-384 hash of the boot ROM, MR0 (R307).
DESIGN CHOICE, safe: notes/assumptions/34. -/
opaque Config.bootRomHash : BitVec 384

/-- The SHA-384 hash of the Ed25519 public key fused in the boot ROM (R306). -/
opaque Config.fusedEdKeyHash : BitVec 384

/-- The SHA-384 hash of the ML-DSA-65 public key fused in the boot ROM (R306). -/
opaque Config.fusedMlKeyHash : BitVec 384

/-- The least SVN fused in the boot ROM (R306). -/
opaque Config.fusedMinSvn : BitVec 32

/-- Bytes of a save entry that a save does not write are undefined (R263): byte of the n-th save at an offset.
DESIGN CHOICE, safe: notes/assumptions/19. -/
opaque Config.saveFill : Nat → Nat → Byte

/-- The index of a comb token where the manual gives none: its node reads no p0 token (R191). Numbered by the cycle and the
node.
DESIGN CHOICE, safe: notes/assumptions/42. -/
opaque Config.combIndex : Nat → Nat → Nat

/-- The generator that decides a node's rounding when DRM selects RSR, which the manual does not name (R153, R193).
Numbered by the cycle and the element. -/
opaque Config.combRound : Nat → Nat → Nat

/-- What a restart record adopted with KEEP does not hold of the counters of its nodes and edges (R206, R213). Numbered by
the adoption and the counter. -/
opaque Config.adopted : Nat → Nat → Nat

/-- Lines whose writes are lost with a slice's tags, and what memory holds there without them (R269): (line, 128 bytes). The
manual does not say which; numbered by the event.
DESIGN CHOICE, safe: notes/assumptions/32. -/
opaque Config.lostLines : Nat → List (Nat × BitVec 1024)

/-- The line that a full L1 gives up for a new one: R105 and R467 fix no replacement policy. A number of the step, taken modulo
the number of lines.
DESIGN CHOICE, safe: notes/assumptions/11. -/
opaque Config.l1Victim : Nat → Nat

/-- The partitions with traffic outstanding on a peer or host link when a flit arrives with a damaged header (R267): accesses are whole
in this model, so that none is outstanding between its steps.
DESIGN CHOICE, safe: notes/assumptions/31. -/
opaque Config.linkTraffic : Nat → List Nat

end Sys2Proof
end

