-- ==== Sys2Proof/Machine/Bits.lean ====
section
/-! DEFINITION. Bit fields, sign extension, byte order, and elements of a register (R2, R3, R144). Numbers that are
computed with are Nat or Int; they become bit vectors again where the manual stores them. -/

namespace Sys2Proof.Machine

/-- Field [hi:lo] of a number (R2). -/
def bits (n hi lo : Nat) : Nat := n / 2 ^ lo % 2 ^ (hi + 1 - lo)

/-- Bit k of a number (R2). -/
def bit (n k : Nat) : Bool := n.testBit k

/-- The number that the low w bits of n name in two's complement. -/
def toSigned (w n : Nat) : Int :=
  if n % 2 ^ w < 2 ^ (w - 1) then (n % 2 ^ w : Nat) else (n % 2 ^ w : Nat) - (2 ^ w : Nat)

/-- An integer modulo 2^w. -/
def ofInt (w : Nat) (x : Int) : Nat := (x % (2 ^ w : Nat)).toNat

/-- A 64-bit word that holds an integer modulo 2^64. -/
def word (x : Int) : Word := BitVec.ofInt 64 x

/-- SignExt(x, n) of R10: the low n bits of x, sign-extended to 64. -/
def signExtW (n : Nat) (x : Word) : Word := word (toSigned n x.toNat)

/-- ZeroExt(x, n) of R10. -/
def zeroExtW (n : Nat) (x : Word) : Word := BitVec.ofNat 64 (x.toNat % 2 ^ n)

/-- The k bytes of a number, least significant first (R3). -/
def leBytes : Nat → Nat → List Byte
  | 0, _ => []
  | k + 1, n => BitVec.ofNat 8 n :: leBytes k (n / 256)

/-- One byte more of a CRC-16: polynomial 0x1021, most significant bit first (R308). -/
def crcStep (c : BitVec 16) (b : Byte) : BitVec 16 :=
  (List.range 8).foldl (fun c _ => if c.msb then (c <<< 1) ^^^ 0x1021 else c <<< 1) (c ^^^ (b.setWidth 16 <<< 8))

/-- The CRC-16 of bytes, from 0xFFFF, with no reflection and no final XOR (R308, Table 9.4). -/
def crc16 (bs : List Byte) : BitVec 16 := bs.foldl crcStep 0xFFFF

/-- The number that bytes spell, least significant first (R3). -/
def ofLeBytes : List Byte → Nat
  | [] => 0
  | b :: bs => b.toNat + 256 * ofLeBytes bs

/-- Element e of width w of a register, as the number its bits hold (Elem of R10, R144). -/
def elemAt {n : Nat} (v : BitVec n) (w e : Nat) : Nat := v.toNat / 2 ^ (w * e) % 2 ^ w

/-- A register with element e of width w replaced by the low w bits of x (SetElem of R10, R144). -/
def setElemAt {n : Nat} (v : BitVec n) (w e x : Nat) : BitVec n :=
  (v &&& ~~~(BitVec.ofNat n ((2 ^ w - 1) * 2 ^ (w * e)))) ||| BitVec.ofNat n (x % 2 ^ w * 2 ^ (w * e))

/-- A register with the chosen elements lo to hi - 1 of width w replaced by f. -/
def mapElems {n : Nat} (v : BitVec n) (w lo hi : Nat) (chosen : Nat → Bool) (f : Nat → Nat) : BitVec n :=
  (List.range' lo (hi - lo)).foldl (fun acc e => if chosen e then setElemAt acc w e (f e) else acc) v

/-- A mask register with the chosen bits lo to hi - 1 replaced. -/
def mapBits {n : Nat} (m : BitVec n) (lo hi : Nat) (chosen : Nat → Bool) (f : Nat → Bool) : BitVec n :=
  mapElems m 1 lo hi chosen (fun e => (f e).toNat)

/-- The low n bits of a register replaced. -/
def overlay {w : Nat} (old new : BitVec w) (n : Nat) : BitVec w :=
  BitVec.ofNat w (new.toNat % 2 ^ n + old.toNat / 2 ^ n * 2 ^ n)

/-- n divided by d, rounded up. -/
def ceilDiv (n d : Nat) : Nat := (n + d - 1) / d

/-- A list with element k replaced where it exists. -/
def setAt {α : Type} (l : List α) (k : Nat) (x : α) : List α := l.set k x

/-- A list with element k updated where it exists. -/
def modAt {α : Type} (l : List α) (k : Nat) (f : α → α) : List α := l.modify k f

/-- The least number of 0 to n - 1 that satisfies p. -/
def leastBelow (n : Nat) (p : Nat → Bool) : Option Nat := (List.range n).find? p

end Sys2Proof.Machine
end

