-- ==== Sys2Proof/Machine/Sha384.lean ====
section
/-! DEFINITION. SHA-384, and SHA-512 for RFC 8032, as FIPS 180-4 gives them (spec/13 R306, R307, R313; spec/10 R247). -/

namespace Sys2Proof.Machine

/-- The n-th root of v for n = 2 or 3, rounded down, found bit by bit. -/
def rootFrom (n v : Nat) : Nat → Nat → Nat
  | 0, r => r
  | k + 1, r => rootFrom n v k (if (r + 2 ^ k) ^ n ≤ v then r + 2 ^ k else r)

/-- Whether n is prime, by trial division. -/
def isPrime (n : Nat) : Bool := decide (2 ≤ n) && (List.range n).all (fun d => decide (d < 2) || decide (n % d ≠ 0))

/-- The first 80 primes. -/
def primes80 : List Nat := (List.range 410).filter isPrime

/-- Constants K: the first 64 bits of the fractional parts of the cube roots of the first 80 primes. -/
def shaK : List Word := primes80.map (fun p => BitVec.ofNat 64 (rootFrom 3 (p * 2 ^ 192) 68 0))

/-- Initial hash of SHA-384: the first 64 bits of the fractional parts of the square roots of the 9th to 16th primes. -/
def shaInit : List Word := ((primes80.drop 8).take 8).map (fun p => BitVec.ofNat 64 (rootFrom 2 (p * 2 ^ 128) 68 0))

def shaS0 (x : Word) : Word := x.rotateRight 28 ^^^ x.rotateRight 34 ^^^ x.rotateRight 39

def shaS1 (x : Word) : Word := x.rotateRight 14 ^^^ x.rotateRight 18 ^^^ x.rotateRight 41

def shaG0 (x : Word) : Word := x.rotateRight 1 ^^^ x.rotateRight 8 ^^^ x >>> 7

def shaG1 (x : Word) : Word := x.rotateRight 19 ^^^ x.rotateRight 61 ^^^ x >>> 6

/-- The message schedule, newest word first: 64 words more after the block's 16. -/
def shaSchedule : Nat → List Word → List Word
  | 0, w => w
  | k + 1, w => shaSchedule k ((shaG1 (w.getD 1 0) + w.getD 6 0 + shaG0 (w.getD 14 0) + w.getD 15 0) :: w)

/-- The eight working variables. -/
structure ShaVars where
  a : Word
  b : Word
  c : Word
  d : Word
  e : Word
  f : Word
  g : Word
  h : Word

def shaRound (v : ShaVars) (k w : Word) : ShaVars :=
  let t1 := v.h + shaS1 v.e + ((v.e &&& v.f) ^^^ (~~~v.e &&& v.g)) + k + w
  let t2 := shaS0 v.a + ((v.a &&& v.b) ^^^ (v.a &&& v.c) ^^^ (v.b &&& v.c))
  ⟨t1 + t2, v.a, v.b, v.c, v.d + t1, v.e, v.f, v.g⟩

/-- One 128-byte block, its 16 words first to last. -/
def shaBlock (h : ShaVars) (words : List Word) : ShaVars :=
  let w := (shaSchedule 64 words.reverse).reverse
  let v := (shaK.zip w).foldl (fun v x => shaRound v x.1 x.2) h
  ⟨h.a + v.a, h.b + v.b, h.c + v.c, h.d + v.d, h.e + v.e, h.f + v.f, h.g + v.g, h.h + v.h⟩

/-- The big-endian word of eight bytes. -/
def beWord (bs : List Byte) : Word := BitVec.ofNat 64 (ofLeBytes bs.reverse)

/-- The message with its padding: a 1 bit, zeros, and the length in bits as 16 bytes. -/
def shaPad (m : List Byte) : List Byte :=
  m ++ [0x80] ++ List.replicate ((239 - m.length % 128) % 128) 0 ++ (leBytes 16 (8 * m.length)).reverse

/-- n consecutive pieces of k bytes. -/
def pieces (k : Nat) : Nat → List Byte → List (List Byte)
  | 0, _ => []
  | n + 1, bs => bs.take k :: pieces k n (bs.drop k)

/-- The 64-byte hash of a message from eight initial words. -/
def sha2 (init : List Word) (m : List Byte) : List Byte :=
  let p := shaPad m
  let blocks := pieces 128 (p.length / 128) p
  let w (k : Nat) : Word := init.getD k 0
  let h := blocks.foldl (fun h b => shaBlock h ((pieces 8 16 b).map beWord)) ⟨w 0, w 1, w 2, w 3, w 4, w 5, w 6, w 7⟩
  [h.a, h.b, h.c, h.d, h.e, h.f, h.g, h.h].flatMap (fun x => (leBytes 8 x.toNat).reverse)

/-- SHA-384: 48 bytes in order. -/
def sha384 (m : List Byte) : List Byte := (sha2 shaInit m).take 48

/-- SHA-512, which RFC 8032 uses: its initial words come from the square roots of the first 8 primes. -/
def sha512 (m : List Byte) : List Byte :=
  sha2 ((primes80.take 8).map (fun p => BitVec.ofNat 64 (rootFrom 2 (p * 2 ^ 128) 68 0))) m

/-- The hash as a register holds it, its first byte lowest. -/
def sha384Reg (m : List Byte) : BitVec 384 := BitVec.ofNat 384 (ofLeBytes (sha384 m))

end Sys2Proof.Machine
end

