-- ==== Sys2Proof/Machine/Ed25519.lean ====
section
/-! DEFINITION. Pure Ed25519 as RFC 8032 gives it: verification and signing (spec/13 R306, R313; spec/10 R248). The spec names
the standard and its option; the algorithm is the standard's.
PRESUMED, unsafe: notes/assumptions/33. -/

namespace Sys2Proof.Machine

/-- The prime of the field. -/
def edP : Nat := 2 ^ 255 - 19

/-- The order of the base point. -/
def edL : Nat := 2 ^ 252 + 27742317777372353535851937790883648493

/-- b to the e modulo m, by the low n bits of e. -/
def powMod (m b : Nat) : Nat → Nat → Nat
  | 0, _ => 1 % m
  | n + 1, e => let r := powMod m (b * b % m) n (e / 2); if e % 2 = 1 then b * r % m else r

/-- The inverse in the field. -/
def edInv (x : Nat) : Nat := powMod edP x 255 (edP - 2)

/-- The curve's constant: -121665/121666. -/
def edD : Nat := (edP - 121665) * edInv 121666 % edP

/-- A point of the curve in extended homogeneous coordinates. -/
structure EdPoint where
  x : Nat
  y : Nat
  z : Nat
  t : Nat
  deriving DecidableEq, Repr

def EdPoint.zero : EdPoint := ⟨0, 1, 1, 0⟩

/-- The sum of two points (RFC 8032, 5.1.4). -/
def EdPoint.add (p q : EdPoint) : EdPoint :=
  let a := (p.y + edP - p.x) * (q.y + edP - q.x) % edP
  let b := (p.y + p.x) * (q.y + q.x) % edP
  let c := 2 * p.t * edD * q.t % edP
  let d := 2 * p.z * q.z % edP
  let e := b + edP - a
  let f := d + edP - c
  let g := d + c
  let h := b + a
  ⟨e * f % edP, g * h % edP, f * g % edP, e * h % edP⟩

/-- A point k times, k below 2^n. -/
def EdPoint.times (p : EdPoint) : Nat → Nat → EdPoint
  | 0, _ => .zero
  | n + 1, k => let r := EdPoint.times (p.add p) n (k / 2); if k % 2 = 1 then p.add r else r

def EdPoint.same (p q : EdPoint) : Bool :=
  p.x * q.z % edP == q.x * p.z % edP && p.y * q.z % edP == q.y * p.z % edP

/-- The 32 bytes of a point (RFC 8032, 5.1.2). -/
def EdPoint.bytes (p : EdPoint) : List Byte :=
  let i := edInv p.z
  leBytes 32 (p.y * i % edP + 2 ^ 255 * (p.x * i % edP % 2))

/-- The point with an ordinate and the low bit of its abscissa (RFC 8032, 5.1.3). -/
def edDecompress (y sign : Nat) : Option EdPoint :=
  let u := (y * y + edP - 1) % edP
  let v := (edD * (y * y) + 1) % edP
  let x := u * powMod edP v 2 3 * powMod edP (u * powMod edP v 3 7 % edP) 252 ((edP - 5) / 8) % edP
  let point (x : Nat) : Option EdPoint :=
    if x = 0 ∧ sign = 1 then none
    else let x := if x % 2 = sign then x else edP - x; some ⟨x, y, 1, x * y % edP⟩
  if edP ≤ y then none
  else if v * x * x % edP = u then point x
  else if v * x * x % edP = (edP - u) % edP then point (x * powMod edP 2 253 ((edP - 1) / 4) % edP)
  else none

def edDecode (bs : List Byte) : Option EdPoint :=
  let n := ofLeBytes bs
  edDecompress (n % 2 ^ 255) (n / 2 ^ 255)

/-- The base point: ordinate 4/5, even abscissa. -/
def edBase : EdPoint := (edDecompress (4 * edInv 5 % edP) 0).getD .zero

/-- A hash as a scalar. -/
def edScalar (m : List Byte) : Nat := ofLeBytes (sha512 m) % edL

/-- Whether a signature verifies (RFC 8032, 5.1.7). The standard lets a verifier leave out the factor 8. -/
def ed25519Verifies (key message signature : List Byte) : Bool :=
  match edDecode key, edDecode (signature.take 32) with
  | some a, some r =>
    let k := edScalar (signature.take 32 ++ key ++ message)
    let n := ofLeBytes (signature.drop 32)
    let left := edBase.times 253 n
    let right := r.add (a.times 253 k)
    decide (n < edL) && (if Config.ed25519Cofactor then (left.times 4 8).same (right.times 4 8) else left.same right)
  | _, _ => false

/-- The signature of a message by the key with a seed (RFC 8032, 5.1.5 and 5.1.6). -/
def ed25519Sign (seed message : List Byte) : List Byte :=
  let h := sha512 seed
  let low := ofLeBytes (h.take 32)
  let a := low % 2 ^ 254 / 8 * 8 + 2 ^ 254
  let key := (edBase.times 255 a).bytes
  let r := edScalar (h.drop 32 ++ message)
  let big := (edBase.times 253 r).bytes
  big ++ leBytes 32 ((r + edScalar (big ++ key ++ message) * a) % edL)

end Sys2Proof.Machine
end

