-- ==== Sys2Proof/Machine/Codec.lean ====
section
/-! DEFINITION. Coded FP8: code tables, building one, coding and decoding a block (spec/06 R161 to R166). A table is its
list of entries (SYM, LEN); an unused entry has LEN 0. -/

namespace Sys2Proof.Machine

/-- Exponent bits and mantissa bits of a type code: F8E4 (9) or F8E5 (10). -/
def cf8Exp (et : Nat) : Nat := if et = 9 then 4 else 5

def cf8Man (et : Nat) : Nat := if et = 9 then 3 else 2

/-- The literal entry's SYM (R162). -/
def literalSym : Nat := 32

/-- A list with x put before the first element that it precedes. -/
def insertBy {α : Type} (before : α → α → Bool) (x : α) : List α → List α
  | [] => [x]
  | y :: ys => if before x y then x :: y :: ys else y :: insertBy before x ys

/-- Insertion sort; an element that precedes another comes first. -/
def sortBy {α : Type} (before : α → α → Bool) (l : List α) : List α := l.foldr (insertBy before) []

/-- The used entries in the order of their codewords, (LEN, SYM) (R162). -/
def usedEntries (t : List (Nat × Nat)) : List (Nat × Nat) :=
  sortBy (fun a b => decide (a.2 < b.2) || (a.2 == b.2 && decide (a.1 ≤ b.1))) (t.filter (fun e => e.2 != 0))

/-- Canonical codewords: (SYM, LEN, codeword) for entries in order, from the next codeword and the last length. -/
def codewordsFrom : List (Nat × Nat) → Nat → Nat → List (Nat × Nat × Nat)
  | [], _, _ => []
  | (sym, len) :: es, code, prev =>
    let c := code * 2 ^ (len - prev)
    (sym, len, c) :: codewordsFrom es (c + 1) len

/-- The codewords of a table (R162). -/
def codewords (t : List (Nat × Nat)) : List (Nat × Nat × Nat) :=
  match usedEntries t with
  | [] => []
  | e :: es => codewordsFrom (e :: es) 0 e.2

/-- Whether entries make a valid table for a type: lengths to 8, symbols of the type, and a sum of 2^−LEN at most 1
(R162, R242). -/
def tableValid (et : Nat) (t : List (Nat × Nat)) : Bool :=
  t.all (fun e => e.2 == 0 || (decide (e.2 ≤ 8) && (decide (e.1 < 2 ^ cf8Exp et) || (et == 10 && e.1 == literalSym)))) &&
    decide ((t.map (fun e => if e.2 = 0 then 0 else 2 ^ (8 - e.2))).sum ≤ 256)

/-! Building a table (R163). -/

/-- A package of the package-merge method: its weight, and its symbols, least first. -/
abbrev Package := Nat × List Nat

def packageBefore (a b : Package) : Bool :=
  decide (a.1 < b.1) || (a.1 == b.1 && decide (a.2.headD 0 ≤ b.2.headD 0))

/-- Neighbours joined in pairs; an odd last one is dropped. -/
def pairUp : List Package → List Package
  | a :: b :: l => (a.1 + b.1, sortBy (fun x y => decide (x ≤ y)) (a.2 ++ b.2)) :: pairUp l
  | _ => []

/-- The items and the packages of the lists before it, merged in order, after k rounds. -/
def mergeRounds (items : List Package) : Nat → List Package
  | 0 => sortBy packageBefore items
  | k + 1 => sortBy packageBefore (items ++ pairUp (mergeRounds items k))

/-- Lengths of an optimal prefix code limited to 8 bits, as (SYM, LEN) (R163 steps 4 and 5). -/
def codeLengths (weights : List (Nat × Nat)) : List (Nat × Nat) :=
  match weights with
  | [] => []
  | [(sym, _)] => [(sym, 1)]
  | _ =>
    let items := weights.map (fun w => (w.2, [w.1]))
    let chosen := ((mergeRounds items 7).take (2 * weights.length - 2)).flatMap (fun p => p.2)
    weights.map (fun w => (w.1, (chosen.filter (fun x => x == w.1)).length))

/-- The exponent field of an element. -/
def expField (et x : Nat) : Nat := x / 2 ^ cf8Man et % 2 ^ cf8Exp et

/-- The symbols and weights of a tensor from the counts of its exponent fields (R163 steps 1 to 3). -/
def symbolWeights (et : Nat) (counts : List Nat) : List (Nat × Nat) :=
  let all := (counts.zipIdx.map (fun c => (c.2, c.1))).filter (fun c => c.2 != 0)
  if et = 9 then all
  else
    let ranked := sortBy (fun a b => decide (b.2 < a.2) || (a.2 == b.2 && decide (a.1 ≤ b.1))) all
    let kept := ranked.take 15
    let rest := ((ranked.drop 15).map (fun c => c.2)).sum
    sortBy (fun a b => decide (a.1 ≤ b.1)) kept ++ [(literalSym, if rest = 0 then 1 else rest)]

/-- The table that XZTAB builds from the counts: 16 entries, the used ones in ascending SYM order. -/
def buildTable (et : Nat) (counts : List Nat) : List (Nat × Nat) :=
  let t := codeLengths (symbolWeights et counts)
  t ++ List.replicate (16 - t.length) (0, 0)

/-- The 64-byte image of a table (R242). -/
def tableImage (et : Nat) (t : List (Nat × Nat)) : List Byte :=
  leBytes 32 et ++ t.flatMap (fun e => leBytes 2 (e.1 % 64 + e.2 % 16 * 256))

/-- A table image read back, where it is one (R242). -/
def readImage (r : Nat) : Option (Nat × List (Nat × Nat)) :=
  let et := r % 256
  let es := (List.range 16).map (fun k => r / 2 ^ (8 * (32 + 2 * k)) % 65536)
  let t := es.map (fun e => (bits e 5 0, bits e 11 8))
  if (et == 9 || et == 10) && decide (r / 256 % 2 ^ 248 = 0) && es.all (fun e => bits e 7 6 == 0 && bits e 15 12 == 0)
    && tableValid et t then some (et, t) else none

/-! Blocks (R161). -/

/-- One byte through the CRC-8 of polynomial 0x07, most significant bit first. -/
def crc8Byte (crc : Nat) (b : Byte) : Nat :=
  (List.range 8).foldl (fun c _ => if 128 ≤ c then (c * 2 % 256) ^^^ 7 else c * 2 % 256) (crc ^^^ b.toNat)

def crc8 (bs : List Byte) : Nat := bs.foldl crc8Byte 0

/-- A number's low n bits, most significant first. -/
def bitsOf : Nat → Nat → List Bool
  | 0, _ => []
  | n + 1, x => x.testBit n :: bitsOf n x

def ofBits (l : List Bool) : Nat := l.foldl (fun a b => 2 * a + b.toNat) 0

/-- A bit string as bytes, written from bit 7 of the first byte downward, padded with zeros. -/
def packBits : Nat → List Bool → List Byte
  | 0, _ => []
  | n + 1, l => BitVec.ofNat 8 (ofBits (l.take 8) * 2 ^ (8 - min 8 l.length)) :: packBits n (l.drop 8)

/-- The bits of an element: sign, codeword, mantissa; none where its exponent has no codeword. -/
def codeElement (et : Nat) (cw : List (Nat × Nat × Nat)) (x : Nat) : Option (List Bool) :=
  let ex := expField et x
  let sign := bitsOf 1 (x / 128)
  let man := bitsOf (cf8Man et) x
  match cw.find? (fun c => c.1 == ex) with
  | some c => some (sign ++ bitsOf c.2.1 c.2.2 ++ man)
  | none =>
    match cw.find? (fun c => c.1 == literalSym && et == 10) with
    | some c => some (sign ++ bitsOf c.2.1 c.2.2 ++ bitsOf 5 ex ++ man)
    | none => none

def codeElements (et : Nat) (cw : List (Nat × Nat × Nat)) : List Nat → Option (List Bool)
  | [] => some []
  | x :: xs =>
    match codeElement et cw x, codeElements et cw xs with
    | some a, some b => some (a ++ b)
    | _, _ => none

/-- A block with its header and check byte. -/
def frameBlock (slot gen len : Nat) (esc : Bool) (body : List Byte) : List Byte :=
  let hb := leBytes 2 (len % 2048 + esc.toNat * 2048 + gen % 4 * 4096 + slot % 4 * 16384) ++ body
  hb ++ [BitVec.ofNat 8 (crc8 hb)]

/-- A block coded with a slot's table, or an escape block (R164). -/
def encodeBlock (slot gen et tableEt : Nat) (t : List (Nat × Nat)) (xs : List Nat) : List Byte :=
  let raw := frameBlock slot gen (8 * xs.length) true (xs.map (fun x => BitVec.ofNat 8 x))
  if et ≠ tableEt then raw
  else
    match codeElements et (codewords t) xs with
    | none => raw
    | some l => if 32 ≤ ceilDiv l.length 8 then raw else frameBlock slot gen l.length false (packBits (ceilDiv l.length 8) l)

/-- The symbol whose codeword begins a bit string, with the bits after it. -/
def takeSymbol (cw : List (Nat × Nat × Nat)) (l : List Bool) : Option (Nat × List Bool) :=
  (cw.find? (fun c => decide (c.2.1 ≤ l.length) && ofBits (l.take c.2.1) == c.2.2)).map (fun c => (c.1, l.drop c.2.1))

/-- n elements decoded from a bit string, none bits left over. -/
def decodeElements (et : Nat) (cw : List (Nat × Nat × Nat)) : Nat → List Bool → Option (List Nat)
  | 0, l => if l.isEmpty then some [] else none
  | n + 1, l =>
    match l with
    | [] => none
    | s :: l =>
      match takeSymbol cw l with
      | none => none
      | some (sym, l) =>
        let lit := sym == literalSym && et == 10
        let ex := if lit then ofBits (l.take 5) else sym
        let l' := if lit then l.drop 5 else l
        if (lit && decide (l.length < 5)) || decide (l'.length < cf8Man et) then none
        else
          (decodeElements et cw n (l'.drop (cf8Man et))).map (fun xs =>
            (s.toNat * 128 + ex * 2 ^ cf8Man et + ofBits (l'.take (cf8Man et))) :: xs)

/-- The size of a block from its header: HDR, BODY and CHK. -/
def blockSize (hdr : Nat) : Nat := 3 + ceilDiv (bits hdr 10 0) 8

/-- A block of n elements decoded, or the number of the check it fails (R165). -/
def decodeBlock (slot gen et n : Nat) (t : List (Nat × Nat)) (bs : List Byte) : Except Nat (List Nat) :=
  let hdr := ofLeBytes (bs.take 2)
  let len := bits hdr 10 0
  let size := blockSize hdr
  let body := (bs.drop 2).take (ceilDiv len 8)
  if bs.length < size || crc8 (bs.take (size - 1)) ≠ (bs.getD (size - 1) 0).toNat then .error 0
  else if bits hdr 15 14 ≠ slot then .error 1
  else if bits hdr 13 12 ≠ gen then .error 2
  else if bit hdr 11 then
    if len = 8 * n then .ok (body.map (fun b => b.toNat)) else .error 3
  else
    let l := body.flatMap (fun b => bitsOf 8 b.toNat)
    if (l.drop len).any id then .error 3
    else
      match decodeElements et (codewords t) n (l.take len) with
      | some xs => .ok xs
      | none => .error 3

end Sys2Proof.Machine
end

