-- ==== Sys2Proof/Machine/Keccak.lean ====
section
/-! DEFINITION. SHAKE128 and SHAKE256 as FIPS 202 gives them, which FIPS 204 uses (spec/13 R306, R313).
PRESUMED, unsafe: notes/assumptions/33. -/

namespace Sys2Proof.Machine

/-- Lane (x, y) of the state of 25 lanes. -/
def keccakLane (a : List Word) (x y : Nat) : Word := a.getD (x % 5 + 5 * (y % 5)) 0

def keccakLanes (f : Nat → Nat → Word) : List Word := (List.range 25).map (fun k => f (k % 5) (k / 5))

/-- The rotations of step rho, walked along (x, y) → (y, 2x + 3y): (x, y, rotation). -/
def keccakTurns : Nat → Nat → Nat → Nat → List (Nat × Nat × Nat)
  | 0, _, _, _ => []
  | n + 1, t, x, y => (x, y, (t + 1) * (t + 2) / 2 % 64) :: keccakTurns n (t + 1) y ((2 * x + 3 * y) % 5)

/-- The rotation of each lane. -/
def keccakTurn : List Nat :=
  let turns := keccakTurns 24 0 1 0
  (List.range 25).map (fun n => ((turns.find? (fun k => k.1 + 5 * k.2.1 == n)).map (fun k => k.2.2)).getD 0)

/-- The shift register of the round constants after t steps. -/
def keccakLfsr : Nat → Nat
  | 0 => 1
  | t + 1 => let r := 2 * keccakLfsr t; if 256 ≤ r then r ^^^ 0x171 else r

/-- The round constants: bit 2^j - 1 is bit j + 7 i of the register's sequence. -/
def keccakConst : List Word :=
  (List.range 24).map (fun i =>
    (List.range 7).foldl (fun c j => c ||| (BitVec.ofNat 64 (keccakLfsr ((j + 7 * i) % 255) % 2) <<< (2 ^ j - 1))) 0)

def keccakRound (a : List Word) (i : Nat) : List Word :=
  let c := (List.range 5).map (fun x => keccakLane a x 0 ^^^ keccakLane a x 1 ^^^ keccakLane a x 2 ^^^ keccakLane a x 3 ^^^ keccakLane a x 4)
  let d := (List.range 5).map (fun x => c.getD ((x + 4) % 5) 0 ^^^ (c.getD ((x + 1) % 5) 0).rotateLeft 1)
  let turned := keccakLanes (fun x y => (keccakLane a x y ^^^ d.getD x 0).rotateLeft (keccakTurn.getD (x + 5 * y) 0))
  let b := keccakLanes (fun x y => keccakLane turned (x + 3 * y) x)
  let e := keccakLanes (fun x y => keccakLane b x y ^^^ (~~~(keccakLane b (x + 1) y) &&& keccakLane b (x + 2) y))
  e.modify 0 (fun w => w ^^^ keccakConst.getD i 0)

/-- Keccak-f[1600]. -/
def keccak (a : List Word) : List Word := (List.range 24).foldl keccakRound a

/-- n blocks of rate bytes squeezed from a state. -/
def keccakSqueeze (rate : Nat) : Nat → List Word → List Byte
  | 0, _ => []
  | n + 1, a => (a.flatMap (fun w => leBytes 8 w.toNat)).take rate ++ keccakSqueeze rate n (keccak a)

/-- Blocks of rate bytes absorbed in order. -/
def keccakAbsorb (rate : Nat) : Nat → List Byte → List Word → List Word
  | 0, _, a => a
  | n + 1, m, a =>
    let block := m.take rate
    keccakAbsorb rate n (m.drop rate)
      (keccak ((List.range 25).map (fun k => a.getD k 0 ^^^ BitVec.ofNat 64 (ofLeBytes ((block.drop (8 * k)).take 8)))))

/-- n bytes of an extendable output with a rate: 168 for SHAKE128, 136 for SHAKE256. -/
def shake (rate n : Nat) (m : List Byte) : List Byte :=
  let gap := rate - 1 - m.length % rate
  let padded := m ++ (if gap = 0 then [0x9F] else 0x1F :: (List.replicate (gap - 1) 0 ++ [0x80]))
  (keccakSqueeze rate (ceilDiv n rate) (keccakAbsorb rate (padded.length / rate) padded (List.replicate 25 0))).take n

end Sys2Proof.Machine
end

