-- ==== Sys2Proof/Machine/MlDsa65.lean ====
section
/-! DEFINITION. ML-DSA-65 as FIPS 204 gives it, with an empty context string: verification, and hedged signing (spec/13 R306, R313;
spec/10 R248). The spec names the standard and its options; the algorithm is the standard's. Polynomials are lists of 256
coefficients.
PRESUMED, unsafe: notes/assumptions/33. -/

namespace Sys2Proof.Machine

abbrev Poly := List Int

/-- The modulus. -/
def mlQ : Int := 8380417

def Poly.at (p : Poly) (k : Nat) : Int := p.getD k 0

/-- A polynomial by its coefficients. -/
def poly (f : Nat → Int) : Poly := (List.range 256).map f

def Poly.add (a b : Poly) : Poly := List.zipWith (fun x y => (x + y) % mlQ) a b

def Poly.sub (a b : Poly) : Poly := List.zipWith (fun x y => (x - y) % mlQ) a b

/-- The product in the transformed domain. -/
def Poly.mul (a b : Poly) : Poly := List.zipWith (fun x y => x * y % mlQ) a b

/-- The centred remainder modulo an even number: above -n/2, up to n/2. -/
def mlCentred (n x : Int) : Int := let r := x % n; if n < 2 * r then r - n else r

/-- The largest absolute value of centred coefficients. -/
def normOf (ps : List Poly) : Nat := ps.foldl (fun m p => p.foldl (fun m x => max m (mlCentred mlQ x).natAbs) m) 0

/-- The low 8 bits of a number in reverse. -/
def bitReversed8 (n : Nat) : Nat := (List.range 8).foldl (fun r k => 2 * r + n / 2 ^ k % 2) 0

/-- Powers of an element, by running product. -/
def powersOf (z : Int) : Nat → Int → List Int
  | 0, _ => []
  | n + 1, x => x :: powersOf z n (x * z % mlQ)

/-- The 512 powers of the root 1753. -/
def mlRoots : List Int := powersOf 1753 512 1

/-- The number-theoretic transform: entry j is the value at the root to the power 2 bitReversed8 j + 1. -/
def ntt (p : Poly) : Poly :=
  let roots := mlRoots
  poly (fun j => let z := roots.getD (2 * bitReversed8 j + 1) 0; p.foldr (fun c acc => (acc * z + c) % mlQ) 0)

/-- The inverse transform: 8347681 is the inverse of 256. -/
def invNtt (p : Poly) : Poly :=
  let rs := (List.range 256).map (fun j => 2 * bitReversed8 j + 1)
  let roots := mlRoots.toArray
  poly (fun i =>
    8347681 * (List.zipWith (fun c r => c * roots.getD ((512 - r * i % 512) % 512) 0) p rs).foldl (· + ·) 0 % mlQ)

/-- A matrix times a vector, both transformed. -/
def matVec (m : List (List Poly)) (v : List Poly) : List Poly :=
  m.map (fun row => (List.zipWith Poly.mul row v).foldl Poly.add (poly (fun _ => 0)))

/-! Packing and sampling. -/

/-- Coefficients of w bits each. -/
def mlPack (w : Nat) (p : List Nat) : List Byte := leBytes (w * p.length / 8) (p.foldr (fun x acc => acc * 2 ^ w + x) 0)

def mlUnpack (w n : Nat) (bs : List Byte) : List Nat :=
  let v := ofLeBytes bs
  (List.range n).map (fun k => v / 2 ^ (w * k) % 2 ^ w)

/-- SHAKE256. -/
def mlHash (n : Nat) (m : List Byte) : List Byte := shake 136 n m

/-- A polynomial sampled from three bytes a try, values below the modulus. -/
def rejNtt (seed : List Byte) : Poly :=
  let tries := (pieces 3 448 (shake 168 1344 seed)).map (fun b => ofLeBytes b % 2 ^ 23)
  ((tries.filter (fun n => decide (n < mlQ.toNat))).take 256).map Int.ofNat

/-- A polynomial sampled from half bytes, values -4 to 4. -/
def rejBounded (seed : List Byte) : Poly :=
  let tries := (mlHash 544 seed).flatMap (fun b => [b.toNat % 16, b.toNat / 16])
  ((tries.filter (fun n => decide (n < 9))).take 256).map (fun n => 4 - Int.ofNat n)

/-- The matrix of a public seed, six rows of five. -/
def expandA (rho : List Byte) : List (List Poly) :=
  (List.range 6).map (fun r => (List.range 5).map (fun s => rejNtt (rho ++ leBytes 1 s ++ leBytes 1 r)))

/-- The challenge: 49 coefficients of 1 or -1, placed by bytes of the stream not above the place. -/
def placeSigns (signs : Nat) : List Byte → Nat → Poly → Poly
  | [], _, c => c
  | b :: bs, i, c =>
    if 256 ≤ i then c
    else if i < b.toNat then placeSigns signs bs i c
    else placeSigns signs bs (i + 1)
      ((c.set i (c.at b.toNat)).set b.toNat (if signs.testBit (i - 207) then -1 else 1))

def sampleInBall (seed : List Byte) : Poly :=
  let s := mlHash 1088 seed
  placeSigns (ofLeBytes (s.take 8)) (s.drop 8) 207 (poly (fun _ => 0))

/-! Rounding. -/

/-- High and low part of a coefficient about multiples of 523,776. -/
def mlSplit (r : Int) : Int × Int :=
  let r := r % mlQ
  let low := mlCentred 523776 r
  if r - low = mlQ - 1 then (0, low - 1) else ((r - low) / 523776, low)

def useHint (hint : Bool) (r : Int) : Int :=
  let d := mlSplit r
  if hint then (if 0 < d.2 then d.1 + 1 else d.1 - 1) % 16 else d.1

/-- High parts as 4 bits each. -/
def encodeHigh (w : List Poly) : List Byte := w.flatMap (fun p => mlPack 4 (p.map Int.toNat))

/-- The places of the hints of one polynomial, which rise strictly. -/
def mlRising : List Nat → Bool
  | a :: b :: l => decide (a < b) && mlRising (b :: l)
  | _ => true

/-- The hints of six polynomials from their 61 bytes: the places, and where those of each polynomial end. -/
def unpackHints (bs : List Byte) : Option (List (List Nat)) :=
  let y := bs.map (fun b => b.toNat)
  let ends := (y.drop 55).take 6
  let starts := 0 :: ends.take 5
  let parts := List.zipWith (fun a b => ((y.take 55).take b).drop a) starts ends
  if (List.zipWith (fun a b => decide (a ≤ b ∧ b ≤ 55)) starts ends).all id && parts.all mlRising
      && ((y.take 55).drop (ends.getD 5 0)).all (· == 0)
  then some parts else none

def packHints (parts : List (List Nat)) : List Byte :=
  let places := parts.flatMap id
  let ends := (List.range 6).map (fun k => ((parts.take (k + 1)).flatMap id).length)
  (places ++ List.replicate (55 - places.length) 0 ++ ends).map (fun n => BitVec.ofNat 8 n)

/-! Verification and signing. -/

/-- The message with its empty context string, hashed with the hash of the public key. -/
def mlMessage (tr message : List Byte) : List Byte := mlHash 64 (tr ++ [0, 0] ++ message)

/-- Whether a signature verifies (FIPS 204, algorithms 3 and 8). -/
def mlDsa65Verifies (key message signature : List Byte) : Bool :=
  let t1 := (List.range 6).map (fun i => (mlUnpack 10 256 (((key.drop (32 + 320 * i))).take 320)).map (fun n => 8192 * Int.ofNat n))
  let c := signature.take 48
  let z := (List.range 5).map (fun i =>
    (mlUnpack 20 256 ((signature.drop (48 + 640 * i)).take 640)).map (fun n => 524288 - Int.ofNat n))
  let a := expandA (key.take 32)
  let ball := ntt (sampleInBall c)
  match unpackHints (signature.drop 3248) with
  | none => false
  | some hints =>
    let w := (List.zipWith (fun x t => invNtt (x.sub (ball.mul (ntt t)))) (matVec a (z.map ntt)) t1)
    let w1 := List.zipWith (fun (p : Poly) (h : List Nat) => poly (fun k => useHint (h.contains k) (p.at k))) w hints
    decide (key.length = 1952 ∧ signature.length = 3309) && a.all (fun row => row.all (fun p => p.length == 256))
      && decide (normOf z < 524092) && mlHash 48 (mlMessage (mlHash 64 key) message ++ encodeHigh w1) == c

/-- A key pair from its seed (FIPS 204, algorithm 6): public key, transformed secrets, and the seed of its masks. -/
structure MlKey where
  pub : List Byte
  a : List (List Poly)
  s1 : List Poly
  s2 : List Poly
  t0 : List Poly
  k : List Byte

def mlKeyOf (seed : List Byte) : MlKey :=
  let h := mlHash 128 (seed ++ [6, 5])
  let small (r : Nat) : Poly := rejBounded ((h.drop 32).take 64 ++ leBytes 2 r)
  let a := expandA (h.take 32)
  let s1 := ((List.range 5).map small).map ntt
  let s2 := (List.range' 5 6).map small
  let t := List.zipWith (fun x s => (invNtt x).add s) (matVec a s1) s2
  { pub := h.take 32 ++ t.flatMap (fun p => mlPack 10 (p.map (fun x => ((x - mlCentred 8192 x) / 8192).toNat)))
    a := a
    s1 := s1
    s2 := s2.map ntt
    t0 := t.map (fun p => ntt (p.map (mlCentred 8192)))
    k := h.drop 96 }

/-- One try at a signature with masks numbered from n (FIPS 204, algorithm 7). -/
def mlTry (key : MlKey) (mu masks : List Byte) (n : Nat) : Option (List Byte) :=
  let y := (List.range 5).map (fun r =>
    (mlUnpack 20 256 (mlHash 640 (masks ++ leBytes 2 (n + r)))).map (fun v => 524288 - Int.ofNat v))
  let w := (matVec key.a (y.map ntt)).map invNtt
  let c := mlHash 48 (mu ++ encodeHigh (w.map (fun p => p.map (fun x => (mlSplit x).1))))
  let ball := ntt (sampleInBall c)
  let times (v : List Poly) : List Poly := v.map (fun p => invNtt (ball.mul p))
  let z := List.zipWith Poly.add y (times key.s1)
  let low := List.zipWith Poly.sub w (times key.s2)
  let ct := times key.t0
  let sum := List.zipWith Poly.add low ct
  let hints := List.zipWith (fun (p q : Poly) =>
    (List.range 256).filter (fun k => decide ((mlSplit (p.at k)).1 ≠ (mlSplit (q.at k)).1))) sum low
  if 524092 ≤ normOf z ∨ 261692 ≤ normOf (low.map (fun p => p.map (fun x => (mlSplit x).2))) ∨ 261888 ≤ normOf ct
      ∨ 55 < (hints.flatMap id).length then none
  else some (c ++ z.flatMap (fun p => mlPack 20 (p.map (fun x => (524288 - mlCentred mlQ x).toNat))) ++ packHints hints)

/-- The first try that succeeds, of at most the given number. -/
def mlTries (key : MlKey) (mu masks : List Byte) : Nat → Nat → Option (List Byte)
  | 0, _ => none
  | m + 1, n => (mlTry key mu masks n).orElse (fun _ => mlTries key mu masks m (n + 5))

/-- The signature of a message by the key with a seed, hedged by 32 random bytes (FIPS 204, algorithms 2 and 7), within the 814
tries that its appendix C asks for at least. -/
def mlDsa65Sign (seed hedge message : List Byte) : Option (List Byte) :=
  let key := mlKeyOf seed
  let mu := mlMessage (mlHash 64 key.pub) message
  mlTries key mu (mlHash 64 (key.k ++ hedge ++ mu)) 814 0

end Sys2Proof.Machine
end

