-- ==== Sys2Proof/Machine/Float.lean ====
section
/-! DEFINITION. The floating formats and their arithmetic: exact values, one rounding (spec/06 R143 to R156, spec/14
R336 to R351, spec/16 R406, R407). An exact value is a sign, a whole number, a power of two, and whether something
smaller than one unit of that number is left over. -/

namespace Sys2Proof.Machine

/-- A float layout: exponent and mantissa widths, bias, the largest finite exponent field and the largest mantissa there,
and whether the layout has infinities, NaNs and signalling NaNs (Table 6.2). -/
structure FloatFmt where
  e : Nat
  m : Nat
  bias : Nat
  maxE : Nat
  maxM : Nat
  hasInf : Bool
  hasNan : Bool
  canon : Nat
  deriving DecidableEq, Repr

/-- Table 6.2. -/
def floatFmt : ElemType → FloatFmt
  | .f64 => ⟨11, 52, 1023, 2046, 2 ^ 52 - 1, true, true, 0x7FF8000000000000⟩
  | .f16 => ⟨5, 10, 15, 30, 2 ^ 10 - 1, true, true, 0x7E00⟩
  | .bf16 => ⟨8, 7, 127, 254, 2 ^ 7 - 1, true, true, 0x7FC0⟩
  | .f8e5 => ⟨5, 2, 15, 30, 3, true, true, 0x7E⟩
  | .f8e4 => ⟨4, 3, 7, 15, 6, false, true, 0x7F⟩
  | .f4 => ⟨2, 1, 1, 3, 1, false, false, 0⟩
  | _ => ⟨8, 23, 127, 254, 2 ^ 23 - 1, true, true, 0x7FC00000⟩

/-- What a float pattern holds (R145, R146). -/
inductive FVal where
  | nan (signalling : Bool)
  | inf (neg : Bool)
  | fin (neg : Bool) (man : Nat) (exp : Int)
  deriving DecidableEq, Repr

/-- The sticky flags of FPCTL by their places in Table 6.3. -/
def flagNV : Nat := 8
def flagDZ : Nat := 16
def flagOF : Nat := 32
def flagUF : Nat := 64
def flagNX : Nat := 128

/-- A pattern and the flags it raises. -/
abbrev FRes := Nat × Nat

/-- The value of a pattern (R145). -/
def fdecode (f : FloatFmt) (x : Nat) : FVal :=
  let s := bit x (f.e + f.m)
  let ex := bits x (f.e + f.m - 1) f.m
  let man := x % 2 ^ f.m
  if f.hasInf && ex == 2 ^ f.e - 1 then
    if man = 0 then .inf s else .nan (decide (f.m ≥ 7) && !bit man (f.m - 1))
  else if f.hasNan && ex == 2 ^ f.e - 1 && man == 2 ^ f.m - 1 then .nan false
  else if ex = 0 then .fin s man (1 - (f.bias : Int) - f.m)
  else .fin s (man + 2 ^ f.m) ((ex : Int) - f.bias - f.m)

def signBit (f : FloatFmt) (neg : Bool) : Nat := neg.toNat * 2 ^ (f.e + f.m)

def FVal.isNan : FVal → Bool
  | .nan _ => true
  | _ => false

def FVal.isSig : FVal → Bool
  | .nan s => s
  | _ => false

def FVal.isZero : FVal → Bool
  | .fin _ 0 _ => true
  | _ => false

def FVal.isInf : FVal → Bool
  | .inf _ => true
  | _ => false

/-- The sign of a value; a NaN has none. -/
def FVal.neg : FVal → Bool
  | .nan _ => false
  | .inf s => s
  | .fin s _ _ => s

def maxFinite (f : FloatFmt) (neg : Bool) : Nat := signBit f neg + f.maxE * 2 ^ f.m + f.maxM

/-- Infinity; the canonical NaN where the layout has NaNs but no infinity, the largest finite value where it has
neither (R152 step 3). -/
def infinity (f : FloatFmt) (neg : Bool) : Nat :=
  if f.hasInf then signBit f neg + (2 ^ f.e - 1) * 2 ^ f.m
  else if f.hasNan then f.canon
  else maxFinite f neg

/-- Number of binary digits. -/
def bitLen (n : Nat) : Nat := if n = 0 then 0 else Nat.log2 n + 1

/-- Whether the magnitude goes up: whole part a, remainder r of 2^sh with more below it when sticky (Table 6.4, R153).
q is the deciding generator. -/
def roundUp (mode : Nat) (neg : Bool) (a r sh : Nat) (sticky : Bool) (q : Nat) : Bool :=
  let half := 2 ^ sh / 2
  match mode with
  | 0 => decide (half < r) || (r == half && (sticky || a % 2 == 1))
  | 1 => false
  | 2 => neg
  | 3 => !neg
  | 4 => decide (half ≤ r)
  | _ => decide (q < r * 2 ^ 32 / 2 ^ sh)

/-- Round(ET, x, rm) of R152 for the exact value ± man × 2^exp, plus something below one unit when sticky. With sat an
overflow is held at the largest finite value (Table 6.5). -/
def fround (f : FloatFmt) (mode : Nat) (q : Nat) (sat : Bool) (neg : Bool) (man : Nat) (exp : Int) (sticky : Bool) : FRes :=
  if man = 0 && !sticky then (signBit f neg, 0)
  else
    let emin : Int := 1 - f.bias
    let lead : Int := exp + bitLen man - 1
    let qe : Int := max lead emin - f.m
    let sh := (qe - exp).toNat
    let a := if exp ≤ qe then man / 2 ^ sh else man * 2 ^ (exp - qe).toNat
    let r := if exp ≤ qe then man % 2 ^ sh else 0
    let inexact := r != 0 || sticky
    let b := if inexact && roundUp mode neg a r sh sticky q then a + 1 else a
    let (b, qe) := if 2 ^ (f.m + 1) ≤ b then (b / 2, qe + 1) else (b, qe)
    let e : Int := qe + f.m + f.bias
    if 2 ^ f.m ≤ b && (decide ((f.maxE : Int) < e) || (e == f.maxE && decide (f.maxM < b - 2 ^ f.m))) then
      let toMax := sat || mode == 1 || (mode == 2 && !neg) || (mode == 3 && neg)
      (if toMax then maxFinite f neg else infinity f neg, flagOF ||| flagNX)
    else
      let tiny := decide (b < 2 ^ f.m)
      let fl := if inexact then (if tiny then flagNX ||| flagUF else flagNX) else 0
      (signBit f neg + (if tiny then b else e.toNat * 2 ^ f.m + (b - 2 ^ f.m)), fl)

/-- NV when an operand is a signalling NaN (R146). -/
def sigFlag (vs : List FVal) : Nat := if vs.any FVal.isSig then flagNV else 0

/-- The sum of two exact finite values rounded once; an exact zero sum of opposite signs is +0, or −0 under RDN
(R336). -/
def fsum (f : FloatFmt) (mode q : Nat) (s1 : Bool) (m1 : Nat) (e1 : Int) (s2 : Bool) (m2 : Nat) (e2 : Int) : FRes :=
  let base := min e1 e2
  let x : Int := (m1 * 2 ^ (e1 - base).toNat : Nat)
  let y : Int := (m2 * 2 ^ (e2 - base).toNat : Nat)
  let t := (if s1 then -x else x) + (if s2 then -y else y)
  if t = 0 then
    (signBit f (if m1 = 0 && m2 = 0 && s1 == s2 then s1 else mode == 2), 0)
  else fround f mode q false (decide (t < 0)) t.natAbs base false

/-- FADD (R336). -/
def fadd (f : FloatFmt) (mode q : Nat) (x y : FVal) : FRes :=
  match x, y with
  | .inf s, .inf t => if s == t then (infinity f s, 0) else (f.canon, flagNV)
  | .inf s, .fin _ _ _ => (infinity f s, 0)
  | .fin _ _ _, .inf t => (infinity f t, 0)
  | .fin s m e, .fin t n d => fsum f mode q s m e t n d
  | _, _ => (f.canon, sigFlag [x, y])

/-- A value with its sign flipped; a NaN has none. -/
def FVal.negate : FVal → FVal
  | .nan s => .nan s
  | .inf s => .inf (!s)
  | .fin s m e => .fin (!s) m e

/-- FSUB (R353). -/
def fsub (f : FloatFmt) (mode q : Nat) (x y : FVal) : FRes := fadd f mode q x y.negate

/-- FMUL (R350). -/
def fmul (f : FloatFmt) (mode q : Nat) (x y : FVal) : FRes :=
  match x, y with
  | .nan _, _ => (f.canon, sigFlag [x, y])
  | _, .nan _ => (f.canon, sigFlag [x, y])
  | .fin s m e, .fin t n d => fround f mode q false (s != t) (m * n) (e + d) false
  | _, _ => if x.isZero || y.isZero then (f.canon, flagNV) else (infinity f (x.neg != y.neg), 0)

/-- The quotient m / n × 2^exp rounded once, with bits to spare for the stochastic mode. -/
def fquot (f : FloatFmt) (mode q : Nat) (neg : Bool) (m n : Nat) (exp : Int) : FRes :=
  let k := f.m + 40 + bitLen n
  fround f mode q false neg (m * 2 ^ k / n) (exp - k) (decide (m * 2 ^ k % n ≠ 0))

/-- FDIV (R343). -/
def fdiv (f : FloatFmt) (mode q : Nat) (x y : FVal) : FRes :=
  let neg := x.neg != y.neg
  match x, y with
  | .nan _, _ => (f.canon, sigFlag [x, y])
  | _, .nan _ => (f.canon, sigFlag [x, y])
  | .inf _, .inf _ => (f.canon, flagNV)
  | .inf _, .fin _ _ _ => (infinity f neg, 0)
  | .fin _ _ _, .inf _ => (signBit f neg, 0)
  | .fin _ m e, .fin _ n d =>
    if n = 0 then (if m = 0 then (f.canon, flagNV) else (infinity f neg, flagDZ))
    else fquot f mode q neg m n (e - d)

/-- The whole square root, found bit by bit from the highest. -/
def isqrtFrom (v : Nat) : Nat → Nat → Nat
  | 0, r => r
  | k + 1, r => isqrtFrom v k (if (r + 2 ^ k) * (r + 2 ^ k) ≤ v then r + 2 ^ k else r)

def isqrt (v : Nat) : Nat := isqrtFrom v (bitLen v / 2 + 1) 0

/-- FSQRT (R351). -/
def fsqrt (f : FloatFmt) (mode q : Nat) (x : FVal) : FRes :=
  match x with
  | .nan s => (f.canon, if s then flagNV else 0)
  | .inf s => if s then (f.canon, flagNV) else (infinity f false, 0)
  | .fin s m e =>
    if m = 0 then (signBit f s, 0)
    else if s then (f.canon, flagNV)
    else
      let (m, e) := if e % 2 = 0 then (m, e) else (2 * m, e - 1)
      let k := f.m + 46
      let v := m * 2 ^ (2 * k)
      let r := isqrt v
      fround f mode q false false r (e / 2 - k) (decide (r * r ≠ v))

/-- FMA (R347): one rounding; an infinity times a zero is invalid whatever the addend. -/
def ffma (f : FloatFmt) (mode q : Nat) (x y z : FVal) : FRes :=
  if (x.isInf && y.isZero) || (x.isZero && y.isInf) then (f.canon, flagNV)
  else
    match x, y, z with
    | .fin s m e, .fin t n d, .fin u k c => fsum f mode q (s != t) (m * n) (e + d) u k c
    | _, _, _ =>
      if x.isNan || y.isNan || z.isNan then (f.canon, sigFlag [x, y, z])
      else
        let s := x.neg != y.neg
        if x.isInf || y.isInf then
          if z.isInf && z.neg != s then (f.canon, flagNV) else (infinity f s, 0)
        else (infinity f z.neg, 0)

/-- x < y for values that are not NaN; −0 equals +0. -/
def flt (x y : FVal) : Bool :=
  match x, y with
  | .inf s, .inf t => s && !t
  | .inf s, .fin _ _ _ => s
  | .fin _ _ _, .inf t => !t
  | .fin s m e, .fin t n d =>
    let base := min e d
    let a : Int := (m * 2 ^ (e - base).toNat : Nat)
    let b : Int := (n * 2 ^ (d - base).toNat : Nat)
    decide ((if s then -a else a) < (if t then -b else b))
  | _, _ => false

/-- Equality of values that are not NaN. -/
def feq (x y : FVal) : Bool := !x.isNan && !y.isNan && !flt x y && !flt y x

/-- FMIN and FMAX (R348) on patterns a and b: minimumNumber and maximumNumber, an operand, never rounded. -/
def fminmax (f : FloatFmt) (wantMax : Bool) (a b : Nat) : FRes :=
  let x := fdecode f a
  let y := fdecode f b
  let fl := sigFlag [x, y]
  if x.isNan && y.isNan then (f.canon, fl)
  else if x.isNan then (b, fl)
  else if y.isNan then (a, fl)
  else
    let aLess := flt x y || (feq x y && x.neg && !y.neg)
    (if aLess != wantMax then a else b, fl)

/-- FCMP (R340): 0 EQ, 1 NE, 2 LT, 3 LE, 4 GT, 5 GE, with the NV flag. -/
def fcompare (cond : Nat) (x y : FVal) : Bool × Nat :=
  let nan := x.isNan || y.isNan
  let fl := if nan && (x.isSig || y.isSig || decide (2 ≤ cond)) then flagNV else 0
  let r := match cond with
    | 0 => feq x y
    | 1 => !feq x y
    | 2 => flt x y
    | 3 => flt x y || feq x y
    | 4 => flt y x
    | _ => flt y x || feq x y
  (r, fl)

/-- FCLASS (Table 14.4). -/
def fclass (f : FloatFmt) (a : Nat) : Nat :=
  let neg := (bit a (f.e + f.m)).toNat * 8
  match fdecode f a with
  | .nan s => (if s then 5 else 4) + neg
  | .inf _ => 3 + neg
  | .fin _ man exp =>
    if man = 0 then 0 + neg + 16
    else
      let kind := if man < 2 ^ f.m then 1 else 2
      let whole := decide (0 ≤ exp) || decide (man % 2 ^ (-exp).toNat = 0)
      kind + neg + whole.toNat * 16 + ofInt 16 (exp + bitLen man - 1) * 65536

/-! Exponential, logarithm and hyperbolic tangent, exact and rounded once (R406): fixed-point bounds at rising precision
until the digits that decide are the same for both bounds. -/

/-- ln 2 × 2^P from below, short by at most P + 1 units. -/
def ln2Fix (P : Nat) : Nat := (List.range P).foldl (fun s k => s + 2 ^ P / ((k + 1) * 2 ^ (k + 1))) 0

/-- e^y × 2^P from below for y × 2^P given and y < 1: the Taylor series. -/
def expFix (P y : Nat) : Nat :=
  ((List.range P).foldl (fun (a : Nat × Nat) k => (a.1 + a.2, a.2 * y / 2 ^ P / (k + 1))) (0, 2 ^ P)).1

/-- atanh u × 2^P from below for u × 2^P given and u < 1/5. -/
def atanhFix (P u : Nat) : Nat :=
  let u2 := u * u / 2 ^ P
  ((List.range (P / 4 + 1)).foldl (fun (a : Nat × Nat) k => (a.1 + a.2 / (2 * k + 1), a.2 * u2 / 2 ^ P)) (0, u)).1

/-- What the fixed-point bounds leave open, in units: more than every truncation above adds up to. -/
def slack : Nat := 2 ^ 20

/-- Rising precision: the first K digits of a value that is not representable, from its bounds at 2^-P. -/
def settle (K : Nat) (f : Nat → Nat × Nat) : Nat → Nat → Nat × Int
  | 0, P =>
    let lo := (f P).1
    let sh := bitLen lo - K
    (lo / 2 ^ sh, (sh : Int) - P)
  | fuel + 1, P =>
    let (lo, hi) := f P
    let sh := bitLen lo - K
    if lo / 2 ^ sh = hi / 2 ^ sh then (lo / 2 ^ sh, (sh : Int) - P) else settle K f fuel (2 * P)

/-- Digits kept before rounding: the mantissa, 32 for the stochastic mode, and some. -/
def keepDigits (f : FloatFmt) : Nat := f.m + 45

/-- A whole number times a power of two, as its floor and the numerator of its fraction over 2^P, the power being at
least −P. -/
def splitFix (P : Nat) (neg : Bool) (man : Nat) (exp : Int) : Int × Nat :=
  let n : Int := (man * 2 ^ (exp + P).toNat : Nat)
  let v := if neg then -n else n
  (v / (2 ^ P : Nat), (v % (2 ^ P : Nat)).toNat)

/-- VEXP2 (R407). -/
def fexp2 (f : FloatFmt) (mode q : Nat) (x : FVal) : FRes :=
  match x with
  | .nan s => (f.canon, if s then flagNV else 0)
  | .inf s => (if s then 0 else infinity f false, 0)
  | .fin s man exp =>
    let K := keepDigits f
    let lead := exp + bitLen man
    if man = 0 then fround f mode q false false 1 0 false
    else if 15 ≤ lead then
      (if s then fround f mode q false false 1 (-20000) true else fround f mode q false false 1 20000 false)
    else if lead < -((K : Int) + 8) then
      (if s then fround f mode q false false (2 ^ K - 1) (-(K : Int)) true
       else fround f mode q false false (2 ^ K) (-(K : Int)) true)
    else
      let n := (splitFix 512 s man exp).1
      if (splitFix 512 s man exp).2 = 0 then fround f mode q false false 1 n false
      else
        let r := settle K (fun P =>
          let lo := expFix P ((splitFix P s man exp).2 * ln2Fix P / 2 ^ P)
          (lo, lo + slack)) 6 512
        fround f mode q false false r.1 (r.2 + n) true

/-- Bounds of |log2 z| × 2^P for z = a / b near 1, a > b > 0. -/
def log2Near (P a b : Nat) : Nat × Nat :=
  let u := (a - b) * 2 ^ P / (a + b)
  let t := 2 * atanhFix P u
  let l := ln2Fix P
  (t * 2 ^ P / (l + slack), (t + slack) * 2 ^ P / l + 1)

/-- VLOG2 (R407). -/
def flog2 (f : FloatFmt) (mode q : Nat) (x : FVal) : FRes :=
  match x with
  | .nan s => (f.canon, if s then flagNV else 0)
  | .inf s => if s then (f.canon, flagNV) else (infinity f false, 0)
  | .fin s man exp =>
    if man = 0 then (infinity f true, flagDZ)
    else if s then (f.canon, flagNV)
    else
      let len := bitLen man
      let e : Int := exp + len - 1
      let b := 2 ^ (len - 1)
      if man = b then fround f mode q false (decide (e < 0)) e.natAbs 0 false
      else
        -- man / b lies in (1, 2); above √2 the next power of two is nearer
        let high := decide (2 * b * b < man * man)
        let e := if high then e + 1 else e
        let bounds (P : Nat) : Nat × Nat := if high then log2Near P (2 * b) man else log2Near P man b
        -- the value is e + L, or e − L when high, with L the bounded part
        let neg := if e = 0 then high else decide (e < 0)
        let r := settle (keepDigits f) (fun P =>
          let (lo, hi) := bounds P
          if e = 0 then (lo, hi)
          else if neg != high then (e.natAbs * 2 ^ P - hi, e.natAbs * 2 ^ P - lo)
          else (e.natAbs * 2 ^ P + lo, e.natAbs * 2 ^ P + hi)) 6 512
        fround f mode q false neg r.1 r.2 true

/-- VTANH (R407). -/
def ftanh (f : FloatFmt) (mode q : Nat) (x : FVal) : FRes :=
  match x with
  | .nan s => (f.canon, if s then flagNV else 0)
  | .inf s => fround f mode q false s 1 0 false
  | .fin s man exp =>
    let K := keepDigits f
    let lead := exp + bitLen man
    if man = 0 then (signBit f s, 0)
    else if 2 * lead < -((K : Int) + 70) then
      fround f mode q false s (man * 2 ^ K - 1) (exp - K) true
    else if 8 ≤ lead then fround f mode q false s (2 ^ K - 1) (-(K : Int)) true
    else
      let r := settle K (fun P =>
        let y := 2 * man * 2 ^ (exp + P).toNat
        let l := ln2Fix P
        let n := y / (l + slack)
        let lo := expFix P (y - n * (l + slack)) * 2 ^ n
        let hi := (expFix P (y - n * l) + slack) * 2 ^ n
        ((lo - 2 ^ P) * 2 ^ P / (lo + 2 ^ P), (hi - 2 ^ P) * 2 ^ P / (hi + 2 ^ P) + 1)) 6 512
      fround f mode q false s r.1 r.2 true

/-- VRCP (R407): 1 / a. -/
def frcp (f : FloatFmt) (mode q : Nat) (x : FVal) : FRes := fdiv f mode q (.fin false 1 0) x

/-- VRSQ (R407): 1 / √a. -/
def frsq (f : FloatFmt) (mode q : Nat) (x : FVal) : FRes :=
  match x with
  | .nan s => (f.canon, if s then flagNV else 0)
  | .inf s => if s then (f.canon, flagNV) else (0, 0)
  | .fin s man exp =>
    if man = 0 then (infinity f s, flagDZ)
    else if s then (f.canon, flagNV)
    else
      let (m, e) := if exp % 2 = 0 then (man, exp) else (2 * man, exp - 1)
      let p := bitLen m + f.m + 46
      let y := 2 ^ (2 * p) / m
      let r := isqrt y
      fround f mode q false false r (-(p : Int) - e / 2) (decide (2 ^ (2 * p) % m ≠ 0 || r * r ≠ y))

/-! Integers and conversions. -/

/-- The number an integer pattern holds (R143). -/
def intVal (t : ElemType) (x : Nat) : Int :=
  if t.isSigned then toSigned t.width x else ((x % 2 ^ t.width : Nat) : Int)

def intMin (t : ElemType) : Int := if t.isSigned then -((2 ^ (t.width - 1) : Nat) : Int) else 0

def intMax (t : ElemType) : Int :=
  if t.isSigned then ((2 ^ (t.width - 1) : Nat) : Int) - 1 else ((2 ^ t.width : Nat) : Int) - 1

/-- Sat(ET, x) as a pattern. -/
def satInt (t : ElemType) (x : Int) : Nat := ofInt t.width (max (intMin t) (min (intMax t) x))

/-- Whether x lies in the range of an integer type. -/
def inRange (t : ElemType) (x : Int) : Bool := decide (intMin t ≤ x) && decide (x ≤ intMax t)

/-- A finite value rounded to an integer, and whether it was inexact (Table 6.5). -/
def roundInt (mode q : Nat) (neg : Bool) (man : Nat) (exp : Int) : Int × Bool :=
  let sh := (-exp).toNat
  let a := if 0 ≤ exp then man * 2 ^ exp.toNat else man / 2 ^ sh
  let r := if 0 ≤ exp then 0 else man % 2 ^ sh
  let b := if r ≠ 0 && roundUp mode neg a r sh false q then a + 1 else a
  (if neg then -(b : Int) else b, decide (r ≠ 0))

/-- Float to integer (Table 6.5). -/
def floatToInt (st dt : ElemType) (x : Nat) (mode q : Nat) : FRes :=
  match fdecode (floatFmt st) x with
  | .nan _ => (0, flagNV)
  | .inf s => (ofInt dt.width (if s then intMin dt else intMax dt), flagNV)
  | .fin s man exp =>
    let (v, inexact) := roundInt mode q s man exp
    if inRange dt v then (ofInt dt.width v, if inexact then flagNX else 0) else (satInt dt v, flagNV)

/-- Whether a float conversion narrows: the exponent or the significand field becomes shorter. Table 6.5 tells narrower types from
wider ones alone; between types of one width (F16 and BF16, F8E4 and F8E5) either way narrows one field, so that it rounds, and
.SAT holds an infinity at the largest finite value.
DESIGN CHOICE, unsafe: notes/assumptions/74. -/
def narrows (st dt : ElemType) : Bool :=
  decide ((floatFmt dt).e < (floatFmt st).e) || decide ((floatFmt dt).m < (floatFmt st).m)

/-- Float to float (Table 6.5); narrowing to F4 always behaves as with .SAT. -/
def floatToFloat (st dt : ElemType) (x : Nat) (mode q : Nat) (sat : Bool) : FRes :=
  let g := floatFmt dt
  let v := fdecode (floatFmt st) x
  let sat := sat && narrows st dt || dt == .f4
  match v with
  | .nan s => if dt = .f4 then (0, flagNV) else (g.canon, if s then flagNV else 0)
  | .inf s =>
    if sat then (maxFinite g s, flagOF)
    else if g.hasInf then (infinity g s, 0)
    else (g.canon, flagNV)
  | .fin s man exp => fround g mode q sat s man exp false

/-- Convert(st, dt, x, rm, SAT) of Table 6.5, on patterns. -/
def convert (st dt : ElemType) (x mode q : Nat) (sat : Bool) : FRes :=
  let x := x % 2 ^ st.width
  if st.isFloat then
    if dt.isFloat then
      if st = dt then
        match fdecode (floatFmt st) x with
        | .nan s => ((floatFmt st).canon, if s then flagNV else 0)
        | _ => (x, 0)
      else floatToFloat st dt x mode q sat
    else floatToInt st dt x mode q
  else if dt.isFloat then
    let v := intVal st x
    fround (floatFmt dt) mode q (sat || dt == .f4) (decide (v < 0)) v.natAbs 0 false
  else
    let v := intVal st x
    if sat && decide (dt.width < st.width) && !inRange dt v then (satInt dt v, flagNV) else (ofInt dt.width v, 0)

/-- One step of a generator (R153). -/
def rsrStep (x : BitVec 32) : BitVec 32 := if x.getLsbD 0 then (x >>> 1) ^^^ 0x80200003 else x >>> 1

/-- Generator k after a write of VALUE to SEED (R154). -/
def rsrSeed (value : BitVec 32) (k : Nat) : BitVec 32 :=
  let x := value ^^^ BitVec.ofNat 32 (0x9E3779B9 * (k + 1))
  if x = 0 then 1 else x

end Sys2Proof.Machine
end

