-- ==== Sys2Proof/Syntax.lean ====
section
/-! DEFINITION. The instructions and events of the part: one constructor per row of spec/opcode_table.json.
An instruction constructor carries the fields of its format (Table 12.1, R272) under the manual's names; an event
constructor names the strand, core, ring, command or slice it befalls, or carries what the outside brings with it. -/

namespace Sys2Proof

/-- Format G (Table 12.1). -/
structure GFmt where
  gd : BitVec 5
  ga : BitVec 5
  gb : BitVec 5
  gc : BitVec 5
  q : BitVec 8
  deriving DecidableEq, Repr

/-- Format I (Table 12.1). -/
structure IFmt where
  gd : BitVec 5
  ga : BitVec 5
  q : BitVec 6
  imm : BitVec 32
  deriving DecidableEq, Repr

/-- Format B (Table 12.1). -/
structure BFmt where
  ga : BitVec 5
  gb : BitVec 5
  q : BitVec 6
  off : BitVec 32
  deriving DecidableEq, Repr

/-- Format M (Table 12.1). -/
structure MFmt where
  gd : BitVec 5
  ga : BitVec 5
  gb : BitVec 5
  ord : BitVec 3
  scope : BitVec 2
  disp : BitVec 28
  deriving DecidableEq, Repr

/-- Format V (Table 12.1). -/
structure VFmt where of ::
  vd : BitVec 6
  va : BitVec 6
  vb : BitVec 6
  vc : BitVec 6
  gl : BitVec 5
  mk : BitVec 3
  mn : BitVec 1
  et : BitVec 4
  rm : BitVec 3
  q : BitVec 8
  deriving DecidableEq, Repr

/-- Format VM (Table 12.1). -/
structure VMFmt where of ::
  vd : BitVec 6
  vi : BitVec 6
  sx : BitVec 4
  ga : BitVec 5
  gl : BitVec 5
  mk : BitVec 3
  mn : BitVec 1
  et : BitVec 4
  ord : BitVec 3
  scope : BitVec 2
  q : BitVec 9
  deriving DecidableEq, Repr

/-- Format T (Table 12.1). -/
structure TFmt where
  ad : BitVec 2
  va : BitVec 6
  vb : BitVec 6
  gl : BitVec 5
  mr : BitVec 3
  mc : BitVec 3
  eta : BitVec 4
  etb : BitVec 4
  sa : BitVec 4
  sb : BitVec 4
  q : BitVec 7
  deriving DecidableEq, Repr

/-- Format X (Table 12.1). -/
structure XFmt where
  gd : BitVec 5
  ga : BitVec 5
  gb : BitVec 5
  gc : BitVec 5
  vd : BitVec 6
  va : BitVec 6
  vb : BitVec 6
  imm : BitVec 10
  deriving DecidableEq, Repr

/-- The load sizes of Table 15.2. -/
inductive LoadSize where
  | b | h | w | d | bu | hu | wu
  deriving DecidableEq, Repr

/-- The store sizes of R391. -/
inductive StoreSize where
  | b | h | w | d
  deriving DecidableEq, Repr

/-- The atomic operations of OP 0x1C, FN [3:0] (Table 12.2, R322). -/
inductive AmoOp where
  | add | swap | cas | and | or | min | max | minu | maxu
  deriving DecidableEq, Repr

/-- The conditions of FCMP and VCMP (R340, R417). -/
inductive Cond where
  | eq | ne | lt | le | gt | ge
  deriving DecidableEq, Repr

/-- What the power manager measures: the module's draw, and each partition's draw, in watts (R310). -/
structure PowerDraw where
  module : Nat
  parts : List (Nat × Nat)
  deriving DecidableEq, Repr

/-- What a peer asks for (R304): a load of some bytes, a store, or an atomic operation on 4 or 8 bytes, with CAS's expected
value. -/
inductive RemoteKind where
  | load (n : Nat)
  | store (data : List Byte)
  | amo (op : AmoOp) (wide : Bool) (x expected : Word)
  deriving DecidableEq, Repr

/-- One constructor per row of spec/opcode_table.json. -/
inductive Instr where
  /-- ADD (R318): Adds two general registers modulo 2^64 into gd. -/
  | add (o : GFmt)
  /-- SUB (R394): Subtracts gb from ga modulo 2^64 into gd. -/
  | sub (o : GFmt)
  /-- AND (R324): Writes the bitwise AND of ga and gb to gd. -/
  | and (o : GFmt)
  /-- OR (R377): Writes the bitwise OR of ga and gb to gd. -/
  | or (o : GFmt)
  /-- XOR (R449): Writes the bitwise XOR of ga and gb to gd. -/
  | xor (o : GFmt)
  /-- SHL (R382): Shifts ga left by gb mod 64. -/
  | shl (o : GFmt)
  /-- SHR (R382): Shifts ga logically right by gb mod 64. -/
  | shr (o : GFmt)
  /-- SAR (R382): Shifts ga arithmetically right by gb mod 64. -/
  | sar (o : GFmt)
  /-- SLT (R387): Sets gd to 1 when ga is less than gb as signed values. -/
  | slt (o : GFmt)
  /-- SLTU (R387): Sets gd to 1 when ga is less than gb as unsigned values. -/
  | sltu (o : GFmt)
  /-- MIN (R371): Writes the signed smaller of ga and gb. -/
  | min (o : GFmt)
  /-- MAX (R371): Writes the signed larger of ga and gb. -/
  | max (o : GFmt)
  /-- MINU (R371): Writes the unsigned smaller of ga and gb. -/
  | minu (o : GFmt)
  /-- MAXU (R371): Writes the unsigned larger of ga and gb. -/
  | maxu (o : GFmt)
  /-- SEXT (R385): Sign-extends the low n bits of ga into gd. -/
  | sext (o : GFmt)
  /-- ZEXT (R453): Zero-extends the low n bits of ga into gd. -/
  | zext (o : GFmt)
  /-- CLZ (R329): Counts the leading zero bits of ga. -/
  | clz (o : GFmt)
  /-- CTZ (R332): Counts the trailing zero bits of ga. -/
  | ctz (o : GFmt)
  /-- POPC (R379): Counts the set bits of ga. -/
  | popc (o : GFmt)
  /-- ADDI (R319): Adds a sign-extended immediate to ga. -/
  | addi (o : IFmt)
  /-- ANDI (R325): ANDs ga with a sign-extended immediate. -/
  | andi (o : IFmt)
  /-- ORI (R378): ORs ga with a sign-extended immediate. -/
  | ori (o : IFmt)
  /-- XORI (R450): XORs ga with a sign-extended immediate. -/
  | xori (o : IFmt)
  /-- SHLI (R382): Shifts ga left by an immediate from 0 to 63. -/
  | shli (o : IFmt)
  /-- SHRI (R382): Shifts ga logically right by an immediate. -/
  | shri (o : IFmt)
  /-- SARI (R382): Shifts ga arithmetically right by an immediate. -/
  | sari (o : IFmt)
  /-- SLTI (R387): Sets gd to 1 when ga is less than a sign-extended immediate. -/
  | slti (o : IFmt)
  /-- LIH (R370): Places an unsigned immediate in the high word above the low word of ga. -/
  | lih (o : IFmt)
  /-- ADDPC (R320): Writes PC plus a signed byte offset to gd. -/
  | addpc (o : IFmt)
  /-- MUL (R375): Writes the low 64 bits of the product. -/
  | mul (o : GFmt)
  /-- MULH (R375): Writes the high 64 bits of the signed 128-bit product. -/
  | mulh (o : GFmt)
  /-- MULHU (R375): Writes the high 64 bits of the unsigned 128-bit product. -/
  | mulhu (o : GFmt)
  /-- DIV (R334): Divides signed values, giving all ones for a zero divisor. -/
  | div (o : GFmt)
  /-- DIVU (R335): Divides unsigned values, giving all ones for a zero divisor. -/
  | divu (o : GFmt)
  /-- REM (R380): Writes the signed remainder matching DIV. -/
  | rem (o : GFmt)
  /-- REMU (R380): Writes the unsigned remainder matching DIVU. -/
  | remu (o : GFmt)
  /-- FADD (R336): Adds two scalar floats with one rounding. -/
  | fadd (o : GFmt)
  /-- FSUB (R353): Subtracts two scalar floats with one rounding. -/
  | fsub (o : GFmt)
  /-- FMUL (R350): Multiplies two scalar floats with one rounding. -/
  | fmul (o : GFmt)
  /-- FDIV (R343): Divides two scalar floats with one rounding. -/
  | fdiv (o : GFmt)
  /-- FSQRT (R351): Takes the square root of a scalar float. -/
  | fsqrt (o : GFmt)
  /-- FMA (R347): Computes ga times gb plus gc with one rounding. -/
  | fma (o : GFmt)
  /-- FMIN (R349): Returns the minimumNumber of two scalar floats. -/
  | fmin (o : GFmt)
  /-- FMAX (R348): Returns the maximumNumber of two scalar floats. -/
  | fmax (o : GFmt)
  /-- FCMP (R340): Compares two scalar floats under a condition and writes 0 or 1. -/
  | fcmp (o : GFmt)
  /-- FCVT (R342): Converts between scalar float and integer types. -/
  | fcvt (o : GFmt)
  /-- FCLASS (R339): Writes a descriptor word classifying a scalar float. -/
  | fclass (o : GFmt)
  /-- BEQ (R326): Branches when ga equals gb. -/
  | beq (o : BFmt)
  /-- BNE (R326): Branches when ga differs from gb. -/
  | bne (o : BFmt)
  /-- BLT (R326): Branches when ga is less than gb, signed. -/
  | blt (o : BFmt)
  /-- BGE (R326): Branches when ga is at least gb, signed. -/
  | bge (o : BFmt)
  /-- BLTU (R326): Branches when ga is less than gb, unsigned. -/
  | bltu (o : BFmt)
  /-- BGEU (R326): Branches when ga is at least gb, unsigned. -/
  | bgeu (o : BFmt)
  /-- J (R364): Jumps by a word offset. -/
  | j (o : BFmt)
  /-- JAL (R365): Jumps by a word offset and writes the return address to gd. -/
  | jal (o : IFmt)
  /-- JALR (R366): Jumps to a register target and writes the return address to gd. -/
  | jalr (o : IFmt)
  /-- LD (R367): Performs a plain scalar load. -/
  | ld (sz : LoadSize) (o : MFmt)
  /-- LDA (R367): Performs a scalar acquire load at a scope. -/
  | lda (sz : LoadSize) (o : MFmt)
  /-- ST (R391): Performs a plain scalar store. -/
  | st (sz : StoreSize) (o : MFmt)
  /-- STL (R391): Performs a scalar release store at a scope. -/
  | stl (sz : StoreSize) (o : MFmt)
  /-- AMO (R322): Performs an atomic read-modify-write at the coherence point in the scalar agent. -/
  | amo (op : AmoOp) (wide : Bool) (o : MFmt)
  /-- LDFE (R369): Issues a full-empty load that blocks until its granule is full. -/
  | ldfe (wide clr : Bool) (o : MFmt)
  /-- LDFE_WAKE (R108): A blocked LDFE finds its granule full, reads it and optionally clears it. -/
  | ldfeWake (st : Nat)
  /-- STFE (R393): Stores to a scratchpad granule and sets it full in one step. -/
  | stfe (wide : Bool) (o : MFmt)
  /-- WAITW (R445): Reads a word and blocks until it differs from gb. -/
  | waitw (o : MFmt)
  /-- WAITW_WAKE (R445): A write to the watched word wakes WAITW to read again and possibly finish with an acquire. -/
  | waitwWake (st : Nat)
  /-- FENCE_SV (R127): Orders earlier scalar accesses before later vector accesses at a scope. -/
  | fenceSv (o : MFmt)
  /-- FENCE_VS (R127): Stalls until earlier vector accesses are performed before later scalar ones. -/
  | fenceVs (o : MFmt)
  /-- FENCE_VV (R127): Places a barrier in the load-store queue between vector accesses. -/
  | fenceVv (o : MFmt)
  /-- FENCE_ALL (R127): Stalls until all earlier scalar and vector accesses are performed at a scope. -/
  | fenceAll (o : MFmt)
  /-- SETVL (R54): Computes the grant in force and writes the strip length to gd. -/
  | setvl (o : IFmt)
  /-- CTLRD (R330): Reads a control register into gd. -/
  | ctlrd (o : IFmt)
  /-- CTLWR_FPCTL (R151): Waits for earlier queued instructions and writes FPCTL. -/
  | ctlwrFpctl (o : IFmt)
  /-- CTLWR_SEED (R154): Writes SEED and reseeds all 64 stochastic-rounding generators. -/
  | ctlwrSeed (o : IFmt)
  /-- CTLWR_TRAPVEC (R255): Checks and sets the hive's local trap entry. -/
  | ctlwrTrapvec (o : IFmt)
  /-- CTLWR_TBLROOT (R77): Traps TABLE_WRITE to the parent, or is composed by firmware at a root. -/
  | ctlwrTblroot (o : IFmt)
  /-- CTLWR_YIELDWIN (R331): Sets the strand's yield window. -/
  | ctlwrYieldwin (o : IFmt)
  /-- CTLWR_SPLIT (R104): Checks, fences, writes back and invalidates L1 and sets the scratchpad size. -/
  | ctlwrSplit (o : IFmt)
  /-- CTLWR (R255): A write to a read-only control register traps PRIVILEGE. -/
  | ctlwr (o : IFmt)
  /-- CYCRD (R333): Reads the core's cycle counter. -/
  | cycrd (o : IFmt)
  /-- CFLUSH (R101): Fences, releases and invalidates instruction-cache lines over a code range. -/
  | cflush (o : GFmt)
  /-- AINV (R79): Advances a child's shadow generation and waits until older walks and accesses are done. -/
  | ainv (o : GFmt)
  /-- TMARK (R312): Writes one trace record of kind 1. -/
  | tmark (o : IFmt)
  /-- TRAP (R256): Raises SOFTWARE precisely with the immediate in TRAPVAL. -/
  | trap (o : IFmt)
  /-- BRK (R327): Raises BREAK precisely with the immediate in TRAPVAL. -/
  | brk (o : IFmt)
  /-- TRET (R257): Returns from a local handler and reissues the trapping instruction. -/
  | tret (o : GFmt)
  /-- TRET_SKIP (R257): Returns from a local handler and skips the trapping instruction. -/
  | tretSkip (o : GFmt)
  /-- NOP (R376): Advances PC with no other effect. -/
  | nop (o : GFmt)
  /-- HNEW (R69): Checks a descriptor and creates a child hive with a suspended initial strand. -/
  | hnew (o : GFmt)
  /-- HGIVE_SHARES (R70): Gives core shares to a child. -/
  | hgiveShares (o : GFmt)
  /-- HGIVE_RING (R70): Gives the ring to a child that holds all 12 cores. -/
  | hgiveRing (o : GFmt)
  /-- HGIVE_FABRIC_BINDINGS (R70): Raises a child's FSLOTS. -/
  | hgiveFabricBindings (o : GFmt)
  /-- HGIVE_MEMORY (R70): Raises a child's WSIZE. -/
  | hgiveMemory (o : GFmt)
  /-- HGIVE_BUCKETS (R70): Raises a child's bucket rates and bursts. -/
  | hgiveBuckets (o : GFmt)
  /-- HTAKE_SHARES (R71): Revokes shares from a subtree, pre-empting and moving their strands. -/
  | htakeShares (o : GFmt)
  /-- HTAKE_RING (R71): Revokes the ring, removing tiles, discarding sessions and pre-empting paired tasks. -/
  | htakeRing (o : GFmt)
  /-- HTAKE_FABRIC_BINDINGS (R71): Reduces FSLOTS in the subtree and undoes excess bindings. -/
  | htakeFabricBindings (o : GFmt)
  /-- HTAKE_MEMORY (R71): Turns shadow leaves of a range into revoked markers and stops engine commands. -/
  | htakeMemory (o : GFmt)
  /-- HTAKE_BUCKETS (R71): Reduces descendants' bucket rates in proportion. -/
  | htakeBuckets (o : GFmt)
  /-- HKILL (R72): Destroys a child and every descendant without saving. -/
  | hkill (o : GFmt)
  /-- HSTAT (R73): Writes a 1 KiB status block and posts pending records. -/
  | hstat (o : GFmt)
  /-- HRET_REISSUE (R74): Returns a suspended strand to Waiting to reissue its trapping instruction. -/
  | hretReissue (o : GFmt)
  /-- HRET_SKIP (R74): Resumes a strand after its trapping instruction. -/
  | hretSkip (o : GFmt)
  /-- HRET_DELIVER (R74): Resumes a strand at its hive's TRAPVEC with a given cause. -/
  | hretDeliver (o : GFmt)
  /-- HRET_FORWARD (R74): Forwards a record to the issuer's parent's queue with DECLINED. -/
  | hretForward (o : GFmt)
  /-- HRET_PLACE (R74): Moves a strand to a named share and continues as REISSUE. -/
  | hretPlace (o : GFmt)
  /-- SPAWN (R388): Launches one strand as a gang of one from a launch record. -/
  | spawn (o : GFmt)
  /-- GLAUNCH (R356): Launches a gang of COUNT strands from a launch record. -/
  | glaunch (o : GFmt)
  /-- SQUIT (R389): Waits for the queue and ends the issuing strand. -/
  | squit (o : GFmt)
  /-- SQUIT_COMPLETE (R37): Once the queue is empty and owned sessions' tasks have ended, the strand releases, frees resources and ends. -/
  | squitComplete (st : Nat)
  /-- GBAR (R38): Fences, releases and arrives at the gang barrier. -/
  | gbar (o : GFmt)
  /-- GBAR_COMPLETE (R38): The barrier completes and all waiting strands depart with an acquire. -/
  | gbarComplete (hive : Nat) (gang : BitVec 32)
  /-- GWAIT (R39): Blocks until every strand of a gang has ended. -/
  | gwait (o : GFmt)
  /-- GWAIT_COMPLETE (R39): The gang's last strand ends and GWAIT acquires. -/
  | gwaitComplete (st : Nat)
  /-- YIELD (R262): Marks a cheap pre-emption point, writing a compact save when a request is pending. -/
  | yield (o : GFmt)
  /-- VADD (R409): Adds vector elements. -/
  | vadd (o : VFmt)
  /-- VSUB (R434): Subtracts vector elements. -/
  | vsub (o : VFmt)
  /-- VMUL (R434): Multiplies vector elements. -/
  | vmul (o : VFmt)
  /-- VMULH (R434): Writes the high half of integer element products. -/
  | vmulh (o : VFmt)
  /-- VDIV (R420): Divides vector elements. -/
  | vdiv (o : VFmt)
  /-- VMIN (R434): Writes the smaller of each pair of elements. -/
  | vmin (o : VFmt)
  /-- VMAX (R434): Writes the larger of each pair of elements. -/
  | vmax (o : VFmt)
  /-- VABS (R408): Writes the absolute value of each element. -/
  | vabs (o : VFmt)
  /-- VNEG (R434): Negates each element. -/
  | vneg (o : VFmt)
  /-- VAND (R413): ANDs integer elements. -/
  | vand (o : VFmt)
  /-- VOR (R434): ORs integer elements. -/
  | vor (o : VFmt)
  /-- VXOR (R434): XORs integer elements. -/
  | vxor (o : VFmt)
  /-- VSHL (R434): Shifts integer elements left. -/
  | vshl (o : VFmt)
  /-- VSHR (R434): Shifts integer element patterns right with zero fill. -/
  | vshr (o : VFmt)
  /-- VSAR (R434): Shifts integer element patterns right copying the top bit. -/
  | vsar (o : VFmt)
  /-- VCLAMP (R416): Clamps each element between a low and a high bound. -/
  | vclamp (o : VFmt)
  /-- VFMA (R424): Computes a times b plus c per element with one rounding. -/
  | vfma (o : VFmt)
  /-- VSQRT (R434): Takes the square root of each float element. -/
  | vsqrt (o : VFmt)
  /-- VRCP (R434): Takes the reciprocal of each float element. -/
  | vrcp (o : VFmt)
  /-- VRSQ (R434): Takes the reciprocal square root of each float element. -/
  | vrsq (o : VFmt)
  /-- VEXP2 (R421): Takes 2 to the power of each float element. -/
  | vexp2 (o : VFmt)
  /-- VLOG2 (R433): Takes the base-2 logarithm of each float element. -/
  | vlog2 (o : VFmt)
  /-- VTANH (R434): Takes the hyperbolic tangent of each float element. -/
  | vtanh (o : VFmt)
  /-- VCMP (R417): Compares elements under a condition into a mask register. -/
  | vcmp (c : Cond) (o : VFmt)
  /-- VSEL (R440): Chooses elements from va or vb by a selector mask. -/
  | vsel (o : VFmt)
  /-- VCVT (R156): Converts elements between types. -/
  | vcvt (o : VFmt)
  /-- VRED (R438): Reduces governed elements in ascending order to one value. -/
  | vred (o : VFmt)
  /-- VSCAN (R439): Writes the running reduction of the elements. -/
  | vscan (o : VFmt)
  /-- VCOMP (R418): Packs the governed elements together. -/
  | vcomp (o : VFmt)
  /-- VEXPD (R422): Spreads consecutive source elements to the governed places. -/
  | vexpd (o : VFmt)
  /-- VSLIDE (R441): Moves elements up or down by a distance. -/
  | vslide (o : VFmt)
  /-- VPERM (R435): Gathers elements of a register by index. -/
  | vperm (o : VFmt)
  /-- VHAD (R168): Performs one Hadamard butterfly stage. -/
  | vhad (o : VFmt)
  /-- VBCAST (R415): Writes one general-register value to every element. -/
  | vbcast (o : VFmt)
  /-- VINDEX (R426): Writes each element's index. -/
  | vindex (o : VFmt)
  /-- VEXT (R423): Reads one element into a general register. -/
  | vext (o : VFmt)
  /-- VINS (R427): Writes one element from a general register. -/
  | vins (o : VFmt)
  /-- VZIP (R444): Interleaves two registers. -/
  | vzip (o : VFmt)
  /-- VUNZIP (R444): De-interleaves two registers. -/
  | vunzip (o : VFmt)
  /-- MKAND (R372): ANDs mask registers bit by bit. -/
  | mkand (o : VFmt)
  /-- MKOR (R372): ORs mask registers bit by bit. -/
  | mkor (o : VFmt)
  /-- MKXOR (R372): XORs mask registers bit by bit. -/
  | mkxor (o : VFmt)
  /-- MKNOT (R372): Inverts a mask register bit by bit. -/
  | mknot (o : VFmt)
  /-- MKPOPC (R373): Counts governed set mask bits into a general register. -/
  | mkpopc (o : VFmt)
  /-- MKFIRST (R373): Writes the index of the first governed set mask bit. -/
  | mkfirst (o : VFmt)
  /-- MKTEST (R373): Writes 1 when any governed mask bit is set. -/
  | mktest (o : VFmt)
  /-- MKSET (R374): Sets or clears governed mask bits. -/
  | mkset (o : VFmt)
  /-- VLD (R428): Loads elements from a stream and advances P. -/
  | vld (o : VMFmt)
  /-- VST (R442): Stores elements to a stream and advances P. -/
  | vst (o : VMFmt)
  /-- VLDX (R432): Gathers elements from indexed addresses. -/
  | vldx (o : VMFmt)
  /-- VSTX (R443): Scatters elements to indexed addresses. -/
  | vstx (o : VMFmt)
  /-- VAMO (R411): Performs atomic read-modify-writes at indexed addresses. -/
  | vamo (o : VMFmt)
  /-- VLDFE (R430): Waits at the queue head for full granules, then reads them and optionally clears them. -/
  | vldfe (o : VMFmt)
  /-- VLDFE_WAKE (R430): Every granule of a waiting VLDFE becomes full and it reads them in one step. -/
  | vldfeWake (st : Nat)
  /-- VPF (R436): Prefetches a stream's lines and advances P. -/
  | vpf (o : VMFmt)
  /-- SBIND (R383): Reads a binding record and binds a stream register with P 0. -/
  | sbind (o : IFmt)
  /-- SSET (R390): Sets a stream's position. -/
  | sset (o : IFmt)
  /-- SGET (R386): Reads a stream's position into gd. -/
  | sget (o : IFmt)
  /-- SADV (R381): Advances a stream's position. -/
  | sadv (o : IFmt)
  /-- VPUSH (R245): Pushes a register value to another strand of the hive. -/
  | vpush (o : XFmt)
  /-- VPUSH_TRANSFER (R245): When the target's bit is empty and it has room, the value is stored and the bit set full with a release. -/
  | vpushTransfer (st : Nat)
  /-- VWAITF (R245): Waits at the queue head for a pushed value. -/
  | vwaitf (o : XFmt)
  /-- VWAITF_FILL (R245): A waiting VWAITF renames vd onto the held value, clears the bit and acquires. -/
  | vwaitfFill (st : Nat)
  /-- TMODE (R178): Sets the MVL in force, bounded by TGRANT. -/
  | tmode (o : IFmt)
  /-- TOPA (R397): Accumulates outer products of two registers into a tile. -/
  | topa (o : TFmt)
  /-- TOPS (R399): Subtracts outer products of two registers from a tile. -/
  | tops (o : TFmt)
  /-- TZERO (R405): Writes zero to governed tile elements and clears the TSAT bit. -/
  | tzero (o : TFmt)
  /-- TRD (R401): Reads tile elements into a vector register. -/
  | trd (o : TFmt)
  /-- TWR (R404): Writes vector elements into a tile. -/
  | twr (o : TFmt)
  /-- TSCL (R403): Scales tile elements by row and column factors in place. -/
  | tscl (o : TFmt)
  /-- FBIND (R337): Reads and checks a comb image and binds a fabric slot. -/
  | fbind (o : XFmt)
  /-- FFREE (R346): Waits for any FX on the slot and releases it. -/
  | ffree (o : XFmt)
  /-- FX (R207): Runs a bound fabric opcode, resuming from its saved state. -/
  | fx (slot : BitVec 5) (o : XFmt)
  /-- FCFG (R209): Rewrites a region's route words after draining or abandoning its tokens. -/
  | fcfg (o : XFmt)
  /-- FDRAIN (R344): Blocks until every earlier FX on the slot has finished and flushed. -/
  | fdrain (o : XFmt)
  /-- FDRAIN_COMPLETE (R206): The slot's FXs finish and the blocked strand continues. -/
  | fdrainComplete (st : Nat)
  /-- FSTAT (R352): Writes a slot status value selected by k to gd. -/
  | fstat (o : XFmt)
  /-- FCTX_LOAD (R206): Makes the slot resident and writes its context. -/
  | fctxLoad (o : XFmt)
  /-- FCTX_PIN (R206): Makes the slot resident and pins its context. -/
  | fctxPin (o : XFmt)
  /-- FCTX_UNPIN (R206): Clears the slot's pin. -/
  | fctxUnpin (o : XFmt)
  /-- FCTX_EVICT (R206): Writes the slot's state to its record and frees its context. -/
  | fctxEvict (o : XFmt)
  /-- FABRIC_CONTEXT_LOAD (R205): A slot's configuration finishes loading into a context, evicting another if needed. -/
  | fabricContextLoad (st : Nat) (slot : Nat)
  /-- COMB_CONTEXT_SERVE (R210): The region's counter serves the next eligible context and its nodes fire in parallel. -/
  | combContextServe (core : Nat) (lg : Nat)
  /-- FABRIC_STALL (R211): A context's idle count reaches 64 with a non-zero balance and the FX stops. -/
  | fabricStall (core : Nat) (lg : Nat) (ctx : Nat)
  /-- COALESCING_BUFFER_FLUSH (R198): A memory port's coalescing buffer is flushed 16 cycles after its first store. -/
  | coalescingBufferFlush (core : Nat) (node : Nat)
  /-- WGCFG (R218): Checks a session record and opens a session. -/
  | wgcfg (o : GFmt)
  /-- WGCFG_CLOSE (R218): Discards unstarted tasks and closes a session once its tasks end. -/
  | wgcfgClose (o : GFmt)
  /-- WGCFG_CLOSE_COMPLETE (R218): The session's running tasks end and the close removes tiles, clears entries and writes the word. -/
  | wgcfgCloseComplete (st : Nat)
  /-- WGPAIR (R219): Writes pairing entries into the core's pairing table. -/
  | wgpair (o : GFmt)
  /-- WGINJ (R222): Releases and waits for its window and slot to inject a tile. -/
  | wginj (o : GFmt)
  /-- WGWAIT (R231): Blocks until a session has a non-zero status. -/
  | wgwait (o : GFmt)
  /-- WGWAIT_WAKE (R231): The session's status becomes non-zero and WGWAIT writes it, acquires and may trap the owner. -/
  | wgwaitWake (st : Nat)
  /-- WGDRAIN (R234): Stops a session's lookups and injection and returns its owed tiles. -/
  | wgdrain (o : GFmt)
  /-- WGDRAIN_COMPLETE (R234): All tiles have left at their ORIGIN and the drain records are stored. -/
  | wgdrainComplete (st : Nat)
  /-- WGSTAT (R235): Stores a session status block. -/
  | wgstat (o : GFmt)
  /-- WGEND (R229): Ends a paired task, dropping its pad references. -/
  | wgend (o : GFmt)
  /-- RING_BEAT (R223): Every tile advances one hop and each core injects, counts laps and looks up tiles. -/
  | ringBeat (ring : Nat)
  /-- RING_STRANDED (R223): A tile's LAPS exceeds LAPLIM and the session halts. -/
  | ringStranded (ring : Nat) (session : Nat)
  /-- RING_STUCK (R233): A session's idle beat count reaches 12 and it halts. -/
  | ringStuck (ring : Nat) (session : Nat)
  /-- XCOPY (R241): Issues a copy command. -/
  | xcopy (o : GFmt)
  /-- XFILL (R448): Issues a fill command. -/
  | xfill (o : GFmt)
  /-- XWAIT (R240): Blocks until a completion record's STATE is non-zero. -/
  | xwait (o : GFmt)
  /-- XWAIT_WAKE (R240): The record's STATE becomes non-zero and XWAIT writes it and acquires. -/
  | xwaitWake (st : Nat)
  /-- XZTAB (R242): Issues a command that builds or loads a CF8 code table. -/
  | xztab (o : GFmt)
  /-- XZENC (R243): Issues a command that codes elements into CF8 blocks. -/
  | xzenc (o : GFmt)
  /-- XSEAL (R247): Issues a command that stamps and delivers a sealed frame. -/
  | xseal (o : GFmt)
  /-- ENGINE_COMMAND_START (R133): A command starts once the issuer's earlier accesses are performed at its scope. -/
  | engineCommandStart (cmd : Nat)
  /-- COPY_CHUNK (R241): A 4,096-byte chunk of a copy or fill is translated, read and written. -/
  | copyChunk (cmd : Nat)
  /-- CODEC_BLOCK (R243): One CF8 block is coded and written whole. -/
  | codecBlock (cmd : Nat)
  /-- XZTAB_INSTALL (R167): The slot's reference count reaches zero and the table is installed with GEN advanced. -/
  | xztabInstall (cmd : Nat)
  /-- SEAL_STAMP (R247): The stamp unit hashes the frame and writes it and its signed trailer. -/
  | sealStamp (cmd : Nat)
  /-- COMMAND_COMPLETION (R239): A command ends and writes its completion record as a release. -/
  | commandCompletion (cmd : Nat)
  /-- STRAND_PLACEMENT (R36): When slots are freed the scheduler places waiting strands in priority order. -/
  | strandPlacement (core : Nat) (lg : Nat)
  /-- QUEUE_HEAD_TAG_ALLOCATION (R47): The allocator renames a queue head's destination and gives it all its tags. -/
  | queueHeadTagAllocation (st : Nat)
  /-- MICRO_OPERATION_ISSUE (R48): The sequencer chooses one ready micro-operation for each pipe. -/
  | microOperationIssue (core : Nat) (lg : Nat)
  /-- EG_PRODUCED (R49): A micro-operation's EG is produced, forwarding pending values and freeing tags. -/
  | egProduced (st : Nat)
  /-- MATRIX_UNIT_TAKE (R186): The matrix unit takes a ready tile instruction from a port head. -/
  | matrixUnitTake (core : Nat)
  /-- MATRIX_UNIT_LEAVE (R177): A tile instruction leaves the unit and its tile access is performed. -/
  | matrixUnitLeave (core : Nat)
  /-- PAGE_WALK_COMPLETE (R114): A page-table walk finishes and serves or is discarded by generation. -/
  | pageWalkComplete (die : Nat)
  /-- LLC_REQUEST_ADMIT (R88): A waiting LLC request is admitted by its bucket or borrows from the parent. -/
  | llcRequestAdmit (slice : Nat)
  /-- BUCKET_REFILL (R87): Each bucket gains RATE tokens per LLC cycle up to its BURST. -/
  | bucketRefill (slice : Nat)
  /-- L1_DIRTY_TIMEOUT (R122): A dirty L1 line is written back 65,536 cycles after it became dirty. -/
  | l1DirtyTimeout (core : Nat) (line : Nat)
  /-- TRAP_DELIVERY (R251): A trap is delivered once every older instruction has completed. -/
  | trapDelivery (st : Nat)
  /-- YIELDWIN_EXPIRY (R258): The yield window elapses and pre-emption takes effect with a full save. -/
  | yieldwinExpiry (st : Nat)
  /-- FULL_SAVE (R259): Issued work completes and the strand's state is written with progress indices. -/
  | fullSave (st : Nat)
  /-- RESUMPTION (R265): A placed suspended strand acquires, reloads its state and re-enters held instructions. -/
  | resumption (st : Nat)
  /-- MACHINE_CHECK (R268): An uncorrectable error destroys every hive of the charged partition. -/
  | machineCheck (part : Nat) (info : Nat) (val : Word)
  /-- LLC_TAG_PARITY_ERROR (R269): A tag parity error invalidates the slice and machine-checks its partition. -/
  | llcTagParityError (slice : Nat)
  /-- CORRECTED_ERROR (R270): A correctable error is corrected in place and counted. -/
  | correctedError (part : Nat) (info : Nat)
  /-- SCRUB (R309): Firmware scrubs every HBM4 and LLC line within each 24 hours. -/
  | scrub
  /-- HOST_ACCESS (R297): A host access to the module's granules arrives over the host link. -/
  | hostAccess (write : Bool) (pa : Nat) (data : List Byte)
  /-- REMOTE_ACCESS (R303): A peer access arrives and is translated through the imported hive's shadow. -/
  | remoteAccess (kind : RemoteKind) (entry : Nat) (offset : BitVec 52)
  /-- PEER_LINK_DOWN (R304): A peer port's link fails. -/
  | peerLinkDown (port : Nat)
  /-- POWER_SAMPLE (R310): The power manager measures draw every 10 microseconds and lowers grants. -/
  | powerSample (m : PowerDraw)
  /-- GRANT_RAISE (R310): Draw below 95 % for 1 ms raises grants in reverse order. -/
  | grantRaise (m : PowerDraw)
  /-- ISSUE_DUTY (R310): Draw above the limit for 2 ms at least grants sets an issue duty. -/
  | issueDuty (m : PowerDraw) (k : Nat)
  /-- CREATE_ROOT (R301): Firmware checks a root descriptor and creates a partition root. -/
  | createRoot
  /-- DESTROY_ROOT (R300): Firmware destroys a partition root as HKILL does. -/
  | destroyRoot
  /-- BIND_VF (R300): Firmware binds a virtual function to a hive. -/
  | bindVf
  /-- UNBIND_VF (R300): Firmware releases a virtual function. -/
  | unbindVf
  /-- SEAL (R246): Firmware marks a sealed range. -/
  | sealRange
  /-- UNSEAL (R300): Firmware waits for XSEALs, zeroes the range and lifts its seal. -/
  | unsealRange
  /-- PEER_MAP (R303): Firmware assigns peer ports to a PEER value. -/
  | peerMap
  /-- POWER_CAP (R310): Firmware sets the module limit and partition caps. -/
  | powerCap
  /-- MIGRATE (R102): Firmware moves a root's granule to a destination granule. -/
  | migrate
  /-- ROOT_HRET (R301): Firmware acts as HRET for a partition root's record. -/
  | rootHret
  /-- READ_COUNTS (R309): Firmware writes the error count block to host memory. -/
  | readCounts
  /-- IMPORT (R301): Firmware sets or clears an import table entry. -/
  | importEntry
  /-- POWER_UP (R305): The boot ROM trains the host link and waits for a firmware image. -/
  | powerUp
  /-- MODULE_RESET (R305): A module reset runs the boot sequence again. -/
  | moduleReset
  /-- GO (R314): A host write of 1 to GO starts the firmware download. -/
  | go (value : BitVec 32)
  /-- BOOT_WINDOW_WRITE (R314): A host write to a boot window field with no behaviour of its own. -/
  | bootWindowWrite (offset : Nat) (data : List Byte)
  /-- FIRMWARE_IMAGE_VERIFY (R306): A received image is verified, measured and started, or rejected. -/
  | firmwareImageVerify
  /-- FIRMWARE_TRAINING_COMPLETE (R305): Firmware finishes training memories and links and begins serving requests. -/
  | firmwareTrainingComplete (reason : Nat)
  /-- HOST_INVALIDATION (R298): The companion processor's write to a line of host memory invalidates the copies that LLC slices hold, under the link's coherence protocol. -/
  | hostInvalidation (pa : Nat) (data : List Byte)
  /-- UNKNOWN_CODE_REQUEST (R300): Firmware takes a request with an unknown CODE from the request queue, refuses it with STATUS 2 and changes nothing. -/
  | unknownCodeRequest
  deriving DecidableEq, Repr

end Sys2Proof
end

