-- ==== Sys2Proof/Decode.lean ====
section
/-! DEFINITION. Steps 1 and 2 of R274, which decide the fate of every 64-bit word, and the encoder.
The fields stand where Table 12.1 puts them; OP and FN are those of Table 12.2 (spec/12_instruction_encoding.md). -/

namespace Sys2Proof

/-- What becomes of a word at steps 1 and 2 of R274. -/
inductive Decoded where
  | ok (i : Instr)
  /-- OP or FN is unassigned: the word traps ILLEGAL_OP. -/
  | illegalOp
  /-- A field that must be zero is not, or holds a reserved value: the word traps ILLEGAL_FIELD. -/
  | illegalField
  deriving DecidableEq, Repr

/-- OP, bits [63:56] (R271). -/
def opOf (w : Word) : BitVec 8 := w.extractLsb' 56 8

/-- FN, bits [55:48] (R271). -/
def fnOf (w : Word) : BitVec 8 := w.extractLsb' 48 8

def GFmt.ofWord (w : Word) : GFmt :=
  ⟨w.extractLsb' 43 5, w.extractLsb' 38 5, w.extractLsb' 33 5, w.extractLsb' 28 5, w.extractLsb' 20 8⟩

def IFmt.ofWord (w : Word) : IFmt :=
  ⟨w.extractLsb' 43 5, w.extractLsb' 38 5, w.extractLsb' 32 6, w.extractLsb' 0 32⟩

def BFmt.ofWord (w : Word) : BFmt :=
  ⟨w.extractLsb' 43 5, w.extractLsb' 38 5, w.extractLsb' 32 6, w.extractLsb' 0 32⟩

def MFmt.ofWord (w : Word) : MFmt :=
  ⟨w.extractLsb' 43 5, w.extractLsb' 38 5, w.extractLsb' 33 5, w.extractLsb' 30 3, w.extractLsb' 28 2,
   w.extractLsb' 0 28⟩

def VFmt.ofWord (w : Word) : VFmt :=
  ⟨w.extractLsb' 42 6, w.extractLsb' 36 6, w.extractLsb' 30 6, w.extractLsb' 24 6, w.extractLsb' 19 5,
   w.extractLsb' 16 3, w.extractLsb' 15 1, w.extractLsb' 11 4, w.extractLsb' 8 3, w.extractLsb' 0 8⟩

def VMFmt.ofWord (w : Word) : VMFmt :=
  ⟨w.extractLsb' 42 6, w.extractLsb' 36 6, w.extractLsb' 32 4, w.extractLsb' 27 5, w.extractLsb' 22 5,
   w.extractLsb' 19 3, w.extractLsb' 18 1, w.extractLsb' 14 4, w.extractLsb' 11 3, w.extractLsb' 9 2,
   w.extractLsb' 0 9⟩

def TFmt.ofWord (w : Word) : TFmt :=
  ⟨w.extractLsb' 46 2, w.extractLsb' 40 6, w.extractLsb' 34 6, w.extractLsb' 29 5, w.extractLsb' 26 3,
   w.extractLsb' 23 3, w.extractLsb' 19 4, w.extractLsb' 15 4, w.extractLsb' 11 4, w.extractLsb' 7 4,
   w.extractLsb' 0 7⟩

def XFmt.ofWord (w : Word) : XFmt :=
  ⟨w.extractLsb' 43 5, w.extractLsb' 38 5, w.extractLsb' 33 5, w.extractLsb' 28 5, w.extractLsb' 22 6,
   w.extractLsb' 16 6, w.extractLsb' 10 6, w.extractLsb' 0 10⟩

/-- Bits [47:0] of format G; [19:0] are the zero field (R272). -/
def GFmt.pack (o : GFmt) : BitVec 48 := o.gd ++ o.ga ++ o.gb ++ o.gc ++ o.q ++ (0 : BitVec 20)

def IFmt.pack (o : IFmt) : BitVec 48 := o.gd ++ o.ga ++ o.q ++ o.imm

def BFmt.pack (o : BFmt) : BitVec 48 := o.ga ++ o.gb ++ o.q ++ o.off

def MFmt.pack (o : MFmt) : BitVec 48 := o.gd ++ o.ga ++ o.gb ++ o.ord ++ o.scope ++ o.disp

def VFmt.pack (o : VFmt) : BitVec 48 :=
  o.vd ++ o.va ++ o.vb ++ o.vc ++ o.gl ++ o.mk ++ o.mn ++ o.et ++ o.rm ++ o.q

def VMFmt.pack (o : VMFmt) : BitVec 48 :=
  o.vd ++ o.vi ++ o.sx ++ o.ga ++ o.gl ++ o.mk ++ o.mn ++ o.et ++ o.ord ++ o.scope ++ o.q

def TFmt.pack (o : TFmt) : BitVec 48 :=
  o.ad ++ o.va ++ o.vb ++ o.gl ++ o.mr ++ o.mc ++ o.eta ++ o.etb ++ o.sa ++ o.sb ++ o.q

def XFmt.pack (o : XFmt) : BitVec 48 :=
  o.gd ++ o.ga ++ o.gb ++ o.gc ++ o.vd ++ o.va ++ o.vb ++ o.imm

/-- R126: an ORD of 4 to 7 is reserved, and with ORD 0 the SCOPE field must be zero; VPF takes no SCOPE but zero at any ORD. -/
def ordOk (ord : BitVec 3) (scope : BitVec 2) : Bool :=
  ord.toNat < 4 && (ord != 0 || scope == 0)

/-- R174: mn = 1 with mk = 0 is reserved. -/
def maskOk (mk : BitVec 3) (mn : BitVec 1) : Bool := mk != 0 || mn == 0

/-- The control registers that Table 12.5 marks RW, by number (R284). -/
def ctlWritable (n : BitVec 32) : Bool :=
  n == 0x02 || n == 0x03 || n == 0x04 || n == 0x0D || n == 0x0E || n == 0x12

/-- Which row of the table a CTLWR word is, by the register number in imm (Table 14.2, R331). -/
def ctlwrOf (o : IFmt) : Instr :=
  match o.imm.toNat with
  | 0x02 => .ctlwrFpctl o
  | 0x03 => .ctlwrSeed o
  | 0x04 => .ctlwrTrapvec o
  | 0x0D => .ctlwrTblroot o
  | 0x0E => .ctlwrYieldwin o
  | 0x12 => .ctlwrSplit o
  | _ => .ctlwr o

/-- Which row of the table an FCTX word is, by k in imm [6:5] (Table 8.7A, R206). -/
def fctxOf (o : XFmt) : Instr :=
  match (o.imm.extractLsb' 5 2).toNat with
  | 0 => .fctxLoad o
  | 1 => .fctxPin o
  | 2 => .fctxUnpin o
  | _ => .fctxEvict o

/-- The OPs of format G in Table 12.2 (R275). -/
def isFormatG (op : Nat) : Bool :=
  op == 0x01 || op == 0x04 || op == 0x08 || op == 0x2C || op == 0x2D || op == 0x31 || op == 0x33
    || (0x38 ≤ op && op ≤ 0x3D) || (0x40 ≤ op && op ≤ 0x45) || (0xB0 ≤ op && op ≤ 0xB6)
    || (0xC0 ≤ op && op ≤ 0xC5)

/-- The zero field of format G, bits [19:0], holds zero (R272). -/
def zeroFieldOk (w : Word) : Bool :=
  !isFormatG (opOf w).toNat || w.extractLsb' 0 20 == 0

/-- Scalar integer (OP 0x01 to 0x04), Table 12.2 (R275). -/
def buildInt (w : Word) : Option Instr :=
  match (opOf w).toNat with
  | 0x01 =>
    match (fnOf w).toNat with
    | 0x00 => some (.add (GFmt.ofWord w))
    | 0x01 => some (.sub (GFmt.ofWord w))
    | 0x02 => some (.and (GFmt.ofWord w))
    | 0x03 => some (.or (GFmt.ofWord w))
    | 0x04 => some (.xor (GFmt.ofWord w))
    | 0x05 => some (.shl (GFmt.ofWord w))
    | 0x06 => some (.shr (GFmt.ofWord w))
    | 0x07 => some (.sar (GFmt.ofWord w))
    | 0x08 => some (.slt (GFmt.ofWord w))
    | 0x09 => some (.sltu (GFmt.ofWord w))
    | 0x0A => some (.min (GFmt.ofWord w))
    | 0x0B => some (.max (GFmt.ofWord w))
    | 0x0C => some (.minu (GFmt.ofWord w))
    | 0x0D => some (.maxu (GFmt.ofWord w))
    | 0x0E => some (.sext (GFmt.ofWord w))
    | 0x0F => some (.zext (GFmt.ofWord w))
    | 0x10 => some (.clz (GFmt.ofWord w))
    | 0x11 => some (.ctz (GFmt.ofWord w))
    | 0x12 => some (.popc (GFmt.ofWord w))
    | _ => none
  | 0x02 =>
    match (fnOf w).toNat with
    | 0x00 => some (.addi (IFmt.ofWord w))
    | 0x02 => some (.andi (IFmt.ofWord w))
    | 0x03 => some (.ori (IFmt.ofWord w))
    | 0x04 => some (.xori (IFmt.ofWord w))
    | 0x05 => some (.shli (IFmt.ofWord w))
    | 0x06 => some (.shri (IFmt.ofWord w))
    | 0x07 => some (.sari (IFmt.ofWord w))
    | 0x08 => some (.slti (IFmt.ofWord w))
    | _ => none
  | 0x03 =>
    match (fnOf w).toNat with
    | 0x00 => some (.lih (IFmt.ofWord w))
    | 0x01 => some (.addpc (IFmt.ofWord w))
    | _ => none
  | 0x04 =>
    match (fnOf w).toNat with
    | 0x00 => some (.mul (GFmt.ofWord w))
    | 0x01 => some (.mulh (GFmt.ofWord w))
    | 0x02 => some (.mulhu (GFmt.ofWord w))
    | 0x04 => some (.div (GFmt.ofWord w))
    | 0x05 => some (.divu (GFmt.ofWord w))
    | 0x06 => some (.rem (GFmt.ofWord w))
    | 0x07 => some (.remu (GFmt.ofWord w))
    | _ => none
  | _ => none

/-- Scalar float, branches and jumps (OP 0x08 to 0x13), Table 12.2 (R275). -/
def buildFlow (w : Word) : Option Instr :=
  match (opOf w).toNat with
  | 0x08 =>
    match (fnOf w).toNat with
    | 0x00 => some (.fadd (GFmt.ofWord w))
    | 0x01 => some (.fsub (GFmt.ofWord w))
    | 0x02 => some (.fmul (GFmt.ofWord w))
    | 0x03 => some (.fdiv (GFmt.ofWord w))
    | 0x04 => some (.fsqrt (GFmt.ofWord w))
    | 0x05 => some (.fma (GFmt.ofWord w))
    | 0x06 => some (.fmin (GFmt.ofWord w))
    | 0x07 => some (.fmax (GFmt.ofWord w))
    | 0x08 => some (.fcmp (GFmt.ofWord w))
    | 0x09 => some (.fcvt (GFmt.ofWord w))
    | 0x0A => some (.fclass (GFmt.ofWord w))
    | _ => none
  | 0x10 =>
    match (fnOf w).toNat with
    | 0x00 => some (.beq (BFmt.ofWord w))
    | 0x01 => some (.bne (BFmt.ofWord w))
    | 0x02 => some (.blt (BFmt.ofWord w))
    | 0x03 => some (.bge (BFmt.ofWord w))
    | 0x04 => some (.bltu (BFmt.ofWord w))
    | 0x05 => some (.bgeu (BFmt.ofWord w))
    | _ => none
  | 0x11 =>
    match (fnOf w).toNat with
    | 0x00 => some (.j (BFmt.ofWord w))
    | _ => none
  | 0x12 =>
    match (fnOf w).toNat with
    | 0x00 => some (.jal (IFmt.ofWord w))
    | _ => none
  | 0x13 =>
    match (fnOf w).toNat with
    | 0x00 => some (.jalr (IFmt.ofWord w))
    | _ => none
  | _ => none

/-- Scalar memory and fences (OP 0x18 to 0x20), Table 12.2 (R275). -/
def buildMem (w : Word) : Option Instr :=
  match (opOf w).toNat with
  | 0x18 =>
    match (fnOf w).toNat with
    | 0x00 => some (.ld .b (MFmt.ofWord w))
    | 0x01 => some (.ld .h (MFmt.ofWord w))
    | 0x02 => some (.ld .w (MFmt.ofWord w))
    | 0x03 => some (.ld .d (MFmt.ofWord w))
    | 0x08 => some (.ld .bu (MFmt.ofWord w))
    | 0x09 => some (.ld .hu (MFmt.ofWord w))
    | 0x0A => some (.ld .wu (MFmt.ofWord w))
    | _ => none
  | 0x19 =>
    match (fnOf w).toNat with
    | 0x00 => some (.st .b (MFmt.ofWord w))
    | 0x01 => some (.st .h (MFmt.ofWord w))
    | 0x02 => some (.st .w (MFmt.ofWord w))
    | 0x03 => some (.st .d (MFmt.ofWord w))
    | _ => none
  | 0x1A =>
    match (fnOf w).toNat with
    | 0x00 => some (.lda .b (MFmt.ofWord w))
    | 0x01 => some (.lda .h (MFmt.ofWord w))
    | 0x02 => some (.lda .w (MFmt.ofWord w))
    | 0x03 => some (.lda .d (MFmt.ofWord w))
    | 0x08 => some (.lda .bu (MFmt.ofWord w))
    | 0x09 => some (.lda .hu (MFmt.ofWord w))
    | 0x0A => some (.lda .wu (MFmt.ofWord w))
    | _ => none
  | 0x1B =>
    match (fnOf w).toNat with
    | 0x00 => some (.stl .b (MFmt.ofWord w))
    | 0x01 => some (.stl .h (MFmt.ofWord w))
    | 0x02 => some (.stl .w (MFmt.ofWord w))
    | 0x03 => some (.stl .d (MFmt.ofWord w))
    | _ => none
  | 0x1C =>
    match (fnOf w).toNat with
    | 0x20 => some (.amo .add false (MFmt.ofWord w))
    | 0x21 => some (.amo .swap false (MFmt.ofWord w))
    | 0x22 => some (.amo .cas false (MFmt.ofWord w))
    | 0x23 => some (.amo .and false (MFmt.ofWord w))
    | 0x24 => some (.amo .or false (MFmt.ofWord w))
    | 0x25 => some (.amo .min false (MFmt.ofWord w))
    | 0x26 => some (.amo .max false (MFmt.ofWord w))
    | 0x27 => some (.amo .minu false (MFmt.ofWord w))
    | 0x28 => some (.amo .maxu false (MFmt.ofWord w))
    | 0x30 => some (.amo .add true (MFmt.ofWord w))
    | 0x31 => some (.amo .swap true (MFmt.ofWord w))
    | 0x32 => some (.amo .cas true (MFmt.ofWord w))
    | 0x33 => some (.amo .and true (MFmt.ofWord w))
    | 0x34 => some (.amo .or true (MFmt.ofWord w))
    | 0x35 => some (.amo .min true (MFmt.ofWord w))
    | 0x36 => some (.amo .max true (MFmt.ofWord w))
    | 0x37 => some (.amo .minu true (MFmt.ofWord w))
    | 0x38 => some (.amo .maxu true (MFmt.ofWord w))
    | _ => none
  | 0x1D =>
    match (fnOf w).toNat with
    | 0x02 => some (.ldfe false false (MFmt.ofWord w))
    | 0x03 => some (.ldfe true false (MFmt.ofWord w))
    | 0x12 => some (.ldfe false true (MFmt.ofWord w))
    | 0x13 => some (.ldfe true true (MFmt.ofWord w))
    | _ => none
  | 0x1E =>
    match (fnOf w).toNat with
    | 0x02 => some (.stfe false (MFmt.ofWord w))
    | 0x03 => some (.stfe true (MFmt.ofWord w))
    | _ => none
  | 0x1F =>
    match (fnOf w).toNat with
    | 0x00 => some (.waitw (MFmt.ofWord w))
    | _ => none
  | 0x20 =>
    match (fnOf w).toNat with
    | 0x00 => some (.fenceSv (MFmt.ofWord w))
    | 0x01 => some (.fenceVs (MFmt.ofWord w))
    | 0x02 => some (.fenceVv (MFmt.ofWord w))
    | 0x03 => some (.fenceAll (MFmt.ofWord w))
    | _ => none
  | _ => none

/-- System, traps and hives (OP 0x28 to 0x45), Table 12.2 (R275). -/
def buildSys (w : Word) : Option Instr :=
  match (opOf w).toNat with
  | 0x28 =>
    match (fnOf w).toNat with
    | 0x00 => some (.setvl (IFmt.ofWord w))
    | _ => none
  | 0x29 =>
    match (fnOf w).toNat with
    | 0x00 => some (.ctlrd (IFmt.ofWord w))
    | _ => none
  | 0x2A =>
    match (fnOf w).toNat with
    | 0x00 => some (ctlwrOf (IFmt.ofWord w))
    | _ => none
  | 0x2B =>
    match (fnOf w).toNat with
    | 0x00 => some (.cycrd (IFmt.ofWord w))
    | _ => none
  | 0x2C =>
    match (fnOf w).toNat with
    | 0x00 => some (.cflush (GFmt.ofWord w))
    | _ => none
  | 0x2D =>
    match (fnOf w).toNat with
    | 0x00 => some (.ainv (GFmt.ofWord w))
    | _ => none
  | 0x2E =>
    match (fnOf w).toNat with
    | 0x00 => some (.tmark (IFmt.ofWord w))
    | _ => none
  | 0x30 =>
    match (fnOf w).toNat with
    | 0x00 => some (.trap (IFmt.ofWord w))
    | _ => none
  | 0x31 =>
    match (fnOf w).toNat with
    | 0x00 => some (if (GFmt.ofWord w).q.getLsbD 0 then .tretSkip (GFmt.ofWord w) else .tret (GFmt.ofWord w))
    | _ => none
  | 0x32 =>
    match (fnOf w).toNat with
    | 0x00 => some (.brk (IFmt.ofWord w))
    | _ => none
  | 0x33 =>
    match (fnOf w).toNat with
    | 0x00 => some (.nop (GFmt.ofWord w))
    | _ => none
  | 0x38 =>
    match (fnOf w).toNat with
    | 0x00 => some (.hnew (GFmt.ofWord w))
    | _ => none
  | 0x39 =>
    match (fnOf w).toNat with
    | 0x00 => some (.hgiveShares (GFmt.ofWord w))
    | _ => none
  | 0x3A =>
    match (fnOf w).toNat with
    | 0x00 => some (.htakeShares (GFmt.ofWord w))
    | _ => none
  | 0x3B =>
    match (fnOf w).toNat with
    | 0x00 => some (.hkill (GFmt.ofWord w))
    | _ => none
  | 0x3C =>
    match (fnOf w).toNat with
    | 0x00 => some (.hstat (GFmt.ofWord w))
    | _ => none
  | 0x3D =>
    match (fnOf w).toNat with
    | 0x00 => some (.hretReissue (GFmt.ofWord w))
    | _ => none
  | 0x40 =>
    match (fnOf w).toNat with
    | 0x00 => some (.spawn (GFmt.ofWord w))
    | _ => none
  | 0x41 =>
    match (fnOf w).toNat with
    | 0x00 => some (.squit (GFmt.ofWord w))
    | _ => none
  | 0x42 =>
    match (fnOf w).toNat with
    | 0x00 => some (.glaunch (GFmt.ofWord w))
    | _ => none
  | 0x43 =>
    match (fnOf w).toNat with
    | 0x00 => some (.gbar (GFmt.ofWord w))
    | _ => none
  | 0x44 =>
    match (fnOf w).toNat with
    | 0x00 => some (.gwait (GFmt.ofWord w))
    | _ => none
  | 0x45 =>
    match (fnOf w).toNat with
    | 0x00 => some (.yield (GFmt.ofWord w))
    | _ => none
  | _ => none

/-- Vector (OP 0x60 to 0x7E), Table 12.2 (R275). -/
def buildVec (w : Word) : Option Instr :=
  match (opOf w).toNat with
  | 0x60 =>
    match (fnOf w).toNat with
    | 0x00 => some (.vadd (VFmt.ofWord w))
    | 0x01 => some (.vsub (VFmt.ofWord w))
    | 0x02 => some (.vmul (VFmt.ofWord w))
    | 0x03 => some (.vmulh (VFmt.ofWord w))
    | 0x04 => some (.vdiv (VFmt.ofWord w))
    | 0x05 => some (.vmin (VFmt.ofWord w))
    | 0x06 => some (.vmax (VFmt.ofWord w))
    | 0x07 => some (.vabs (VFmt.ofWord w))
    | 0x08 => some (.vneg (VFmt.ofWord w))
    | 0x09 => some (.vand (VFmt.ofWord w))
    | 0x0A => some (.vor (VFmt.ofWord w))
    | 0x0B => some (.vxor (VFmt.ofWord w))
    | 0x0C => some (.vshl (VFmt.ofWord w))
    | 0x0D => some (.vshr (VFmt.ofWord w))
    | 0x0E => some (.vsar (VFmt.ofWord w))
    | 0x0F => some (.vclamp (VFmt.ofWord w))
    | 0x10 => some (.vfma (VFmt.ofWord w))
    | 0x11 => some (.vsqrt (VFmt.ofWord w))
    | 0x12 => some (.vrcp (VFmt.ofWord w))
    | 0x13 => some (.vrsq (VFmt.ofWord w))
    | 0x14 => some (.vexp2 (VFmt.ofWord w))
    | 0x15 => some (.vlog2 (VFmt.ofWord w))
    | 0x16 => some (.vtanh (VFmt.ofWord w))
    | _ => none
  | 0x61 =>
    match (fnOf w).toNat with
    | 0x00 => some (.vcmp .eq (VFmt.ofWord w))
    | 0x01 => some (.vcmp .ne (VFmt.ofWord w))
    | 0x02 => some (.vcmp .lt (VFmt.ofWord w))
    | 0x03 => some (.vcmp .le (VFmt.ofWord w))
    | 0x04 => some (.vcmp .gt (VFmt.ofWord w))
    | 0x05 => some (.vcmp .ge (VFmt.ofWord w))
    | _ => none
  | 0x62 =>
    match (fnOf w).toNat with
    | 0x00 => some (.vsel (VFmt.ofWord w))
    | _ => none
  | 0x63 =>
    match (fnOf w).toNat with
    | 0x00 => some (.vcvt (VFmt.ofWord w))
    | _ => none
  | 0x68 =>
    match (fnOf w).toNat with
    | 0x00 => some (.vred (VFmt.ofWord w))
    | 0x01 => some (.vscan (VFmt.ofWord w))
    | 0x02 => some (.vcomp (VFmt.ofWord w))
    | 0x03 => some (.vexpd (VFmt.ofWord w))
    | 0x04 => some (.vslide (VFmt.ofWord w))
    | 0x05 => some (.vperm (VFmt.ofWord w))
    | 0x06 => some (.vhad (VFmt.ofWord w))
    | 0x07 => some (.vbcast (VFmt.ofWord w))
    | 0x08 => some (.vindex (VFmt.ofWord w))
    | 0x09 => some (.vext (VFmt.ofWord w))
    | 0x0A => some (.vins (VFmt.ofWord w))
    | 0x0B => some (.vzip (VFmt.ofWord w))
    | 0x0C => some (.vunzip (VFmt.ofWord w))
    | _ => none
  | 0x70 =>
    match (fnOf w).toNat with
    | 0x00 => some (.mkand (VFmt.ofWord w))
    | 0x01 => some (.mkor (VFmt.ofWord w))
    | 0x02 => some (.mkxor (VFmt.ofWord w))
    | 0x03 => some (.mknot (VFmt.ofWord w))
    | 0x04 => some (.mkpopc (VFmt.ofWord w))
    | 0x05 => some (.mkfirst (VFmt.ofWord w))
    | 0x06 => some (.mkset (VFmt.ofWord w))
    | 0x07 => some (.mktest (VFmt.ofWord w))
    | _ => none
  | 0x78 =>
    match (fnOf w).toNat with
    | 0x00 => some (.vld (VMFmt.ofWord w))
    | _ => none
  | 0x79 =>
    match (fnOf w).toNat with
    | 0x00 => some (.vst (VMFmt.ofWord w))
    | _ => none
  | 0x7A =>
    match (fnOf w).toNat with
    | 0x00 => some (.vldx (VMFmt.ofWord w))
    | _ => none
  | 0x7B =>
    match (fnOf w).toNat with
    | 0x00 => some (.vstx (VMFmt.ofWord w))
    | _ => none
  | 0x7C =>
    match (fnOf w).toNat with
    | 0x00 => some (.vamo (VMFmt.ofWord w))
    | _ => none
  | 0x7D =>
    match (fnOf w).toNat with
    | 0x00 => some (.vldfe (VMFmt.ofWord w))
    | _ => none
  | 0x7E =>
    match (fnOf w).toNat with
    | 0x00 => some (.vpf (VMFmt.ofWord w))
    | _ => none
  | _ => none

/-- Streams, pushes, tiles and the comb (OP 0x80 to 0xA6), Table 12.2 (R275). -/
def buildTile (w : Word) : Option Instr :=
  match (opOf w).toNat with
  | 0x80 =>
    match (fnOf w).toNat with
    | 0x00 => some (.sbind (IFmt.ofWord w))
    | _ => none
  | 0x81 =>
    match (fnOf w).toNat with
    | 0x00 => some (.sset (IFmt.ofWord w))
    | _ => none
  | 0x82 =>
    match (fnOf w).toNat with
    | 0x00 => some (.sget (IFmt.ofWord w))
    | _ => none
  | 0x83 =>
    match (fnOf w).toNat with
    | 0x00 => some (.sadv (IFmt.ofWord w))
    | _ => none
  | 0x88 =>
    match (fnOf w).toNat with
    | 0x00 => some (.vpush (XFmt.ofWord w))
    | _ => none
  | 0x89 =>
    match (fnOf w).toNat with
    | 0x00 => some (.vwaitf (XFmt.ofWord w))
    | _ => none
  | 0x90 =>
    match (fnOf w).toNat with
    | 0x00 => some (.tmode (IFmt.ofWord w))
    | _ => none
  | 0x91 =>
    match (fnOf w).toNat with
    | 0x00 => some (.topa (TFmt.ofWord w))
    | _ => none
  | 0x92 =>
    match (fnOf w).toNat with
    | 0x00 => some (.tops (TFmt.ofWord w))
    | _ => none
  | 0x93 =>
    match (fnOf w).toNat with
    | 0x00 => some (.tzero (TFmt.ofWord w))
    | _ => none
  | 0x94 =>
    match (fnOf w).toNat with
    | 0x00 => some (.trd (TFmt.ofWord w))
    | _ => none
  | 0x95 =>
    match (fnOf w).toNat with
    | 0x00 => some (.twr (TFmt.ofWord w))
    | _ => none
  | 0x96 =>
    match (fnOf w).toNat with
    | 0x00 => some (.tscl (TFmt.ofWord w))
    | _ => none
  | 0xA0 =>
    match (fnOf w).toNat with
    | 0x00 => some (.fbind (XFmt.ofWord w))
    | _ => none
  | 0xA1 =>
    match (fnOf w).toNat with
    | 0x00 => some (.ffree (XFmt.ofWord w))
    | _ => none
  | 0xA3 =>
    match (fnOf w).toNat with
    | 0x00 => some (.fcfg (XFmt.ofWord w))
    | _ => none
  | 0xA4 =>
    match (fnOf w).toNat with
    | 0x00 => some (.fdrain (XFmt.ofWord w))
    | _ => none
  | 0xA5 =>
    match (fnOf w).toNat with
    | 0x00 => some (.fstat (XFmt.ofWord w))
    | _ => none
  | 0xA6 =>
    match (fnOf w).toNat with
    | 0x00 => some (fctxOf (XFmt.ofWord w))
    | _ => none
  | 0xA2 => if (fnOf w).toNat < 0x20 then some (.fx ((fnOf w).setWidth 5) (XFmt.ofWord w)) else none
  | _ => none

/-- Rings and engines (OP 0xB0 to 0xC5), Table 12.2 (R275). -/
def buildRing (w : Word) : Option Instr :=
  match (opOf w).toNat with
  | 0xB0 =>
    match (fnOf w).toNat with
    | 0x00 => some (if (GFmt.ofWord w).q.getLsbD 0 then .wgcfgClose (GFmt.ofWord w) else .wgcfg (GFmt.ofWord w))
    | _ => none
  | 0xB1 =>
    match (fnOf w).toNat with
    | 0x00 => some (.wgpair (GFmt.ofWord w))
    | _ => none
  | 0xB2 =>
    match (fnOf w).toNat with
    | 0x00 => some (.wginj (GFmt.ofWord w))
    | _ => none
  | 0xB3 =>
    match (fnOf w).toNat with
    | 0x00 => some (.wgwait (GFmt.ofWord w))
    | _ => none
  | 0xB4 =>
    match (fnOf w).toNat with
    | 0x00 => some (.wgdrain (GFmt.ofWord w))
    | _ => none
  | 0xB5 =>
    match (fnOf w).toNat with
    | 0x00 => some (.wgstat (GFmt.ofWord w))
    | _ => none
  | 0xB6 =>
    match (fnOf w).toNat with
    | 0x00 => some (.wgend (GFmt.ofWord w))
    | _ => none
  | 0xC0 =>
    match (fnOf w).toNat with
    | 0x00 => some (.xcopy (GFmt.ofWord w))
    | _ => none
  | 0xC1 =>
    match (fnOf w).toNat with
    | 0x00 => some (.xfill (GFmt.ofWord w))
    | _ => none
  | 0xC2 =>
    match (fnOf w).toNat with
    | 0x00 => some (.xwait (GFmt.ofWord w))
    | _ => none
  | 0xC3 =>
    match (fnOf w).toNat with
    | 0x00 => some (.xztab (GFmt.ofWord w))
    | _ => none
  | 0xC4 =>
    match (fnOf w).toNat with
    | 0x00 => some (.xzenc (GFmt.ofWord w))
    | _ => none
  | 0xC5 =>
    match (fnOf w).toNat with
    | 0x00 => some (.xseal (GFmt.ofWord w))
    | _ => none
  | _ => none

/-- The instruction that OP and FN name, with its fields as they stand in the word; none where OP is unassigned in
Table 12.2, or is 0x00 or 0xFF, or FN is unassigned within the OP (step 1 of R274). -/
def build (w : Word) : Option Instr :=
  let op := (opOf w).toNat
  if op < 0x08 then buildInt w
  else if op < 0x18 then buildFlow w
  else if op < 0x28 then buildMem w
  else if op < 0x60 then buildSys w
  else if op < 0x80 then buildVec w
  else if op < 0xB0 then buildTile w
  else buildRing w

/-- Step 2 of R274 for each instruction: every field its entry does not use is zero, and no field holds a value that
the format or the instruction reserves. An event row has no fields to check. -/
def Instr.fieldsLegal : Instr → Bool
  | .add o | .sub o | .and o | .or o | .xor o | .shl o | .shr o | .sar o | .slt o | .sltu o | .min o | .max o | .minu o | .maxu o | .mul o | .mulh o | .mulhu o | .div o | .divu o | .rem o | .remu o | .yield o =>
    o.gc == 0 && o.q == 0
  | .sext o | .zext o =>
    o.gb == 0 && o.gc == 0 && o.q.extractLsb' 6 2 == 0 && o.q.extractLsb' 0 6 != 0
  | .clz o | .ctz o | .popc o | .hnew o | .spawn o | .glaunch o | .wgcfg o | .wgwait o | .wgdrain o | .xwait o =>
    o.gb == 0 && o.gc == 0 && o.q == 0
  | .fadd o | .fsub o | .fmul o | .fdiv o | .fmin o | .fmax o =>
    o.q.extractLsb' 0 3 != 7 && o.q.extractLsb' 5 3 == 0 && o.gc == 0
  | .fsqrt o | .fclass o =>
    o.q.extractLsb' 0 3 != 7 && o.q.extractLsb' 5 3 == 0 && o.gb == 0 && o.gc == 0
  | .fma o =>
    o.q.extractLsb' 0 3 != 7 && o.q.extractLsb' 5 3 == 0
  | .fcmp o =>
    o.q.extractLsb' 0 3 != 7 && (o.q.extractLsb' 5 3).toNat < 6 && o.gc == 0
  | .fcvt o =>
    o.q.extractLsb' 0 3 != 7 && (o.q.extractLsb' 5 3).toNat < 6 && o.gc.extractLsb' 1 4 == 0 && o.gb == 0
  | .cflush o | .hgiveShares o | .hgiveRing o | .hgiveFabricBindings o | .hgiveMemory o | .hgiveBuckets o | .htakeShares o | .htakeRing o | .htakeFabricBindings o | .htakeMemory o | .htakeBuckets o | .hstat o | .wginj o | .wgstat o =>
    o.gd == 0 && o.gc == 0 && o.q == 0
  | .ainv o | .hkill o | .gwait o | .xcopy o | .xfill o | .xztab o | .xzenc o | .xseal o =>
    o.gd == 0 && o.gb == 0 && o.gc == 0 && o.q == 0
  | .tret o | .nop o | .squit o | .gbar o | .wgend o =>
    o.gd == 0 && o.ga == 0 && o.gb == 0 && o.gc == 0 && o.q == 0
  | .tretSkip o =>
    o.gd == 0 && o.ga == 0 && o.gb == 0 && o.gc == 0 && o.q == 1
  | .hretReissue o | .hretSkip o | .hretDeliver o | .hretForward o | .hretPlace o =>
    o.q == 0
  | .wgcfgClose o =>
    o.gd == 0 && o.gb == 0 && o.gc == 0 && o.q == 1
  | .wgpair o =>
    o.gd == 0 && o.q == 0
  | .addi o | .andi o | .ori o | .xori o | .slti o | .lih o | .jalr o =>
    o.q == 0
  | .shli o | .shri o | .sari o =>
    o.q == 0 && o.imm.toNat < 64
  | .addpc o | .jal o =>
    o.ga == 0 && o.q == 0
  | .setvl o =>
    o.q.extractLsb' 4 2 == 0 && o.imm == 0
  | .ctlrd o =>
    o.ga == 0 && o.q == 0 && o.imm.toNat ≤ 0x12
  | .ctlwrFpctl o =>
    o.gd == 0 && o.q == 0 && o.imm == 2
  | .ctlwrSeed o =>
    o.gd == 0 && o.q == 0 && o.imm == 3
  | .ctlwrTrapvec o =>
    o.gd == 0 && o.q == 0 && o.imm == 4
  | .ctlwrTblroot o =>
    o.gd == 0 && o.q == 0 && o.imm == 0x0D
  | .ctlwrYieldwin o =>
    o.gd == 0 && o.q == 0 && o.imm == 0x0E
  | .ctlwrSplit o =>
    o.gd == 0 && o.q == 0 && o.imm == 0x12
  | .ctlwr o =>
    o.gd == 0 && o.q == 0 && o.imm.toNat ≤ 0x12 && !ctlWritable o.imm
  | .cycrd o =>
    o.ga == 0 && o.q == 0 && o.imm == 0
  | .tmark o =>
    o.gd == 0 && o.q == 0
  | .trap o | .brk o =>
    o.gd == 0 && o.ga == 0 && o.q == 0
  | .sbind o | .sset o =>
    o.q.extractLsb' 4 2 == 0 && o.gd == 0 && o.imm == 0
  | .sget o =>
    o.q.extractLsb' 4 2 == 0 && o.ga == 0 && o.imm == 0
  | .sadv o =>
    o.q.extractLsb' 4 2 == 0 && o.gd == 0
  | .tmode o =>
    o.q == 0 && o.imm == 0
  | .beq o | .bne o | .blt o | .bge o | .bltu o | .bgeu o =>
    o.q.extractLsb' 1 5 == 0
  | .j o =>
    o.ga == 0 && o.gb == 0 && o.q == 0
  | .ld _ o | .lda _ o =>
    o.gb == 0 && ordOk o.ord o.scope
  | .st _ o | .stl _ o =>
    o.gd == 0 && ordOk o.ord o.scope
  | .amo _ _ o =>
    ordOk o.ord o.scope
  | .ldfe _ _ o =>
    o.gb == 0 && o.ord == 0 && o.scope == 0
  | .stfe _ o =>
    o.gd == 0 && o.ord == 0 && o.scope == 0
  | .waitw o =>
    o.ord == 0 && o.scope == 0
  | .fenceSv o | .fenceVs o | .fenceVv o | .fenceAll o =>
    o.gd == 0 && o.ga == 0 && o.gb == 0 && o.ord == 0 && o.disp == 0
  | .vadd o | .vsub o | .vmul o | .vmulh o | .vdiv o | .vmin o | .vmax o | .vand o | .vor o | .vxor o | .vshl o | .vshr o | .vsar o =>
    maskOk o.mk o.mn && o.rm != 7 && o.q.extractLsb' 1 7 == 0 && o.vc == 0
  | .vabs o | .vneg o | .vsqrt o | .vrcp o | .vrsq o | .vexp2 o | .vlog2 o | .vtanh o =>
    maskOk o.mk o.mn && o.rm != 7 && o.q.extractLsb' 1 7 == 0 && o.vb == 0 && o.vc == 0
  | .vclamp o | .vfma o =>
    maskOk o.mk o.mn && o.rm != 7 && o.q.extractLsb' 1 7 == 0
  | .vcmp _ o =>
    maskOk o.mk o.mn && o.vd.extractLsb' 3 3 == 0 && o.vc == 0 && o.rm == 0 && o.q == 0
  | .vsel o =>
    maskOk o.mk o.mn && o.q.extractLsb' 3 5 == 0 && o.q.extractLsb' 0 3 != 0 && o.vc == 0 && o.rm == 0
  | .vcvt o =>
    maskOk o.mk o.mn && o.rm != 7 && o.q.extractLsb' 5 3 == 0 && o.vb == 0 && o.vc == 0
  | .vred o =>
    maskOk o.mk o.mn && o.rm != 7 && o.q.extractLsb' 3 5 == 0 && o.q.extractLsb' 0 2 != 3 && (!o.q.getLsbD 2 || !o.vd.getLsbD 5) && o.vb == 0 && o.vc == 0
  | .vscan o =>
    maskOk o.mk o.mn && o.rm != 7 && o.q.extractLsb' 2 6 == 0 && o.q.extractLsb' 0 2 != 3 && o.vb == 0 && o.vc == 0
  | .vcomp o | .vexpd o =>
    maskOk o.mk o.mn && o.vb == 0 && o.vc == 0 && o.rm == 0 && o.q == 0
  | .vslide o =>
    maskOk o.mk o.mn && !o.vc.getLsbD 5 && o.q.extractLsb' 1 7 == 0 && o.vb == 0 && o.rm == 0
  | .vperm o =>
    maskOk o.mk o.mn && o.vc == 0 && o.rm == 0 && o.q == 0
  | .vhad o =>
    maskOk o.mk o.mn && o.rm != 7 && o.q.extractLsb' 4 4 == 0 && o.q.toNat ≤ 12 && o.vb == 0 && o.vc == 0
  | .vbcast o =>
    maskOk o.mk o.mn && !o.vc.getLsbD 5 && o.va == 0 && o.vb == 0 && o.rm == 0 && o.q == 0
  | .vindex o =>
    maskOk o.mk o.mn && o.va == 0 && o.vb == 0 && o.vc == 0 && o.rm == 0 && o.q == 0
  | .vext o =>
    maskOk o.mk o.mn && !o.vd.getLsbD 5 && !o.vc.getLsbD 5 && o.vb == 0 && o.rm == 0 && o.q == 0
  | .vins o =>
    maskOk o.mk o.mn && !o.vb.getLsbD 5 && !o.vc.getLsbD 5 && o.va == 0 && o.rm == 0 && o.q == 0
  | .vzip o | .vunzip o =>
    maskOk o.mk o.mn && o.q.extractLsb' 1 7 == 0 && o.vc == 0 && o.rm == 0
  | .mkand o | .mkor o | .mkxor o =>
    maskOk o.mk o.mn && o.vd.extractLsb' 3 3 == 0 && o.va.extractLsb' 3 3 == 0 && o.vb.extractLsb' 3 3 == 0 && o.vc == 0 && o.rm == 0 && o.q == 0
  | .mknot o =>
    maskOk o.mk o.mn && o.vd.extractLsb' 3 3 == 0 && o.va.extractLsb' 3 3 == 0 && o.vb == 0 && o.vc == 0 && o.rm == 0 && o.q == 0
  | .mkpopc o | .mkfirst o | .mktest o =>
    maskOk o.mk o.mn && !o.vd.getLsbD 5 && o.va.extractLsb' 3 3 == 0 && o.vb == 0 && o.vc == 0 && o.rm == 0 && o.q == 0
  | .mkset o =>
    maskOk o.mk o.mn && o.vd.extractLsb' 3 3 == 0 && o.q.extractLsb' 1 7 == 0 && o.va == 0 && o.vb == 0 && o.vc == 0 && o.rm == 0
  | .vld o | .vst o =>
    maskOk o.mk o.mn && ordOk o.ord o.scope && o.vi == 0 && o.ga == 0 && o.q == 0
  | .vldx o | .vstx o =>
    maskOk o.mk o.mn && ordOk o.ord o.scope && o.q.extractLsb' 5 4 == 0 && o.q.extractLsb' 0 2 != 3 && o.sx == 0
  | .vamo o =>
    maskOk o.mk o.mn && ordOk o.ord o.scope && (o.q.extractLsb' 5 4).toNat < 9 && o.q.extractLsb' 0 2 != 3 && o.sx == 0
  | .vldfe o =>
    maskOk o.mk o.mn && ordOk o.ord o.scope && o.q.extractLsb' 1 8 == 0 && o.vi == 0 && o.ga == 0
  | .vpf o =>
    maskOk o.mk o.mn && decide (o.ord.toNat < 4) && o.scope == 0 && o.vd == 0 && o.vi == 0 && o.ga == 0 && o.q == 0
  | .vpush o =>
    o.gd == 0 && o.gb == 0 && o.gc == 0 && o.vb == 0 && o.imm == 0
  | .vwaitf o =>
    o.gd == 0 && o.ga == 0 && o.gb == 0 && o.gc == 0 && o.va == 0 && o.vb == 0 && o.imm == 0
  | .fbind o =>
    o.imm.extractLsb' 6 4 == 0 && o.gd == 0 && o.gc == 0 && o.vd == 0 && o.va == 0 && o.vb == 0
  | .ffree o | .fdrain o =>
    o.imm.extractLsb' 5 5 == 0 && o.gd == 0 && o.ga == 0 && o.gb == 0 && o.gc == 0 && o.vd == 0 && o.va == 0 && o.vb == 0
  | .fx _ o =>
    o.imm.extractLsb' 1 3 == 0 && o.gc == 0
  | .fcfg o =>
    o.imm.extractLsb' 6 4 == 0 && o.gd == 0 && o.gb == 0 && o.gc == 0 && o.vd == 0 && o.va == 0 && o.vb == 0
  | .fstat o =>
    o.imm.extractLsb' 9 1 == 0 && (o.imm.extractLsb' 5 4).toNat < 6 && o.ga == 0 && o.gb == 0 && o.gc == 0 && o.vd == 0 && o.va == 0 && o.vb == 0
  | .fctxLoad o =>
    o.imm.extractLsb' 7 3 == 0 && o.imm.extractLsb' 5 2 == 0 && o.ga == 0 && o.gb == 0 && o.gc == 0 && o.vd == 0 && o.va == 0 && o.vb == 0
  | .fctxPin o =>
    o.imm.extractLsb' 7 3 == 0 && o.imm.extractLsb' 5 2 == 1 && o.ga == 0 && o.gb == 0 && o.gc == 0 && o.vd == 0 && o.va == 0 && o.vb == 0
  | .fctxUnpin o =>
    o.imm.extractLsb' 7 3 == 0 && o.imm.extractLsb' 5 2 == 2 && o.ga == 0 && o.gb == 0 && o.gc == 0 && o.vd == 0 && o.va == 0 && o.vb == 0
  | .fctxEvict o =>
    o.imm.extractLsb' 7 3 == 0 && o.imm.extractLsb' 5 2 == 3 && o.ga == 0 && o.gb == 0 && o.gc == 0 && o.vd == 0 && o.va == 0 && o.vb == 0
  | .topa o | .tops o =>
    o.q.extractLsb' 3 4 == 0 && (o.q.getLsbD 0 || o.sa == 0) && (o.q.getLsbD 1 || o.sb == 0)
  | .tzero o =>
    o.va == 0 && o.vb == 0 && o.gl == 0 && o.eta == 0 && o.etb == 0 && o.sa == 0 && o.sb == 0 && o.q == 0
  | .trd o | .twr o =>
    o.q.extractLsb' 4 3 == 0 && o.q.extractLsb' 0 3 != 7 && o.vb == 0 && o.sa == 0 && o.sb == 0
  | .tscl o =>
    o.q.extractLsb' 2 5 == 0 && o.eta == 0xD && o.etb == 0xD && (o.q.getLsbD 0 || o.va == 0) && (o.q.getLsbD 1 || o.vb == 0) && o.gl == 0 && o.sa == 0 && o.sb == 0
  | _ => true

/-- OP and FN of an instruction (Table 12.2); an event row has no word and gives OP 0x00, which is never assigned. -/
def Instr.opFn : Instr → BitVec 8 × BitVec 8
  | .add _ => (0x01, 0x00)
  | .sub _ => (0x01, 0x01)
  | .and _ => (0x01, 0x02)
  | .or _ => (0x01, 0x03)
  | .xor _ => (0x01, 0x04)
  | .shl _ => (0x01, 0x05)
  | .shr _ => (0x01, 0x06)
  | .sar _ => (0x01, 0x07)
  | .slt _ => (0x01, 0x08)
  | .sltu _ => (0x01, 0x09)
  | .min _ => (0x01, 0x0A)
  | .max _ => (0x01, 0x0B)
  | .minu _ => (0x01, 0x0C)
  | .maxu _ => (0x01, 0x0D)
  | .sext _ => (0x01, 0x0E)
  | .zext _ => (0x01, 0x0F)
  | .clz _ => (0x01, 0x10)
  | .ctz _ => (0x01, 0x11)
  | .popc _ => (0x01, 0x12)
  | .addi _ => (0x02, 0x00)
  | .andi _ => (0x02, 0x02)
  | .ori _ => (0x02, 0x03)
  | .xori _ => (0x02, 0x04)
  | .shli _ => (0x02, 0x05)
  | .shri _ => (0x02, 0x06)
  | .sari _ => (0x02, 0x07)
  | .slti _ => (0x02, 0x08)
  | .lih _ => (0x03, 0x00)
  | .addpc _ => (0x03, 0x01)
  | .mul _ => (0x04, 0x00)
  | .mulh _ => (0x04, 0x01)
  | .mulhu _ => (0x04, 0x02)
  | .div _ => (0x04, 0x04)
  | .divu _ => (0x04, 0x05)
  | .rem _ => (0x04, 0x06)
  | .remu _ => (0x04, 0x07)
  | .fadd _ => (0x08, 0x00)
  | .fsub _ => (0x08, 0x01)
  | .fmul _ => (0x08, 0x02)
  | .fdiv _ => (0x08, 0x03)
  | .fsqrt _ => (0x08, 0x04)
  | .fma _ => (0x08, 0x05)
  | .fmin _ => (0x08, 0x06)
  | .fmax _ => (0x08, 0x07)
  | .fcmp _ => (0x08, 0x08)
  | .fcvt _ => (0x08, 0x09)
  | .fclass _ => (0x08, 0x0A)
  | .beq _ => (0x10, 0x00)
  | .bne _ => (0x10, 0x01)
  | .blt _ => (0x10, 0x02)
  | .bge _ => (0x10, 0x03)
  | .bltu _ => (0x10, 0x04)
  | .bgeu _ => (0x10, 0x05)
  | .j _ => (0x11, 0x00)
  | .jal _ => (0x12, 0x00)
  | .jalr _ => (0x13, 0x00)
  | .ld .b _ => (0x18, 0x00)
  | .ld .h _ => (0x18, 0x01)
  | .ld .w _ => (0x18, 0x02)
  | .ld .d _ => (0x18, 0x03)
  | .ld .bu _ => (0x18, 0x08)
  | .ld .hu _ => (0x18, 0x09)
  | .ld .wu _ => (0x18, 0x0A)
  | .lda .b _ => (0x1A, 0x00)
  | .lda .h _ => (0x1A, 0x01)
  | .lda .w _ => (0x1A, 0x02)
  | .lda .d _ => (0x1A, 0x03)
  | .lda .bu _ => (0x1A, 0x08)
  | .lda .hu _ => (0x1A, 0x09)
  | .lda .wu _ => (0x1A, 0x0A)
  | .st .b _ => (0x19, 0x00)
  | .st .h _ => (0x19, 0x01)
  | .st .w _ => (0x19, 0x02)
  | .st .d _ => (0x19, 0x03)
  | .stl .b _ => (0x1B, 0x00)
  | .stl .h _ => (0x1B, 0x01)
  | .stl .w _ => (0x1B, 0x02)
  | .stl .d _ => (0x1B, 0x03)
  | .amo .add false _ => (0x1C, 0x20)
  | .amo .swap false _ => (0x1C, 0x21)
  | .amo .cas false _ => (0x1C, 0x22)
  | .amo .and false _ => (0x1C, 0x23)
  | .amo .or false _ => (0x1C, 0x24)
  | .amo .min false _ => (0x1C, 0x25)
  | .amo .max false _ => (0x1C, 0x26)
  | .amo .minu false _ => (0x1C, 0x27)
  | .amo .maxu false _ => (0x1C, 0x28)
  | .amo .add true _ => (0x1C, 0x30)
  | .amo .swap true _ => (0x1C, 0x31)
  | .amo .cas true _ => (0x1C, 0x32)
  | .amo .and true _ => (0x1C, 0x33)
  | .amo .or true _ => (0x1C, 0x34)
  | .amo .min true _ => (0x1C, 0x35)
  | .amo .max true _ => (0x1C, 0x36)
  | .amo .minu true _ => (0x1C, 0x37)
  | .amo .maxu true _ => (0x1C, 0x38)
  | .ldfe false false _ => (0x1D, 0x02)
  | .ldfe true false _ => (0x1D, 0x03)
  | .ldfe false true _ => (0x1D, 0x12)
  | .ldfe true true _ => (0x1D, 0x13)
  | .stfe false _ => (0x1E, 0x02)
  | .stfe true _ => (0x1E, 0x03)
  | .waitw _ => (0x1F, 0x00)
  | .fenceSv _ => (0x20, 0x00)
  | .fenceVs _ => (0x20, 0x01)
  | .fenceVv _ => (0x20, 0x02)
  | .fenceAll _ => (0x20, 0x03)
  | .setvl _ => (0x28, 0x00)
  | .ctlrd _ => (0x29, 0x00)
  | .ctlwrFpctl _ => (0x2A, 0x00)
  | .ctlwrSeed _ => (0x2A, 0x00)
  | .ctlwrTrapvec _ => (0x2A, 0x00)
  | .ctlwrTblroot _ => (0x2A, 0x00)
  | .ctlwrYieldwin _ => (0x2A, 0x00)
  | .ctlwrSplit _ => (0x2A, 0x00)
  | .ctlwr _ => (0x2A, 0x00)
  | .cycrd _ => (0x2B, 0x00)
  | .cflush _ => (0x2C, 0x00)
  | .ainv _ => (0x2D, 0x00)
  | .tmark _ => (0x2E, 0x00)
  | .trap _ => (0x30, 0x00)
  | .brk _ => (0x32, 0x00)
  | .tret _ => (0x31, 0x00)
  | .tretSkip _ => (0x31, 0x00)
  | .nop _ => (0x33, 0x00)
  | .hnew _ => (0x38, 0x00)
  | .hgiveShares _ => (0x39, 0x00)
  | .hgiveRing _ => (0x39, 0x00)
  | .hgiveFabricBindings _ => (0x39, 0x00)
  | .hgiveMemory _ => (0x39, 0x00)
  | .hgiveBuckets _ => (0x39, 0x00)
  | .htakeShares _ => (0x3A, 0x00)
  | .htakeRing _ => (0x3A, 0x00)
  | .htakeFabricBindings _ => (0x3A, 0x00)
  | .htakeMemory _ => (0x3A, 0x00)
  | .htakeBuckets _ => (0x3A, 0x00)
  | .hkill _ => (0x3B, 0x00)
  | .hstat _ => (0x3C, 0x00)
  | .hretReissue _ => (0x3D, 0x00)
  | .hretSkip _ => (0x3D, 0x00)
  | .hretDeliver _ => (0x3D, 0x00)
  | .hretForward _ => (0x3D, 0x00)
  | .hretPlace _ => (0x3D, 0x00)
  | .spawn _ => (0x40, 0x00)
  | .glaunch _ => (0x42, 0x00)
  | .squit _ => (0x41, 0x00)
  | .gbar _ => (0x43, 0x00)
  | .gwait _ => (0x44, 0x00)
  | .yield _ => (0x45, 0x00)
  | .vadd _ => (0x60, 0x00)
  | .vsub _ => (0x60, 0x01)
  | .vmul _ => (0x60, 0x02)
  | .vmulh _ => (0x60, 0x03)
  | .vdiv _ => (0x60, 0x04)
  | .vmin _ => (0x60, 0x05)
  | .vmax _ => (0x60, 0x06)
  | .vabs _ => (0x60, 0x07)
  | .vneg _ => (0x60, 0x08)
  | .vand _ => (0x60, 0x09)
  | .vor _ => (0x60, 0x0A)
  | .vxor _ => (0x60, 0x0B)
  | .vshl _ => (0x60, 0x0C)
  | .vshr _ => (0x60, 0x0D)
  | .vsar _ => (0x60, 0x0E)
  | .vclamp _ => (0x60, 0x0F)
  | .vfma _ => (0x60, 0x10)
  | .vsqrt _ => (0x60, 0x11)
  | .vrcp _ => (0x60, 0x12)
  | .vrsq _ => (0x60, 0x13)
  | .vexp2 _ => (0x60, 0x14)
  | .vlog2 _ => (0x60, 0x15)
  | .vtanh _ => (0x60, 0x16)
  | .vcmp .eq _ => (0x61, 0x00)
  | .vcmp .ne _ => (0x61, 0x01)
  | .vcmp .lt _ => (0x61, 0x02)
  | .vcmp .le _ => (0x61, 0x03)
  | .vcmp .gt _ => (0x61, 0x04)
  | .vcmp .ge _ => (0x61, 0x05)
  | .vsel _ => (0x62, 0x00)
  | .vcvt _ => (0x63, 0x00)
  | .vred _ => (0x68, 0x00)
  | .vscan _ => (0x68, 0x01)
  | .vcomp _ => (0x68, 0x02)
  | .vexpd _ => (0x68, 0x03)
  | .vslide _ => (0x68, 0x04)
  | .vperm _ => (0x68, 0x05)
  | .vhad _ => (0x68, 0x06)
  | .vbcast _ => (0x68, 0x07)
  | .vindex _ => (0x68, 0x08)
  | .vext _ => (0x68, 0x09)
  | .vins _ => (0x68, 0x0A)
  | .vzip _ => (0x68, 0x0B)
  | .vunzip _ => (0x68, 0x0C)
  | .mkand _ => (0x70, 0x00)
  | .mkor _ => (0x70, 0x01)
  | .mkxor _ => (0x70, 0x02)
  | .mknot _ => (0x70, 0x03)
  | .mkpopc _ => (0x70, 0x04)
  | .mkfirst _ => (0x70, 0x05)
  | .mktest _ => (0x70, 0x07)
  | .mkset _ => (0x70, 0x06)
  | .vld _ => (0x78, 0x00)
  | .vst _ => (0x79, 0x00)
  | .vldx _ => (0x7A, 0x00)
  | .vstx _ => (0x7B, 0x00)
  | .vamo _ => (0x7C, 0x00)
  | .vldfe _ => (0x7D, 0x00)
  | .vpf _ => (0x7E, 0x00)
  | .sbind _ => (0x80, 0x00)
  | .sset _ => (0x81, 0x00)
  | .sget _ => (0x82, 0x00)
  | .sadv _ => (0x83, 0x00)
  | .vpush _ => (0x88, 0x00)
  | .vwaitf _ => (0x89, 0x00)
  | .tmode _ => (0x90, 0x00)
  | .topa _ => (0x91, 0x00)
  | .tops _ => (0x92, 0x00)
  | .tzero _ => (0x93, 0x00)
  | .trd _ => (0x94, 0x00)
  | .twr _ => (0x95, 0x00)
  | .tscl _ => (0x96, 0x00)
  | .fbind _ => (0xA0, 0x00)
  | .ffree _ => (0xA1, 0x00)
  | .fx slot _ => (0xA2, slot.setWidth 8)
  | .fcfg _ => (0xA3, 0x00)
  | .fdrain _ => (0xA4, 0x00)
  | .fstat _ => (0xA5, 0x00)
  | .fctxLoad _ => (0xA6, 0x00)
  | .fctxPin _ => (0xA6, 0x00)
  | .fctxUnpin _ => (0xA6, 0x00)
  | .fctxEvict _ => (0xA6, 0x00)
  | .wgcfg _ => (0xB0, 0x00)
  | .wgcfgClose _ => (0xB0, 0x00)
  | .wgpair _ => (0xB1, 0x00)
  | .wginj _ => (0xB2, 0x00)
  | .wgwait _ => (0xB3, 0x00)
  | .wgdrain _ => (0xB4, 0x00)
  | .wgstat _ => (0xB5, 0x00)
  | .wgend _ => (0xB6, 0x00)
  | .xcopy _ => (0xC0, 0x00)
  | .xfill _ => (0xC1, 0x00)
  | .xwait _ => (0xC2, 0x00)
  | .xztab _ => (0xC3, 0x00)
  | .xzenc _ => (0xC4, 0x00)
  | .xseal _ => (0xC5, 0x00)
  | _ => (0x00, 0x00)

/-- Bits [47:0] of an instruction (Table 12.1); zero for an event row, which has no word. -/
def Instr.body : Instr → BitVec 48
  | .add o | .sub o | .and o | .or o | .xor o | .shl o | .shr o | .sar o | .slt o | .sltu o | .min o | .max o | .minu o | .maxu o | .sext o | .zext o | .clz o | .ctz o | .popc o | .mul o | .mulh o | .mulhu o | .div o | .divu o | .rem o | .remu o | .fadd o | .fsub o | .fmul o | .fdiv o | .fsqrt o | .fma o | .fmin o | .fmax o | .fcmp o | .fcvt o | .fclass o | .cflush o | .ainv o | .tret o | .tretSkip o | .nop o | .hnew o | .hgiveShares o | .hgiveRing o | .hgiveFabricBindings o | .hgiveMemory o | .hgiveBuckets o | .htakeShares o | .htakeRing o | .htakeFabricBindings o | .htakeMemory o | .htakeBuckets o | .hkill o | .hstat o | .hretReissue o | .hretSkip o | .hretDeliver o | .hretForward o | .hretPlace o | .spawn o | .glaunch o | .squit o | .gbar o | .gwait o | .yield o | .wgcfg o | .wgcfgClose o | .wgpair o | .wginj o | .wgwait o | .wgdrain o | .wgstat o | .wgend o | .xcopy o | .xfill o | .xwait o | .xztab o | .xzenc o | .xseal o => o.pack
  | .addi o | .andi o | .ori o | .xori o | .shli o | .shri o | .sari o | .slti o | .lih o | .addpc o | .jal o | .jalr o | .setvl o | .ctlrd o | .ctlwrFpctl o | .ctlwrSeed o | .ctlwrTrapvec o | .ctlwrTblroot o | .ctlwrYieldwin o | .ctlwrSplit o | .ctlwr o | .cycrd o | .tmark o | .trap o | .brk o | .sbind o | .sset o | .sget o | .sadv o | .tmode o => o.pack
  | .beq o | .bne o | .blt o | .bge o | .bltu o | .bgeu o | .j o => o.pack
  | .ld _ o | .lda _ o | .st _ o | .stl _ o | .amo _ _ o | .ldfe _ _ o | .stfe _ o | .waitw o | .fenceSv o | .fenceVs o | .fenceVv o | .fenceAll o => o.pack
  | .vadd o | .vsub o | .vmul o | .vmulh o | .vdiv o | .vmin o | .vmax o | .vabs o | .vneg o | .vand o | .vor o | .vxor o | .vshl o | .vshr o | .vsar o | .vclamp o | .vfma o | .vsqrt o | .vrcp o | .vrsq o | .vexp2 o | .vlog2 o | .vtanh o | .vcmp _ o | .vsel o | .vcvt o | .vred o | .vscan o | .vcomp o | .vexpd o | .vslide o | .vperm o | .vhad o | .vbcast o | .vindex o | .vext o | .vins o | .vzip o | .vunzip o | .mkand o | .mkor o | .mkxor o | .mknot o | .mkpopc o | .mkfirst o | .mktest o | .mkset o => o.pack
  | .vld o | .vst o | .vldx o | .vstx o | .vamo o | .vldfe o | .vpf o => o.pack
  | .vpush o | .vwaitf o | .fbind o | .ffree o | .fx _ o | .fcfg o | .fdrain o | .fstat o | .fctxLoad o | .fctxPin o | .fctxUnpin o | .fctxEvict o => o.pack
  | .topa o | .tops o | .tzero o | .trd o | .twr o | .tscl o => o.pack
  | _ => 0

/-- Steps 1 and 2 of R274: the fate of every 64-bit word. -/
def decode (w : Word) : Decoded :=
  match build w with
  | none => .illegalOp
  | some i => if zeroFieldOk w && i.fieldsLegal then .ok i else .illegalField

/-- The word of an instruction, written from Tables 12.1 and 12.2. -/
def encode (i : Instr) : Word := i.opFn.1 ++ i.opFn.2 ++ i.body

/-- The instruction the decoder reads from a word numbered as spec/opcode_table.json numbers bits: an instruction is
one 64-bit word (R271), so the bits above nbits are zero. -/
def decodeTableWord (nbits w : Nat) : Option Instr :=
  match decode (BitVec.ofNat 64 (w % 2 ^ nbits)) with
  | .ok i => some i
  | _ => none

end Sys2Proof
end

