-- ==== Sys2Proof/Machine/Mem.lean ====
section
/-! DEFINITION. Memory as a sorted list of (address, byte) pairs that lists no zero byte; an unlisted byte reads zero.
R109 gives zero for scratchpad at module reset; for the other memories it is the model's choice (notes/assumptions/2). -/

namespace Sys2Proof.Machine

/-- Memory: (address, byte) pairs, addresses strictly rising, no byte equal to what an unlisted address reads as. -/
abbrev Mem := List Host.Cell

/-- What a byte that is not listed reads as.
DESIGN CHOICE, unsafe: notes/assumptions/2. -/
def Mem.blank : Byte := 0

/-- The byte at an address. -/
def Mem.get (m : Mem) (a : Nat) : Byte :=
  match m.find? (fun c => c.1 == a) with
  | some c => c.2
  | none => Mem.blank

/-- The cells of bytes at rising addresses, the unlisted value left out. -/
def Mem.cells : Nat → List Byte → Mem
  | _, [] => []
  | a, b :: bs => if b = Mem.blank then Mem.cells (a + 1) bs else (a, b) :: Mem.cells (a + 1) bs

/-- Memory with consecutive bytes stored from an address. -/
def Mem.put (m : Mem) (a : Nat) (bs : List Byte) : Mem :=
  m.filter (fun c => decide (c.1 < a)) ++ Mem.cells a bs ++ m.filter (fun c => decide (a + bs.length ≤ c.1))

/-- The n bytes from an address. -/
def Mem.take (m : Mem) (a n : Nat) : List Byte := (List.range n).map (fun k => Mem.get m (a + k))

/-- The little-endian number in the n bytes from an address (R3). -/
def Mem.read (m : Mem) (a n : Nat) : Nat := ofLeBytes (Mem.take m a n)

/-- Memory with the low n bytes of x stored from an address (R3). -/
def Mem.write (m : Mem) (a n x : Nat) : Mem := Mem.put m a (leBytes n x)

/-- The canonical form: addresses strictly rise and no unlisted value is listed. -/
def Mem.wf : Mem → Bool
  | [] => true
  | c :: m => decide (c.2 ≠ Mem.blank) && m.all (fun d => decide (c.1 < d.1)) && Mem.wf m

/-- Memory with the listed bytes of a range cleared. -/
def Mem.wipe (m : Mem) (a n : Nat) : Mem :=
  m.filter (fun c => decide (c.1 < a)) ++ m.filter (fun c => decide (a + n ≤ c.1))

/-- The places of the 8-byte words of a range that hold a byte other than zero, by index, in rising order. -/
def Mem.usedWords (m : Mem) (a n : Nat) : List Nat :=
  ((m.filter (fun c => decide (a ≤ c.1) && decide (c.1 < a + n))).map (fun c => (c.1 - a) / 8)).eraseDups

end Sys2Proof.Machine
end

