-- ==== Sys2Proof/Machine/State.lean ====
section
/-! DEFINITION. The state of the module as plain data: everything the manual gives it, each field beside the rule that
names it. Fields marked MODEL are the model's own and are named in INVENTORY.md and notes/assumptions. -/

namespace Sys2Proof.Machine

/-- The trap causes of Table 11.1 (R249). -/
inductive Cause where
  | illegalOp | illegalField | illegalCombo | privilege | codeBound | align | pageFault | vpageFault
  | protection | tableWrite | streamFault | scaleCount | integrity | fabricUnbound | fabricFault
  | fabricStall | ringStranded | ringStuck | ringCount | noTile | hiveLimit | revoked | pushFault
  | software | brk | machineCheck
  deriving DecidableEq, Repr

/-- A trap raised by an instruction: its cause, TRAPVAL, TRAPINFO, and the DATA of its record (R249, R82). -/
structure Trap where
  cause : Cause
  val : Word
  info : Word
  data : Word
  deriving DecidableEq, Repr

/-- A core share: core number, first lane group and number of lane groups (R60). -/
structure ShareRef where
  core : Nat
  lg : Nat
  size : Nat
  deriving DecidableEq, Repr

/-- Why a strand does or does not issue (Table 2.2, R26). A Blocked strand keeps the instruction it waits in. -/
inductive Status where
  | waiting
  | running
  | blocked (i : Instr)
  | suspended
  | ended
  deriving DecidableEq, Repr

/-- A leaf as a walk finds it: the page, its physical place, its hive-physical place taken from the origin, and its
permissions. A cached one is tagged with hive and generation (R96, R77, R114). -/
structure TlbEntry where
  hive : Nat
  gen : Nat
  vbase : Nat
  size : Nat
  pbase : Nat
  hbase : Nat
  r : Bool
  w : Bool
  tw : Bool
  nl1 : Bool
  deriving DecidableEq, Repr

/-- A block of a CF8 stream as it has been read: its number from BASE on, its elements, and the address of the block that follows it
(R165). -/
structure CodedBlock where
  num : Nat
  elems : List Nat
  next : Nat
  deriving DecidableEq, Repr

/-- A stream register: its binding record (Table 4.7) and position P (R112), with its lookahead pages (R114). -/
structure Stream where
  bound : Bool
  desc : BitVec 512
  pos : Word
  look : List TlbEntry
  /-- The block of a CF8 stream that its last load has read last, which the next one finds there (R166). -/
  kept : Option CodedBlock
  deriving DecidableEq, Repr

/-- The states of a fabric slot (R207, Table 8.9). -/
inductive SlotState where
  | idle | full | stopped | done
  deriving DecidableEq, Repr

/-- A token on a comb network: its value and index word (R191). -/
structure Token where
  val : BitVec 128
  idx : BitVec 32
  deriving DecidableEq, Repr

/-- One node of one comb context: port FIFOs, bank registers, window buffer, and the counters that its operation keeps
(R189, R191, R194, R196, R197). -/
structure CombNode where
  fifos : List (List Token)
  banks : List Word
  window : List Token
  /-- Outputs renumbered so far on the primary and the secondary output. -/
  outs : Nat
  outs2 : Nat
  /-- REPEAT copies still to emit of the head tokens. -/
  copies : Option Nat
  /-- COUNT's tokens, or those in ACC's group. -/
  count : Nat
  /-- ACC's or SCAN's sum; none before its first value. -/
  acc : Option Nat
  /-- COUNT has emitted its count. -/
  sent : Bool
  deriving DecidableEq, Repr

/-- A fabric slot of a strand (R205, R206). -/
structure FSlot where
  bound : Bool
  image : Word
  area : Word
  state : SlotState
  /-- MODEL: the order of binding, for the newest-first rule of Table 3.5. -/
  order : Nat
  firings : Word
  abandoned : Word
  stalls : Word
  /-- Of the last context it stood in: its number, OUTPOS and the balance (R206, Table 8.9). -/
  lastCtx : Nat
  outpos : Nat
  balance : Nat
  /-- MODEL: what its nodes and edges keep that a restart record has no place for; none after adoption by KEEP. -/
  left : Option (List CombNode)
  edgeEnded : List Bool
  outEnded : Bool
  deriving DecidableEq, Repr

/-- A general-register operand captured at enqueue: its number, and its value once it is known (R43). -/
structure Capture where
  reg : BitVec 5
  val : Option Word
  deriving DecidableEq, Repr

/-- What a queue entry holds: an instruction, or a word that resumption read from a save entry and that does not
decode (R264, R265). -/
inductive QItem where
  | instr (i : Instr)
  | word (w : Word)
  deriving DecidableEq, Repr

/-- What an instruction has written so far: its vector, mask and general destinations, the flags it has raised and the
generators as it has stepped them. -/
structure Part where
  v : VReg
  m : MReg
  gd : Option Word
  flags : Nat
  rsr : Vector (BitVec 32) 64
  /-- The blocks that a load of a CF8 stream has read, each once (R165, R166). -/
  blocks : List CodedBlock := []
  deriving DecidableEq, Repr

/-- An instruction that holds tags (R46, R47, R49): its micro-operations, how many have issued and how many have been
produced, and what they have written so far, which its strand's registers receive in program order. -/
structure Tags where
  uops : Nat
  issued : Nat
  produced : Nat
  /-- The number of its first tag in the window of its share (R47). -/
  base : Nat
  /-- The arithmetic pipe that its micro-operations issue on, A1 if true, once the first has issued (R46). -/
  second : Option Bool
  /-- In the matrix unit (R186), or in the comb (R206). -/
  taken : Bool
  /-- Its work is done in one step: a VLDFE, and a TRD that the unit has taken (R430, R186). -/
  ran : Bool
  /-- EGs of a TRD's destination produced while it is in the unit (Table 7.3). -/
  egs : Nat
  /-- The scales that a TOPA or TOPS in the unit has read, of side A and of side B (R158). -/
  scales : List Nat × List Nat
  /-- Times it was ready and not chosen (R48). -/
  waited : Nat
  out : Part
  deriving DecidableEq, Repr

/-- An entry of a strand's queue (R42, R43, R264). -/
structure QEntry where
  item : QItem
  addr : Word
  caps : List Capture
  /-- The progress index p (R259). -/
  p : Nat
  /-- Set when it reissues under Gov AND m7 (R116, R264). -/
  underM7 : Bool
  /-- The MVL and the grant in force captured at enqueue (R53, R396). -/
  mvl : Nat
  grant : Nat
  /-- DRM captured at enqueue, for RM = 6 (R151). -/
  drm : BitVec 3
  /-- MODEL: its place in the order of enqueues and engine commands, which R133 and R167 compare. -/
  order : Nat
  /-- Flags of EGs completed before a pre-emption, ORed in at completion (R150). -/
  flags : Nat
  /-- A FENCE.VV of this scope stands after it (R127). -/
  fence : Option (BitVec 2)
  tags : Option Tags
  /-- MODEL: the generators that its leading p EGs have stepped, while an older instruction has steps of its own to make, and
  those that tile instructions behind it have stepped: its strand's generators receive both in program order (R153). -/
  pre : List Nat := []
  post : List Nat := []
  deriving DecidableEq, Repr

/-- A pushed value not yet taken (R245): the target register, its EG count, and the value. -/
structure Pushed where
  reg : BitVec 6
  egs : Nat
  val : VReg
  deriving DecidableEq, Repr

/-- A CF8 code table slot (R162, R167): the type code, the 16 entries (SYM, LEN), and the generation. -/
structure CodeTable where
  et : BitVec 4
  entries : List (Nat × Nat)
  gen : BitVec 2
  deriving DecidableEq, Repr

/-- A trap record (Table 3.9); SEQ is added when it is posted (R82). -/
structure TrapRecord where
  ticket : BitVec 32
  cause : Nat
  flags : BitVec 8
  hive : Nat
  strand : BitVec 32
  gang : BitVec 32
  pc : Word
  val : Word
  info : Word
  data : Word
  save : Word
  deriving DecidableEq, Repr

/-- How a suspended strand came to be suspended, which decides what HRET may do (R74, R254, R360). -/
inductive SuspKind where
  /-- The initial strand of a hive, not yet started (R69). -/
  | initial
  /-- A parental or declined trap (R80). -/
  | trap
  /-- A trap raised in the local handler (R254). -/
  | handlerTrap
  /-- Pre-empted or moved by a revocation (R71). -/
  | revoked
  /-- Pre-empted by firmware, which resumes it itself (R258). -/
  | firmware
  deriving DecidableEq, Repr

/-- The ticket of a suspended strand, and the hive that holds it (0 is firmware, for the host) (R74, R82). -/
structure Suspension where
  kind : SuspKind
  ticket : BitVec 32
  holder : Nat
  record : TrapRecord
  deriving DecidableEq, Repr

/-- A paired task's ring, core position, session, entry index, and whether it still holds its pads (R228, R71). -/
structure TaskRef where
  ring : Nat
  pos : Nat
  session : Nat
  entry : Nat
  holds : Bool
  deriving DecidableEq, Repr

/-- A pre-emption request: the core cycle at which its yield window ends, whether firmware makes it, and the KIND of
what is taken (R258, R71). -/
structure Preempt where
  deadline : Nat
  firmware : Bool
  kind : Nat
  deriving DecidableEq, Repr

/-- A fault that a full save found and did not deliver (R260): the trap, the older held instructions still to complete,
m7 as the fault leaves it, and whether the instruction reissues under it. -/
structure PendFault where
  trap : Trap
  older : Nat
  m7 : MReg
  underM7 : Bool
  deriving DecidableEq, Repr

/-- What a compact save keeps: vector, mask and stream registers; and the register that receives 1 at resumption
(R262). -/
structure Kept where
  v : BitVec 64
  m : BitVec 8
  s : BitVec 16
  gd : BitVec 5
  deriving DecidableEq, Repr

/-- What an instruction that completed while its strand was away from it leaves: back at its PC, the strand goes on after the
instruction, with a register written, and with an acquire at HIVE scope after GBAR (R68, R216, R236, R258). -/
structure Away where
  pc : Word
  gd : BitVec 5
  val : Word
  acquire : Bool
  deriving DecidableEq, Repr

/-- A strand (R24 to R58): one program counter, one strand slot, its registers and its queue. -/
structure Strand where
  status : Status
  hive : Nat
  strandId : BitVec 32
  gangId : BitVec 32
  pc : Word
  g : Vector Word 32
  v : Vector VReg 64
  m : Vector MReg 8
  streams : Vector Stream 16
  fslots : Vector FSlot 32
  tables : Vector CodeTable 4
  fpctl : Word
  seed : BitVec 32
  rsr : Vector (BitVec 32) 64
  trappc : Word
  trapcause : Word
  trapval : Word
  trapinfo : Word
  yieldwin : BitVec 16
  /-- The register budget code, Table 2.3. -/
  vregs : BitVec 2
  prio : BitVec 2
  vlmin : Nat
  vlmax : Nat
  /-- The share it is assigned to or placed on (R32). -/
  share : Option ShareRef
  /-- The strand slot it holds on its share while placed (R33). -/
  slot : Nat
  placed : Bool
  /-- The placement grant PG in EGs (R33). -/
  pg : Nat
  /-- The grant in force I in EGs (R52). -/
  grant : Nat
  /-- EG slots held (R33, R56). -/
  egs : Nat
  /-- The MVL in force (R178). -/
  mvl : Nat
  queue : List QEntry
  /-- Held instructions, from a queued trap until TRET or resumption (R252). -/
  held : List QEntry
  /-- The resume PC of a local trap (R253). -/
  resumePc : Word
  /-- The program's g28 to g31 while H = 1 (R253). -/
  hsave : Vector Word 4
  /-- A scalar trap that waits for older queued instructions, with its PC (R251). -/
  pendTrap : Option (Trap × Word)
  pendFault : Option PendFault
  /-- None after a full save. -/
  kept : Option Kept
  pushBits : BitVec 64
  pushed : List Pushed
  task : Option TaskRef
  /-- Its save entry's index in its hive's save area (R66). -/
  entry : Option Nat
  /-- MODEL: it starts from its launch state when placed, having no saved state to load (R71). -/
  fresh : Bool
  /-- It has arrived at the GBAR at an address (R38). -/
  arrived : Option Word
  away : Option Away
  preempt : Option Preempt
  /-- The command record read by an engine instruction that waits in step 5 of R238. -/
  record : Option (BitVec 1024)
  /-- MODEL: the instruction at PC was tried and has to wait; it takes no issue place until it is tried again. -/
  waits : Bool
  /-- MODEL: placed, with its state still in its save entry (R265). -/
  resuming : Bool
  /-- The beat of its WGINJ has begun: the instruction completes when that beat ends (R222). -/
  inBeat : Bool
  susp : Option Suspension
  /-- Arrival order among waiting strands, and the times passed over (R34, R36). -/
  arrival : Nat
  passed : Nat
  /-- It waits in its hive's spill area rather than a ready list (R34). -/
  spilled : Bool
  deriving DecidableEq, Repr

/-- How a hive holds its partition's ring (R63). -/
inductive RingHold where
  | none | held | dormant
  deriving DecidableEq, Repr

/-- A token bucket of one LLC slice (R85 to R88): RATE, BURST, tokens in 1/16-byte units, and whether the hive has a
slot of its own there. -/
structure Bucket where
  rate : Nat
  burst : Nat
  tokens : Int
  own : Bool
  llcBytes : Word
  borrowed : Word
  deriving DecidableEq, Repr

/-- A hive (R59 to R90). -/
structure Hive where
  id : Nat
  parent : Nat
  depth : Nat
  part : Nat
  weight : Nat
  fslots : Nat
  noborrow : Bool
  ring : RingHold
  shares : List ShareRef
  wbase : Nat
  wsize : Nat
  codebase : Nat
  codebound : Nat
  trapvec : Word
  trapmask : Word
  /-- POOLBASE, and the physical address of each 2 MiB chunk of the pool (R65). -/
  poolBase : Nat
  pool : List Nat
  poolSize : Nat
  saveoff : Nat
  savecnt : Nat
  spilloff : Nat
  spillcnt : Nat
  tqbase : Word
  tqsize : Nat
  tracebase : Word
  tracesize : Nat
  tblroot : Word
  /-- MODEL: the level-3 table that firmware composed a root's shadow from (R83). -/
  shadowRoot : Nat
  buckets : List Bucket
  /-- The shadow generation (R79). -/
  gen : Nat
  /-- Physical places of the effective leaves that are revoked markers (R71). -/
  revoked : List Nat
  /-- Records posted to its queue so far, the next SEQ (R82), and pending records in order (R81). -/
  seq : Nat
  pend : List TrapRecord
  /-- KINDs whose ticket-0 REVOKED notice did not fit (R81). -/
  pendNotices : List Nat
  lastGang : Nat
  sealSeq : Nat
  issued : Word
  egops : Word
  tileops : Word
  reflected : Word
  preempted : Word
  deriving DecidableEq, Repr

/-- A comb image as its header and arrays give it (Table 8.5). -/
structure Image where
  shape : Nat
  unbal : Bool
  nin : Nat
  outet : BitVec 4
  outnode : Nat
  outnet : Nat
  recsz : Nat
  nodemask : BitVec 16
  imgid : Word
  edges : List (BitVec 32)
  nodes : List Word
  routes : List Word
  banks : List Word
  deriving DecidableEq, Repr

/-- A configuration context of a comb region (R205, R207, R211). -/
structure CombCtx where
  lg : Nat
  num : Nat
  /-- MODEL: index of the owning strand in State.strands. -/
  owner : Nat
  slot : BitVec 5
  image : Image
  pinned : Bool
  /-- The cycle in which it was last served or loaded. -/
  served : Nat
  /-- An FX is in progress. -/
  running : Bool
  nodes : List CombNode
  edgeIdx : List Word
  edgeEnded : List Bool
  outpos : Nat
  outEnded : Bool
  arg : Word
  len : Word
  idle : Nat
  flags : Nat
  /-- The FX's vd as written so far, its DRM and its grant (R193, R207, R208). -/
  vd : VReg
  drm : BitVec 3
  grant : Nat
  /-- Nodes that an FCFG has closed to deliveries (R209). -/
  closed : BitVec 16
  /-- Its state could not be written to its record (R212). -/
  unsaved : Bool
  deriving DecidableEq, Repr

/-- A memory port's coalescing buffer: the port's physical node, the context, the 64-byte line in scratchpad or memory,
the bytes stored, and the cycle of its first store (R198, R199). -/
structure PortBuf where
  node : Nat
  ctx : Nat
  hive : Nat
  scratch : Bool
  line : Nat
  bytes : List (Nat × Byte)
  since : Nat
  deriving DecidableEq, Repr

/-- A line of the L1: its physical line number, 128 bytes, the dirty bytes, the core cycle at which it became dirty, and the
hive whose write-back is charged (R105, R122, R110). -/
structure L1Line where
  line : Nat
  data : BitVec 1024
  dirty : BitVec 128
  since : Nat
  hive : Nat
  deriving DecidableEq, Repr

/-- A core (R16): its SRAM, tiles, comb, caches, grants and cycle counter. -/
structure Core where
  /-- SPLIT.SPS (R103). -/
  sps : BitVec 3
  scratch : Mem
  /-- Full granules, by scratchpad offset / 16, rising (R107). -/
  full : List Nat
  tiles : List (List TileRow)
  l1 : List L1Line
  icache : List (Nat × Word)
  tlb : List TlbEntry
  vlgrant : Nat
  mvlc : Nat
  duty : Nat
  cycles : Word
  comb : List CombCtx
  ports : List (Option Nat)
  bufs : List PortBuf
  /-- The context last served in the region that starts at each lane group (R210). -/
  combLast : List Nat
  /-- The round of R41: the hive being served, its issues so far, and below each hive's slot pointer. -/
  roundHive : Nat
  roundUsed : Nat
  /-- Places of this round already taken by hives that are still to be served (R41). -/
  roundAhead : List (Nat × Nat)
  /-- The strand that filled the first issue place of the cycle, while the second is open (R40). -/
  roundFirst : Option Nat
  pointers : List (Nat × Nat)
  /-- The strand slot that the matrix unit looks at next (R51). -/
  matNext : Nat
  /-- The strand slot that the tag allocator stands on, and the number of the next tag of the share that starts at each lane
  group (R47). -/
  tagTurn : Nat
  tagNext : List Nat
  deriving DecidableEq, Repr

/-- An entry of a pairing table (R219): the ids, the pads of the halves it holds, and how far it has come. -/
structure PairEntry where
  aid : BitVec 24
  bid : BitVec 24
  session : Nat
  arg : Word
  padA : Option Nat
  padB : Option Nat
  fired : Bool
  started : Bool
  deriving DecidableEq, Repr

/-- A tile on the ring (Table 9.4) with its payload as a little-endian number. -/
structure Tile where
  id : BitVec 24
  fam : Bool
  session : Nat
  need : Nat
  len : Nat
  laps : Nat
  origin : Nat
  src : Word
  payload : Nat
  deriving DecidableEq, Repr

/-- A pad that is not FREE: session, number, the tile it holds, and whether its references are all dropped (R220). -/
structure Pad where
  session : Nat
  num : Nat
  fam : Bool
  id : BitVec 24
  src : Word
  origin : Nat
  laps : Nat
  len : Nat
  refs : List Nat
  deriving DecidableEq, Repr

/-- The states of a session (R217). -/
inductive SessState where
  | free | setup | running | halted | damaged
  deriving DecidableEq, Repr

/-- How far a drain has come: none, asked for, or stopping lookups and injection since a beat boundary (R234). -/
inductive DrainStep where
  | none | asked | stopping
  deriving DecidableEq, Repr

/-- A strand whose WGDRAIN or WGCFG.CLOSE waits, with the instruction's PC and gd (R234, R218, R236). -/
structure RingWaiter where
  strand : Nat
  pc : Word
  gd : BitVec 5
  deriving DecidableEq, Repr

/-- A tile that a drain found still owed captures (R234): what its record holds, and its remaining need. -/
structure Owed where
  fam : Bool
  id : BitVec 24
  need : Nat
  len : Nat
  src : Word
  origin : Nat
  laps : Nat
  deriving DecidableEq, Repr

/-- A session of a ring (Tables 9.2 and 9.9). -/
structure Session where
  state : SessState
  /-- MODEL: index of the owner strand. -/
  owner : Nat
  desc : BitVec 512
  fired : Nat
  ended : Nat
  inja : Nat
  injb : Nat
  captured : Nat
  refused : Nat
  retired : Nat
  maxlaps : Nat
  drained : Nat
  idle : Nat
  /-- Something of the session happened since the last boundary (R233). -/
  active : Bool
  status : Nat
  faultVal : Word
  faultInfo : Word
  faultCause : Option Cause
  /-- Tiles in flight injected by each core: (position, family) (R222). -/
  inflight : List (Nat × Bool)
  drain : DrainStep
  owed : List Owed
  /-- The WGDRAINs that wait, the one being served first, and the WGCFG.CLOSEs that do. -/
  drainers : List RingWaiter
  closers : List RingWaiter
  deriving DecidableEq, Repr

/-- A waggle ring (R19, R215 to R236): its slots by position, sessions, pairing tables and pads by position, and the
injections that wait for a boundary. -/
structure Ring where
  slotsA : List (Option Tile)
  slotsB : List (Option Tile)
  sessions : List Session
  tables : List (List (Option PairEntry))
  pads : List (List Pad)
  beats : Nat
  deriving DecidableEq, Repr

/-- The kinds of engine command (R237). -/
inductive CmdKind where
  | copy | fill | ztab | zenc | xseal
  deriving DecidableEq, Repr

/-- An engine command (R238, R239): its record, how far it has come, and the completion it has still to write. -/
structure Cmd where
  id : Nat
  kind : CmdKind
  /-- MODEL: index of the issuing strand. -/
  strand : Nat
  hive : Nat
  gang : BitVec 32
  share : ShareRef
  desc : BitVec 1024
  /-- MODEL: the queue entries whose V accesses it awaits, by their order (R133). -/
  awaits : List Nat
  /-- The number of an XSEAL among its hive's (R248). -/
  seq : Nat
  started : Bool
  progress : Nat
  outBytes : Nat
  table : Option (List (Nat × Nat))
  /-- STATE, cause code, FADDR and FINFO once it has ended (Table 10.3). -/
  ending : Option (Nat × Nat × Word × Word)
  deriving DecidableEq, Repr

/-- A request waiting at an LLC slice port (R87). -/
structure LlcReq where
  slice : Nat
  hive : Nat
  bytes : Nat
  deriving DecidableEq, Repr

/-- A request for a page-table walk of a die's walker: it waits, or its walk has begun under a generation (R114, R79). -/
structure Walk where
  die : Nat
  hive : Nat
  gen : Nat
  va : Nat
  strand : Nat
  stream : Nat
  begun : Bool
  deriving DecidableEq, Repr

/-- A peer mapping (R303): PEER value, port mask, remote module, remote import index. -/
structure PeerMap where
  peer : Nat
  mask : BitVec 16
  remote : Word
  entry : Word
  deriving DecidableEq, Repr

/-- An HTAKE of shares or of the ring that has taken effect and is not complete: its strand and PC, its issuing hive, the child,
the shares that are being emptied (R68, R71). -/
structure Taking where
  strand : Nat
  pc : Word
  hive : Nat
  child : Nat
  shares : List ShareRef
  deriving DecidableEq, Repr

/-- A partition (R14, R301, R302). -/
structure Partition where
  live : Bool
  root : Nat
  granules : List Nat
  hqbase : Nat
  hqsize : Nat
  seq : Nat
  pend : List TrapRecord
  seals : List (Nat × Nat)
  peers : List PeerMap
  cap : Nat
  corrected : List Word
  uncorrected : List Word
  refusedHost : Word
  taking : Option Taking
  deriving DecidableEq, Repr

/-- The boot window and firmware state (R305 to R307, R314). -/
structure Boot where
  state : Nat
  reason : Nat
  imageAddr : Word
  imageSize : Word
  reqqBase : Word
  reqqSize : BitVec 32
  /-- REQQBASE and REQQSIZE as firmware read them when it entered STATE 5. -/
  queueBase : Word
  queueSize : BitVec 32
  svn : Word
  mr0 : BitVec 384
  mr1 : BitVec 384
  /-- The image as the boot ROM received it, in I/O-die SRAM (R305). -/
  image : List Byte
  deriving DecidableEq, Repr

/-- The reasons of Table 4.9. -/
inductive Reason where
  | notPresent | notPermitted | malformed | revoked
  deriving DecidableEq, Repr

/-- What a host or remote access is answered with at the link: nothing yet, the bytes read, or a translation failure, with its reason
where the access reached a translation (R299, R301, R303). -/
inductive LinkReply where
  | none
  | data (bytes : List Byte)
  | failed (reason : Option Reason)
  deriving DecidableEq, Repr

/-- Why the machine model stops with a fault. -/
inductive Fault where
  /-- Raised by every instruction meaning when no strand is placed and running under State.cur: the manual gives an
  instruction's effect on a strand that issues it (R24, R26), so there is nothing to run. Safe: step never reaches it. -/
  | noStrand
  deriving DecidableEq, Repr

/-- Why the machine model gives no meaning. -/
inductive Refusal where
  /-- Raised by an arm of exec whose instruction has no meaning in the model yet. Safe. -/
  | notModelled (mnemonic : String)
  deriving DecidableEq, Repr

/-- The module (R12). -/
structure State where
  /-- HBM4, DDR-5 and host memory by physical address (R94). -/
  mem : Mem
  cores : List Core
  rings : List Ring
  strands : List Strand
  hives : List Hive
  parts : List Partition
  cmds : List Cmd
  llc : List LlcReq
  walks : List Walk
  /-- Import entries that are set: index, partition, HIVEID (R301). -/
  imports : List (Nat × Nat × Nat)
  /-- Bound virtual functions: function, HIVEID (R89). -/
  vfs : List (Nat × Nat)
  powerLimit : Nat
  linksDown : List Nat
  boot : Boot
  /-- The last STRANDID assigned (R31). -/
  lastStrandId : BitVec 32
  corrected : List Word
  uncorrected : List Word
  /-- Host accesses refused at the link since power-up, of every partition (R309). -/
  refusedHost : Word
  /-- Link interrupt messages sent to the companion processor, newest first (R302). -/
  interrupts : List Nat
  /-- MODEL: the answer to the last access that the host or a peer made at a link. -/
  reply : LinkReply
  /-- MODEL: index of the strand whose instruction is issued, the core whose turn it is, and whose turn is next. -/
  cur : Nat
  coreTurn : Nat
  deviceTurn : Bool
  /-- MODEL: which of the device events that can happen is next. -/
  eventTurn : Nat
  /-- MODEL: the instruction just tried has to wait and counts as not issued. -/
  stalled : Bool
  /-- MODEL: the queue drains as far as it can when an instruction enters it. -/
  eager : Bool
  /-- MODEL: counters that number the commands, arrivals, tickets and free values. -/
  nextCmd : Nat
  nextArrival : Nat
  nextTicket : Nat
  freeCount : Nat
  /-- MODEL: outside and device events that happen next, in order. -/
  inbox : List Instr
  deriving DecidableEq, Repr

def Stream.unbound : Stream := ⟨false, 0, 0, [], none⟩

def FSlot.free : FSlot :=
  { bound := false, image := 0, area := 0, state := .idle, order := 0, firings := 0, abandoned := 0, stalls := 0
    lastCtx := 0, outpos := 0, balance := 0, left := none, edgeEnded := [], outEnded := false }

def CodeTable.empty : CodeTable := ⟨0, [], 0⟩

def Session.reset : Session :=
  ⟨.free, 0, 0, 0, 0, 0, 0, 0, 0, 0, 0, 0, 0, false, 0, 0, 0, none, [], .none, [], [], []⟩

def Ring.reset : Ring :=
  { slotsA := List.replicate 12 none, slotsB := List.replicate 12 none
    sessions := List.replicate 4 Session.reset
    tables := List.replicate 12 (List.replicate 256 none)
    pads := List.replicate 12 [], beats := 0 }

/-- A tile of zeros (R109). -/
def Core.zeroTile : List TileRow := List.replicate 128 0

/-- A core after module reset: SPLIT 0b010, scratchpad zero and empty (R103, R109), full grants (R53), counter 0 (R333).
DESIGN CHOICE, unsafe: notes/assumptions/4. -/
def Core.reset : Core :=
  { sps := 2, scratch := [], full := [], tiles := List.replicate 4 Core.zeroTile, l1 := [], icache := []
    tlb := [], vlgrant := 8, mvlc := 0, duty := 1, cycles := 0, comb := [], ports := List.replicate 16 none
    bufs := [], combLast := List.replicate 16 3, roundHive := 0, roundUsed := 0, roundAhead := [], roundFirst := none, pointers := [], matNext := 0
    tagTurn := 0, tagNext := List.replicate 16 0 }

def Partition.reset : Partition :=
  { live := false, root := 0, granules := [], hqbase := 0, hqsize := 0, seq := 0, pend := [], seals := []
    peers := [], cap := 12000, corrected := List.replicate 8 0, uncorrected := List.replicate 8 0
    refusedHost := 0, taking := none }

/-- The boot window when the boot ROM has trained the host link: STATE 0 (R305, R314). -/
def Boot.reset : Boot :=
  { state := 0, reason := 0, imageAddr := 0, imageSize := 0, reqqBase := 0, reqqSize := 0, queueBase := 0, queueSize := 0, svn := 0
    mr0 := Config.bootRomHash, mr1 := 0, image := [] }

/-- The module after power-up or module reset: no firmware, no hive, no strand; the boot ROM waits for an image. -/
def State.reset : State :=
  { mem := [], cores := List.replicate 576 Core.reset, rings := List.replicate 48 Ring.reset, strands := []
    hives := [], parts := List.replicate 48 Partition.reset, cmds := [], llc := [], walks := [], imports := []
    vfs := [], powerLimit := 12000, linksDown := [], boot := Boot.reset, lastStrandId := 0
    corrected := List.replicate 8 0, uncorrected := List.replicate 8 0, refusedHost := 0, interrupts := [], reply := .none, cur := 0
    coreTurn := 0, deviceTurn := false, eventTurn := 0, stalled := false, eager := true, nextCmd := 1, nextArrival := 0, nextTicket := 0x10000, freeCount := 0
    inbox := [] }

end Sys2Proof.Machine
end

