-- ==== Sys2Proof/Machine/Access.lean ====
section
/-! DEFINITION. Reading and updating the parts of the state: strands, general registers, hives, cores and rings, and the
values that traps carry. Every read or write of a general register goes through here (g0 reads zero, R283). -/

namespace Sys2Proof.Machine

/-- The strand that no list place holds; it has ended. -/
def Strand.blank : Strand :=
  { status := .ended, hive := 0, strandId := 0, gangId := 0, pc := 0, g := Vector.replicate 32 0
    v := Vector.replicate 64 0, m := Vector.replicate 8 0, streams := Vector.replicate 16 Stream.unbound
    fslots := Vector.replicate 32 FSlot.free, tables := Vector.replicate 4 CodeTable.empty, fpctl := 0, seed := 0
    rsr := Vector.replicate 64 0, trappc := 0, trapcause := 0, trapval := 0, trapinfo := 0, yieldwin := 0
    vregs := 0, prio := 0, vlmin := 1, vlmax := 8, share := none, slot := 0, placed := false, pg := 0, grant := 0
    egs := 0, mvl := 128, queue := [], held := [], resumePc := 0, hsave := Vector.replicate 4 0, pendTrap := none
    pendFault := none, kept := none, pushBits := 0, pushed := [], task := none, entry := none, fresh := true, arrived := none
    away := none, preempt := none, record := none, waits := false, resuming := false, inBeat := false, susp := none, arrival := 0, passed := 0, spilled := false }

def Status.isRunning : Status → Bool
  | .running => true
  | _ => false

def Status.isBlocked : Status → Bool
  | .blocked _ => true
  | _ => false

def Status.isWaiting : Status → Bool
  | .waiting => true
  | _ => false

def Status.isSuspended : Status → Bool
  | .suspended => true
  | _ => false

def Status.isEnded : Status → Bool
  | .ended => true
  | _ => false

/-- Strand k of the module; the blank strand where there is none. -/
def State.strand (s : State) (k : Nat) : Strand := s.strands.getD k Strand.blank

/-- The strand whose instruction is issued. -/
def State.me (s : State) : Strand := s.strand s.cur

def State.setStrand (s : State) (k : Nat) (t : Strand) : State := { s with strands := s.strands.set k t }

def State.modStrand (s : State) (k : Nat) (f : Strand → Strand) : State :=
  { s with strands := s.strands.set k (f (s.strand k)) }

def State.setMe (s : State) (t : Strand) : State := s.setStrand s.cur t

def State.modMe (s : State) (f : Strand → Strand) : State := s.modStrand s.cur f

/-- Strand State.cur exists, is placed and is Running (R26). -/
def State.runs (s : State) : Bool :=
  decide (s.cur < s.strands.length) && s.me.status.isRunning && s.me.placed

/-- A strand whose program is on its share: Running or Blocked, its state loaded (Table 2.2, R265). -/
def Strand.active (t : Strand) : Bool := t.placed && !t.resuming && (t.status.isRunning || t.status.isBlocked)

/-- A strand whose program is not on its share yet: it waits, or its state is still in its save entry. -/
def Strand.unloaded (t : Strand) : Bool := t.status.isWaiting || (t.placed && t.resuming)

/-- A general register; g0 reads zero (R283). -/
def Strand.greg (t : Strand) (r : BitVec 5) : Word := if r = 0 then 0 else t.g[r.toNat]'r.isLt

/-- A strand with a general register written; a write to g0 is discarded (R283). -/
def Strand.setGreg (t : Strand) (r : BitVec 5) (x : Word) : Strand :=
  if r = 0 then t else { t with g := t.g.set r.toNat x r.isLt }

def Strand.vreg (t : Strand) (r : BitVec 6) : VReg := t.v[r.toNat]'r.isLt

def Strand.setVreg (t : Strand) (r : BitVec 6) (x : VReg) : Strand := { t with v := t.v.set r.toNat x r.isLt }

def Strand.mreg (t : Strand) (r : BitVec 3) : MReg := t.m[r.toNat]'r.isLt

def Strand.setMreg (t : Strand) (r : BitVec 3) (x : MReg) : Strand := { t with m := t.m.set r.toNat x r.isLt }

def Strand.stream (t : Strand) (k : BitVec 4) : Stream := t.streams[k.toNat]'k.isLt

def Strand.setStream (t : Strand) (k : BitVec 4) (x : Stream) : Strand :=
  { t with streams := t.streams.set k.toNat x k.isLt }

def Strand.fslot (t : Strand) (k : BitVec 5) : FSlot := t.fslots[k.toNat]'k.isLt

def Strand.setFslot (t : Strand) (k : BitVec 5) (x : FSlot) : Strand :=
  { t with fslots := t.fslots.set k.toNat x k.isLt }

def Strand.table (t : Strand) (k : BitVec 2) : CodeTable := t.tables[k.toNat]'k.isLt

def Strand.setTable (t : Strand) (k : BitVec 2) (x : CodeTable) : Strand :=
  { t with tables := t.tables.set k.toNat x k.isLt }

/-- The strand's register budget B (Table 2.3). -/
def Strand.budget (t : Strand) : Nat := 8 * 2 ^ t.vregs.toNat

/-- The share a strand stands on; a strand attached to no share gives a whole core 0. -/
def Strand.shareD (t : Strand) : ShareRef := t.share.getD ⟨0, 0, 16⟩

/-- The core number of the strand's share. -/
def Strand.coreNo (t : Strand) : Nat := t.shareD.core

/-- Fields of a binding record (Table 4.7). -/
def Stream.base (x : Stream) : Nat := bits x.desc.toNat 63 0

def Stream.count (x : Stream) (k : Nat) : Nat := bits x.desc.toNat (159 + 32 * k) (128 + 32 * k)

/-- STRIDE0, STRIDE1 and STRIDE2. -/
def Stream.stride (x : Stream) (k : Nat) : Int :=
  toSigned 64 (match k with
    | 0 => bits x.desc.toNat 127 64
    | 1 => bits x.desc.toNat 319 256
    | _ => bits x.desc.toNat 383 320)

def Stream.scaleBase (x : Stream) : Nat := bits x.desc.toNat 447 384

/-- FMT [3:0], the stored ET, and FMT [5:4], CODING. -/
def Stream.et (x : Stream) : BitVec 4 := BitVec.ofNat 4 (bits x.desc.toNat 451 448)

def Stream.coding (x : Stream) : Nat := bits x.desc.toNat 453 452

/-- CTL [0], DIR, and CTL [2:1], TSLOT. -/
def Stream.isWrite (x : Stream) : Bool := bit x.desc.toNat 456

def Stream.tslot (x : Stream) : BitVec 2 := BitVec.ofNat 2 (bits x.desc.toNat 458 457)

/-- T, the number of elements (R112). -/
def Stream.total (x : Stream) : Nat := x.count 0 * x.count 1 * x.count 2

/-- TRAPCAUSE.H (Table 11.2). -/
def Strand.inHandler (t : Strand) : Bool := t.trapcause.getLsbD 8

/-- The instruction at PC that completed while the strand was away from it. -/
def Strand.awayHere (t : Strand) : Option Away := t.away.filter (fun w => w.pc == t.pc)

/-- A strand whose state is on its share. -/
def Strand.onShare (t : Strand) : Bool := t.placed && !t.resuming

/-- PC + 8 (R271). -/
def Strand.nextPc (t : Strand) : Strand := { t with pc := t.pc + 8 }

def State.core (s : State) (c : Nat) : Core := s.cores.getD c Core.reset

def State.modCore (s : State) (c : Nat) (f : Core → Core) : State := { s with cores := s.cores.set c (f (s.core c)) }

def State.ring (s : State) (r : Nat) : Ring := s.rings.getD r Ring.reset

def State.modRing (s : State) (r : Nat) (f : Ring → Ring) : State := { s with rings := s.rings.set r (f (s.ring r)) }

def State.part (s : State) (n : Nat) : Partition := s.parts.getD n Partition.reset

def State.modPart (s : State) (n : Nat) (f : Partition → Partition) : State :=
  { s with parts := s.parts.set n (f (s.part n)) }

/-- The hive that no list place holds; HIVEID 0 names no hive (R59). -/
def Hive.blank : Hive :=
  { id := 0, parent := 0, depth := 0, part := 0, weight := 1, fslots := 0, noborrow := false, ring := .none
    shares := [], wbase := 0, wsize := 0, codebase := 0, codebound := 0, trapvec := 0, trapmask := 0, poolBase := 0, pool := []
    poolSize := 0, saveoff := 0, savecnt := 0, spilloff := 0, spillcnt := 0, tqbase := 0, tqsize := 0, tracebase := 0
    tracesize := 0, tblroot := 0, shadowRoot := 0, buckets := [], gen := 0, revoked := [], seq := 0, pend := [], pendNotices := []
    lastGang := 0, sealSeq := 0, issued := 0, egops := 0, tileops := 0, reflected := 0
    preempted := 0 }

/-- The live hive of a HIVEID. -/
def State.findHive (s : State) (h : Nat) : Option Hive := s.hives.find? (fun x => x.id == h)

def State.hive (s : State) (h : Nat) : Hive := (s.findHive h).getD Hive.blank

def State.modHive (s : State) (h : Nat) (f : Hive → Hive) : State :=
  { s with hives := s.hives.map (fun x => if x.id == h then f x else x) }

/-- The hive of the strand whose instruction is issued. -/
def State.myHive (s : State) : Hive := s.hive s.me.hive

/-- The core of the strand whose instruction is issued. -/
def State.myCore (s : State) : Core := s.core s.me.coreNo

/-- Whether a fetch at an address lies in a hive's arena (R99). -/
def inArena (h : Hive) (pc : Nat) : Bool := decide (h.codebase ≤ pc) && decide (pc + 8 ≤ h.codebound)

/-- The codes of Table 11.1. -/
def Cause.code : Cause → Nat
  | .illegalOp => 0x01 | .illegalField => 0x02 | .illegalCombo => 0x03 | .privilege => 0x04 | .codeBound => 0x05
  | .align => 0x06 | .pageFault => 0x08 | .vpageFault => 0x09 | .protection => 0x0A | .tableWrite => 0x0B
  | .streamFault => 0x0C | .scaleCount => 0x0D | .integrity => 0x0F | .fabricUnbound => 0x11
  | .fabricFault => 0x12 | .fabricStall => 0x13 | .ringStranded => 0x14 | .ringStuck => 0x15 | .ringCount => 0x16
  | .noTile => 0x17 | .hiveLimit => 0x18 | .revoked => 0x19 | .pushFault => 0x1B | .software => 0x20
  | .brk => 0x21 | .machineCheck => 0x3F

/-- Causes of class Parental in Table 11.1 (R80). -/
def Cause.parental : Cause → Bool
  | .tableWrite | .hiveLimit | .revoked => true
  | _ => false

/-- Whether a number is a cause code of Table 11.1 other than 0x3F. -/
def isCauseCode (n : Nat) : Bool :=
  [1, 2, 3, 4, 5, 6, 8, 9, 0x0A, 0x0B, 0x0C, 0x0D, 0x0F, 0x11, 0x12, 0x13, 0x14, 0x15, 0x16, 0x17, 0x18, 0x19, 0x1B,
    0x20, 0x21].contains n

/-- The kinds of access of Table 4.9. -/
inductive AccessKind where
  | read | write | amo
  deriving DecidableEq, Repr

def AccessKind.code : AccessKind → Nat
  | .read => 0 | .write => 1 | .amo => 2

def Reason.code : Reason → Nat
  | .notPresent => 0 | .notPermitted => 1 | .malformed => 2 | .revoked => 3

/-- A trap that carries TRAPVAL, with TRAPINFO and DATA zero. -/
def Trap.at (c : Cause) (v : Word) : Trap := ⟨c, v, 0, 0⟩

/-- TRAPINFO of a scalar translation fault: Table 4.9 with N = 1 and MAP = 1. -/
def faultInfo (k : AccessKind) (r : Reason) : Word :=
  BitVec.ofNat 64 (1 + k.code * 64 + r.code * 256 + 65536)

/-- The trap of a scalar access that does not go through, by its reason (R97). -/
def accessTrap (va : Word) (k : AccessKind) (r : Reason) : Trap :=
  match r with
  | .notPresent | .malformed => ⟨.pageFault, va, faultInfo k r, 0⟩
  | .notPermitted => ⟨.protection, va, faultInfo k r, 0⟩
  | .revoked => ⟨.revoked, va, faultInfo k r, 0⟩

/-- The slot of a placed strand among its core's: slots follow lane groups. -/
def Strand.coreSlot (t : Strand) : Nat := t.shareD.lg / 2 + t.slot

end Sys2Proof.Machine
end

