-- ==== Sys2Proof/Machine/Translate.lean ====
section
/-! DEFINITION. Table walks, the shadow of a hive and composition (spec/03 R75 to R79, spec/04 R91 to R97). -/

namespace Sys2Proof.Machine

/-- Whether a physical address lies outside the reserved ranges of Table 4.2 (R94). -/
def paExists (pa : Nat) : Bool :=
  decide (pa < 2 ^ 40) ||
  (decide (2 ^ 40 ≤ pa) && decide (pa < 9 * 2 ^ 40) && decide (pa < 2 ^ 40 + Config.ddrBytes)) ||
  (decide (2 ^ 51 ≤ pa) && decide (pa < 2 ^ 52))

/-- The shadow tables of a root that its pool has no room for: firmware keeps them in memory of its own, at these pool
offsets and, in the reserved range of Table 4.2 that no leaf reaches, from these addresses on.
DESIGN CHOICE, unsafe: notes/assumptions/20. -/
def firmwareOff : Nat := 2 ^ 52

def firmwarePhys (part : Nat) : Nat := 2 ^ 50 + part * 2 ^ 42

/-- Physical address of a pool offset: each 2 MiB chunk keeps the place found at HNEW (R65). -/
def Hive.poolPhys (h : Hive) (off : Nat) : Nat :=
  if off < firmwareOff then h.pool.getD (off / 2 ^ 21) 0 + off % 2 ^ 21 else firmwarePhys h.part + (off - firmwareOff)

/-- The chunk of a list that holds a physical address, with its number. -/
def chunkOf (pa : Nat) : List Nat → Nat → Option (Nat × Nat)
  | [], _ => none
  | b :: bs, k => if b ≤ pa ∧ pa < b + 2 ^ 21 then some (k, b) else chunkOf pa bs (k + 1)

/-- Pool offset of a physical address that lies in the pool, or in what firmware keeps for a root beside it. -/
def Hive.poolOff (h : Hive) (pa : Nat) : Option Nat :=
  if h.parent = 0 ∧ firmwarePhys h.part ≤ pa ∧ pa < firmwarePhys h.part + 2 ^ 42 then
    some (firmwareOff + (pa - firmwarePhys h.part))
  else (chunkOf pa h.pool 0).map (fun c => c.1 * 2 ^ 21 + (pa - c.2))

/-- Lowest index bit of a level, Table 4.3; the span of one entry is 2 to this power. -/
def levelShift : Nat → Nat
  | 0 => 16 | 1 => 21 | 2 => 30 | _ => 39

/-- Entries of a table of a level (Table 4.3). -/
def levelEntries : Nat → Nat
  | 0 => 32 | 1 => 512 | 2 => 512 | _ => 8192

def tableSize (level : Nat) : Nat := 8 * levelEntries level

def pageSize (level : Nat) : Nat := 2 ^ levelShift level

/-- The index of a virtual address in a table of a level. -/
def levelIndex (level va : Nat) : Nat := va / 2 ^ levelShift level % levelEntries level

/-- OUT, bits [51:8] of an entry (Table 4.4). -/
def entryOut (e : Nat) : Nat := bits e 51 8 * 256

/-- An entry with its OUT replaced. -/
def withOut (e out : Nat) : Nat := e % 256 + out % 2 ^ 52 / 256 * 256 + e / 2 ^ 52 * 2 ^ 52

/-- What an entry of a table says (R97). -/
inductive EntryView where
  | absent
  | bad
  | table (out : Nat)
  | page (out : Nat) (r w tw nl1 : Bool)
  deriving DecidableEq, Repr

/-- An entry of a table of a level, read under Tables 4.3 and 4.4, its output not yet looked at. -/
def viewForm (level e : Nat) : EntryView :=
  if !bit e 0 then .absent
  else if bits e 7 6 ≠ 0 || bits e 63 52 ≠ 0 then .bad
  else if bit e 1 then
    if level ≥ 3 then .bad
    else if bit e 3 && !bit e 2 then .bad
    else if entryOut e % pageSize level ≠ 0 then .bad
    else .page (entryOut e) (bit e 2) (bit e 3) (bit e 4) (bit e 5)
  else if level = 0 || bits e 5 2 ≠ 0 then .bad
  else if entryOut e % tableSize (level - 1) ≠ 0 then .bad
  else .table (entryOut e)

/-- The same for an entry that holds physical outputs: a leaf in a reserved range is malformed (R94). -/
def viewEntry (level e : Nat) : EntryView :=
  match viewForm level e with
  | .page out r w tw nl1 =>
    if paExists out && paExists (out + pageSize level - 1) then .page out r w tw nl1 else .bad
  | v => v

/-- The result of a walk (R97). -/
inductive Xlat where
  | leaf (e : TlbEntry)
  | fail (r : Reason)
  deriving DecidableEq, Repr

/-- The origin of an effective entry: the same index of the table's second half (R75). -/
def originAt (s : State) (h : Hive) (level epa : Nat) : Nat :=
  match h.poolOff epa with
  | some off => Mem.read s.mem (h.poolPhys (off + tableSize level)) 8
  | none => 0

/-- The leaf that an effective entry gives. -/
def leafOf (s : State) (h : Hive) (va level epa out : Nat) (r w tw nl1 : Bool) : TlbEntry :=
  { hive := h.id, gen := h.gen, vbase := va / pageSize level * pageSize level, size := pageSize level
    pbase := out, hbase := entryOut (originAt s h level epa), r := r, w := w, tw := tw, nl1 := nl1 }

/-- A walk of a hive's effective entries from a table of a level (R75, R97). -/
def walkFrom (s : State) (h : Hive) (va : Nat) : Nat → Nat → Xlat
  | 0, tbl =>
    let epa := tbl + 8 * levelIndex 0 va
    if h.revoked.contains epa then .fail .revoked
    else match viewEntry 0 (Mem.read s.mem epa 8) with
      | .absent => .fail .notPresent
      | .page out r w tw nl1 => .leaf (leafOf s h va 0 epa out r w tw nl1)
      | _ => .fail .malformed
  | level + 1, tbl =>
    let epa := tbl + 8 * levelIndex (level + 1) va
    if h.revoked.contains epa then .fail .revoked
    else match viewEntry (level + 1) (Mem.read s.mem epa 8) with
      | .absent => .fail .notPresent
      | .bad => .fail .malformed
      | .page out r w tw nl1 => .leaf (leafOf s h va (level + 1) epa out r w tw nl1)
      | .table out => walkFrom s h va level out

/-- A walk of a hive's shadow, whose root is at pool offset 0; of a partition root whose level-3 table is not aligned to its size,
every walk finds that malformed (R75, R95). -/
def walk (s : State) (h : Hive) (va : Nat) : Xlat :=
  if h.parent = 0 ∧ h.shadowRoot % tableSize 3 ≠ 0 then .fail .malformed
  else walkFrom s h (va % 2 ^ 52) 3 (h.poolPhys 0)

/-- Whether a leaf covers an offset of the local space. -/
def TlbEntry.covers (e : TlbEntry) (hive gen va : Nat) : Bool :=
  e.hive == hive && e.gen == gen && decide (e.vbase ≤ va) && decide (va < e.vbase + e.size)

/-- Translation through a core's TLB of 1,024 entries, which a walk fills (R114). -/
def xlate (s : State) (core : Option Nat) (h : Hive) (va : Nat) : Xlat × State :=
  match core with
  | none => (walk s h va, s)
  | some c =>
    match (s.core c).tlb.find? (fun e => e.covers h.id h.gen va) with
    | some e => (.leaf e, s)
    | none =>
      match walk s h va with
      | .leaf e => (.leaf e, s.modCore c (fun k => { k with tlb := (e :: k.tlb).take 1024 }))
      | .fail r => (.fail r, s)

/-- The shadow tables that valid entries of a shadow table link, as (pool offset, level). -/
def linkedBelow (s : State) (h : Hive) (t : Nat × Nat) : List (Nat × Nat) :=
  let base := h.poolPhys t.1
  (Mem.usedWords s.mem base (tableSize t.2)).filterMap (fun i =>
    match viewEntry t.2 (Mem.read s.mem (base + 8 * i) 8) with
    | .table out => (h.poolOff out).map (fun off => (off, t.2 - 1))
    | _ => none)

/-- Every linked table of a hive's shadow; the root is always linked (R65, R76). -/
def linkedTables (s : State) (h : Hive) : List (Nat × Nat) :=
  let l2 := linkedBelow s h (0, 3)
  let l1 := l2.flatMap (linkedBelow s h)
  let l0 := l1.flatMap (linkedBelow s h)
  (0, 3) :: (l2 ++ l1 ++ l0)

/-- The hive whose shadow part holds a physical address, with the pool offset (R76). -/
def State.shadowAt (s : State) (pa : Nat) : Option (Hive × Nat) :=
  s.hives.findSome? (fun h =>
    match h.poolOff pa with
    | some off => if off < h.saveoff then some (h, off) else none
    | none => none)

/-- The effective leaf of a stored leaf over the leaf that backs it (R76). -/
def composeLeaf (stored : Nat) (out : Nat) (back : TlbEntry) : Nat :=
  let r := bit stored 2 && back.r
  let w := bit stored 3 && back.w
  let nl1 := bit stored 5 || back.nl1
  3 + r.toNat * 4 + w.toNat * 8 + (bit stored 4).toNat * 16 + nl1.toNat * 32 + out % 2 ^ 52 / 256 * 256

/-- Both halves of a shadow entry written, and its revoked marker, if it was one, gone. -/
def putEntry (s : State) (h : Hive) (off level eff stored : Nat) : State :=
  let s := { s with mem := Mem.write (Mem.write s.mem (h.poolPhys off) 8 eff) (h.poolPhys (off + tableSize level)) 8 stored }
  s.modHive h.id (fun x => { x with revoked := x.revoked.filter (fun p => p != h.poolPhys off) })

/-- A composing store of an entry to its place at pool offset off of a table of a level; va is the store's address
(R76). A stored entry that breaks Table 4.3 or 4.4 is kept as it is, and a walk finds it malformed. A leaf whose page does not end
within the window traps PROTECTION, and one whose place the parent's own translation does not reach traps as a store there would.
DESIGN CHOICE, unsafe: notes/assumptions/78. -/
def composeAt (s : State) (h : Hive) (off level stored : Nat) (va : Word) : Except Trap State :=
  match viewForm level stored with
  | .absent => .ok (putEntry s h off level 0 stored)
  | .bad => .ok (putEntry s h off level stored stored)
  | .table out =>
    if out + 2 * tableSize (level - 1) ≤ h.saveoff then
      .ok (putEntry s h off level (withOut stored (h.poolPhys out)) stored)
    else .error (accessTrap va .write .notPermitted)
  | .page out _ _ _ _ =>
    if h.wsize < out + pageSize level then .error (accessTrap va .write .notPermitted)
    else match walk s (s.hive h.parent) (h.wbase + out) with
      | .fail r => .error (accessTrap va .write r)
      | .leaf back =>
        let d := (h.wbase + out) - back.vbase
        if back.size < d + pageSize level then .error (accessTrap va .write .notPermitted)
        else .ok (putEntry s h off level (composeLeaf stored (back.pbase + d) back) stored)

/-- A parent's aligned 8-byte ST or STL to the shadow part of a child's pool (R76). -/
def composeStore (s : State) (h : Hive) (off stored : Nat) (va : Word) : Except Trap State :=
  match (linkedTables s h).find? (fun t => decide (t.1 ≤ off) && decide (off < t.1 + tableSize t.2)) with
  | some t => composeAt s h off t.2 stored va
  | none => .error (accessTrap va .write .notPermitted)

/-! The partition root: firmware composes its shadow against the granule list (R83, R301). -/

/-- The physical place of a root's hive-physical address: granules in list order, and the host range unchanged. -/
def rootPhys (p : Partition) (hp : Nat) : Option Nat :=
  if 2 ^ 51 ≤ hp then (if hp < 2 ^ 52 then some hp else none)
  else (p.granules[hp / 2 ^ 30]?).map (fun g => g * 2 ^ 30 + hp % 2 ^ 30)

/-- Firmware composes one leaf of a root: a page wholly in the granules or wholly in the host range; any other valid
leaf becomes a malformed entry, one with a reserved bit set (R301). -/
def rootLeaf (p : Partition) (wsize level stored out : Nat) : Nat :=
  if out + pageSize level ≤ wsize || (decide (2 ^ 51 ≤ out) && decide (out + pageSize level ≤ 2 ^ 52)) then
    match rootPhys p out with
    | some pa => withOut stored pa
    | none => stored ||| 64
  else stored ||| 64

/-- Memory through a root's hive-physical space, 8 bytes. -/
def rootRead (s : State) (p : Partition) (hp : Nat) : Nat :=
  match rootPhys p hp with
  | some pa => Mem.read s.mem pa 8
  | none => 0

/-- The first pool offset above every linked shadow table: where firmware puts the next one (notes/assumptions/20).
DESIGN CHOICE, unsafe: notes/assumptions/20. -/
def shadowTop (s : State) (h : Hive) : Nat :=
  (linkedTables s h).foldl (fun m t => max m (t.1 + 2 * tableSize t.2)) (2 * tableSize 3)

/-- Firmware composes an entry of a root's own table of a level into the shadow place off, and the tables it reaches
below; next is the first free pool offset. -/
def rootCompose (h : Hive) (p : Partition) : Nat → Nat → Nat → State × Nat → State × Nat
  | 0, off, stored, (s, next) =>
    match viewForm 0 stored with
    | .absent => (putEntry s h off 0 0 stored, next)
    | .page out _ _ _ _ => (putEntry s h off 0 (rootLeaf p h.wsize 0 stored out) stored, next)
    | _ => (putEntry s h off 0 stored stored, next)
  | level + 1, off, stored, (s, next) =>
    match viewForm (level + 1) stored with
    | .absent => (putEntry s h off (level + 1) 0 stored, next)
    | .bad => (putEntry s h off (level + 1) stored stored, next)
    | .page out _ _ _ _ =>
      (putEntry s h off (level + 1) (rootLeaf p h.wsize (level + 1) stored out) stored, next)
    | .table out =>
      let size := tableSize level
      let inPool := ceilDiv next (2 * size) * (2 * size)
      let place := if inPool + 2 * size ≤ h.saveoff then inPool else max inPool firmwareOff
      match rootPhys p out with
      | some pa =>
        let s := { s with mem := Mem.wipe s.mem (h.poolPhys place) (2 * size) }
        let s := putEntry s h off (level + 1) (withOut stored (h.poolPhys place)) stored
        (Mem.usedWords s.mem pa size).foldl (fun a i =>
          rootCompose h p level (place + 8 * i) (rootRead a.1 p (out + 8 * i)) a) (s, place + 2 * size)
      | none => (putEntry s h off (level + 1) (stored ||| 64) stored, next)

/-- Firmware builds a root's shadow anew from its level-3 table (R83, R301). -/
def rootShadow (s : State) (h : Hive) (root : Nat) : State :=
  let p := s.part h.part
  let s := { s with mem := Mem.wipe s.mem (h.poolPhys 0) (2 * tableSize 3) }
  let s := s.modHive h.id (fun x => { x with revoked := [], shadowRoot := root })
  match rootPhys p root with
  | some pa =>
    if root % tableSize 3 ≠ 0 then s
    else ((Mem.usedWords s.mem pa (tableSize 3)).foldl (fun a i =>
      rootCompose h p 3 (8 * i) (rootRead a.1 p (root + 8 * i)) a) (s, 2 * tableSize 3)).1
  | none => s

/-- The linked tables of a root's shadow with the hive-physical place of the table each one shadows. -/
def shadowedTables (s : State) (h : Hive) : List (Nat × Nat × Nat) :=
  (linkedTables s h).map (fun t =>
    if t.2 = 3 then (h.shadowRoot, t.1, 3)
    else
      let own := (linkedTables s h).findSome? (fun u =>
        if u.2 = t.2 + 1 then
          (Mem.usedWords s.mem (h.poolPhys u.1) (tableSize u.2)).findSome? (fun i =>
            match viewEntry u.2 (Mem.read s.mem (h.poolPhys u.1 + 8 * i) 8) with
            | .table out =>
              if h.poolOff out == some t.1 then
                some (entryOut (Mem.read s.mem (h.poolPhys (u.1 + tableSize u.2 + 8 * i)) 8))
              else none
            | _ => none)
        else none)
      (own.getD 0, t.1, t.2))

/-- TW set on each leaf of a root's shadow that maps a page holding one of its own tables, whatever its size (R77, R83). -/
def markTablePages (s : State) (h : Hive) : State :=
  let own := (shadowedTables s h).map (fun t => t.1)
  (linkedTables s h).foldl (fun s t =>
    (Mem.usedWords s.mem (h.poolPhys t.1) (tableSize t.2)).foldl (fun s i =>
      let pa := h.poolPhys t.1 + 8 * i
      let e := Mem.read s.mem pa 8
      match viewEntry t.2 e with
      | .page _ _ _ false _ =>
        let org := h.poolPhys (t.1 + tableSize t.2 + 8 * i)
        let stored := Mem.read s.mem org 8
        let base := entryOut stored
        if own.any (fun a => decide (base ≤ a) && decide (a < base + pageSize t.2)) then
          { s with mem := Mem.write (Mem.write s.mem pa 8 (e ||| 16)) org 8 (stored ||| 16) }
        else s
      | _ => s) s) s

/-- Firmware performs a root's write to one of its table pages: the store, and the matching shadow entry (R83). -/
def rootTableWrite (s : State) (h : Hive) (hp data : Nat) : State :=
  let p := s.part h.part
  let places := (shadowedTables s h).filter (fun t => decide (t.1 ≤ hp) && decide (hp < t.1 + tableSize t.2.2))
  match rootPhys p hp with
  | none => s
  | some pa =>
    let s := { s with mem := Mem.write s.mem pa 8 data }
    let s := (places.foldl (fun a t =>
      rootCompose h p t.2.2 (t.2.1 + (hp - t.1)) data a) (s, shadowTop s h)).1
    markTablePages s h

end Sys2Proof.Machine
end

