-- ==== Sys2Proof/Machine/Streams.lean ====
section
/-! DEFINITION. Where the elements of a stream lie, and the lookahead that walks fill for it (spec/04 R112, R114, spec/03
R79). -/

namespace Sys2Proof.Machine

/-- Byte address and bit offset of stream element e at width w; a packed stream counts bits (R112). -/
def streamAddr (x : Stream) (w e : Nat) : Nat × Nat :=
  let c0 := max (x.count 0) 1
  let c1 := max (x.count 1) 1
  let i0 := e % c0
  let rows : Int := (x.base : Nat) + (e / c0 % c1 : Nat) * x.stride 1 + (e / (c0 * c1) : Nat) * x.stride 2
  if x.stride 0 = 0 then (ofInt 64 (rows + (w * i0 / 8 : Nat)), w * i0 % 8)
  else (ofInt 64 (rows + (i0 : Nat) * x.stride 0), 0)

/-! The pages that a stream reaches (R114). -/

/-- How many of so many blocks, a stride apart, lie in the page of the first, which covers its offsets lo to hi. -/
def keepIn (lo hi : Nat) (stride : Int) (left : Nat) : Nat :=
  if stride = 0 then left
  else if 0 < stride then min left ((65535 - hi) / stride.natAbs + 1)
  else min left (lo / stride.natAbs + 1)

/-- How many elements from element e on lie in its page for certain: a run of its row, whole rows, or whole planes. -/
def pageRun (x : Stream) (w e : Nat) : Nat :=
  let c0 := max (x.count 0) 1
  let c1 := max (x.count 1) 1
  let c2 := max (x.count 2) 1
  let at_ := streamAddr x w e
  let off := at_.1 % 65536
  let row := c0 - e % c0
  let n0 := if x.stride 0 = 0 then min row (((65536 - off) * 8 - at_.2) / w) else keepIn off off (x.stride 0) row
  if e % c0 ≠ 0 ∨ n0 < c0 then n0
  else
    let span0 := if x.stride 0 = 0 then w * (c0 - 1) / 8 else (c0 - 1) * (x.stride 0).natAbs
    let lo := if x.stride 0 < 0 then off - span0 else off
    let n1 := keepIn lo (lo + span0) (x.stride 1) (c1 - e / c0 % c1)
    if e / c0 % c1 ≠ 0 ∨ n1 < c1 then n1 * c0
    else
      let span1 := (c1 - 1) * (x.stride 1).natAbs
      let lo1 := if x.stride 1 < 0 then lo - span1 else lo
      keepIn lo1 (lo1 + span1 + span0) (x.stride 2) (c2 - e / (c0 * c1)) * (c0 * c1)

/-- The next 4 distinct pages of 64 KiB that a stream reaches from element e on, with those in l found before. The number of
its elements bounds the search. -/
def nextPages (x : Stream) (w : Nat) : Nat → Nat → List Nat → List Nat
  | 0, _, l => l
  | fuel + 1, e, l =>
    if x.total ≤ e || decide (4 ≤ l.length) then l
    else
      let p := (streamAddr x w e).1 / 65536
      nextPages x w fuel (e + max 1 (pageRun x w e)) (if l.contains p then l else l ++ [p])

/-- Where a CF8 stream is known to go on: the number and the address of a block, behind the one that it keeps, or the first. -/
def Stream.nextBlock (x : Stream) : Nat × Nat := x.kept.elim (0, x.base) (fun b => (b.num + 1, b.next))

/-- The next pages of a CF8 stream: 4 in a row from the block where it is known to go on, as far as blocks of the greatest size would
reach, because only their headers say how large they are.
DESIGN CHOICE, unsafe: notes/assumptions/67. -/
def codedPages (x : Stream) : List Nat :=
  let b := x.nextBlock
  let left := (x.total + 31) / 32 - b.1
  ((List.range 4).map (fun j => b.2 / 65536 + j)).filter (fun p => decide (p * 65536 < b.2 + 259 * left))

/-- The pages that a stream's lookahead holds or waits for. -/
def Stream.reach (x : Stream) : List Nat :=
  if x.coding = 1 then codedPages x
  else nextPages x (ElemType.ofCode x.et).width (x.total - x.pos.toNat) x.pos.toNat []

/-! Walks (R114, R79). -/

/-- The compute die of a core (R13). -/
def dieOf (core : Nat) : Nat := core / 72

/-- Two requests that one walk serves: of one die, hive, generation and page. -/
def sameWalk (a b : Walk) : Bool := a.die == b.die && a.hive == b.hive && a.gen == b.gen && a.va == b.va

/-- Walks that a die's walker performs at once (R12, R114). -/
def walkLimit : Nat := 64

/-- Requests of a die that can begin do so, in arrival order: one joins a walk in progress, or begins one under the generation in
force while the walker performs fewer than 64; the rest wait. -/
def startWalks (s : State) (die : Nat) : State :=
  let busy := (s.walks.filter (fun w => w.die == die && w.begun)).foldl
    (fun l w => if l.any (sameWalk w) then l else l ++ [w]) []
  let r := s.walks.foldl (fun (acc : List Walk × List Walk) w =>
    if w.die ≠ die ∨ w.begun then (acc.1 ++ [w], acc.2)
    else
      let b := { w with gen := (s.hive w.hive).gen, begun := true }
      if acc.2.any (sameWalk b) then (acc.1 ++ [b], acc.2)
      else if acc.2.length < walkLimit then (acc.1 ++ [b], acc.2 ++ [b])
      else (acc.1 ++ [w], acc.2)) ([], busy)
  { s with walks := r.1 }

/-- Walks requested for the pages that come into reach of a stream of strand k and are not held (R114).
DEDUCED, safe: notes/assumptions/30. -/
def requestWalks (s : State) (k : Nat) (sx : BitVec 4) : State :=
  let t := s.strand k
  let h := s.hive t.hive
  let x := t.stream sx
  if !x.bound || !t.placed then s
  else
    let wanted := x.reach.filter (fun p =>
      bits (p * 65536) 63 52 == 0 && !x.look.any (fun e => e.covers h.id h.gen (p * 65536)) &&
      !s.walks.any (fun w => w.strand == k && w.stream == sx.toNat && w.va == p * 65536))
    startWalks { s with
      walks := s.walks ++ wanted.map (fun p => ⟨dieOf t.coreNo, t.hive, h.gen, p * 65536, k, sx.toNat, false⟩) } (dieOf t.coreNo)

/-- The lookahead of every stream of strand k refilled, as at its resumption (R113). -/
def refillLook (s : State) (k : Nat) : State :=
  (List.range 16).foldl (fun s n => requestWalks s k (BitVec.ofNat 4 n)) s

/-- A hive's shadow generation advanced: its cached translations are of an older one, its walks in progress are discarded at
their end and begin again under the new one, and the lookahead of its strands is asked for anew (R79, R114). -/
def newGeneration (s : State) (hive : Nat) : State :=
  let gen := (s.hive hive).gen + 1
  let s := s.modHive hive (fun h => { h with gen := gen })
  let s := { s with walks := s.walks.map (fun w => if w.hive == hive && w.begun then { w with gen := gen } else w) }
  (List.range s.strands.length).foldl (fun s k => if (s.strand k).hive == hive then refillLook s k else s) s

/-- A stream's lookahead with one more translation; those that are out of reach go (R114). -/
def keepLook (w : Walk) (e : TlbEntry) (t : Strand) : Strand :=
  let sx : BitVec 4 := BitVec.ofNat 4 w.stream
  let x := t.stream sx
  if x.bound && t.hive == w.hive then
    t.setStream sx { x with look := (e :: x.look).filter (fun y => x.reach.any (fun p => y.covers e.hive e.gen (p * 65536))) }
  else t

end Sys2Proof.Machine
end

