-- ==== Sys2Proof/Machine/Memory.lean ====
section
/-! DEFINITION. Accesses: where an address leads, the L1, the coherence point, scratchpad and full-empty bits
(spec/04 R91 to R110, spec/05 R117 to R136, spec/13 R303, R304). -/

namespace Sys2Proof.Machine

/-- Who accesses: the hive that translates, the share whose scratchpad and L1 it uses, and whether it has a TLB.
An engine command, a trap record and a trace record have no L1 and no TLB (R117). -/
structure Who where
  hive : Nat
  share : Option ShareRef
  l1 : Bool
  deriving DecidableEq, Repr

/-- The scalar agent of the strand whose instruction is issued. -/
def State.who (s : State) : Who := ⟨s.me.hive, s.me.share, true⟩

/-- The core whose L1 and TLB an agent uses. -/
def Who.core (w : Who) : Option Nat := if w.l1 then w.share.map (fun x => x.core) else none

/-- Scratchpad size S of a core (Table 4.5). -/
def Core.scratchSize (c : Core) : Nat := (512 + 256 * c.sps.toNat) * 1024

/-- Start of a share's scratchpad in its core's scratchpad (R61). -/
def scratchBase (c : Core) (x : ShareRef) : Nat := c.scratchSize * x.lg / 16

/-- Size of a share's scratchpad (R61). -/
def scratchLen (c : Core) (x : ShareRef) : Nat := c.scratchSize * x.size / 16

/-- First address of the scratchpad window (R93). -/
def windowBase : Nat := 0x01F0000000000000

/-- Where an access goes. -/
inductive Place where
  | scratch (core off : Nat)
  | mem (pa : Nat) (e : TlbEntry)
  /-- The shadow part of a live hive's pool, by pool offset, through a leaf of its parent (R76). -/
  | shadow (child : Nat) (off pa : Nat) (e : TlbEntry)
  | peer (m : PeerMap)
  deriving DecidableEq, Repr

/-- The port that carries an access: bit number ((OFFSET >> 7) mod popcount) among the set bits of the mask (R303). -/
def peerPort (mask : BitVec 16) (offset : Nat) : Option Nat :=
  let ports := (List.range 16).filter (fun k => mask.getLsbD k)
  ports[offset / 128 % max ports.length 1]?

/-- A byte of a sealed range (R246). -/
def State.sealed (s : State) (pa : Nat) : Bool :=
  s.parts.any (fun p => p.seals.any (fun r => decide (r.1 ≤ pa) && decide (pa < r.1 + r.2)))

/-- The partition of a hive. -/
def State.partOf (s : State) (h : Nat) : Nat := (s.hive h).part

/-- Home slice of a line for an accessing partition (R110). -/
def homeSlice (part pa : Nat) : Nat := 4 * part + (bits pa 8 7 ^^^ bits pa 16 15)

/-- A request charged at its slice port (R110).
DEDUCED, unsafe: notes/assumptions/9. -/
def charge (s : State) (hive pa bytes : Nat) : State :=
  { s with llc := s.llc ++ [⟨homeSlice (s.partOf hive) pa, hive, bytes⟩] }

/-- The lines that a range of physical bytes touches, each charged as a fill or a write (R110). -/
def chargeLines (s : State) (hive pa n : Nat) : State :=
  { s with llc := s.llc ++ (List.range (ceilDiv (pa % 128 + n) 128)).map (fun k =>
      ⟨homeSlice (s.partOf hive) (pa / 128 * 128 + 128 * k), hive, 128⟩) }

/-- What a translation permits; a load needs R, a store needs W, an AMO both (R97, R323). -/
def TlbEntry.permits (e : TlbEntry) : AccessKind → Bool
  | .read => e.r
  | .write => e.w
  | .amo => e.r && e.w

/-- Where a translated address leads: the shadow part of a pool is open to loads and 8-byte composing stores of the
parent only (R76), and a sealed byte to stores only (R246). -/
def placeOf (s : State) (w : Who) (k : AccessKind) (va : Nat) (e : TlbEntry) : Except Reason Place :=
  if !e.permits k then .error .notPermitted
  else
    let pa := e.pbase + (va - e.vbase)
    match s.shadowAt pa with
    | some (h, off) =>
      if h.parent = w.hive ∧ k ≠ .amo then .ok (.shadow h.id off pa e) else .error .notPermitted
    | none => if k ≠ .write ∧ s.sealed pa then .error .notPermitted else .ok (.mem pa e)

/-- What the peer's translation answers (R303). -/
def peerReason (n : Nat) : Option Reason :=
  match n with
  | 0 => none
  | 1 => some .notPresent
  | 2 => some .malformed
  | _ => some .notPermitted

/-- The mapping that carries an access to a peer address, where its value has a port and the port's link is up (R92, R303,
R304). -/
def State.peerPath (s : State) (hive va : Nat) : Option PeerMap :=
  ((s.part (s.partOf hive)).peers.find? (fun m => m.peer == bits va 56 52)).filter (fun m =>
    match peerPort m.mask (va % 2 ^ 52) with
    | some port => !s.linksDown.contains port
    | none => false)

/-- Where an access to a virtual address goes, or why it does not go through (R91 to R97). -/
def locate (s : State) (w : Who) (va : Nat) (k : AccessKind) : Except Reason (Place × State) :=
  let peer := bits va 56 52
  let offset := va % 2 ^ 52
  if bits va 63 57 ≠ 0 then .error .notPermitted
  else if peer = 31 then
    match w.share with
    | some x =>
      if offset < scratchLen (s.core x.core) x then
        .ok (.scratch x.core (scratchBase (s.core x.core) x + offset), s)
      else .error .notPermitted
    | none => .error .notPermitted
  else if peer = 0 then
    match xlate s w.core (s.hive w.hive) offset with
    | (.leaf e, s') => (placeOf s w k offset e).map (fun p => (p, s'))
    | (.fail r, _) => .error r
  else
    match s.peerPath w.hive va with
    | none => .error .notPermitted
    | some m =>
      match peerReason (Config.peerAnswer s.freeCount) with
      | some r => .error r
      | none => .ok (.peer m, { s with freeCount := s.freeCount + 1 })

/-! The L1 (R105, R122). -/

def Core.line (c : Core) (line : Nat) : Option L1Line := c.l1.find? (fun l => l.line == line)

/-- Memory with the dirty bytes of a line written back; no other byte of the line changes (R122). -/
def putDirty (m : Mem) (l : L1Line) : Mem :=
  (List.range 128).foldl (fun m k =>
    if l.dirty.getLsbD k then Mem.write m (128 * l.line + k) 1 (elemAt l.data 8 k) else m) m

/-- A line of a core written back. -/
def writeBack (s : State) (hive : Nat) (l : L1Line) : State :=
  if l.dirty = 0 then s else charge { s with mem := putDirty s.mem l } hive (128 * l.line) 128

/-- A line of a core written back and invalidated. -/
def dropLine (s : State) (hive c line : Nat) : State :=
  match (s.core c).line line with
  | none => s
  | some l => (writeBack s hive l).modCore c (fun k => { k with l1 := k.l1.filter (fun x => x.line != line) })

/-- Every dirty line of a core written back: a release of HIVE scope or wider (R105). -/
def flushL1 (s : State) (hive c : Nat) : State :=
  ((s.core c).l1.foldl (fun s l => writeBack s hive l) s).modCore c
    (fun k => { k with l1 := k.l1.map (fun l => { l with dirty := 0 }) })

/-- Every line of a core written back and invalidated: an acquire of HIVE scope or wider (R105). -/
def clearL1 (s : State) (hive c : Nat) : State :=
  (flushL1 s hive c).modCore c (fun k => { k with l1 := [] })

/-- Lines that the L1 has room for: what SPLIT leaves of the 2 MiB of SRAM (R16, R103). -/
def Core.l1Lines (c : Core) : Nat := (2 ^ 21 - c.scratchSize) / 128

/-- Room made for one line more: where the L1 is full a line goes, its dirty bytes written back first (R105, R122). Which one
goes is a free value (R467).
DESIGN CHOICE, safe: notes/assumptions/11. -/
def makeRoom (s : State) (c : Nat) : State :=
  let k := s.core c
  if k.l1.length < k.l1Lines then s
  else match k.l1[Config.l1Victim s.freeCount % k.l1.length]? with
    | some l => (writeBack s l.hive l).modCore c (fun k => { k with l1 := k.l1.filter (fun x => x.line != l.line) })
    | none => s

/-- A line as its coherence point holds it. -/
def freshLine (s : State) (hive line : Nat) : L1Line :=
  ⟨line, BitVec.ofNat 1024 (Mem.read s.mem (128 * line) 128), 0, 0, hive⟩

/-- The line of a core, filled from its coherence point if it is not there (R105). -/
def fetchLine (s : State) (hive c line : Nat) : L1Line × State :=
  match (s.core c).line line with
  | some l => (l, s)
  | none =>
    let s := makeRoom s c
    let l := freshLine s hive line
    (l, charge (s.modCore c (fun k => { k with l1 := l :: k.l1 })) hive (128 * line) 128)

/-- n aligned bytes through the L1. A hit may be stale, also after an earlier fence has cleared the L1: a line that was
filled since then is read as it is (R123, R131; notes/assumptions/65).
DESIGN CHOICE, unsafe: notes/assumptions/1. -/
def l1Read (s : State) (hive c pa n : Nat) : Nat × State :=
  let (l, s) := fetchLine s hive c (pa / 128)
  (elemAt l.data (8 * n) (pa % 128 / n), s)

/-- n aligned bytes stored in the L1, dirty (R122). -/
def l1Write (s : State) (hive c pa n x : Nat) : State :=
  let (l, s) := fetchLine s hive c (pa / 128)
  let l' := { l with data := setElemAt l.data (8 * n) (pa % 128 / n) x
                     dirty := setElemAt l.dirty n (pa % 128 / n) (2 ^ n - 1)
                     since := if l.dirty = 0 then (s.core c).cycles.toNat else l.since
                     hive := hive }
  s.modCore c (fun k => { k with l1 := k.l1.map (fun y => if y.line == l.line then l' else y) })

/-- Whether an access of an agent with an L1 goes by it: an NL1 page, an access at the coherence point, or a core whose
SPLIT leaves the L1 no line (R103, R105). -/
def Core.bypasses (c : Core) (e : TlbEntry) (through : Bool) : Bool := through || e.nl1 || c.l1Lines == 0

/-- A core's scratchpad bytes replaced. -/
def scratchWrite (s : State) (c off n x : Nat) : State :=
  s.modCore c (fun k => { k with scratch := Mem.write k.scratch off n x })

/-- The bytes that a peer returns: free values (R303). -/
def peerBytes (s : State) (n : Nat) : Nat × State :=
  (ofLeBytes ((List.range n).map (fun k => Config.peerByte (s.freeCount + k))), { s with freeCount := s.freeCount + n })

/-- A read of n aligned bytes. With coh it takes place at the coherence point; so does a read of an NL1 page, of
scratchpad, of a shadow table, and every read of an agent without L1 (R105, R131). Each is an uncached access at its slice
port, scratchpad excepted (R93, R110). -/
def readPlace (s : State) (w : Who) (p : Place) (n : Nat) (coh : Bool) : Nat × State :=
  match p with
  | .scratch c off => (Mem.read (s.core c).scratch off n, s)
  | .shadow child _ pa _ =>
    (if (s.hive child).revoked.contains (pa / 8 * 8) then elemAt Config.revokedMarker (8 * n) (pa % 8 / n)
     else Mem.read s.mem pa n, charge s w.hive pa 64)
  | .peer _ => peerBytes s n
  | .mem pa e =>
    match w.core with
    | none => (Mem.read s.mem pa n, charge s w.hive pa 64)
    | some c =>
      if (s.core c).bypasses e coh then
        let s := dropLine s w.hive c (pa / 128)
        (Mem.read s.mem pa n, charge s w.hive pa 64)
      else l1Read s w.hive c pa n

/-- A write of n aligned bytes that has passed its checks. With through it is performed at the coherence point, as it
is on an NL1 page, in scratchpad and for an agent without L1 (R105). -/
def writePlace (s : State) (w : Who) (p : Place) (n x : Nat) (through : Bool) : State :=
  match p with
  | .scratch c off => scratchWrite s c off n x
  | .shadow _ _ _ _ => s
  | .peer _ => s
  | .mem pa e =>
    match w.core with
    | none => charge { s with mem := Mem.write s.mem pa n x } w.hive pa 128
    | some c =>
      if (s.core c).bypasses e through then
        let s := dropLine s w.hive c (pa / 128)
        charge { s with mem := Mem.write s.mem pa n x } w.hive pa (if e.nl1 then 64 else 128)
      else l1Write s w.hive c pa n x

/-- The trap of a store to a page with TW set by an instruction other than an aligned 8-byte ST or STL, or to a shadow part
(R76, R77). -/
def protectionAt (va : Word) (k : AccessKind) : Trap := accessTrap va k .notPermitted

/-- A scalar load of n bytes (R98, R367). -/
def loadW (s : State) (w : Who) (va : Word) (n : Nat) (coh : Bool) : Except Trap (Nat × State) :=
  if va.toNat % n ≠ 0 then .error (Trap.at .align va)
  else match locate s w va.toNat .read with
    | .error r => .error (accessTrap va .read r)
    | .ok (p, s) => .ok (readPlace s w p n coh)

/-- A store of n bytes that an instruction other than ST and STL makes as its effect, such as HSTAT or an engine issue: a
page of translation tables and the shadow part of a pool are closed to it (R76, R77). -/
def storeW (s : State) (w : Who) (va : Word) (n x : Nat) (through : Bool) : Except Trap State :=
  if va.toNat % n ≠ 0 then .error (Trap.at .align va)
  else match locate s w va.toNat .write with
    | .error r => .error (accessTrap va .write r)
    | .ok (.shadow _ _ _ _, _) => .error (protectionAt va .write)
    | .ok (.mem pa e, s) =>
      if e.tw then .error (protectionAt va .write) else .ok (writePlace s w (.mem pa e) n x through)
    | .ok (p, s) => .ok (writePlace s w p n x through)

/-- The trap of an ST or STL to a page with TW set: one of 8 bytes is handed to the parent (R77). -/
def tableWriteTrap (va : Word) (pa : Nat) (e : TlbEntry) (n x : Nat) : Trap :=
  if n = 8 then ⟨.tableWrite, va, BitVec.ofNat 64 (e.hbase + (pa - e.pbase)), BitVec.ofNat 64 x⟩
  else protectionAt va .write

/-- An ST or STL of n bytes, composing in the shadow part of a child's pool (R76, R77, R391). -/
def storeSt (s : State) (w : Who) (va : Word) (n x : Nat) (through : Bool) : Except Trap State :=
  if va.toNat % n ≠ 0 then .error (Trap.at .align va)
  else match locate s w va.toNat .write with
    | .error r => .error (accessTrap va .write r)
    | .ok (.shadow child off pa e, s) =>
      if e.tw then .error (tableWriteTrap va pa e n x)
      else if n = 8 then composeStore (charge s w.hive pa 128) (s.hive child) off x va
      else .error (protectionAt va .write)
    | .ok (.mem pa e, s) =>
      if e.tw then .error (tableWriteTrap va pa e n x) else .ok (writePlace s w (.mem pa e) n x through)
    | .ok (p, s) => .ok (writePlace s w p n x through)

/-- Field of a record that has been read: size bytes from an offset. -/
def field (r off size : Nat) : Nat := r / 2 ^ (8 * off) % 2 ^ (8 * size)

/-- A record of 8 k bytes read with plain scalar loads, as one little-endian number. -/
def loadRecord (s : State) (w : Who) (va : Word) : Nat → Except Trap (Nat × State)
  | 0 => .ok (0, s)
  | k + 1 =>
    match loadRecord s w va k with
    | .error t => .error t
    | .ok (lo, s) =>
      match loadW s w (va + BitVec.ofNat 64 (8 * k)) 8 false with
      | .error t => .error t
      | .ok (x, s) => .ok (lo + x * 2 ^ (64 * k), s)

/-- The new value of an atomic operation on b-bit operands; none where CAS fails (R322). -/
def amoNew (op : AmoOp) (b old x expected : Nat) : Option Nat :=
  let x := x % 2 ^ b
  match op with
  | .add => some ((old + x) % 2 ^ b)
  | .swap => some x
  | .cas => if old = expected % 2 ^ b then some x else none
  | .and => some (old &&& x)
  | .or => some (old ||| x)
  | .min => some (if toSigned b old ≤ toSigned b x then old else x)
  | .max => some (if toSigned b old ≤ toSigned b x then x else old)
  | .minu => some (Nat.min old x)
  | .maxu => some (Nat.max old x)

/-- A read-modify-write of n bytes at the coherence point, one uncached access of its slice port of so many bytes; the core's
own copy of the line goes first (R110, R323). A peer performs it itself (R303). -/
def modifyPlace (s : State) (w : Who) (p : Place) (n bytes : Nat) (f : Nat → Option Nat) : Nat × State :=
  match p with
  | .scratch c off =>
    let old := Mem.read (s.core c).scratch off n
    (old, (f old).elim s (scratchWrite s c off n))
  | .shadow _ _ pa _ => (Mem.read s.mem pa n, s)
  | .peer _ => peerBytes s n
  | .mem pa _ =>
    let s := w.core.elim s (fun c => dropLine s w.hive c (pa / 128))
    let old := Mem.read s.mem pa n
    (old, charge ((f old).elim s (fun new => { s with mem := Mem.write s.mem pa n new })) w.hive pa bytes)

/-- An atomic read-modify-write (R323). -/
def amoPlace (s : State) (w : Who) (p : Place) (op : AmoOp) (n x expected : Nat) : Nat × State :=
  modifyPlace s w p n 64 (fun old => amoNew op (8 * n) old x expected)

/-- An AMO of n bytes (R322, R323). -/
def amoW (s : State) (w : Who) (va : Word) (op : AmoOp) (n x expected : Nat) : Except Trap (Nat × State) :=
  if va.toNat % n ≠ 0 then .error (Trap.at .align va)
  else match locate s w va.toNat .amo with
    | .error r => .error (accessTrap va .amo r)
    | .ok (.mem pa e, s) =>
      if e.tw then .error (accessTrap va .amo .notPermitted) else .ok (amoPlace s w (.mem pa e) op n x expected)
    | .ok (p, s) => .ok (amoPlace s w p op n x expected)

/-! Full-empty granules (R107). -/

def Core.isFull (c : Core) (granule : Nat) : Bool := c.full.contains granule

/-- A list with one number more, kept rising and without repeats. -/
def insertSorted (x : Nat) : List Nat → List Nat
  | [] => [x]
  | y :: ys => if x < y then x :: y :: ys else if x = y then y :: ys else y :: insertSorted x ys

def setFull (s : State) (c granule : Nat) : State :=
  s.modCore c (fun k => { k with full := insertSorted granule k.full })

def setEmpty (s : State) (c granule : Nat) : State :=
  s.modCore c (fun k => { k with full := k.full.filter (fun g => g != granule) })

/-- Where a full-empty access goes: only into the share's own scratchpad window (R108, R304). -/
def locateFull (s : State) (w : Who) (va : Word) (n : Nat) (k : AccessKind) : Except Trap (Nat × Nat) :=
  if va.toNat % n ≠ 0 then .error (Trap.at .align va)
  else if bits va.toNat 63 57 ≠ 0 || bits va.toNat 56 52 ≠ 31 then .error (accessTrap va k .notPermitted)
  else match locate s w va.toNat k with
    | .ok (.scratch c off, _) => .ok (c, off)
    | _ => .error (accessTrap va k .notPermitted)

/-! Acquires, releases and fences by a strand of a core (R125, R127, R132). -/

/-- The L1 action of a release at a scope. -/
def releaseL1 (s : State) (w : Who) (scope : Nat) : State :=
  match w.core with
  | some c => if scope = 0 then s else flushL1 s w.hive c
  | none => s

/-- The L1 action of an acquire or a fence at a scope. -/
def acquireL1 (s : State) (w : Who) (scope : Nat) : State :=
  match w.core with
  | some c => if scope = 0 then s else clearL1 s w.hive c
  | none => s

/-! The coalescing buffers of the memory ports (R135, R198, R199). -/

/-- The bytes of a buffer performed at the coherence point, or in scratchpad. -/
def flushBuf (s : State) (core : Nat) (b : PortBuf) : State :=
  let s := s.modCore core (fun c => { c with bufs := c.bufs.filter (fun y => y != b) })
  if b.scratch then b.bytes.foldl (fun s x => scratchWrite s core (64 * b.line + x.1) 1 x.2.toNat) s
  else
    let s := dropLine s b.hive core (b.line / 2)
    charge { s with mem := b.bytes.foldl (fun m x => Mem.write m (64 * b.line + x.1) 1 x.2.toNat) s.mem } b.hive
      (64 * b.line) 128

/-- The buffers of some ports of a core flushed. -/
def flushBufs (s : State) (core : Nat) (p : PortBuf → Bool) : State :=
  ((s.core core).bufs.filter p).foldl (fun s b => flushBuf s core b) s

/-- Whether a core's L1 may hold stores of a hive that are not performed yet: it has a share there, or was the last to write a dirty
line (R122). -/
def mayHoldStores (s : State) (hive c : Nat) : Bool :=
  (s.core c).l1.any (fun l => l.dirty != 0 && (l.hive == hive || (s.hive hive).shares.any (fun x => x.core == c)))

/-- What a hive has stored performed, on every core: the buffers of its memory ports flushed, and the dirty lines of the L1 written
back (R79, R122). -/
def flushHive (s : State) (hive : Nat) : State :=
  (List.range s.cores.length).foldl (fun s c =>
    let s := if (s.core c).bufs.isEmpty then s else flushBufs s c (fun b => b.hive == hive)
    if mayHoldStores s hive c then flushL1 s hive c else s) s

/-! Device writes on behalf of a hive: trap queues, trace, completion records. -/

/-- Whether n bytes translate writable for a hive without a share, into ordinary memory: every 8-byte word, and the last byte. -/
def deviceWritable (s : State) (hive : Nat) (va n : Nat) : Bool :=
  ((List.range (n / 8)).map (fun k => va + 8 * k) ++ [va + n - 1]).all (fun va =>
    match locate s ⟨hive, none, false⟩ va .write with
    | .ok (.mem _ e, _) => !e.tw
    | _ => false)

/-- Bytes stored in one page at a hive's virtual address by the device, the checks having passed. -/
def devicePut (s : State) (hive va : Nat) (bs : List Byte) : State :=
  match locate s ⟨hive, none, false⟩ va .write with
  | .ok (.mem pa _, s) => charge { s with mem := Mem.put s.mem pa bs } hive pa 128
  | _ => s

/-- Bytes stored at a hive's virtual address by the device, each page by its own translation. -/
def deviceWrite (s : State) (hive va : Nat) (bs : List Byte) : State :=
  let room := 65536 - va % 65536
  let s := devicePut s hive va (bs.take room)
  if room < bs.length then devicePut s hive (va + room) (bs.drop room) else s

/-- Bytes of one page read at a hive's virtual address by the device, an uncached access (R110); none where it does not translate. -/
def deviceTake (s : State) (hive va n : Nat) : Option (Nat × State) :=
  match locate s ⟨hive, none, false⟩ va .read with
  | .ok (.mem pa _, s) => some (Mem.read s.mem pa n, charge s hive pa 64)
  | _ => none

/-- An 8-byte word read at a hive's virtual address by the device, each page by its own translation; none where it does not
translate. -/
def deviceRead (s : State) (hive va : Nat) : Option (Nat × State) :=
  let room := 65536 - va % 65536
  if 8 ≤ room then deviceTake s hive va 8
  else (deviceTake s hive va room).bind (fun lo =>
    (deviceTake lo.2 hive (va + room) (8 - room)).map (fun hi => (lo.1 + hi.1 * 2 ^ (8 * room), hi.2)))

end Sys2Proof.Machine
end

