-- ==== Sys2Proof/Machine/Operands.lean ====
section
/-! DEFINITION. The operands of queued instructions: what each reads, writes and captures, its length and its governing
mask (spec/02 R42 to R46, spec/07 R171 to R175, spec/12 R273, R281 to R283, Tables 12.4, 12.5A, 7.2). -/

namespace Sys2Proof.Machine

/-- What an instruction of the queue names (Tables 7.1, 12.4, 12.5A). -/
structure Shape where
  /-- The register that holds the length, and the widest width among operands and result (R173). -/
  gl : Option (BitVec 5)
  wide : Nat
  /-- Vector destination and its element width; mask and general destinations. -/
  vd : Option (BitVec 6)
  vdw : Nat
  md : Option (BitVec 3)
  gd : Option (BitVec 5)
  /-- Vector registers and masks read. -/
  vs : List (BitVec 6)
  ms : List (BitVec 3)
  /-- General registers captured, in the order of the fields from bit 47 downward (R264). -/
  args : List (BitVec 5)
  /-- It has no progress index before it is complete (R188, R259, R436). -/
  whole : Bool
  /-- Its result is complete, or published, only with its last micro-operation (Table 2.6, Table 7.1). -/
  last : Bool
  /-- It steps generators (R153). -/
  steps : Bool
  deriving DecidableEq, Repr

/-- The tile that an instruction names. -/
def tileNamed : Instr → Option (BitVec 2)
  | .topa o | .tops o | .tzero o | .trd o | .twr o | .tscl o => some o.ad
  | _ => none

/-- Tags newly given: of n micro-operations, the first of them number base, over what the instruction starts from (R47). -/
def Tags.given (n base : Nat) (a : Part) : Tags :=
  { uops := n, issued := 0, produced := 0, base := base, second := none, taken := false, ran := false, egs := 0
    scales := ([], []), waited := 0, out := a }

def etw (c : BitVec 4) : Nat := (ElemType.ofCode c).width

def etFloat (c : BitVec 4) : Bool := (ElemType.ofCode c).isFloat

/-- A mask field as a list: 0 names none. -/
def maskField (m : BitVec 3) : List (BitVec 3) := if m = 0 then [] else [m]

/-- A register named in the low bits of a vector field (R273). -/
def gInV (v : BitVec 6) : BitVec 5 := v.setWidth 5

def mInV (v : BitVec 6) : BitVec 3 := v.setWidth 3

/-- A vector instruction that writes vd from some registers. -/
def vecShape (o : VFmt) (vs : List (BitVec 6)) (args : List (BitVec 5)) (wide : Nat) (whole steps : Bool) : Shape :=
  { gl := some o.gl, wide := wide, vd := some o.vd, vdw := etw o.et, md := none, gd := none, vs := vs
    ms := maskField o.mk, args := args ++ [o.gl], whole := whole, last := false, steps := steps }

/-- A vector instruction that writes a mask. -/
def maskShape (o : VFmt) (vs : List (BitVec 6)) (ms : List (BitVec 3)) : Shape :=
  { gl := some o.gl, wide := etw o.et, vd := none, vdw := 1, md := some (mInV o.vd), gd := none, vs := vs
    ms := ms ++ maskField o.mk, args := [o.gl], whole := false, last := false, steps := false }

/-- A vector instruction that writes a general register. -/
def gprShape (o : VFmt) (vs : List (BitVec 6)) (ms : List (BitVec 3)) (args : List (BitVec 5)) (steps : Bool) : Shape :=
  { gl := some o.gl, wide := etw o.et, vd := none, vdw := 1, md := none, gd := some (gInV o.vd), vs := vs
    ms := ms ++ maskField o.mk, args := args ++ [o.gl], whole := true, last := true, steps := steps }

/-- Width of the indices of an indexed access: IX 0 N32, 1 I32, 2 I64 (Table 12.5A). -/
def indexWidth (q : BitVec 9) : Nat := if bits q.toNat 1 0 = 2 then 64 else 32

/-- A vector memory instruction. -/
def memShape (o : VMFmt) (vd : Option (BitVec 6)) (vs : List (BitVec 6)) (args : List (BitVec 5)) (wide : Nat) : Shape :=
  { gl := some o.gl, wide := wide, vd := vd, vdw := etw o.et, md := none, gd := none, vs := vs, ms := maskField o.mk
    args := args ++ [o.gl], whole := false, last := false, steps := false }

/-- An instruction that names only general registers, or registers that its own rules read. -/
def plainShape (gd : Option (BitVec 5)) (vs : List (BitVec 6)) (args : List (BitVec 5)) : Shape :=
  { gl := none, wide := 1, vd := none, vdw := 1, md := none, gd := gd, vs := vs, ms := [], args := args
    whole := true, last := true, steps := false }

/-- A tile instruction. -/
def tileShape (o : TFmt) (vd : Option (BitVec 6)) (vs : List (BitVec 6)) (steps : Bool) : Shape :=
  { gl := none, wide := 1, vd := vd, vdw := etw o.eta, md := none, gd := none, vs := vs
    ms := maskField o.mr ++ maskField o.mc, args := [o.gl], whole := true, last := true, steps := steps }

/-- What a queued instruction names; none for every other instruction (R42). -/
def shapeOf : Instr → Option Shape
  | .vadd o | .vsub o | .vmul o | .vdiv o => some (vecShape o [o.va, o.vb] [] (etw o.et) false (etFloat o.et))
  | .vmulh o | .vmin o | .vmax o | .vand o | .vor o | .vxor o | .vshl o | .vshr o | .vsar o =>
    some (vecShape o [o.va, o.vb] [] (etw o.et) false false)
  | .vabs o | .vneg o => some (vecShape o [o.va] [] (etw o.et) false false)
  | .vclamp o => some (vecShape o [o.va, o.vb, o.vc] [] (etw o.et) false false)
  | .vfma o => some (vecShape o [o.va, o.vb, o.vc] [] (etw o.et) false (etFloat o.et))
  | .vsqrt o | .vrcp o | .vrsq o | .vexp2 o | .vlog2 o | .vtanh o =>
    some (vecShape o [o.va] [] (etw o.et) false true)
  | .vcmp _ o => some (maskShape o [o.va, o.vb] [])
  | .vsel o =>
    let x := vecShape o [o.va, o.vb] [] (etw o.et) false false
    some { x with ms := o.q.setWidth 3 :: x.ms }
  | .vcvt o => some (vecShape o [o.va] [] (max (etw o.et) (etw (o.q.setWidth 4))) false true)
  | .vred o =>
    let steps := etFloat o.et && bits o.q.toNat 1 0 == 0
    if o.q.getLsbD 2 then some (gprShape o [o.va] [] [] steps)
    else some { vecShape o [o.va] [] (etw o.et) true steps with last := true }
  | .vscan o => some { vecShape o [o.va] [] (etw o.et) true (etFloat o.et && bits o.q.toNat 1 0 == 0) with last := true }
  | .vcomp o | .vexpd o => some (vecShape o [o.va] [] (etw o.et) true false)
  | .vslide o => some (vecShape o [o.va] [gInV o.vc] (etw o.et) true false)
  | .vperm o => some (vecShape o [o.va, o.vb] [] (max (etw o.et) 32) true false)
  | .vhad o => some (vecShape o [o.va] [] (etw o.et) true (etFloat o.et))
  | .vbcast o => some (vecShape o [] [gInV o.vc] (etw o.et) true false)
  | .vindex o => some (vecShape o [] [] (etw o.et) true false)
  | .vext o => some (gprShape o [o.va] [] [gInV o.vc] false)
  | .vins o => some (vecShape o [] [gInV o.vb, gInV o.vc] (etw o.et) true false)
  | .vzip o | .vunzip o => some (vecShape o [o.va, o.vb] [] (etw o.et) true false)
  | .mkand o | .mkor o | .mkxor o => some (maskShape o [] [mInV o.va, mInV o.vb])
  | .mknot o => some (maskShape o [] [mInV o.va])
  | .mkset o => some (maskShape o [] [])
  | .mkpopc o | .mkfirst o | .mktest o => some (gprShape o [] [mInV o.va] [] false)
  | .vld o | .vldfe o => some (memShape o (some o.vd) [] [] (etw o.et))
  | .vst o => some (memShape o none [o.vd] [] (etw o.et))
  | .vpf o => some { memShape o none [] [] (etw o.et) with whole := true }
  | .vldx o => some (memShape o (some o.vd) [o.vi] [o.ga] (max (etw o.et) (indexWidth o.q)))
  | .vstx o => some (memShape o none [o.vd, o.vi] [o.ga] (max (etw o.et) (indexWidth o.q)))
  | .vamo o => some (memShape o (some o.vd) [o.vd, o.vi] [o.ga] (max (etw o.et) (indexWidth o.q)))
  | .sbind o | .sset o | .sadv o => some (plainShape none [] [o.ga])
  | .sget o => some (plainShape (some o.gd) [] [])
  | .vpush o => some (plainShape none [o.va] [o.ga])
  | .vwaitf o => some { plainShape none [] [] with vd := some o.vd }
  | .tmode o => some (plainShape (some o.gd) [] [o.ga])
  | .topa o | .tops o => some (tileShape o none [o.va, o.vb] false)
  | .tzero o => some { tileShape o none [] false with args := [] }
  | .trd o => some (tileShape o (some o.va) [] true)
  | .twr o => some (tileShape o none [o.va] true)
  | .tscl o =>
    some { tileShape o none ((if o.q.getLsbD 0 then [o.va] else []) ++ (if o.q.getLsbD 1 then [o.vb] else [])) false
      with args := [] }
  | .fbind o => some (plainShape none [] [o.ga, o.gb])
  | .ffree _ | .fdrain _ => some (plainShape none [] [])
  | .fx _ o =>
    some { plainShape (some o.gd) [o.va, o.vb, o.imm.extractLsb' 4 6] [o.ga, o.gb] with vd := some o.vd }
  | .fcfg o => some (plainShape none [] [o.ga])
  | .fstat o | .fctxLoad o | .fctxPin o | .fctxUnpin o | .fctxEvict o => some (plainShape (some o.gd) [] [])
  | _ => none

/-- The value that an entry captured of a general register; g0 is zero (R43). -/
def QEntry.arg (e : QEntry) (r : BitVec 5) : Word :=
  if r = 0 then 0 else ((e.caps.find? (fun c => c.reg == r)).bind (fun c => c.val)).getD 0

/-- Whether every captured value is known. -/
def QEntry.known (e : QEntry) : Bool := e.caps.all (fun c => c.val.isSome)

/-- The general register that an entry will write, pending until it does (R43). -/
def QEntry.gdest (e : QEntry) : Option (BitVec 5) :=
  match e.item with
  | .instr i => (shapeOf i).bind (fun x => x.gd)
  | .word _ => none

/-- The pending general registers of a strand (R43). -/
def Strand.pending (t : Strand) (r : BitVec 5) : Bool := r != 0 && t.queue.any (fun e => e.gdest == some r)

/-- The elements of a length that a register can hold: no length that passed the check of R52 is more. -/
def vlenOf (e : QEntry) (gl : BitVec 5) : Nat := min (e.arg gl).toNat 8192

/-- Gov(e) of R174, and of R116 when the instruction reissues after a fault. -/
def governs (t : Strand) (mk : BitVec 3) (mn : BitVec 1) (underM7 : Bool) (e : Nat) : Bool :=
  (mk == 0 || ((t.mreg mk).getLsbD e != (mn == 1))) && (!underM7 || (t.mreg 7).getLsbD e)

/-- Micro-operations of an instruction (R46). One without a length makes one, also a VPUSH, an SBIND or an FFREE, which R46 does not
name.
DESIGN CHOICE, safe: notes/assumptions/77. -/
def uopCount (x : Shape) (e : QEntry) : Nat :=
  match x.gl with
  | some gl => max 1 (min 16 (ceilDiv (vlenOf e gl * x.wide) 2048))
  | none => 1

/-- Elements that one micro-operation covers. -/
def uopElems (x : Shape) : Nat := 2048 / x.wide

/-- Whether a save found every EG of an entry complete: only its place in the queue is left (R259). -/
def QEntry.done (e : QEntry) (x : Shape) : Bool := x.gl.isSome && decide (uopCount x e ≤ e.p)

/-- The same, of an entry with its own shape. -/
def QEntry.saved (e : QEntry) : Bool :=
  match e.item with
  | .instr i => (shapeOf i).elim false e.done
  | .word _ => false

/-! What each micro-operation reads (R49). -/

/-- The bits of vector registers and of masks that a micro-operation reads: (register, first bit, bit after the last). -/
structure Need where
  vs : List (BitVec 6 × Nat × Nat)
  ms : List (BitVec 3 × Nat × Nat)
  deriving DecidableEq, Repr

def Need.append (a b : Need) : Need := ⟨a.vs ++ b.vs, a.ms ++ b.ms⟩

/-- The mask of a vector or memory instruction with its negation. -/
def maskOf : Instr → BitVec 3 × BitVec 1
  | .vld o | .vst o | .vldx o | .vstx o | .vamo o | .vldfe o | .vpf o => (o.mk, o.mn)
  | .vadd o | .vsub o | .vmul o | .vmulh o | .vdiv o | .vmin o | .vmax o | .vabs o | .vneg o | .vand o | .vor o | .vxor o
  | .vshl o | .vshr o | .vsar o | .vclamp o | .vfma o | .vsqrt o | .vrcp o | .vrsq o | .vexp2 o | .vlog2 o | .vtanh o
  | .vcmp _ o | .vsel o | .vcvt o | .vred o | .vscan o | .vcomp o | .vexpd o | .vslide o | .vperm o | .vhad o | .vbcast o
  | .vindex o | .vext o | .vins o | .vzip o | .vunzip o | .mkand o | .mkor o | .mkxor o | .mknot o | .mkpopc o | .mkfirst o
  | .mktest o | .mkset o => (o.mk, o.mn)
  | _ => (0, 0)

/-- The governed elements of an entry below a number, over a strand's masks. -/
def governedBelow (t : Strand) (i : Instr) (e : QEntry) (n : Nat) : List Nat :=
  (List.range n).filter (governs t (maskOf i).1 (maskOf i).2 e.underM7)

/-- The source elements [a, b) of a register of width w. -/
def Need.elems (r : BitVec 6) (w a b : Nat) : Need := ⟨if a < b then [(r, a * w, b * w)] else [], []⟩

/-- What a permute or compaction reads for its result elements lo to hi − 1 of len (R168, R414 to R444). -/
def permuteNeed (t : Strand) (i : Instr) (e : QEntry) (len lo hi : Nat) : Option Need :=
  match i with
  | .vperm o => some ((Need.elems o.va (etw o.et) 0 len).append (Need.elems o.vb 32 lo hi))
  | .vslide o =>
    let d := (e.arg (gInV o.vc)).toNat
    some (if o.q.getLsbD 0 then Need.elems o.va (etw o.et) (lo + d) (min (hi + d) len)
      else Need.elems o.va (etw o.et) (lo - d) (hi - d))
  | .vcomp o =>
    let all := governedBelow t i e len
    some (Need.elems o.va (etw o.et) (all.getD lo len) ((all.take hi).getLastD 0 + 1))
  | .vexpd o => some (Need.elems o.va (etw o.et) (governedBelow t i e lo).length (governedBelow t i e hi).length)
  | .vhad o =>
    let d := 2 ^ (o.q.toNat % 16)
    some (if hi - lo ≤ d then
      let far := if lo / d % 2 = 0 then lo + d else lo - d
      (Need.elems o.va (etw o.et) lo hi).append (Need.elems o.va (etw o.et) far (far + (hi - lo)))
    else Need.elems o.va (etw o.et) (lo / (2 * d) * (2 * d)) (min (ceilDiv hi (2 * d) * (2 * d)) len))
  | .vzip o =>
    let off := if o.q.getLsbD 0 then len / 2 else 0
    some ((Need.elems o.va (etw o.et) (off + lo / 2) (off + ceilDiv hi 2)).append
      (Need.elems o.vb (etw o.et) (off + lo / 2) (off + hi / 2)))
  | .vunzip o =>
    let h := len / 2
    some ((Need.elems o.va (etw o.et) (2 * lo) (2 * min hi h)).append
      (Need.elems o.vb (etw o.et) (2 * (max lo h - h)) (2 * (hi - h))))
  | .vext o =>
    let k := (e.arg (gInV o.vc)).toNat
    some (if lo ≤ k ∧ k < hi then Need.elems o.va (etw o.et) k (k + 1) else ⟨[], []⟩)
  | _ => none

/-- The result elements lo to hi − 1 that an instruction leaves as they were though they are governed, from the first to the last:
VSLIDE beyond its source (R441), VCOMP behind the packed ones (R418), VINS and VRED beside the one they write (R427, R438). -/
def unwritten (t : Strand) (i : Instr) (e : QEntry) (len lo hi : Nat) : Nat × Nat :=
  match i with
  | .vslide o =>
    let d := (e.arg (gInV o.vc)).toNat
    if o.q.getLsbD 0 then (max lo (len - d), hi) else (lo, min hi d)
  | .vcomp _ => (max lo (governedBelow t i e len).length, hi)
  | .vins _ | .vred _ => (lo, hi)
  | _ => (hi, hi)

/-- The bits of an older register value that a micro-operation keeps: those of masked and unwritten elements, and of the tail
(R45). -/
def mergeNeed (t : Strand) (x : Shape) (i : Instr) (e : QEntry) (len lo hi : Nat) : Need :=
  let own := if (maskOf i).1 != 0 || e.underM7 then (lo, hi) else unwritten t i e len lo hi
  let parts (w : Nat) : List (Nat × Nat) :=
    [(own.1 * w, own.2 * w), (hi * w, if hi = len then ceilDiv (hi * w) 2048 * 2048 else hi * w)].filter (fun p => decide (p.1 < p.2))
  { vs := x.vd.elim [] (fun r => (parts x.vdw).map (fun p => (r, p)))
    ms := x.md.elim [] (fun r => (parts 1).map (fun p => (r, p))) }

/-- The masks that govern an entry, whole. -/
def maskNeed (x : Shape) (e : QEntry) : Need :=
  match x.gl with
  | some gl => ⟨[], (x.ms ++ if e.underM7 then [7] else []).map (fun m => (m, 0, vlenOf e gl))⟩
  | none => ⟨[], x.ms.map (fun m => (m, 0, e.mvl))⟩

/-- What the addresses of a memory access hang on: its masks and its indices. -/
def addrNeed (i : Instr) (x : Shape) (e : QEntry) : Need :=
  (maskNeed x e).append (match i with
    | .vldx o | .vstx o | .vamo o => Need.elems o.vi (indexWidth o.q) 0 (vlenOf e o.gl)
    | _ => ⟨[], []⟩)

/-- The elements of a TRD or TWR: the register's, or those of the tile from the start position on (R184). -/
def tileCountOf (o : TFmt) (e : QEntry) : Nat :=
  min (e.grant * 2048 / etw o.eta) (e.mvl * e.mvl - (e.arg o.gl).toNat)

/-- The EGs of its destination that a TRD writes (Table 7.3). -/
def tileEgs (o : TFmt) (e : QEntry) : Nat := ceilDiv (tileCountOf o e * etw o.eta) 2048

/-- What a tile instruction reads (R186). Of its destination, a TRD reads what it keeps: everything under a mask, else the tail of
its last EG (R45). -/
def tileNeed (i : Instr) (e : QEntry) : Need :=
  let masks (o : TFmt) : List (BitVec 3 × Nat × Nat) := (maskField o.mr ++ maskField o.mc).map (fun m => (m, 0, e.mvl))
  match i with
  | .topa o | .tops o =>
    let n := (e.arg o.gl).toNat * e.mvl
    ⟨(Need.elems o.va (etw o.eta) 0 n).vs ++ (Need.elems o.vb (etw o.eta) 0 n).vs, masks o⟩
  | .trd o =>
    let whole := maskField o.mr ++ maskField o.mc == []
    ⟨(Need.elems o.va 1 (if whole then tileCountOf o e * etw o.eta else 0) (tileEgs o e * 2048)).vs, masks o⟩
  | .twr o => ⟨(Need.elems o.va (etw o.eta) 0 (tileCountOf o e)).vs, masks o⟩
  | .tscl o =>
    ⟨(if o.q.getLsbD 0 then (Need.elems o.va 32 0 e.mvl).vs else []) ++
      (if o.q.getLsbD 1 then (Need.elems o.vb 32 0 e.mvl).vs else []), masks o⟩
  | .tzero o => ⟨[], masks o⟩
  | _ => ⟨[], []⟩

/-- What micro-operation u of an entry reads, over the registers as older instructions leave them. The addresses of a memory
instruction are all formed, and checked, before its first element, so that it reads its mask and its indices whole (R98). -/
def needOf (t : Strand) (i : Instr) (x : Shape) (e : QEntry) (u : Nat) : Need :=
  match x.gl with
  | none => (tileNeed i e).append ⟨if (match i with | .vpush _ => true | _ => false) then x.vs.map (fun r => (r, 0, e.grant * 2048)) else [], []⟩
  | some gl =>
    let len := vlenOf e gl
    let lo := min (u * uopElems x) len
    let hi := min ((u + 1) * uopElems x) len
    let m7 : List (BitVec 3) := if e.underM7 then [7] else []
    let all (ms : List (BitVec 3)) : Need := ⟨[], (ms ++ m7).map (fun m => (m, 0, len))⟩
    let own (ms : List (BitVec 3)) : Need := ⟨[], (ms ++ m7).map (fun m => (m, lo, hi))⟩
    let body : Need := match i with
      | .vld _ | .vldfe _ | .vpf _ => all x.ms
      | .vst o => (all x.ms).append (Need.elems o.vd (etw o.et) lo hi)
      | .vldx o => (all x.ms).append (Need.elems o.vi (indexWidth o.q) 0 len)
      | .vstx o | .vamo o =>
        ((all x.ms).append (Need.elems o.vi (indexWidth o.q) 0 len)).append (Need.elems o.vd (etw o.et) lo hi)
      | .vcvt o => (own x.ms).append (Need.elems o.va (etw (o.q.setWidth 4)) lo hi)
      | .vcomp _ => all x.ms
      | .vexpd _ => ⟨[], (x.ms ++ m7).map (fun m => (m, 0, hi))⟩
      | _ => if (permuteNeed t i e len lo hi).isSome then own x.ms else
          x.vs.foldl (fun n r => n.append (Need.elems r x.wide lo hi)) (own x.ms)
    (body.append ((permuteNeed t i e len lo hi).getD ⟨[], []⟩)).append (mergeNeed t x i e len lo hi)

end Sys2Proof.Machine
end

