-- ==== Sys2Proof/Machine/Ops.lean ====
section
/-! DEFINITION. Trap records and queues, trace, the save entry, taking a trap and returning from one, suspension
(spec/03 R80 to R83, spec/11 R249 to R265, spec/13 R302, R311). -/

namespace Sys2Proof.Machine

/-! Trace (R311). -/

/-- One trace record of a strand, written to its hive's buffer. -/
def traceRecord (s : State) (k kind : Nat) (a b : Word) : State :=
  let t := s.strand k
  let h := s.hive t.hive
  if h.tracesize = 0 then s
  else
    let base := h.tracebase.toNat
    let drop (s : State) : State :=
      match deviceRead s h.id (base + 8) with
      | some (d, s) =>
        if deviceWritable s h.id (base + 8) 8 then deviceWrite s h.id (base + 8) (leBytes 8 (d + 1)) else s
      | none => s
    match deviceRead s h.id base with
    | none => drop s
    | some (count, s) =>
      let va := base + 64 + 32 * (count % max ((h.tracesize - 64) / 32) 1)
      if deviceWritable s h.id va 32 && deviceWritable s h.id base 8 then
        let rec32 := leBytes 8 (s.core t.coreNo).cycles.toNat ++ leBytes 2 t.coreNo ++ leBytes 1 kind ++ leBytes 1 0
          ++ leBytes 4 t.strandId.toNat ++ leBytes 8 a.toNat ++ leBytes 8 b.toNat
        deviceWrite (deviceWrite s h.id va rec32) h.id base (leBytes 8 (count + 1))
      else drop s

/-! Trap queues (R81, R82). -/

/-- The 64 bytes of a record, with its SEQ (Table 3.9). -/
def TrapRecord.bytes (r : TrapRecord) (seq : Nat) : List Byte :=
  leBytes 4 r.ticket.toNat ++ leBytes 1 r.cause ++ leBytes 1 r.flags.toNat ++ leBytes 2 r.hive
    ++ leBytes 4 r.strand.toNat ++ leBytes 4 r.gang.toNat ++ leBytes 8 r.pc.toNat ++ leBytes 8 r.val.toNat
    ++ leBytes 8 r.info.toNat ++ leBytes 8 r.data.toNat ++ leBytes 8 r.save.toNat ++ leBytes 8 seq

def flagNotice : BitVec 8 := 1

def flagDeclined : BitVec 8 := 2

def flagQfault : BitVec 8 := 4

/-- What posting to one queue comes to: posted, no room, or addresses that do not translate writable. -/
inductive Posted where
  | done (s : State)
  | full (s : State)
  | unmapped (s : State)

/-- A record written at the index TAIL of a queue at a hive's virtual address, when TAIL − HEAD < TQSIZE (R81). TAIL is taken
from memory at TQBASE + 0x08 at each post; the device keeps no copy of its own.
DESIGN CHOICE, unsafe: notes/assumptions/66. -/
def postHive (s : State) (h : Hive) (r : TrapRecord) : Posted :=
  let base := h.tqbase.toNat
  match deviceRead s h.id base with
  | none => .unmapped s
  | some (head, s) =>
    match deviceRead s h.id (base + 8) with
    | none => .unmapped s
    | some (tail, s) =>
      let va := base + 64 + 64 * (tail % max h.tqsize 1)
      if (tail + 2 ^ 64 - head) % 2 ^ 64 < h.tqsize then
        if deviceWritable s h.id va 64 && deviceWritable s h.id (base + 8) 8 then
          let s := deviceWrite s h.id va (r.bytes h.seq)
          let s := deviceWrite s h.id (base + 8) (leBytes 8 (tail + 1))
          .done (s.modHive h.id (fun x => { x with seq := x.seq + 1 }))
        else .unmapped s
      else .full s

/-- The same for the host's partition queue, at physical addresses of host memory; when it passes from empty to
non-empty a link interrupt message names the partition (R302). -/
def postHost (s : State) (n : Nat) (r : TrapRecord) : Posted :=
  let p := s.part n
  let head := Mem.read s.mem p.hqbase 8
  let tail := Mem.read s.mem (p.hqbase + 8) 8
  if (tail + 2 ^ 64 - head) % 2 ^ 64 < p.hqsize then
    let m := Mem.put s.mem (p.hqbase + 64 + 64 * (tail % max p.hqsize 1)) (r.bytes p.seq)
    let s := { s with mem := Mem.write m (p.hqbase + 8) 8 (tail + 1) }
    let s := s.modPart n (fun x => { x with seq := x.seq + 1 })
    .done (if head = tail then { s with interrupts := n :: s.interrupts } else s)
  else .full s

/-- A record that stays pending: in its strand's save entry, or for the owner's own notice without a ticket as a flag per KIND.
A notice of another hive that came to this queue keeps its HIVEID and flags, once (R81). -/
def pendRecord (s : State) (owner part : Nat) (r : TrapRecord) : State :=
  if owner = 0 then s.modPart part (fun p => { p with pend := p.pend ++ [r] })
  else if r.ticket = 0 ∧ r.hive = owner ∧ r.flags = flagNotice then
    s.modHive owner (fun h => { h with pendNotices := insertSorted r.data.toNat h.pendNotices })
  else s.modHive owner (fun h => { h with pend := if r.ticket = 0 ∧ h.pend.contains r then h.pend else h.pend ++ [r] })

/-- A record posted to a hive's queue, or to the next ancestor's with QFAULT where the queue does not translate
writable; 0 is the host's partition queue (R81, R83). -/
def postFrom : Nat → State → Nat → Nat → TrapRecord → Nat × State
  | 0, s, owner, part, r => (owner, pendRecord s owner part r)
  | fuel + 1, s, owner, part, r =>
    if owner = 0 then
      match postHost s part r with
      | .done s => (0, s)
      | _ => (0, pendRecord s 0 part r)
    else
      match postHive s (s.hive owner) r with
      | .done s => (owner, s)
      | .full s => (owner, pendRecord s owner part r)
      | .unmapped s => postFrom fuel s (s.hive owner).parent part { r with flags := r.flags ||| flagQfault }

/-- A record posted; the hive that receives it, and the state. A hive lies at most 8 levels below a root (R59). -/
def post (s : State) (owner part : Nat) (r : TrapRecord) : Nat × State := postFrom 10 s owner part r

/-- TRAPINFO of a REVOKED notice: REASON 3 alone (R249, Table 19.12). -/
def noticeInfo : Word := 0x300

/-- A REVOKED notice without a ticket, for a KIND of resource (R71, R82). -/
def revokedNotice (hive kind : Nat) : TrapRecord :=
  ⟨0, Cause.revoked.code, flagNotice, hive, 0, 0, 0, 0, noticeInfo, BitVec.ofNat 64 kind, 0⟩

/-- The ticket of a record held by the hive that received the record (R74, R82). -/
def rehold (s : State) (ticket : BitVec 32) (holder : Nat) : State :=
  { s with strands := s.strands.map (fun t => { t with susp := t.susp.map (fun x =>
      if ticket ≠ 0 ∧ x.ticket = ticket then { x with holder := holder } else x) }) }

/-- A pending record posted again; where it goes on to an ancestor's queue, the ancestor holds its ticket (R81). -/
def postAgain (owner part : Nat) (s : State) (r : TrapRecord) : State :=
  let (holder, s) := post s owner part r
  rehold s r.ticket holder

/-- The pending records of a queue posted in order, and then its pending notices (R81). -/
def postPending (s : State) (owner : Nat) : State :=
  let h := s.hive owner
  let s := s.modHive owner (fun x => { x with pend := [], pendNotices := [] })
  let s := h.pend.foldl (postAgain owner h.part) s
  h.pendNotices.foldl (fun s kind =>
    (post s owner h.part (revokedNotice owner kind)).2) s

/-- The same for a partition's host queue. -/
def postHostPending (s : State) (n : Nat) : State :=
  let pend := (s.part n).pend
  pend.foldl (fun s r => (post s 0 n r).2) (s.modPart n (fun p => { p with pend := [] }))

/-- A ticket of at least 0x1_0000 that no suspended strand holds (R82).
DESIGN CHOICE, unsafe: notes/assumptions/8. -/
def freshTicket (s : State) : BitVec 32 :=
  let used := s.strands.filterMap (fun t => t.susp.map (fun x => x.ticket))
  let cand := (List.range (used.length + 1)).map (fun k =>
    BitVec.ofNat 32 (0x10000 + (s.nextTicket - 0x10000 + k) % (2 ^ 32 - 0x10000)))
  (cand.find? (fun c => !used.contains c)).getD 0x10000

/-! The save entry (R263, Table 11.4). -/

/-- n bytes at a pool offset, across chunk bounds (R65), charged by the lines that they touch (R110). -/
def chargePool (s : State) (h : Hive) (off n : Nat) : State :=
  let room := 2 ^ 21 - off % 2 ^ 21
  let s := chargeLines s h.id (h.poolPhys off) (min n room)
  if room < n then chargeLines s h.id (h.poolPhys (off + room)) (n - room) else s

/-- Bytes written at a pool offset, across chunk bounds (R65). -/
def poolPut (s : State) (h : Hive) (off : Nat) (bs : List Byte) : State :=
  let room := 2 ^ 21 - off % 2 ^ 21
  let m := Mem.put s.mem (h.poolPhys off) (bs.take room)
  chargePool { s with mem := if room < bs.length then Mem.put m (h.poolPhys (off + room)) (bs.drop room) else m } h off bs.length

/-- n bytes read at a pool offset, as a little-endian number. -/
def poolRead (s : State) (h : Hive) (off n : Nat) : Nat :=
  let room := 2 ^ 21 - off % 2 ^ 21
  if n ≤ room then Mem.read s.mem (h.poolPhys off) n
  else Mem.read s.mem (h.poolPhys off) room + Mem.read s.mem (h.poolPhys (off + room)) (n - room) * 2 ^ (8 * room)

def entrySize : Nat := 180224

/-- Pool offset of a strand's save entry (R65). -/
def entryOff (h : Hive) (t : Strand) : Nat := h.saveoff + entrySize * t.entry.getD 0

/-- The word of a queue entry. -/
def QEntry.word (e : QEntry) : Word :=
  match e.item with
  | .instr i => encode i
  | .word w => w

/-- The 64 bytes of a held instruction (R264). -/
def QEntry.bytes (e : QEntry) : List Byte :=
  let cap (k : Nat) : Nat := ((e.caps[k]?).bind (fun c => c.val)).elim 0 (fun x => x.toNat)
  leBytes 8 e.word.toNat ++ leBytes 8 e.addr.toNat ++ leBytes 8 (cap 0) ++ leBytes 8 (cap 1) ++ leBytes 8 (cap 2)
    ++ leBytes 8 (e.p + 32 * e.underM7.toNat) ++ leBytes 16 0

/-- KIND of a save entry (Table 11.4). -/
def kindWord (t : Strand) (kind nheld : Nat) : Nat :=
  kind + 4 * t.inHandler.toNat + 8 * t.pendFault.isSome.toNat + 16 * t.task.isSome.toNat + 32 * t.arrived.isSome.toNat
    + 256 * nheld

/-- GRANT of a save entry (Table 11.4). -/
def grantWord (t : Strand) : Nat :=
  t.grant % 16 + t.vlmin % 16 * 2 ^ 4 + t.vlmax % 16 * 2 ^ 8 + t.mvl % 256 * 2 ^ 12 + t.vregs.toNat * 2 ^ 20
    + t.prio.toNat * 2 ^ 22

/-- Bytes that a save leaves undefined (R263): free values, numbered by the save. -/
def undefinedBytes (s : State) (at_ n : Nat) : List Byte := (List.range n).map (fun k => Config.saveFill s.freeCount (at_ + k))

/-- The trap registers that a save entry holds: those of a fault that the save found, or the strand's own; a strand in
its handler keeps its own, which TRET needs (R260). -/
def savedTrap (t : Strand) : Word × Word × Word × Word :=
  match t.pendFault with
  | some f =>
    if t.inHandler then (t.trappc, t.trapcause, t.trapval, t.trapinfo)
    else
      let pc := ((t.queue[f.older]?).map (fun e => e.addr)).getD 0
      (pc, BitVec.ofNat 64 (f.trap.cause.code + 512 + 1024 * (t.queue.length - f.older)), f.trap.val, f.trap.info)
  | none => (t.trappc, t.trapcause, t.trapval, t.trapinfo)

/-- The parts of a save entry up to the queue: (offset, bytes). A compact save writes the kept stream bindings alone (R262). -/
def entryHead (s : State) (t : Strand) (kind : Nat) : List (Nat × List Byte) :=
  let q := if t.inHandler then t.held else t.queue
  let pc := if t.inHandler then t.resumePc else t.pc
  let (trappc, trapcause, trapval, trapinfo) := savedTrap t
  let fs := (List.range 32).flatMap (fun k =>
    let f := t.fslot (BitVec.ofNat 5 k)
    if f.bound then leBytes 8 f.image.toNat ++ leBytes 8 f.area.toNat else leBytes 16 0)
  let dir := (List.range 16).flatMap (fun k =>
    match t.pushed[k]? with
    | some p => leBytes 2 (p.reg.toNat + 64 * (p.egs - 1) + 32768)
    | none => leBytes 2 0)
  let keptS (k : Nat) : Bool := match t.kept with | none => true | some x => x.s.getLsbD k
  let st := (List.range 16).flatMap (fun k =>
    let x := t.stream (BitVec.ofNat 4 k)
    if !keptS k then undefinedBytes s (0x300 + 128 * k) 128
    else if x.bound then leBytes 64 x.desc.toNat ++ leBytes 8 x.pos.toNat ++ leBytes 8 1 ++ leBytes 48 0 else leBytes 128 0)
  [ (0x0, leBytes 8 pc.toNat ++ leBytes 8 (kindWord t kind q.length) ++ leBytes 8 trappc.toNat
      ++ leBytes 8 trapcause.toNat ++ leBytes 8 trapval.toNat ++ leBytes 8 trapinfo.toNat
      ++ leBytes 8 (grantWord t) ++ leBytes 4 t.strandId.toNat ++ leBytes 4 t.gangId.toNat)
  , (0x40, t.g.toList.flatMap (fun x => leBytes 8 x.toNat))
  , (0x140, t.hsave.toList.flatMap (fun x => leBytes 8 x.toNat) ++ leBytes 32 0)
  , (0x180, leBytes 8 t.fpctl.toNat ++ leBytes 8 t.seed.toNat ++ leBytes 8 t.yieldwin.toNat
      ++ leBytes 8 t.pushBits.toNat ++ dir ++ leBytes 64 0)
  , (0x200, t.rsr.toList.flatMap (fun x => leBytes 4 x.toNat))
  , (0x300, st)
  , (0xB00, fs)
  , (0xD00, (q.take 32).flatMap QEntry.bytes)
  , (0x1500, leBytes 2816 0) ]

/-- The registers of a save entry; what is not written is undefined (R262, R263). -/
def entryRegs (s : State) (t : Strand) : List (Nat × List Byte) :=
  let keptV (k : Nat) : Bool := decide (k < t.budget) && (match t.kept with | none => true | some x => x.v.getLsbD k)
  let keptM (k : Nat) : Bool := match t.kept with | none => true | some x => x.m.getLsbD k
  let mask (k : Nat) : MReg :=
    match t.pendFault with
    | some f => if k = 7 ∧ f.underM7 then f.m7 else t.mreg (BitVec.ofNat 3 k)
    | none => t.mreg (BitVec.ofNat 3 k)
  let q := (if t.inHandler then t.held else t.queue).length
  (0xD00 + 64 * q, undefinedBytes s (0xD00 + 64 * q) (2048 - 64 * q)) ::
  ((List.range 8).map (fun k =>
      (0x2000 + 1024 * k, if keptM k then leBytes 1024 (mask k).toNat
        else undefinedBytes s (0x2000 + 1024 * k) 1024))
    ++ (List.range 64).map (fun k =>
      (0x4000 + 2048 * k, if keptV k then leBytes 2048 (t.vreg (BitVec.ofNat 6 k)).toNat
        else undefinedBytes s (0x4000 + 2048 * k) 2048))
    ++ (List.range 16).map (fun k =>
      (0x24000 + 2048 * k, match t.pushed[k]? with
        | some p => leBytes 2048 p.val.toNat
        | none => undefinedBytes s (0x24000 + 2048 * k) 2048)))

/-- The save entry of strand k written: KIND 0 full, 1 compact, 2 initial (R259, R262, R69).
DEDUCED, unsafe: notes/assumptions/17. -/
def writeEntry (s : State) (k kind : Nat) : State :=
  let t := s.strand k
  let h := s.hive t.hive
  let base := entryOff h t
  let s := (entryHead s t kind ++ entryRegs s t).foldl (fun s x => poolPut s h (base + x.1) x.2) s
  { s with freeCount := s.freeCount + 1 }

/-- The captures of an instruction read back: its values from 0x10 on, those of a general register that an older held
instruction has still to write apart (R43, R264). -/
def heldCaptures (r : Nat) (args : List (BitVec 5)) (older : List QEntry) : List Capture :=
  args.zipIdx.map (fun a =>
    ⟨a.1, if older.any (fun d => d.gdest == some a.1 && a.1 != 0 && !d.saved) then none
      else some (BitVec.ofNat 64 (field r (0x10 + 8 * a.2) 8))⟩)

/-- A held instruction read back from its 64 bytes. What they do not hold comes from the strand as it was saved, and where the
parent has changed the word, or GRANT for the MVL and the grant, from the entry (R264, R265).
DEDUCED, unsafe: notes/assumptions/17. -/
def readHeld (r gr : Nat) (drm : BitVec 3) (same : Bool) (old : Option QEntry) (older : List QEntry) : QEntry :=
  let w : Word := BitVec.ofNat 64 (field r 0 8)
  let (item, args) := match decode w with
    | .ok i => (QItem.instr i, (shapeOf i).elim [] (fun x => x.args))
    | _ => (QItem.word w, [])
  let was := old.filter (fun e => e.word == w)
  let p := field r 0x28 1 % 32
  { item := item, addr := BitVec.ofNat 64 (field r 8 8), caps := heldCaptures r args older
    p := p, underM7 := bit (field r 0x28 1) 5
    mvl := (was.filter (fun _ => same)).elim (bits gr 19 12) (fun e => e.mvl)
    grant := (was.filter (fun _ => same)).elim (bits gr 3 0) (fun e => e.grant)
    drm := was.elim drm (fun e => e.drm), order := old.elim 0 (fun e => e.order)
    flags := if p = 0 then 0 else was.elim 0 (fun e => e.flags)
    fence := was.elim none (fun e => e.fence), tags := none
    pre := if p = 0 then [] else was.elim [] (fun e => e.pre), post := old.elim [] (fun e => e.post) }

/-- The held instructions of a save entry, from the oldest. -/
def readQueue (rd : Nat → Nat) (gr : Nat) (drm : BitVec 3) (same : Bool) (old : List QEntry) (n : Nat) : List QEntry :=
  (List.range n).foldl (fun q k => q ++ [readHeld (rd k) gr drm same old[k]? q]) []

/-- The cause of Table 11.1 that a code names. -/
def causeOf (code : Nat) : Option Cause :=
  [Cause.illegalOp, .illegalField, .illegalCombo, .privilege, .codeBound, .align, .pageFault, .vpageFault, .protection, .tableWrite,
    .streamFault, .scaleCount, .integrity, .fabricUnbound, .fabricFault, .fabricStall, .ringStranded, .ringStuck, .ringCount,
    .noTile, .hiveLimit, .revoked, .pushFault, .software, .brk, .machineCheck].find? (fun c => c.code == code)

/-- The fault that a save entry records (R260): its trap registers tell the trap and how many instructions are held from it on;
those of a strand in its handler are the handler's own, and the fault is the one that the save found. -/
def readFault (old : Option PendFault) (hd : Bool) (nheld : Nat) (cause val info : Word) (m7 : MReg) : Option PendFault :=
  if hd then old.map (fun f => { f with m7 := m7 })
  else match causeOf (bits cause.toNat 5 0) with
    | none => none
    | some c => some ⟨⟨c, val, info, (old.map (fun f => f.trap.data)).getD 0⟩, nheld - bits cause.toNat 15 10, m7,
        (old.map (fun f => f.underM7)).getD (c == .vpageFault || c == .revoked)⟩

/-- The reading of a strand's save entry charged (R110). -/
def chargeEntry (s : State) (t : Strand) : State := chargePool s (s.hive t.hive) (entryOff (s.hive t.hive) t) entrySize

/-- A strand's state read from its save entry; a parent may have changed it (R265). An initial strand starts with its
placement grant in force (R30). One whose barrier has completed while it was away has departed, whatever KIND [5] says (R355). -/
def readEntry (s : State) (t : Strand) : Strand :=
  let h := s.hive t.hive
  let base := entryOff h t
  let rd (off n : Nat) : Nat := poolRead s h (base + off) n
  let w (off : Nat) : Word := BitVec.ofNat 64 (rd off 8)
  let kind := rd 8 8
  let gr := rd 0x30 8
  let hd := bit kind 2
  let old := if hd then t.held else t.queue
  let q := readQueue (fun k => rd (0xD00 + 64 * k) 64) gr (BitVec.ofNat 3 (rd 0x180 8)) (gr == grantWord t) old
    (Nat.min (bits kind 13 8) 32)
  let keptV (k : Nat) : Bool := match t.kept with | none => true | some x => x.v.getLsbD k
  let keptM (k : Nat) : Bool := match t.kept with | none => true | some x => x.m.getLsbD k
  let keptS (k : Nat) : Bool := match t.kept with | none => true | some x => x.s.getLsbD k
  let m7 : MReg := BitVec.ofNat 8192 (rd (0x2000 + 7 * 1024) 1024)
  let fault := if bit kind 3 then readFault t.pendFault hd q.length (w 0x18) (w 0x20) (w 0x28) m7 else none
  let own7 : Bool := (fault.map (fun f => f.underM7)).getD false
  { t with
    pc := if hd then t.pc else w 0
    resumePc := if hd then w 0 else t.resumePc
    trappc := w 0x10, trapcause := w 0x18, trapval := w 0x20, trapinfo := w 0x28
    grant := if bits kind 1 0 = 2 then t.pg else bits gr 3 0, vlmin := bits gr 7 4, vlmax := bits gr 11 8, mvl := bits gr 19 12
    vregs := BitVec.ofNat 2 (bits gr 21 20), prio := BitVec.ofNat 2 (bits gr 23 22)
    strandId := BitVec.ofNat 32 (rd 0x38 4), gangId := BitVec.ofNat 32 (rd 0x3C 4)
    g := Vector.ofFn (fun k => if k.val = 0 then 0 else w (0x40 + 8 * k.val))
    hsave := Vector.ofFn (fun k => w (0x140 + 8 * k.val))
    fpctl := w 0x180 &&& 0xFFF, seed := BitVec.ofNat 32 (rd 0x188 8), yieldwin := BitVec.ofNat 16 (rd 0x190 8)
    pushBits := w 0x198
    pushed := (List.range 16).filterMap (fun k =>
      let d := rd (0x1A0 + 2 * k) 2
      if bit d 15 then some ⟨BitVec.ofNat 6 d, bits d 8 6 + 1, BitVec.ofNat 16384 (rd (0x24000 + 2048 * k) 2048)⟩
      else none)
    rsr := Vector.ofFn (fun k => BitVec.ofNat 32 (rd (0x200 + 4 * k.val) 4))
    streams := Vector.ofFn (fun k =>
      if keptS k.val && bit (rd (0x300 + 128 * k.val + 72) 8) 0 then
        ⟨true, BitVec.ofNat 512 (rd (0x300 + 128 * k.val) 64), w (0x300 + 128 * k.val + 64), [], none⟩
      else Stream.unbound)
    fslots := Vector.ofFn (fun k =>
      let f := t.fslots[k]
      let image := w (0xB00 + 16 * k.val)
      if image = 0 then FSlot.free else { f with bound := true, image := image, area := w (0xB08 + 16 * k.val) })
    held := if hd then q else []
    queue := if hd then t.queue else q
    m := Vector.ofFn (fun k =>
      if k.val = 7 ∧ own7 then t.mreg 7
      else if keptM k.val then BitVec.ofNat 8192 (rd (0x2000 + 1024 * k.val) 1024) else 0)
    pendFault := fault
    v := Vector.ofFn (fun k =>
      if keptV k.val && decide (k.val < t.budget) then BitVec.ofNat 16384 (rd (0x4000 + 2048 * k.val) 2048) else 0)
    arrived := if bit kind 5 then t.arrived.or (if t.away.isSome then none else some (w 0)) else none, kept := none }

/-! Suspension and the ending of a strand's hold on its share (Table 2.2). -/

/-- Strand k holds no slot, no EG slots and no tags. -/
def releaseShare (t : Strand) : Strand :=
  { t with
    placed := false, egs := 0, record := none, waits := false, resuming := false
    queue := t.queue.map (fun e => { e with tags := none }) }

/-- The pins of strand k's fabric contexts ended (R206). -/
def unpin (s : State) (k : Nat) : State :=
  s.modCore (s.strand k).coreNo (fun c => { c with
    comb := c.comb.map (fun x => if x.owner == k then { x with pinned := false } else x) })

/-- The instructions of a queue as they are held: without tags, from progress index 0 (R252). -/
def holdAll (q : List QEntry) : List QEntry := q.map (fun e => { e with p := 0, flags := 0, tags := none, pre := [] })

/-- The record that a trap of strand k posts (Table 3.9). -/
def trapRecord (s : State) (k : Nat) (t : Trap) (pc : Word) (ticket : BitVec 32) (declined : Bool) : TrapRecord :=
  let st := s.strand k
  { ticket := ticket, cause := t.cause.code, flags := if declined then flagDeclined else 0, hive := st.hive
    strand := st.strandId, gang := st.gangId, pc := pc, val := t.val, info := t.info, data := t.data
    save := BitVec.ofNat 64 (entryOff (s.hive st.hive) st) }

/-- Strand k suspended with its state in its save entry and a ticket held by a hive: a release at DEVICE scope, the
save, and the record (R80, R259, Table 5.5). A request to pre-empt it is met by that (R84). -/
def suspendWith (s : State) (k saveKind : Nat) (kind : SuspKind) (owner : Nat) (r : TrapRecord) : State :=
  let t := s.strand k
  let s := unpin (releaseL1 s ⟨t.hive, t.share, true⟩ 2) k
  let s := s.modStrand k (fun t => { releaseShare t with status := .suspended, preempt := none })
  let s := writeEntry s k saveKind
  let (holder, s) := post s owner (s.partOf t.hive) r
  let s := { s with nextTicket := s.nextTicket + 1 }
  s.modStrand k (fun t => { t with susp := some ⟨kind, r.ticket, holder, r⟩ })

/-! Taking a trap (R249 to R254). -/

/-- The registers that a local trap sets (Table 11.2): TRAPCAUSE holds the code, H, QD and the count held. -/
def trapCauseWord (code : Nat) (qd : Bool) (held : Nat) : Word :=
  BitVec.ofNat 64 (code % 64 + 256 + 512 * qd.toNat + 1024 * held)

/-- Delivery to the strand itself (R253): release at DEVICE scope; the held instructions, the resume PC and the program's
g28 to g31 to the save entry; the trap registers and H; PC := TRAPVEC. -/
def deliverLocal (s : State) (k : Nat) (t : Trap) (pc : Word) (qd : Bool) (held : List QEntry) : State :=
  let st := s.strand k
  let h := s.hive st.hive
  let s := releaseL1 s ⟨st.hive, st.share, true⟩ 2
  let saved : Vector Word 4 := #v[st.g[28], st.g[29], st.g[30], st.g[31]]
  let base := entryOff h st
  let s := poolPut s h base (leBytes 8 st.pc.toNat)
  let s := poolPut s h (base + 0x140) (saved.toList.flatMap (fun x => leBytes 8 x.toNat))
  let s := poolPut s h (base + 0xD00) (held.flatMap QEntry.bytes)
  let s := s.setStrand k { st with
    status := .running, record := none, queue := [], held := held, resumePc := st.pc, hsave := saved, pendTrap := none
    trappc := pc, trapcause := trapCauseWord t.cause.code qd held.length, trapval := t.val, trapinfo := t.info
    pc := h.trapvec }
  traceRecord s k 2 pc (s.strand k).trapcause

/-- TABLE_WRITE at a partition root: the strand's release and acquire at DEVICE scope about it, firmware performs the store,
composes the matching shadow entry with the effect of AINV, and the strand goes on after the instruction (R83, R132).
DEDUCED, unsafe: notes/assumptions/51. -/
def firmwareTable (s : State) (k : Nat) (t : Trap) : State :=
  let st := s.strand k
  let h := s.hive st.hive
  let w : Who := ⟨st.hive, st.share, true⟩
  let s := rootTableWrite (releaseL1 s w 2) h t.info.toNat t.data.toNat
  let s := acquireL1 (newGeneration (flushHive s h.id) h.id) w 2
  s.modStrand k (fun x => { x with pc := x.pc + 8, pendTrap := none })

/-- Firmware builds a root's shadow anew from a new level-3 table, with the effect of AINV (R83). -/
def firmwareRoot (s : State) (h : Hive) (root : Nat) : State :=
  let s := rootShadow s h root
  let s := markTablePages s (s.hive h.id)
  newGeneration (flushHive s h.id) h.id

/-- Delivery to the parent: the strand is suspended, its state saved, and a record posted (R80, R254). -/
def deliverParent (s : State) (k : Nat) (t : Trap) (pc : Word) (held : List QEntry) : State :=
  let st := s.strand k
  let h := s.hive st.hive
  let declined := !t.cause.parental || st.inHandler
  let s := s.modStrand k (fun x => { x with queue := held, pendTrap := none })
  let r := trapRecord s k t pc (freshTicket s) declined
  let s := traceRecord s k 2 pc (BitVec.ofNat 64 t.cause.code)
  let s := s.modHive h.id (fun x => { x with reflected := x.reflected + 1 })
  suspendWith s k 0 (if st.inHandler then .handlerTrap else .trap) h.parent r

/-- Whether strand k handles a cause itself: a local cause, its TRAPMASK bit set, not in the handler (R80, R253). -/
def handlesLocally (s : State) (k : Nat) (c : Cause) : Bool :=
  !c.parental && (s.hive (s.strand k).hive).trapmask.getLsbD c.code && !(s.strand k).inHandler

/-- Taking a trap, once every older instruction has completed: the one operation every trap of a strand goes through.
pc is the trapping instruction's address; held are the queued instructions from it on, for a queued one (R251 to R254). -/
def deliver (s : State) (k : Nat) (t : Trap) (pc : Word) (qd : Bool) (held : List QEntry) : State :=
  if handlesLocally s k t.cause then deliverLocal s k t pc qd held
  else if t.cause = .tableWrite ∧ (s.hive (s.strand k).hive).parent = 0 then firmwareTable s k t
  else deliverParent s k t pc held

/-- A trap of the scalar instruction at PC of strand k: it waits until every older queued instruction has completed
(R251); until then it is as if not issued. -/
def raiseAt (s : State) (k : Nat) (t : Trap) : State :=
  let st := s.strand k
  if st.queue.isEmpty then deliver s k t st.pc false []
  else s.modStrand k (fun x => { x with pendTrap := some (t, x.pc) })

/-- A scalar trap of the strand whose instruction is issued. -/
def raise (s : State) (t : Trap) : State := raiseAt s s.cur t

/-- No engine command of strand k awaits what is in its queue: it has trapped, or is held behind what has (R128). -/
def stopAwaiting (s : State) (k : Nat) : State :=
  { s with cmds := s.cmds.map (fun c => if c.strand == k then { c with awaits := [] } else c) }

/-- The trap of a queued instruction of strand k at the head of its queue: it and every younger one are held, and run
again from progress index 0; one that was stopped by a memory fault reissues under Gov AND m7 (R252, R257). Being the oldest, it
is the one delivered: a younger scalar trap, or a younger fault that a save recorded, is found again (R251, R260). -/
def raiseQueued (s : State) (k : Nat) (t : Trap) (underM7 : Bool) : State :=
  match (s.strand k).queue with
  | [] => s
  | e :: rest =>
    let held := holdAll ({ e with underM7 := underM7 } :: rest)
    deliver (stopAwaiting (s.modStrand k (fun x => { x with pendTrap := none, pendFault := none })) k) k t e.addr true held

/-! Returning from a local handler (R257). -/

/-- The registers that TRET restores: g28 to g31 and H. -/
def tretRegs (t : Strand) : Strand :=
  { t with
    g := ((((t.g.set 28 t.hsave[0]).set 29 t.hsave[1]).set 30 t.hsave[2]).set 31 t.hsave[3])
    trapcause := t.trapcause &&& ~~~(256 : Word) }

/-- Where a strand with a queue stands: Blocked where an FDRAIN is in it (R206). -/
def drainStatus (q : List QEntry) : Status :=
  match q.find? (fun e => match e.item with | .instr (.fdrain _) => true | _ => false) with
  | some e => match e.item with | .instr i => .blocked i | .word _ => .running
  | none => .running

/-- Where TRET leaves the pc and the queue: at TRAPPC or after it, or at the resume PC with the held instructions in the
queue again; a dropped instruction's stream has been advanced already. -/
def tretReturn (t : Strand) (skip : Bool) : Strand :=
  let t := tretRegs t
  if t.trapcause.getLsbD 9 then
    let q := if skip then t.held.drop 1 else t.held
    { t with queue := q, held := [], pc := t.resumePc, status := drainStatus q }
  else { t with held := [], pc := if skip then t.trappc + 8 else t.trappc }

/-! Meanings of scalar instructions: what an instruction may answer. -/

/-- A scalar meaning: a strand must be issuing; a trap is raised, otherwise the answer stands. -/
def scalar (s : State) (f : Except Trap State) : Host.Outcome State Fault Refusal :=
  if s.runs then
    match f with
    | .ok t => .next t
    | .error t => .next (raise s t)
  else .fault .noStrand

/-- A scalar meaning that may have to wait: none leaves the instruction where it is, not yet executed (R127, R151). -/
def scalarWait (s : State) (f : Option (Except Trap State)) : Host.Outcome State Fault Refusal :=
  if s.runs then
    match f with
    | none => .next { s with stalled := true }
    | some (.ok t) => .next t
    | some (.error t) => .next (raise s t)
  else .fault .noStrand

/-- The instruction of strand k that an Away names completes: a strand that stands at it goes on after it; another does when it
stands there again (R68, R216, R236, R258). -/
def completeAt (s : State) (k : Nat) (w : Away) : State :=
  let t := s.strand k
  if t.status.isEnded then s
  else if t.onShare && t.pc == w.pc then
    let s := if w.acquire then acquireL1 s ⟨t.hive, t.share, true⟩ 1 else s
    s.modStrand k (fun t => { t.setGreg w.gd w.val with status := .running, pc := t.pc + 8, away := none })
  else s.modStrand k (fun t => { t with away := some w })

/-- The issuing strand Blocked in an instruction, which runs again when it is woken (R26). -/
def State.block (s : State) (i : Instr) : State := s.modMe (fun t => { t with status := .blocked i })

/-- The awaited event of strand k: the instruction it is Blocked in runs again if pick accepts it; otherwise nothing
happens. -/
def wake (s : State) (k : Nat) (pick : Instr → Bool) (run : Instr → State → Host.Outcome State Fault Refusal) :
    Host.Outcome State Fault Refusal :=
  match (s.strand k).status with
  | .blocked i =>
    if pick i && (s.strand k).placed then
      run i ({ s with cur := k }.modStrand k (fun t => { t with status := .running }))
    else .next s
  | _ => .next s

/-- ILLEGAL_COMBO of step 4 of R274: TRAPVAL holds the instruction word. -/
def combo (i : Instr) : Trap := Trap.at .illegalCombo (encode i)

/-- A value, or the trap where a check fails. -/
def need (b : Bool) (t : Trap) : Except Trap Unit := if b then .ok () else .error t

/-- Whether an instruction goes through the load-store queue of the vector agent (R117): the comb instructions among them read and
write images and restart records (R205, R206, R209). -/
def isMemoryAccess : Instr → Bool
  | .vld _ | .vst _ | .vldx _ | .vstx _ | .vamo _ | .vldfe _ | .vpf _ | .sbind _ | .fx _ _ | .topa _ | .tops _
  | .fbind _ | .fcfg _ | .fctxLoad _ | .fctxPin _ | .fctxEvict _ => true
  | _ => false

/-- Whether an instruction is an access of the vector agent, to memory or to a tile (R117, R177). -/
def isVectorAccess : Instr → Bool
  | .tzero _ | .trd _ | .twr _ | .tscl _ => true
  | i => isMemoryAccess i

/-- Whether a queue entry goes through the load-store queue. -/
def QEntry.memoryAccess (e : QEntry) : Bool :=
  match e.item with
  | .instr i => isMemoryAccess i
  | .word _ => false

/-- Whether a queue entry is an access of the vector agent. -/
def QEntry.vectorAccess (e : QEntry) : Bool :=
  match e.item with
  | .instr i => isVectorAccess i
  | .word _ => false

/-- Every earlier V access of the issuing strand is performed. -/
def State.quietV (s : State) : Bool := !s.me.queue.any QEntry.vectorAccess

/-- The issuing strand's general register rd written and its PC advanced. -/
def State.finish (s : State) (rd : BitVec 5) (x : Word) : State := s.modMe (fun t => (t.setGreg rd x).nextPc)

/-- The issuing strand's PC advanced. -/
def State.advance (s : State) : State := s.modMe Strand.nextPc

end Sys2Proof.Machine
end

