-- ==== Sys2Proof/Machine/Flags.lean ====
section
/-! DEFINITION. FPCTL: its sticky flags, the rounding mode in force, and the generators of a strand (spec/06 R149 to
R154, Table 6.3). -/

namespace Sys2Proof.Machine

/-- FPCTL.DRM. -/
def Strand.drm (t : Strand) : BitVec 3 := t.fpctl.extractLsb' 0 3

/-- The rounding mode that an RM field selects: 6 takes DRM (R151, R152).
DESIGN CHOICE, unsafe: notes/assumptions/48. -/
def roundMode (rm drm : BitVec 3) : Nat := if rm ≠ 6 then rm.toNat else if drm.toNat < 6 then drm.toNat else 0

/-- Flags ORed into FPCTL [11:3] (R150). -/
def Strand.orFlags (t : Strand) (fl : Nat) : Strand :=
  { t with fpctl := t.fpctl ||| (BitVec.ofNat 64 fl &&& 0xFF8) }

/-- A value as FPCTL keeps it: [63:12] read zero (Table 6.3). -/
def fpctlKeep (x : Word) : Word := x &&& 0xFFF

/-- Generator e mod 64 before its step (R153). -/
def Strand.gen (t : Strand) (e : Nat) : Nat := t.rsr[e % 64].toNat

/-- The generator of element e stepped once (R153). -/
def Strand.stepGen (t : Strand) (e : Nat) : Strand :=
  { t with rsr := t.rsr.set (e % 64) (rsrStep t.rsr[e % 64]) }

/-- The generators as a list of steps leaves them, each by its number modulo 64 (R153). -/
def stepGens (r : Vector (BitVec 32) 64) (l : List Nat) : Vector (BitVec 32) 64 :=
  l.foldl (fun r n => r.set (n % 64) (rsrStep r[n % 64])) r

/-- The step of state_0 by a scalar instruction (R317). The queue goes on beside the scalar stream; a queued instruction in flight
counts its own steps from where the strand's generators stand, so that none is lost.
DESIGN CHOICE, unsafe: notes/assumptions/70. -/
def Strand.stepScalar (t : Strand) : Strand := t.stepGen 0

/-- TSAT bit of a tile (Table 6.3). -/
def tsatFlag (ad : BitVec 2) : Nat := 2 ^ (8 + ad.toNat)

end Sys2Proof.Machine
end

