-- ==== Sys2Proof/Machine/ScalarInt.lean ====
section
/-! DEFINITION. The scalar integer instructions, OP 0x01 to 0x04 (spec/12 R276, spec/14 and spec/15). -/

namespace Sys2Proof.Machine

/-- The mould of R316: a 64-bit result to gd, no flags, no trap. -/
def alu (s : State) (rd : BitVec 5) (x : Word) : Host.Outcome State Fault Refusal := scalar s (.ok (s.finish rd x))

/-- Number of set bits of a word. -/
def popcount (x : Word) : Nat := ((List.range 64).filter (fun k => x.getLsbD k)).length

/-- Zero bits below the least significant set bit, or 64. -/
def trailingZeros (x : Word) : Nat := (leastBelow 64 (fun k => x.getLsbD k)).getD 64

/-- Zero bits above the most significant set bit, or 64. -/
def leadingZeros (x : Word) : Nat := (leastBelow 64 (fun k => x.getLsbD (63 - k))).getD 64

/-- DIV of Table 14.3: toward zero; a zero divisor gives all ones. -/
def divS (a b : Word) : Word := if b = 0 then BitVec.allOnes 64 else word (Int.tdiv a.toInt b.toInt)

/-- DIVU of Table 14.3. -/
def divU (a b : Word) : Word := if b = 0 then BitVec.allOnes 64 else BitVec.ofNat 64 (a.toNat / b.toNat)

/-- REM of Table 15.7: the remainder has the sign of the dividend. -/
def remS (a b : Word) : Word := if b = 0 then a else word (Int.tmod a.toInt b.toInt)

/-- REMU of Table 15.7. -/
def remU (a b : Word) : Word := if b = 0 then a else BitVec.ofNat 64 (a.toNat % b.toNat)

/-- A comparison's result: 1 or 0. -/
def boolWord (b : Bool) : Word := if b then 1 else 0

/-- SignExt of a 32-bit immediate (R10). -/
def immS (imm : BitVec 32) : Word := imm.signExtend 64

def execAdd (o : GFmt) (s : State) := alu s o.gd (s.me.greg o.ga + s.me.greg o.gb)

def execSub (o : GFmt) (s : State) := alu s o.gd (s.me.greg o.ga - s.me.greg o.gb)

def execAnd (o : GFmt) (s : State) := alu s o.gd (s.me.greg o.ga &&& s.me.greg o.gb)

def execOr (o : GFmt) (s : State) := alu s o.gd (s.me.greg o.ga ||| s.me.greg o.gb)

def execXor (o : GFmt) (s : State) := alu s o.gd (s.me.greg o.ga ^^^ s.me.greg o.gb)

def execShl (o : GFmt) (s : State) := alu s o.gd (s.me.greg o.ga <<< ((s.me.greg o.gb).toNat % 64))

def execShr (o : GFmt) (s : State) := alu s o.gd (s.me.greg o.ga >>> ((s.me.greg o.gb).toNat % 64))

def execSar (o : GFmt) (s : State) := alu s o.gd ((s.me.greg o.ga).sshiftRight ((s.me.greg o.gb).toNat % 64))

def execSlt (o : GFmt) (s : State) := alu s o.gd (boolWord ((s.me.greg o.ga).slt (s.me.greg o.gb)))

def execSltu (o : GFmt) (s : State) := alu s o.gd (boolWord ((s.me.greg o.ga).ult (s.me.greg o.gb)))

def execMin (o : GFmt) (s : State) :=
  alu s o.gd (if (s.me.greg o.ga).slt (s.me.greg o.gb) then s.me.greg o.ga else s.me.greg o.gb)

def execMax (o : GFmt) (s : State) :=
  alu s o.gd (if (s.me.greg o.ga).slt (s.me.greg o.gb) then s.me.greg o.gb else s.me.greg o.ga)

def execMinu (o : GFmt) (s : State) :=
  alu s o.gd (if (s.me.greg o.ga).ult (s.me.greg o.gb) then s.me.greg o.ga else s.me.greg o.gb)

def execMaxu (o : GFmt) (s : State) :=
  alu s o.gd (if (s.me.greg o.ga).ult (s.me.greg o.gb) then s.me.greg o.gb else s.me.greg o.ga)

/-- SEXT (R385): n stands in Q[5:0]. -/
def execSext (o : GFmt) (s : State) := alu s o.gd (signExtW (o.q.toNat % 64) (s.me.greg o.ga))

/-- ZEXT (R453). -/
def execZext (o : GFmt) (s : State) := alu s o.gd (zeroExtW (o.q.toNat % 64) (s.me.greg o.ga))

def execClz (o : GFmt) (s : State) := alu s o.gd (BitVec.ofNat 64 (leadingZeros (s.me.greg o.ga)))

def execCtz (o : GFmt) (s : State) := alu s o.gd (BitVec.ofNat 64 (trailingZeros (s.me.greg o.ga)))

def execPopc (o : GFmt) (s : State) := alu s o.gd (BitVec.ofNat 64 (popcount (s.me.greg o.ga)))

def execAddi (o : IFmt) (s : State) := alu s o.gd (s.me.greg o.ga + immS o.imm)

def execAndi (o : IFmt) (s : State) := alu s o.gd (s.me.greg o.ga &&& immS o.imm)

def execOri (o : IFmt) (s : State) := alu s o.gd (s.me.greg o.ga ||| immS o.imm)

def execXori (o : IFmt) (s : State) := alu s o.gd (s.me.greg o.ga ^^^ immS o.imm)

/-- SHLI (R382): the decoder admits 0 to 63 only. -/
def execShli (o : IFmt) (s : State) := alu s o.gd (s.me.greg o.ga <<< (o.imm.toNat % 64))

def execShri (o : IFmt) (s : State) := alu s o.gd (s.me.greg o.ga >>> (o.imm.toNat % 64))

def execSari (o : IFmt) (s : State) := alu s o.gd ((s.me.greg o.ga).sshiftRight (o.imm.toNat % 64))

def execSlti (o : IFmt) (s : State) := alu s o.gd (boolWord ((s.me.greg o.ga).slt (immS o.imm)))

/-- LIH (R370): imm over the low half of ga. -/
def execLih (o : IFmt) (s : State) := alu s o.gd (o.imm ++ (s.me.greg o.ga).setWidth 32)

/-- ADDPC (R320): PC is the address of this instruction. -/
def execAddpc (o : IFmt) (s : State) := alu s o.gd (s.me.pc + immS o.imm)

def execMul (o : GFmt) (s : State) := alu s o.gd (s.me.greg o.ga * s.me.greg o.gb)

/-- MULH (R375): bits [127:64] of the signed product. -/
def execMulh (o : GFmt) (s : State) :=
  alu s o.gd (((s.me.greg o.ga).signExtend 128 * (s.me.greg o.gb).signExtend 128).extractLsb' 64 64)

/-- MULHU (R375): bits [127:64] of the unsigned product. -/
def execMulhu (o : GFmt) (s : State) :=
  alu s o.gd (((s.me.greg o.ga).setWidth 128 * (s.me.greg o.gb).setWidth 128).extractLsb' 64 64)

def execDiv (o : GFmt) (s : State) := alu s o.gd (divS (s.me.greg o.ga) (s.me.greg o.gb))

def execDivu (o : GFmt) (s : State) := alu s o.gd (divU (s.me.greg o.ga) (s.me.greg o.gb))

def execRem (o : GFmt) (s : State) := alu s o.gd (remS (s.me.greg o.ga) (s.me.greg o.gb))

def execRemu (o : GFmt) (s : State) := alu s o.gd (remU (s.me.greg o.ga) (s.me.greg o.gb))

end Sys2Proof.Machine
end

