-- ==== Sys2Proof/Machine/System.lean ====
section
/-! DEFINITION. SETVL, the control registers, CYCRD, CFLUSH, AINV, TMARK, TRAP, BRK, TRET and YIELD (spec/02 R52 to R54,
spec/03 R77, R79, R83, spec/04 R101 to R104, spec/11 R255 to R262, spec/12 R280, R284, R285, spec/13 R312, spec/14). -/

namespace Sys2Proof.Machine

/-! SETVL (R54). -/

/-- The grant that SETVL puts in force: PG, bounded by VLGRANT.EGS, but never below VLMIN. -/
def setvlGrant (pg egs vlmin : Nat) : Nat := max (min pg egs) vlmin

/-- SETVL (R54): gd := the strip length, I := the grant; EG slots above the placement grant's are given up (R56). -/
def execSetvl (o : IFmt) (s : State) : Host.Outcome State Fault Refusal :=
  let g := setvlGrant s.me.pg s.myCore.vlgrant s.me.vlmin
  let maxvl := g * 2048 / (ElemType.ofCode (o.q.extractLsb' 0 4)).width
  let n := min (s.me.greg o.ga).toNat maxvl
  scalar s (.ok ((s.modMe (fun t => { t with grant := g, egs := min t.egs ((t.budget + 32) * t.pg) })).finish o.gd (BitVec.ofNat 64 n)))

/-! Control registers (R284, Table 12.5). -/

/-- The number of a share among a hive's shares: ascending core, then first lane group (R62). -/
def shareNumber (h : Hive) (x : ShareRef) : Nat :=
  (h.shares.filter (fun y => decide (y.core < x.core) || (y.core == x.core && decide (y.lg < x.lg)))).length

/-- The size code of Table 3.2. -/
def sizeCode (l : Nat) : Nat :=
  if l = 16 then 0 else if l = 8 then 1 else if l = 4 then 2 else 3

/-- CORESHARE (Table 12.6). -/
def coreShareWord (h : Hive) (x : ShareRef) : Nat :=
  x.core % 1024 + sizeCode x.size * 1024 + x.lg % 16 * 4096 + shareNumber h x % 128 * 65536

/-- The value of a control register, laid out as its map gives. -/
def controlValue (s : State) (n : Nat) : Word :=
  let t := s.me
  let h := s.myHive
  match n with
  | 0x00 => BitVec.ofNat 64 (s.myCore.vlgrant % 16)
  | 0x01 => BitVec.ofNat 64 (s.myCore.mvlc % 4)
  | 0x02 => fpctlKeep t.fpctl
  | 0x03 => t.seed.setWidth 64
  | 0x04 => h.trapvec
  | 0x05 => t.trappc
  | 0x06 => t.trapcause
  | 0x07 => t.trapval
  | 0x08 => t.trapinfo
  | 0x09 => BitVec.ofNat 64 h.codebase
  | 0x0A => BitVec.ofNat 64 h.codebound
  | 0x0B => BitVec.ofNat 64 h.id
  | 0x0C => BitVec.ofNat 64 h.depth
  | 0x0D => h.tblroot
  | 0x0E => t.yieldwin.setWidth 64
  | 0x0F => t.strandId.setWidth 64
  | 0x10 => t.gangId.setWidth 64
  | 0x11 => BitVec.ofNat 64 (coreShareWord h t.shareD)
  | _ => BitVec.ofNat 64 s.myCore.sps.toNat

/-- CTLRD (R330): reads of FPCTL and SEED first wait for every earlier queued instruction (R151). -/
def execCtlrd (o : IFmt) (s : State) : Host.Outcome State Fault Refusal :=
  scalarWait s
    (if (o.imm == 2 || o.imm == 3) && !s.me.queue.isEmpty then none
     else some (.ok (s.finish o.gd (controlValue s o.imm.toNat))))

/-- CTLWR FPCTL (R149, R151): a DRM of 6 or 7 traps and changes nothing. -/
def execCtlwrFpctl (o : IFmt) (s : State) : Host.Outcome State Fault Refusal :=
  let x := s.me.greg o.ga
  scalarWait s
    (if !s.me.queue.isEmpty then none
     else if 6 ≤ bits x.toNat 2 0 then some (.error (Trap.at .illegalField (encode (.ctlwrFpctl o))))
     else some (.ok ((s.modMe (fun t => { t with fpctl := fpctlKeep x })).advance)))

/-- CTLWR SEED (R154): VALUE, and every generator seeded anew. -/
def execCtlwrSeed (o : IFmt) (s : State) : Host.Outcome State Fault Refusal :=
  let x : BitVec 32 := (s.me.greg o.ga).setWidth 32
  scalarWait s
    (if !s.me.queue.isEmpty then none
     else some (.ok ((s.modMe (fun t => { t with seed := x, rsr := Vector.ofFn (fun k => rsrSeed x k.val) })).advance)))

/-- CTLWR TRAPVEC (R255): aligned, and inside the arena. -/
def execCtlwrTrapvec (o : IFmt) (s : State) : Host.Outcome State Fault Refusal :=
  let x := s.me.greg o.ga
  let h := s.myHive
  scalar s
    (if x.toNat % 8 ≠ 0 then .error (Trap.at .align x)
     else if x.toNat < h.codebase || h.codebound < x.toNat + 8 then .error (Trap.at .codeBound x)
     else .ok ((s.modHive h.id (fun y => { y with trapvec := x })).advance))

/-- CTLWR TBLROOT (R77, R83): TABLE_WRITE with TRAPVAL 0, or at a partition root composed by firmware, once every older queued
instruction has completed as for the trap (R251), with the release and the acquire of the trap and its resumption about it (R132);
the register keeps its value (R330). -/
def execCtlwrTblroot (o : IFmt) (s : State) : Host.Outcome State Fault Refusal :=
  let x := s.me.greg o.ga
  scalarWait s
    (if s.myHive.parent ≠ 0 then some (.error ⟨.tableWrite, 0, x, x⟩)
     else if !s.me.queue.isEmpty then none
     else some (.ok (acquireL1 (firmwareRoot (releaseL1 s s.who 2) s.myHive x.toNat) s.who 2).advance))

/-- CTLWR YIELDWIN (R331): CYC; the upper bits are ignored. -/
def execCtlwrYieldwin (o : IFmt) (s : State) : Host.Outcome State Fault Refusal :=
  scalar s (.ok ((s.modMe (fun t => { t with yieldwin := (t.greg o.ga).setWidth 16 })).advance))

/-- The least and the greatest address that a strided side of a command touches, as integers (R241). -/
def stridedSpan (r base strides : Nat) : Int × Int :=
  let side (k : Nat) : Int := (field r (0x20 + 4 * (k + 1)) 4 - 1 : Nat) * toSigned 64 (field r (strides + 8 * k) 8)
  let at_ : Int := (field r base 8 : Nat)
  (at_ + min 0 (side 0) + min 0 (side 1) + min 0 (side 2),
   at_ + max 0 (side 0) + max 0 (side 1) + max 0 (side 2) + field r 0x20 4)

/-- Whether an interval of addresses reaches the scratchpad window (R93). -/
def inWindow (x : Int × Int) : Bool :=
  decide (x.1 < (windowBase + 2 ^ 52 : Nat)) && decide ((windowBase : Nat) ≤ x.2)

/-- Whether a command addresses the scratchpad of its issuer's share. -/
def Cmd.usesScratch (c : Cmd) : Bool :=
  let r := c.desc.toNat
  inWindow (field r 8 8, field r 8 8) || inWindow (stridedSpan r 0x18 0x48) ||
    (c.kind != .fill && inWindow (stridedSpan r 0x10 0x30))

/-- The pads of a core (R220). -/
def padsOf (s : State) (c : Nat) : List Pad := (s.ring (c / 12)).pads.getD (c % 12) []

/-- SPLIT set: scratchpad below the smaller size stays, the rest is zero and empty (R104). -/
def setSplit (s : State) (c : Nat) (sps : BitVec 3) : State :=
  let keep := min (s.core c).scratchSize ((512 + 256 * sps.toNat) * 1024)
  s.modCore c (fun k => { k with
    sps := sps, scratch := k.scratch.filter (fun x => decide (x.1 < keep))
    full := k.full.filter (fun g => decide (16 * g < keep)) })

/-- CTLWR SPLIT (R104). -/
def execCtlwrSplit (o : IFmt) (s : State) : Host.Outcome State Fault Refusal :=
  let x := s.me.greg o.ga
  let c := s.me.coreNo
  let word := encode (.ctlwrSplit o)
  let others := (s.strands.zipIdx).any (fun t => t.2 != s.cur && t.1.placed && t.1.coreNo == c)
  let busy := s.cmds.any (fun m => m.share.core == c && m.usesScratch)
  scalarWait s
    (if !s.myHive.shares.contains ⟨c, 0, 16⟩ then some (.error (Trap.at .privilege word))
     else if bits x.toNat 2 0 = 7 then some (.error (Trap.at .illegalField x))
     else if others || busy || !(padsOf s c).isEmpty then some (.error (Trap.at .illegalCombo word))
     else if !s.quietV then none
     else some (.ok (setSplit (clearL1 s s.me.hive c) c (x.setWidth 3)).advance))

/-- CTLWR to a register that is read-only (R255, R284). -/
def execCtlwr (o : IFmt) (s : State) : Host.Outcome State Fault Refusal :=
  scalar s (.error (Trap.at .privilege (encode (.ctlwr o))))

/-- CYCRD (R333). -/
def execCycrd (o : IFmt) (s : State) : Host.Outcome State Fault Refusal :=
  scalar s (.ok (s.finish o.gd s.myCore.cycles))

/-! CFLUSH, AINV, TMARK. -/

/-- A hive and its descendants, by walking the parents up, at most 9 levels (R59). -/
def isWithin (s : State) (anc : Nat) : Nat → Nat → Bool
  | 0, h => h == anc
  | fuel + 1, h => h == anc || (h != 0 && isWithin s anc fuel (s.hive h).parent)

/-- Whether hive h is hive anc or a descendant of it. -/
def State.within (s : State) (anc h : Nat) : Bool := isWithin s anc 9 h

/-- The instruction-cache lines that hold bytes of a range dropped, on every core where the hive or a descendant holds
a share (R101). -/
def flushCode (s : State) (hive lo len : Nat) : State :=
  let held := (s.hives.filter (fun h => s.within hive h.id)).flatMap (fun h => h.shares.map (fun x => x.core))
  held.eraseDups.foldl (fun s c => s.modCore c (fun k => { k with
    icache := k.icache.filter (fun l => !(decide (lo / 128 ≤ l.1 / 128) && decide (l.1 / 128 ≤ (lo + len - 1) / 128))) })) s

/-- CFLUSH (R101). -/
def execCflush (o : GFmt) (s : State) : Host.Outcome State Fault Refusal :=
  let a := s.me.greg o.ga
  let n := (s.me.greg o.gb).toNat
  let h := s.myHive
  scalarWait s
    (if a.toNat % 8 ≠ 0 || n % 8 ≠ 0 then some (.error (Trap.at .align a))
     else if n ≠ 0 && (decide (a.toNat < h.codebase) || decide (h.codebound < a.toNat + n)) then
       some (.error (Trap.at .codeBound a))
     else if !s.quietV then none
     else
       let s := acquireL1 s s.who 2
       some (.ok (if n = 0 then s else flushCode s h.id a.toNat n).advance))

/-- The direct child that a HIVEID names, or the trap of R68. -/
def childOf (s : State) (i : Instr) (x : Word) : Except Trap Hive :=
  match s.findHive x.toNat with
  | some h => if h.parent = s.me.hive ∧ s.me.hive ≠ 0 then .ok h else .error (Trap.at .privilege (encode i))
  | none => .error (Trap.at .privilege (encode i))

/-- No HTAKE of the issuing strand's partition is in progress: the operations on its hives take effect one at a time (R68). -/
def State.treeFree (s : State) : Bool := (s.part s.myHive.part).taking.isNone

/-- AINV (R79), whole at the point where it completes: every access of the child that was translated under an older
generation is performed, the child's generation advances, and no walk of an older one is left.
DEDUCED, unsafe: notes/assumptions/47. -/
def execAinv (o : GFmt) (s : State) : Host.Outcome State Fault Refusal :=
  scalarWait s
    (match childOf s (.ainv o) (s.me.greg o.ga) with
     | .error t => some (.error t)
     | .ok h =>
       if !s.quietV || !s.treeFree then none
       else some (.ok (newGeneration (flushHive (acquireL1 s s.who 2) h.id) h.id).advance))

/-- TMARK (R312). -/
def execTmark (o : IFmt) (s : State) : Host.Outcome State Fault Refusal :=
  scalar s (.ok (traceRecord s s.cur 1 (s.me.greg o.ga) (o.imm.setWidth 64)).advance)

/-! TRAP, BRK and TRET (R256, R257). -/

def execTrap (o : IFmt) (s : State) : Host.Outcome State Fault Refusal :=
  scalar s (.error (Trap.at .software (o.imm.setWidth 64)))

def execBrk (o : IFmt) (s : State) : Host.Outcome State Fault Refusal :=
  scalar s (.error (Trap.at .brk (o.imm.setWidth 64)))

/-- The stream that a queued instruction advances by its length, and that length, where it has one (R257). -/
def streamUse (e : QEntry) : Option (BitVec 4 × Nat) :=
  let len : Nat := (((e.caps.head?).bind (fun c => c.val)).getD 0).toNat
  match e.item with
  | .instr (.vld o) | .instr (.vst o) | .instr (.vldfe o) | .instr (.vpf o) => some (o.sx, len)
  | _ => none

/-- The stream of a dropped instruction advanced by its length.
DEDUCED, unsafe: notes/assumptions/50. -/
def skipStream (t : Strand) : Strand :=
  match t.held.head?.bind streamUse with
  | some (k, n) => t.setStream k { t.stream k with pos := (t.stream k).pos + BitVec.ofNat 64 n }
  | none => t

/-- TRET with or without SKIP (R257): the handler's queue is empty, an acquire at DEVICE scope, the registers back. -/
def tret (i : Instr) (skip : Bool) (s : State) : Host.Outcome State Fault Refusal :=
  scalarWait s
    (if !s.me.inHandler then some (.error (Trap.at .illegalCombo (encode i)))
     else if !s.me.queue.isEmpty then none
     else
       let s := acquireL1 s s.who 2
       some (.ok (s.modMe (fun t => tretReturn (if skip then skipStream t else t) skip))))

def execTret (o : GFmt) (s : State) : Host.Outcome State Fault Refusal := tret (.tret o) false s

def execTretSkip (o : GFmt) (s : State) : Host.Outcome State Fault Refusal := tret (.tretSkip o) true s

end Sys2Proof.Machine
end

