-- ==== Sys2Proof/Machine/Engine.lean ====
section
/-! DEFINITION. Engine commands: issue, copy and fill, the codec, the stamp, completion (spec/10 R237 to R248, spec/05
R133, spec/06 R163 to R167, spec/17 R447, R448). -/

namespace Sys2Proof.Machine

/-! The command record (Table 10.2). -/

def CmdKind.isCopy : CmdKind → Bool
  | .copy | .fill => true
  | _ => false

def CmdKind.isCodec : CmdKind → Bool
  | .ztab | .zenc => true
  | _ => false

/-- COUNT k. -/
def countOf (r k : Nat) : Nat := field r (0x20 + 4 * k) 4

/-- The product of the counts. -/
def totalOf (r : Nat) : Nat := countOf r 0 * countOf r 1 * countOf r 2 * countOf r 3

/-- The pattern width of XFILL in bytes. -/
def fillWidth (r : Nat) : Nat := 2 ^ bits (field r 3 1) 1 0

/-- Whether MODE holds only bits that the kind uses (Table 10.2). -/
def modeOk (k : CmdKind) (m : Nat) : Bool :=
  match k with
  | .ztab => decide (m < 8)
  | .zenc | .fill => decide (m < 4)
  | _ => m == 0

/-- COUNT k holds a value that the kind allows. -/
def countOk (k : CmdKind) (r i : Nat) : Bool :=
  decide (1 ≤ countOf r i) && (decide (i < (if k.isCopy then field r 1 1 else 1)) || countOf r i == 1)

def startOk (k : CmdKind) (r : Nat) : Bool :=
  let st := field r 0x60 8
  match k with
  | .copy | .fill => st % 4096 == 0 && decide (st < totalOf r)
  | .zenc => st % 32 == 0 && decide (st < countOf r 0)
  | _ => st == 0

def limitOk (k : CmdKind) (r : Nat) : Bool :=
  match k with
  | .zenc => decide (35 ≤ field r 0x68 8)
  | .xseal => true
  | _ => field r 0x68 8 == 0

/-- The checks of Table 10.2 in the order of the fields, with the offset that a failure reports (R238 step 3). -/
def recordChecks (k : CmdKind) (r : Nat) : List (Nat × Bool) :=
  [ (0x00, decide (field r 0 1 < 4) && (k != .xseal || field r 0 1 == 3))
  , (0x01, if k.isCopy then decide (1 ≤ field r 1 1) && decide (field r 1 1 ≤ 4) else field r 1 1 == 0)
  , (0x02, if k.isCodec then field r 2 1 == 9 || field r 2 1 == 10 else field r 2 1 == 0)
  , (0x03, modeOk k (field r 3 1))
  , (0x04, field r 4 4 == 0)
  , (0x08, field r 8 8 % 64 == 0)
  , (0x10, k != .fill || decide (field r 0x10 8 < 2 ^ (8 * fillWidth r)))
  , (0x20, countOk k r 0 && (!k.isCopy || decide (totalOf r < 2 ^ 48)) && (k != .xseal || decide (countOf r 0 ≤ 2 ^ 28)))
  , (0x24, countOk k r 1)
  , (0x28, countOk k r 2)
  , (0x2C, countOk k r 3)
  , (0x60, startOk k r)
  , (0x68, limitOk k r)
  , (0x70, k == .zenc || field r 0x70 8 == 0)
  , (0x78, field r 0x78 8 == 0) ]

/-- The offset of the first failing field. -/
def badField (k : CmdKind) (r : Nat) : Option Nat := ((recordChecks k r).find? (fun c => !c.2)).map (fun c => c.1)

/-! XSEAL at issue (R246, R247). -/

/-- The sealed range that holds a physical address. -/
def sealedRange (s : State) (pa : Nat) : Option (Nat × Nat) :=
  s.parts.findSome? (fun p => p.seals.find? (fun r => decide (r.1 ≤ pa) && decide (pa < r.1 + r.2)))

/-- The physical place of a virtual address for a stamp access that a leaf permits. -/
def stampPlace (s : State) (hive va : Nat) (k : AccessKind) : Option Nat :=
  if bits va 63 52 ≠ 0 then none
  else match walk s (s.hive hive) va with
    | .leaf e => if e.permits k && !(k == .write && e.tw) then some (e.pbase + (va - e.vbase)) else none
    | .fail _ => none

/-- The first byte of each 64 KiB page that a range touches, the range's own first byte first. -/
def pageStarts (va n : Nat) : List Nat :=
  va :: ((List.range (ceilDiv (va % 65536 + n) 65536 - 1)).map (fun k => (va / 65536 + k + 1) * 65536))

/-- The first address at which an XSEAL's source leaves its sealed range, or its destination host memory. -/
def sealFault (s : State) (hive r : Nat) : Option (Nat × AccessKind) :=
  let src := field r 0x10 8
  let dst := field r 0x18 8
  let n := countOf r 0
  let range := (stampPlace s hive src .read).bind (sealedRange s)
  let badSrc (va : Nat) : Bool :=
    match stampPlace s hive va .read with
    | some pa => range.isNone || sealedRange s pa != range
    | none => true
  let badDst (va : Nat) : Bool :=
    match stampPlace s hive va .write with
    | some pa => !(decide (2 ^ 51 ≤ pa) && decide (pa < 2 ^ 52))
    | none => true
  match (pageStarts src n).find? badSrc, (pageStarts dst (n + 3584)).find? badDst with
  | some va, _ => some (va, .read)
  | none, some va => some (va, .write)
  | none, none => none

/-! Issue (R238). -/

/-- Incomplete commands of strand k. -/
def incomplete (s : State) (k : Nat) : Nat := (s.cmds.filter (fun c => c.strand == k)).length

/-- The number of the next XSEAL command of a hive (R248).
DESIGN CHOICE, unsafe: notes/assumptions/47. -/
def nextSeal (h : Hive) : Nat := h.sealSeq + 1

/-- The command that a record of strand k makes; it awaits the V accesses that are in the queue now (R133). -/
def newCommand (s : State) (k : Nat) (kind : CmdKind) (r : Nat) : Cmd :=
  let t := s.strand k
  { id := s.nextCmd, kind := kind, strand := k, hive := t.hive, gang := t.gangId, share := t.shareD
    desc := BitVec.ofNat 1024 r, awaits := (t.queue.filter QEntry.vectorAccess).map (fun e => e.order)
    seq := if kind = .xseal then nextSeal (s.hive t.hive) else 0, started := false
    progress := field r 0x60 8, outBytes := field r 0x70 8, table := none, ending := none }

/-- Step 6 of R238: the command exists, an XSEAL is counted for its hive, and strand k goes on after the instruction. -/
def makeCommand (s : State) (k : Nat) (kind : CmdKind) (r : Nat) : State :=
  let c := newCommand s k kind r
  let s := { s with cmds := s.cmds ++ [c], nextCmd := s.nextCmd + 1 }
  let s := if kind = .xseal then s.modHive c.hive (fun h => { h with sealSeq := c.seq }) else s
  s.modStrand k (fun t => { t.nextPc with status := .running, record := none })

/-- The steps of R238; with 16 commands incomplete the strand is Blocked in step 5, the record kept (R447). -/
def issueCommand (kind : CmdKind) (i : Instr) (o : GFmt) (s : State) : Host.Outcome State Fault Refusal :=
  scalar s (do
    let a := s.me.greg o.ga
    need (a.toNat % 64 == 0) (Trap.at .align a)
    let (r, s) ← loadRecord s s.who a 16
    match badField kind r with
    | some off => throw (Trap.at .illegalField (BitVec.ofNat 64 off))
    | none => pure ()
    if kind = .xseal then
      match sealFault s s.me.hive r with
      | some (va, k) => throw (accessTrap (BitVec.ofNat 64 va) k .notPermitted)
      | none => pure ()
    let s ← storeW s s.who (BitVec.ofNat 64 (field r 8 8)) 8 0 false
    if 16 ≤ incomplete s s.cur then
      return (s.block i).modMe (fun t => { t with record := some (BitVec.ofNat 1024 r) })
    else return makeCommand s s.cur kind r)

def execXcopy (o : GFmt) (s : State) := issueCommand .copy (.xcopy o) o s

def execXfill (o : GFmt) (s : State) := issueCommand .fill (.xfill o) o s

def execXztab (o : GFmt) (s : State) := issueCommand .ztab (.xztab o) o s

def execXzenc (o : GFmt) (s : State) := issueCommand .zenc (.xzenc o) o s

def execXseal (o : GFmt) (s : State) := issueCommand .xseal (.xseal o) o s

/-- XWAIT (R240): blocks until STATE is non-zero, then an acquire at the record's scope. -/
def execXwait (o : GFmt) (s : State) : Host.Outcome State Fault Refusal :=
  scalar s (do
    let a := s.me.greg o.ga
    need (a.toNat % 64 == 0) (Trap.at .align a)
    let (x, t) ← loadW s s.who a 8 true
    if x % 256 ≠ 0 then return (acquireL1 t s.who (bits x 17 16)).finish o.gd (BitVec.ofNat 64 x)
    else return t.block (.xwait o))

/-- STATE became non-zero: XWAIT runs again (R240). -/
def execXwaitWake (st : Nat) (s : State) : Host.Outcome State Fault Refusal :=
  wake s st (fun i => match i with | .xwait _ => true | _ => false)
    (fun i => match i with | .xwait o => execXwait o | _ => .next)

/-! A running command. -/

def State.cmd (s : State) (id : Nat) : Option Cmd := s.cmds.find? (fun c => c.id == id)

def State.modCmd (s : State) (id : Nat) (f : Cmd → Cmd) : State :=
  { s with cmds := s.cmds.map (fun c => if c.id == id then f c else c) }

/-- The engine's agent: the hive's translation, the share of the issue, no L1 and no TLB (R117, R241). -/
def Cmd.who (c : Cmd) : Who := ⟨c.hive, some c.share, false⟩

def Cmd.scope (c : Cmd) : Nat := bits c.desc.toNat 1 0

/-- The virtual address of linear byte b on a side (R241). -/
def linearAddr (r base strides b : Nat) : Nat :=
  let c0 := countOf r 0
  let c1 := countOf r 1
  let c2 := countOf r 2
  let st (k : Nat) : Int := toSigned 64 (field r (strides + 8 * k) 8)
  ofInt 64 ((field r base 8 : Nat) + (b % c0 : Nat) + (b / c0 % c1 : Nat) * st 0 + (b / (c0 * c1) % c2 : Nat) * st 1
    + (b / (c0 * c1 * c2) : Nat) * st 2)

/-- The bytes from an address on, at most n, that go to one place: a 128-byte line of a peer (R303), and otherwise 32 KiB,
which divides both a page and the scratchpad of a share (R61, R93). -/
def pieceLen (va n : Nat) : Nat :=
  let unit := if 1 ≤ bits va 56 52 ∧ bits va 56 52 ≤ 30 then 128 else 32768
  min n (unit - va % unit)

/-- Linear bytes lo to hi − 1 cut into runs that stay in dimension 0 and in one piece on both sides:
(first byte, length, source, destination). -/
def runsOf (r : Nat) : Nat → Nat → Nat → List (Nat × Nat × Nat × Nat)
  | 0, _, _ => []
  | fuel + 1, lo, hi =>
    if hi ≤ lo then []
    else
      let sv := linearAddr r 0x10 0x30 lo
      let dv := linearAddr r 0x18 0x48 lo
      let n := pieceLen sv (pieceLen dv (min (hi - lo) (countOf r 0 - lo % countOf r 0)))
      (lo, n, sv, dv) :: runsOf r fuel (lo + n) hi

/-- How a command ends early: STATE, cause code, FADDR, FINFO (R239). -/
abbrev Ending := Nat × Nat × Word × Word

/-- The ending of an access that does not go through. -/
def engineFault (va : Nat) (k : AccessKind) (r : Reason) : Ending :=
  let t := accessTrap (BitVec.ofNat 64 va) k r
  (if r = .revoked then 3 else 2, t.cause.code, t.val, t.info)

/-- The bytes an engine reads at a place. -/
def placeBytes (s : State) (w : Who) (p : Place) (n : Nat) : List Byte × State :=
  match p with
  | .scratch c off => (Mem.take (s.core c).scratch off n, s)
  | .mem pa _ => (Mem.take s.mem pa n, chargeLines s w.hive pa n)
  | .peer _ => ((List.range n).map (fun k => Config.peerByte (s.freeCount + k)), { s with freeCount := s.freeCount + n })
  | .shadow child off pa e =>
    ((List.range n).map (fun k => BitVec.ofNat 8 (readPlace s w (.shadow child (off + k) (pa + k) e) 1 true).1),
      chargeLines s w.hive pa n)

/-- The granules of a scratchpad range set full, after its bytes are written (R107, R136). -/
def fillGranules (s : State) (c off n : Nat) : State :=
  if n = 0 then s
  else (List.range ((off + n - 1) / 16 - off / 16 + 1)).foldl (fun s k => setFull s c (off / 16 + k)) s

/-- Bytes that an engine writes at a place that has passed its checks. -/
def putPlace (s : State) (w : Who) (p : Place) (bs : List Byte) : State :=
  match p with
  | .scratch c off =>
    fillGranules (s.modCore c (fun k => { k with scratch := Mem.put k.scratch off bs })) c off bs.length
  | .mem pa _ => chargeLines { s with mem := Mem.put s.mem pa bs } w.hive pa bs.length
  | .peer _ => s
  | .shadow _ _ _ _ => s

/-- A hive still holds the lane groups of a share, in whatever shares they stand now (R60). -/
def Hive.holds (h : Hive) (x : ShareRef) : Bool :=
  h.shares.any (fun y => y.core == x.core && decide (y.lg ≤ x.lg) && decide (x.lg + x.size ≤ y.lg + y.size))

/-- Where an engine's access goes: the window is that of the share of the issue, as long as the hive holds it (R239, R241). -/
def engineLocate (s : State) (w : Who) (va : Nat) (k : AccessKind) : Except Reason (Place × State) :=
  if bits va 63 52 = 31 ∧ !(w.share.map (s.hive w.hive).holds).getD false then .error .revoked else locate s w va k

/-- The place of an engine write: a TW page and the shadow part of a pool refuse it (R76, R77). -/
def engineWrite (s : State) (w : Who) (va : Nat) : Except Ending (Place × State) :=
  match engineLocate s w va .write with
  | .error r => .error (engineFault va .write r)
  | .ok (.shadow _ _ _ _, _) => .error (engineFault va .write .notPermitted)
  | .ok (.mem pa e, s) => if e.tw then .error (engineFault va .write .notPermitted) else .ok (.mem pa e, s)
  | .ok p => .ok p

/-- A range read by an engine, piece by piece. -/
def engineRead (s : State) (w : Who) : Nat → Nat → Nat → Except Ending (List Byte × State)
  | 0, _, _ => .ok ([], s)
  | fuel + 1, va, n =>
    if n = 0 then .ok ([], s)
    else
      let k := pieceLen va n
      match engineLocate s w va .read with
      | .error r => .error (engineFault va .read r)
      | .ok (p, s) =>
        let (bs, s) := placeBytes s w p k
        match engineRead s w fuel (va + k) (n - k) with
        | .error e => .error e
        | .ok (rest, s) => .ok (bs ++ rest, s)

/-- A range that an engine may write, as places with their lengths. -/
def enginePlaces (s : State) (w : Who) : Nat → Nat → Nat → Except Ending (List (Place × Nat) × State)
  | 0, _, _ => .ok ([], s)
  | fuel + 1, va, n =>
    if n = 0 then .ok ([], s)
    else
      let k := pieceLen va n
      match engineWrite s w va with
      | .error e => .error e
      | .ok (p, s) =>
        match enginePlaces s w fuel (va + k) (n - k) with
        | .error e => .error e
        | .ok (rest, s) => .ok ((p, k) :: rest, s)

/-- Bytes written over places in order. -/
def putPlaces (s : State) (w : Who) : List (Place × Nat) → List Byte → State
  | [], _ => s
  | (p, k) :: ps, bs => putPlaces (putPlace s w p (bs.take k)) w ps (bs.drop k)

/-- Pieces that n bytes can touch. -/
def pieceFuel (n : Nat) : Nat := n / 128 + 2

/-- A range read by a command's engine. -/
def readRange (s : State) (w : Who) (va n : Nat) : Except Ending (List Byte × State) := engineRead s w (pieceFuel n) va n

/-- A range written by a command's engine once all of it translates. -/
def writeRange (s : State) (w : Who) (va : Nat) (bs : List Byte) : Except Ending State :=
  (enginePlaces s w (pieceFuel bs.length) va bs.length).map (fun x => putPlaces x.2 w x.1 bs)

/-- A command ended, its record still to be written. -/
def endCommand (s : State) (id : Nat) (e : Ending) : State := s.modCmd id (fun c => { c with ending := some e })

def endingDone : Ending := (1, 0, 0, 0)

def endingRevoked : Ending := (3, 0x19, 0, 0)

/-! Copy and fill (R241, R448). -/

/-- The bytes of a chunk and where they go: every page translated, every source byte read. -/
def gatherChunk (c : Cmd) : State → List (Nat × Nat × Nat × Nat) → Except Ending (List (Place × List Byte) × State)
  | s, [] => .ok ([], s)
  | s, (b, n, sv, dv) :: runs =>
    let r := c.desc.toNat
    let src : Except Ending (List Byte × State) :=
      if c.kind = .fill then
        .ok ((List.range n).map (fun i =>
          BitVec.ofNat 8 (field r 0x10 8 / 2 ^ (8 * ((b + i) % fillWidth r)))), s)
      else readRange s c.who sv n
    match src with
    | .error e => .error e
    | .ok (bs, s) =>
      match engineWrite s c.who dv with
      | .error e => .error e
      | .ok (p, s) =>
        match gatherChunk c s runs with
        | .error e => .error e
        | .ok (rest, s) => .ok ((p, bs) :: rest, s)

/-- One chunk of 4,096 linear bytes: translated and read whole, then written (R241). -/
def runChunk (s : State) (c : Cmd) : State :=
  let r := c.desc.toNat
  let hi := min (c.progress + 4096) (totalOf r)
  match gatherChunk c s (runsOf r 4096 c.progress hi) with
  | .error e => endCommand s c.id e
  | .ok (parts, s) =>
    let s := parts.foldl (fun s p => putPlace s c.who p.1 p.2) s
    let s := s.modCmd c.id (fun x => { x with progress := hi })
    if totalOf r ≤ hi then endCommand s c.id endingDone else s

/-- A started command that has not ended. -/
def withRunning (id : Nat) (s : State) (kinds : CmdKind → Bool) (f : Cmd → State) : Host.Outcome State Fault Refusal :=
  match s.cmd id with
  | none => .next s
  | some c =>
    if c.started && c.ending.isNone && kinds c.kind then
      .next (f c)
    else .next s

/-- The ranges of addresses that a command has still to touch. -/
def Cmd.remaining (c : Cmd) : List (Nat × Nat) :=
  let r := c.desc.toNat
  let src := field r 0x10 8
  let dst := field r 0x18 8
  match c.kind with
  | .copy => (runsOf r (totalOf r) c.progress (totalOf r)).flatMap (fun x => [(x.2.2.1, x.2.1), (x.2.2.2, x.2.1)])
  | .fill => (runsOf r (totalOf r) c.progress (totalOf r)).map (fun x => (x.2.2.2, x.2.1))
  | .ztab =>
    if c.table.isSome then []
    else (src, if bit (field r 3 1) 2 then 64 else countOf r 0) :: (if dst = 0 then [] else [(dst, 64)])
  | .zenc => [(src + c.progress, countOf r 0 - c.progress), (dst + c.outBytes, field r 0x68 8 - c.outBytes)]
  | .xseal => [(src, countOf r 0), (dst, countOf r 0 + 3584)]

/-- COPY_CHUNK (R241). -/
def execCopyChunk (cmd : Nat) (s : State) : Host.Outcome State Fault Refusal :=
  withRunning cmd s CmdKind.isCopy (runChunk s)

/-! The codec (R242, R243). -/

/-- The slot that a codec command names. -/
def Cmd.tslot (c : Cmd) : BitVec 2 := BitVec.ofNat 2 (field c.desc.toNat 3 1)

def Cmd.elemType (c : Cmd) : Nat := field c.desc.toNat 2 1

/-- How often each exponent field occurs in a tensor's bytes. -/
def countExps (et : Nat) (bs : List Byte) : List Nat :=
  bs.foldl (fun l b => modAt l (expField et b.toNat) (· + 1)) (List.replicate 32 0)

/-- The table of an XZTAB: built from a tensor, or loaded from an image; with the type it is for. -/
def makeTable (s : State) (c : Cmd) : Except Ending ((Nat × List (Nat × Nat)) × State) :=
  let r := c.desc.toNat
  let src := field r 0x10 8
  if bit (field r 3 1) 2 then
    match readRange s c.who src 64 with
    | .error e => .error e
    | .ok (bs, s) =>
      match readImage (ofLeBytes bs) with
      | some t => .ok (t, s)
      | none => .error (2, Cause.illegalField.code, BitVec.ofNat 64 src, 0)
  else
    match readRange s c.who src (countOf r 0) with
    | .error e => .error e
    | .ok (bs, s) => .ok ((c.elemType, buildTable c.elemType (countExps c.elemType bs)), s)

/-- XZTAB before it installs: the table, and its image written where DST asks for it. -/
def runTable (s : State) (c : Cmd) : State :=
  let dst := field c.desc.toNat 0x18 8
  match makeTable s c with
  | .error e => endCommand s c.id e
  | .ok ((et, t), s) =>
    let keep (s : State) : State := s.modCmd c.id (fun x => { x with table := some t, outBytes := et })
    if dst = 0 then keep s
    else match writeRange s c.who dst (tableImage et t) with
      | .error e => endCommand s c.id e
      | .ok s => keep s

/-- Whether a CF8 load of a strand names a slot through its binding. -/
def namesSlot (t : Strand) (slot : BitVec 2) (e : QEntry) : Bool :=
  match e.item with
  | .instr (.vld o) =>
    (t.stream o.sx).bound && (t.stream o.sx).coding == 1 && (t.stream o.sx).tslot == slot
  | _ => false

/-- The references to an XZTAB's slot that hold its installation back (R167). -/
def slotReferences (s : State) (c : Cmd) : Nat :=
  let t := s.strand c.strand
  ((t.queue ++ t.held).filter (fun e => namesSlot t c.tslot e && decide (e.order < c.id))).length
    + (s.cmds.filter (fun x => x.strand == c.strand && x.tslot == c.tslot && (x.kind == .zenc
      || (x.kind == .ztab && decide (x.id < c.id) && x.ending.isNone)))).length

/-- XZTAB_INSTALL (R167): the reference count is zero, the table is installed and GEN advances. -/
def execXztabInstall (cmd : Nat) (s : State) : Host.Outcome State Fault Refusal :=
  withRunning cmd s (fun k => k == .ztab) (fun c =>
    match c.table with
    | none => runTable s c
    | some t =>
      if slotReferences s c ≠ 0 then s
      else
        let s := s.modStrand c.strand (fun x =>
          x.setTable c.tslot ⟨BitVec.ofNat 4 c.outBytes, t, (x.table c.tslot).gen + 1⟩)
        endCommand (s.modCmd cmd (fun x => { x with outBytes := 0 })) cmd endingDone)

/-- One CF8 block coded and written whole (R243). -/
def runBlock (s : State) (c : Cmd) : State :=
  let r := c.desc.toNat
  let n := min 32 (countOf r 0 - c.progress)
  let slot := (s.strand c.strand).table c.tslot
  match readRange s c.who (field r 0x10 8 + c.progress) n with
  | .error e => endCommand s c.id e
  | .ok (bs, s) =>
    let block := encodeBlock c.tslot.toNat slot.gen.toNat c.elemType slot.et.toNat slot.entries (bs.map (fun b => b.toNat))
    if field r 0x68 8 < c.outBytes + block.length then endCommand s c.id (4, 0, 0, 0)
    else match writeRange s c.who (field r 0x18 8 + c.outBytes) block with
      | .error e => endCommand s c.id e
      | .ok s =>
        let s := s.modCmd c.id (fun x => { x with progress := c.progress + n, outBytes := c.outBytes + block.length })
        if countOf r 0 ≤ c.progress + n then endCommand s c.id endingDone else s

/-- CODEC_BLOCK (R243). -/
def execCodecBlock (cmd : Nat) (s : State) : Host.Outcome State Fault Refusal :=
  withRunning cmd s (fun k => k == .zenc) (runBlock s)

/-! The stamp (R246 to R248). -/

/-- Physical bytes of a range for the stamp unit, page by page; the first address that does not go through. -/
def stampPages (s : State) (hive : Nat) (k : AccessKind) (va n : Nat) : Except Nat (List (Nat × Nat)) :=
  (pageStarts va n).foldr (fun a acc =>
    let len := min (va + n - a) (65536 - a % 65536)
    match stampPlace s hive a k, acc with
    | none, _ => .error a
    | _, .error b => .error b
    | some pa, .ok l => .ok ((pa, len) :: l)) (.ok [])

/-- How a frame or its destination fails to translate, source first. -/
def stampFault (s : State) (hive src dst n : Nat) : Option Ending :=
  let bad (k : AccessKind) (va : Nat) : Option Ending :=
    if bits va 63 52 ≠ 0 then none
    else match walk s (s.hive hive) va with
      | .fail r => some (engineFault va k r)
      | .leaf _ => none
  ((pageStarts src n).findSome? (bad .read)).orElse (fun _ => (pageStarts dst (n + 3584)).findSome? (bad .write))

/-- Bytes 0x000 to 0x097 of the trailer (Table 10.5). -/
def trailerHead (s : State) (c : Cmd) (hash : List Byte) : List Byte :=
  leBytes 4 0x53544D31 ++ leBytes 2 1 ++ leBytes 2 3584 ++ leBytes 16 Config.deviceId.toNat ++ leBytes 2 c.hive
    ++ leBytes 2 (s.partOf c.hive) ++ leBytes 4 c.gang.toNat ++ leBytes 8 (field c.desc.toNat 0x68 8)
    ++ leBytes 8 (countOf c.desc.toNat 0) ++ leBytes 8 c.seq ++ hash ++ leBytes 48 s.boot.mr1.toNat

/-- The Ed25519 signature of the module's attestation key (R248, R307).
DESIGN CHOICE, safe: notes/assumptions/33. -/
def signedEd25519 (s : State) (message : List Byte) : List Byte :=
  ed25519Sign (leBytes 32 (Config.seedEd25519 s.boot.mr1).toNat) message

/-- The ML-DSA-65 signature of the module's attestation key, hedged (R248, R307, R313). -/
def signedMlDsa65 (s : State) (message : List Byte) : List Byte :=
  (mlDsa65Sign (leBytes 32 (Config.seedMlDsa65 s.boot.mr1).toNat) (leBytes 32 (Config.hedge s.freeCount).toNat) message).getD
    (leBytes 3309 (Config.signMlDsa65 s.freeCount).toNat)

/-- The trailer (R248). -/
def trailer (s : State) (c : Cmd) (hash : List Byte) : List Byte :=
  let head := trailerHead s c hash
  head ++ signedEd25519 s head ++ signedMlDsa65 s head ++ leBytes 59 0

/-- Bytes written at physical pages in order. -/
def putPages (s : State) (hive : Nat) : List (Nat × Nat) → List Byte → State
  | [], _ => s
  | (pa, n) :: ps, bs => putPages (chargeLines { s with mem := Mem.put s.mem pa (bs.take n) } hive pa n) hive ps (bs.drop n)

/-- The stamp unit reads the frame once, hashes it, writes frame and trailer (R247). -/
def runStamp (s : State) (c : Cmd) : State :=
  let r := c.desc.toNat
  let src := field r 0x10 8
  let dst := field r 0x18 8
  let n := countOf r 0
  match stampFault s c.hive src dst n, sealFault s c.hive r, stampPages s c.hive .read src n,
      stampPages s c.hive .write dst (n + 3584) with
  | some e, _, _, _ => endCommand s c.id e
  | none, none, .ok ins, .ok outs =>
    let frame := ins.flatMap (fun p => Mem.take s.mem p.1 p.2)
    let s := ins.foldl (fun s p => chargeLines s c.hive p.1 p.2) s
    let s := putPages s c.hive outs (frame ++ trailer s c (sha384 frame))
    endCommand ({ s with freeCount := s.freeCount + 1 }.modCmd c.id (fun x => { x with outBytes := n + 3584 })) c.id endingDone
  | none, some (va, k), _, _ => endCommand s c.id (engineFault va k .notPermitted)
  | none, none, .error va, _ => endCommand s c.id (engineFault va .read .notPermitted)
  | none, none, _, .error va => endCommand s c.id (engineFault va .write .notPermitted)

/-- SEAL_STAMP (R247). -/
def execSealStamp (cmd : Nat) (s : State) : Host.Outcome State Fault Refusal :=
  withRunning cmd s (fun k => k == .xseal) (runStamp s)

/-! Start and completion. -/

/-- Whether every earlier V access of the issuing strand is performed; one that has trapped counts as done, and so do those
held behind it (R128, R133).
DEDUCED, unsafe: notes/assumptions/49. -/
def commandMayStart (s : State) (c : Cmd) : Bool :=
  !(s.strand c.strand).queue.any (fun e => c.awaits.contains e.order)

/-- ENGINE_COMMAND_START (R133): the issuer's earlier accesses are performed at the command's scope. -/
def execEngineCommandStart (cmd : Nat) (s : State) : Host.Outcome State Fault Refusal :=
  match s.cmd cmd with
  | none => .next s
  | some c =>
    if !c.started && c.ending.isNone && commandMayStart s c then
      let s := releaseL1 s ⟨c.hive, some c.share, true⟩ c.scope
      .next (s.modCmd cmd (fun x => { x with started := true }))
    else .next s

/-- PROGRESS of a completion record (Table 10.3). -/
def progressOf (c : Cmd) (state : Nat) : Nat :=
  if c.kind.isCopy || c.kind == .zenc then c.progress else if state = 1 then countOf c.desc.toNat 0 else 0

/-- OUTBYTES of a completion record (Table 10.3). -/
def outBytesOf (c : Cmd) : Nat := if c.kind == .zenc || c.kind == .xseal then c.outBytes else 0

/-- The kind of command that an engine instruction issues (R237). -/
def commandKind : Instr → Option CmdKind
  | .xcopy _ => some .copy
  | .xfill _ => some .fill
  | .xztab _ => some .ztab
  | .xzenc _ => some .zenc
  | .xseal _ => some .xseal
  | _ => none

/-- A strand Blocked in step 5 of R238 goes on with step 6 once fewer than 16 of its commands are incomplete (R447). -/
def leaveStep5 (s : State) (k : Nat) : State :=
  match (s.strand k).status, (s.strand k).record with
  | .blocked i, some r =>
    match commandKind i with
    | some kind => if incomplete s k < 16 then makeCommand s k kind r.toNat else s
    | none => s
  | _, _ => s

/-- The completion record written: its fields, then STATUS (R239). -/
def writeCompletion (s : State) (c : Cmd) (e : Ending) : Except Ending State :=
  let done := field c.desc.toNat 8 8
  let body := leBytes 8 (progressOf c e.1) ++ leBytes 8 (outBytesOf c) ++ leBytes 8 e.2.2.1.toNat
    ++ leBytes 8 e.2.2.2.toNat ++ leBytes 24 0
  match writeRange s c.who (done + 8) body with
  | .error x => .error x
  | .ok s => writeRange s c.who done (leBytes 8 (e.1 + 256 * e.2.1 + 65536 * c.scope))

/-- The completion record of an ended command stored; one whose address does not translate writable stays pending (R239). -/
def tryCompletion (s : State) (cmd : Nat) : State :=
  match s.cmd cmd with
  | none => s
  | some c =>
    match c.ending with
    | none => s
    | some e =>
      match writeCompletion s c e with
      | .error _ => s
      | .ok s => leaveStep5 { s with cmds := s.cmds.filter (fun x => x.id != cmd) } c.strand

/-- COMMAND_COMPLETION (R239). -/
def execCommandCompletion (cmd : Nat) (s : State) : Host.Outcome State Fault Refusal := .next (tryCompletion s cmd)

end Sys2Proof.Machine
end

