-- ==== Sys2Proof/Machine/VecArith.lean ====
section
/-! DEFINITION. What the vector arithmetic, compare, select, convert and mask instructions compute: OP 0x60 to 0x63 and
the lane-wise instructions of OP 0x70 (spec/06 R148, R155, R156, spec/16 R406 to R409, spec/17 R434, R440, spec/15 R372,
R374). An instruction reads a strand's registers as they stand before it; what it has written so far is carried along. -/

namespace Sys2Proof.Machine

/-- An instruction at work: the registers it reads, its entry, and the elements to do, from lo to hi − 1 below its
length. -/
structure Work where
  t : Strand
  e : QEntry
  len : Nat
  lo : Nat
  hi : Nat
  deriving DecidableEq, Repr

/-- The governed elements to do, in ascending order, each changing what has been written. -/
def eachGov (x : Work) (mk : BitVec 3) (mn : BitVec 1) (a : Part) (f : Part → Nat → Part) : Part :=
  (List.range' x.lo (x.hi - x.lo)).foldl
    (fun a k => if governs x.t mk mn x.e.underM7 k then f a k else a) a

/-- The generator of element k as the instruction finds it (R153). -/
def Part.gen (a : Part) (k : Nat) : Nat := a.rsr[k % 64].toNat

/-- Element k of width w written, with its flags; a stepping instruction steps its generator (R150, R153). -/
def Part.put (a : Part) (w k : Nat) (r : FRes) (steps : Bool) : Part :=
  { a with
    v := setElemAt a.v w k r.1, flags := a.flags ||| r.2
    rsr := if steps then a.rsr.set (k % 64) (rsrStep a.rsr[k % 64]) else a.rsr }

/-- The rounding mode of a vector instruction, DRM being taken at enqueue (R151). -/
def Work.mode (x : Work) (rm : BitVec 3) : Nat := roundMode rm x.e.drm

/-- An integer result: saturated, or wrapped to the width (R406). -/
def intResult (t : ElemType) (sat : Bool) (x : Int) : FRes := (if sat then satInt t x else ofInt t.width x, 0)

/-- The instructions of OP 0x60 (R406): on integers a number from three patterns, on floats a pattern with its flags. -/
def arith (o : VFmt) (steps : Bool) (fi : ElemType → Nat → Nat → Nat → Int)
    (ff : FloatFmt → Nat → Nat → Nat → Nat → Nat → FRes) (x : Work) (a : Part) : Part :=
  let et := ElemType.ofCode o.et
  let w := et.width
  eachGov x o.mk o.mn a (fun a k =>
    let p := elemAt (x.t.vreg o.va) w k
    let q := elemAt (x.t.vreg o.vb) w k
    let r := elemAt (x.t.vreg o.vc) w k
    if et.isFloat then a.put w k (ff (floatFmt et) (x.mode o.rm) (a.gen k) p q r) steps
    else a.put w k (intResult et (o.q.getLsbD 0) (fi et p q r)) false)

/-- No float form. -/
def noFloat (f : FloatFmt) (_ _ _ _ _ : Nat) : FRes := (f.canon, 0)

/-- No integer form. -/
def noInt (_ : ElemType) (_ _ _ : Nat) : Int := 0

/-- The smaller or larger of two integers of a type. -/
def intMinMax (wantMax : Bool) (t : ElemType) (a b : Nat) : Int :=
  if wantMax then max (intVal t a) (intVal t b) else min (intVal t a) (intVal t b)

/-- VDIV on integers: truncated; a zero divisor gives all ones (Table 16.2). -/
def intDiv (t : ElemType) (a b : Nat) : Int := if intVal t b = 0 then -1 else Int.tdiv (intVal t a) (intVal t b)

/-- A float with its sign bit cleared or flipped; a NaN becomes canonical (R408, R434). -/
def floatSign (clear : Bool) (f : FloatFmt) (a : Nat) : FRes :=
  match fdecode f a with
  | .nan s => (f.canon, if s then flagNV else 0)
  | _ =>
    let top := 2 ^ (f.e + f.m)
    (if a / top % 2 = 1 then a - top else if clear then a else a + top, 0)

/-- VCLAMP on floats: FMIN(FMAX(a, b), c) (R416). -/
def floatClamp (f : FloatFmt) (a b c : Nat) : FRes :=
  let x := fminmax f true a b
  let y := fminmax f false x.1 c
  (y.1, x.2 ||| y.2)

def runVadd (o : VFmt) : Work → Part → Part :=
  arith o true (fun t a b _ => intVal t a + intVal t b) (fun f m q a b _ => fadd f m q (fdecode f a) (fdecode f b))

def runVsub (o : VFmt) : Work → Part → Part :=
  arith o true (fun t a b _ => intVal t a - intVal t b) (fun f m q a b _ => fsub f m q (fdecode f a) (fdecode f b))

def runVmul (o : VFmt) : Work → Part → Part :=
  arith o true (fun t a b _ => intVal t a * intVal t b) (fun f m q a b _ => fmul f m q (fdecode f a) (fdecode f b))

def runVmulh (o : VFmt) : Work → Part → Part :=
  arith o false (fun t a b _ => intVal t a * intVal t b / (2 ^ t.width : Nat)) noFloat

def runVdiv (o : VFmt) : Work → Part → Part :=
  arith o true (fun t a b _ => intDiv t a b) (fun f m q a b _ => fdiv f m q (fdecode f a) (fdecode f b))

def runVmin (o : VFmt) : Work → Part → Part :=
  arith o false (fun t a b _ => intMinMax false t a b) (fun f _ _ a b _ => fminmax f false a b)

def runVmax (o : VFmt) : Work → Part → Part :=
  arith o false (fun t a b _ => intMinMax true t a b) (fun f _ _ a b _ => fminmax f true a b)

def runVabs (o : VFmt) : Work → Part → Part :=
  arith o false (fun t a _ _ => (intVal t a).natAbs) (fun f _ _ a _ _ => floatSign true f a)

def runVneg (o : VFmt) : Work → Part → Part :=
  arith o false (fun t a _ _ => -intVal t a) (fun f _ _ a _ _ => floatSign false f a)

def runVand (o : VFmt) : Work → Part → Part := arith o false (fun _ a b _ => (a &&& b : Nat)) noFloat

def runVor (o : VFmt) : Work → Part → Part := arith o false (fun _ a b _ => (a ||| b : Nat)) noFloat

def runVxor (o : VFmt) : Work → Part → Part := arith o false (fun _ a b _ => (a ^^^ b : Nat)) noFloat

def runVshl (o : VFmt) : Work → Part → Part :=
  arith o false (fun t a b _ => intVal t a * (2 ^ (b % t.width) : Nat)) noFloat

def runVshr (o : VFmt) : Work → Part → Part :=
  arith o false (fun t a b _ => (a / 2 ^ (b % t.width) : Nat)) noFloat

def runVsar (o : VFmt) : Work → Part → Part :=
  arith o false (fun t a b _ => toSigned t.width a / (2 ^ (b % t.width) : Nat)) noFloat

def runVclamp (o : VFmt) : Work → Part → Part :=
  arith o false (fun t a b c => min (max (intVal t a) (intVal t b)) (intVal t c)) (fun f _ _ a b c => floatClamp f a b c)

def runVfma (o : VFmt) : Work → Part → Part :=
  arith o true (fun t a b c => intVal t a * intVal t b + intVal t c)
    (fun f m q a b c => ffma f m q (fdecode f a) (fdecode f b) (fdecode f c))

def runVsqrt (o : VFmt) : Work → Part → Part := arith o true noInt (fun f m q a _ _ => fsqrt f m q (fdecode f a))

def runVrcp (o : VFmt) : Work → Part → Part := arith o true noInt (fun f m q a _ _ => frcp f m q (fdecode f a))

def runVrsq (o : VFmt) : Work → Part → Part := arith o true noInt (fun f m q a _ _ => frsq f m q (fdecode f a))

def runVexp2 (o : VFmt) : Work → Part → Part := arith o true noInt (fun f m q a _ _ => fexp2 f m q (fdecode f a))

def runVlog2 (o : VFmt) : Work → Part → Part := arith o true noInt (fun f m q a _ _ => flog2 f m q (fdecode f a))

def runVtanh (o : VFmt) : Work → Part → Part := arith o true noInt (fun f m q a _ _ => ftanh f m q (fdecode f a))

/-- The code of a condition (R340). -/
def Cond.number : Cond → Nat
  | .eq => 0 | .ne => 1 | .lt => 2 | .le => 3 | .gt => 4 | .ge => 5

/-- A condition on integers. -/
def intCompare (c : Cond) (a b : Int) : Bool :=
  match c with
  | .eq => decide (a = b) | .ne => decide (a ≠ b) | .lt => decide (a < b) | .le => decide (a ≤ b)
  | .gt => decide (b < a) | .ge => decide (b ≤ a)

/-- A mask bit written. -/
def Part.putBit (a : Part) (k : Nat) (b : Bool) (fl : Nat) : Part :=
  { a with m := setElemAt a.m 1 k b.toNat, flags := a.flags ||| fl }

/-- VCMP (R417): floats compare as FCMP, flags included. -/
def runVcmp (c : Cond) (o : VFmt) (x : Work) (a : Part) : Part :=
  let et := ElemType.ofCode o.et
  eachGov x o.mk o.mn a (fun a k =>
    let p := elemAt (x.t.vreg o.va) et.width k
    let q := elemAt (x.t.vreg o.vb) et.width k
    if et.isFloat then
      let r := fcompare (Cond.number c) (fdecode (floatFmt et) p) (fdecode (floatFmt et) q)
      a.putBit k r.1 r.2
    else a.putBit k (intCompare c (intVal et p) (intVal et q)) 0)

/-- VSEL (R440): patterns copied unchanged. -/
def runVsel (o : VFmt) (x : Work) (a : Part) : Part :=
  let w := etw o.et
  eachGov x o.mk o.mn a (fun a k =>
    let src := if (x.t.mreg (o.q.setWidth 3)).getLsbD k then o.va else o.vb
    a.put w k (elemAt (x.t.vreg src) w k, 0) false)

/-- VCVT (R156): Q[3:0] is the source type, Q[4] SAT. -/
def runVcvt (o : VFmt) (x : Work) (a : Part) : Part :=
  let st := ElemType.ofCode (o.q.setWidth 4)
  let dt := ElemType.ofCode o.et
  eachGov x o.mk o.mn a (fun a k =>
    a.put dt.width k (convert st dt (elemAt (x.t.vreg o.va) st.width k) (x.mode o.rm) (a.gen k) (o.q.getLsbD 4)) true)

/-- A mask instruction that writes governed bits (R372). -/
def maskBits (o : VFmt) (f : Bool → Bool → Bool) (x : Work) (a : Part) : Part :=
  eachGov x o.mk o.mn a (fun a k =>
    a.putBit k (f ((x.t.mreg (mInV o.va)).getLsbD k) ((x.t.mreg (mInV o.vb)).getLsbD k)) 0)

def runMkand (o : VFmt) : Work → Part → Part := maskBits o (fun a b => a && b)

def runMkor (o : VFmt) : Work → Part → Part := maskBits o (fun a b => a || b)

def runMkxor (o : VFmt) : Work → Part → Part := maskBits o (fun a b => a != b)

def runMknot (o : VFmt) : Work → Part → Part := maskBits o (fun a _ => !a)

/-- MKSET (R374): governed bits become Q[0]. -/
def runMkset (o : VFmt) : Work → Part → Part := maskBits o (fun _ _ => o.q.getLsbD 0)

end Sys2Proof.Machine
end

