-- ==== Sys2Proof/Machine/VecPermute.lean ====
section
/-! DEFINITION. What the permute, reduce and mask-count instructions compute: OP 0x68, MKPOPC, MKFIRST and MKTEST
(spec/06 R168, spec/15 R373, spec/16 R414 to R427, spec/17 R435 to R444). Every element is read as it stood before. -/

namespace Sys2Proof.Machine

/-- The governed elements below the length, in ascending order. -/
def govList (x : Work) (mk : BitVec 3) (mn : BitVec 1) : List Nat :=
  (List.range x.len).filter (fun k => governs x.t mk mn x.e.underM7 k)

/-- Each governed element to do receives what f gives, or keeps its value. -/
def permute (o : VFmt) (f : Nat → Option Nat) (x : Work) (a : Part) : Part :=
  eachGov x o.mk o.mn a (fun a k =>
    match f k with
    | some p => a.put (etw o.et) k (p, 0) false
    | none => a)

/-- Whether a result element is one to do. -/
def Work.does (x : Work) (k : Nat) : Bool := decide (x.lo ≤ k) && decide (k < x.hi)

/-- The step of a reduction with its flags: r combined with x (R438). -/
def reduceStep (et : ElemType) (op mode q r x : Nat) : FRes :=
  let f := floatFmt et
  if et.isFloat then
    match op with
    | 0 => fadd f mode q (fdecode f r) (fdecode f x)
    | 1 => fminmax f false r x
    | _ => fminmax f true r x
  else
    match op with
    | 0 => (ofInt et.width (intVal et r + intVal et x), 0)
    | 1 => (ofInt et.width (intMinMax false et r x), 0)
    | _ => (ofInt et.width (intMinMax true et r x), 0)

/-- The value of a reduction over no element (R438). -/
def reduceIdentity (et : ElemType) (op : Nat) : Nat :=
  match op with
  | 0 => 0
  | 1 => if et.isFloat then infinity (floatFmt et) false else ofInt et.width (intMax et)
  | _ => if et.isFloat then infinity (floatFmt et) true else ofInt et.width (intMin et)

/-- The first element of a reduction: a NaN becomes canonical (R438, R146). -/
def reduceFirst (et : ElemType) (x : Nat) : FRes :=
  if et.isFloat then
    match fdecode (floatFmt et) x with
    | .nan s => ((floatFmt et).canon, if s then flagNV else 0)
    | _ => (x, 0)
  else (x, 0)

/-- The running reduction over the governed elements; with scan each partial result is written (R438, R439). -/
def reduceAll (o : VFmt) (scan : Bool) (x : Work) (a : Part) : Option Nat × Part :=
  let et := ElemType.ofCode o.et
  let op := bits o.q.toNat 1 0
  let steps := et.isFloat && op == 0
  (govList x o.mk o.mn).foldl (fun (acc : Option Nat × Part) k =>
    let p := elemAt (x.t.vreg o.va) et.width k
    let r := match acc.1 with
      | none => reduceFirst et p
      | some r => reduceStep et op (x.mode o.rm) (acc.2.gen k) r p
    let b : Part := { acc.2 with
      flags := acc.2.flags ||| r.2
      rsr := if steps then acc.2.rsr.set (k % 64) (rsrStep acc.2.rsr[k % 64]) else acc.2.rsr }
    (some r.1, if scan then { b with v := setElemAt b.v et.width k r.1 } else b)) (none, a)

/-- A pattern in a general register: sign-extended for I types, zero-extended for the others (R423, R438). -/
def elemWord (et : ElemType) (x : Nat) : Word :=
  if et.isSigned then word (toSigned et.width x) else BitVec.ofNat 64 x

/-- VRED (R438). -/
def runVred (o : VFmt) (x : Work) (a : Part) : Part :=
  let et := ElemType.ofCode o.et
  let r := reduceAll o false x a
  let v := r.1.getD (reduceIdentity et (bits o.q.toNat 1 0))
  if o.q.getLsbD 2 then { r.2 with gd := some (elemWord et v) }
  else if x.len = 0 then a
  else { r.2 with v := setElemAt r.2.v et.width 0 v }

/-- VSCAN (R439). -/
def runVscan (o : VFmt) (x : Work) (a : Part) : Part := (reduceAll o true x a).2

/-- VCOMP (R418): the governed source elements packed together. -/
def runVcomp (o : VFmt) (x : Work) (a : Part) : Part :=
  ((govList x o.mk o.mn).zipIdx.filter (fun k => x.does k.2)).foldl (fun a k =>
    a.put (etw o.et) k.2 (elemAt (x.t.vreg o.va) (etw o.et) k.1, 0) false) a

/-- VEXPD (R422): consecutive source elements spread to the governed places. -/
def runVexpd (o : VFmt) (x : Work) (a : Part) : Part :=
  ((govList x o.mk o.mn).zipIdx.filter (fun k => x.does k.1)).foldl (fun a k =>
    a.put (etw o.et) k.1 (elemAt (x.t.vreg o.va) (etw o.et) k.2, 0) false) a

/-- VSLIDE (R441): up in Q[0] = 0, down in Q[0] = 1, by the distance in gx. -/
def runVslide (o : VFmt) (x : Work) : Part → Part :=
  let d := (x.e.arg (gInV o.vc)).toNat
  permute o (fun k =>
    let src := x.t.vreg o.va
    if o.q.getLsbD 0 then (if k + d < x.len then some (elemAt src (etw o.et) (k + d)) else none)
    else if d ≤ k then some (elemAt src (etw o.et) (k - d)) else none) x

/-- VPERM (R435): indices are read as N32; one at or beyond the length gives zero. -/
def runVperm (o : VFmt) (x : Work) : Part → Part :=
  permute o (fun k =>
    let i := elemAt (x.t.vreg o.vb) 32 k
    some (if i < x.len then elemAt (x.t.vreg o.va) (etw o.et) i else 0)) x

/-- VHAD (R168): one butterfly stage of distance d. -/
def runVhad (o : VFmt) (x : Work) (a : Part) : Part :=
  let et := ElemType.ofCode o.et
  let w := et.width
  let d := 2 ^ (o.q.toNat % 16)
  let f := floatFmt et
  let src := x.t.vreg o.va
  eachGov x o.mk o.mn a (fun a k =>
    let low := k / d % 2 == 0
    let p := elemAt src w (if low then k else k - d)
    let q := elemAt src w (if low then k + d else k)
    if et.isFloat then
      let r := if low then fadd f (x.mode o.rm) (a.gen k) (fdecode f p) (fdecode f q)
        else fsub f (x.mode o.rm) (a.gen k) (fdecode f p) (fdecode f q)
      a.put w k r true
    else a.put w k (ofInt w (if low then intVal et p + intVal et q else intVal et p - intVal et q), 0) false)

/-- VBCAST (R415). -/
def runVbcast (o : VFmt) (x : Work) : Part → Part :=
  permute o (fun _ => some ((x.e.arg (gInV o.vc)).toNat % 2 ^ etw o.et)) x

/-- VINDEX (R426). -/
def runVindex (o : VFmt) (x : Work) : Part → Part := permute o (fun k => some (k % 2 ^ etw o.et)) x

/-- VEXT (R423): zero for an element that is not governed or lies at or beyond the length. -/
def runVext (o : VFmt) (x : Work) (a : Part) : Part :=
  let et := ElemType.ofCode o.et
  let i := (x.e.arg (gInV o.vc)).toNat
  let there := decide (i < x.len) && governs x.t o.mk o.mn x.e.underM7 i
  { a with gd := some (if there then elemWord et (elemAt (x.t.vreg o.va) et.width i) else 0) }

/-- VINS (R427). -/
def runVins (o : VFmt) (x : Work) : Part → Part :=
  permute o (fun k =>
    if k = (x.e.arg (gInV o.vb)).toNat then some ((x.e.arg (gInV o.vc)).toNat % 2 ^ etw o.et) else none) x

/-- VZIP (R444): halves interleaved, the high ones with HI. -/
def runVzip (o : VFmt) (x : Work) : Part → Part :=
  let w := etw o.et
  let off := if o.q.getLsbD 0 then x.len / 2 else 0
  permute o (fun k => some (elemAt (x.t.vreg (if k % 2 = 0 then o.va else o.vb)) w (off + k / 2))) x

/-- VUNZIP (R444): even elements of both registers, odd ones with ODD. -/
def runVunzip (o : VFmt) (x : Work) : Part → Part :=
  let w := etw o.et
  let u := (o.q.getLsbD 0).toNat
  let h := x.len / 2
  permute o (fun k => some (if k < h then elemAt (x.t.vreg o.va) w (2 * k + u)
    else elemAt (x.t.vreg o.vb) w (2 * (k - h) + u))) x

/-- The governed set bits of ma. -/
def setBits (o : VFmt) (x : Work) : List Nat :=
  (govList x o.mk o.mn).filter (fun k => (x.t.mreg (mInV o.va)).getLsbD k)

/-- MKPOPC (R373). -/
def runMkpopc (o : VFmt) (x : Work) (a : Part) : Part :=
  { a with gd := some (BitVec.ofNat 64 (setBits o x).length) }

/-- MKFIRST (R373): all ones when there is none. -/
def runMkfirst (o : VFmt) (x : Work) (a : Part) : Part :=
  { a with gd := some (match (setBits o x).head? with
      | some k => BitVec.ofNat 64 k
      | none => BitVec.allOnes 64) }

/-- MKTEST (R373). -/
def runMktest (o : VFmt) (x : Work) (a : Part) : Part :=
  { a with gd := some (if (setBits o x).isEmpty then 0 else 1) }

end Sys2Proof.Machine
end

