-- ==== Sys2Proof/Machine/VecMem.lean ====
section
/-! DEFINITION. Streams and the vector memory instructions: addresses, checks, element-precise faults, loads, stores,
gathers, scatters, atomics, full-empty loads and prefetches (spec/04 R111 to R116, spec/06 R165 to R167, spec/16 R410 to
R432, spec/17 R436, R442, R443). -/

namespace Sys2Proof.Machine

/-! Addresses (R112, R282). -/

/-- Bytes that an element of width w is accessed by. -/
def elemBytes (w : Nat) : Nat := max (w / 8) 1

/-- ga + (Index(e) << SH) mod 2^64 (R282). -/
def indexAddr (t : Strand) (e : QEntry) (o : VMFmt) (k : Nat) : Nat :=
  let i := elemAt (t.vreg o.vi) (indexWidth o.q) k
  let n : Int := match bits o.q.toNat 1 0 with
    | 0 => (i : Nat)
    | 1 => toSigned 32 i
    | _ => toSigned 64 i
  ofInt 64 ((e.arg o.ga).toNat + n * (2 ^ bits o.q.toNat 4 2 : Nat))

/-! Where a vector access goes. -/

/-- How a vector agent reaches memory: its strand's hive and share, the core's TLB for gathers, a stream's lookahead
for streams (R114). -/
structure VAgent where
  who : Who
  tlb : Bool
  look : List TlbEntry

/-- Where an access of the vector agent goes, or why it does not go through. -/
def locateV (s : State) (g : VAgent) (va : Nat) (k : AccessKind) : Except Reason (Place × State) :=
  let h := s.hive g.who.hive
  match g.look.find? (fun e => e.covers h.id h.gen va) with
  | some e => (placeOf s g.who k va e).map (fun p => (p, s))
  | none => locate s { g.who with l1 := g.tlb } va k

/-- The leaf that a local address meets, for the checks made before any element. -/
def leafAt (s : State) (g : VAgent) (va : Nat) : Option TlbEntry :=
  if bits va 63 52 ≠ 0 then none
  else match walk s (s.hive g.who.hive) va with
    | .leaf e => some e
    | .fail _ => none

/-- The address errors that no leaf of the address space permits, raised as PROTECTION before any element: bits [63:57] (R91),
the window beyond the share (R93), a peer value without a port or with its link down (R92, R304), a sealed byte read (R246), a
table page written (R77), the shadow part of a pool reached by another hive or written (R76, R410, R442). -/
def addressError (s : State) (g : VAgent) (k : AccessKind) (va : Nat) : Bool :=
  if bits va 63 57 ≠ 0 then true
  else if bits va 56 52 = 31 then
    match g.who.share with
    | some x => !decide (va % 2 ^ 52 < scratchLen (s.core x.core) x)
    | none => true
  else if bits va 56 52 ≠ 0 then (s.peerPath g.who.hive va).isNone
  else
    match leafAt s g va with
    | some e =>
      let pa := e.pbase + (va - e.vbase)
      (k != .write && s.sealed pa) || (k != .read && e.tw) ||
        (match s.shadowAt pa with
         | some (h, _) => k != .read || h.parent != g.who.hive
         | none => false)
    | none => false

/-- ALIGN with the first misaligned address, else PROTECTION with the lowest address in error (R98, R410). -/
def addressCheck (s : State) (g : VAgent) (k : AccessKind) (n : Nat) (vas : List Nat) : Except Trap Unit :=
  match vas.find? (fun va => va % n != 0) with
  | some va => .error (Trap.at .align (BitVec.ofNat 64 va))
  | none =>
    match (vas.filter (addressError s g k)).min? with
    | some va => .error (accessTrap (BitVec.ofNat 64 va) k .notPermitted)
    | none => .ok ()

/-! Element-precise faults (R115). -/

/-- An element that was not performed: its index, its address, and why. -/
structure Missed where
  e : Nat
  va : Nat
  why : Reason
  deriving DecidableEq, Repr

/-- The trap of a batch of missed elements (Table 4.9). -/
def batchTrap (k : AccessKind) (l : List Missed) : Trap :=
  let pages := (l.map (fun x => x.va / 65536)).eraseDups
  let low := (pages.min?).getD 0
  let near := pages.filter (fun p => decide (p < low + 16))
  let map := near.foldl (fun m p => m + 2 ^ (p - low)) 0
  let why := ((l.find? (fun x => x.va / 65536 == low)).map (fun x => x.why)).getD .notPresent
  let info := near.length % 32 + (decide (near.length < pages.length)).toNat * 32 + k.code * 64 + why.code * 256 + map * 65536
  let cause := if l.any (fun x => x.why == .revoked) then Cause.revoked else .vpageFault
  ⟨cause, BitVec.ofNat 64 (low * 65536), BitVec.ofNat 64 info, 0⟩

/-- m7 after a vector fault: the governed elements not performed, and no other bit. -/
def missedMask (l : List Missed) : MReg := l.foldl (fun m x => setElemAt m 1 x.e 1) 0

/-- What a memory instruction has come to. -/
structure MemOut where
  s : State
  a : Part
  missed : List Missed

/-- What running an instruction comes to: it must wait, it stays where it is with something begun, it traps (with
whether it reissues under m7), or it completes. -/
inductive Ran where
  | wait
  | hold (s : State)
  | trap (t : Trap) (underM7 : Bool) (s : State) (a : Part)
  | ok (s : State) (a : Part)

/-- A memory instruction that missed elements sets m7 and traps; else it goes on. -/
def MemOut.result (x : MemOut) (k : Nat) (kind : AccessKind) : Ran :=
  if x.missed.isEmpty then .ok x.s x.a
  else .trap (batchTrap kind x.missed) true
    (x.s.modStrand k (fun t => t.setMreg 7 (missedMask x.missed))) x.a

/-- The governed elements to do, each performed or missed (R115 step 1). -/
def memEach (x : Work) (mk : BitVec 3) (mn : BitVec 1) (out : MemOut) (addr : Nat → Nat)
    (f : MemOut → Nat → Except Reason MemOut) : MemOut :=
  (List.range' x.lo (x.hi - x.lo)).foldl (fun out k =>
    if governs x.t mk mn x.e.underM7 k then
      match f out k with
      | .ok out => out
      | .error r => { out with missed := out.missed ++ [⟨k, addr k, r⟩] }
    else out) out

/-- The addresses of the governed elements from the first to do up to the length: they are checked before any of them is
performed (R98, R410). -/
def govAddrs (x : Work) (mk : BitVec 3) (mn : BitVec 1) (addr : Nat → Nat) : List Nat :=
  ((List.range' x.lo (x.len - x.lo)).filter (fun k => governs x.t mk mn x.e.underM7 k)).map addr

/-! Stream checks (R112, R410). -/

def streamFault (sx : BitVec 4) (val : Word) : Trap := ⟨.streamFault, val, sx.setWidth 64, 0⟩

/-- The stream of a memory instruction is bound, has the elements, the direction and the type asked for; at length 0, which
has only the effect of R46, nothing is checked.
DEDUCED, unsafe: notes/assumptions/64. -/
def streamCheck (t : Strand) (sx et : BitVec 4) (len : Nat) (wrong : Stream → Bool) : Except Trap Unit :=
  let x := t.stream sx
  need (len == 0 || x.bound && decide (x.pos.toNat + len ≤ x.total) && !wrong x && x.et == et) (streamFault sx x.pos)

/-- A stream's agent on behalf of strand k: no TLB, its lookahead. -/
def streamAgent (t : Strand) (sx : BitVec 4) : VAgent := ⟨⟨t.hive, t.share, true⟩, false, (t.stream sx).look⟩

/-- The agent of gathers, scatters and VAMO. -/
def gatherAgent (t : Strand) : VAgent := ⟨⟨t.hive, t.share, true⟩, true, []⟩

/-- Address of the element that element k of an instruction takes from its stream. -/
def takenAddr (t : Strand) (sx : BitVec 4) (w k : Nat) : Nat × Nat :=
  streamAddr (t.stream sx) w ((t.stream sx).pos.toNat + k)

/-! One element read or written. -/

/-- A load element: plain through the L1, or at the coherence point. -/
def loadElem (g : VAgent) (w : Nat) (coh : Bool) (at_ : Nat × Nat) (out : MemOut) (k : Nat) : Except Reason MemOut :=
  (locateV out.s g at_.1 .read).map (fun p =>
    let r := readPlace p.2 g.who p.1 (elemBytes w) coh
    { out with s := r.2, a := out.a.put w k (r.1 / 2 ^ at_.2 % 2 ^ w, 0) false })

/-- A store element; one narrower than a byte is a read-modify-write at the coherence point (R119). -/
def storeElem (g : VAgent) (w x : Nat) (through : Bool) (at_ : Nat × Nat) (out : MemOut) : Except Reason MemOut :=
  match locateV out.s g at_.1 .write with
  | .error r => .error r
  | .ok (.shadow _ _ _ _, _) => .error .notPermitted
  | .ok (p, s) =>
    if w < 8 then
      .ok { out with s := (modifyPlace s g.who p 1 128 (fun old =>
        some (setElemAt (BitVec.ofNat 8 old) w (at_.2 / w) x).toNat)).2 }
    else .ok { out with s := writePlace s g.who p (w / 8) x through }

/-- Whether an ORD carries an acquire or a release (Table 5.2). -/
def acquires (ord : BitVec 3) : Bool := ord.getLsbD 0

def releases (ord : BitVec 3) : Bool := ord.getLsbD 1

/-- The release before element 0; at length 0 an instruction changes nothing (R46). -/
def beforeFirst (s : State) (g : VAgent) (x : Work) (o : VMFmt) : State :=
  if releases o.ord && x.lo == 0 && x.len != 0 then releaseL1 s g.who o.scope.toNat else s

/-- The acquire after the last element. -/
def afterLast (out : MemOut) (g : VAgent) (x : Work) (o : VMFmt) : MemOut :=
  if acquires o.ord && x.hi == x.len && x.len != 0 && out.missed.isEmpty then
    { out with s := acquireL1 out.s g.who o.scope.toNat } else out

/-- Whether reads take place at the coherence point (R125). -/
def cohRead (o : VMFmt) : Bool := acquires o.ord && o.scope != 0

/-! Streams of coded FP8 (R165, R166). -/

/-- Bytes read one by one on behalf of a stream; the address that fails first, with its reason where it does not translate and
none where it is an address error. -/
def streamBytes (g : VAgent) (coh : Bool) : Nat → Nat → State → Except (Nat × Option Reason) (List Byte × State)
  | 0, _, s => .ok ([], s)
  | n + 1, va, s =>
    if addressError s g .read va then .error (va, none)
    else match locateV s g va .read with
    | .error r => .error (va, some r)
    | .ok (p, s) =>
      let b := readPlace s g.who p 1 coh
      match streamBytes g coh n (va + 1) b.2 with
      | .error e => .error e
      | .ok (bs, s) => .ok (BitVec.ofNat 8 b.1 :: bs, s)

/-- The address n blocks behind the block at an address, found by their headers. -/
def blockAddr (g : VAgent) (coh : Bool) : Nat → Nat → State → Except (Nat × Option Reason) (Nat × State)
  | 0, va, s => .ok (va, s)
  | n + 1, va, s =>
    match streamBytes g coh 2 va s with
    | .error e => .error e
    | .ok (bs, s) => blockAddr g coh n (va + blockSize (ofLeBytes bs)) s

/-- Elements of block i of a stream of COUNT0 elements. -/
def blockElems (x : Stream) (i : Nat) : Nat := min 32 (x.count 0 - 32 * i)

/-- What a load finds of one block: its elements, a failed check, or a byte that does not translate or is an address error. -/
inductive BlockRead where
  | elems (b : CodedBlock)
  | bad (check : Nat)
  | missed (va : Nat) (why : Option Reason)

/-- Where block i of a stream is looked for: behind the nearest known block before it, else from BASE on; how many blocks further, and
the address.
DESIGN CHOICE, unsafe: notes/assumptions/67. -/
def blockFrom (x : Stream) (known : List CodedBlock) (i : Nat) : Nat × Nat :=
  let near := known.foldl (fun (n : Nat × Nat) b => if n.1 ≤ b.num ∧ b.num < i then (b.num + 1, b.next) else n) (0, x.base)
  (i - near.1, near.2)

/-- Block i of a stream, read whole, checked and decoded; one that is known is not read again (R165, R166). -/
def readBlock (t : Strand) (sx : BitVec 4) (coh : Bool) (known : List CodedBlock) (i : Nat) (s : State) : BlockRead × State :=
  match known.find? (fun b => b.num == i) with
  | some b => (.elems b, s)
  | none =>
    let x := t.stream sx
    let g := streamAgent t sx
    let from_ := blockFrom x known i
    match blockAddr g coh from_.1 from_.2 s with
    | .error e => (.missed e.1 e.2, s)
    | .ok (va, s) =>
      match streamBytes g coh 2 va s with
      | .error e => (.missed e.1 e.2, s)
      | .ok (hdr, s) =>
        let size := blockSize (ofLeBytes hdr)
        match streamBytes g coh size va s with
        | .error e => (.missed e.1 e.2, s)
        | .ok (bs, s) =>
          let slot := t.table x.tslot
          match decodeBlock x.tslot.toNat slot.gen.toNat x.et.toNat (blockElems x i) slot.entries bs with
          | .ok l => (.elems ⟨i, l, va + size⟩, s)
          | .error c => (.bad c, s)

/-- The blocks that hold governed elements of an instruction from the first to do on, in order. -/
def wantedBlocks (x : Work) (o : VMFmt) : List Nat :=
  let p := (x.t.stream o.sx).pos.toNat
  (((List.range' x.lo (x.len - x.lo)).filter (fun k => governs x.t o.mk o.mn x.e.underM7 k)).map
    (fun k => (p + k) / 32)).eraseDups

/-- They are read in order, and each joins the known ones. -/
def readBlocks (x : Work) (o : VMFmt) (known : List CodedBlock) (s : State) : List (Nat × BlockRead) × List CodedBlock × State :=
  (wantedBlocks x o).foldl (fun acc i =>
    let r := readBlock x.t o.sx (cohRead o) acc.2.1 i acc.2.2
    let known := match r.1 with
      | .elems b => if acc.2.1.contains b then acc.2.1 else acc.2.1 ++ [b]
      | _ => acc.2.1
    (acc.1 ++ [(i, r.1)], known, r.2)) ([], known, s)

/-- The trap that stops a load from a CF8 stream before any element: the lowest address error, or the first block that fails a
check (R165, R410). -/
def codedFault (blocks : List (Nat × BlockRead)) : Option Trap :=
  match (blocks.filterMap (fun b => match b.2 with | .missed va none => some va | _ => none)).min? with
  | some va => some (protectionAt (BitVec.ofNat 64 va) .read)
  | none =>
    blocks.findSome? (fun b => match b.2 with
      | .bad c => some ⟨.integrity, BitVec.ofNat 64 b.1, BitVec.ofNat 64 c, 0⟩
      | _ => none)

/-- A load from a CF8 stream. An address error or a failed check leaves every element as it was; a block that does not translate
is missed whole (R115, R165). The block that the stream keeps and those that the load has read already are not read again (R166). -/
def runCoded (o : VMFmt) (s : State) (k : Nat) (x : Work) (a : Part) : Ran :=
  let p := (x.t.stream o.sx).pos.toNat
  let (blocks, known, s) := readBlocks x o ((x.t.stream o.sx).kept.toList ++ a.blocks.filter (fun b => some b != (x.t.stream o.sx).kept)) s
  match codedFault blocks with
  | some t => .trap t x.e.underM7 s { a with v := x.t.vreg o.vd }
  | none =>
    let out := memEach x o.mk o.mn ⟨s, { a with blocks := known }, []⟩ (fun _ => 0) (fun out e =>
      match blocks.find? (fun b => b.1 == (p + e) / 32) with
      | some (_, BlockRead.elems b) => .ok { out with a := out.a.put 8 e (b.elems.getD ((p + e) % 32) 0, 0) false }
      | some (_, BlockRead.missed va (some why)) => .ok { out with missed := out.missed ++ [⟨e, va, why⟩] }
      | _ => .ok out)
    (afterLast out (streamAgent x.t o.sx) x o).result k .read

/-- Whether a CF8 load must wait for an XZTAB that was issued before it entered the queue (R167). -/
def waitsForTable (s : State) (k : Nat) (t : Strand) (sx : BitVec 4) (e : QEntry) : Bool :=
  let x := t.stream sx
  x.bound && x.coding == 1 && s.cmds.any (fun c =>
    c.strand == k && c.kind == .ztab && bits (field c.desc.toNat 3 1) 1 0 == x.tslot.toNat && c.ending.isNone
      && decide (c.id < e.order))

/-! The instructions. -/

/-- VLD (R428). -/
def runVld (o : VMFmt) (s : State) (k : Nat) (x : Work) (a : Part) : Ran :=
  let w := etw o.et
  let g := streamAgent x.t o.sx
  let addr (e : Nat) := takenAddr x.t o.sx w e
  match streamCheck x.t o.sx o.et x.len Stream.isWrite with
  | .error t => .trap t x.e.underM7 s a
  | .ok _ =>
    if (x.t.stream o.sx).coding = 1 then
      if waitsForTable s k x.t o.sx x.e then .wait else runCoded o s k x a
    else
      match addressCheck s g .read (elemBytes w) (govAddrs x o.mk o.mn (fun e => (addr e).1)) with
      | .error t => .trap t x.e.underM7 s a
      | .ok _ =>
        let out := memEach x o.mk o.mn ⟨s, a, []⟩ (fun e => (addr e).1)
          (fun out e => loadElem g w (cohRead o) (addr e) out e)
        (afterLast out g x o).result k .read

/-- VST (R442). -/
def runVst (o : VMFmt) (s : State) (k : Nat) (x : Work) (a : Part) : Ran :=
  let w := etw o.et
  let g := streamAgent x.t o.sx
  let addr (e : Nat) := takenAddr x.t o.sx w e
  match streamCheck x.t o.sx o.et x.len (fun y => !y.isWrite) with
  | .error t => .trap t x.e.underM7 s a
  | .ok _ =>
    match addressCheck s g .write (elemBytes w) (govAddrs x o.mk o.mn (fun e => (addr e).1)) with
    | .error t => .trap t x.e.underM7 s a
    | .ok _ =>
      (memEach x o.mk o.mn ⟨beforeFirst s g x o, a, []⟩ (fun e => (addr e).1)
        (fun out e => storeElem g w (elemAt (x.t.vreg o.vd) w e) (releases o.ord && o.scope != 0) (addr e) out)).result k .write

/-- VLDX (R432). -/
def runVldx (o : VMFmt) (s : State) (k : Nat) (x : Work) (a : Part) : Ran :=
  let w := etw o.et
  let g := gatherAgent x.t
  let addr (e : Nat) := indexAddr x.t x.e o e
  match addressCheck s g .read (elemBytes w) (govAddrs x o.mk o.mn addr) with
  | .error t => .trap t x.e.underM7 s a
  | .ok _ =>
    let out := memEach x o.mk o.mn ⟨s, a, []⟩ addr (fun out e => loadElem g w (cohRead o) (addr e, 0) out e)
    (afterLast out g x o).result k .read

/-- VSTX (R443). -/
def runVstx (o : VMFmt) (s : State) (k : Nat) (x : Work) (a : Part) : Ran :=
  let w := etw o.et
  let g := gatherAgent x.t
  let addr (e : Nat) := indexAddr x.t x.e o e
  match addressCheck s g .write (elemBytes w) (govAddrs x o.mk o.mn addr) with
  | .error t => .trap t x.e.underM7 s a
  | .ok _ =>
    (memEach x o.mk o.mn ⟨beforeFirst s g x o, a, []⟩ addr
      (fun out e => storeElem g w (elemAt (x.t.vreg o.vd) w e) (releases o.ord && o.scope != 0) (addr e, 0) out)).result k .write

/-- The operation code of VAMO, as AMO's FN [3:0]. -/
def vamoOp (q : BitVec 9) : AmoOp :=
  match bits q.toNat 8 5 with
  | 0 => .add | 1 => .swap | 2 => .cas | 3 => .and | 4 => .or | 5 => .min | 6 => .max | 7 => .minu | _ => .maxu

/-- VAMO (R411, R412). -/
def runVamo (o : VMFmt) (s : State) (k : Nat) (x : Work) (a : Part) : Ran :=
  let w := etw o.et
  let g := gatherAgent x.t
  let addr (e : Nat) := indexAddr x.t x.e o e
  match addressCheck s g .amo (w / 8) (govAddrs x o.mk o.mn addr) with
  | .error t => .trap t x.e.underM7 s a
  | .ok _ =>
    let out := memEach x o.mk o.mn ⟨beforeFirst s g x o, a, []⟩ addr (fun out e =>
      (locateV out.s g (addr e) .amo).map (fun p =>
        let r := amoPlace p.2 g.who p.1 (vamoOp o.q) (w / 8) (elemAt (x.t.vreg o.vd) w e) 0
        { out with s := r.2, a := out.a.put w e (r.1, 0) false }))
    (afterLast out g x o).result k .amo

/-- The core and the scratchpad offset that a full-empty element lies at; none outside the share's window. -/
def granuleOf (s : State) (g : VAgent) (va : Nat) : Option (Nat × Nat) :=
  match g.who.share with
  | some x =>
    if bits va 63 57 = 0 ∧ bits va 56 52 = 31 ∧ va % 2 ^ 52 < scratchLen (s.core x.core) x then
      some (x.core, scratchBase (s.core x.core) x + va % 2 ^ 52)
    else none
  | none => none

/-- VLDFE (R430): waits until every granule it touches is full, then reads them all in one step. -/
def runVldfe (o : VMFmt) (s : State) (k : Nat) (x : Work) (a : Part) : Ran :=
  let w := etw o.et
  let g := streamAgent x.t o.sx
  let addr (e : Nat) := takenAddr x.t o.sx w e
  let vas := govAddrs x o.mk o.mn (fun e => (addr e).1)
  match streamCheck x.t o.sx o.et x.len (fun y => y.isWrite || y.coding != 0) with
  | .error t => .trap t x.e.underM7 s a
  | .ok _ =>
    match vas.find? (fun va => va % elemBytes w != 0), (vas.filter (fun va => (granuleOf s g va).isNone)).min? with
    | some va, _ => .trap (Trap.at .align (BitVec.ofNat 64 va)) x.e.underM7 s a
    | none, some va => .trap (accessTrap (BitVec.ofNat 64 va) .read .notPermitted) x.e.underM7 s a
    | none, none =>
      let places := vas.filterMap (granuleOf s g)
      if places.all (fun p => (s.core p.1).isFull (p.2 / 16)) then
        let out := memEach x o.mk o.mn ⟨s, a, []⟩ (fun e => (addr e).1) (fun out e => loadElem g w true (addr e) out e)
        let s := if o.q.getLsbD 0 then places.foldl (fun s p => setEmpty s p.1 (p.2 / 16)) out.s else out.s
        (afterLast { out with s := s } g x o).result k .read
      else .wait

/-- A line requested into the LLC and, unless its page is NL1, into the L1, where it translates and is permitted (R436). -/
def prefetch (g : VAgent) (k : AccessKind) (s : State) (line : Nat) : State :=
  match locateV s g (line * 128) k with
  | .ok (.mem pa e, s) =>
    match g.who.core with
    | some c => if e.nl1 then charge s g.who.hive pa 128 else (fetchLine s g.who.hive c (pa / 128)).2
    | none => s
  | _ => s

/-- The lines that so many bytes at some addresses lie in, each once. -/
def linesOf (n : Nat) (vas : List Nat) : List Nat :=
  (vas.flatMap (fun va => (List.range' (va / 128) ((va + n - 1) / 128 + 1 - va / 128)))).eraseDups

/-- The lines of the blocks of a CF8 stream that hold governed elements, as far as the headers can be read; this reads nothing on behalf
of the program.
DESIGN CHOICE, safe: notes/assumptions/67. -/
def codedLines (x : Work) (o : VMFmt) (s : State) : List Nat :=
  let st := x.t.stream o.sx
  let g := streamAgent x.t o.sx
  ((wantedBlocks x o).flatMap (fun i =>
    let from_ := blockFrom st st.kept.toList i
    match blockAddr g false from_.1 from_.2 s with
    | .error _ => []
    | .ok (va, _) =>
      match streamBytes g false 2 va s with
      | .error _ => linesOf 1 [va]
      | .ok (hdr, _) => linesOf (blockSize (ofLeBytes hdr)) [va])).eraseDups

/-- VPF (R436): requests lines, performs no access, traps only for its stream. -/
def runVpf (o : VMFmt) (s : State) (_k : Nat) (x : Work) (a : Part) : Ran :=
  let w := etw o.et
  let g := streamAgent x.t o.sx
  let st := x.t.stream o.sx
  match streamCheck x.t o.sx o.et x.len (fun _ => false) with
  | .error t => .trap t x.e.underM7 s a
  | .ok _ =>
    let data := if st.coding = 1 then codedLines x o s
      else linesOf (elemBytes w) (govAddrs x o.mk o.mn (fun e => (takenAddr x.t o.sx w e).1))
    let s := data.foldl (prefetch g (if st.isWrite then .write else .read)) s
    let scales := if st.coding = 2 then
        linesOf 1 (govAddrs x o.mk o.mn (fun e => (st.scaleBase + (st.pos.toNat + e) / 32) % 2 ^ 64)) else []
    .ok (scales.foldl (prefetch g .read) s) a

/-! The stream instructions (R113). -/

/-- A strand's stream with another position. -/
def Strand.setPos (t : Strand) (sx : BitVec 4) (p : Word) : Strand := t.setStream sx { t.stream sx with pos := p }

/-- SX of a stream instruction. -/
def sxOf (o : IFmt) : BitVec 4 := o.q.extractLsb' 0 4

/-- The first field of a binding record that SBIND rejects, by offset (R111); a product of counts that is too large is COUNT0's.
DESIGN CHOICE, unsafe: notes/assumptions/79. -/
def recordFault (r : Nat) : Option Nat :=
  let checks : List (Nat × Bool) :=
    [ (0x10, field r 0x10 4 != 0 && decide (field r 0x10 4 * field r 0x14 4 * field r 0x18 4 < 2 ^ 63))
    , (0x14, field r 0x14 4 != 0), (0x18, field r 0x18 4 != 0), (0x1C, field r 0x1C 4 == 0)
    , (0x30, field r 0x30 8 == 0 || bits (field r 0x38 1) 5 4 == 2)
    , (0x38, bits (field r 0x38 1) 7 6 == 0 && bits (field r 0x38 1) 5 4 != 3)
    , (0x39, bits (field r 0x39 1) 7 3 == 0), (0x3A, field r 0x3A 6 == 0) ]
  (checks.find? (fun c => !c.2)).map (fun c => c.1)

/-- The combinations that R111 permits. -/
def bindingOk (x : Stream) : Bool :=
  let f8 := x.et == 9 || x.et == 10
  (x.stride 0 == 0 || decide (8 ≤ etw x.et)) &&
  (x.coding != 1 || (f8 && !x.isWrite && x.stride 0 == 0 && x.count 1 == 1 && x.count 2 == 1)) &&
  (x.coding != 2 || f8 || x.et == 15 || x.et == 2 || x.et == 1) &&
  (x.tslot == 0 || x.coding == 1)

/-- A stream advanced by n elements, which keeps the last of some blocks that have been read (R112, R166). -/
def Strand.advance (t : Strand) (sx : BitVec 4) (n : Nat) (blocks : List CodedBlock) : Strand :=
  let x := t.stream sx
  t.setStream sx { x with pos := x.pos + BitVec.ofNat 64 n, kept := blocks.getLast?.or x.kept }

/-- A 64-byte record read by the vector agent as eight words (R383). -/
def recordV (s : State) (g : VAgent) (va : Nat) : Nat → Except Trap (Nat × State)
  | 0 => .ok (0, s)
  | k + 1 =>
    match recordV s g va k with
    | .error t => .error t
    | .ok (lo, s) =>
      let a := (va + 8 * k) % 2 ^ 64
      if addressError s g .read a then .error (accessTrap (BitVec.ofNat 64 a) .read .notPermitted)
      else match locateV s g a .read with
        | .error r => .error (batchTrap .read [⟨0, a, r⟩])
        | .ok (p, s) =>
          let x := readPlace s g.who p 8 false
          .ok (lo + x.1 * 2 ^ (64 * k), x.2)

/-- SBIND (R111, R383). -/
def runSbind (o : IFmt) (s : State) (k : Nat) (x : Work) (a : Part) : Ran :=
  let va := x.e.arg o.ga
  if va.toNat % 64 ≠ 0 then .trap (Trap.at .align va) false s a
  else match recordV s ⟨⟨x.t.hive, x.t.share, true⟩, false, []⟩ va.toNat 8 with
    | .error t => .trap t false s a
    | .ok (r, s) =>
      match recordFault r with
      | some off => .trap (Trap.at .illegalField (BitVec.ofNat 64 off)) false s a
      | none =>
        let st : Stream := ⟨true, BitVec.ofNat 512 r, 0, [], none⟩
        if bindingOk st then .ok (requestWalks (s.modStrand k (fun t => t.setStream (sxOf o) st)) k (sxOf o)) a
        else .trap (Trap.at .illegalCombo (encode (.sbind o))) false s a

/-- A stream moved to a position: a CF8 stream that goes back to its first element keeps no block (R166). -/
def Strand.movePos (t : Strand) (sx : BitVec 4) (p : Word) : Strand :=
  let x := t.stream sx
  t.setStream sx { x with pos := p, kept := if p = x.pos then x.kept else none }

/-- A position set, if it lies in [0, T] and, on a CF8 stream, the rule of R166 holds. -/
def movePos (sx : BitVec 4) (p : Int) (ok : Stream → Bool) (s : State) (k : Nat) (x : Work) (a : Part) : Ran :=
  let st := x.t.stream sx
  if st.bound && decide (0 ≤ p) && decide (p ≤ (st.total : Nat)) && (st.coding != 1 || ok st) then
    .ok (requestWalks (s.modStrand k (fun t => t.movePos sx (word p))) k sx) a
  else .trap (streamFault sx (word p)) false s a

/-- SSET (R390): on a CF8 stream only 0 or the present position. -/
def runSset (o : IFmt) (s : State) (k : Nat) (x : Work) (a : Part) : Ran :=
  let p := x.e.arg o.ga
  movePos (sxOf o) (p.toNat : Nat) (fun st => p == 0 || p == st.pos) s k x a

/-- SADV (R381): on a CF8 stream only by 0. -/
def runSadv (o : IFmt) (s : State) (k : Nat) (x : Work) (a : Part) : Ran :=
  let d : Int := (x.e.arg o.ga).toInt + o.imm.toInt
  movePos (sxOf o) (((x.t.stream (sxOf o)).pos.toNat : Nat) + d) (fun _ => decide (d = 0)) s k x a

/-- SGET (R386). -/
def runSget (o : IFmt) (s : State) (_k : Nat) (x : Work) (a : Part) : Ran :=
  let st := x.t.stream (sxOf o)
  if st.bound then .ok s { a with gd := some st.pos } else .trap (streamFault (sxOf o) 0) false s a

end Sys2Proof.Machine
end

