-- ==== Sys2Proof/Machine/Tile.lean ====
section
/-! DEFINITION. The tile instructions and TMODE (spec/06 R157 to R160, spec/07 R176 to R185, spec/16 R396 to R405). -/

namespace Sys2Proof.Machine

/-! Tiles of a share (R61, R176). -/

/-- Number of tiles of a share (Table 3.1). -/
def tileCount (x : ShareRef) : Nat := x.size / 4

/-- The physical tile that a share's tile ad is. -/
def physTile (x : ShareRef) (ad : BitVec 2) : Nat := x.lg / 4 + ad.toNat

/-- A tile of a core. -/
def Core.tile (c : Core) (n : Nat) : List TileRow := c.tiles.getD n Core.zeroTile

/-- Element (i, j) of a tile, 32 bits. -/
def tileElem (rows : List TileRow) (i j : Nat) : Nat := elemAt (rows.getD i 0) 32 j

def setTileElem (rows : List TileRow) (i j x : Nat) : List TileRow := modAt rows i (fun r => setElemAt r 32 j x)

/-- Rows and columns below M that mr and mc govern (R180). -/
def governedIdx (t : Strand) (m : BitVec 3) (M : Nat) : List Nat :=
  (List.range M).filter (fun k => m == 0 || (t.mreg m).getLsbD k)

/-- A tile of strand k's share changed. -/
def modTile (s : State) (k : Nat) (ad : BitVec 2) (f : List TileRow → List TileRow) : State :=
  let x := (s.strand k).shareD
  s.modCore x.core (fun c => { c with tiles := modAt c.tiles (physTile x ad) f })

/-- The tile that strand k names ad. -/
def myTile (s : State) (k : Nat) (ad : BitVec 2) : List TileRow :=
  (s.core (s.strand k).coreNo).tile (physTile (s.strand k).shareD ad)

/-! Exact sums of products (R157). -/

/-- An exact value that a group sum or a product can take. -/
inductive Exact where
  | nan (invalid : Bool)
  | inf (neg : Bool)
  | num (m : Int) (exp : Int)
  deriving DecidableEq, Repr

def FVal.exact : FVal → Exact
  | .nan s => .nan s
  | .inf s => .inf s
  | .fin s m e => .num (if s then -(m : Int) else m) e

def Exact.invalid : Exact → Bool
  | .nan b => b
  | _ => false

def Exact.mul (a b : Exact) : Exact :=
  match a, b with
  | .nan x, y => .nan (x || y.invalid)
  | x, .nan y => .nan (y || x.invalid)
  | .num m e, .num n d => .num (m * n) (e + d)
  | .inf s, .num n _ => if n = 0 then .nan true else .inf (s != decide (n < 0))
  | .num m _, .inf s => if m = 0 then .nan true else .inf (s != decide (m < 0))
  | .inf s, .inf t => .inf (s != t)

def Exact.add (a b : Exact) : Exact :=
  match a, b with
  | .nan x, y => .nan (x || y.invalid)
  | x, .nan y => .nan (y || x.invalid)
  | .inf s, .inf t => if s == t then .inf s else .nan true
  | .inf s, .num _ _ => .inf s
  | .num _ _, .inf s => .inf s
  | .num m e, .num n d =>
    let base := min e d
    .num (m * (2 ^ (e - base).toNat : Nat) + n * (2 ^ (d - base).toNat : Nat)) base

/-- The negative of a sum. An exact zero has no sign: a group sum of zero counts as +0, negated or not, so that an accumulator of
−0 becomes +0 under RNE.
DESIGN CHOICE, unsafe: notes/assumptions/68. -/
def Exact.negate : Exact → Exact
  | .nan b => .nan b
  | .inf s => .inf (!s)
  | .num m e => .num (-m) e

/-- A block scale E8M0: 2^(x − 127), 0xFF being NaN (R147). -/
def scaleVal (x : Nat) : Exact := if x = 255 then .nan false else .num 1 ((x : Int) - 127)

/-- acc + s rounded to F32 under RNE, with its flags. -/
def accumulate (acc : Nat) (s : Exact) : FRes :=
  let f := floatFmt .f32
  match s with
  | .nan b =>
    let v := fdecode f acc
    (f.canon, if b || v.isSig then flagNV else 0)
  | .inf n => fadd f 0 0 (fdecode f acc) (.inf n)
  | .num m e => fadd f 0 0 (fdecode f acc) (.fin (decide (m < 0)) m.natAbs e)

/-- An exact value rounded to F32 under RNE; a zero keeps the sign given. -/
def roundExact (zeroNeg : Bool) : Exact → FRes
  | .nan b => ((floatFmt .f32).canon, if b then flagNV else 0)
  | .inf s => (infinity (floatFmt .f32) s, 0)
  | .num m e => fround (floatFmt .f32) 0 0 false (if m = 0 then zeroNeg else decide (m < 0)) m.natAbs e false

/-! TOPA and TOPS (R157 to R160, R182). -/

/-- The group depth D (R157). -/
def groupDepth (w : Nat) : Nat := if w = 8 then 2 else if w = 4 then 4 else if w = 2 then 8 else 1

/-- What a tile instruction has done: rows, and the flags raised. -/
abbrev TileOut := List TileRow × Nat

/-- The sum of group g for row i and column j, its scales not yet applied. -/
def groupSum (val : ElemType → Nat → Exact) (a b : VReg) (ta tb : ElemType) (K M D g i j : Nat) : Exact :=
  (List.range D).foldl (fun s d =>
    let k := g * D + d
    if k < K then
      s.add ((val ta (elemAt a ta.width (k * M + i))).mul (val tb (elemAt b tb.width (k * M + j))))
    else s) (.num 0 0)

/-- The value of an element of an outer product. -/
def tileVal (t : ElemType) (x : Nat) : Exact :=
  if t.isFloat then FVal.exact (fdecode (floatFmt t) x) else .num (intVal t x) 0

/-- One element accumulated over its groups in ascending order (R157). -/
def accumulateElem (o : TFmt) (negate : Bool) (a b : VReg) (sa sb : Nat → Nat → Nat) (K M i j acc : Nat) : Nat × Nat :=
  let ta := ElemType.ofCode o.eta
  let tb := ElemType.ofCode o.etb
  let D := groupDepth ta.width
  (List.range (ceilDiv K D)).foldl (fun (r : Nat × Nat) g =>
    let s := groupSum tileVal a b ta tb K M D g i j
    let s := if negate then s.negate else s
    let blk := g * D / 32
    let s := if o.q.getLsbD 0 then s.mul (scaleVal (sa blk i)) else s
    let s := if o.q.getLsbD 1 then s.mul (scaleVal (sb blk j)) else s
    if ta.isFloat then
      let x := accumulate r.1 s
      (x.1, r.2 ||| x.2)
    else
      let n : Int := match s with
        | .num m _ => m
        | _ => 0
      let sum := intVal .i32 r.1 + n
      if o.q.getLsbD 2 then (satInt .i32 sum, if inRange .i32 sum then r.2 else r.2 ||| tsatFlag o.ad)
      else (ofInt 32 sum, r.2)) (acc, 0)

/-- A side's scale stream is bound and stands as R158 asks for. -/
def scaleOk (x : Stream) (n : Nat) : Bool :=
  x.bound && !x.isWrite && x.coding == 0 && x.et == 3 && x.count 0 == n && x.pos.toNat % max n 1 == 0
    && decide (x.pos.toNat + n ≤ x.total)

/-- The addresses of the n scales of a side; a side that is not enabled reads none. -/
def sideAddrs (t : Strand) (on : Bool) (sx : BitVec 4) (n : Nat) : List Nat :=
  if on then (List.range n).map (fun k => (takenAddr t sx 8 k).1) else []

/-- The scales of a side read through the vector agent, with those whose pages do not translate. -/
def readSide (t : Strand) (sx : BitVec 4) (vas : List Nat) (s : State) : List Nat × List Missed × State :=
  let g := streamAgent t sx
  vas.foldl (fun (acc : List Nat × List Missed × State) va =>
    match locateV acc.2.2 g va .read with
    | .error r => (acc.1, acc.2.1 ++ [⟨0, va, r⟩], acc.2.2)
    | .ok (p, s) =>
      let x := readPlace s g.who p 1 false
      (acc.1 ++ [x.1], acc.2.1, x.2)) ([], [], s)

/-- The SCALE_COUNT checks of both sides, made before any scale is read (R158). -/
def scaleCheck (o : TFmt) (t : Strand) (n : Nat) : Except Trap Unit := do
  let fault (sx : BitVec 4) : Trap := ⟨.scaleCount, sx.setWidth 64, BitVec.ofNat 64 n, 0⟩
  need (!o.q.getLsbD 0 || scaleOk (t.stream o.sa) n) (fault o.sa)
  need (!o.q.getLsbD 1 || scaleOk (t.stream o.sb) n) (fault o.sb)

/-- The enabled scale streams, one that both sides name only once. -/
def scaleSides (o : TFmt) : List (BitVec 4) :=
  ((if o.q.getLsbD 0 then [o.sa] else []) ++ (if o.q.getLsbD 1 then [o.sb] else [])).eraseDups

/-- The scales of side A and of side B. -/
abbrev Scales := List Nat × List Nat

/-- The elements that each enabled side takes: M × ceil(K / 32) (R158). -/
def scaleNeed (o : TFmt) (e : QEntry) : Nat := e.mvl * ceilDiv (e.arg o.gl).toNat 32

/-- What TOPA and TOPS do on reaching the matrix unit: the scale checks, and the scale reads of both sides, whose pages that fail make
one batch (R158, R398, Table 4.9). With K = 0 they do neither (R182). -/
def outerScales (o : TFmt) (s : State) (x : Work) : Except Trap (Scales × State) := do
  let n := scaleNeed o x.e
  if x.e.arg o.gl = 0 then return (([], []), s)
  scaleCheck o x.t n
  let va := sideAddrs x.t (o.q.getLsbD 0) o.sa n
  let vb := sideAddrs x.t (o.q.getLsbD 1) o.sb n
  addressCheck s (gatherAgent x.t) .read 1 (va ++ vb)
  let a := readSide x.t o.sa va s
  let b := readSide x.t o.sb vb a.2.2
  let missed := a.2.1 ++ b.2.1
  if missed.isEmpty then return ((a.1, b.1), b.2.2) else .error (batchTrap .read missed)

/-- What they do on leaving it: the governed elements accumulated, and the flags (R157, R182). Their scale streams advance with the
other streams of the queue. -/
def outerAccumulate (o : TFmt) (negate : Bool) (sc : Scales) (s : State) (k : Nat) (x : Work) (a : Part) : State × Part :=
  let K := (x.e.arg o.gl).toNat
  let M := x.e.mvl
  if K = 0 then (s, a)
  else
    let va := x.t.vreg o.va
    let vb := x.t.vreg o.vb
    let cols := governedIdx x.t o.mc M
    let out := (governedIdx x.t o.mr M).foldl (fun (r : TileOut) i =>
      cols.foldl (fun (r : TileOut) j =>
        let e := accumulateElem o negate va vb (fun b i => sc.1.getD (b * M + i) 0) (fun b j => sc.2.getD (b * M + j) 0)
          K M i j (tileElem r.1 i j)
        (setTileElem r.1 i j e.1, r.2 ||| e.2)) r) (myTile s k o.ad, 0)
    (modTile s k o.ad (fun _ => out.1), { a with flags := a.flags ||| out.2 })

/-- TOPA, or TOPS with every group sum negated, whole (R157, R182). -/
def outerProduct (o : TFmt) (negate : Bool) (s : State) (k : Nat) (x : Work) (a : Part) : Ran :=
  match outerScales o s x with
  | .error t => .trap t false s a
  | .ok (sc, s) =>
    let r := outerAccumulate o negate sc s k x a
    .ok r.1 r.2

def runTopa (o : TFmt) (s : State) (k : Nat) (x : Work) (a : Part) : Ran := outerProduct o false s k x a

def runTops (o : TFmt) (s : State) (k : Nat) (x : Work) (a : Part) : Ran := outerProduct o true s k x a

/-- TZERO (R183): governed elements become zero, and TSAT bit ad is cleared. -/
def runTzero (o : TFmt) (s : State) (k : Nat) (x : Work) (a : Part) : Ran :=
  let M := x.e.mvl
  let s := modTile s k o.ad (fun rows => (governedIdx x.t o.mr M).foldl (fun rows i =>
    (governedIdx x.t o.mc M).foldl (fun rows j => setTileElem rows i j 0) rows) rows)
  .ok (s.modStrand k (fun t => { t with fpctl := t.fpctl &&& ~~~(BitVec.ofNat 64 (tsatFlag o.ad)) })) a

/-- The positions of a TRD or TWR that are governed: (e, i, j) for e below the count (R184). -/
def tilePositions (o : TFmt) (x : Work) : List (Nat × Nat × Nat) :=
  let M := x.e.mvl
  let p0 := (x.e.arg o.gl).toNat
  let n := tileCountOf o x.e
  let rows := governedIdx x.t o.mr M
  let cols := governedIdx x.t o.mc M
  ((List.range n).map (fun e => (e, (p0 + e) / M, (p0 + e) % M))).filter (fun p =>
    rows.contains p.2.1 && cols.contains p.2.2)

/-- RM of TRD and TWR. -/
def tileMode (o : TFmt) (x : Work) : Nat := x.mode (o.q.setWidth 3)

/-- TRD (R184). -/
def runTrd (o : TFmt) (s : State) (k : Nat) (x : Work) (a : Part) : Ran :=
  let dt := ElemType.ofCode o.eta
  let tt := ElemType.ofCode o.etb
  let rows := myTile s k o.ad
  .ok s ((tilePositions o x).foldl (fun a p =>
    a.put dt.width p.1 (convert tt dt (tileElem rows p.2.1 p.2.2) (tileMode o x) (a.gen p.1) (o.q.getLsbD 3)) true) a)

/-- TWR (R184). -/
def runTwr (o : TFmt) (s : State) (k : Nat) (x : Work) (a : Part) : Ran :=
  let st := ElemType.ofCode o.eta
  let tt := ElemType.ofCode o.etb
  let out := (tilePositions o x).foldl (fun (r : List TileRow × Part) p =>
    let c := convert st tt (elemAt (x.t.vreg o.va) st.width p.1) (tileMode o x) (r.2.gen p.1) (o.q.getLsbD 3)
    (setTileElem r.1 p.2.1 p.2.2 c.1, { r.2 with
      flags := r.2.flags ||| c.2, rsr := r.2.rsr.set (p.1 % 64) (rsrStep r.2.rsr[p.1 % 64]) })) (myTile s k o.ad, a)
  .ok (modTile s k o.ad (fun _ => out.1)) out.2

/-- TSCL (R185): the exact product rounded once. -/
def runTscl (o : TFmt) (s : State) (k : Nat) (x : Work) (a : Part) : Ran :=
  let M := x.e.mvl
  let f := floatFmt .f32
  let out := (governedIdx x.t o.mr M).foldl (fun (r : TileOut) i =>
    (governedIdx x.t o.mc M).foldl (fun (r : TileOut) j =>
      let e := fdecode f (tileElem r.1 i j)
      let p := fdecode f (elemAt (x.t.vreg o.va) 32 i)
      let q := fdecode f (elemAt (x.t.vreg o.vb) 32 j)
      let z := FVal.exact e
      let z := if o.q.getLsbD 0 then z.mul (FVal.exact p) else z
      let z := if o.q.getLsbD 1 then z.mul (FVal.exact q) else z
      let neg := (e.neg != (o.q.getLsbD 0 && p.neg)) != (o.q.getLsbD 1 && q.neg)
      let y := roundExact neg z
      (setTileElem r.1 i j y.1, r.2 ||| y.2)) r) (myTile s k o.ad, 0)
  .ok (modTile s k o.ad (fun _ => out.1)) { a with flags := a.flags ||| out.2 }

/-- A tile instruction as it leaves the unit, its scales read before (R177, R186). -/
def leaveUnit (i : Instr) (sc : Scales) (s : State) (k : Nat) (x : Work) (a : Part) : State × Part :=
  let ran (r : Ran) : State × Part := match r with
    | .ok s a => (s, a)
    | _ => (s, a)
  match i with
  | .topa o => outerAccumulate o false sc s k x a
  | .tops o => outerAccumulate o true sc s k x a
  | .tzero o => ran (runTzero o s k x a)
  | .trd o => ran (runTrd o s k x a)
  | .twr o => ran (runTwr o s k x a)
  | .tscl o => ran (runTscl o s k x a)
  | _ => (s, a)

/-- What a tile instruction does on reaching the unit: the checks and reads of its scale streams. -/
def reachUnit (i : Instr) (s : State) (x : Work) : Except Trap (Scales × State) :=
  match i with
  | .topa o | .tops o => outerScales o s x
  | _ => .ok (([], []), s)

/-- TMODE at the queue head: gd receives the MVL that it captured (R178). -/
def runTmode (_o : IFmt) (s : State) (_k : Nat) (x : Work) (a : Part) : Ran :=
  .ok s { a with gd := some (BitVec.ofNat 64 x.e.mvl) }

end Sys2Proof.Machine
end

