-- ==== Sys2Proof/Machine/Checks.lean ====
section
/-! DEFINITION. The checks of a queued instruction, steps 3 to 6 of R274, in their order: made at enqueue, and for a value
that is pending then, at the queue head (spec/02 R44, R52, spec/05 R126, spec/06 R148, R157, R168, spec/07 R178 to R185,
spec/08 R204, spec/12 R274, R281 to R283, spec/16, spec/17). -/

namespace Sys2Proof.Machine

/-- An integer type. -/
def etInt (c : BitVec 4) : Bool := !etFloat c

/-- A float type that arithmetic accepts (R148). -/
def etArith (c : BitVec 4) : Bool := (ElemType.ofCode c).isArithFloat

/-- An integer or an arithmetic float type. -/
def etNumeric (c : BitVec 4) : Bool := etInt c || etArith c

/-- The type rules of TOPA and TOPS (R157). -/
def outerTypesOk (o : TFmt) : Bool :=
  let a := ElemType.ofCode o.eta
  let b := ElemType.ofCode o.etb
  let scaled (t : ElemType) : Bool := t == .f8e4 || t == .f8e5 || t == .f4
  a.width == b.width && a.isFloat == b.isFloat && (decide (a.width ≤ 16) || (a == .f32 && b == .f32)) &&
  !(a.isFloat && o.q.getLsbD 2) && (!o.q.getLsbD 0 || scaled a) && (!o.q.getLsbD 1 || scaled b)

/-- The type rules of TRD and TWR: F32 beside a float type, I32 beside an integer one (R184). -/
def moveTypesOk (o : TFmt) : Bool :=
  if etFloat o.eta then ElemType.ofCode o.etb == .f32 else ElemType.ofCode o.etb == .i32

/-- Whether the field values of an instruction go together: types, qualifiers, ORD and mask destinations. -/
def combosOk : Instr → Bool
  | .vadd o | .vsub o | .vmul o | .vabs o | .vneg o => etNumeric o.et && (!o.q.getLsbD 0 || etInt o.et)
  | .vdiv o | .vmin o | .vmax o | .vclamp o | .vfma o => etNumeric o.et && !o.q.getLsbD 0
  | .vmulh o | .vand o | .vor o | .vxor o | .vshr o | .vsar o => etInt o.et && !o.q.getLsbD 0
  | .vshl o => etInt o.et
  | .vsqrt o | .vrcp o | .vrsq o | .vexp2 o | .vlog2 o | .vtanh o => etArith o.et && !o.q.getLsbD 0
  | .vcmp _ o => etNumeric o.et && mInV o.vd != 0
  | .vred o | .vscan o | .vhad o => etNumeric o.et
  | .vindex o => etInt o.et
  | .vld o | .vldfe o => o.ord == 0 || o.ord == 1
  | .vldx o => (o.ord == 0 || o.ord == 1) && decide (8 ≤ etw o.et)
  | .vst o => o.ord == 0 || o.ord == 2
  | .vstx o => (o.ord == 0 || o.ord == 2) && decide (8 ≤ etw o.et)
  | .vamo o => bits o.q.toNat 8 5 != 2 && (o.et == 6 || o.et == 7 || o.et == 8)
  | .vpf o => o.ord == 0
  | .topa o | .tops o => outerTypesOk o
  | .trd o | .twr o => moveTypesOk o
  | _ => true

/-- An instruction of OP 0x90 to 0x96 (R178, R181). -/
def isTileOp : Instr → Bool
  | .tmode _ => true
  | i => (tileNamed i).isSome

/-- The fabric slot that an instruction needs to be bound (R204). -/
def slotNeeded : Instr → Option (BitVec 5)
  | .fx n _ => some n
  | .fcfg o | .fdrain o | .fstat o | .fctxLoad o | .fctxPin o | .fctxUnpin o | .fctxEvict o =>
    some (o.imm.extractLsb' 0 5)
  | _ => none

/-- The slot of an FBIND. -/
def slotBound : Instr → Option (BitVec 5)
  | .fbind o => some (o.imm.extractLsb' 0 5)
  | _ => none

/-- A check of a queued instruction: the captured registers and the MVL that it reads, whether it holds, and its trap. -/
structure Check where
  needs : List (BitVec 5)
  needsMvl : Bool
  ok : Bool
  trap : Trap
  deriving DecidableEq, Repr

/-- A check of the fields alone. -/
def Check.fields (ok : Bool) (t : Trap) : Check := ⟨[], false, ok, t⟩

/-- A value that TMODE accepts (R178). -/
def tmodeValue (x : Word) : Bool := x == 32 || x == 64 || x == 128

/-- The checks that read a captured value or the MVL. -/
def valueChecks (x : Shape) (i : Instr) (e : QEntry) : List Check :=
  let word := encode i
  let bad (v : Word) : Trap := Trap.at .illegalCombo v
  let length := match x.gl with
    | some gl => [⟨[gl], false, decide ((e.arg gl).toNat ≤ e.grant * 2048 / x.wide), bad (e.arg gl)⟩]
    | none => []
  length ++ match i with
  | .vhad o => [⟨[o.gl], false, decide ((e.arg o.gl).toNat % (2 * 2 ^ (o.q.toNat % 16)) = 0), bad word⟩]
  | .vzip o | .vunzip o => [⟨[o.gl], false, !(e.arg o.gl).getLsbD 0, bad (e.arg o.gl)⟩]
  | .tmode o =>
    let g := e.arg o.ga
    [⟨[o.ga], false, tmodeValue g, bad g⟩]
  | .topa o | .tops o =>
    let k := e.arg o.gl
    [⟨[o.gl], true, decide (k.toNat * e.mvl * etw o.eta ≤ e.grant * 2048), bad k⟩]
  | .trd o | .twr o => [⟨[o.gl], true, decide ((e.arg o.gl).toNat < e.mvl * e.mvl), bad (e.arg o.gl)⟩]
  | .tscl o => [⟨[], true, o.q.extractLsb' 0 2 == 0 || decide (32 * e.mvl ≤ e.grant * 2048), bad word⟩]
  | _ => []

/-- The checks of R274 from step 3 on, in their order. older are the entries before it in the queue. -/
def queueChecks (t : Strand) (older : List QEntry) (x : Shape) (i : Instr) (e : QEntry) : List Check :=
  let word := encode i
  let size := t.shareD.size
  let regs := x.vd.toList ++ x.vs
  let bound (n : BitVec 5) : Bool := (t.fslot n).bound || older.any (fun d =>
    match d.item with
    | .instr j => slotBound j == some n
    | .word _ => false)
  [ .fields (!isTileOp i || size != 2) (Trap.at .noTile word)
  , .fields (match tileNamed i with | some ad => decide (ad.toNat < size / 4) | none => true) (Trap.at .illegalCombo word)
  , .fields (combosOk i) (Trap.at .illegalCombo word) ]
  ++ valueChecks x i e ++
  [ .fields (regs.all (fun r => decide (r.toNat < t.budget))) (Trap.at .illegalCombo word)
  , match slotNeeded i with
    | some n => .fields (bound n) (Trap.at .fabricUnbound (n.setWidth 64))
    | none => .fields true (Trap.at .fabricUnbound 0) ]

/-- Whether an entry knows the value that it captured of a register. -/
def QEntry.knows (e : QEntry) (r : BitVec 5) : Bool := e.caps.all (fun c => c.reg != r || c.val.isSome)

/-- Whether a TMODE knows its operand and will not trap for it. -/
def QEntry.setsMvl (e : QEntry) : Bool :=
  match e.item with
  | .instr (.tmode o) => e.known && tmodeValue (e.arg o.ga)
  | _ => false

/-- Whether the MVL that later tile instructions capture is settled: no TMODE of the queue waits for its operand, or has one for
which it will trap. -/
def mvlSettled (q : List QEntry) : Bool :=
  q.all (fun e => match e.item with
    | .instr (.tmode _) => e.setsMvl
    | _ => true)

/-- The trap of the first check that fails, among those that can be made. -/
def firstTrap (t : Strand) (older : List QEntry) (i : Instr) (e : QEntry) : Option Trap :=
  match shapeOf i with
  | none => none
  | some x =>
    ((queueChecks t older x i e).find? (fun c =>
      c.needs.all e.knows && (!c.needsMvl || mvlSettled older) && !c.ok)).map (fun c => c.trap)

end Sys2Proof.Machine
end

