-- ==== Sys2Proof/Machine/Image.lean ====
section
/-! DEFINITION. A comb image: its header, node words and routes, what drives each port, and the loader checks (spec/08 R189
to R203, R213, Tables 8.1 to 8.6). -/

namespace Sys2Proof.Machine

/-! The header (R201, Table 8.5). -/

/-- Nodes of a shape: 4×4, 2×4, 1×4, 1×2 (R190). -/
def shapeNodes (shape : Nat) : Nat :=
  match shape with
  | 0 => 16 | 1 => 8 | 2 => 4 | _ => 2

/-- Columns of a shape. -/
def shapeCols (shape : Nat) : Nat := if shape = 3 then 2 else 4

def imageHeader : Nat := 64

/-- Bytes of an image: the header, and 80 bytes for each node. -/
def imageBytes (shape : Nat) : Nat := imageHeader + 80 * shapeNodes shape

/-- An image as the header h and the arrays a hold it. -/
def imageOf (h a : Nat) : Image :=
  let shape := bits (field h 6 1) 1 0
  let n := shapeNodes shape
  let words (off k : Nat) : List Word := (List.range k).map (fun j => BitVec.ofNat 64 (field a (off + 8 * j) 8))
  { shape := shape, unbal := bit (field h 6 1) 7, nin := field h 7 1, outet := BitVec.ofNat 4 (field h 8 1)
    outnode := bits (field h 9 1) 3 0, outnet := bits (field h 9 1) 5 4, recsz := field h 0xA 2
    nodemask := BitVec.ofNat 16 (field h 0xC 2), imgid := BitVec.ofNat 64 (field h 0x10 8)
    edges := (List.range 8).map (fun k => BitVec.ofNat 32 (field h (0x20 + 4 * k) 4))
    nodes := words 0 n, routes := words (8 * n) n, banks := words (16 * n) (8 * n) }

/-- Fields of an EDGE entry. -/
def edgeKind (e : BitVec 32) : Nat := bits e.toNat 1 0

def edgeIndex (e : BitVec 32) : Nat := bits e.toNat 5 2

def edgeNode (e : BitVec 32) : Nat := bits e.toNat 9 6

def edgeNet (e : BitVec 32) : Nat := bits e.toNat 11 10

def edgeEt (e : BitVec 32) : BitVec 4 := e.extractLsb' 12 4

/-- The INDEX values of the register inputs. -/
def Image.regIndices (m : Image) : List Nat := (m.edges.filter (fun e => edgeKind e == 1)).map edgeIndex

/-- The number of register inputs. -/
def Image.regCount (m : Image) : Nat := m.regIndices.length

/-- The check that an EDGE entry meets alone. -/
def edgeOk (e : BitVec 32) : Bool :=
  decide (e.toNat < 2 ^ 16) && (edgeKind e == 0 || (edgeKind e != 3 && (edgeNet e == 1 || edgeNet e == 2)
    && !(edgeKind e == 1 && decide (2 < edgeIndex e))))

/-- Check 1: the header offset of the first field that fails, on a share of size lane groups (R190, R201). -/
def headerFault (h size : Nat) (m : Image) : Option Nat :=
  let used := (m.edges.filter (fun e => edgeKind e != 0)).length
  let regs := m.regIndices
  let edgeAt (e : BitVec 32) : Bool :=
    edgeOk e && (edgeKind e != 1 || (decide (edgeIndex e < regs.length) && regs.count (edgeIndex e) == 1))
  let checks : List (Nat × Bool) :=
    [ (0x00, field h 0 4 == 0x434D4231), (0x04, field h 4 2 == 1)
    , (0x06, bits (field h 6 1) 6 2 == 0 && decide (shapeNodes m.shape ≤ size))
    , (0x07, decide (1 ≤ m.nin) && m.nin == used)
    , (0x08, decide (field h 8 1 < 16))
    , (0x09, decide (field h 9 1 < 64) && (m.outnet == 1 || m.outnet == 2))
    , (0x0C, decide (field h 0xC 4 < 2 ^ shapeNodes m.shape))
    , (0x18, field h 0x18 8 == 0) ]
    ++ m.edges.zipIdx.map (fun e => (0x20 + 4 * e.2, edgeAt e.1))
  (checks.find? (fun c => !c.2)).map (fun c => c.1)

/-! The node word (R193, Table 8.2). -/

/-- The networks (Table 8.2). -/
def netScalar : Nat := 1

def netVector : Nat := 2

def netControl : Nat := 3

/-- A node word's fields. -/
structure NodeCfg where
  op : Nat
  et : BitVec 4
  rm : BitVec 3
  /-- NET and SRC of p0 to p3. -/
  ports : List (Nat × Nat)
  /-- OPA, OPB and OPC. -/
  opds : List Nat
  onet : Nat
  sec : Bool
  red : Bool
  win : Nat
  imm : Nat
  deriving DecidableEq, Repr

def nodeCfg (w : Word) : NodeCfg :=
  let n := w.toNat
  { op := bits n 4 0, et := BitVec.ofNat 4 (bits n 8 5), rm := BitVec.ofNat 3 (bits n 11 9)
    ports := (List.range 4).map (fun p => (bits n (13 + 5 * p) (12 + 5 * p), bits n (16 + 5 * p) (14 + 5 * p)))
    opds := [bits n 35 32, bits n 39 36, bits n 43 40], onet := bits n 45 44, sec := bit n 46, red := bit n 47
    win := bits n 51 48, imm := bits n 63 52 }

def NodeCfg.net (c : NodeCfg) (p : Nat) : Nat := (c.ports.getD p (0, 0)).1

def NodeCfg.src (c : NodeCfg) (p : Nat) : Nat := (c.ports.getD p (0, 0)).2

def NodeCfg.opd (c : NodeCfg) (k : Nat) : Nat := c.opds.getD k 0

/-- Node n of an image. -/
def Image.cfg (m : Image) (n : Nat) : NodeCfg := nodeCfg (m.nodes.getD n 0)

/-- Whether node n is in use. -/
def Image.uses (m : Image) (n : Nat) : Bool := m.nodemask.getLsbD n

/-- The nodes in use, in ascending order. -/
def Image.used (m : Image) : List Nat := (List.range (shapeNodes m.shape)).filter m.uses

/-- How many of the operands A, B and C an operation selects (Table 8.4); a window folds p0 alone (R196). -/
def NodeCfg.arity (c : NodeCfg) : Nat :=
  if c.win ≠ 0 then 0
  else match c.op with
    | 0 | 1 | 15 | 16 | 20 => 1
    | 2 | 3 | 4 | 6 | 7 | 8 | 9 | 10 | 11 | 12 | 13 | 14 | 18 | 21 => 2
    | 5 | 22 => 3
    | _ => 0

/-- The operand fields that the operation selects. -/
def NodeCfg.args (c : NodeCfg) : List Nat := c.opds.take c.arity

/-- The control port. -/
def NodeCfg.control (c : NodeCfg) : Option Nat := (List.range 4).find? (fun p => c.net p == netControl)

/-- Operations that use the control input (Table 8.4). -/
def NodeCfg.usesControl (c : NodeCfg) : Bool := c.op == 14 || c.op == 15 || c.op == 16 || c.op == 17

/-- Operations that read p0 whatever their operands (R192). -/
def NodeCfg.readsP0 (c : NodeCfg) : Bool :=
  c.win != 0 || c.args.contains 13 || c.op == 1 || c.op == 18 || c.op == 19 || c.op == 20 || c.op == 23

/-- The reducer's port of a REDUCE or SCAN node. -/
def NodeCfg.redPort (c : NodeCfg) : Option Nat := (List.range 4).find? (fun p => c.net p == netScalar && c.src p == 7)

/-- REDUCE and SCAN. -/
def NodeCfg.reduces (c : NodeCfg) : Bool := c.op == 24 || c.op == 25

/-- Data ports that a node reads (R192); MERGE's are p0 and p1. -/
def NodeCfg.dataReads (c : NodeCfg) : List Nat :=
  if c.op = 17 then [0, 1]
  else if c.reduces then c.redPort.toList
  else (List.range 4).filter (fun p => c.args.contains p || (p == 0 && c.readsP0))

/-- Ports that a node reads (R192). -/
def NodeCfg.reads (c : NodeCfg) : List Nat := c.dataReads ++ (if c.usesControl then c.control.toList else [])

/-- The type of a node's output: COUNT gives N32 (Table 8.4). -/
def NodeCfg.outEt (c : NodeCfg) : BitVec 4 := if c.op = 19 then 7 else c.et

/-- Nodes that renumber their output (R191). -/
def NodeCfg.renumbers (c : NodeCfg) : Bool := decide (15 ≤ c.op) && decide (c.op ≤ 20)

/-- The immediate of a node as an integer; CMP's [2:0] hold its condition, and the rest is its value (R193, R194). -/
def NodeCfg.immValue (c : NodeCfg) : Int := if c.op = 13 then toSigned 9 (c.imm / 8) else toSigned 12 c.imm

/-- The immediate as a pattern of the node's type, with the flags of its conversion (R193, R195). -/
def NodeCfg.immBits (c : NodeCfg) : Nat × Nat :=
  let t := ElemType.ofCode c.et
  if t.isFloat then convert .i32 t (ofInt 32 c.immValue) 0 0 false else (ofInt t.width c.immValue, 0)

/-- Types that an operation accepts (R194, R198). -/
def NodeCfg.typeOk (c : NodeCfg) : Bool :=
  match c.op with
  | 2 | 3 | 4 | 6 | 7 | 13 | 20 | 24 | 25 => !etFloat c.et || (ElemType.ofCode c.et).isArithFloat
  | 5 => (ElemType.ofCode c.et).isArithFloat
  | 8 | 9 | 10 | 11 | 12 => !etFloat c.et
  | 21 | 22 => decide (8 ≤ etw c.et)
  | _ => true

/-- Networks that an operation accepts: the scalar one for those marked S, one network for all of its data (R194). -/
def NodeCfg.netOk (c : NodeCfg) : Bool :=
  let data := if c.onet = netVector then netVector else netScalar
  c.dataReads.all (fun p => c.net p == data) &&
    (match c.op with
     | 13 => c.onet == netControl
     | 22 | 23 => c.onet == 0
     | n => c.onet == netScalar || (c.onet == netVector && decide (n ≤ 12) && decide (8 ≤ etw c.et) && !c.red))

/-- The operand fields that are values of the node's type; a count or an address is not (R194, R198). -/
def NodeCfg.typedArgs (c : NodeCfg) : List Nat :=
  match c.op with
  | 18 => c.opds.take 1
  | 21 => []
  | 22 => c.opds.drop 2
  | _ => c.args

/-- Immediates that an operation accepts (Table 8.4, R195 to R199). -/
def NodeCfg.immOk (c : NodeCfg) : Bool :=
  (match c.op with
   | 13 => decide (c.imm % 8 < 6)
   | 21 => decide (bits c.imm 10 9 < 3) && !bit c.imm 11
   | 22 => decide (bits c.imm 10 9 < 2) && !bit c.imm 11
   | 23 => decide (c.imm < 4)
   | 24 | 25 => decide (c.imm % 4 < 3)
   | _ => true) &&
  !(c.typedArgs.contains 12 && etFloat c.et && c.immBits.2 != 0)

/-- Check 2 of a node in use, in a column of a shape (R193 to R199). -/
def NodeCfg.ok (c : NodeCfg) (col cols : Nat) : Bool :=
  decide (c.op ≤ 25) && c.typeOk && c.netOk && (decide (c.rm.toNat ≤ 4) || c.rm == 6) && c.immOk &&
  c.opds.all (fun o => decide (o < 14)) && (c.sec == (c.op == 16)) &&
  decide (((List.range 4).filter (fun p => c.net p == netControl)).length ≤ 1) &&
  (!c.usesControl || c.control.isSome) && !c.reads.isEmpty &&
  (c.win == 0 || (decide (c.win ≤ 8) && c.opd 1 == 0 && c.onet == netScalar &&
    [2, 6, 7, 8, 9, 10].contains c.op)) &&
  (!(c.op == 21 || c.op == 22 || c.op == 23) || col % 2 == 1) &&
  (!c.reduces || (col + 1 == cols && c.redPort.isSome)) &&
  (c.reduces || (List.range 4).all (fun p => c.net p == 0 || c.src p != 7))

/-- A route word without reserved bits or codes (Table 8.3). -/
def routeOk (r : Word) : Bool :=
  decide (r.toNat < 2 ^ 36) && (List.range 12).all (fun k => bits r.toNat (3 * k + 2) (3 * k) != 7)

/-- Check 2: the first node that fails; a node not in use holds zeros, but its switch boxes may carry links. -/
def nodeFault (m : Image) : Option Nat :=
  let cols := shapeCols m.shape
  (List.range (shapeNodes m.shape)).find? (fun n =>
    !(routeOk (m.routes.getD n 0) &&
      (if m.uses n then (m.cfg n).ok (n % cols) cols
       else m.nodes.getD n 0 == 0 && (List.range 8).all (fun b => m.banks.getD (8 * n + b) 0 == 0))))

/-! What drives a port (R193, R201, Table 8.3). -/

/-- Where a port's tokens come from: an output of a node (0 primary, 1 secondary), an edge, or the row reducer. -/
inductive Src where
  | out (node k : Nat)
  | edge (e : Nat)
  | reducer
  deriving DecidableEq, Repr

/-- The neighbour of a node on a side: 0 N, 1 E, 2 S, 3 W. -/
def neighbour (shape n side : Nat) : Option Nat :=
  let cols := shapeCols shape
  let rows := shapeNodes shape / cols
  match side with
  | 0 => if cols ≤ n then some (n - cols) else none
  | 1 => if n % cols + 1 < cols then some (n + 1) else none
  | 2 => if n / cols + 1 < rows then some (n + cols) else none
  | _ => if 0 < n % cols then some (n - 1) else none

/-- The link field of a node's switch box of a network, on a side. -/
def linkField (m : Image) (n net side : Nat) : Nat :=
  let lo := 12 * (net - 1) + 3 * side
  bits (m.routes.getD n 0).toNat (lo + 2) lo

/-- An output of a node on a network, if it has one. -/
def outOn (m : Image) (n k net : Nat) : Option Src :=
  let c := m.cfg n
  if m.uses n && c.onet == net && (k == 0 || c.sec) then some (.out n k) else none

/-- What arrives at a node's switch box from a side, through at most fuel links. -/
def arrives (m : Image) (net : Nat) : Nat → Nat → Nat → Option Src
  | 0, _, _ => none
  | fuel + 1, n, side =>
    match neighbour m.shape n side with
    | none => none
    | some b =>
      match linkField m b net ((side + 2) % 4) with
      | 0 => none
      | 5 => outOn m b 0 net
      | 6 => outOn m b 1 net
      | 7 => none
      | v => arrives m net fuel b (v - 1)

/-- Indices of the edges that name a node and network, in ascending order. -/
def edgesAt (m : Image) (n net : Nat) : List Nat :=
  (List.range 8).filter (fun k =>
    let e := m.edges.getD k 0
    edgeKind e != 0 && edgeNode e == n && edgeNet e == net)

/-- Ports of a node on a network whose SRC is 4, in ascending order. -/
def edgePorts (m : Image) (n net : Nat) : List Nat :=
  if m.uses n then (List.range 4).filter (fun p => (m.cfg n).net p == net && (m.cfg n).src p == 4) else []

/-- What drives port p of node n; none for a port not in use or one that nothing drives. -/
def portSrc (m : Image) (n p : Nat) : Option Src :=
  let c := m.cfg n
  let net := c.net p
  if net = 0 then none
  else match c.src p with
    | 4 => ((edgePorts m n net).findIdx? (fun q => q == p)).bind (fun k => ((edgesAt m n net)[k]?).map Src.edge)
    | 5 => outOn m n 0 net
    | 6 => outOn m n 1 net
    | 7 =>
      let cols := shapeCols m.shape
      if net == netScalar && (List.range cols).any (fun x =>
        let r := n / cols * cols + x
        m.uses r && (m.cfg r).red) then some .reducer else none
    | side => arrives m net 64 n side

/-- Ports in use, as (node, port), in ascending order. -/
def Image.ports (m : Image) : List (Nat × Nat) :=
  m.used.flatMap (fun n => ((List.range 4).filter (fun p => (m.cfg n).net p != 0)).map (fun p => (n, p)))

/-- Every port in use with what drives it. -/
def Image.feeds (m : Image) : List ((Nat × Nat) × Option Src) := m.ports.map (fun q => (q, portSrc m q.1 q.2))

/-- The REDUCE or SCAN node of the row of node n. -/
def rowReducer (m : Image) (n : Nat) : Option Nat :=
  let cols := shapeCols m.shape
  let last := n / cols * cols + (cols - 1)
  if m.uses last && (m.cfg last).reduces then some last else none

/-- Ports that read an output, the reducer's port being read by each node that feeds it. -/
def readersOf (m : Image) (fs : List ((Nat × Nat) × Option Src)) (n k : Nat) : List (Nat × Nat) :=
  (fs.filter (fun f => f.2 == some (.out n k))).map (fun f => f.1) ++
    (if k == 0 && (m.cfg n).red then
       (rowReducer m n).toList.flatMap (fun r => (m.cfg r).redPort.toList.map (fun p => (r, p)))
     else [])

/-- The type of what drives a port. -/
def srcEt (m : Image) (n : Nat) : Src → BitVec 4
  | .out x _ => (m.cfg x).outEt
  | .edge e => edgeEt (m.edges.getD e 0)
  | .reducer => (m.cfg n).et

/-- Check 3 of one node (Table 8.6). -/
def wiredOk (m : Image) (fs : List ((Nat × Nat) × Option Src)) (n : Nat) : Bool :=
  let c := m.cfg n
  ([netScalar, netVector, netControl].all (fun net => (edgesAt m n net).length == (edgePorts m n net).length)) &&
  (!m.uses n ||
    ((fs.filter (fun f => f.1.1 == n)).all (fun f =>
        match f.2 with
        | none => false
        | some x => c.net f.1.2 == netControl || srcEt m n x == c.et) &&
      (c.onet == 0 || m.outnode == n || !(readersOf m fs n 0).isEmpty) &&
      (!c.sec || !(readersOf m fs n 1).isEmpty) &&
      (!c.red || ((rowReducer m n).map (fun r => (m.cfg r).et == c.et)).getD false))) &&
  (m.outnode != n || (m.uses n && c.onet == m.outnet && c.outEt == m.outet))

/-- Check 3: the first node whose port or output fails. -/
def wiringFault (m : Image) : Option Nat :=
  let fs := m.feeds
  (List.range 16).find? (fun n => !wiredOk m fs n)

/-! The record size and the balance check (R203, R213). -/

/-- Bank registers of a node that some operand names, in ascending order. -/
def NodeCfg.banksNamed (c : NodeCfg) : List Nat := (List.range 8).filter (fun b => c.opds.contains (b + 4))

/-- Bytes of a port in a restart record. -/
def portBytes (net : Nat) : Nat :=
  match net with
  | 1 => 196 | 2 => 324 | 3 => 4 | _ => 0

/-- The size that R213 computes. -/
def recordSize (m : Image) : Nat :=
  192 + (m.used.map (fun n =>
    let c := m.cfg n
    8 * c.banksNamed.length + (if c.win = 0 then 0 else 112) + (c.ports.map (fun p => portBytes p.1)).sum)).sum

/-- A path from a fork: the branch it leaves by, the nodes it passes, and the port it comes to. -/
structure CombPath where
  first : Nat × Nat
  nodes : List Nat
  last : Nat × Nat
  deriving DecidableEq, Repr

/-- The paths that go on from a port, through at most fuel nodes and no node twice. -/
def pathsFrom (m : Image) (fs : List ((Nat × Nat) × Option Src)) : Nat → CombPath → List CombPath
  | 0, q => [q]
  | fuel + 1, q =>
    let n := q.last.1
    if q.nodes.contains n then [q]
    else
      let next := readersOf m fs n 0 ++ (if (m.cfg n).sec then readersOf m fs n 1 else [])
      q :: next.flatMap (fun r => pathsFrom m fs fuel { q with nodes := q.nodes ++ [n], last := r })

/-- The paths from an output to every port that derives its tokens from it. -/
def forkPaths (m : Image) (fs : List ((Nat × Nat) × Option Src)) (n k : Nat) : List CombPath :=
  (readersOf m fs n k).flatMap (fun r => pathsFrom m fs 16 ⟨r, [], r⟩)

/-- Whether tokens of an output reach a port. -/
def reaches (m : Image) (fs : List ((Nat × Nat) × Option Src)) (n k : Nat) (tgt : Nat × Nat) : Bool :=
  (forkPaths m fs n k).any (fun q => q.last == tgt)

/-- A SPLIT whose two arms and decision stream all reach one MERGE (R203). -/
def matched (m : Image) (fs : List ((Nat × Nat) × Option Src)) (sp mg : Nat) : Bool :=
  (m.cfg sp).op == 16 && (m.cfg mg).op == 17 &&
  (List.range 2).all (fun k => (List.range 2).any (fun p => reaches m fs sp k (mg, p))) &&
  (match (m.cfg sp).control, (m.cfg mg).control with
   | some a, some b =>
     match portSrc m sp a with
     | some (.out n k) => reaches m fs n k (mg, b)
     | _ => false
   | _, _ => false)

/-- Whether a path passes a renumbering node that the exception of R203 does not take out. -/
def pathRenumbers (m : Image) (fs : List ((Nat × Nat) × Option Src)) (q : CombPath) : Bool :=
  q.nodes.any (fun n =>
    (m.cfg n).renumbers && !(q.nodes ++ [q.last.1]).any (fun x => matched m fs n x || matched m fs x n))

/-- The hold and the capacity of a path. -/
def pathHold (m : Image) (q : CombPath) : Nat := (q.nodes.map (fun n => (m.cfg n).win)).sum

def pathCapacity (q : CombPath) : Nat := 16 * (q.nodes.length + 1)

/-- Whether two paths of one fork may join (R203). -/
def pairOk (m : Image) (fs : List ((Nat × Nat) × Option Src)) (a b : CombPath) : Bool :=
  let short := if pathHold m a ≤ pathHold m b then a else b
  let long := if pathHold m a ≤ pathHold m b then b else a
  pathRenumbers m fs a == pathRenumbers m fs b && decide (pathHold m long - pathHold m short < pathCapacity short)

/-- Check 5: the first node that joins unbalanced paths. -/
def balanceFault (m : Image) : Option Nat :=
  let fs := m.feeds
  let forks := m.used.flatMap (fun n =>
    (if 2 ≤ (readersOf m fs n 0).length then [forkPaths m fs n 0] else []) ++
    (if (m.cfg n).sec && decide (2 ≤ (readersOf m fs n 1).length) then [forkPaths m fs n 1] else []))
  let data (q : CombPath) : Bool := (m.cfg q.last.1).net q.last.2 != netControl
  m.used.find? (fun n => forks.any (fun ps =>
    let here := ps.filter (fun q => q.last.1 == n && data q)
    here.any (fun a => here.any (fun b =>
      a.first != b.first && a.last != b.last && !pairOk m fs a b))))

/-- ILLEGAL_COMBO of a loader check: TRAPINFO is its number (R202). -/
def loaderTrap (check val : Nat) : Trap := ⟨.illegalCombo, BitVec.ofNat 64 val, BitVec.ofNat 64 check, 0⟩

/-- Checks 2 to 5 of Table 8.6, which a patched configuration meets again. -/
def checkConfig (m : Image) : Except Trap Unit :=
  match nodeFault m with
  | some n => .error (loaderTrap 2 n)
  | none =>
    match wiringFault m with
    | some n => .error (loaderTrap 3 n)
    | none =>
      if m.recsz ≠ recordSize m ∨ 4096 < m.recsz then .error (loaderTrap 4 0x0A)
      else match if m.unbal then none else balanceFault m with
        | some n => .error (loaderTrap 5 n)
        | none => .ok ()

/-- The checks of Table 8.6 in their order. -/
def checkImage (h size : Nat) (m : Image) : Except Trap Unit :=
  match headerFault h size m with
  | some off => .error (loaderTrap 1 off)
  | none => checkConfig m

end Sys2Proof.Machine
end

