-- ==== Sys2Proof/Machine/Node.lean ====
section
/-! DEFINITION. What a node of the comb does when it fires: tokens, operands, operations, windows, the row reducer (spec/08
R191 to R197, Table 8.4). Memory accesses are left to Comb. -/

namespace Sys2Proof.Machine

/-! Tokens (R191). -/

/-- The END token. -/
def endToken : Token := ⟨0, 0x80000000⟩

def Token.isEnd (t : Token) : Bool := t.idx.getLsbD 31

/-- The element index of a token, of its first element on the vector network. -/
def Token.index (t : Token) (net : Nat) : Nat := if net = netVector then bits t.idx.toNat 26 0 else bits t.idx.toNat 30 0

/-- The number of valid elements of a token. -/
def Token.count (t : Token) (net : Nat) : Nat := if net = netVector then bits t.idx.toNat 30 27 + 1 else 1

/-- Element j of a token. -/
def Token.elem (t : Token) (w j : Nat) : Nat := elemAt t.val w j

/-- A token of some elements of width w, from an index. -/
def mkToken (net w index : Nat) (l : List Nat) : Token :=
  let val := l.foldr (fun x acc => x % 2 ^ w + acc * 2 ^ w) 0
  if net = netVector then ⟨BitVec.ofNat 128 val, BitVec.ofNat 32 (index % 2 ^ 27 + (l.length - 1) % 16 * 2 ^ 27)⟩
  else ⟨BitVec.ofNat 128 val, BitVec.ofNat 32 (index % 2 ^ 31)⟩

/-- A node with empty FIFOs and its bank registers loaded (R207). -/
def CombNode.fresh (banks : List Word) : CombNode :=
  { fifos := List.replicate 4 [], banks := banks, window := [], outs := 0, outs2 := 0, copies := none, count := 0
    acc := none, sent := false }

/-- The head of a port's FIFO. -/
def CombNode.head (d : CombNode) (p : Nat) : Option Token := (d.fifos.getD p []).head?

/-- A node whose ports have given up their heads. -/
def CombNode.take (d : CombNode) (ps : List Nat) : CombNode :=
  { d with fifos := d.fifos.zipIdx.map (fun f => if ps.contains f.2 then f.1.drop 1 else f.1) }

/-- A node whose port p has received a token. -/
def CombNode.receive (d : CombNode) (p : Nat) (t : Token) : CombNode :=
  { d with fifos := modAt d.fifos p (fun f => f ++ [t]) }

/-- The tokens that a node holds (R211). -/
def CombNode.held (d : CombNode) : Nat := (d.fifos.map List.length).sum + d.window.length

/-! Operations (R194, R195). -/

/-- What a node's operations round with: DRM as sampled, the number of the cycle, and the node. -/
structure NodeEnv where
  drm : BitVec 3
  cycle : Nat
  node : Nat

/-- The rounding mode of a node and the deciding generator of its element j. -/
def NodeEnv.round (v : NodeEnv) (c : NodeCfg) (j : Nat) : Nat × Nat :=
  (roundMode c.rm v.drm, Config.combRound v.cycle (128 * v.node + j))

/-- An integer operation on patterns of a type. -/
def combInt (op : Nat) (t : ElemType) (a b : Nat) : Int :=
  let x := intVal t a
  let y := intVal t b
  match op with
  | 2 => x + y
  | 3 => x - y
  | 4 => x * y
  | 6 => min x y
  | 7 => max x y
  | 8 => ((a % 2 ^ t.width) &&& (b % 2 ^ t.width) : Nat)
  | 9 => ((a % 2 ^ t.width) ||| (b % 2 ^ t.width) : Nat)
  | 10 => ((a % 2 ^ t.width) ^^^ (b % 2 ^ t.width) : Nat)
  | 11 => x * (2 ^ (b % 2 ^ t.width % t.width) : Nat)
  | _ => x / (2 ^ (b % 2 ^ t.width % t.width) : Nat)

/-- A float operation on patterns of a type, with its flags. -/
def combFloat (op : Nat) (t : ElemType) (mode q a b c : Nat) : FRes :=
  let f := floatFmt t
  let x := fdecode f (a % 2 ^ t.width)
  let y := fdecode f (b % 2 ^ t.width)
  match op with
  | 2 => fadd f mode q x y
  | 3 => fsub f mode q x y
  | 4 => fmul f mode q x y
  | 5 => ffma f mode q x y (fdecode f (c % 2 ^ t.width))
  | 6 => fminmax f false (a % 2 ^ t.width) (b % 2 ^ t.width)
  | _ => fminmax f true (a % 2 ^ t.width) (b % 2 ^ t.width)

/-- An operation of OP 2 to 12 on patterns: integers wrap, floats round (R195). -/
def combOp (v : NodeEnv) (cfg : NodeCfg) (op j a b c : Nat) : FRes :=
  let t := ElemType.ofCode cfg.et
  let r := v.round cfg j
  if t.isFloat then combFloat op t r.1 r.2 a b c else (ofInt t.width (combInt op t a b), 0)

/-- CMP: cond(A, B), raising no flags.
DEDUCED, unsafe: notes/assumptions/43. -/
def combCmp (cfg : NodeCfg) (a b : Nat) : Bool :=
  let t := ElemType.ofCode cfg.et
  let k := cfg.imm % 8
  if t.isFloat then
    let f := floatFmt t
    (fcompare k (fdecode f (a % 2 ^ t.width)) (fdecode f (b % 2 ^ t.width))).1
  else
    let x := intVal t a
    let y := intVal t b
    match k with
    | 0 => x == y
    | 1 => x != y
    | 2 => decide (x < y)
    | 3 => decide (x ≤ y)
    | 4 => decide (y < x)
    | _ => decide (y ≤ x)

/-- Left fold of an operation over values, rounding once a step, with the flags of all steps. -/
def combFold (v : NodeEnv) (cfg : NodeCfg) (op : Nat) : List Nat → FRes
  | [] => (0, 0)
  | x :: xs => xs.foldl (fun acc y =>
      let r := combOp v cfg op 0 acc.1 y 0
      (r.1, acc.2 ||| r.2)) (x, 0)

/-- The operation that IMM [1:0] of a REDUCE or SCAN node selects: ADD, MIN, MAX (R197). -/
def reduceOp (cfg : NodeCfg) : Nat :=
  match cfg.imm % 4 with
  | 0 => 2 | 1 => 6 | _ => 7

/-! Operands (R193, R198). -/

/-- Element j of operand k as a pattern of the node's type. -/
def operand (cfg : NodeCfg) (d : CombNode) (index k j : Nat) : Nat :=
  let w := etw cfg.et
  let o := cfg.opd k
  if o < 4 then ((d.head o).elim 0 (fun t => t.elem w j))
  else if o < 12 then (d.banks.getD (o - 4) 0).toNat % 2 ^ w
  else if o = 12 then cfg.immBits.1
  else (index + j) % 2 ^ w

/-- Operand k as a 64-bit value (R198). -/
def operand64 (cfg : NodeCfg) (d : CombNode) (index k : Nat) : Nat :=
  let t := ElemType.ofCode cfg.et
  let o := cfg.opd k
  if o < 4 then
    let x := (d.head o).elim 0 (fun h => h.elem t.width 0)
    if t.isSigned then ofInt 64 (toSigned t.width x) else x
  else if o < 12 then (d.banks.getD (o - 4) 0).toNat
  else if o = 12 then ofInt 64 (toSigned 12 cfg.imm)
  else index

/-- REPEAT's B, read as N32. -/
def repeatCount (cfg : NodeCfg) (d : CombNode) (index : Nat) : Nat :=
  let o := cfg.opd 1
  if o < 4 then (d.head o).elim 0 (fun h => h.elem (etw cfg.et) 0) % 2 ^ 32
  else if o < 12 then (d.banks.getD (o - 4) 0).toNat % 2 ^ 32
  else if o = 12 then ofInt 32 (toSigned 12 cfg.imm)
  else index % 2 ^ 32

/-- The address of a LOAD or STORE (R198). -/
def portAddr (cfg : NodeCfg) (d : CombNode) (index : Nat) : Nat :=
  let b := operand64 cfg d index 1
  let modw := bits cfg.imm 8 4
  let b := if modw = 0 then b else b % 2 ^ modw
  (operand64 cfg d index 0 + b * 2 ^ bits cfg.imm 3 0) % 2 ^ 64

/-! Firing (R192, R194, R196). -/

/-- What a node does when it fires: the ports it takes from, the tokens it emits (by output, 0 primary, 1 secondary), what
it keeps, and its flags. -/
structure Act where
  take : List Nat
  outs : List (Nat × Token)
  keep : CombNode
  flags : Nat
  deriving DecidableEq, Repr

/-- Whether and how a node fires: not, by itself, with a memory access (LOAD's token is still to come), by passing its
port, or with END at some of its ports and values at others. -/
inductive Ready where
  | no
  | act (a : Act)
  | load (a : Act) (addr fe index : Nat)
  | store (a : Act) (addr fe val : Nat)
  | give (a : Act) (tgt : Nat)
  | clash
  deriving DecidableEq, Repr

/-- END on every output. -/
def endOuts (cfg : NodeCfg) : List (Nat × Token) :=
  (if cfg.onet = 0 then [] else [(0, endToken)]) ++ (if cfg.sec then [(1, endToken)] else [])

/-- A node with a window (R196): it takes a token while it holds fewer than d + 1, emits the oldest output when it holds
d + 1 or END has come, and forwards END when it holds none. -/
def fireWindow (v : NodeEnv) (cfg : NodeCfg) (d : CombNode) : Ready :=
  let w := etw cfg.et
  let emit (l : List Token) : List (Nat × Token) × Nat :=
    let r := combFold v cfg cfg.op ((l.take (cfg.win + 1)).map (fun t => t.elem w 0))
    ([(0, mkToken netScalar w ((l.head?).elim 0 (fun t => t.index netScalar)) [r.1])], r.2)
  match d.head 0 with
  | none =>
    if cfg.win < d.window.length then
      let e := emit d.window
      .act ⟨[], e.1, { d with window := d.window.drop 1 }, e.2⟩
    else .no
  | some t =>
    if t.isEnd then
      if d.window.isEmpty then .act ⟨[0], endOuts cfg, d, 0⟩
      else
        let e := emit d.window
        .act ⟨[], e.1, { d with window := d.window.drop 1 }, e.2⟩
    else if cfg.win < d.window.length then
      let e := emit d.window
      .act ⟨[], e.1, { d with window := d.window.drop 1 }, e.2⟩
    else
      let l := d.window ++ [t]
      if cfg.win < l.length then
        let e := emit l
        .act ⟨[0], e.1, { d with window := l.drop 1 }, e.2⟩
      else .act ⟨[0], [], { d with window := l }, 0⟩

/-- MERGE: the head of p0 where c is 1, else of p1; END of all three at the end. -/
def fireMerge (cfg : NodeCfg) (d : CombNode) : Ready :=
  let w := etw cfg.et
  match cfg.control with
  | none => .no
  | some cp =>
    match d.head cp with
    | none => .no
    | some c =>
      if c.isEnd then
        match d.head 0, d.head 1 with
        | some a, some b => if a.isEnd && b.isEnd then .act ⟨[cp, 0, 1], endOuts cfg, d, 0⟩ else .clash
        | some a, none => if a.isEnd then .no else .clash
        | none, some b => if b.isEnd then .no else .clash
        | none, none => .no
      else
        let p := if c.val.getLsbD 0 then 0 else 1
        match d.head p with
        | none => .no
        | some t =>
          if t.isEnd then .clash
          else .act ⟨[cp, p], [(0, mkToken netScalar w d.outs [t.elem w 0])], { d with outs := d.outs + 1 }, 0⟩

/-- What a node does when every port that it reads holds END. -/
def fireEnd (cfg : NodeCfg) (d : CombNode) (ps : List Nat) : Ready :=
  if cfg.op = 19 ∧ !d.sent then
    .act ⟨[], [(0, mkToken netScalar 32 0 [d.count % 2 ^ 32])], { d with sent := true }, 0⟩
  else if cfg.op = 20 ∧ d.count ≠ 0 then
    .act ⟨[], [(0, mkToken netScalar (etw cfg.et) d.outs [d.acc.getD 0])],
      { d with acc := none, count := 0, outs := d.outs + 1 }, 0⟩
  else .act ⟨ps, endOuts cfg, { d with acc := none }, 0⟩

/-- Operations of OP 0 to 12 on every valid element. -/
def fireEach (v : NodeEnv) (cfg : NodeCfg) (d : CombNode) (ps : List Nat) (index n : Nat) : Ready :=
  let rs := (List.range n).map (fun j =>
    let a := operand cfg d index 0 j
    if cfg.op ≤ 1 then (a, 0) else combOp v cfg cfg.op j a (operand cfg d index 1 j) (operand cfg d index 2 j))
  .act ⟨ps, [(0, mkToken cfg.onet (etw cfg.et) index (rs.map (fun r => r.1)))], d, rs.foldl (fun f r => f ||| r.2) 0⟩

/-- The scalar operations from OP 13 on, on values. -/
def fireScalar (v : NodeEnv) (cfg : NodeCfg) (d : CombNode) (ps : List Nat) (index : Nat) : Ready :=
  let w := etw cfg.et
  let a := operand cfg d index 0 0
  let b := operand cfg d index 1 0
  let c := ((cfg.control.bind d.head).map (fun t => t.val.getLsbD 0)).getD false
  let put (x : Nat) : List (Nat × Token) := [(0, mkToken netScalar w index [x])]
  match cfg.op with
  | 13 => .act ⟨ps, [(0, mkToken netControl 1 index [(combCmp cfg a b).toNat])], d, 0⟩
  | 14 => .act ⟨ps, put (if c then a else b), d, 0⟩
  | 15 =>
    if c then .act ⟨ps, [(0, mkToken netScalar w d.outs [a])], { d with outs := d.outs + 1 }, 0⟩ else .act ⟨ps, [], d, 0⟩
  | 16 =>
    if c then .act ⟨ps, [(0, mkToken netScalar w d.outs [a])], { d with outs := d.outs + 1 }, 0⟩
    else .act ⟨ps, [(1, mkToken netScalar w d.outs2 [a])], { d with outs2 := d.outs2 + 1 }, 0⟩
  | 18 =>
    let left := d.copies.getD (repeatCount cfg d index)
    if left = 0 then .act ⟨ps, [], { d with copies := none }, 0⟩
    else .act ⟨if left = 1 then ps else [], [(0, mkToken netScalar w d.outs [a])],
      { d with copies := if left = 1 then none else some (left - 1), outs := d.outs + 1 }, 0⟩
  | 19 => .act ⟨ps, [], { d with count := d.count + 1 }, 0⟩
  | 20 =>
    let r := match d.acc with
      | none => (a, 0)
      | some x => combOp v cfg 2 0 x a 0
    if cfg.imm ≠ 0 ∧ cfg.imm ≤ d.count + 1 then
      .act ⟨ps, [(0, mkToken netScalar w d.outs [r.1])], { d with acc := none, count := 0, outs := d.outs + 1 }, r.2⟩
    else .act ⟨ps, [], { d with acc := some r.1, count := d.count + 1 }, r.2⟩
  | 21 => .load ⟨ps, [], d, 0⟩ (portAddr cfg d index) (bits cfg.imm 10 9) index
  | 22 => .store ⟨ps, [], d, 0⟩ (portAddr cfg d index) (bits cfg.imm 10 9) (operand cfg d index 2 0)
  | 23 => .give ⟨ps, [], d, 0⟩ (cfg.imm % 4)
  | 25 =>
    let x := ((ps.head?).bind d.head).elim 0 (fun t => t.elem w 0)
    let r := match d.acc with
      | none => (x, 0)
      | some y => combOp v cfg (reduceOp cfg) 0 y x 0
    .act ⟨ps, put r.1, { d with acc := some r.1 }, r.2⟩
  | _ => .act ⟨ps, put (((ps.head?).bind d.head).elim 0 (fun t => t.elem w 0)), d, 0⟩

/-- The index of a node's output: that of its p0 token; a node that reads none has no index stated (R191). -/
def tokenIndex (v : NodeEnv) (cfg : NodeCfg) (d : CombNode) : Nat :=
  if cfg.reads.contains 0 then (d.head 0).elim 0 (fun t => t.index (cfg.net 0)) else Config.combIndex v.cycle v.node

/-- Whether and how a node fires, room at its destinations apart. -/
def ready (v : NodeEnv) (cfg : NodeCfg) (d : CombNode) : Ready :=
  if cfg.win ≠ 0 then fireWindow v cfg d
  else if cfg.op = 17 then fireMerge cfg d
  else
    let ps := cfg.reads
    let heads := ps.filterMap d.head
    if heads.length < ps.length then .no
    else if heads.all Token.isEnd then fireEnd cfg d ps
    else if heads.any Token.isEnd then .clash
    else
      let index := tokenIndex v cfg d
      if cfg.op ≤ 12 then
        let counts := cfg.dataReads.filterMap (fun p => (d.head p).map (fun t => t.count cfg.onet))
        fireEach v cfg d ps index (counts.min?.getD 1)
      else fireScalar v cfg d ps index

/-- What a firing emits, LOAD's token counting before it has come. -/
def Ready.outs : Ready → List (Nat × Token)
  | .act a => a.outs
  | .load _ _ _ _ => [(0, ⟨0, 0⟩)]
  | _ => []

/-- Whether a node is about to fire. -/
def Ready.fires : Ready → Bool
  | .no => false
  | _ => true

end Sys2Proof.Machine
end

