-- ==== Sys2Proof/Machine/Comb.lean ====
section
/-! DEFINITION. The comb of a core: contexts and residency, memory ports, restart records, FX from its start to its end,
and what each comb instruction does at the queue head (spec/08 R198 to R214, spec/05 R135, spec/14 R337 to R354, spec/19
R461). -/

namespace Sys2Proof.Machine

/-! Contexts (R205, R210). -/

/-- The context that holds slot n of strand k, with its core. -/
def State.ctxOf (s : State) (k : Nat) (n : BitVec 5) : Option (Nat × CombCtx) :=
  s.cores.zipIdx.findSome? (fun c => (c.1.comb.find? (fun x => x.owner == k && x.slot == n)).map (fun x => (c.2, x)))

/-- The same, where it stands in the strand's own region. -/
def State.resident (s : State) (k : Nat) (n : BitVec 5) : Option (Nat × CombCtx) :=
  (s.ctxOf k n).filter (fun c => c.1 == (s.strand k).coreNo && c.2.lg == (s.strand k).shareD.lg)

/-- The contexts of a region. -/
def regionCtxs (s : State) (core lg : Nat) : List CombCtx := (s.core core).comb.filter (fun x => x.lg == lg)

/-- Context num of a region. -/
def State.combAt (s : State) (core lg num : Nat) : Option CombCtx := (regionCtxs s core lg).find? (fun x => x.num == num)

/-- A context put back in its place. -/
def State.putCtx (s : State) (core : Nat) (x : CombCtx) : State :=
  s.modCore core (fun c => { c with comb := c.comb.map (fun y => if y.lg == x.lg && y.num == x.num then x else y) })

/-- A context taken away. -/
def State.dropCtx (s : State) (core : Nat) (x : CombCtx) : State :=
  s.modCore core (fun c => { c with comb := c.comb.filter (fun y => !(y.lg == x.lg && y.num == x.num)) })

/-- The tokens that a context holds, END tokens among them (R211). -/
def CombCtx.balance (x : CombCtx) : Nat := (x.nodes.map CombNode.held).sum

def CombCtx.node (x : CombCtx) (n : Nat) : CombNode := x.nodes.getD n (CombNode.fresh [])

/-- A fabric slot of strand k changed. -/
def State.modSlot (s : State) (k : Nat) (n : BitVec 5) (f : FSlot → FSlot) : State :=
  s.modStrand k (fun t => t.setFslot n (f (t.fslot n)))

/-- A slot that remembers what its context holds (R206, R213). -/
def FSlot.note (f : FSlot) (x : CombCtx) : FSlot :=
  { f with lastCtx := x.num, outpos := x.outpos, balance := x.balance, left := some x.nodes, edgeEnded := x.edgeEnded
           outEnded := x.outEnded }

/-! Coalescing buffers and memory ports (R135, R198, R199). -/

/-- Whether a physical node lies in the region of a context. -/
def CombCtx.owns (x : CombCtx) (node : Nat) : Bool := decide (x.lg ≤ node) && decide (node < x.lg + shapeNodes x.image.shape)

/-- The buffers of a context flushed. -/
def flushCtx (s : State) (core : Nat) (x : CombCtx) : State := flushBufs s core (fun b => b.ctx == x.num && x.owns b.node)

/-- The size of the region that a context stands in, from the share of its owner. -/
def regionSize (s : State) (x : CombCtx) : Nat := (s.strand x.owner).shareD.size

/-- The ports that a context owns, freed. -/
def freePorts (s : State) (core : Nat) (x : CombCtx) : State :=
  let size := max (regionSize s x) (shapeNodes x.image.shape)
  s.modCore core (fun c => { c with ports := c.ports.zipIdx.map (fun p =>
    if p.1 == some x.num && decide (x.lg ≤ p.2) && decide (p.2 < x.lg + size) then none else p.1) })

/-- The free ports that an image uses, taken. -/
def takePorts (s : State) (core : Nat) (x : CombCtx) : State :=
  let uses (node : Nat) : Bool :=
    x.owns node && x.image.uses (node - x.lg) && [21, 22, 23].contains (x.image.cfg (node - x.lg)).op
  s.modCore core (fun c => { c with ports := c.ports.zipIdx.map (fun p =>
    if p.1.isNone && uses p.2 then some x.num else p.1) })

/-- Whether a context owns the port of one of its nodes. -/
def ownsPort (s : State) (core : Nat) (x : CombCtx) (n : Nat) : Bool :=
  ((s.core core).ports.getD (x.lg + n) none) == some x.num

/-- GIVE: the port of a node passed on with a flush, where the context owns it. -/
def givePort (s : State) (core : Nat) (x : CombCtx) (n tgt : Nat) : State :=
  if ownsPort s core x n then
    let s := flushBufs s core (fun b => b.node == x.lg + n)
    s.modCore core (fun c => { c with ports := c.ports.set (x.lg + n) (some tgt) })
  else s

/-- A LOAD's access: none while its granule is not full (R198, R212). -/
def portLoad (s : State) (g : VAgent) (va n fe : Nat) : Except Trap (Option (Nat × State)) :=
  let w : Word := BitVec.ofNat 64 va
  if va % n ≠ 0 then .error (Trap.at .align w)
  else if fe ≠ 0 then
    match locateFull s g.who w n .read with
    | .error t => .error t
    | .ok (c, off) =>
      if (s.core c).isFull (off / 16) then
        .ok (some (Mem.read (s.core c).scratch off n, if fe = 2 then setEmpty s c (off / 16) else s))
      else .ok none
  else if addressError s g .read va then .error (accessTrap w .read .notPermitted)
  else match locateV s g va .read with
    | .error r => .error (batchTrap .read [⟨0, va, r⟩])
    | .ok (p, s) => .ok (some (readPlace s g.who p n false))

/-- Bytes put into the buffer of a port: one of another line is flushed first, one that fills is flushed at once. -/
def bufferStore (s : State) (core node ctx hive : Nat) (scratch : Bool) (addr n x : Nat) : State :=
  let line := addr / 64
  let s := flushBufs s core (fun b => b.node == node && !(b.ctx == ctx && b.scratch == scratch && b.line == line))
  let old := (s.core core).bufs.find? (fun b => b.node == node)
  let bytes := (leBytes n x).zipIdx.map (fun b => (addr % 64 + b.2, b.1))
  let b : PortBuf :=
    { (old.getD ⟨node, ctx, hive, scratch, line, [], (s.core core).cycles.toNat⟩) with
      bytes := ((old.map (fun b => b.bytes)).getD []).filter (fun y => !bytes.any (fun z => z.1 == y.1)) ++ bytes }
  let s := s.modCore core (fun c => { c with bufs := b :: c.bufs.filter (fun y => y.node != node) })
  if 64 ≤ b.bytes.length then flushBuf s core b else s

/-- The buffers of every port of an FX flushed: its stores before a release are performed (R200). -/
def flushFx (s : State) (g : VAgent) (core ctx : Nat) : State :=
  match g.who.share with
  | some x => flushBufs s core (fun b => b.ctx == ctx && decide (x.lg ≤ b.node) && decide (b.node < x.lg + x.size))
  | none => s

/-- A STORE's access (R198, R212); a full-empty one is a release at CORE scope (R200). -/
def portStore (s : State) (g : VAgent) (core node ctx va n x fe : Nat) : Except Trap State :=
  let w : Word := BitVec.ofNat 64 va
  if va % n ≠ 0 then .error (Trap.at .align w)
  else if fe ≠ 0 then
    match locateFull s g.who w n .write with
    | .error t => .error t
    | .ok (c, off) => .ok (setFull (scratchWrite (flushFx s g core ctx) c off n x) c (off / 16))
  else if addressError s g .write va then .error (accessTrap w .write .notPermitted)
  else match locateV s g va .write with
    | .error r => .error (batchTrap .write [⟨0, va, r⟩])
    | .ok (.shadow _ _ _ _, _) => .error (protectionAt w .write)
    | .ok (.scratch _ off, s) => .ok (bufferStore s core node ctx g.who.hive true off n x)
    | .ok (.mem pa _, s) => .ok (bufferStore s core node ctx g.who.hive false pa n x)
    | .ok (.peer m, s) => .ok (writePlace s g.who (.peer m) n x true)

/-! The restart record (R213, Table 8.9). -/

/-- The parts of a record's saved state, in their order. -/
inductive Saved where
  | bank (n b : Nat)
  | window (n : Nat)
  | fifo (n p net : Nat)
  deriving DecidableEq, Repr

def Saved.size : Saved → Nat
  | .bank _ _ => 8
  | .window _ => 112
  | .fifo _ _ net => portBytes net

/-- The saved parts of an image's record. -/
def savedParts (m : Image) : List Saved :=
  m.used.flatMap (fun n => (m.cfg n).banksNamed.map (fun b => Saved.bank n b)) ++
  (m.used.filter (fun n => (m.cfg n).win != 0)).map Saved.window ++
  m.ports.map (fun q => Saved.fifo q.1 q.2 ((m.cfg q.1).net q.2))

/-- Tokens with a count before them, in k places of vb value bytes and an index word. -/
def tokenBytes (k vb : Nat) (l : List Token) : List Byte :=
  leBytes 4 l.length ++ (List.range k).flatMap (fun j =>
    match l[j]? with
    | some t => leBytes vb t.val.toNat ++ leBytes 4 t.idx.toNat
    | none => leBytes (vb + 4) 0)

/-- The tokens read back. -/
def tokensOf (r k vb : Nat) : List Token :=
  (List.range (min (field r 0 4) k)).map (fun j =>
    ⟨BitVec.ofNat 128 (field r (4 + (vb + 4) * j) vb), BitVec.ofNat 32 (field r (4 + (vb + 4) * j + vb) 4)⟩)

/-- A control FIFO as its word. -/
def controlBytes (l : List Token) : List Byte :=
  let vals := l.filter (fun t => !t.isEnd)
  let b := vals.foldr (fun t acc => t.val.toNat % 2 + 2 * acc) 0
  leBytes 4 (vals.length % 32 + 32 * (l.any Token.isEnd).toNat + b % 65536 * 65536)

/-- A control FIFO read back; the index words, which the record does not hold, come from the FIFO as it was left. -/
def controlOf (r : Nat) (left : List Token) : List Token :=
  (List.range (min (bits r 4 0) 16)).map (fun j =>
    (⟨BitVec.ofNat 128 ((r / 2 ^ (16 + j)) % 2), (left.getD j ⟨0, 0⟩).idx &&& 0x7FFFFFFF⟩ : Token)) ++
  (if bit r 5 then [endToken] else [])

def Saved.bytes (nodes : List CombNode) : Saved → List Byte
  | .bank n b => leBytes 8 (((nodes.getD n (CombNode.fresh [])).banks.getD b 0).toNat)
  | .window n => tokenBytes 9 8 (nodes.getD n (CombNode.fresh [])).window
  | .fifo n p net =>
    let l := (nodes.getD n (CombNode.fresh [])).fifos.getD p []
    if net = netControl then controlBytes l else tokenBytes 16 (if net = netVector then 16 else 8) l

/-- A part of a record read into the nodes. -/
def Saved.load (r : Nat) (left : List CombNode) (nodes : List CombNode) : Saved → List CombNode
  | .bank n b => modAt nodes n (fun d => { d with banks := d.banks.set b (BitVec.ofNat 64 (field r 0 8)) })
  | .window n => modAt nodes n (fun d => { d with window := tokensOf r 9 8 })
  | .fifo n p net =>
    let l := if net = netControl then controlOf r ((left.getD n (CombNode.fresh [])).fifos.getD p [])
      else tokensOf r 16 (if net = netVector then 16 else 8)
    modAt nodes n (fun d => { d with fifos := d.fifos.set p l })

/-- STATE codes (Table 8.9). -/
def SlotState.code : SlotState → Nat
  | .idle => 0 | .full => 1 | .stopped => 2 | .done => 3

/-- The STATE word of a slot. -/
def stateWord (st : SlotState) (n : BitVec 5) (ctx outpos : Nat) : Nat :=
  st.code + 4 * n.toNat + 256 * (ctx % 4) + 2 ^ 32 * (outpos % 2 ^ 32)

/-- The bytes of a record: the fixed part, and the saved state where it is wanted. -/
def recordBytes (x : CombCtx) (st : SlotState) (whole : Bool) : List Byte :=
  leBytes 8 (stateWord st x.slot x.num x.outpos) ++ leBytes 8 x.image.imgid.toNat ++ leBytes 8 x.arg.toNat
    ++ leBytes 8 x.len.toNat ++ (List.range 8).flatMap (fun k => leBytes 8 ((x.edgeIdx.getD k 0).toNat))
    ++ leBytes 8 x.balance ++ leBytes 8 (bits x.flags 7 3) ++ leBytes 80 0
    ++ (if whole then (savedParts x.image).flatMap (Saved.bytes x.nodes) else [])

/-- A four-byte vector-agent store; refused, one to a restart record is a VPAGE_FAULT (R206, R212). -/
def store4 (s : State) (g : VAgent) (record : Bool) (va x : Nat) : Except Trap State :=
  if addressError s g .write va then
    .error (if record then batchTrap .write [⟨0, va, .notPermitted⟩] else protectionAt (BitVec.ofNat 64 va) .write)
  else match locateV s g va .write with
  | .error r => .error (batchTrap .write [⟨0, va, r⟩])
  | .ok (p, s) => .ok (writePlace s g.who p 4 x false)

/-- Bytes stored by the vector agent, a multiple of four. -/
def storeV (g : VAgent) (record : Bool) : Nat → Nat → List Byte → State → Except Trap State
  | 0, _, _, s => .ok s
  | n + 1, va, bs, s =>
    match store4 s g record va (ofLeBytes (bs.take 4)) with
    | .error t => .error t
    | .ok s => storeV g record n (va + 4) (bs.drop 4) s

/-- A record of a context written at its slot's restart area. -/
def writeRecord (s : State) (x : CombCtx) (st : SlotState) (whole : Bool) : Except Trap State :=
  let t := s.strand x.owner
  let bs := recordBytes x st whole
  storeV (gatherAgent t) true (bs.length / 4) (t.fslot x.slot).area.toNat bs s

/-- A counter that a record adopted with KEEP does not hold. -/
def adoptedNode (num n : Nat) (d : CombNode) : CombNode :=
  let v (j : Nat) := Config.adopted num (8 * n + j)
  { d with
    outs := v 0, outs2 := v 1, copies := if v 2 = 0 then none else some (v 2), count := v 3
    acc := if v 3 = 0 then none else some (v 4), sent := v 5 % 2 == 1 }

/-- The nodes of a context that a record restores. -/
def restoreNodes (m : Image) (r num : Nat) (arg : Word) (left : Option (List CombNode)) : List CombNode :=
  let fresh := (List.range (shapeNodes m.shape)).map (fun n =>
    CombNode.fresh ((List.range 8).map (fun b => if b = 7 then arg else m.banks.getD (8 * n + b) 0)))
  let base := match left with
    | some l => fresh.zipIdx.map (fun d =>
        let o := l.getD d.2 d.1
        { o with banks := d.1.banks, fifos := d.1.fifos, window := [] })
    | none => fresh.zipIdx.map (fun d => adoptedNode num d.2 d.1)
  ((savedParts m).foldl (fun (acc : Nat × List CombNode) p =>
    (acc.1 + p.size, p.load (r / 2 ^ (8 * acc.1)) (left.getD []) acc.2)) (192, base)).2

/-! Reading images and residency (R202, R205, R206). -/

/-- The image that a slot names, read by the vector agent, with its header. -/
def loadImage (s : State) (g : VAgent) (va : Nat) : Except Trap (Nat × Image × State) :=
  match recordV s g va 8 with
  | .error t => .error t
  | .ok (h, s) =>
    let n := shapeNodes (bits (field h 6 1) 1 0)
    match recordV s g (va + imageHeader) (10 * n) with
    | .error t => .error t
    | .ok (a, s) => .ok (h, imageOf h a, s)

/-- A context of an image with nothing in it. -/
def CombCtx.blank (s : State) (k : Nat) (n : BitVec 5) (lg num : Nat) (m : Image) : CombCtx :=
  { lg := lg, num := num, owner := k, slot := n, image := m, pinned := false, served := (s.core (s.strand k).coreNo).cycles.toNat
    running := false
    nodes := (List.range (shapeNodes m.shape)).map (fun j =>
      CombNode.fresh ((List.range 8).map (fun b => m.banks.getD (8 * j + b) 0)))
    edgeIdx := List.replicate 8 0, edgeEnded := List.replicate 8 false, outpos := 0, outEnded := false, arg := 0, len := 0
    idle := 0, flags := 0, vd := 0, drm := 0, grant := 0, closed := 0, unsaved := false }

/-- FABRIC_FAULT with a code of Table 8.8A. -/
def fabricFault (n : BitVec 5) (code : Nat) : Trap := ⟨.fabricFault, n.setWidth 64, BitVec.ofNat 64 code, 0⟩

/-- The context that a record restores (R206, R213); a record of another image or slot does not match. -/
def restoreCtx (s : State) (f : FSlot) (x : CombCtx) : Except Trap (CombCtx × State) :=
  match recordV s (gatherAgent (s.strand x.owner)) f.area.toNat ((x.image.recsz + 7) / 8) with
  | .error t => .error t
  | .ok (r, s) =>
    if field r 8 8 ≠ x.image.imgid.toNat ∨ bits (field r 0 8) 6 2 ≠ x.slot.toNat then .error (fabricFault x.slot 2)
    else
      let arg : Word := BitVec.ofNat 64 (field r 0x10 8)
      let len : Word := BitVec.ofNat 64 (field r 0x18 8)
      let nodes := restoreNodes x.image r s.freeCount arg f.left
      let idx := (List.range 8).map (fun k => (BitVec.ofNat 64 (field r (0x20 + 8 * k) 8) : Word))
      let fifoEnd (k : Nat) : Bool :=
        (x.image.feeds.any (fun q => q.2 == some (Src.edge k) &&
          (((nodes.getD q.1.1 (CombNode.fresh [])).fifos.getD q.1.2 []).any Token.isEnd)))
      let ended (k : Nat) : Bool :=
        if f.left.isSome then f.edgeEnded.getD k false
        else fifoEnd k || (!(edgeKind (x.image.edges.getD k 0) == 1 && decide ((idx.getD k 0).toNat < len.toNat))
          && Config.adopted s.freeCount (200 + k) % 2 == 1)
      .ok ({ x with
        nodes := nodes, edgeIdx := idx, edgeEnded := (List.range 8).map ended, outpos := bits (field r 0 8) 63 32
        outEnded := if f.left.isSome then f.outEnded else Config.adopted s.freeCount 255 % 2 == 1, arg := arg, len := len
        flags := 8 * bits (field r 0x68 8) 4 0 },
        { s with freeCount := s.freeCount + 1 })

/-- A context written to its record as far as its state asks for (R205 step 2) and freed. -/
def evictCtx (s : State) (core : Nat) (x : CombCtx) : Except Trap State :=
  let st := ((s.strand x.owner).fslot x.slot).state
  let written :=
    if st = .stopped ∧ !x.unsaved then .ok s else writeRecord s x st (st == .full || st == .stopped)
  match written with
  | .error t => .error t
  | .ok s => .ok ((s.modSlot x.owner x.slot (fun f => f.note x)).dropCtx core x)

/-- The candidates for eviction in a region, least recently served first (R205). -/
def evictable (s : State) (core lg : Nat) : List CombCtx :=
  let l := (regionCtxs s core lg).filter (fun x => !x.pinned && !x.running)
  let rec pick : Nat → List CombCtx → List CombCtx
    | 0, _ => []
    | n + 1, l =>
      match l.find? (fun x => l.all (fun y => decide (x.served ≤ y.served))) with
      | some x => x :: pick n (l.filter (fun y => y.num != x.num))
      | none => []
  pick 4 l

/-- A context number for a slot: a free one, or that of a candidate whose state can be written. -/
def takeContext (s : State) (core lg : Nat) : Option (Nat × State) :=
  let used := (regionCtxs s core lg).map (fun x => x.num)
  match (List.range 4).find? (fun n => !used.contains n) with
  | some n => some (n, s)
  | none => (evictable s core lg).findSome? (fun x =>
      match evictCtx s core x with
      | .ok s => some (x.num, s)
      | .error _ => none)

/-- Slot n of strand k put into a context of its region, from its image and its record; none when none can be taken. -/
def loadSlot (s : State) (k : Nat) (n : BitVec 5) : Except Trap (Option State) :=
  let t := s.strand k
  let away := match s.ctxOf k n with
    | some (c, x) => evictCtx s c x
    | none => .ok s
  match away with
  | .error tr => .error tr
  | .ok s =>
    let f := (s.strand k).fslot n
    match loadImage s (gatherAgent t) f.image.toNat with
    | .error tr => .error tr
    | .ok (h, m, s) =>
      if t.shareD.size < shapeNodes m.shape then .error (fabricFault n 1)
      else match checkImage h t.shareD.size m with
        | .error tr => .error tr
        | .ok _ =>
          match takeContext s t.coreNo t.shareD.lg with
          | none => .ok none
          | some (num, s) =>
            let x := CombCtx.blank s k n t.shareD.lg num m
            let got := if f.state = .full ∨ f.state = .stopped then restoreCtx s f x else .ok (x, s)
            match got with
            | .error tr => .error tr
            | .ok (x, s) => .ok (some (s.modCore t.coreNo (fun c => { c with comb := c.comb ++ [x] })))

/-! FX (R207, R208, R212). -/

/-- The entry of the FX in progress on a slot: its index in the queue, and its fields. -/
def fxEntry (t : Strand) (n : BitVec 5) : Option (Nat × XFmt) :=
  t.queue.zipIdx.findSome? (fun e =>
    match e.1.item, e.1.tags with
    | .instr (.fx m o), some _ => if m = n then some (e.2, o) else none
    | _, _ => none)

/-- The tags of the entries of strand k that a condition picks, replaced. -/
def setTags (s : State) (k : Nat) (p : QEntry → Bool) (g : Option Tags) : State :=
  s.modStrand k (fun t => { t with queue := t.queue.map (fun e => if p e then { e with tags := g } else e) })

/-- The number of the next tag of strand k's share (R47). -/
def tagNumber (s : State) (k : Nat) : Nat := (s.core (s.strand k).coreNo).tagNext.getD (s.strand k).shareD.lg 0

/-- The tags of a comb instruction of strand k in progress: one micro-operation (R46). -/
def combTags (s : State) (k : Nat) (a : Part) : Tags := { Tags.given 1 (tagNumber s k) a with issued := 1, taken := true }

/-- Whether an entry is the FX of a slot in progress, or an FCFG that waits on it. -/
def QEntry.inComb (e : QEntry) (n : BitVec 5) : Bool :=
  e.tags.isSome && (match e.item with
    | .instr (.fx m _) => m == n
    | .instr (.fcfg o) => o.imm.extractLsb' 0 5 == n
    | _ => false)

/-- The registers of an FX: va, vb, vc. -/
def fxRegs (o : XFmt) : List (BitVec 6) := [o.va, o.vb, o.imm.extractLsb' 4 6]

/-- Stream inputs of an image: EDGE index and stream. -/
def streamEdges (m : Image) : List (Nat × BitVec 4) :=
  (List.range 8).filterMap (fun k =>
    let e := m.edges.getD k 0
    if edgeKind e = 2 then some (k, BitVec.ofNat 4 (edgeIndex e)) else none)

/-- What the start of an FX finds wrong: fields, length or streams that do not match the image (code 5), or a length other
than the first FX's (code 2). -/
def startFault (t : Strand) (e : QEntry) (o : XFmt) (x : CombCtx) : Option Nat :=
  let len := e.arg o.ga
  let regEdges := x.image.edges.filter (fun d => edgeKind d == 1)
  let ok5 := ((fxRegs o).drop x.image.regCount).all (fun r => r == 0) &&
    regEdges.all (fun d => decide (len.toNat ≤ e.grant * 2048 / etw (edgeEt d))) &&
    (streamEdges x.image).all (fun d =>
      let y := t.stream d.2
      y.bound && !y.isWrite && y.et == edgeEt (x.image.edges.getD d.1 0))
  if !ok5 then some 5 else if x.len ≠ len then some 2 else none

/-- The stream positions that an FX has reached, as its edge indices. -/
def noteStreams (t : Strand) (x : CombCtx) : CombCtx :=
  { x with edgeIdx := (streamEdges x.image).foldl (fun l d => l.set d.1 (t.stream d.2).pos) x.edgeIdx }

/-- The streams of an FX set to its edge indices. -/
def resumeStreams (t : Strand) (x : CombCtx) : Strand :=
  (streamEdges x.image).foldl (fun t d => t.setPos d.2 (x.edgeIdx.getD d.1 0)) t

/-- The registers of a strand whose FX stops: elements 0 to OUTPOS − 1 of vd, and OUTPOS in gd, unless an older instruction has still to
write that (R208).
DEDUCED, unsafe: notes/assumptions/44. -/
def stopRegs (t : Strand) (x : CombCtx) : Strand :=
  match fxEntry t x.slot with
  | some (j, o) =>
    let t := t.setVreg o.vd (overlay (t.vreg o.vd) x.vd (x.outpos * etw x.image.outet))
    if (t.queue.take j).any (fun e => e.gdest == some o.gd) then t else t.setGreg o.gd (BitVec.ofNat 64 x.outpos)
  | none => t

/-- The FX of a context stopped (R212): buffers flushed, ports freed, flags ORed in, vd and gd written, the record written, the entry
left queued; with the trap of a record that cannot be written. -/
def stopFx (s : State) (core : Nat) (x : CombCtx) : State × Option Trap :=
  let k := x.owner
  let n := x.slot
  let s := freePorts (flushCtx s core x) core x
  let s := s.modStrand k (fun t => (stopRegs t x).orFlags x.flags)
  let x := { noteStreams (s.strand k) x with running := false, flags := 0, closed := 0, idle := 0 }
  let s := setTags s k (fun e => e.inComb n) none
  let s := s.modSlot k n (fun f => { f.note x with state := .stopped })
  match writeRecord s x .stopped true with
  | .ok s => (s.putCtx core { x with unsaved := false }, none)
  | .error t => (s.putCtx core { x with unsaved := true }, some t)

/-- Every FX in progress of strand k stopped (R214). -/
def stopFxs (s : State) (k : Nat) : State :=
  ((s.core (s.strand k).coreNo).comb.filter (fun x => x.owner == k && x.running)).foldl
    (fun s x => (stopFx s (s.strand k).coreNo x).1) s

/-- A context at the start of an FX that does not resume (R207). -/
def freshCtx (x : CombCtx) (arg len : Word) : CombCtx :=
  { x with
    nodes := x.image.nodes.zipIdx.map (fun d => CombNode.fresh ((List.range 8).map (fun b =>
      if b = 7 then arg else x.image.banks.getD (8 * d.2 + b) 0)))
    edgeIdx := List.replicate 8 0, edgeEnded := List.replicate 8 false, outpos := 0, outEnded := false, arg := arg
    len := len, flags := 0 }

/-- FX at its start.
DEDUCED, unsafe: notes/assumptions/44. -/
def startFx (s : State) (k : Nat) (n : BitVec 5) (o : XFmt) (x : Work) (a : Part) : Ran :=
  let f := (s.strand k).fslot n
  let new := o.imm.getLsbD 0
  if !f.bound then .trap (Trap.at .fabricUnbound (n.setWidth 64)) false s a
  else if f.state = .done ∧ !new then
    .ok (s.modSlot k n (fun f => { f with state := .idle })) { a with gd := some 0 }
  else match s.resident k n with
    | none => .wait
    | some (core, c) =>
      if (streamEdges c.image).any (fun d => waitsForTable s k x.t d.2 x.e) then .wait
      else
        let resumes := f.state == .stopped || (f.state == .full && !new)
        let c := if resumes then c else freshCtx c (x.e.arg o.gb) (x.e.arg o.ga)
        let c := { c with running := true, vd := x.t.vreg o.vd, drm := x.t.drm, grant := x.e.grant, idle := 0, closed := 0
                          outpos := if f.state = .full then 0 else c.outpos }
        let s' := setTags (s.putCtx core c) k (fun e => e.order == x.e.order) (some (combTags s k a))
        match startFault x.t x.e o c with
        | some code =>
          let r := stopFx s' core c
          .trap (r.2.getD (fabricFault n code)) false r.1 { a with v := (r.1.strand k).vreg o.vd }
        | none => .hold (takePorts (s'.modStrand k (fun t => if resumes then resumeStreams t c else t)) core c)

/-- The FX of a context at its end (R207): what it has written, the count to gd, the slot's new state; its entry is
complete. Its flags are ORed in when it is DONE; those of a FULL slot stay in the context and its record (Table 8.9). -/
def finishFx (s : State) (core : Nat) (x : CombCtx) (st : SlotState) (count : Nat) : State :=
  let k := x.owner
  let s := freePorts (flushCtx s core x) core x
  let t := s.strand k
  let full := st == .full
  let part : Part := ⟨x.vd, 0, some (BitVec.ofNat 64 count), if full then 0 else x.flags, t.rsr, []⟩
  let x := { noteStreams t x with
    running := false, flags := if full then x.flags else 0, idle := 0, outpos := if full then 0 else x.outpos }
  let s := s.modStrand k (fun t => { t with queue := t.queue.map (fun e =>
    if e.inComb x.slot && (match e.item with | .instr (.fx _ _) => true | _ => false)
    then { e with tags := e.tags.map (fun g => { g with produced := 1, out := part }) } else e) })
  (s.modSlot k x.slot (fun f => { f.note x with state := st })).putCtx core x

/-! FCFG (R209). -/

/-- The tokens that the nodes of a region hold. -/
def regionTokens (x : CombCtx) (mask : BitVec 16) : Nat :=
  ((List.range x.nodes.length).map (fun n => if mask.getLsbD n then (x.node n).held else 0)).sum

/-- A patch: its nodes, and their route words. -/
def readPatch (s : State) (g : VAgent) (va : Nat) : Except Trap (BitVec 16 × List (Nat × Word) × State) :=
  match recordV s g va 1 with
  | .error t => .error t
  | .ok (r, s) =>
    let mask : BitVec 16 := BitVec.ofNat 16 r
    let nodes := (List.range 16).filter (fun n => mask.getLsbD n)
    match recordV s g (va + 8) nodes.length with
    | .error t => .error t
    | .ok (w, s) => .ok (mask, nodes.zipIdx.map (fun n => (n.1, BitVec.ofNat 64 (field w (8 * n.2) 8))), s)

/-- An image with the routes of a patch. -/
def patched (m : Image) (l : List (Nat × Word)) : Image := { m with routes := l.foldl (fun r x => r.set x.1 x.2) m.routes }

/-- The new routes written into the context and into the image in memory, and the links reopened. -/
def applyPatch (s : State) (core : Nat) (x : CombCtx) (l : List (Nat × Word)) : Except Trap State :=
  let t := s.strand x.owner
  let base := (t.fslot x.slot).image.toNat + imageHeader + 8 * shapeNodes x.image.shape
  let written := l.foldl (fun (r : Except Trap State) d =>
    match r with
    | .error e => .error e
    | .ok s => storeV (gatherAgent t) false 2 (base + 8 * d.1) (leBytes 8 d.2.toNat) s) (.ok s)
  match written with
  | .error e => .error e
  | .ok s => .ok (s.putCtx core { x with image := patched x.image l, closed := 0 })

/-- The tokens of a region discarded and counted as abandoned. -/
def abandon (s : State) (core : Nat) (x : CombCtx) (mask : BitVec 16) : CombCtx × State :=
  let y := { x with nodes := x.nodes.zipIdx.map (fun d =>
    if mask.getLsbD d.2 then { d.1 with fifos := List.replicate 4 [], window := [] } else d.1) }
  let s := (s.putCtx core y).modSlot x.owner x.slot (fun f =>
    { f with abandoned := f.abandoned + BitVec.ofNat 64 (regionTokens x mask) })
  (y, if y.running then s else s.modSlot x.owner x.slot (fun f => f.note y))

/-- FCFG: it checks the patched configuration, closes the region's links until it holds no token, and then writes the
routes; with no FX in progress the region must be empty already. -/
def runFcfg (s : State) (k : Nat) (o : XFmt) (x : Work) (a : Part) : Ran :=
  let n : BitVec 5 := o.imm.extractLsb' 0 5
  let va := x.e.arg o.ga
  if !((s.strand k).fslot n).bound then .trap (Trap.at .fabricUnbound (n.setWidth 64)) false s a
  else if va.toNat % 64 ≠ 0 then .trap (Trap.at .align va) false s a
  else match s.resident k n with
    | none => .wait
    | some (core, c) =>
      match readPatch s (gatherAgent x.t) va.toNat with
      | .error t => .trap t false s a
      | .ok (mask, l, s) =>
        match l.find? (fun d => decide (shapeNodes c.image.shape ≤ d.1)) with
        | some d => .trap (loaderTrap 2 d.1) false s a
        | none =>
          match checkConfig (patched c.image l) with
          | .error t => .trap t false s a
          | .ok _ =>
            let done (c : CombCtx) (s : State) : Ran :=
              match applyPatch s core c l with
              | .ok s => .ok s a
              | .error t => .trap t false (s.putCtx core { c with closed := 0 }) a
            if o.imm.getLsbD 5 then
              let r := abandon s core c mask
              done r.1 r.2
            else if regionTokens c mask = 0 then done c s
            else if c.running then
              .hold (setTags (s.putCtx core { c with closed := mask }) k (fun e => e.order == x.e.order)
                (some (combTags s k a)))
            else .trap (fabricFault n 3) false (s.putCtx core { c with closed := 0 }) a

/-! The other instructions at the queue head (R206). -/

/-- A slot released: its context freed, its state discarded (FFREE). -/
def releaseSlot (s : State) (k : Nat) (n : BitVec 5) : State :=
  let s := match s.ctxOf k n with
    | some (c, x) => (freePorts (flushCtx s c x) c x).dropCtx c x
    | none => s
  s.modSlot k n (fun _ => FSlot.free)

/-- Every fabric binding of strand k undone: its contexts are free. -/
def undoBindings (s : State) (k : Nat) : State :=
  ((List.range 32).filter (fun n => ((s.strand k).fslot (BitVec.ofNat 5 n)).bound)).foldl
    (fun s n => releaseSlot s k (BitVec.ofNat 5 n)) s

/-- Fabric slots bound by the strands of a hive (R205). -/
def slotsBound (s : State) (hive : Nat) : Nat :=
  ((s.strands.filter (fun t => !t.status.isEnded && t.hive == hive)).map (fun t =>
    (t.fslots.toList.filter (fun f => f.bound)).length)).sum

/-- The bindings that a hive's own strands may hold: its FSLOTS less what its children have (R69). -/
def ownSlots (s : State) (h : Hive) : Nat :=
  h.fslots - ((s.hives.filter (fun k => k.parent == h.id)).map (fun k => k.fslots)).sum

/-- Whether a restart area is mapped writable, and why not. -/
def areaFault (s : State) (g : VAgent) (va : Nat) : Option Reason :=
  match locateV s g va .write with
  | .error r => some r
  | .ok (.shadow _ _ _ _, _) => some .notPermitted
  | .ok (.mem _ e, _) => if e.tw then some .notPermitted else none
  | .ok _ => none

/-- The state that KEEP adopts from the record at an area: STATE, its word, and the balance. -/
def adoptedState (s : State) (g : VAgent) (n : BitVec 5) (m : Image) (area : Nat) :
    Except Trap (SlotState × Nat × Nat × State) :=
  match recordV s g area 13 with
  | .error t => .error t
  | .ok (r, s) =>
    let w := field r 0 8
    if field r 8 8 = m.imgid.toNat ∧ bits w 6 2 = n.toNat then
      match bits w 1 0 with
      | 1 => .ok (.full, w, field r 0x60 8, s)
      | 2 => .ok (.stopped, w, field r 0x60 8, s)
      | _ => .ok (.idle, 0, 0, s)
    else .ok (.idle, 0, 0, s)

/-- FBIND (R206, R337). -/
def runFbind (s : State) (k : Nat) (o : XFmt) (x : Work) (a : Part) : Ran :=
  let n : BitVec 5 := o.imm.extractLsb' 0 5
  let ga := x.e.arg o.ga
  let gb := x.e.arg o.gb
  let g := gatherAgent x.t
  let fail (t : Trap) : Ran := .trap t false s a
  if ga.toNat % 64 ≠ 0 then fail (Trap.at .align ga)
  else match loadImage s g ga.toNat with
    | .error t => fail t
    | .ok (h, m, s') =>
      match checkImage h x.t.shareD.size m with
      | .error t => fail t
      | .ok _ =>
        if gb.toNat % 4096 ≠ 0 then fail (Trap.at .align gb)
        else match areaFault s' g gb.toNat with
          | some r => fail (batchTrap .write [⟨0, gb.toNat, r⟩])
          | none =>
            let bound := slotsBound s x.t.hive - ((s.strand k).fslot n).bound.toNat
            if ownSlots s (s.hive x.t.hive) ≤ bound then fail ⟨.hiveLimit, encode (.fbind o), 0, 0x0A⟩
            else
              let kept := if o.imm.getLsbD 5 then adoptedState s' g n m gb.toNat else .ok (.idle, 0, 0, s')
              match kept with
              | .error t => fail t
              | .ok (st, w, held, s) =>
                let s := releaseSlot s k n
                let s := { s with nextCmd := s.nextCmd + 1 }.modSlot k n (fun f =>
                  { f with bound := true, image := ga, area := gb, state := st, order := s.nextCmd
                           lastCtx := bits w 9 8, outpos := bits w 63 32, balance := held })
                if (regionCtxs s x.t.coreNo x.t.shareD.lg).length < 4 then
                  match loadSlot s k n with
                  | .ok (some s) => .ok s a
                  | _ => .ok s a
                else .ok s a

/-- FSTAT (R206, R352): the value that k selects. -/
def statValue (s : State) (k : Nat) (n : BitVec 5) (sel : Nat) : Word :=
  let f := (s.strand k).fslot n
  let c := (s.resident k n).map (fun c => c.2)
  match sel with
  | 0 => BitVec.ofNat 64 (stateWord f.state n ((c.map (fun x => x.num)).getD f.lastCtx) ((c.map (fun x => x.outpos)).getD f.outpos))
  | 1 => f.firings
  | 2 => f.abandoned
  | 3 => f.stalls
  | 4 => c.elim (BitVec.allOnes 64) (fun x => BitVec.ofNat 64 x.num)
  | _ => BitVec.ofNat 64 ((c.map CombCtx.balance).getD f.balance)

/-- An instruction on a bound slot: it traps where a failed FBIND has left the slot unbound. -/
def onSlot (s : State) (k : Nat) (n : BitVec 5) (a : Part) (f : Ran) : Ran :=
  if ((s.strand k).fslot n).bound then f else .trap (Trap.at .fabricUnbound (n.setWidth 64)) false s a

/-- FCTX PIN: with 3 contexts of the region pinned already, its own among them, gd receives all ones. -/
def pinCtx (s : State) (core : Nat) (c : CombCtx) (a : Part) : Ran :=
  if 3 ≤ ((regionCtxs s core c.lg).filter (fun y => y.pinned)).length then .ok s { a with gd := some (BitVec.allOnes 64) }
  else .ok (s.putCtx core { c with pinned := true }) { a with gd := some (BitVec.ofNat 64 c.num) }

/-- What a comb instruction does at the queue head, where every earlier one of its strand has left the comb. -/
def runComb (i : Instr) (s : State) (k : Nat) (x : Work) (a : Part) : Ran :=
  match i with
  | .fbind o => runFbind s k o x a
  | .ffree o => .ok (releaseSlot s k (o.imm.extractLsb' 0 5)) a
  | .fx n o => startFx s k n o x a
  | .fcfg o => runFcfg s k o x a
  | .fdrain o =>
    let n : BitVec 5 := o.imm.extractLsb' 0 5
    onSlot s k n a (.ok ((s.resident k n).elim s (fun c => flushCtx s c.1 c.2)) a)
  | .fstat o =>
    let n : BitVec 5 := o.imm.extractLsb' 0 5
    onSlot s k n a (.ok s { a with gd := some (statValue s k n (bits o.imm.toNat 8 5)) })
  | .fctxLoad o =>
    let n : BitVec 5 := o.imm.extractLsb' 0 5
    onSlot s k n a (match s.resident k n with
      | some c => .ok s { a with gd := some (BitVec.ofNat 64 c.2.num) }
      | none => .wait)
  | .fctxPin o =>
    let n : BitVec 5 := o.imm.extractLsb' 0 5
    onSlot s k n a (match s.resident k n with
      | some c => pinCtx s c.1 c.2 a
      | none => .wait)
  | .fctxUnpin o =>
    let n : BitVec 5 := o.imm.extractLsb' 0 5
    onSlot s k n a (.ok ((s.resident k n).elim s (fun c => s.putCtx c.1 { c.2 with pinned := false })) { a with gd := some 0 })
  | .fctxEvict o =>
    let n : BitVec 5 := o.imm.extractLsb' 0 5
    onSlot s k n a (match s.ctxOf k n with
      | some c =>
        match evictCtx s c.1 c.2 with
        | .ok s => .ok s { a with gd := some 0 }
        | .error t => .trap t false s a
      | none => .ok s { a with gd := some 0 })
  | _ => .wait

/-- Whether a comb instruction needs its slot resident before it can go on. -/
def needsContext (s : State) (k : Nat) (i : Instr) : Option (BitVec 5) :=
  let want (n : BitVec 5) : Option (BitVec 5) :=
    if ((s.strand k).fslot n).bound && (s.resident k n).isNone then some n else none
  match i with
  | .fx n o => if ((s.strand k).fslot n).state = .done ∧ !o.imm.getLsbD 0 then none else want n
  | .fcfg o | .fctxLoad o | .fctxPin o => want (o.imm.extractLsb' 0 5)
  | _ => none

end Sys2Proof.Machine
end

