-- ==== Sys2Proof/Machine/Queue.lean ====
section
/-! DEFINITION. The queue of a strand: how an instruction enters it, runs at its head, is written back and retires
(spec/02 R42 to R46, spec/05 R136, spec/10 R245, spec/11 R252, R259, spec/17 R437). -/

namespace Sys2Proof.Machine

/-! VPUSH and VWAITF (R245, R437). -/

/-- The live strand of a STRANDID in a hive. -/
def strandOf (s : State) (hive : Nat) (id : Word) : Option Nat :=
  (List.range s.strands.length).find? (fun k =>
    let t := s.strand k
    !t.status.isEnded && t.hive == hive && t.strandId.toNat == id.toNat)

/-- VPUSH: waits for its target, or transfers the value in one step as a release at DEVICE scope.
DEDUCED, safe: notes/assumptions/14. -/
def runVpush (o : XFmt) (s : State) (k : Nat) (x : Work) (a : Part) : Ran :=
  let id := x.e.arg o.ga
  let fault : Ran := .trap (Trap.at .pushFault id) false s a
  match strandOf s x.t.hive id with
  | none => fault
  | some q =>
    let t := s.strand q
    if q = k then fault
    else if !t.placed || t.resuming || t.pushBits.getLsbD o.vd.toNat || decide (16 ≤ t.pushed.length) then .wait
    else if t.budget ≤ o.vd.toNat then fault
    else
      let s := releaseL1 s ⟨x.t.hive, x.t.share, true⟩ 2
      .ok (s.modStrand q (fun t => { t with
        pushBits := t.pushBits ||| (1 : Word) <<< o.vd.toNat
        pushed := t.pushed ++ [⟨o.vd, x.e.grant, x.t.vreg o.va⟩] })) a

/-- VWAITF: waits for bit vd, then takes the value as an acquire at DEVICE scope. -/
def runVwaitf (o : XFmt) (s : State) (k : Nat) (x : Work) (a : Part) : Ran :=
  match x.t.pushed.find? (fun p => p.reg == o.vd) with
  | none => .wait
  | some p =>
    let s := acquireL1 s ⟨x.t.hive, x.t.share, true⟩ 2
    let s := s.modStrand k (fun t => { t with
      pushBits := t.pushBits &&& ~~~((1 : Word) <<< o.vd.toNat), pushed := t.pushed.erase p })
    .ok s { a with v := overlay a.v p.val (2048 * min p.egs x.e.grant) }

/-! What each instruction does. -/

/-- The meaning of a queued instruction over the elements to do. -/
def runItem (i : Instr) (s : State) (k : Nat) (x : Work) (a : Part) : Ran :=
  match i with
  | .vadd o => .ok s (runVadd o x a) | .vsub o => .ok s (runVsub o x a) | .vmul o => .ok s (runVmul o x a)
  | .vmulh o => .ok s (runVmulh o x a) | .vdiv o => .ok s (runVdiv o x a) | .vmin o => .ok s (runVmin o x a)
  | .vmax o => .ok s (runVmax o x a) | .vabs o => .ok s (runVabs o x a) | .vneg o => .ok s (runVneg o x a)
  | .vand o => .ok s (runVand o x a) | .vor o => .ok s (runVor o x a) | .vxor o => .ok s (runVxor o x a)
  | .vshl o => .ok s (runVshl o x a) | .vshr o => .ok s (runVshr o x a) | .vsar o => .ok s (runVsar o x a)
  | .vclamp o => .ok s (runVclamp o x a) | .vfma o => .ok s (runVfma o x a) | .vsqrt o => .ok s (runVsqrt o x a)
  | .vrcp o => .ok s (runVrcp o x a) | .vrsq o => .ok s (runVrsq o x a) | .vexp2 o => .ok s (runVexp2 o x a)
  | .vlog2 o => .ok s (runVlog2 o x a) | .vtanh o => .ok s (runVtanh o x a) | .vcmp c o => .ok s (runVcmp c o x a)
  | .vsel o => .ok s (runVsel o x a) | .vcvt o => .ok s (runVcvt o x a) | .vred o => .ok s (runVred o x a)
  | .vscan o => .ok s (runVscan o x a) | .vcomp o => .ok s (runVcomp o x a) | .vexpd o => .ok s (runVexpd o x a)
  | .vslide o => .ok s (runVslide o x a) | .vperm o => .ok s (runVperm o x a) | .vhad o => .ok s (runVhad o x a)
  | .vbcast o => .ok s (runVbcast o x a) | .vindex o => .ok s (runVindex o x a) | .vext o => .ok s (runVext o x a)
  | .vins o => .ok s (runVins o x a) | .vzip o => .ok s (runVzip o x a) | .vunzip o => .ok s (runVunzip o x a)
  | .mkand o => .ok s (runMkand o x a) | .mkor o => .ok s (runMkor o x a) | .mkxor o => .ok s (runMkxor o x a)
  | .mknot o => .ok s (runMknot o x a) | .mkpopc o => .ok s (runMkpopc o x a)
  | .mkfirst o => .ok s (runMkfirst o x a) | .mktest o => .ok s (runMktest o x a) | .mkset o => .ok s (runMkset o x a)
  | .vld o => runVld o s k x a | .vst o => runVst o s k x a | .vldx o => runVldx o s k x a
  | .vstx o => runVstx o s k x a | .vamo o => runVamo o s k x a | .vldfe o => runVldfe o s k x a
  | .vpf o => runVpf o s k x a | .sbind o => runSbind o s k x a | .sset o => runSset o s k x a
  | .sget o => runSget o s k x a | .sadv o => runSadv o s k x a | .vpush o => runVpush o s k x a
  | .vwaitf o => runVwaitf o s k x a | .tmode o => runTmode o s k x a | .topa o => runTopa o s k x a
  | .tops o => runTops o s k x a | .tzero o => runTzero o s k x a | .trd o => runTrd o s k x a
  | .twr o => runTwr o s k x a | .tscl o => runTscl o s k x a
  | i => runComb i s k x a

/-- The length of an instruction. -/
def lengthOf (x : Shape) (e : QEntry) : Nat := x.gl.elim 0 (vlenOf e)

/-- The first element that it has not completed. -/
def firstLeft (x : Shape) (e : QEntry) : Nat := if x.last && !e.done x then 0 else min (e.p * uopElems x) (lengthOf x e)

/-- An instruction at work on all that it has not completed, over a strand's registers. -/
def wholeWork (t : Strand) (e : QEntry) (x : Shape) : Work := ⟨t, e, lengthOf x e, firstLeft x e, lengthOf x e⟩

/-- What an instruction has written before it starts, with the flags of what a save has completed of it (R150), and the generators as
its leading EGs have left them (R153). -/
def startPart (t : Strand) (e : QEntry) (x : Shape) : Part :=
  { v := x.vd.elim 0 t.vreg, m := x.md.elim 0 t.mreg, gd := none, flags := e.flags, rsr := stepGens t.rsr e.pre }

/-! Generators (R153). Which generators an instruction steps follows from its masks and its length, so that those it finds can be
counted before older instructions have produced anything. -/

/-- The RM field of a stepping instruction. -/
def rmField : Instr → BitVec 3
  | .vadd o | .vsub o | .vmul o | .vdiv o | .vfma o | .vsqrt o | .vrcp o | .vrsq o | .vexp2 o | .vlog2 o | .vtanh o
  | .vcvt o | .vred o | .vscan o | .vhad o => o.rm
  | .trd o | .twr o => o.q.setWidth 3
  | _ => 0

/-- Whether what an entry writes hangs on the generators: it rounds by RSR (Table 6.4). -/
def readsGens (i : Instr) (x : Shape) (e : QEntry) : Bool := x.steps && roundMode (rmField i) e.drm == 5

/-- The generators that elements lo to hi − 1 of an entry step, over the masks of a strand; a tile instruction steps those of its
governed positions (R184). -/
def stepsOf (v : Strand) (i : Instr) (x : Shape) (e : QEntry) (lo hi : Nat) : List Nat :=
  if !x.steps then []
  else match i with
  | .trd o | .twr o => (tilePositions o ⟨v, e, 0, 0, 0⟩).map (fun p => p.1)
  | _ => (List.range' lo (hi - lo)).filter (governs v (maskOf i).1 (maskOf i).2 e.underM7)

/-- All the generators that an entry steps from where its strand's stand, and those stepped out of order behind it. -/
def allSteps (v : Strand) (i : Instr) (x : Shape) (e : QEntry) : List Nat :=
  e.pre ++ stepsOf v i x e (firstLeft x e) (lengthOf x e) ++ e.post

/-- Those that its elements before a number of micro-operations step, where its leading EGs up to p have stepped theirs. -/
def stepsBefore (v : Strand) (i : Instr) (x : Shape) (e : QEntry) (uops : Nat) : List Nat :=
  if x.last && decide (uops < uopCount x e) then []
  else stepsOf v i x e (firstLeft x e) (min (uops * uopElems x) (lengthOf x e))

/-! Writing back and retiring. -/

/-- The destinations of an instruction written to its strand. -/
def commitRegs (t : Strand) (x : Shape) (a : Part) : Strand :=
  let t := x.vd.elim t (fun r => t.setVreg r a.v)
  let t := x.md.elim t (fun r => t.setMreg r a.m)
  let t := match x.gd, a.gd with
    | some r, some w => t.setGreg r w
    | _, _ => t
  { t.orFlags a.flags with rsr := if x.steps then a.rsr else t.rsr }

/-- A capture that receives a forwarded value (R43). -/
def Capture.fill (c : Capture) (r : BitVec 5) (w : Word) : Capture :=
  if c.reg == r && c.val.isNone then { c with val := some w } else c

/-- TMODE's M: its operand, bounded by what it sampled of TGRANT (R178). -/
def tmodeMvl (o : IFmt) (e : QEntry) : Nat := if (e.arg o.ga).toNat < e.mvl then (e.arg o.ga).toNat else e.mvl

/-- An entry whose captures receive a value; a TMODE that then knows an operand that it accepts settles its M. -/
def QEntry.receive (e : QEntry) (r : BitVec 5) (w : Word) : QEntry :=
  let f := { e with caps := e.caps.map (fun c => c.fill r w) }
  match e.item with
  | .instr (.tmode o) => if !e.known && f.setsMvl then { f with mvl := tmodeMvl o f } else f
  | _ => f

/-- A value forwarded to the younger entries that wait for it, up to the next writer of its register (R43). -/
def forwardGd (r : BitVec 5) (w : Word) : List QEntry → List QEntry
  | [] => []
  | e :: es => if e.gdest == some r then e.receive r w :: es else e.receive r w :: forwardGd r w es

/-- Every entry after a settled TMODE captures its M, and the last settled M is the one in force; a TMODE that is to trap for its
operand settles none (R44, R178). -/
def settleMvl (t : Strand) : Strand :=
  let out := t.queue.foldl (fun (acc : List QEntry × Option Nat) e =>
    match e.item with
    | .instr (.tmode _) => (acc.1 ++ [e], if e.setsMvl then some e.mvl else acc.2)
    | _ => (acc.1 ++ [acc.2.elim e (fun m => { e with mvl := m })], acc.2)) ([], none)
  { t with queue := out.1, mvl := out.2.getD t.mvl }

/-- The streams that an instruction advances, and by how much: a load or store by its length, a TOPA or TOPS each enabled scale stream by
its need, once (R112, R158). -/
def streamMoves (e : QEntry) : List (BitVec 4 × Nat) :=
  match e.item with
  | .instr (.topa o) | .instr (.tops o) => (scaleSides o).map (fun sx => (sx, scaleNeed o e))
  | _ => (streamUse e).toList

/-- Those streams advanced, past the blocks that a load has read (R166). -/
def advanceStreams (t : Strand) (e : QEntry) (blocks : List CodedBlock) : Strand :=
  (streamMoves e).foldl (fun t m => t.advance m.1 m.2 blocks) t

/-- The number of older held instructions still to complete before a recorded fault is delivered (R260). -/
def countDown (f : Option PendFault) : Option PendFault := f.map (fun p => { p with older := p.older - 1 })

/-- The queue after its head has gone. -/
def dropHead (t : Strand) (x : Shape) (a : Part) : Strand :=
  let rest := t.queue.drop 1
  let rest := match x.gd, a.gd with
    | some r, some w => forwardGd r w rest
    | _, _ => rest
  settleMvl { t with queue := rest, pendFault := countDown t.pendFault }

/-- What an instruction counts for in its hive (Table 3.6).
DEDUCED, safe: notes/assumptions/61. -/
def countWork (s : State) (hive : Nat) (i : Instr) (x : Shape) (e : QEntry) : State :=
  if (tileNamed i).isSome then s.modHive hive (fun h => { h with tileops := h.tileops + 1 })
  else if x.gl.isSome && e.tags.isNone then
    s.modHive hive (fun h => { h with egops := h.egops + BitVec.ofNat 64 (uopCount x e - e.p) })
  else s

/-- The barrier of a FENCE.VV that stands after an entry (R127). -/
def passFence (s : State) (k : Nat) (e : QEntry) : State :=
  let t := s.strand k
  e.fence.elim s (fun sc => acquireL1 s ⟨t.hive, t.share, true⟩ sc.toNat)

/-- A strand whose FDRAINs have all acted is Blocked by them no more (R206). -/
def undrain (t : Strand) : Strand :=
  match t.status with
  | .blocked (.fdrain _) =>
    if t.queue.any (fun e => (e.item matches .instr (.fdrain _)) && (e.tags.map (fun g => decide (g.produced < g.uops))).getD true)
    then t else { t with status := .running }
  | _ => t

/-- Strand k's queue head retired with what it has written: registers in program order, the forwarded value, the stream,
and the barrier that stood after it (R43, R45, R49). -/
def retireHead (s : State) (k : Nat) (i : Instr) (e : QEntry) (x : Shape) (a : Part) : State :=
  let s := countWork s (s.strand k).hive i x e
  let s := s.modStrand k (fun t => dropHead (advanceStreams { commitRegs t x a with
    rsr := stepGens (if x.steps then a.rsr else t.rsr) e.post } e a.blocks) x a)
  let s := passFence s k e
  let s := (streamMoves e).foldl (fun s m => requestWalks s k m.1) s
  if i matches .fdrain _ then s.modStrand k undrain else s

/-! What a younger instruction sees of older ones that are not complete (R43, R49). -/

/-- The bits of its vector or mask destination, of element width w, that an instruction renames (R45). -/
def extentBits (i : Instr) (x : Shape) (e : QEntry) (w : Nat) : Nat :=
  match x.gl, i with
  | some gl, _ => ceilDiv (vlenOf e gl * w) 2048 * 2048
  | none, .trd o => tileEgs o e * 2048
  | none, _ => 16384

/-- Those of them that it has produced. -/
def producedBits (i : Instr) (x : Shape) (e : QEntry) (g : Tags) (w : Nat) : Nat :=
  let all := extentBits i x e w
  if g.uops ≤ g.produced then all
  else if x.last then min (g.egs * 2048) all
  else min (g.produced * uopElems x * w) all

/-- A strand's registers as they stand after an entry that holds tags, as far as it has produced them, its generators and its
streams as it will leave them. -/
def applyTags (t : Strand) (e : QEntry) : Strand :=
  match e.item, e.tags with
  | .instr i, some g =>
    match shapeOf i with
    | some x =>
      let t := x.vd.elim t (fun r => t.setVreg r (overlay (t.vreg r) g.out.v (producedBits i x e g x.vdw)))
      let t := x.md.elim t (fun r => t.setMreg r (overlay (t.mreg r) g.out.m (min 8192 (producedBits i x e g 1))))
      advanceStreams { t with rsr := stepGens t.rsr (allSteps t i x e) } e g.out.blocks
    | none => t
  | _, _ => t

/-- The registers that entry j of a strand's queue reads. -/
def viewAt (t : Strand) (j : Nat) : Strand := (t.queue.take j).foldl applyTags t

/-- What an instruction has written, with what older ones have written beneath it. -/
def partOver (v : Strand) (i : Instr) (x : Shape) (e : QEntry) (g : Tags) : Part :=
  { g.out with
    v := x.vd.elim 0 (fun r => overlay (v.vreg r) g.out.v (producedBits i x e g x.vdw))
    m := x.md.elim 0 (fun r => overlay (v.mreg r) g.out.m (min 8192 (producedBits i x e g 1)))
    rsr := stepGens v.rsr (e.pre ++ stepsBefore v i x e g.produced) }

/-- Whether what a micro-operation reads of an older entry's destinations has been produced: it does not wait for whole
registers (R49). -/
def produced (n : Need) (i : Instr) (x : Shape) (d : QEntry) (g : Tags) : Bool :=
  let ok (w lo hi : Nat) : Bool :=
    let all := extentBits i x d w
    decide (all ≤ lo) || decide (min hi all ≤ producedBits i x d g w)
  n.vs.all (fun r => x.vd != some r.1 || ok x.vdw r.2.1 r.2.2) && n.ms.all (fun r => x.md != some r.1 || ok 1 r.2.1 r.2.2)

/-- The same of an entry of the queue; one that holds no tags has produced nothing. -/
def producedOf (n : Need) (d : QEntry) : Bool :=
  match d.item, d.tags with
  | .instr i, some g => (shapeOf i).elim false (fun x => produced n i x d g)
  | _, _ => false

/-- Tags of entry j of strand k changed. -/
def modTags (s : State) (k j : Nat) (f : Tags → Tags) : State :=
  s.modStrand k (fun t => { t with queue := modAt t.queue j (fun e => { e with tags := e.tags.map f }) })

/-- Replaces entry j of strand k's queue. -/
def setEntry (s : State) (k j : Nat) (e : QEntry) : State :=
  s.modStrand k (fun t => { t with queue := t.queue.set j e })

/-! Tile instructions that the matrix unit has taken (R188, R252). -/

/-- Whether an entry is a tile instruction that the unit has taken. -/
def QEntry.inUnit (e : QEntry) : Bool :=
  match e.item with
  | .instr i => (tileNamed i).isSome && (e.tags.map (fun g => g.taken)).getD false
  | .word _ => false

/-- The tile instruction of a strand that is in the unit: taken, and not yet complete. -/
def inUnitAt (t : Strand) : Option Nat :=
  t.queue.findIdx? (fun e => e.inUnit && (e.tags.map (fun g => decide (g.produced < g.uops))).getD false)

/-- Whether the unit of a core holds an instruction (R177). -/
def unitBusy (s : State) (core : Nat) : Bool :=
  s.strands.any (fun t => t.placed && t.coreNo == core && (inUnitAt t).isSome)

/-- The slot that the unit of a core looks at after strand k's (R51). -/
def passTurn (s : State) (k : Nat) : State :=
  let t := s.strand k
  s.modCore t.coreNo (fun c => { c with matNext := (t.shareD.lg / 2 + t.slot + 1) % 8 })

/-- Entry j of strand k leaves the unit: the tile access is performed, over the registers that it reads, and it is complete. A
TRD has its elements already. Its flags are ORed in with that, in the order in which instructions leave the unit (R177, R183,
R186). -/
def leaveAt (s : State) (k j : Nat) : State :=
  let t := s.strand k
  match t.queue[j]? with
  | none => s
  | some e =>
    match e.item, e.tags with
    | .instr i, some g =>
      match shapeOf i with
      | none => s
      | some x =>
        let v := viewAt t j
        let r := if g.ran then (s, g.out) else leaveUnit i g.scales s k (wholeWork v e x) (startPart v e x)
        modTags (r.1.modStrand k (fun t => t.orFlags r.2.flags)) k j (fun g =>
          { g with produced := 1, egs := 0, out := { r.2 with flags := 0 } })
    | _, _ => s

/-- The tile instruction of strand k that is in the unit completed. -/
def finishUnit (s : State) (k : Nat) : State := (inUnitAt (s.strand k)).elim s (leaveAt s k)

/-- Whether an entry steps generators. -/
def QEntry.stepper (e : QEntry) : Bool :=
  match e.item with
  | .instr i => (shapeOf i).any (fun x => x.steps)
  | .word _ => false

/-- Steps made behind the entries of a queue that a save or a trap keeps: they follow those of the last stepping one, or are the
strand's own where none of them has any to make. -/
def stepBehind (q : List QEntry) (t : Strand) (l : List Nat) : List QEntry × Strand :=
  match if q.all QEntry.saved then none else (q.zipIdx.filter (fun p => p.1.stepper)).getLast? with
  | some p => (modAt q p.2 (fun e => { e with post := e.post ++ l }), t)
  | none => (q, { t with rsr := stepGens t.rsr l })

/-- A tile instruction complete in the unit, entry j of strand k, written back out of the queue's order behind the entries q. -/
def leaveQueue (s : State) (k j : Nat) (q : List QEntry) (t : Strand) (e : QEntry) : List QEntry × Strand :=
  match e.item, e.tags with
  | .instr i, some g =>
    match shapeOf i with
    | none => (q, t)
    | some x =>
      stepBehind q (advanceStreams (commitRegs t { x with steps := false } (partOver t i x e g)) e []) (allSteps (viewAt (s.strand k) j) i x e)
  | _, _ => (q, t)

/-- The tile instructions that the unit has taken completed and out of the queue: neither held nor run again (R252). -/
def finishTaken (s : State) (k : Nat) : State :=
  let s := finishUnit s k
  let t := s.strand k
  let r := t.queue.zipIdx.foldl (fun (r : List QEntry × Strand) e =>
    if e.1.inUnit then leaveQueue s k e.2 r.1 r.2 e.1 else (r.1 ++ [e.1], r.2)) ([], t)
  s.setStrand k { r.2 with queue := r.1 }

/-- A trap of the queue head, with what it had written of its registers before it stopped (R115, R252); the FXs in progress
behind it stop and are held.
DEDUCED, unsafe: notes/assumptions/16. -/
def trapAtHead (s : State) (k : Nat) (tr : Trap) (underM7 : Bool) : State :=
  raiseQueued (finishTaken (stopFxs s k) k) k tr underM7

/-! The head of the queue. -/

/-- What the queue head comes to: nothing can happen, something began, or it left the queue, by completing or trapping. -/
inductive HeadStep where
  | stay
  | began (s : State)
  | left (s : State)

/-- Whether an entry is an FX in progress. -/
def QEntry.fxRuns (e : QEntry) : Bool :=
  (e.tags.map (fun g => decide (g.produced < g.uops))).getD false &&
    (match e.item with | .instr (.fx _ _) => true | _ => false)

/-- The queue holds at most 32 entries (R42). -/
def queueDepth : Nat := 32

/-- The queue head of strand k run whole: what completes there without tags, and where the model drains the queue as instructions
enter it, everything. A tile instruction takes its turn at the matrix unit; an FX in progress goes on in the comb until it has
ended, and an FCFG that waited behind it acts, or traps (R209). -/
def runHead (s : State) (k : Nat) : HeadStep :=
  let t := s.strand k
  match t.queue with
  | [] => .stay
  | e :: _ =>
    match e.item with
    | .word w =>
      let cause := if decode w = .illegalField then Cause.illegalField else Cause.illegalOp
      .left (trapAtHead s k (Trap.at cause w) e.underM7)
    | .instr i =>
      match shapeOf i with
      | none => .left (trapAtHead s k (Trap.at .illegalOp e.word) e.underM7)
      | some x =>
        match e.tags with
        | some g =>
          if g.uops ≤ g.produced then .left (retireHead s k i e x (partOver t i x e g))
          else if i matches .fcfg _ then
            match runItem i s k (wholeWork t e x) (startPart t e x) with
            | .ok s a => .left (retireHead s k i e x a)
            | .trap tr u s a => .left (trapAtHead (s.modStrand k (fun t => commitRegs t x a)) k tr u)
            | _ => .stay
          else .stay
        | none =>
        if !e.known then .stay
        else match firstTrap t [] i e with
          | some tr => .left (trapAtHead s k tr e.underM7)
          | none =>
            if e.done x then .left (retireHead s k i e x (startPart t e x))
            else if (tileNamed i).isSome && unitBusy s t.coreNo then .stay
            else match runItem i s k (wholeWork t e x) (startPart t e x) with
            | .wait => .stay
            | .hold s => .began s
            | .ok s a => .left (retireHead (if (tileNamed i).isSome then passTurn s k else s) k i e x a)
            | .trap tr u s a => .left (trapAtHead (s.modStrand k (fun t => commitRegs t x a)) k tr u)

/-- The first entry of a queue that holds no tags: the queue head of R45 to R47. -/
def nextUntagged (t : Strand) : Option Nat := t.queue.findIdx? (fun e => e.tags.isNone)

/-- Whether an instruction at the queue head waits under R45: a VLDFE for its granules, a VWAITF for its bit, a VPUSH for its
target, a load from a CF8 stream for its table (R167), a comb instruction for a context where none can be taken (R205). -/
def waitsAtHead (s : State) (k : Nat) (i : Instr) (e : QEntry) (x : Shape) (v : Strand) : Bool :=
  let stuck := runItem i s k (wholeWork v e x) (startPart v e x) matches .wait
  match i with
  | .vldfe _ | .vwaitf _ | .vpush _ | .vld _ => stuck
  | .fx _ _ | .fcfg _ | .fctxLoad _ | .fctxPin _ =>
    stuck && ((needsContext s k i).isNone || (takeContext s v.coreNo v.shareD.lg).isNone)
  | _ => false

/-- Whether strand k is Blocked because its queue head waits (R26, R45). -/
def headWaits (s : State) (k : Nat) : Bool :=
  let t := s.strand k
  match (nextUntagged t).bind (fun j => (t.queue[j]?).map (fun e => (j, e))) with
  | none => false
  | some (j, e) =>
    match e.item with
    | .word _ => false
    | .instr i => (shapeOf i).elim false (fun x => e.known && !e.done x && waitsAtHead s k i e x (viewAt t j))

/-- A fault that a save recorded, once the older held instructions have completed (R260). -/
def faultDue (t : Strand) : Bool := (t.pendFault.map (fun p => p.older == 0)).getD false

/-- Queue heads of strand k run until one waits or none is left. -/
def drain : Nat → State → Nat → State
  | 0, s, _ => s
  | n + 1, s, k =>
    if faultDue (s.strand k) || !(s.strand k).placed then s
    else match runHead s k with
      | .stay => s
      | .began s => s
      | .left s => drain n s k

/-- Whether entry j may go on: any, or one before a recorded fault (R260). -/
def goes (t : Strand) (j : Nat) : Bool := (t.pendFault.map (fun p => decide (j < p.older))).getD true

/-! The comb goes on beside the queue: its instructions enter it in queue order, and wait for those that name their slot (R206, R208,
R209). -/

/-- The instructions of the comb (Table 7.1). -/
def isComb : Instr → Bool
  | .fbind _ | .ffree _ | .fx _ _ | .fcfg _ | .fdrain _ | .fstat _ | .fctxLoad _ | .fctxPin _ | .fctxUnpin _ | .fctxEvict _ => true
  | _ => false

/-- The slot that a comb instruction names. -/
def combSlot : Instr → Option (BitVec 5)
  | .ffree o => some (o.imm.extractLsb' 0 5)
  | i => (slotBound i).orElse (fun _ => slotNeeded i)

/-- Whether an image reaches memory: a LOAD, a STORE or a stream input. -/
def Image.reaches (m : Image) : Bool :=
  m.used.any (fun n => [21, 22].contains (m.cfg n).op) || !(streamEdges m).isEmpty

/-- Whether a comb instruction of strand k makes V accesses; an FX does as its image says, once its slot is resident. -/
def combReaches (s : State) (k : Nat) : Instr → Bool
  | .fx n _ => (s.resident k n).elim true (fun c => c.2.image.reaches)
  | i => isMemoryAccess i

/-- The streams that an instruction takes elements from or moves. -/
def streamsOf (s : State) (k : Nat) (e : QEntry) : List (BitVec 4) :=
  match e.item with
  | .instr (.fx n _) => ((s.resident k n).elim [] (fun c => (streamEdges c.2.image).map (fun y => y.2)))
  | .instr (.topa o) | .instr (.tops o) => scaleSides o
  | .instr (.sbind o) | .instr (.sset o) | .instr (.sadv o) | .instr (.sget o) => [sxOf o]
  | _ => (streamUse e).toList.map (fun u => u.1)

/-- Whether an entry has acted: its micro-operations are all produced. -/
def QEntry.acted (e : QEntry) : Bool := (e.tags.map (fun g => decide (g.uops ≤ g.produced))).getD false

/-- Whether comb instruction i, entry e, may act beside an older entry d. Every earlier instruction of its slot has finished, an FX
apart for FCFG (R206, R209); no earlier V access is left where it makes some (R121, R127, R200); and none reads or writes its vd, or
uses one of its streams, which a stop would change before that.
DESIGN CHOICE, safe: notes/assumptions/69. -/
def combPasses (s : State) (k : Nat) (i : Instr) (x : Shape) (e d : QEntry) : Bool :=
  match d.item with
  | .word _ => false
  | .instr j =>
    let y := shapeOf j
    d.tags.isSome &&
    (d.acted || combSlot i != combSlot j || (i matches .fcfg _) && (j matches .fx _ _)) &&
    (!combReaches s k i || (d.fence.isNone && (d.acted || !(if isComb j then combReaches s k j else isMemoryAccess j)))) &&
    x.vd.all (fun r => y.all (fun y => y.vd != some r && !y.vs.contains r)) &&
    (streamsOf s k e).all (fun sx => !(streamsOf s k d).contains sx)

/-- Whether comb instruction i at entry j of strand k may act before older entries have left the queue. An FBIND or FFREE, which would
find its slot changed if it had to act again, waits for all of them.
DESIGN CHOICE, safe: notes/assumptions/69. -/
def combFree (s : State) (k j : Nat) (i : Instr) (x : Shape) (e : QEntry) : Bool :=
  isComb i && (combSlot i).isSome && !(i matches .fbind _) && !(i matches .ffree _) &&
    ((s.strand k).queue.take j).all (combPasses s k i x e)

/-- The comb instruction at entry j of strand k begun, or done, before older entries have left the queue, where it can be. A trap is
taken only at the head, and an FX on a DONE slot acts there. -/
def startBehind (s : State) (k j : Nat) : Option State :=
  let t := s.strand k
  match t.queue[j]? with
  | none => none
  | some e =>
    match e.item with
    | .word _ => none
    | .instr i =>
      match shapeOf i with
      | none => none
      | some x =>
        if e.tags.isNone && e.known && goes t j && (firstTrap t (t.queue.take j) i e).isNone && combFree s k j i x e then
          match runItem i s k (wholeWork (viewAt t j) e x) (startPart (viewAt t j) e x) with
          | .hold s => some s
          | .ok u a =>
            if i matches .fx _ _ then none
            else some ((setEntry u k j { e with tags := some { combTags s k a with produced := 1 } }).modStrand k undrain)
          | _ => none
        else none

/-- Comb instructions begun behind an FX in progress, n at most. -/
def startMore : Nat → State → Nat → State
  | 0, s, _ => s
  | n + 1, s, k =>
    match ((s.strand k).queue.findIdx? (fun e => e.tags.isNone)).bind (startBehind s k) with
    | some s => startMore n s k
    | none => s

/-- The queue of strand k drained, where the model does so as instructions enter it.
DESIGN CHOICE, safe: notes/assumptions/12. -/
def settleQueue (s : State) (k : Nat) : State :=
  if s.eager then startMore queueDepth (drain (queueDepth + 1) s k) k else s

/-! Entering the queue (R43, R44). -/

/-- The MVL that an entry carries: for TMODE, its M as far as it is known (R178, R396). -/
def captureMvl (s : State) (t : Strand) (i : Instr) (e : QEntry) : Nat :=
  match i with
  | .tmode o =>
    let e := { e with mvl := 128 / 2 ^ (s.core t.coreNo).mvlc }
    if e.setsMvl then tmodeMvl o e else e.mvl
  | _ => t.mvl

/-- The entry of an instruction: its operands as they stand, the grant, DRM and MVL in force. -/
def newEntry (s : State) (t : Strand) (i : Instr) (x : Shape) : QEntry :=
  let e : QEntry :=
    { item := .instr i, addr := t.pc
      caps := x.args.map (fun r => ⟨r, if t.pending r then none else some (t.greg r)⟩)
      p := 0, underM7 := false, mvl := t.mvl, grant := t.grant, drm := t.drm, order := s.nextCmd, flags := 0, fence := none
      tags := none }
  { e with mvl := captureMvl s t i e }

/-- A trap found at enqueue: the instruction is held, and the scalar stream goes on after it (R44, R252).
DEDUCED, unsafe: notes/assumptions/13. -/
def trapAtEnqueue (s : State) (e : QEntry) (tr : Trap) : State :=
  raiseQueued (s.modMe (fun t => { t with queue := [e], pc := t.pc + 8 })) s.cur tr false

/-- The entry of a word with a queued instruction's OP that no instruction has (R42, R44). -/
def wordEntry (s : State) (t : Strand) (w : Word) : QEntry :=
  { item := .word w, addr := t.pc, caps := [], p := 0, underM7 := false, mvl := t.mvl, grant := t.grant, drm := t.drm
    order := s.nextCmd, flags := 0, fence := none, tags := none }

/-- FDRAIN blocks the scalar stream from its enqueue on (R206). -/
def statusIn (i : Instr) (st : Status) : Status :=
  match i with
  | .fdrain _ => .blocked i
  | _ => st

/-- An instruction's entry put at the end of the issuing strand's queue. -/
def append (s : State) (i : Instr) (e : QEntry) : State :=
  { s with nextCmd := s.nextCmd + 1 }.modMe (fun t =>
    settleMvl { t with queue := t.queue ++ [e], pc := t.pc + 8, status := statusIn i t.status })

/-- A queued instruction enters its strand's queue; with a full queue, or a trap while older instructions are still in
the queue, it is as if not issued (R42, R44, R251). -/
def enqueue (i : Instr) (s : State) : Host.Outcome State Fault Refusal :=
  match shapeOf i with
  | none => .next s
  | some x =>
    scalarWait s
      (let t := s.me
       let e := newEntry s t i x
       match firstTrap t t.queue i e with
       | some tr => if t.queue.isEmpty then some (.ok (trapAtEnqueue s e tr)) else none
       | none =>
         if queueDepth ≤ t.queue.length then none
         else some (.ok (settleQueue (append s i e) s.cur)))

end Sys2Proof.Machine
end

