-- ==== Sys2Proof/Machine/Window.lean ====
section
/-! DEFINITION. Tags, micro-operations and the matrix unit: how queued instructions overlap, and the events that move
them along (spec/02 R45 to R51, spec/07 R175, R177, R186, R188, spec/11 R251, R252). What an instruction writes is kept
beside its tags and reaches its strand's registers in program order, when it retires. -/

namespace Sys2Proof.Machine

/-! Which instructions go through the window (R46, Table 7.1). -/

/-- Instructions whose micro-operations issue on the pipes of a share or go to the matrix unit. The others go to the comb, or
complete at the queue head. -/
def windowed : Instr → Bool
  | .vpush _ | .sbind _ => true
  | i => ((shapeOf i).bind (fun x => x.gl)).isSome || (tileNamed i).isSome

/-- Instructions that receive tags only when every older one has completed: those of R252; a VLDFE without .CLR, whose read is then
the next of its agent; and an SBIND, whose binding is then the next of its stream.
DESIGN CHOICE, safe: notes/assumptions/69. -/
def waitsForOlder : Instr → Bool
  | .vamo _ | .vldfe _ | .vpush _ | .sbind _ => true
  | _ => false

/-- Instructions that do their work in one step, when they receive their tags (R108, R245). -/
def runsAtTags : Instr → Bool
  | .vldfe _ | .vpush _ => true
  | _ => false

/-- Pipes of a share (R46); an instruction of length 0 occupies none. -/
inductive Pipe where
  | a | ls | pr | none
  deriving DecidableEq, Repr

/-- The pipe of a windowed instruction (Table 7.1). -/
def pipeOf : Instr → Pipe
  | .vld _ | .vst _ | .vldx _ | .vstx _ | .vamo _ | .vldfe _ | .vpf _ | .vpush _ | .sbind _ => .ls
  | .vred _ | .vscan _ | .vcomp _ | .vexpd _ | .vslide _ | .vperm _ | .vhad _ | .vbcast _ | .vindex _ | .vext _ | .vins _
  | .vzip _ | .vunzip _ | .mkpopc _ | .mkfirst _ | .mktest _ => .pr
  | _ => .a

/-- A floating VMUL or VFMA, of which a share issues one micro-operation a cycle (R46). -/
def usesMultiplier : Instr → Bool
  | .vmul o | .vfma o => etFloat o.et
  | _ => false

/-! The tag allocator (R45, R47). -/

/-- The number of the oldest tag of a share that is not freed, where next is the number of its next one: a tag is freed when its
micro-operation has completed and every older one is freed. -/
def oldestTag (s : State) (x : ShareRef) (next : Nat) : Nat :=
  ((s.strands.filter (fun t => t.placed && t.share == some x)).flatMap (fun t =>
    t.queue.filterMap (fun e => e.tags.bind (fun g =>
      if g.produced < g.uops then some (g.base + g.produced) else none)))).foldl min next

/-- Tags in use on the share of strand k (R47). -/
def tagsUsed (s : State) (k : Nat) : Nat := tagNumber s k - oldestTag s (s.strand k).shareD (tagNumber s k)

/-- Whether the window of strand k's share has n tags to give: 8 for each lane group (R47). -/
def tagRoom (s : State) (k n : Nat) : Bool := decide (tagsUsed s k + n ≤ 8 * (s.strand k).shareD.size)

/-- Tags of the share of strand k numbered. -/
def countTags (s : State) (k n : Nat) : State :=
  let t := s.strand k
  s.modCore t.coreNo (fun c => { c with tagNext := modAt c.tagNext t.shareD.lg (· + n) })

/-- The queue head of strand k as the allocator finds it: its place, its instruction and what that names, where its operands are
known and it does not trap. -/
def allocHead (s : State) (k : Nat) : Option (Nat × QEntry × Instr × Shape) :=
  let t := s.strand k
  if !t.onShare || faultDue t then none
  else (nextUntagged t).bind (fun j => (t.queue[j]?).bind (fun e =>
    match e.item with
    | .word _ => none
    | .instr i =>
      let older := t.queue.take j
      (shapeOf i).bind (fun x =>
        if goes t j && e.known && mvlSettled older && (firstTrap t older i e).isNone then some (j, e, i, x) else none)))

/-- Whether a windowed head may receive tags now: it does not wait (R45); a V access stays behind a FENCE.VV (R127), and a memory
access behind an SBIND. -/
def headFree (s : State) (k j : Nat) (e : QEntry) (i : Instr) (x : Shape) : Bool :=
  let t := s.strand k
  let older := t.queue.take j
  (!waitsForOlder i || j == 0) && !(e.vectorAccess && older.any (fun d => d.fence.isSome)) &&
  !(e.memoryAccess && older.any (fun d => d.item matches .instr (.sbind _))) &&
  (e.done x || !waitsAtHead s k i e x (viewAt t j))

/-- The tags that the queue head of strand k would receive: their number. A comb instruction takes one as it begins. -/
def tagWish (s : State) (k : Nat) : Option Nat :=
  (allocHead s k).bind (fun h =>
    let (j, e, i, x) := h
    if windowed i then (if headFree s k j e i x then some (uopCount x e) else none)
    else if isComb i then
      (if j = 0 then (if runHead s k matches .stay then none else some 1) else (startBehind s k j).map (fun _ => 1))
    else none)

/-- The strand of a core that its allocator serves: the first from the slot under its pointer that wants tags (R47). -/
def allocTurn (s : State) (core : Nat) : Option Nat :=
  let far (k : Nat) : Nat := ((s.strand k).coreSlot + 8 - (s.core core).tagTurn % 8) % 8
  (((List.range s.strands.length).filter (fun k =>
    (s.strand k).coreNo == core && (tagWish s k).isSome)).foldl (fun m k =>
      match m with
      | none => some k
      | some q => if far k < far q then some k else some q) none)

/-- The pointer of the allocator of strand k's core. -/
def setTurn (s : State) (k past : Nat) : State :=
  s.modCore (s.strand k).coreNo (fun c => { c with tagTurn := ((s.strand k).coreSlot + past) % 8 })

/-- A windowed head of strand k given its tags; one that does its work in one step does it now, or traps. -/
def giveWindow (s : State) (k j : Nat) (e : QEntry) (i : Instr) (x : Shape) : State :=
  let v := viewAt (s.strand k) j
  let n := uopCount x e
  let p := if x.last && !e.done x then 0 else min e.p n
  let g := { Tags.given n (tagNumber s k) (startPart v e x) with issued := p, produced := p }
  if runsAtTags i && !e.done x then
    match runItem i s k (wholeWork v e x) (startPart v e x) with
    | .ok s a => countTags (setEntry s k j { e with tags := some { g with ran := true, out := a } }) k n
    | .trap tr u s a => trapAtHead (s.modStrand k (fun t => commitRegs t x a)) k tr u
    | _ => s
  else countTags (setEntry s k j { e with tags := some g }) k n

/-- What the queue head comes to with its tags: in the window, or in the comb. -/
def giveTags (s : State) (k : Nat) : State :=
  match allocHead s k with
  | none => s
  | some (j, e, i, x) =>
    if windowed i then giveWindow s k j e i x
    else if j = 0 then
      match runHead s k with
      | .stay => s
      | .began t => countTags t k 1
      | .left t => countTags t k 1
    else (startBehind s k j).elim s (fun t => countTags t k 1)

/-- The allocator of strand k's core, where it serves strand k: it gives all the tags or none, and stays on a strand that cannot
receive enough (R47, R58). -/
def allocate (s : State) (k : Nat) : State :=
  match tagWish s k with
  | none => s
  | some n =>
    if allocTurn s (s.strand k).coreNo ≠ some k then s
    else if tagRoom s k n then giveTags (setTurn s k 1) k
    else setTurn s k 0

/-- Whether the queue head of strand k completes or traps without tags: an SSET, SGET, SADV, VWAITF or TMODE, one whose check fails,
one that a save found complete, a word that is no instruction (Table 7.1, R44). -/
def headTagless (s : State) (k : Nat) : Bool :=
  let t := s.strand k
  match t.queue with
  | [] => false
  | e :: _ =>
    e.tags.isNone && (match e.item with
      | .word _ => true
      | .instr i => (firstTrap t [] i e).isSome || e.saved || !(windowed i || isComb i))

/-- The queue head of strand k moved on, as far as it can be. -/
def moveHead (s : State) (k : Nat) : State :=
  let t := s.strand k
  if !t.onShare || faultDue t then s
  else if s.eager then settleQueue s k
  else if headTagless s k then
    match runHead s k with
    | .stay => s
    | .began s => s
    | .left s => s
  else allocate s k

/-- QUEUE_HEAD_TAG_ALLOCATION (R45, R47): the queue head of strand st is given its tags, or completes where it stands. -/
def execQueueHeadTagAllocation (st : Nat) (s : State) : Host.Outcome State Fault Refusal := .next (moveHead s st)

/-- Whether moveHead would change anything for strand k. -/
def headMoves (s : State) (k : Nat) : Bool :=
  let t := s.strand k
  if !t.onShare || faultDue t then false
  else if s.eager || headTagless s k then !(runHead s k matches .stay)
  else match tagWish s k with
    | none => false
    | some n => allocTurn s t.coreNo == some k && (tagRoom s k n || (s.core t.coreNo).tagTurn % 8 != t.coreSlot % 8)

/-! The sequencer (R48, R49). -/

/-- A vector access with an acquire or a release (R125). -/
def isOrdered : Instr → Bool
  | .vld o | .vst o | .vldx o | .vstx o | .vamo o | .vldfe o => o.ord != 0
  | _ => false

/-! The load-store queue: accesses to one byte keep program order, others may pass (R117, R121, R455). -/

/-- Bytes of one place: its space (0 memory, 1 any peer, 2 + c the scratchpad of core c), the first byte, and how many. -/
abbrev Span := Nat × Nat × Nat

/-- The bytes of an access of n bytes. Two accesses to peer modules count as one place. -/
def Place.span (n : Nat) : Place → Span
  | .mem pa _ => (0, pa, n)
  | .shadow _ _ pa _ => (0, pa, n)
  | .peer _ => (1, 0, 1)
  | .scratch c off => (2 + c, off, n)

/-- Whether two spans share a byte. -/
def Span.meets (a b : Span) : Bool := a.1 == b.1 && decide (a.2.1 < b.2.1 + b.2.2) && decide (b.2.1 < a.2.1 + a.2.2)

/-- The addresses that an instruction accesses for its governed elements from lo to hi − 1, with their kind and size; none where they
are not found from its operands: those of a CF8 stream's blocks, which are then taken to meet every other.
DESIGN CHOICE, safe: notes/assumptions/69. -/
def accessAddrs (v : Strand) (i : Instr) (e : QEntry) (lo hi : Nat) : Option (AccessKind × Nat × List Nat) :=
  let gov (o : VMFmt) : List Nat := (List.range' lo (hi - lo)).filter (governs v o.mk o.mn e.underM7)
  let stream (o : VMFmt) (k : AccessKind) : Option (AccessKind × Nat × List Nat) :=
    if (v.stream o.sx).coding = 1 then none
    else some (k, elemBytes (etw o.et), (gov o).map (fun n => (takenAddr v o.sx (etw o.et) n).1))
  match i with
  | .vld o | .vldfe o => stream o .read
  | .vst o => stream o .write
  | .vldx o => some (.read, elemBytes (etw o.et), (gov o).map (indexAddr v e o))
  | .vstx o => some (.write, elemBytes (etw o.et), (gov o).map (indexAddr v e o))
  | .vamo o => some (.amo, elemBytes (etw o.et), (gov o).map (indexAddr v e o))
  | .vpf _ => some (.read, 1, [])
  | .topa o | .tops o =>
    let n := scaleNeed o e
    some (.read, 1, sideAddrs v (o.q.getLsbD 0) o.sa n ++ sideAddrs v (o.q.getLsbD 1) o.sb n)
  | _ => none

/-- The bytes that they lie at; an address that does not translate is not accessed. -/
def spansOf (s : State) (v : Strand) (i : Instr) (e : QEntry) (lo hi : Nat) : Option (List Span) :=
  (accessAddrs v i e lo hi).map (fun a => a.2.2.filterMap (fun va =>
    match locateV s (gatherAgent v) va a.1 with
    | .ok (p, _) => some (p.span a.2.1)
    | .error _ => none))

/-- Whether two sets of bytes, both known, have none in common. -/
def apart (a b : Option (List Span)) : Bool :=
  match a, b with
  | some l, some m => l.all (fun x => m.all (fun y => !x.meets y))
  | _, _ => false

/-- The instruction of entry j of a strand that holds tags, with what it names. -/
def taggedAt (t : Strand) (j : Nat) : Option (QEntry × Instr × Shape × Tags) :=
  (t.queue[j]?).bind (fun e =>
    match e.item, e.tags with
    | .instr i, some g => (shapeOf i).map (fun x => (e, i, x, g))
    | _, _ => none)

/-- Whether V access i, with the bytes of its next micro-operation, may be performed beside the older entry n of strand k, instruction j
with tags g: an ordered access passes and is passed by none (R125, R128); the whole of an FX lies between the others (R200); and of two
others the older goes first where they share a byte, or where the older one's addresses hang on what is not produced (R121). -/
def inOrder (s : State) (k n : Nat) (i j : Instr) (y : Shape) (d : QEntry) (g : Tags) (bytes : Option (List Span)) : Bool :=
  let t := s.strand k
  if decide (g.uops ≤ g.produced) then true
  else if isOrdered i || isOrdered j then !(isVectorAccess i && isVectorAccess j)
  else if !isMemoryAccess i || !isMemoryAccess j then true
  else if isComb j then !combReaches s k j
  else if (tileNamed i).isNone && decide (g.uops ≤ g.issued) then true
  else if (tileNamed j).isSome && g.taken then true
  else
    let from_ := if (tileNamed i).isSome then g.produced else g.issued
    (t.queue.take n).all (producedOf (addrNeed j y d)) &&
      apart bytes (spansOf s (viewAt t n) j d (from_ * uopElems y) (lengthOf y d))

/-- Whether the generators that an entry finds are known: the masks of every older stepping instruction are produced (R153).
DESIGN CHOICE, safe: notes/assumptions/70. -/
def gensKnown (t : Strand) (j : Nat) : Bool :=
  (List.range j).all (fun n =>
    match taggedAt t n with
    | some (d, _, y, _) => !y.steps || d.acted || (t.queue.take n).all (producedOf (maskNeed y d))
    | none => true)

/-- Whether an instruction with a need goes past every older entry of strand k: what it reads is produced, the generators that it rounds
by are known, and accesses to one byte stay in order (R48, R49, R117, R153). -/
def mayPass (s : State) (k j : Nat) (i : Instr) (x : Shape) (e : QEntry) (n : Need) (lo hi : Nat) : Bool :=
  let t := s.strand k
  let bytes := if isMemoryAccess i then spansOf s (viewAt t j) i e lo hi else none
  (t.queue.take j).all (producedOf n) && (!readsGens i x e || gensKnown t j) &&
    (List.range j).all (fun m =>
      match taggedAt t m with
      | some (d, q, y, g) => inOrder s k m i q y d g bytes
      | none => false)

/-- Whether the next micro-operation of entry j of strand k is ready (R48). -/
def uopReady (s : State) (k j : Nat) : Bool :=
  match taggedAt (s.strand k) j with
  | none => false
  | some (e, i, x, g) =>
    let n : Need := if g.ran then ⟨[], []⟩ else needOf (viewAt (s.strand k) j) i x e g.issued
    windowed i && (tileNamed i).isNone && decide (g.issued < g.uops) &&
      mayPass s k j i x e n (g.issued * uopElems x) (min ((g.issued + 1) * uopElems x) (lengthOf x e))

/-- A candidate of a share's sequencer; tag is the number of its tag, its age. -/
structure Candidate where
  k : Nat
  j : Nat
  pipe : Pipe
  second : Option Bool
  mult : Bool
  left : Nat
  waited : Nat
  tag : Nat
  deriving DecidableEq, Repr

/-- The candidate that entry j of strand k makes. An instruction without a length, VPUSH or SBIND, has no element left and so goes first
by the second rule.
DESIGN CHOICE, safe: notes/assumptions/77. -/
def candidate (s : State) (k j : Nat) : Option Candidate :=
  let t := s.strand k
  match taggedAt t j with
  | none => none
  | some (e, i, x, g) =>
    if uopReady s k j then
      let len := x.gl.map (vlenOf e)
      some ⟨k, j, if len = some 0 then .none else pipeOf i, g.second, usesMultiplier i, len.getD 0 - g.issued * uopElems x, g.waited,
        g.base + g.issued⟩
    else none

/-- The strands placed on a share. -/
def strandsOn (s : State) (core lg : Nat) : List Nat :=
  (List.range s.strands.length).filter (fun k =>
    (s.strand k).onShare && (s.strand k).shareD.core == core && (s.strand k).shareD.lg == lg)

/-- The candidates of a share. -/
def candidates (s : State) (core lg : Nat) : List Candidate :=
  (strandsOn s core lg).flatMap (fun k =>
    (List.range (s.strand k).queue.length).filterMap (candidate s k))

/-- The rule of R48: one that has waited for 256 cycles, the oldest tag first; then the fewest elements left; then the older tag. -/
def better (a b : Candidate) : Bool :=
  let aged (c : Candidate) : Bool := decide (256 ≤ c.waited)
  if aged a != aged b then aged a
  else if aged a then decide (a.tag < b.tag)
  else decide (a.left < b.left) || (a.left == b.left && decide (a.tag < b.tag))

/-- The best of some candidates. -/
def best : List Candidate → Option Candidate
  | [] => none
  | c :: cs =>
    match best cs with
    | none => some c
    | some d => if better d c then some d else some c

/-- The choices of A0 and A1. An instruction stays on the pipe of its first micro-operation, and takes A0 where both are free; of
two that use the multiplier the better goes and the other waits (R46, R48). -/
def arithmetic (cs : List Candidate) : List (Candidate × Bool) :=
  let on (b : Bool) (c : Candidate) : Bool := c.pipe == .a && c.second != some (!b)
  let a0 := best (cs.filter (on false))
  let rest := cs.filter (fun c => on true c && some c != a0)
  match a0, best rest with
  | some x, some y =>
    if x.mult && y.mult then
      if better y x then
        (best (cs.filter (fun c => on false c && !c.mult))).toList.map (fun c => (c, false)) ++ [(y, true)]
      else (x, false) :: (best (rest.filter (fun c => !c.mult))).toList.map (fun c => (c, true))
    else [(x, false), (y, true)]
  | some x, none => [(x, false)]
  | none, some y => [(y, true)]
  | none, none => []

/-- One candidate for each pipe, and every one that occupies none; true for A1 (R46, R48). -/
def chosen (cs : List Candidate) : List (Candidate × Bool) :=
  arithmetic cs ++ (best (cs.filter (fun c => c.pipe == .ls))).toList.map (fun c => (c, false))
    ++ (best (cs.filter (fun c => c.pipe == .pr))).toList.map (fun c => (c, false))
    ++ (cs.filter (fun c => c.pipe == .none)).map (fun c => (c, false))

/-- The tags of entry j of strand k after a cycle: issued if chosen, and the count of the cycles that it was ready in a row. -/
def afterCycle (cs : List Candidate) (win : List (Candidate × Bool)) (k j : Nat) (g : Tags) : Tags :=
  match win.find? (fun c => c.1.k == k && c.1.j == j) with
  | some c =>
    { g with issued := g.issued + 1, waited := 0, second := if c.1.pipe = .a then some c.2 else none }
  | none => { g with waited := if cs.any (fun c => c.k == k && c.j == j) then g.waited + 1 else 0 }

/-- MICRO_OPERATION_ISSUE (R48). -/
def execMicroOperationIssue (core lg : Nat) (s : State) : Host.Outcome State Fault Refusal :=
  let cs := candidates s core lg
  let win := chosen cs
  let s := (strandsOn s core lg).foldl (fun s k => s.modStrand k (fun t => { t with
    queue := t.queue.mapIdx (fun j e => { e with tags := e.tags.map (afterCycle cs win k j) }) })) s
  .next (win.foldl (fun s c => s.modHive (s.strand c.1.k).hive (fun h => { h with egops := h.egops + 1 })) s)

/-! Producing and retiring (R49). -/

/-- The elements that the next micro-operation to be produced covers: all of them, once its last one is due, for an instruction
whose result comes with that. -/
def uopWork (v : Strand) (e : QEntry) (x : Shape) (g : Tags) (rest : Bool) : Work :=
  let len := x.gl.elim 0 (vlenOf e)
  if x.last then ⟨v, e, len, 0, len⟩
  else ⟨v, e, len, min (g.produced * uopElems x) len, if rest then len else min ((g.produced + 1) * uopElems x) len⟩

/-- What the next micro-operation of entry j of strand k comes to, or all that remain of it; none where it holds no
tags. -/
def egRun (s : State) (k j : Nat) (rest : Bool) : Option (QEntry × Shape × Tags × Ran) :=
  let v := viewAt (s.strand k) j
  (taggedAt (s.strand k) j).map (fun h =>
    let (e, i, x, g) := h
    (e, x, g,
      if g.ran || (x.last && g.produced + 1 != g.uops) then .ok s (partOver v i x e g)
      else runItem i s k (uopWork v e x g rest) (partOver v i x e g)))

/-- Whether an entry is a TRD in the unit with EGs still to produce (Table 7.3). -/
def readingTile (e : QEntry) : Bool :=
  match e.item, e.tags with
  | .instr (.trd o), some g => g.taken && decide (g.produced < g.uops) && decide (g.egs < tileEgs o e)
  | _, _ => false

/-- Entry j of strand k with one more micro-operation produced. -/
def producedEg (s : State) (k j : Nat) (e : QEntry) (g : Tags) (a : Part) : State :=
  setEntry s k j { e with tags := some { g with produced := g.produced + 1, out := if g.ran then g.out else a } }

/-- Entry j of strand k with one more micro-operation produced, or one more EG of a TRD; a fault is taken only at the head of the
queue, with every element that remains. -/
def produceAt (s : State) (k j : Nat) : Option State :=
  if ((s.strand k).queue[j]?).elim false readingTile then some (modTags s k j (fun g => { g with egs := g.egs + 1 }))
  else match egRun s k j false with
  | some (e, _, g, .ok s a) => some (producedEg s k j e g a)
  | some (_, _, _, .trap _ _ _ _) =>
    if j = 0 then
      match egRun s k j true with
      | some (_, x, _, .trap tr u s a) => some (trapAtHead (s.modStrand k (fun t => commitRegs t x a)) k tr u)
      | _ => none
    else none
  | _ => none

/-- The complete entries at the head of a queue retired in program order. -/
def retireDone : Nat → State → Nat → State
  | 0, s, _ => s
  | n + 1, s, k =>
    match (s.strand k).queue with
    | [] => s
    | e :: _ =>
      if e.tags.isSome then
        match runHead s k with
        | .left s => retireDone n s k
        | _ => s
      else s

/-- Micro-operations that have issued and are not yet produced, or EGs of a TRD in the unit; what else the matrix unit or the comb
has taken is not one. -/
def inFlight (e : QEntry) : Bool :=
  readingTile e || (e.tags.map (fun g => !g.taken && decide (g.produced < g.issued))).getD false

/-- EG_PRODUCED (R49): the oldest micro-operation in flight of strand k is produced, and complete instructions retire. -/
def execEgProduced (st : Nat) (s : State) : Host.Outcome State Fault Refusal :=
  .next
    (match (s.strand st).queue.findIdx? inFlight with
     | none => s
     | some j =>
       match produceAt s st j with
       | some s => retireDone queueDepth s st
       | none => s)

/-! The matrix unit (R51, R177, R186). -/

/-- The head of a strand's matrix port: its oldest tile instruction that holds tags and is not complete. -/
def portHead (t : Strand) : Option Nat :=
  t.queue.findIdx? (fun e =>
    match e.item, e.tags with
    | .instr i, some g => (tileNamed i).isSome && decide (g.produced < g.uops)
    | _, _ => false)

/-- What reaching the unit comes to for entry j of strand k: its scale streams checked and read (R158). -/
def reachAt (s : State) (k : Nat) (e : QEntry) (i : Instr) (x : Shape) (j : Nat) : Except Trap (Scales × State) :=
  reachUnit i s (wholeWork (viewAt (s.strand k) j) e x)

/-- Whether the port head of strand k, entry j, is ready: every EG that it reads is produced, its scale reads follow older accesses to
the same bytes, and its scale streams stand as they must; a check that fails is a trap, once it heads the queue (R158, R186, R398). -/
def portReady (s : State) (k j : Nat) : Bool :=
  let t := s.strand k
  match taggedAt t j with
  | none => false
  | some (e, i, x, g) =>
    !g.taken && goes t j && mayPass s k j i x e (needOf (viewAt t j) i x e 0) 0 0 && (j == 0 || (reachAt s k e i x j).toBool)

/-- Where a strand stands in the unit's round-robin over the slots of a core, counted from the slot it looks at next. -/
def turnOf (c : Core) (t : Strand) : Nat := (t.coreSlot + 8 - c.matNext % 8) % 8

/-- The strand whose tile instruction the unit of a core takes next. -/
def nextTurn (s : State) (core : Nat) : Option (Nat × Nat) :=
  let c := s.core core
  let ready := (List.range s.strands.length).filterMap (fun k =>
    let t := s.strand k
    if t.onShare && t.coreNo == core then
      (portHead t).bind (fun j => if portReady s k j then some (k, j) else none)
    else none)
  ready.foldl (fun m p =>
    match m with
    | none => some p
    | some q => if turnOf c (s.strand p.1) < turnOf c (s.strand q.1) then some p else some q) none

/-- Entry j of strand k taken by the unit: its scales read, and the elements of a TRD, which it produces one EG after another. -/
def takeAt (s : State) (k j : Nat) (e : QEntry) (i : Instr) (x : Shape) (sc : Scales) : State :=
  let v := viewAt (s.strand k) j
  let trd := i matches .trd _
  let out := (leaveUnit i sc s k (wholeWork v e x) (startPart v e x)).2
  passTurn (modTags s k j (fun g =>
    { g with taken := true, issued := 1, scales := sc, ran := trd, out := if trd then out else g.out })) k

/-- MATRIX_UNIT_TAKE (R51, R158, R186): a scale check that fails is a trap of the queue head. -/
def execMatrixUnitTake (core : Nat) (s : State) : Host.Outcome State Fault Refusal :=
  .next
    (if unitBusy s core then s
     else match nextTurn s core with
       | none => s
       | some (k, j) =>
         match taggedAt (s.strand k) j with
         | none => s
         | some (e, i, x, _) =>
           match reachAt s k e i x j with
           | .error tr => trapAtHead s k tr e.underM7
           | .ok (sc, s) => takeAt s k j e i x sc)

/-- The strand whose tile instruction may leave the unit of a core, and its place: a TRD once its EGs are produced (Table 7.3). -/
def leaver (s : State) (core : Nat) : Option (Nat × Nat) :=
  (List.range s.strands.length).findSome? (fun k =>
    let t := s.strand k
    if t.onShare && t.coreNo == core then
      (inUnitAt t).bind (fun j => if ((t.queue[j]?).elim false readingTile) then none else some (k, j))
    else none)

/-- MATRIX_UNIT_LEAVE (R177, R186): the tile access is performed, and the instruction is complete. -/
def execMatrixUnitLeave (core : Nat) (s : State) : Host.Outcome State Fault Refusal :=
  .next ((leaver s core).elim s (fun p => retireDone queueDepth (leaveAt s p.1 p.2) p.1))

/-! Trap delivery (R251, R260). -/

/-- A recorded fault as it is delivered: m7 as it left it. -/
def takeFault (t : Strand) (f : PendFault) : Strand :=
  { if f.underM7 then t.setMreg 7 f.m7 else t with pendFault := none }

/-- TRAP_DELIVERY: the trap that strand k holds is delivered once every older instruction has completed. -/
def execTrapDelivery (st : Nat) (s : State) : Host.Outcome State Fault Refusal :=
  let t := s.strand st
  .next
    (if !t.onShare then s
     else match t.pendFault with
       | some f => if f.older = 0 then raiseQueued (s.modStrand st (fun t => takeFault t f)) st f.trap f.underM7 else s
       | none =>
         match t.pendTrap with
         | some (tr, pc) => if t.queue.isEmpty then deliver s st tr pc false [] else s
         | none => s)

/-! Queue heads that wait (R108, R206, R245). -/

/-- Strand k's queue head moved on where it is an instruction of a kind. -/
def runHeadOf (s : State) (k : Nat) (kind : Instr → Bool) : State :=
  match (s.strand k).queue.head? with
  | some e =>
    match e.item with
    | .instr i => if kind i then moveHead s k else s
    | .word _ => s
  | none => s

/-- VPUSH_TRANSFER. -/
def execVpushTransfer (st : Nat) (s : State) : Host.Outcome State Fault Refusal :=
  .next (runHeadOf s st (fun i => i matches .vpush _))

/-- VWAITF_FILL. -/
def execVwaitfFill (st : Nat) (s : State) : Host.Outcome State Fault Refusal :=
  .next (runHeadOf s st (fun i => i matches .vwaitf _))

/-- VLDFE_WAKE (R430): every granule that the waiting VLDFE touches is full. -/
def execVldfeWake (st : Nat) (s : State) : Host.Outcome State Fault Refusal :=
  .next (runHeadOf s st (fun i => i matches .vldfe _))

/-- FDRAIN_COMPLETE (R206): every earlier instruction of its slot has left the comb, whatever else stands before it. -/
def execFdrainComplete (st : Nat) (s : State) : Host.Outcome State Fault Refusal :=
  .next
    (match nextUntagged (s.strand st) with
     | some (j + 1) =>
       if ((s.strand st).queue[j + 1]?).any (fun e => e.item matches .instr (.fdrain _)) then
         (if s.eager then settleQueue s st else allocate s st)
       else s
     | _ => runHeadOf s st (fun i => i matches .fdrain _))

end Sys2Proof.Machine
end

