-- ==== Sys2Proof/Machine/Launch.lean ====
section
/-! DEFINITION. Strands and gangs: launch, identifiers, placement, barriers and the end of a strand (spec/02 R27 to R39,
R56, spec/03 R66, spec/05 R132, spec/15 R355 to R357, R388, R389). -/

namespace Sys2Proof.Machine

/-! Launch records (R27, R29). -/

/-- Grants that VLMIN and VLMAX may name. -/
def isGrant (n : Nat) : Bool := n == 1 || n == 2 || n == 4 || n == 8

/-- The checks of Table 2.3 in the order of the fields, with the offset that a failure reports.
DEDUCED, unsafe: notes/assumptions/54. -/
def launchChecks (nshares : Nat) (single : Bool) (r : Nat) : List (Nat × Bool) :=
  let count := field r 0x28 4
  [ (0x00, field r 0 8 % 8 == 0)
  , (0x28, decide (1 ≤ count) && decide (count ≤ 65535) && (!single || count == 1))
  , (0x2C, decide (field r 0x2C 1 < 4))
  , (0x2D, decide (field r 0x2D 1 < 4))
  , (0x2E, isGrant (field r 0x2E 1))
  , (0x2F, isGrant (field r 0x2F 1) && decide (field r 0x2E 1 ≤ field r 0x2F 1))
  , (0x30, field r 0x30 16 != 0 && decide (field r 0x30 16 < 2 ^ nshares)) ]

/-- The offset of the first field that fails. -/
def launchFault (nshares : Nat) (single : Bool) (r : Nat) : Option Nat :=
  ((launchChecks nshares single r).find? (fun c => !c.2)).map (fun c => c.1)

/-- A hive's shares in the order of their numbers (R62). -/
def sharesInOrder (h : Hive) : List ShareRef :=
  (List.range h.shares.length).filterMap (fun n => h.shares.find? (fun x => shareNumber h x == n))

/-! Identifiers (R29, R31). -/

/-- Whether some strand that exists holds a STRANDID in [c, c + n). -/
def idsTaken (s : State) (c n : Nat) : Bool :=
  s.strands.any (fun t => !t.status.isEnded && decide (c ≤ t.strandId.toNat) && decide (t.strandId.toNat < c + n))

/-- The first of n consecutive STRANDIDs that the device assigns next: ascending modulo 2^32, passing over 0 and every
run that holds a value in use. -/
def nextStrandIds (s : State) (n : Nat) : Nat :=
  let start := (s.lastStrandId.toNat + 1) % 2 ^ 32
  let cands := start :: 1 :: s.strands.map (fun t => (t.strandId.toNat + 1) % 2 ^ 32)
  let ok := cands.filter (fun c => decide (1 ≤ c) && decide (c + n ≤ 2 ^ 32) && !idsTaken s c n)
  let far (c : Nat) : Nat := (c + 2 ^ 32 - start) % 2 ^ 32
  ok.foldl (fun m c => if far c < far m then c else m) (ok.headD 1)

/-- The GANGID of a hive's next gang: one more than that of its last, modulo 2^32, so that none comes back within 2^32 launches;
a hive's first gang gets 1. Which of the values that R29 allows is taken is the model's choice.
DESIGN CHOICE, unsafe: notes/assumptions/71. -/
def nextGang (h : Hive) : Nat := (h.lastGang + 1) % 2 ^ 32

/-! Placement (R33 to R36, R56, R66). -/

/-- Strands placed on a share. -/
def placedOn (s : State) (x : ShareRef) : List Strand := s.strands.filter (fun t => t.placed && t.share == some x)

/-- Free EG slots of a share. -/
def freeEgs (s : State) (x : ShareRef) : Nat := 128 * x.size - ((placedOn s x).map (fun t => t.egs)).sum

/-- The strand slot that a placed strand takes: the least that no strand of the share holds. R33 says only that one is free; which
it is sets the strand's place in the rounds of R41, R47 and R51.
DESIGN CHOICE, unsafe: notes/assumptions/72. -/
def freeSlot (s : State) (x : ShareRef) : Option Nat :=
  leastBelow (x.size / 2) (fun n => !(placedOn s x).any (fun t => t.slot == n))

/-- The least free save entry of a hive (R66). -/
def freeEntry (s : State) (h : Hive) : Option Nat :=
  leastBelow h.savecnt (fun n => !s.strands.any (fun t => !t.status.isEnded && t.hive == h.id && t.entry == some n))

/-- The placement grant that a strand would receive with f free EG slots (R33). -/
def placementGrant (t : Strand) (f : Nat) : Option Nat :=
  [8, 4, 2, 1].find? (fun g => decide (t.vlmin ≤ g) && decide (g ≤ t.vlmax) && decide ((t.budget + 32) * g ≤ f))

/-- Where and how a waiting strand would be placed now: its slot, PG, EG slots and save entry. -/
def fitting (s : State) (t : Strand) (x : ShareRef) : Option (Nat × Nat × Nat × Nat) :=
  let f := freeEgs s x
  match freeSlot s x, placementGrant t f, t.entry.orElse (fun _ => freeEntry s (s.hive t.hive)) with
  | some slot, some pg, some e =>
    let egs := (t.budget + 32) * (if t.fresh then pg else max pg t.grant)
    if egs ≤ f then some (slot, pg, egs, e) else none
  | _, _, _ => none

/-- The pairing entry of a paired task started (R228). -/
def startTask (s : State) (t : Strand) : State :=
  match t.task with
  | some r =>
    s.modRing r.ring (fun g => { g with tables := modAt g.tables r.pos (fun l =>
      modAt l r.entry (fun e => e.map (fun e => { e with started := true }))) })
  | none => s

/-- Strand k placed (Table 2.2): one that starts runs at once, with an acquire at HIVE scope on its core of what its launcher, or the
capture that fired it, released (R130, R132, R134); one that has a saved state loads it first (R265). -/
def placeStrand (s : State) (k : Nat) (p : Nat × Nat × Nat × Nat) : State :=
  let t := s.strand k
  let s := startTask s t
  let s := if t.fresh then acquireL1 s ⟨t.hive, t.share, true⟩ 1 else s
  s.modStrand k (fun t => { t with
    placed := true, slot := p.1, pg := p.2.1, egs := p.2.2.1, entry := some p.2.2.2, spilled := false, passed := 0
    grant := if t.fresh then p.2.1 else t.grant, status := .running, resuming := !t.fresh, fresh := false })

/-- The strands that wait for a share, in order of priority, then of arrival (R36). -/
def waitingFor (s : State) (x : ShareRef) : List Nat :=
  let ks := (List.range s.strands.length).filter (fun k =>
    (s.strand k).status.isWaiting && !(s.strand k).placed && (s.strand k).share == some x)
  let key (k : Nat) : Nat := (s.strand k).prio.toNat * 2 ^ 64 + (s.strand k).arrival
  ks.mergeSort (fun a b => decide (key a ≤ key b))

/-- The first strand of a share, in order, that has been passed over 16 times: it blocks every other (R36). -/
def blockingStrand (s : State) (ks : List Nat) : Option Nat := ks.find? (fun k => decide (16 ≤ (s.strand k).passed))

/-- The scheduler at a share (R36), n placements at most: the first strand in order that fits is placed, and those before it are
passed over; one passed over 16 times holds back every other until it is placed. -/
def placeInOrder (x : ShareRef) : Nat → State → State
  | 0, s => s
  | n + 1, s =>
    let ks := waitingFor s x
    let order := (blockingStrand s ks).elim ks (fun k => [k])
    match order.findSome? (fun k => (fitting s (s.strand k) x).map (fun p => (k, p))) with
    | none => s
    | some (k, p) =>
      let s := (order.takeWhile (fun q => q != k)).foldl (fun s q =>
        s.modStrand q (fun t => { t with passed := t.passed + 1 })) s
      placeInOrder x n (placeStrand s k p)

/-- The waiting strands of a share placed as far as they fit: no more than its slots. -/
def placeShare (s : State) (x : ShareRef) : State := placeInOrder x (x.size / 2) s

/-- Whether the scheduler would place a strand on a share now. -/
def canPlace (s : State) (x : ShareRef) : Bool :=
  let ks := waitingFor s x
  match blockingStrand s ks with
  | some k => (fitting s (s.strand k) x).isSome
  | none => ks.any (fun k => (fitting s (s.strand k) x).isSome)

/-- STRAND_PLACEMENT (R36) on the share of a core that starts at a lane group. -/
def execStrandPlacement (core lg : Nat) (s : State) : Host.Outcome State Fault Refusal :=
  match (s.strands.filterMap (fun t => t.share)).find? (fun x => x.core == core && x.lg == lg) with
  | some x => .next (placeShare s x)
  | none => .next s

/-! Waiting (R34, R35). -/

/-- Waiting strands of a hive that hold a reserved spill entry: those without a save entry, paired tasks apart (R35). -/
def spillReserved (s : State) (h : Nat) : Nat :=
  (s.strands.filter (fun t => t.status.isWaiting && !t.placed && t.hive == h && t.entry.isNone && t.task.isNone)).length

/-- Strands in the ready list of a share (R34). -/
def readyCount (s : State) (x : ShareRef) : Nat :=
  (s.strands.filter (fun t =>
    t.status.isWaiting && !t.placed && !t.spilled && t.task.isNone && t.share == some x)).length

/-- Strand k waits for a share: in its ready list, or when that is full in its hive's spill area. -/
def waitOn (s : State) (k : Nat) (x : ShareRef) : State :=
  let full := decide (4 * x.size ≤ readyCount s x)
  { s with nextArrival := s.nextArrival + 1 }.modStrand k (fun t =>
    { t with status := .waiting, placed := false, share := some x, spilled := full, arrival := s.nextArrival, passed := 0 })

/-! Launching (R29 to R32). -/

/-- A strand in its launch state (R30). -/
def freshStrand (hive : Nat) (id gang pc : Nat) (args : List Nat) (vregs prio vlmin vlmax : Nat) : Strand :=
  let arg (n : Nat) : Word := BitVec.ofNat 64 (args.getD n 0)
  { Strand.blank with
    status := .waiting, hive := hive, strandId := BitVec.ofNat 32 id, gangId := BitVec.ofNat 32 gang
    pc := BitVec.ofNat 64 pc
    g := (((((Vector.replicate 32 0).set 1 (arg 0)).set 2 (arg 1)).set 3 (arg 2)).set 4 (arg 3)).set 5 (arg 4)
    vregs := BitVec.ofNat 2 vregs, prio := BitVec.ofNat 2 prio, vlmin := vlmin, vlmax := vlmax
    rsr := Vector.ofFn (fun k => rsrSeed 0 k.val) }

/-- The strand of index i of a gang created on its share, and placed there or waiting (R32). -/
def launchOne (s : State) (hive id gang r i : Nat) (shares : List ShareRef) : State :=
  let args := (List.range 4).map (fun n => field r (8 + 8 * n) 8) ++ [i]
  let t := freshStrand hive id gang (field r 0 8) args (field r 0x2C 1) (field r 0x2D 1) (field r 0x2E 1) (field r 0x2F 1)
  let k := s.strands.length
  let s := { s with strands := s.strands ++ [t] }
  match shares[i % max shares.length 1]? with
  | some x => placeShare (waitOn s k x) x
  | none => s

/-- The strands of a gang created in ascending order of index. -/
def launchGang (s : State) (hive gang r : Nat) (shares : List ShareRef) : State :=
  let n := field r 0x28 4
  let first := nextStrandIds s n
  let s := { s with lastStrandId := BitVec.ofNat 32 (first + n - 1) }
  (List.range n).foldl (fun s i => launchOne s hive (first + i) gang r i shares) s

/-- SPAWN and GLAUNCH (R29): every check, then the gang; a release at HIVE scope of the scalar accesses. -/
def launch (single : Bool) (i : Instr) (o : GFmt) (s : State) : Host.Outcome State Fault Refusal :=
  scalar s (do
    let a := s.me.greg o.ga
    need (a.toNat % 64 == 0) (Trap.at .align a)
    let (r, s) ← loadRecord s s.who a 8
    let h := s.myHive
    match launchFault h.shares.length single r with
    | some off => throw (Trap.at .illegalField (BitVec.ofNat 64 off))
    | none => pure ()
    need (decide (h.codebase ≤ field r 0 8) && decide (field r 0 8 < h.codebound))
      (Trap.at .codeBound (BitVec.ofNat 64 (field r 0 8)))
    need (decide (spillReserved s h.id + field r 0x28 4 ≤ h.spillcnt)) ⟨.hiveLimit, encode i, 0, 0x28⟩
    let gang := nextGang h
    let shares := (sharesInOrder h).zipIdx.filterMap (fun x => if bit (field r 0x30 16) x.2 then some x.1 else none)
    let s := (releaseL1 s s.who 1).modHive h.id (fun x => { x with lastGang := gang })
    let s := s.finish o.gd (BitVec.ofNat 64 gang)
    return launchGang s h.id gang r shares)

def execSpawn (o : GFmt) (s : State) : Host.Outcome State Fault Refusal := launch true (.spawn o) o s

def execGlaunch (o : GFmt) (s : State) : Host.Outcome State Fault Refusal := launch false (.glaunch o) o s

/-! The gang barrier (R38). -/

/-- The strands of a gang that have not ended. -/
def gangMembers (s : State) (hive : Nat) (gang : BitVec 32) : List Nat :=
  (List.range s.strands.length).filter (fun k =>
    let t := s.strand k
    !t.status.isEnded && t.hive == hive && t.gangId == gang)

/-- Every strand of a gang that has not ended has arrived. -/
def barrierFull (s : State) (hive : Nat) (gang : BitVec 32) : Bool :=
  let ks := gangMembers s hive gang
  !ks.isEmpty && ks.all (fun k => (s.strand k).arrived.isSome)

/-- One strand departs from the GBAR that it arrived at, in its handler or outside it, with an acquire at HIVE scope. -/
def depart (s : State) (k : Nat) : State :=
  completeAt (s.modStrand k (fun t => { t with arrived := none })) k ⟨(s.strand k).arrived.getD 0, 0, 0, true⟩

/-- The barrier of a gang completed if it is full: every strand departs. -/
def completeBarrier (s : State) (hive : Nat) (gang : BitVec 32) : State :=
  if barrierFull s hive gang then (gangMembers s hive gang).foldl depart s else s

/-- Strand k arrives at GBAR: FENCE.ALL, and a release at HIVE scope (R38). -/
def arrive (s : State) (k : Nat) : State :=
  let t := s.strand k
  let w : Who := ⟨t.hive, t.share, true⟩
  (releaseL1 (acquireL1 s w 1) w 1).modStrand k (fun t => { t with arrived := some t.pc })

/-- Whether strand k stands at a GBAR whose FENCE.ALL is over, and has not arrived yet. -/
def arriving (s : State) (k : Nat) : Bool :=
  let t := s.strand k
  t.onShare && (t.status matches .blocked (.gbar _)) && t.arrived.isNone && !t.queue.any QEntry.vectorAccess

/-- GBAR (R38, R355): it blocks the strand; it arrives once every earlier V access is performed, and waits for the gang. A strand
whose barrier has completed while it was away goes on. -/
def execGbar (o : GFmt) (s : State) : Host.Outcome State Fault Refusal :=
  scalar s (.ok
    (match s.me.awayHere with
     | some w => completeAt s s.cur w
     | none =>
       let s := s.block (.gbar o)
       if s.me.arrived.isSome then s.modMe (fun t => { t with arrived := some t.pc })
       else if s.me.queue.any QEntry.vectorAccess then s
       else completeBarrier (arrive s s.cur) s.me.hive s.me.gangId))

/-- GBAR_COMPLETE (R38): strands of the gang whose wait is over arrive, and a full barrier completes. -/
def execGbarComplete (hive : Nat) (gang : BitVec 32) (s : State) : Host.Outcome State Fault Refusal :=
  let s := ((gangMembers s hive gang).filter (arriving s)).foldl arrive s
  .next (completeBarrier s hive gang)

/-! GWAIT (R39, R357). -/

/-- GWAIT: of its own gang it traps; of a gang that is not live in its hive it completes with an acquire. -/
def execGwait (o : GFmt) (s : State) : Host.Outcome State Fault Refusal :=
  scalar s (do
    let g := s.me.greg o.ga
    need (g.toNat != s.me.gangId.toNat) (combo (.gwait o))
    if decide (g.toNat < 2 ^ 32) && !(gangMembers s s.me.hive (g.setWidth 32)).isEmpty then return s.block (.gwait o)
    else return (acquireL1 s s.who 1).advance)

/-- GWAIT_COMPLETE (R39): the gang's last strand has ended. -/
def execGwaitComplete (st : Nat) (s : State) : Host.Outcome State Fault Refusal :=
  wake s st (fun i => i matches .gwait _) (fun i => match i with | .gwait o => execGwait o | _ => .next)

/-! The end of a strand (R37, R389). -/

/-- Strand k ended: bindings undone, pushed values discarded, save entry, slot, EG slots and tags free, and its gang
without it. -/
def endStrand (s : State) (k : Nat) : State :=
  let s := undoBindings s k
  s.modStrand k (fun t => { t with
    status := .ended, placed := false, egs := 0, queue := [], held := [], pushed := [], pushBits := 0, entry := none
    pendTrap := none, pendFault := none, preempt := none, susp := none, arrived := none, away := none, record := none
    waits := false, resuming := false, inBeat := false })

end Sys2Proof.Machine
end

