-- ==== Sys2Proof/Machine/Preempt.lean ====
section
/-! DEFINITION. Pre-emption: requests, YIELD and the compact save, the full save, resumption (spec/11 R258 to R266, spec/07
R188, spec/08 R214, spec/13 R311, spec/17 R452). -/

namespace Sys2Proof.Machine

/-! What takes a strand away. -/

/-- The record of a notice about strand k: its ticket, its resume PC, the KIND of what was taken (R71, Table 19.12).
DEDUCED, unsafe: notes/assumptions/21. -/
def strandNotice (s : State) (k kind : Nat) : TrapRecord :=
  let t := s.strand k
  { ticket := freshTicket s, cause := Cause.revoked.code, flags := flagNotice, hive := t.hive, strand := t.strandId
    gang := t.gangId, pc := t.pc, val := 0, info := noticeInfo, data := BitVec.ofNat 64 kind
    save := if t.entry.isSome then BitVec.ofNat 64 (entryOff (s.hive t.hive) t) else 0 }

/-- Strand k pre-empted, its state written to its save entry: traced, counted, and noticed to its own hive; firmware
posts no record (R258, R259 step 6, R262, R71). -/
def saveAway (s : State) (k saveKind : Nat) : State :=
  let t := s.strand k
  let s := traceRecord s k 3 t.pc 0
  let s := s.modHive t.hive (fun h => { h with preempted := h.preempted + 1 })
  let s := s.modStrand k (fun t => { t with preempt := none, pendTrap := none })
  match t.preempt with
  | some p =>
    if p.firmware then
      let s := unpin (releaseL1 s ⟨t.hive, t.share, true⟩ 2) k
      let s := s.modStrand k (fun t => { releaseShare t with status := .suspended })
      let s := writeEntry s k saveKind
      s.modStrand k (fun t => { t with susp := some ⟨.firmware, 0, 0, strandNotice s k 0⟩ })
    else suspendWith s k saveKind .revoked t.hive (strandNotice s k p.kind)
  | none => s

/-! The full save (R259, R260). -/

/-- A fault found while issued micro-operations complete: the entry's order, the trap, m7, and how it reissues. -/
structure Found where
  order : Nat
  trap : Trap
  /-- None where older instructions were still in the queue, so that nothing more of it was performed. -/
  m7 : Option MReg
  underM7 : Bool

/-- Entry j of strand k with its issued micro-operations completed, n at most (R259 step 2); one that did its work in one step is
complete. A fault at the head of the queue keeps what it has performed; any other is found with nothing more of it done. -/
def finishEntry : Nat → State → Nat → Nat → State × Option Found
  | 0, s, _, _ => (s, none)
  | n + 1, s, k, j =>
    match (s.strand k).queue[j]? with
    | none => (s, none)
    | some e =>
      let left := (e.tags.map (fun g => !g.taken && decide (g.produced < if g.ran then g.uops else g.issued))).getD false
      if !left then (s, none)
      else match egRun s k j false with
        | some (e, _, g, .ok s a) => finishEntry n (producedEg s k j e g a) k j
        | some (_, _, _, .trap tr u _ _) =>
          if j = 0 then
            match egRun s k j true with
            | some (_, x, _, .trap tr u s' a) =>
              let m7 := (s'.strand k).mreg 7
              (s'.modStrand k (fun t => commitRegs (t.setMreg 7 ((s.strand k).mreg 7)) x a), some ⟨e.order, tr, some m7, u⟩)
            | _ => (s, none)
          else (s, some ⟨e.order, tr, none, u⟩)
        | _ => (s, none)

/-- The issued micro-operations of every entry completed, and the oldest fault found.
DEDUCED, unsafe: notes/assumptions/18. -/
def finishUops (s : State) (k : Nat) : State × Option Found :=
  (List.range (s.strand k).queue.length).foldl (fun acc j =>
    let r := finishEntry 16 acc.1 k j
    (r.1, acc.2.orElse (fun _ => r.2))) (s, none)

/-- The raw index p′ of an entry (R259 step 3). -/
def rawIndex (x : Shape) (e : QEntry) : Nat :=
  match e.tags with
  | some g => if x.gl.isNone || (x.whole && decide (g.produced < g.uops)) then 0 else g.produced
  | none => e.p

/-- A strand's registers with the leading p EGs of entry j applied, and the flags of those (R150, R259 step 5). A memory instruction
has read what it has read; any other runs again over the EGs that count, on the registers that it has read. -/
def commitEgs (s : State) (k j : Nat) (t : Strand) (e : QEntry) (i : Instr) (x : Shape) (p : Nat) : Strand × Nat :=
  match e.tags with
  | none => (t, e.flags)
  | some g =>
    if p ≤ e.p then (t, e.flags)
    else if isMemoryAccess i then
      (x.vd.elim t (fun r => t.setVreg r (overlay (t.vreg r) g.out.v (min (p * uopElems x * x.vdw) (extentBits i x e x.vdw)))), 0)
    else
      let v := viewAt (s.strand k) j
      let w : Work := { wholeWork (if x.whole || x.steps then v else t) e x with hi := min (p * uopElems x) (lengthOf x e) }
      match runItem i s k w { startPart t e x with rsr := stepGens v.rsr e.pre } with
      | .ok _ a => (commitRegs t { x with steps := false } { a with flags := 0 }, a.flags)
      | _ => (t, e.flags)

/-- Values that an entry of a saved queue receives, and those that its younger ones still do. -/
def receiveAll (fw : List (BitVec 5 × Word)) (e : QEntry) : QEntry × List (BitVec 5 × Word) :=
  (fw.foldl (fun e f => e.receive f.1 f.2) e, fw.filter (fun f => e.gdest != some f.1))

/-- A save as far as it has come through the queue: the registers, the entries kept, the values that completed instructions forward, and
the index of the last kept one. -/
structure Saving where
  t : Strand
  q : List QEntry
  fw : List (BitVec 5 × Word)
  prev : Option Nat

/-- The generators that the leading p EGs of entry j have stepped. They become the strand's where nothing older is left to complete;
else they stay with the entry (R153). -/
def saveSteps (s : State) (k j : Nat) (a : Saving) (e : QEntry) (i : Instr) (x : Shape) (p : Nat) : Strand × QEntry :=
  let l := e.pre ++ if p ≤ e.p then [] else stepsBefore (viewAt (s.strand k) j) i x e p
  let f : QEntry := { e with p := p }
  if a.q.all QEntry.saved then
    let l := if f.done x then l ++ e.post else l
    ({ a.t with rsr := stepGens a.t.rsr l }, { f with pre := [], post := if f.done x then [] else e.post })
  else (a.t, { f with pre := if p = 0 then [] else l })

/-- Entry j of the queue saved, with its progress index and the registers that go with it (R259 steps 3 to 5). A tile instruction that the
unit has taken is complete, and leaves the queue with its results (R188). -/
def saveEntry (s : State) (k : Nat) (a : Saving) (ej : QEntry × Nat) : Saving :=
  let (e, fw) := receiveAll a.fw ej.1
  let bare : Saving := { a with q := a.q ++ [{ e with p := 0, tags := none, pre := [] }], fw := fw, prev := some 0 }
  match e.item with
  | .word _ => bare
  | .instr i =>
    match shapeOf i with
    | none => bare
    | some x =>
      if e.inUnit then
        let r := leaveQueue s k ej.2 a.q a.t e
        { a with t := r.2, q := r.1, fw := fw }
      else
        let p := a.prev.elim (rawIndex x e) (min (rawIndex x e))
        let r := saveSteps s k ej.2 a e i x p
        let c := commitEgs s k ej.2 r.1 e i x p
        { t := c.1, q := a.q ++ [{ r.2 with flags := c.2, tags := none }], prev := some p
          fw := match x.gd, e.tags with
            | some d, some g => if g.uops ≤ p then (g.out.gd.toList.map (fun w => (d, w))) ++ fw else fw
            | _, _ => fw }

/-- The queue of strand k as it is saved, in program order. -/
def saveQueue (s : State) (k : Nat) : Saving :=
  let t := s.strand k
  t.queue.zipIdx.foldl (saveEntry s k) ⟨t, [], [], none⟩

/-- The governed elements of an entry from its progress index on. -/
def remaining (t : Strand) (e : QEntry) : MReg :=
  match e.item with
  | .instr i =>
    match shapeOf i with
    | some x =>
      let len := x.gl.elim 0 (vlenOf e)
      let mask := if isMemoryAccess i then maskOf i else (0, 0)
      (List.range' (e.p * uopElems x) (len - e.p * uopElems x)).foldl (fun m n =>
        if governs t mask.1 mask.2 e.underM7 n then setElemAt m 1 n 1 else m) 0
    | none => 0
  | .word _ => 0

/-- The fault found in a save as it is recorded: delivered once the older held instructions have completed (R260). -/
def foundFault (t : Strand) (f : Option Found) : Option PendFault :=
  match f with
  | none => t.pendFault
  | some f =>
    match t.queue.findIdx? (fun e => e.order == f.order) with
    | some j => some ⟨f.trap, j, f.m7.getD (((t.queue[j]?).map (remaining t)).getD 0), f.underM7⟩
    | none => none

/-- A full save of strand k (R259, R260). -/
def fullSaveNow (s : State) (k : Nat) : State :=
  let (s, f) := finishUops s k
  let s := finishUnit (stopFxs (retireDone queueDepth s k) k) k
  let r := saveQueue s k
  let t := { r.t with queue := r.q }
  saveAway (s.setStrand k { t with pendFault := foundFault t f }) k 0

/-! Requests (R258). -/

/-- Whether the strand is Blocked, so that a request takes effect at once (R26, R258). -/
def blockedNow (s : State) (k : Nat) : Bool := (s.strand k).status.isBlocked || headWaits s k

/-- The yield window of strand k's request has elapsed. -/
def windowOver (s : State) (k : Nat) : Bool :=
  match (s.strand k).preempt with
  | some p => decide (p.deadline ≤ (s.core (s.strand k).coreNo).cycles.toNat)
  | none => false

/-- Whether a full save of strand k is due; a WGINJ whose beat has begun completes first (R222). -/
def saveDue (s : State) (k : Nat) : Bool :=
  (s.strand k).active && !(s.strand k).inBeat && (s.strand k).preempt.isSome && (windowOver s k || blockedNow s k)

/-- A request to pre-empt strand k for a KIND of revocation, or for firmware; one made before stands. It takes effect at
once where the window is zero or the strand is Blocked (R258). -/
def requestPreempt (s : State) (k kind : Nat) (firmware : Bool) : State :=
  let s := s.modStrand k (fun t => { t with
    preempt := t.preempt.orElse (fun _ =>
      some ⟨(s.core t.coreNo).cycles.toNat + t.yieldwin.toNat, firmware, kind⟩) })
  if saveDue s k then fullSaveNow s k else s

/-- YIELDWIN_EXPIRY (R258). -/
def execYieldwinExpiry (st : Nat) (s : State) : Host.Outcome State Fault Refusal :=
  .next (if saveDue s st && windowOver s st then fullSaveNow s st else s)

/-- FULL_SAVE (R259): the strand of a request is, or has become, Blocked. -/
def execFullSave (st : Nat) (s : State) : Host.Outcome State Fault Refusal :=
  .next (if saveDue s st then fullSaveNow s st else s)

/-! YIELD (R261, R262, R452). -/

/-- YIELD: without a request, or in the handler, it writes 0; otherwise a compact save once the queue is empty.
DEDUCED, unsafe: notes/assumptions/60. -/
def execYield (o : GFmt) (s : State) : Host.Outcome State Fault Refusal :=
  let b := s.me.greg o.gb
  scalarWait s
    (if 2 ^ 24 ≤ b.toNat then some (.error (Trap.at .illegalField b))
     else if s.me.preempt.isNone || s.me.inHandler then some (.ok (s.finish o.gd 0))
     else if !s.me.queue.isEmpty then none
     else
       let kept : Kept := ⟨s.me.greg o.ga, b.setWidth 8, (b >>> 8).setWidth 16, o.gd⟩
       some (.ok (saveAway (s.modMe (fun t => { t with pc := t.pc + 8, kept := some kept })) s.cur 1)))

/-! Resumption (R265). -/

/-- A strand that resumes at an instruction that completed while it was away goes on after it (R216, R258). -/
def afterAway (s : State) (k : Nat) : State :=
  match (s.strand k).awayHere with
  | some w => completeAt s k w
  | none => s

/-- RESUMPTION: a placed strand that was suspended acquires at DEVICE scope, takes its state from its save entry, and its
held instructions enter the queue again. -/
def execResumption (st : Nat) (s : State) : Host.Outcome State Fault Refusal :=
  let t := s.strand st
  .next
    (if t.placed && t.resuming then
      let s := chargeEntry (acquireL1 s ⟨t.hive, t.share, true⟩ 2) t
      let t' := readEntry s t
      let t' := t.kept.elim t' (fun x => t'.setGreg x.gd 1)
      let s := refillLook (s.setStrand st { t' with status := drainStatus t'.queue, resuming := false, susp := none }) st
      let s := afterAway s st
      let s := traceRecord s st 4 (s.strand st).pc 0
      settleQueue s st
     else s)

end Sys2Proof.Machine
end

