-- ==== Sys2Proof/Machine/Rings.lean ====
section
/-! DEFINITION. Waggle rings: sessions, pairing tables, pads, tiles, the beat, firing, completion, drains (spec/09 R215 to
R236, spec/17 R446). -/

namespace Sys2Proof.Machine

/-! The session record (Table 9.2). -/

def Session.field (ss : Session) (off n : Nat) : Nat := Machine.field ss.desc.toNat off n

def Session.total (ss : Session) : Nat := ss.field 0 4

def Session.padCount (ss : Session) : Nat := ss.field 4 1

def Session.lapLim (ss : Session) : Nat := ss.field 5 1

/-- WINA or WINB. -/
def Session.window (ss : Session) (fam : Bool) : Nat := ss.field (if fam then 7 else 6) 1

def Session.padOff (ss : Session) : Nat := ss.field 8 4

def padSize : Nat := 32768

def SessState.isFree : SessState → Bool
  | .free => true
  | _ => false

def SessState.isRunning : SessState → Bool
  | .running => true
  | _ => false

def SessState.isSetup : SessState → Bool
  | .setup => true
  | _ => false

def SessState.isDamaged : SessState → Bool
  | .damaged => true
  | _ => false

/-- STATE of Table 9.9. -/
def SessState.code : SessState → Nat
  | .free => 0 | .setup => 1 | .running => 2 | .halted => 3 | .damaged => 4

/-- Session n of ring r. -/
def State.session (s : State) (r n : Nat) : Session := (s.ring r).sessions.getD n Session.reset

def State.modSession (s : State) (r n : Nat) (f : Session → Session) : State :=
  s.modRing r (fun g => { g with sessions := modAt g.sessions n f })

/-! Slots and tiles (R13, R221). -/

/-- The tile in the slot of a family's direction at a position. -/
def Ring.slot (g : Ring) (fam : Bool) (pos : Nat) : Option Tile :=
  (if fam then g.slotsB else g.slotsA).getD pos none

def State.setSlot (s : State) (r : Nat) (fam : Bool) (pos : Nat) (t : Option Tile) : State :=
  s.modRing r (fun g => if fam then { g with slotsB := g.slotsB.set pos t } else { g with slotsA := g.slotsA.set pos t })

/-- Family A tiles go from p to p + 1, family B tiles from p to p − 1 (R13). -/
def Ring.move (g : Ring) : Ring :=
  { g with
    slotsA := (List.range 12).map (fun p => g.slotsA.getD ((p + 11) % 12) none)
    slotsB := (List.range 12).map (fun p => g.slotsB.getD ((p + 1) % 12) none) }

/-- Tiles of a session now in slots. -/
def Ring.tilesOf (g : Ring) (n : Nat) : List Tile :=
  (g.slotsA ++ g.slotsB).filterMap (fun t => t.filter (fun t => t.session == n))

/-- A ring without a session's tiles. -/
def Ring.dropTiles (g : Ring) (n : Nat) : Ring :=
  let keep (l : List (Option Tile)) := l.map (fun t => t.filter (fun t => t.session != n))
  { g with slotsA := keep g.slotsA, slotsB := keep g.slotsB }

/-- TAG of Table 9.4. -/
def tagOf (id : BitVec 24) (fam : Bool) (session : Nat) : Nat := id.toNat + fam.toNat * 2 ^ 24 + session * 2 ^ 25

/-! Pairing entries and pads (R219, R220). -/

/-- The entries of the table at a position, with their indices. -/
def Ring.entriesAt (g : Ring) (pos : Nat) : List (Nat × PairEntry) :=
  ((g.tables.getD pos []).zipIdx).filterMap (fun e => e.1.map (fun x => (e.2, x)))

def Ring.entryAt (g : Ring) (pos idx : Nat) : Option PairEntry := (g.tables.getD pos []).getD idx none

def State.modEntry (s : State) (r pos idx : Nat) (f : PairEntry → PairEntry) : State :=
  s.modRing r (fun g => { g with tables := modAt g.tables pos (fun l => modAt l idx (fun e => e.map f)) })

/-- The half of an entry in a family: its ID and the pad it holds. -/
def PairEntry.half (e : PairEntry) (fam : Bool) : BitVec 24 × Option Nat := if fam then (e.bid, e.padB) else (e.aid, e.padA)

def PairEntry.setPad (e : PairEntry) (fam : Bool) (p : Option Nat) : PairEntry :=
  if fam then { e with padB := p } else { e with padA := p }

/-- The pads of a session that are not FREE at a position. -/
def Ring.padsAt (g : Ring) (pos n : Nat) : List Pad := (g.pads.getD pos []).filter (fun p => p.session == n)

def State.modPads (s : State) (r pos : Nat) (f : List Pad → List Pad) : State :=
  s.modRing r (fun g => { g with pads := modAt g.pads pos f })

/-- A pad whose entries are all unfired (R220). -/
def Ring.unpaired (g : Ring) (pos : Nat) (p : Pad) : Bool :=
  !p.refs.isEmpty && p.refs.all (fun i => ((g.entryAt pos i).map (fun e => !e.fired)).getD true)

/-- The lowest-numbered FREE pad of a session at a position. -/
def Ring.freePad (g : Ring) (pos n count : Nat) : Option Nat :=
  leastBelow count (fun k => !(g.padsAt pos n).any (fun p => p.num == k))

/-- Whether a strand's task belongs to a session of a ring. -/
def taskIn (t : Strand) (r n : Nat) : Bool := (t.task.map (fun x => x.ring == r && x.session == n && x.holds)).getD false

/-- Paired tasks of a session that have started and not ended. -/
def runningTasks (s : State) (r n : Nat) : Bool :=
  s.strands.any (fun t => !t.status.isEnded && taskIn t r n &&
    ((t.task.bind (fun x => (s.ring r).entryAt x.pos x.entry)).map (fun e => e.started)).getD false)

/-- Paired tasks of a session that have not ended. -/
def liveTasks (s : State) (r n : Nat) : Bool := s.strands.any (fun t => !t.status.isEnded && taskIn t r n)

/-! The completion word (R230). -/

/-- The device's agent for a session: its owner's hive and share. -/
def sessionWho (s : State) (ss : Session) : Who := ⟨(s.strand ss.owner).hive, (s.strand ss.owner).share, true⟩

/-- The word of Table 9.7 and R230. -/
def Session.word (ss : Session) : Nat := ss.fired % 2 ^ 32 + ss.status % 256 * 2 ^ 32

/-- A word stored to DONEADDR; one that does not translate writable is not stored. -/
def storeDone (s : State) (r n x : Nat) : State :=
  let ss := s.session r n
  match storeW s (sessionWho s ss) (BitVec.ofNat 64 (ss.field 0x18 8)) 8 x true with
  | .ok s => s
  | .error _ => s

/-- The first fault of a session: its state, its status, and its completion word (R227). -/
def sessionFault (s : State) (r n : Nat) (state : SessState) (cause : Cause) (status : Nat) (val info : Word) : State :=
  let s := s.modSession r n (fun ss => { ss with
    state := state, status := status, faultCause := some cause, faultVal := val, faultInfo := info })
  storeDone s r n (s.session r n).word

/-! What stops a session's lookups. -/

/-- A tile of the session that has passed its lap limit (R223). -/
def strandedTile (s : State) (r n : Nat) : Option Tile :=
  let ss := s.session r n
  if ss.lapLim < 255 then ((s.ring r).tilesOf n).find? (fun t => decide (ss.lapLim < t.laps)) else none

/-- No fault of the session is about to be raised: none of its tiles is past its lap limit, and its idle count is below 12 (R223,
R233). -/
def faultless (s : State) (r n : Nat) : Bool :=
  (strandedTile s r n).isNone && !((s.session r n).state.isRunning && decide (12 ≤ (s.session r n).idle))

/-- A session takes part in injections, lookups and firings: it is open, neither faulted nor about to be, and not draining. One
that is being closed does (R218, R223). -/
def sessionLive (s : State) (r n : Nat) : Bool :=
  let ss := s.session r n
  (ss.state.isSetup || ss.state.isRunning) && ss.drain != .stopping && faultless s r n

/-! Common checks of the ring instructions (R215). -/

/-- The ring of the issuing strand's core. -/
def State.myRing (s : State) : Nat := s.me.coreNo / 12

def RingHold.isHeld : RingHold → Bool
  | .held => true
  | _ => false

/-- Whether the issuing strand runs on a core of a ring that its hive holds. -/
def holdsRing (s : State) : Bool := s.myHive.ring.isHeld && s.myHive.part == s.myRing

def ringPrivilege (s : State) (i : Instr) : Except Trap Unit := need (holdsRing s) (Trap.at .privilege (encode i))

/-- A session operand from 0 to 3. -/
def sessionOperand (x : Word) : Except Trap Unit := need (decide (x.toNat < 4)) (Trap.at .illegalCombo x)

/-! WGWAIT (R231). -/

/-- WGWAIT of a session with a status: an acquire, and the completion word or the owner's trap. -/
def waitDone (o : GFmt) (r n : Nat) (s : State) : State :=
  let ss := s.session r n
  let s := acquireL1 s s.who 1
  match ss.faultCause.filter (fun _ => ss.owner == s.cur) with
  | some c => raise s ⟨c, ss.faultVal, ss.faultInfo, 0⟩
  | none => s.finish o.gd (BitVec.ofNat 64 ss.word)

/-- WGWAIT: of a FREE session it writes 0; of one without a status it blocks. -/
def execWgwait (o : GFmt) (s : State) : Host.Outcome State Fault Refusal :=
  scalar s (do
    let x := s.me.greg o.ga
    ringPrivilege s (.wgwait o)
    sessionOperand x
    let ss := s.session s.myRing x.toNat
    if ss.state.isFree then return s.finish o.gd 0
    else if ss.status = 0 then return s.block (.wgwait o)
    else return waitDone o s.myRing x.toNat s)

/-- WGWAIT_WAKE (R231): the status of the session became non-zero, as it may by completing, which frees the number. -/
def execWgwaitWake (st : Nat) (s : State) : Host.Outcome State Fault Refusal :=
  wake s st (fun i => i matches .wgwait _) (fun i => match i with
    | .wgwait o => fun s =>
      let n := (s.me.greg o.ga).toNat
      if (s.session s.myRing n).status = 0 then .next (s.block (.wgwait o))
      else scalar s (.ok (waitDone o s.myRing n s))
    | _ => .next)

/-- The session that a strand Blocked in WGWAIT waits for. -/
def waitsFor (t : Strand) : Option (Nat × Nat) :=
  match t.status with
  | .blocked (.wgwait o) => some (t.coreNo / 12, (t.greg o.ga).toNat)
  | _ => none

/-- Every strand Blocked in WGWAIT on a session with a status goes on, before the status is cleared. -/
def wakeWaiters (s : State) (r n : Nat) : State :=
  let me := s.cur
  let s := (List.range s.strands.length).foldl (fun s k =>
    if waitsFor (s.strand k) == some (r, n) then
      match execWgwaitWake k s with
      | .next s => s
      | _ => s
    else s) s
  { s with cur := me }

/-! WGCFG (R218). -/

/-- Checks of Table 9.2 in the order of the fields, with the offset that a failure reports. -/
def sessionChecks (r : Nat) : List (Nat × Bool) :=
  let total := field r 0 4
  let pads := field r 4 1
  [ (0x00, decide (1 ≤ total) && decide (total ≤ 3072))
  , (0x04, decide (2 ≤ pads) && decide (pads ≤ 32))
  , (0x05, field r 5 1 != 0)
  , (0x06, field r 6 1 != 0)
  , (0x07, field r 7 1 != 0)
  , (0x08, field r 8 4 % padSize == 0)
  , (0x0C, decide (field r 0xC 1 < 4))
  , (0x0D, decide (field r 0xD 1 < 4))
  , (0x0E, isGrant (field r 0xE 1))
  , (0x0F, isGrant (field r 0xF 1) && decide (field r 0xE 1 ≤ field r 0xF 1))
  , (0x28, decide (12 * (field r 6 1 + field r 7 1 + pads) ≤ field r 0x28 4))
  , (0x2C, field r 0x2C 20 == 0) ]

/-- Whether the pads of a record fit beside those of the open sessions of a ring (R218 check 4). -/
def padsFit (s : State) (ring r : Nat) : Bool :=
  let off := field r 8 4
  let stop := off + field r 4 1 * padSize
  let others := (s.ring ring).sessions.filter (fun ss => !ss.state.isFree)
  (List.range 12).all (fun p => decide (stop ≤ (s.core (12 * ring + p)).scratchSize)) &&
    others.all (fun ss => decide (stop ≤ ss.padOff) || decide (ss.padOff + ss.padCount * padSize ≤ off)) &&
    decide (field r 4 1 + (others.map (fun ss => ss.padCount)).sum ≤ 32)

/-- WGCFG: every check, then the lowest FREE number opened; all ones where none is. -/
def execWgcfg (o : GFmt) (s : State) : Host.Outcome State Fault Refusal :=
  scalar s (do
    let a := s.me.greg o.ga
    let h := s.myHive
    ringPrivilege s (.wgcfg o)
    need (a.toNat % 64 == 0) (Trap.at .align a)
    let (r, s) ← loadRecord s s.who a 8
    match (sessionChecks r).find? (fun c => !c.2) with
    | some c => throw (Trap.at .illegalField (BitVec.ofNat 64 c.1))
    | none => pure ()
    let pc := field r 0x10 8
    need (pc % 8 == 0 && inArena h pc) (Trap.at .codeBound (BitVec.ofNat 64 pc))
    need (field r 0x18 8 % 8 == 0) (Trap.at .align (BitVec.ofNat 64 (field r 0x18 8)))
    need (field r 0x20 8 % 64 == 0) (Trap.at .align (BitVec.ofNat 64 (field r 0x20 8)))
    need (padsFit s s.myRing r) (combo (.wgcfg o))
    let ring := s.myRing
    match leastBelow 4 (fun n => (s.session ring n).state.isFree) with
    | none => return s.finish o.gd (BitVec.allOnes 64)
    | some n =>
      let s := wakeWaiters s ring n
      let s ← storeW s s.who (BitVec.ofNat 64 (field r 0x18 8)) 8 0 true
      let s := s.modSession ring n (fun _ => { Session.reset with
        state := .setup, owner := s.cur, desc := BitVec.ofNat 512 r })
      return s.finish o.gd (BitVec.ofNat 64 n))

/-! WGPAIR (R219). -/

/-- Entries of a pairing table as a record array gives them, checked one by one. -/
def pairEntries (s : State) (i : Instr) (base : Word) (first : Nat) : Nat → Except Trap (List (Nat × PairEntry) × State)
  | 0 => .ok ([], s)
  | k + 1 => do
    let (es, s) ← pairEntries s i base first k
    let (r, s) ← loadRecord s s.who (base + BitVec.ofNat 64 (16 * k)) 2
    let n := bits r 49 48
    need (bits r 63 50 == 0) (Trap.at .illegalField (encode i))
    need (s.session s.myRing n).state.isSetup (combo i)
    need (((s.ring s.myRing).entryAt (s.me.coreNo % 12) (first + k)).elim true (fun e => !e.fired && e.session == n)) (combo i)
    return (es ++ [(first + k, ⟨BitVec.ofNat 24 (bits r 23 0), BitVec.ofNat 24 (bits r 47 24), n,
      BitVec.ofNat 64 (field r 8 8), none, none, false, false⟩)], s)

def execWgpair (o : GFmt) (s : State) : Host.Outcome State Fault Refusal :=
  scalar s (do
    let first := (s.me.greg o.ga).toNat
    let base := s.me.greg o.gb
    let n := (s.me.greg o.gc).toNat
    let i := Instr.wgpair o
    ringPrivilege s i
    need (base.toNat % 8 == 0) (Trap.at .align base)
    need (n != 0 && decide (first + n ≤ 256)) (combo i)
    let (es, s) ← pairEntries s i base first n
    let s := s.modRing s.myRing (fun g => { g with
      tables := modAt g.tables (s.me.coreNo % 12) (fun l => es.foldl (fun l e => l.set e.1 (some e.2)) l) })
    return s.advance)

/-! WGINJ (R222). -/

/-- FAM and SESSION of a header word. -/
def headFam (x : Word) : Bool := x.getLsbD 24

def headSession (x : Word) : Nat := bits x.toNat 26 25

def headLen (x : Word) : Nat := bits x.toNat 35 32 + 1

def headNeed (x : Word) : Nat := bits x.toNat 51 40

/-- The header's reserved bits are zero and its NEED is in range. -/
def headOk (x : Word) : Bool :=
  bits x.toNat 31 27 == 0 && bits x.toNat 39 36 == 0 && bits x.toNat 63 52 == 0 && decide (1 ≤ headNeed x) &&
    decide (headNeed x ≤ 3072)

/-- Whether n bytes from an address lie in the scratchpad of a share. -/
def inScratch (s : State) (x : ShareRef) (a n : Nat) : Bool :=
  a / 2 ^ 52 == 31 && decide (a % 2 ^ 52 + n ≤ scratchLen (s.core x.core) x)

/-- WGINJ: checked, released at HIVE scope, and Blocked until its window and an empty slot let it in at a beat. -/
def execWginj (o : GFmt) (s : State) : Host.Outcome State Fault Refusal :=
  let a := s.me.greg o.ga
  let x := s.me.greg o.gb
  let i := Instr.wginj o
  let st := (s.session s.myRing (headSession x)).state
  let ok : Except Trap Unit := do
    ringPrivilege s i
    need (a.toNat % 64 == 0) (Trap.at .align a)
    need (inScratch s s.me.shareD a.toNat (headLen x * 2048)) (accessTrap a .read .notPermitted)
    need (headOk x) (Trap.at .illegalField x)
    need (st.isSetup || st.isRunning) (combo i)
  scalarWait s
    (match ok with
     | .error t => some (.error t)
     | .ok _ => if !s.quietV then none else some (.ok ((releaseL1 s s.who 1).block i)))

/-! Closing a session (R218). -/

/-- The fired tasks of a session that have not started end. -/
def endWaiting (s : State) (r n : Nat) : State :=
  (List.range s.strands.length).foldl (fun s k =>
    let t := s.strand k
    let waits := (t.task.bind (fun x => (s.ring r).entryAt x.pos x.entry)).elim false (fun e => e.fired && !e.started)
    if !t.status.isEnded && taskIn t r n && waits then endStrand s k else s) s

/-- Step 1 of WGCFG.CLOSE: the fired entries of a session whose tasks have not started, discarded with their tasks; their pads keep
no reference from them. -/
def discardTasks (s : State) (r n : Nat) : State :=
  let gone (e : PairEntry) : Bool := e.session == n && e.fired && !e.started
  let s := endWaiting s r n
  (List.range 12).foldl (fun s pos =>
    let hit := (((s.ring r).entriesAt pos).filter (fun e => gone e.2)).map (fun e => e.1)
    (s.modRing r (fun g => { g with tables := modAt g.tables pos (fun l => l.map (fun e => e.filter (fun e => !gone e))) })).modPads r pos
      (fun l => l.map (fun p => if p.session == n then { p with refs := p.refs.filter (fun i => !hit.contains i) } else p))) s

/-- A session's tiles, entries and pads gone, and its number FREE. What strands Blocked in WGWAIT still read of it, its
status and its firings, stays until the number opens again. -/
def freeSession (s : State) (r n : Nat) : State :=
  let s := s.modRing r (fun g =>
    let g := g.dropTiles n
    { g with
      tables := g.tables.map (fun l => l.map (fun e => e.filter (fun e => e.session != n)))
      pads := g.pads.map (fun l => l.filter (fun p => p.session != n)) })
  s.modSession r n (fun ss => { ss with state := .free, inflight := [], drain := .none, drainers := [], closers := [], owed := [] })

/-- Instructions that wait for a session complete, with a value for their gd (R216, R236). -/
def completeWaiters (s : State) (l : List RingWaiter) (x : Word) : State :=
  l.foldl (fun s w => completeAt s w.strand ⟨w.pc, w.gd, x, false⟩) s

/-- A session ends with a status: its word is stored, its number is FREE, and every drain and close of it completes, a drain as of
a FREE session (R218, R230, R234). -/
def endSession (s : State) (r n status : Nat) : State :=
  let s := s.modSession r n (fun ss => { ss with status := status, faultCause := none })
  let ss := s.session r n
  completeWaiters (freeSession (storeDone s r n ss.word) r n) (ss.drainers ++ ss.closers) 0

/-- Steps 3 to 5 of WGCFG.CLOSE: the word with STATUS 5, CLOSED. Entries that fired since step 1 go with the others. -/
def closeSession (s : State) (r n : Nat) : State := endSession (endWaiting s r n) r n 5

/-- A strand and its instruction added to those that wait. -/
def addWaiter (l : List RingWaiter) (s : State) (gd : BitVec 5) : List RingWaiter :=
  if l.any (fun w => w.strand == s.cur) then l else l ++ [⟨s.cur, s.me.pc, gd⟩]

/-- The issuing strand's instruction no longer among those that wait: it goes on by itself (R216, R236). -/
def dropCloser (s : State) (r n : Nat) : State :=
  s.modSession r n (fun ss => { ss with closers := ss.closers.filter (fun w => w.strand != s.cur || w.pc != s.me.pc) })

/-- WGCFG.CLOSE: the strand is Blocked while tasks of the session run. -/
def execWgcfgClose (o : GFmt) (s : State) : Host.Outcome State Fault Refusal :=
  scalar s (match s.me.awayHere with
    | some w => .ok (completeAt s s.cur w)
    | none => do
      let x := s.me.greg o.ga
      ringPrivilege s (.wgcfgClose o)
      sessionOperand x
      let r := s.myRing
      if (s.session r x.toNat).state.isFree then return s.advance
      let s := discardTasks s r x.toNat
      if runningTasks s r x.toNat then
        return (s.modSession r x.toNat (fun ss => { ss with closers := addWaiter ss.closers s 0 })).block (.wgcfgClose o)
      else return (closeSession (dropCloser s r x.toNat) r x.toNat).advance)

/-- The session whose close strand k has begun, where none of its tasks runs any longer. -/
def closing (s : State) (k : Nat) : Option (Nat × Nat) :=
  (List.range s.rings.length).findSome? (fun r =>
    (leastBelow 4 (fun n => (s.session r n).closers.any (fun w => w.strand == k) && !runningTasks s r n)).map (fun n => (r, n)))

/-- WGCFG_CLOSE_COMPLETE (R218): the running tasks of the session that strand st closes have ended. -/
def execWgcfgCloseComplete (st : Nat) (s : State) : Host.Outcome State Fault Refusal :=
  match closing s st with
  | some (r, n) => .next (closeSession s r n)
  | none =>
    wake s st (fun i => i matches .wgcfgClose _) (fun i => match i with | .wgcfgClose o => execWgcfgClose o | _ => .next)

/-! Drains (R234). -/

/-- A tile owed more captures, added to those of its session. -/
def addOwed (l : List Owed) (x : Owed) : List Owed :=
  match l.find? (fun y => y.fam == x.fam && y.id == x.id) with
  | some _ => l.map (fun y => if y.fam == x.fam && y.id == x.id then { y with need := y.need + x.need, laps := max y.laps x.laps } else y)
  | none => l ++ [x]

/-- What a tile that leaves the ring still owes. -/
def Tile.owed (t : Tile) : Owed := ⟨t.fam, t.id, t.need, t.len, t.src, t.origin, t.laps⟩

/-- A half that an entry drops: one capture of the pad's tile owed again. -/
def Pad.owed (p : Pad) : Owed := ⟨p.fam, p.id, 1, p.len, p.src, p.origin, p.laps⟩

/-- The halves that the chosen entries of a session at a position hold, dropped. -/
def dropHalves (s : State) (r n pos : Nat) (pick : PairEntry → Bool) : State :=
  ((s.ring r).entriesAt pos).foldl (fun s e =>
    if e.2.session == n && pick e.2 then
      [false, true].foldl (fun s fam =>
        match (e.2.half fam).2 with
        | none => s
        | some k =>
          let p := ((s.ring r).padsAt pos n).find? (fun p => p.num == k)
          let s := p.elim s (fun p => s.modSession r n (fun ss => { ss with owed := addOwed ss.owed p.owed }))
          let s := s.modEntry r pos e.1 (fun x => x.setPad fam none)
          s.modPads r pos (fun l => l.map (fun p =>
            if p.session == n && p.num == k then { p with refs := p.refs.filter (fun i => i != e.1) } else p))) s
    else s) s

/-- Step 3 of a drain: every unfired entry drops its half, and the pads that no entry references are FREE. -/
def drainHalves (s : State) (r n : Nat) (pick : PairEntry → Bool) : State :=
  (List.range 12).foldl (fun s pos =>
    (dropHalves s r n pos pick).modPads r pos (fun l => l.filter (fun p => p.session != n || !p.refs.isEmpty))) s

/-- The records of a drain in ascending (FAM, ID) order, as words (Table 9.8). -/
def drainRecords (n : Nat) (l : List Owed) : List (List Nat) :=
  let key (x : Owed) : Nat := x.fam.toNat * 2 ^ 24 + x.id.toNat
  ((l.filter (fun x => x.need != 0)).mergeSort (fun a b => decide (key a ≤ key b))).map (fun x =>
    [tagOf x.id x.fam n + (x.len - 1) * 2 ^ 32 + x.need * 2 ^ 40, x.src.toNat, x.origin + x.laps * 256, 0])

/-- Words stored one after another. -/
def storeWords (s : State) (w : Who) : Nat → List Nat → Except Trap State
  | _, [] => .ok s
  | a, x :: xs =>
    match storeW s w (BitVec.ofNat 64 a) 8 x true with
    | .error t => .error t
    | .ok s => storeWords s w (a + 8) xs

/-- Steps 3 to 7 of the drain being served of a session whose tiles have left the ring; the number of records, or the trap of a drain
area that does not translate, which leaves the session in SETUP with its records owed. The next WGDRAIN that waits is asked for.
DEDUCED, unsafe: notes/assumptions/76. -/
def finishDrain (s : State) (r n : Nat) : State × Except Trap Nat :=
  let s := drainHalves s r n (fun e => !e.fired)
  let s := s.modSession r n (fun ss => { ss with
    drain := if (ss.drainers.drop 1).isEmpty then .none else .asked, drainers := ss.drainers.drop 1, state := if ss.state.isDamaged then .damaged else .setup })
  let ss := s.session r n
  let recs := drainRecords n ss.owed
  match storeWords s (sessionWho s ss) (ss.field 0x20 8) recs.flatten with
  | .error t => (s, .error t)
  | .ok s =>
    let s := wakeWaiters s r n
    let s := storeDone s r n 0
    (s.modSession r n (fun ss => { ss with
      idle := 0, status := 0, faultCause := none, faultVal := 0, faultInfo := 0, drained := ss.drained + recs.length
      owed := [] }), .ok recs.length)

/-- WGDRAIN: of a FREE session it writes 0; otherwise the strand is Blocked until the tiles have left. One that comes while another
is served waits for its own turn. -/
def execWgdrain (o : GFmt) (s : State) : Host.Outcome State Fault Refusal :=
  scalar s (match s.me.awayHere with
    | some w => .ok (completeAt s s.cur w)
    | none => do
      let x := s.me.greg o.ga
      ringPrivilege s (.wgdrain o)
      sessionOperand x
      let r := s.myRing
      if (s.session r x.toNat).state.isFree then return s.finish o.gd 0
      else
        return (s.modSession r x.toNat (fun ss => { ss with
          drain := match ss.drain with | .stopping => .stopping | _ => .asked
          drainers := addWaiter ss.drainers s o.gd })).block (.wgdrain o))

/-- The session whose drain by strand k is being served and is ready: its tiles have left the ring. -/
def drainReady (s : State) (k : Nat) : Option (Nat × Nat × RingWaiter) :=
  (List.range s.rings.length).findSome? (fun r =>
    (List.range 4).findSome? (fun n =>
      let ss := s.session r n
      match ss.drainers with
      | w :: _ =>
        if w.strand == k && ss.drain == .stopping && ((s.ring r).tilesOf n).isEmpty then some (r, n, w) else none
      | [] => none))

/-- WGDRAIN_COMPLETE (R234): the records are stored and gd receives their number; a trap is the strand's own. -/
def execWgdrainComplete (st : Nat) (s : State) : Host.Outcome State Fault Refusal :=
  match drainReady s st with
  | some (r, n, w) =>
    match finishDrain s r n with
    | (s, .ok c) => .next (completeAt s st ⟨w.pc, w.gd, BitVec.ofNat 64 c, false⟩)
    | (s, .error t) =>
      .next (if (s.strand st).status.isBlocked then
          raiseAt ({ s with cur := st }.modStrand st (fun t => { t with status := .running })) st t
        else s)
  | none =>
    match (s.strand st).status with
    | .blocked (.wgdrain o) =>
      if (s.session ((s.strand st).coreNo / 12) ((s.strand st).greg o.ga).toNat).state.isFree then
        .next (completeAt s st ⟨(s.strand st).pc, o.gd, 0, false⟩)
      else .next s
    | _ => .next s

/-! WGSTAT (R235). -/

/-- The status block of a session as words (Table 9.9). -/
def statusBlock (s : State) (r n : Nat) : List Nat :=
  let ss := s.session r n
  let g := s.ring r
  if ss.state.isFree then List.replicate 8 0
  else
    let pair (a b : Nat) : Nat := a % 2 ^ 32 + b % 2 ^ 32 * 2 ^ 32
    let waiting := ((List.range 12).map (fun p =>
      ((g.entriesAt p).filter (fun e => e.2.session == n && e.2.fired && !e.2.started)).length)).sum
    let held := ((List.range 12).map (fun p => (g.padsAt p n).length)).sum
    [ pair (ss.state.code + ss.padCount * 256) ss.total, pair ss.fired ss.ended, pair ss.inja ss.injb
    , pair ss.captured ss.refused, pair ss.retired (g.tilesOf n).length, pair waiting held
    , pair ss.maxlaps ss.drained, 0 ]

def execWgstat (o : GFmt) (s : State) : Host.Outcome State Fault Refusal :=
  scalar s (do
    let x := s.me.greg o.ga
    let a := s.me.greg o.gb
    ringPrivilege s (.wgstat o)
    sessionOperand x
    need (a.toNat % 64 == 0) (Trap.at .align a)
    let s ← (statusBlock s s.myRing x.toNat).zipIdx.foldlM (fun s w =>
      storeW s s.who (a + BitVec.ofNat 64 (8 * w.2)) 8 w.1 false) s
    return s.advance)

/-! The beat (R222 to R226, R228, R230, R233). -/

/-- The source and the header word of a strand whose WGINJ waits for its beat. -/
def injecting (t : Strand) : Option (Word × Word) :=
  match t.status with
  | .blocked (.wginj o) => if t.inBeat then none else some (t.greg o.ga, t.greg o.gb)
  | _ => none

/-- The strand of a core that injects into a family's slot now: its session takes injections and its window is open.
DESIGN CHOICE, unsafe: notes/assumptions/46. -/
def injector (s : State) (r pos : Nat) (fam : Bool) : Option Nat :=
  (List.range s.strands.length).find? (fun k =>
    let t := s.strand k
    match injecting t with
    | some (_, x) =>
      let n := headSession x
      let ss := s.session r n
      t.placed && t.coreNo == 12 * r + pos && headFam x == fam && sessionLive s r n &&
        decide ((ss.inflight.filter (fun y => y == (pos, fam))).length < ss.window fam)
    | none => false)

/-- One injection at a position, where the slot is empty; the strand's WGINJ completes when the beat ends (R222). -/
def injectAt (r pos : Nat) (fam : Bool) (s : State) : State × Bool :=
  match (s.ring r).slot fam pos, injector s r pos fam with
  | none, some k =>
    let t := s.strand k
    match injecting t with
    | some (a, x) =>
      let n := headSession x
      let len := headLen x
      let c := t.coreNo
      let data := Mem.read (s.core c).scratch (scratchBase (s.core c) t.shareD + a.toNat % 2 ^ 52) (len * 2048)
      let tile : Tile := ⟨x.setWidth 24, fam, n, headNeed x, len, 0, pos, a, data⟩
      let s := s.setSlot r fam pos (some tile)
      let s := s.modSession r n (fun ss => { ss with
        state := if ss.state.isSetup then .running else ss.state
        inja := ss.inja + (!fam).toNat, injb := ss.injb + fam.toNat, active := true, idle := 0
        inflight := ss.inflight ++ [(pos, fam)]
        owed := ss.owed.filter (fun y => !(y.fam == fam && y.id == tile.id)) })
      (s.modStrand k (fun t => { t with inBeat := true }), true)
    | none => (s, false)
  | _, _ => (s, false)

/-- A strand whose WGINJ waits for a session that no longer takes injections at all runs it again, and traps. -/
def wakeInjector (s : State) (k r : Nat) : State :=
  let t := s.strand k
  match injecting t with
  | some (_, x) =>
    let st := (s.session r (headSession x)).state
    if t.coreNo / 12 == r && !(st.isSetup || st.isRunning) then s.modStrand k (fun t => { t with status := .running }) else s
  | none => s

/-- A tile gone from its slot, its window place returned to its ORIGIN core. -/
def leaveSlot (s : State) (r pos : Nat) (t : Tile) : State :=
  (s.setSlot r t.fam pos none).modSession r t.session (fun ss => { ss with inflight := ss.inflight.erase (t.origin, t.fam) })

/-- A tile at its ORIGIN (R223 step 2, R234 step 2): it leaves the ring where its session drains, else a lap is
counted. -/
def lapAt (r pos : Nat) (fam fresh : Bool) (s : State) : State :=
  match (s.ring r).slot fam pos with
  | none => s
  | some t =>
    let ss := s.session r t.session
    if t.origin != pos || fresh then s
    else if ss.drain == .stopping then
      (leaveSlot s r pos t).modSession r t.session (fun ss => { ss with owed := addOwed ss.owed t.owed })
    else if sessionLive s r t.session then
      let laps := if t.laps < 255 then t.laps + 1 else 255
      (s.setSlot r fam pos (some { t with laps := laps })).modSession r t.session (fun ss => { ss with maxlaps := max ss.maxlaps laps })
    else s

/-- The paired task of a fired entry: a gang of one that waits for its core (R228). -/
def fireTask (s : State) (r pos idx : Nat) (e : PairEntry) : State :=
  let ss := s.session r e.session
  let hive := (s.strand ss.owner).hive
  let pad (p : Option Nat) : Nat := windowBase + ss.padOff + p.getD 0 * padSize
  let gang := nextGang (s.hive hive)
  let id := nextStrandIds s 1
  let t := freshStrand hive id gang (ss.field 0x10 8) [pad e.padA, pad e.padB, e.arg.toNat, idx, e.session]
    (ss.field 0xC 1) (ss.field 0xD 1) (ss.field 0xE 1) (ss.field 0xF 1)
  let t := { t with
    share := some ⟨12 * r + pos, 0, 16⟩, task := some ⟨r, pos, e.session, idx, true⟩, arrival := s.nextArrival }
  let s := { s with strands := s.strands ++ [t], nextArrival := s.nextArrival + 1, lastStrandId := BitVec.ofNat 32 id }
  s.modHive hive (fun h => { h with lastGang := gang })

/-- An entry that holds both halves fires, unless its session would pass TOTAL (R226). -/
def fireEntry (r pos n : Nat) (s : State) (idx : Nat) : State :=
  match (s.ring r).entryAt pos idx with
  | none => s
  | some e =>
    let ss := s.session r n
    if e.fired || e.padA.isNone || e.padB.isNone || !sessionLive s r n then s
    else if ss.total ≤ ss.fired then
      sessionFault s r n .damaged .ringCount 4 (BitVec.allOnes 64) (BitVec.ofNat 64 (pos + idx * 256))
    else
      let s := s.modSession r n (fun ss => { ss with fired := ss.fired + 1, active := true })
      fireTask (s.modEntry r pos idx (fun e => { e with fired := true })) r pos idx e

/-- A capture of a tile into a pad for some entries (R224). -/
def captureTile (s : State) (r pos : Nat) (t : Tile) (pad : Nat) (es : List Nat) : State :=
  let n := t.session
  let ss := s.session r n
  let s := s.modCore (12 * r + pos) (fun c => { c with
    scratch := Mem.write c.scratch (ss.padOff + pad * padSize) (t.len * 2048) t.payload })
  let t := { t with need := t.need - es.length }
  let s := s.setSlot r t.fam pos (some t)
  let s := s.modPads r pos (fun l => l ++ [⟨n, pad, t.fam, t.id, t.src, t.origin, t.laps, t.len, es⟩])
  let s := es.foldl (fun s i => s.modEntry r pos i (fun e => e.setPad t.fam (some pad))) s
  let s := s.modSession r n (fun ss => { ss with captured := ss.captured + 1, active := true })
  let s := es.foldl (fireEntry r pos n) s
  if t.need = 0 then (leaveSlot s r pos t).modSession r n (fun ss => { ss with retired := ss.retired + 1, active := true }) else s

/-- The lookup of the tile of a family at a position, and its decision (Table 9.5). -/
def lookAt (r pos : Nat) (fam : Bool) (s : State) : State :=
  let g := s.ring r
  match g.slot fam pos with
  | none => s
  | some t =>
    let n := t.session
    if !sessionLive s r n then s
    else
      let es := (g.entriesAt pos).filter (fun e =>
        e.2.session == n && !e.2.fired && (e.2.half fam).1 == t.id && (e.2.half fam).2.isNone)
      let idx := es.map (fun e => e.1)
      let refuse := s.modSession r n (fun ss => { ss with refused := ss.refused + 1 })
      let ss := s.session r n
      let unpaired := ((g.padsAt pos n).filter (g.unpaired pos)).length
      if es.isEmpty then s
      else if t.need < es.length then
        sessionFault s r n .damaged .ringCount 4 (BitVec.ofNat 64 (tagOf t.id fam n)) (BitVec.ofNat 64 (pos + idx.headD 0 * 256))
      else match g.freePad pos n ss.padCount with
        | none => refuse
        | some k =>
          if es.any (fun e => (e.2.half (!fam)).2.isSome) || decide (unpaired < ss.padCount - 1) then captureTile s r pos t k idx
          else refuse

/-- A RUNNING session after a beat: complete, or one more idle beat (R230, R233). -/
def settleSession (r : Nat) (s : State) (n : Nat) : State :=
  let ss := s.session r n
  let tiles := (s.ring r).tilesOf n
  if !ss.state.isRunning || !faultless s r n then s
  else if ss.fired = ss.total ∧ ss.ended = ss.total ∧ tiles.isEmpty then endSession s r n 1
  else if ss.active then s.modSession r n (fun ss => { ss with idle := 0 })
  else if !tiles.isEmpty && !liveTasks s r n then s.modSession r n (fun ss => { ss with idle := ss.idle + 1 })
  else s

/-- A drain asked for begins, unless the strand that asked has left its WGDRAIN, which is then abandoned (R216, R234). -/
def beginDrain (s : State) (ss : Session) : Session :=
  match ss.drain with
  | .asked =>
    let l := ss.drainers.filter (fun w =>
      (s.strand w.strand).onShare && ((s.strand w.strand).status matches .blocked (.wgdrain _)))
    { ss with drainers := l, drain := if l.isEmpty then .none else .stopping }
  | _ => ss

/-- The end of the beat of a WGINJ: the strand goes on (R222). -/
def endInjection (r : Nat) (t : Strand) : Strand :=
  if t.inBeat && t.coreNo / 12 == r then { t with inBeat := false, status := .running, pc := t.pc + 8 } else t

/-- The beginning of a beat: the last one ends, pads without references are FREE, drains asked for begin, every tile moves (R220,
R222, R234). -/
def beginBeat (s : State) (r : Nat) : State :=
  let s := { s with strands := s.strands.map (endInjection r) }
  s.modRing r (fun g =>
    let g := g.move
    { g with
      beats := g.beats + 1
      pads := g.pads.map (fun l => l.filter (fun p => !p.refs.isEmpty))
      sessions := g.sessions.map (fun ss => beginDrain s { ss with active := false }) })

/-- What happens at one core in a beat, injections apart: laps, then the lookups of A and of B (R223).
DEDUCED, unsafe: notes/assumptions/45. -/
def beatAt (r : Nat) (fresh : List (Nat × Bool)) (s : State) (pos : Nat) : State :=
  let s := lapAt r pos false (fresh.contains (pos, false)) s
  let s := lapAt r pos true (fresh.contains (pos, true)) s
  lookAt r pos true (lookAt r pos false s)

/-- RING_BEAT (R223). -/
def execRingBeat (ring : Nat) (s : State) : Host.Outcome State Fault Refusal :=
  let s := beginBeat s ring
  let places := (List.range 12).flatMap (fun p => [(p, false), (p, true)])
  let (s, fresh) := places.foldl (fun acc x =>
    let r := injectAt ring x.1 x.2 acc.1
    (r.1, if r.2 then x :: acc.2 else acc.2)) (s, [])
  let s := (List.range 12).foldl (beatAt ring fresh) s
  let s := (List.range 4).foldl (settleSession ring) s
  .next ((List.range s.strands.length).foldl (fun s k => wakeInjector s k ring) s)

/-- RING_STRANDED (R223, R227): the session of a tile past its lap limit halts. -/
def execRingStranded (ring session : Nat) (s : State) : Host.Outcome State Fault Refusal :=
  match strandedTile s ring session with
  | some t =>
    if (s.session ring session).state.isRunning then
      .next (sessionFault s ring session .halted .ringStranded 2 (BitVec.ofNat 64 (tagOf t.id t.fam session))
        (BitVec.ofNat 64 t.origin))
    else .next s
  | none => .next s

/-- RING_STUCK (R233, R227): a session with an idle beat count of 12 halts. -/
def execRingStuck (ring session : Nat) (s : State) : Host.Outcome State Fault Refusal :=
  let ss := s.session ring session
  if ss.state.isRunning && decide (12 ≤ ss.idle) then
    .next (sessionFault s ring session .halted .ringStuck 3 (BitVec.ofNat 64 session)
      (BitVec.ofNat 64 ((s.ring ring).tilesOf session).length))
  else .next s

end Sys2Proof.Machine
end

