-- ==== Sys2Proof/Machine/Quit.lean ====
section
/-! DEFINITION. The end of a strand: SQUIT, and WGEND of a paired task (spec/02 R37, spec/09 R217, R229, spec/15 R389). -/

namespace Sys2Proof.Machine

/-- The sessions that strand k owns, as (ring, number). -/
def ownedSessions (s : State) (k : Nat) : List (Nat × Nat) :=
  (List.range s.rings.length).flatMap (fun r =>
    ((List.range 4).filter (fun n => !(s.session r n).state.isFree && (s.session r n).owner == k)).map (fun n => (r, n)))

/-- A paired task's references dropped and its end counted; one whose ring was revoked holds none (R229, R71). -/
def endTask (s : State) (k : Nat) : State :=
  match (s.strand k).task with
  | none => s
  | some x =>
    if !x.holds then s
    else
      let s := s.modEntry x.ring x.pos x.entry (fun e => { e with padA := none, padB := none })
      let s := s.modPads x.ring x.pos (fun l => l.map (fun p =>
        if p.session == x.session then { p with refs := p.refs.filter (fun i => i != x.entry) } else p))
      s.modSession x.ring x.session (fun ss => { ss with ended := ss.ended + 1 })

/-- The issuing strand ends by an instruction: once its queue is empty and its vector accesses are performed, a release at
HIVE scope; its bindings and pushed values go, its sessions close, for whose running tasks it waits, and it leaves. -/
def quit (i : Instr) (s : State) : Option (Except Trap State) :=
  if !s.me.queue.isEmpty || !s.quietV then none
  else
    let k := s.cur
    let s := undoBindings (releaseL1 s s.who 1) k
    let s := s.modMe (fun t => { t with pushed := [], pushBits := 0 })
    let owned := ownedSessions s k
    let s := owned.foldl (fun s x => discardTasks s x.1 x.2) s
    if owned.any (fun x => runningTasks s x.1 x.2) then
      some (.ok (s.block i))
    else
      let s := owned.foldl (fun s x => closeSession s x.1 x.2) s
      some (.ok (endStrand (endTask s k) k))

/-- SQUIT (R389): in a paired task it acts as WGEND. -/
def execSquit (o : GFmt) (s : State) : Host.Outcome State Fault Refusal := scalarWait s (quit (.squit o) s)

/-- WGEND (R229): outside a paired task it traps. A task whose ring was revoked holds no ring and still ends (R71). -/
def execWgend (o : GFmt) (s : State) : Host.Outcome State Fault Refusal :=
  scalarWait s
    (match s.me.task with
     | some _ => quit (.wgend o) s
     | none =>
       match ringPrivilege s (.wgend o) with
       | .error t => some (.error t)
       | .ok _ => some (.error (Trap.at .illegalCombo 0)))

/-- SQUIT_COMPLETE (R389): the running tasks of the sessions that the strand owns have ended. -/
def execSquitComplete (st : Nat) (s : State) : Host.Outcome State Fault Refusal :=
  wake s st (fun i => match i with | .squit _ | .wgend _ => true | _ => false)
    (fun i => match i with | .squit o => execSquit o | .wgend o => execWgend o | _ => .next)

end Sys2Proof.Machine
end

