-- ==== Sys2Proof/Machine/Shares.lean ====
section
/-! DEFINITION. Core shares as they pass between hives, ring claims, bucket slots and binding counts (spec/03 R60 to R63, R85,
R86, spec/04 R109). -/

namespace Sys2Proof.Machine

/-! Splitting and merging (R60). -/

/-- The largest aligned blocks that are left of a block (lo, l) when a block (t, tl) inside it is given away. -/
def splitOff : Nat → Nat → Nat → Nat → Nat → List (Nat × Nat)
  | 0, _, _, _, _ => []
  | f + 1, lo, l, t, tl =>
    if l ≤ tl then []
    else
      let h := l / 2
      if t < lo + h then splitOff f lo h t tl ++ [(lo + h, h)] else (lo, h) :: splitOff f (lo + h) h t tl

/-- What is left of a share when a block of it is given away. -/
def shareRest (x : ShareRef) (lg size : Nat) : List ShareRef := (splitOff 4 x.lg x.size lg size).map (fun b => ⟨x.core, b.1, b.2⟩)

/-- No strand of a hive is placed on, waits on or is suspended on a share. -/
def shareIdle (s : State) (h : Nat) (x : ShareRef) : Bool :=
  !s.strands.any (fun t => !t.status.isEnded && t.hive == h && t.share == some x)

/-- The lower of two shares of a hive that may merge now. -/
def mergeable (s : State) (h : Hive) : Option ShareRef :=
  h.shares.find? (fun x =>
    decide (x.size < 16) && x.lg % (2 * x.size) == 0 && h.shares.contains ⟨x.core, x.lg + x.size, x.size⟩ &&
      shareIdle s h.id x && shareIdle s h.id ⟨x.core, x.lg + x.size, x.size⟩)

/-- Shares of a hive merged while two of them can, n times at most. -/
def mergeShares : Nat → State → Nat → State
  | 0, s, _ => s
  | n + 1, s, h =>
    match mergeable s (s.hive h) with
    | some x =>
      mergeShares n (s.modHive h (fun k => { k with
        shares := ⟨x.core, x.lg, 2 * x.size⟩ :: k.shares.filter (fun y =>
          !(y == x) && !(y == ⟨x.core, x.lg + x.size, x.size⟩)) })) h
    | none => s

/-! Lane groups that pass from one hive to another (R109). -/

/-- A comb context of a region that passes on: its state written to its record where that is possible, and freed. -/
def dropRegion (s : State) (c : Nat) (x : CombCtx) : State :=
  match evictCtx s c x with
  | .ok s => s
  | .error _ => s.dropCtx c x

/-- The comb of lane groups without contexts. -/
def clearComb (s : State) (x : ShareRef) : State :=
  ((s.core x.core).comb.filter (fun y => decide (x.lg ≤ y.lg) && decide (y.lg < x.lg + x.size))).foldl
    (fun s y => dropRegion s x.core y) s

/-- Two ranges meet. -/
def overlaps (a n b m : Nat) : Bool := decide (a < b + m) && decide (b < a + n)

/-- The scratchpad range of lane groups zero and empty, every tile that has one of them zero, their comb without contexts. -/
def clearLanes (s : State) (x : ShareRef) : State :=
  let s := clearComb s x
  s.modCore x.core (fun c =>
    let lo := scratchBase c x
    let n := scratchLen c x
    { c with
      scratch := Mem.wipe c.scratch lo n
      full := c.full.filter (fun g => !(decide (lo ≤ 16 * g) && decide (16 * g < lo + n)))
      tiles := c.tiles.zipIdx.map (fun t =>
        if overlaps (4 * t.2) 4 x.lg x.size then Core.zeroTile else t.1) })

/-- Lane groups that a hive receives, as one block. -/
def receiveShare (s : State) (h : Nat) (x : ShareRef) : State :=
  (clearLanes s x).modHive h (fun k => { k with shares := x :: k.shares })

/-! The ring (R63). -/

/-- A hive holds every core of its partition's ring as a whole-core share. -/
def holdsCores (h : Hive) : Bool := (List.range 12).all (fun p => h.shares.contains ⟨12 * h.part + p, 0, 16⟩)

/-- A ring that passes to a hive: held, or a dormant claim. -/
def claimRing (s : State) (h : Nat) : State :=
  s.modHive h (fun k => { k with ring := if holdsCores k then .held else .dormant })

def RingHold.isDormant : RingHold → Bool
  | .dormant => true
  | _ => false

/-- What a hive operation of a partition ends with: the issuer's and the child's shares merge where they can, and a dormant
claim becomes a holding where its hive holds the 12 cores (R60, R63). The hives that undergo an HTAKE or HKILL are the named child, and
the parents to which lane groups return, not every descendant that loses something.
DESIGN CHOICE, unsafe: notes/assumptions/75. -/
def settleHives (s : State) (hs : List Nat) : State :=
  let s := hs.foldl (fun s h => mergeShares (s.hive h).shares.length s h) s
  { s with hives := s.hives.map (fun k => if k.ring.isDormant && holdsCores k then { k with ring := .held } else k) }

/-! The tree (R59). -/

/-- The direct children of a hive. -/
def childrenOf (s : State) (h : Nat) : List Hive := s.hives.filter (fun k => k.parent == h)

/-- A hive and its descendants, the hive first. -/
def subtree (s : State) (h : Nat) : List Nat := (s.hives.filter (fun k => s.within h k.id)).map (fun k => k.id)

/-- A hive's descendants in order of depth. -/
def descendants (s : State) (h : Nat) : List Nat :=
  (List.range' 1 8).flatMap (fun d => ((s.hives.filter (fun k => k.depth == d && k.id != h && s.within h k.id)).map (fun k => k.id)))

/-! Buckets and bindings (R85, R86, R69). -/

def Hive.bucket (h : Hive) (i : Nat) : Bucket := h.buckets.getD i ⟨0, 0, 0, false, 0, 0⟩

def State.modBucket (s : State) (h i : Nat) (f : Bucket → Bucket) : State :=
  s.modHive h (fun k => { k with buckets := modAt k.buckets i f })

/-- The rate of a hive's remainder bucket on slice i: its RATE less its children's carved RATEs.
DEDUCED, unsafe: notes/assumptions/22. -/
def remainderRate (s : State) (h : Hive) (i : Nat) : Nat :=
  (h.bucket i).rate - (((childrenOf s h.id).filter (fun k => (k.bucket i).own)).map (fun k => (k.bucket i).rate)).sum

/-- A slot of the port of slice i of a partition is free (R85). -/
def slotFree (s : State) (part i : Nat) : Bool :=
  decide ((s.hives.filter (fun k => k.part == part && (k.bucket i).own)).length < 64)

/-- A bucket word (Table 3.2). -/
def bucketRate (w : Nat) : Nat := bits w 15 0

def bucketBurst (w : Nat) : Nat := bits w 47 16

/-- A bucket's count cut to its BURST (R87). -/
def Bucket.cut (b : Bucket) : Bucket := { b with tokens := min b.tokens ((b.burst * 16 : Nat) : Int) }

/-- Fabric bindings that a hive has given to none and not bound itself. -/
def unusedSlots (s : State) (h : Hive) : Nat := ownSlots s h - slotsBound s h.id

end Sys2Proof.Machine
end

