-- ==== Sys2Proof/Machine/Revoke.lean ====
section
/-! DEFINITION. What a revocation and a destruction do in a subtree: strands saved or moved, the ring taken, bindings undone,
shadow leaves marked, rates reduced, hives killed (spec/03 R71, R72, Table 3.5, spec/10 R244, spec/13 R302). -/

namespace Sys2Proof.Machine

/-! Strands (Table 3.5, shares). -/

/-- Strand k posts a REVOKED notice with its ticket to its own hive, which holds it. -/
def noticeStrand (s : State) (k kind : Nat) : State :=
  let r := strandNotice s k kind
  let hive := (s.strand k).hive
  let (holder, s) := post s hive (s.partOf hive) r
  { s with nextTicket := s.nextTicket + 1 }.modStrand k (fun t => { t with susp := some ⟨.revoked, r.ticket, holder, r⟩ })

/-- A waiting strand moved to the spill area, attached to no share, until PLACE names one. -/
def moveStrand (s : State) (k kind : Nat) : State :=
  let s := s.modStrand k (fun t => { t with
    status := .waiting, placed := false, resuming := false, egs := 0, share := none, spilled := true })
  noticeStrand s k kind

/-- Strands that run on a share and are to be pre-empted. -/
def runsOn (t : Strand) (x : ShareRef) : Bool := t.active && t.share == some x

/-- The strands of a share pre-empted or moved: those that run asked to leave, those that wait moved at once. -/
def emptyShare (s : State) (x : ShareRef) : State :=
  (List.range s.strands.length).foldl (fun s k =>
    let t := s.strand k
    if runsOn t x then requestPreempt s k 0 false
    else if t.unloaded && t.share == some x then moveStrand s k 0
    else s) s

/-- No strand runs on or waits for a share. -/
def shareEmpty (s : State) (x : ShareRef) : Bool :=
  !s.strands.any (fun t => runsOn t x || (t.unloaded && t.share == some x))

/-! The ring (Table 3.5). -/

/-- A session's tiles off the ring at once, each owed what it needs. -/
def dropTilesOwed (s : State) (r n : Nat) : State :=
  let owed := ((s.ring r).tilesOf n).map Tile.owed
  let s := s.modSession r n (fun ss => { ss with owed := owed.foldl addOwed ss.owed })
  s.modRing r (fun g => g.dropTiles n)

/-- Drain records stored one by one; one whose store does not translate is not stored. -/
def storeRecords (s : State) (w : Who) : Nat → List (List Nat) → State
  | _, [] => s
  | a, x :: xs =>
    match storeWords s w a x with
    | .ok s => storeRecords s w (a + 32) xs
    | .error _ => storeRecords s w (a + 32) xs

/-- One session revoked: lookup and injection stop, tiles leave, what is owed goes to its drain area, and it is FREE. -/
def revokeSession (r : Nat) (s : State) (n : Nat) : State :=
  if (s.session r n).state.isFree then s
  else
    let s := dropTilesOwed s r n
    let s := endWaiting s r n
    let s := drainHalves s r n (fun e => !e.started)
    let ss := s.session r n
    let s := releaseL1 s (sessionWho s ss) 1
    let s := storeRecords s (sessionWho s ss) (ss.field 0x20 8) (drainRecords n ss.owed)
    freeSession s r n

/-- A strand Blocked in an instruction of a ring runs it again; a WGINJ whose beat has begun is complete. -/
def unblockRing (r : Nat) (t : Strand) : Strand :=
  let t := endInjection r t
  match t.status with
  | .blocked (.wgwait _) | .blocked (.wginj _) | .blocked (.wgdrain _) | .blocked (.wgcfgClose _) =>
    if t.placed && t.coreNo / 12 == r then { t with status := .running } else t
  | _ => t

/-- Paired tasks of a ring that have started and not ended, which keep no pads and are pre-empted. -/
def revokeTasks (s : State) (r : Nat) : State :=
  (List.range s.strands.length).foldl (fun s k =>
    let t := s.strand k
    if !t.status.isEnded && (t.task.map (fun x => x.ring == r && x.holds)).getD false then
      let s := s.modStrand k (fun t => { t with task := t.task.map (fun x => { x with holds := false }) })
      if t.active then requestPreempt s k 1 false
      else if t.unloaded then moveStrand s k 1
      else s
    else s) s

/-- The ring of a hive revoked, with its notice; a dormant claim has no session to lose. -/
def revokeRing (s : State) (h : Nat) : State :=
  let k := s.hive h
  let r := k.part
  let s := if k.ring.isHeld then
      let s := (List.range 4).foldl (revokeSession r) s
      let s := revokeTasks s r
      { s with strands := s.strands.map (unblockRing r) }
    else s
  let s := s.modHive h (fun k => { k with ring := .none })
  (post s h r (revokedNotice h 1)).2

/-- Some strand of a hive has still to leave because its ring was revoked. -/
def tasksLeaving (s : State) (hs : List Nat) : Bool :=
  s.strands.any (fun t => !t.status.isEnded && hs.contains t.hive && t.preempt.isSome &&
    (t.task.map (fun x => !x.holds)).getD false)

/-- Whether a hive holds or claims the ring. -/
def hasRing (h : Hive) : Bool := h.ring.isHeld || h.ring.isDormant

/-- Before a hive gives up some lane groups: its ring goes first where it would be left without a whole core (R63).
DEDUCED, unsafe: notes/assumptions/25. -/
def ringBefore (s : State) (h : Nat) (xs : List ShareRef) : State :=
  if (s.hive h).ring.isHeld && xs.any (fun x => x.core / 12 == (s.hive h).part) then revokeRing s h else s

/-! Fabric bindings (Table 3.5). -/

/-- The newest binding of a hive's strands: strand and slot. -/
def newestBinding (s : State) (h : Nat) : Option (Nat × BitVec 5) :=
  let all := (List.range s.strands.length).flatMap (fun k =>
    let t := s.strand k
    if t.hive == h && !t.status.isEnded then
      ((List.range 32).filter (fun n => (t.fslot (BitVec.ofNat 5 n)).bound)).map (fun n =>
        ((t.fslot (BitVec.ofNat 5 n)).order, k, BitVec.ofNat 5 n))
    else [])
  (all.foldl (fun m x =>
    match m with
    | none => some x
    | some y => if y.1 < x.1 then some x else m) none).map (fun x => x.2)

/-- A binding undone: an FX in flight on it stops with its record first; a suspended strand's save entry loses it too. -/
def undoBinding (s : State) (k : Nat) (n : BitVec 5) : State :=
  let s := match s.ctxOf k n with
    | some (c, x) => if x.running then (stopFx s c x).1 else s
    | none => s
  let s := releaseSlot s k n
  let t := s.strand k
  if t.status.isSuspended || (t.unloaded && t.entry.isSome) then
    poolPut s (s.hive t.hive) (entryOff (s.hive t.hive) t + 0xB00 + 16 * n.toNat) (leBytes 16 0)
  else s

/-- Bindings of a hive undone newest first while it holds more than its own count, n at most. -/
def trimBindings : Nat → State → Nat → State
  | 0, s, _ => s
  | n + 1, s, h =>
    if slotsBound s h ≤ ownSlots s (s.hive h) then s
    else match newestBinding s h with
      | some (k, slot) => trimBindings n (undoBinding s k slot) h
      | none => s

/-- A child's FSLOTS reduced to a value, its descendants' in proportion, rounded down; each hive over its count trimmed, and
each whose count falls told. -/
def takeSlots (s : State) (h new : Nat) : State :=
  let hs := descendants s h
  let old := (s.hive h).fslots
  let hit := h :: hs.filter (fun d => (s.hive d).fslots * new / max old 1 < (s.hive d).fslots)
  let s := hs.foldl (fun s d => s.modHive d (fun k => { k with fslots := k.fslots * new / max old 1 })) s
  let s := s.modHive h (fun k => { k with fslots := new })
  let s := (h :: hs).foldl (fun s d => trimBindings (slotsBound s d) s d) s
  if new < old then hit.foldl (fun s d => (post s d (s.partOf d) (revokedNotice d 2)).2) s else s

/-! Killing (R72). -/

/-- A hive's ring discarded: no record and no word is written. -/
def discardRing (s : State) (h : Nat) : State :=
  let k := s.hive h
  if k.ring.isHeld then
    (List.range 4).foldl (fun s n =>
      (freeSession s k.part n).modSession k.part n (fun ss => { ss with status := 0, faultCause := none })) s
  else s

/-- A binding notice (R302). -/
def bindingNotice (h fn : Nat) : TrapRecord := ⟨0, 0, flagNotice, h, 0, 0, 0, 0, 0, BitVec.ofNat 64 fn, 0⟩

/-- The functions bound to a hive released, and the host told. -/
def releaseVfs (s : State) (h : Nat) : State :=
  let mine := s.vfs.filter (fun v => v.2 == h)
  let part := s.partOf h
  mine.foldl (fun s v => (post s 0 part (bindingNotice h v.1)).2) { s with vfs := s.vfs.filter (fun v => v.2 != h) }

/-- An HTAKE in progress of a hive that is destroyed, or by it, is over. -/
def dropTaking (s : State) (part h : Nat) : State :=
  match (s.part part).taking with
  | some x =>
    if x.child == h || x.hive == h then
      completeAt (s.modPart part (fun p => { p with taking := none })) x.strand ⟨x.pc, 0, 0, false⟩
    else s
  | none => s

/-- One hive destroyed, its own children having been: strands end unsaved, commands stop without records, and what it held
goes to the hive named, or to none.
DEDUCED, unsafe: notes/assumptions/28. -/
def killOne (tgt : Nat) (s : State) (h : Nat) : State :=
  let k := s.hive h
  let s := discardRing s h
  let s := (List.range s.strands.length).foldl (fun s i =>
    if (s.strand i).hive == h && !(s.strand i).status.isEnded then endStrand s i else s) s
  let s := { s with
    cmds := s.cmds.filter (fun c => c.hive != h), llc := s.llc.filter (fun r => r.hive != h)
    walks := s.walks.filter (fun w => w.hive != h), imports := s.imports.filter (fun x => x.2.2 != h)
    cores := s.cores.map (fun c => { c with tlb := c.tlb.filter (fun e => e.hive != h) }) }
  let s := dropTaking (releaseVfs s h) k.part h
  let s := { s with hives := s.hives.filter (fun x => x.id != h) }
  let s := k.shares.foldl (fun s x => if tgt = 0 then clearLanes s x else receiveShare s tgt x) s
  if hasRing k && tgt != 0 then claimRing s tgt else s

/-- A hive and every descendant destroyed, the deepest first (R72). -/
def killHive (s : State) (h : Nat) : State :=
  let tgt := (s.hive h).parent
  ((descendants s h).reverse ++ [h]).foldl (killOne tgt) s

/-! Memory (Table 3.5). -/

/-- The effective leaves of a hive's shadow: (physical place of the entry, its origin's output, physical output, size). -/
def shadowLeaves (s : State) (h : Hive) : List (Nat × Nat × Nat × Nat) :=
  (linkedTables s h).flatMap (fun t =>
    (Mem.usedWords s.mem (h.poolPhys t.1) (tableSize t.2)).filterMap (fun i =>
      let epa := h.poolPhys (t.1 + 8 * i)
      match viewEntry t.2 (Mem.read s.mem epa 8) with
      | .page out _ _ _ _ => some (epa, entryOut (originAt s h t.2 epa), out, pageSize t.2)
      | _ => none))

/-- Some leaves of a hive's shadow made revoked markers. -/
def markLeaves (s : State) (h : Nat) (l : List (Nat × Nat × Nat × Nat)) : State :=
  s.modHive h (fun k => { k with revoked := k.revoked ++ (l.map (fun x => x.1)).filter (fun p => !k.revoked.contains p) })

/-- The physical pages that were cleared meet a range. -/
def hitBy (pages : List (Nat × Nat)) (a n : Nat) : Bool := pages.any (fun p => overlaps p.1 p.2 a n)

/-- Some commands of a hive stopped before their next chunk or block, with REVOKED in their records (R239, R244). -/
def revokeCommands (s : State) (h : Nat) (hit : Cmd → Bool) : State :=
  let gone := s.cmds.filter (fun c => c.hive == h && c.ending.isNone && hit c)
  gone.foldl (fun s c => tryCompletion (s.modCmd c.id (fun c => { c with ending := some endingRevoked })) c.id) s

/-- Engine commands of a hive that have still to touch a revoked leaf stop (R244). -/
def stopCommands (s : State) (h : Nat) : State :=
  let gone (va : Nat) : Bool := decide (va < 2 ^ 52) && (match walk s (s.hive h) va with | .fail .revoked => true | _ => false)
  revokeCommands s h (fun c => c.remaining.any (fun x => x.2 != 0 && (pageStarts x.1 x.2).any gone))

/-- The effect of AINV on a hive (R79). -/
def invalidate (s : State) (h : Nat) : State := newGeneration (flushHive s h) h

/-- Some physical pages taken from the descendants of a hive: the leaves they back become revoked markers; descendants whose
pools lie there die; commands stop; every affected hive, and those given, have the effect of AINV and are told. -/
def takePages (s : State) (h : Nat) (more : List Nat) (pages : List (Nat × Nat)) : State :=
  let below := (descendants s h).map (fun d => (d, (shadowLeaves s (s.hive d)).filter (fun l => hitBy pages l.2.2.1 l.2.2.2)))
  let s := below.foldl (fun s d => markLeaves s d.1 d.2) s
  let doomed := (descendants s h).filter (fun d => (s.hive d).pool.any (fun c => hitBy pages c (2 ^ 21)))
  let s := doomed.foldl (fun s d =>
    if (s.findHive d).isSome then
      let tgt := (s.hive d).parent
      settleHives (killHive s d) [tgt]
    else s) s
  let hit := (more ++ (below.filter (fun d => !d.2.isEmpty)).map (fun d => d.1)).filter (fun d => (s.findHive d).isSome)
  let s := hit.foldl stopCommands s
  let s := hit.foldl invalidate s
  hit.foldl (fun s d => (post s d (s.partOf d) (revokedNotice d 3)).2) s

/-- A range of a child's hive-physical space taken: its leaves whose origins lie there become revoked markers, and so on down
the tree. -/
def takeMemory (s : State) (h base size : Nat) : State :=
  let mine := (shadowLeaves s (s.hive h)).filter (fun l => decide (base ≤ l.2.1) && decide (l.2.1 < base + size))
  takePages (markLeaves s h mine) h [h] (mine.map (fun l => l.2.2))

/-! Buckets (Table 3.5, R87). -/

/-- A bucket with less: its count cut to its BURST; without a rate it gives up its slot, and its count is discarded. -/
def Bucket.reduce (b : Bucket) (rate burst : Nat) : Bucket :=
  if rate = 0 then { b with rate := 0, burst := burst, own := false, tokens := 0 }
  else { b with rate := rate, burst := burst }.cut

/-- A child's rate on a slice reduced to a value, its descendants' in proportion, rounded down. -/
def takeRate (s : State) (h i rate burst : Nat) : State :=
  let old := ((s.hive h).bucket i).rate
  let s := s.modBucket h i (fun b => b.reduce rate burst)
  (descendants s h).foldl (fun s d =>
    s.modBucket d i (fun b => b.reduce (b.rate * rate / max old 1) (min b.burst burst))) s

end Sys2Proof.Machine
end

