-- ==== Sys2Proof/Machine/Hives.lean ====
section
/-! DEFINITION. HNEW, HGIVE, HTAKE, HKILL and HSTAT (spec/03 R64 to R73, spec/15 R358 to R363). -/

namespace Sys2Proof.Machine

/-! The descriptor (R64, R65, R301). -/

/-- A power of two from lo to hi. -/
def isPow2In (n lo hi : Nat) : Bool := decide (lo ≤ n) && decide (n ≤ hi) && (n &&& (n - 1)) == 0

/-- The checks of Table 3.2 and of R65, in order, with the offset that a failure reports. A root names no window and no
shares of its own, and takes the ring (R301): root is its granules' size. -/
def descChecks (root : Option Nat) (r : Nat) : List (Nat × Bool) :=
  let f := field r
  let base := f 0x20 8
  let bound := f 0x28 8
  let inside (a : Nat) : Bool := a % 8 == 0 && decide (base ≤ a) && decide (a + 8 ≤ bound)
  let n := f 8 1
  let wb := f 0x10 8
  let ws := f 0x18 8
  let pb := f 0x40 8
  let ps := f 0x48 8
  let so := f 0x60 8
  let po := f 0x68 8
  [ (0x00, decide (f 0 8 < 4) && (root.isNone || bit (f 0 8) 0))
  , (0x08, if root.isSome then n == 0 else decide (1 ≤ n) && decide (n ≤ 16))
  , (0x09, f 9 1 != 0)
  , (0x0B, decide (f 0xB 1 < 4))
  , (0x0C, f 0xC 4 == 0)
  , (0x10, if root.isSome then wb == 0 else wb % 65536 == 0)
  , (0x18, match root with | some size => ws == size | none => ws != 0 && ws % 65536 == 0)
  , (0x20, base % 65536 == 0)
  , (0x28, bound % 65536 == 0 && decide (base < bound))
  , (0x30, inside (f 0x30 8))
  , (0x40, pb % 2 ^ 21 == 0)
  , (0x48, ps % 2 ^ 21 == 0 && decide (2 ^ 21 ≤ ps) && decide (ps ≤ 2 ^ 30))
  , (0x50, f 0x50 8 % 64 == 0)
  , (0x58, isPow2In (f 0x58 4) 16 65536)
  , (0x5C, f 0x5C 4 != 0)
  , (0x60, so % 64 == 0)
  , (0x68, po % 64 == 0)
  , (0x74, f 0x74 4 == 0)
  , (0x80, f 0x80 8 % 4096 == 0)
  , (0x88, inside (f 0x88 8)) ]
  ++ (List.range 4).map (fun i => (0xA0 + 8 * i, f (0xA6 + 8 * i) 2 == 0))
  ++ (List.range 16).map (fun k =>
      (0xC0 + 4 * k, if k < n ∧ root.isNone then decide (f (0xC0 + 4 * k) 4 < 2 ^ 13) else f (0xC0 + 4 * k) 4 == 0))
  ++ [ (0x60, decide (0x20000 ≤ so))
  , (0x5C, decide (so + entrySize * f 0x5C 4 ≤ po))
  , (0x70, decide (po + 64 * f 0x70 4 ≤ ps))
  , (0x40, root.isSome || decide (pb + ps ≤ wb) || decide (wb + ws ≤ pb)) ]

/-- The offset of the first field that fails. -/
def descFault (root : Option Nat) (r : Nat) : Option Nat := ((descChecks root r).find? (fun c => !c.2)).map (fun c => c.1)

/-- Lane groups of a SIZE code (Table 3.2). -/
def sizeOf (code : Nat) : Nat := 16 / 2 ^ code

/-- What the entries of a share list take: what is left of each share of the issuer, with its number, and the blocks that
go, in order; or the index of the first entry that fails (R69 step 3). -/
def carve : List (Nat × ShareRef) → Nat → List Nat → Except Nat (List (Nat × ShareRef) × List (Nat × ShareRef))
  | left, _, [] => .ok (left, [])
  | left, k, e :: es =>
    let src := bits e 6 0
    let size := sizeOf (bits e 8 7)
    let lg := bits e 12 9
    match left.find? (fun x => x.1 == src && decide (x.2.lg ≤ lg) && decide (lg + size ≤ x.2.lg + x.2.size)) with
    | none => .error k
    | some x =>
      if lg % size ≠ 0 then .error k
      else
        let rest := (shareRest x.2 lg size).map (fun y => (src, y))
        match carve (left.filter (fun y => y != x) ++ rest) (k + 1) es with
        | .error k => .error k
        | .ok (left, out) => .ok (left, (src, ⟨x.2.core, lg, size⟩) :: out)

/-- An issuer's shares carved by share entries; ILLEGAL_FIELD at the field of the first that fails. -/
def carveShares (h : Hive) (es : List Nat) : Except Trap (List (Nat × ShareRef) × List (Nat × ShareRef)) :=
  match carve ((sharesInOrder h).zipIdx.map (fun x => (x.2, x.1))) 0 es with
  | .ok x => .ok x
  | .error k => .error (Trap.at .illegalField (BitVec.ofNat 64 (0xC0 + 4 * k)))

/-- The issuer's shares named as SRC hold no strand of it that is placed or waiting (R69 step 5). -/
def sourcesIdle (s : State) (h : Hive) (out : List (Nat × ShareRef)) : Bool :=
  (sharesInOrder h).zipIdx.all (fun x =>
    !out.any (fun y => y.1 == x.2) ||
      !s.strands.any (fun t => t.hive == h.id && t.share == some x.1 && (t.placed || t.status.isWaiting)))

/-- Blocks passed from an issuer to a child: what is left stays with the issuer, the device clears what goes (R60, R109). -/
def passShares (s : State) (h child : Nat) (left out : List (Nat × ShareRef)) : State :=
  let srcs := (sharesInOrder (s.hive h)).zipIdx.filter (fun x => out.any (fun y => y.1 == x.2))
  let s := srcs.foldl (fun s x => clearComb s x.1) s
  let s := s.modHive h (fun k => { k with shares := left.map (fun x => x.2) })
  out.foldl (fun s x => receiveShare s child x.2) s

/-- HIVE_LIMIT with the offset of the failing field in DATA (R69 step 4).
DEDUCED, unsafe: notes/assumptions/23. -/
def hiveLimit (i : Instr) (data : Word) : Trap := ⟨.hiveLimit, encode i, 0, data⟩

/-- The first address of a range that a hive's composed translation does not map writable in pages of at least a size. -/
def firstUnmapped (s : State) (h : Hive) (least : Nat) : Nat → Nat → Nat → Option Nat
  | 0, _, _ => none
  | fuel + 1, va, stop =>
    if stop ≤ va then none
    else if 2 ^ 52 ≤ va then some va
    else match walk s h va with
      | .leaf e => if e.w && decide (least ≤ e.size) then firstUnmapped s h least fuel (e.vbase + e.size) stop else some va
      | .fail _ => some va

/-- A range is mapped writable, or PROTECTION with the first failing address (R69 step 6). -/
def needMapped (s : State) (h : Hive) (va n least : Nat) : Except Trap Unit :=
  match firstUnmapped s h least (n / 65536 + 1) va (va + n) with
  | none => .ok ()
  | some a => .error (accessTrap (BitVec.ofNat 64 a) .write .notPermitted)

/-- The physical place of a pool chunk. -/
def chunkPlace (s : State) (h : Hive) (va : Nat) : Nat :=
  match walk s h va with
  | .leaf e => e.pbase + (va - e.vbase)
  | .fail _ => 0

/-- A bucket of a new hive or of one that is given more: it takes a slot when it has a rate and one is free (R85). -/
def grantBucket (s : State) (h i rate burst : Nat) : State :=
  let free := slotFree s (s.partOf h) i
  s.modBucket h i (fun b => ({ b with
    rate := rate, burst := burst, own := b.own || (rate != 0 && free), tokens := if b.own then b.tokens else 0 }).cut)

/-- A hive as its descriptor gives it. -/
def describedHive (r id parent depth part : Nat) (pool : List Nat) : Hive :=
  let f := field r
  { Hive.blank with
    id := id, parent := parent, depth := depth, part := part, weight := f 9 1, fslots := f 0xA 1, noborrow := bit (f 0 8) 1
    wbase := f 0x10 8, wsize := f 0x18 8, codebase := f 0x20 8, codebound := f 0x28 8
    trapvec := BitVec.ofNat 64 (f 0x30 8), trapmask := BitVec.ofNat 64 (f 0x38 8)
    poolBase := f 0x40 8, pool := pool, poolSize := f 0x48 8, saveoff := f 0x60 8, savecnt := f 0x5C 4
    spilloff := f 0x68 8, spillcnt := f 0x70 4, tqbase := BitVec.ofNat 64 (f 0x50 8), tqsize := f 0x58 4
    tracebase := BitVec.ofNat 64 (f 0x78 8), tracesize := f 0x80 8, tblroot := BitVec.ofNat 64 (bits (f 0x98 8) 51 16 * 2 ^ 16)
    buckets := List.replicate 4 ⟨0, 0, 0, false, 0, 0⟩ }

/-- The initial strand of a hive, Suspended on share 0 with its state in its save entry; its ticket is the HIVEID, and the
parent holds it (R69, Table 11.4). -/
def initialStrand (s : State) (h r : Nat) : State :=
  let k := s.hive h
  let id := nextStrandIds s 1
  let gang := nextGang k
  let t := freshStrand h id gang (field r 0x88 8) [field r 0x90 8] (field r 0xB 1) 0 1 8
  let n := s.strands.length
  let t := { t with status := .suspended, share := (sharesInOrder k).head?, entry := some 0, fresh := false }
  let s := { s with strands := s.strands ++ [t], lastStrandId := BitVec.ofNat 32 id }
  let s := writeEntry (s.modHive h (fun x => { x with lastGang := gang })) n 2
  let note : TrapRecord := ⟨BitVec.ofNat 32 h, 0, 0, h, t.strandId, t.gangId, t.pc, 0, 0, 0, BitVec.ofNat 64 (entryOff k t)⟩
  s.modStrand n (fun t => { t with susp := some ⟨.initial, BitVec.ofNat 32 h, k.parent, note⟩ })

/-- A hive added to the tree with its buckets, its shadow root zero (R65, R69). -/
def addHive (s : State) (k : Hive) (r : Nat) : State :=
  let s := { s with hives := s.hives ++ [k], mem := Mem.wipe s.mem (k.poolPhys 0) 0x20000 }
  (List.range 4).foldl (fun s i =>
    let w := field r (0xA0 + 8 * i) 8
    grantBucket s k.id i (bucketRate w) (bucketBurst w)) s

/-- A HIVEID that no live hive has: the least (R59).
DESIGN CHOICE, unsafe: notes/assumptions/7. -/
def freeHiveId (s : State) : Option Nat :=
  (leastBelow 4096 (fun n => (s.findHive (n + 1)).isNone)).map (fun n => n + 1)

/-! Common steps (R68). -/

/-- A hive instruction: its precise checks, the wait and the fence of FENCE.ALL, its turn among the operations on the partition's
hives where it is one, and then its effect. -/
def hiveOp {α : Type} (s : State) (turn : Bool) (check : Except Trap α) (f : α → State → Except Trap State) :
    Host.Outcome State Fault Refusal :=
  scalarWait s
    (match check with
     | .error t => some (.error t)
     | .ok x => if !s.quietV || !turn then none else some (f x (acquireL1 s s.who 2)))

/-- A 64-byte aligned record address. -/
def aligned64 (a : Word) : Except Trap Unit := need (a.toNat % 64 == 0) (Trap.at .align a)

/-- The checks of R69 step 4 that concern one bucket, slice by slice and its RATE before its BURST: (offset, holds).
DESIGN CHOICE, unsafe: notes/assumptions/22. -/
def bucketLimits (s : State) (h : Hive) (added : Nat → Nat) (r : Nat → Nat) : List (Word × Bool) :=
  (List.range 4).flatMap (fun i =>
    [ (BitVec.ofNat 64 (0xA0 + 8 * i), decide (added i ≤ remainderRate s h i))
    , (BitVec.ofNat 64 (0xA0 + 8 * i), decide (bucketBurst (r i) ≤ (h.bucket i).burst)) ])

/-- The first limit that fails traps HIVE_LIMIT. -/
def needLimits (i : Instr) (l : List (Word × Bool)) : Except Trap Unit :=
  match l.find? (fun c => !c.2) with
  | some c => .error (hiveLimit i c.1)
  | none => .ok ()

/-! HNEW (R69, R360). -/

def execHnew (o : GFmt) (s : State) : Host.Outcome State Fault Refusal :=
  let a := s.me.greg o.ga
  let i := Instr.hnew o
  hiveOp s s.treeFree (aligned64 a) (fun _ s => do
    let (r, s) ← loadRecord s s.who a 32
    let h := s.myHive
    let f := field r
    match descFault none r with
    | some off => throw (Trap.at .illegalField (BitVec.ofNat 64 off))
    | none => pure ()
    need (decide (h.codebase ≤ f 0x20 8)) (Trap.at .codeBound (BitVec.ofNat 64 (f 0x20 8)))
    need (decide (f 0x28 8 ≤ h.codebound)) (Trap.at .codeBound (BitVec.ofNat 64 (f 0x28 8)))
    let (left, out) ← carveShares h ((List.range (f 8 1)).map (fun k => f (0xC0 + 4 * k) 4))
    let word (k : Nat) : Nat := f (0xA0 + 8 * k) 8
    needLimits i ([ (BitVec.allOnes 64, decide (s.hives.length < 4096))
      , (BitVec.allOnes 64 - 1, decide (h.depth < 8))
      , (0x0A, decide (f 0xA 1 ≤ unusedSlots s h)) ] ++ bucketLimits s h (fun k => bucketRate (word k)) word)
    need (sourcesIdle s h out) (combo i)
    let ring := bit (f 0 8) 0
    let cores := (List.range 12).all (fun p => out.any (fun x => x.2 == ⟨12 * h.part + p, 0, 16⟩))
    need (!ring || (h.ring.isHeld && cores)) (combo i)
    needMapped s h (f 0x10 8) (f 0x18 8) 0
    needMapped s h (f 0x40 8) (f 0x48 8) (2 ^ 21)
    match freeHiveId s with
    | none => throw (hiveLimit i (BitVec.allOnes 64))
    | some id =>
      let pool := (List.range (f 0x48 8 / 2 ^ 21)).map (fun k => chunkPlace s h (f 0x40 8 + k * 2 ^ 21))
      let s := ringBefore s h.id (out.map (fun x => x.2))
      let s := addHive s (describedHive r id h.id (h.depth + 1) h.part pool) r
      let s := passShares s h.id id left out
      let s := if ring then s.modHive id (fun k => { k with ring := .held })
        else if h.ring.isHeld then claimRing s h.id else s
      let s := initialStrand s id r
      return settleHives (s.finish o.gd (BitVec.ofNat 64 id)) [h.id])

/-! Extent records (R70). -/

/-- KIND, COUNT and the reserved bytes of an extent record whose body uses n bytes.
DEDUCED, unsafe: notes/assumptions/24. -/
def extentOk (r kind n : Nat) : Bool :=
  field r 0 1 == kind && field r 2 6 == 0 && decide (r < 2 ^ (8 * (8 + n))) &&
    (if kind = 0 then decide (1 ≤ field r 1 1) && decide (field r 1 1 ≤ 12) else field r 1 1 == 0)

/-- The 4-byte entries of a KIND 0 record. -/
def extentEntries (r : Nat) : List Nat := (List.range (field r 1 1)).map (fun k => field r (8 + 4 * k) 4)

/-- HGIVE or HTAKE: the child, the record's address, the fence, the record. An arm acts on its own KIND alone: for another,
the first arm of the instruction raises the trap of a reserved KIND. An HTAKE that completed while its strand was away is over. -/
def extentOp (i : Instr) (o : GFmt) (kind : Nat) (s : State) (f : Hive → Nat → State → Except Trap State) :
    Host.Outcome State Fault Refusal :=
  let a := s.me.greg o.gb
  let check : Except Trap Hive := do
    let h ← childOf s i (s.me.greg o.ga)
    aligned64 a
    return h
  match s.me.awayHere with
  | some w => scalar s (.ok (completeAt s s.cur w))
  | none =>
    hiveOp s s.treeFree check (fun h s => do
      let (r, s) ← loadRecord s s.who a 8
      if field r 0 1 ≠ kind ∧ (kind ≠ 0 ∨ field r 0 1 < 5) then return s
      else f h r s)

/-- ILLEGAL_FIELD of an extent record (R70). -/
def badExtent (i : Instr) : Trap := Trap.at .illegalField (encode i)

/-- ILLEGAL_FIELD with the offset of the descriptor's field that a rule of R69 names (R70). -/
def badField69 (off : Nat) : Trap := Trap.at .illegalField (BitVec.ofNat 64 off)

/-! HGIVE (R70, R358). -/

/-- HGIVE of shares. R60 lets shares merge when lane groups return to a hive, and at a later HNEW, HGIVE, HTAKE or HKILL that a hive
issues or undergoes; it does not say whether the adjacent idle blocks that a child receives merge at the operation that gives them.
Here they do after HGIVE, which the child undergoes, and not after HNEW, which makes it.
DESIGN CHOICE, unsafe: notes/assumptions/75. -/
def execHgiveShares (o : GFmt) (s : State) : Host.Outcome State Fault Refusal :=
  let i := Instr.hgiveShares o
  extentOp i o 0 s (fun child r s => do
    let es := extentEntries r
    need (extentOk r 0 (4 * field r 1 1) && es.all (fun e => decide (e < 2 ^ 13))) (badExtent i)
    let h := s.myHive
    let (left, out) ← carveShares h es
    need (sourcesIdle s h out) (combo i)
    let s := ringBefore s h.id (out.map (fun x => x.2))
    let s := passShares s h.id child.id left out
    let s := if h.ring.isHeld then claimRing s h.id else s
    return (settleHives s [h.id, child.id]).advance)

/-- HGIVE of the ring requires R63: the issuer holds it and the child holds all 12 cores. -/
def execHgiveRing (o : GFmt) (s : State) : Host.Outcome State Fault Refusal :=
  let i := Instr.hgiveRing o
  extentOp i o 1 s (fun child r s => do
    need (extentOk r 1 0) (badExtent i)
    let h := s.myHive
    need (h.ring.isHeld && holdsCores child) (combo i)
    let s := (revokeRing s h.id).modHive child.id (fun k => { k with ring := .held })
    return (settleHives s [h.id, child.id]).advance)

def execHgiveFabricBindings (o : GFmt) (s : State) : Host.Outcome State Fault Refusal :=
  let i := Instr.hgiveFabricBindings o
  extentOp i o 2 s (fun child r s => do
    need (extentOk r 2 1) (badExtent i)
    let new := field r 8 1
    need (decide (child.fslots ≤ new)) (hiveLimit i 0x0A)
    let h := s.myHive
    needLimits i [(0x0A, decide (new - child.fslots ≤ unusedSlots s h))]
    return (settleHives (s.modHive child.id (fun k => { k with fslots := new })) [h.id, child.id]).advance)

def execHgiveMemory (o : GFmt) (s : State) : Host.Outcome State Fault Refusal :=
  let i := Instr.hgiveMemory o
  extentOp i o 3 s (fun child r s => do
    need (extentOk r 3 8) (badExtent i)
    let new := field r 8 8
    let h := s.myHive
    need (decide (child.wsize ≤ new) && new % 65536 == 0) (badField69 0x18)
    need (decide (child.poolBase + child.poolSize ≤ child.wbase) || decide (child.wbase + new ≤ child.poolBase)) (badField69 0x40)
    needMapped s h (child.wbase + child.wsize) (new - child.wsize) 0
    return (settleHives (s.modHive child.id (fun k => { k with wsize := new })) [h.id, child.id]).advance)

def execHgiveBuckets (o : GFmt) (s : State) : Host.Outcome State Fault Refusal :=
  let i := Instr.hgiveBuckets o
  extentOp i o 4 s (fun child r s => do
    let word (k : Nat) : Nat := field r (8 + 8 * k) 8
    need (extentOk r 4 32 && (List.range 4).all (fun k => decide (word k < 2 ^ 48))) (badExtent i)
    let h := s.myHive
    let less := (List.range 4).find? (fun k =>
      decide (bucketRate (word k) < (child.bucket k).rate) || decide (bucketBurst (word k) < (child.bucket k).burst))
    match less with
    | some k => throw (hiveLimit i (BitVec.ofNat 64 (0xA0 + 8 * k)))
    | none => pure ()
    let added (k : Nat) : Nat := bucketRate (word k) - (if (child.bucket k).own then (child.bucket k).rate else 0)
    needLimits i (bucketLimits s h added word)
    let s := (List.range 4).foldl (fun s k => grantBucket s child.id k (bucketRate (word k)) (bucketBurst (word k))) s
    return (settleHives s [h.id, child.id]).advance)

/-! HTAKE (R71, R363). -/

/-- Two shares have a lane group in common. -/
def ShareRef.meets (x y : ShareRef) : Bool := x.core == y.core && overlaps x.lg x.size y.lg y.size

/-- Engine commands of a hive that address the scratchpad of some shares stop; a share may have been merged since the
command's issue (R60, R244). -/
def stopOnShares (s : State) (h : Nat) (xs : List ShareRef) : State :=
  revokeCommands s h (fun c => c.usesScratch && xs.any c.share.meets)

/-- An HTAKE of partition n goes on: strands leave or are moved; once they have gone, commands on the shares' scratchpad stop, the
lane groups return to the issuer, and the instruction is over. -/
def goOnTaking (s : State) (n : Nat) (x : Taking) : State :=
  let s := x.shares.foldl emptyShare s
  if x.shares.all (shareEmpty s) && !tasksLeaving s (subtree s x.child) then
    let s := stopOnShares s x.child x.shares
    let s := s.modHive x.child (fun k => { k with shares := k.shares.filter (fun y => !x.shares.contains y) })
    let s := x.shares.foldl (fun s y => receiveShare s x.hive y) s
    let s := (settleHives s [x.hive, x.child]).modPart n (fun p => { p with taking := none })
    completeAt s x.strand ⟨x.pc, 0, 0, false⟩
  else s.modPart n (fun p => { p with taking := some x })

/-- Every HTAKE in progress goes on. -/
def goOnTakings (s : State) : State :=
  if s.parts.any (fun p => p.taking.isSome) then
    (List.range s.parts.length).foldl (fun s n => (s.part n).taking.elim s (goOnTaking s n)) s
  else s

/-- The issuing strand's HTAKE takes effect: until it completes, the strand issues nothing, and no other operation on the
partition's hives takes effect (R68). -/
def startTaking (s : State) (child : Nat) (xs : List ShareRef) : State :=
  let s := goOnTaking s s.myHive.part ⟨s.cur, s.me.pc, s.me.hive, child, xs⟩
  if s.treeFree then s else s.modMe (fun t => { t with waits := true })

/-- HTAKE of shares: the ring first where R63 requires it, then the shares' strands. -/
def execHtakeShares (o : GFmt) (s : State) : Host.Outcome State Fault Refusal :=
  let i := Instr.htakeShares o
  extentOp i o 0 s (fun child r s => do
    let es := extentEntries r
    need (extentOk r 0 (4 * field r 1 1) && es.all (fun e => decide (e < child.shares.length))) (badExtent i)
    let xs := es.eraseDups.filterMap (fun n => (sharesInOrder child)[n]?)
    let held := child.ring.isHeld && xs.any (fun x => x.core / 12 == child.part)
    let s := if held then claimRing (revokeRing s child.id) s.me.hive else s
    return startTaking s child.id xs)

/-- HTAKE of the ring, from whichever hive of the subtree holds or claims it. -/
def execHtakeRing (o : GFmt) (s : State) : Host.Outcome State Fault Refusal :=
  let i := Instr.htakeRing o
  extentOp i o 1 s (fun child r s => do
    need (extentOk r 1 0) (badExtent i)
    let s := match (subtree s child.id).find? (fun h => hasRing (s.hive h)) with
      | some h => claimRing (revokeRing s h) s.me.hive
      | none => s
    return startTaking s child.id [])

def execHtakeFabricBindings (o : GFmt) (s : State) : Host.Outcome State Fault Refusal :=
  let i := Instr.htakeFabricBindings o
  extentOp i o 2 s (fun child r s => do
    need (extentOk r 2 1 && decide (field r 8 1 ≤ child.fslots)) (badExtent i)
    return (settleHives (takeSlots s child.id (field r 8 1)) [s.me.hive, child.id]).advance)

/-- DEDUCED, unsafe: notes/assumptions/26. -/
def execHtakeMemory (o : GFmt) (s : State) : Host.Outcome State Fault Refusal :=
  let i := Instr.htakeMemory o
  extentOp i o 3 s (fun child r s => do
    let base := field r 8 8
    let size := field r 16 8
    need (extentOk r 3 16 && base % 65536 == 0 && size % 65536 == 0) (badExtent i)
    return (settleHives (takeMemory s child.id base size) [s.me.hive, child.id]).advance)

def execHtakeBuckets (o : GFmt) (s : State) : Host.Outcome State Fault Refusal :=
  let i := Instr.htakeBuckets o
  extentOp i o 4 s (fun child r s => do
    let word (k : Nat) : Nat := field r (8 + 8 * k) 8
    need (extentOk r 4 32 && (List.range 4).all (fun k => decide (word k < 2 ^ 48) &&
      decide (bucketRate (word k) ≤ (child.bucket k).rate) && decide (bucketBurst (word k) ≤ (child.bucket k).burst))) (badExtent i)
    let s := (List.range 4).foldl (fun s k => takeRate s child.id k (bucketRate (word k)) (bucketBurst (word k))) s
    return (settleHives s [s.me.hive, child.id]).advance)

/-! HKILL (R72, R359). -/

def execHkill (o : GFmt) (s : State) : Host.Outcome State Fault Refusal :=
  hiveOp s s.treeFree (childOf s (.hkill o) (s.me.greg o.ga)) (fun child s =>
    .ok (postPending (settleHives (killHive s child.id) [s.me.hive]) s.me.hive).advance)

/-! HSTAT (R73, R362). -/

/-- A counter summed over hives. -/
def sumOver (s : State) (hs : List Nat) (f : Hive → Nat) : Nat := (hs.map (fun h => f (s.hive h))).sum

/-- The result block of Table 3.6 as 8-byte words. -/
def hstatBlock (s : State) (k : Hive) : List Nat :=
  let hs := subtree s k.id
  let own (i : Nat) : Nat := (!(k.bucket i).own).toNat * 2 ^ (2 + i)
  let flags := k.ring.isHeld.toNat + (s.vfs.any (fun v => v.2 == k.id)).toNat * 2 + own 0 + own 1 + own 2 + own 3
  let live := (s.strands.filter (fun t => !t.status.isEnded && hs.contains t.hive)).length
  let head := k.id + k.depth * 2 ^ 16 + k.shares.length % 256 * 2 ^ 24 + flags * 2 ^ 32 + k.fslots * 2 ^ 40
    + (childrenOf s k.id).length * 2 ^ 48
  let shares := (sharesInOrder k).map (fun x => x.core % 12 + sizeCode x.size * 16 + x.lg * 64)
  [ head, k.wsize, live, sumOver s hs (fun h => h.issued.toNat), sumOver s hs (fun h => h.egops.toNat)
  , sumOver s hs (fun h => h.tileops.toNat), sumOver s hs (fun h => h.reflected.toNat), sumOver s hs (fun h => h.preempted.toNat) ]
  ++ (List.range 4).map (fun i => sumOver s hs (fun h => (h.bucket i).llcBytes.toNat))
  ++ (List.range 4).map (fun i => sumOver s hs (fun h => (h.bucket i).borrowed.toNat))
  ++ (List.range 4).map (fun i => (k.bucket i).rate + (k.bucket i).burst * 2 ^ 16)
  ++ List.replicate 12 0
  ++ (List.range 48).map (fun n => shares.getD (2 * n) 0 + shares.getD (2 * n + 1) 0 * 2 ^ 32)
  ++ List.replicate 48 0

/-- The hive that HSTAT names: itself for 0, or a descendant. -/
def hstatTarget (s : State) (i : Instr) (x : Word) : Except Trap Hive :=
  if x = 0 then .ok s.myHive
  else match s.findHive x.toNat with
    | some h => if s.within s.me.hive h.id then .ok h else .error (Trap.at .privilege (encode i))
    | none => .error (Trap.at .privilege (encode i))

/-- HSTAT: the block stored whole or not at all, and the pending records of its hive posted. -/
def execHstat (o : GFmt) (s : State) : Host.Outcome State Fault Refusal :=
  let a := s.me.greg o.gb
  let check : Except Trap Hive := do
    let h ← hstatTarget s (.hstat o) (s.me.greg o.ga)
    aligned64 a
    return h
  hiveOp s true check (fun h s => do
    let s ← (hstatBlock s h).zipIdx.foldlM (fun s w => storeW s s.who (a + BitVec.ofNat 64 (8 * w.2)) 8 w.1 true) s
    return (postPending s s.me.hive).advance)

end Sys2Proof.Machine
end

