-- ==== Sys2Proof/Machine/Hret.lean ====
section
/-! DEFINITION. HRET: what a parent answers to a ticket (spec/03 R74, R82, R84, spec/09 R228, spec/11 R254, R265, spec/15 R360,
R361). -/

namespace Sys2Proof.Machine

/-- The strand whose ticket a hive holds; 0 is the host. -/
def ticketStrand (s : State) (holder : Nat) (ticket : Word) : Option (Nat × Suspension) :=
  (List.range s.strands.length).findSome? (fun k =>
    match (s.strand k).susp with
    | some x =>
      if x.holder == holder && x.ticket.toNat == ticket.toNat && ticket != 0 && x.kind != .firmware then some (k, x) else none
    | none => none)

/-- GRANT of a strand's save entry as its parent may have left it: what its placement checks (R265, R56). -/
def rereadGrant (s : State) (t : Strand) : Strand :=
  if t.fresh || t.entry.isNone then t
  else
    let gr := poolRead s (s.hive t.hive) (entryOff (s.hive t.hive) t + 0x30) 8
    { t with vlmin := bits gr 7 4, vlmax := bits gr 11 8, vregs := BitVec.ofNat 2 (bits gr 21 20)
             prio := BitVec.ofNat 2 (bits gr 23 22), grant := bits gr 3 0 }

/-- That read charged, an uncached one (R110). -/
def chargeGrant (s : State) (t : Strand) : State :=
  let h := s.hive t.hive
  if t.fresh || t.entry.isNone then s else charge s h.id (h.poolPhys (entryOff h t + 0x30)) 64

/-- Strand k waits on a share again, its ticket used. -/
def resumeOn (s : State) (k : Nat) (x : ShareRef) : State :=
  waitOn ((chargeGrant s (s.strand k)).modStrand k (fun t => { rereadGrant s t with susp := none })) k x

/-- The share that a suspended strand stands on, where its hive still holds it (R84). -/
def heldShare (s : State) (k : Nat) : Option ShareRef :=
  (s.strand k).share.filter (fun x => (s.hive (s.strand k).hive).shares.contains x)

/-- Status 0 and a state, or a status with which nothing changes. -/
abbrev Answer := Except Nat State

/-- REISSUE. -/
def answerReissue (s : State) (k : Nat) : Answer :=
  match heldShare s k with
  | some x => .ok (resumeOn s k x)
  | none => .error 2

/-- SKIP of a scalar trap: the strand goes on after it, in its handler where the trap was raised there. -/
def answerSkip (s : State) (k : Nat) (x : Suspension) : Answer :=
  let t := s.strand k
  let h := s.hive t.hive
  if !(x.kind == .trap || x.kind == .handlerTrap) || !t.queue.isEmpty then .error 3
  else match heldShare s k with
    | none => .error 2
    | some y =>
      let s := if x.kind == .handlerTrap then s.modStrand k (fun t => { t with pc := x.record.pc + 8 })
        else poolPut s h (entryOff h t) (leBytes 8 (x.record.pc + 8).toNat)
      .ok (resumeOn s k y)

/-- The local delivery of a record's trap as another cause, to a strand read from its save entry. -/
def delivered (s : State) (t : Strand) (x : Suspension) (cause : Nat) : Strand :=
  let t := readEntry s t
  { t with
    held := t.queue, queue := [], resumePc := t.pc, hsave := #v[t.g[28], t.g[29], t.g[30], t.g[31]]
    trappc := x.record.pc, trapcause := trapCauseWord cause (!t.queue.isEmpty) t.queue.length
    trapval := x.record.val, trapinfo := x.record.info, pc := (s.hive t.hive).trapvec }

/-- DELIVER: the strand resumes at its own hive's TRAPVEC. It does not apply to a strand that was pre-empted, which has no trapping
instruction; nor does SKIP.
DEDUCED, unsafe: notes/assumptions/28. -/
def answerDeliver (s : State) (k : Nat) (x : Suspension) (cause : Nat) : Answer :=
  if !(x.kind == .trap) then .error 3
  else match heldShare s k with
    | none => .error 2
    | some y =>
      let s := (chargeEntry s (s.strand k)).setStrand k (delivered s (s.strand k) x cause)
      .ok (resumeOn (writeEntry s k 0) k y)

/-- FORWARD: the record, DECLINED, to the queue of the issuer's parent, and its ticket with it. -/
def answerForward (s : State) (issuer k : Nat) (x : Suspension) : Answer :=
  let r := { x.record with flags := x.record.flags ||| flagDeclined }
  let s := s.modHive issuer (fun h => { h with reflected := h.reflected + 1 })
  let (holder, s) := post s (s.hive issuer).parent (s.partOf issuer) r
  .ok (s.modStrand k (fun t => { t with susp := some { x with holder := holder, record := r } }))

/-- PLACE: on a share of the strand's own hive by its number; a paired task stays on its core (R228). -/
def answerPlace (s : State) (k : Nat) (share : Word) : Answer :=
  let t := s.strand k
  if t.task.isSome then .error 3
  else match (sharesInOrder (s.hive t.hive))[share.toNat]? with
    | some x => .ok (resumeOn s k x)
    | none => .error 2

/-- An action of Table 3.7 other than FORWARD, with its operand. -/
def answer (s : State) (k : Nat) (x : Suspension) (action : Nat) (operand : Word) : Answer :=
  match action with
  | 0 => answerReissue s k
  | 1 => answerSkip s k x
  | 2 => answerDeliver s k x operand.toNat
  | 4 => answerPlace s k operand
  | _ => .error 3

/-- HRET of one action (R74): its status to gd, and the pending records of the issuer's queue posted (R81). An arm acts on
its own action alone; the first raises the trap of a reserved one. REISSUE, SKIP and FORWARD ignore gc, which Table 3.7 gives as 0.
DEDUCED, unsafe: notes/assumptions/28. -/
def hret (i : Instr) (o : GFmt) (action : Nat) (s : State) (f : State → Nat → Suspension → Answer) :
    Host.Outcome State Fault Refusal :=
  let act := (s.me.greg o.gb).toNat
  let code := (s.me.greg o.gc).toNat
  let check : Except Trap Unit := do
    need (decide (act ≤ 4)) (Trap.at .illegalField (encode i))
    need (act != 2 || isCauseCode code) (Trap.at .illegalField (encode i))
  hiveOp s true check (fun _ s =>
    if act ≠ action then .ok s
    else
      let s := releaseL1 s s.who 2
      let (status, s) := match ticketStrand s s.me.hive (s.me.greg o.ga) with
        | none => (1, s)
        | some (k, x) =>
          match f s k x with
          | .ok s => (0, s)
          | .error n => (n, s)
      .ok ((postPending s s.me.hive).finish o.gd (BitVec.ofNat 64 status)))

def execHretReissue (o : GFmt) (s : State) : Host.Outcome State Fault Refusal :=
  hret (.hretReissue o) o 0 s (fun s k _ => answerReissue s k)

def execHretSkip (o : GFmt) (s : State) : Host.Outcome State Fault Refusal :=
  hret (.hretSkip o) o 1 s answerSkip

def execHretDeliver (o : GFmt) (s : State) : Host.Outcome State Fault Refusal :=
  hret (.hretDeliver o) o 2 s (fun t k x => answerDeliver t k x (s.me.greg o.gc).toNat)

def execHretForward (o : GFmt) (s : State) : Host.Outcome State Fault Refusal :=
  hret (.hretForward o) o 3 s (fun s k x => answerForward s s.me.hive k x)

def execHretPlace (o : GFmt) (s : State) : Host.Outcome State Fault Refusal :=
  hret (.hretPlace o) o 4 s (fun t k _ => answerPlace t k (s.me.greg o.gc))

end Sys2Proof.Machine
end

