-- ==== Sys2Proof/Machine/Errors.lean ====
section
/-! DEFINITION. Check values, machine checks, corrected errors, scrubbing (spec/11 R267 to R270, spec/13 R308, R309). -/

namespace Sys2Proof.Machine

/-! Check values (R308, R221). They follow from the data that they travel with, so that State holds none. -/

/-- The check value of a 64-byte sector of memory, as every producer makes it over the whole sector. -/
def sectorCheck (s : State) (sector : Nat) : BitVec 16 := crc16 (Mem.take s.mem (64 * sector) 64)

/-- Bytes 0x00 to 0x1D of a tile's header (Table 9.4). -/
def Tile.head (t : Tile) : List Byte :=
  leBytes 4 (tagOf t.id t.fam t.session) ++ leBytes 2 t.need ++ leBytes 1 t.len ++ leBytes 1 t.laps ++ leBytes 1 t.origin
    ++ leBytes 7 0 ++ leBytes 8 t.src.toNat ++ leBytes 6 0

/-- CHK of a tile's header. -/
def Tile.chk (t : Tile) : BitVec 16 := crc16 t.head

/-! Errors. -/

/-- The granule of a physical address belongs to a partition. -/
def ownsGranule (p : Partition) (pa : Nat) : Bool := p.granules.contains (pa / 2 ^ 30)

/-- The partition that a granule belongs to. -/
def ownerOf (s : State) (pa : Nat) : Option Nat := (List.range s.parts.length).find? (fun n => ownsGranule (s.part n) pa)

/-- An error of a source of Table 11.6 counted for a partition and for the module. -/
def countError (s : State) (part info : Nat) (corrected : Bool) : State :=
  if info = 0 ∨ 8 < info then s
  else
    let up (l : List Word) : List Word := modAt l (info - 1) (· + 1)
    if corrected then { s with corrected := up s.corrected }.modPart part (fun p => { p with corrected := up p.corrected })
    else { s with uncorrected := up s.uncorrected }.modPart part (fun p => { p with uncorrected := up p.uncorrected })

/-- Every hive of a partition destroyed; its granules stay assigned (R268). -/
def emptyPartition (s : State) (n : Nat) : State :=
  let root := (s.part n).root
  let s := if (s.findHive root).isSome then killHive s root else s
  s.modPart n (fun p => { p with live := false, root := 0, taking := none })

/-- The record of a machine check (R268). -/
def checkRecord (info : Nat) (val data : Word) : TrapRecord :=
  ⟨0, Cause.machineCheck.code, 0, 0, 0, 0, 0, val, BitVec.ofNat 64 info, data, 0⟩

/-- A machine check of a partition: its hives destroyed, and a record for the host.
DEDUCED, unsafe: notes/assumptions/31. -/
def machineCheck (s : State) (part info : Nat) (val data : Word) : State :=
  let s := emptyPartition (countError s part info false) part
  (post s 0 part (checkRecord info val data)).2

/-- The partition that an error of a source is charged to (Table 11.6), from what TRAPVAL names: a physical address, the ring or the
slice. The event names the partition where it is the flit's, or, for a sector of host memory, the accessing one.
DEDUCED, unsafe: notes/assumptions/31. -/
def chargedTo (s : State) (part info val : Nat) : Option Nat :=
  let real (n : Nat) : Option Nat := if n < s.parts.length then some n else none
  match info with
  | 1 => if val < 2 ^ 40 then ownerOf s val else none
  | 2 => if 2 ^ 40 ≤ val then ownerOf s val else none
  | 3 | 7 => real val
  | 4 | 5 => real (val / 4)
  | 6 => real part
  | 8 => if 2 ^ 51 ≤ val then real part else ownerOf s val
  | _ => none

/-- A flit whose header is damaged: it names no partition (R267). -/
def damagedHeader (s : State) (part info : Nat) : Bool := info == 6 && decide (s.parts.length ≤ part)

/-- The partitions that a damaged flit is charged to: those with traffic outstanding on the link, a free value.
DESIGN CHOICE, safe: notes/assumptions/31. -/
def linkParts (s : State) : List Nat :=
  (List.range s.parts.length).filter (fun n => (Config.linkTraffic s.freeCount).contains n)

/-- MACHINE_CHECK (R267, R268): of a source of Table 11.6, in every partition that it is charged to. -/
def execMachineCheck (part info : Nat) (val : Word) (s : State) : Host.Outcome State Fault Refusal :=
  .next
    (if damagedHeader s part info then
      (linkParts s).foldl (fun s n => machineCheck s n info val 0) { s with freeCount := s.freeCount + 1 }
     else match chargedTo s part info val.toNat with
       | some n => machineCheck s n info val 0
       | none => s)

/-- A line that a slice of a partition may hold: a line of its granules, or of host memory (R110). -/
def slicedHere (s : State) (slice line : Nat) : Bool :=
  let pa := 128 * line
  homeSlice (slice / 4) pa == slice && (ownsGranule (s.part (slice / 4)) pa || (decide (2 ^ 51 ≤ pa) && decide (pa < 2 ^ 52)))

/-- LLC_TAG_PARITY_ERROR (R269): the slice's lines go without write-back, so that memory holds what it held before; DATA
says whether dirty lines were lost. -/
def execLlcTagParityError (slice : Nat) (s : State) : Host.Outcome State Fault Refusal :=
  let lost := (Config.lostLines s.freeCount).filter (fun l => slicedHere s slice l.1)
  let s := { s with
    mem := lost.foldl (fun m l => Mem.write m (128 * l.1) 128 l.2.toNat) s.mem, freeCount := s.freeCount + 1 }
  .next (machineCheck s (slice / 4) 5 (BitVec.ofNat 64 slice) (if lost.isEmpty then 0 else 1))

/-- CORRECTED_ERROR (R270): counted, nothing else.
DEDUCED, safe: notes/assumptions/59. -/
def execCorrectedError (part info : Nat) (s : State) : Host.Outcome State Fault Refusal :=
  .next (countError s part info true)

/-- SCRUB (R309): every line read and written back with its corrected data, which is the data it holds. -/
def execScrub (s : State) : Host.Outcome State Fault Refusal := .next s

end Sys2Proof.Machine
end

