-- ==== Sys2Proof/Machine/Platform.lean ====
section
/-! DEFINITION. The host link, the peer ports and the power manager (spec/13 R297 to R299, R303, R304, R310). -/

namespace Sys2Proof.Machine

/-! The host (R297 to R299). -/

/-- An access of the module's own memory, HBM4 or DDR-5 (Table 4.2). -/
def inModule (pa n : Nat) : Bool := decide (pa + n ≤ 2 ^ 51) && paExists pa && paExists (pa + n - 1)

/-- An access of host memory. -/
def inHost (pa n : Nat) : Bool := decide (2 ^ 51 ≤ pa) && decide (pa + n ≤ 2 ^ 52)

/-- The partition whose sealed range holds a byte: a seal outlives its partition's root (R246, R299). -/
def sealOwner (s : State) (pa : Nat) : Option Nat :=
  (List.range s.parts.length).find? (fun n => (s.part n).seals.any (fun r => decide (r.1 ≤ pa) && decide (pa < r.1 + r.2)))

/-- A refused host access counted against the partition of the seal, and for the module. -/
def countRefusal (s : State) (pa : Nat) : State :=
  let s := { s with refusedHost := s.refusedHost + 1 }
  match sealOwner s pa with
  | some n => s.modPart n (fun p => { p with refusedHost := p.refusedHost + 1 })
  | none => s

/-- HOST_ACCESS (R297, R299): a read answers with the bytes, a write is performed at the coherence point; of an access of a sealed
byte, refused and counted, a read answers with all ones.
DEDUCED, unsafe: notes/assumptions/52. -/
def execHostAccess (write : Bool) (pa : Nat) (data : List Byte) (s : State) : Host.Outcome State Fault Refusal :=
  .next
    (if !inModule pa data.length then s
     else match (List.range data.length).find? (fun k => s.sealed (pa + k)) with
       | some k =>
         { countRefusal s (pa + k) with reply := .data (if write then [] else List.replicate data.length (BitVec.allOnes 8)) }
       | none =>
         if write then { s with mem := Mem.put s.mem pa data, reply := .data [] }
         else { s with reply := .data (Mem.take s.mem pa data.length) })

/-- HOST_INVALIDATION (R298, R120): the companion processor writes bytes of a line of host memory; no slice keeps a copy, so
that every later read at the coherence point finds them. A line that an L1 holds stays there (R123). -/
def execHostInvalidation (pa : Nat) (data : List Byte) (s : State) : Host.Outcome State Fault Refusal :=
  .next (if inHost pa data.length && decide (pa % 128 + data.length ≤ 128) then { s with mem := Mem.put s.mem pa data } else s)

/-! Peers (R303, R304). -/

/-- The local agent that a remote access acts for. -/
def importWho (hive : Nat) : Who := ⟨hive, none, false⟩

/-- The bytes that a remote access touches, and how. -/
def remoteSpan : RemoteKind → Nat × AccessKind
  | .load n => (n, .read)
  | .store data => (data.length, .write)
  | .amo _ wide _ _ => (if wide then 8 else 4, .amo)

/-- Why a remote access does not translate, page by page; one that touches a sealed byte is refused at the link, whatever it does
(R303, R246). -/
def remoteFault (s : State) (hive : Nat) (va : Nat) (k : RemoteKind) : Option Reason :=
  let (n, kind) := remoteSpan k
  (pageStarts va n).findSome? (fun a =>
    match walk s (s.hive hive) a with
    | .fail r => some r
    | .leaf e =>
      let pa := e.pbase + (a - e.vbase)
      let len := min (va + n - a) (65536 - a % 65536)
      if !e.permits kind || (List.range len).any (fun i => s.sealed (pa + i)) then some .notPermitted else none)

/-- A remote access that a hive's shadow tables translate, and what it answers with. -/
def remoteAs (s : State) (hive : Nat) (va : Nat) (k : RemoteKind) : State × LinkReply :=
  let w := importWho hive
  match remoteFault s hive va k, k with
  | some r, _ => (s, .failed (some r))
  | none, .load n =>
    match readRange s w va n with
    | .ok (bs, s) => (s, .data bs)
    | .error _ => (s, .failed (some .notPermitted))
  | none, .store data =>
    match writeRange s w va data with
    | .ok s => (s, .data [])
    | .error _ => (s, .failed (some .notPermitted))
  | none, .amo op wide x expected =>
    let n := if wide then 8 else 4
    match amoW s w (BitVec.ofNat 64 va) op n x.toNat expected.toNat with
    | .ok (old, s) => (s, .data (leBytes n old))
    | .error _ => (s, .failed (some .notPermitted))

/-- REMOTE_ACCESS (R303, R301): through the shadow tables of the hive that the import entry names; one that fails, or whose
entry is clear, changes nothing here and is answered as a translation failure. -/
def execRemoteAccess (kind : RemoteKind) (entry : Nat) (offset : BitVec 52) (s : State) : Host.Outcome State Fault Refusal :=
  .next
    (match (s.imports.find? (fun e => e.1 == entry)).filter (fun e => (s.findHive e.2.2).isSome) with
     | some e =>
       let (s, r) := remoteAs s e.2.2 offset.toNat kind
       { s with reply := r }
     | none => { s with reply := .failed none })

/-- PEER_LINK_DOWN (R304): every later access through the port traps. -/
def execPeerLinkDown (port : Nat) (s : State) : Host.Outcome State Fault Refusal :=
  .next (if port < 16 then { s with linksDown := insertSorted port s.linksDown } else s)

/-! Power (R310, R53). -/

/-- A partition's measured draw.
DESIGN CHOICE, safe: notes/assumptions/58. -/
def drawOf (m : PowerDraw) (n : Nat) : Nat := ((m.parts.find? (fun x => x.1 == n)).map (fun x => x.2)).getD 0

/-- Whether a core's module or partition draws more than it may. -/
def overLimit (s : State) (m : PowerDraw) (core : Nat) : Bool :=
  decide (s.powerLimit < m.module) || decide ((s.part (core / 12)).cap < drawOf m (core / 12))

/-- Whether both draw less than 95 % of what they may. -/
def underLimit (s : State) (m : PowerDraw) (core : Nat) : Bool :=
  decide (m.module * 100 < s.powerLimit * 95) && decide (drawOf m (core / 12) * 100 < (s.part (core / 12)).cap * 95)

/-- One step down: VLGRANT first, then TGRANT. -/
def Core.lower (c : Core) : Core :=
  if 1 < c.vlgrant then { c with vlgrant := c.vlgrant / 2 } else { c with mvlc := min 2 (c.mvlc + 1) }

/-- One step up, in reverse order. -/
def Core.rise (c : Core) : Core :=
  if 1 < c.duty then { c with duty := 1 }
  else if 0 < c.mvlc then { c with mvlc := c.mvlc - 1 }
  else { c with vlgrant := min 8 (2 * c.vlgrant) }

/-- Both grants are at their least. -/
def Core.least (c : Core) : Bool := decide (c.vlgrant ≤ 1) && decide (2 ≤ c.mvlc)

/-- The cores chosen changed. -/
def onCores (s : State) (pick : Nat → Core → Bool) (f : Core → Core) : State :=
  { s with cores := s.cores.zipIdx.map (fun c => if pick c.2 c.1 then f c.1 else c.1) }

/-- POWER_SAMPLE: the grants of the affected cores one step lower. -/
def execPowerSample (m : PowerDraw) (s : State) : Host.Outcome State Fault Refusal :=
  .next (onCores s (fun n _ => overLimit s m n) Core.lower)

/-- GRANT_RAISE: the draw has stayed below 95 % of the limit for 1 ms.
DEDUCED, unsafe: notes/assumptions/55. -/
def execGrantRaise (m : PowerDraw) (s : State) : Host.Outcome State Fault Refusal :=
  .next (onCores s (fun n _ => underLimit s m n) Core.rise)

/-- ISSUE_DUTY: the draw has stayed above the limit for 2 ms with both grants at their least. -/
def execIssueDuty (m : PowerDraw) (k : Nat) (s : State) : Host.Outcome State Fault Refusal :=
  .next (if 2 ≤ k ∧ k ≤ 8 then onCores s (fun n c => overLimit s m n && c.least) (fun c => { c with duty := k }) else s)

end Sys2Proof.Machine
end

