-- ==== Sys2Proof/Machine/Firmware.lean ====
section
/-! DEFINITION. What firmware does for the host: the request queue and its requests (spec/13 R300 to R302, spec/04 R102, spec/10
R246, spec/11 R258). The arguments are 8-byte words in the order of Table 13.1 (notes/assumptions/40). -/

namespace Sys2Proof.Machine

/-! The request queue (R300). -/

/-- What serving a request comes to. -/
inductive Served where
  | done (s : State)
  /-- Done, with bytes for ARGS from 0x30 on. -/
  | answered (s : State) (ret : List Byte)
  | refused (ret : List Byte)
  /-- Not yet; it stays at the head of the queue. -/
  | later (s : State)

/-- The address and the 64 bytes of the request at the head of the queue, while firmware serves requests. -/
def State.request (s : State) : Option (Nat × Nat) :=
  let base := s.boot.queueBase.toNat
  let head := Mem.read s.mem base 8
  if s.boot.state ≠ 5 ∨ head = Mem.read s.mem (base + 8) 8 then none
  else
    let a := base + 64 + 64 * (head % max s.boot.queueSize.toNat 1)
    some (a, Mem.read s.mem a 64)

/-- CODE of a request. -/
def requestCode (r : Nat) : Nat := field r 0 4

/-- Argument word k.
DEDUCED, unsafe: notes/assumptions/40. -/
def requestArg (r k : Nat) : Nat := field r (8 + 8 * k) 8

/-- The argument words from n on are zero. -/
def argsUnused (r n : Nat) : Bool := field r (8 + 8 * n) (56 - 8 * n) == 0

/-- A request served: what it returns, then its STATUS, and HEAD past it. -/
def closeRequest (s : State) (a status : Nat) (ret : List Byte) : State :=
  let base := s.boot.queueBase.toNat
  let m := Mem.put s.mem (a + 0x38) ret
  let m := Mem.write m (a + 4) 4 status
  { s with mem := Mem.write m base 8 ((Mem.read m base 8 + 1) % 2 ^ 64) }

/-- The request at the head of the queue, if it has a code, served with n argument words.
DEDUCED, unsafe: notes/assumptions/41. -/
def serveRequest (s : State) (code n : Nat) (f : (Nat → Nat) → Served) : Host.Outcome State Fault Refusal :=
  .next
    (match s.request with
     | none => s
     | some (a, r) =>
       if requestCode r ≠ code then s
       else if !argsUnused r n then closeRequest s a 2 []
       else match f (requestArg r) with
         | .done s => closeRequest s a 1 []
         | .answered s ret => closeRequest s a 1 ret
         | .refused ret => closeRequest s a 2 ret
         | .later s => s)

/-- Done if a condition holds, otherwise refused. -/
def serveIf (b : Bool) (s : State) : Served := if b then .done s else .refused []

/-- UNKNOWN_CODE_REQUEST (R300): refused, nothing else changes. -/
def execUnknownCodeRequest (s : State) : Host.Outcome State Fault Refusal :=
  .next
    (match s.request with
     | none => s
     | some (a, r) => if 1 ≤ requestCode r ∧ requestCode r ≤ 12 then s else closeRequest s a 2 [])

/-! Roots (R301). -/

/-- A 1 GiB granule of memory that exists. -/
def granuleExists (g : Nat) : Bool := inModule (g * 2 ^ 30) (2 ^ 30)

/-- Whether no partition but n holds a granule. -/
def granuleFree (s : State) (n g : Nat) : Bool :=
  (List.range s.parts.length).all (fun k => k == n || !(s.part k).granules.contains g)

/-- The granules that a module can have: 1 TiB of HBM4 and up to 8 TiB of DDR-5 (R14, Table 4.2). -/
def maxGranules : Nat := 9216

/-- The granule list at an address: its length, then granule numbers. -/
def granuleList (s : State) (a : Nat) : List Nat :=
  (List.range (min (Mem.read s.mem a 8) maxGranules)).map (fun k => Mem.read s.mem (a + 8 + 8 * k) 8)

/-- A physical range lies in some granules. -/
def inGranules (gs : List Nat) (a n : Nat) : Bool :=
  n != 0 && (List.range ((a + n - 1) / 2 ^ 30 + 1 - a / 2 ^ 30)).all (fun k => gs.contains (a / 2 ^ 30 + k))

/-- The offset of a root descriptor's first failing field (R301). -/
def rootFault (s : State) (gs : List Nat) (r : Nat) : Option Nat :=
  match descFault (some (gs.length * 2 ^ 30)) r with
  | some off => some off
  | none =>
    let base := field r 0x20 8
    let bound := field r 0x28 8
    if !inGranules gs base 1 then some 0x20
    else if !inGranules gs base (bound - base) then some 0x28
    else if gs.length * 2 ^ 30 < field r 0x40 8 + field r 0x48 8 then some 0x40
    else if (freeHiveId s).isNone then some (2 ^ 64 - 1)
    else none

/-- A partition root created: every core of its ring, the ring, its shadow from TBLROOT, its initial strand started. -/
def createRoot (s : State) (n : Nat) (gs : List Nat) (hq hqn r : Nat) : State :=
  let id := (freeHiveId s).getD 0
  let old := s.part n
  let s := s.modPart n (fun _ => { Partition.reset with
    live := true, root := id, granules := gs, hqbase := hq, hqsize := hqn, seals := old.seals, peers := old.peers
    cap := old.cap })
  let place (k : Nat) : Nat := (rootPhys (s.part n) (field r 0x40 8 + k * 2 ^ 21)).getD 0
  let pool := (List.range (field r 0x48 8 / 2 ^ 21)).map place
  let s := addHive s { describedHive r id 0 0 n pool with ring := .held } r
  let s := (List.range 12).foldl (fun s p => receiveShare s id ⟨12 * n + p, 0, 16⟩) s
  let s := firmwareRoot s (s.hive id) (field r 0x98 8)
  let k := s.strands.length
  resumeOn (initialStrand s id r) k ⟨12 * n, 0, 16⟩

/-- CREATE_ROOT: partition, granule list, host queue and its entries, descriptor. -/
def execCreateRoot (s : State) : Host.Outcome State Fault Refusal :=
  serveRequest s 1 5 (fun a =>
    let n := a 0
    let gs := granuleList s (a 1)
    let r := Mem.read s.mem (a 4) 256
    let ok := decide (n < 48) && !(s.part n).live && !gs.isEmpty && gs.length == Mem.read s.mem (a 1) 8 &&
      gs.eraseDups.length == gs.length && gs.all (fun g => granuleExists g && granuleFree s n g) &&
      inHost (a 1) (8 + 8 * gs.length) && a 2 % 64 == 0 && isPow2In (a 3) 16 65536 && inHost (a 2) (64 + 64 * a 3) &&
      inHost (a 4) 256
    if !ok then .refused []
    else match rootFault s gs r with
      | some off => .refused (leBytes 8 off)
      | none => .done (createRoot s n gs (a 2) (a 3) r))

/-- DESTROY_ROOT (R72): the partition's hives end, its granules are free; sealed ranges stay until UNSEAL. -/
def execDestroyRoot (s : State) : Host.Outcome State Fault Refusal :=
  serveRequest s 2 1 (fun a =>
    let p := s.part (a 0)
    let gone := (emptyPartition s (a 0)).modPart (a 0) (fun _ => { Partition.reset with seals := p.seals, cap := p.cap })
    serveIf (decide (a 0 < 48) && p.live) gone)

/-- ROOT_HRET (R301): the answer to a root's record, and the host queue's pending records posted. -/
def execRootHret (s : State) : Host.Outcome State Fault Refusal :=
  serveRequest s 10 4 (fun a =>
    let n := a 0
    let act := a 2
    let operand : Word := BitVec.ofNat 64 (a 3)
    if 48 ≤ n ∨ !(s.part n).live ∨ act = 3 ∨ 4 < act ∨ (act = 2 ∧ !isCauseCode (a 3)) then .refused []
    else
      let found := (ticketStrand s 0 (BitVec.ofNat 64 (a 1))).filter (fun x => s.partOf (s.strand x.1).hive == n)
      let (status, s) := match found with
        | none => (1, s)
        | some (k, x) =>
          match answer s k x act operand with
          | .ok s => (0, s)
          | .error e => (e, s)
      .answered (postHostPending s n) (leBytes 4 status))

/-! Functions, imports, peers, power (R89, R301, R303, R310). -/

def execBindVf (s : State) : Host.Outcome State Fault Refusal :=
  serveRequest s 3 2 (fun a =>
    serveIf (decide (a 0 < 512) && (s.findHive (a 1)).isSome && !s.vfs.any (fun v => v.1 == a 0))
      { s with vfs := s.vfs ++ [(a 0, a 1)] })

def execUnbindVf (s : State) : Host.Outcome State Fault Refusal :=
  serveRequest s 4 1 (fun a =>
    serveIf (s.vfs.any (fun v => v.1 == a 0)) { s with vfs := s.vfs.filter (fun v => v.1 != a 0) })

/-- IMPORT: an entry set, or cleared by HIVEID 0. -/
def execImportEntry (s : State) : Host.Outcome State Fault Refusal :=
  serveRequest s 12 3 (fun a =>
    let rest := s.imports.filter (fun e => e.1 != a 0)
    if a 2 = 0 then serveIf (decide (a 0 < 1024) && decide (a 1 < 48)) { s with imports := rest }
    else
      serveIf (decide (a 0 < 1024) && (s.findHive (a 2)).isSome && s.partOf (a 2) == a 1)
        { s with imports := rest ++ [(a 0, a 1, a 2)] })

/-- PEER_MAP: partition, PEER, port mask, remote module, remote import index. -/
def execPeerMap (s : State) : Host.Outcome State Fault Refusal :=
  serveRequest s 6 5 (fun a =>
    let new : PeerMap := ⟨a 1, BitVec.ofNat 16 (a 2), BitVec.ofNat 64 (a 3), BitVec.ofNat 64 (a 4)⟩
    serveIf (decide (a 0 < 48) && decide (1 ≤ a 1) && decide (a 1 ≤ 30) && a 2 != 0 && decide (a 2 < 2 ^ 16) && decide (a 4 < 1024))
      (s.modPart (a 0) (fun p => { p with peers := p.peers.filter (fun x => x.peer != a 1) ++ [new] })))

/-- POWER_CAP: the module limit, and the address in host memory of 48 words with the partitions' caps, or 0 for none. -/
def execPowerCap (s : State) : Host.Outcome State Fault Refusal :=
  serveRequest s 7 2 (fun a =>
    let t := { s with powerLimit := a 0 }
    if 12000 < a 0 then .refused []
    else if a 1 = 0 then .done t
    else serveIf (inHost (a 1) 384) { t with
      parts := t.parts.zipIdx.map (fun p => { p.1 with cap := Mem.read s.mem (a 1 + 8 * p.2) 8 }) })

/-! Sealed ranges (R246, R300). -/

/-- SEAL: a range of whole 2 MiB in the partition's granules, 8 at most, apart from those it has. -/
def execSealRange (s : State) : Host.Outcome State Fault Refusal :=
  serveRequest s 5 3 (fun a =>
    let p := s.part (a 0)
    serveIf (decide (a 0 < 48) && a 1 % 2 ^ 21 == 0 && a 2 % 2 ^ 21 == 0 && inGranules p.granules (a 1) (a 2) &&
        decide (p.seals.length < 8) && !p.seals.any (fun r => overlaps r.1 r.2 (a 1) (a 2)))
      (s.modPart (a 0) (fun p => { p with seals := p.seals ++ [(a 1, a 2)] })))

/-- An XSEAL that reads a sealed range has not ended. -/
def sealBusy (s : State) (base size : Nat) : Bool :=
  s.cmds.any (fun c => c.kind == .xseal && c.ending.isNone &&
    (pageStarts (field c.desc.toNat 0x10 8) (countOf c.desc.toNat 0)).any (fun va =>
      match stampPlace s c.hive va .read with
      | some pa => decide (base ≤ pa) && decide (pa < base + size)
      | none => false))

/-- UNSEAL: once every XSEAL of the range has ended, its bytes are zero and the seal is lifted. -/
def execUnsealRange (s : State) : Host.Outcome State Fault Refusal :=
  serveRequest s 9 3 (fun a =>
    if !(decide (a 0 < 48) && (s.part (a 0)).seals.contains (a 1, a 2)) then .refused []
    else if sealBusy s (a 1) (a 2) then .later s
    else .done ({ s with mem := Mem.wipe s.mem (a 1) (a 2) }.modPart (a 0) (fun p => { p with
      seals := p.seals.filter (fun r => r != (a 1, a 2)) })))

/-! Counts (R309). -/

/-- The count block: 8 sources, the refused host accesses, zero. -/
def countBlock (corrected uncorrected : List Word) (refused : Word) : List Byte :=
  (List.range 8).flatMap (fun k =>
    leBytes 8 (corrected.getD k 0).toNat ++ leBytes 8 (uncorrected.getD k 0).toNat ++ leBytes 16 0)
  ++ leBytes 8 refused.toNat ++ leBytes 56 0

/-- READ_COUNTS: of a partition, or of the module for all ones. -/
def execReadCounts (s : State) : Host.Outcome State Fault Refusal :=
  serveRequest s 11 2 (fun a =>
    let p := s.part (a 0)
    let block := if a 0 = 2 ^ 64 - 1 then countBlock s.corrected s.uncorrected s.refusedHost
      else countBlock p.corrected p.uncorrected p.refusedHost
    serveIf ((decide (a 0 < 48) || a 0 == 2 ^ 64 - 1) && a 1 % 64 == 0 && inHost (a 1) 320)
      { s with mem := Mem.put s.mem (a 1) block })

/-! MIGRATE (R102, R258). -/

/-- Memory with the bytes of a range copied to another. -/
def copyRange (m : Mem) (src dst n : Nat) : Mem :=
  let moved := (m.filter (fun c => decide (src ≤ c.1) && decide (c.1 < src + n))).map (fun c => (c.1 - src + dst, c.2))
  m.filter (fun c => decide (c.1 < dst)) ++ moved ++ m.filter (fun c => decide (dst + n ≤ c.1))

/-- A root's strand still runs. -/
def rootRuns (s : State) (root : Nat) : Bool :=
  s.strands.any (fun t => t.hive == root && t.active)

/-- The root's running strands asked to leave for firmware. -/
def haltRoot (s : State) (root : Nat) : State :=
  (List.range s.strands.length).foldl (fun s k =>
    let t := s.strand k
    if t.hive == root && t.active then requestPreempt s k 0 true else s) s

/-- The strands that firmware pre-empted wait on their own shares again. -/
def resumeRoot (s : State) (root : Nat) : State :=
  (List.range s.strands.length).foldl (fun s k =>
    let t := s.strand k
    match t.susp, t.share with
    | some x, some y => if t.hive == root && x.kind == .firmware then resumeOn s k y else s
    | _, _ => s) s

/-- The granule moved: descendants lose what it backed; its bytes are copied; the root's space, pool and shadow follow. -/
def moveGranule (s : State) (n g d : Nat) : State :=
  let root := (s.part n).root
  let src := g * 2 ^ 30
  let dst := d * 2 ^ 30
  let s := (List.range 12).foldl (fun s p => clearL1 s root (12 * n + p)) s
  let s := takePages s root [] [(src, 2 ^ 30)]
  let s := { s with mem := copyRange s.mem src dst (2 ^ 30) }
  let s := s.modPart n (fun p => { p with granules := p.granules.map (fun x => if x = g then d else x) })
  let s := s.modHive root (fun h => { h with
    pool := h.pool.map (fun a => if src ≤ a ∧ a < src + 2 ^ 30 then a - src + dst else a) })
  firmwareRoot s (s.hive root) (s.hive root).shadowRoot

/-- MIGRATE: partition, granule, destination. Code arenas are physical, and a seal names physical bytes: a granule that holds
either stays. -/
def execMigrate (s : State) : Host.Outcome State Fault Refusal :=
  serveRequest s 8 3 (fun a =>
    let n := a 0
    let p := s.part n
    let busy := s.hives.any (fun h => h.part == n && overlaps (a 1 * 2 ^ 30) (2 ^ 30) h.codebase (h.codebound - h.codebase)) ||
      p.seals.any (fun r => overlaps (a 1 * 2 ^ 30) (2 ^ 30) r.1 r.2)
    if !(decide (n < 48) && p.live && p.granules.contains (a 1) && granuleExists (a 2) &&
        (List.range s.parts.length).all (fun k => !(s.part k).granules.contains (a 2))) || busy then .refused []
    else
      let s := haltRoot s p.root
      if rootRuns s p.root then .later s else .done (resumeRoot (moveGranule s n (a 1) (a 2)) p.root))

end Sys2Proof.Machine
end

