-- ==== Sys2Proof/Machine/Boot.lean ====
section
/-! DEFINITION. Power-up, the boot window and the firmware image (spec/13 R305 to R307, R314). -/

namespace Sys2Proof.Machine

/-- The module after power-up or module reset. Host memory is the host's and keeps its bytes; so do events still to come.
What the module's own memories held is gone.
DESIGN CHOICE, unsafe: notes/assumptions/27. -/
def powerOn (s : State) : State :=
  { State.reset with
    mem := s.mem.filter (fun c => decide (2 ^ 51 ≤ c.1)), eager := s.eager, freeCount := s.freeCount, inbox := s.inbox }

/-- POWER_UP (R305): the boot ROM has trained the host link and waits for an image. -/
def execPowerUp (s : State) : Host.Outcome State Fault Refusal := .next (powerOn s)

/-- MODULE_RESET (R305): the same sequence runs again. -/
def execModuleReset (s : State) : Host.Outcome State Fault Refusal := .next (powerOn s)

/-- GO (R314): 1 in STATE 0 or 3 starts the download; other writes are ignored. -/
def execGo (value : BitVec 32) (s : State) : Host.Outcome State Fault Refusal :=
  .next (if value = 1 ∧ (s.boot.state = 0 ∨ s.boot.state = 3) then { s with boot := { s.boot with state := 1, reason := 0 } } else s)

/-- The host's fields of the boot window, IMAGEADDR to REQQSIZE, as the 28 bytes from 0x008 on. -/
def Boot.hostBytes (b : Boot) : List Byte :=
  leBytes 8 b.imageAddr.toNat ++ leBytes 8 b.imageSize.toNat ++ leBytes 8 b.reqqBase.toNat ++ leBytes 4 b.reqqSize.toNat

/-- BOOT_WINDOW_WRITE (R314): bytes of the host's fields change; a write elsewhere is ignored. -/
def execBootWindowWrite (offset : Nat) (data : List Byte) (s : State) : Host.Outcome State Fault Refusal :=
  let old := s.boot.hostBytes
  let new := (List.range 28).map (fun k =>
    if offset ≤ 8 + k ∧ 8 + k < offset + data.length then data.getD (8 + k - offset) 0 else old.getD k 0)
  let f (off n : Nat) : Nat := field (ofLeBytes new) off n
  .next { s with boot := { s.boot with
    imageAddr := BitVec.ofNat 64 (f 0 8), imageSize := BitVec.ofNat 64 (f 8 8), reqqBase := BitVec.ofNat 64 (f 16 8)
    reqqSize := BitVec.ofNat 32 (f 24 4) } }

/-- Bytes 0x000 to 0x08F of the boot window as the host reads them (Table 13.5). GO is a field that is written; what it reads is not
stated, and here it is 0.
DESIGN CHOICE, unsafe: notes/assumptions/56. -/
def Boot.bytes (b : Boot) : List Byte :=
  leBytes 4 b.state ++ leBytes 4 b.reason ++ b.hostBytes ++ leBytes 4 0 ++ leBytes 8 b.svn.toNat ++ leBytes 48 b.mr0.toNat
    ++ leBytes 48 b.mr1.toNat

/-- A byte of the boot window of 4 KiB as the host reads it: from 0x090 on it reads zero (R314). -/
def Boot.read (b : Boot) (offset : Nat) : Byte := b.bytes.getD offset 0

/-- The image that the host names, as bytes of its memory. -/
def firmwareBytes (s : State) : List Byte := Mem.take s.mem s.boot.imageAddr.toNat s.boot.imageSize.toNat

/-- Why an image is rejected (R306, Table 13.5): malformed, a key's hash, a signature, its version.
DEDUCED, unsafe: notes/assumptions/39. -/
def firmwareFault (bs : List Byte) : Option Nat :=
  let part (off n : Nat) : List Byte := (bs.drop off).take n
  let num (off n : Nat) : Nat := ofLeBytes (part off n)
  let signed := part 0 0x7D0 ++ bs.drop 8192
  let keyEd := part 0x10 32
  let keyMl := part 0x30 1952
  if bs.length < 8192 ∨ num 0 4 ≠ 0x57464D31 ∨ 2 ^ 24 < num 8 8 ∨ bs.length ≠ 8192 + num 8 8 ∨ num 0x14FD 2819 ≠ 0 then some 4
  else if sha384 keyEd ≠ leBytes 48 Config.fusedEdKeyHash.toNat ∨ sha384 keyMl ≠ leBytes 48 Config.fusedMlKeyHash.toNat then some 2
  else if !(ed25519Verifies keyEd signed (part 0x7D0 64) && mlDsa65Verifies keyMl signed (part 0x810 3309)) then some 1
  else if num 4 4 < Config.fusedMinSvn.toNat then some 3
  else none

/-- FIRMWARE_IMAGE_VERIFY (R305 to R307): an image being received is in I/O-die SRAM then, and verified next; one being verified is
measured and started, or rejected. -/
def execFirmwareImageVerify (s : State) : Host.Outcome State Fault Refusal :=
  let b := s.boot
  .next
    (if b.state = 1 then { s with boot := { b with state := 2, image := firmwareBytes s } }
     else if b.state ≠ 2 then s
     else
       let bs := b.image
       match firmwareFault bs with
       | some reason => { s with boot := { b with state := 3, reason := reason } }
       | none =>
         { s with boot := { b with
             state := 4, reason := 0, svn := BitVec.ofNat 64 (field (ofLeBytes (bs.take 8)) 4 4)
             mr1 := BitVec.ofNat 384 (ofLeBytes (sha384 bs)) } })

/-- FIRMWARE_TRAINING_COMPLETE (R305, R314): memories and links are trained, and firmware reads the request queue's place and
serves it; or it has failed, with reason 5, 6 or 7. -/
def execFirmwareTrainingComplete (reason : Nat) (s : State) : Host.Outcome State Fault Refusal :=
  let b := s.boot
  .next
    (if b.state ≠ 4 then s
     else if reason = 0 then { s with boot := { b with state := 5, queueBase := b.reqqBase, queueSize := b.reqqSize } }
     else if 5 ≤ reason ∧ reason ≤ 7 then { s with boot := { b with state := 6, reason := reason } }
     else s)

end Sys2Proof.Machine
end

