-- ==== Sys2Proof/Machine/Serve.lean ====
section
/-! DEFINITION. A cycle of a comb region: edge FIFOs fill, one context is served, its nodes fire in parallel, idle contexts
count (spec/08 R191, R192, R197, R207, R210, R211). -/

namespace Sys2Proof.Machine

/-! Edges (R207, R210). -/

/-- Stream elements from element e on, read one after another, with the block that a CF8 stream then keeps (R166). -/
def streamElems (t : Strand) (sx : BitVec 4) (w : Nat) :
    Nat → Nat → Option CodedBlock → State → Except Trap (List Nat × Option CodedBlock × State)
  | 0, _, b, s => .ok ([], b, s)
  | n + 1, e, b, s =>
    let y := t.stream sx
    let g := streamAgent t sx
    let one : Except Trap (Nat × Option CodedBlock × State) :=
      if y.coding = 1 then
        match readBlock t sx false b.toList (e / 32) s with
        | (.elems b, s) => .ok (b.elems.getD (e % 32) 0, some b, s)
        | (.bad c, _) => .error ⟨.integrity, BitVec.ofNat 64 (e / 32), BitVec.ofNat 64 c, 0⟩
        | (.missed va none, _) => .error (protectionAt (BitVec.ofNat 64 va) .read)
        | (.missed va (some why), _) => .error (batchTrap .read [⟨0, va, why⟩])
      else
        let a := streamAddr y w e
        if a.1 % elemBytes w ≠ 0 then .error (Trap.at .align (BitVec.ofNat 64 a.1))
        else if addressError s g .read a.1 then .error (accessTrap (BitVec.ofNat 64 a.1) .read .notPermitted)
        else match locateV s g a.1 .read with
          | .error r => .error (batchTrap .read [⟨0, a.1, r⟩])
          | .ok (p, s) =>
            let r := readPlace s g.who p (elemBytes w) false
            .ok (r.1 / 2 ^ a.2 % 2 ^ w, b, r.2)
    match one with
    | .error e => .error e
    | .ok (v, b, s) =>
      match streamElems t sx w n (e + 1) b s with
      | .error e => .error e
      | .ok (l, b, s) => .ok (v :: l, b, s)

/-- A context with a token put into a port. -/
def CombCtx.deliver (x : CombCtx) (q : Nat × Nat) (t : Token) : CombCtx :=
  { x with nodes := modAt x.nodes q.1 (fun d => d.receive q.2 t) }

/-- The tokens that wait in a port. -/
def CombCtx.waiting (x : CombCtx) (q : Nat × Nat) : Nat := ((x.node q.1).fifos.getD q.2 []).length

/-- The strand of a context as its FX finds it: with what older instructions have produced. -/
def CombCtx.view (s : State) (x : CombCtx) : Strand :=
  let t := s.strand x.owner
  (fxEntry t x.slot).elim t (fun d => viewAt t d.1)

/-- The register of edge j of a context. -/
def edgeReg (s : State) (x : CombCtx) (j : Nat) : Option (BitVec 6) :=
  (fxEntry (s.strand x.owner) x.slot).map (fun d => (fxRegs d.2).getD (edgeIndex (x.image.edges.getD j 0)) 0)

/-- The elements of the next token of edge j of a context: the first, and how many. -/
def edgeNext (x : CombCtx) (t : Strand) (j : Nat) : Nat × Nat :=
  let e := x.image.edges.getD j 0
  let register := edgeKind e == 1
  let next := if register then (x.edgeIdx.getD j 0).toNat else (t.stream (BitVec.ofNat 4 (edgeIndex e))).pos.toNat
  let last := if register then x.len.toNat else (t.stream (BitVec.ofNat 4 (edgeIndex e))).total
  (next, min (if edgeNet e = netVector then 128 / etw (edgeEt e) else 1) (last - next))

/-- Whether a register edge waits for an element group that an older instruction has not produced (R210). -/
def edgeWaits (s : State) (x : CombCtx) (j : Nat) : Bool :=
  let e := x.image.edges.getD j 0
  let t := s.strand x.owner
  let p := edgeNext x t j
  edgeKind e == 1 && !x.edgeEnded.getD j false && (match fxEntry t x.slot, edgeReg s x j with
    | some d, some r => !(t.queue.take d.1).all (producedOf (Need.elems r (etw (edgeEt e)) p.1 (p.1 + p.2)))
    | _, _ => false)

/-- Edge j of a running context given its next token, if its FIFO has room, what it reads is produced and END has not been given. -/
def fillEdge (s : State) (core lg num j : Nat) : Except Trap State :=
  match s.combAt core lg num with
  | none => .ok s
  | some x =>
    let e := x.image.edges.getD j 0
    match (x.image.feeds.find? (fun f => f.2 == some (Src.edge j))).map (fun f => f.1) with
    | none => .ok s
    | some q =>
      if edgeKind e = 0 || x.edgeEnded.getD j false || decide (16 ≤ x.waiting q) || x.closed.getLsbD q.1 || edgeWaits s x j then .ok s
      else
        let t := s.strand x.owner
        let net := edgeNet e
        let w := etw (edgeEt e)
        let sx : BitVec 4 := BitVec.ofNat 4 (edgeIndex e)
        let (next, n) := edgeNext x t j
        if n = 0 then
          .ok (s.putCtx core { x.deliver q endToken with edgeEnded := x.edgeEnded.set j true })
        else
          if edgeKind e = 1 then
            let v := (edgeReg s x j).elim 0 (x.view s).vreg
            let l := (List.range n).map (fun i => elemAt v w (next + i))
            .ok (s.putCtx core { x.deliver q (mkToken net w next l) with
              edgeIdx := x.edgeIdx.set j (BitVec.ofNat 64 (next + n)) })
          else match streamElems t sx w n next (t.stream sx).kept s with
            | .error tr => .error tr
            | .ok (l, b, s) =>
              let s := s.putCtx core (x.deliver q (mkToken net w next l))
              .ok (requestWalks (s.modStrand x.owner (fun t => t.advance sx n b.toList)) x.owner sx)

/-- Every edge of a context given its next token. -/
def fillEdges (s : State) (core lg num : Nat) : Except Trap State :=
  (List.range 8).foldl (fun (r : Except Trap State) j =>
    match r with
    | .error t => .error t
    | .ok s => fillEdge s core lg num j) (.ok s)

/-! Which nodes fire (R192, R197). -/

/-- What drives the ports of a context's image, worked out once a cycle. -/
abbrev Feeds := List ((Nat × Nat) × Option Src)

/-- A node's firing with its port and its granule looked at: a LOAD or STORE waits for its port, and a full-empty LOAD
for its granule (R198, R199). -/
def nodeReady (s : State) (core : Nat) (x : CombCtx) (n : Nat) : Ready :=
  let cfg := x.image.cfg n
  let r := ready ⟨x.drm, s.freeCount, n⟩ cfg (x.node n)
  match r with
  | .load _ addr fe _ =>
    if !ownsPort s core x n then .no
    else if fe = 0 then r
    else match portLoad s (gatherAgent (s.strand x.owner)) addr (etw cfg.et / 8) fe with
      | .ok none => .no
      | _ => r
  | .store _ _ _ _ => if ownsPort s core x n then r else .no
  | _ => r

/-- Ports that an output reaches by links. -/
def linkReaders (fs : Feeds) (n k : Nat) : List (Nat × Nat) :=
  (fs.filter (fun f => f.2 == some (Src.out n k))).map (fun f => f.1)

/-- Room at every port that an output reaches by links; a closed node takes only what comes from closed nodes (R209). -/
def roomAt (fs : Feeds) (x : CombCtx) (n : Nat) (outs : List (Nat × Token)) : Bool :=
  outs.all (fun o => (linkReaders fs n o.1).all (fun q =>
    decide (x.waiting q < 16) && (!x.closed.getLsbD q.1 || x.closed.getLsbD n)))

/-- The output capacity C of the FX in progress (R207). -/
def CombCtx.capacity (x : CombCtx) : Nat := x.grant * 2048 / etw x.image.outet

/-- Whether what a node emits would go beyond element C − 1 of vd. -/
def overflows (x : CombCtx) (n : Nat) (outs : List (Nat × Token)) : Bool :=
  n == x.image.outnode && outs.any (fun o =>
    o.1 == 0 && !o.2.isEnd && decide (x.capacity < x.outpos + o.2.count x.image.outnet))

/-- The nodes of the row of a node that feed its reducer, in column order. -/
def redNodes (m : Image) (n : Nat) : List Nat :=
  let cols := shapeCols m.shape
  ((List.range cols).map (fun c => n / cols * cols + c)).filter (fun r => m.uses r && (m.cfg r).red)

/-- A node with its firing. -/
abbrev Firing := Nat × Ready

/-- Whether a node's firing puts a token on its primary output. -/
def emitsPrimary (r : Ready) : Bool := r.outs.any (fun o => o.1 == 0)

/-- The first token that a firing emits. -/
def primaryToken (r : Ready) : Option Token := (r.outs.find? (fun o => o.1 == 0)).map (fun o => o.2)

/-- What a cycle of a context is going to be: the nodes that fire, whether OUTNODE is held up by a full vd, and whether
some node finds END beside a value. -/
structure CombPlan where
  fire : List Firing
  full : Bool
  clash : Bool

/-- The firings of a context on its state at the start of the cycle. -/
def combPlan (s : State) (core : Nat) (x : CombCtx) : CombPlan :=
  let m := x.image
  let fs := m.feeds
  let all : List Firing := (m.used.map (fun n => (n, nodeReady s core x n))).filter (fun f => f.2.fires)
  let able : List Firing := all.filter (fun f => roomAt fs x f.1 f.2.outs && !overflows x f.1 f.2.outs)
  let full := all.any (fun f => roomAt fs x f.1 f.2.outs && overflows x f.1 f.2.outs)
  let rowReady (n : Nat) : Bool :=
    (redNodes m n).all (fun r => able.any (fun f => f.1 == r && emitsPrimary f.2)) &&
    (match rowReducer m n with
     | some r => ((m.cfg r).redPort.map (fun p => decide (x.waiting (r, p) < 16))).getD false
     | none => false)
  let fire := able.filter (fun f => !((m.cfg f.1).red && emitsPrimary f.2) || rowReady f.1)
  let mixed (n : Nat) : Bool :=
    let ends := ((redNodes m n).filterMap (fun r =>
      ((fire.find? (fun f => f.1 == r)).bind (fun f => primaryToken f.2)))).map Token.isEnd
    ends.contains true && ends.contains false
  ⟨fire, full, fire.any (fun f => f.2 == .clash || ((m.cfg f.1).red && emitsPrimary f.2 && mixed f.1))⟩

/-! Firing (R192). -/

/-- A cycle of firing so far: the state, the context, the tokens to deliver, and a fault. -/
structure Fired where
  s : State
  x : CombCtx
  out : List (Nat × Nat × Token)
  count : Nat
  fault : Option Trap

/-- A node's own part of its firing. -/
def fireNode (f : Fired) (n : Nat) (a : Act) : Fired :=
  { f with
    x := { f.x with nodes := f.x.nodes.set n (a.keep.take a.take), flags := f.x.flags ||| a.flags }
    out := f.out ++ a.outs.map (fun o => (n, o.1, o.2)), count := f.count + 1 }

/-- One node fires; after a fault the ports issue nothing more (R212). -/
def fireOne (core : Nat) (f : Fired) (p : Firing) : Fired :=
  let cfg := f.x.image.cfg p.1
  let g := gatherAgent (f.s.strand f.x.owner)
  let w := etw cfg.et
  match p.2 with
  | .act a => fireNode f p.1 a
  | .give a tgt => fireNode { f with s := givePort f.s core f.x p.1 tgt } p.1 a
  | .load a addr fe index =>
    if f.fault.isSome then f
    else match portLoad f.s g addr (w / 8) fe with
      | .error t => { f with fault := some t }
      | .ok none => f
      | .ok (some (v, s)) => fireNode { f with s := s } p.1 { a with outs := [(0, mkToken netScalar w index [v])] }
  | .store a addr fe val =>
    if f.fault.isSome then f
    else match portStore f.s g core (f.x.lg + p.1) f.x.num addr (w / 8) val fe with
      | .error t => { f with fault := some t }
      | .ok s => fireNode { f with s := s } p.1 a
  | _ => f

/-- A token of OUTNODE written to vd at OUTPOS (R207). -/
def writeOut (x : CombCtx) (t : Token) : CombCtx :=
  if t.isEnd then { x with outEnded := true }
  else
    let w := etw x.image.outet
    let n := t.count x.image.outnet
    { x with
      vd := (List.range n).foldl (fun v j => setElemAt v w (x.outpos + j) (t.elem w j)) x.vd, outpos := x.outpos + n }

/-- What the reducer of a row makes of the tokens that its nodes have emitted (R197). -/
def reduceRow (v : NodeEnv) (m : Image) (r : Nat) (l : List Token) : Token × Nat :=
  let cfg := m.cfg r
  let w := etw cfg.et
  if l.any Token.isEnd then (endToken, 0)
  else
    let y := combFold { v with node := r } cfg (reduceOp cfg) (l.map (fun t => t.elem w 0))
    (mkToken netScalar w ((l.head?).elim 0 (fun t => t.index netScalar)) [y.1], y.2)

/-- The tokens of a cycle delivered: to every port that reads them, to vd, and to the row reducers. -/
def deliverAll (fs : Feeds) (cycle : Nat) (x : CombCtx) (out : List (Nat × Nat × Token)) : CombCtx :=
  let m := x.image
  let x := out.foldl (fun x o =>
    let x := (linkReaders fs o.1 o.2.1).foldl (fun x q => x.deliver q o.2.2) x
    if o.1 == m.outnode && o.2.1 == 0 then writeOut x o.2.2 else x) x
  let rows := m.used.filter (fun r => (m.cfg r).reduces)
  rows.foldl (fun x r =>
    let l := (redNodes m r).filterMap (fun n => (out.find? (fun o => o.1 == n && o.2.1 == 0)).map (fun o => o.2.2))
    match l, (m.cfg r).redPort with
    | [], _ => x
    | _, none => x
    | l, some p =>
      let y := reduceRow ⟨x.drm, cycle, r⟩ m r l
      { x.deliver (r, p) y.1 with flags := x.flags ||| y.2 }) x

/-- A context served: its nodes fire on its state at the start of the cycle. -/
def serveCtx (s : State) (core : Nat) (x : CombCtx) : State × Option Trap :=
  let plan := combPlan s core x
  if plan.clash then (s, some (fabricFault x.slot 4))
  else
    let cycle := s.freeCount
    let f := plan.fire.foldl (fireOne core) ⟨{ s with freeCount := cycle + 1 }, x, [], 0, none⟩
    let y := deliverAll x.image.feeds cycle f.x f.out
    let y := { y with idle := if f.count = 0 then y.idle else 0, served := (s.core core).cycles.toNat }
    let s := f.s.modSlot x.owner x.slot (fun d => { d with firings := d.firings + BitVec.ofNat 64 f.count })
    (s.putCtx core y, f.fault)

/-! The region (R210, R211). -/

/-- A context can be served: an FX is in progress, it holds something, and a node can fire. -/
def ctxEligible (s : State) (core : Nat) (x : CombCtx) : Bool :=
  x.running && x.balance != 0 && !(combPlan s core x).fire.isEmpty

/-- OUTNODE of a context is held up by a full vd. -/
def heldUp (s : State) (core : Nat) (x : CombCtx) : Bool := x.running && (combPlan s core x).full

/-- The context served next: the next eligible one after the last. -/
def nextServed (s : State) (core lg : Nat) : Option CombCtx :=
  let last := (s.core core).combLast.getD lg 3
  (List.range 4).findSome? (fun j => (s.combAt core lg ((last + 1 + j) % 4)).filter (ctxEligible s core))

/-- The edges of every running context filled; with the contexts whose stream inputs fault. -/
def fillRegion (s : State) (core lg : Nat) : State × List (Nat × Trap) :=
  ((regionCtxs s core lg).filter (fun x => x.running)).foldl (fun acc x =>
    match fillEdges acc.1 core lg x.num with
    | .ok s => (s, acc.2)
    | .error t => (acc.1, acc.2 ++ [(x.num, t)])) (s, [])

/-- One more idle cycle for every running context that cannot fire, is not held up by vd, and has no edge FIFO that waits on an
unproduced EG (R211). -/
def countIdle (s : State) (core lg : Nat) : State :=
  ((regionCtxs s core lg).filter (fun x => x.running && !ctxEligible s core x && !heldUp s core x &&
    !(List.range 8).any (edgeWaits s x))).foldl
    (fun s x => s.putCtx core { x with idle := x.idle + 1 }) s

/-- A cycle of a region: the state, and the faults by context. -/
def serveRegion (s : State) (core lg : Nat) : State × List (Nat × Trap) :=
  let r := fillRegion s core lg
  let bad := r.2.map (fun f => f.1)
  let pick := (nextServed r.1 core lg).filter (fun x => !bad.contains x.num)
  let s := countIdle r.1 core lg
  match pick with
  | none => (s, r.2)
  | some x =>
    let s := s.modCore core (fun c => { c with combLast := c.combLast.set lg x.num })
    let o := serveCtx s core x
    (o.1, r.2 ++ (o.2.toList.map (fun t => (x.num, t))))

end Sys2Proof.Machine
end

