-- ==== Sys2Proof/Machine/CombEvents.lean ====
section
/-! DEFINITION. The events of the comb: contexts load, a region is served, an FX stalls, coalescing buffers drain (spec/08
R198, R205, R207, R210 to R212). -/

namespace Sys2Proof.Machine

/-- A fault of the FX of a context: it stops; the trap is taken where the FX heads its queue, and found again there by
one that does not yet (R212, R251). -/
def combFault (s : State) (core lg num : Nat) (tr : Trap) : State :=
  match s.combAt core lg num with
  | none => s
  | some x =>
    let place := (fxEntry (s.strand x.owner) x.slot).map (fun e => e.1)
    let r := stopFx s core x
    let tr := r.2.getD tr
    if place = some 0 then
      let s := if tr.cause = .fabricStall then r.1.modSlot x.owner x.slot (fun f => { f with stalls := f.stalls + 1 }) else r.1
      settleQueue (trapAtHead s x.owner tr false) x.owner
    else r.1

/-- The FX of a context ended, where it heads its queue and has reached its end (R207). -/
def combEnd (s : State) (core lg num : Nat) : State :=
  match s.combAt core lg num with
  | none => s
  | some x =>
    if x.running && ((fxEntry (s.strand x.owner) x.slot).map (fun e => e.1)) == some 0 then
      let done (st : SlotState) (n : Nat) : State :=
        settleQueue (retireDone queueDepth (finishFx s core x st n) x.owner) x.owner
      if x.outEnded && x.balance == 0 then done .done x.outpos
      else if heldUp s core x then done .full x.capacity
      else s
    else s

/-- The FCFGs of strand k that wait behind an FX: those whose region has emptied take effect (R209). -/
def fcfgStep (s : State) (k : Nat) : State :=
  (List.range (s.strand k).queue.length).foldl (fun s j =>
    let t := s.strand k
    match t.queue[j]? with
    | some e =>
      match e.item, e.tags with
      | .instr (.fcfg o), some g =>
        if g.produced = 0 then
          match shapeOf (.fcfg o) with
          | some x =>
            match runItem (.fcfg o) s k (wholeWork t e x) (startPart t e x) with
            | .ok s a => setTags s k (fun d => d.order == e.order) (some { g with produced := 1, out := a })
            | _ => s
          | none => s
        else s
      | _, _ => s
    | none => s) s

/-- COMB_CONTEXT_SERVE (R210): one cycle of a region. -/
def execCombContextServe (core lg : Nat) (s : State) : Host.Outcome State Fault Refusal :=
  let r := serveRegion s core lg
  let s := r.2.foldl (fun s f => combFault s core lg f.1 f.2) r.1
  let s := (regionCtxs s core lg).foldl (fun s x => combEnd s core lg x.num) s
  .next (((regionCtxs s core lg).map (fun x => x.owner)).eraseDups.foldl fcfgStep s)

/-- Idle cycles after which an FX that holds tokens stops (R211). -/
def stallLimit : Nat := 64

/-- Whether the FX of a context has stalled. -/
def stalledFx (x : CombCtx) : Bool := x.running && decide (stallLimit ≤ x.idle) && x.balance != 0

/-- FABRIC_STALL (R211): TRAPVAL holds the context and TRAPINFO the balance. -/
def execFabricStall (core lg ctx : Nat) (s : State) : Host.Outcome State Fault Refusal :=
  .next
    (match s.combAt core lg ctx with
     | none => s
     | some x =>
       if stalledFx x then
         combFault s core lg ctx ⟨.fabricStall, BitVec.ofNat 64 ctx, BitVec.ofNat 64 x.balance, 0⟩
       else s)

/-- A buffer is flushed 16 cycles after its first store. -/
def bufferDue (c : Core) (b : PortBuf) : Bool := decide (b.since + 16 ≤ c.cycles.toNat)

/-- COALESCING_BUFFER_FLUSH (R198). -/
def execCoalescingBufferFlush (core node : Nat) (s : State) : Host.Outcome State Fault Refusal :=
  .next (flushBufs s core (fun b => b.node == node && bufferDue (s.core core) b))

/-- The instruction of strand k that waits for its slot to become resident: its place in the queue, and the slot. -/
def contextWanted (s : State) (k : Nat) : Option (Nat × BitVec 5) :=
  let q := (s.strand k).queue
  (nextUntagged (s.strand k)).bind (fun j =>
    ((q[j]?).bind (fun e => match e.item with
      | .instr i => (shapeOf i).bind (fun x => if e.known && (j == 0 || combFree s k j i x e) then needsContext s k i else none)
      | .word _ => none)).map (fun n => (j, n)))

/-- FABRIC_CONTEXT_LOAD (R205): a load that cannot be made is the trap of the queue head that needs it. -/
def execFabricContextLoad (st slot : Nat) (s : State) : Host.Outcome State Fault Refusal :=
  .next
    (match contextWanted s st with
     | some (j, n) =>
       if (s.strand st).placed && n.toNat == slot then
         match loadSlot s st n with
         | .ok (some s) => settleQueue s st
         | .ok none => s
         | .error t => if j = 0 then trapAtHead s st t false else s
       else s
     | none => s)

end Sys2Proof.Machine
end

