-- ==== Sys2Proof/Machine/Fabric.lean ====
section
/-! DEFINITION. The comb instructions as the front end meets them: each enters its strand's queue (spec/08 R204). -/

namespace Sys2Proof.Machine

/-- FBIND (R337): Reads and checks a comb image and binds a fabric slot. -/
def execFbind (o : XFmt) (s : State) : Host.Outcome State Fault Refusal := enqueue (.fbind o) s

/-- FFREE (R346): Waits for any FX on the slot and releases it. -/
def execFfree (o : XFmt) (s : State) : Host.Outcome State Fault Refusal := enqueue (.ffree o) s

/-- FX (R207): Runs a bound fabric opcode, resuming from its saved state. -/
def execFx (slot : BitVec 5) (o : XFmt) (s : State) : Host.Outcome State Fault Refusal := enqueue (.fx slot o) s

/-- FCFG (R209): Rewrites a region's route words after draining or abandoning its tokens. -/
def execFcfg (o : XFmt) (s : State) : Host.Outcome State Fault Refusal := enqueue (.fcfg o) s

/-- FDRAIN (R344): Blocks until every earlier FX on the slot has finished and flushed. -/
def execFdrain (o : XFmt) (s : State) : Host.Outcome State Fault Refusal := enqueue (.fdrain o) s

/-- FSTAT (R352): Writes a slot status value selected by k to gd. -/
def execFstat (o : XFmt) (s : State) : Host.Outcome State Fault Refusal := enqueue (.fstat o) s

/-- FCTX_LOAD (R206): Makes the slot resident and writes its context. -/
def execFctxLoad (o : XFmt) (s : State) : Host.Outcome State Fault Refusal := enqueue (.fctxLoad o) s

/-- FCTX_PIN (R206): Makes the slot resident and pins its context. -/
def execFctxPin (o : XFmt) (s : State) : Host.Outcome State Fault Refusal := enqueue (.fctxPin o) s

/-- FCTX_UNPIN (R206): Clears the slot's pin. -/
def execFctxUnpin (o : XFmt) (s : State) : Host.Outcome State Fault Refusal := enqueue (.fctxUnpin o) s

/-- FCTX_EVICT (R206): Writes the slot's state to its record and frees its context. -/
def execFctxEvict (o : XFmt) (s : State) : Host.Outcome State Fault Refusal := enqueue (.fctxEvict o) s

end Sys2Proof.Machine
end

