-- ==== Sys2Proof/Machine/Flow.lean ====
section
/-! DEFINITION. Branches, jumps and NOP (spec/12 R278, spec/14 R326, spec/15 R364 to R366, R376). A target outside the
arena traps at the fetch there. -/

namespace Sys2Proof.Machine

/-- PC + 8 × SignExt(off, 32) (R278). -/
def target (pc : Word) (off : BitVec 32) : Word := pc + immS off <<< 3

/-- A conditional branch (R326); the hint in Q[0] never changes the result. -/
def branch (o : BFmt) (s : State) (taken : Bool) : Host.Outcome State Fault Refusal :=
  scalar s (.ok (s.modMe (fun t => { t with pc := if taken then target t.pc o.off else t.pc + 8 })))

def execBeq (o : BFmt) (s : State) := branch o s (s.me.greg o.ga == s.me.greg o.gb)

def execBne (o : BFmt) (s : State) := branch o s (s.me.greg o.ga != s.me.greg o.gb)

def execBlt (o : BFmt) (s : State) := branch o s ((s.me.greg o.ga).slt (s.me.greg o.gb))

def execBge (o : BFmt) (s : State) := branch o s (!(s.me.greg o.ga).slt (s.me.greg o.gb))

def execBltu (o : BFmt) (s : State) := branch o s ((s.me.greg o.ga).ult (s.me.greg o.gb))

def execBgeu (o : BFmt) (s : State) := branch o s (!(s.me.greg o.ga).ult (s.me.greg o.gb))

/-- J (R364). -/
def execJ (o : BFmt) (s : State) := branch o s true

/-- JAL (R365): the link, then the jump. -/
def execJal (o : IFmt) (s : State) :=
  scalar s (.ok (s.modMe (fun t => { t.setGreg o.gd (t.pc + 8) with pc := target t.pc o.imm })))

/-- JALR (R366): the target is formed from ga as it was; a misaligned one traps ALIGN and writes nothing. -/
def execJalr (o : IFmt) (s : State) :=
  let t := s.me.greg o.ga + immS o.imm
  scalar s
    (if t.toNat % 8 ≠ 0 then .error (Trap.at .align t)
     else .ok (s.modMe (fun x => { x.setGreg o.gd (x.pc + 8) with pc := t })))

/-- NOP (R376): PC advances by 8. -/
def execNop (_o : GFmt) (s : State) := scalar s (.ok s.advance)

end Sys2Proof.Machine
end

