-- ==== Sys2Proof/Machine/MemEvents.lean ====
section
/-! DEFINITION. Memory events: walks that finish, requests at the LLC slice ports and their buckets, the write-back of a line
that has been dirty long (spec/03 R79, R85 to R88, spec/04 R114, spec/05 R122). -/

namespace Sys2Proof.Machine

/-! Walks (R114, R79). -/

/-- PAGE_WALK_COMPLETE: the oldest walk in progress of a die finishes. Under a later generation it is discarded and begins again;
otherwise every request that joined it has its result, and the oldest request that waits begins. -/
def execPageWalkComplete (die : Nat) (s : State) : Host.Outcome State Fault Refusal :=
  .next
    (match s.walks.find? (fun w => w.die == die && w.begun) with
     | none => startWalks s die
     | some w =>
       let h := s.hive w.hive
       let joined := s.walks.filter (fun x => x.begun && sameWalk w x)
       let s := { s with walks := s.walks.filter (fun x => !(x.begun && sameWalk w x)) }
       if w.gen ≠ h.gen then startWalks { s with walks := joined.map (fun x => { x with begun := false }) ++ s.walks } die
       else
         let s := match walk s h w.va with
           | .leaf e => joined.foldl (fun s x => s.modStrand x.strand (keepLook x e)) s
           | .fail _ => s
         startWalks s die)

/-! Slice ports (R85 to R88, R110). -/

/-- The hive whose bucket on slice i a hive's traffic is charged to: the next ancestor's where it found no slot (R85). -/
def chargedHive (s : State) (i : Nat) : Nat → Nat → Nat
  | 0, h => h
  | n + 1, h =>
    let b := (s.hive h).bucket i
    if b.own || b.rate == 0 || (s.hive h).parent == 0 then h else chargedHive s i n (s.hive h).parent

/-- The hive that would lend to a hive: its parent, or where that one's traffic is charged (R88). -/
def lender (s : State) (i h : Nat) : Option Nat :=
  let p := (s.hive (chargedHive s i 8 h)).parent
  if p = 0 then none else some (chargedHive s i 8 p)

/-- The bucket of a request, and whether it borrows; none where it waits at the port. -/
def admits (s : State) (r : LlcReq) : Option (Nat × Bool) :=
  let i := r.slice % 4
  let c := chargedHive s i 8 r.hive
  if 0 < ((s.hive c).bucket i).tokens then some (c, false)
  else if (s.hive r.hive).noborrow then none
  else match lender s i r.hive with
    | some p => if 0 < ((s.hive p).bucket i).tokens then some (p, true) else none
    | none => none

/-- The first request of a slice that can be admitted.
DEDUCED, unsafe: notes/assumptions/29. -/
def admissible (s : State) (slice : Nat) : Option LlcReq := s.llc.find? (fun r => r.slice == slice && (admits s r).isSome)

/-- LLC_REQUEST_ADMIT: 16 × n tokens are taken from the bucket, or from the parent's, and the bytes are counted. -/
def execLlcRequestAdmit (slice : Nat) (s : State) : Host.Outcome State Fault Refusal :=
  .next
    (match admissible s slice with
     | none => s
     | some r =>
       match admits s r with
       | none => s
       | some (c, borrow) =>
         let i := slice % 4
         let n : Word := BitVec.ofNat 64 r.bytes
         let s := { s with llc := s.llc.erase r }
         let s := s.modBucket c i (fun b => { b with tokens := b.tokens - (16 * r.bytes : Nat) })
         s.modBucket r.hive i (fun b => { b with
           llcBytes := b.llcBytes + n, borrowed := if borrow then b.borrowed + n else b.borrowed }))

/-- BUCKET_REFILL: an LLC cycle of a slice; every bucket there gains its rate, a parent's its remainder's (R86, R87). -/
def execBucketRefill (slice : Nat) (s : State) : Host.Outcome State Fault Refusal :=
  let i := slice % 4
  .next ((s.hives.filter (fun h => h.part == slice / 4 && (h.bucket i).own)).foldl (fun s h =>
    s.modBucket h.id i (fun b => ({ b with tokens := b.tokens + (remainderRate s h i : Nat) }).cut)) s)

/-! The L1 (R122). -/

/-- Cycles after which a dirty line is written back. -/
def dirtyLimit : Nat := 65536

/-- A line that has been dirty that long. -/
def dirtyDue (s : State) (core line : Nat) : Option L1Line :=
  ((s.core core).line line).filter (fun l => l.dirty != 0 && decide (l.since + dirtyLimit ≤ (s.core core).cycles.toNat))

/-- L1_DIRTY_TIMEOUT: the line's dirty bytes written back; it stays. -/
def execL1DirtyTimeout (core line : Nat) (s : State) : Host.Outcome State Fault Refusal :=
  .next
    (match dirtyDue s core line with
     | some l =>
       (writeBack s l.hive l).modCore core (fun c => { c with
         l1 := c.l1.map (fun x => if x.line == line then { x with dirty := 0 } else x) })
     | none => s)

end Sys2Proof.Machine
end

