-- ==== Sys2Proof/Machine/ScalarFloat.lean ====
section
/-! DEFINITION. The scalar floating-point instructions, OP 0x08 (spec/12 R277, spec/14 R317, R336 to R353). -/

namespace Sys2Proof.Machine

/-- The precision P in Q[4:3], or a float type code of FCVT (R277). -/
def precision (p : Nat) : ElemType :=
  match p with
  | 0 => .f32
  | 1 => .f64
  | 2 => .f16
  | _ => .bf16

/-- P of an instruction. -/
def precOf (o : GFmt) : ElemType := precision (bits o.q.toNat 4 3)

/-- Q[7:5]: the condition of FCMP, the other type of FCVT. -/
def topField (o : GFmt) : Nat := bits o.q.toNat 7 5

/-- The mode of a rounding instruction, resolved as it executes (R317). -/
def modeOf (o : GFmt) (t : Strand) : Nat := roundMode (o.q.extractLsb' 0 3) t.drm

/-- A float operand: the low bits of a register. -/
def floatArg (o : GFmt) (t : Strand) (r : BitVec 5) : FVal :=
  fdecode (floatFmt (precOf o)) ((t.greg r).toNat % 2 ^ (precOf o).width)

/-- A result and its flags, written (R317). -/
def floatDone (s : State) (rd : BitVec 5) (r : FRes) : State :=
  s.modMe (fun t => ((t.setGreg rd (BitVec.ofNat 64 r.1)).orFlags r.2).nextPc)

/-- An instruction that rounds: state_0 decides under RSR and steps once (R153, R317). -/
def rounding (o : GFmt) (s : State) (f : FloatFmt → Nat → Nat → FRes) : Host.Outcome State Fault Refusal :=
  scalar s (.ok ((floatDone s o.gd (f (floatFmt (precOf o)) (modeOf o s.me) (s.me.gen 0))).modMe Strand.stepScalar))

def execFadd (o : GFmt) (s : State) :=
  rounding o s (fun f mode q => fadd f mode q (floatArg o s.me o.ga) (floatArg o s.me o.gb))

def execFsub (o : GFmt) (s : State) :=
  rounding o s (fun f mode q => fsub f mode q (floatArg o s.me o.ga) (floatArg o s.me o.gb))

def execFmul (o : GFmt) (s : State) :=
  rounding o s (fun f mode q => fmul f mode q (floatArg o s.me o.ga) (floatArg o s.me o.gb))

def execFdiv (o : GFmt) (s : State) :=
  rounding o s (fun f mode q => fdiv f mode q (floatArg o s.me o.ga) (floatArg o s.me o.gb))

def execFsqrt (o : GFmt) (s : State) :=
  rounding o s (fun f mode q => fsqrt f mode q (floatArg o s.me o.ga))

def execFma (o : GFmt) (s : State) :=
  rounding o s (fun f mode q => ffma f mode q (floatArg o s.me o.ga) (floatArg o s.me o.gb) (floatArg o s.me o.gc))

/-- FMIN (R349). -/
def execFmin (o : GFmt) (s : State) :=
  scalar s (.ok (floatDone s o.gd (fminmax (floatFmt (precOf o)) false
    ((s.me.greg o.ga).toNat % 2 ^ (precOf o).width) ((s.me.greg o.gb).toNat % 2 ^ (precOf o).width))))

/-- FMAX (R348). -/
def execFmax (o : GFmt) (s : State) :=
  scalar s (.ok (floatDone s o.gd (fminmax (floatFmt (precOf o)) true
    ((s.me.greg o.ga).toNat % 2 ^ (precOf o).width) ((s.me.greg o.gb).toNat % 2 ^ (precOf o).width))))

/-- FCMP (R340). -/
def execFcmp (o : GFmt) (s : State) :=
  let r := fcompare (topField o) (floatArg o s.me o.ga) (floatArg o s.me o.gb)
  scalar s (.ok (floatDone s o.gd (r.1.toNat, r.2)))

/-- A float to N64, which is no element type (R277, Table 6.5). -/
def floatToN64 (st : ElemType) (x mode q : Nat) : FRes :=
  match fdecode (floatFmt st) (x % 2 ^ st.width) with
  | .nan _ => (0, flagNV)
  | .inf s => (if s then 0 else 2 ^ 64 - 1, flagNV)
  | .fin s man exp =>
    let (v, inexact) := roundInt mode q s man exp
    if v < 0 then (0, flagNV)
    else if v < (2 ^ 64 : Nat) then (v.toNat, if inexact then flagNX else 0)
    else (2 ^ 64 - 1, flagNV)

/-- FCVT's conversion: DIR 0 converts from the other type to P, DIR 1 from P to it (R277, R342). -/
def fcvt (p : ElemType) (other : Nat) (dir : Bool) (x mode q : Nat) : FRes :=
  match other, dir with
  | 4, false => convert .i64 p x mode q false
  | 4, true => convert p .i64 x mode q false
  | 5, false => fround (floatFmt p) mode q false false x 0 false
  | 5, true => floatToN64 p x mode q
  | _, false => convert (precision other) p x mode q false
  | _, true => convert p (precision other) x mode q false

/-- FCVT (R342). -/
def execFcvt (o : GFmt) (s : State) :=
  rounding o s (fun _ mode q => fcvt (precOf o) (topField o) (o.gc.getLsbD 0) (s.me.greg o.ga).toNat mode q)

/-- FCLASS (R339): no flags. -/
def execFclass (o : GFmt) (s : State) :=
  scalar s (.ok (s.finish o.gd (BitVec.ofNat 64 (fclass (floatFmt (precOf o)) ((s.me.greg o.ga).toNat % 2 ^ (precOf o).width)))))

end Sys2Proof.Machine
end

