-- ==== Sys2Proof/Machine/ScalarMem.lean ====
section
/-! DEFINITION. Scalar loads, stores, atomics, full-empty accesses, WAITW and fences (spec/05 R125 to R136, spec/14
R322, spec/15 R367 to R369, R391 to R393, spec/17 R445). -/

namespace Sys2Proof.Machine

/-- ga + SignExt(disp, 28) (R279). -/
def mAddr (t : Strand) (o : MFmt) : Word := t.greg o.ga + o.disp.signExtend 64

/-- Bytes of a load (Table 15.2). -/
def loadBytes : LoadSize → Nat
  | .b | .bu => 1
  | .h | .hu => 2
  | .w | .wu => 4
  | .d => 8

/-- What a load writes to gd (Table 15.2). -/
def loadValue : LoadSize → Nat → Word
  | .b, x => word (toSigned 8 x)
  | .h, x => word (toSigned 16 x)
  | .w, x => word (toSigned 32 x)
  | _, x => BitVec.ofNat 64 x

def storeBytes : StoreSize → Nat
  | .b => 1
  | .h => 2
  | .w => 4
  | .d => 8

/-- LD (R367): a plain load. -/
def execLd (sz : LoadSize) (o : MFmt) (s : State) : Host.Outcome State Fault Refusal :=
  scalar s (do
    need (o.ord == 0) (combo (.ld sz o))
    let (x, s) ← loadW s s.who (mAddr s.me o) (loadBytes sz) false
    return s.finish o.gd (loadValue sz x))

/-- LDA (R367, R125): an acquire; at HIVE scope or wider it reads at the coherence point and then clears the L1. -/
def execLda (sz : LoadSize) (o : MFmt) (s : State) : Host.Outcome State Fault Refusal :=
  scalar s (do
    need (o.ord == 1) (combo (.lda sz o))
    let (x, s) ← loadW s s.who (mAddr s.me o) (loadBytes sz) (o.scope != 0)
    return (acquireL1 s s.who o.scope.toNat).finish o.gd (loadValue sz x))

/-- ST (R391): a plain store. -/
def execSt (sz : StoreSize) (o : MFmt) (s : State) : Host.Outcome State Fault Refusal :=
  scalar s (do
    need (o.ord == 0) (combo (.st sz o))
    let n := storeBytes sz
    let s ← storeSt s s.who (mAddr s.me o) n ((s.me.greg o.gb).toNat % 2 ^ (8 * n)) false
    return s.advance)

/-- STL (R391, R125): a release; at HIVE scope or wider the core's dirty lines go first and the store is performed at
the coherence point. -/
def execStl (sz : StoreSize) (o : MFmt) (s : State) : Host.Outcome State Fault Refusal :=
  scalar s (do
    need (o.ord == 2) (combo (.stl sz o))
    let n := storeBytes sz
    let t ← storeSt (releaseL1 s s.who o.scope.toNat) s.who (mAddr s.me o) n ((s.me.greg o.gb).toNat % 2 ^ (8 * n))
      (o.scope != 0)
    return t.advance)

/-- AMO (R322, R323). -/
def execAmo (op : AmoOp) (wide : Bool) (o : MFmt) (s : State) : Host.Outcome State Fault Refusal :=
  scalar s (do
    let n := if wide then 8 else 4
    let t := if o.ord.getLsbD 1 then releaseL1 s s.who o.scope.toNat else s
    let (old, t) ← amoW t s.who (mAddr s.me o) op n (s.me.greg o.gb).toNat (s.me.greg o.gd).toNat
    let t := if o.ord.getLsbD 0 then acquireL1 t s.who o.scope.toNat else t
    return t.finish o.gd (word (toSigned (8 * n) old)))

/-- LDFE (R369, R108): blocks until its granule is full, then reads it; with .CLR it empties it in the same step. -/
def execLdfe (wide clr : Bool) (o : MFmt) (s : State) : Host.Outcome State Fault Refusal :=
  scalar s (do
    let n := if wide then 8 else 4
    let (c, off) ← locateFull s s.who (mAddr s.me o) n .read
    if (s.core c).isFull (off / 16) then
      let x := Mem.read (s.core c).scratch off n
      let s := if clr then setEmpty s c (off / 16) else s
      return s.finish o.gd (word (toSigned (8 * n) x))
    else return s.block (.ldfe wide clr o))

/-- A granule became full: the LDFE that a strand is Blocked in runs again (R108). -/
def execLdfeWake (st : Nat) (s : State) : Host.Outcome State Fault Refusal :=
  wake s st (fun i => match i with | .ldfe _ _ _ => true | _ => false)
    (fun i => match i with | .ldfe wide clr o => execLdfe wide clr o | _ => .next)

/-- STFE (R393, R108): stores and sets its granule full in one step; it never waits. -/
def execStfe (wide : Bool) (o : MFmt) (s : State) : Host.Outcome State Fault Refusal :=
  scalar s (do
    let n := if wide then 8 else 4
    let (c, off) ← locateFull s s.who (mAddr s.me o) n .write
    return (setFull (scratchWrite s c off n ((s.me.greg o.gb).toNat % 2 ^ (8 * n))) c (off / 16)).advance)

/-- WAITW (R445): reads at the coherence point; ends with an acquire at SYSTEM scope once the word differs from gb. -/
def execWaitw (o : MFmt) (s : State) : Host.Outcome State Fault Refusal :=
  scalar s (do
    let (x, t) ← loadW s s.who (mAddr s.me o) 8 true
    if BitVec.ofNat 64 x ≠ s.me.greg o.gb then
      return (acquireL1 t s.who 3).finish o.gd (BitVec.ofNat 64 x)
    else return t.block (.waitw o))

/-- A write to the awaited word woke WAITW for a new read (R445). -/
def execWaitwWake (st : Nat) (s : State) : Host.Outcome State Fault Refusal :=
  wake s st (fun i => match i with | .waitw _ => true | _ => false)
    (fun i => match i with | .waitw o => execWaitw o | _ => .next)

/-- A fence that has nothing left to wait for: at HIVE scope or wider the core's L1 is written back and invalidated. -/
def fenceDone (s : State) (scope : BitVec 2) : State := (acquireL1 s s.who scope.toNat).advance

/-- FENCE.SV (R127): every S access is performed as it issues, so it never waits. -/
def execFenceSv (o : MFmt) (s : State) : Host.Outcome State Fault Refusal := scalar s (.ok (fenceDone s o.scope))

/-- FENCE.VS (R127): stalls until every earlier V access is performed. -/
def execFenceVs (o : MFmt) (s : State) : Host.Outcome State Fault Refusal :=
  scalarWait s (if s.quietV then some (.ok (fenceDone s o.scope)) else none)

/-- An entry with a barrier after it; of two that stand there the wider scope covers both (R127). -/
def QEntry.barred (e : QEntry) (scope : BitVec 2) : QEntry :=
  { e with fence := some (e.fence.elim scope (fun c => if c.toNat < scope.toNat then scope else c)) }

/-- FENCE.VV (R127): does not stall; a barrier stands after the youngest queued instruction. -/
def execFenceVv (o : MFmt) (s : State) : Host.Outcome State Fault Refusal :=
  scalar s (.ok
    (if s.quietV then fenceDone s o.scope
     else s.modMe (fun t => { t with
       queue := t.queue.modify (t.queue.length - 1) (fun e => e.barred o.scope), pc := t.pc + 8 })))

/-- FENCE.ALL (R127): stalls until every earlier S and V access is performed. -/
def execFenceAll (o : MFmt) (s : State) : Host.Outcome State Fault Refusal :=
  scalarWait s (if s.quietV then some (.ok (fenceDone s o.scope)) else none)

end Sys2Proof.Machine
end

