-- ==== Sys2Proof/Machine/Vector.lean ====
section
/-! DEFINITION. The vector, stream, push and tile instructions as the front end meets them: each enters its strand's queue
with its operands captured (spec/02 R42 to R44); Checks says when it traps there, and the files of its family what it
does at the head. -/

namespace Sys2Proof.Machine

/-- VADD (R409): Adds vector elements. -/
def execVadd (o : VFmt) (s : State) : Host.Outcome State Fault Refusal := enqueue (.vadd o) s

/-- VSUB (R434): Subtracts vector elements. -/
def execVsub (o : VFmt) (s : State) : Host.Outcome State Fault Refusal := enqueue (.vsub o) s

/-- VMUL (R434): Multiplies vector elements. -/
def execVmul (o : VFmt) (s : State) : Host.Outcome State Fault Refusal := enqueue (.vmul o) s

/-- VMULH (R434): Writes the high half of integer element products. -/
def execVmulh (o : VFmt) (s : State) : Host.Outcome State Fault Refusal := enqueue (.vmulh o) s

/-- VDIV (R420): Divides vector elements. -/
def execVdiv (o : VFmt) (s : State) : Host.Outcome State Fault Refusal := enqueue (.vdiv o) s

/-- VMIN (R434): Writes the smaller of each pair of elements. -/
def execVmin (o : VFmt) (s : State) : Host.Outcome State Fault Refusal := enqueue (.vmin o) s

/-- VMAX (R434): Writes the larger of each pair of elements. -/
def execVmax (o : VFmt) (s : State) : Host.Outcome State Fault Refusal := enqueue (.vmax o) s

/-- VABS (R408): Writes the absolute value of each element. -/
def execVabs (o : VFmt) (s : State) : Host.Outcome State Fault Refusal := enqueue (.vabs o) s

/-- VNEG (R434): Negates each element. -/
def execVneg (o : VFmt) (s : State) : Host.Outcome State Fault Refusal := enqueue (.vneg o) s

/-- VAND (R413): ANDs integer elements. -/
def execVand (o : VFmt) (s : State) : Host.Outcome State Fault Refusal := enqueue (.vand o) s

/-- VOR (R434): ORs integer elements. -/
def execVor (o : VFmt) (s : State) : Host.Outcome State Fault Refusal := enqueue (.vor o) s

/-- VXOR (R434): XORs integer elements. -/
def execVxor (o : VFmt) (s : State) : Host.Outcome State Fault Refusal := enqueue (.vxor o) s

/-- VSHL (R434): Shifts integer elements left. -/
def execVshl (o : VFmt) (s : State) : Host.Outcome State Fault Refusal := enqueue (.vshl o) s

/-- VSHR (R434): Shifts integer element patterns right with zero fill. -/
def execVshr (o : VFmt) (s : State) : Host.Outcome State Fault Refusal := enqueue (.vshr o) s

/-- VSAR (R434): Shifts integer element patterns right copying the top bit. -/
def execVsar (o : VFmt) (s : State) : Host.Outcome State Fault Refusal := enqueue (.vsar o) s

/-- VCLAMP (R416): Clamps each element between a low and a high bound. -/
def execVclamp (o : VFmt) (s : State) : Host.Outcome State Fault Refusal := enqueue (.vclamp o) s

/-- VFMA (R424): Computes a times b plus c per element with one rounding. -/
def execVfma (o : VFmt) (s : State) : Host.Outcome State Fault Refusal := enqueue (.vfma o) s

/-- VSQRT (R434): Takes the square root of each float element. -/
def execVsqrt (o : VFmt) (s : State) : Host.Outcome State Fault Refusal := enqueue (.vsqrt o) s

/-- VRCP (R434): Takes the reciprocal of each float element. -/
def execVrcp (o : VFmt) (s : State) : Host.Outcome State Fault Refusal := enqueue (.vrcp o) s

/-- VRSQ (R434): Takes the reciprocal square root of each float element. -/
def execVrsq (o : VFmt) (s : State) : Host.Outcome State Fault Refusal := enqueue (.vrsq o) s

/-- VEXP2 (R421): Takes 2 to the power of each float element. -/
def execVexp2 (o : VFmt) (s : State) : Host.Outcome State Fault Refusal := enqueue (.vexp2 o) s

/-- VLOG2 (R433): Takes the base-2 logarithm of each float element. -/
def execVlog2 (o : VFmt) (s : State) : Host.Outcome State Fault Refusal := enqueue (.vlog2 o) s

/-- VTANH (R434): Takes the hyperbolic tangent of each float element. -/
def execVtanh (o : VFmt) (s : State) : Host.Outcome State Fault Refusal := enqueue (.vtanh o) s

/-- VCMP (R417): Compares elements under a condition into a mask register. -/
def execVcmp (c : Cond) (o : VFmt) (s : State) : Host.Outcome State Fault Refusal := enqueue (.vcmp c o) s

/-- VSEL (R440): Chooses elements from va or vb by a selector mask. -/
def execVsel (o : VFmt) (s : State) : Host.Outcome State Fault Refusal := enqueue (.vsel o) s

/-- VCVT (R156): Converts elements between types. -/
def execVcvt (o : VFmt) (s : State) : Host.Outcome State Fault Refusal := enqueue (.vcvt o) s

/-- VRED (R438): Reduces governed elements in ascending order to one value. -/
def execVred (o : VFmt) (s : State) : Host.Outcome State Fault Refusal := enqueue (.vred o) s

/-- VSCAN (R439): Writes the running reduction of the elements. -/
def execVscan (o : VFmt) (s : State) : Host.Outcome State Fault Refusal := enqueue (.vscan o) s

/-- VCOMP (R418): Packs the governed elements together. -/
def execVcomp (o : VFmt) (s : State) : Host.Outcome State Fault Refusal := enqueue (.vcomp o) s

/-- VEXPD (R422): Spreads consecutive source elements to the governed places. -/
def execVexpd (o : VFmt) (s : State) : Host.Outcome State Fault Refusal := enqueue (.vexpd o) s

/-- VSLIDE (R441): Moves elements up or down by a distance. -/
def execVslide (o : VFmt) (s : State) : Host.Outcome State Fault Refusal := enqueue (.vslide o) s

/-- VPERM (R435): Gathers elements of a register by index. -/
def execVperm (o : VFmt) (s : State) : Host.Outcome State Fault Refusal := enqueue (.vperm o) s

/-- VHAD (R168): Performs one Hadamard butterfly stage. -/
def execVhad (o : VFmt) (s : State) : Host.Outcome State Fault Refusal := enqueue (.vhad o) s

/-- VBCAST (R415): Writes one general-register value to every element. -/
def execVbcast (o : VFmt) (s : State) : Host.Outcome State Fault Refusal := enqueue (.vbcast o) s

/-- VINDEX (R426): Writes each element's index. -/
def execVindex (o : VFmt) (s : State) : Host.Outcome State Fault Refusal := enqueue (.vindex o) s

/-- VEXT (R423): Reads one element into a general register. -/
def execVext (o : VFmt) (s : State) : Host.Outcome State Fault Refusal := enqueue (.vext o) s

/-- VINS (R427): Writes one element from a general register. -/
def execVins (o : VFmt) (s : State) : Host.Outcome State Fault Refusal := enqueue (.vins o) s

/-- VZIP (R444): Interleaves two registers. -/
def execVzip (o : VFmt) (s : State) : Host.Outcome State Fault Refusal := enqueue (.vzip o) s

/-- VUNZIP (R444): De-interleaves two registers. -/
def execVunzip (o : VFmt) (s : State) : Host.Outcome State Fault Refusal := enqueue (.vunzip o) s

/-- MKAND (R372): ANDs mask registers bit by bit. -/
def execMkand (o : VFmt) (s : State) : Host.Outcome State Fault Refusal := enqueue (.mkand o) s

/-- MKOR (R372): ORs mask registers bit by bit. -/
def execMkor (o : VFmt) (s : State) : Host.Outcome State Fault Refusal := enqueue (.mkor o) s

/-- MKXOR (R372): XORs mask registers bit by bit. -/
def execMkxor (o : VFmt) (s : State) : Host.Outcome State Fault Refusal := enqueue (.mkxor o) s

/-- MKNOT (R372): Inverts a mask register bit by bit. -/
def execMknot (o : VFmt) (s : State) : Host.Outcome State Fault Refusal := enqueue (.mknot o) s

/-- MKPOPC (R373): Counts governed set mask bits into a general register. -/
def execMkpopc (o : VFmt) (s : State) : Host.Outcome State Fault Refusal := enqueue (.mkpopc o) s

/-- MKFIRST (R373): Writes the index of the first governed set mask bit. -/
def execMkfirst (o : VFmt) (s : State) : Host.Outcome State Fault Refusal := enqueue (.mkfirst o) s

/-- MKTEST (R373): Writes 1 when any governed mask bit is set. -/
def execMktest (o : VFmt) (s : State) : Host.Outcome State Fault Refusal := enqueue (.mktest o) s

/-- MKSET (R374): Sets or clears governed mask bits. -/
def execMkset (o : VFmt) (s : State) : Host.Outcome State Fault Refusal := enqueue (.mkset o) s

/-- VLD (R428): Loads elements from a stream and advances P. -/
def execVld (o : VMFmt) (s : State) : Host.Outcome State Fault Refusal := enqueue (.vld o) s

/-- VST (R442): Stores elements to a stream and advances P. -/
def execVst (o : VMFmt) (s : State) : Host.Outcome State Fault Refusal := enqueue (.vst o) s

/-- VLDX (R432): Gathers elements from indexed addresses. -/
def execVldx (o : VMFmt) (s : State) : Host.Outcome State Fault Refusal := enqueue (.vldx o) s

/-- VSTX (R443): Scatters elements to indexed addresses. -/
def execVstx (o : VMFmt) (s : State) : Host.Outcome State Fault Refusal := enqueue (.vstx o) s

/-- VAMO (R411): Performs atomic read-modify-writes at indexed addresses. -/
def execVamo (o : VMFmt) (s : State) : Host.Outcome State Fault Refusal := enqueue (.vamo o) s

/-- VLDFE (R430): Waits at the queue head for full granules, then reads them and optionally clears them. -/
def execVldfe (o : VMFmt) (s : State) : Host.Outcome State Fault Refusal := enqueue (.vldfe o) s

/-- VPF (R436): Prefetches a stream's lines and advances P. -/
def execVpf (o : VMFmt) (s : State) : Host.Outcome State Fault Refusal := enqueue (.vpf o) s

/-- SBIND (R383): Reads a binding record and binds a stream register with P 0. -/
def execSbind (o : IFmt) (s : State) : Host.Outcome State Fault Refusal := enqueue (.sbind o) s

/-- SSET (R390): Sets a stream's position. -/
def execSset (o : IFmt) (s : State) : Host.Outcome State Fault Refusal := enqueue (.sset o) s

/-- SGET (R386): Reads a stream's position into gd. -/
def execSget (o : IFmt) (s : State) : Host.Outcome State Fault Refusal := enqueue (.sget o) s

/-- SADV (R381): Advances a stream's position. -/
def execSadv (o : IFmt) (s : State) : Host.Outcome State Fault Refusal := enqueue (.sadv o) s

/-- VPUSH (R245): Pushes a register value to another strand of the hive. -/
def execVpush (o : XFmt) (s : State) : Host.Outcome State Fault Refusal := enqueue (.vpush o) s

/-- VWAITF (R245): Waits at the queue head for a pushed value. -/
def execVwaitf (o : XFmt) (s : State) : Host.Outcome State Fault Refusal := enqueue (.vwaitf o) s

/-- TMODE (R178): Sets the MVL in force, bounded by TGRANT. -/
def execTmode (o : IFmt) (s : State) : Host.Outcome State Fault Refusal := enqueue (.tmode o) s

/-- TOPA (R397): Accumulates outer products of two registers into a tile. -/
def execTopa (o : TFmt) (s : State) : Host.Outcome State Fault Refusal := enqueue (.topa o) s

/-- TOPS (R399): Subtracts outer products of two registers from a tile. -/
def execTops (o : TFmt) (s : State) : Host.Outcome State Fault Refusal := enqueue (.tops o) s

/-- TZERO (R405): Writes zero to governed tile elements and clears the TSAT bit. -/
def execTzero (o : TFmt) (s : State) : Host.Outcome State Fault Refusal := enqueue (.tzero o) s

/-- TRD (R401): Reads tile elements into a vector register. -/
def execTrd (o : TFmt) (s : State) : Host.Outcome State Fault Refusal := enqueue (.trd o) s

/-- TWR (R404): Writes vector elements into a tile. -/
def execTwr (o : TFmt) (s : State) : Host.Outcome State Fault Refusal := enqueue (.twr o) s

/-- TSCL (R403): Scales tile elements by row and column factors in place. -/
def execTscl (o : TFmt) (s : State) : Host.Outcome State Fault Refusal := enqueue (.tscl o) s

end Sys2Proof.Machine
end

