-- ==== Sys2Proof/Machine/Dispatch.lean ====
section
/-! DEFINITION. The meaning of each row of the opcode table: one direct call per constructor of Instr. -/

namespace Sys2Proof.Machine

/-- What an instruction or event does (R26, R274). -/
def exec (i : Instr) (s : State) : Host.Outcome State Fault Refusal :=
  match i with
  | .add o => Sys2Proof.Machine.execAdd o s
  | .sub o => Sys2Proof.Machine.execSub o s
  | .and o => Sys2Proof.Machine.execAnd o s
  | .or o => Sys2Proof.Machine.execOr o s
  | .xor o => Sys2Proof.Machine.execXor o s
  | .shl o => Sys2Proof.Machine.execShl o s
  | .shr o => Sys2Proof.Machine.execShr o s
  | .sar o => Sys2Proof.Machine.execSar o s
  | .slt o => Sys2Proof.Machine.execSlt o s
  | .sltu o => Sys2Proof.Machine.execSltu o s
  | .min o => Sys2Proof.Machine.execMin o s
  | .max o => Sys2Proof.Machine.execMax o s
  | .minu o => Sys2Proof.Machine.execMinu o s
  | .maxu o => Sys2Proof.Machine.execMaxu o s
  | .sext o => Sys2Proof.Machine.execSext o s
  | .zext o => Sys2Proof.Machine.execZext o s
  | .clz o => Sys2Proof.Machine.execClz o s
  | .ctz o => Sys2Proof.Machine.execCtz o s
  | .popc o => Sys2Proof.Machine.execPopc o s
  | .addi o => Sys2Proof.Machine.execAddi o s
  | .andi o => Sys2Proof.Machine.execAndi o s
  | .ori o => Sys2Proof.Machine.execOri o s
  | .xori o => Sys2Proof.Machine.execXori o s
  | .shli o => Sys2Proof.Machine.execShli o s
  | .shri o => Sys2Proof.Machine.execShri o s
  | .sari o => Sys2Proof.Machine.execSari o s
  | .slti o => Sys2Proof.Machine.execSlti o s
  | .lih o => Sys2Proof.Machine.execLih o s
  | .addpc o => Sys2Proof.Machine.execAddpc o s
  | .mul o => Sys2Proof.Machine.execMul o s
  | .mulh o => Sys2Proof.Machine.execMulh o s
  | .mulhu o => Sys2Proof.Machine.execMulhu o s
  | .div o => Sys2Proof.Machine.execDiv o s
  | .divu o => Sys2Proof.Machine.execDivu o s
  | .rem o => Sys2Proof.Machine.execRem o s
  | .remu o => Sys2Proof.Machine.execRemu o s
  | .fadd o => Sys2Proof.Machine.execFadd o s
  | .fsub o => Sys2Proof.Machine.execFsub o s
  | .fmul o => Sys2Proof.Machine.execFmul o s
  | .fdiv o => Sys2Proof.Machine.execFdiv o s
  | .fsqrt o => Sys2Proof.Machine.execFsqrt o s
  | .fma o => Sys2Proof.Machine.execFma o s
  | .fmin o => Sys2Proof.Machine.execFmin o s
  | .fmax o => Sys2Proof.Machine.execFmax o s
  | .fcmp o => Sys2Proof.Machine.execFcmp o s
  | .fcvt o => Sys2Proof.Machine.execFcvt o s
  | .fclass o => Sys2Proof.Machine.execFclass o s
  | .beq o => Sys2Proof.Machine.execBeq o s
  | .bne o => Sys2Proof.Machine.execBne o s
  | .blt o => Sys2Proof.Machine.execBlt o s
  | .bge o => Sys2Proof.Machine.execBge o s
  | .bltu o => Sys2Proof.Machine.execBltu o s
  | .bgeu o => Sys2Proof.Machine.execBgeu o s
  | .j o => Sys2Proof.Machine.execJ o s
  | .jal o => Sys2Proof.Machine.execJal o s
  | .jalr o => Sys2Proof.Machine.execJalr o s
  | .ld sz o => Sys2Proof.Machine.execLd sz o s
  | .lda sz o => Sys2Proof.Machine.execLda sz o s
  | .st sz o => Sys2Proof.Machine.execSt sz o s
  | .stl sz o => Sys2Proof.Machine.execStl sz o s
  | .amo op wide o => Sys2Proof.Machine.execAmo op wide o s
  | .ldfe wide clr o => Sys2Proof.Machine.execLdfe wide clr o s
  | .ldfeWake st => Sys2Proof.Machine.execLdfeWake st s
  | .stfe wide o => Sys2Proof.Machine.execStfe wide o s
  | .waitw o => Sys2Proof.Machine.execWaitw o s
  | .waitwWake st => Sys2Proof.Machine.execWaitwWake st s
  | .fenceSv o => Sys2Proof.Machine.execFenceSv o s
  | .fenceVs o => Sys2Proof.Machine.execFenceVs o s
  | .fenceVv o => Sys2Proof.Machine.execFenceVv o s
  | .fenceAll o => Sys2Proof.Machine.execFenceAll o s
  | .setvl o => Sys2Proof.Machine.execSetvl o s
  | .ctlrd o => Sys2Proof.Machine.execCtlrd o s
  | .ctlwrFpctl o => Sys2Proof.Machine.execCtlwrFpctl o s
  | .ctlwrSeed o => Sys2Proof.Machine.execCtlwrSeed o s
  | .ctlwrTrapvec o => Sys2Proof.Machine.execCtlwrTrapvec o s
  | .ctlwrTblroot o => Sys2Proof.Machine.execCtlwrTblroot o s
  | .ctlwrYieldwin o => Sys2Proof.Machine.execCtlwrYieldwin o s
  | .ctlwrSplit o => Sys2Proof.Machine.execCtlwrSplit o s
  | .ctlwr o => Sys2Proof.Machine.execCtlwr o s
  | .cycrd o => Sys2Proof.Machine.execCycrd o s
  | .cflush o => Sys2Proof.Machine.execCflush o s
  | .ainv o => Sys2Proof.Machine.execAinv o s
  | .tmark o => Sys2Proof.Machine.execTmark o s
  | .trap o => Sys2Proof.Machine.execTrap o s
  | .brk o => Sys2Proof.Machine.execBrk o s
  | .tret o => Sys2Proof.Machine.execTret o s
  | .tretSkip o => Sys2Proof.Machine.execTretSkip o s
  | .nop o => Sys2Proof.Machine.execNop o s
  | .hnew o => Sys2Proof.Machine.execHnew o s
  | .hgiveShares o => Sys2Proof.Machine.execHgiveShares o s
  | .hgiveRing o => Sys2Proof.Machine.execHgiveRing o s
  | .hgiveFabricBindings o => Sys2Proof.Machine.execHgiveFabricBindings o s
  | .hgiveMemory o => Sys2Proof.Machine.execHgiveMemory o s
  | .hgiveBuckets o => Sys2Proof.Machine.execHgiveBuckets o s
  | .htakeShares o => Sys2Proof.Machine.execHtakeShares o s
  | .htakeRing o => Sys2Proof.Machine.execHtakeRing o s
  | .htakeFabricBindings o => Sys2Proof.Machine.execHtakeFabricBindings o s
  | .htakeMemory o => Sys2Proof.Machine.execHtakeMemory o s
  | .htakeBuckets o => Sys2Proof.Machine.execHtakeBuckets o s
  | .hkill o => Sys2Proof.Machine.execHkill o s
  | .hstat o => Sys2Proof.Machine.execHstat o s
  | .hretReissue o => Sys2Proof.Machine.execHretReissue o s
  | .hretSkip o => Sys2Proof.Machine.execHretSkip o s
  | .hretDeliver o => Sys2Proof.Machine.execHretDeliver o s
  | .hretForward o => Sys2Proof.Machine.execHretForward o s
  | .hretPlace o => Sys2Proof.Machine.execHretPlace o s
  | .spawn o => Sys2Proof.Machine.execSpawn o s
  | .glaunch o => Sys2Proof.Machine.execGlaunch o s
  | .squit o => Sys2Proof.Machine.execSquit o s
  | .squitComplete st => Sys2Proof.Machine.execSquitComplete st s
  | .gbar o => Sys2Proof.Machine.execGbar o s
  | .gbarComplete hive gang => Sys2Proof.Machine.execGbarComplete hive gang s
  | .gwait o => Sys2Proof.Machine.execGwait o s
  | .gwaitComplete st => Sys2Proof.Machine.execGwaitComplete st s
  | .yield o => Sys2Proof.Machine.execYield o s
  | .vadd o => Sys2Proof.Machine.execVadd o s
  | .vsub o => Sys2Proof.Machine.execVsub o s
  | .vmul o => Sys2Proof.Machine.execVmul o s
  | .vmulh o => Sys2Proof.Machine.execVmulh o s
  | .vdiv o => Sys2Proof.Machine.execVdiv o s
  | .vmin o => Sys2Proof.Machine.execVmin o s
  | .vmax o => Sys2Proof.Machine.execVmax o s
  | .vabs o => Sys2Proof.Machine.execVabs o s
  | .vneg o => Sys2Proof.Machine.execVneg o s
  | .vand o => Sys2Proof.Machine.execVand o s
  | .vor o => Sys2Proof.Machine.execVor o s
  | .vxor o => Sys2Proof.Machine.execVxor o s
  | .vshl o => Sys2Proof.Machine.execVshl o s
  | .vshr o => Sys2Proof.Machine.execVshr o s
  | .vsar o => Sys2Proof.Machine.execVsar o s
  | .vclamp o => Sys2Proof.Machine.execVclamp o s
  | .vfma o => Sys2Proof.Machine.execVfma o s
  | .vsqrt o => Sys2Proof.Machine.execVsqrt o s
  | .vrcp o => Sys2Proof.Machine.execVrcp o s
  | .vrsq o => Sys2Proof.Machine.execVrsq o s
  | .vexp2 o => Sys2Proof.Machine.execVexp2 o s
  | .vlog2 o => Sys2Proof.Machine.execVlog2 o s
  | .vtanh o => Sys2Proof.Machine.execVtanh o s
  | .vcmp c o => Sys2Proof.Machine.execVcmp c o s
  | .vsel o => Sys2Proof.Machine.execVsel o s
  | .vcvt o => Sys2Proof.Machine.execVcvt o s
  | .vred o => Sys2Proof.Machine.execVred o s
  | .vscan o => Sys2Proof.Machine.execVscan o s
  | .vcomp o => Sys2Proof.Machine.execVcomp o s
  | .vexpd o => Sys2Proof.Machine.execVexpd o s
  | .vslide o => Sys2Proof.Machine.execVslide o s
  | .vperm o => Sys2Proof.Machine.execVperm o s
  | .vhad o => Sys2Proof.Machine.execVhad o s
  | .vbcast o => Sys2Proof.Machine.execVbcast o s
  | .vindex o => Sys2Proof.Machine.execVindex o s
  | .vext o => Sys2Proof.Machine.execVext o s
  | .vins o => Sys2Proof.Machine.execVins o s
  | .vzip o => Sys2Proof.Machine.execVzip o s
  | .vunzip o => Sys2Proof.Machine.execVunzip o s
  | .mkand o => Sys2Proof.Machine.execMkand o s
  | .mkor o => Sys2Proof.Machine.execMkor o s
  | .mkxor o => Sys2Proof.Machine.execMkxor o s
  | .mknot o => Sys2Proof.Machine.execMknot o s
  | .mkpopc o => Sys2Proof.Machine.execMkpopc o s
  | .mkfirst o => Sys2Proof.Machine.execMkfirst o s
  | .mktest o => Sys2Proof.Machine.execMktest o s
  | .mkset o => Sys2Proof.Machine.execMkset o s
  | .vld o => Sys2Proof.Machine.execVld o s
  | .vst o => Sys2Proof.Machine.execVst o s
  | .vldx o => Sys2Proof.Machine.execVldx o s
  | .vstx o => Sys2Proof.Machine.execVstx o s
  | .vamo o => Sys2Proof.Machine.execVamo o s
  | .vldfe o => Sys2Proof.Machine.execVldfe o s
  | .vldfeWake st => Sys2Proof.Machine.execVldfeWake st s
  | .vpf o => Sys2Proof.Machine.execVpf o s
  | .sbind o => Sys2Proof.Machine.execSbind o s
  | .sset o => Sys2Proof.Machine.execSset o s
  | .sget o => Sys2Proof.Machine.execSget o s
  | .sadv o => Sys2Proof.Machine.execSadv o s
  | .vpush o => Sys2Proof.Machine.execVpush o s
  | .vpushTransfer st => Sys2Proof.Machine.execVpushTransfer st s
  | .vwaitf o => Sys2Proof.Machine.execVwaitf o s
  | .vwaitfFill st => Sys2Proof.Machine.execVwaitfFill st s
  | .tmode o => Sys2Proof.Machine.execTmode o s
  | .topa o => Sys2Proof.Machine.execTopa o s
  | .tops o => Sys2Proof.Machine.execTops o s
  | .tzero o => Sys2Proof.Machine.execTzero o s
  | .trd o => Sys2Proof.Machine.execTrd o s
  | .twr o => Sys2Proof.Machine.execTwr o s
  | .tscl o => Sys2Proof.Machine.execTscl o s
  | .fbind o => Sys2Proof.Machine.execFbind o s
  | .ffree o => Sys2Proof.Machine.execFfree o s
  | .fx slot o => Sys2Proof.Machine.execFx slot o s
  | .fcfg o => Sys2Proof.Machine.execFcfg o s
  | .fdrain o => Sys2Proof.Machine.execFdrain o s
  | .fdrainComplete st => Sys2Proof.Machine.execFdrainComplete st s
  | .fstat o => Sys2Proof.Machine.execFstat o s
  | .fctxLoad o => Sys2Proof.Machine.execFctxLoad o s
  | .fctxPin o => Sys2Proof.Machine.execFctxPin o s
  | .fctxUnpin o => Sys2Proof.Machine.execFctxUnpin o s
  | .fctxEvict o => Sys2Proof.Machine.execFctxEvict o s
  | .fabricContextLoad st slot => Sys2Proof.Machine.execFabricContextLoad st slot s
  | .combContextServe core lg => Sys2Proof.Machine.execCombContextServe core lg s
  | .fabricStall core lg ctx => Sys2Proof.Machine.execFabricStall core lg ctx s
  | .coalescingBufferFlush core node => Sys2Proof.Machine.execCoalescingBufferFlush core node s
  | .wgcfg o => Sys2Proof.Machine.execWgcfg o s
  | .wgcfgClose o => Sys2Proof.Machine.execWgcfgClose o s
  | .wgcfgCloseComplete st => Sys2Proof.Machine.execWgcfgCloseComplete st s
  | .wgpair o => Sys2Proof.Machine.execWgpair o s
  | .wginj o => Sys2Proof.Machine.execWginj o s
  | .wgwait o => Sys2Proof.Machine.execWgwait o s
  | .wgwaitWake st => Sys2Proof.Machine.execWgwaitWake st s
  | .wgdrain o => Sys2Proof.Machine.execWgdrain o s
  | .wgdrainComplete st => Sys2Proof.Machine.execWgdrainComplete st s
  | .wgstat o => Sys2Proof.Machine.execWgstat o s
  | .wgend o => Sys2Proof.Machine.execWgend o s
  | .ringBeat ring => Sys2Proof.Machine.execRingBeat ring s
  | .ringStranded ring session => Sys2Proof.Machine.execRingStranded ring session s
  | .ringStuck ring session => Sys2Proof.Machine.execRingStuck ring session s
  | .xcopy o => Sys2Proof.Machine.execXcopy o s
  | .xfill o => Sys2Proof.Machine.execXfill o s
  | .xwait o => Sys2Proof.Machine.execXwait o s
  | .xwaitWake st => Sys2Proof.Machine.execXwaitWake st s
  | .xztab o => Sys2Proof.Machine.execXztab o s
  | .xzenc o => Sys2Proof.Machine.execXzenc o s
  | .xseal o => Sys2Proof.Machine.execXseal o s
  | .engineCommandStart cmd => Sys2Proof.Machine.execEngineCommandStart cmd s
  | .copyChunk cmd => Sys2Proof.Machine.execCopyChunk cmd s
  | .codecBlock cmd => Sys2Proof.Machine.execCodecBlock cmd s
  | .xztabInstall cmd => Sys2Proof.Machine.execXztabInstall cmd s
  | .sealStamp cmd => Sys2Proof.Machine.execSealStamp cmd s
  | .commandCompletion cmd => Sys2Proof.Machine.execCommandCompletion cmd s
  | .strandPlacement core lg => Sys2Proof.Machine.execStrandPlacement core lg s
  | .queueHeadTagAllocation st => Sys2Proof.Machine.execQueueHeadTagAllocation st s
  | .microOperationIssue core lg => Sys2Proof.Machine.execMicroOperationIssue core lg s
  | .egProduced st => Sys2Proof.Machine.execEgProduced st s
  | .matrixUnitTake core => Sys2Proof.Machine.execMatrixUnitTake core s
  | .matrixUnitLeave core => Sys2Proof.Machine.execMatrixUnitLeave core s
  | .pageWalkComplete die => Sys2Proof.Machine.execPageWalkComplete die s
  | .llcRequestAdmit slice => Sys2Proof.Machine.execLlcRequestAdmit slice s
  | .bucketRefill slice => Sys2Proof.Machine.execBucketRefill slice s
  | .l1DirtyTimeout core line => Sys2Proof.Machine.execL1DirtyTimeout core line s
  | .trapDelivery st => Sys2Proof.Machine.execTrapDelivery st s
  | .yieldwinExpiry st => Sys2Proof.Machine.execYieldwinExpiry st s
  | .fullSave st => Sys2Proof.Machine.execFullSave st s
  | .resumption st => Sys2Proof.Machine.execResumption st s
  | .machineCheck part info val => Sys2Proof.Machine.execMachineCheck part info val s
  | .llcTagParityError slice => Sys2Proof.Machine.execLlcTagParityError slice s
  | .correctedError part info => Sys2Proof.Machine.execCorrectedError part info s
  | .scrub => Sys2Proof.Machine.execScrub s
  | .hostAccess write pa data => Sys2Proof.Machine.execHostAccess write pa data s
  | .remoteAccess kind entry offset => Sys2Proof.Machine.execRemoteAccess kind entry offset s
  | .peerLinkDown port => Sys2Proof.Machine.execPeerLinkDown port s
  | .powerSample m => Sys2Proof.Machine.execPowerSample m s
  | .grantRaise m => Sys2Proof.Machine.execGrantRaise m s
  | .issueDuty m k => Sys2Proof.Machine.execIssueDuty m k s
  | .createRoot => Sys2Proof.Machine.execCreateRoot s
  | .destroyRoot => Sys2Proof.Machine.execDestroyRoot s
  | .bindVf => Sys2Proof.Machine.execBindVf s
  | .unbindVf => Sys2Proof.Machine.execUnbindVf s
  | .sealRange => Sys2Proof.Machine.execSealRange s
  | .unsealRange => Sys2Proof.Machine.execUnsealRange s
  | .peerMap => Sys2Proof.Machine.execPeerMap s
  | .powerCap => Sys2Proof.Machine.execPowerCap s
  | .migrate => Sys2Proof.Machine.execMigrate s
  | .rootHret => Sys2Proof.Machine.execRootHret s
  | .readCounts => Sys2Proof.Machine.execReadCounts s
  | .importEntry => Sys2Proof.Machine.execImportEntry s
  | .powerUp => Sys2Proof.Machine.execPowerUp s
  | .moduleReset => Sys2Proof.Machine.execModuleReset s
  | .go value => Sys2Proof.Machine.execGo value s
  | .bootWindowWrite offset data => Sys2Proof.Machine.execBootWindowWrite offset data s
  | .firmwareImageVerify => Sys2Proof.Machine.execFirmwareImageVerify s
  | .firmwareTrainingComplete reason => Sys2Proof.Machine.execFirmwareTrainingComplete reason s
  | .hostInvalidation pa data => Sys2Proof.Machine.execHostInvalidation pa data s
  | .unknownCodeRequest => Sys2Proof.Machine.execUnknownCodeRequest s

end Sys2Proof.Machine
end

