-- ==== Sys2Proof/Machine/Issue.lean ====
section
/-! DEFINITION. The scalar front end: fetching, which strands are eligible, and whose turn it is (spec/02 R40, R41, spec/04
R99, R100, spec/12 R271, R274, spec/13 R310). -/

namespace Sys2Proof.Machine

/-! Fetch (R99, R100). -/

/-- The word at an arena address as a core's instruction cache or memory holds it.
DEDUCED, unsafe: notes/assumptions/10. -/
def codeWord (s : State) (c pc : Nat) : Word :=
  match (s.core c).icache.find? (fun l => l.1 == pc) with
  | some l => l.2
  | none => BitVec.ofNat 64 (Mem.read s.mem pc 8)

/-- The fetched word kept by the core's instruction cache. The first word of a line is charged to the issuing strand's hive as the
line's fill (R110). -/
def keepCode (s : State) (c pc : Nat) : State :=
  match (s.core c).icache.find? (fun l => l.1 == pc) with
  | some _ => s
  | none =>
    let kept := s.modCore c (fun k => { k with icache := (pc, codeWord s c pc) :: k.icache })
    if (s.core c).icache.any (fun l => l.1 / 128 == pc / 128) then kept else charge kept s.me.hive pc 128

/-! The row of an instruction whose word does not tell it (R70, R74). -/

/-- The KIND of the extent record at an address, as a plain scalar load after the fence would read it. -/
def recordKind (s : State) (va : Word) : Option Nat :=
  match loadW (acquireL1 s s.who 3) s.who va 8 false with
  | .ok (x, _) => some (x % 256)
  | .error _ => none

/-- An instruction as the row of the opcode table that it is: HGIVE and HTAKE by their record's KIND, HRET by its action;
a reserved one stays with the first row, which raises its trap.
DEDUCED, safe: notes/assumptions/53. -/
def resolve (s : State) (i : Instr) : Instr :=
  match i with
  | .hgiveShares o =>
    match recordKind s (s.me.greg o.gb) with
    | some 1 => .hgiveRing o | some 2 => .hgiveFabricBindings o | some 3 => .hgiveMemory o
    | some 4 => .hgiveBuckets o | _ => i
  | .htakeShares o =>
    match recordKind s (s.me.greg o.gb) with
    | some 1 => .htakeRing o | some 2 => .htakeFabricBindings o | some 3 => .htakeMemory o
    | some 4 => .htakeBuckets o | _ => i
  | .hretReissue o =>
    match (s.me.greg o.gb).toNat with
    | 1 => .hretSkip o | 2 => .hretDeliver o | 3 => .hretForward o | 4 => .hretPlace o | _ => i
  | _ => i

/-! Eligibility (R40, R43). -/

/-- General registers that a scalar instruction reads or writes, as its format's fields name them; an unused field is g0. -/
def scalarRegs : Instr → List (BitVec 5)
  | .add o | .sub o | .and o | .or o | .xor o | .shl o | .shr o | .sar o | .slt o | .sltu o | .min o | .max o | .minu o
  | .maxu o | .sext o | .zext o | .clz o | .ctz o | .popc o | .mul o | .mulh o | .mulhu o | .div o | .divu o | .rem o
  | .remu o | .fadd o | .fsub o | .fmul o | .fdiv o | .fsqrt o | .fma o | .fmin o | .fmax o | .fcmp o | .fcvt o
  | .fclass o | .cflush o | .ainv o | .tret o | .tretSkip o | .nop o | .hnew o | .hgiveShares o | .hgiveRing o
  | .hgiveFabricBindings o | .hgiveMemory o | .hgiveBuckets o | .htakeShares o | .htakeRing o | .htakeFabricBindings o
  | .htakeMemory o | .htakeBuckets o | .hkill o | .hstat o | .hretReissue o | .hretSkip o | .hretDeliver o
  | .hretForward o | .hretPlace o | .spawn o | .glaunch o | .squit o | .gbar o | .gwait o | .yield o | .wgcfg o
  | .wgcfgClose o | .wgpair o | .wginj o | .wgwait o | .wgdrain o | .wgstat o | .wgend o | .xcopy o | .xfill o | .xwait o
  | .xztab o | .xzenc o | .xseal o => [o.gd, o.ga, o.gb, o.gc]
  | .addi o | .andi o | .ori o | .xori o | .shli o | .shri o | .sari o | .slti o | .lih o | .addpc o | .jal o | .jalr o
  | .setvl o | .ctlrd o | .ctlwrFpctl o | .ctlwrSeed o | .ctlwrTrapvec o | .ctlwrTblroot o | .ctlwrYieldwin o
  | .ctlwrSplit o | .ctlwr o | .cycrd o | .tmark o | .trap o | .brk o => [o.gd, o.ga]
  | .beq o | .bne o | .blt o | .bge o | .bltu o | .bgeu o | .j o => [o.ga, o.gb]
  | .ld _ o | .lda _ o | .st _ o | .stl _ o | .amo _ _ o | .ldfe _ _ o | .stfe _ o | .waitw o | .fenceSv o | .fenceVs o
  | .fenceVv o | .fenceAll o => [o.gd, o.ga, o.gb]
  | _ => []

/-- Whether the registers of an instruction let it issue, and a queued one finds a free entry (R40, R43). A queued
instruction captures a pending register and waits for it at the queue head. A strand with a full queue still issues scalar
instructions: R42's last sentence alone would hold them back too, R40's fourth bullet asks a free entry only of a queued one.
DESIGN CHOICE, unsafe: notes/assumptions/73. -/
def registersReady (t : Strand) (i : Instr) : Bool :=
  match shapeOf i with
  | some x => !(x.gd.elim false t.pending) && decide (t.queue.length < queueDepth)
  | none => !(scalarRegs i).any t.pending

/-- Whether a core may issue in this cycle under its issue duty (R310). -/
def dutyAllows (c : Core) : Bool := decide (c.duty ≤ 1) || c.cycles.toNat % c.duty == 0

/-- Whether a word has the OP of a queued instruction (R42). -/
def queuedWord (w : Word) : Bool :=
  let op := (w.extractLsb' 56 8).toNat
  decide (0x60 ≤ op ∧ op ≤ 0x7E) || decide (0x80 ≤ op ∧ op ≤ 0x83) || op == 0x88 || op == 0x89 || decide (0x90 ≤ op ∧ op ≤ 0x96) ||
    decide (0xA0 ≤ op ∧ op ≤ 0xA6)

/-- Whether strand k may issue its next instruction. A word that the front end rejects at enqueue waits for the queue to be empty
(R44, R251).
DEDUCED, safe: notes/assumptions/15. -/
def eligible (s : State) (k : Nat) : Bool :=
  let t := s.strand k
  t.status.isRunning && t.onShare && !t.waits && t.pendTrap.isNone && t.pendFault.isNone && !headWaits s k &&
  dutyAllows (s.core t.coreNo) &&
  (if inArena (s.hive t.hive) t.pc.toNat then
    let w := codeWord s t.coreNo t.pc.toNat
    match decode w with
    | .ok i => registersReady t i
    | _ => !queuedWord w || t.queue.isEmpty
   else true)

/-! Rounds (R41). -/

/-- Strands placed on a core. -/
def strandsOfCore (s : State) (c : Nat) : List Nat :=
  (List.range s.strands.length).filter (fun k => (s.strand k).placed && (s.strand k).coreNo == c)

/-- Least lane group of a hive's shares on a core. -/
def lowestLg (s : State) (c h : Nat) : Nat :=
  (((s.hive h).shares.filter (fun x => x.core == c)).map (fun x => x.lg)).foldl min 16

/-- The eligible strand of a hive on a core that its pointer reaches first, and how far that is. -/
def pointed (s : State) (c h : Nat) (ks : List Nat) : Option Nat :=
  let p := ((s.core c).pointers.find? (fun x => x.1 == h)).elim 0 (fun x => x.2)
  let far (k : Nat) : Nat := ((s.strand k).coreSlot + 8 - p % 8) % 8
  (ks.filter (fun k => (s.strand k).hive == h)).foldl (fun m k =>
    match m with
    | none => some k
    | some q => if far k < far q then some k else some q) none

/-- The places of its round that a hive has taken on a core. -/
def placesTaken (c : Core) (h : Nat) : Nat :=
  if h = c.roundHive then c.roundUsed else ((c.roundAhead.find? (fun x => x.1 == h)).map (fun x => x.2)).getD 0

/-- Where a hive stands in the order of a round that goes on from the hive being served: the latter first, then those after it in
the order of their lowest lane groups; from 64 on, those that the next round begins with, because they come before it or have
taken all their places of this one (R41). -/
def roundPlace (s : State) (c h : Nat) : Nat :=
  let here := lowestLg s c h
  let at_ := lowestLg s c (s.core c).roundHive
  if (s.hive h).weight ≤ placesTaken (s.core c) h then 64 + here
  else if h = (s.core c).roundHive then 0
  else if at_ < here then 1 + here
  else 64 + here

/-- The strand among some eligible ones that a core issues from next: of the hive whose place is next, the one that the hive's
pointer reaches first. -/
def pickAmong (s : State) (c : Nat) (ks : List Nat) : Option Nat :=
  let hs := (ks.map (fun k => (s.strand k).hive)).eraseDups
  let h := hs.foldl (fun m h =>
    match m with
    | none => some h
    | some q => if roundPlace s c h < roundPlace s c q then some h else some q) none
  h.bind (fun h => pointed s c h ks)

/-- The strand for the first issue place of a core's cycle. -/
def pick (s : State) (c : Nat) : Option Nat := pickAmong s c ((strandsOfCore s c).filter (eligible s))

/-- The strand for the second place, another than that of the first (R40). -/
def pickSecond (s : State) (c : Nat) : Option Nat :=
  (s.core c).roundFirst.bind (fun f => pickAmong s c ((strandsOfCore s c).filter (fun k => k != f && eligible s k)))

/-- The round of a core after strand k has taken a place: its hive's place counted, its pointer past its slot (R41). A second
place that the hive being served cannot fill counts ahead for the next hive; one that wraps begins the round that follows. -/
def countPlace (s : State) (k : Nat) (second : Bool) (c : Core) : Core :=
  let t := s.strand k
  let h := t.hive
  let place := roundPlace s t.coreNo h
  let served := (s.hive c.roundHive).weight
  let c := { c with
    roundFirst := if second then none else some k
    pointers := (h, (t.coreSlot + 1) % 8) :: c.pointers.filter (fun x => x.1 != h) }
  if 64 ≤ place then { c with roundHive := h, roundUsed := 1, roundAhead := [] }
  else if h = c.roundHive then { c with roundUsed := c.roundUsed + 1 }
  else if second && decide (c.roundUsed < served) then
    { c with roundAhead := (h, placesTaken c h + 1) :: c.roundAhead.filter (fun x => x.1 != h) }
  else { c with roundHive := h, roundUsed := placesTaken c h + 1, roundAhead := c.roundAhead.filter (fun x => x.1 != h) }

/-- The issue of strand k counted in the round of its core. -/
def countIssue (s : State) (k : Nat) (second : Bool) : State :=
  s.modCore (s.strand k).coreNo (countPlace s k second)

/-- What an executed instruction leaves: ISSUED of its hive counted (Table 3.6). One that has to wait leaves the state before its
issue, and its strand takes no issue place until it is tried again (R57). -/
def issued (before : State) (x : Host.Outcome State Fault Refusal) : Host.Outcome State Fault Refusal :=
  match x with
  | .next s =>
    if s.stalled then .next (before.modMe (fun t => { t with waits := true }))
    else .next (s.modHive before.me.hive (fun h => { h with issued := h.issued + 1 }))
  | x => x

/-- Whether some strand may issue. -/
def anyEligible (s : State) : Bool := (List.range s.strands.length).any (eligible s)

/-- Every strand that waits to be tried again may be; but not while the last issue was such a try and another strand is eligible,
which therefore issues first (R57, R58).
DESIGN CHOICE, unsafe: notes/assumptions/5. -/
def tryAgain (s : State) : State :=
  if s.me.waits && anyEligible s then s
  else { s with strands := s.strands.map (fun t => { t with waits := false }) }

/-- The cores in the order of their turns, from the one whose turn it is. -/
def coresFrom (n turn : Nat) : List Nat := (List.range n).map (fun k => (turn + k) % n)

/-- What issuing comes to: no core issues, a fetch traps, or an instruction goes to be executed, in the second place of a cycle
or in the first. -/
inductive Issued where
  | idle (s : State)
  | trapped (s : State)
  | run (i : Instr) (second : Bool) (s : State)

/-- The instruction at the program counter of strand State.cur fetched and decoded, steps 1 and 2 of R274. A reserved encoding with
a queued instruction's OP is held as one (R44, R252). -/
def fetchDecode (s : State) (second : Bool) : Issued :=
  let t := s.me
  let taken := countIssue s s.cur second
  if !inArena s.myHive t.pc.toNat then .trapped (raise taken (Trap.at .codeBound t.pc))
  else
    let w := codeWord s t.coreNo t.pc.toNat
    let wrong (c : Cause) : Issued :=
      let s := keepCode taken t.coreNo t.pc.toNat
      .trapped (if queuedWord w then trapAtEnqueue s (wordEntry s s.me w) (Trap.at c w) else raise s (Trap.at c w))
    match decode w with
    | .ok i =>
      let s := keepCode s t.coreNo t.pc.toNat
      .run (resolve s i) second s
    | .illegalOp => wrong .illegalOp
    | .illegalField => wrong .illegalField

/-- One issue place: the second of the cycle of the core whose turn it is, where another strand can fill it; otherwise the first of
the next core that has an eligible strand (R40). -/
def issue (s : State) : Issued :=
  let n := s.cores.length
  let c0 := s.coreTurn % max n 1
  let go (c k turn : Nat) (second : Bool) : Issued :=
    fetchDecode ({ s with cur := k, coreTurn := turn }.modCore c (fun x => { x with roundFirst := none })) second
  match pickSecond s c0 with
  | some k => go c0 k ((c0 + 1) % n) true
  | none =>
    let from_ := if (s.core c0).roundFirst.isSome then c0 + 1 else c0
    let s := s.modCore c0 (fun x => { x with roundFirst := none })
    match (coresFrom n from_).findSome? (fun c => (pick s c).map (fun k => (c, k))) with
    | none => .idle s
    | some (c, k) => go c k c false

/-- A step's time passing: each core's cycle counter goes on by one and by what the implementation adds on that core; the
cores have no common time base (R12, R333, R467). -/
def tick (s : State) : State :=
  { s with
    cores := s.cores.mapIdx (fun n c => { c with cycles := c.cycles + BitVec.ofNat 64 (1 + Config.elapsed s.freeCount n) })
    freeCount := s.freeCount + 1 }

end Sys2Proof.Machine
end

