-- ==== Sys2Proof/Machine/Events.lean ====
section
/-! DEFINITION. Which of the module's own events can happen now, and which is next: they take turns, so that none that can
happen for ever waits for ever (spec/02 R58, spec/95). Events from outside come through State.inbox. -/

namespace Sys2Proof.Machine

/-- An event where a condition holds. -/
def offer (b : Bool) (e : Instr) : List Instr := if b then [e] else []

/-- What a strand Blocked in an instruction waits for, where it has come. -/
def blockedEvents (s : State) (k : Nat) : List Instr :=
  let t := s.strand k
  match t.status with
  | .blocked (.gwait o) =>
    offer (gangMembers s t.hive ((t.greg o.ga).setWidth 32)).isEmpty (.gwaitComplete k)
  | .blocked (.gbar _) => offer (arriving s k) (.gbarComplete t.hive t.gangId)
  | .blocked (.squit _) | .blocked (.wgend _) =>
    offer (!(ownedSessions s k).any (fun x => runningTasks s x.1 x.2)) (.squitComplete k)
  | .blocked (.wgwait o) => offer ((s.session (t.coreNo / 12) (t.greg o.ga).toNat).status != 0) (.wgwaitWake k)
  | .blocked (.ldfe _ _ _) => [.ldfeWake k]
  | .blocked (.waitw _) => [.waitwWake k]
  | .blocked (.xwait _) => [.xwaitWake k]
  | .blocked (.wgcfgClose o) =>
    offer (!runningTasks s (t.coreNo / 12) (t.greg o.ga).toNat) (.wgcfgCloseComplete k)
  | .blocked (.wgdrain o) =>
    offer (s.session (t.coreNo / 12) (t.greg o.ga).toNat).state.isFree (.wgdrainComplete k)
  | _ => []

/-- What moves the head of strand k's queue on, where it can go on. -/
def headEvents (s : State) (k : Nat) : List Instr :=
  let t := s.strand k
  let e : Instr := match (t.queue.head?.bind (fun e => if e.tags.isNone then some e.item else none) : Option QItem) with
    | some (.instr (.vpush _)) => .vpushTransfer k
    | some (.instr (.vwaitf _)) => .vwaitfFill k
    | some (.instr (.vldfe _)) => .vldfeWake k
    | some (.instr (.fdrain _)) => .fdrainComplete k
    | _ => .queueHeadTagAllocation k
  offer (headMoves s k) e

/-- Events of strand k (R36, R45, R47, R49, R205, R251, R258, R265). -/
def strandEvents (s : State) (k : Nat) : List Instr :=
  let t := s.strand k
  if t.status.isEnded then []
  else
    offer (t.arrived.isSome && barrierFull s t.hive t.gangId) (.gbarComplete t.hive t.gangId) ++
    offer (closing s k).isSome (.wgcfgCloseComplete k) ++ offer (drainReady s k).isSome (.wgdrainComplete k) ++
    (if !t.placed then []
     else if t.resuming then [.resumption k]
     else
      offer (saveDue s k && windowOver s k) (.yieldwinExpiry k) ++
      offer (saveDue s k && blockedNow s k) (.fullSave k) ++
      offer (faultDue t || (t.pendTrap.isSome && t.queue.isEmpty)) (.trapDelivery k) ++
      blockedEvents s k ++
      headEvents s k ++
      offer (t.queue.any inFlight) (.egProduced k) ++
      (match contextWanted s k with
       | some (_, n) => [.fabricContextLoad k n.toNat]
       | none => []))

/-- Events of the share of a core that starts at a lane group (R36, R48). -/
def shareEvents (s : State) (x : ShareRef) : List Instr :=
  offer (canPlace s x) (.strandPlacement x.core x.lg) ++
  offer (!(candidates s x.core x.lg).isEmpty) (.microOperationIssue x.core x.lg)

/-- Events of a core: the matrix unit, the comb, the coalescing buffers, the L1 (R51, R198, R210, R211, R122). -/
def coreEvents (s : State) (n : Nat) : List Instr :=
  let c := s.core n
  offer (!unitBusy s n && (nextTurn s n).isSome) (.matrixUnitTake n) ++
  offer (leaver s n).isSome (.matrixUnitLeave n) ++
  (((c.comb.filter (fun x => x.running)).map (fun x => x.lg)).eraseDups.map (fun lg => .combContextServe n lg)) ++
  (c.comb.filter stalledFx).map (fun x => .fabricStall n x.lg x.num) ++
  ((c.bufs.filter (bufferDue c)).map (fun b => b.node)).eraseDups.map (fun b => .coalescingBufferFlush n b) ++
  (c.l1.filter (fun l => (dirtyDue s n l.line).isSome)).map (fun l => .l1DirtyTimeout n l.line)

/-- Events of a ring: its beat while a session is open, and the faults of its sessions (R223, R227, R233). -/
def ringEvents (s : State) (r : Nat) : List Instr :=
  offer ((s.ring r).sessions.any (fun ss => !ss.state.isFree)) (.ringBeat r) ++
  (List.range 4).flatMap (fun n =>
    let ss := s.session r n
    offer (ss.state.isRunning && (strandedTile s r n).isSome) (.ringStranded r n) ++
    offer (ss.state.isRunning && decide (12 ≤ ss.idle)) (.ringStuck r n))

/-- The next event of an engine command (R133, R167, R239, R241, R243, R247). -/
def commandEvents (s : State) (c : Cmd) : List Instr :=
  if c.ending.isSome then [.commandCompletion c.id]
  else if !c.started then offer (commandMayStart s c) (.engineCommandStart c.id)
  else match c.kind with
    | .copy | .fill => [.copyChunk c.id]
    | .zenc => [.codecBlock c.id]
    | .xseal => [.sealStamp c.id]
    | .ztab => offer (c.table.isNone || slotReferences s c == 0) (.xztabInstall c.id)

/-- Events of an LLC slice: a request that its bucket admits, and an LLC cycle while some bucket is not full (R87, R88). -/
def sliceEvents (s : State) (slice : Nat) : List Instr :=
  offer (admissible s slice).isSome (.llcRequestAdmit slice) ++
  offer (s.hives.any (fun h =>
    h.part == slice / 4 && (h.bucket (slice % 4)).own && (h.bucket (slice % 4)).tokens != ((h.bucket (slice % 4)).burst * 16 : Nat)))
    (.bucketRefill slice)

/-- The event of the request at the head of the queue (Table 13.1), and of an image being received or verified. -/
def firmwareEvents (s : State) : List Instr :=
  offer (s.boot.state == 1 || s.boot.state == 2) .firmwareImageVerify ++
  match s.request with
  | none => []
  | some (_, r) =>
    match requestCode r with
    | 1 => [.createRoot] | 2 => [.destroyRoot] | 3 => [.bindVf] | 4 => [.unbindVf] | 5 => [.sealRange] | 6 => [.peerMap]
    | 7 => [.powerCap] | 8 => [.migrate] | 9 => [.unsealRange] | 10 => [.rootHret] | 11 => [.readCounts] | 12 => [.importEntry]
    | _ => [.unknownCodeRequest]

/-- Every event that can happen now. -/
def proposals (s : State) : List Instr :=
  let cores := (s.strands.filter (fun t => t.placed)).map Strand.coreNo ++
    (List.range s.cores.length).filter (fun c => !((s.core c).bufs.isEmpty && (s.core c).l1.isEmpty && (s.core c).comb.isEmpty))
  (List.range s.strands.length).flatMap (strandEvents s) ++
  ((s.strands.filterMap (fun t => t.share)).eraseDups.flatMap (shareEvents s)) ++
  cores.eraseDups.flatMap (coreEvents s) ++
  (List.range s.rings.length).flatMap (ringEvents s) ++
  s.cmds.flatMap (commandEvents s) ++
  ((s.walks.map (fun w => w.die)).eraseDups.map (fun d => .pageWalkComplete d)) ++
  ((List.range s.parts.length).filter (fun n => (s.part n).live)).flatMap (fun n =>
    (List.range 4).flatMap (fun i => sliceEvents s (4 * n + i))) ++
  firmwareEvents s

/-- What comes before anything else in a step: time passes, and every HTAKE in progress goes on. -/
def beginStep (s : State) : State := goOnTakings (tick s)

/-- The event that happens next. -/
def nextInternal (s : State) : Option Instr :=
  let l := proposals s
  l[s.eventTurn % max l.length 1]?

end Sys2Proof.Machine
end

