-- ==== Sys2Proof/Machine/Load.lean ====
section
/-! DEFINITION. A program loaded from outside: a partition root with a running strand, and one instruction word in its code
arena where that strand fetches (notes/assumptions/3). The host and the firmware make such a root with CREATE_ROOT. -/

namespace Sys2Proof.Machine

/-- First byte of the loaded hive's code arena. -/
def loadBase : Nat := 0x10000

/-- The loaded partition root: core 0 of partition 0, one granule, a 64 KiB arena, a pool above it. -/
def loadedHive : Hive :=
  { Hive.blank with
    id := 1, weight := 1, fslots := 255, ring := .none, shares := [⟨0, 0, 16⟩], wsize := 2 ^ 30
    codebase := loadBase, codebound := loadBase + 0x10000, trapvec := BitVec.ofNat 64 loadBase
    pool := [0x200000, 0x400000], poolSize := 0x400000, saveoff := 0x20000, savecnt := 1
    spilloff := 0x100000, spillcnt := 16
    buckets := List.replicate 4 ⟨1024, 65536, 65536 * 16, true, 0, 0⟩ }

/-- Its strand, placed on core 0 with the full register budget and the full grant. -/
def loadedStrand : Strand :=
  { Strand.blank with
    status := .running, rsr := Vector.ofFn (fun k => rsrSeed 0 k.val), hive := 1, strandId := 1, gangId := 1, pc := BitVec.ofNat 64 loadBase, vregs := 3
    share := some ⟨0, 0, 16⟩, placed := true, pg := 8, grant := 8, egs := 768, entry := some 0, fresh := false }

/-- A state with the loaded root and its strand, where the issuing strand does not run.
DESIGN CHOICE, unsafe: notes/assumptions/3. -/
def loadRoot (s : State) : State :=
  if s.runs then s
  else
    { s with
      strands := s.strands ++ [loadedStrand], hives := loadedHive :: s.hives, cur := s.strands.length
      lastStrandId := 1 }.modPart 0 (fun p => { p with live := true, root := 1, granules := [0] })

/-- A state whose next step issues from strand State.cur: its core's turn, its hive's, its slot's. -/
def itsTurn (s : State) : State :=
  let t := s.me
  let s := { s with deviceTurn := false, inbox := [], coreTurn := t.coreNo }.modMe (fun t => { t with waits := false })
  s.modCore t.coreNo (fun c => { c with
    duty := 1, roundHive := t.hive, roundUsed := 0, roundAhead := [], roundFirst := none
    pointers := (t.hive, t.coreSlot) :: c.pointers.filter (fun x => x.1 != t.hive)
    icache := c.icache.filter (fun l => l.1 != t.pc.toNat) })

/-- The word of an instruction placed where strand State.cur fetches, in the machine's byte order (R3, R271). -/
def placeWord (s : State) (nbits w : Nat) : State :=
  { s with mem := Mem.write s.mem s.me.pc.toNat 8 (w % 2 ^ nbits) }

end Sys2Proof.Machine
end

