-- ==== Sys2Proof/Machine/Step.lean ====
section
/-! DEFINITION. One step of the module: an event from outside where one waits, else a device event and an issue by turns. -/

namespace Sys2Proof.Machine

/-- What an issue leads to: its instruction executed, its trap, or nothing. -/
def runIssued (x : Issued) : Host.Outcome State Fault Refusal :=
  match x with
  | .idle s => .next s
  | .trapped s => .next s
  | .run i second s => issued s (exec i (countIssue s s.cur second))

/-- One step.
DESIGN CHOICE, unsafe: notes/assumptions/5. -/
def step (s : State) : Host.Outcome State Fault Refusal :=
  let s := beginStep s
  match s.inbox with
  | e :: rest => exec e { s with inbox := rest }
  | [] =>
    if s.deviceTurn then
      let s := tryAgain s
      match nextInternal s with
      | some e => exec e { s with deviceTurn := false, eventTurn := s.eventTurn + 1 }
      | none => runIssued (issue { s with deviceTurn := false })
    else runIssued (issue { s with deviceTurn := true })

/-- s with an instruction word stored where step fetches its next instruction; where no strand runs, a loaded root. -/
def State.withFetchWord (s : State) (nbits w : Nat) : State := placeWord (itsTurn (loadRoot s)) nbits w

end Sys2Proof.Machine
end

