-- ==== Sys2Proof/Safety.lean ====
section
/-! DEFINITION. The words that the claims are stated in: the canonical form of every memory of the module, what an instruction
leaves as it was, where the bytes of a vector access lie, what a save entry holds, and rounding as a statement about real
numbers. -/

namespace Sys2Proof.Machine

/-- Every memory of the module is in its canonical form. -/
def State.memWf (s : State) : Bool := Mem.wf s.mem && s.cores.all (fun c => Mem.wf c.scratch)

/-- Every byte of HBM4, DDR-5, host memory and of every scratchpad reads as before. -/
def SameMemory (s t : State) : Prop :=
  (∀ a, Mem.get t.mem a = Mem.get s.mem a) ∧ ∀ c a, Mem.get (t.core c).scratch a = Mem.get (s.core c).scratch a

/-- The byte at a physical address as a core's scalar agent sees it: in its L1, or in memory (R105). -/
def State.seen (s : State) (c pa : Nat) : Byte :=
  match (s.core c).line (pa / 128) with
  | some l => BitVec.ofNat 8 (elemAt l.data 8 (pa % 128))
  | none => Mem.get s.mem pa

/-- The L1 of a core takes the line of a physical address without another one leaving: it holds it, or has room (R16, R103). -/
def Core.hasRoom (k : Core) (pa : Nat) : Prop := (k.line (pa / 128)).isSome ∨ k.l1.length < k.l1Lines

/-- What the caches and the pools of a module keep to (R65, R76, R114, R122): no dirty byte of an L1 lies in the shadow part of a
pool, a translation in a TLB is the one that its hive's tables give, a HIVEID names one hive, and pools consist of whole 2 MiB
chunks. -/
def State.CachesSound (s : State) : Prop :=
  (∀ c, ∀ l ∈ (s.core c).l1, ∀ k < 128, l.dirty.getLsbD k = true → s.shadowAt (128 * l.line + k) = none) ∧
  (∀ c, ∀ e ∈ (s.core c).tlb, ∀ h va, e.covers (s.hive h).id (s.hive h).gen va = true → walk s (s.hive h) va = .leaf e) ∧
  (s.hives.map (fun h => h.id)).Nodup ∧ ∀ h ∈ s.hives, h.saveoff % 65536 = 0 ∧ ∀ b ∈ h.pool, b % 2 ^ 21 = 0

/-- A writable page of a hive's composed translation holds a physical byte (R76, R97). -/
def State.Reaches (s : State) (h a : Nat) : Prop :=
  ∃ va e, walk s (s.hive h) va = .leaf e ∧ e.w = true ∧ e.pbase ≤ a ∧ a < e.pbase + e.size

/-- A physical byte is dirty in the L1 of the issuing strand's core. -/
def State.MyDirty (s : State) (a : Nat) : Prop :=
  ∃ c l, s.who.core = some c ∧ l ∈ (s.core c).l1 ∧ l.line = a / 128 ∧ l.dirty.getLsbD (a % 128) = true

/-- At most whole lines left the L1 of a core between s and t, and none of their dirty bytes is lost: memory holds each of them,
and no other byte of it changed (R122). -/
def Evicts (s t : State) (c : Nat) : Prop :=
  (∀ a, Mem.get t.mem a = Mem.get s.mem a ∨ ∃ l ∈ (s.core c).l1, l.line = a / 128 ∧ l.dirty.getLsbD (a % 128) = true ∧
    Mem.get t.mem a = BitVec.ofNat 8 (elemAt l.data 8 (a % 128))) ∧
  (((s.core c).l1.map (fun l => l.line)).Nodup → ∀ l ∈ (s.core c).l1, l ∈ (t.core c).l1 ∨
    ∀ k < 128, l.dirty.getLsbD k = true → Mem.get t.mem (128 * l.line + k) = BitVec.ofNat 8 (elemAt l.data 8 k))

/-- Only the issuing strand differs: every other strand, every hive, every core, every ring, all memory and every other
field of the state are as they were. -/
def OnlyMe (s t : State) : Prop :=
  t = { s with strands := t.strands } ∧ t.strands.length = s.strands.length ∧ ∀ k, k ≠ s.cur → t.strand k = s.strand k

/-- The issuing strand went on with one general register written and nothing else: g0 discards the write (R283), and the
flags, masks, vectors, streams, trap registers and every other register of the strand are as they were. -/
def Wrote (s t : State) (rd : BitVec 5) (x : Word) : Prop :=
  OnlyMe s t ∧ t.me = { s.me with g := t.me.g, pc := s.me.pc + 8 } ∧
    ∀ r, t.me.greg r = if r = rd ∧ r ≠ 0 then x else s.me.greg r

/-- An instruction completes, writes x to one general register and goes on. -/
def Gives (i : Instr) (s : State) (rd : BitVec 5) (x : Word) : Prop := ∃ t, exec i s = .next t ∧ Wrote s t rd x

/-- The issuing strand goes to a pc and nothing else changes. -/
def GoesTo (i : Instr) (s : State) (pc : Word) : Prop :=
  ∃ t, exec i s = .next t ∧ OnlyMe s t ∧ t.me = { s.me with pc := pc }

/-- An issue place of this step goes to a strand, in the second place of a cycle or in the first: v is the state in which it is
State.cur and its instruction is fetched (R40, R41). The step takes no event from outside, and no event of a device. -/
def TakesPlace (s v : State) (second : Bool) : Prop :=
  let u := { beginStep s with deviceTurn := true }
  let n := u.cores.length
  let c0 := u.coreTurn % max n 1
  let at_ : State → Nat → Nat → Nat → State := fun w c k turn =>
    { w with cur := k, coreTurn := turn }.modCore c (fun x => { x with roundFirst := none })
  (beginStep s).inbox = [] ∧ (beginStep s).deviceTurn = false ∧
    match second with
    | true => ∃ k, pickSecond u c0 = some k ∧ v = at_ u c0 k ((c0 + 1) % n)
    | false => pickSecond u c0 = none ∧ ∃ w c k, w = u.modCore c0 (fun x => { x with roundFirst := none }) ∧
        (coresFrom n (if (u.core c0).roundFirst.isSome then c0 + 1 else c0)).findSome? (fun d => (pick w d).map (fun j => (d, j)))
          = some (c, k) ∧ v = at_ w c k c

/-- The power of two in whose units a finite value is a whole number. -/
def FVal.power : FVal → Int
  | .fin _ _ e => e
  | _ => 0

/-- A finite value as a whole number of units 2^k, for a k not above its power. -/
def FVal.units (x : FVal) (k : Int) : Int :=
  match x with
  | .fin s m e => (if s then -1 else 1) * ((m * 2 ^ (e - k).toNat : Nat) : Int)
  | _ => 0

/-- x < y for numbers: -0 equals +0, and nothing stands below or above a NaN. -/
def FVal.Below (x y : FVal) : Prop :=
  match x, y with
  | .inf s, .inf t => s = true ∧ t = false
  | .inf s, .fin _ _ _ => s = true
  | .fin _ _ _, .inf t => t = false
  | .fin _ _ _, .fin _ _ _ => x.units (min x.power y.power) < y.units (min x.power y.power)
  | _, _ => False

/-- Whether a magnitude is rounded up that lies the part d of a spacing above the value below it, odd telling that value's least
significant bit (Table 6.4, R153: q < floor(d 2^32)). -/
def RoundsUp (mode q : Nat) (neg odd : Bool) (d : ℝ) : Prop :=
  d ≠ 0 ∧ match mode with
    | 0 => 1 / 2 < d ∨ d = 1 / 2 ∧ odd = true
    | 1 => False
    | 2 => neg = true
    | 3 => neg = false
    | 4 => 1 / 2 ≤ d
    | _ => (q : ℝ) + 1 ≤ d * 2 ^ 32

/-- r is Round(ET, ±x, rm) of R152 and its flags: m units of 2^e is x truncated into the finite values of the layout extended with
unbounded exponent, and b units the neighbour that the mode chooses. With sat a result beyond the largest finite value is held there
(Table 6.5). -/
def FloatFmt.RoundsTo (f : FloatFmt) (mode q : Nat) (sat neg : Bool) (x : ℝ) (r : FRes) : Prop :=
  ∃ (m b : Nat) (e : Int), m < 2 ^ (f.m + 1) ∧ (2 ^ f.m ≤ m ∧ 1 - (f.bias : Int) - f.m ≤ e ∨ e = 1 - (f.bias : Int) - f.m) ∧
    let d := x / 2 ^ e - m
    0 ≤ d ∧ d < 1 ∧ (RoundsUp mode q neg (decide (m % 2 = 1)) d → b = m + 1) ∧
      (¬ RoundsUp mode q neg (decide (m % 2 = 1)) d → b = m) ∧
      let top : ℝ := (2 ^ f.m + f.maxM : ℕ) * 2 ^ ((f.maxE : Int) - f.bias - f.m)
      (top < b * 2 ^ e → r = (if sat = true ∨ mode = 1 ∨ (mode = 2 ∧ neg = false) ∨ (mode = 3 ∧ neg = true) then maxFinite f neg
        else infinity f neg, flagOF ||| flagNX)) ∧
      ((b : ℝ) * 2 ^ e ≤ top → r.1 < 2 ^ (f.e + f.m + 1) ∧
        (∃ n c, fdecode f r.1 = .fin neg n c ∧ (n : ℝ) * 2 ^ c = b * 2 ^ e) ∧
        (d = 0 → r.2 = 0) ∧ (d ≠ 0 → r.2 = if b < 2 ^ f.m then flagNX ||| flagUF else flagNX))

/-- r is the conversion of ±x to an integer of w bits between lo and hi, and its flags (Table 6.5). -/
def RoundsToInt (w : Nat) (lo hi : Int) (mode q : Nat) (neg : Bool) (x : ℝ) (r : FRes) : Prop :=
  ∃ m b : Nat, (m : ℝ) ≤ x ∧ x < m + 1 ∧ (RoundsUp mode q neg (decide (m % 2 = 1)) (x - m) → b = m + 1) ∧
    (¬ RoundsUp mode q neg (decide (m % 2 = 1)) (x - m) → b = m) ∧
    let v : Int := if neg then -(b : Int) else b
    (lo ≤ v → v ≤ hi → r.1 = (v % (2 ^ w : Nat)).toNat ∧ (x = m → r.2 = 0) ∧ (x ≠ m → r.2 = flagNX)) ∧
    (v < lo → r = ((lo % (2 ^ w : Nat)).toNat, flagNV)) ∧ (hi < v → r = ((hi % (2 ^ w : Nat)).toNat, flagNV))

/-- A scalar float instruction completes: its result in gd, its flags ORed into FPCTL (R150), and else the strand as given: as it
was, or with state_0 stepped (R153). -/
def GivesFloat (i : Instr) (s : State) (rd : BitVec 5) (r : FRes) (u : Strand) : Prop :=
  ∃ t, exec i s = .next t ∧ OnlyMe s t ∧
    t.me = { u with g := t.me.g, pc := s.me.pc + 8, fpctl := s.me.fpctl ||| (BitVec.ofNat 64 r.2 &&& 0xFF8) } ∧
    ∀ q, t.me.greg q = if q = rd ∧ q ≠ 0 then BitVec.ofNat 64 r.1 else s.me.greg q

/-- Strand k enters its handler for a trap of the instruction at pc (R251, R253, R255): the held instructions, the resume PC and g28
to g31 are put away, the trap registers tell the trap, and the handler's code begins with an empty queue; nothing else of the strand,
no other strand and no hive changes. Where the hive does not trace and the strand's save entry lies in one chunk of its pool, the
entry holds the resume PC and g28 to g31. -/
def EntersHandler (s t : State) (k : Nat) (x : Trap) (pc : Word) (qd : Bool) (held : List QEntry) : Prop :=
  let u := s.strand k
  let h := s.hive u.hive
  t.strand k = { u with
    status := .running, record := none, queue := [], held := held, resumePc := u.pc
    hsave := #v[u.g[28], u.g[29], u.g[30], u.g[31]], pendTrap := none, trappc := pc
    trapcause := BitVec.ofNat 64 (x.cause.code + 256 + 512 * qd.toNat + 1024 * held.length), trapval := x.val, trapinfo := x.info
    pc := h.trapvec } ∧
  (∀ j, j ≠ k → t.strand j = s.strand j) ∧ t.hives = s.hives ∧
  (h.tracesize = 0 → entryOff h u % 2 ^ 21 + 0x1500 ≤ 2 ^ 21 → held.length ≤ 32 →
    poolRead t h (entryOff h u) 8 = u.pc.toNat ∧
    ∀ n : Fin 4, poolRead t h (entryOff h u + 0x140 + 8 * n.val) 8 = (u.g[28 + n.val]).toNat)

/-- The save entry of strand t stands in a hive's pool as Table 11.4 and R264 lay it out, read from v. What a save leaves undefined is
not told: vector registers beyond the budget, what a compact save does not keep, and the queue beyond the held instructions (R262, R263). -/
def EntryHolds (v : State) (h : Hive) (t : Strand) (kind : Nat) : Prop :=
  let rd : Nat → Nat → Nat := fun off n => poolRead v h (entryOff h t + off) n
  let hd := t.trapcause.getLsbD 8
  let q := if hd then t.held else t.queue
  rd 0 8 = (if hd then t.resumePc else t.pc).toNat ∧
  rd 8 8 = kind + 4 * hd.toNat + 8 * t.pendFault.isSome.toNat + 16 * t.task.isSome.toNat + 32 * t.arrived.isSome.toNat
    + 256 * q.length ∧
  (t.pendFault = none → rd 0x10 8 = t.trappc.toNat ∧ rd 0x18 8 = t.trapcause.toNat ∧ rd 0x20 8 = t.trapval.toNat ∧
    rd 0x28 8 = t.trapinfo.toNat ∧ ∀ k : BitVec 3, (∀ x, t.kept = some x → x.m.getLsbD k.toNat = true) →
      rd (0x2000 + 1024 * k.toNat) 1024 = (t.mreg k).toNat) ∧
  rd 0x30 8 = t.grant + 2 ^ 4 * t.vlmin + 2 ^ 8 * t.vlmax + 2 ^ 12 * t.mvl + 2 ^ 20 * t.vregs.toNat + 2 ^ 22 * t.prio.toNat ∧
  rd 0x38 4 = t.strandId.toNat ∧ rd 0x3C 4 = t.gangId.toNat ∧
  (∀ r : BitVec 5, r ≠ 0 → rd (0x40 + 8 * r.toNat) 8 = (t.greg r).toNat) ∧
  (∀ n : Fin 4, rd (0x140 + 8 * n.val) 8 = (t.hsave[n]).toNat) ∧
  rd 0x160 32 = 0 ∧ rd 0x180 8 = t.fpctl.toNat ∧ rd 0x188 8 = t.seed.toNat ∧ rd 0x190 8 = t.yieldwin.toNat ∧
  rd 0x198 8 = t.pushBits.toNat ∧ rd 0x1C0 64 = 0 ∧ rd 0x1500 2816 = 0 ∧
  (∀ n < 16, match t.pushed[n]? with
    | some p => rd (0x1A0 + 2 * n) 2 = p.reg.toNat + 64 * (p.egs - 1) + 2 ^ 15 ∧ rd (0x24000 + 2048 * n) 2048 = p.val.toNat
    | none => rd (0x1A0 + 2 * n) 2 = 0) ∧
  (∀ n : Fin 64, rd (0x200 + 4 * n.val) 4 = (t.rsr[n]).toNat) ∧
  (∀ k : BitVec 4, (∀ x, t.kept = some x → x.s.getLsbD k.toNat = true) →
    let x := t.stream k
    let at_ := 0x300 + 128 * k.toNat
    if x.bound then rd at_ 64 = x.desc.toNat ∧ rd (at_ + 64) 8 = x.pos.toNat ∧ rd (at_ + 72) 8 = 1 ∧ rd (at_ + 80) 48 = 0
    else rd at_ 128 = 0) ∧
  (∀ k : BitVec 5, let f := t.fslot k
    rd (0xB00 + 16 * k.toNat) 8 = (if f.bound then f.image.toNat else 0) ∧
    rd (0xB08 + 16 * k.toNat) 8 = if f.bound then f.area.toNat else 0) ∧
  (∀ n e, q[n]? = some e →
    let at_ := 0xD00 + 64 * n
    rd at_ 8 = e.word.toNat ∧ rd (at_ + 8) 8 = e.addr.toNat ∧ rd (at_ + 0x28) 8 = e.p + 32 * e.underM7.toNat ∧
    rd (at_ + 0x30) 16 = 0 ∧ ∀ j < 3, ∀ c x, e.caps[j]? = some c → c.val = some x → rd (at_ + 0x10 + 8 * j) 8 = x.toNat) ∧
  ∀ k : BitVec 6, k.toNat < t.budget → (∀ x, t.kept = some x → x.v.getLsbD k.toNat = true) →
    rd (0x4000 + 2048 * k.toNat) 2048 = (t.vreg k).toNat

/-- The save entry of strand t lies in one chunk of its hive's pool, and the strand holds no more than the entry has a place for
(R65, R263). -/
def EntryFits (s : State) (t : Strand) : Prop :=
  entryOff (s.hive t.hive) t % 2 ^ 21 + 180224 ≤ 2 ^ 21 ∧ (if t.trapcause.getLsbD 8 then t.held else t.queue).length ≤ 32 ∧
  (∀ e ∈ t.queue ++ t.held, e.p < 32) ∧ t.grant < 16 ∧ t.vlmin < 16 ∧ t.vlmax < 16 ∧ t.mvl < 256 ∧ t.pushed.length ≤ 16 ∧
  ∀ p ∈ t.pushed, 1 ≤ p.egs ∧ p.egs ≤ 8

/-- What a save and a resumption carry over of a strand outside its handler (R263, R265). -/
def SameProgram (t r : Strand) : Prop :=
  r.pc = t.pc ∧ (∀ k, r.greg k = t.greg k) ∧ (∀ k : BitVec 6, k.toNat < t.budget → r.vreg k = t.vreg k) ∧ r.m = t.m ∧
  r.fpctl = t.fpctl &&& 0xFFF ∧ r.seed = t.seed ∧ r.rsr = t.rsr ∧ r.yieldwin = t.yieldwin ∧ r.trappc = t.trappc ∧
  r.trapcause = t.trapcause ∧ r.trapval = t.trapval ∧ r.trapinfo = t.trapinfo ∧ r.hsave = t.hsave ∧ r.strandId = t.strandId ∧
  r.gangId = t.gangId ∧ r.grant = t.grant ∧ r.vlmin = t.vlmin ∧ r.vlmax = t.vlmax ∧ r.mvl = t.mvl ∧ r.vregs = t.vregs ∧
  r.prio = t.prio ∧ r.pushBits = t.pushBits ∧ r.pushed = t.pushed ∧
  (∀ k : BitVec 4, (r.stream k).bound = (t.stream k).bound ∧
    ((t.stream k).bound = true → (r.stream k).desc = (t.stream k).desc ∧ (r.stream k).pos = (t.stream k).pos)) ∧
  (∀ k : BitVec 5, (t.fslot k).bound = true → (t.fslot k).image ≠ 0 → r.fslot k = t.fslot k) ∧
  r.queue.map (fun e => (e.word, e.addr, e.p, e.underM7)) = t.queue.map (fun e => (e.word, e.addr, e.p, e.underM7))

/-- The state after the fence that a hive instruction starts with, FENCE.ALL at DEVICE scope (R68). -/
def State.fenced (s : State) : State := acquireL1 s s.who 2

/-- An HGIVE or HTAKE of a direct child d that comes as far as its record r, read after the fence, with no other operation on the
partition's hives in progress (R68, R70). -/
def ChildRecord (s : State) (o : GFmt) (d : Hive) (r : Nat) (u : State) : Prop :=
  s.runs = true ∧ s.me.queue.any (fun e => e.vectorAccess) = false ∧ s.treeFree = true ∧ s.me.awayHere = none ∧ s.findHive (s.me.greg o.ga).toNat = some d ∧
    d.parent = s.me.hive ∧ s.me.hive ≠ 0 ∧ (s.me.greg o.gb).toNat % 64 = 0 ∧
    loadRecord s.fenced s.fenced.who (s.me.greg o.gb) 8 = .ok (r, u)

/-- The instructions of the queue that read and write registers of their strand alone: OP 0x60 to 0x63, 0x68 and 0x70. -/
def registerOnly : Instr → Bool
  | .vadd _ | .vsub _ | .vmul _ | .vmulh _ | .vdiv _ | .vmin _ | .vmax _ | .vabs _ | .vneg _ | .vand _ | .vor _ | .vxor _
  | .vshl _ | .vshr _ | .vsar _ | .vclamp _ | .vfma _ | .vsqrt _ | .vrcp _ | .vrsq _ | .vexp2 _ | .vlog2 _ | .vtanh _
  | .vcmp _ _ | .vsel _ | .vcvt _ | .vred _ | .vscan _ | .vcomp _ | .vexpd _ | .vslide _ | .vperm _ | .vhad _ | .vbcast _
  | .vindex _ | .vext _ | .vins _ | .vzip _ | .vunzip _ | .mkand _ | .mkor _ | .mkxor _ | .mknot _ | .mkpopc _ | .mkfirst _
  | .mktest _ | .mkset _ => true
  | _ => false

/-- No more than 64 walks of a die's walker are in progress: requests of one walk count once (R12, R114). -/
def WalksBounded (s : State) (die : Nat) : Prop :=
  ∀ l : List Walk, l.Pairwise (fun a b => sameWalk a b = false) → (∀ w ∈ l, w ∈ s.walks ∧ w.die = die ∧ w.begun = true) →
    l.length ≤ 64

/-- A queued instruction that meets an empty queue and that no check refuses (R42, R44). Whether the model then runs it at once
is State.eager, a field of the model's own; a machine that is not eager runs it through its events. -/
def Enters (s : State) (i : Instr) : Prop :=
  s.runs = true ∧ s.me.queue = [] ∧ s.me.pendFault = none ∧
    ∃ x, shapeOf i = some x ∧ firstTrap s.me [] i (newEntry s s.me i x) = none

/-- A queued instruction stands alone in its strand's queue, with its operands captured as they stand, and no check refuses it (R43,
R44, R45). -/
def AwaitsAlone (s : State) (i : Instr) : Prop :=
  s.cur < s.strands.length ∧ s.me.placed = true ∧ s.me.resuming = false ∧ s.me.pendFault = none ∧
    ∃ x a n, shapeOf i = some x ∧ s.me.queue = [{ newEntry s s.me i x with addr := a, order := n }] ∧
      firstTrap s.me [] i (newEntry s s.me i x) = none

/-- Registers of the issuing strand changed and its pc advanced; every other strand, every core, every ring and all memory are
as they were, and so are the hives but for the EGs they count (Table 3.6) and the model's numbering of commands. -/
def RegistersChanged (s t : State) : Prop :=
  t = { s with strands := t.strands, hives := t.hives, nextCmd := s.nextCmd + 1 } ∧
    t.strands.length = s.strands.length ∧ (∀ k, k ≠ s.cur → t.strand k = s.strand k) ∧
    (∀ h, t.hive h = { s.hive h with egops := (t.hive h).egops }) ∧
    t.me = { s.me with g := t.me.g, v := t.me.v, m := t.me.m, fpctl := t.me.fpctl, rsr := t.me.rsr, pc := s.me.pc + 8 }

/-- An instruction completes; its governed elements below its length receive f, and every other element of vd keeps its value. -/
def GivesElements (i : Instr) (s : State) (o : VFmt) (f : Nat → Nat) : Prop :=
  ∃ t, exec i s = .next t ∧ ∀ k w, w = (ElemType.ofCode o.et).width → k * w < 16384 →
    elemAt (t.me.vreg o.vd) w k =
      if k < (s.me.greg o.gl).toNat ∧ governs s.me o.mk o.mn false k = true then f k else elemAt (s.me.vreg o.vd) w k

/-- The same for a mask destination. -/
def GivesBits (i : Instr) (s : State) (o : VFmt) (f : Nat → Bool) : Prop :=
  ∃ t, exec i s = .next t ∧ ∀ k < 8192, (t.me.mreg (o.vd.setWidth 3)).getLsbD k =
    if k < (s.me.greg o.gl).toNat ∧ governs s.me o.mk o.mn false k = true then f k
    else (s.me.mreg (o.vd.setWidth 3)).getLsbD k

/-- Every element below n that an instruction governs is accessed at an aligned address that leads to scratchpad: the offset of
its n-byte place in the scratchpad of a core (R93, R410). -/
def InScratchpad (s : State) (g : VAgent) (kind : AccessKind) (bytes n : Nat) (gov : Nat → Bool) (addr off : Nat → Nat)
    (core : Nat) : Prop :=
  core < s.cores.length ∧
    ∀ k < n, gov k = true → addr k % bytes = 0 ∧ locateV s g (addr k) kind = .ok (.scratch core (off k), s)

/-- The places of the governed elements do not meet. -/
def Apart (bytes n : Nat) (gov : Nat → Bool) (off : Nat → Nat) : Prop :=
  ∀ j < n, ∀ k < n, gov j = true → gov k = true → j ≠ k → off j + bytes ≤ off k ∨ off k + bytes ≤ off j

/-- The same for places of w bits, from a bit of their bytes on. -/
def BitsApart (bytes w n : Nat) (gov : Nat → Bool) (off bit : Nat → Nat) : Prop :=
  ∀ j < n, ∀ k < n, gov j = true → gov k = true → j ≠ k → off j + bytes ≤ off k ∨ off k + bytes ≤ off j ∨
    (off j = off k ∧ (bit j + w ≤ bit k ∨ bit k + w ≤ bit j))

/-- Every element below n that an instruction governs is aligned, meets no address error, and has its translation at hand in its
stream's lookahead, or for a gather in the core's TLB: it leads to memory that the L1 keeps, and the L1 of the core has room for a line
of each (R98, R105, R114). -/
def InMemory (s : State) (g : VAgent) (kind : AccessKind) (bytes n : Nat) (gov : Nat → Bool) (addr pa : Nat → Nat)
    (core : Nat) : Prop :=
  core < s.cores.length ∧ g.who.core = some core ∧ (s.core core).l1.length + n ≤ (s.core core).l1Lines ∧
    ∀ k < n, gov k = true → addr k % bytes = 0 ∧ pa k % bytes = 0 ∧ addressError s g kind (addr k) = false ∧
      bits (addr k) 63 52 = 0 ∧ ∃ e, e.nl1 = false ∧ placeOf s g.who kind (addr k) e = .ok (.mem (pa k) e) ∧
        (g.look ++ if g.tlb then (s.core core).tlb else []).find? (fun e =>
          e.covers (s.hive g.who.hive).id (s.hive g.who.hive).gen (addr k)) = some e

/-- Some governed elements below n do not translate or are not permitted, none of them on a revoked page, and the others lie in
scratchpad (R115): why tells which, and the reason. -/
def SomeMissed (s : State) (g : VAgent) (kind : AccessKind) (bytes n : Nat) (gov : Nat → Bool) (addr off : Nat → Nat)
    (core : Nat) (why : Nat → Option Reason) : Prop :=
  core < s.cores.length ∧ (∃ k < n, gov k = true ∧ why k ≠ none) ∧
    ∀ k < n, gov k = true → addr k % bytes = 0 ∧ addressError s g kind (addr k) = false ∧
      match why k with
      | none => locateV s g (addr k) kind = .ok (.scratch core (off k), s)
      | some r => r ≠ .revoked ∧ locateV s g (addr k) kind = .error r

/-- The strand enters its handler for a vector fault: m7 names the missed elements, and TRAPVAL and TRAPINFO tell their pages as Table
4.9 does. The instruction is held, to go on under m7 (R115, R116). -/
def ReportsMissed (s t : State) (kind : AccessKind) (n : Nat) (gov : Nat → Bool) (addr : Nat → Nat) (why : Nat → Option Reason)
    (i : Instr) : Prop :=
  let u := t.me
  let missed : Nat → Prop := fun k => k < n ∧ gov k = true ∧ why k ≠ none
  let low := u.trapval.toNat / 65536
  let at_ : Nat → Prop := fun j => ∃ k, missed k ∧ addr k / 65536 = low + j
  u.pc = s.myHive.trapvec ∧ u.trappc = s.me.pc ∧ u.trapcause.extractLsb' 0 6 = 9 ∧ u.queue = [] ∧ u.streams = s.me.streams ∧
    u.held.map (fun e => (e.item, e.underM7)) = [(.instr i, true)] ∧
    (∀ k < 8192, (u.mreg 7).getLsbD k = true ↔ missed k) ∧ (∀ r, r ≠ 7 → u.mreg r = s.me.mreg r) ∧
    u.trapval.toNat % 65536 = 0 ∧ (∀ k, missed k → low ≤ addr k / 65536) ∧ at_ 0 ∧
    (∀ j : Fin 16, u.trapinfo.getLsbD (16 + j.val) = true ↔ at_ j.val) ∧
    (u.trapinfo.extractLsb' 0 5).toNat = ((List.range 16).filter (fun j => u.trapinfo.getLsbD (16 + j))).length ∧
    (u.trapinfo.getLsbD 5 = true ↔ ∃ j, 16 ≤ j ∧ at_ j) ∧ (u.trapinfo.extractLsb' 6 2).toNat = kind.code ∧
    (∃ k r, missed k ∧ addr k / 65536 = low ∧ (∀ j < k, missed j → addr j / 65536 ≠ low) ∧ why k = some r ∧
      (u.trapinfo.extractLsb' 8 2).toNat = r.code) ∧
    u.trapinfo.extractLsb' 10 6 = 0 ∧ u.trapinfo.extractLsb' 32 32 = 0

/-- The number that the bytes of a scratchpad spell from an offset on, least significant first (R3). -/
def State.scratchWord (s : State) (core off bytes : Nat) : Nat :=
  ofLeBytes ((List.range bytes).map (fun b => Mem.get (s.core core).scratch (off + b)))

end Sys2Proof.Machine
end

