-- ==== Sys2Proof/WellFormed.lean ====
section
/-! DEFINITION. Which instructions have a word of their own, and which of those are well formed: every field that the
entry does not use is zero and no field holds a reserved value (spec/12 R272, R274 step 2). -/

namespace Sys2Proof

/-- Whether a word decodes to this row. An event has no word; the rows of HGIVE, HTAKE and HRET that a record or a
register selects share the word of the first of them (R70, R74). -/
def Instr.hasWord (i : Instr) : Bool :=
  match i with
  | .hgiveRing _ | .hgiveFabricBindings _ | .hgiveMemory _ | .hgiveBuckets _ | .htakeRing _ | .htakeFabricBindings _
  | .htakeMemory _ | .htakeBuckets _ | .hretSkip _ | .hretDeliver _ | .hretForward _ | .hretPlace _ => false
  | i => i.opFn.1 != 0

/-- A well-formed instruction. -/
def Instr.wellFormed (i : Instr) : Bool := i.hasWord && i.fieldsLegal

end Sys2Proof
end

