-- ==== Sys2Proof/Certificates/Slice0/Obligations.lean ====
section
/-! DEFINITION. The statements for the provers. -/

open Sys2Proof Sys2Proof.Machine

/-- O1. One word of each family decodes to its instruction (R271, R272, R275). -/
def Obligations.FamilyWordsDecode : Prop :=
  decode 0x0100_190A_0000_0000 = .ok (.add ⟨3, 4, 5, 0, 0⟩) ∧
  decode 0b00000010_00000101_00101_00110_000000_00000000000000000000000000111111 = .ok (.shli ⟨5, 6, 0, 63⟩) ∧
  decode 0b00001000_00000101_00101_00110_00111_01000_00001001_00000000000000000000 = .ok (.fma ⟨5, 6, 7, 8, 9⟩) ∧
  decode 0b00010000_00000010_00101_00110_000001_11111111111111111111111111111100 = .ok (.blt ⟨5, 6, 1, 4294967292⟩) ∧
  decode 0b00011001_00000000_00000_01010_00001_000_00_1111111111111111111111111000 = .ok (.st .b ⟨0, 10, 1, 0, 0, 268435448⟩) ∧
  decode 0b00101010_00000000_00000_00110_000000_00000000000000000000000000001101 = .ok (.ctlwrTblroot ⟨0, 6, 0, 13⟩) ∧
  decode 0b00111101_00000000_00101_00110_00111_01000_00000000_00000000000000000000 = .ok (.hretReissue ⟨5, 6, 7, 8, 0⟩) ∧
  decode 0b01100000_00000000_000011_000001_000010_000000_01001_010_1_1101_001_00000000 = .ok (.vadd ⟨3, 1, 2, 0, 9, 2, 1, 13, 1, 0⟩) ∧
  decode 0b01111100_00000000_000111_000110_0000_01010_01001_000_0_0110_000_00_000001000 = .ok (.vamo ⟨7, 6, 0, 10, 9, 0, 0, 6, 0, 0, 8⟩) ∧
  decode 0b10010001_00000000_01_001000_001001_00111_001_010_1100_1100_0000_0000_0000000 = .ok (.topa ⟨1, 8, 9, 7, 1, 2, 12, 12, 0, 0, 0⟩) ∧
  decode 0b10100010_00011111_00111_01001_01000_00000_001100_000011_000100_1111110001 = .ok (.fx 31 ⟨7, 9, 8, 0, 12, 3, 4, 1009⟩) ∧
  decode 0b10110010_00000000_00000_00110_00111_00000_00000000_00000000000000000000 = .ok (.wginj ⟨0, 6, 7, 0, 0⟩)

/-- O2. The decoder reads back every well-formed instruction from its word (R271, R272, R273, R274, R275). -/
def Obligations.DecodeOfEncode : Prop :=
  (∀ i : Instr, i.wellFormed = true → decode (encode i) = .ok i) ∧
    ∀ i j : Instr, i.wellFormed = true → j.wellFormed = true → encode i = encode j → i = j

/-- O3. A word that decodes is the word of the instruction it decodes to (R271, R272, R274, R275). -/
def Obligations.EncodeOfDecode : Prop :=
  ∀ (w : Word) (i : Instr), decode w = .ok i → i.fieldsLegal = true ∧ encode i = w

/-- O4. What reset leaves (R53, R103, R109, R217, R305, R314, R333, R3, R94). -/
def Obligations.ResetLeavesTheModuleEmpty : Prop :=
  (State.reset.cores.length = 576 ∧ State.reset.rings.length = 48 ∧
    State.reset.strands = [] ∧ State.reset.hives = [] ∧ State.reset.boot.state = 0 ∧
    (∀ c < 576, ((State.reset.core c).sps = 0b010 ∧ (∀ a, Mem.get (State.reset.core c).scratch a = 0) ∧
      (∀ g, (State.reset.core c).isFull g = false) ∧ (State.reset.core c).cycles = 0 ∧
      (State.reset.core c).vlgrant = 8 ∧ (State.reset.core c).mvlc = 0 ∧
      ∀ t ∈ (State.reset.core c).tiles, ∀ row ∈ t, row = 0)) ∧
    ∀ r < 48, ∀ n < 4, (State.reset.session r n).state = .free) ∧
  (State.reset.memWf = true)

/-- O5. A step runs the instruction that the fetched word decodes to (R40, R41, R99, R100, R271, R274). The order among
cores, devices and the outside is the model's choice (log entry 5). -/
def Obligations.StepRunsTheDecodedInstruction : Prop :=
  ∀ (s v : State) (second : Bool) (i : Instr), TakesPlace s v second →
    inArena v.myHive v.me.pc.toNat = true →
    decode (codeWord v v.me.coreNo v.me.pc.toNat) = .ok i →
    let x := keepCode v v.me.coreNo v.me.pc.toNat
    step s = (match exec (resolve x i) (countIssue x x.cur second) with
      | .next t =>
        if t.stalled then .next (x.modMe (fun m => { m with waits := true }))
        else .next (t.modHive x.me.hive (fun h => { h with issued := h.issued + 1 }))
      | y => y)

/-- O6. A fetch outside the code arena traps CODE_BOUND (R99, R274), and a word that no instruction has traps as its OP
says: a scalar one at once, one with a queued instruction's OP as a held instruction (R42, R44, R252). The last clause is
the model's reading (log entries 13 and 15). -/
def Obligations.FetchOutsideArenaTraps : Prop :=
  ∀ (s v : State) (second : Bool), TakesPlace s v second →
    let pc := v.me.pc
    let w := codeWord v v.me.coreNo pc.toNat
    let u := countIssue v v.cur second
    let x := keepCode u v.me.coreNo pc.toNat
    (pc.toNat < v.myHive.codebase ∨ v.myHive.codebound < pc.toNat + 8 →
      step s = .next (raise u ⟨.codeBound, pc, 0, 0⟩)) ∧
    (v.myHive.codebase ≤ pc.toNat → pc.toNat + 8 ≤ v.myHive.codebound → queuedWord w = false →
      (decode w = .illegalOp → step s = .next (raise x ⟨.illegalOp, w, 0, 0⟩)) ∧
      (decode w = .illegalField → step s = .next (raise x ⟨.illegalField, w, 0, 0⟩))) ∧
    (v.myHive.codebase ≤ pc.toNat → pc.toNat + 8 ≤ v.myHive.codebound → queuedWord w = true →
      (decode w = .illegalOp → step s = .next (trapAtEnqueue x (wordEntry x x.me w) ⟨.illegalOp, w, 0, 0⟩)) ∧
      (decode w = .illegalField → step s = .next (trapAtEnqueue x (wordEntry x x.me w) ⟨.illegalField, w, 0, 0⟩)))

/-- O7. ADD adds modulo 2^64 (R318). -/
def Obligations.AddAddsModulo64 : Prop :=
  (∀ o : GFmt, (encode (.add o)).extractLsb' 56 8 = 0x01 ∧ (encode (.add o)).extractLsb' 48 8 = 0x00 ∧
      (encode (.add o)).extractLsb' 43 5 = o.gd ∧ (encode (.add o)).extractLsb' 38 5 = o.ga ∧
      (encode (.add o)).extractLsb' 33 5 = o.gb) ∧
    decode 0x0100_190A_0000_0000 = .ok (.add ⟨3, 4, 5, 0, 0⟩) ∧
    ∀ (s : State) (o : GFmt), s.runs = true →
      Gives (.add o) s o.gd (BitVec.ofNat 64 (((s.me.greg o.ga).toNat + (s.me.greg o.gb).toNat) % 2 ^ 64))

/-- O8. NOP only advances the pc (R376). -/
def Obligations.NopOnlyAdvancesPc : Prop :=
  decode 0x3300_0000_0000_0000 = .ok (.nop ⟨0, 0, 0, 0, 0⟩) ∧
    (∀ w : Word, opOf w = 0x33 → fnOf w ≠ 0x00 → decode w = .illegalOp) ∧
    (∀ w : Word, opOf w = 0x33 → fnOf w = 0x00 → w ≠ 0x3300_0000_0000_0000 → decode w = .illegalField) ∧
    ∀ (s : State) (o : GFmt), s.runs = true → GoesTo (.nop o) s (s.me.pc + 8)

/-- O9. Register arithmetic, logic, shifts, comparisons, products and quotients (R276, R316, R324, R334, R335, R371, R375,
R380, R382, R387, R394, R449). -/
def Obligations.RegisterArithmeticResults : Prop :=
  (∀ (s : State) (o : GFmt), s.runs = true →
    let a := s.me.greg o.ga
    let b := s.me.greg o.gb
    let n := b.toNat % 64
    Gives (.sub o) s o.gd (BitVec.ofInt 64 ((a.toNat : Int) - b.toNat)) ∧
    Gives (.and o) s o.gd (a &&& b) ∧ Gives (.or o) s o.gd (a ||| b) ∧ Gives (.xor o) s o.gd (a ^^^ b) ∧
    Gives (.shl o) s o.gd (BitVec.ofNat 64 (a.toNat * 2 ^ n)) ∧ Gives (.shr o) s o.gd (BitVec.ofNat 64 (a.toNat / 2 ^ n)) ∧
    Gives (.sar o) s o.gd (BitVec.ofInt 64 (a.toInt / 2 ^ n)) ∧
    Gives (.slt o) s o.gd (if a.toInt < b.toInt then 1 else 0) ∧
    Gives (.sltu o) s o.gd (if a.toNat < b.toNat then 1 else 0) ∧
    Gives (.min o) s o.gd (BitVec.ofInt 64 (min a.toInt b.toInt)) ∧
    Gives (.max o) s o.gd (BitVec.ofInt 64 (max a.toInt b.toInt)) ∧
    Gives (.minu o) s o.gd (BitVec.ofNat 64 (min a.toNat b.toNat)) ∧
    Gives (.maxu o) s o.gd (BitVec.ofNat 64 (max a.toNat b.toNat))) ∧
  (∀ (s : State) (o : GFmt), s.runs = true →
    let a := s.me.greg o.ga
    let b := s.me.greg o.gb
    Gives (.mul o) s o.gd (BitVec.ofNat 64 (a.toNat * b.toNat)) ∧
    Gives (.mulh o) s o.gd (BitVec.ofInt 64 (a.toInt * b.toInt / 2 ^ 64)) ∧
    Gives (.mulhu o) s o.gd (BitVec.ofNat 64 (a.toNat * b.toNat / 2 ^ 64)) ∧
    Gives (.div o) s o.gd (if b = 0 then BitVec.allOnes 64 else BitVec.ofInt 64 (Int.tdiv a.toInt b.toInt)) ∧
    Gives (.divu o) s o.gd (if b = 0 then BitVec.allOnes 64 else BitVec.ofNat 64 (a.toNat / b.toNat)) ∧
    Gives (.rem o) s o.gd (if b = 0 then a else BitVec.ofInt 64 (Int.tmod a.toInt b.toInt)) ∧
    Gives (.remu o) s o.gd (if b = 0 then a else BitVec.ofNat 64 (a.toNat % b.toNat)))

/-- O10. Extensions, bit counts and the instructions with an immediate (R276, R319, R320, R325, R329, R332, R370, R379, R382,
R385, R387, R453). -/
def Obligations.ExtendCountAndImmediateResults : Prop :=
  (∀ (s : State) (o : GFmt), s.runs = true →
    let a := s.me.greg o.ga
    let n := (o.q.extractLsb' 0 6).toNat
    (1 ≤ n → Gives (.sext o) s o.gd ((a.setWidth n).signExtend 64) ∧ Gives (.zext o) s o.gd ((a.setWidth n).setWidth 64)) ∧
    (∃ z : Nat, Gives (.clz o) s o.gd (BitVec.ofNat 64 z) ∧ z ≤ 64 ∧ (∀ k < z, a.getLsbD (63 - k) = false) ∧
      (z < 64 → a.getLsbD (63 - z) = true)) ∧
    (∃ z : Nat, Gives (.ctz o) s o.gd (BitVec.ofNat 64 z) ∧ z ≤ 64 ∧ (∀ k < z, a.getLsbD k = false) ∧
      (z < 64 → a.getLsbD z = true)) ∧
    Gives (.popc o) s o.gd (BitVec.ofNat 64 ((List.range 64).countP (fun k => a.getLsbD k)))) ∧
  (∀ (s : State) (o : IFmt), s.runs = true →
    let a := s.me.greg o.ga
    let m := o.imm.signExtend 64
    Gives (.addi o) s o.gd (a + m) ∧ Gives (.andi o) s o.gd (a &&& m) ∧ Gives (.ori o) s o.gd (a ||| m) ∧
    Gives (.xori o) s o.gd (a ^^^ m) ∧ Gives (.slti o) s o.gd (if a.toInt < o.imm.toInt then 1 else 0) ∧
    (o.imm.toNat < 64 → Gives (.shli o) s o.gd (BitVec.ofNat 64 (a.toNat * 2 ^ o.imm.toNat)) ∧
      Gives (.shri o) s o.gd (BitVec.ofNat 64 (a.toNat / 2 ^ o.imm.toNat)) ∧
      Gives (.sari o) s o.gd (BitVec.ofInt 64 (a.toInt / 2 ^ o.imm.toNat))) ∧
    Gives (.lih o) s o.gd (BitVec.ofNat 64 (o.imm.toNat * 2 ^ 32 + a.toNat % 2 ^ 32)) ∧
    Gives (.addpc o) s o.gd (s.me.pc + m))

/-- O11. Branches and jumps (R278, R326, R364, R365, R366). -/
def Obligations.BranchesAndJumps : Prop :=
  ∀ (s : State), s.runs = true →
    (∀ o : BFmt,
      let a := s.me.greg o.ga
      let b := s.me.greg o.gb
      let tgt := s.me.pc + BitVec.ofInt 64 (8 * o.off.toInt)
      GoesTo (.beq o) s (if a = b then tgt else s.me.pc + 8) ∧ GoesTo (.bne o) s (if a ≠ b then tgt else s.me.pc + 8) ∧
      GoesTo (.blt o) s (if a.toInt < b.toInt then tgt else s.me.pc + 8) ∧
      GoesTo (.bge o) s (if b.toInt ≤ a.toInt then tgt else s.me.pc + 8) ∧
      GoesTo (.bltu o) s (if a.toNat < b.toNat then tgt else s.me.pc + 8) ∧
      GoesTo (.bgeu o) s (if b.toNat ≤ a.toNat then tgt else s.me.pc + 8) ∧ GoesTo (.j o) s tgt) ∧
    ∀ o : IFmt,
      let tgt := s.me.pc + BitVec.ofInt 64 (8 * o.imm.toInt)
      let at_ := s.me.greg o.ga + o.imm.signExtend 64
      (∃ t, exec (.jal o) s = .next t ∧ OnlyMe s t ∧ t.me = { s.me with g := t.me.g, pc := tgt } ∧
        ∀ r, t.me.greg r = if r = o.gd ∧ r ≠ 0 then s.me.pc + 8 else s.me.greg r) ∧
      (at_.toNat % 8 = 0 → ∃ t, exec (.jalr o) s = .next t ∧ OnlyMe s t ∧ t.me = { s.me with g := t.me.g, pc := at_ } ∧
        ∀ r, t.me.greg r = if r = o.gd ∧ r ≠ 0 then s.me.pc + 8 else s.me.greg r) ∧
      (at_.toNat % 8 ≠ 0 → exec (.jalr o) s = .next (raise s ⟨.align, at_, 0, 0⟩))

/-- O12. The scalar float instructions (R150, R153, R277, R317, R336, R339, R340, R342, R343, R347, R348, R351). -/
def Obligations.ScalarFloatResults : Prop :=
  (∀ (s : State) (o : GFmt), s.runs = true →
    let f := floatFmt (precOf o)
    let w := (precOf o).width
    let x := fdecode f ((s.me.greg o.ga).toNat % 2 ^ w)
    let y := fdecode f ((s.me.greg o.gb).toNat % 2 ^ w)
    let z := fdecode f ((s.me.greg o.gc).toNat % 2 ^ w)
    let rm := o.q.extractLsb' 0 3
    let drm := (s.me.fpctl.extractLsb' 0 3).toNat
    let mode := if rm = 6 then drm else rm.toNat
    let q := s.me.rsr[0].toNat
    let u := s.me.stepScalar
    (rm = 6 → drm < 6) →
    u.rsr = s.me.rsr.set 0 (rsrStep s.me.rsr[0]) ∧
    GivesFloat (.fadd o) s o.gd (fadd f mode q x y) u ∧ GivesFloat (.fsub o) s o.gd (fsub f mode q x y) u ∧
    GivesFloat (.fmul o) s o.gd (fmul f mode q x y) u ∧ GivesFloat (.fdiv o) s o.gd (fdiv f mode q x y) u ∧
    GivesFloat (.fsqrt o) s o.gd (fsqrt f mode q x) u ∧ GivesFloat (.fma o) s o.gd (ffma f mode q x y z) u ∧
    GivesFloat (.fcvt o) s o.gd
      (fcvt (precOf o) (bits o.q.toNat 7 5) (o.gc.getLsbD 0) (s.me.greg o.ga).toNat mode q) u) ∧
  (∀ (et : ElemType) (mode q : Nat) (sat neg : Bool) (man : Nat) (exp : Int), et.isFloat = true →
    (floatFmt et).RoundsTo mode q sat neg (man * 2 ^ exp) (fround (floatFmt et) mode q sat neg man exp false)) ∧
  (∀ (p mode q : Nat) (x y z : FVal),
    let f := floatFmt (precision p)
    let nan : FRes := (f.canon, if x.isSig = true ∨ y.isSig = true then flagNV else 0)
    let neg := x.neg != y.neg
    (x.isNan = true ∨ y.isNan = true → fadd f mode q x y = nan ∧ fsub f mode q x y = nan ∧ fmul f mode q x y = nan ∧
      fdiv f mode q x y = nan) ∧
    (∀ a b, x = .inf a → y = .inf b →
      fadd f mode q x y = (if a = b then (infinity f a, 0) else (f.canon, flagNV)) ∧
      fsub f mode q x y = (if a = b then (f.canon, flagNV) else (infinity f a, 0)) ∧
      fmul f mode q x y = (infinity f neg, 0) ∧ fdiv f mode q x y = (f.canon, flagNV)) ∧
    (∀ a b n e, x = .inf a → y = .fin b n e →
      fadd f mode q x y = (infinity f a, 0) ∧ fsub f mode q x y = (infinity f a, 0) ∧ fdiv f mode q x y = (infinity f neg, 0) ∧
      fmul f mode q x y = (if n = 0 then (f.canon, flagNV) else (infinity f neg, 0)) ∧
      (n = 0 → ffma f mode q x y z = (f.canon, flagNV)) ∧
      ∀ c, n ≠ 0 → z = .inf c → ffma f mode q x y z = (if c = neg then (infinity f c, 0) else (f.canon, flagNV))) ∧
    (∀ a m d b n e, x = .fin a m d → y = .fin b n e →
      let k := min d e
      let t := x.units k + y.units k
      (t ≠ 0 → fadd f mode q x y = fround f mode q false (decide (t < 0)) t.natAbs k false) ∧
      (t = 0 → fadd f mode q x y = (signBit f (if m = 0 ∧ n = 0 ∧ a = b then a else decide (mode = 2)), 0)) ∧
      fmul f mode q x y = fround f mode q false neg (m * n) (d + e) false ∧
      (n = 0 → fdiv f mode q x y = if m = 0 then (f.canon, flagNV) else (infinity f neg, flagDZ)) ∧
      (n ≠ 0 → f.RoundsTo mode q false neg (m / n * 2 ^ (d - e)) (fdiv f mode q x y)) ∧
      (z.isNan = true → ffma f mode q x y z = (f.canon, if z.isSig then flagNV else 0)) ∧
      (∀ c, z = .inf c → ffma f mode q x y z = (infinity f c, 0)) ∧
      ∀ c l g, z = .fin c l g →
        let k := min (d + e) g
        let t := (FVal.fin neg (m * n) (d + e)).units k + z.units k
        (t ≠ 0 → ffma f mode q x y z = fround f mode q false (decide (t < 0)) t.natAbs k false) ∧
        (t = 0 → ffma f mode q x y z =
          (signBit f (if m * n = 0 ∧ l = 0 ∧ neg = c then neg else decide (mode = 2)), 0))) ∧
    (∀ (m : Nat) (d : Int), fsqrt f mode q (.fin false (m * m) (2 * d)) = fround f mode q false false m d false) ∧
    (∀ (n : Nat) (e : Int), n ≠ 0 → f.RoundsTo mode q false false (Real.sqrt (n * 2 ^ e)) (fsqrt f mode q (.fin false n e))) ∧
    (∀ a, fsqrt f mode q (.nan a) = (f.canon, if a then flagNV else 0)) ∧
    fsqrt f mode q (.inf false) = (infinity f false, 0) ∧ fsqrt f mode q (.inf true) = (f.canon, flagNV) ∧
    (∀ n e, fsqrt f mode q (.fin true n e) = if n = 0 then (signBit f true, 0) else (f.canon, flagNV))) ∧
  (∀ (p other mode q v : Nat) (dir : Bool),
    let pt := precision p
    let f := floatFmt pt
    let num : Int := if other = 4 then intVal .i64 v else ((v % 2 ^ 64 : Nat) : Int)
    let lo : Int := if other = 4 then -(2 ^ 63) else 0
    let hi : Int := if other = 4 then 2 ^ 63 - 1 else 2 ^ 64 - 1
    let st := if dir then pt else precision other
    let dt := if dir then precision other else pt
    v < 2 ^ 64 →
    (other = 4 ∨ other = 5 → dir = false → f.RoundsTo mode q false (decide (num < 0)) num.natAbs (fcvt pt other dir v mode q)) ∧
    (other = 4 ∨ other = 5 → dir = true →
      (∀ neg n e, fdecode f (v % 2 ^ pt.width) = .fin neg n e →
        RoundsToInt 64 lo hi mode q neg (n * 2 ^ e) (fcvt pt other dir v mode q)) ∧
      (∀ neg, fdecode f (v % 2 ^ pt.width) = .inf neg →
        fcvt pt other dir v mode q = (((if neg then lo else hi) % (2 ^ 64 : Nat)).toNat, flagNV)) ∧
      ∀ sig, fdecode f (v % 2 ^ pt.width) = .nan sig → fcvt pt other dir v mode q = (0, flagNV)) ∧
    (other < 4 →
      (∀ neg n e, fdecode (floatFmt st) (v % 2 ^ st.width) = .fin neg n e →
        (floatFmt dt).RoundsTo mode q false neg (n * 2 ^ e) (fcvt pt other dir v mode q)) ∧
      (∀ neg, fdecode (floatFmt st) (v % 2 ^ st.width) = .inf neg → fcvt pt other dir v mode q = (infinity (floatFmt dt) neg, 0)) ∧
      ∀ sig, fdecode (floatFmt st) (v % 2 ^ st.width) = .nan sig →
        fcvt pt other dir v mode q = ((floatFmt dt).canon, if sig then flagNV else 0))) ∧
  fcvt .f32 4 true 0xC0F80000 1 0 = (0xFFFFFFFFFFFFFFF9, flagNX) ∧ fcvt .f32 4 true 0x7F800000 1 0 = (2 ^ 63 - 1, flagNV) ∧
  (∀ (s : State) (o : GFmt), s.runs = true →
    let f := floatFmt (precOf o)
    let w := (precOf o).width
    let a := (s.me.greg o.ga).toNat % 2 ^ w
    let b := (s.me.greg o.gb).toNat % 2 ^ w
    let x := fdecode f a
    let y := fdecode f b
    let c := bits o.q.toNat 7 5
    let sig := x.isSig || y.isSig
    let numbers := x.isNan = false ∧ y.isNan = false
    (∃ n m r, GivesFloat (.fmin o) s o.gd (n, r) s.me ∧ GivesFloat (.fmax o) s o.gd (m, r) s.me ∧
      r = (if sig then flagNV else 0) ∧
      (x.isNan = true → y.isNan = true → n = f.canon ∧ m = f.canon) ∧
      (x.isNan = true → y.isNan = false → n = b ∧ m = b) ∧ (x.isNan = false → y.isNan = true → n = a ∧ m = a) ∧
      (x.Below y → n = a ∧ m = b) ∧ (y.Below x → n = b ∧ m = a) ∧
      (numbers → ¬ x.Below y → ¬ y.Below x → (x.neg = true → y.neg = false → n = a ∧ m = b) ∧
        (x.neg = false → y.neg = true → n = b ∧ m = a) ∧ ((n = a ∧ m = b) ∨ (n = b ∧ m = a)))) ∧
    (∃ v r, GivesFloat (.fcmp o) s o.gd (v, r) s.me ∧ v ≤ 1 ∧
      (x.isNan = true ∨ y.isNan = true → v = if c = 1 then 1 else 0) ∧
      (numbers → (c = 0 → (v = 1 ↔ ¬ x.Below y ∧ ¬ y.Below x)) ∧ (c = 1 → (v = 1 ↔ x.Below y ∨ y.Below x)) ∧
        (c = 2 → (v = 1 ↔ x.Below y)) ∧ (c = 3 → (v = 1 ↔ ¬ y.Below x)) ∧ (c = 4 → (v = 1 ↔ y.Below x)) ∧
        (c = 5 → (v = 1 ↔ ¬ x.Below y))) ∧
      r = (if sig = true ∨ ((x.isNan = true ∨ y.isNan = true) ∧ 2 ≤ c) then flagNV else 0)) ∧
    Gives (.fclass o) s o.gd (BitVec.ofNat 64 (fclass f a)))

/-- O13. Where an address leads, and what an access may change (R61, R93, R103, R76, R95, R97, R114, R246, R323). No access of a
strand changes a byte outside the writable pages of its own hive, but for its core's dirty bytes that are written back and for the
shadow entries of a direct child that a composing store writes. -/
def Obligations.WhereAnAddressLeads : Prop :=
  (∀ (s : State) (h : Nat) (x : ShareRef) (l1 : Bool) (k : AccessKind) (va : Nat), va < 2 ^ 64 →
    let size := (512 + 256 * (s.core x.core).sps.toNat) * 1024
    (∀ off, va = 0x01F0000000000000 + off → off < size * x.size / 16 → off < 2 ^ 52 →
      locate s ⟨h, some x, l1⟩ va k = .ok (.scratch x.core (size * x.lg / 16 + off), s)) ∧
    (∀ off, va = 0x01F0000000000000 + off → size * x.size / 16 ≤ off → off < 2 ^ 52 →
      locate s ⟨h, some x, l1⟩ va k = .error .notPermitted) ∧
    (2 ^ 57 ≤ va → locate s ⟨h, some x, l1⟩ va k = .error .notPermitted)) ∧
  (∀ (s : State) (w : Who) (k : AccessKind) (va : Nat), va < 2 ^ 52 →
    (∀ c, w.core = some c → ∀ e ∈ (s.core c).tlb, e.covers (s.hive w.hive).id (s.hive w.hive).gen va = false) →
    (∀ r, walk s (s.hive w.hive) va = .fail r → locate s w va k = .error r) ∧
    ∀ e, walk s (s.hive w.hive) va = .leaf e →
      ((match k with | .read => e.r | .write => e.w | .amo => e.r && e.w) = false → locate s w va k = .error .notPermitted) ∧
      ((match k with | .read => e.r | .write => e.w | .amo => e.r && e.w) = true →
        ∀ u, u = (xlate s w.core (s.hive w.hive) va).2 →
        s.shadowAt (e.pbase + (va - e.vbase)) = none → s.sealed (e.pbase + (va - e.vbase)) = false →
        locate s w va k = .ok (.mem (e.pbase + (va - e.vbase)) e, u))) ∧
  (∀ (s u : State) (w : Who) (k : AccessKind) (va pa : Nat) (e : TlbEntry), locate s w va k = .ok (.mem pa e, u) →
    s.shadowAt pa = none ∧ (k ≠ .write → s.sealed pa = false)) ∧
  (∀ (s u : State) (w : Who) (k : AccessKind) (va child off pa : Nat) (e : TlbEntry),
    locate s w va k = .ok (.shadow child off pa e, u) →
    k ≠ .amo ∧ ∃ d ∈ s.hives, d.id = child ∧ d.parent = w.hive ∧ s.shadowAt pa = some (d, off)) ∧
  ∀ (s : State) (va : Word) (n x : Nat) (coh : Bool), s.CachesSound → (n = 1 ∨ n = 2 ∨ n = 4 ∨ n = 8) →
    let own : Nat → Prop := fun a => s.shadowAt a = none ∧ s.Reaches s.me.hive a
    let child : Nat → Prop := fun a => ∃ d ∈ s.hives, d.parent = s.me.hive ∧
      ∃ off, d.poolPhys off ≤ a ∧ a < d.poolPhys off + 8
    let keeps : State → (Nat → Prop) → (Nat → Prop) → Prop := fun u p q =>
      (∀ a, Mem.get u.mem a ≠ Mem.get s.mem a → s.MyDirty a ∨ p a) ∧
      ∀ c, ∀ l ∈ (u.core c).l1, ∀ k < 128, l.dirty.getLsbD k = true →
        (∃ y ∈ (s.core c).l1, y.line = l.line ∧ y.dirty.getLsbD k = true) ∨ (s.who.core = some c ∧ q (128 * l.line + k))
    (∀ y u, loadW s s.who va n coh = .ok (y, u) → keeps u (fun _ => False) (fun _ => False)) ∧
    (∀ u, storeW s s.who va n x coh = .ok u → keeps u own own) ∧
    (∀ op y z u, amoW s s.who va op n x z = .ok (y, u) → keeps u own (fun _ => False)) ∧
    ∀ u, storeSt s s.who va n x coh = .ok u → keeps u (fun a => own a ∨ child a) own

/-- O14. Loads from and stores to scratchpad (R3, R93, R105, R125, R367, R107, R391). -/
def Obligations.ScratchpadLoadsAndStores : Prop :=
  (∀ (s : State) (sz : LoadSize) (o : MFmt) (c off : Nat), s.runs = true →
    let va := s.me.greg o.ga + o.disp.signExtend 64
    let n := loadBytes sz
    va.toNat % n = 0 → locate s s.who va.toNat .read = .ok (.scratch c off, s) →
    let x := ofLeBytes ((List.range n).map (fun k => Mem.get (s.core c).scratch (off + k)))
    let v : Word := match sz with
      | .b | .h | .w => (BitVec.ofNat (8 * n) x).signExtend 64
      | _ => BitVec.ofNat 64 x
    (o.ord = 0 → Gives (.ld sz o) s o.gd v) ∧
    (o.ord = 1 → o.scope = 0 → Gives (.lda sz o) s o.gd v) ∧
    (o.ord = 1 → exec (.lda sz o) s = .next ((acquireL1 s s.who o.scope.toNat).finish o.gd v))) ∧
  (∀ (s : State) (sz : StoreSize) (o : MFmt) (c off : Nat), s.runs = true → c < s.cores.length →
    let va := s.me.greg o.ga + o.disp.signExtend 64
    let n := storeBytes sz
    va.toNat % n = 0 → locate s s.who va.toNat .write = .ok (.scratch c off, s) →
    let x := (s.me.greg o.gb).toNat
    (o.ord = 0 → ∃ t, exec (.st sz o) s = .next t ∧
      t = { s with strands := t.strands, cores := t.cores } ∧ (∀ k, k ≠ s.cur → t.strand k = s.strand k) ∧
      t.me = { s.me with pc := s.me.pc + 8 } ∧ (∀ d, d ≠ c → t.core d = s.core d) ∧
      t.core c = { s.core c with scratch := (t.core c).scratch } ∧
      ∀ a, Mem.get (t.core c).scratch a =
        if off ≤ a ∧ a < off + n then BitVec.ofNat 8 (x / 256 ^ (a - off)) else Mem.get (s.core c).scratch a) ∧
    (o.ord = 2 → ∃ t, exec (.stl sz o) s = .next t ∧ t.me = { s.me with pc := s.me.pc + 8 } ∧
      t.mem = (releaseL1 s s.who o.scope.toNat).mem ∧
      ∀ a, Mem.get (t.core c).scratch a =
        if off ≤ a ∧ a < off + n then BitVec.ofNat 8 (x / 256 ^ (a - off)) else Mem.get (s.core c).scratch a))

/-- O15. Loads from memory (R16, R97, R103, R105, R110, R122, R125, R367). Which line leaves a full L1 is the model's
choice (log entry 11), and no clause rests on it. -/
def Obligations.MemoryLoads : Prop :=
  ∀ (s u : State) (sz : LoadSize) (o : MFmt) (pa c : Nat) (e : TlbEntry), s.runs = true →
    let va := s.me.greg o.ga + o.disp.signExtend 64
    let n := loadBytes sz
    va.toNat % n = 0 → pa % n = 0 → s.who.core = some c → c < s.cores.length →
    locate s s.who va.toNat .read = .ok (.mem pa e, u) →
    let near := ofLeBytes ((List.range n).map (fun k => s.seen c (pa + k)))
    let far := ofLeBytes ((List.range n).map (fun k => Mem.get (dropLine s s.me.hive c (pa / 128)).mem (pa + k)))
    let v : Nat → Word := fun x => match sz with
      | .b | .h | .w => (BitVec.ofNat (8 * n) x).signExtend 64
      | _ => BitVec.ofNat 64 x
    let frame : State → Prop := fun t =>
      t = { s with strands := t.strands, cores := t.cores, llc := t.llc, mem := t.mem } ∧
      (∀ d, t.core d = { s.core d with tlb := (t.core d).tlb, l1 := (t.core d).l1 }) ∧
      (∀ k, k ≠ s.cur → t.strand k = s.strand k) ∧ t.me = { s.me with g := t.me.g, pc := s.me.pc + 8 }
    (o.ord = 0 → e.nl1 = false → (s.core c).l1Lines ≠ 0 → ∃ t, exec (.ld sz o) s = .next t ∧ frame t ∧
      (∀ r, t.me.greg r = if r = o.gd ∧ r ≠ 0 then v near else s.me.greg r) ∧
      ((s.core c).hasRoom pa → t.mem = s.mem) ∧ Evicts s t c ∧
      ((s.core c).l1.length ≤ (s.core c).l1Lines → (t.core c).l1.length ≤ (t.core c).l1Lines)) ∧
    (o.ord = 0 → (e.nl1 = true ∨ (s.core c).l1Lines = 0) → ∃ t, exec (.ld sz o) s = .next t ∧ frame t ∧
      t.mem = (dropLine s s.me.hive c (pa / 128)).mem ∧
      ∀ r, t.me.greg r = if r = o.gd ∧ r ≠ 0 then v far else s.me.greg r) ∧
    (o.ord = 1 → o.scope ≠ 0 → ∃ t, exec (.lda sz o) s = .next t ∧ frame t ∧ (t.core c).l1 = [] ∧
      ∀ r, t.me.greg r = if r = o.gd ∧ r ≠ 0 then v far else s.me.greg r)

/-- O16. Stores to memory, cached and at the coherence point, and composing stores (R16, R97, R103, R105, R122, R391, R125, R75, R76).
Which line leaves a full L1 is the model's choice (log entry 11), and no clause rests on it; what a composing store does where the
page ends beyond the window, or where the parent's entry is malformed or revoked, is the model's reading (log entry 78). -/
def Obligations.MemoryStores : Prop :=
  (∀ (s u : State) (sz : StoreSize) (o : MFmt) (pa c : Nat) (e : TlbEntry), s.runs = true →
    let va := s.me.greg o.ga + o.disp.signExtend 64
    let n := storeBytes sz
    va.toNat % n = 0 → pa % n = 0 → s.who.core = some c → c < s.cores.length →
    locate s s.who va.toNat .write = .ok (.mem pa e, u) → e.tw = false → e.nl1 = false → o.ord = 0 →
    (s.core c).l1Lines ≠ 0 →
    let stored : Nat → Byte := fun a => BitVec.ofNat 8 ((s.me.greg o.gb).toNat / 256 ^ (a - pa))
    ∃ t, exec (.st sz o) s = .next t ∧
      t = { s with strands := t.strands, cores := t.cores, llc := t.llc, mem := t.mem } ∧
      (∀ k, k ≠ s.cur → t.strand k = s.strand k) ∧ t.me = { s.me with pc := s.me.pc + 8 } ∧
      (∀ d, d ≠ c → t.core d = s.core d) ∧
      t.core c = { s.core c with tlb := (t.core c).tlb, l1 := (t.core c).l1 } ∧
      (∀ a, a / 128 = pa / 128 → t.seen c a = if pa ≤ a ∧ a < pa + n then stored a else s.seen c a) ∧
      (∀ a, Mem.get t.mem a = Mem.get s.mem a ∨ a / 128 ≠ pa / 128 ∧ ∃ l ∈ (s.core c).l1, l.line = a / 128 ∧
        l.dirty.getLsbD (a % 128) = true ∧ Mem.get t.mem a = BitVec.ofNat 8 (elemAt l.data 8 (a % 128))) ∧
      (((s.core c).l1.map (fun l => l.line)).Nodup → ∀ l ∈ (s.core c).l1, l.line ≠ pa / 128 → l ∈ (t.core c).l1 ∨
        ∀ k < 128, l.dirty.getLsbD k = true → Mem.get t.mem (128 * l.line + k) = BitVec.ofNat 8 (elemAt l.data 8 k)) ∧
      ((s.core c).hasRoom pa → SameMemory s t ∧
        ∀ a, t.seen c a = if pa ≤ a ∧ a < pa + n then stored a else s.seen c a) ∧
      ((s.core c).l1.length ≤ (s.core c).l1Lines → (t.core c).l1.length ≤ (t.core c).l1Lines)) ∧
  (∀ (s : State) (sz : StoreSize) (o : MFmt) (pa c : Nat) (e : TlbEntry), s.runs = true →
    let va := s.me.greg o.ga + o.disp.signExtend 64
    let n := storeBytes sz
    va.toNat % n = 0 → s.who.core = some c → e.tw = false →
    (∀ u, o.ord = 2 → o.scope ≠ 0 → locate (flushL1 s s.me.hive c) s.who va.toNat .write = .ok (.mem pa e, u) →
      ∃ t, exec (.stl sz o) s = .next t ∧ t.me = { s.me with pc := s.me.pc + 8 } ∧
        ∀ a, Mem.get t.mem a =
          if pa ≤ a ∧ a < pa + n then BitVec.ofNat 8 ((s.me.greg o.gb).toNat / 256 ^ (a - pa))
          else Mem.get (dropLine u s.me.hive c (pa / 128)).mem a) ∧
    (∀ u, o.ord = 0 → (e.nl1 = true ∨ (u.core c).l1Lines = 0) → locate s s.who va.toNat .write = .ok (.mem pa e, u) →
      ∃ t, exec (.st sz o) s = .next t ∧ t.me = { s.me with pc := s.me.pc + 8 } ∧
        ∀ a, Mem.get t.mem a =
          if pa ≤ a ∧ a < pa + n then BitVec.ofNat 8 ((s.me.greg o.gb).toNat / 256 ^ (a - pa))
          else Mem.get (dropLine u s.me.hive c (pa / 128)).mem a)) ∧
  (∀ (s u : State) (sz : StoreSize) (o : MFmt) (child off pa : Nat) (e : TlbEntry), s.runs = true → o.ord = 0 →
    let va := s.me.greg o.ga + o.disp.signExtend 64
    let v := charge u s.me.hive pa 128
    let refused : Trap := ⟨.protection, va, BitVec.ofNat 64 (1 + 64 + 256 + 65536), 0⟩
    va.toNat % storeBytes sz = 0 → locate s s.who va.toNat .write = .ok (.shadow child off pa e, u) → e.tw = false →
    (sz ≠ .d → exec (.st sz o) s = .next (raise s refused)) ∧
    (sz = .d → (∀ t ∈ linkedTables v (v.hive child), off < t.1 ∨ t.1 + tableSize t.2 ≤ off) →
      exec (.st sz o) s = .next (raise s refused)) ∧
    ∀ t, sz = .d → (linkedTables v (v.hive child)).find? (fun t => decide (t.1 ≤ off) && decide (off < t.1 + tableSize t.2)) = some t →
      (∀ y, composeAt v (v.hive child) off t.2 (s.me.greg o.gb).toNat va = .ok y → exec (.st sz o) s = .next y.advance) ∧
      ∀ tr, composeAt v (v.hive child) off t.2 (s.me.greg o.gb).toNat va = .error tr → exec (.st sz o) s = .next (raise s tr)) ∧
  ∀ (s : State) (h : Hive) (off level stored : Nat) (va : Word), stored < 2 ^ 64 →
    h.poolPhys off + 8 ≤ h.poolPhys (off + tableSize level) →
    let halves : Nat → Prop := fun eff => ∃ u, composeAt s h off level stored va = .ok u ∧
      Mem.read u.mem (h.poolPhys off) 8 = eff ∧ Mem.read u.mem (h.poolPhys (off + tableSize level)) 8 = stored ∧
      (∀ a, (a < h.poolPhys off ∨ h.poolPhys off + 8 ≤ a) →
        (a < h.poolPhys (off + tableSize level) ∨ h.poolPhys (off + tableSize level) + 8 ≤ a) → Mem.get u.mem a = Mem.get s.mem a) ∧
      h.poolPhys off ∉ (u.hive h.id).revoked
    let refuses : Cause → Nat → Prop := fun c r =>
      composeAt s h off level stored va = .error ⟨c, va, BitVec.ofNat 64 (1 + 64 + 256 * r + 65536), 0⟩
    (stored % 2 = 0 → halves 0) ∧
    (∀ out, viewForm level stored = .table out →
      (out + 2 * tableSize (level - 1) ≤ h.saveoff → h.poolPhys out % 256 = 0 → h.poolPhys out < 2 ^ 52 →
        halves (stored % 256 + h.poolPhys out)) ∧
      (h.saveoff < out + 2 * tableSize (level - 1) → refuses .protection 1)) ∧
    ∀ out r w tw nl1, viewForm level stored = .page out r w tw nl1 →
      (h.wsize < out + pageSize level → refuses .protection 1) ∧
      (out + pageSize level ≤ h.wsize →
        (walk s (s.hive h.parent) (h.wbase + out) = .fail .notPresent → refuses .pageFault 0) ∧
        ∀ back, walk s (s.hive h.parent) (h.wbase + out) = .leaf back →
          let d := h.wbase + out - back.vbase
          (back.size < d + pageSize level → refuses .protection 1) ∧
          (d + pageSize level ≤ back.size → (back.pbase + d) % 256 = 0 → back.pbase + d < 2 ^ 52 →
            halves (3 + 4 * (r && back.r).toNat + 8 * (w && back.w).toNat + 16 * tw.toNat + 32 * (nl1 || back.nl1).toNat
              + (back.pbase + d))))

/-- O17. Where scalar accesses trap (R77, R97, R98, R126, R368, R392). -/
def Obligations.AccessTraps : Prop :=
  ∀ (s : State) (o : MFmt), s.runs = true → o.ord.toNat < 4 →
    let va := s.me.greg o.ga + o.disp.signExtend 64
    let trap : AccessKind → Reason → Trap := fun k r =>
      ⟨match r with | .notPresent | .malformed => .pageFault | .notPermitted => .protection | .revoked => .revoked, va,
        BitVec.ofNat 64 (1 + k.code * 64 + r.code * 256 + 65536), 0⟩
    (∀ sz : LoadSize,
      (o.ord = 0 → va.toNat % loadBytes sz ≠ 0 → exec (.ld sz o) s = .next (raise s ⟨.align, va, 0, 0⟩)) ∧
      (o.ord = 0 → va.toNat % loadBytes sz = 0 → ∀ r, locate s s.who va.toNat .read = .error r →
        exec (.ld sz o) s = .next (raise s (trap .read r))) ∧
      (o.ord = 1 → va.toNat % loadBytes sz ≠ 0 → exec (.lda sz o) s = .next (raise s ⟨.align, va, 0, 0⟩)) ∧
      (o.ord = 1 → va.toNat % loadBytes sz = 0 → ∀ r, locate s s.who va.toNat .read = .error r →
        exec (.lda sz o) s = .next (raise s (trap .read r))) ∧
      (o.ord ≠ 0 → exec (.ld sz o) s = .next (raise s ⟨.illegalCombo, encode (.ld sz o), 0, 0⟩)) ∧
      (o.ord ≠ 1 → exec (.lda sz o) s = .next (raise s ⟨.illegalCombo, encode (.lda sz o), 0, 0⟩))) ∧
    ∀ sz : StoreSize,
      (o.ord = 0 → va.toNat % storeBytes sz ≠ 0 → exec (.st sz o) s = .next (raise s ⟨.align, va, 0, 0⟩)) ∧
      (o.ord = 0 → va.toNat % storeBytes sz = 0 → ∀ r, locate s s.who va.toNat .write = .error r →
        exec (.st sz o) s = .next (raise s (trap .write r))) ∧
      (o.ord = 0 → va.toNat % storeBytes sz = 0 → ∀ pa e u, locate s s.who va.toNat .write = .ok (.mem pa e, u) → e.tw = true →
        exec (.st sz o) s = .next (raise s (if sz = .d then
          ⟨.tableWrite, va, BitVec.ofNat 64 (e.hbase + (pa - e.pbase)), s.me.greg o.gb⟩ else trap .write .notPermitted))) ∧
      (o.ord = 2 → let a := releaseL1 s s.who o.scope.toNat
        (va.toNat % storeBytes sz ≠ 0 → exec (.stl sz o) s = .next (raise s ⟨.align, va, 0, 0⟩)) ∧
        (va.toNat % storeBytes sz = 0 → ∀ r, locate a s.who va.toNat .write = .error r →
          exec (.stl sz o) s = .next (raise s (trap .write r))) ∧
        (va.toNat % storeBytes sz = 0 → ∀ pa e u, locate a s.who va.toNat .write = .ok (.mem pa e, u) → e.tw = true →
          exec (.stl sz o) s = .next (raise s (if sz = .d then
            ⟨.tableWrite, va, BitVec.ofNat 64 (e.hbase + (pa - e.pbase)), s.me.greg o.gb⟩ else trap .write .notPermitted)))) ∧
      (o.ord ≠ 0 → exec (.st sz o) s = .next (raise s ⟨.illegalCombo, encode (.st sz o), 0, 0⟩)) ∧
      (o.ord ≠ 2 → exec (.stl sz o) s = .next (raise s ⟨.illegalCombo, encode (.stl sz o), 0, 0⟩))

/-- O18. Acquires and releases never lose a dirty byte (R105, R122, R125). -/
def Obligations.AcquireWritesBackAndInvalidates : Prop :=
  ∀ (s : State) (w : Who) (c scope : Nat), w.core = some c → c < s.cores.length →
    ((s.core c).l1.map (fun l => l.line)).Nodup →
    let after : Nat → Byte := fun a => match (s.core c).line (a / 128) with
      | some l => if l.dirty.getLsbD (a % 128) then BitVec.ofNat 8 (elemAt l.data 8 (a % 128)) else Mem.get s.mem a
      | none => Mem.get s.mem a
    acquireL1 s w 0 = s ∧ releaseL1 s w 0 = s ∧
    (scope ≠ 0 → ((acquireL1 s w scope).core c).l1 = [] ∧ (∀ a, Mem.get (acquireL1 s w scope).mem a = after a) ∧
      ((releaseL1 s w scope).core c).l1 = (s.core c).l1.map (fun l => { l with dirty := 0 }) ∧
      ∀ a, Mem.get (releaseL1 s w scope).mem a = after a)

/-- O19. AMO in scratchpad and in memory (R98, R125, R322, R323, R97, R105). -/
def Obligations.AtomicReadModifyWrites : Prop :=
  (∀ (s : State) (op : AmoOp) (wide : Bool) (o : MFmt) (c off : Nat), s.runs = true → c < s.cores.length →
    let va := s.me.greg o.ga + o.disp.signExtend 64
    let n := if wide then 8 else 4
    let b := 8 * n
    let old := ofLeBytes ((List.range n).map (fun k => Mem.get (s.core c).scratch (off + k)))
    let x := (s.me.greg o.gb).toNat % 2 ^ b
    let signed : Nat → Int := fun y => (BitVec.ofNat b y).toInt
    let new := match op with
      | .add => (old + x) % 2 ^ b
      | .swap => x
      | .cas => if old = (s.me.greg o.gd).toNat % 2 ^ b then x else old
      | .and => old &&& x
      | .or => old ||| x
      | .min => if signed old ≤ signed x then old else x
      | .max => if signed old ≤ signed x then x else old
      | .minu => min old x
      | .maxu => max old x
    (va.toNat % n = 0 → locate s s.who va.toNat .amo = .ok (.scratch c off, s) →
      ∃ t, exec (.amo op wide o) s = .next t ∧ t.me = { s.me with g := t.me.g, pc := s.me.pc + 8 } ∧
        (∀ r, t.me.greg r = if r = o.gd ∧ r ≠ 0 then (BitVec.ofNat b old).signExtend 64 else s.me.greg r) ∧
        (∀ a, a < off ∨ off + n ≤ a → Mem.get (t.core c).scratch a = Mem.get (s.core c).scratch a) ∧
        ofLeBytes ((List.range n).map (fun k => Mem.get (t.core c).scratch (off + k))) = new ∧
        (o.ord = 0 → t = { s with strands := t.strands, cores := t.cores } ∧ (∀ k, k ≠ s.cur → t.strand k = s.strand k) ∧
          (∀ d, d ≠ c → t.core d = s.core d) ∧ t.core c = { s.core c with scratch := (t.core c).scratch })) ∧
    (va.toNat % n ≠ 0 →
      exec (.amo op wide o) s = .next (raise s ⟨.align, va, 0, 0⟩))) ∧
  (∀ (s u : State) (op : AmoOp) (wide : Bool) (o : MFmt) (pa c : Nat) (e : TlbEntry), s.runs = true →
    let va := s.me.greg o.ga + o.disp.signExtend 64
    let n := if wide then 8 else 4
    let b := 8 * n
    va.toNat % n = 0 → s.who.core = some c → e.tw = false →
    locate (if o.ord.getLsbD 1 then releaseL1 s s.who o.scope.toNat else s) s.who va.toNat .amo = .ok (.mem pa e, u) →
    let m := (dropLine u s.me.hive c (pa / 128)).mem
    let old := ofLeBytes ((List.range n).map (fun k => Mem.get m (pa + k)))
    ∃ v, exec (.amo op wide o) s =
        .next ((if o.ord.getLsbD 0 then acquireL1 v s.who o.scope.toNat else v).finish o.gd ((BitVec.ofNat b old).signExtend 64)) ∧
      v = { s with cores := v.cores, llc := v.llc, mem := v.mem } ∧
      (∀ d, v.core d = { s.core d with tlb := (v.core d).tlb, l1 := (v.core d).l1 }) ∧ (∀ d, d ≠ c → v.core d = s.core d) ∧
      (∀ l ∈ (v.core c).l1, l.line ≠ pa / 128) ∧
      (∀ l ∈ (s.core c).l1, l.line ≠ pa / 128 →
        (if o.ord.getLsbD 1 = true ∧ o.scope ≠ 0 then { l with dirty := 0 } else l) ∈ (v.core c).l1) ∧
      (∀ a, a < pa ∨ pa + n ≤ a → Mem.get v.mem a = Mem.get m a) ∧
      ofLeBytes ((List.range n).map (fun k => Mem.get v.mem (pa + k))) =
        (amoNew op b old (s.me.greg o.gb).toNat (s.me.greg o.gd).toNat).getD old)

/-- O20. LDFE, STFE and WAITW with their wakes (R107, R108, R369, R393, R26, R105, R445). -/
def Obligations.FullEmptyAndWaitingLoads : Prop :=
  (∀ (s : State) (wide : Bool) (o : MFmt) (c off : Nat), s.runs = true → c < s.cores.length →
    let va := s.me.greg o.ga + o.disp.signExtend 64
    let n := if wide then 8 else 4
    let x := ofLeBytes ((List.range n).map (fun k => Mem.get (s.core c).scratch (off + k)))
    va.toNat % n = 0 → 0x01F0000000000000 ≤ va.toNat → va.toNat < 2 ^ 57 →
    (locate s s.who va.toNat .write = .ok (.scratch c off, s) →
      ∃ t, exec (.stfe wide o) s = .next t ∧ t.me = { s.me with pc := s.me.pc + 8 } ∧ t.mem = s.mem ∧
        (∀ g, (t.core c).isFull g = true ↔ g = off / 16 ∨ (s.core c).isFull g = true) ∧
        ∀ a, Mem.get (t.core c).scratch a = if off ≤ a ∧ a < off + n
          then BitVec.ofNat 8 ((s.me.greg o.gb).toNat / 256 ^ (a - off)) else Mem.get (s.core c).scratch a) ∧
    (locate s s.who va.toNat .read = .ok (.scratch c off, s) → ∀ clr : Bool,
      let b := s.modMe (fun t => { t with status := .blocked (.ldfe wide clr o) })
      ((s.core c).isFull (off / 16) = true →
        ∃ t, exec (.ldfe wide clr o) s = .next t ∧ exec (.ldfeWake s.cur) b = .next t ∧ SameMemory s t ∧ t.me = { s.me with g := t.me.g, pc := s.me.pc + 8 } ∧
          (∀ r, t.me.greg r = if r = o.gd ∧ r ≠ 0 then (BitVec.ofNat (8 * n) x).signExtend 64 else s.me.greg r) ∧
          ∀ g, (t.core c).isFull g = true ↔ (s.core c).isFull g = true ∧ (clr = true → g ≠ off / 16)) ∧
      ((s.core c).isFull (off / 16) = false →
        exec (.ldfe wide clr o) s = .next b ∧ exec (.ldfeWake s.cur) b = .next b))) ∧
  (∀ (s : State) (o : MFmt) (c off : Nat), s.runs = true →
    let va := s.me.greg o.ga + o.disp.signExtend 64
    let x : Word := BitVec.ofNat 64 (ofLeBytes ((List.range 8).map (fun k => Mem.get (s.core c).scratch (off + k))))
    va.toNat % 8 = 0 → locate s s.who va.toNat .read = .ok (.scratch c off, s) →
    let b := s.modMe (fun t => { t with status := .blocked (.waitw o) })
    let done := (acquireL1 s s.who 3).finish o.gd x
    (x ≠ s.me.greg o.gb → exec (.waitw o) s = .next done ∧ exec (.waitwWake s.cur) b = .next done) ∧
    (x = s.me.greg o.gb → exec (.waitw o) s = .next b ∧ exec (.waitwWake s.cur) b = .next b)) ∧
  (∀ (s u : State) (o : MFmt) (pa c : Nat) (e : TlbEntry), s.runs = true → s.who.core = some c →
    let va := s.me.greg o.ga + o.disp.signExtend 64
    va.toNat % 8 = 0 → locate s s.who va.toNat .read = .ok (.mem pa e, u) →
    let m := (dropLine u s.me.hive c (pa / 128)).mem
    let x : Word := BitVec.ofNat 64 (ofLeBytes ((List.range 8).map (fun k => Mem.get m (pa + k))))
    ∃ v, v = { s with cores := v.cores, llc := v.llc, mem := m } ∧ (∀ d, d ≠ c → v.core d = s.core d) ∧
      v.core c = { s.core c with tlb := (v.core c).tlb, l1 := (v.core c).l1 } ∧
      (x ≠ s.me.greg o.gb → exec (.waitw o) s = .next ((acquireL1 v s.who 3).finish o.gd x)) ∧
      (x = s.me.greg o.gb → exec (.waitw o) s = .next (v.modMe (fun t => { t with status := .blocked (.waitw o) }))) ∧
      exec (.waitwWake s.cur) (s.modMe (fun t => { t with status := .blocked (.waitw o) })) = exec (.waitw o) s)

/-- O21. The four fences (R105, R127). -/
def Obligations.FencesComplete : Prop :=
  ∀ (s : State) (o : MFmt), s.runs = true →
    let quiet := s.me.queue.any (fun e => e.vectorAccess) = false
    let done := (acquireL1 s s.who o.scope.toNat).modMe (fun t => { t with pc := t.pc + 8 })
    exec (.fenceSv o) s = .next done ∧
    (quiet → exec (.fenceVs o) s = .next done ∧ exec (.fenceVv o) s = .next done ∧ exec (.fenceAll o) s = .next done) ∧
    (¬ quiet → exec (.fenceVs o) s = .next { s with stalled := true } ∧ exec (.fenceAll o) s = .next { s with stalled := true } ∧
      exec (.fenceVv o) s = .next (s.modMe (fun t => { t with
        pc := t.pc + 8
        queue := t.queue.modify (t.queue.length - 1) (fun e => { e with
          fence := some (match e.fence with | none => o.scope | some c => if c.toNat < o.scope.toNat then o.scope else c) }) })))

/-- O22. SETVL, CTLRD and CYCRD (R52, R53, R54, R56, R151, R255, R283, R284, R330, R333). -/
def Obligations.GrantsAndControlRegisterReads : Prop :=
  (∀ (s : State) (o : IFmt), s.runs = true →
    let w := (ElemType.ofCode (o.q.extractLsb' 0 4)).width
    let g := max (min s.me.pg s.myCore.vlgrant) s.me.vlmin
    let n := min (s.me.greg o.ga).toNat (g * 2048 / w)
    ∃ t, exec (.setvl o) s = .next t ∧ OnlyMe s t ∧
      t.me = { s.me with g := t.me.g, pc := s.me.pc + 8, grant := g, egs := t.me.egs } ∧
      ∀ r, t.me.greg r = if r = o.gd ∧ r ≠ 0 then BitVec.ofNat 64 n else s.me.greg r) ∧
  (∀ (s : State) (o : IFmt), s.runs = true →
    let t := s.me
    let h := s.myHive
    let reads : BitVec 32 → Word → Prop := fun n v => o.imm = n → Gives (.ctlrd o) s o.gd v
    reads 0x00 (BitVec.ofNat 64 (s.myCore.vlgrant % 16)) ∧ reads 0x01 (BitVec.ofNat 64 (s.myCore.mvlc % 4)) ∧
    (t.queue = [] → reads 0x02 (t.fpctl &&& 0xFFF) ∧ reads 0x03 (t.seed.setWidth 64)) ∧
    (t.queue ≠ [] → o.imm = 2 ∨ o.imm = 3 → exec (.ctlrd o) s = .next { s with stalled := true }) ∧
    reads 0x04 h.trapvec ∧ reads 0x05 t.trappc ∧ reads 0x06 t.trapcause ∧ reads 0x07 t.trapval ∧ reads 0x08 t.trapinfo ∧
    reads 0x09 (BitVec.ofNat 64 h.codebase) ∧ reads 0x0A (BitVec.ofNat 64 h.codebound) ∧
    reads 0x0B (BitVec.ofNat 64 h.id) ∧ reads 0x0C (BitVec.ofNat 64 h.depth) ∧ reads 0x0D h.tblroot ∧
    reads 0x0E (t.yieldwin.setWidth 64) ∧ reads 0x0F (t.strandId.setWidth 64) ∧ reads 0x10 (t.gangId.setWidth 64) ∧
    reads 0x11 (BitVec.ofNat 64 (coreShareWord h t.shareD)) ∧ reads 0x12 (s.myCore.sps.setWidth 64) ∧
    Gives (.cycrd o) s o.gd s.myCore.cycles)

/-- O23. CTLWR of every register but SPLIT (R149, R151, R154, R255, R331, R77, R83, R330). That a root's TBLROOT is composed in
the same step, with no record and between a release and an acquire, and where its shadow tables then stand, is the model's choice
(log entries 51 and 20). -/
def Obligations.ControlRegisterWriting : Prop :=
  (∀ (s : State) (o : IFmt), s.runs = true →
    let x := s.me.greg o.ga
    (s.me.queue = [] →
      (x.toNat % 8 < 6 → ∃ t, exec (.ctlwrFpctl o) s = .next t ∧ OnlyMe s t ∧
        t.me = { s.me with fpctl := x &&& 0xFFF, pc := s.me.pc + 8 }) ∧
      (6 ≤ x.toNat % 8 → exec (.ctlwrFpctl o) s = .next (raise s ⟨.illegalField, encode (.ctlwrFpctl o), 0, 0⟩)) ∧
      ∃ t, exec (.ctlwrSeed o) s = .next t ∧ OnlyMe s t ∧
        t.me = { s.me with seed := x.setWidth 32, rsr := t.me.rsr, pc := s.me.pc + 8 } ∧
        ∀ k : Fin 64, t.me.rsr[k] =
          (let v : BitVec 32 := x.setWidth 32 ^^^ (0x9E3779B9 * BitVec.ofNat 32 (k.val + 1)); if v = 0 then 1 else v)) ∧
    (s.me.queue ≠ [] → exec (.ctlwrFpctl o) s = .next { s with stalled := true } ∧
      exec (.ctlwrSeed o) s = .next { s with stalled := true }) ∧
    (∃ t, exec (.ctlwrYieldwin o) s = .next t ∧ OnlyMe s t ∧ t.me = { s.me with yieldwin := x.setWidth 16, pc := s.me.pc + 8 }) ∧
    (x.toNat % 8 = 0 → s.myHive.codebase ≤ x.toNat → x.toNat + 8 ≤ s.myHive.codebound →
      exec (.ctlwrTrapvec o) s =
        .next ((s.modHive s.myHive.id (fun h => { h with trapvec := x })).modMe (fun t => { t with pc := t.pc + 8 }))) ∧
    (x.toNat % 8 ≠ 0 → exec (.ctlwrTrapvec o) s = .next (raise s ⟨.align, x, 0, 0⟩)) ∧
    (x.toNat % 8 = 0 → (x.toNat < s.myHive.codebase ∨ s.myHive.codebound < x.toNat + 8) →
      exec (.ctlwrTrapvec o) s = .next (raise s ⟨.codeBound, x, 0, 0⟩)) ∧
    exec (.ctlwr o) s = .next (raise s ⟨.privilege, encode (.ctlwr o), 0, 0⟩)) ∧
  (∀ (s : State) (o : IFmt), s.runs = true →
    let x := s.me.greg o.ga
    (s.myHive.parent ≠ 0 → exec (.ctlwrTblroot o) s = .next (raise s ⟨.tableWrite, 0, x, x⟩)) ∧
    (s.myHive.parent = 0 → s.me.queue ≠ [] → exec (.ctlwrTblroot o) s = .next { s with stalled := true }) ∧
    (s.myHive.parent = 0 → s.me.queue = [] → exec (.ctlwrTblroot o) s =
      .next ((acquireL1 (firmwareRoot (releaseL1 s s.who 2) s.myHive x.toNat) s.who 2).modMe (fun t => { t with pc := t.pc + 8 }))))

/-- O24. CTLWR SPLIT, CFLUSH and AINV (R103, R104, R68, R79, R101). That AINV takes effect at one point, with the buffers flushed
and the dirty lines written back there, is the model's reading (log entry 47). -/
def Obligations.SplitFlushAndInvalidate : Prop :=
  (∀ (s : State) (o : IFmt), s.runs = true → s.me.coreNo < s.cores.length →
    let x := s.me.greg o.ga
    let c := s.me.coreNo
    let others := ∃ k, k < s.strands.length ∧ k ≠ s.cur ∧ (s.strand k).placed = true ∧ (s.strand k).coreNo = c
    let busy := ∃ m ∈ s.cmds, m.share.core = c ∧ m.usesScratch = true
    let whole := (⟨c, 0, 16⟩ : ShareRef) ∈ s.myHive.shares
    (¬ whole → exec (.ctlwrSplit o) s = .next (raise s ⟨.privilege, encode (.ctlwrSplit o), 0, 0⟩)) ∧
    (whole → x.toNat % 8 = 7 → exec (.ctlwrSplit o) s = .next (raise s ⟨.illegalField, x, 0, 0⟩)) ∧
    (whole → x.toNat % 8 < 7 → (others ∨ busy ∨ padsOf s c ≠ []) →
      exec (.ctlwrSplit o) s = .next (raise s ⟨.illegalCombo, encode (.ctlwrSplit o), 0, 0⟩)) ∧
    (whole → x.toNat % 8 < 7 → ¬ others → ¬ busy → padsOf s c = [] → s.me.queue = [] →
      let keep := min (512 + 256 * (s.core c).sps.toNat) (512 + 256 * (x.toNat % 8)) * 1024
      ∃ t, exec (.ctlwrSplit o) s = .next t ∧ t.me = { s.me with pc := s.me.pc + 8 } ∧ (t.core c).sps = x.setWidth 3 ∧
        (t.core c).l1 = [] ∧ t.mem = (clearL1 s s.me.hive c).mem ∧
        (∀ a, Mem.get (t.core c).scratch a = if a < keep then Mem.get (s.core c).scratch a else 0) ∧
        ∀ g, (t.core c).isFull g = true ↔ (s.core c).isFull g = true ∧ 16 * g < keep)) ∧
  (∀ (s : State) (o : GFmt), s.runs = true →
    let a := s.me.greg o.ga
    let n := (s.me.greg o.gb).toNat
    let h := s.myHive
    let quiet := s.me.queue.any (fun e => e.vectorAccess) = false
    (a.toNat % 8 ≠ 0 ∨ n % 8 ≠ 0 → exec (.cflush o) s = .next (raise s ⟨.align, a, 0, 0⟩)) ∧
    (a.toNat % 8 = 0 → n % 8 = 0 → n ≠ 0 → (a.toNat < h.codebase ∨ h.codebound < a.toNat + n) →
      exec (.cflush o) s = .next (raise s ⟨.codeBound, a, 0, 0⟩)) ∧
    (a.toNat % 8 = 0 → n % 8 = 0 → (n = 0 ∨ (h.codebase ≤ a.toNat ∧ a.toNat + n ≤ h.codebound)) → quiet →
      ∃ t, exec (.cflush o) s = .next t ∧ t.me = { s.me with pc := s.me.pc + 8 } ∧ t.mem = (acquireL1 s s.who 2).mem ∧
        (n ≠ 0 → ∀ d ∈ s.hives, s.within h.id d.id = true → ∀ x ∈ d.shares, ∀ l ∈ (t.core x.core).icache,
          ¬ (a.toNat / 128 ≤ l.1 / 128 ∧ l.1 / 128 ≤ (a.toNat + n - 1) / 128))) ∧
    (∀ d, s.findHive a.toNat = some d → d.parent = s.me.hive → s.me.hive ≠ 0 →
      (quiet → (s.part h.part).taking = none →
        ∃ t, exec (.ainv o) s = .next t ∧ t.me = { s.me with pc := s.me.pc + 8 } ∧ (t.hive a.toNat).gen = d.gen + 1 ∧
          (∀ w ∈ t.walks, w.hive = a.toNat → w.begun = true → w.gen = d.gen + 1) ∧
          (∀ c < t.cores.length, (∀ b ∈ (t.core c).bufs, b.hive ≠ a.toNat) ∧
            ∀ l ∈ (t.core c).l1, l.dirty ≠ 0 → l.hive ≠ a.toNat ∧ ∀ x ∈ d.shares, x.core ≠ c) ∧
          ∀ e ∈ s.myCore.tlb, e.covers a.toNat (t.hive a.toNat).gen e.vbase = true → e.gen = d.gen + 1) ∧
      (¬ quiet ∨ (s.part h.part).taking ≠ none → exec (.ainv o) s = .next { s with stalled := true })) ∧
    ((∀ d, s.findHive a.toNat = some d → d.parent ≠ s.me.hive) →
      exec (.ainv o) s = .next (raise s ⟨.privilege, encode (.ainv o), 0, 0⟩)))

/-- O25. TRAP, BRK, TMARK and the delivery of a trap that waited (R311, R312, R251, R253, R255, R256, R252, R260). -/
def Obligations.TrapsMarksAndDelivery : Prop :=
  (∀ (s : State) (o : IFmt), s.runs = true →
    let h := s.myHive
    let base := h.tracebase.toNat
    let on : State → State := fun x => x.modMe (fun t => { t with pc := t.pc + 8 })
    let room : Nat → Nat := fun count => base + 64 + 32 * (count % max ((h.tracesize - 64) / 32) 1)
    let mark := leBytes 8 s.myCore.cycles.toNat ++ leBytes 2 s.me.coreNo ++ leBytes 1 1 ++ leBytes 1 0 ++
      leBytes 4 s.me.strandId.toNat ++ leBytes 8 (s.me.greg o.ga).toNat ++ leBytes 8 o.imm.toNat
    (∃ t, exec (.tmark o) s = .next t ∧ t.hives = s.hives ∧ (∀ k, k ≠ s.cur → t.strand k = s.strand k) ∧
      t.me = { s.me with pc := s.me.pc + 8 }) ∧
    (h.tracesize = 0 → GoesTo (.tmark o) s (s.me.pc + 8)) ∧
    (h.tracesize ≠ 0 → ∀ count u, deviceRead s h.id base = some (count, u) →
      (deviceWritable u h.id (room count) 32 = true → deviceWritable u h.id base 8 = true →
        mark.length = 32 ∧
        exec (.tmark o) s = .next (on (deviceWrite (deviceWrite u h.id (room count) mark) h.id base (leBytes 8 (count + 1))))) ∧
      ((deviceWritable u h.id (room count) 32 = false ∨ deviceWritable u h.id base 8 = false) →
        ∀ lost v, deviceRead u h.id (base + 8) = some (lost, v) → deviceWritable v h.id (base + 8) 8 = true →
          exec (.tmark o) s = .next (on (deviceWrite v h.id (base + 8) (leBytes 8 (lost + 1))))))) ∧
  (∀ (s : State) (o : IFmt), s.runs = true →
    let soft : Trap := ⟨.software, o.imm.setWidth 64, 0, 0⟩
    let stop : Trap := ⟨.brk, o.imm.setWidth 64, 0, 0⟩
    exec (.trap o) s = .next (raise s soft) ∧ exec (.brk o) s = .next (raise s stop) ∧
    (s.me.queue = [] → s.me.trapcause.getLsbD 8 = false →
      (s.myHive.trapmask.getLsbD 0x20 = true →
        ∃ t, exec (.trap o) s = .next t ∧ EntersHandler s t s.cur soft s.me.pc false []) ∧
      (s.myHive.trapmask.getLsbD 0x21 = true →
        ∃ t, exec (.brk o) s = .next t ∧ EntersHandler s t s.cur stop s.me.pc false [])) ∧
    (s.me.queue = [] → (s.me.trapcause.getLsbD 8 = true ∨ s.myHive.trapmask.getLsbD 0x20 = false) →
      ∃ t, exec (.trap o) s = .next t ∧ t.me.status = .suspended ∧ t.me.placed = false) ∧
    (s.me.queue = [] → (s.me.trapcause.getLsbD 8 = true ∨ s.myHive.trapmask.getLsbD 0x21 = false) →
      ∃ t, exec (.brk o) s = .next t ∧ t.me.status = .suspended ∧ t.me.placed = false) ∧
    (s.me.queue ≠ [] → exec (.trap o) s = .next (s.modMe (fun t => { t with pendTrap := some (soft, t.pc) })) ∧
      exec (.brk o) s = .next (s.modMe (fun t => { t with pendTrap := some (stop, t.pc) })))) ∧
  (∀ (s : State) (k : Nat) (x : Trap) (pc : Word), (s.strand k).placed = true → (s.strand k).resuming = false →
    ((s.strand k).pendFault = none → (s.strand k).pendTrap = some (x, pc) → (s.strand k).queue = [] →
      exec (.trapDelivery k) s = .next (deliver s k x pc false []) ∧
      (x.cause.parental = false → (s.hive (s.strand k).hive).trapmask.getLsbD x.cause.code = true →
        (s.strand k).trapcause.getLsbD 8 = false →
        ∃ t, exec (.trapDelivery k) s = .next t ∧ EntersHandler s t k x pc false [])) ∧
    ((s.strand k).pendFault = none → (s.strand k).pendTrap = some (x, pc) → (s.strand k).queue ≠ [] →
      exec (.trapDelivery k) s = .next s) ∧
    ∀ f, (s.strand k).pendFault = some f → f.older = 0 →
      let u := s.modStrand k (fun t => { (if f.underM7 then t.setMreg 7 f.m7 else t) with pendFault := none })
      exec (.trapDelivery k) s = .next (raiseQueued u k f.trap f.underM7) ∧
      ∀ e rest, (s.strand k).queue = e :: rest → f.trap.cause.parental = false →
        (s.hive (s.strand k).hive).trapmask.getLsbD f.trap.cause.code = true → (s.strand k).trapcause.getLsbD 8 = false →
        ∃ t, exec (.trapDelivery k) s = .next t ∧ EntersHandler u t k f.trap e.addr true
          (({ e with underM7 := f.underM7 } :: rest).map (fun d => { d with p := 0, flags := 0, tags := none })))

/-- O26. A local trap is delivered to the strand itself, and TRET undoes it (R249, R251, R253, R255, R257). -/
def Obligations.LocalTrapAndReturn : Prop :=
  (∀ (s : State) (x : Trap), s.runs = true → s.me.queue = [] → x.cause.parental = false →
    s.myHive.trapmask.getLsbD x.cause.code = true → s.me.trapcause.getLsbD 8 = false →
    EntersHandler s (raise s x) s.cur x s.me.pc false [] ∧ (raise s x).me.status = .running) ∧
  (∀ (s : State) (x : Trap) (o : GFmt) (w : Vector Word 4) (pc : Word), s.runs = true → s.me.queue = [] →
    x.cause.parental = false → s.myHive.trapmask.getLsbD x.cause.code = true → s.me.trapcause.getLsbD 8 = false →
    let u := (raise s x).modMe (fun t => { t with
      g := (((t.g.set 28 w[0]).set 29 w[1]).set 30 w[2]).set 31 w[3], pc := pc })
    (∃ v, exec (.tret o) u = .next v ∧ v.me.pc = s.me.pc ∧ (∀ r, v.me.greg r = s.me.greg r) ∧ v.me.queue = [] ∧
      v.me.trapcause.getLsbD 8 = false) ∧
    ∃ v, exec (.tretSkip o) u = .next v ∧ v.me.pc = s.me.pc + 8 ∧ (∀ r, v.me.greg r = s.me.greg r) ∧ v.me.queue = [])

/-- O27. A parental or declined trap suspends the strand and posts a record (R74, R80, R81, R82, R83, R253, R254, R302). That TAIL is
read from memory at each post is the model's choice (log entry 66). -/
def Obligations.ParentalTrapDelivery : Prop :=
  (∀ (s : State) (x : Trap), s.runs = true → s.me.queue = [] →
    (x.cause.parental = true ∨ s.myHive.trapmask.getLsbD x.cause.code = false ∨ s.me.trapcause.getLsbD 8 = true) →
    ¬ (x.cause = .tableWrite ∧ s.myHive.parent = 0) →
    let u := raise s x
    u.me.status = .suspended ∧ u.me.placed = false ∧ u.me.egs = 0 ∧ u.me.preempt = none ∧
    (∀ k, k ≠ s.cur → u.strand k = s.strand k) ∧
    ((s.findHive s.me.hive).isSome = true → (u.hive s.me.hive).reflected = (s.hive s.me.hive).reflected + 1) ∧
    ∃ p : Suspension, u.me.susp = some p ∧
      p.kind = (if s.me.trapcause.getLsbD 8 then .handlerTrap else .trap) ∧
      p.record.cause = x.cause.code ∧ p.record.hive = s.me.hive ∧ p.record.strand = s.me.strandId ∧
      p.record.gang = s.me.gangId ∧ p.record.pc = s.me.pc ∧ p.record.val = x.val ∧ p.record.info = x.info ∧
      p.record.data = x.data ∧ p.record.ticket = p.ticket ∧ 0x10000 ≤ p.ticket.toNat ∧
      p.record.save = BitVec.ofNat 64 (entryOff s.myHive s.me) ∧
      p.record.flags = (if x.cause.parental = false ∨ s.me.trapcause.getLsbD 8 = true then 2 else 0) ∧
      ∃ w, w.hives = (s.modHive s.myHive.id (fun h => { h with reflected := h.reflected + 1 })).hives ∧ w.parts = s.parts ∧
        (post w s.myHive.parent s.myHive.part p.record).1 = p.holder ∧
        u = { (post w s.myHive.parent s.myHive.part p.record).2 with strands := u.strands, nextTicket := s.nextTicket + 1 }) ∧
  (∀ (r : TrapRecord) (n : Nat), (r.bytes n).length = 64 ∧
    let f := field (ofLeBytes (r.bytes n))
    f 0 4 = r.ticket.toNat ∧ f 4 1 = r.cause % 256 ∧ f 5 1 = r.flags.toNat ∧ f 6 2 = r.hive % 65536 ∧ f 8 4 = r.strand.toNat ∧
    f 0xC 4 = r.gang.toNat ∧ f 0x10 8 = r.pc.toNat ∧ f 0x18 8 = r.val.toNat ∧ f 0x20 8 = r.info.toNat ∧
    f 0x28 8 = r.data.toNat ∧ f 0x30 8 = r.save.toNat ∧ f 0x38 8 = n % 2 ^ 64) ∧
  (∀ (s : State) (owner part n : Nat) (r : TrapRecord), owner ≠ 0 → (s.findHive owner).isSome = true →
    let h := s.hive owner
    let base := h.tqbase.toNat
    let entry : Nat → Nat := fun tail => base + 64 + 64 * (tail % max h.tqsize 1)
    (∀ head a tail b, deviceRead s owner base = some (head, a) → deviceRead a owner (base + 8) = some (tail, b) →
      ((tail + 2 ^ 64 - head) % 2 ^ 64 < h.tqsize → deviceWritable b owner (entry tail) 64 = true →
        deviceWritable b owner (base + 8) 8 = true →
        postFrom (n + 1) s owner part r = (owner,
          (deviceWrite (deviceWrite b owner (entry tail) (r.bytes h.seq)) owner (base + 8) (leBytes 8 (tail + 1))).modHive owner
            (fun x => { x with seq := x.seq + 1 }))) ∧
      (h.tqsize ≤ (tail + 2 ^ 64 - head) % 2 ^ 64 → ∃ t, postFrom (n + 1) s owner part r = (owner, t) ∧ t.mem = s.mem ∧
        (r.ticket ≠ 0 → (t.hive owner).pend = h.pend ++ [r] ∧ (t.hive owner).pendNotices = h.pendNotices))) ∧
    ((deviceRead s owner base = none ∨
        (∃ head a, deviceRead s owner base = some (head, a) ∧ deviceRead a owner (base + 8) = none)) →
      ∃ t, postFrom (n + 1) s owner part r = postFrom n t h.parent part { r with flags := r.flags ||| 4 } ∧
        t.mem = s.mem ∧ t.hives = s.hives ∧ t.parts = s.parts)) ∧
  (∀ (s : State) (owner va pa : Nat) (e : TlbEntry) (v : State) (bs : List Byte), va % 65536 + bs.length ≤ 65536 →
    locate s ⟨owner, none, false⟩ va .write = .ok (.mem pa e, v) →
    ∀ a, Mem.get (deviceWrite s owner va bs).mem a =
      if pa ≤ a ∧ a < pa + bs.length then bs.getD (a - pa) 0 else Mem.get s.mem a) ∧
  ∀ (s : State) (part n : Nat) (r : TrapRecord), part < s.parts.length →
    let p := s.part part
    let head := Mem.read s.mem p.hqbase 8
    let tail := Mem.read s.mem (p.hqbase + 8) 8
    ((tail + 2 ^ 64 - head) % 2 ^ 64 < p.hqsize → ∃ t, postFrom (n + 1) s 0 part r = (0, t) ∧
      (∀ k < 64, Mem.get t.mem (p.hqbase + 64 + 64 * (tail % p.hqsize) + k) = (r.bytes p.seq).getD k 0) ∧
      Mem.read t.mem (p.hqbase + 8) 8 = (tail + 1) % 2 ^ 64 ∧ (t.part part).seq = p.seq + 1 ∧
      t.interrupts = (if head = tail then part :: s.interrupts else s.interrupts)) ∧
    (p.hqsize ≤ (tail + 2 ^ 64 - head) % 2 ^ 64 → ∃ t, postFrom (n + 1) s 0 part r = (0, t) ∧ t.mem = s.mem ∧
      (t.part part).pend = p.pend ++ [r])

/-- O28. TRET and TRET.SKIP (R255, R257). -/
def Obligations.TretReturns : Prop :=
  ∀ (s : State) (o : GFmt), s.runs = true →
    let t := s.me
    let back : Strand → Prop := fun r =>
      (∀ k, r.greg k = if k = 28 then t.hsave[0] else if k = 29 then t.hsave[1] else if k = 30 then t.hsave[2]
        else if k = 31 then t.hsave[3] else t.greg k) ∧
      r.trapcause = t.trapcause &&& ~~~256 ∧ r.held = [] ∧ r.v = t.v ∧ r.m = t.m ∧ r.fpctl = t.fpctl ∧
      r.trappc = t.trappc ∧ r.trapval = t.trapval
    (t.trapcause.getLsbD 8 = false →
      exec (.tret o) s = .next (raise s ⟨.illegalCombo, encode (.tret o), 0, 0⟩) ∧
      exec (.tretSkip o) s = .next (raise s ⟨.illegalCombo, encode (.tretSkip o), 0, 0⟩)) ∧
    (t.trapcause.getLsbD 8 = true → t.queue ≠ [] →
      exec (.tret o) s = .next { s with stalled := true } ∧ exec (.tretSkip o) s = .next { s with stalled := true }) ∧
    (t.trapcause.getLsbD 8 = true → t.queue = [] →
      (∃ u, exec (.tret o) s = .next u ∧ u.mem = (acquireL1 s s.who 2).mem ∧ back u.me ∧
        u.me.pc = (if t.trapcause.getLsbD 9 then t.resumePc else t.trappc) ∧
        u.me.queue = (if t.trapcause.getLsbD 9 then t.held else []) ∧ u.me.streams = t.streams ∧
        ((∀ e ∈ t.held, ∀ j, e.item ≠ .instr (.fdrain j)) → u.me.status = .running)) ∧
      ∃ u, exec (.tretSkip o) s = .next u ∧ u.mem = (acquireL1 s s.who 2).mem ∧ back u.me ∧
        u.me.pc = (if t.trapcause.getLsbD 9 then t.resumePc else t.trappc + 8) ∧
        u.me.queue = (if t.trapcause.getLsbD 9 then t.held.drop 1 else []) ∧
        ∀ e rest k n, t.held = e :: rest → streamUse e = some (k, n) →
          (u.me.stream k).pos = (t.stream k).pos + BitVec.ofNat 64 n)

/-- O29. YIELD, pre-emption, the save entry and resumption (R258, R259, R261, R262, R263, R264, R265). The progress index of an
instruction without EGs (log entry 18), and what a held instruction resumes with beyond its 64 bytes (log entry 17), are the
model's reading. -/
def Obligations.PreemptionAndResumption : Prop :=
  (∀ (s : State) (o : GFmt), s.runs = true →
    let b := s.me.greg o.gb
    (2 ^ 24 ≤ b.toNat → exec (.yield o) s = .next (raise s ⟨.illegalField, b, 0, 0⟩)) ∧
    (b.toNat < 2 ^ 24 → (s.me.preempt = none ∨ s.me.trapcause.getLsbD 8 = true) → Gives (.yield o) s o.gd 0) ∧
    (b.toNat < 2 ^ 24 → s.me.preempt ≠ none → s.me.trapcause.getLsbD 8 = false → s.me.queue ≠ [] →
      exec (.yield o) s = .next { s with stalled := true }) ∧
    (b.toNat < 2 ^ 24 → s.me.preempt ≠ none → s.me.trapcause.getLsbD 8 = false → s.me.queue = [] →
      ∃ t, exec (.yield o) s = .next t ∧ t.me.status = .suspended ∧ t.me.placed = false ∧ t.me.preempt = none ∧
        t.me.pc = s.me.pc + 8 ∧ t.me.kept = some ⟨s.me.greg o.ga, b.setWidth 8, b.extractLsb' 8 16, o.gd⟩ ∧
        ∃ w n p, w.me = { t.me with susp := w.me.susp } ∧ (t.mem = (writeEntry w s.cur 1).mem ∨
          t.mem = (post (writeEntry w s.cur 1) s.me.hive p n).2.mem)) ∧
    (s.me.preempt ≠ none → s.me.queue = [] → windowOver s s.cur = true → s.me.resuming = false → s.me.inBeat = false →
      ∃ t, exec (.yieldwinExpiry s.cur) s = .next t ∧ t.me.status = .suspended ∧ t.me.placed = false ∧ t.me.preempt = none ∧
        t.me.pc = s.me.pc ∧ exec (.fullSave s.cur) s = .next t) ∧
    ((s.me.preempt = none ∨ windowOver s s.cur = false) → exec (.yieldwinExpiry s.cur) s = .next s) ∧
    (s.me.preempt = none → exec (.fullSave s.cur) s = .next s)) ∧
  (∀ (s : State) (k : Nat) (p : Preempt), k < s.strands.length → (s.strand k).active = true → (s.strand k).inBeat = false →
    (s.strand k).preempt = some p →
    (p.deadline ≤ (s.core (s.strand k).coreNo).cycles.toNat ∨ (s.strand k).status.isBlocked = true ∨ headWaits s k = true) →
    let h := (s.strand k).hive
    let v := finishUnit (stopFxs (retireDone queueDepth (finishUops s k).1 k) k) k
    let r := saveQueue v k
    ∃ t w, exec (.fullSave k) s = .next t ∧ (t.strand k).status = .suspended ∧ (t.strand k).placed = false ∧
      (t.strand k).egs = 0 ∧ (t.strand k).preempt = none ∧ (t.strand k).queue = r.q.map (fun e => { e with tags := none }) ∧
      (t.strand k).pc = r.t.pc ∧ (t.strand k).g = r.t.g ∧ (t.strand k).v = r.t.v ∧ (t.strand k).m = r.t.m ∧
      (t.strand k).rsr = r.t.rsr ∧ (t.strand k).fpctl = r.t.fpctl ∧ (t.strand k).streams = r.t.streams ∧
      ((v.findHive h).isSome = true → (t.hive h).preempted = (v.hive h).preempted + 1) ∧
      w.strand k = { t.strand k with susp := (w.strand k).susp } ∧
      (p.firmware = true → t.mem = (writeEntry w k 0).mem) ∧
      (p.firmware = false → ∃ n, t = { (post (writeEntry w k 0) h (w.partOf h) n).2 with
        strands := t.strands, nextTicket := w.nextTicket + 1 } ∧
        (t.strand k).susp = some ⟨.revoked, n.ticket, (post (writeEntry w k 0) h (w.partOf h) n).1, n⟩ ∧
        n.cause = 0x19 ∧ n.flags = 1 ∧ n.strand = (t.strand k).strandId ∧ n.pc = (t.strand k).pc ∧ n.data = BitVec.ofNat 64 p.kind)) ∧
  (∀ (s : State) (k : Nat), (∀ e ∈ (s.strand k).queue, e.inUnit = false) →
    let r := saveQueue s k
    r.q.length = (s.strand k).queue.length ∧ ∀ j e f, (s.strand k).queue[j]? = some e → r.q[j]? = some f →
      f.item = e.item ∧ f.addr = e.addr ∧ f.tags = none ∧
      ∀ i x, e.item = .instr i → shapeOf i = some x → x.gl.isSome = true →
        let raw := match e.tags with
          | some g => if x.whole = true ∧ g.produced < g.uops then 0 else g.produced
          | none => e.p
        f.p = if j = 0 then raw else ((r.q[j - 1]?).map (fun d => min raw d.p)).getD raw) ∧
  (∀ (s : State) (k : Nat) (o : VFmt) (e : QEntry) (g : Tags), (s.strand k).queue = [e] → e.item = .instr (.vadd o) →
    (ElemType.ofCode o.et).isFloat = false → o.q.getLsbD 0 = false → e.tags = some g → g.taken = false → e.p = 0 →
    let t := s.strand k
    let et := ElemType.ofCode o.et
    let r := saveQueue s k
    r.q.map (fun f => f.p) = [g.produced] ∧ r.t.m = t.m ∧ r.t.g = t.g ∧ (∀ d, d ≠ o.vd → r.t.vreg d = t.vreg d) ∧
    ∀ n, n * et.width < 16384 → elemAt (r.t.vreg o.vd) et.width n =
      if n < g.produced * (2048 / et.width) ∧ n < (e.arg o.gl).toNat ∧ governs t o.mk o.mn e.underM7 n = true then
        ((intVal et (elemAt (t.vreg o.va) et.width n) + intVal et (elemAt (t.vreg o.vb) et.width n)) % (2 ^ et.width : Nat)).toNat
      else elemAt (t.vreg o.vd) et.width n) ∧
  (∀ (s : State) (k kind : Nat), k < s.strands.length → kind < 4 → EntryFits s (s.strand k) →
    EntryHolds (writeEntry s k kind) (s.hive (s.strand k).hive) (s.strand k) kind) ∧
  (∀ (s : State) (k : Nat), k < s.strands.length → EntryFits s (s.strand k) → (s.strand k).trapcause.getLsbD 8 = false →
    (s.strand k).kept = none → (s.strand k).pendFault = none →
    SameProgram (s.strand k) (readEntry (writeEntry s k 0) (s.strand k))) ∧
  (∀ (s : State) (k : Nat), k < s.strands.length → (s.strand k).placed = true → (s.strand k).resuming = true →
    let t := s.strand k
    let a := acquireL1 s ⟨t.hive, t.share, true⟩ 2
    let r := readEntry a t
    t.away = none → r.queue = [] → r.pendFault = none →
    ∃ u, exec (.resumption k) s = .next u ∧ (u.strand k).status = .running ∧ (u.strand k).susp = none ∧
      (u.strand k).resuming = false ∧ (u.strand k).streams = r.streams ∧
      (u.strand k).pc = r.pc ∧ (u.strand k).v = r.v ∧ (u.strand k).m = r.m ∧ (u.strand k).trapcause = r.trapcause ∧
      (∀ g, (u.strand k).greg g = match t.kept with
        | some x => if g = x.gd ∧ g ≠ 0 then 1 else r.greg g
        | none => r.greg g) ∧
      (∀ j, j ≠ k → u.strand j = s.strand j)) ∧
  ∀ (s : State) (k : Nat) (p : Preempt), k < s.strands.length → (s.strand k).active = true → (s.strand k).inBeat = false →
    (s.strand k).preempt = some p → p.firmware = true → (s.strand k).status.isBlocked = true → (s.strand k).queue = [] →
    (s.strand k).trapcause.getLsbD 8 = false → (s.strand k).kept = none → (s.strand k).pendFault = none →
    (s.strand k).away = none → EntryFits s (s.strand k) →
    (∀ x ∈ (s.core (s.strand k).coreNo).comb, x.owner = k → x.running = false) →
    ∃ t, exec (.fullSave k) s = .next t ∧ ∃ u,
      exec (.resumption k) (t.modStrand k (fun x => { x with placed := true, resuming := true })) = .next u ∧
      (u.strand k).status = .running ∧ SameProgram (s.strand k) (u.strand k)

/-- O30. HNEW makes a child hive with one suspended strand (R59, R64, R65, R68, R69, R85). That the HIVEID is the least
free one is the model's choice (log entry 7), and so are that the issuer's shares alone merge (log entry 75), the ring's claim (log
entry 25) and what each RATE is checked against (log entry 22). -/
def Obligations.HnewMakesAChild : Prop :=
  (∀ (s u : State) (o : GFmt) (r id : Nat) (left out : List (Nat × ShareRef)), s.runs = true →
    s.me.queue.any (fun e => e.vectorAccess) = false → s.treeFree = true → (s.me.greg o.ga).toNat % 64 = 0 →
    loadRecord s.fenced s.fenced.who (s.me.greg o.ga) 32 = .ok (r, u) →
    let h := u.myHive
    let f := field r
    (∀ off, descFault none r = some off → exec (.hnew o) s = .next (raise s ⟨.illegalField, BitVec.ofNat 64 off, 0, 0⟩)) ∧
    (descFault none r = none → h.codebase ≤ f 0x20 8 → f 0x28 8 ≤ h.codebound →
      carveShares h ((List.range (f 8 1)).map (fun k => f (0xC0 + 4 * k) 4)) = .ok (left, out) →
      u.hives.length < 4096 → h.depth < 8 → f 0xA 1 ≤ unusedSlots u h →
      (∀ i < 4, f (0xA0 + 8 * i) 2 ≤ remainderRate u h i ∧ f (0xA2 + 8 * i) 4 ≤ (h.bucket i).burst) →
      sourcesIdle u h out = true →
      (bit (f 0 8) 0 = true → h.ring.isHeld = true ∧
        ∀ p < 12, ∃ x ∈ out, x.2 = ⟨12 * h.part + p, 0, 16⟩) →
      firstUnmapped u h 0 (f 0x18 8 / 65536 + 1) (f 0x10 8) (f 0x10 8 + f 0x18 8) = none →
      firstUnmapped u h (2 ^ 21) (f 0x48 8 / 65536 + 1) (f 0x40 8) (f 0x40 8 + f 0x48 8) = none →
      freeHiveId u = some id →
      let pool := (List.range (f 0x48 8 / 2 ^ 21)).map (fun k => chunkPlace u h (f 0x40 8 + k * 2 ^ 21))
      let child := describedHive r id h.id (h.depth + 1) h.part pool
      let v := passShares (addHive (ringBefore u h.id (out.map (fun x => x.2))) child r) h.id id left out
      let w := if bit (f 0 8) 0 then v.modHive id (fun k => { k with ring := .held })
        else if h.ring.isHeld then claimRing v h.id else v
      exec (.hnew o) s = .next (settleHives ((initialStrand w id r).finish o.gd (BitVec.ofNat 64 id)) [h.id]) ∧
      child.id = id ∧ child.parent = h.id ∧ child.depth = h.depth + 1 ∧ child.weight = f 9 1 ∧
      1 ≤ id ∧ id ≤ 4096 ∧ u.findHive id = none ∧ ∀ n, 1 ≤ n → n < id → u.findHive n ≠ none)) ∧
  (∀ (w : State) (id r : Nat),
    let u := initialStrand w id r
    let t := u.strand w.strands.length
    u.strands.length = w.strands.length + 1 ∧ (∀ k < w.strands.length, u.strand k = w.strand k) ∧
    t.status = .suspended ∧ t.hive = id ∧ t.pc = BitVec.ofNat 64 (field r 0x88 8) ∧
    t.greg 1 = BitVec.ofNat 64 (field r 0x90 8) ∧ (∀ q, q ≠ 1 → t.greg q = 0) ∧ t.queue = [] ∧ t.placed = false ∧
    ∃ p : Suspension, t.susp = some p ∧ p.kind = .initial ∧ p.ticket.toNat = id % 2 ^ 32 ∧ p.holder = (w.hive id).parent) ∧
  (∀ (s : State) (o : GFmt), s.runs = true → (s.me.greg o.ga).toNat % 64 ≠ 0 →
    exec (.hnew o) s = .next (raise s ⟨.align, s.me.greg o.ga, 0, 0⟩)) ∧
  (∀ (s : State) (o : GFmt), s.runs = true → (s.me.greg o.ga).toNat % 64 = 0 → s.treeFree = false →
    exec (.hnew o) s = .next { s with stalled := true })

/-- O31. HGIVE of shares, the ring, fabric bindings, memory and bucket rate (R60, R63, R68, R70, R358). That the child's
shares merge too is the model's reading (log entry 75), and so are the conditions of the ring form (log entry 25) and the trap
records (log entry 23). No run reaches the success of the ring form: the issuer then holds the ring and so its 12 cores, all of
which the child would have to hold (R60, R63). -/
def Obligations.HgivePassesResources : Prop :=
  (∀ (s u : State) (o : GFmt) (d : Hive) (r : Nat), ChildRecord s o d r u →
    let h := u.myHive
    (∀ left out, extentOk r 0 (4 * field r 1 1) = true → (∀ e ∈ extentEntries r, e < 2 ^ 13) →
      carveShares h (extentEntries r) = .ok (left, out) → sourcesIdle u h out = true →
      let v := passShares (ringBefore u h.id (out.map (fun x => x.2))) h.id d.id left out
      exec (.hgiveShares o) s =
        .next (settleHives (if h.ring.isHeld then claimRing v h.id else v) [h.id, d.id]).advance) ∧
    (extentOk r 1 0 = true → h.ring.isHeld = true → holdsCores d = true →
      exec (.hgiveRing o) s = .next (settleHives ((revokeRing u h.id).modHive d.id (fun k => { k with ring := .held }))
        [h.id, d.id]).advance) ∧
    (extentOk r 1 0 = true → (h.ring.isHeld = false ∨ holdsCores d = false) →
      exec (.hgiveRing o) s = .next (raise s ⟨.illegalCombo, encode (.hgiveRing o), 0, 0⟩)) ∧
    (extentOk r 2 1 = true → d.fslots ≤ field r 8 1 → field r 8 1 - d.fslots ≤ unusedSlots u h → u.findHive d.id = some d →
      ∃ t, exec (.hgiveFabricBindings o) s = .next t ∧ (t.hive d.id).fslots = field r 8 1 ∧
        t = { u with hives := t.hives, strands := t.strands } ∧ t.strands = (u.advance).strands ∧
        ∀ k, k ≠ d.id → (t.hive k).fslots = (u.hive k).fslots) ∧
    (extentOk r 2 1 = true → (field r 8 1 < d.fslots ∨ unusedSlots u h < field r 8 1 - d.fslots) →
      exec (.hgiveFabricBindings o) s = .next (raise s ⟨.hiveLimit, encode (.hgiveFabricBindings o), 0, 0x0A⟩)) ∧
    (extentOk r 3 8 = true → d.wsize ≤ field r 8 8 → field r 8 8 % 65536 = 0 →
      (d.poolBase + d.poolSize ≤ d.wbase ∨ d.wbase + field r 8 8 ≤ d.poolBase) →
      firstUnmapped u h 0 ((field r 8 8 - d.wsize) / 65536 + 1) (d.wbase + d.wsize)
        (d.wbase + d.wsize + (field r 8 8 - d.wsize)) = none → u.findHive d.id = some d →
      ∃ t, exec (.hgiveMemory o) s = .next t ∧ (t.hive d.id).wsize = field r 8 8 ∧
        t = { u with hives := t.hives, strands := t.strands } ∧ t.strands = (u.advance).strands ∧
        ∀ k, k ≠ d.id → (t.hive k).wsize = (u.hive k).wsize) ∧
    (extentOk r 4 32 = true →
      (∀ i < 4, let w := field r (8 + 8 * i) 8
        w < 2 ^ 48 ∧ (d.bucket i).rate ≤ bits w 15 0 ∧ (d.bucket i).burst ≤ bits w 47 16 ∧
        bits w 15 0 - (if (d.bucket i).own then (d.bucket i).rate else 0) ≤ remainderRate u h i ∧
        bits w 47 16 ≤ (h.bucket i).burst) →
      exec (.hgiveBuckets o) s = .next (settleHives
        ((List.range 4).foldl (fun v i => grantBucket v d.id i (bits (field r (8 + 8 * i) 8) 15 0)
          (bits (field r (8 + 8 * i) 8) 47 16)) u) [h.id, d.id]).advance) ∧
    (extentOk r 4 32 = true → (∀ i < 4, field r (8 + 8 * i) 8 < 2 ^ 48) →
      ∀ k < 4, (∀ i < k, let w := field r (8 + 8 * i) 8; (d.bucket i).rate ≤ bits w 15 0 ∧ (d.bucket i).burst ≤ bits w 47 16) →
        (let w := field r (8 + 8 * k) 8; bits w 15 0 < (d.bucket k).rate ∨ bits w 47 16 < (d.bucket k).burst) →
        exec (.hgiveBuckets o) s =
          .next (raise s ⟨.hiveLimit, encode (.hgiveBuckets o), 0, BitVec.ofNat 64 (0xA0 + 8 * k)⟩))) ∧
  (∀ (s : State) (o : GFmt), s.runs = true → s.me.awayHere = none →
    (∀ d, s.findHive (s.me.greg o.ga).toNat = some d → d.parent ≠ s.me.hive) →
    exec (.hgiveShares o) s = .next (raise s ⟨.privilege, encode (.hgiveShares o), 0, 0⟩))

/-- O32. HTAKE of shares, the ring, fabric bindings, memory and bucket rate (R63, R68, R70, R71, R72, R79, R87, R363). The bytes that
a KIND does not use (log entry 24), what becomes of the ring (25), which leaves a range covers, how reductions fall on descendants
and what waits meanwhile (26), and TRAPVAL of a refused record (23) are the model's reading. -/
def Obligations.HtakeRevokesResources : Prop :=
  (∀ (s u : State) (o : GFmt) (d : Hive) (r : Nat), ChildRecord s o d r u →
    let begun : State → List ShareRef → State := fun a xs =>
      let t := goOnTaking a a.myHive.part ⟨a.cur, a.me.pc, a.me.hive, d.id, xs⟩
      if t.treeFree then t else t.modMe (fun m => { m with waits := true })
    (extentOk r 0 (4 * field r 1 1) = true → (∀ e ∈ extentEntries r, e < d.shares.length) →
      let xs := (extentEntries r).eraseDups.filterMap (fun n => (sharesInOrder d)[n]?)
      let a := if d.ring.isHeld && xs.any (fun x => x.core / 12 == d.part) then claimRing (revokeRing u d.id) u.me.hive else u
      exec (.htakeShares o) s = .next (begun a xs)) ∧
    (extentOk r 1 0 = true →
      let a := match (subtree u d.id).find? (fun h => hasRing (u.hive h)) with
        | some h => claimRing (revokeRing u h) u.me.hive
        | none => u
      exec (.htakeRing o) s = .next (begun a [])) ∧
    (extentOk r 2 1 = true → field r 8 1 ≤ d.fslots →
      let a := takeSlots u d.id (field r 8 1)
      exec (.htakeFabricBindings o) s = .next (settleHives a [u.me.hive, d.id]).advance) ∧
    (extentOk r 3 16 = true → field r 8 8 % 65536 = 0 → field r 16 8 % 65536 = 0 →
      let a := takeMemory u d.id (field r 8 8) (field r 16 8)
      exec (.htakeMemory o) s = .next (settleHives a [u.me.hive, d.id]).advance) ∧
    (extentOk r 4 32 = true →
      (∀ i < 4, let w := field r (8 + 8 * i) 8
        w < 2 ^ 48 ∧ bits w 15 0 ≤ (d.bucket i).rate ∧ bits w 47 16 ≤ (d.bucket i).burst) →
      let a := (List.range 4).foldl (fun v i => takeRate v d.id i (bits (field r (8 + 8 * i) 8) 15 0)
        (bits (field r (8 + 8 * i) 8) 47 16)) u
      exec (.htakeBuckets o) s = .next (settleHives a [u.me.hive, d.id]).advance) ∧
    (extentOk r 0 (4 * field r 1 1) = true → (∃ e ∈ extentEntries r, d.shares.length ≤ e) →
      exec (.htakeShares o) s = .next (raise s ⟨.illegalField, encode (.htakeShares o), 0, 0⟩)) ∧
    (extentOk r 2 1 = true → d.fslots < field r 8 1 →
      exec (.htakeFabricBindings o) s = .next (raise s ⟨.illegalField, encode (.htakeFabricBindings o), 0, 0⟩)) ∧
    (extentOk r 3 16 = true → (field r 8 8 % 65536 ≠ 0 ∨ field r 16 8 % 65536 ≠ 0) →
      exec (.htakeMemory o) s = .next (raise s ⟨.illegalField, encode (.htakeMemory o), 0, 0⟩)) ∧
    (extentOk r 4 32 = true → (∃ i < 4, let w := field r (8 + 8 * i) 8
        (d.bucket i).rate < bits w 15 0 ∨ (d.bucket i).burst < bits w 47 16) →
      exec (.htakeBuckets o) s = .next (raise s ⟨.illegalField, encode (.htakeBuckets o), 0, 0⟩))) ∧
  (∀ (s : State) (h new : Nat), (s.hives.map (fun k => k.id)).Nodup → (s.findHive h).isSome = true →
    let old := (s.hive h).fslots
    let t := takeSlots s h new
    (t.hive h).fslots = new ∧
    (∀ e, (s.findHive e).isSome = true → e ≠ h → (t.hive e).fslots =
      if e ∈ descendants s h then (s.hive e).fslots * new / max old 1 else (s.hive e).fslots) ∧
    ∀ e ∈ h :: descendants s h, slotsBound t e ≤ ownSlots t (t.hive e)) ∧
  (∀ (s : State) (h base size : Nat), (s.hives.map (fun k => k.id)).Nodup → (s.findHive h).isSome = true →
    let t := takeMemory s h base size
    let taken := (shadowLeaves s (s.hive h)).filter (fun l => decide (base ≤ l.2.1) && decide (l.2.1 < base + size))
    ((t.findHive h).isSome = true → (∀ l ∈ taken, l.1 ∈ (t.hive h).revoked) ∧ (t.hive h).gen = (s.hive h).gen + 1) ∧
    (∀ e ∈ descendants s h, ∀ l ∈ shadowLeaves s (s.hive e), (∃ y ∈ taken, overlaps y.2.2.1 y.2.2.2 l.2.2.1 l.2.2.2 = true) →
      (t.findHive e).isSome = true → l.1 ∈ (t.hive e).revoked ∧ (t.hive e).gen = (s.hive e).gen + 1) ∧
    ∀ e ∈ descendants s h, (∃ y ∈ taken, ∃ c ∈ (s.hive e).pool, overlaps y.2.2.1 y.2.2.2 c (2 ^ 21) = true) →
      t.findHive e = none) ∧
  (∀ (s : State) (h i rate burst : Nat), (s.hives.map (fun k => k.id)).Nodup → (s.findHive h).isSome = true →
    let t := takeRate s h i rate burst
    let less : Bucket → Nat → Nat → Bucket := fun b r u => { b with
      rate := r, burst := u, own := b.own && decide (r ≠ 0), tokens := if r = 0 then 0 else min b.tokens ((u * 16 : Nat) : Int) }
    let old := ((s.hive h).bucket i).rate
    ∀ e, (s.findHive e).isSome = true → (∀ n, n ≠ i → (t.hive e).bucket n = (s.hive e).bucket n) ∧
      (i < (s.hive e).buckets.length → (t.hive e).bucket i =
        if e = h then less ((s.hive e).bucket i) rate burst
        else if e ∈ descendants s h then
          less ((s.hive e).bucket i) (((s.hive e).bucket i).rate * rate / max old 1) (min ((s.hive e).bucket i).burst burst)
        else (s.hive e).bucket i)) ∧
  (∀ (a : State) (n : Nat) (x : Taking), n < a.parts.length →
    let b := x.shares.foldl emptyShare a
    let gone := (∀ y ∈ x.shares, shareEmpty b y = true) ∧ tasksLeaving b (subtree b x.child) = false
    (¬ gone → goOnTaking a n x = b.modPart n (fun p => { p with taking := some x })) ∧
    (gone →
      let c := (stopOnShares b x.child x.shares).modHive x.child (fun k => { k with
        shares := k.shares.filter (fun y => !x.shares.contains y) })
      let e := x.shares.foldl (fun v y => receiveShare v x.hive y) c
      let f := (settleHives e [x.hive, x.child]).modPart n (fun p => { p with taking := none })
      let t := f.strand x.strand
      goOnTaking a n x = completeAt f x.strand ⟨x.pc, 0, 0, false⟩ ∧
      (t.placed = true → t.resuming = false → t.pc = x.pc → x.strand < f.strands.length → t.status ≠ .ended →
        (goOnTaking a n x).strand x.strand = { t with status := .running, pc := x.pc + 8, away := none }))) ∧
  (∀ (s : State) (h : Nat) (l : List (Nat × Nat × Nat × Nat)) (x : Nat × Nat × Nat × Nat), x ∈ l → (s.findHive h).isSome →
    x.1 ∈ ((markLeaves s h l).hive h).revoked ∧ (∀ p ∈ (s.hive h).revoked, p ∈ ((markLeaves s h l).hive h).revoked)) ∧
  (∀ (s : State) (o : GFmt), s.runs = true → s.me.awayHere = none →
    (∀ d, s.findHive (s.me.greg o.ga).toNat = some d → d.parent ≠ s.me.hive) →
    exec (.htakeShares o) s = .next (raise s ⟨.privilege, encode (.htakeShares o), 0, 0⟩)) ∧
  (∀ (s : State) (o : GFmt) (w : Away), s.runs = true → s.me.resuming = false → s.me.awayHere = some w →
    ∃ t, exec (.htakeShares o) s = .next t ∧ t.me.status = .running ∧ t.me.pc = s.me.pc + 8 ∧ t.me.away = none)

/-- O33. HKILL and HSTAT (R68, R72, R73, R81, R359, R362). What else of a killed hive goes with it, and that HSTAT's stores reach the
coherence point, are the model's reading (log entry 28). -/
def Obligations.HkillAndHstat : Prop :=
  (∀ (s : State) (o : GFmt) (d : Hive), s.runs = true → s.me.queue.any (fun e => e.vectorAccess) = false →
    s.findHive (s.me.greg o.ga).toNat = some d → d.parent = s.me.hive → s.me.hive ≠ 0 →
    let v := settleHives (killHive s.fenced d.id) [s.fenced.me.hive]
    (s.treeFree = true → exec (.hkill o) s = .next (postPending v s.fenced.me.hive).advance) ∧
    (s.treeFree = false → exec (.hkill o) s = .next { s with stalled := true })) ∧
  (∀ (s : State) (h tgt : Nat), (∀ c, (s.core c).comb = []) →
    let t := killOne tgt s h
    t.findHive h = none ∧ (∀ c ∈ t.cmds, c.hive ≠ h) ∧ (∀ q ∈ t.llc, q.hive ≠ h) ∧ (∀ w ∈ t.walks, w.hive ≠ h) ∧
      ∀ x ∈ t.imports, x.2.2 ≠ h) ∧
  (∀ (s : State) (o : GFmt) (h : Hive) (v : State), s.runs = true → s.me.queue.any (fun e => e.vectorAccess) = false →
    ((s.me.greg o.ga = 0 ∧ h = s.myHive) ∨
      (s.me.greg o.ga ≠ 0 ∧ s.findHive (s.me.greg o.ga).toNat = some h ∧ s.within s.me.hive h.id = true)) →
    (s.me.greg o.gb).toNat % 64 = 0 →
    (hstatBlock s.fenced h).zipIdx.foldlM
      (fun u w => storeW u u.who (s.me.greg o.gb + BitVec.ofNat 64 (8 * w.2)) 8 w.1 true) s.fenced = .ok v →
    exec (.hstat o) s = .next (postPending v v.me.hive).advance ∧ (hstatBlock s.fenced h).length = 128) ∧
  (∀ (s : State) (o : GFmt), s.runs = true →
    ((∀ d, s.findHive (s.me.greg o.ga).toNat = some d → d.parent ≠ s.me.hive) →
      exec (.hkill o) s = .next (raise s ⟨.privilege, encode (.hkill o), 0, 0⟩)) ∧
    (s.me.greg o.ga ≠ 0 → (∀ d, s.findHive (s.me.greg o.ga).toNat = some d → s.within s.me.hive d.id = false) →
      exec (.hstat o) s = .next (raise s ⟨.privilege, encode (.hstat o), 0, 0⟩)) ∧
    ((s.me.greg o.ga = 0 ∨ ∃ d, s.findHive (s.me.greg o.ga).toNat = some d ∧ s.within s.me.hive d.id = true) →
      (s.me.greg o.gb).toNat % 64 ≠ 0 →
      exec (.hstat o) s = .next (raise s ⟨.align, s.me.greg o.gb, 0, 0⟩))) ∧
  (∀ (s : State) (h : Nat), (s.hives.map (fun k => k.id)).Nodup →
    let t := killHive s h
    let gone := h :: descendants s h
    (∀ e, (t.findHive e).isSome = ((s.findHive e).isSome && !gone.contains e)) ∧
    (∀ k < s.strands.length, (s.strand k).hive ∈ gone → (s.strand k).status ≠ .ended →
      (t.strand k).status = .ended ∧ (t.strand k).placed = false ∧ (t.strand k).queue = [] ∧ (t.strand k).susp = none ∧
        ∀ n, ((t.strand k).fslot n).bound = false) ∧
    (∀ c ∈ t.cmds, c.hive ∉ gone) ∧ (∀ v ∈ t.vfs, v.2 ∉ gone) ∧
    ((s.findHive (s.hive h).parent).isSome = true → (s.hive h).parent ∉ gone → (s.hive h).parent ≠ 0 →
      ∀ e ∈ gone, ∀ x ∈ (s.hive e).shares, x ∈ (t.hive (s.hive h).parent).shares)) ∧
  ∀ (s : State) (k : Hive), k.id < 2 ^ 16 → k.depth < 2 ^ 8 → k.fslots < 2 ^ 8 → (childrenOf s k.id).length < 2 ^ 16 →
    (∀ x ∈ k.shares, x.lg < 16) →
    let at_ : Nat → Nat → Nat := fun off n => (hstatBlock s k).getD (off / 8) 0 / 2 ^ (8 * (off % 8)) % 2 ^ (8 * n)
    let sum : (Hive → Nat) → Nat := fun f => ((subtree s k.id).map (fun e => f (s.hive e))).sum % 2 ^ 64
    at_ 0 2 = k.id ∧ at_ 2 1 = k.depth ∧ at_ 3 1 = k.shares.length % 256 ∧
    (at_ 4 1).testBit 0 = k.ring.isHeld ∧ (at_ 4 1).testBit 1 = s.vfs.any (fun v => v.2 == k.id) ∧
    (∀ i < 4, (at_ 4 1).testBit (2 + i) = !(k.bucket i).own) ∧ at_ 5 1 = k.fslots ∧ at_ 6 2 = (childrenOf s k.id).length ∧
    at_ 8 8 = k.wsize % 2 ^ 64 ∧
    at_ 0x10 8 = (s.strands.filter (fun t => !t.status.isEnded && (subtree s k.id).contains t.hive)).length % 2 ^ 64 ∧
    at_ 0x18 8 = sum (fun e => e.issued.toNat) ∧ at_ 0x20 8 = sum (fun e => e.egops.toNat) ∧
    at_ 0x28 8 = sum (fun e => e.tileops.toNat) ∧ at_ 0x30 8 = sum (fun e => e.reflected.toNat) ∧
    at_ 0x38 8 = sum (fun e => e.preempted.toNat) ∧
    (∀ i < 4, at_ (0x40 + 8 * i) 8 = sum (fun e => (e.bucket i).llcBytes.toNat) ∧
      at_ (0x60 + 8 * i) 8 = sum (fun e => (e.bucket i).borrowed.toNat) ∧
      at_ (0x80 + 8 * i) 8 = ((k.bucket i).rate + (k.bucket i).burst * 2 ^ 16) % 2 ^ 64) ∧
    (∀ n < 12, at_ (0xA0 + 8 * n) 8 = 0) ∧ (∀ n < 48, at_ (0x280 + 8 * n) 8 = 0) ∧
    ∀ n < 96, at_ (0x100 + 4 * n) 4 = ((sharesInOrder k)[n]?).elim 0 (fun x =>
      x.core % 12 + (if x.size = 16 then 0 else if x.size = 8 then 1 else if x.size = 4 then 2 else 3) * 16 + x.lg * 64)

/-- O34. HRET: REISSUE, SKIP, DELIVER, FORWARD and PLACE (R68, R74, R82, R84, R228, R360, R361). That status 3 goes before 2, that
DELIVER and SKIP of a pre-empted strand and PLACE of a paired task answer 3, that FORWARD counts in REFLECTED, and that gc is
ignored where Table 3.7 gives it as 0, are the model's reading (log entry 28). -/
def Obligations.HretAnswersTickets : Prop :=
  (∀ (s : State) (o : GFmt), s.runs = true → s.me.queue.any (fun e => e.vectorAccess) = false →
    let a := releaseL1 s.fenced s.fenced.who 2
    let act := (s.me.greg o.gb).toNat
    let gc := s.me.greg o.gc
    let answers : Instr → (Nat → Suspension → Answer) → Prop := fun i f =>
      (ticketStrand a a.me.hive (s.me.greg o.ga) = none → exec i s = .next ((postPending a a.me.hive).finish o.gd 1)) ∧
      ∀ k x, ticketStrand a a.me.hive (s.me.greg o.ga) = some (k, x) →
        (∀ v, f k x = .ok v → exec i s = .next ((postPending v v.me.hive).finish o.gd 0)) ∧
        ∀ n, f k x = .error n → exec i s = .next ((postPending a a.me.hive).finish o.gd (BitVec.ofNat 64 n))
    (act = 0 → answers (.hretReissue o) (fun k _ => answerReissue a k)) ∧
    (act = 1 → answers (.hretSkip o) (answerSkip a)) ∧
    (act = 2 → isCauseCode gc.toNat = true → answers (.hretDeliver o) (fun k x => answerDeliver a k x gc.toNat)) ∧
    (act = 3 → answers (.hretForward o) (fun k x => answerForward a a.me.hive k x)) ∧
    (act = 4 → answers (.hretPlace o) (fun k _ => answerPlace a k gc)) ∧
    (4 < act ∨ (act = 2 ∧ isCauseCode gc.toNat = false) →
      exec (.hretReissue o) s = .next (raise s ⟨.illegalField, encode (.hretReissue o), 0, 0⟩))) ∧
  (∀ (s : State) (k : Nat) (x : Suspension) (n : Word), k < s.strands.length →
    let back : ShareRef → Answer → Prop := fun y r => ∃ t, r = .ok t ∧ (t.strand k).status = .waiting ∧
      (t.strand k).placed = false ∧ (t.strand k).share = some y ∧ (t.strand k).susp = none ∧
      (t.strand k).pc = (s.strand k).pc ∧ (t.strand k).g = (s.strand k).g ∧ ∀ j, j ≠ k → t.strand j = s.strand j
    (heldShare s k = none → answerReissue s k = .error 2) ∧ (∀ y, heldShare s k = some y → back y (answerReissue s k)) ∧
    ((x.kind ≠ .trap ∧ x.kind ≠ .handlerTrap) ∨ (s.strand k).queue ≠ [] → answerSkip s k x = .error 3) ∧
    (x.kind ≠ .trap → answerDeliver s k x n.toNat = .error 3) ∧
    ((s.strand k).task.isSome = true → answerPlace s k n = .error 3) ∧
    ((s.strand k).task = none → (sharesInOrder (s.hive (s.strand k).hive))[n.toNat]? = none → answerPlace s k n = .error 2) ∧
    (∀ y, (s.strand k).task = none → (sharesInOrder (s.hive (s.strand k).hive))[n.toNat]? = some y → back y (answerPlace s k n)) ∧
    (x.kind = .trap → (s.strand k).queue = [] → ∀ y, heldShare s k = some y →
      let h := s.hive (s.strand k).hive
      back y (answerSkip s k x) ∧ (entryOff h (s.strand k) % 2 ^ 21 + 8 ≤ 2 ^ 21 →
        ∀ t, answerSkip s k x = .ok t → poolRead t h (entryOff h (s.strand k)) 8 = (x.record.pc + 8).toNat)) ∧
    (x.kind = .handlerTrap → (s.strand k).queue = [] → ∀ y, heldShare s k = some y →
      ∃ t, answerSkip s k x = .ok t ∧ (t.strand k).status = .waiting ∧ (t.strand k).share = some y ∧ (t.strand k).susp = none ∧
        (t.strand k).pc = x.record.pc + 8 ∧ ∀ j, j ≠ k → t.strand j = s.strand j) ∧
    (x.kind = .trap → ∀ y, heldShare s k = some y →
      let r := readEntry s (s.strand k)
      ∃ t, answerDeliver s k x n.toNat = .ok t ∧ (t.strand k).status = .waiting ∧ (t.strand k).share = some y ∧
        (t.strand k).susp = none ∧ (t.strand k).pc = (s.hive (s.strand k).hive).trapvec ∧ (t.strand k).trappc = x.record.pc ∧
        (t.strand k).trapcause = BitVec.ofNat 64 (n.toNat % 64 + 256 + (if r.queue = [] then 0 else 512) + 1024 * r.queue.length) ∧
        (t.strand k).trapval = x.record.val ∧ (t.strand k).trapinfo = x.record.info ∧ (t.strand k).queue = [] ∧
        (t.strand k).held = r.queue ∧ (t.strand k).resumePc = r.pc ∧
        (∀ j : Fin 4, (t.strand k).hsave[j] = r.g[28 + j.val]) ∧ ∀ j, j ≠ k → t.strand j = s.strand j) ∧
    ∀ h, let r := { x.record with flags := x.record.flags ||| 2 }
      let v := s.modHive h (fun d => { d with reflected := d.reflected + 1 })
      let p := post v (v.hive h).parent (v.partOf h) r
      ∃ t, answerForward s h k x = .ok t ∧ t = { p.2 with strands := t.strands } ∧
        (t.strand k).susp = some { x with holder := p.1, record := r } ∧ (t.strand k).status = (s.strand k).status ∧
        ∀ j, j ≠ k → t.strand j = s.strand j)

/-- O35. SPAWN and GLAUNCH create the strands of a gang (R27, R29, R30, R31, R32, R35, R356, R388). That the new GANGID is
the last one plus 1 is the model's choice (log entry 71). -/
def Obligations.GangLaunchCreatesStrands : Prop :=
  (∀ (s u : State) (o : GFmt) (r : Nat), s.runs = true → (s.me.greg o.ga).toNat % 64 = 0 →
    loadRecord s s.who (s.me.greg o.ga) 8 = .ok (r, u) →
    let h := u.myHive
    let shares := (sharesInOrder h).zipIdx.filterMap (fun x => if bit (field r 0x30 16) x.2 then some x.1 else none)
    let gang := (h.lastGang + 1) % 2 ^ 32
    let v := (releaseL1 u u.who 1).modHive h.id (fun x => { x with lastGang := gang })
    let done := launchGang (v.finish o.gd (BitVec.ofNat 64 gang)) h.id gang r shares
    let runs : Bool → Instr → Prop := fun single i =>
      (launchFault h.shares.length single r = none → h.codebase ≤ field r 0 8 → field r 0 8 < h.codebound →
        (spillReserved u h.id + field r 0x28 4 ≤ h.spillcnt → exec i s = .next done) ∧
        (h.spillcnt < spillReserved u h.id + field r 0x28 4 → exec i s = .next (raise s ⟨.hiveLimit, encode i, 0, 0x28⟩))) ∧
      ∀ off, launchFault h.shares.length single r = some off →
        exec i s = .next (raise s ⟨.illegalField, BitVec.ofNat 64 off, 0, 0⟩)
    runs true (.spawn o) ∧ runs false (.glaunch o)) ∧
  (∀ (s : State) (h gang r : Nat) (shares : List ShareRef),
    let n := field r 0x28 4
    let t := launchGang s h gang r shares
    let first := nextStrandIds s n
    t.strands.length = s.strands.length + n ∧
    (∀ k < s.strands.length, (t.strand k).pc = (s.strand k).pc ∧ (t.strand k).g = (s.strand k).g ∧
      (t.strand k).strandId = (s.strand k).strandId ∧ (t.strand k).hive = (s.strand k).hive) ∧
    ∀ i < n, let x := t.strand (s.strands.length + i)
      x.hive = h ∧ x.gangId.toNat = gang % 2 ^ 32 ∧ x.strandId = BitVec.ofNat 32 (first + i) ∧
      x.pc = BitVec.ofNat 64 (field r 0 8) ∧ x.queue = [] ∧ x.trapcause = 0 ∧
      ∀ q, x.greg q = if q = 5 then BitVec.ofNat 64 i
        else if 1 ≤ q.toNat ∧ q.toNat ≤ 4 then BitVec.ofNat 64 (field r (8 * q.toNat) 8) else 0) ∧
  (∀ (s : State) (o : GFmt), s.runs = true → (s.me.greg o.ga).toNat % 64 ≠ 0 →
    exec (.spawn o) s = .next (raise s ⟨.align, s.me.greg o.ga, 0, 0⟩) ∧
    exec (.glaunch o) s = .next (raise s ⟨.align, s.me.greg o.ga, 0, 0⟩))

/-- O36. GBAR, GWAIT and SQUIT with the events that end their waits (R26, R37, R38, R39, R355, R357, R389). -/
def Obligations.BarriersWaitsAndQuitting : Prop :=
  (∀ (s : State) (o : GFmt), s.runs = true → s.me.awayHere = none → s.me.arrived = none → s.me.resuming = false →
    let quiet := s.me.queue.any (fun e => e.vectorAccess) = false
    let a := releaseL1 (acquireL1 s s.who 1) s.who 1
    let w := a.modMe (fun t => { t with status := .blocked (.gbar o), arrived := some t.pc })
    let ks := gangMembers w s.me.hive s.me.gangId
    (¬ quiet → exec (.gbar o) s = .next (s.modMe (fun t => { t with status := .blocked (.gbar o) }))) ∧
    (quiet → (∃ k ∈ ks, (w.strand k).arrived = none) → exec (.gbar o) s = .next w ∧
      ((∀ k ∈ ks, arriving w k = false) → exec (.gbarComplete s.me.hive s.me.gangId) w = .next w)) ∧
    (quiet → (∀ k ∈ ks, (w.strand k).arrived ≠ none) →
      ∃ t, exec (.gbar o) s = .next t ∧ exec (.gbarComplete s.me.hive s.me.gangId) w = .next t ∧
        t.me = { s.me with pc := s.me.pc + 8, arrived := none, status := .running, away := none } ∧
        (∀ k ∈ ks, k ≠ s.cur → ∀ p, (w.strand k).arrived = some p →
          let x := w.strand k
          ((x.placed = true ∧ x.resuming = false ∧ x.pc = p) →
            t.strand k = { x with arrived := none, status := .running, pc := x.pc + 8, away := none }) ∧
          (¬ (x.placed = true ∧ x.resuming = false ∧ x.pc = p) →
            t.strand k = { x with arrived := none, away := some ⟨p, 0, 0, true⟩ })) ∧
        ∀ k, k ∉ ks → t.strand k = s.strand k)) ∧
  (∀ (s : State) (o : GFmt) (w : Away), s.runs = true → s.me.resuming = false → s.me.awayHere = some w →
    ∃ t, exec (.gbar o) s = .next t ∧ t.me.status = .running ∧ t.me.pc = s.me.pc + 8 ∧ t.me.away = none ∧
      ∀ k, k ≠ s.cur → t.strand k = s.strand k) ∧
  (∀ (s : State) (o : GFmt), s.runs = true →
    let g := s.me.greg o.ga
    let live := g.toNat < 2 ^ 32 ∧ gangMembers s s.me.hive (g.setWidth 32) ≠ []
    (g.toNat = s.me.gangId.toNat → exec (.gwait o) s = .next (raise s ⟨.illegalCombo, encode (.gwait o), 0, 0⟩)) ∧
    let b := s.modMe (fun t => { t with status := .blocked (.gwait o) })
    let done := (acquireL1 s s.who 1).advance
    (g.toNat ≠ s.me.gangId.toNat → ¬ live → exec (.gwait o) s = .next done ∧ exec (.gwaitComplete s.cur) b = .next done) ∧
    (g.toNat ≠ s.me.gangId.toNat → live → exec (.gwait o) s = .next b ∧ exec (.gwaitComplete s.cur) b = .next b)) ∧
  (∀ (s : State) (o : GFmt), s.runs = true →
    let u := undoBindings (releaseL1 s s.who 1) s.cur
    let v := u.modMe (fun t => { t with pushed := [], pushBits := 0 })
    (s.me.queue ≠ [] → exec (.squit o) s = .next { s with stalled := true }) ∧
    (s.me.queue = [] → ownedSessions v s.cur = [] →
      exec (.squit o) s = .next (endStrand (endTask v s.cur) s.cur)) ∧
    (s.me.queue = [] → ownedSessions v s.cur = [] → s.me.task = none → (∀ n, (s.me.fslot n).bound = false) →
      ∃ t, exec (.squit o) s = .next t ∧ exec (.squitComplete s.cur) (s.modMe (fun t => { t with status := .blocked (.squit o) })) =
          .next t ∧ t.me.status = .ended ∧ t.me.placed = false ∧ t.me.egs = 0 ∧ t.me.entry = none ∧
        t.me.queue = [] ∧ t.me.pushed = [] ∧ ∀ k, k ≠ s.cur → t.strand k = s.strand k) ∧
    exec (.squitComplete s.cur) (s.modMe (fun t => { t with status := .blocked (.squit o) })) = exec (.squit o) s)

/-- O37. Every vector and mask instruction on registers completes and changes its destination only (R42, R43, R46, R49, R174,
R406). -/
def Obligations.VectorRegisterInstructionsComplete : Prop :=
  ∀ (s : State) (i : Instr) (x : Shape), registerOnly i = true → shapeOf i = some x → s.eager = true → Enters s i →
    ∃ t, exec i s = .next t ∧ RegistersChanged s t ∧
      (∀ r, x.vd ≠ some r → t.me.vreg r = s.me.vreg r) ∧ (∀ r, x.md ≠ some r → t.me.mreg r = s.me.mreg r) ∧
      (∀ r, x.gd ≠ some r → t.me.greg r = s.me.greg r) ∧ (∀ b, t.me.fpctl.getLsbD b = true ∨ s.me.fpctl.getLsbD b = false) ∧
      (x.steps = false → t.me.rsr = s.me.rsr)

/-- O38. Integer elements of the vector arithmetic instructions (R174, R406, R408, R409, R413, R416, R420, R424, R434). -/
def Obligations.IntegerElementResults : Prop :=
  ∀ (s : State) (o : VFmt), s.eager = true →
    let et := ElemType.ofCode o.et
    let w := et.width
    let val : Nat → Int := fun p => if et.isSigned && decide (2 ^ (w - 1) ≤ p) then (p : Int) - (2 ^ w : Nat) else p
    let top : Int := if et.isSigned then (2 ^ (w - 1) : Nat) - 1 else (2 ^ w : Nat) - 1
    let low : Int := if et.isSigned then -((2 ^ (w - 1) : Nat) : Int) else 0
    let wrap : Int → Nat := fun x => (x % (2 ^ w : Nat)).toNat
    let put : Int → Nat := fun x => if o.q.getLsbD 0 then wrap (max low (min top x)) else wrap x
    let a : Nat → Nat := fun k => elemAt (s.me.vreg o.va) w k
    let b : Nat → Nat := fun k => elemAt (s.me.vreg o.vb) w k
    let c : Nat → Nat := fun k => elemAt (s.me.vreg o.vc) w k
    let gives : Instr → (Nat → Nat) → Prop := fun i f => Enters s i → GivesElements i s o f
    et.isFloat = false →
      gives (.vadd o) (fun k => put (val (a k) + val (b k))) ∧ gives (.vsub o) (fun k => put (val (a k) - val (b k))) ∧
      gives (.vmul o) (fun k => put (val (a k) * val (b k))) ∧ gives (.vabs o) (fun k => put ((val (a k)).natAbs : Int)) ∧
      gives (.vneg o) (fun k => put (-val (a k))) ∧
      gives (.vmulh o) (fun k => wrap (val (a k) * val (b k) / (2 ^ w : Nat))) ∧
      gives (.vdiv o) (fun k => if b k = 0 then 2 ^ w - 1 else wrap (Int.tdiv (val (a k)) (val (b k)))) ∧
      gives (.vmin o) (fun k => if val (a k) ≤ val (b k) then a k else b k) ∧
      gives (.vmax o) (fun k => if val (a k) ≤ val (b k) then b k else a k) ∧
      gives (.vclamp o) (fun k => wrap (min (max (val (a k)) (val (b k))) (val (c k)))) ∧
      gives (.vfma o) (fun k => wrap (val (a k) * val (b k) + val (c k))) ∧
      gives (.vand o) (fun k => a k &&& b k) ∧ gives (.vor o) (fun k => a k ||| b k) ∧ gives (.vxor o) (fun k => a k ^^^ b k) ∧
      gives (.vshl o) (fun k => put (val (a k) * (2 ^ (b k % w) : Nat))) ∧
      gives (.vshr o) (fun k => a k / 2 ^ (b k % w)) ∧
      gives (.vsar o) (fun k =>
        wrap ((if 2 ^ (w - 1) ≤ a k then (a k : Int) - (2 ^ w : Nat) else a k) / (2 ^ (b k % w) : Nat)))

/-- O39. Float elements of the vector arithmetic instructions, and VCVT (R151, R153, R156, R406, R407, R408, R416, R420, R421,
R424, R433, R434). Which conversions between types of one width narrow is the model's choice (log entry 74). -/
def Obligations.FloatElementResults : Prop :=
  (∀ (s : State) (o : VFmt), s.eager = true →
    let et := ElemType.ofCode o.et
    let w := et.width
    let f := floatFmt et
    let drm := (s.me.fpctl.extractLsb' 0 3).toNat
    let mode := if o.rm = 6 then drm else o.rm.toNat
    let a : Nat → Nat := fun k => elemAt (s.me.vreg o.va) w k
    let b : Nat → Nat := fun k => elemAt (s.me.vreg o.vb) w k
    let c : Nat → Nat := fun k => elemAt (s.me.vreg o.vc) w k
    let gov : Nat → Prop := fun k => k < (s.me.greg o.gl).toNat ∧ governs s.me o.mk o.mn false k = true
    let steps : Nat → Nat := fun k => ((List.range k).filter (fun j => j % 64 == k % 64 && decide (gov j))).length
    let gen : Nat → Nat := fun k => (Nat.repeat rsrStep (steps k) s.me.rsr[k % 64]).toNat
    let gives : Instr → (Nat → Nat) → Prop := fun i g => Enters s i → GivesElements i s o (fun k => g k % 2 ^ w)
    let x := fun k => fdecode f (a k)
    let y := fun k => fdecode f (b k)
    let z := fun k => fdecode f (c k)
    (o.rm = 6 → drm < 6) →
    (et.isFloat = true →
      gives (.vadd o) (fun k => (fadd f mode (gen k) (x k) (y k)).1) ∧
      gives (.vsub o) (fun k => (fsub f mode (gen k) (x k) (y k)).1) ∧
      gives (.vmul o) (fun k => (fmul f mode (gen k) (x k) (y k)).1) ∧
      gives (.vdiv o) (fun k => (fdiv f mode (gen k) (x k) (y k)).1) ∧
      gives (.vfma o) (fun k => (ffma f mode (gen k) (x k) (y k) (z k)).1) ∧
      gives (.vsqrt o) (fun k => (fsqrt f mode (gen k) (x k)).1) ∧ gives (.vrcp o) (fun k => (frcp f mode (gen k) (x k)).1) ∧
      gives (.vrsq o) (fun k => (frsq f mode (gen k) (x k)).1) ∧ gives (.vexp2 o) (fun k => (fexp2 f mode (gen k) (x k)).1) ∧
      gives (.vlog2 o) (fun k => (flog2 f mode (gen k) (x k)).1) ∧ gives (.vtanh o) (fun k => (ftanh f mode (gen k) (x k)).1) ∧
      gives (.vmin o) (fun k => (fminmax f false (a k) (b k)).1) ∧ gives (.vmax o) (fun k => (fminmax f true (a k) (b k)).1) ∧
      gives (.vclamp o) (fun k => (fminmax f false (fminmax f true (a k) (b k)).1 (c k)).1) ∧
      gives (.vabs o) (fun k => if (x k).isNan then f.canon else a k % 2 ^ (w - 1)) ∧
      gives (.vneg o) (fun k => if (x k).isNan then f.canon else (a k + 2 ^ (w - 1)) % 2 ^ w)) ∧
    gives (.vcvt o) (fun k =>
      let st := ElemType.ofCode (o.q.setWidth 4)
      (convert st et (elemAt (s.me.vreg o.va) st.width k) mode (gen k) (o.q.getLsbD 4)).1)) ∧
  (∀ (et : ElemType) (mode q : Nat), et.isFloat = true → et ≠ .f4 →
    let f := floatFmt et
    let bad : FRes := (f.canon, flagNV)
    (∀ a : Bool, let nan : FRes := (f.canon, if a then flagNV else 0)
      frcp f mode q (.nan a) = nan ∧ frsq f mode q (.nan a) = nan ∧ fexp2 f mode q (.nan a) = nan ∧
      flog2 f mode q (.nan a) = nan ∧ ftanh f mode q (.nan a) = nan ∧
      frcp f mode q (.inf a) = (signBit f a, 0) ∧ frsq f mode q (.inf a) = (if a then bad else (0, 0)) ∧
      fexp2 f mode q (.inf a) = (if a then 0 else infinity f false, 0) ∧
      flog2 f mode q (.inf a) = (if a then bad else (infinity f false, 0)) ∧ f.RoundsTo mode q false a 1 (ftanh f mode q (.inf a))) ∧
    ∀ (a : Bool) (n : Nat) (e : Int),
      let x : FVal := .fin a n e
      let v : ℝ := n * 2 ^ e
      (n = 0 → frcp f mode q x = (infinity f a, flagDZ) ∧ frsq f mode q x = (infinity f a, flagDZ) ∧
        flog2 f mode q x = (infinity f true, flagDZ) ∧ ftanh f mode q x = (signBit f a, 0)) ∧
      (n ≠ 0 → f.RoundsTo mode q false a (1 / v) (frcp f mode q x) ∧
        (a = true → frsq f mode q x = bad ∧ flog2 f mode q x = bad) ∧
        (a = false → f.RoundsTo mode q false false (1 / Real.sqrt v) (frsq f mode q x) ∧
          ∀ k : Int, v = 2 ^ k → f.RoundsTo mode q false (decide (k < 0)) k.natAbs (flog2 f mode q x))) ∧
      (n < 2 ^ (f.m + 1) → (∃ j : Nat, v = j) ∨ 2 ^ 14 ≤ v ∨ v < 2 ^ (-(f.m : Int) - 54) →
        f.RoundsTo mode q false false ((2 : ℝ) ^ (if a then -v else v)) (fexp2 f mode q x)) ∧
      (n < 2 ^ (f.m + 1) → n ≠ 0 → 128 ≤ v ∨ v < 2 ^ (-(f.m : Int) - 60) →
        f.RoundsTo mode q false a (Real.tanh v) (ftanh f mode q x))) ∧
  (∀ (f : FloatFmt) (st dt : ElemType) (mode q x : Nat) (sat : Bool), f = floatFmt dt → st ≠ dt →
    let held := (sat = true ∧ narrows st dt = true) ∨ dt = .f4
    let v := intVal st x
    (st.isFloat = true → dt.isFloat = true →
      (∀ a n e, fdecode (floatFmt st) (x % 2 ^ st.width) = .fin a n e →
        f.RoundsTo mode q (decide held) a (n * 2 ^ e) (convert st dt x mode q sat)) ∧
      (∀ a, fdecode (floatFmt st) (x % 2 ^ st.width) = .inf a → convert st dt x mode q sat =
        (if held then (maxFinite f a, flagOF) else if f.hasInf then (infinity f a, 0) else (f.canon, flagNV))) ∧
      ∀ g, fdecode (floatFmt st) (x % 2 ^ st.width) = .nan g →
        convert st dt x mode q sat = (if dt = .f4 then (0, flagNV) else (f.canon, if g then flagNV else 0))) ∧
    (st.isFloat = true → dt.isFloat = false →
      (∀ a n e, fdecode (floatFmt st) (x % 2 ^ st.width) = .fin a n e →
        RoundsToInt dt.width (intMin dt) (intMax dt) mode q a (n * 2 ^ e) (convert st dt x mode q sat)) ∧
      (∀ a, fdecode (floatFmt st) (x % 2 ^ st.width) = .inf a → convert st dt x mode q sat =
        (((if a then intMin dt else intMax dt) % (2 ^ dt.width : Nat)).toNat, flagNV)) ∧
      ∀ g, fdecode (floatFmt st) (x % 2 ^ st.width) = .nan g → convert st dt x mode q sat = (0, flagNV)) ∧
    (st.isFloat = false → dt.isFloat = true → f.RoundsTo mode q (sat || decide (dt = .f4)) (decide (v < 0)) v.natAbs
      (convert st dt x mode q sat)) ∧
    (st.isFloat = false → dt.isFloat = false → convert st dt x mode q sat =
      if sat = true ∧ dt.width < st.width ∧ (v < intMin dt ∨ intMax dt < v) then
        (((if v < intMin dt then intMin dt else intMax dt) % (2 ^ dt.width : Nat)).toNat, flagNV)
      else ((v % (2 ^ dt.width : Nat)).toNat, 0)))

/-- O40. VCMP, VSEL and the mask instructions (R174, R340, R372, R373, R374, R417, R440). -/
def Obligations.CompareSelectAndMaskResults : Prop :=
  ∀ (s : State) (o : VFmt), s.eager = true →
    let et := ElemType.ofCode o.et
    let w := et.width
    let a : Nat → Nat := fun k => elemAt (s.me.vreg o.va) w k
    let b : Nat → Nat := fun k => elemAt (s.me.vreg o.vb) w k
    let ma : Nat → Bool := fun k => (s.me.mreg (o.va.setWidth 3)).getLsbD k
    let mb : Nat → Bool := fun k => (s.me.mreg (o.vb.setWidth 3)).getLsbD k
    let sel : Nat → Bool := fun k => (s.me.mreg (o.q.setWidth 3)).getLsbD k
    let p : Nat → Int := fun k => intVal et (a k)
    let q : Nat → Int := fun k => intVal et (b k)
    let bitsOf : Instr → (Nat → Bool) → Prop := fun i f => Enters s i → GivesBits i s o f
    let writes : Instr → Word → Prop := fun i v =>
      Enters s i → ∃ t, exec i s = .next t ∧ ∀ r, t.me.greg r = if r = o.vd.setWidth 5 ∧ r ≠ 0 then v else s.me.greg r
    let set := (List.range (min (s.me.greg o.gl).toNat 8192)).filter (fun k => governs s.me o.mk o.mn false k && ma k)
    (et.isFloat = false →
      bitsOf (.vcmp .eq o) (fun k => decide (p k = q k)) ∧ bitsOf (.vcmp .ne o) (fun k => decide (p k ≠ q k)) ∧
      bitsOf (.vcmp .lt o) (fun k => decide (p k < q k)) ∧ bitsOf (.vcmp .le o) (fun k => decide (p k ≤ q k)) ∧
      bitsOf (.vcmp .gt o) (fun k => decide (q k < p k)) ∧ bitsOf (.vcmp .ge o) (fun k => decide (q k ≤ p k))) ∧
    (et.isFloat = true → ∀ cond : Cond, bitsOf (.vcmp cond o) (fun k =>
      (fcompare (Cond.number cond) (fdecode (floatFmt et) (a k)) (fdecode (floatFmt et) (b k))).1)) ∧
    (Enters s (.vsel o) → GivesElements (.vsel o) s o (fun k => if sel k then a k else b k)) ∧
    bitsOf (.mkand o) (fun k => ma k && mb k) ∧ bitsOf (.mkor o) (fun k => ma k || mb k) ∧
    bitsOf (.mkxor o) (fun k => ma k ^^ mb k) ∧ bitsOf (.mknot o) (fun k => !ma k) ∧
    bitsOf (.mkset o) (fun _ => o.q.getLsbD 0) ∧
    writes (.mkpopc o) (BitVec.ofNat 64 set.length) ∧ writes (.mkfirst o) ((set.map (BitVec.ofNat 64)).headD (BitVec.allOnes 64)) ∧
    writes (.mktest o) (if set = [] then 0 else 1)

/-- O41. Permutes, slides, broadcasts, packs, extracts and reductions (R168, R415, R418, R422, R423, R426, R427, R435, R438,
R439, R441, R444). -/
def Obligations.PermuteResults : Prop :=
  ∀ (s : State) (o : VFmt), s.eager = true →
    let et := ElemType.ofCode o.et
    let w := et.width
    let n := (s.me.greg o.gl).toNat
    let a : Nat → Nat := fun k => elemAt (s.me.vreg o.va) w k
    let b : Nat → Nat := fun k => elemAt (s.me.vreg o.vb) w k
    let old : Nat → Nat := fun k => elemAt (s.me.vreg o.vd) w k
    let gov : Nat → Bool := fun k => governs s.me o.mk o.mn false k
    let gc := s.me.greg (o.vc.setWidth 5)
    let gb := s.me.greg (o.vb.setWidth 5)
    let gives : Instr → (Nat → Nat) → Prop := fun i f => Enters s i → GivesElements i s o f
    let governed := (List.range n).filter gov
    let wrap : Int → Nat := fun x => (x % (2 ^ w : Nat)).toNat
    let d := 2 ^ (o.q.toNat % 16)
    let word : Nat → Word := fun x => if et.isSigned then (BitVec.ofNat w x).signExtend 64 else BitVec.ofNat 64 x
    let f := floatFmt et
    let op := (o.q.extractLsb' 0 2).toNat
    let mode := if o.rm = 6 then (s.me.fpctl.extractLsb' 0 3).toNat else o.rm.toNat
    let gen : Nat → Nat := fun k =>
      (Nat.repeat rsrStep ((governed.filter (fun j => j % 64 == k % 64 && decide (j < k))).length) s.me.rsr[k % 64]).toNat
    let upTo : Nat → List Nat := fun k => governed.filter (fun j => decide (j ≤ k))
    let intRed : List Nat → Int := fun l => let v := l.map (fun j => intVal et (a j))
      if op = 0 then v.sum else if op = 1 then v.foldl min (intMax et) else v.foldl max (intMin et)
    let floatRed : List Nat → Nat := fun l =>
      (l.foldl (fun r k => some (match r with
        | none => if (fdecode f (a k)).isNan then f.canon else a k
        | some r => if op = 0 then (fadd f mode (gen k) (fdecode f r) (fdecode f (a k))).1 else (fminmax f (op == 2) r (a k)).1))
        none).getD (if op = 0 then 0 else infinity f (op == 2))
    let red : List Nat → Nat := fun l => if et.isFloat then floatRed l else wrap (intRed l)
    n ≤ 8192 → (o.rm ≠ 6 ∨ mode < 6) →
    (o.q.getLsbD 0 = false → gives (.vslide o) (fun k => if gc.toNat ≤ k then a (k - gc.toNat) else old k)) ∧
    (o.q.getLsbD 0 = true → gives (.vslide o) (fun k => if k + gc.toNat < n then a (k + gc.toNat) else old k)) ∧
    gives (.vperm o) (fun k => let i := elemAt (s.me.vreg o.vb) 32 k; if i < n then a i else 0) ∧
    gives (.vbcast o) (fun _ => gc.toNat % 2 ^ w) ∧ gives (.vindex o) (fun k => k % 2 ^ w) ∧
    gives (.vins o) (fun k => if k = gb.toNat then gc.toNat % 2 ^ w else old k) ∧
    gives (.vzip o) (fun k => let j := (if o.q.getLsbD 0 then n / 2 else 0) + k / 2; if k % 2 = 0 then a j else b j) ∧
    gives (.vunzip o) (fun k => let u := if o.q.getLsbD 0 then 1 else 0
      if k < n / 2 then a (2 * k + u) else b (2 * (k - n / 2) + u)) ∧
    (et.isFloat = false → gives (.vhad o) (fun k => wrap (if k / d % 2 = 0 then intVal et (a k) + intVal et (a (k + d))
      else intVal et (a (k - d)) - intVal et (a k)))) ∧
    (Enters s (.vcomp o) → ∃ t, exec (.vcomp o) s = .next t ∧ ∀ k, k * w < 16384 →
      elemAt (t.me.vreg o.vd) w k = (governed[k]?).elim (old k) a) ∧
    gives (.vexpd o) (fun k => a ((governed.filter (fun j => decide (j < k))).length)) ∧
    (Enters s (.vext o) → ∃ t, exec (.vext o) s = .next t ∧ ∀ r, t.me.greg r = if r = o.vd.setWidth 5 ∧ r ≠ 0
      then (if gc.toNat < n ∧ gov gc.toNat = true then word (a gc.toNat) else 0) else s.me.greg r) ∧
    (op ≠ 3 →
      gives (.vscan o) (fun k => red (upTo k)) ∧
      (o.q.getLsbD 2 = true → Enters s (.vred o) → ∃ t, exec (.vred o) s = .next t ∧
        ∀ r, t.me.greg r = if r = o.vd.setWidth 5 ∧ r ≠ 0 then word (red governed) else s.me.greg r) ∧
      (o.q.getLsbD 2 = false → n ≠ 0 → Enters s (.vred o) → ∃ t, exec (.vred o) s = .next t ∧
        ∀ k, k * w < 16384 → elemAt (t.me.vreg o.vd) w k = if k = 0 then red governed else old k))

/-- O42. How an instruction enters the queue, waits outside it, or traps (R42, R43, R44, R52, R56, R251, R252, R274). That
a trap at enqueue is held, and that a queue drains at once when eager, are the model's (log entries 12 and 13). -/
def Obligations.EnteringTheQueue : Prop :=
  ∀ (s : State) (i : Instr) (x : Shape), s.runs = true → registerOnly i = true → shapeOf i = some x →
    let e := newEntry s s.me i x
    (s.eager = false → s.me.queue.length < 32 → firstTrap s.me s.me.queue i e = none →
      (∀ d ∈ s.me.queue, ∀ o, d.item ≠ .instr (.tmode o)) →
      exec i s = .next ({ s with nextCmd := s.nextCmd + 1 }.modMe (fun t => { t with pc := t.pc + 8, queue := t.queue ++ [e] })) ∧
        e.addr = s.me.pc ∧ e.grant = s.me.grant ∧ e.mvl = s.me.mvl ∧ e.p = 0 ∧ e.item = .instr i ∧
        ∀ c ∈ e.caps, s.me.pending c.reg = false → c.val = some (s.me.greg c.reg)) ∧
    (32 ≤ s.me.queue.length → exec i s = .next { s with stalled := true }) ∧
    (∀ tr, firstTrap s.me s.me.queue i e = some tr → s.me.queue ≠ [] → exec i s = .next { s with stalled := true }) ∧
    (∀ tr, firstTrap s.me s.me.queue i e = some tr → s.me.queue = [] → tr.cause.parental = false →
      s.myHive.trapmask.getLsbD tr.cause.code = true → s.me.trapcause.getLsbD 8 = false →
      ∃ t, exec i s = .next t ∧ t.me.pc = s.myHive.trapvec ∧ t.me.trappc = s.me.pc ∧ t.me.resumePc = s.me.pc + 8 ∧
        t.me.trapval = tr.val ∧ t.me.trapcause = BitVec.ofNat 64 (tr.cause.code + 256 + 512 + 1024) ∧ t.me.queue = [] ∧
        t.me.held.map (fun d => d.item) = [.instr i]) ∧
    (∀ o : VFmt, i = .vadd o → (ElemType.ofCode o.et).isFloat = false → s.me.queue = [] →
      s.me.grant * 2048 / (ElemType.ofCode o.et).width < (s.me.greg o.gl).toNat →
      firstTrap s.me [] i e = some ⟨.illegalCombo, s.me.greg o.gl, 0, 0⟩) ∧
    (combosOk i = false → s.me.queue = [] → firstTrap s.me [] i e = some ⟨.illegalCombo, encode i, 0, 0⟩) ∧
    (∀ gl, x.gl = some gl → combosOk i = true → s.me.queue = [] →
      let n := (s.me.greg gl).toNat
      let most := s.me.grant * 2048 / x.wide
      let beyond := ∃ r ∈ x.vd.toList ++ x.vs, 8 * 2 ^ s.me.vregs.toNat ≤ r.toNat
      let odd := ∃ o : VFmt, (i = .vzip o ∨ i = .vunzip o) ∧ n % 2 = 1
      let split := ∃ o : VFmt, i = .vhad o ∧ n % (2 * 2 ^ (o.q.toNat % 16)) ≠ 0
      (most < n → firstTrap s.me [] i e = some ⟨.illegalCombo, s.me.greg gl, 0, 0⟩) ∧
      (n ≤ most → odd → firstTrap s.me [] i e = some ⟨.illegalCombo, s.me.greg gl, 0, 0⟩) ∧
      (n ≤ most → split → firstTrap s.me [] i e = some ⟨.illegalCombo, encode i, 0, 0⟩) ∧
      (n ≤ most → ¬ odd → ¬ split → beyond → firstTrap s.me [] i e = some ⟨.illegalCombo, encode i, 0, 0⟩) ∧
      (n ≤ most → ¬ odd → ¬ split → ¬ beyond → firstTrap s.me [] i e = none))

/-- O43. VLD and VST of streams in scratchpad and in memory, of every element width, of coded FP8, and where pages are missing (R112,
R115, R125, R144, R165, R410, R428, R442). A code table in flight and a block kept are the subject of log entry 67. -/
def Obligations.StreamLoadsAndStores : Prop :=
  ∀ (s : State) (o : VMFmt) (c : Nat) (off : Nat → Nat), s.eager = true →
    let w := (ElemType.ofCode o.et).width
    let bytes := max (w / 8) 1
    let n := (s.me.greg o.gl).toNat
    let x := s.me.stream o.sx
    let g := streamAgent s.me o.sx
    let gov : Nat → Bool := fun k => governs s.me o.mk o.mn false k
    let i0 : Nat → Nat := fun k => (x.pos.toNat + k) % x.count 0
    let i1 : Nat → Nat := fun k => (x.pos.toNat + k) / x.count 0 % x.count 1
    let i2 : Nat → Nat := fun k => (x.pos.toNat + k) / (x.count 0 * x.count 1)
    let addr : Nat → Nat := fun k => (((x.base : Nat) + (i1 k : Nat) * x.stride 1 + (i2 k : Nat) * x.stride 2 +
      (if x.stride 0 = 0 then ((w * i0 k / 8 : Nat) : Int) else (i0 k : Nat) * x.stride 0)) % (2 ^ 64 : Nat)).toNat
    let bit : Nat → Nat := fun k => if x.stride 0 = 0 then w * i0 k % 8 else 0
    let frame : State → Prop := fun t =>
      (∀ k, k ≠ s.cur → t.strand k = s.strand k) ∧ t.me.pc = s.me.pc + 8 ∧ (∀ r, t.me.greg r = s.me.greg r) ∧
      (∀ r, t.me.mreg r = s.me.mreg r) ∧ (t.me.stream o.sx).pos = x.pos + BitVec.ofNat 64 n ∧
      (∀ r, r ≠ o.sx → t.me.stream r = s.me.stream r) ∧ t.me.queue = []
    let loads : State → (Nat → Nat) → Prop := fun t f => (∀ r, r ≠ o.vd → t.me.vreg r = s.me.vreg r) ∧
      ∀ k, k * w < 16384 → elemAt (t.me.vreg o.vd) w k = if k < n ∧ gov k = true then f k else elemAt (s.me.vreg o.vd) w k
    n ≤ 8192 → x.bound = true → x.et = o.et → x.pos.toNat + n ≤ x.total →
    (x.isWrite = false → x.coding ≠ 1 → InScratchpad s g .read bytes n gov addr off c → Enters s (.vld o) →
      ∃ t, exec (.vld o) s = .next t ∧ frame t ∧
        t.mem = (if o.ord.getLsbD 0 = true ∧ n ≠ 0 then acquireL1 s s.who o.scope.toNat else s).mem ∧
        (∀ d a, Mem.get (t.core d).scratch a = Mem.get (s.core d).scratch a) ∧
        loads t (fun k => s.scratchWord c (off k) bytes / 2 ^ bit k % 2 ^ w)) ∧
    (x.isWrite = true → InScratchpad s g .write bytes n gov addr off c → BitsApart bytes w n gov off bit → Enters s (.vst o) →
      ∃ t, exec (.vst o) s = .next t ∧ frame t ∧
        t.mem = (if o.ord.getLsbD 1 = true ∧ n ≠ 0 then releaseL1 s s.who o.scope.toNat else s).mem ∧
        (∀ r, t.me.vreg r = s.me.vreg r) ∧ (∀ d, d ≠ c → (t.core d).scratch = (s.core d).scratch) ∧
        (∀ k < n, gov k = true → t.scratchWord c (off k) bytes / 2 ^ bit k % 2 ^ w = elemAt (s.me.vreg o.vd) w k ∧
          ∀ b < 8 * bytes, (∀ j < n, gov j = true → off j = off k → b < bit j ∨ bit j + w ≤ b) →
            (t.scratchWord c (off k) bytes).testBit b = (s.scratchWord c (off k) bytes).testBit b) ∧
        ∀ a, (∀ k < n, gov k = true → a < off k ∨ off k + bytes ≤ a) →
          Mem.get (t.core c).scratch a = Mem.get (s.core c).scratch a) ∧
    (x.isWrite = false → x.coding ≠ 1 → o.ord = 0 → InMemory s g .read bytes n gov addr off c → Enters s (.vld o) →
      ∃ t, exec (.vld o) s = .next t ∧ frame t ∧ SameMemory s t ∧ (∀ a, t.seen c a = s.seen c a) ∧
        loads t (fun k => ofLeBytes ((List.range bytes).map (fun b => s.seen c (off k + b))) / 2 ^ bit k % 2 ^ w)) ∧
    (x.isWrite = true → 8 ≤ w → o.ord = 0 → InMemory s g .write bytes n gov addr off c → Apart bytes n gov off → Enters s (.vst o) →
      ∃ t, exec (.vst o) s = .next t ∧ frame t ∧ SameMemory s t ∧ (∀ r, t.me.vreg r = s.me.vreg r) ∧
        (∀ k < n, gov k = true → ∀ b < bytes, t.seen c (off k + b) = BitVec.ofNat 8 (elemAt (s.me.vreg o.vd) w k / 256 ^ b)) ∧
        ∀ a, (∀ k < n, gov k = true → a < off k ∨ off k + bytes ≤ a) → t.seen c a = s.seen c a) ∧
    (∀ why, x.isWrite = false → x.coding ≠ 1 → SomeMissed s g .read bytes n gov addr off c why → Enters s (.vld o) →
      s.myHive.trapmask.getLsbD 9 = true → s.me.trapcause.getLsbD 8 = false →
      ∃ t, exec (.vld o) s = .next t ∧ ReportsMissed s t .read n gov addr why (.vld o) ∧
        ∀ k, k * w < 16384 → elemAt (t.me.vreg o.vd) w k =
          if k < n ∧ gov k = true ∧ why k = none then s.scratchWord c (off k) bytes / 2 ^ bit k % 2 ^ w
          else elemAt (s.me.vreg o.vd) w k) ∧
    (∀ why, x.isWrite = true → 8 ≤ w → o.ord = 0 → SomeMissed s g .write bytes n gov addr off c why → Apart bytes n gov off → Enters s (.vst o) →
      s.myHive.trapmask.getLsbD 9 = true → s.me.trapcause.getLsbD 8 = false →
      ∃ t, exec (.vst o) s = .next t ∧ ReportsMissed s t .write n gov addr why (.vst o) ∧ (∀ r, t.me.vreg r = s.me.vreg r) ∧
        (∀ k < n, gov k = true → why k = none → t.scratchWord c (off k) bytes = elemAt (s.me.vreg o.vd) w k) ∧
        ∀ a, (∀ k < n, gov k = true → why k = none → a < off k ∨ off k + bytes ≤ a) →
          Mem.get (t.core c).scratch a = Mem.get (s.core c).scratch a) ∧
    (x.isWrite = false → x.coding = 1 → w = 8 → x.kept = none → s.cmds = [] → o.ord = 0 → x.pos.toNat + n ≤ 32 →
      (∃ k < n, gov k = true) → c < s.cores.length → Enters s (.vld o) →
      let size := blockSize (s.scratchWord c (off 0) 2)
      let table := s.me.table x.tslot
      let found := decodeBlock x.tslot.toNat table.gen.toNat o.et.toNat (min 32 (x.count 0)) table.entries
        ((List.range size).map (fun j => Mem.get (s.core c).scratch (off 0 + j)))
      (∀ j < size, addressError s g .read (x.base + j) = false ∧
        locateV s g (x.base + j) .read = .ok (.scratch c (off 0 + j), s)) →
      (∀ l, found = .ok l → ∃ t, exec (.vld o) s = .next t ∧ frame t ∧ SameMemory s t ∧
        loads t (fun k => l.getD (x.pos.toNat + k) 0 % 256)) ∧
      (∀ q, found = .error q → s.myHive.trapmask.getLsbD 0xF = true → s.me.trapcause.getLsbD 8 = false →
        ∃ t, exec (.vld o) s = .next t ∧ t.me.pc = s.myHive.trapvec ∧ t.me.trappc = s.me.pc ∧
          t.me.trapcause.extractLsb' 0 6 = 0xF ∧ t.me.trapval = 0 ∧ t.me.trapinfo = BitVec.ofNat 64 q ∧
          t.me.streams = s.me.streams ∧ (∀ r, t.me.vreg r = s.me.vreg r) ∧ ∀ r, t.me.mreg r = s.me.mreg r))

/-- O44. VLDX, VSTX and VAMO in scratchpad and in memory, and where pages are missing (R115, R125, R282, R410, R411, R412, R432,
R443). -/
def Obligations.GathersScattersAndAtomics : Prop :=
  ∀ (s : State) (o : VMFmt) (c : Nat) (off : Nat → Nat), s.eager = true →
    let w := (ElemType.ofCode o.et).width
    let n := (s.me.greg o.gl).toNat
    let gov : Nat → Bool := fun k => governs s.me o.mk o.mn false k
    let ix := bits o.q.toNat 1 0
    let index : Nat → Int := fun k => if ix = 1 then (BitVec.ofNat 32 (elemAt (s.me.vreg o.vi) 32 k)).toInt
      else if ix = 2 then (BitVec.ofNat 64 (elemAt (s.me.vreg o.vi) 64 k)).toInt
      else (elemAt (s.me.vreg o.vi) 32 k : Int)
    let addr : Nat → Nat := fun k =>
      (((s.me.greg o.ga).toNat + index k * (2 ^ bits o.q.toNat 4 2 : Nat)) % (2 ^ 64 : Nat)).toNat
    let handles := s.myHive.trapmask.getLsbD 9 = true ∧ s.me.trapcause.getLsbD 8 = false
    let frame : State → Prop := fun t =>
      (∀ k, k ≠ s.cur → t.strand k = s.strand k) ∧ t.me.pc = s.me.pc + 8 ∧ (∀ r, t.me.greg r = s.me.greg r) ∧
      (∀ r, t.me.mreg r = s.me.mreg r) ∧ t.me.streams = s.me.streams ∧ t.me.queue = []
    n ≤ 8192 →
    (InScratchpad s (gatherAgent s.me) .read (w / 8) n gov addr off c → Enters s (.vldx o) →
      ∃ t, exec (.vldx o) s = .next t ∧ frame t ∧
        (∀ d a, Mem.get (t.core d).scratch a = Mem.get (s.core d).scratch a) ∧
        (∀ r, r ≠ o.vd → t.me.vreg r = s.me.vreg r) ∧
        ∀ k, k * w < 16384 → elemAt (t.me.vreg o.vd) w k =
          if k < n ∧ gov k = true then s.scratchWord c (off k) (w / 8) else elemAt (s.me.vreg o.vd) w k) ∧
    (InScratchpad s (gatherAgent s.me) .write (w / 8) n gov addr off c → Apart (w / 8) n gov off → Enters s (.vstx o) →
      ∃ t, exec (.vstx o) s = .next t ∧ frame t ∧ (∀ r, t.me.vreg r = s.me.vreg r) ∧
        (∀ k < n, gov k = true → t.scratchWord c (off k) (w / 8) = elemAt (s.me.vreg o.vd) w k) ∧
        (∀ d, d ≠ c → (t.core d).scratch = (s.core d).scratch) ∧
        ∀ a, (∀ k < n, gov k = true → a < off k ∨ off k + w / 8 ≤ a) →
          Mem.get (t.core c).scratch a = Mem.get (s.core c).scratch a) ∧
    (InScratchpad s (gatherAgent s.me) .amo (w / 8) n gov addr off c → Apart (w / 8) n gov off → Enters s (.vamo o) →
      ∃ t, exec (.vamo o) s = .next t ∧ frame t ∧ (∀ r, r ≠ o.vd → t.me.vreg r = s.me.vreg r) ∧
        (∀ k, k * w < 16384 → elemAt (t.me.vreg o.vd) w k =
          if k < n ∧ gov k = true then s.scratchWord c (off k) (w / 8) else elemAt (s.me.vreg o.vd) w k) ∧
        (∀ k < n, gov k = true → t.scratchWord c (off k) (w / 8) =
          (amoNew (vamoOp o.q) w (s.scratchWord c (off k) (w / 8)) (elemAt (s.me.vreg o.vd) w k) 0).getD 0) ∧
        ∀ a, (∀ k < n, gov k = true → a < off k ∨ off k + w / 8 ≤ a) →
          Mem.get (t.core c).scratch a = Mem.get (s.core c).scratch a) ∧
    (o.ord = 0 → InMemory s (gatherAgent s.me) .read (w / 8) n gov addr off c → Enters s (.vldx o) →
      ∃ t, exec (.vldx o) s = .next t ∧ frame t ∧ SameMemory s t ∧ (∀ a, t.seen c a = s.seen c a) ∧
        (∀ r, r ≠ o.vd → t.me.vreg r = s.me.vreg r) ∧
        ∀ k, k * w < 16384 → elemAt (t.me.vreg o.vd) w k =
          if k < n ∧ gov k = true then ofLeBytes ((List.range (w / 8)).map (fun b => s.seen c (off k + b)))
          else elemAt (s.me.vreg o.vd) w k) ∧
    (o.ord = 0 → InMemory s (gatherAgent s.me) .write (w / 8) n gov addr off c → Apart (w / 8) n gov off → Enters s (.vstx o) →
      ∃ t, exec (.vstx o) s = .next t ∧ frame t ∧ SameMemory s t ∧ (∀ r, t.me.vreg r = s.me.vreg r) ∧
        (∀ k < n, gov k = true → ∀ b < w / 8, t.seen c (off k + b) = BitVec.ofNat 8 (elemAt (s.me.vreg o.vd) w k / 256 ^ b)) ∧
        ∀ a, (∀ k < n, gov k = true → a < off k ∨ off k + w / 8 ≤ a) → t.seen c a = s.seen c a) ∧
    (o.ord = 0 → InMemory s (gatherAgent s.me) .amo (w / 8) n gov addr off c → Apart (w / 8) n gov off → Enters s (.vamo o) →
      (∀ k < n, gov k = true → (s.core c).line (off k / 128) = none) →
      let old : Nat → Nat := fun k => ofLeBytes ((List.range (w / 8)).map (fun b => Mem.get s.mem (off k + b)))
      ∃ t, exec (.vamo o) s = .next t ∧ frame t ∧ (∀ d, (t.core d).l1 = (s.core d).l1) ∧
        (∀ r, r ≠ o.vd → t.me.vreg r = s.me.vreg r) ∧
        (∀ k, k * w < 16384 → elemAt (t.me.vreg o.vd) w k =
          if k < n ∧ gov k = true then old k else elemAt (s.me.vreg o.vd) w k) ∧
        (∀ k < n, gov k = true → ∀ b < w / 8, Mem.get t.mem (off k + b) =
          BitVec.ofNat 8 ((amoNew (vamoOp o.q) w (old k) (elemAt (s.me.vreg o.vd) w k) 0).getD (old k) / 256 ^ b)) ∧
        ∀ a, (∀ k < n, gov k = true → a < off k ∨ off k + w / 8 ≤ a) → Mem.get t.mem a = Mem.get s.mem a) ∧
    (∀ why, handles → SomeMissed s (gatherAgent s.me) .read (w / 8) n gov addr off c why → Enters s (.vldx o) →
      ∃ t, exec (.vldx o) s = .next t ∧ ReportsMissed s t .read n gov addr why (.vldx o) ∧
        (∀ r, r ≠ o.vd → t.me.vreg r = s.me.vreg r) ∧
        ∀ k, k * w < 16384 → elemAt (t.me.vreg o.vd) w k =
          if k < n ∧ gov k = true ∧ why k = none then s.scratchWord c (off k) (w / 8) else elemAt (s.me.vreg o.vd) w k) ∧
    (∀ why, handles → o.ord = 0 → SomeMissed s (gatherAgent s.me) .write (w / 8) n gov addr off c why → Apart (w / 8) n gov off →
      Enters s (.vstx o) →
      ∃ t, exec (.vstx o) s = .next t ∧ ReportsMissed s t .write n gov addr why (.vstx o) ∧ (∀ r, t.me.vreg r = s.me.vreg r) ∧
        (∀ k < n, gov k = true → why k = none → t.scratchWord c (off k) (w / 8) = elemAt (s.me.vreg o.vd) w k) ∧
        ∀ a, (∀ k < n, gov k = true → why k = none → a < off k ∨ off k + w / 8 ≤ a) →
          Mem.get (t.core c).scratch a = Mem.get (s.core c).scratch a) ∧
    (∀ why, handles → o.ord = 0 → SomeMissed s (gatherAgent s.me) .amo (w / 8) n gov addr off c why → Apart (w / 8) n gov off →
      Enters s (.vamo o) →
      ∃ t, exec (.vamo o) s = .next t ∧ ReportsMissed s t .amo n gov addr why (.vamo o) ∧
        (∀ k, k * w < 16384 → elemAt (t.me.vreg o.vd) w k =
          if k < n ∧ gov k = true ∧ why k = none then s.scratchWord c (off k) (w / 8) else elemAt (s.me.vreg o.vd) w k) ∧
        ∀ a, (∀ k < n, gov k = true → why k = none → a < off k ∨ off k + w / 8 ≤ a) →
          Mem.get (t.core c).scratch a = Mem.get (s.core c).scratch a)

/-- O45. VLDFE with its wake, at every element width, and VPF (R107, R112, R144, R430, R436, R45). -/
def Obligations.FullEmptyStreamsAndPrefetches : Prop :=
  ∀ (s : State) (o : VMFmt) (c : Nat) (off : Nat → Nat), s.eager = true →
    let w := (ElemType.ofCode o.et).width
    let n := (s.me.greg o.gl).toNat
    let x := s.me.stream o.sx
    let g := streamAgent s.me o.sx
    let bytes := max (w / 8) 1
    let gov : Nat → Bool := fun k => governs s.me o.mk o.mn false k
    let addr : Nat → Nat := fun k => (takenAddr s.me o.sx w k).1
    let bit : Nat → Nat := fun k => if x.stride 0 = 0 then w * ((x.pos.toNat + k) % x.count 0) % 8 else 0
    n ≤ 8192 → x.bound = true → x.et = o.et → x.pos.toNat + n ≤ x.total →
    (x.isWrite = false → x.coding = 0 → InScratchpad s g .read bytes n gov addr off c → Enters s (.vldfe o) →
      ((∀ k < n, gov k = true → (s.core c).isFull (off k / 16) = true) →
        ∃ t, exec (.vldfe o) s = .next t ∧ t.me.pc = s.me.pc + 8 ∧ t.me.queue = [] ∧
          (t.me.stream o.sx).pos = x.pos + BitVec.ofNat 64 n ∧
          (∀ d a, Mem.get (t.core d).scratch a = Mem.get (s.core d).scratch a) ∧
          (∀ r, r ≠ o.vd → t.me.vreg r = s.me.vreg r) ∧
          (∀ k, k * w < 16384 → elemAt (t.me.vreg o.vd) w k =
            if k < n ∧ gov k = true then s.scratchWord c (off k) bytes / 2 ^ bit k % 2 ^ w else elemAt (s.me.vreg o.vd) w k) ∧
          ∀ q, (t.core c).isFull q = true ↔ (s.core c).isFull q = true ∧
            (o.q.getLsbD 0 = true → ∀ k < n, gov k = true → q ≠ off k / 16)) ∧
      ((∃ k < n, gov k = true ∧ (s.core c).isFull (off k / 16) = false) →
        ∃ t, exec (.vldfe o) s = .next t ∧ OnlyMe s { t with nextCmd := s.nextCmd } ∧
          t.me = { s.me with pc := s.me.pc + 8, queue := t.me.queue } ∧ t.me.queue.map (fun e => e.item) = [.instr (.vldfe o)] ∧
          exec (.vldfeWake s.cur) t = .next t)) ∧
    (x.isWrite = false → x.coding = 0 → InScratchpad s g .read bytes n gov addr off c → AwaitsAlone s (.vldfe o) →
      (∀ k < n, gov k = true → (s.core c).isFull (off k / 16) = true) →
      ∃ t, exec (.vldfeWake s.cur) s = .next t ∧ t.me.pc = s.me.pc ∧ t.me.queue = [] ∧
        (t.me.stream o.sx).pos = x.pos + BitVec.ofNat 64 n ∧ (∀ r, r ≠ o.vd → t.me.vreg r = s.me.vreg r) ∧
        ∀ k, k * w < 16384 → elemAt (t.me.vreg o.vd) w k =
          if k < n ∧ gov k = true then s.scratchWord c (off k) bytes / 2 ^ bit k % 2 ^ w else elemAt (s.me.vreg o.vd) w k) ∧
    (Enters s (.vpf o) →
      ∃ t, exec (.vpf o) s = .next t ∧ (∀ d a, Mem.get (t.core d).scratch a = Mem.get (s.core d).scratch a) ∧
        (∀ d, s.who.core = some d → Evicts s t d) ∧ (s.who.core = none → SameMemory s t) ∧
        t.me.pc = s.me.pc + 8 ∧ t.me.queue = [] ∧ t.me.v = s.me.v ∧ t.me.m = s.me.m ∧
        t.me.g = s.me.g ∧ (t.me.stream o.sx).pos = x.pos + BitVec.ofNat 64 n)

/-- O46. SBIND, SSET, SADV and SGET (R111, R112, R113, R166, R381, R383, R386, R390). -/
def Obligations.StreamBindingAndPositions : Prop :=
  ∀ (s : State) (o : IFmt), s.eager = true →
    let sx : BitVec 4 := o.q.extractLsb' 0 4
    let x := s.me.stream sx
    let ga := s.me.greg o.ga
    let frame : State → Prop := fun t => SameMemory s t ∧ (∀ k, k ≠ s.cur → t.strand k = s.strand k) ∧
      t.me.pc = s.me.pc + 8 ∧ t.me.queue = [] ∧ t.me.v = s.me.v ∧ t.me.m = s.me.m ∧ ∀ r, r ≠ sx → t.me.stream r = s.me.stream r
    (∀ share off, s.me.share = some share → ga.toNat = 0x01F0000000000000 + off → ga.toNat % 64 = 0 →
      off + 64 ≤ (512 + 256 * (s.core share.core).sps.toNat) * 1024 * share.size / 16 → off < 2 ^ 52 →
      let r := s.scratchWord share.core ((512 + 256 * (s.core share.core).sps.toNat) * 1024 * share.lg / 16 + off) 64
      recordFault r = none → bindingOk ⟨true, BitVec.ofNat 512 r, 0, [], none⟩ = true → Enters s (.sbind o) →
      ∃ t, exec (.sbind o) s = .next t ∧ frame t ∧ t.me.g = s.me.g ∧ (t.me.stream sx).bound = true ∧
        (t.me.stream sx).desc = BitVec.ofNat 512 r ∧ (t.me.stream sx).pos = 0) ∧
    (x.bound = true → ga.toNat ≤ x.total → (x.coding = 1 → ga = 0 ∨ ga = x.pos) → Enters s (.sset o) →
      ∃ t, exec (.sset o) s = .next t ∧ frame t ∧ t.me.g = s.me.g ∧ (t.me.stream sx).pos = ga ∧
        (t.me.stream sx).desc = x.desc) ∧
    (x.bound = true → 0 ≤ (x.pos.toNat : Int) + (ga.toInt + o.imm.toInt) →
      (x.pos.toNat : Int) + (ga.toInt + o.imm.toInt) ≤ x.total → (x.coding = 1 → ga.toInt + o.imm.toInt = 0) →
      Enters s (.sadv o) →
      ∃ t, exec (.sadv o) s = .next t ∧ frame t ∧ t.me.g = s.me.g ∧
        ((t.me.stream sx).pos.toNat : Int) = ((x.pos.toNat : Int) + (ga.toInt + o.imm.toInt)) % (2 ^ 64 : Nat)) ∧
    (x.bound = true → Enters s (.sget o) →
      ∃ t, exec (.sget o) s = .next t ∧ frame t ∧ t.me.streams = s.me.streams ∧
        ∀ r, t.me.greg r = if r = o.gd ∧ r ≠ 0 then x.pos else s.me.greg r)

/-- O47. VPUSH and VWAITF with the events that end their waits (R45, R245, R437). -/
def Obligations.PushedValues : Prop :=
  (∀ (s : State) (o : XFmt) (q : Nat), s.eager = true → Enters s (.vpush o) → q ≠ s.cur → q < s.strands.length →
    strandOf s s.me.hive (s.me.greg o.ga) = some q →
    let d := s.strand q
    let full := d.placed = false ∨ d.resuming = true ∨ d.pushBits.getLsbD o.vd.toNat = true ∨ 16 ≤ d.pushed.length
    (¬ full → o.vd.toNat < d.budget → ∃ t, exec (.vpush o) s = .next t ∧ t.me = { s.me with pc := s.me.pc + 8 } ∧
      t.mem = (releaseL1 s s.who 2).mem ∧
      t.strand q = { d with pushed := d.pushed ++ [⟨o.vd, s.me.grant, s.me.vreg o.va⟩]
                            pushBits := d.pushBits ||| (1 : Word) <<< o.vd.toNat } ∧
      ∀ k, k ≠ s.cur → k ≠ q → t.strand k = s.strand k) ∧
    (full → ∃ t, exec (.vpush o) s = .next t ∧ OnlyMe s { t with nextCmd := s.nextCmd } ∧
      t.me = { s.me with pc := s.me.pc + 8, queue := t.me.queue } ∧ t.me.queue.length = 1 ∧
      exec (.vpushTransfer s.cur) t = .next t)) ∧
  (∀ (s : State) (o : XFmt) (q : Nat), s.eager = true → AwaitsAlone s (.vpush o) → q ≠ s.cur → q < s.strands.length →
    strandOf s s.me.hive (s.me.greg o.ga) = some q → let d := s.strand q
    d.placed = true → d.resuming = false → d.pushBits.getLsbD o.vd.toNat = false → d.pushed.length < 16 → o.vd.toNat < d.budget →
    ∃ t, exec (.vpushTransfer s.cur) s = .next t ∧ t.me = { s.me with queue := [] } ∧ t.mem = (releaseL1 s s.who 2).mem ∧
      t.strand q = { d with pushed := d.pushed ++ [⟨o.vd, s.me.grant, s.me.vreg o.va⟩]
                            pushBits := d.pushBits ||| (1 : Word) <<< o.vd.toNat } ∧
      ∀ k, k ≠ s.cur → k ≠ q → t.strand k = s.strand k) ∧
  (∀ (s : State) (o : XFmt), s.eager = true → Enters s (.vwaitf o) →
    (∀ p, s.me.pushed.find? (fun p => p.reg == o.vd) = some p →
      ∃ t, exec (.vwaitf o) s = .next t ∧
        t.me = { s.me with pc := s.me.pc + 8, v := t.me.v, pushed := s.me.pushed.erase p
                           pushBits := s.me.pushBits &&& ~~~((1 : Word) <<< o.vd.toNat) } ∧
        (∀ r, r ≠ o.vd → t.me.vreg r = s.me.vreg r) ∧ t.mem = (acquireL1 s s.who 2).mem ∧
        (∀ b, (t.me.vreg o.vd).getLsbD b =
          if b < 2048 * min p.egs s.me.grant then p.val.getLsbD b else (s.me.vreg o.vd).getLsbD b) ∧
        ∀ k, k ≠ s.cur → t.strand k = s.strand k) ∧
    ((∀ p ∈ s.me.pushed, p.reg ≠ o.vd) →
      ∃ t, exec (.vwaitf o) s = .next t ∧ OnlyMe s { t with nextCmd := s.nextCmd } ∧
        t.me = { s.me with pc := s.me.pc + 8, queue := t.me.queue } ∧ t.me.queue.length = 1 ∧
        exec (.vwaitfFill s.cur) t = .next t)) ∧
  (∀ (s : State) (o : XFmt) (p : Pushed), s.eager = true → AwaitsAlone s (.vwaitf o) →
    s.me.pushed.find? (fun p => p.reg == o.vd) = some p →
    ∃ t, exec (.vwaitfFill s.cur) s = .next t ∧
      t.me = { s.me with v := t.me.v, queue := [], pushed := s.me.pushed.erase p
                         pushBits := s.me.pushBits &&& ~~~((1 : Word) <<< o.vd.toNat) } ∧
      (∀ r, r ≠ o.vd → t.me.vreg r = s.me.vreg r) ∧ t.mem = (acquireL1 s s.who 2).mem ∧
      ∀ b, (t.me.vreg o.vd).getLsbD b =
        if b < 2048 * min p.egs s.me.grant then p.val.getLsbD b else (s.me.vreg o.vd).getLsbD b) ∧
  (∀ (s : State) (o : XFmt), s.eager = true → Enters s (.vpush o) →
    (strandOf s s.me.hive (s.me.greg o.ga) = none ∨ strandOf s s.me.hive (s.me.greg o.ga) = some s.cur) →
    s.myHive.trapmask.getLsbD 0x1B = true → s.me.trapcause.getLsbD 8 = false →
    ∃ t, exec (.vpush o) s = .next t ∧ t.me.trappc = s.me.pc ∧ t.me.trapval = s.me.greg o.ga ∧ t.me.pc = s.myHive.trapvec ∧
      t.me.trapcause.extractLsb' 0 6 = 0x1B)

/-- O48. TMODE and the tile instructions, saturating, floating and scaled too (R157, R158, R160, R176, R178, R180, R182, R183, R184, R185,
R396, R403). That a group sum of zero counts as +0 is the model's choice (log entry 68). -/
def Obligations.TileInstructions : Prop :=
  (∀ (s : State) (o : IFmt), s.eager = true → Enters s (.tmode o) →
    let m := min (s.me.greg o.ga).toNat (128 / 2 ^ s.myCore.mvlc)
    ∃ t, exec (.tmode o) s = .next t ∧ OnlyMe s { t with nextCmd := s.nextCmd } ∧
      t.me = { s.me with g := t.me.g, mvl := m, pc := s.me.pc + 8 } ∧
      ∀ r, t.me.greg r = if r = o.gd ∧ r ≠ 0 then BitVec.ofNat 64 m else s.me.greg r) ∧
  (∀ (s : State) (o : TFmt) (share : ShareRef), s.eager = true → s.me.share = some share → share.core < s.cores.length →
    let ta := ElemType.ofCode o.eta
    let tb := ElemType.ofCode o.etb
    let c := s.core share.core
    let n := share.lg / 4 + o.ad.toNat
    let m := s.me.mvl
    let rows := c.tile n
    let gov : Nat → Nat → Bool := fun i j => decide (i < m) && decide (j < m) && (o.mr == 0 || (s.me.mreg o.mr).getLsbD i) &&
      (o.mc == 0 || (s.me.mreg o.mc).getLsbD j)
    let a : Nat → Nat := fun k => elemAt (s.me.vreg o.va) ta.width k
    let b : Nat → Nat := fun k => elemAt (s.me.vreg o.vb) tb.width k
    let sum : Nat → Nat → Int := fun i j => ((List.range (s.me.greg o.gl).toNat).map (fun k =>
      intVal ta (a (k * m + i)) * intVal tb (b (k * m + j)))).sum
    let len := (s.me.greg o.gl).toNat
    let depth := if ta.width = 8 then 2 else if ta.width = 4 then 4 else if ta.width = 2 then 8 else 1
    let groups := (len + depth - 1) / depth
    let inGroup : Nat → List Nat := fun g => ((List.range depth).map (fun d => g * depth + d)).filter (fun k => decide (k < len))
    let sat : Int → Int := fun x => max (-(2 ^ 31)) (min (2 ^ 31 - 1) x)
    let groupOf : Nat → Nat → Nat → Int := fun i j g => ((inGroup g).map (fun k =>
      intVal ta (a (k * m + i)) * intVal tb (b (k * m + j)))).sum
    let signed : Nat → Int := fun x => (BitVec.ofNat 32 x).toInt
    let partly : Int → Nat → Nat → Nat → Int := fun sign i j g =>
      (List.range g).foldl (fun x g => sat (x + sign * groupOf i j g)) (signed (tileElem rows i j))
    let wrap : Int → Nat := fun x => (x % (2 ^ 32 : Nat)).toNat
    let rest : State → Prop := fun t => SameMemory s t ∧ (∀ k, k ≠ s.cur → t.strand k = s.strand k) ∧ t.me.pc = s.me.pc + 8 ∧
      t.me.queue = [] ∧ t.me.g = s.me.g ∧ t.me.m = s.me.m ∧ ∀ d q, d ≠ share.core ∨ q ≠ n → (t.core d).tile q = (s.core d).tile q
    let gives : Instr → (Nat → Nat → Nat) → Prop := fun i f => Enters s i → ∃ t, exec i s = .next t ∧ rest t ∧ t.me.v = s.me.v ∧
      ∀ p < 128, ∀ q < 128, tileElem ((t.core share.core).tile n) p q = if gov p q then f p q else tileElem rows p q
    m ≤ 128 → n < c.tiles.length → rows.length = 128 → unitBusy s share.core = false →
    (ta.isFloat = false → o.q = 0 → gives (.topa o) (fun i j => wrap (tileElem rows i j + sum i j)) ∧
      gives (.tops o) (fun i j => wrap (tileElem rows i j - sum i j))) ∧
    (ta.isFloat = false → o.q = 4 → ∀ sign : Int, ∀ op : TFmt → Instr, (sign = 1 ∧ op = .topa) ∨ (sign = -1 ∧ op = .tops) →
      gives (op o) (fun i j => wrap (partly sign i j groups)) ∧
      (Enters s (op o) → ∃ t, exec (op o) s = .next t ∧ ∀ p < 64, t.me.fpctl.getLsbD p = true ↔ s.me.fpctl.getLsbD p = true ∨
        (p = 8 + o.ad.toNat ∧ ∃ i j g, gov i j = true ∧ g < groups ∧
          let x := partly sign i j g + sign * groupOf i j g
          (x < -(2 ^ 31) ∨ 2 ^ 31 - 1 < x)))) ∧
    (∀ op : TFmt → Instr, op = .topa ∨ op = .tops → len = 0 → gives (op o) (tileElem rows) ∧
      (Enters s (op o) → ∃ t, exec (op o) s = .next t ∧ t.me.fpctl = s.me.fpctl ∧ ∀ k, (t.me.stream k).pos = (s.me.stream k).pos)) ∧
    (let f := floatFmt .f32
     let real : FVal → ℝ := fun v => match v with
       | .fin neg n e => (if neg then -1 else 1) * n * 2 ^ e
       | _ => 0
     let finite : FVal → Prop := fun v => v.isNan = false ∧ v.isInf = false
     let need := m * ((len + 31) / 32)
     ∀ (sign : ℝ) (op : TFmt → Instr) (offA offB : Nat → Nat), (sign = 1 ∧ op = .topa) ∨ (sign = -1 ∧ op = .tops) →
     let side : Bool → BitVec 4 → (Nat → Nat) → Prop := fun on sx off => on = true → let x := s.me.stream sx
       x.bound = true ∧ x.isWrite = false ∧ x.coding = 0 ∧ x.et = 3 ∧ x.count 0 = need ∧ x.pos.toNat % need = 0 ∧
         x.pos.toNat + need ≤ x.total ∧
         InScratchpad s (streamAgent s.me sx) .read 1 need (fun _ => true) (fun k => (takenAddr s.me sx 8 k).1) off share.core
     let scale : Bool → (Nat → Nat) → Nat → ℝ := fun on off k =>
       if on then 2 ^ ((s.scratchWord share.core (off k) 1 : Int) - 127) else 1
     let group : Nat → Nat → Nat → ℝ := fun i j g => let blk := g * depth / 32
       sign * ((inGroup g).map (fun k => real (fdecode (floatFmt ta) (a (k * m + i))) * real (fdecode (floatFmt tb) (b (k * m + j))))).sum *
         scale (o.q.getLsbD 0) offA (blk * m + i) * scale (o.q.getLsbD 1) offB (blk * m + j)
     ta.isFloat = true → len ≠ 0 → Enters s (op o) → side (o.q.getLsbD 0) o.sa offA → side (o.q.getLsbD 1) o.sb offB →
     (∀ i < m, ∀ k < len, finite (fdecode (floatFmt ta) (a (k * m + i))) ∧ finite (fdecode (floatFmt tb) (b (k * m + i)))) →
     (∀ k < need, (o.q.getLsbD 0 = true → s.scratchWord share.core (offA k) 1 ≠ 255) ∧
       (o.q.getLsbD 1 = true → s.scratchWord share.core (offB k) 1 ≠ 255)) →
     ∃ (t : State) (r fl : Nat → Nat → Nat → Nat), exec (op o) s = .next t ∧ rest t ∧ t.me.v = s.me.v ∧
       (o.q.getLsbD 0 = true → (t.me.stream o.sa).pos = (s.me.stream o.sa).pos + BitVec.ofNat 64 need) ∧
       (o.q.getLsbD 1 = true → (t.me.stream o.sb).pos = (s.me.stream o.sb).pos + BitVec.ofNat 64 need) ∧
       (∀ p < 64, t.me.fpctl.getLsbD p = true ↔ s.me.fpctl.getLsbD p = true ∨
         (3 ≤ p ∧ p < 8 ∧ ∃ i j g, gov i j = true ∧ g < groups ∧ (fl i j g).testBit p = true)) ∧
       (∀ i < 128, ∀ j < 128, tileElem ((t.core share.core).tile n) i j =
         if gov i j = true then r i j groups else tileElem rows i j) ∧
       ∀ i j g, gov i j = true → g < groups → r i j 0 = tileElem rows i j ∧
         match fdecode f (r i j g) with
         | .nan sig => r i j (g + 1) = f.canon ∧ fl i j g = if sig then flagNV else 0
         | .inf _ => r i j (g + 1) = r i j g ∧ fl i j g = 0
         | .fin neg v e =>
           let x := real (.fin neg v e) + group i j g
           (x = 0 → r i j (g + 1) = 0 ∧ fl i j g = 0) ∧
           (x < 0 → f.RoundsTo 0 0 false true (-x) (r i j (g + 1), fl i j g)) ∧
           (0 < x → f.RoundsTo 0 0 false false x (r i j (g + 1), fl i j g))) ∧
    (∀ op : TFmt → Instr, op = .topa ∨ op = .tops → len ≠ 0 → Enters s (op o) →
      s.myHive.trapmask.getLsbD 0xD = true → s.me.trapcause.getLsbD 8 = false →
      let need := m * ((len + 31) / 32)
      let wrong : Bool → BitVec 4 → Prop := fun on sx => on = true ∧ let x := s.me.stream sx
        ¬ (x.bound = true ∧ x.isWrite = false ∧ x.coding = 0 ∧ x.et = 3 ∧ x.count 0 = need ∧ x.pos.toNat % need = 0 ∧
          x.pos.toNat + need ≤ x.total)
      let bad := wrong (o.q.getLsbD 0) o.sa
      0 < m → bad ∨ wrong (o.q.getLsbD 1) o.sb →
      ∃ t, exec (op o) s = .next t ∧ t.cores = s.cores ∧ t.me.pc = s.myHive.trapvec ∧ t.me.trappc = s.me.pc ∧
        t.me.trapcause.extractLsb' 0 6 = 0xD ∧ (bad → t.me.trapval = o.sa.setWidth 64) ∧ (¬ bad → t.me.trapval = o.sb.setWidth 64) ∧
        t.me.trapinfo = BitVec.ofNat 64 need ∧ t.me.streams = s.me.streams ∧ t.me.fpctl = s.me.fpctl) ∧
    gives (.tzero o) (fun _ _ => 0) ∧
    (Enters s (.tzero o) → ∃ t, exec (.tzero o) s = .next t ∧ t.me.fpctl = s.me.fpctl &&& ~~~((256 : Word) <<< o.ad.toNat)) ∧
    (let f := floatFmt .f32
     gives (.tscl o) (fun i j =>
      let e := fdecode f (tileElem rows i j)
      let p := fdecode f (elemAt (s.me.vreg o.va) 32 i)
      let q := fdecode f (elemAt (s.me.vreg o.vb) 32 j)
      let z := if o.q.getLsbD 0 then e.exact.mul p.exact else e.exact
      let z := if o.q.getLsbD 1 then z.mul q.exact else z
      (roundExact ((e.neg != (o.q.getLsbD 0 && p.neg)) != (o.q.getLsbD 1 && q.neg)) z).1 % 2 ^ 32)) ∧
    (∀ (x y z : Bool) (a b c : Nat) (d e g : Int), (floatFmt .f32).RoundsTo 0 0 false ((x != y) != z) (a * b * c * 2 ^ (d + e + g))
      (roundExact ((x != y) != z) (((FVal.fin x a d).exact.mul (FVal.fin y b e).exact).mul (FVal.fin z c g).exact))) ∧
    (let p0 := (s.me.greg o.gl).toNat
     let count := min (s.me.grant * 2048 / ta.width) (m * m - p0)
     let drm := (s.me.fpctl.extractLsb' 0 3).toNat
     let mode := if o.q.setWidth 3 = 6#3 then drm else (o.q.setWidth 3).toNat
     (o.q.setWidth 3 = 6#3 → drm < 6) →
     (Enters s (.trd o) → ∃ t, exec (.trd o) s = .next t ∧ rest t ∧ (∀ d, (t.core d).tiles = (s.core d).tiles) ∧
       (∀ r, r ≠ o.va → t.me.vreg r = s.me.vreg r) ∧
       ∀ e, e * ta.width < 16384 → ∃ g, elemAt (t.me.vreg o.va) ta.width e =
         if e < count ∧ gov ((p0 + e) / m) ((p0 + e) % m) = true then
           (convert tb ta (tileElem rows ((p0 + e) / m) ((p0 + e) % m)) mode g (o.q.getLsbD 3)).1 % 2 ^ ta.width
         else elemAt (s.me.vreg o.va) ta.width e) ∧
     (Enters s (.twr o) → ∃ t, exec (.twr o) s = .next t ∧ rest t ∧ t.me.v = s.me.v ∧
       ∀ i < 128, ∀ j < 128, ∃ g, tileElem ((t.core share.core).tile n) i j =
         if gov i j = true ∧ p0 ≤ i * m + j ∧ i * m + j < p0 + count then
           (convert ta tb (a (i * m + j - p0)) mode g (o.q.getLsbD 3)).1 % 2 ^ 32
         else tileElem rows i j)))

/-- O49. FBIND, FFREE, FX, FCFG, FDRAIN, FSTAT and FCTX (R204, R205, R206, R207, R208, R209, R337, R344, R346, R352). -/
def Obligations.CombInstructions : Prop :=
  ∀ (s : State) (o : XFmt), s.eager = true →
    let n : BitVec 5 := o.imm.extractLsb' 0 5
    let f := s.me.fslot n
    let goes : Instr → (State → State → Prop) → Prop := fun i p => Enters s i → ∀ x, shapeOf i = some x →
      ∃ t, exec i s = .next t ∧ t.me.pc = s.me.pc + 8 ∧ t.me.queue = [] ∧ t.me.status = .running ∧
        (∀ r, x.gd ≠ some r → t.me.greg r = s.me.greg r) ∧ p (append s i (newEntry s s.me i x)) t
    let writes : State → Word → Prop := fun t v => ∀ r, t.me.greg r = if r = o.gd ∧ r ≠ 0 then v else s.me.greg r
    (Enters s (.fbind o) → ∀ x, shapeOf (.fbind o) = some x →
      let v := append s (.fbind o) (newEntry s s.me (.fbind o) x)
      ∀ h m u, (s.me.greg o.ga).toNat % 64 = 0 → (s.me.greg o.gb).toNat % 4096 = 0 → o.imm.getLsbD 5 = false →
        loadImage v (gatherAgent s.me) (s.me.greg o.ga).toNat = .ok (h, m, u) → checkImage h s.me.shareD.size m = .ok () →
        areaFault u (gatherAgent s.me) (s.me.greg o.gb).toNat = none →
        slotsBound s s.me.hive - f.bound.toNat < ownSlots s s.myHive →
        ∃ t, exec (.fbind o) s = .next t ∧ t.me.pc = s.me.pc + 8 ∧ t.me.queue = [] ∧ t.me.g = s.me.g ∧
          (t.me.fslot n).bound = true ∧ (t.me.fslot n).image = s.me.greg o.ga ∧ (t.me.fslot n).area = s.me.greg o.gb ∧
          (t.me.fslot n).state = .idle ∧ ∀ r, r ≠ n → t.me.fslot r = s.me.fslot r) ∧
    goes (.ffree o) (fun _ t => t.me.fslot n = FSlot.free ∧ t.me.g = s.me.g) ∧
    goes (.fdrain o) (fun v t => t.me.g = s.me.g ∧
      t.mem = ((v.resident s.cur n).elim v (fun c => flushCtx v c.1 c.2)).mem) ∧
    goes (.fstat o) (fun _ t =>
      let sel := bits o.imm.toNat 8 5
      (sel = 1 → writes t f.firings) ∧ (sel = 2 → writes t f.abandoned) ∧ (sel = 3 → writes t f.stalls) ∧
      (sel = 4 → writes t ((s.resident s.cur n).elim (BitVec.allOnes 64) (fun c => BitVec.ofNat 64 c.2.num))) ∧
      (5 ≤ sel → writes t (BitVec.ofNat 64 ((s.resident s.cur n).elim f.balance (fun c => c.2.balance)))) ∧
      (sel = 0 → s.resident s.cur n = none → writes t (BitVec.ofNat 64 (stateWord f.state n f.lastCtx f.outpos)))) ∧
    (∀ c, s.resident s.cur n = some c →
      goes (.fctxLoad o) (fun _ t => writes t (BitVec.ofNat 64 c.2.num)) ∧
      (let held := (regionCtxs s c.1 c.2.lg).filter (fun y => y.pinned)
       (held.length < 3 →
        goes (.fctxPin o) (fun v t => writes t (BitVec.ofNat 64 c.2.num) ∧ t.cores = (v.putCtx c.1 { c.2 with pinned := true }).cores)) ∧
       (3 ≤ held.length → goes (.fctxPin o) (fun _ t => writes t (BitVec.allOnes 64) ∧ t.cores = s.cores))) ∧
      goes (.fctxUnpin o) (fun v t => writes t 0 ∧ t.cores = (v.putCtx c.1 { c.2 with pinned := false }).cores)) ∧
    (s.ctxOf s.cur n = none → goes (.fctxEvict o) (fun _ t => writes t 0 ∧ t.cores = s.cores)) ∧
    (∀ c, s.ctxOf s.cur n = some c → Enters s (.fctxEvict o) → ∀ x u, shapeOf (.fctxEvict o) = some x →
      evictCtx (append s (.fctxEvict o) (newEntry s s.me (.fctxEvict o) x)) c.1 c.2 = .ok u →
      ∃ t, exec (.fctxEvict o) s = .next t ∧ t.me.pc = s.me.pc + 8 ∧ writes t 0 ∧ t.cores = u.cores ∧ t.mem = u.mem) ∧
    (∀ c, s.resident s.cur n = some c → Enters s (.fcfg o) → ∀ x, shapeOf (.fcfg o) = some x →
      ∀ mask l u w, (s.me.greg o.ga).toNat % 64 = 0 → o.imm.getLsbD 5 = false →
      readPatch (append s (.fcfg o) (newEntry s s.me (.fcfg o) x)) (gatherAgent s.me) (s.me.greg o.ga).toNat = .ok (mask, l, u) →
      (∀ d ∈ l, d.1 < shapeNodes c.2.image.shape) → checkConfig (patched c.2.image l) = .ok () → regionTokens c.2 mask = 0 →
      applyPatch u c.1 c.2 l = .ok w →
      ∃ t, exec (.fcfg o) s = .next t ∧ t.me.pc = s.me.pc + 8 ∧ t.me.queue = [] ∧ t.me.g = s.me.g ∧ t.mem = w.mem ∧
        t.cores = w.cores) ∧
    (f.state = .done → o.imm.getLsbD 0 = false → Enters s (.fx n o) →
      ∃ t, exec (.fx n o) s = .next t ∧ t.me.pc = s.me.pc + 8 ∧ t.me.queue = [] ∧ writes t 0 ∧
        (t.me.fslot n).state = .idle ∧ t.cores = s.cores) ∧
    (∀ c x, s.resident s.cur n = some c → shapeOf (.fx n o) = some x → Enters s (.fx n o) →
      let fresh := f.state = .idle ∨ (o.imm.getLsbD 0 = true ∧ f.state ≠ .stopped)
      (f.state = .done → o.imm.getLsbD 0 = true) →
      (∀ d ∈ streamEdges c.2.image, (s.me.stream d.2).coding ≠ 1) →
      startFault s.me (newEntry s s.me (.fx n o) x) o { c.2 with len := if fresh then s.me.greg o.ga else c.2.len } = none →
      ∃ t y, exec (.fx n o) s = .next t ∧ t.me.pc = s.me.pc + 8 ∧ t.me.status = .running ∧ t.me.g = s.me.g ∧
        t.me.queue.map (fun e => e.item) = [.instr (.fx n o)] ∧ y ∈ (t.core c.1).comb ∧ y.num = c.2.num ∧ y.lg = c.2.lg ∧
        y.owner = s.cur ∧ y.slot = n ∧ y.running = true ∧ y.vd = s.me.vreg o.vd ∧ y.len = s.me.greg o.ga ∧
        (fresh → y.arg = s.me.greg o.gb ∧ y.outpos = 0 ∧ y.balance = 0 ∧ y.edgeIdx = List.replicate 8 0) ∧
        (¬ fresh → y.nodes = c.2.nodes ∧ y.edgeIdx = c.2.edgeIdx))

/-- O50. Contexts load, an FX stalls, buffers drain, and a region is served (R195, R198, R199, R205, R206, R207, R208, R210, R211, R212,
R213). That the flags of an FX that stops FULL stay in its context, that an FX behind others stops without a trap, which it meets again at
the head, and that a stop writes gd where no older instruction has still to write it, are the model's readings (log entry 44). -/
def Obligations.CombEvents : Prop :=
  (∀ (s : State) (k j : Nat) (n : BitVec 5), (s.strand k).placed = true → contextWanted s k = some (j, n) →
    (∀ u, loadSlot s k n = .ok (some u) → exec (.fabricContextLoad k n.toNat) s = .next (settleQueue u k) ∧
      ((s.strand k).coreNo < s.cores.length → ∃ x ∈ (u.core (s.strand k).coreNo).comb, x.owner = k ∧ x.slot = n)) ∧
    (loadSlot s k n = .ok none → exec (.fabricContextLoad k n.toNat) s = .next s) ∧
    (∀ tr, loadSlot s k n = .error tr → exec (.fabricContextLoad k n.toNat) s = .next (if j = 0 then trapAtHead s k tr false else s))) ∧
  (∀ (s : State) (k slot : Nat), contextWanted s k = none → exec (.fabricContextLoad k slot) s = .next s) ∧
  (∀ (s : State) (core lg num : Nat),
    (s.combAt core lg num = none → exec (.fabricStall core lg num) s = .next s) ∧
    ∀ x, s.combAt core lg num = some x →
      (x.running = true ∧ 64 ≤ x.idle ∧ x.balance ≠ 0 →
        let u := (stopFx s core x).1
        (((fxEntry (s.strand x.owner) x.slot).map (fun e => e.1)) = some 0 → (stopFx s core x).2 = none →
          exec (.fabricStall core lg num) s =
            .next (settleQueue (trapAtHead (u.modSlot x.owner x.slot (fun f => { f with stalls := f.stalls + 1 })) x.owner
              ⟨.fabricStall, BitVec.ofNat 64 num, BitVec.ofNat 64 x.balance, 0⟩ false) x.owner)) ∧
        (((fxEntry (s.strand x.owner) x.slot).map (fun e => e.1)) ≠ some 0 →
          exec (.fabricStall core lg num) s = .next u)) ∧
      (x.running = false ∨ x.idle < 64 ∨ x.balance = 0 → exec (.fabricStall core lg num) s = .next s)) ∧
  (∀ (s : State) (core lg : Nat), regionCtxs s core lg = [] → exec (.combContextServe core lg) s = .next s) ∧
  (∀ (s u : State) (core lg : Nat) (x : CombCtx) (e : QEntry) (g : Tags) (o : XFmt), fillRegion s core lg = (u, []) →
    regionCtxs u core lg = [x] → x.running = true → x.outEnded = true → x.balance = 0 → x.owner < u.strands.length →
    (u.strand x.owner).placed = true → (u.strand x.owner).pendFault = none → (u.strand x.owner).queue = [e] →
    e.item = .instr (.fx x.slot o) → e.tags = some g → g.uops = 1 → e.fence = none →
    ∃ t, exec (.combContextServe core lg) s = .next t ∧ (t.strand x.owner).queue = [] ∧
      ((t.strand x.owner).fslot x.slot).state = .done ∧ (t.strand x.owner).vreg o.vd = x.vd ∧
      (∀ r, r ≠ o.vd → (t.strand x.owner).vreg r = (u.strand x.owner).vreg r) ∧
      (t.strand x.owner).pc = (u.strand x.owner).pc ∧
      ∀ r, (t.strand x.owner).greg r = if r = o.gd ∧ r ≠ 0 then BitVec.ofNat 64 x.outpos else (u.strand x.owner).greg r) ∧
  (∀ (s : State) (core node : Nat) (b : PortBuf), core < s.cores.length → (s.core core).bufs = [b] → b.node = node →
    (b.since + 16 ≤ (s.core core).cycles.toNat → (b.bytes.map (fun x => x.1)).Nodup →
      ∃ t, exec (.coalescingBufferFlush core node) s = .next t ∧ (t.core core).bufs = [] ∧ t.strands = s.strands ∧
        (b.scratch = true → t.mem = s.mem ∧ ∀ a, Mem.get (t.core core).scratch a =
          match b.bytes.find? (fun x => 64 * b.line + x.1 == a) with
          | some x => x.2
          | none => Mem.get (s.core core).scratch a) ∧
        (b.scratch = false → ∀ a, Mem.get t.mem a =
          match b.bytes.find? (fun x => 64 * b.line + x.1 == a) with
          | some x => x.2
          | none => Mem.get (dropLine s b.hive core (b.line / 2)).mem a)) ∧
    ((s.core core).cycles.toNat < b.since + 16 → exec (.coalescingBufferFlush core node) s = .next s)) ∧
  (∀ (s : State) (core : Nat) (x : CombCtx) (st : SlotState) (count : Nat), x.owner < s.strands.length →
    let t := finishFx s core x st count
    ((t.strand x.owner).fslot x.slot).state = st ∧
      ∀ e ∈ (t.strand x.owner).queue, ∀ o, e.item = .instr (.fx x.slot o) → e.tags.isSome = true →
        ∃ g, e.tags = some g ∧ g.out.gd = some (BitVec.ofNat 64 count) ∧ g.out.v = x.vd ∧ g.produced = 1 ∧
          g.out.flags = if st = .full then 0 else x.flags) ∧
  (∀ (s : State) (k : Nat) (e : QEntry) (o : XFmt), (s.strand k).placed = true → (s.strand k).resuming = false →
    (s.strand k).pendFault = none →
    (s.strand k).queue = [e] → e.item = .instr (.fdrain o) → e.tags = none → e.known = true → e.fence = none →
    firstTrap (s.strand k) [] (.fdrain o) e = none →
    ∃ t, exec (.fdrainComplete k) s = .next t ∧ (t.strand k).queue = [] ∧ (t.strand k).g = (s.strand k).g ∧
      (t.strand k).pc = (s.strand k).pc ∧
      (∀ i, (s.strand k).status = .blocked (.fdrain i) → (t.strand k).status = .running)) ∧
  (∀ (s : State) (core : Nat) (x : CombCtx), x.owner < s.strands.length →
    let u := s.strand x.owner
    let t := (stopFx s core x).1.strand x.owner
    (t.fslot x.slot).state = .stopped ∧ t.fpctl = u.fpctl ||| (BitVec.ofNat 64 x.flags &&& 0xFF8) ∧ t.pc = u.pc ∧ t.m = u.m ∧
      t.queue.map (fun e => (e.item, e.addr, e.p)) = u.queue.map (fun e => (e.item, e.addr, e.p)) ∧
      ∀ o, fxEntry u x.slot = some (0, o) → (∀ r, r ≠ o.vd → t.vreg r = u.vreg r) ∧
        ∀ r, t.greg r = if r = o.gd ∧ r ≠ 0 then BitVec.ofNat 64 x.outpos else u.greg r)

/-- O51. The waggle ring instructions and the events that end their waits (R215, R217, R218, R219, R222, R229, R230, R231,
R234, R235, R236, R446). That a WGDRAIN waits its turn behind others of its session is the model's reading (log entry 76), and so is what a
WGDRAIN or CLOSE completes to of a strand that is away from it (log entry 45). -/
def Obligations.RingInstructions : Prop :=
  (∀ (s : State) (o : GFmt), s.runs = true → s.myHive.ring.isHeld = true → s.myHive.part = s.me.coreNo / 12 →
    let ring := s.me.coreNo / 12
    let ga := s.me.greg o.ga
    let ss := s.session ring ga.toNat
    (∀ r u, ga.toNat % 64 = 0 → loadRecord s s.who ga 8 = .ok (r, u) → (∀ c ∈ sessionChecks r, c.2 = true) →
      field r 0x10 8 % 8 = 0 → s.myHive.codebase ≤ field r 0x10 8 → field r 0x10 8 + 8 ≤ s.myHive.codebound →
      field r 0x18 8 % 8 = 0 → field r 0x20 8 % 64 = 0 → padsFit u u.myRing r = true →
      ((∀ n < 4, (u.session u.myRing n).state ≠ .free) → exec (.wgcfg o) s = .next (u.finish o.gd (BitVec.allOnes 64))) ∧
      ∀ n < 4, (u.session u.myRing n).state = .free → (∀ m < n, (u.session u.myRing m).state ≠ .free) →
        ∀ v, storeW (wakeWaiters u u.myRing n) (wakeWaiters u u.myRing n).who (BitVec.ofNat 64 (field r 0x18 8)) 8 0 true = .ok v →
        exec (.wgcfg o) s = .next ((v.modSession u.myRing n (fun _ =>
          { Session.reset with state := .setup, owner := v.cur, desc := BitVec.ofNat 512 r })).finish o.gd (BitVec.ofNat 64 n))) ∧
    (∀ es u, let first := ga.toNat
      let count := (s.me.greg o.gc).toNat
      (s.me.greg o.gb).toNat % 8 = 0 → count ≠ 0 → first + count ≤ 256 →
      pairEntries s (.wgpair o) (s.me.greg o.gb) first count = .ok (es, u) →
      let put : List (Option PairEntry) → List (Option PairEntry) := fun l => es.foldl (fun l e => l.set e.1 (some e.2)) l
      exec (.wgpair o) s = .next
        (u.modRing u.myRing (fun g => { g with tables := modAt g.tables (u.me.coreNo % 12) put })).advance) ∧
    (let x := s.me.greg o.gb
     let st := (s.session ring (headSession x)).state
     ga.toNat % 64 = 0 → inScratch s s.me.shareD ga.toNat (headLen x * 2048) = true → headOk x = true →
      (st = .setup ∨ st = .running → s.me.queue = [] → exec (.wginj o) s =
        .next ((releaseL1 s s.who 1).modMe (fun t => { t with status := .blocked (.wginj o) }))) ∧
      (st ≠ .setup → st ≠ .running → exec (.wginj o) s = .next (raise s ⟨.illegalCombo, encode (.wginj o), 0, 0⟩))) ∧
    (ga.toNat < 4 →
      let word : Word := BitVec.ofNat 64 (ss.fired % 2 ^ 32 + ss.status % 256 * 2 ^ 32)
      let blocked := s.modMe (fun t => { t with status := .blocked (.wgwait o) })
      (ss.state = .free → Gives (.wgwait o) s o.gd 0 ∧
        (s.me.awayHere = none → Gives (.wgdrain o) s o.gd 0 ∧ GoesTo (.wgcfgClose o) s (s.me.pc + 8))) ∧
      (∀ w, s.me.awayHere = some w → exec (.wgdrain o) s = .next (completeAt s s.cur w) ∧
        exec (.wgcfgClose o) s = .next (completeAt s s.cur w)) ∧
      (ss.state ≠ .free → ss.status = 0 → exec (.wgwait o) s = .next blocked ∧ exec (.wgwaitWake s.cur) blocked = .next blocked) ∧
      (ss.state ≠ .free → ss.status ≠ 0 → ss.faultCause = none →
        exec (.wgwait o) s = .next ((acquireL1 s s.who 1).finish o.gd word) ∧
        exec (.wgwaitWake s.cur) blocked = .next ((acquireL1 s s.who 1).finish o.gd word)) ∧
      (∀ c, ss.state ≠ .free → ss.status ≠ 0 → ss.faultCause = some c → ss.owner = s.cur →
        let t := raise (acquireL1 s s.who 1) ⟨c, ss.faultVal, ss.faultInfo, 0⟩
        exec (.wgwait o) s = .next t ∧ exec (.wgwaitWake s.cur) blocked = .next t) ∧
      (∀ c, ss.state ≠ .free → ss.status ≠ 0 → ss.faultCause = some c → ss.owner ≠ s.cur →
        exec (.wgwait o) s = .next ((acquireL1 s s.who 1).finish o.gd word)) ∧
      (s.me.awayHere = none → ss.state ≠ .free → exec (.wgdrain o) s = .next ((s.modSession ring ga.toNat (fun ss => { ss with
        drain := match ss.drain with | .stopping => .stopping | _ => .asked
        drainers := addWaiter ss.drainers s o.gd })).block (.wgdrain o))) ∧
      (s.me.awayHere = none → ss.state ≠ .free → let d := discardTasks s ring ga.toNat
        (runningTasks d ring ga.toNat = false → exec (.wgcfgClose o) s = .next (closeSession (dropCloser d ring ga.toNat) ring ga.toNat).advance) ∧
        (runningTasks d ring ga.toNat = true → exec (.wgcfgClose o) s = .next
          ((d.modSession ring ga.toNat (fun ss => { ss with closers := addWaiter ss.closers d 0 })).block (.wgcfgClose o)))) ∧
      ∀ v, (s.me.greg o.gb).toNat % 64 = 0 → (statusBlock s ring ga.toNat).zipIdx.foldlM
          (fun u w => storeW u u.who (s.me.greg o.gb + BitVec.ofNat 64 (8 * w.2)) 8 w.1 false) s = .ok v →
        exec (.wgstat o) s = .next v.advance) ∧
    (s.me.task = none → exec (.wgend o) s = .next (raise s ⟨.illegalCombo, 0, 0, 0⟩))) ∧
  (∀ (s : State) (o : GFmt), s.runs = true → s.myHive.ring.isHeld = false →
    exec (.wgcfg o) s = .next (raise s ⟨.privilege, encode (.wgcfg o), 0, 0⟩) ∧
    exec (.wgwait o) s = .next (raise s ⟨.privilege, encode (.wgwait o), 0, 0⟩)) ∧
  (∀ (s : State) (o : GFmt) (x : TaskRef), s.runs = true → s.me.task = some x →
    let u := undoBindings (releaseL1 s s.who 1) s.cur
    let v := u.modMe (fun t => { t with pushed := [], pushBits := 0 })
    (s.me.queue = [] → ownedSessions v s.cur = [] → exec (.wgend o) s = .next (endStrand (endTask v s.cur) s.cur)) ∧
    exec (.squitComplete s.cur) (s.modMe (fun t => { t with status := .blocked (.wgend o) })) = exec (.wgend o) s) ∧
  (∀ (s : State) (k : Nat), k < s.strands.length →
    (∀ r n, closing s k = some (r, n) → exec (.wgcfgCloseComplete k) s = .next (closeSession s r n)) ∧
    (∀ r n, r < s.rings.length → n < (s.ring r).sessions.length → let t := closeSession s r n
      (t.session r n).state = .free ∧ (t.session r n).status = 5 ∧ (t.session r n).faultCause = none ∧ (t.ring r).tilesOf n = [] ∧
        ∀ p, (t.ring r).padsAt p n = [] ∧ ∀ e ∈ (t.ring r).entriesAt p, e.2.session ≠ n) ∧
    (∀ r n w u c, drainReady s k = some (r, n, w) → finishDrain s r n = (u, .ok c) →
      exec (.wgdrainComplete k) s = .next (completeAt u k ⟨w.pc, w.gd, BitVec.ofNat 64 c, false⟩)) ∧
    ∀ w : Away, w.acquire = false → (s.strand k).status.isEnded = false → let u := completeAt s k w
      (∀ j, j ≠ k → u.strand j = s.strand j) ∧
      ((s.strand k).onShare = true → (s.strand k).pc = w.pc → (u.strand k).status = .running ∧ (u.strand k).pc = w.pc + 8 ∧
        ∀ r, (u.strand k).greg r = if r = w.gd ∧ r ≠ 0 then w.val else (s.strand k).greg r) ∧
      ((s.strand k).onShare = false ∨ (s.strand k).pc ≠ w.pc → u.strand k = { s.strand k with away := some w }))

/-- O52. A beat of a ring, and the faults of its sessions (R13, R220, R222, R223, R224, R226, R227, R230, R233). -/
def Obligations.RingBeats : Prop :=
  (∀ (s : State) (r : Nat), r < s.rings.length → ∃ t, exec (.ringBeat r) s = .next t ∧
    (t.ring r).beats = (s.ring r).beats + 1 ∧ t.rings.length = s.rings.length) ∧
  (∀ (s : State) (r p : Nat), r < s.rings.length → p < 12 →
    ((beginBeat s r).ring r).slot false ((p + 1) % 12) = (s.ring r).slot false p ∧
    ((beginBeat s r).ring r).slot true p = (s.ring r).slot true ((p + 1) % 12)) ∧
  (∀ (s : State) (r pos k : Nat) (fam : Bool) (o : GFmt), r < s.rings.length → pos < 12 →
    (s.ring r).slotsA.length = 12 → (s.ring r).slotsB.length = 12 → k < s.strands.length →
    (s.ring r).slot fam pos = none → injector s r pos fam = some k → (s.strand k).status = .blocked (.wginj o) →
    let a := (s.strand k).greg o.ga
    let x := (s.strand k).greg o.gb
    let c := s.core (s.strand k).coreNo
    let u := (injectAt r pos fam s).1
    (injectAt r pos fam s).2 = true ∧ (∀ j, j ≠ k → u.strand j = s.strand j) ∧
      u.strand k = { s.strand k with inBeat := true } ∧
      (beginBeat u r).strand k = { s.strand k with status := .running, pc := (s.strand k).pc + 8 } ∧
      ∃ tile : Tile, (u.ring r).slot fam pos = some tile ∧ tile.id = x.setWidth 24 ∧ tile.fam = fam ∧
        tile.session = bits x.toNat 26 25 ∧ tile.need = bits x.toNat 51 40 ∧ tile.len = bits x.toNat 35 32 + 1 ∧
        tile.laps = 0 ∧ tile.origin = pos ∧ tile.src = a ∧
        tile.payload = Mem.read c.scratch (scratchBase c (s.strand k).shareD + a.toNat % 2 ^ 52) (tile.len * 2048)) ∧
  (∀ (s : State) (r pos : Nat) (fam : Bool) (t : Tile), (s.ring r).slot fam pos = some t → sessionLive s r t.session = true →
    let g := s.ring r
    let es := (g.entriesAt pos).filter (fun e =>
      e.2.session == t.session && !e.2.fired && (e.2.half fam).1 == t.id && (e.2.half fam).2.isNone)
    let idx := es.map (fun e => e.1)
    let pads := (s.session r t.session).padCount
    let waits := ((g.padsAt pos t.session).filter (g.unpaired pos)).length
    let refused := s.modSession r t.session (fun ss => { ss with refused := ss.refused + 1 })
    (es = [] → lookAt r pos fam s = s) ∧
    (es ≠ [] → t.need < es.length → lookAt r pos fam s = sessionFault s r t.session .damaged .ringCount 4
      (BitVec.ofNat 64 (tagOf t.id fam t.session)) (BitVec.ofNat 64 (pos + idx.headD 0 * 256))) ∧
    (es ≠ [] → es.length ≤ t.need → g.freePad pos t.session pads = none → lookAt r pos fam s = refused) ∧
    ∀ k, es ≠ [] → es.length ≤ t.need → g.freePad pos t.session pads = some k →
      ((∃ e ∈ es, (e.2.half (!fam)).2.isSome = true) ∨ waits < pads - 1 → lookAt r pos fam s = captureTile s r pos t k idx) ∧
      ((∀ e ∈ es, (e.2.half (!fam)).2 = none) → pads - 1 ≤ waits → lookAt r pos fam s = refused)) ∧
  (∀ (s : State) (r n : Nat), r < s.rings.length → n < (s.ring r).sessions.length → (s.session r n).state = .running →
    faultless s r n = true → (s.session r n).fired = (s.session r n).total → (s.session r n).ended = (s.session r n).total →
    (s.ring r).tilesOf n = [] →
    ((settleSession r s n).session r n).state = .free ∧ ((settleSession r s n).session r n).status = 1) ∧
  (∀ (s : State) (r n : Nat),
    ((s.session r n).state ≠ .running → exec (.ringStranded r n) s = .next s ∧ exec (.ringStuck r n) s = .next s) ∧
    ((s.session r n).state = .running →
      (∀ t, strandedTile s r n = some t → exec (.ringStranded r n) s = .next (sessionFault s r n .halted .ringStranded 2
        (BitVec.ofNat 64 (tagOf t.id t.fam n)) (BitVec.ofNat 64 t.origin)) ∧ (s.session r n).lapLim < t.laps) ∧
      (strandedTile s r n = none → exec (.ringStranded r n) s = .next s) ∧
      (12 ≤ (s.session r n).idle → exec (.ringStuck r n) s = .next (sessionFault s r n .halted .ringStuck 3
        (BitVec.ofNat 64 n) (BitVec.ofNat 64 ((s.ring r).tilesOf n).length))) ∧
      ((s.session r n).idle < 12 → exec (.ringStuck r n) s = .next s)))

/-- O53. XCOPY, XFILL, XZTAB, XZENC, XSEAL and XWAIT (R237, R238, R240, R246, R248, R447, R448). That an XSEAL takes its number as it
issues, the first one 1, is the model's choice (log entry 47), and so is what is kept of a record that waits behind 16 commands (log entry
49). -/
def Obligations.EngineCommandsIssueAndWait : Prop :=
  ∀ (s : State) (o : GFmt), s.runs = true →
    let ga := s.me.greg o.ga
    let issues : List (CmdKind × Instr) :=
      [(.copy, .xcopy o), (.fill, .xfill o), (.ztab, .xztab o), (.zenc, .xzenc o), (.xseal, .xseal o)]
    (ga.toNat % 64 ≠ 0 → (∀ x ∈ issues, exec x.2 s = .next (raise s ⟨.align, ga, 0, 0⟩)) ∧
      exec (.xwait o) s = .next (raise s ⟨.align, ga, 0, 0⟩)) ∧
    (ga.toNat % 64 = 0 → ∀ x ∈ issues, ∀ r u, loadRecord s s.who ga 16 = .ok (r, u) →
      (∀ off, badField x.1 r = some off → exec x.2 s = .next (raise s ⟨.illegalField, BitVec.ofNat 64 off, 0, 0⟩)) ∧
      (field r 4 4 ≠ 0 → badField x.1 r ≠ none) ∧
      (∀ va k, badField x.1 r = none → x.1 = .xseal → sealFault u u.me.hive r = some (va, k) → exec x.2 s =
        .next (raise s ⟨.protection, BitVec.ofNat 64 va, BitVec.ofNat 64 (1 + k.code * 64 + 256 + 65536), 0⟩)) ∧
      (badField x.1 r = none → (x.1 = .xseal → sealFault u u.me.hive r = none) →
        ∀ v, storeW u u.who (BitVec.ofNat 64 (field r 8 8)) 8 0 false = .ok v →
          let n := (v.cmds.filter (fun c => c.strand == v.cur)).length
          (16 ≤ n → exec x.2 s =
            .next (v.modMe (fun t => { t with status := .blocked x.2, record := some (BitVec.ofNat 1024 r) }))) ∧
          (n < 16 → ∃ (c : Cmd) (t : State), exec x.2 s = .next t ∧ t.cmds = v.cmds ++ [c] ∧ t.mem = v.mem ∧ t.cores = v.cores ∧
            t.me = { v.me with pc := v.me.pc + 8, status := .running, record := none } ∧
            (∀ k, k ≠ s.cur → t.strand k = v.strand k) ∧ (x.1 ≠ .xseal → t.hives = v.hives) ∧
            (x.1 = .xseal → (v.findHive v.me.hive).isSome = true →
              (t.hive v.me.hive).sealSeq = (v.hive v.me.hive).sealSeq + 1 ∧ c.seq = (v.hive v.me.hive).sealSeq + 1) ∧
            c.kind = x.1 ∧ c.strand = v.cur ∧ c.hive = v.me.hive ∧ c.desc = BitVec.ofNat 1024 r ∧ c.started = false ∧
            c.awaits = (v.me.queue.filter (fun e => e.vectorAccess)).map (fun e => e.order) ∧
            c.ending = none ∧ c.progress = field r 0x60 8 ∧ c.outBytes = field r 0x70 8))) ∧
    (ga.toNat % 64 = 0 → ∀ x u, loadW s s.who ga 8 true = .ok (x, u) →
      let blocked := s.modMe (fun t => { t with status := .blocked (.xwait o) })
      (x % 256 ≠ 0 → s.me.placed = true →
        exec (.xwait o) s = .next ((acquireL1 u s.who (bits x 17 16)).finish o.gd (BitVec.ofNat 64 x)) ∧
        exec (.xwaitWake s.cur) blocked = .next ((acquireL1 u s.who (bits x 17 16)).finish o.gd (BitVec.ofNat 64 x))) ∧
      (x % 256 = 0 → exec (.xwait o) s = .next (u.modMe (fun t => { t with status := .blocked (.xwait o) }))))

/-- O54. How a command starts, copies, codes, installs, stamps and completes (R107, R133, R167, R239, R241, R242, R243, R244, R247). What a
command waits for at its start, and that a chunk is one event, are the model's readings (log entry 49); the count of a slot's references and
the table that is built are those of log entry 47. -/
def Obligations.EngineCommandSteps : Prop :=
  ∀ (s : State) (id : Nat) (c : Cmd), s.cmd id = some c →
    let r := c.desc.toNat
    let n := countOf r 0
    let src := field r 0x10 8
    let dst := field r 0x18 8
    let ends : Ending → State → State := fun e u => u.modCmd id (fun x => { x with ending := some e })
    let runs := c.started = true ∧ c.ending = none
    let works : List (CmdKind × Instr) :=
      [(.copy, .copyChunk id), (.fill, .copyChunk id), (.zenc, .codecBlock id), (.ztab, .xztabInstall id), (.xseal, .sealStamp id)]
    (c.started = false → c.ending = none → commandMayStart s c = true → exec (.engineCommandStart id) s =
      .next ((releaseL1 s ⟨c.hive, some c.share, true⟩ (field r 0 1 % 4)).modCmd id (fun x => { x with started := true }))) ∧
    (c.started = true ∨ c.ending ≠ none ∨ commandMayStart s c = false → exec (.engineCommandStart id) s = .next s) ∧
    (∀ x ∈ works, x.1 = c.kind → c.started = false ∨ c.ending ≠ none → exec x.2 s = .next s) ∧
    (runs → c.kind = .copy ∨ c.kind = .fill →
      (∀ e, gatherChunk c s (runsOf r 4096 c.progress (min (c.progress + 4096) (totalOf r))) = .error e →
        exec (.copyChunk id) s = .next (ends e s)) ∧
      (∀ core off, (s.hive c.hive).holds c.share = true → c.progress = 0 → n ≤ 4096 → n ≠ 0 → totalOf r = n → core < s.cores.length → dst + n ≤ 2 ^ 64 →
        (∀ k < n, locate s c.who (dst + k) .write = .ok (.scratch core (off + k), s)) →
        ∀ f : Nat → Byte,
        ((c.kind = .fill ∧ ∀ k, f k = BitVec.ofNat 8 (src / 2 ^ (8 * (k % fillWidth r)))) ∨
         (c.kind = .copy ∧ src + n ≤ 2 ^ 64 ∧ ∃ d from_, (∀ k < n, locate s c.who (src + k) .read = .ok (.scratch d (from_ + k), s)) ∧
           ∀ k, f k = Mem.get (s.core d).scratch (from_ + k))) →
        ∃ t, exec (.copyChunk id) s = .next t ∧ t.cmd id = some { c with progress := n, ending := some (1, 0, 0, 0) } ∧
          t.mem = s.mem ∧ t.strands = s.strands ∧ (∀ d, d ≠ core → t.core d = s.core d) ∧
          (∀ q, (t.core core).isFull q = true ↔ (s.core core).isFull q = true ∨ (off / 16 ≤ q ∧ q ≤ (off + n - 1) / 16)) ∧
          ∀ a, Mem.get (t.core core).scratch a =
            if off ≤ a ∧ a < off + n then f (a - off) else Mem.get (s.core core).scratch a)) ∧
    (runs → c.kind = .zenc → ∀ bs u, let m := min 32 (n - c.progress)
      readRange s c.who (src + c.progress) m = .ok (bs, u) →
      let slot := (s.strand c.strand).table c.tslot
      let block := encodeBlock c.tslot.toNat slot.gen.toNat c.elemType slot.et.toNat slot.entries (bs.map (fun b => b.toNat))
      (field r 0x68 8 < c.outBytes + block.length → exec (.codecBlock id) s = .next (ends (4, 0, 0, 0) u)) ∧
      (c.outBytes + block.length ≤ field r 0x68 8 → ∀ v, writeRange u c.who (dst + c.outBytes) block = .ok v →
        let w := v.modCmd id (fun x => { x with progress := c.progress + m, outBytes := c.outBytes + block.length })
        (c.progress + m < n → exec (.codecBlock id) s = .next w) ∧
        (n ≤ c.progress + m → exec (.codecBlock id) s = .next (ends (1, 0, 0, 0) w)))) ∧
    (runs → c.kind = .ztab →
      (∀ bs u, c.table = none → bit (field r 3 1) 2 = false → dst = 0 → readRange s c.who src n = .ok (bs, u) →
        exec (.xztabInstall id) s = .next (u.modCmd id (fun x =>
          { x with table := some (buildTable c.elemType (countExps c.elemType bs)), outBytes := c.elemType }))) ∧
      ∀ t0, c.table = some t0 →
        (slotReferences s c ≠ 0 → exec (.xztabInstall id) s = .next s) ∧
        (slotReferences s c = 0 → c.strand < s.strands.length → ∃ t, exec (.xztabInstall id) s = .next t ∧ t.mem = s.mem ∧
          (t.strand c.strand).table c.tslot =
            ⟨BitVec.ofNat 4 c.outBytes, t0, ((s.strand c.strand).table c.tslot).gen + 1⟩ ∧
          (∀ q, q ≠ c.tslot → (t.strand c.strand).table q = (s.strand c.strand).table q) ∧
          (∀ k, k ≠ c.strand → t.strand k = s.strand k) ∧
          (t.cmd id).map (fun d => d.ending) = some (some (1, 0, 0, 0)))) ∧
    (runs → c.kind = .xseal →
      (∀ e, stampFault s c.hive src dst n = some e → exec (.sealStamp id) s = .next (ends e s)) ∧
      ∀ ins outs, stampFault s c.hive src dst n = none → sealFault s c.hive r = none → stampPages s c.hive .read src n = .ok ins →
        stampPages s c.hive .write dst (n + 3584) = .ok outs →
        let frame := ins.flatMap (fun p => Mem.take s.mem p.1 p.2)
        ∃ t, exec (.sealStamp id) s = .next t ∧ t.hives = s.hives ∧ t.strands = s.strands ∧
          t.mem = (putPages s c.hive outs (frame ++ trailer s c (sha384 frame))).mem ∧
          t.cmd id = some { c with outBytes := n + 3584, ending := some (1, 0, 0, 0) }) ∧
    (∀ e, c.ending = some e →
      (∀ u, writeCompletion s c e = .ok u →
        let v := { u with cmds := u.cmds.filter (fun x => x.id != id) }
        let w := leaveStep5 v c.strand
        exec (.commandCompletion id) s = .next w ∧ w.mem = u.mem ∧ w.cores = u.cores ∧
        ((v.strand c.strand).record = none → w = v) ∧
        ∀ i kind q, (v.strand c.strand).status = .blocked i → (v.strand c.strand).record = some q → commandKind i = some kind →
          (v.cmds.filter (fun x => x.strand == c.strand)).length < 16 → c.strand < v.strands.length →
          (∃ d : Cmd, w.cmds = v.cmds ++ [d] ∧ d.kind = kind ∧ d.strand = c.strand ∧ d.desc = q ∧ d.started = false) ∧
          (w.strand c.strand).status = .running ∧ (w.strand c.strand).pc = (v.strand c.strand).pc + 8) ∧
      ∀ f, writeCompletion s c e = .error f → exec (.commandCompletion id) s = .next s) ∧
    (c.ending = none → exec (.commandCompletion id) s = .next s)

/-- O55. Placement of strands, tags, micro-operations and the matrix unit (R33, R36, R45, R46, R47, R48, R49, R51, R177,
R186). Which free slot a strand takes is the model's choice (log entry 72), and so are the tags of an instruction without a
length (log entry 77), the order of memory accesses (log entry 69) and the order of generator steps (log entry 70). -/
def Obligations.PlacementAndTheWindow : Prop :=
  (∀ (s : State) (x : ShareRef), (s.strands.filterMap (fun t => t.share)).find? (fun y => y.core == x.core && y.lg == x.lg) = some x →
    (∀ k, waitingFor s x = [k] → ∀ slot pg egs e, fitting s (s.strand k) x = some (slot, pg, egs, e) → (s.strand k).task = none →
      let t := s.strand k
      (t.vlmin ≤ pg ∧ pg ≤ t.vlmax ∧ egs ≤ freeEgs s x ∧ slot < x.size / 2) ∧
      ∃ u, exec (.strandPlacement x.core x.lg) s = .next u ∧ (∀ j, j ≠ k → u.strand j = s.strand j) ∧
        u.strand k = { t with placed := true, slot := slot, pg := pg, egs := egs, entry := some e, spilled := false, passed := 0
                              fresh := false, grant := if t.fresh then pg else t.grant, status := .running
                              resuming := !t.fresh }) ∧
    ((∀ k ∈ waitingFor s x, fitting s (s.strand k) x = none) → exec (.strandPlacement x.core x.lg) s = .next s) ∧
    (∀ k, (waitingFor s x).find? (fun k => decide (16 ≤ (s.strand k).passed)) = some k → fitting s (s.strand k) x = none →
      exec (.strandPlacement x.core x.lg) s = .next s)) ∧
  (∀ (s : State) (k : Nat), (s.strand k).placed = true → (s.strand k).resuming = false → (s.strand k).pendFault = none →
    (s.eager = true → exec (.queueHeadTagAllocation k) s = .next (settleQueue s k)) ∧
    (s.eager = false → (∀ e ∈ (s.strand k).queue, e.tags.isSome = true) → exec (.queueHeadTagAllocation k) s = .next s) ∧
    ∀ j e i x, s.eager = false → headTagless s k = false → allocHead s k = some (j, e, i, x) → windowed i = true →
      headFree s k j e i x = true → runsAtTags i = false →
      let n := uopCount x e
      let core := (s.strand k).coreNo
      (allocTurn s core ≠ some k → exec (.queueHeadTagAllocation k) s = .next s) ∧
      (allocTurn s core = some k → 8 * (s.strand k).shareD.size < tagsUsed s k + n →
        ∃ u, exec (.queueHeadTagAllocation k) s = .next u ∧ u.strands = s.strands ∧
          (core < s.cores.length → (u.core core).tagTurn = (s.strand k).coreSlot % 8)) ∧
      (allocTurn s core = some k → tagsUsed s k + n ≤ 8 * (s.strand k).shareD.size →
        ∃ u g, exec (.queueHeadTagAllocation k) s = .next u ∧ (∀ q, q ≠ k → u.strand q = s.strand q) ∧
          (u.strand k).queue = (s.strand k).queue.set j { e with tags := some g } ∧ g.uops = n ∧ g.base = tagNumber s k ∧
          g.issued = g.produced ∧ g.taken = false ∧ (core < s.cores.length →
            (u.core core).tagTurn = ((s.strand k).coreSlot + 1) % 8))) ∧
  (∀ (s : State) (core lg : Nat),
    let cs := candidates s core lg
    let win := chosen cs
    (∀ c ∈ win, c.1 ∈ cs) ∧ (win.filter (fun c => c.1.pipe == .ls)).length ≤ 1 ∧
    (win.filter (fun c => c.1.pipe == .pr)).length ≤ 1 ∧
    (∀ b, (win.filter (fun c => c.1.pipe == .a && c.2 == b)).length ≤ 1) ∧
    (∀ c ∈ win, c.1.pipe = .a → c.1.second = none ∨ c.1.second = some c.2) ∧
    (win.filter (fun c => c.1.pipe == .a && c.1.mult)).length ≤ 1 ∧
    (∀ c ∈ cs, c.pipe = .none → ∃ b, (c, b) ∈ win) ∧
    (∀ c ∈ win, ∀ d ∈ cs, c.1.pipe = .ls → d.pipe = .ls → better d c.1 = false) ∧
    ∃ t, exec (.microOperationIssue core lg) s = .next t ∧ t.mem = s.mem ∧ t.cores = s.cores ∧
      ∀ k j e g, (s.strand k).queue[j]? = some e → e.tags = some g →
        (∀ c ∈ win, c.1.k = k → c.1.j = j → (t.strand k).queue[j]? = some { e with tags := some { g with
            issued := g.issued + 1, waited := 0, second := if c.1.pipe = .a then some c.2 else none } }) ∧
        ((∃ c ∈ cs, c.k = k ∧ c.j = j) → (∀ c ∈ win, c.1.k = k → c.1.j ≠ j) →
          (t.strand k).queue[j]? = some { e with tags := some { g with waited := g.waited + 1 } }) ∧
        ((∀ c ∈ cs, c.k = k → c.j ≠ j) → k ∈ strandsOn s core lg →
          (t.strand k).queue[j]? = some { e with tags := some { g with waited := 0 } }) ∧
        (k ∉ strandsOn s core lg → (t.strand k).queue[j]? = some e)) ∧
  (∀ (s : State) (k : Nat), ((s.strand k).queue.findIdx? inFlight = none → exec (.egProduced k) s = .next s) ∧
    ∀ j e, (s.strand k).queue.findIdx? inFlight = some j → (s.strand k).queue[j]? = some e →
      (readingTile e = true → exec (.egProduced k) s =
        .next (retireDone 32 (modTags s k j (fun g => { g with egs := g.egs + 1 })) k)) ∧
      (readingTile e = false →
        (∀ d x g u a, egRun s k j false = some (d, x, g, .ok u a) → exec (.egProduced k) s =
          .next (retireDone 32 (producedEg u k j d g a) k)) ∧
        (∀ d x g tr m u a, egRun s k j false = some (d, x, g, .trap tr m u a) → j ≠ 0 → exec (.egProduced k) s = .next s))) ∧
  (∀ (s : State) (core : Nat),
    (unitBusy s core = true → exec (.matrixUnitTake core) s = .next s) ∧
    (unitBusy s core = false → exec (.matrixUnitLeave core) s = .next s) ∧
    (∀ k j e i x g, unitBusy s core = false → nextTurn s core = some (k, j) → taggedAt (s.strand k) j = some (e, i, x, g) →
      (∀ sc u, reachAt s k e i x j = .ok (sc, u) → exec (.matrixUnitTake core) s = .next (takeAt u k j e i x sc)) ∧
      (∀ tr, reachAt s k e i x j = .error tr → exec (.matrixUnitTake core) s = .next (trapAtHead s k tr e.underM7)) ∧
      ((∀ o, i ≠ .topa o) → (∀ o, i ≠ .tops o) → core < s.cores.length →
        ∃ t, exec (.matrixUnitTake core) s = .next t ∧ t.mem = s.mem ∧ (t.core core).tiles = (s.core core).tiles ∧
          (t.core core).matNext = ((s.strand k).shareD.lg / 2 + (s.strand k).slot + 1) % 8 ∧
          ∃ h, (t.strand k).queue[j]? = some { e with tags := some h } ∧ h.taken = true ∧ h.issued = 1 ∧ h.produced = g.produced)) ∧
    ∀ k j, leaver s core = some (k, j) →
      exec (.matrixUnitLeave core) s = .next (retireDone 32 (leaveAt s k j) k) ∧
      ∀ e i x g, taggedAt (s.strand k) j = some (e, i, x, g) → g.ran = false →
        let v := viewAt (s.strand k) j
        ∀ q, ((leaveAt s k j).core q).tiles = ((leaveUnit i g.scales s k (wholeWork v e x) (startPart v e x)).1.core q).tiles)

/-- O56. Walks end, slice ports admit and refill, and a line dirty for long is written back (R79, R86, R87, R88, R114, R122). Which
waiting request a port admits is the model's reading (log entry 29), and that the oldest walk of a die ends first its choice (log
entry 30). -/
def Obligations.MemoryEvents : Prop :=
  (∀ (s : State) (die : Nat),
    startWalks s die = { s with walks := (startWalks s die).walks } ∧ (WalksBounded s die → WalksBounded (startWalks s die) die) ∧
    (s.walks.find? (fun w => w.die == die && w.begun) = none → exec (.pageWalkComplete die) s = .next (startWalks s die)) ∧
    ∀ w, s.walks.find? (fun w => w.die == die && w.begun) = some w →
      let x := (s.strand w.strand).stream (BitVec.ofNat 4 w.stream)
      let joined := s.walks.filter (fun y => y.begun && sameWalk w y)
      let others := s.walks.filter (fun y => !(y.begun && sameWalk w y))
      (w.gen ≠ (s.hive w.hive).gen → exec (.pageWalkComplete die) s =
        .next (startWalks { s with walks := joined.map (fun y => { y with begun := false }) ++ others } die)) ∧
      (∀ f, w.gen = (s.hive w.hive).gen → walk s (s.hive w.hive) w.va = .fail f →
        exec (.pageWalkComplete die) s = .next (startWalks { s with walks := others } die)) ∧
      ∀ e, w.gen = (s.hive w.hive).gen → walk s (s.hive w.hive) w.va = .leaf e → w.strand < s.strands.length → joined = [w] →
        x.bound = true → (s.strand w.strand).hive = w.hive →
        ∃ t, exec (.pageWalkComplete die) s = .next t ∧ t.mem = s.mem ∧ t.cores = s.cores ∧
          ((t.strand w.strand).stream (BitVec.ofNat 4 w.stream)).look =
            (e :: x.look).filter (fun y => x.reach.any (fun p => y.covers e.hive e.gen (p * 65536))) ∧
          ∀ k, k ≠ w.strand → t.strand k = s.strand k) ∧
  (∀ (s : State) (slice : Nat), let i := slice % 4
    (admissible s slice = none → exec (.llcRequestAdmit slice) s = .next s) ∧
    ∀ r c borrow, admissible s slice = some r → admits s r = some (c, borrow) →
      let b := (s.hive c).bucket i
      let d := (s.hive r.hive).bucket i
      0 < b.tokens ∧ ((s.findHive c).isSome = true → (s.findHive r.hive).isSome = true → i < (s.hive c).buckets.length →
        i < (s.hive r.hive).buckets.length →
        ∃ t, exec (.llcRequestAdmit slice) s = .next t ∧ t.llc = s.llc.erase r ∧ t.strands = s.strands ∧ t.mem = s.mem ∧
          ((t.hive c).bucket i).tokens = b.tokens - 16 * (r.bytes : Int) ∧
          ((t.hive r.hive).bucket i).llcBytes = d.llcBytes + BitVec.ofNat 64 r.bytes ∧
          ((t.hive r.hive).bucket i).borrowed = if borrow then d.borrowed + BitVec.ofNat 64 r.bytes else d.borrowed)) ∧
  (∀ (s : State) (slice : Nat), (s.hives.map (fun h => h.id)).Nodup → let i := slice % 4
    ∃ t, exec (.bucketRefill slice) s = .next t ∧ t.strands = s.strands ∧ t.mem = s.mem ∧ ∀ h ∈ s.hives,
      (t.hive h.id).bucket i = if h.part = slice / 4 ∧ (h.bucket i).own = true then
        { h.bucket i with tokens := min ((h.bucket i).tokens + (remainderRate s h i : Nat)) (((h.bucket i).burst * 16 : Nat) : Int) }
        else h.bucket i) ∧
  (∀ (s : State) (core line : Nat), core < s.cores.length →
    (∀ l, (s.core core).line line = some l → l.dirty ≠ 0 → l.since + 65536 ≤ (s.core core).cycles.toNat →
      ∃ t, exec (.l1DirtyTimeout core line) s = .next t ∧ t.strands = s.strands ∧
        (t.core core).line line = some { l with dirty := 0 } ∧
        ∀ a, Mem.get t.mem a = if a / 128 = line ∧ l.dirty.getLsbD (a % 128) = true then BitVec.ofNat 8 (elemAt l.data 8 (a % 128))
          else Mem.get s.mem a) ∧
    (∀ l, (s.core core).line line = some l → l.dirty = 0 ∨ (s.core core).cycles.toNat < l.since + 65536 →
      exec (.l1DirtyTimeout core line) s = .next s))

/-- O57. Machine checks, counted errors, power steps, and accesses of host and peers (R246, R268, R269, R270, R297, R298, R299,
R303, R304, R309, R310). A damaged flit charges the partitions with traffic on its link, which the model leaves free, and a machine
check that names none changes nothing (log entry 31); duty is given back first (log entry 55). A refused read answers all ones by
R299. -/
def Obligations.ErrorsPowerAndLinks : Prop :=
  (∀ (s : State) (part info : Nat) (val : Word),
    (info = 6 → s.parts.length ≤ part → ∃ t, exec (.machineCheck part info val) s = .next t ∧ t.freeCount = s.freeCount + 1 ∧
      t.parts.length = s.parts.length ∧
      ∀ n < s.parts.length,
        ((Config.linkTraffic s.freeCount).contains n = true → (t.part n).live = false ∧ (t.part n).root = 0 ∧
          (t.part n).granules = (s.part n).granules) ∧
        ((Config.linkTraffic s.freeCount).contains n = false → (t.part n).live = (s.part n).live ∧ (t.part n).root = (s.part n).root)) ∧
    (info ≠ 6 ∨ part < s.parts.length → chargedTo s part info val.toNat = none → exec (.machineCheck part info val) s = .next s) ∧
    ∀ n, chargedTo s part info val.toNat = some n →
      (n < s.parts.length ∧ 1 ≤ info ∧ info ≤ 8 ∧
        (info = 1 ∨ info = 2 ∨ (info = 8 ∧ val.toNat < 2 ^ 51) → val.toNat / 2 ^ 30 ∈ (s.part n).granules) ∧
        (info = 3 ∨ info = 7 → n = val.toNat) ∧ (info = 4 ∨ info = 5 → n = val.toNat / 4) ∧ (info = 6 → n = part)) ∧
      ∃ t, exec (.machineCheck part info val) s = .next t ∧ (t.part n).live = false ∧ (t.part n).root = 0 ∧
        (t.part n).granules = (s.part n).granules ∧ t.uncorrected = modAt s.uncorrected (info - 1) (· + 1) ∧
        ∀ h, s.findHive (s.part n).root = some h → t.findHive h.id = none) ∧
  (∀ (s : State) (slice : Nat), ∃ m flag, exec (.llcTagParityError slice) s =
      .next (machineCheck { s with mem := m, freeCount := s.freeCount + 1 } (slice / 4) 5 (BitVec.ofNat 64 slice) flag) ∧
    (∀ a, slicedHere s slice (a / 128) = false → Mem.get m a = Mem.get s.mem a) ∧ (flag = 1 ∨ (flag = 0 ∧ m = s.mem))) ∧
  (∀ (s : State) (part info : Nat), 1 ≤ info → info ≤ 8 → ∃ t, exec (.correctedError part info) s = .next t ∧
    t.corrected = modAt s.corrected (info - 1) (· + 1) ∧ t = { s with corrected := t.corrected, parts := t.parts }) ∧
  (∀ s : State, exec .scrub s = .next s) ∧
  (∀ (s : State) (m : PowerDraw), ∃ t u, exec (.powerSample m) s = .next t ∧ exec (.grantRaise m) s = .next u ∧
    t = { s with cores := t.cores } ∧ u = { s with cores := u.cores } ∧
    ∀ n < s.cores.length,
      let c := s.core n
      let cap := (s.part (n / 12)).cap
      let draw := drawOf m (n / 12)
      (m.module ≤ s.powerLimit → draw ≤ cap → t.core n = c) ∧
      (s.powerLimit < m.module ∨ cap < draw →
        (1 < c.vlgrant → t.core n = { c with vlgrant := c.vlgrant / 2 }) ∧
        (c.vlgrant ≤ 1 → t.core n = { c with mvlc := min 2 (c.mvlc + 1) })) ∧
      (s.powerLimit * 95 ≤ m.module * 100 ∨ cap * 95 ≤ draw * 100 → u.core n = c) ∧
      (m.module * 100 < s.powerLimit * 95 → draw * 100 < cap * 95 →
        (1 < c.duty → u.core n = { c with duty := 1 }) ∧
        (c.duty ≤ 1 → 0 < c.mvlc → u.core n = { c with mvlc := c.mvlc - 1 }) ∧
        (c.duty ≤ 1 → c.mvlc = 0 → u.core n = { c with vlgrant := min 8 (2 * c.vlgrant) })) ∧
      ∀ k, 2 ≤ k → k ≤ 8 → ∃ v, exec (.issueDuty m k) s = .next v ∧ v = { s with cores := v.cores } ∧
        v.core n = if (s.powerLimit < m.module ∨ cap < draw) ∧ c.vlgrant ≤ 1 ∧ 2 ≤ c.mvlc then { c with duty := k } else c) ∧
  (∀ (s : State) (write : Bool) (pa : Nat) (data : List Byte), inModule pa data.length = true →
    (∀ k, (List.range data.length).find? (fun k => s.sealed (pa + k)) = some k → ∃ t, exec (.hostAccess write pa data) s = .next t ∧
      t = { s with refusedHost := s.refusedHost + 1, parts := t.parts, reply := t.reply } ∧
      (write = false → t.reply = .data (List.replicate data.length 0xFF)) ∧
      ∀ n, sealOwner s (pa + k) = some n → (t.part n).refusedHost = (s.part n).refusedHost + 1) ∧
    ((∀ k < data.length, s.sealed (pa + k) = false) →
      (write = false → exec (.hostAccess write pa data) s =
        .next { s with reply := .data ((List.range data.length).map (fun k => Mem.get s.mem (pa + k))) }) ∧
      (write = true → ∃ t, exec (.hostAccess write pa data) s = .next t ∧ t = { s with mem := t.mem, reply := .data [] } ∧
        ∀ a, Mem.get t.mem a = if pa ≤ a ∧ a < pa + data.length then data.getD (a - pa) 0 else Mem.get s.mem a))) ∧
  (∀ (s : State) (pa : Nat) (data : List Byte), 2 ^ 51 ≤ pa → pa + data.length ≤ 2 ^ 52 → pa % 128 + data.length ≤ 128 →
    ∃ t, exec (.hostInvalidation pa data) s = .next t ∧ t = { s with mem := t.mem } ∧
      ∀ a, Mem.get t.mem a = if pa ≤ a ∧ a < pa + data.length then data.getD (a - pa) 0 else Mem.get s.mem a) ∧
  (∀ (s : State) (kind : RemoteKind) (entry : Nat) (offset : BitVec 52),
    (s.imports.find? (fun e => e.1 == entry) = none →
      exec (.remoteAccess kind entry offset) s = .next { s with reply := .failed none }) ∧
    ∀ x hive, s.imports.find? (fun e => e.1 == entry) = some (entry, x, hive) → (s.findHive hive).isSome = true →
      let w : Who := ⟨hive, none, false⟩
      (∀ r, remoteFault s hive offset.toNat kind = some r →
        exec (.remoteAccess kind entry offset) s = .next { s with reply := .failed (some r) }) ∧
      (remoteFault s hive offset.toNat kind = none →
        (∀ data u, kind = .store data → writeRange s w offset.toNat data = .ok u →
          exec (.remoteAccess kind entry offset) s = .next { u with reply := .data [] }) ∧
        (∀ n bs u, kind = .load n → readRange s w offset.toNat n = .ok (bs, u) →
          exec (.remoteAccess kind entry offset) s = .next { u with reply := .data bs }) ∧
        ∀ op wide y z old u, kind = .amo op wide y z →
          amoW s w (BitVec.ofNat 64 offset.toNat) op (if wide then 8 else 4) y.toNat z.toNat = .ok (old, u) →
          exec (.remoteAccess kind entry offset) s = .next { u with reply := .data (leBytes (if wide then 8 else 4) old) })) ∧
  (∀ (s : State) (port : Nat), port < 16 → ∃ t, exec (.peerLinkDown port) s = .next t ∧ t = { s with linksDown := t.linksDown } ∧
    ∀ p, p ∈ t.linksDown ↔ p = port ∨ p ∈ s.linksDown)

/-- O58. What firmware does with each request, and how it closes one (R300, R301, R246, R309, R310, R102). The order of
the argument words is the model's choice (log entry 40), and so are that each request is served in one step, which ones are refused,
and what DESTROY_ROOT and MIGRATE keep (log entry 41). -/
def Obligations.FirmwareRequests : Prop :=
  (∀ (t : State) (a st : Nat) (ret : List Byte), let base := t.boot.queueBase.toNat
    base + 64 ≤ a → ret.length ≤ 8 → let u := closeRequest t a st ret
    u = { t with mem := u.mem } ∧ Mem.read u.mem (a + 4) 4 = st % 2 ^ 32 ∧
      Mem.read u.mem base 8 = (Mem.read t.mem base 8 + 1) % 2 ^ 64 ∧
      (∀ k < ret.length, Mem.get u.mem (a + 0x38 + k) = ret.getD k 0) ∧
      ∀ b, b < base ∨ base + 8 ≤ b → b < a + 4 ∨ a + 8 ≤ b → b < a + 0x38 ∨ a + 0x38 + ret.length ≤ b →
        Mem.get u.mem b = Mem.get t.mem b) ∧
  ∀ (s : State) (a r : Nat), s.request = some (a, r) →
    let g := requestArg r
    let asks : Nat → Nat → Prop := fun code n => requestCode r = code ∧ argsUnused r n = true
    let serves : Instr → State → Prop := fun i t => exec i s = .next (closeRequest t a 1 [])
    let refuses : Instr → Prop := fun i => exec i s = .next (closeRequest s a 2 [])
    let p := s.part (g 0)
    (∀ x ∈ ([(.createRoot, 1, 5), (.destroyRoot, 2, 1), (.bindVf, 3, 2), (.unbindVf, 4, 1), (.sealRange, 5, 3), (.peerMap, 6, 5),
        (.powerCap, 7, 2), (.migrate, 8, 3), (.unsealRange, 9, 3), (.rootHret, 10, 4), (.readCounts, 11, 2), (.importEntry, 12, 3)]
        : List (Instr × Nat × Nat)), requestCode r = x.2.1 → argsUnused r x.2.2 = false → refuses x.1) ∧
    (requestCode r = 0 ∨ 12 < requestCode r → refuses .unknownCodeRequest) ∧
    (asks 3 2 →
      (g 0 < 512 → (s.findHive (g 1)).isSome = true → (∀ v ∈ s.vfs, v.1 ≠ g 0) → serves .bindVf { s with vfs := s.vfs ++ [(g 0, g 1)] }) ∧
      (512 ≤ g 0 ∨ s.findHive (g 1) = none ∨ (∃ v ∈ s.vfs, v.1 = g 0) → refuses .bindVf)) ∧
    (asks 4 1 →
      ((∃ v ∈ s.vfs, v.1 = g 0) → serves .unbindVf { s with vfs := s.vfs.filter (fun v => v.1 != g 0) }) ∧
      ((∀ v ∈ s.vfs, v.1 ≠ g 0) → refuses .unbindVf)) ∧
    (asks 12 3 → g 0 < 1024 →
      (g 2 = 0 → g 1 < 48 → serves .importEntry { s with imports := s.imports.filter (fun e => e.1 != g 0) }) ∧
      (g 2 ≠ 0 → (s.findHive (g 2)).isSome = true → s.partOf (g 2) = g 1 →
        serves .importEntry { s with imports := s.imports.filter (fun e => e.1 != g 0) ++ [(g 0, g 1, g 2)] })) ∧
    (asks 6 5 → g 0 < 48 → 1 ≤ g 1 → g 1 ≤ 30 → g 2 ≠ 0 → g 2 < 2 ^ 16 → g 4 < 1024 →
      let m : PeerMap := ⟨g 1, BitVec.ofNat 16 (g 2), BitVec.ofNat 64 (g 3), BitVec.ofNat 64 (g 4)⟩
      serves .peerMap (s.modPart (g 0) (fun p => { p with peers := p.peers.filter (fun x => x.peer != m.peer) ++ [m] }))) ∧
    (asks 7 2 → (12000 < g 0 → refuses .powerCap) ∧ (g 0 ≤ 12000 → g 1 = 0 → serves .powerCap { s with powerLimit := g 0 })) ∧
    (asks 5 3 →
      let ok := g 0 < 48 ∧ g 1 % 2 ^ 21 = 0 ∧ g 2 % 2 ^ 21 = 0 ∧ inGranules p.granules (g 1) (g 2) = true ∧ p.seals.length < 8 ∧
        ∀ x ∈ p.seals, overlaps x.1 x.2 (g 1) (g 2) = false
      (ok → serves .sealRange (s.modPart (g 0) (fun p => { p with seals := p.seals ++ [(g 1, g 2)] }))) ∧ (¬ ok → refuses .sealRange)) ∧
    (asks 9 3 → g 0 < 48 →
      ((g 1, g 2) ∉ p.seals → refuses .unsealRange) ∧
      ((g 1, g 2) ∈ p.seals → sealBusy s (g 1) (g 2) = true → exec .unsealRange s = .next s) ∧
      ((g 1, g 2) ∈ p.seals → sealBusy s (g 1) (g 2) = false → ∃ t, serves .unsealRange t ∧
        (∀ b, Mem.get t.mem b = if g 1 ≤ b ∧ b < g 1 + g 2 then 0 else Mem.get s.mem b) ∧
        t.parts = (s.modPart (g 0) (fun p => { p with seals := p.seals.filter (fun x => x != (g 1, g 2)) })).parts)) ∧
    (asks 11 2 → g 0 < 48 → g 1 % 64 = 0 → inHost (g 1) 320 = true →
      serves .readCounts { s with mem := Mem.put s.mem (g 1) (countBlock p.corrected p.uncorrected p.refusedHost) }) ∧
    (asks 2 1 →
      (g 0 < 48 → p.live = true → serves .destroyRoot ((emptyPartition s (g 0)).modPart (g 0) (fun _ =>
        { Partition.reset with seals := p.seals, cap := p.cap }))) ∧
      (48 ≤ g 0 ∨ p.live = false → refuses .destroyRoot)) ∧
    (asks 1 5 → let gs := granuleList s (g 1)
      let d := Mem.read s.mem (g 4) 256
      (48 ≤ g 0 ∨ p.live = true → refuses .createRoot) ∧
      (g 0 < 48 → p.live = false → gs ≠ [] → gs.length = Mem.read s.mem (g 1) 8 → gs.eraseDups.length = gs.length →
        (∀ x ∈ gs, granuleExists x = true ∧ granuleFree s (g 0) x = true) → inHost (g 1) (8 + 8 * gs.length) = true →
        g 2 % 64 = 0 → isPow2In (g 3) 16 65536 = true → inHost (g 2) (64 + 64 * g 3) = true → inHost (g 4) 256 = true →
        (∀ off, rootFault s gs d = some off → exec .createRoot s = .next (closeRequest s a 2 (leBytes 8 off))) ∧
        (rootFault s gs d = none → g 0 < s.parts.length → ∃ t, serves .createRoot t ∧ (t.part (g 0)).live = true ∧
          (t.part (g 0)).granules = gs ∧ t.strands.length = s.strands.length + 1))) ∧
    (asks 10 4 →
      (48 ≤ g 0 ∨ p.live = false ∨ g 2 = 3 ∨ 4 < g 2 ∨ (g 2 = 2 ∧ isCauseCode (g 3) = false) → refuses .rootHret) ∧
      (g 0 < 48 → p.live = true → g 2 ≠ 3 → g 2 ≤ 4 → (g 2 = 2 → isCauseCode (g 3) = true) →
        (ticketStrand s 0 (BitVec.ofNat 64 (g 1)) = none →
          exec .rootHret s = .next (closeRequest (postHostPending s (g 0)) a 1 (leBytes 4 1))) ∧
        ∀ k x u, ticketStrand s 0 (BitVec.ofNat 64 (g 1)) = some (k, x) → s.partOf (s.strand k).hive = g 0 →
          answer s k x (g 2) (BitVec.ofNat 64 (g 3)) = .ok u →
          exec .rootHret s = .next (closeRequest (postHostPending u (g 0)) a 1 (leBytes 4 0)))) ∧
    (asks 8 3 → (p.live = false ∨ g 1 ∉ p.granules → refuses .migrate) ∧
      (g 0 < 48 → p.live = true → g 1 ∈ p.granules → granuleExists (g 2) = true →
        (∀ n < s.parts.length, g 2 ∉ (s.part n).granules) → (∀ x ∈ p.seals, overlaps (g 1 * 2 ^ 30) (2 ^ 30) x.1 x.2 = false) →
        (∀ h ∈ s.hives, h.part = g 0 → overlaps (g 1 * 2 ^ 30) (2 ^ 30) h.codebase (h.codebound - h.codebase) = false) →
        let u := haltRoot s p.root
        (rootRuns u p.root = true → exec .migrate s = .next u) ∧
        (rootRuns u p.root = false → serves .migrate (resumeRoot (moveGranule u (g 0) (g 1) (g 2)) p.root))))

/-- O59. Power-up, the boot window, and the firmware image from GO to serving (R305, R306, R307, R314). That MODULE RESET leaves the
module's own memory zero and keeps the host's is the model's choice (log entry 27), and so is which of several failures gives REASON
(log entry 39). -/
def Obligations.BootSequence : Prop :=
  (∀ s : State, ∃ t, exec .powerUp s = .next t ∧ exec .moduleReset s = .next t ∧ t.hives = [] ∧ t.strands = [] ∧ t.boot.state = 0 ∧
    t.cores = State.reset.cores ∧ t.rings = State.reset.rings ∧
    ∀ a, Mem.get t.mem a = if 2 ^ 51 ≤ a then Mem.get s.mem a else 0) ∧
  (∀ (s : State) (v : BitVec 32),
    (v = 1 → s.boot.state = 0 ∨ s.boot.state = 3 → exec (.go v) s = .next { s with boot := { s.boot with state := 1, reason := 0 } }) ∧
    (v ≠ 1 ∨ (s.boot.state ≠ 0 ∧ s.boot.state ≠ 3) → exec (.go v) s = .next s)) ∧
  (∀ (s : State) (data : List Byte), let x : Word := BitVec.ofNat 64 (ofLeBytes data)
    (data.length = 8 → exec (.bootWindowWrite 0x08 data) s = .next { s with boot := { s.boot with imageAddr := x } } ∧
      exec (.bootWindowWrite 0x10 data) s = .next { s with boot := { s.boot with imageSize := x } } ∧
      exec (.bootWindowWrite 0x18 data) s = .next { s with boot := { s.boot with reqqBase := x } }) ∧
    (data.length = 4 → exec (.bootWindowWrite 0x20 data) s =
      .next { s with boot := { s.boot with reqqSize := BitVec.ofNat 32 (ofLeBytes data) } }) ∧
    ∀ off, 0x24 ≤ off ∨ off + data.length ≤ 8 → exec (.bootWindowWrite off data) s = .next s) ∧
  (∀ s : State, let b := s.boot
    let bs := b.image
    (b.state = 1 → exec .firmwareImageVerify s =
      .next { s with boot := { b with state := 2, image := Mem.take s.mem b.imageAddr.toNat b.imageSize.toNat } }) ∧
    (b.state = 2 →
      (bs.length < 8192 → exec .firmwareImageVerify s = .next { s with boot := { b with state := 3, reason := 4 } }) ∧
      (∀ reason, firmwareFault bs = some reason → 1 ≤ reason ∧ reason ≤ 4 ∧
        exec .firmwareImageVerify s = .next { s with boot := { b with state := 3, reason := reason } }) ∧
      (firmwareFault bs = none → exec .firmwareImageVerify s = .next { s with boot := { b with
        state := 4, reason := 0, svn := BitVec.ofNat 64 (ofLeBytes ((bs.drop 4).take 4)), mr1 := BitVec.ofNat 384 (ofLeBytes (sha384 bs)) } })) ∧
    (b.state ≠ 1 → b.state ≠ 2 → exec .firmwareImageVerify s = .next s) ∧
    (b.state = 4 →
      exec (.firmwareTrainingComplete 0) s =
        .next { s with boot := { b with state := 5, queueBase := b.reqqBase, queueSize := b.reqqSize } } ∧
      ∀ k, 5 ≤ k → k ≤ 7 → exec (.firmwareTrainingComplete k) s = .next { s with boot := { b with state := 6, reason := k } }) ∧
    (b.state ≠ 4 → ∀ k, exec (.firmwareTrainingComplete k) s = .next s)) ∧
  (∀ (b : Boot), let word : Nat → Nat → Nat := fun off n => ofLeBytes ((List.range n).map (fun k => b.read (off + k)))
    word 0 4 = b.state % 2 ^ 32 ∧ word 4 4 = b.reason % 2 ^ 32 ∧ word 8 8 = b.imageAddr.toNat ∧ word 0x10 8 = b.imageSize.toNat ∧
      word 0x18 8 = b.reqqBase.toNat ∧ word 0x20 4 = b.reqqSize.toNat ∧ word 0x28 8 = b.svn.toNat ∧
      word 0x30 48 = b.mr0.toNat ∧ word 0x60 48 = b.mr1.toNat ∧ ∀ k, 0x90 ≤ k → b.read k = 0)

/-- O60. Every step keeps every memory in its canonical form (R3, R94, R107). -/
def Obligations.StepsKeepMemoryCanonical : Prop :=
  (∀ (i : Instr) (s t : State), s.memWf = true → exec i s = .next t → t.memWf = true) ∧
    ∀ s t : State, s.memWf = true → step s = .next t → t.memWf = true
end

