-- ==== Sys2Proof/Laws/Bits.lean ====
section
/-! SUPPORT. Elements of a register: what one write of an element, and a run over elements, leaves in each element. -/

namespace Sys2Proof.Machine

theorem testBit_elemAt {n : Nat} (v : BitVec n) (w e j : Nat) :
    (elemAt v w e).testBit j = (decide (j < w) && v.getLsbD (w * e + j)) := by
  simp [elemAt, Nat.testBit_mod_two_pow, Nat.testBit_div_two_pow, BitVec.testBit_toNat, Nat.add_comm]

theorem elemAt_lt {n : Nat} (v : BitVec n) (w e : Nat) : elemAt v w e < 2 ^ w := Nat.mod_lt _ (by positivity)

theorem getLsbD_setElemAt {n : Nat} (v : BitVec n) (w e x i : Nat) (h : w * e + w ≤ n) :
    (setElemAt v w e x).getLsbD i =
      if w * e ≤ i ∧ i < w * e + w then x.testBit (i - w * e) else v.getLsbD i := by
  unfold setElemAt
  simp only [BitVec.getLsbD_or, BitVec.getLsbD_and, BitVec.getLsbD_not, BitVec.getLsbD_ofNat]
  rw [Nat.testBit_mul_two_pow, Nat.testBit_mul_two_pow, Nat.testBit_two_pow_sub_one, Nat.testBit_mod_two_pow]
  by_cases h1 : w * e ≤ i
  · by_cases h2 : i < w * e + w
    · have : i < n := by omega
      have h3 : i - w * e < w := by omega
      simp [h1, h2, h3, this]
    · have h3 : ¬ (i - w * e < w) := by omega
      by_cases hi : i < n
      · simp [h1, h2, h3, hi]
      · simp [h1, h2, h3, hi, BitVec.getLsbD_of_ge v i (by omega)]
  · by_cases hi : i < n
    · simp [h1, hi]
    · simp [h1, hi, BitVec.getLsbD_of_ge v i (by omega)]

/-- An element after one element was written. -/
theorem elemAt_setElemAt {n : Nat} (v : BitVec n) (w e x k : Nat) (h : w * e + w ≤ n) :
    elemAt (setElemAt v w e x) w k = if k = e then x % 2 ^ w else elemAt v w k := by
  apply Nat.eq_of_testBit_eq
  intro j
  rw [testBit_elemAt, getLsbD_setElemAt _ _ _ _ _ h]
  by_cases hj : j < w
  · by_cases hk : k = e
    · subst hk
      rw [if_pos rfl, if_pos ⟨by omega, by omega⟩]
      simp [hj, Nat.testBit_mod_two_pow]
    · have : ¬ (w * e ≤ w * k + j ∧ w * k + j < w * e + w) := by
        rintro ⟨h1, h2⟩
        rcases Nat.lt_or_gt_of_ne hk with hl | hl
        · have := Nat.mul_le_mul_left w (Nat.succ_le_of_lt hl)
          rw [Nat.mul_succ] at this
          omega
        · have := Nat.mul_le_mul_left w (Nat.succ_le_of_lt hl)
          rw [Nat.mul_succ] at this
          omega
      rw [if_neg this, if_neg hk, testBit_elemAt]
  · by_cases hk : k = e
    · simp [hj, hk, Nat.testBit_mod_two_pow]
    · rw [if_neg hk, testBit_elemAt]
      simp [hj]

theorem elemAt_foldl_set {n w : Nat} (chosen : Nat → Bool) (f : Nat → Nat) (k : Nat) (l : List Nat) (hn : l.Nodup)
    (h : ∀ e ∈ l, w * e + w ≤ n) (v : BitVec n) :
    elemAt (l.foldl (fun acc e => if chosen e then setElemAt acc w e (f e) else acc) v) w k =
      if k ∈ l ∧ chosen k = true then f k % 2 ^ w else elemAt v w k := by
  induction l generalizing v with
  | nil => simp
  | cons e l ih =>
    rw [List.foldl_cons, ih (List.nodup_cons.mp hn).2 (fun x hx => h x (List.mem_cons_of_mem _ hx))]
    have he := h e List.mem_cons_self
    have hne := (List.nodup_cons.mp hn).1
    by_cases hk : k = e
    · subst hk
      by_cases hc : chosen k = true
      · rw [if_neg (fun x => hne x.1), if_pos hc, elemAt_setElemAt _ _ _ _ _ he, if_pos rfl,
          if_pos ⟨List.mem_cons_self, hc⟩]
      · rw [if_neg (fun x => hc x.2), if_neg hc, if_neg (fun x => hc x.2)]
    · have e1 : (k ∈ e :: l ∧ chosen k = true) = (k ∈ l ∧ chosen k = true) := by simp [hk]
      simp only [e1]
      refine if_congr Iff.rfl rfl ?_
      split
      · rw [elemAt_setElemAt _ _ _ _ _ he, if_neg hk]
      · rfl

/-- Each element after a run over the chosen elements lo to hi - 1. -/
theorem elemAt_mapElems {n : Nat} (v : BitVec n) (w lo hi : Nat) (chosen : Nat → Bool) (f : Nat → Nat) (k : Nat)
    (h : w * hi ≤ n) :
    elemAt (mapElems v w lo hi chosen f) w k =
      if lo ≤ k ∧ k < hi ∧ chosen k = true then f k % 2 ^ w else elemAt v w k := by
  unfold mapElems
  rw [elemAt_foldl_set chosen f k _ (List.nodup_range' (s := lo) (n := hi - lo) (step := 1))]
  · refine if_congr ?_ rfl rfl
    rw [List.mem_range'_1]
    constructor
    · rintro ⟨⟨h1, h2⟩, h3⟩
      exact ⟨h1, by omega, h3⟩
    · rintro ⟨h1, h2, h3⟩
      exact ⟨⟨h1, by omega⟩, h3⟩
  · intro e he
    rw [List.mem_range'_1] at he
    have : w * (e + 1) ≤ w * hi := Nat.mul_le_mul_left w (by omega)
    rw [Nat.mul_succ] at this
    omega

end Sys2Proof.Machine
end

