-- ==== Sys2Proof/Laws/Charge.lean ====
section
/-! SUPPORT. What charging a request to a slice port leaves as it was (spec/04 R110): everything but the requests that wait there. -/

namespace Sys2Proof.Machine

@[simp] theorem charge_strands (s : State) (hive pa n : Nat) : (charge s hive pa n).strands = s.strands := rfl
@[simp] theorem charge_mem (s : State) (hive pa n : Nat) : (charge s hive pa n).mem = s.mem := rfl
@[simp] theorem charge_cores (s : State) (hive pa n : Nat) : (charge s hive pa n).cores = s.cores := rfl
@[simp] theorem charge_rings (s : State) (hive pa n : Nat) : (charge s hive pa n).rings = s.rings := rfl
@[simp] theorem charge_hives (s : State) (hive pa n : Nat) : (charge s hive pa n).hives = s.hives := rfl
@[simp] theorem charge_parts (s : State) (hive pa n : Nat) : (charge s hive pa n).parts = s.parts := rfl
@[simp] theorem charge_cmds (s : State) (hive pa n : Nat) : (charge s hive pa n).cmds = s.cmds := rfl
@[simp] theorem charge_walks (s : State) (hive pa n : Nat) : (charge s hive pa n).walks = s.walks := rfl
@[simp] theorem charge_imports (s : State) (hive pa n : Nat) : (charge s hive pa n).imports = s.imports := rfl
@[simp] theorem charge_vfs (s : State) (hive pa n : Nat) : (charge s hive pa n).vfs = s.vfs := rfl
@[simp] theorem charge_powerLimit (s : State) (hive pa n : Nat) : (charge s hive pa n).powerLimit = s.powerLimit := rfl
@[simp] theorem charge_linksDown (s : State) (hive pa n : Nat) : (charge s hive pa n).linksDown = s.linksDown := rfl
@[simp] theorem charge_boot (s : State) (hive pa n : Nat) : (charge s hive pa n).boot = s.boot := rfl
@[simp] theorem charge_lastStrandId (s : State) (hive pa n : Nat) : (charge s hive pa n).lastStrandId = s.lastStrandId := rfl
@[simp] theorem charge_corrected (s : State) (hive pa n : Nat) : (charge s hive pa n).corrected = s.corrected := rfl
@[simp] theorem charge_uncorrected (s : State) (hive pa n : Nat) : (charge s hive pa n).uncorrected = s.uncorrected := rfl
@[simp] theorem charge_refusedHost (s : State) (hive pa n : Nat) : (charge s hive pa n).refusedHost = s.refusedHost := rfl
@[simp] theorem charge_interrupts (s : State) (hive pa n : Nat) : (charge s hive pa n).interrupts = s.interrupts := rfl
@[simp] theorem charge_reply (s : State) (hive pa n : Nat) : (charge s hive pa n).reply = s.reply := rfl
@[simp] theorem charge_cur (s : State) (hive pa n : Nat) : (charge s hive pa n).cur = s.cur := rfl
@[simp] theorem charge_coreTurn (s : State) (hive pa n : Nat) : (charge s hive pa n).coreTurn = s.coreTurn := rfl
@[simp] theorem charge_deviceTurn (s : State) (hive pa n : Nat) : (charge s hive pa n).deviceTurn = s.deviceTurn := rfl
@[simp] theorem charge_eventTurn (s : State) (hive pa n : Nat) : (charge s hive pa n).eventTurn = s.eventTurn := rfl
@[simp] theorem charge_stalled (s : State) (hive pa n : Nat) : (charge s hive pa n).stalled = s.stalled := rfl
@[simp] theorem charge_eager (s : State) (hive pa n : Nat) : (charge s hive pa n).eager = s.eager := rfl
@[simp] theorem charge_nextCmd (s : State) (hive pa n : Nat) : (charge s hive pa n).nextCmd = s.nextCmd := rfl
@[simp] theorem charge_nextArrival (s : State) (hive pa n : Nat) : (charge s hive pa n).nextArrival = s.nextArrival := rfl
@[simp] theorem charge_nextTicket (s : State) (hive pa n : Nat) : (charge s hive pa n).nextTicket = s.nextTicket := rfl
@[simp] theorem charge_freeCount (s : State) (hive pa n : Nat) : (charge s hive pa n).freeCount = s.freeCount := rfl
@[simp] theorem charge_inbox (s : State) (hive pa n : Nat) : (charge s hive pa n).inbox = s.inbox := rfl

@[simp] theorem chargeLines_strands (s : State) (hive pa n : Nat) : (chargeLines s hive pa n).strands = s.strands := rfl
@[simp] theorem chargeLines_mem (s : State) (hive pa n : Nat) : (chargeLines s hive pa n).mem = s.mem := rfl
@[simp] theorem chargeLines_cores (s : State) (hive pa n : Nat) : (chargeLines s hive pa n).cores = s.cores := rfl
@[simp] theorem chargeLines_rings (s : State) (hive pa n : Nat) : (chargeLines s hive pa n).rings = s.rings := rfl
@[simp] theorem chargeLines_hives (s : State) (hive pa n : Nat) : (chargeLines s hive pa n).hives = s.hives := rfl
@[simp] theorem chargeLines_parts (s : State) (hive pa n : Nat) : (chargeLines s hive pa n).parts = s.parts := rfl
@[simp] theorem chargeLines_cmds (s : State) (hive pa n : Nat) : (chargeLines s hive pa n).cmds = s.cmds := rfl
@[simp] theorem chargeLines_walks (s : State) (hive pa n : Nat) : (chargeLines s hive pa n).walks = s.walks := rfl
@[simp] theorem chargeLines_imports (s : State) (hive pa n : Nat) : (chargeLines s hive pa n).imports = s.imports := rfl
@[simp] theorem chargeLines_vfs (s : State) (hive pa n : Nat) : (chargeLines s hive pa n).vfs = s.vfs := rfl
@[simp] theorem chargeLines_powerLimit (s : State) (hive pa n : Nat) : (chargeLines s hive pa n).powerLimit = s.powerLimit := rfl
@[simp] theorem chargeLines_linksDown (s : State) (hive pa n : Nat) : (chargeLines s hive pa n).linksDown = s.linksDown := rfl
@[simp] theorem chargeLines_boot (s : State) (hive pa n : Nat) : (chargeLines s hive pa n).boot = s.boot := rfl
@[simp] theorem chargeLines_lastStrandId (s : State) (hive pa n : Nat) : (chargeLines s hive pa n).lastStrandId = s.lastStrandId := rfl
@[simp] theorem chargeLines_corrected (s : State) (hive pa n : Nat) : (chargeLines s hive pa n).corrected = s.corrected := rfl
@[simp] theorem chargeLines_uncorrected (s : State) (hive pa n : Nat) : (chargeLines s hive pa n).uncorrected = s.uncorrected := rfl
@[simp] theorem chargeLines_refusedHost (s : State) (hive pa n : Nat) : (chargeLines s hive pa n).refusedHost = s.refusedHost := rfl
@[simp] theorem chargeLines_interrupts (s : State) (hive pa n : Nat) : (chargeLines s hive pa n).interrupts = s.interrupts := rfl
@[simp] theorem chargeLines_reply (s : State) (hive pa n : Nat) : (chargeLines s hive pa n).reply = s.reply := rfl
@[simp] theorem chargeLines_cur (s : State) (hive pa n : Nat) : (chargeLines s hive pa n).cur = s.cur := rfl
@[simp] theorem chargeLines_coreTurn (s : State) (hive pa n : Nat) : (chargeLines s hive pa n).coreTurn = s.coreTurn := rfl
@[simp] theorem chargeLines_deviceTurn (s : State) (hive pa n : Nat) : (chargeLines s hive pa n).deviceTurn = s.deviceTurn := rfl
@[simp] theorem chargeLines_eventTurn (s : State) (hive pa n : Nat) : (chargeLines s hive pa n).eventTurn = s.eventTurn := rfl
@[simp] theorem chargeLines_stalled (s : State) (hive pa n : Nat) : (chargeLines s hive pa n).stalled = s.stalled := rfl
@[simp] theorem chargeLines_eager (s : State) (hive pa n : Nat) : (chargeLines s hive pa n).eager = s.eager := rfl
@[simp] theorem chargeLines_nextCmd (s : State) (hive pa n : Nat) : (chargeLines s hive pa n).nextCmd = s.nextCmd := rfl
@[simp] theorem chargeLines_nextArrival (s : State) (hive pa n : Nat) : (chargeLines s hive pa n).nextArrival = s.nextArrival := rfl
@[simp] theorem chargeLines_nextTicket (s : State) (hive pa n : Nat) : (chargeLines s hive pa n).nextTicket = s.nextTicket := rfl
@[simp] theorem chargeLines_freeCount (s : State) (hive pa n : Nat) : (chargeLines s hive pa n).freeCount = s.freeCount := rfl
@[simp] theorem chargeLines_inbox (s : State) (hive pa n : Nat) : (chargeLines s hive pa n).inbox = s.inbox := rfl

/-- The requests of a range of lines join those that wait, behind them. -/
theorem chargeLines_llc (s : State) (hive pa n : Nat) : ∃ l, (chargeLines s hive pa n).llc = s.llc ++ l := ⟨_, rfl⟩

@[simp] theorem chargePool_strands (s : State) (h : Hive) (off n : Nat) : (chargePool s h off n).strands = s.strands := by
  simp only [chargePool]; split <;> rfl
@[simp] theorem chargePool_mem (s : State) (h : Hive) (off n : Nat) : (chargePool s h off n).mem = s.mem := by
  simp only [chargePool]; split <;> rfl
@[simp] theorem chargePool_cores (s : State) (h : Hive) (off n : Nat) : (chargePool s h off n).cores = s.cores := by
  simp only [chargePool]; split <;> rfl
@[simp] theorem chargePool_rings (s : State) (h : Hive) (off n : Nat) : (chargePool s h off n).rings = s.rings := by
  simp only [chargePool]; split <;> rfl
@[simp] theorem chargePool_hives (s : State) (h : Hive) (off n : Nat) : (chargePool s h off n).hives = s.hives := by
  simp only [chargePool]; split <;> rfl
@[simp] theorem chargePool_parts (s : State) (h : Hive) (off n : Nat) : (chargePool s h off n).parts = s.parts := by
  simp only [chargePool]; split <;> rfl
@[simp] theorem chargePool_cmds (s : State) (h : Hive) (off n : Nat) : (chargePool s h off n).cmds = s.cmds := by
  simp only [chargePool]; split <;> rfl
@[simp] theorem chargePool_walks (s : State) (h : Hive) (off n : Nat) : (chargePool s h off n).walks = s.walks := by
  simp only [chargePool]; split <;> rfl
@[simp] theorem chargePool_imports (s : State) (h : Hive) (off n : Nat) : (chargePool s h off n).imports = s.imports := by
  simp only [chargePool]; split <;> rfl
@[simp] theorem chargePool_vfs (s : State) (h : Hive) (off n : Nat) : (chargePool s h off n).vfs = s.vfs := by
  simp only [chargePool]; split <;> rfl
@[simp] theorem chargePool_powerLimit (s : State) (h : Hive) (off n : Nat) : (chargePool s h off n).powerLimit = s.powerLimit := by
  simp only [chargePool]; split <;> rfl
@[simp] theorem chargePool_linksDown (s : State) (h : Hive) (off n : Nat) : (chargePool s h off n).linksDown = s.linksDown := by
  simp only [chargePool]; split <;> rfl
@[simp] theorem chargePool_boot (s : State) (h : Hive) (off n : Nat) : (chargePool s h off n).boot = s.boot := by
  simp only [chargePool]; split <;> rfl
@[simp] theorem chargePool_lastStrandId (s : State) (h : Hive) (off n : Nat) : (chargePool s h off n).lastStrandId = s.lastStrandId := by
  simp only [chargePool]; split <;> rfl
@[simp] theorem chargePool_corrected (s : State) (h : Hive) (off n : Nat) : (chargePool s h off n).corrected = s.corrected := by
  simp only [chargePool]; split <;> rfl
@[simp] theorem chargePool_uncorrected (s : State) (h : Hive) (off n : Nat) : (chargePool s h off n).uncorrected = s.uncorrected := by
  simp only [chargePool]; split <;> rfl
@[simp] theorem chargePool_refusedHost (s : State) (h : Hive) (off n : Nat) : (chargePool s h off n).refusedHost = s.refusedHost := by
  simp only [chargePool]; split <;> rfl
@[simp] theorem chargePool_interrupts (s : State) (h : Hive) (off n : Nat) : (chargePool s h off n).interrupts = s.interrupts := by
  simp only [chargePool]; split <;> rfl
@[simp] theorem chargePool_reply (s : State) (h : Hive) (off n : Nat) : (chargePool s h off n).reply = s.reply := by
  simp only [chargePool]; split <;> rfl
@[simp] theorem chargePool_cur (s : State) (h : Hive) (off n : Nat) : (chargePool s h off n).cur = s.cur := by
  simp only [chargePool]; split <;> rfl
@[simp] theorem chargePool_coreTurn (s : State) (h : Hive) (off n : Nat) : (chargePool s h off n).coreTurn = s.coreTurn := by
  simp only [chargePool]; split <;> rfl
@[simp] theorem chargePool_deviceTurn (s : State) (h : Hive) (off n : Nat) : (chargePool s h off n).deviceTurn = s.deviceTurn := by
  simp only [chargePool]; split <;> rfl
@[simp] theorem chargePool_eventTurn (s : State) (h : Hive) (off n : Nat) : (chargePool s h off n).eventTurn = s.eventTurn := by
  simp only [chargePool]; split <;> rfl
@[simp] theorem chargePool_stalled (s : State) (h : Hive) (off n : Nat) : (chargePool s h off n).stalled = s.stalled := by
  simp only [chargePool]; split <;> rfl
@[simp] theorem chargePool_eager (s : State) (h : Hive) (off n : Nat) : (chargePool s h off n).eager = s.eager := by
  simp only [chargePool]; split <;> rfl
@[simp] theorem chargePool_nextCmd (s : State) (h : Hive) (off n : Nat) : (chargePool s h off n).nextCmd = s.nextCmd := by
  simp only [chargePool]; split <;> rfl
@[simp] theorem chargePool_nextArrival (s : State) (h : Hive) (off n : Nat) : (chargePool s h off n).nextArrival = s.nextArrival := by
  simp only [chargePool]; split <;> rfl
@[simp] theorem chargePool_nextTicket (s : State) (h : Hive) (off n : Nat) : (chargePool s h off n).nextTicket = s.nextTicket := by
  simp only [chargePool]; split <;> rfl
@[simp] theorem chargePool_freeCount (s : State) (h : Hive) (off n : Nat) : (chargePool s h off n).freeCount = s.freeCount := by
  simp only [chargePool]; split <;> rfl
@[simp] theorem chargePool_inbox (s : State) (h : Hive) (off n : Nat) : (chargePool s h off n).inbox = s.inbox := by
  simp only [chargePool]; split <;> rfl

end Sys2Proof.Machine
end

