-- ==== Sys2Proof/Laws/Encoding.lean ====
section
/-! SUPPORT. Where the fields of a word stand: reading a field of an encoded instruction gives the field back (R271, R272,
Table 12.1). -/

namespace Sys2Proof

/-- A field that lies in the lower part of a join. -/
theorem extract_low {n m : Nat} (x : BitVec n) (y : BitVec m) (s l : Nat) (h : s + l ≤ m) :
    (x ++ y).extractLsb' s l = y.extractLsb' s l := by
  ext k hk
  simp [BitVec.getLsbD_append]
  intros; omega

/-- A field that lies in the upper part of a join. -/
theorem extract_high {n m : Nat} (x : BitVec n) (y : BitVec m) (s l : Nat) (h : m ≤ s) :
    (x ++ y).extractLsb' s l = x.extractLsb' (s - m) l := by
  ext k hk
  have : s + k - m = s - m + k := by omega
  simp [BitVec.getLsbD_append, this]
  intros; omega

theorem extract_all {n : Nat} (x : BitVec n) : x.extractLsb' 0 n = x := by simp

theorem opOf_join (a b : BitVec 8) (c : BitVec 48) : opOf (a ++ b ++ c) = a :=
  (extract_high (a ++ b) c 56 8 (by decide)).trans ((extract_high a b 8 8 (by decide)).trans (extract_all a))

theorem fnOf_join (a b : BitVec 8) (c : BitVec 48) : fnOf (a ++ b ++ c) = b :=
  (extract_high (a ++ b) c 48 8 (by decide)).trans ((extract_low a b 0 8 (by decide)).trans (extract_all b))

theorem extract_body (a b : BitVec 8) (c : BitVec 48) (s l : Nat) (h : s + l ≤ 48) :
    BitVec.extractLsb' s l (a ++ b ++ c : Word) = c.extractLsb' s l :=
  extract_low (a ++ b) c s l h

theorem GFmt.ofWord_join (a b : BitVec 8) (o : GFmt) : GFmt.ofWord (a ++ b ++ o.pack) = o := by
  cases o
  unfold GFmt.ofWord GFmt.pack
  congr 1 <;> refine (extract_body _ _ _ _ _ (by decide)).trans ?_ <;> dsimp only
  all_goals repeat' first
    | exact extract_all _
    | refine (extract_low _ _ _ _ (by decide)).trans ?_
    | refine (extract_high _ _ _ _ (by decide)).trans ?_

theorem IFmt.ofWord_join (a b : BitVec 8) (o : IFmt) : IFmt.ofWord (a ++ b ++ o.pack) = o := by
  cases o
  unfold IFmt.ofWord IFmt.pack
  congr 1 <;> refine (extract_body _ _ _ _ _ (by decide)).trans ?_ <;> dsimp only
  all_goals repeat' first
    | exact extract_all _
    | refine (extract_low _ _ _ _ (by decide)).trans ?_
    | refine (extract_high _ _ _ _ (by decide)).trans ?_

theorem BFmt.ofWord_join (a b : BitVec 8) (o : BFmt) : BFmt.ofWord (a ++ b ++ o.pack) = o := by
  cases o
  unfold BFmt.ofWord BFmt.pack
  congr 1 <;> refine (extract_body _ _ _ _ _ (by decide)).trans ?_ <;> dsimp only
  all_goals repeat' first
    | exact extract_all _
    | refine (extract_low _ _ _ _ (by decide)).trans ?_
    | refine (extract_high _ _ _ _ (by decide)).trans ?_

theorem MFmt.ofWord_join (a b : BitVec 8) (o : MFmt) : MFmt.ofWord (a ++ b ++ o.pack) = o := by
  cases o
  unfold MFmt.ofWord MFmt.pack
  congr 1 <;> refine (extract_body _ _ _ _ _ (by decide)).trans ?_ <;> dsimp only
  all_goals repeat' first
    | exact extract_all _
    | refine (extract_low _ _ _ _ (by decide)).trans ?_
    | refine (extract_high _ _ _ _ (by decide)).trans ?_

theorem VFmt.ofWord_join (a b : BitVec 8) (o : VFmt) : VFmt.ofWord (a ++ b ++ o.pack) = o := by
  cases o
  unfold VFmt.ofWord VFmt.pack
  congr 1 <;> refine (extract_body _ _ _ _ _ (by decide)).trans ?_ <;> dsimp only
  all_goals repeat' first
    | exact extract_all _
    | refine (extract_low _ _ _ _ (by decide)).trans ?_
    | refine (extract_high _ _ _ _ (by decide)).trans ?_

theorem VMFmt.ofWord_join (a b : BitVec 8) (o : VMFmt) : VMFmt.ofWord (a ++ b ++ o.pack) = o := by
  cases o
  unfold VMFmt.ofWord VMFmt.pack
  congr 1 <;> refine (extract_body _ _ _ _ _ (by decide)).trans ?_ <;> dsimp only
  all_goals repeat' first
    | exact extract_all _
    | refine (extract_low _ _ _ _ (by decide)).trans ?_
    | refine (extract_high _ _ _ _ (by decide)).trans ?_

theorem TFmt.ofWord_join (a b : BitVec 8) (o : TFmt) : TFmt.ofWord (a ++ b ++ o.pack) = o := by
  cases o
  unfold TFmt.ofWord TFmt.pack
  congr 1 <;> refine (extract_body _ _ _ _ _ (by decide)).trans ?_ <;> dsimp only
  all_goals repeat' first
    | exact extract_all _
    | refine (extract_low _ _ _ _ (by decide)).trans ?_
    | refine (extract_high _ _ _ _ (by decide)).trans ?_

theorem XFmt.ofWord_join (a b : BitVec 8) (o : XFmt) : XFmt.ofWord (a ++ b ++ o.pack) = o := by
  cases o
  unfold XFmt.ofWord XFmt.pack
  congr 1 <;> refine (extract_body _ _ _ _ _ (by decide)).trans ?_ <;> dsimp only
  all_goals repeat' first
    | exact extract_all _
    | refine (extract_low _ _ _ _ (by decide)).trans ?_
    | refine (extract_high _ _ _ _ (by decide)).trans ?_

/-- A word of format G that is encoded holds zero in its zero field. -/
theorem zeroFieldOk_join (a b : BitVec 8) (o : GFmt) : zeroFieldOk (a ++ b ++ o.pack) = true := by
  have : (a ++ b ++ o.pack : Word).extractLsb' 0 20 = 0 :=
    (extract_body a b o.pack 0 20 (by decide)).trans
      ((extract_low (o.gd ++ o.ga ++ o.gb ++ o.gc ++ o.q) (0 : BitVec 20) 0 20 (by decide)).trans (extract_all 0))
  simp [zeroFieldOk, this]

/-- A word of another format has no zero field. -/
theorem zeroFieldOk_other (a b : BitVec 8) (c : BitVec 48) (h : isFormatG a.toNat = false) :
    zeroFieldOk (a ++ b ++ c) = true := by
  simp [zeroFieldOk, opOf_join, h]

theorem decode_of_build {w : Word} {i : Instr} (hb : build w = some i) (hz : zeroFieldOk w = true)
    (hl : i.fieldsLegal = true) : decode w = .ok i := by
  simp only [decode, hb, hz, hl, Bool.and_self, if_true]

theorem Instr.fieldsLegal_of_wellFormed {i : Instr} (h : i.wellFormed = true) : i.fieldsLegal = true :=
  (Bool.and_eq_true_iff.mp h).2

end Sys2Proof
end

