-- ==== Sys2Proof/Laws/Hives.lean ====
section
/-! SUPPORT. What the common steps of hive instructions come to: the checks before the fence, the fence, the record, and the
effect or the trap (R68, R70). -/

namespace Sys2Proof.Machine

theorem quietV_of {s : State} (h : s.me.queue.any (fun e => e.vectorAccess) = false) : s.quietV = true := by
  simp [State.quietV]; simpa using h

/-- A hive instruction whose checks hold and whose effect succeeds answers that effect on the fenced state. -/
theorem hiveOp_ok {α : Type} {s t : State} {c : Except Trap α} {f : α → State → Except Trap State} {x : α}
    (hr : s.runs = true) (q : s.quietV = true) (hc : c = .ok x) (hf : f x s.fenced = .ok t) : hiveOp s true c f = .next t := by
  subst hc
  simp only [State.fenced] at hf
  simp [hiveOp, scalarWait, hr, q, hf]

/-- One whose effect fails traps as if it had done nothing. -/
theorem hiveOp_err {α : Type} {s : State} {c : Except Trap α} {f : α → State → Except Trap State} {x : α} {t : Trap}
    (hr : s.runs = true) (q : s.quietV = true) (hc : c = .ok x) (hf : f x s.fenced = .error t) :
    hiveOp s true c f = .next (raise s t) := by
  subst hc
  simp only [State.fenced] at hf
  simp [hiveOp, scalarWait, hr, q, hf]

/-- One whose first checks fail traps. -/
theorem hiveOp_refused {α : Type} {s : State} {c : Except Trap α} {f : α → State → Except Trap State} {t : Trap}
    {turn : Bool} (hr : s.runs = true) (hc : c = .error t) : hiveOp s turn c f = .next (raise s t) := by
  subst hc
  simp [hiveOp, scalarWait, hr]

/-- One that stands behind a vector access waits, and so does one whose turn among the partition's operations has not come. -/
theorem hiveOp_waits {α : Type} {s : State} {c : Except Trap α} {f : α → State → Except Trap State} {x : α} {turn : Bool}
    (hr : s.runs = true) (q : s.quietV = false ∨ turn = false) (hc : c = .ok x) :
    hiveOp s turn c f = .next { s with stalled := true } := by
  subst hc
  rcases q with q | q <;> simp [hiveOp, scalarWait, hr, q]

theorem childOf_refused {s : State} {i : Instr} {x : Word}
    (hd : ∀ d, s.findHive x.toNat = some d → d.parent ≠ s.me.hive) : childOf s i x = .error ⟨.privilege, encode i, 0, 0⟩ := by
  unfold childOf
  split
  · rename_i e; simp [hd _ e, Trap.at]
  · simp [Trap.at]

theorem ChildRecord.check {s u : State} {o : GFmt} {d : Hive} {r : Nat} (h : ChildRecord s o d r u) (i : Instr) :
    (do let h ← childOf s i (s.me.greg o.ga); aligned64 (s.me.greg o.gb); return h) = Except.ok (ε := Trap) d := by
  obtain ⟨-, -, -, -, hd, hp, hn, ha, -⟩ := h
  simp [childOf, hd, hp, hn, aligned64, need, ha, bind, Except.bind, pure, Except.pure]

/-- An HGIVE or HTAKE whose record is of its own kind answers its effect on the state after the record's reads. -/
theorem extentOp_ok {s t u : State} {o : GFmt} {d : Hive} {r kind : Nat} {f : Hive → Nat → State → Except Trap State}
    (i : Instr) (h : ChildRecord s o d r u) (hk : field r 0 1 = kind) (hf : f d r u = .ok t) :
    extentOp i o kind s f = .next t := by
  have hc := h.check i
  obtain ⟨hr, hq, hf', hw, -, -, -, -, hl⟩ := h
  simp only [extentOp, hw, hf']
  refine hiveOp_ok hr (quietV_of hq) hc ?_
  simp only [bind, Except.bind]
  rw [hl]
  simp [hk, hf]

/-- One whose effect fails traps as if it had done nothing. -/
theorem extentOp_err {s u : State} {o : GFmt} {d : Hive} {r kind : Nat} {f : Hive → Nat → State → Except Trap State}
    {x : Trap} (i : Instr) (h : ChildRecord s o d r u) (hk : field r 0 1 = kind) (hf : f d r u = .error x) :
    extentOp i o kind s f = .next (raise s x) := by
  have hc := h.check i
  obtain ⟨hr, hq, hf', hw, -, -, -, -, hl⟩ := h
  simp only [extentOp, hw, hf']
  refine hiveOp_err hr (quietV_of hq) hc ?_
  simp only [bind, Except.bind]
  rw [hl]
  simp [hk, hf]

theorem extentOk_kind {r k n : Nat} (h : extentOk r k n = true) : field r 0 1 = k := by
  simp [extentOk] at h
  exact h.1.1.1

end Sys2Proof.Machine
end

