-- ==== Sys2Proof/Laws/Locate.lean ====
section
/-! SUPPORT. Where an address of the scratchpad window leads (spec/04 R93). -/

namespace Sys2Proof.Machine

theorem locate_window {s : State} {w : Who} {va : Nat} {x : ShareRef} (k : AccessKind) (hs : w.share = some x)
    (h1 : bits va 63 57 = 0) (h2 : bits va 56 52 = 31) (h3 : va % 2 ^ 52 < scratchLen (s.core x.core) x) :
    locate s w va k = .ok (.scratch x.core (scratchBase (s.core x.core) x + va % 2 ^ 52), s) := by
  have h3 : va % 4503599627370496 < scratchLen (s.core x.core) x := h3
  simp [locate, hs, h1, h2, h3]

theorem locate_beyond_window {s : State} {w : Who} {va : Nat} {x : ShareRef} (k : AccessKind) (hs : w.share = some x)
    (h2 : bits va 56 52 = 31) (h3 : scratchLen (s.core x.core) x ≤ va % 2 ^ 52) : locate s w va k = .error .notPermitted := by
  have h3 : ¬ va % 4503599627370496 < scratchLen (s.core x.core) x := by simpa using h3
  simp [locate, hs, h2, h3]

theorem locate_above {s : State} {w : Who} {va : Nat} (k : AccessKind) (h : bits va 63 57 ≠ 0) :
    locate s w va k = .error .notPermitted := by simp [locate, h]

/-- The vector agent's window is its strand's. -/
theorem locateV_window {s : State} {g : VAgent} {va : Nat} {x : ShareRef} (k : AccessKind) (hl : g.look = [])
    (hs : g.who.share = some x) (h1 : bits va 63 57 = 0) (h2 : bits va 56 52 = 31)
    (h3 : va % 2 ^ 52 < scratchLen (s.core x.core) x) :
    locateV s g va k = .ok (.scratch x.core (scratchBase (s.core x.core) x + va % 2 ^ 52), s) := by
  simp only [locateV, hl, List.find?_nil]
  exact locate_window (w := { g.who with l1 := g.tlb }) k hs h1 h2 h3

end Sys2Proof.Machine
end

