-- ==== Sys2Proof/Laws/Mem.lean ====
section
/-! SUPPORT. What the operations over memory do: a byte read after bytes were stored, and that every operation keeps the
canonical form. -/

namespace Sys2Proof.Machine

theorem Mem.wf_iff (m : Mem) :
    Mem.wf m = true ↔ m.Pairwise (fun c d => c.1 < d.1) ∧ ∀ c ∈ m, c.2 ≠ Mem.blank := by
  induction m with
  | nil => simp [Mem.wf]
  | cons c m ih =>
    simp only [Mem.wf, Bool.and_eq_true, decide_eq_true_eq, List.all_eq_true, ih, List.pairwise_cons,
      List.mem_cons, forall_eq_or_imp]
    tauto

theorem Mem.cells_mem {a : Nat} {bs : List Byte} {c : Host.Cell} (h : c ∈ Mem.cells a bs) :
    a ≤ c.1 ∧ c.1 < a + bs.length ∧ c.2 ≠ Mem.blank := by
  induction bs generalizing a with
  | nil => simp [Mem.cells] at h
  | cons b bs ih =>
    unfold Mem.cells at h
    split at h
    · obtain ⟨h1, h2, h3⟩ := ih h
      exact ⟨by omega, by simp only [List.length_cons]; omega, h3⟩
    · rcases List.mem_cons.mp h with rfl | h
      · simpa using ‹_›
      · obtain ⟨h1, h2, h3⟩ := ih h
        exact ⟨by omega, by simp only [List.length_cons]; omega, h3⟩

theorem Mem.cells_sorted (a : Nat) (bs : List Byte) : (Mem.cells a bs).Pairwise (fun c d => c.1 < d.1) := by
  induction bs generalizing a with
  | nil => simp [Mem.cells]
  | cons b bs ih =>
    unfold Mem.cells
    split
    · exact ih _
    · exact List.pairwise_cons.mpr ⟨fun d hd => (Mem.cells_mem hd).1, ih _⟩

/-- Storing bytes keeps the canonical form. -/
theorem Mem.put_wf {m : Mem} (h : Mem.wf m = true) (a : Nat) (bs : List Byte) : Mem.wf (Mem.put m a bs) = true := by
  rw [Mem.wf_iff] at h ⊢
  obtain ⟨hp, hb⟩ := h
  constructor
  · unfold Mem.put
    refine List.pairwise_append.mpr ⟨List.pairwise_append.mpr ⟨hp.filter _, Mem.cells_sorted a bs, ?_⟩, hp.filter _, ?_⟩
    · intro c hc d hd
      have := (Mem.cells_mem hd).1
      simp only [List.mem_filter, decide_eq_true_eq] at hc
      omega
    · intro c hc d hd
      simp only [List.mem_filter, decide_eq_true_eq, List.mem_append] at hc hd
      rcases hc with hc | hc
      · omega
      · have := (Mem.cells_mem hc).2.1
        omega
  · intro c hc
    simp only [Mem.put, List.mem_append, List.mem_filter] at hc
    rcases hc with (hc | hc) | hc
    · exact hb c hc.1
    · exact (Mem.cells_mem hc).2.2
    · exact hb c hc.1

theorem Mem.write_wf {m : Mem} (h : Mem.wf m = true) (a n x : Nat) : Mem.wf (Mem.write m a n x) = true :=
  Mem.put_wf h a _

/-- Clearing a range keeps the canonical form. -/
theorem Mem.wipe_wf {m : Mem} (h : Mem.wf m = true) (a n : Nat) : Mem.wf (Mem.wipe m a n) = true := by
  rw [Mem.wf_iff] at h ⊢
  obtain ⟨hp, hb⟩ := h
  constructor
  · refine List.pairwise_append.mpr ⟨hp.filter _, hp.filter _, ?_⟩
    intro c hc d hd
    simp only [List.mem_filter, decide_eq_true_eq] at hc hd
    omega
  · intro c hc
    simp only [Mem.wipe, List.mem_append, List.mem_filter] at hc
    rcases hc with hc | hc
    · exact hb c hc.1
    · exact hb c hc.1

/-- Keeping only some cells keeps the canonical form. -/
theorem Mem.filter_wf {m : Mem} (h : Mem.wf m = true) (p : Host.Cell → Bool) : Mem.wf (m.filter p) = true := by
  rw [Mem.wf_iff] at h ⊢
  exact ⟨h.1.filter _, fun c hc => h.2 c (List.mem_filter.mp hc).1⟩

theorem Mem.find_filter (m : Mem) (p : Host.Cell → Bool) (x : Nat) (q : Nat → Bool) (hq : ∀ c, p c = q c.1) :
    (m.filter p).find? (fun c => c.1 == x) = if q x then m.find? (fun c => c.1 == x) else none := by
  induction m with
  | nil => simp
  | cons c m ih =>
    by_cases hp : p c <;> by_cases hx : c.1 == x
    · have : q x = true := by rw [← beq_iff_eq.mp hx, ← hq]; exact hp
      simp [hp, hx, this]
    · simp [hp, hx, ih]
    · have : q x = false := by rw [← beq_iff_eq.mp hx, ← hq]; simpa using hp
      simp [hp, this, ih]
    · simp [hp, hx, ih]

theorem Mem.find_cells (a : Nat) (bs : List Byte) (x : Nat) :
    (Mem.cells a bs).find? (fun c => c.1 == x) =
      if a ≤ x ∧ x < a + bs.length ∧ bs.getD (x - a) Mem.blank ≠ Mem.blank then some (x, bs.getD (x - a) Mem.blank)
      else none := by
  induction bs generalizing a with
  | nil => simp [Mem.cells]
  | cons b bs ih =>
    unfold Mem.cells
    by_cases hx : x = a
    · subst hx
      by_cases hb : b = Mem.blank
      · simp only [hb, if_true, ih]
        rw [if_neg (by omega), if_neg (by simp)]
      · simp [hb]
    · have e : ∀ (h : a + 1 ≤ x), (b :: bs).getD (x - a) Mem.blank = bs.getD (x - (a + 1)) Mem.blank := by
        intro h
        have : x - a = (x - (a + 1)) + 1 := by omega
        rw [this, List.getD_cons_succ]
      have key : (Mem.cells (a + 1) bs).find? (fun c => c.1 == x) =
          if a ≤ x ∧ x < a + (b :: bs).length ∧ (b :: bs).getD (x - a) Mem.blank ≠ Mem.blank
          then some (x, (b :: bs).getD (x - a) Mem.blank) else none := by
        rw [ih]
        by_cases h : a + 1 ≤ x
        · rw [e h]
          simp only [List.length_cons]
          refine if_congr ?_ rfl rfl
          constructor <;> rintro ⟨h1, h2, h3⟩ <;> exact ⟨by omega, by omega, h3⟩
        · rw [if_neg (by omega), if_neg (by omega)]
      split
      · exact key
      · rw [List.find?_cons_of_neg (by simpa using Ne.symm hx)]
        exact key

/-- A byte read after bytes were stored: the stored byte inside, what it was outside. -/
theorem Mem.get_put (m : Mem) (a : Nat) (bs : List Byte) (x : Nat) :
    Mem.get (Mem.put m a bs) x =
      if a ≤ x ∧ x < a + bs.length then bs.getD (x - a) Mem.blank else Mem.get m x := by
  unfold Mem.get Mem.put
  rw [List.find?_append, List.find?_append, Mem.find_filter m _ x (fun y => decide (y < a)) (fun _ => rfl),
    Mem.find_filter m _ x (fun y => decide (a + bs.length ≤ y)) (fun _ => rfl), Mem.find_cells]
  by_cases h1 : x < a
  · have h2 : ¬ (a ≤ x) := by omega
    have h3 : ¬ (a + bs.length ≤ x) := by omega
    simp [h1, h2, h3]
  · by_cases h3 : a + bs.length ≤ x
    · have : ¬ (x < a + bs.length) := by omega
      simp [h1, h3, this]
    · have h4 : a ≤ x := by omega
      have h5 : x < a + bs.length := by omega
      have e1 : decide (x < a) = false := decide_eq_false h1
      have e3 : decide (a + bs.length ≤ x) = false := decide_eq_false h3
      have e4 : (a ≤ x ∧ x < a + bs.length) = True := eq_true ⟨h4, h5⟩
      simp only [e1, e3, e4, Bool.false_eq_true, if_false, if_true, Option.none_or, Option.or_none]
      by_cases hb : bs.getD (x - a) Mem.blank = Mem.blank
      · rw [if_neg (fun h => h.2.2 hb), hb]
      · rw [if_pos ⟨h4, h5, hb⟩]

theorem leBytes_length (n x : Nat) : (leBytes n x).length = n := by
  induction n generalizing x with
  | zero => rfl
  | succ n ih => simp [leBytes, ih]

theorem leBytes_getD (n x k : Nat) (h : k < n) : (leBytes n x).getD k Mem.blank = BitVec.ofNat 8 (x / 256 ^ k) := by
  induction n generalizing x k with
  | zero => omega
  | succ n ih =>
    cases k with
    | zero => simp [leBytes]
    | succ k =>
      rw [leBytes, List.getD_cons_succ, ih _ _ (by omega), Nat.div_div_eq_div_mul, Nat.pow_succ, Nat.mul_comm]

/-- A byte read after a number was stored little-endian. -/
theorem Mem.get_write (m : Mem) (a n v x : Nat) :
    Mem.get (Mem.write m a n v) x =
      if a ≤ x ∧ x < a + n then BitVec.ofNat 8 (v / 256 ^ (x - a)) else Mem.get m x := by
  unfold Mem.write
  rw [Mem.get_put, leBytes_length]
  by_cases h : a ≤ x ∧ x < a + n
  · rw [if_pos h, if_pos h, leBytes_getD _ _ _ (by omega)]
  · rw [if_neg h, if_neg h]

theorem ofLeBytes_leBytes (n v : Nat) : ofLeBytes (leBytes n v) = v % 256 ^ n := by
  induction n generalizing v with
  | zero => simp [leBytes, ofLeBytes, Nat.mod_one]
  | succ n ih =>
    rw [leBytes, ofLeBytes, ih, Nat.pow_succ, Nat.mul_comm (256 ^ n) 256, Nat.mod_mul]
    simp

/-- A number read back from where it was stored. -/
theorem Mem.read_write (m : Mem) (a n v : Nat) : Mem.read (Mem.write m a n v) a n = v % 256 ^ n := by
  have : Mem.take (Mem.write m a n v) a n = leBytes n v := by
    apply List.ext_getElem
    · simp [Mem.take, leBytes_length]
    · intro k h1 h2
      have hk : k < n := by simpa [Mem.take] using h1
      have := leBytes_getD n v k hk
      rw [List.getD_eq_getElem?_getD, List.getElem?_eq_getElem (by simpa [leBytes_length] using hk)] at this
      simp only [Mem.take, List.getElem_map, List.getElem_range, Mem.get_write]
      rw [if_pos ⟨by omega, by omega⟩]
      simpa using this.symm
  rw [Mem.read, this, ofLeBytes_leBytes]

/-- A number read outside the bytes stored is what it was. -/
theorem Mem.read_write_apart (m : Mem) (a n v b k : Nat) (h : b + k ≤ a ∨ a + n ≤ b) :
    Mem.read (Mem.write m a n v) b k = Mem.read m b k := by
  have : Mem.take (Mem.write m a n v) b k = Mem.take m b k := by
    unfold Mem.take
    apply List.map_congr_left
    intro j hj
    rw [Mem.get_write, if_neg]
    have := List.mem_range.mp hj
    omega
  rw [Mem.read, this, Mem.read]

end Sys2Proof.Machine
end

