-- ==== Sys2Proof/Laws/PerInstr.lean ====
section
/-! SUPPORT. Decoding undoes encoding, constructor by constructor; the family of statements that the host splits by cases. -/

namespace Sys2Proof.Laws.Encoding

open Sys2Proof

/-- A control register that is not writable gives the row that traps. -/
theorem ctlwrOf_readOnly {o : IFmt} (h : ctlWritable o.imm = false) : ctlwrOf o = .ctlwr o := by
  unfold ctlwrOf
  split <;> first
    | rfl
    | (rename_i e
       refine absurd h ?_
       have : o.imm = BitVec.ofNat 32 o.imm.toNat := by simp
       rw [this, e]
       decide)

/-- The decoder reads a well-formed instruction back from its word (R271 to R274). -/
def Statement (i : Instr) : Prop := i.wellFormed = true → decode (encode i) = .ok i

theorem add (o : GFmt) : Statement (.add o) := by
  intro h
  refine decode_of_build (w := 0x01#8 ++ 0x00#8 ++ o.pack) ?_ (zeroFieldOk_join _ _ o) (Instr.fieldsLegal_of_wellFormed h)
  unfold build buildInt
  rw [opOf_join, fnOf_join, GFmt.ofWord_join]
  rfl

theorem sub (o : GFmt) : Statement (.sub o) := by
  intro h
  refine decode_of_build (w := 0x01#8 ++ 0x01#8 ++ o.pack) ?_ (zeroFieldOk_join _ _ o) (Instr.fieldsLegal_of_wellFormed h)
  unfold build buildInt
  rw [opOf_join, fnOf_join, GFmt.ofWord_join]
  rfl

theorem and (o : GFmt) : Statement (.and o) := by
  intro h
  refine decode_of_build (w := 0x01#8 ++ 0x02#8 ++ o.pack) ?_ (zeroFieldOk_join _ _ o) (Instr.fieldsLegal_of_wellFormed h)
  unfold build buildInt
  rw [opOf_join, fnOf_join, GFmt.ofWord_join]
  rfl

theorem or (o : GFmt) : Statement (.or o) := by
  intro h
  refine decode_of_build (w := 0x01#8 ++ 0x03#8 ++ o.pack) ?_ (zeroFieldOk_join _ _ o) (Instr.fieldsLegal_of_wellFormed h)
  unfold build buildInt
  rw [opOf_join, fnOf_join, GFmt.ofWord_join]
  rfl

theorem xor (o : GFmt) : Statement (.xor o) := by
  intro h
  refine decode_of_build (w := 0x01#8 ++ 0x04#8 ++ o.pack) ?_ (zeroFieldOk_join _ _ o) (Instr.fieldsLegal_of_wellFormed h)
  unfold build buildInt
  rw [opOf_join, fnOf_join, GFmt.ofWord_join]
  rfl

theorem shl (o : GFmt) : Statement (.shl o) := by
  intro h
  refine decode_of_build (w := 0x01#8 ++ 0x05#8 ++ o.pack) ?_ (zeroFieldOk_join _ _ o) (Instr.fieldsLegal_of_wellFormed h)
  unfold build buildInt
  rw [opOf_join, fnOf_join, GFmt.ofWord_join]
  rfl

theorem shr (o : GFmt) : Statement (.shr o) := by
  intro h
  refine decode_of_build (w := 0x01#8 ++ 0x06#8 ++ o.pack) ?_ (zeroFieldOk_join _ _ o) (Instr.fieldsLegal_of_wellFormed h)
  unfold build buildInt
  rw [opOf_join, fnOf_join, GFmt.ofWord_join]
  rfl

theorem sar (o : GFmt) : Statement (.sar o) := by
  intro h
  refine decode_of_build (w := 0x01#8 ++ 0x07#8 ++ o.pack) ?_ (zeroFieldOk_join _ _ o) (Instr.fieldsLegal_of_wellFormed h)
  unfold build buildInt
  rw [opOf_join, fnOf_join, GFmt.ofWord_join]
  rfl

theorem slt (o : GFmt) : Statement (.slt o) := by
  intro h
  refine decode_of_build (w := 0x01#8 ++ 0x08#8 ++ o.pack) ?_ (zeroFieldOk_join _ _ o) (Instr.fieldsLegal_of_wellFormed h)
  unfold build buildInt
  rw [opOf_join, fnOf_join, GFmt.ofWord_join]
  rfl

theorem sltu (o : GFmt) : Statement (.sltu o) := by
  intro h
  refine decode_of_build (w := 0x01#8 ++ 0x09#8 ++ o.pack) ?_ (zeroFieldOk_join _ _ o) (Instr.fieldsLegal_of_wellFormed h)
  unfold build buildInt
  rw [opOf_join, fnOf_join, GFmt.ofWord_join]
  rfl

theorem min (o : GFmt) : Statement (.min o) := by
  intro h
  refine decode_of_build (w := 0x01#8 ++ 0x0A#8 ++ o.pack) ?_ (zeroFieldOk_join _ _ o) (Instr.fieldsLegal_of_wellFormed h)
  unfold build buildInt
  rw [opOf_join, fnOf_join, GFmt.ofWord_join]
  rfl

theorem max (o : GFmt) : Statement (.max o) := by
  intro h
  refine decode_of_build (w := 0x01#8 ++ 0x0B#8 ++ o.pack) ?_ (zeroFieldOk_join _ _ o) (Instr.fieldsLegal_of_wellFormed h)
  unfold build buildInt
  rw [opOf_join, fnOf_join, GFmt.ofWord_join]
  rfl

theorem minu (o : GFmt) : Statement (.minu o) := by
  intro h
  refine decode_of_build (w := 0x01#8 ++ 0x0C#8 ++ o.pack) ?_ (zeroFieldOk_join _ _ o) (Instr.fieldsLegal_of_wellFormed h)
  unfold build buildInt
  rw [opOf_join, fnOf_join, GFmt.ofWord_join]
  rfl

theorem maxu (o : GFmt) : Statement (.maxu o) := by
  intro h
  refine decode_of_build (w := 0x01#8 ++ 0x0D#8 ++ o.pack) ?_ (zeroFieldOk_join _ _ o) (Instr.fieldsLegal_of_wellFormed h)
  unfold build buildInt
  rw [opOf_join, fnOf_join, GFmt.ofWord_join]
  rfl

theorem sext (o : GFmt) : Statement (.sext o) := by
  intro h
  refine decode_of_build (w := 0x01#8 ++ 0x0E#8 ++ o.pack) ?_ (zeroFieldOk_join _ _ o) (Instr.fieldsLegal_of_wellFormed h)
  unfold build buildInt
  rw [opOf_join, fnOf_join, GFmt.ofWord_join]
  rfl

theorem zext (o : GFmt) : Statement (.zext o) := by
  intro h
  refine decode_of_build (w := 0x01#8 ++ 0x0F#8 ++ o.pack) ?_ (zeroFieldOk_join _ _ o) (Instr.fieldsLegal_of_wellFormed h)
  unfold build buildInt
  rw [opOf_join, fnOf_join, GFmt.ofWord_join]
  rfl

theorem clz (o : GFmt) : Statement (.clz o) := by
  intro h
  refine decode_of_build (w := 0x01#8 ++ 0x10#8 ++ o.pack) ?_ (zeroFieldOk_join _ _ o) (Instr.fieldsLegal_of_wellFormed h)
  unfold build buildInt
  rw [opOf_join, fnOf_join, GFmt.ofWord_join]
  rfl

theorem ctz (o : GFmt) : Statement (.ctz o) := by
  intro h
  refine decode_of_build (w := 0x01#8 ++ 0x11#8 ++ o.pack) ?_ (zeroFieldOk_join _ _ o) (Instr.fieldsLegal_of_wellFormed h)
  unfold build buildInt
  rw [opOf_join, fnOf_join, GFmt.ofWord_join]
  rfl

theorem popc (o : GFmt) : Statement (.popc o) := by
  intro h
  refine decode_of_build (w := 0x01#8 ++ 0x12#8 ++ o.pack) ?_ (zeroFieldOk_join _ _ o) (Instr.fieldsLegal_of_wellFormed h)
  unfold build buildInt
  rw [opOf_join, fnOf_join, GFmt.ofWord_join]
  rfl

theorem addi (o : IFmt) : Statement (.addi o) := by
  intro h
  refine decode_of_build (w := 0x02#8 ++ 0x00#8 ++ o.pack) ?_ (zeroFieldOk_other _ _ _ (by decide)) (Instr.fieldsLegal_of_wellFormed h)
  unfold build buildInt
  rw [opOf_join, fnOf_join, IFmt.ofWord_join]
  rfl

theorem andi (o : IFmt) : Statement (.andi o) := by
  intro h
  refine decode_of_build (w := 0x02#8 ++ 0x02#8 ++ o.pack) ?_ (zeroFieldOk_other _ _ _ (by decide)) (Instr.fieldsLegal_of_wellFormed h)
  unfold build buildInt
  rw [opOf_join, fnOf_join, IFmt.ofWord_join]
  rfl

theorem ori (o : IFmt) : Statement (.ori o) := by
  intro h
  refine decode_of_build (w := 0x02#8 ++ 0x03#8 ++ o.pack) ?_ (zeroFieldOk_other _ _ _ (by decide)) (Instr.fieldsLegal_of_wellFormed h)
  unfold build buildInt
  rw [opOf_join, fnOf_join, IFmt.ofWord_join]
  rfl

theorem xori (o : IFmt) : Statement (.xori o) := by
  intro h
  refine decode_of_build (w := 0x02#8 ++ 0x04#8 ++ o.pack) ?_ (zeroFieldOk_other _ _ _ (by decide)) (Instr.fieldsLegal_of_wellFormed h)
  unfold build buildInt
  rw [opOf_join, fnOf_join, IFmt.ofWord_join]
  rfl

theorem shli (o : IFmt) : Statement (.shli o) := by
  intro h
  refine decode_of_build (w := 0x02#8 ++ 0x05#8 ++ o.pack) ?_ (zeroFieldOk_other _ _ _ (by decide)) (Instr.fieldsLegal_of_wellFormed h)
  unfold build buildInt
  rw [opOf_join, fnOf_join, IFmt.ofWord_join]
  rfl

theorem shri (o : IFmt) : Statement (.shri o) := by
  intro h
  refine decode_of_build (w := 0x02#8 ++ 0x06#8 ++ o.pack) ?_ (zeroFieldOk_other _ _ _ (by decide)) (Instr.fieldsLegal_of_wellFormed h)
  unfold build buildInt
  rw [opOf_join, fnOf_join, IFmt.ofWord_join]
  rfl

theorem sari (o : IFmt) : Statement (.sari o) := by
  intro h
  refine decode_of_build (w := 0x02#8 ++ 0x07#8 ++ o.pack) ?_ (zeroFieldOk_other _ _ _ (by decide)) (Instr.fieldsLegal_of_wellFormed h)
  unfold build buildInt
  rw [opOf_join, fnOf_join, IFmt.ofWord_join]
  rfl

theorem slti (o : IFmt) : Statement (.slti o) := by
  intro h
  refine decode_of_build (w := 0x02#8 ++ 0x08#8 ++ o.pack) ?_ (zeroFieldOk_other _ _ _ (by decide)) (Instr.fieldsLegal_of_wellFormed h)
  unfold build buildInt
  rw [opOf_join, fnOf_join, IFmt.ofWord_join]
  rfl

theorem lih (o : IFmt) : Statement (.lih o) := by
  intro h
  refine decode_of_build (w := 0x03#8 ++ 0x00#8 ++ o.pack) ?_ (zeroFieldOk_other _ _ _ (by decide)) (Instr.fieldsLegal_of_wellFormed h)
  unfold build buildInt
  rw [opOf_join, fnOf_join, IFmt.ofWord_join]
  rfl

theorem addpc (o : IFmt) : Statement (.addpc o) := by
  intro h
  refine decode_of_build (w := 0x03#8 ++ 0x01#8 ++ o.pack) ?_ (zeroFieldOk_other _ _ _ (by decide)) (Instr.fieldsLegal_of_wellFormed h)
  unfold build buildInt
  rw [opOf_join, fnOf_join, IFmt.ofWord_join]
  rfl

theorem mul (o : GFmt) : Statement (.mul o) := by
  intro h
  refine decode_of_build (w := 0x04#8 ++ 0x00#8 ++ o.pack) ?_ (zeroFieldOk_join _ _ o) (Instr.fieldsLegal_of_wellFormed h)
  unfold build buildInt
  rw [opOf_join, fnOf_join, GFmt.ofWord_join]
  rfl

theorem mulh (o : GFmt) : Statement (.mulh o) := by
  intro h
  refine decode_of_build (w := 0x04#8 ++ 0x01#8 ++ o.pack) ?_ (zeroFieldOk_join _ _ o) (Instr.fieldsLegal_of_wellFormed h)
  unfold build buildInt
  rw [opOf_join, fnOf_join, GFmt.ofWord_join]
  rfl

theorem mulhu (o : GFmt) : Statement (.mulhu o) := by
  intro h
  refine decode_of_build (w := 0x04#8 ++ 0x02#8 ++ o.pack) ?_ (zeroFieldOk_join _ _ o) (Instr.fieldsLegal_of_wellFormed h)
  unfold build buildInt
  rw [opOf_join, fnOf_join, GFmt.ofWord_join]
  rfl

theorem div (o : GFmt) : Statement (.div o) := by
  intro h
  refine decode_of_build (w := 0x04#8 ++ 0x04#8 ++ o.pack) ?_ (zeroFieldOk_join _ _ o) (Instr.fieldsLegal_of_wellFormed h)
  unfold build buildInt
  rw [opOf_join, fnOf_join, GFmt.ofWord_join]
  rfl

theorem divu (o : GFmt) : Statement (.divu o) := by
  intro h
  refine decode_of_build (w := 0x04#8 ++ 0x05#8 ++ o.pack) ?_ (zeroFieldOk_join _ _ o) (Instr.fieldsLegal_of_wellFormed h)
  unfold build buildInt
  rw [opOf_join, fnOf_join, GFmt.ofWord_join]
  rfl

theorem rem (o : GFmt) : Statement (.rem o) := by
  intro h
  refine decode_of_build (w := 0x04#8 ++ 0x06#8 ++ o.pack) ?_ (zeroFieldOk_join _ _ o) (Instr.fieldsLegal_of_wellFormed h)
  unfold build buildInt
  rw [opOf_join, fnOf_join, GFmt.ofWord_join]
  rfl

theorem remu (o : GFmt) : Statement (.remu o) := by
  intro h
  refine decode_of_build (w := 0x04#8 ++ 0x07#8 ++ o.pack) ?_ (zeroFieldOk_join _ _ o) (Instr.fieldsLegal_of_wellFormed h)
  unfold build buildInt
  rw [opOf_join, fnOf_join, GFmt.ofWord_join]
  rfl

theorem fadd (o : GFmt) : Statement (.fadd o) := by
  intro h
  refine decode_of_build (w := 0x08#8 ++ 0x00#8 ++ o.pack) ?_ (zeroFieldOk_join _ _ o) (Instr.fieldsLegal_of_wellFormed h)
  unfold build buildFlow
  rw [opOf_join, fnOf_join, GFmt.ofWord_join]
  rfl

theorem fsub (o : GFmt) : Statement (.fsub o) := by
  intro h
  refine decode_of_build (w := 0x08#8 ++ 0x01#8 ++ o.pack) ?_ (zeroFieldOk_join _ _ o) (Instr.fieldsLegal_of_wellFormed h)
  unfold build buildFlow
  rw [opOf_join, fnOf_join, GFmt.ofWord_join]
  rfl

theorem fmul (o : GFmt) : Statement (.fmul o) := by
  intro h
  refine decode_of_build (w := 0x08#8 ++ 0x02#8 ++ o.pack) ?_ (zeroFieldOk_join _ _ o) (Instr.fieldsLegal_of_wellFormed h)
  unfold build buildFlow
  rw [opOf_join, fnOf_join, GFmt.ofWord_join]
  rfl

theorem fdiv (o : GFmt) : Statement (.fdiv o) := by
  intro h
  refine decode_of_build (w := 0x08#8 ++ 0x03#8 ++ o.pack) ?_ (zeroFieldOk_join _ _ o) (Instr.fieldsLegal_of_wellFormed h)
  unfold build buildFlow
  rw [opOf_join, fnOf_join, GFmt.ofWord_join]
  rfl

theorem fsqrt (o : GFmt) : Statement (.fsqrt o) := by
  intro h
  refine decode_of_build (w := 0x08#8 ++ 0x04#8 ++ o.pack) ?_ (zeroFieldOk_join _ _ o) (Instr.fieldsLegal_of_wellFormed h)
  unfold build buildFlow
  rw [opOf_join, fnOf_join, GFmt.ofWord_join]
  rfl

theorem fma (o : GFmt) : Statement (.fma o) := by
  intro h
  refine decode_of_build (w := 0x08#8 ++ 0x05#8 ++ o.pack) ?_ (zeroFieldOk_join _ _ o) (Instr.fieldsLegal_of_wellFormed h)
  unfold build buildFlow
  rw [opOf_join, fnOf_join, GFmt.ofWord_join]
  rfl

theorem fmin (o : GFmt) : Statement (.fmin o) := by
  intro h
  refine decode_of_build (w := 0x08#8 ++ 0x06#8 ++ o.pack) ?_ (zeroFieldOk_join _ _ o) (Instr.fieldsLegal_of_wellFormed h)
  unfold build buildFlow
  rw [opOf_join, fnOf_join, GFmt.ofWord_join]
  rfl

theorem fmax (o : GFmt) : Statement (.fmax o) := by
  intro h
  refine decode_of_build (w := 0x08#8 ++ 0x07#8 ++ o.pack) ?_ (zeroFieldOk_join _ _ o) (Instr.fieldsLegal_of_wellFormed h)
  unfold build buildFlow
  rw [opOf_join, fnOf_join, GFmt.ofWord_join]
  rfl

theorem fcmp (o : GFmt) : Statement (.fcmp o) := by
  intro h
  refine decode_of_build (w := 0x08#8 ++ 0x08#8 ++ o.pack) ?_ (zeroFieldOk_join _ _ o) (Instr.fieldsLegal_of_wellFormed h)
  unfold build buildFlow
  rw [opOf_join, fnOf_join, GFmt.ofWord_join]
  rfl

theorem fcvt (o : GFmt) : Statement (.fcvt o) := by
  intro h
  refine decode_of_build (w := 0x08#8 ++ 0x09#8 ++ o.pack) ?_ (zeroFieldOk_join _ _ o) (Instr.fieldsLegal_of_wellFormed h)
  unfold build buildFlow
  rw [opOf_join, fnOf_join, GFmt.ofWord_join]
  rfl

theorem fclass (o : GFmt) : Statement (.fclass o) := by
  intro h
  refine decode_of_build (w := 0x08#8 ++ 0x0A#8 ++ o.pack) ?_ (zeroFieldOk_join _ _ o) (Instr.fieldsLegal_of_wellFormed h)
  unfold build buildFlow
  rw [opOf_join, fnOf_join, GFmt.ofWord_join]
  rfl

theorem beq (o : BFmt) : Statement (.beq o) := by
  intro h
  refine decode_of_build (w := 0x10#8 ++ 0x00#8 ++ o.pack) ?_ (zeroFieldOk_other _ _ _ (by decide)) (Instr.fieldsLegal_of_wellFormed h)
  unfold build buildFlow
  rw [opOf_join, fnOf_join, BFmt.ofWord_join]
  rfl

theorem bne (o : BFmt) : Statement (.bne o) := by
  intro h
  refine decode_of_build (w := 0x10#8 ++ 0x01#8 ++ o.pack) ?_ (zeroFieldOk_other _ _ _ (by decide)) (Instr.fieldsLegal_of_wellFormed h)
  unfold build buildFlow
  rw [opOf_join, fnOf_join, BFmt.ofWord_join]
  rfl

theorem blt (o : BFmt) : Statement (.blt o) := by
  intro h
  refine decode_of_build (w := 0x10#8 ++ 0x02#8 ++ o.pack) ?_ (zeroFieldOk_other _ _ _ (by decide)) (Instr.fieldsLegal_of_wellFormed h)
  unfold build buildFlow
  rw [opOf_join, fnOf_join, BFmt.ofWord_join]
  rfl

theorem bge (o : BFmt) : Statement (.bge o) := by
  intro h
  refine decode_of_build (w := 0x10#8 ++ 0x03#8 ++ o.pack) ?_ (zeroFieldOk_other _ _ _ (by decide)) (Instr.fieldsLegal_of_wellFormed h)
  unfold build buildFlow
  rw [opOf_join, fnOf_join, BFmt.ofWord_join]
  rfl

theorem bltu (o : BFmt) : Statement (.bltu o) := by
  intro h
  refine decode_of_build (w := 0x10#8 ++ 0x04#8 ++ o.pack) ?_ (zeroFieldOk_other _ _ _ (by decide)) (Instr.fieldsLegal_of_wellFormed h)
  unfold build buildFlow
  rw [opOf_join, fnOf_join, BFmt.ofWord_join]
  rfl

theorem bgeu (o : BFmt) : Statement (.bgeu o) := by
  intro h
  refine decode_of_build (w := 0x10#8 ++ 0x05#8 ++ o.pack) ?_ (zeroFieldOk_other _ _ _ (by decide)) (Instr.fieldsLegal_of_wellFormed h)
  unfold build buildFlow
  rw [opOf_join, fnOf_join, BFmt.ofWord_join]
  rfl

theorem j (o : BFmt) : Statement (.j o) := by
  intro h
  refine decode_of_build (w := 0x11#8 ++ 0x00#8 ++ o.pack) ?_ (zeroFieldOk_other _ _ _ (by decide)) (Instr.fieldsLegal_of_wellFormed h)
  unfold build buildFlow
  rw [opOf_join, fnOf_join, BFmt.ofWord_join]
  rfl

theorem jal (o : IFmt) : Statement (.jal o) := by
  intro h
  refine decode_of_build (w := 0x12#8 ++ 0x00#8 ++ o.pack) ?_ (zeroFieldOk_other _ _ _ (by decide)) (Instr.fieldsLegal_of_wellFormed h)
  unfold build buildFlow
  rw [opOf_join, fnOf_join, IFmt.ofWord_join]
  rfl

theorem jalr (o : IFmt) : Statement (.jalr o) := by
  intro h
  refine decode_of_build (w := 0x13#8 ++ 0x00#8 ++ o.pack) ?_ (zeroFieldOk_other _ _ _ (by decide)) (Instr.fieldsLegal_of_wellFormed h)
  unfold build buildFlow
  rw [opOf_join, fnOf_join, IFmt.ofWord_join]
  rfl

theorem ld (sz : LoadSize) (o : MFmt) : Statement (.ld sz o) := by
  intro h
  cases sz
  all_goals
    refine decode_of_build ?_ (zeroFieldOk_other _ _ _ rfl) (Instr.fieldsLegal_of_wellFormed h)
    unfold build buildMem
    dsimp only [encode, Instr.opFn, Instr.body]
    rw [opOf_join, fnOf_join, MFmt.ofWord_join]
    rfl

theorem lda (sz : LoadSize) (o : MFmt) : Statement (.lda sz o) := by
  intro h
  cases sz
  all_goals
    refine decode_of_build ?_ (zeroFieldOk_other _ _ _ rfl) (Instr.fieldsLegal_of_wellFormed h)
    unfold build buildMem
    dsimp only [encode, Instr.opFn, Instr.body]
    rw [opOf_join, fnOf_join, MFmt.ofWord_join]
    rfl

theorem st (sz : StoreSize) (o : MFmt) : Statement (.st sz o) := by
  intro h
  cases sz
  all_goals
    refine decode_of_build ?_ (zeroFieldOk_other _ _ _ rfl) (Instr.fieldsLegal_of_wellFormed h)
    unfold build buildMem
    dsimp only [encode, Instr.opFn, Instr.body]
    rw [opOf_join, fnOf_join, MFmt.ofWord_join]
    rfl

theorem stl (sz : StoreSize) (o : MFmt) : Statement (.stl sz o) := by
  intro h
  cases sz
  all_goals
    refine decode_of_build ?_ (zeroFieldOk_other _ _ _ rfl) (Instr.fieldsLegal_of_wellFormed h)
    unfold build buildMem
    dsimp only [encode, Instr.opFn, Instr.body]
    rw [opOf_join, fnOf_join, MFmt.ofWord_join]
    rfl

theorem amo (op : AmoOp) (wide : Bool) (o : MFmt) : Statement (.amo op wide o) := by
  intro h
  cases op <;> cases wide
  all_goals
    refine decode_of_build ?_ (zeroFieldOk_other _ _ _ rfl) (Instr.fieldsLegal_of_wellFormed h)
    unfold build buildMem
    dsimp only [encode, Instr.opFn, Instr.body]
    rw [opOf_join, fnOf_join, MFmt.ofWord_join]
    rfl

theorem ldfe (wide clr : Bool) (o : MFmt) : Statement (.ldfe wide clr o) := by
  intro h
  cases wide <;> cases clr
  all_goals
    refine decode_of_build ?_ (zeroFieldOk_other _ _ _ rfl) (Instr.fieldsLegal_of_wellFormed h)
    unfold build buildMem
    dsimp only [encode, Instr.opFn, Instr.body]
    rw [opOf_join, fnOf_join, MFmt.ofWord_join]
    rfl

theorem ldfeWake (st : Nat) : Statement (.ldfeWake st) := fun h => nomatch h

theorem stfe (wide : Bool) (o : MFmt) : Statement (.stfe wide o) := by
  intro h
  cases wide
  all_goals
    refine decode_of_build ?_ (zeroFieldOk_other _ _ _ rfl) (Instr.fieldsLegal_of_wellFormed h)
    unfold build buildMem
    dsimp only [encode, Instr.opFn, Instr.body]
    rw [opOf_join, fnOf_join, MFmt.ofWord_join]
    rfl

theorem waitw (o : MFmt) : Statement (.waitw o) := by
  intro h
  refine decode_of_build (w := 0x1F#8 ++ 0x00#8 ++ o.pack) ?_ (zeroFieldOk_other _ _ _ (by decide)) (Instr.fieldsLegal_of_wellFormed h)
  unfold build buildMem
  rw [opOf_join, fnOf_join, MFmt.ofWord_join]
  rfl

theorem waitwWake (st : Nat) : Statement (.waitwWake st) := fun h => nomatch h

theorem fenceSv (o : MFmt) : Statement (.fenceSv o) := by
  intro h
  refine decode_of_build (w := 0x20#8 ++ 0x00#8 ++ o.pack) ?_ (zeroFieldOk_other _ _ _ (by decide)) (Instr.fieldsLegal_of_wellFormed h)
  unfold build buildMem
  rw [opOf_join, fnOf_join, MFmt.ofWord_join]
  rfl

theorem fenceVs (o : MFmt) : Statement (.fenceVs o) := by
  intro h
  refine decode_of_build (w := 0x20#8 ++ 0x01#8 ++ o.pack) ?_ (zeroFieldOk_other _ _ _ (by decide)) (Instr.fieldsLegal_of_wellFormed h)
  unfold build buildMem
  rw [opOf_join, fnOf_join, MFmt.ofWord_join]
  rfl

theorem fenceVv (o : MFmt) : Statement (.fenceVv o) := by
  intro h
  refine decode_of_build (w := 0x20#8 ++ 0x02#8 ++ o.pack) ?_ (zeroFieldOk_other _ _ _ (by decide)) (Instr.fieldsLegal_of_wellFormed h)
  unfold build buildMem
  rw [opOf_join, fnOf_join, MFmt.ofWord_join]
  rfl

theorem fenceAll (o : MFmt) : Statement (.fenceAll o) := by
  intro h
  refine decode_of_build (w := 0x20#8 ++ 0x03#8 ++ o.pack) ?_ (zeroFieldOk_other _ _ _ (by decide)) (Instr.fieldsLegal_of_wellFormed h)
  unfold build buildMem
  rw [opOf_join, fnOf_join, MFmt.ofWord_join]
  rfl

theorem setvl (o : IFmt) : Statement (.setvl o) := by
  intro h
  refine decode_of_build (w := 0x28#8 ++ 0x00#8 ++ o.pack) ?_ (zeroFieldOk_other _ _ _ (by decide)) (Instr.fieldsLegal_of_wellFormed h)
  unfold build buildSys
  rw [opOf_join, fnOf_join, IFmt.ofWord_join]
  rfl

theorem ctlrd (o : IFmt) : Statement (.ctlrd o) := by
  intro h
  refine decode_of_build (w := 0x29#8 ++ 0x00#8 ++ o.pack) ?_ (zeroFieldOk_other _ _ _ (by decide)) (Instr.fieldsLegal_of_wellFormed h)
  unfold build buildSys
  rw [opOf_join, fnOf_join, IFmt.ofWord_join]
  rfl

theorem ctlwrFpctl (o : IFmt) : Statement (.ctlwrFpctl o) := by
  intro h
  have l := Instr.fieldsLegal_of_wellFormed h
  refine decode_of_build (w := 0x2A#8 ++ 0x00#8 ++ o.pack) ?_ (zeroFieldOk_other _ _ _ (by decide)) l
  unfold build buildSys
  rw [opOf_join, fnOf_join, IFmt.ofWord_join]
  have : o.imm = 2 := by simpa using (Bool.and_eq_true_iff.mp l).2
  show some (ctlwrOf o) = _
  unfold ctlwrOf
  rw [this]
  rfl

theorem ctlwrSeed (o : IFmt) : Statement (.ctlwrSeed o) := by
  intro h
  have l := Instr.fieldsLegal_of_wellFormed h
  refine decode_of_build (w := 0x2A#8 ++ 0x00#8 ++ o.pack) ?_ (zeroFieldOk_other _ _ _ (by decide)) l
  unfold build buildSys
  rw [opOf_join, fnOf_join, IFmt.ofWord_join]
  have : o.imm = 3 := by simpa using (Bool.and_eq_true_iff.mp l).2
  show some (ctlwrOf o) = _
  unfold ctlwrOf
  rw [this]
  rfl

theorem ctlwrTrapvec (o : IFmt) : Statement (.ctlwrTrapvec o) := by
  intro h
  have l := Instr.fieldsLegal_of_wellFormed h
  refine decode_of_build (w := 0x2A#8 ++ 0x00#8 ++ o.pack) ?_ (zeroFieldOk_other _ _ _ (by decide)) l
  unfold build buildSys
  rw [opOf_join, fnOf_join, IFmt.ofWord_join]
  have : o.imm = 4 := by simpa using (Bool.and_eq_true_iff.mp l).2
  show some (ctlwrOf o) = _
  unfold ctlwrOf
  rw [this]
  rfl

theorem ctlwrTblroot (o : IFmt) : Statement (.ctlwrTblroot o) := by
  intro h
  have l := Instr.fieldsLegal_of_wellFormed h
  refine decode_of_build (w := 0x2A#8 ++ 0x00#8 ++ o.pack) ?_ (zeroFieldOk_other _ _ _ (by decide)) l
  unfold build buildSys
  rw [opOf_join, fnOf_join, IFmt.ofWord_join]
  have : o.imm = 0x0D := by simpa using (Bool.and_eq_true_iff.mp l).2
  show some (ctlwrOf o) = _
  unfold ctlwrOf
  rw [this]
  rfl

theorem ctlwrYieldwin (o : IFmt) : Statement (.ctlwrYieldwin o) := by
  intro h
  have l := Instr.fieldsLegal_of_wellFormed h
  refine decode_of_build (w := 0x2A#8 ++ 0x00#8 ++ o.pack) ?_ (zeroFieldOk_other _ _ _ (by decide)) l
  unfold build buildSys
  rw [opOf_join, fnOf_join, IFmt.ofWord_join]
  have : o.imm = 0x0E := by simpa using (Bool.and_eq_true_iff.mp l).2
  show some (ctlwrOf o) = _
  unfold ctlwrOf
  rw [this]
  rfl

theorem ctlwrSplit (o : IFmt) : Statement (.ctlwrSplit o) := by
  intro h
  have l := Instr.fieldsLegal_of_wellFormed h
  refine decode_of_build (w := 0x2A#8 ++ 0x00#8 ++ o.pack) ?_ (zeroFieldOk_other _ _ _ (by decide)) l
  unfold build buildSys
  rw [opOf_join, fnOf_join, IFmt.ofWord_join]
  have : o.imm = 0x12 := by simpa using (Bool.and_eq_true_iff.mp l).2
  show some (ctlwrOf o) = _
  unfold ctlwrOf
  rw [this]
  rfl

theorem ctlwr (o : IFmt) : Statement (.ctlwr o) := by
  intro h
  have l := Instr.fieldsLegal_of_wellFormed h
  refine decode_of_build (w := 0x2A#8 ++ 0x00#8 ++ o.pack) ?_ (zeroFieldOk_other _ _ _ (by decide)) l
  unfold build buildSys
  rw [opOf_join, fnOf_join, IFmt.ofWord_join]
  have w : ctlWritable o.imm = false := by simpa using (Bool.and_eq_true_iff.mp l).2
  exact congrArg some (ctlwrOf_readOnly w)

theorem cycrd (o : IFmt) : Statement (.cycrd o) := by
  intro h
  refine decode_of_build (w := 0x2B#8 ++ 0x00#8 ++ o.pack) ?_ (zeroFieldOk_other _ _ _ (by decide)) (Instr.fieldsLegal_of_wellFormed h)
  unfold build buildSys
  rw [opOf_join, fnOf_join, IFmt.ofWord_join]
  rfl

theorem cflush (o : GFmt) : Statement (.cflush o) := by
  intro h
  refine decode_of_build (w := 0x2C#8 ++ 0x00#8 ++ o.pack) ?_ (zeroFieldOk_join _ _ o) (Instr.fieldsLegal_of_wellFormed h)
  unfold build buildSys
  rw [opOf_join, fnOf_join, GFmt.ofWord_join]
  rfl

theorem ainv (o : GFmt) : Statement (.ainv o) := by
  intro h
  refine decode_of_build (w := 0x2D#8 ++ 0x00#8 ++ o.pack) ?_ (zeroFieldOk_join _ _ o) (Instr.fieldsLegal_of_wellFormed h)
  unfold build buildSys
  rw [opOf_join, fnOf_join, GFmt.ofWord_join]
  rfl

theorem tmark (o : IFmt) : Statement (.tmark o) := by
  intro h
  refine decode_of_build (w := 0x2E#8 ++ 0x00#8 ++ o.pack) ?_ (zeroFieldOk_other _ _ _ (by decide)) (Instr.fieldsLegal_of_wellFormed h)
  unfold build buildSys
  rw [opOf_join, fnOf_join, IFmt.ofWord_join]
  rfl

theorem trap (o : IFmt) : Statement (.trap o) := by
  intro h
  refine decode_of_build (w := 0x30#8 ++ 0x00#8 ++ o.pack) ?_ (zeroFieldOk_other _ _ _ (by decide)) (Instr.fieldsLegal_of_wellFormed h)
  unfold build buildSys
  rw [opOf_join, fnOf_join, IFmt.ofWord_join]
  rfl

theorem brk (o : IFmt) : Statement (.brk o) := by
  intro h
  refine decode_of_build (w := 0x32#8 ++ 0x00#8 ++ o.pack) ?_ (zeroFieldOk_other _ _ _ (by decide)) (Instr.fieldsLegal_of_wellFormed h)
  unfold build buildSys
  rw [opOf_join, fnOf_join, IFmt.ofWord_join]
  rfl

theorem tret (o : GFmt) : Statement (.tret o) := by
  intro h
  have l := Instr.fieldsLegal_of_wellFormed h
  refine decode_of_build (w := 0x31#8 ++ 0x00#8 ++ o.pack) ?_ (zeroFieldOk_join _ _ o) l
  unfold build buildSys
  rw [opOf_join, fnOf_join, GFmt.ofWord_join]
  have : o.q = 0 := by simpa using (Bool.and_eq_true_iff.mp l).2
  rw [this]
  rfl

theorem tretSkip (o : GFmt) : Statement (.tretSkip o) := by
  intro h
  have l := Instr.fieldsLegal_of_wellFormed h
  refine decode_of_build (w := 0x31#8 ++ 0x00#8 ++ o.pack) ?_ (zeroFieldOk_join _ _ o) l
  unfold build buildSys
  rw [opOf_join, fnOf_join, GFmt.ofWord_join]
  have : o.q = 1 := by simpa using (Bool.and_eq_true_iff.mp l).2
  rw [this]
  rfl

theorem nop (o : GFmt) : Statement (.nop o) := by
  intro h
  refine decode_of_build (w := 0x33#8 ++ 0x00#8 ++ o.pack) ?_ (zeroFieldOk_join _ _ o) (Instr.fieldsLegal_of_wellFormed h)
  unfold build buildSys
  rw [opOf_join, fnOf_join, GFmt.ofWord_join]
  rfl

theorem hnew (o : GFmt) : Statement (.hnew o) := by
  intro h
  refine decode_of_build (w := 0x38#8 ++ 0x00#8 ++ o.pack) ?_ (zeroFieldOk_join _ _ o) (Instr.fieldsLegal_of_wellFormed h)
  unfold build buildSys
  rw [opOf_join, fnOf_join, GFmt.ofWord_join]
  rfl

theorem hgiveShares (o : GFmt) : Statement (.hgiveShares o) := by
  intro h
  refine decode_of_build (w := 0x39#8 ++ 0x00#8 ++ o.pack) ?_ (zeroFieldOk_join _ _ o) (Instr.fieldsLegal_of_wellFormed h)
  unfold build buildSys
  rw [opOf_join, fnOf_join, GFmt.ofWord_join]
  rfl

theorem hgiveRing (o : GFmt) : Statement (.hgiveRing o) := fun h => nomatch h

theorem hgiveFabricBindings (o : GFmt) : Statement (.hgiveFabricBindings o) := fun h => nomatch h

theorem hgiveMemory (o : GFmt) : Statement (.hgiveMemory o) := fun h => nomatch h

theorem hgiveBuckets (o : GFmt) : Statement (.hgiveBuckets o) := fun h => nomatch h

theorem htakeShares (o : GFmt) : Statement (.htakeShares o) := by
  intro h
  refine decode_of_build (w := 0x3A#8 ++ 0x00#8 ++ o.pack) ?_ (zeroFieldOk_join _ _ o) (Instr.fieldsLegal_of_wellFormed h)
  unfold build buildSys
  rw [opOf_join, fnOf_join, GFmt.ofWord_join]
  rfl

theorem htakeRing (o : GFmt) : Statement (.htakeRing o) := fun h => nomatch h

theorem htakeFabricBindings (o : GFmt) : Statement (.htakeFabricBindings o) := fun h => nomatch h

theorem htakeMemory (o : GFmt) : Statement (.htakeMemory o) := fun h => nomatch h

theorem htakeBuckets (o : GFmt) : Statement (.htakeBuckets o) := fun h => nomatch h

theorem hkill (o : GFmt) : Statement (.hkill o) := by
  intro h
  refine decode_of_build (w := 0x3B#8 ++ 0x00#8 ++ o.pack) ?_ (zeroFieldOk_join _ _ o) (Instr.fieldsLegal_of_wellFormed h)
  unfold build buildSys
  rw [opOf_join, fnOf_join, GFmt.ofWord_join]
  rfl

theorem hstat (o : GFmt) : Statement (.hstat o) := by
  intro h
  refine decode_of_build (w := 0x3C#8 ++ 0x00#8 ++ o.pack) ?_ (zeroFieldOk_join _ _ o) (Instr.fieldsLegal_of_wellFormed h)
  unfold build buildSys
  rw [opOf_join, fnOf_join, GFmt.ofWord_join]
  rfl

theorem hretReissue (o : GFmt) : Statement (.hretReissue o) := by
  intro h
  refine decode_of_build (w := 0x3D#8 ++ 0x00#8 ++ o.pack) ?_ (zeroFieldOk_join _ _ o) (Instr.fieldsLegal_of_wellFormed h)
  unfold build buildSys
  rw [opOf_join, fnOf_join, GFmt.ofWord_join]
  rfl

theorem hretSkip (o : GFmt) : Statement (.hretSkip o) := fun h => nomatch h

theorem hretDeliver (o : GFmt) : Statement (.hretDeliver o) := fun h => nomatch h

theorem hretForward (o : GFmt) : Statement (.hretForward o) := fun h => nomatch h

theorem hretPlace (o : GFmt) : Statement (.hretPlace o) := fun h => nomatch h

theorem spawn (o : GFmt) : Statement (.spawn o) := by
  intro h
  refine decode_of_build (w := 0x40#8 ++ 0x00#8 ++ o.pack) ?_ (zeroFieldOk_join _ _ o) (Instr.fieldsLegal_of_wellFormed h)
  unfold build buildSys
  rw [opOf_join, fnOf_join, GFmt.ofWord_join]
  rfl

theorem glaunch (o : GFmt) : Statement (.glaunch o) := by
  intro h
  refine decode_of_build (w := 0x42#8 ++ 0x00#8 ++ o.pack) ?_ (zeroFieldOk_join _ _ o) (Instr.fieldsLegal_of_wellFormed h)
  unfold build buildSys
  rw [opOf_join, fnOf_join, GFmt.ofWord_join]
  rfl

theorem squit (o : GFmt) : Statement (.squit o) := by
  intro h
  refine decode_of_build (w := 0x41#8 ++ 0x00#8 ++ o.pack) ?_ (zeroFieldOk_join _ _ o) (Instr.fieldsLegal_of_wellFormed h)
  unfold build buildSys
  rw [opOf_join, fnOf_join, GFmt.ofWord_join]
  rfl

theorem squitComplete (st : Nat) : Statement (.squitComplete st) := fun h => nomatch h

theorem gbar (o : GFmt) : Statement (.gbar o) := by
  intro h
  refine decode_of_build (w := 0x43#8 ++ 0x00#8 ++ o.pack) ?_ (zeroFieldOk_join _ _ o) (Instr.fieldsLegal_of_wellFormed h)
  unfold build buildSys
  rw [opOf_join, fnOf_join, GFmt.ofWord_join]
  rfl

theorem gbarComplete (hive : Nat) (gang : BitVec 32) : Statement (.gbarComplete hive gang) := fun h => nomatch h

theorem gwait (o : GFmt) : Statement (.gwait o) := by
  intro h
  refine decode_of_build (w := 0x44#8 ++ 0x00#8 ++ o.pack) ?_ (zeroFieldOk_join _ _ o) (Instr.fieldsLegal_of_wellFormed h)
  unfold build buildSys
  rw [opOf_join, fnOf_join, GFmt.ofWord_join]
  rfl

theorem gwaitComplete (st : Nat) : Statement (.gwaitComplete st) := fun h => nomatch h

theorem yield (o : GFmt) : Statement (.yield o) := by
  intro h
  refine decode_of_build (w := 0x45#8 ++ 0x00#8 ++ o.pack) ?_ (zeroFieldOk_join _ _ o) (Instr.fieldsLegal_of_wellFormed h)
  unfold build buildSys
  rw [opOf_join, fnOf_join, GFmt.ofWord_join]
  rfl

theorem vadd (o : VFmt) : Statement (.vadd o) := by
  intro h
  refine decode_of_build (w := 0x60#8 ++ 0x00#8 ++ o.pack) ?_ (zeroFieldOk_other _ _ _ (by decide)) (Instr.fieldsLegal_of_wellFormed h)
  unfold build buildVec
  rw [opOf_join, fnOf_join, VFmt.ofWord_join]
  rfl

theorem vsub (o : VFmt) : Statement (.vsub o) := by
  intro h
  refine decode_of_build (w := 0x60#8 ++ 0x01#8 ++ o.pack) ?_ (zeroFieldOk_other _ _ _ (by decide)) (Instr.fieldsLegal_of_wellFormed h)
  unfold build buildVec
  rw [opOf_join, fnOf_join, VFmt.ofWord_join]
  rfl

theorem vmul (o : VFmt) : Statement (.vmul o) := by
  intro h
  refine decode_of_build (w := 0x60#8 ++ 0x02#8 ++ o.pack) ?_ (zeroFieldOk_other _ _ _ (by decide)) (Instr.fieldsLegal_of_wellFormed h)
  unfold build buildVec
  rw [opOf_join, fnOf_join, VFmt.ofWord_join]
  rfl

theorem vmulh (o : VFmt) : Statement (.vmulh o) := by
  intro h
  refine decode_of_build (w := 0x60#8 ++ 0x03#8 ++ o.pack) ?_ (zeroFieldOk_other _ _ _ (by decide)) (Instr.fieldsLegal_of_wellFormed h)
  unfold build buildVec
  rw [opOf_join, fnOf_join, VFmt.ofWord_join]
  rfl

theorem vdiv (o : VFmt) : Statement (.vdiv o) := by
  intro h
  refine decode_of_build (w := 0x60#8 ++ 0x04#8 ++ o.pack) ?_ (zeroFieldOk_other _ _ _ (by decide)) (Instr.fieldsLegal_of_wellFormed h)
  unfold build buildVec
  rw [opOf_join, fnOf_join, VFmt.ofWord_join]
  rfl

theorem vmin (o : VFmt) : Statement (.vmin o) := by
  intro h
  refine decode_of_build (w := 0x60#8 ++ 0x05#8 ++ o.pack) ?_ (zeroFieldOk_other _ _ _ (by decide)) (Instr.fieldsLegal_of_wellFormed h)
  unfold build buildVec
  rw [opOf_join, fnOf_join, VFmt.ofWord_join]
  rfl

theorem vmax (o : VFmt) : Statement (.vmax o) := by
  intro h
  refine decode_of_build (w := 0x60#8 ++ 0x06#8 ++ o.pack) ?_ (zeroFieldOk_other _ _ _ (by decide)) (Instr.fieldsLegal_of_wellFormed h)
  unfold build buildVec
  rw [opOf_join, fnOf_join, VFmt.ofWord_join]
  rfl

theorem vabs (o : VFmt) : Statement (.vabs o) := by
  intro h
  refine decode_of_build (w := 0x60#8 ++ 0x07#8 ++ o.pack) ?_ (zeroFieldOk_other _ _ _ (by decide)) (Instr.fieldsLegal_of_wellFormed h)
  unfold build buildVec
  rw [opOf_join, fnOf_join, VFmt.ofWord_join]
  rfl

theorem vneg (o : VFmt) : Statement (.vneg o) := by
  intro h
  refine decode_of_build (w := 0x60#8 ++ 0x08#8 ++ o.pack) ?_ (zeroFieldOk_other _ _ _ (by decide)) (Instr.fieldsLegal_of_wellFormed h)
  unfold build buildVec
  rw [opOf_join, fnOf_join, VFmt.ofWord_join]
  rfl

theorem vand (o : VFmt) : Statement (.vand o) := by
  intro h
  refine decode_of_build (w := 0x60#8 ++ 0x09#8 ++ o.pack) ?_ (zeroFieldOk_other _ _ _ (by decide)) (Instr.fieldsLegal_of_wellFormed h)
  unfold build buildVec
  rw [opOf_join, fnOf_join, VFmt.ofWord_join]
  rfl

theorem vor (o : VFmt) : Statement (.vor o) := by
  intro h
  refine decode_of_build (w := 0x60#8 ++ 0x0A#8 ++ o.pack) ?_ (zeroFieldOk_other _ _ _ (by decide)) (Instr.fieldsLegal_of_wellFormed h)
  unfold build buildVec
  rw [opOf_join, fnOf_join, VFmt.ofWord_join]
  rfl

theorem vxor (o : VFmt) : Statement (.vxor o) := by
  intro h
  refine decode_of_build (w := 0x60#8 ++ 0x0B#8 ++ o.pack) ?_ (zeroFieldOk_other _ _ _ (by decide)) (Instr.fieldsLegal_of_wellFormed h)
  unfold build buildVec
  rw [opOf_join, fnOf_join, VFmt.ofWord_join]
  rfl

theorem vshl (o : VFmt) : Statement (.vshl o) := by
  intro h
  refine decode_of_build (w := 0x60#8 ++ 0x0C#8 ++ o.pack) ?_ (zeroFieldOk_other _ _ _ (by decide)) (Instr.fieldsLegal_of_wellFormed h)
  unfold build buildVec
  rw [opOf_join, fnOf_join, VFmt.ofWord_join]
  rfl

theorem vshr (o : VFmt) : Statement (.vshr o) := by
  intro h
  refine decode_of_build (w := 0x60#8 ++ 0x0D#8 ++ o.pack) ?_ (zeroFieldOk_other _ _ _ (by decide)) (Instr.fieldsLegal_of_wellFormed h)
  unfold build buildVec
  rw [opOf_join, fnOf_join, VFmt.ofWord_join]
  rfl

theorem vsar (o : VFmt) : Statement (.vsar o) := by
  intro h
  refine decode_of_build (w := 0x60#8 ++ 0x0E#8 ++ o.pack) ?_ (zeroFieldOk_other _ _ _ (by decide)) (Instr.fieldsLegal_of_wellFormed h)
  unfold build buildVec
  rw [opOf_join, fnOf_join, VFmt.ofWord_join]
  rfl

theorem vclamp (o : VFmt) : Statement (.vclamp o) := by
  intro h
  refine decode_of_build (w := 0x60#8 ++ 0x0F#8 ++ o.pack) ?_ (zeroFieldOk_other _ _ _ (by decide)) (Instr.fieldsLegal_of_wellFormed h)
  unfold build buildVec
  rw [opOf_join, fnOf_join, VFmt.ofWord_join]
  rfl

theorem vfma (o : VFmt) : Statement (.vfma o) := by
  intro h
  refine decode_of_build (w := 0x60#8 ++ 0x10#8 ++ o.pack) ?_ (zeroFieldOk_other _ _ _ (by decide)) (Instr.fieldsLegal_of_wellFormed h)
  unfold build buildVec
  rw [opOf_join, fnOf_join, VFmt.ofWord_join]
  rfl

theorem vsqrt (o : VFmt) : Statement (.vsqrt o) := by
  intro h
  refine decode_of_build (w := 0x60#8 ++ 0x11#8 ++ o.pack) ?_ (zeroFieldOk_other _ _ _ (by decide)) (Instr.fieldsLegal_of_wellFormed h)
  unfold build buildVec
  rw [opOf_join, fnOf_join, VFmt.ofWord_join]
  rfl

theorem vrcp (o : VFmt) : Statement (.vrcp o) := by
  intro h
  refine decode_of_build (w := 0x60#8 ++ 0x12#8 ++ o.pack) ?_ (zeroFieldOk_other _ _ _ (by decide)) (Instr.fieldsLegal_of_wellFormed h)
  unfold build buildVec
  rw [opOf_join, fnOf_join, VFmt.ofWord_join]
  rfl

theorem vrsq (o : VFmt) : Statement (.vrsq o) := by
  intro h
  refine decode_of_build (w := 0x60#8 ++ 0x13#8 ++ o.pack) ?_ (zeroFieldOk_other _ _ _ (by decide)) (Instr.fieldsLegal_of_wellFormed h)
  unfold build buildVec
  rw [opOf_join, fnOf_join, VFmt.ofWord_join]
  rfl

theorem vexp2 (o : VFmt) : Statement (.vexp2 o) := by
  intro h
  refine decode_of_build (w := 0x60#8 ++ 0x14#8 ++ o.pack) ?_ (zeroFieldOk_other _ _ _ (by decide)) (Instr.fieldsLegal_of_wellFormed h)
  unfold build buildVec
  rw [opOf_join, fnOf_join, VFmt.ofWord_join]
  rfl

theorem vlog2 (o : VFmt) : Statement (.vlog2 o) := by
  intro h
  refine decode_of_build (w := 0x60#8 ++ 0x15#8 ++ o.pack) ?_ (zeroFieldOk_other _ _ _ (by decide)) (Instr.fieldsLegal_of_wellFormed h)
  unfold build buildVec
  rw [opOf_join, fnOf_join, VFmt.ofWord_join]
  rfl

theorem vtanh (o : VFmt) : Statement (.vtanh o) := by
  intro h
  refine decode_of_build (w := 0x60#8 ++ 0x16#8 ++ o.pack) ?_ (zeroFieldOk_other _ _ _ (by decide)) (Instr.fieldsLegal_of_wellFormed h)
  unfold build buildVec
  rw [opOf_join, fnOf_join, VFmt.ofWord_join]
  rfl

theorem vcmp (c : Cond) (o : VFmt) : Statement (.vcmp c o) := by
  intro h
  cases c
  all_goals
    refine decode_of_build ?_ (zeroFieldOk_other _ _ _ rfl) (Instr.fieldsLegal_of_wellFormed h)
    unfold build buildVec
    dsimp only [encode, Instr.opFn, Instr.body]
    rw [opOf_join, fnOf_join, VFmt.ofWord_join]
    rfl

theorem vsel (o : VFmt) : Statement (.vsel o) := by
  intro h
  refine decode_of_build (w := 0x62#8 ++ 0x00#8 ++ o.pack) ?_ (zeroFieldOk_other _ _ _ (by decide)) (Instr.fieldsLegal_of_wellFormed h)
  unfold build buildVec
  rw [opOf_join, fnOf_join, VFmt.ofWord_join]
  rfl

theorem vcvt (o : VFmt) : Statement (.vcvt o) := by
  intro h
  refine decode_of_build (w := 0x63#8 ++ 0x00#8 ++ o.pack) ?_ (zeroFieldOk_other _ _ _ (by decide)) (Instr.fieldsLegal_of_wellFormed h)
  unfold build buildVec
  rw [opOf_join, fnOf_join, VFmt.ofWord_join]
  rfl

theorem vred (o : VFmt) : Statement (.vred o) := by
  intro h
  refine decode_of_build (w := 0x68#8 ++ 0x00#8 ++ o.pack) ?_ (zeroFieldOk_other _ _ _ (by decide)) (Instr.fieldsLegal_of_wellFormed h)
  unfold build buildVec
  rw [opOf_join, fnOf_join, VFmt.ofWord_join]
  rfl

theorem vscan (o : VFmt) : Statement (.vscan o) := by
  intro h
  refine decode_of_build (w := 0x68#8 ++ 0x01#8 ++ o.pack) ?_ (zeroFieldOk_other _ _ _ (by decide)) (Instr.fieldsLegal_of_wellFormed h)
  unfold build buildVec
  rw [opOf_join, fnOf_join, VFmt.ofWord_join]
  rfl

theorem vcomp (o : VFmt) : Statement (.vcomp o) := by
  intro h
  refine decode_of_build (w := 0x68#8 ++ 0x02#8 ++ o.pack) ?_ (zeroFieldOk_other _ _ _ (by decide)) (Instr.fieldsLegal_of_wellFormed h)
  unfold build buildVec
  rw [opOf_join, fnOf_join, VFmt.ofWord_join]
  rfl

theorem vexpd (o : VFmt) : Statement (.vexpd o) := by
  intro h
  refine decode_of_build (w := 0x68#8 ++ 0x03#8 ++ o.pack) ?_ (zeroFieldOk_other _ _ _ (by decide)) (Instr.fieldsLegal_of_wellFormed h)
  unfold build buildVec
  rw [opOf_join, fnOf_join, VFmt.ofWord_join]
  rfl

theorem vslide (o : VFmt) : Statement (.vslide o) := by
  intro h
  refine decode_of_build (w := 0x68#8 ++ 0x04#8 ++ o.pack) ?_ (zeroFieldOk_other _ _ _ (by decide)) (Instr.fieldsLegal_of_wellFormed h)
  unfold build buildVec
  rw [opOf_join, fnOf_join, VFmt.ofWord_join]
  rfl

theorem vperm (o : VFmt) : Statement (.vperm o) := by
  intro h
  refine decode_of_build (w := 0x68#8 ++ 0x05#8 ++ o.pack) ?_ (zeroFieldOk_other _ _ _ (by decide)) (Instr.fieldsLegal_of_wellFormed h)
  unfold build buildVec
  rw [opOf_join, fnOf_join, VFmt.ofWord_join]
  rfl

theorem vhad (o : VFmt) : Statement (.vhad o) := by
  intro h
  refine decode_of_build (w := 0x68#8 ++ 0x06#8 ++ o.pack) ?_ (zeroFieldOk_other _ _ _ (by decide)) (Instr.fieldsLegal_of_wellFormed h)
  unfold build buildVec
  rw [opOf_join, fnOf_join, VFmt.ofWord_join]
  rfl

theorem vbcast (o : VFmt) : Statement (.vbcast o) := by
  intro h
  refine decode_of_build (w := 0x68#8 ++ 0x07#8 ++ o.pack) ?_ (zeroFieldOk_other _ _ _ (by decide)) (Instr.fieldsLegal_of_wellFormed h)
  unfold build buildVec
  rw [opOf_join, fnOf_join, VFmt.ofWord_join]
  rfl

theorem vindex (o : VFmt) : Statement (.vindex o) := by
  intro h
  refine decode_of_build (w := 0x68#8 ++ 0x08#8 ++ o.pack) ?_ (zeroFieldOk_other _ _ _ (by decide)) (Instr.fieldsLegal_of_wellFormed h)
  unfold build buildVec
  rw [opOf_join, fnOf_join, VFmt.ofWord_join]
  rfl

theorem vext (o : VFmt) : Statement (.vext o) := by
  intro h
  refine decode_of_build (w := 0x68#8 ++ 0x09#8 ++ o.pack) ?_ (zeroFieldOk_other _ _ _ (by decide)) (Instr.fieldsLegal_of_wellFormed h)
  unfold build buildVec
  rw [opOf_join, fnOf_join, VFmt.ofWord_join]
  rfl

theorem vins (o : VFmt) : Statement (.vins o) := by
  intro h
  refine decode_of_build (w := 0x68#8 ++ 0x0A#8 ++ o.pack) ?_ (zeroFieldOk_other _ _ _ (by decide)) (Instr.fieldsLegal_of_wellFormed h)
  unfold build buildVec
  rw [opOf_join, fnOf_join, VFmt.ofWord_join]
  rfl

theorem vzip (o : VFmt) : Statement (.vzip o) := by
  intro h
  refine decode_of_build (w := 0x68#8 ++ 0x0B#8 ++ o.pack) ?_ (zeroFieldOk_other _ _ _ (by decide)) (Instr.fieldsLegal_of_wellFormed h)
  unfold build buildVec
  rw [opOf_join, fnOf_join, VFmt.ofWord_join]
  rfl

theorem vunzip (o : VFmt) : Statement (.vunzip o) := by
  intro h
  refine decode_of_build (w := 0x68#8 ++ 0x0C#8 ++ o.pack) ?_ (zeroFieldOk_other _ _ _ (by decide)) (Instr.fieldsLegal_of_wellFormed h)
  unfold build buildVec
  rw [opOf_join, fnOf_join, VFmt.ofWord_join]
  rfl

theorem mkand (o : VFmt) : Statement (.mkand o) := by
  intro h
  refine decode_of_build (w := 0x70#8 ++ 0x00#8 ++ o.pack) ?_ (zeroFieldOk_other _ _ _ (by decide)) (Instr.fieldsLegal_of_wellFormed h)
  unfold build buildVec
  rw [opOf_join, fnOf_join, VFmt.ofWord_join]
  rfl

theorem mkor (o : VFmt) : Statement (.mkor o) := by
  intro h
  refine decode_of_build (w := 0x70#8 ++ 0x01#8 ++ o.pack) ?_ (zeroFieldOk_other _ _ _ (by decide)) (Instr.fieldsLegal_of_wellFormed h)
  unfold build buildVec
  rw [opOf_join, fnOf_join, VFmt.ofWord_join]
  rfl

theorem mkxor (o : VFmt) : Statement (.mkxor o) := by
  intro h
  refine decode_of_build (w := 0x70#8 ++ 0x02#8 ++ o.pack) ?_ (zeroFieldOk_other _ _ _ (by decide)) (Instr.fieldsLegal_of_wellFormed h)
  unfold build buildVec
  rw [opOf_join, fnOf_join, VFmt.ofWord_join]
  rfl

theorem mknot (o : VFmt) : Statement (.mknot o) := by
  intro h
  refine decode_of_build (w := 0x70#8 ++ 0x03#8 ++ o.pack) ?_ (zeroFieldOk_other _ _ _ (by decide)) (Instr.fieldsLegal_of_wellFormed h)
  unfold build buildVec
  rw [opOf_join, fnOf_join, VFmt.ofWord_join]
  rfl

theorem mkpopc (o : VFmt) : Statement (.mkpopc o) := by
  intro h
  refine decode_of_build (w := 0x70#8 ++ 0x04#8 ++ o.pack) ?_ (zeroFieldOk_other _ _ _ (by decide)) (Instr.fieldsLegal_of_wellFormed h)
  unfold build buildVec
  rw [opOf_join, fnOf_join, VFmt.ofWord_join]
  rfl

theorem mkfirst (o : VFmt) : Statement (.mkfirst o) := by
  intro h
  refine decode_of_build (w := 0x70#8 ++ 0x05#8 ++ o.pack) ?_ (zeroFieldOk_other _ _ _ (by decide)) (Instr.fieldsLegal_of_wellFormed h)
  unfold build buildVec
  rw [opOf_join, fnOf_join, VFmt.ofWord_join]
  rfl

theorem mktest (o : VFmt) : Statement (.mktest o) := by
  intro h
  refine decode_of_build (w := 0x70#8 ++ 0x07#8 ++ o.pack) ?_ (zeroFieldOk_other _ _ _ (by decide)) (Instr.fieldsLegal_of_wellFormed h)
  unfold build buildVec
  rw [opOf_join, fnOf_join, VFmt.ofWord_join]
  rfl

theorem mkset (o : VFmt) : Statement (.mkset o) := by
  intro h
  refine decode_of_build (w := 0x70#8 ++ 0x06#8 ++ o.pack) ?_ (zeroFieldOk_other _ _ _ (by decide)) (Instr.fieldsLegal_of_wellFormed h)
  unfold build buildVec
  rw [opOf_join, fnOf_join, VFmt.ofWord_join]
  rfl

theorem vld (o : VMFmt) : Statement (.vld o) := by
  intro h
  refine decode_of_build (w := 0x78#8 ++ 0x00#8 ++ o.pack) ?_ (zeroFieldOk_other _ _ _ (by decide)) (Instr.fieldsLegal_of_wellFormed h)
  unfold build buildVec
  rw [opOf_join, fnOf_join, VMFmt.ofWord_join]
  rfl

theorem vst (o : VMFmt) : Statement (.vst o) := by
  intro h
  refine decode_of_build (w := 0x79#8 ++ 0x00#8 ++ o.pack) ?_ (zeroFieldOk_other _ _ _ (by decide)) (Instr.fieldsLegal_of_wellFormed h)
  unfold build buildVec
  rw [opOf_join, fnOf_join, VMFmt.ofWord_join]
  rfl

theorem vldx (o : VMFmt) : Statement (.vldx o) := by
  intro h
  refine decode_of_build (w := 0x7A#8 ++ 0x00#8 ++ o.pack) ?_ (zeroFieldOk_other _ _ _ (by decide)) (Instr.fieldsLegal_of_wellFormed h)
  unfold build buildVec
  rw [opOf_join, fnOf_join, VMFmt.ofWord_join]
  rfl

theorem vstx (o : VMFmt) : Statement (.vstx o) := by
  intro h
  refine decode_of_build (w := 0x7B#8 ++ 0x00#8 ++ o.pack) ?_ (zeroFieldOk_other _ _ _ (by decide)) (Instr.fieldsLegal_of_wellFormed h)
  unfold build buildVec
  rw [opOf_join, fnOf_join, VMFmt.ofWord_join]
  rfl

theorem vamo (o : VMFmt) : Statement (.vamo o) := by
  intro h
  refine decode_of_build (w := 0x7C#8 ++ 0x00#8 ++ o.pack) ?_ (zeroFieldOk_other _ _ _ (by decide)) (Instr.fieldsLegal_of_wellFormed h)
  unfold build buildVec
  rw [opOf_join, fnOf_join, VMFmt.ofWord_join]
  rfl

theorem vldfe (o : VMFmt) : Statement (.vldfe o) := by
  intro h
  refine decode_of_build (w := 0x7D#8 ++ 0x00#8 ++ o.pack) ?_ (zeroFieldOk_other _ _ _ (by decide)) (Instr.fieldsLegal_of_wellFormed h)
  unfold build buildVec
  rw [opOf_join, fnOf_join, VMFmt.ofWord_join]
  rfl

theorem vldfeWake (st : Nat) : Statement (.vldfeWake st) := fun h => nomatch h

theorem vpf (o : VMFmt) : Statement (.vpf o) := by
  intro h
  refine decode_of_build (w := 0x7E#8 ++ 0x00#8 ++ o.pack) ?_ (zeroFieldOk_other _ _ _ (by decide)) (Instr.fieldsLegal_of_wellFormed h)
  unfold build buildVec
  rw [opOf_join, fnOf_join, VMFmt.ofWord_join]
  rfl

theorem sbind (o : IFmt) : Statement (.sbind o) := by
  intro h
  refine decode_of_build (w := 0x80#8 ++ 0x00#8 ++ o.pack) ?_ (zeroFieldOk_other _ _ _ (by decide)) (Instr.fieldsLegal_of_wellFormed h)
  unfold build buildTile
  rw [opOf_join, fnOf_join, IFmt.ofWord_join]
  rfl

theorem sset (o : IFmt) : Statement (.sset o) := by
  intro h
  refine decode_of_build (w := 0x81#8 ++ 0x00#8 ++ o.pack) ?_ (zeroFieldOk_other _ _ _ (by decide)) (Instr.fieldsLegal_of_wellFormed h)
  unfold build buildTile
  rw [opOf_join, fnOf_join, IFmt.ofWord_join]
  rfl

theorem sget (o : IFmt) : Statement (.sget o) := by
  intro h
  refine decode_of_build (w := 0x82#8 ++ 0x00#8 ++ o.pack) ?_ (zeroFieldOk_other _ _ _ (by decide)) (Instr.fieldsLegal_of_wellFormed h)
  unfold build buildTile
  rw [opOf_join, fnOf_join, IFmt.ofWord_join]
  rfl

theorem sadv (o : IFmt) : Statement (.sadv o) := by
  intro h
  refine decode_of_build (w := 0x83#8 ++ 0x00#8 ++ o.pack) ?_ (zeroFieldOk_other _ _ _ (by decide)) (Instr.fieldsLegal_of_wellFormed h)
  unfold build buildTile
  rw [opOf_join, fnOf_join, IFmt.ofWord_join]
  rfl

theorem vpush (o : XFmt) : Statement (.vpush o) := by
  intro h
  refine decode_of_build (w := 0x88#8 ++ 0x00#8 ++ o.pack) ?_ (zeroFieldOk_other _ _ _ (by decide)) (Instr.fieldsLegal_of_wellFormed h)
  unfold build buildTile
  rw [opOf_join, fnOf_join, XFmt.ofWord_join]
  rfl

theorem vpushTransfer (st : Nat) : Statement (.vpushTransfer st) := fun h => nomatch h

theorem vwaitf (o : XFmt) : Statement (.vwaitf o) := by
  intro h
  refine decode_of_build (w := 0x89#8 ++ 0x00#8 ++ o.pack) ?_ (zeroFieldOk_other _ _ _ (by decide)) (Instr.fieldsLegal_of_wellFormed h)
  unfold build buildTile
  rw [opOf_join, fnOf_join, XFmt.ofWord_join]
  rfl

theorem vwaitfFill (st : Nat) : Statement (.vwaitfFill st) := fun h => nomatch h

theorem tmode (o : IFmt) : Statement (.tmode o) := by
  intro h
  refine decode_of_build (w := 0x90#8 ++ 0x00#8 ++ o.pack) ?_ (zeroFieldOk_other _ _ _ (by decide)) (Instr.fieldsLegal_of_wellFormed h)
  unfold build buildTile
  rw [opOf_join, fnOf_join, IFmt.ofWord_join]
  rfl

theorem topa (o : TFmt) : Statement (.topa o) := by
  intro h
  refine decode_of_build (w := 0x91#8 ++ 0x00#8 ++ o.pack) ?_ (zeroFieldOk_other _ _ _ (by decide)) (Instr.fieldsLegal_of_wellFormed h)
  unfold build buildTile
  rw [opOf_join, fnOf_join, TFmt.ofWord_join]
  rfl

theorem tops (o : TFmt) : Statement (.tops o) := by
  intro h
  refine decode_of_build (w := 0x92#8 ++ 0x00#8 ++ o.pack) ?_ (zeroFieldOk_other _ _ _ (by decide)) (Instr.fieldsLegal_of_wellFormed h)
  unfold build buildTile
  rw [opOf_join, fnOf_join, TFmt.ofWord_join]
  rfl

theorem tzero (o : TFmt) : Statement (.tzero o) := by
  intro h
  refine decode_of_build (w := 0x93#8 ++ 0x00#8 ++ o.pack) ?_ (zeroFieldOk_other _ _ _ (by decide)) (Instr.fieldsLegal_of_wellFormed h)
  unfold build buildTile
  rw [opOf_join, fnOf_join, TFmt.ofWord_join]
  rfl

theorem trd (o : TFmt) : Statement (.trd o) := by
  intro h
  refine decode_of_build (w := 0x94#8 ++ 0x00#8 ++ o.pack) ?_ (zeroFieldOk_other _ _ _ (by decide)) (Instr.fieldsLegal_of_wellFormed h)
  unfold build buildTile
  rw [opOf_join, fnOf_join, TFmt.ofWord_join]
  rfl

theorem twr (o : TFmt) : Statement (.twr o) := by
  intro h
  refine decode_of_build (w := 0x95#8 ++ 0x00#8 ++ o.pack) ?_ (zeroFieldOk_other _ _ _ (by decide)) (Instr.fieldsLegal_of_wellFormed h)
  unfold build buildTile
  rw [opOf_join, fnOf_join, TFmt.ofWord_join]
  rfl

theorem tscl (o : TFmt) : Statement (.tscl o) := by
  intro h
  refine decode_of_build (w := 0x96#8 ++ 0x00#8 ++ o.pack) ?_ (zeroFieldOk_other _ _ _ (by decide)) (Instr.fieldsLegal_of_wellFormed h)
  unfold build buildTile
  rw [opOf_join, fnOf_join, TFmt.ofWord_join]
  rfl

theorem fbind (o : XFmt) : Statement (.fbind o) := by
  intro h
  refine decode_of_build (w := 0xA0#8 ++ 0x00#8 ++ o.pack) ?_ (zeroFieldOk_other _ _ _ (by decide)) (Instr.fieldsLegal_of_wellFormed h)
  unfold build buildTile
  rw [opOf_join, fnOf_join, XFmt.ofWord_join]
  rfl

theorem ffree (o : XFmt) : Statement (.ffree o) := by
  intro h
  refine decode_of_build (w := 0xA1#8 ++ 0x00#8 ++ o.pack) ?_ (zeroFieldOk_other _ _ _ (by decide)) (Instr.fieldsLegal_of_wellFormed h)
  unfold build buildTile
  rw [opOf_join, fnOf_join, XFmt.ofWord_join]
  rfl

theorem fx (slot : BitVec 5) (o : XFmt) : Statement (.fx slot o) := by
  intro h
  have l := Instr.fieldsLegal_of_wellFormed h
  refine decode_of_build (w := 0xA2#8 ++ slot.setWidth 8 ++ o.pack) ?_ (zeroFieldOk_other _ _ _ (by decide)) l
  unfold build buildTile
  rw [opOf_join, fnOf_join, XFmt.ofWord_join]
  have e : (slot.setWidth 8).setWidth 5 = slot := by simp
  have lt : (slot.setWidth 8).toNat < 0x20 := by
    rw [BitVec.toNat_setWidth]
    omega
  show (if (slot.setWidth 8).toNat < 0x20 then some (Instr.fx ((slot.setWidth 8).setWidth 5) o) else none) = _
  rw [if_pos lt, e]

theorem fcfg (o : XFmt) : Statement (.fcfg o) := by
  intro h
  refine decode_of_build (w := 0xA3#8 ++ 0x00#8 ++ o.pack) ?_ (zeroFieldOk_other _ _ _ (by decide)) (Instr.fieldsLegal_of_wellFormed h)
  unfold build buildTile
  rw [opOf_join, fnOf_join, XFmt.ofWord_join]
  rfl

theorem fdrain (o : XFmt) : Statement (.fdrain o) := by
  intro h
  refine decode_of_build (w := 0xA4#8 ++ 0x00#8 ++ o.pack) ?_ (zeroFieldOk_other _ _ _ (by decide)) (Instr.fieldsLegal_of_wellFormed h)
  unfold build buildTile
  rw [opOf_join, fnOf_join, XFmt.ofWord_join]
  rfl

theorem fdrainComplete (st : Nat) : Statement (.fdrainComplete st) := fun h => nomatch h

theorem fstat (o : XFmt) : Statement (.fstat o) := by
  intro h
  refine decode_of_build (w := 0xA5#8 ++ 0x00#8 ++ o.pack) ?_ (zeroFieldOk_other _ _ _ (by decide)) (Instr.fieldsLegal_of_wellFormed h)
  unfold build buildTile
  rw [opOf_join, fnOf_join, XFmt.ofWord_join]
  rfl

theorem fctxLoad (o : XFmt) : Statement (.fctxLoad o) := by
  intro h
  have l := Instr.fieldsLegal_of_wellFormed h
  refine decode_of_build (w := 0xA6#8 ++ 0x00#8 ++ o.pack) ?_ (zeroFieldOk_other _ _ _ (by decide)) l
  unfold build buildTile
  rw [opOf_join, fnOf_join, XFmt.ofWord_join]
  have l : (o.imm.extractLsb' 7 3 == 0 && o.imm.extractLsb' 5 2 == 0 && o.ga == 0 && o.gb == 0 && o.gc == 0 &&
      o.vd == 0 && o.va == 0 && o.vb == 0) = true := l
  simp only [Bool.and_eq_true, beq_iff_eq] at l
  have : o.imm.extractLsb' 5 2 = 0 := l.1.1.1.1.1.1.2
  show some (fctxOf o) = _
  unfold fctxOf
  rw [this]
  rfl

theorem fctxPin (o : XFmt) : Statement (.fctxPin o) := by
  intro h
  have l := Instr.fieldsLegal_of_wellFormed h
  refine decode_of_build (w := 0xA6#8 ++ 0x00#8 ++ o.pack) ?_ (zeroFieldOk_other _ _ _ (by decide)) l
  unfold build buildTile
  rw [opOf_join, fnOf_join, XFmt.ofWord_join]
  have l : (o.imm.extractLsb' 7 3 == 0 && o.imm.extractLsb' 5 2 == 1 && o.ga == 0 && o.gb == 0 && o.gc == 0 &&
      o.vd == 0 && o.va == 0 && o.vb == 0) = true := l
  simp only [Bool.and_eq_true, beq_iff_eq] at l
  have : o.imm.extractLsb' 5 2 = 1 := l.1.1.1.1.1.1.2
  show some (fctxOf o) = _
  unfold fctxOf
  rw [this]
  rfl

theorem fctxUnpin (o : XFmt) : Statement (.fctxUnpin o) := by
  intro h
  have l := Instr.fieldsLegal_of_wellFormed h
  refine decode_of_build (w := 0xA6#8 ++ 0x00#8 ++ o.pack) ?_ (zeroFieldOk_other _ _ _ (by decide)) l
  unfold build buildTile
  rw [opOf_join, fnOf_join, XFmt.ofWord_join]
  have l : (o.imm.extractLsb' 7 3 == 0 && o.imm.extractLsb' 5 2 == 2 && o.ga == 0 && o.gb == 0 && o.gc == 0 &&
      o.vd == 0 && o.va == 0 && o.vb == 0) = true := l
  simp only [Bool.and_eq_true, beq_iff_eq] at l
  have : o.imm.extractLsb' 5 2 = 2 := l.1.1.1.1.1.1.2
  show some (fctxOf o) = _
  unfold fctxOf
  rw [this]
  rfl

theorem fctxEvict (o : XFmt) : Statement (.fctxEvict o) := by
  intro h
  have l := Instr.fieldsLegal_of_wellFormed h
  refine decode_of_build (w := 0xA6#8 ++ 0x00#8 ++ o.pack) ?_ (zeroFieldOk_other _ _ _ (by decide)) l
  unfold build buildTile
  rw [opOf_join, fnOf_join, XFmt.ofWord_join]
  have l : (o.imm.extractLsb' 7 3 == 0 && o.imm.extractLsb' 5 2 == 3 && o.ga == 0 && o.gb == 0 && o.gc == 0 &&
      o.vd == 0 && o.va == 0 && o.vb == 0) = true := l
  simp only [Bool.and_eq_true, beq_iff_eq] at l
  have : o.imm.extractLsb' 5 2 = 3 := l.1.1.1.1.1.1.2
  show some (fctxOf o) = _
  unfold fctxOf
  rw [this]
  rfl

theorem fabricContextLoad (st : Nat) (slot : Nat) : Statement (.fabricContextLoad st slot) := fun h => nomatch h

theorem combContextServe (core : Nat) (lg : Nat) : Statement (.combContextServe core lg) := fun h => nomatch h

theorem fabricStall (core : Nat) (lg : Nat) (ctx : Nat) : Statement (.fabricStall core lg ctx) := fun h => nomatch h

theorem coalescingBufferFlush (core : Nat) (node : Nat) : Statement (.coalescingBufferFlush core node) := fun h => nomatch h

theorem wgcfg (o : GFmt) : Statement (.wgcfg o) := by
  intro h
  have l := Instr.fieldsLegal_of_wellFormed h
  refine decode_of_build (w := 0xB0#8 ++ 0x00#8 ++ o.pack) ?_ (zeroFieldOk_join _ _ o) l
  unfold build buildRing
  rw [opOf_join, fnOf_join, GFmt.ofWord_join]
  have : o.q = 0 := by simpa using (Bool.and_eq_true_iff.mp l).2
  rw [this]
  rfl

theorem wgcfgClose (o : GFmt) : Statement (.wgcfgClose o) := by
  intro h
  have l := Instr.fieldsLegal_of_wellFormed h
  refine decode_of_build (w := 0xB0#8 ++ 0x00#8 ++ o.pack) ?_ (zeroFieldOk_join _ _ o) l
  unfold build buildRing
  rw [opOf_join, fnOf_join, GFmt.ofWord_join]
  have : o.q = 1 := by simpa using (Bool.and_eq_true_iff.mp l).2
  rw [this]
  rfl

theorem wgcfgCloseComplete (st : Nat) : Statement (.wgcfgCloseComplete st) := fun h => nomatch h

theorem wgpair (o : GFmt) : Statement (.wgpair o) := by
  intro h
  refine decode_of_build (w := 0xB1#8 ++ 0x00#8 ++ o.pack) ?_ (zeroFieldOk_join _ _ o) (Instr.fieldsLegal_of_wellFormed h)
  unfold build buildRing
  rw [opOf_join, fnOf_join, GFmt.ofWord_join]
  rfl

theorem wginj (o : GFmt) : Statement (.wginj o) := by
  intro h
  refine decode_of_build (w := 0xB2#8 ++ 0x00#8 ++ o.pack) ?_ (zeroFieldOk_join _ _ o) (Instr.fieldsLegal_of_wellFormed h)
  unfold build buildRing
  rw [opOf_join, fnOf_join, GFmt.ofWord_join]
  rfl

theorem wgwait (o : GFmt) : Statement (.wgwait o) := by
  intro h
  refine decode_of_build (w := 0xB3#8 ++ 0x00#8 ++ o.pack) ?_ (zeroFieldOk_join _ _ o) (Instr.fieldsLegal_of_wellFormed h)
  unfold build buildRing
  rw [opOf_join, fnOf_join, GFmt.ofWord_join]
  rfl

theorem wgwaitWake (st : Nat) : Statement (.wgwaitWake st) := fun h => nomatch h

theorem wgdrain (o : GFmt) : Statement (.wgdrain o) := by
  intro h
  refine decode_of_build (w := 0xB4#8 ++ 0x00#8 ++ o.pack) ?_ (zeroFieldOk_join _ _ o) (Instr.fieldsLegal_of_wellFormed h)
  unfold build buildRing
  rw [opOf_join, fnOf_join, GFmt.ofWord_join]
  rfl

theorem wgdrainComplete (st : Nat) : Statement (.wgdrainComplete st) := fun h => nomatch h

theorem wgstat (o : GFmt) : Statement (.wgstat o) := by
  intro h
  refine decode_of_build (w := 0xB5#8 ++ 0x00#8 ++ o.pack) ?_ (zeroFieldOk_join _ _ o) (Instr.fieldsLegal_of_wellFormed h)
  unfold build buildRing
  rw [opOf_join, fnOf_join, GFmt.ofWord_join]
  rfl

theorem wgend (o : GFmt) : Statement (.wgend o) := by
  intro h
  refine decode_of_build (w := 0xB6#8 ++ 0x00#8 ++ o.pack) ?_ (zeroFieldOk_join _ _ o) (Instr.fieldsLegal_of_wellFormed h)
  unfold build buildRing
  rw [opOf_join, fnOf_join, GFmt.ofWord_join]
  rfl

theorem ringBeat (ring : Nat) : Statement (.ringBeat ring) := fun h => nomatch h

theorem ringStranded (ring : Nat) (session : Nat) : Statement (.ringStranded ring session) := fun h => nomatch h

theorem ringStuck (ring : Nat) (session : Nat) : Statement (.ringStuck ring session) := fun h => nomatch h

theorem xcopy (o : GFmt) : Statement (.xcopy o) := by
  intro h
  refine decode_of_build (w := 0xC0#8 ++ 0x00#8 ++ o.pack) ?_ (zeroFieldOk_join _ _ o) (Instr.fieldsLegal_of_wellFormed h)
  unfold build buildRing
  rw [opOf_join, fnOf_join, GFmt.ofWord_join]
  rfl

theorem xfill (o : GFmt) : Statement (.xfill o) := by
  intro h
  refine decode_of_build (w := 0xC1#8 ++ 0x00#8 ++ o.pack) ?_ (zeroFieldOk_join _ _ o) (Instr.fieldsLegal_of_wellFormed h)
  unfold build buildRing
  rw [opOf_join, fnOf_join, GFmt.ofWord_join]
  rfl

theorem xwait (o : GFmt) : Statement (.xwait o) := by
  intro h
  refine decode_of_build (w := 0xC2#8 ++ 0x00#8 ++ o.pack) ?_ (zeroFieldOk_join _ _ o) (Instr.fieldsLegal_of_wellFormed h)
  unfold build buildRing
  rw [opOf_join, fnOf_join, GFmt.ofWord_join]
  rfl

theorem xwaitWake (st : Nat) : Statement (.xwaitWake st) := fun h => nomatch h

theorem xztab (o : GFmt) : Statement (.xztab o) := by
  intro h
  refine decode_of_build (w := 0xC3#8 ++ 0x00#8 ++ o.pack) ?_ (zeroFieldOk_join _ _ o) (Instr.fieldsLegal_of_wellFormed h)
  unfold build buildRing
  rw [opOf_join, fnOf_join, GFmt.ofWord_join]
  rfl

theorem xzenc (o : GFmt) : Statement (.xzenc o) := by
  intro h
  refine decode_of_build (w := 0xC4#8 ++ 0x00#8 ++ o.pack) ?_ (zeroFieldOk_join _ _ o) (Instr.fieldsLegal_of_wellFormed h)
  unfold build buildRing
  rw [opOf_join, fnOf_join, GFmt.ofWord_join]
  rfl

theorem xseal (o : GFmt) : Statement (.xseal o) := by
  intro h
  refine decode_of_build (w := 0xC5#8 ++ 0x00#8 ++ o.pack) ?_ (zeroFieldOk_join _ _ o) (Instr.fieldsLegal_of_wellFormed h)
  unfold build buildRing
  rw [opOf_join, fnOf_join, GFmt.ofWord_join]
  rfl

theorem engineCommandStart (cmd : Nat) : Statement (.engineCommandStart cmd) := fun h => nomatch h

theorem copyChunk (cmd : Nat) : Statement (.copyChunk cmd) := fun h => nomatch h

theorem codecBlock (cmd : Nat) : Statement (.codecBlock cmd) := fun h => nomatch h

theorem xztabInstall (cmd : Nat) : Statement (.xztabInstall cmd) := fun h => nomatch h

theorem sealStamp (cmd : Nat) : Statement (.sealStamp cmd) := fun h => nomatch h

theorem commandCompletion (cmd : Nat) : Statement (.commandCompletion cmd) := fun h => nomatch h

theorem strandPlacement (core : Nat) (lg : Nat) : Statement (.strandPlacement core lg) := fun h => nomatch h

theorem queueHeadTagAllocation (st : Nat) : Statement (.queueHeadTagAllocation st) := fun h => nomatch h

theorem microOperationIssue (core : Nat) (lg : Nat) : Statement (.microOperationIssue core lg) := fun h => nomatch h

theorem egProduced (st : Nat) : Statement (.egProduced st) := fun h => nomatch h

theorem matrixUnitTake (core : Nat) : Statement (.matrixUnitTake core) := fun h => nomatch h

theorem matrixUnitLeave (core : Nat) : Statement (.matrixUnitLeave core) := fun h => nomatch h

theorem pageWalkComplete (die : Nat) : Statement (.pageWalkComplete die) := fun h => nomatch h

theorem llcRequestAdmit (slice : Nat) : Statement (.llcRequestAdmit slice) := fun h => nomatch h

theorem bucketRefill (slice : Nat) : Statement (.bucketRefill slice) := fun h => nomatch h

theorem l1DirtyTimeout (core : Nat) (line : Nat) : Statement (.l1DirtyTimeout core line) := fun h => nomatch h

theorem trapDelivery (st : Nat) : Statement (.trapDelivery st) := fun h => nomatch h

theorem yieldwinExpiry (st : Nat) : Statement (.yieldwinExpiry st) := fun h => nomatch h

theorem fullSave (st : Nat) : Statement (.fullSave st) := fun h => nomatch h

theorem resumption (st : Nat) : Statement (.resumption st) := fun h => nomatch h

theorem machineCheck (part : Nat) (info : Nat) (val : Word) : Statement (.machineCheck part info val) := fun h => nomatch h

theorem llcTagParityError (slice : Nat) : Statement (.llcTagParityError slice) := fun h => nomatch h

theorem correctedError (part : Nat) (info : Nat) : Statement (.correctedError part info) := fun h => nomatch h

theorem scrub : Statement .scrub := fun h => nomatch h

theorem hostAccess (write : Bool) (pa : Nat) (data : List Byte) : Statement (.hostAccess write pa data) := fun h => nomatch h

theorem remoteAccess (kind : RemoteKind) (entry : Nat) (offset : BitVec 52) : Statement (.remoteAccess kind entry offset) := fun h => nomatch h

theorem peerLinkDown (port : Nat) : Statement (.peerLinkDown port) := fun h => nomatch h

theorem powerSample (m : PowerDraw) : Statement (.powerSample m) := fun h => nomatch h

theorem grantRaise (m : PowerDraw) : Statement (.grantRaise m) := fun h => nomatch h

theorem issueDuty (m : PowerDraw) (k : Nat) : Statement (.issueDuty m k) := fun h => nomatch h

theorem createRoot : Statement .createRoot := fun h => nomatch h

theorem destroyRoot : Statement .destroyRoot := fun h => nomatch h

theorem bindVf : Statement .bindVf := fun h => nomatch h

theorem unbindVf : Statement .unbindVf := fun h => nomatch h

theorem sealRange : Statement .sealRange := fun h => nomatch h

theorem unsealRange : Statement .unsealRange := fun h => nomatch h

theorem peerMap : Statement .peerMap := fun h => nomatch h

theorem powerCap : Statement .powerCap := fun h => nomatch h

theorem migrate : Statement .migrate := fun h => nomatch h

theorem rootHret : Statement .rootHret := fun h => nomatch h

theorem readCounts : Statement .readCounts := fun h => nomatch h

theorem importEntry : Statement .importEntry := fun h => nomatch h

theorem powerUp : Statement .powerUp := fun h => nomatch h

theorem moduleReset : Statement .moduleReset := fun h => nomatch h

theorem go (value : BitVec 32) : Statement (.go value) := fun h => nomatch h

theorem bootWindowWrite (offset : Nat) (data : List Byte) : Statement (.bootWindowWrite offset data) := fun h => nomatch h

theorem firmwareImageVerify : Statement .firmwareImageVerify := fun h => nomatch h

theorem firmwareTrainingComplete (reason : Nat) : Statement (.firmwareTrainingComplete reason) := fun h => nomatch h

theorem hostInvalidation (pa : Nat) (data : List Byte) : Statement (.hostInvalidation pa data) := fun h => nomatch h

theorem unknownCodeRequest : Statement .unknownCodeRequest := fun h => nomatch h

end Sys2Proof.Laws.Encoding
end

