-- ==== Sys2Proof/Laws/State.lean ====
section
/-! SUPPORT. What each update of the state leaves as it was: one lemma per field and update, so that no proof opens a record
update; and what the updates write. -/

namespace Sys2Proof.Machine

@[simp] theorem State.setStrand_mem (s : State) (k : Nat) (t : Strand) : (s.setStrand k t).mem = s.mem := rfl
@[simp] theorem State.setStrand_cores (s : State) (k : Nat) (t : Strand) : (s.setStrand k t).cores = s.cores := rfl
@[simp] theorem State.setStrand_rings (s : State) (k : Nat) (t : Strand) : (s.setStrand k t).rings = s.rings := rfl
@[simp] theorem State.setStrand_hives (s : State) (k : Nat) (t : Strand) : (s.setStrand k t).hives = s.hives := rfl
@[simp] theorem State.setStrand_parts (s : State) (k : Nat) (t : Strand) : (s.setStrand k t).parts = s.parts := rfl
@[simp] theorem State.setStrand_cmds (s : State) (k : Nat) (t : Strand) : (s.setStrand k t).cmds = s.cmds := rfl
@[simp] theorem State.setStrand_llc (s : State) (k : Nat) (t : Strand) : (s.setStrand k t).llc = s.llc := rfl
@[simp] theorem State.setStrand_walks (s : State) (k : Nat) (t : Strand) : (s.setStrand k t).walks = s.walks := rfl
@[simp] theorem State.setStrand_imports (s : State) (k : Nat) (t : Strand) : (s.setStrand k t).imports = s.imports := rfl
@[simp] theorem State.setStrand_vfs (s : State) (k : Nat) (t : Strand) : (s.setStrand k t).vfs = s.vfs := rfl
@[simp] theorem State.setStrand_powerLimit (s : State) (k : Nat) (t : Strand) : (s.setStrand k t).powerLimit = s.powerLimit := rfl
@[simp] theorem State.setStrand_linksDown (s : State) (k : Nat) (t : Strand) : (s.setStrand k t).linksDown = s.linksDown := rfl
@[simp] theorem State.setStrand_boot (s : State) (k : Nat) (t : Strand) : (s.setStrand k t).boot = s.boot := rfl
@[simp] theorem State.setStrand_lastStrandId (s : State) (k : Nat) (t : Strand) : (s.setStrand k t).lastStrandId = s.lastStrandId := rfl
@[simp] theorem State.setStrand_corrected (s : State) (k : Nat) (t : Strand) : (s.setStrand k t).corrected = s.corrected := rfl
@[simp] theorem State.setStrand_uncorrected (s : State) (k : Nat) (t : Strand) : (s.setStrand k t).uncorrected = s.uncorrected := rfl
@[simp] theorem State.setStrand_refusedHost (s : State) (k : Nat) (t : Strand) : (s.setStrand k t).refusedHost = s.refusedHost := rfl
@[simp] theorem State.setStrand_interrupts (s : State) (k : Nat) (t : Strand) : (s.setStrand k t).interrupts = s.interrupts := rfl
@[simp] theorem State.setStrand_reply (s : State) (k : Nat) (t : Strand) : (s.setStrand k t).reply = s.reply := rfl
@[simp] theorem State.setStrand_cur (s : State) (k : Nat) (t : Strand) : (s.setStrand k t).cur = s.cur := rfl
@[simp] theorem State.setStrand_coreTurn (s : State) (k : Nat) (t : Strand) : (s.setStrand k t).coreTurn = s.coreTurn := rfl
@[simp] theorem State.setStrand_deviceTurn (s : State) (k : Nat) (t : Strand) : (s.setStrand k t).deviceTurn = s.deviceTurn := rfl
@[simp] theorem State.setStrand_eventTurn (s : State) (k : Nat) (t : Strand) : (s.setStrand k t).eventTurn = s.eventTurn := rfl
@[simp] theorem State.setStrand_stalled (s : State) (k : Nat) (t : Strand) : (s.setStrand k t).stalled = s.stalled := rfl
@[simp] theorem State.setStrand_eager (s : State) (k : Nat) (t : Strand) : (s.setStrand k t).eager = s.eager := rfl
@[simp] theorem State.setStrand_nextCmd (s : State) (k : Nat) (t : Strand) : (s.setStrand k t).nextCmd = s.nextCmd := rfl
@[simp] theorem State.setStrand_nextArrival (s : State) (k : Nat) (t : Strand) : (s.setStrand k t).nextArrival = s.nextArrival := rfl
@[simp] theorem State.setStrand_nextTicket (s : State) (k : Nat) (t : Strand) : (s.setStrand k t).nextTicket = s.nextTicket := rfl
@[simp] theorem State.setStrand_freeCount (s : State) (k : Nat) (t : Strand) : (s.setStrand k t).freeCount = s.freeCount := rfl
@[simp] theorem State.setStrand_inbox (s : State) (k : Nat) (t : Strand) : (s.setStrand k t).inbox = s.inbox := rfl

@[simp] theorem State.modStrand_mem (s : State) (k : Nat) (f : Strand → Strand) : (s.modStrand k f).mem = s.mem := rfl
@[simp] theorem State.modStrand_cores (s : State) (k : Nat) (f : Strand → Strand) : (s.modStrand k f).cores = s.cores := rfl
@[simp] theorem State.modStrand_rings (s : State) (k : Nat) (f : Strand → Strand) : (s.modStrand k f).rings = s.rings := rfl
@[simp] theorem State.modStrand_hives (s : State) (k : Nat) (f : Strand → Strand) : (s.modStrand k f).hives = s.hives := rfl
@[simp] theorem State.modStrand_parts (s : State) (k : Nat) (f : Strand → Strand) : (s.modStrand k f).parts = s.parts := rfl
@[simp] theorem State.modStrand_cmds (s : State) (k : Nat) (f : Strand → Strand) : (s.modStrand k f).cmds = s.cmds := rfl
@[simp] theorem State.modStrand_llc (s : State) (k : Nat) (f : Strand → Strand) : (s.modStrand k f).llc = s.llc := rfl
@[simp] theorem State.modStrand_walks (s : State) (k : Nat) (f : Strand → Strand) : (s.modStrand k f).walks = s.walks := rfl
@[simp] theorem State.modStrand_imports (s : State) (k : Nat) (f : Strand → Strand) : (s.modStrand k f).imports = s.imports := rfl
@[simp] theorem State.modStrand_vfs (s : State) (k : Nat) (f : Strand → Strand) : (s.modStrand k f).vfs = s.vfs := rfl
@[simp] theorem State.modStrand_powerLimit (s : State) (k : Nat) (f : Strand → Strand) : (s.modStrand k f).powerLimit = s.powerLimit := rfl
@[simp] theorem State.modStrand_linksDown (s : State) (k : Nat) (f : Strand → Strand) : (s.modStrand k f).linksDown = s.linksDown := rfl
@[simp] theorem State.modStrand_boot (s : State) (k : Nat) (f : Strand → Strand) : (s.modStrand k f).boot = s.boot := rfl
@[simp] theorem State.modStrand_lastStrandId (s : State) (k : Nat) (f : Strand → Strand) : (s.modStrand k f).lastStrandId = s.lastStrandId := rfl
@[simp] theorem State.modStrand_corrected (s : State) (k : Nat) (f : Strand → Strand) : (s.modStrand k f).corrected = s.corrected := rfl
@[simp] theorem State.modStrand_uncorrected (s : State) (k : Nat) (f : Strand → Strand) : (s.modStrand k f).uncorrected = s.uncorrected := rfl
@[simp] theorem State.modStrand_refusedHost (s : State) (k : Nat) (f : Strand → Strand) : (s.modStrand k f).refusedHost = s.refusedHost := rfl
@[simp] theorem State.modStrand_interrupts (s : State) (k : Nat) (f : Strand → Strand) : (s.modStrand k f).interrupts = s.interrupts := rfl
@[simp] theorem State.modStrand_reply (s : State) (k : Nat) (f : Strand → Strand) : (s.modStrand k f).reply = s.reply := rfl
@[simp] theorem State.modStrand_cur (s : State) (k : Nat) (f : Strand → Strand) : (s.modStrand k f).cur = s.cur := rfl
@[simp] theorem State.modStrand_coreTurn (s : State) (k : Nat) (f : Strand → Strand) : (s.modStrand k f).coreTurn = s.coreTurn := rfl
@[simp] theorem State.modStrand_deviceTurn (s : State) (k : Nat) (f : Strand → Strand) : (s.modStrand k f).deviceTurn = s.deviceTurn := rfl
@[simp] theorem State.modStrand_eventTurn (s : State) (k : Nat) (f : Strand → Strand) : (s.modStrand k f).eventTurn = s.eventTurn := rfl
@[simp] theorem State.modStrand_stalled (s : State) (k : Nat) (f : Strand → Strand) : (s.modStrand k f).stalled = s.stalled := rfl
@[simp] theorem State.modStrand_eager (s : State) (k : Nat) (f : Strand → Strand) : (s.modStrand k f).eager = s.eager := rfl
@[simp] theorem State.modStrand_nextCmd (s : State) (k : Nat) (f : Strand → Strand) : (s.modStrand k f).nextCmd = s.nextCmd := rfl
@[simp] theorem State.modStrand_nextArrival (s : State) (k : Nat) (f : Strand → Strand) : (s.modStrand k f).nextArrival = s.nextArrival := rfl
@[simp] theorem State.modStrand_nextTicket (s : State) (k : Nat) (f : Strand → Strand) : (s.modStrand k f).nextTicket = s.nextTicket := rfl
@[simp] theorem State.modStrand_freeCount (s : State) (k : Nat) (f : Strand → Strand) : (s.modStrand k f).freeCount = s.freeCount := rfl
@[simp] theorem State.modStrand_inbox (s : State) (k : Nat) (f : Strand → Strand) : (s.modStrand k f).inbox = s.inbox := rfl

@[simp] theorem State.setMe_mem (s : State) (t : Strand) : (s.setMe t).mem = s.mem := rfl
@[simp] theorem State.setMe_cores (s : State) (t : Strand) : (s.setMe t).cores = s.cores := rfl
@[simp] theorem State.setMe_rings (s : State) (t : Strand) : (s.setMe t).rings = s.rings := rfl
@[simp] theorem State.setMe_hives (s : State) (t : Strand) : (s.setMe t).hives = s.hives := rfl
@[simp] theorem State.setMe_parts (s : State) (t : Strand) : (s.setMe t).parts = s.parts := rfl
@[simp] theorem State.setMe_cmds (s : State) (t : Strand) : (s.setMe t).cmds = s.cmds := rfl
@[simp] theorem State.setMe_llc (s : State) (t : Strand) : (s.setMe t).llc = s.llc := rfl
@[simp] theorem State.setMe_walks (s : State) (t : Strand) : (s.setMe t).walks = s.walks := rfl
@[simp] theorem State.setMe_imports (s : State) (t : Strand) : (s.setMe t).imports = s.imports := rfl
@[simp] theorem State.setMe_vfs (s : State) (t : Strand) : (s.setMe t).vfs = s.vfs := rfl
@[simp] theorem State.setMe_powerLimit (s : State) (t : Strand) : (s.setMe t).powerLimit = s.powerLimit := rfl
@[simp] theorem State.setMe_linksDown (s : State) (t : Strand) : (s.setMe t).linksDown = s.linksDown := rfl
@[simp] theorem State.setMe_boot (s : State) (t : Strand) : (s.setMe t).boot = s.boot := rfl
@[simp] theorem State.setMe_lastStrandId (s : State) (t : Strand) : (s.setMe t).lastStrandId = s.lastStrandId := rfl
@[simp] theorem State.setMe_corrected (s : State) (t : Strand) : (s.setMe t).corrected = s.corrected := rfl
@[simp] theorem State.setMe_uncorrected (s : State) (t : Strand) : (s.setMe t).uncorrected = s.uncorrected := rfl
@[simp] theorem State.setMe_refusedHost (s : State) (t : Strand) : (s.setMe t).refusedHost = s.refusedHost := rfl
@[simp] theorem State.setMe_interrupts (s : State) (t : Strand) : (s.setMe t).interrupts = s.interrupts := rfl
@[simp] theorem State.setMe_reply (s : State) (t : Strand) : (s.setMe t).reply = s.reply := rfl
@[simp] theorem State.setMe_cur (s : State) (t : Strand) : (s.setMe t).cur = s.cur := rfl
@[simp] theorem State.setMe_coreTurn (s : State) (t : Strand) : (s.setMe t).coreTurn = s.coreTurn := rfl
@[simp] theorem State.setMe_deviceTurn (s : State) (t : Strand) : (s.setMe t).deviceTurn = s.deviceTurn := rfl
@[simp] theorem State.setMe_eventTurn (s : State) (t : Strand) : (s.setMe t).eventTurn = s.eventTurn := rfl
@[simp] theorem State.setMe_stalled (s : State) (t : Strand) : (s.setMe t).stalled = s.stalled := rfl
@[simp] theorem State.setMe_eager (s : State) (t : Strand) : (s.setMe t).eager = s.eager := rfl
@[simp] theorem State.setMe_nextCmd (s : State) (t : Strand) : (s.setMe t).nextCmd = s.nextCmd := rfl
@[simp] theorem State.setMe_nextArrival (s : State) (t : Strand) : (s.setMe t).nextArrival = s.nextArrival := rfl
@[simp] theorem State.setMe_nextTicket (s : State) (t : Strand) : (s.setMe t).nextTicket = s.nextTicket := rfl
@[simp] theorem State.setMe_freeCount (s : State) (t : Strand) : (s.setMe t).freeCount = s.freeCount := rfl
@[simp] theorem State.setMe_inbox (s : State) (t : Strand) : (s.setMe t).inbox = s.inbox := rfl

@[simp] theorem State.modMe_mem (s : State) (f : Strand → Strand) : (s.modMe f).mem = s.mem := rfl
@[simp] theorem State.modMe_cores (s : State) (f : Strand → Strand) : (s.modMe f).cores = s.cores := rfl
@[simp] theorem State.modMe_rings (s : State) (f : Strand → Strand) : (s.modMe f).rings = s.rings := rfl
@[simp] theorem State.modMe_hives (s : State) (f : Strand → Strand) : (s.modMe f).hives = s.hives := rfl
@[simp] theorem State.modMe_parts (s : State) (f : Strand → Strand) : (s.modMe f).parts = s.parts := rfl
@[simp] theorem State.modMe_cmds (s : State) (f : Strand → Strand) : (s.modMe f).cmds = s.cmds := rfl
@[simp] theorem State.modMe_llc (s : State) (f : Strand → Strand) : (s.modMe f).llc = s.llc := rfl
@[simp] theorem State.modMe_walks (s : State) (f : Strand → Strand) : (s.modMe f).walks = s.walks := rfl
@[simp] theorem State.modMe_imports (s : State) (f : Strand → Strand) : (s.modMe f).imports = s.imports := rfl
@[simp] theorem State.modMe_vfs (s : State) (f : Strand → Strand) : (s.modMe f).vfs = s.vfs := rfl
@[simp] theorem State.modMe_powerLimit (s : State) (f : Strand → Strand) : (s.modMe f).powerLimit = s.powerLimit := rfl
@[simp] theorem State.modMe_linksDown (s : State) (f : Strand → Strand) : (s.modMe f).linksDown = s.linksDown := rfl
@[simp] theorem State.modMe_boot (s : State) (f : Strand → Strand) : (s.modMe f).boot = s.boot := rfl
@[simp] theorem State.modMe_lastStrandId (s : State) (f : Strand → Strand) : (s.modMe f).lastStrandId = s.lastStrandId := rfl
@[simp] theorem State.modMe_corrected (s : State) (f : Strand → Strand) : (s.modMe f).corrected = s.corrected := rfl
@[simp] theorem State.modMe_uncorrected (s : State) (f : Strand → Strand) : (s.modMe f).uncorrected = s.uncorrected := rfl
@[simp] theorem State.modMe_refusedHost (s : State) (f : Strand → Strand) : (s.modMe f).refusedHost = s.refusedHost := rfl
@[simp] theorem State.modMe_interrupts (s : State) (f : Strand → Strand) : (s.modMe f).interrupts = s.interrupts := rfl
@[simp] theorem State.modMe_reply (s : State) (f : Strand → Strand) : (s.modMe f).reply = s.reply := rfl
@[simp] theorem State.modMe_cur (s : State) (f : Strand → Strand) : (s.modMe f).cur = s.cur := rfl
@[simp] theorem State.modMe_coreTurn (s : State) (f : Strand → Strand) : (s.modMe f).coreTurn = s.coreTurn := rfl
@[simp] theorem State.modMe_deviceTurn (s : State) (f : Strand → Strand) : (s.modMe f).deviceTurn = s.deviceTurn := rfl
@[simp] theorem State.modMe_eventTurn (s : State) (f : Strand → Strand) : (s.modMe f).eventTurn = s.eventTurn := rfl
@[simp] theorem State.modMe_stalled (s : State) (f : Strand → Strand) : (s.modMe f).stalled = s.stalled := rfl
@[simp] theorem State.modMe_eager (s : State) (f : Strand → Strand) : (s.modMe f).eager = s.eager := rfl
@[simp] theorem State.modMe_nextCmd (s : State) (f : Strand → Strand) : (s.modMe f).nextCmd = s.nextCmd := rfl
@[simp] theorem State.modMe_nextArrival (s : State) (f : Strand → Strand) : (s.modMe f).nextArrival = s.nextArrival := rfl
@[simp] theorem State.modMe_nextTicket (s : State) (f : Strand → Strand) : (s.modMe f).nextTicket = s.nextTicket := rfl
@[simp] theorem State.modMe_freeCount (s : State) (f : Strand → Strand) : (s.modMe f).freeCount = s.freeCount := rfl
@[simp] theorem State.modMe_inbox (s : State) (f : Strand → Strand) : (s.modMe f).inbox = s.inbox := rfl

@[simp] theorem State.modCore_mem (s : State) (c : Nat) (f : Core → Core) : (s.modCore c f).mem = s.mem := rfl
@[simp] theorem State.modCore_rings (s : State) (c : Nat) (f : Core → Core) : (s.modCore c f).rings = s.rings := rfl
@[simp] theorem State.modCore_strands (s : State) (c : Nat) (f : Core → Core) : (s.modCore c f).strands = s.strands := rfl
@[simp] theorem State.modCore_hives (s : State) (c : Nat) (f : Core → Core) : (s.modCore c f).hives = s.hives := rfl
@[simp] theorem State.modCore_parts (s : State) (c : Nat) (f : Core → Core) : (s.modCore c f).parts = s.parts := rfl
@[simp] theorem State.modCore_cmds (s : State) (c : Nat) (f : Core → Core) : (s.modCore c f).cmds = s.cmds := rfl
@[simp] theorem State.modCore_llc (s : State) (c : Nat) (f : Core → Core) : (s.modCore c f).llc = s.llc := rfl
@[simp] theorem State.modCore_walks (s : State) (c : Nat) (f : Core → Core) : (s.modCore c f).walks = s.walks := rfl
@[simp] theorem State.modCore_imports (s : State) (c : Nat) (f : Core → Core) : (s.modCore c f).imports = s.imports := rfl
@[simp] theorem State.modCore_vfs (s : State) (c : Nat) (f : Core → Core) : (s.modCore c f).vfs = s.vfs := rfl
@[simp] theorem State.modCore_powerLimit (s : State) (c : Nat) (f : Core → Core) : (s.modCore c f).powerLimit = s.powerLimit := rfl
@[simp] theorem State.modCore_linksDown (s : State) (c : Nat) (f : Core → Core) : (s.modCore c f).linksDown = s.linksDown := rfl
@[simp] theorem State.modCore_boot (s : State) (c : Nat) (f : Core → Core) : (s.modCore c f).boot = s.boot := rfl
@[simp] theorem State.modCore_lastStrandId (s : State) (c : Nat) (f : Core → Core) : (s.modCore c f).lastStrandId = s.lastStrandId := rfl
@[simp] theorem State.modCore_corrected (s : State) (c : Nat) (f : Core → Core) : (s.modCore c f).corrected = s.corrected := rfl
@[simp] theorem State.modCore_uncorrected (s : State) (c : Nat) (f : Core → Core) : (s.modCore c f).uncorrected = s.uncorrected := rfl
@[simp] theorem State.modCore_refusedHost (s : State) (c : Nat) (f : Core → Core) : (s.modCore c f).refusedHost = s.refusedHost := rfl
@[simp] theorem State.modCore_interrupts (s : State) (c : Nat) (f : Core → Core) : (s.modCore c f).interrupts = s.interrupts := rfl
@[simp] theorem State.modCore_reply (s : State) (c : Nat) (f : Core → Core) : (s.modCore c f).reply = s.reply := rfl
@[simp] theorem State.modCore_cur (s : State) (c : Nat) (f : Core → Core) : (s.modCore c f).cur = s.cur := rfl
@[simp] theorem State.modCore_coreTurn (s : State) (c : Nat) (f : Core → Core) : (s.modCore c f).coreTurn = s.coreTurn := rfl
@[simp] theorem State.modCore_deviceTurn (s : State) (c : Nat) (f : Core → Core) : (s.modCore c f).deviceTurn = s.deviceTurn := rfl
@[simp] theorem State.modCore_eventTurn (s : State) (c : Nat) (f : Core → Core) : (s.modCore c f).eventTurn = s.eventTurn := rfl
@[simp] theorem State.modCore_stalled (s : State) (c : Nat) (f : Core → Core) : (s.modCore c f).stalled = s.stalled := rfl
@[simp] theorem State.modCore_eager (s : State) (c : Nat) (f : Core → Core) : (s.modCore c f).eager = s.eager := rfl
@[simp] theorem State.modCore_nextCmd (s : State) (c : Nat) (f : Core → Core) : (s.modCore c f).nextCmd = s.nextCmd := rfl
@[simp] theorem State.modCore_nextArrival (s : State) (c : Nat) (f : Core → Core) : (s.modCore c f).nextArrival = s.nextArrival := rfl
@[simp] theorem State.modCore_nextTicket (s : State) (c : Nat) (f : Core → Core) : (s.modCore c f).nextTicket = s.nextTicket := rfl
@[simp] theorem State.modCore_freeCount (s : State) (c : Nat) (f : Core → Core) : (s.modCore c f).freeCount = s.freeCount := rfl
@[simp] theorem State.modCore_inbox (s : State) (c : Nat) (f : Core → Core) : (s.modCore c f).inbox = s.inbox := rfl

@[simp] theorem State.modRing_mem (s : State) (r : Nat) (f : Ring → Ring) : (s.modRing r f).mem = s.mem := rfl
@[simp] theorem State.modRing_cores (s : State) (r : Nat) (f : Ring → Ring) : (s.modRing r f).cores = s.cores := rfl
@[simp] theorem State.modRing_strands (s : State) (r : Nat) (f : Ring → Ring) : (s.modRing r f).strands = s.strands := rfl
@[simp] theorem State.modRing_hives (s : State) (r : Nat) (f : Ring → Ring) : (s.modRing r f).hives = s.hives := rfl
@[simp] theorem State.modRing_parts (s : State) (r : Nat) (f : Ring → Ring) : (s.modRing r f).parts = s.parts := rfl
@[simp] theorem State.modRing_cmds (s : State) (r : Nat) (f : Ring → Ring) : (s.modRing r f).cmds = s.cmds := rfl
@[simp] theorem State.modRing_llc (s : State) (r : Nat) (f : Ring → Ring) : (s.modRing r f).llc = s.llc := rfl
@[simp] theorem State.modRing_walks (s : State) (r : Nat) (f : Ring → Ring) : (s.modRing r f).walks = s.walks := rfl
@[simp] theorem State.modRing_imports (s : State) (r : Nat) (f : Ring → Ring) : (s.modRing r f).imports = s.imports := rfl
@[simp] theorem State.modRing_vfs (s : State) (r : Nat) (f : Ring → Ring) : (s.modRing r f).vfs = s.vfs := rfl
@[simp] theorem State.modRing_powerLimit (s : State) (r : Nat) (f : Ring → Ring) : (s.modRing r f).powerLimit = s.powerLimit := rfl
@[simp] theorem State.modRing_linksDown (s : State) (r : Nat) (f : Ring → Ring) : (s.modRing r f).linksDown = s.linksDown := rfl
@[simp] theorem State.modRing_boot (s : State) (r : Nat) (f : Ring → Ring) : (s.modRing r f).boot = s.boot := rfl
@[simp] theorem State.modRing_lastStrandId (s : State) (r : Nat) (f : Ring → Ring) : (s.modRing r f).lastStrandId = s.lastStrandId := rfl
@[simp] theorem State.modRing_corrected (s : State) (r : Nat) (f : Ring → Ring) : (s.modRing r f).corrected = s.corrected := rfl
@[simp] theorem State.modRing_uncorrected (s : State) (r : Nat) (f : Ring → Ring) : (s.modRing r f).uncorrected = s.uncorrected := rfl
@[simp] theorem State.modRing_refusedHost (s : State) (r : Nat) (f : Ring → Ring) : (s.modRing r f).refusedHost = s.refusedHost := rfl
@[simp] theorem State.modRing_interrupts (s : State) (r : Nat) (f : Ring → Ring) : (s.modRing r f).interrupts = s.interrupts := rfl
@[simp] theorem State.modRing_reply (s : State) (r : Nat) (f : Ring → Ring) : (s.modRing r f).reply = s.reply := rfl
@[simp] theorem State.modRing_cur (s : State) (r : Nat) (f : Ring → Ring) : (s.modRing r f).cur = s.cur := rfl
@[simp] theorem State.modRing_coreTurn (s : State) (r : Nat) (f : Ring → Ring) : (s.modRing r f).coreTurn = s.coreTurn := rfl
@[simp] theorem State.modRing_deviceTurn (s : State) (r : Nat) (f : Ring → Ring) : (s.modRing r f).deviceTurn = s.deviceTurn := rfl
@[simp] theorem State.modRing_eventTurn (s : State) (r : Nat) (f : Ring → Ring) : (s.modRing r f).eventTurn = s.eventTurn := rfl
@[simp] theorem State.modRing_stalled (s : State) (r : Nat) (f : Ring → Ring) : (s.modRing r f).stalled = s.stalled := rfl
@[simp] theorem State.modRing_eager (s : State) (r : Nat) (f : Ring → Ring) : (s.modRing r f).eager = s.eager := rfl
@[simp] theorem State.modRing_nextCmd (s : State) (r : Nat) (f : Ring → Ring) : (s.modRing r f).nextCmd = s.nextCmd := rfl
@[simp] theorem State.modRing_nextArrival (s : State) (r : Nat) (f : Ring → Ring) : (s.modRing r f).nextArrival = s.nextArrival := rfl
@[simp] theorem State.modRing_nextTicket (s : State) (r : Nat) (f : Ring → Ring) : (s.modRing r f).nextTicket = s.nextTicket := rfl
@[simp] theorem State.modRing_freeCount (s : State) (r : Nat) (f : Ring → Ring) : (s.modRing r f).freeCount = s.freeCount := rfl
@[simp] theorem State.modRing_inbox (s : State) (r : Nat) (f : Ring → Ring) : (s.modRing r f).inbox = s.inbox := rfl

@[simp] theorem State.modPart_mem (s : State) (n : Nat) (f : Partition → Partition) : (s.modPart n f).mem = s.mem := rfl
@[simp] theorem State.modPart_cores (s : State) (n : Nat) (f : Partition → Partition) : (s.modPart n f).cores = s.cores := rfl
@[simp] theorem State.modPart_rings (s : State) (n : Nat) (f : Partition → Partition) : (s.modPart n f).rings = s.rings := rfl
@[simp] theorem State.modPart_strands (s : State) (n : Nat) (f : Partition → Partition) : (s.modPart n f).strands = s.strands := rfl
@[simp] theorem State.modPart_hives (s : State) (n : Nat) (f : Partition → Partition) : (s.modPart n f).hives = s.hives := rfl
@[simp] theorem State.modPart_cmds (s : State) (n : Nat) (f : Partition → Partition) : (s.modPart n f).cmds = s.cmds := rfl
@[simp] theorem State.modPart_llc (s : State) (n : Nat) (f : Partition → Partition) : (s.modPart n f).llc = s.llc := rfl
@[simp] theorem State.modPart_walks (s : State) (n : Nat) (f : Partition → Partition) : (s.modPart n f).walks = s.walks := rfl
@[simp] theorem State.modPart_imports (s : State) (n : Nat) (f : Partition → Partition) : (s.modPart n f).imports = s.imports := rfl
@[simp] theorem State.modPart_vfs (s : State) (n : Nat) (f : Partition → Partition) : (s.modPart n f).vfs = s.vfs := rfl
@[simp] theorem State.modPart_powerLimit (s : State) (n : Nat) (f : Partition → Partition) : (s.modPart n f).powerLimit = s.powerLimit := rfl
@[simp] theorem State.modPart_linksDown (s : State) (n : Nat) (f : Partition → Partition) : (s.modPart n f).linksDown = s.linksDown := rfl
@[simp] theorem State.modPart_boot (s : State) (n : Nat) (f : Partition → Partition) : (s.modPart n f).boot = s.boot := rfl
@[simp] theorem State.modPart_lastStrandId (s : State) (n : Nat) (f : Partition → Partition) : (s.modPart n f).lastStrandId = s.lastStrandId := rfl
@[simp] theorem State.modPart_corrected (s : State) (n : Nat) (f : Partition → Partition) : (s.modPart n f).corrected = s.corrected := rfl
@[simp] theorem State.modPart_uncorrected (s : State) (n : Nat) (f : Partition → Partition) : (s.modPart n f).uncorrected = s.uncorrected := rfl
@[simp] theorem State.modPart_refusedHost (s : State) (n : Nat) (f : Partition → Partition) : (s.modPart n f).refusedHost = s.refusedHost := rfl
@[simp] theorem State.modPart_interrupts (s : State) (n : Nat) (f : Partition → Partition) : (s.modPart n f).interrupts = s.interrupts := rfl
@[simp] theorem State.modPart_reply (s : State) (n : Nat) (f : Partition → Partition) : (s.modPart n f).reply = s.reply := rfl
@[simp] theorem State.modPart_cur (s : State) (n : Nat) (f : Partition → Partition) : (s.modPart n f).cur = s.cur := rfl
@[simp] theorem State.modPart_coreTurn (s : State) (n : Nat) (f : Partition → Partition) : (s.modPart n f).coreTurn = s.coreTurn := rfl
@[simp] theorem State.modPart_deviceTurn (s : State) (n : Nat) (f : Partition → Partition) : (s.modPart n f).deviceTurn = s.deviceTurn := rfl
@[simp] theorem State.modPart_eventTurn (s : State) (n : Nat) (f : Partition → Partition) : (s.modPart n f).eventTurn = s.eventTurn := rfl
@[simp] theorem State.modPart_stalled (s : State) (n : Nat) (f : Partition → Partition) : (s.modPart n f).stalled = s.stalled := rfl
@[simp] theorem State.modPart_eager (s : State) (n : Nat) (f : Partition → Partition) : (s.modPart n f).eager = s.eager := rfl
@[simp] theorem State.modPart_nextCmd (s : State) (n : Nat) (f : Partition → Partition) : (s.modPart n f).nextCmd = s.nextCmd := rfl
@[simp] theorem State.modPart_nextArrival (s : State) (n : Nat) (f : Partition → Partition) : (s.modPart n f).nextArrival = s.nextArrival := rfl
@[simp] theorem State.modPart_nextTicket (s : State) (n : Nat) (f : Partition → Partition) : (s.modPart n f).nextTicket = s.nextTicket := rfl
@[simp] theorem State.modPart_freeCount (s : State) (n : Nat) (f : Partition → Partition) : (s.modPart n f).freeCount = s.freeCount := rfl
@[simp] theorem State.modPart_inbox (s : State) (n : Nat) (f : Partition → Partition) : (s.modPart n f).inbox = s.inbox := rfl

@[simp] theorem State.modHive_mem (s : State) (h : Nat) (f : Hive → Hive) : (s.modHive h f).mem = s.mem := rfl
@[simp] theorem State.modHive_cores (s : State) (h : Nat) (f : Hive → Hive) : (s.modHive h f).cores = s.cores := rfl
@[simp] theorem State.modHive_rings (s : State) (h : Nat) (f : Hive → Hive) : (s.modHive h f).rings = s.rings := rfl
@[simp] theorem State.modHive_strands (s : State) (h : Nat) (f : Hive → Hive) : (s.modHive h f).strands = s.strands := rfl
@[simp] theorem State.modHive_parts (s : State) (h : Nat) (f : Hive → Hive) : (s.modHive h f).parts = s.parts := rfl
@[simp] theorem State.modHive_cmds (s : State) (h : Nat) (f : Hive → Hive) : (s.modHive h f).cmds = s.cmds := rfl
@[simp] theorem State.modHive_llc (s : State) (h : Nat) (f : Hive → Hive) : (s.modHive h f).llc = s.llc := rfl
@[simp] theorem State.modHive_walks (s : State) (h : Nat) (f : Hive → Hive) : (s.modHive h f).walks = s.walks := rfl
@[simp] theorem State.modHive_imports (s : State) (h : Nat) (f : Hive → Hive) : (s.modHive h f).imports = s.imports := rfl
@[simp] theorem State.modHive_vfs (s : State) (h : Nat) (f : Hive → Hive) : (s.modHive h f).vfs = s.vfs := rfl
@[simp] theorem State.modHive_powerLimit (s : State) (h : Nat) (f : Hive → Hive) : (s.modHive h f).powerLimit = s.powerLimit := rfl
@[simp] theorem State.modHive_linksDown (s : State) (h : Nat) (f : Hive → Hive) : (s.modHive h f).linksDown = s.linksDown := rfl
@[simp] theorem State.modHive_boot (s : State) (h : Nat) (f : Hive → Hive) : (s.modHive h f).boot = s.boot := rfl
@[simp] theorem State.modHive_lastStrandId (s : State) (h : Nat) (f : Hive → Hive) : (s.modHive h f).lastStrandId = s.lastStrandId := rfl
@[simp] theorem State.modHive_corrected (s : State) (h : Nat) (f : Hive → Hive) : (s.modHive h f).corrected = s.corrected := rfl
@[simp] theorem State.modHive_uncorrected (s : State) (h : Nat) (f : Hive → Hive) : (s.modHive h f).uncorrected = s.uncorrected := rfl
@[simp] theorem State.modHive_refusedHost (s : State) (h : Nat) (f : Hive → Hive) : (s.modHive h f).refusedHost = s.refusedHost := rfl
@[simp] theorem State.modHive_interrupts (s : State) (h : Nat) (f : Hive → Hive) : (s.modHive h f).interrupts = s.interrupts := rfl
@[simp] theorem State.modHive_reply (s : State) (h : Nat) (f : Hive → Hive) : (s.modHive h f).reply = s.reply := rfl
@[simp] theorem State.modHive_cur (s : State) (h : Nat) (f : Hive → Hive) : (s.modHive h f).cur = s.cur := rfl
@[simp] theorem State.modHive_coreTurn (s : State) (h : Nat) (f : Hive → Hive) : (s.modHive h f).coreTurn = s.coreTurn := rfl
@[simp] theorem State.modHive_deviceTurn (s : State) (h : Nat) (f : Hive → Hive) : (s.modHive h f).deviceTurn = s.deviceTurn := rfl
@[simp] theorem State.modHive_eventTurn (s : State) (h : Nat) (f : Hive → Hive) : (s.modHive h f).eventTurn = s.eventTurn := rfl
@[simp] theorem State.modHive_stalled (s : State) (h : Nat) (f : Hive → Hive) : (s.modHive h f).stalled = s.stalled := rfl
@[simp] theorem State.modHive_eager (s : State) (h : Nat) (f : Hive → Hive) : (s.modHive h f).eager = s.eager := rfl
@[simp] theorem State.modHive_nextCmd (s : State) (h : Nat) (f : Hive → Hive) : (s.modHive h f).nextCmd = s.nextCmd := rfl
@[simp] theorem State.modHive_nextArrival (s : State) (h : Nat) (f : Hive → Hive) : (s.modHive h f).nextArrival = s.nextArrival := rfl
@[simp] theorem State.modHive_nextTicket (s : State) (h : Nat) (f : Hive → Hive) : (s.modHive h f).nextTicket = s.nextTicket := rfl
@[simp] theorem State.modHive_freeCount (s : State) (h : Nat) (f : Hive → Hive) : (s.modHive h f).freeCount = s.freeCount := rfl
@[simp] theorem State.modHive_inbox (s : State) (h : Nat) (f : Hive → Hive) : (s.modHive h f).inbox = s.inbox := rfl

@[simp] theorem Strand.setVreg_status (t : Strand) (r : BitVec 6) (x : VReg) : (t.setVreg r x).status = t.status := rfl
@[simp] theorem Strand.setVreg_hive (t : Strand) (r : BitVec 6) (x : VReg) : (t.setVreg r x).hive = t.hive := rfl
@[simp] theorem Strand.setVreg_strandId (t : Strand) (r : BitVec 6) (x : VReg) : (t.setVreg r x).strandId = t.strandId := rfl
@[simp] theorem Strand.setVreg_gangId (t : Strand) (r : BitVec 6) (x : VReg) : (t.setVreg r x).gangId = t.gangId := rfl
@[simp] theorem Strand.setVreg_pc (t : Strand) (r : BitVec 6) (x : VReg) : (t.setVreg r x).pc = t.pc := rfl
@[simp] theorem Strand.setVreg_g (t : Strand) (r : BitVec 6) (x : VReg) : (t.setVreg r x).g = t.g := rfl
@[simp] theorem Strand.setVreg_m (t : Strand) (r : BitVec 6) (x : VReg) : (t.setVreg r x).m = t.m := rfl
@[simp] theorem Strand.setVreg_streams (t : Strand) (r : BitVec 6) (x : VReg) : (t.setVreg r x).streams = t.streams := rfl
@[simp] theorem Strand.setVreg_fslots (t : Strand) (r : BitVec 6) (x : VReg) : (t.setVreg r x).fslots = t.fslots := rfl
@[simp] theorem Strand.setVreg_tables (t : Strand) (r : BitVec 6) (x : VReg) : (t.setVreg r x).tables = t.tables := rfl
@[simp] theorem Strand.setVreg_fpctl (t : Strand) (r : BitVec 6) (x : VReg) : (t.setVreg r x).fpctl = t.fpctl := rfl
@[simp] theorem Strand.setVreg_seed (t : Strand) (r : BitVec 6) (x : VReg) : (t.setVreg r x).seed = t.seed := rfl
@[simp] theorem Strand.setVreg_rsr (t : Strand) (r : BitVec 6) (x : VReg) : (t.setVreg r x).rsr = t.rsr := rfl
@[simp] theorem Strand.setVreg_trappc (t : Strand) (r : BitVec 6) (x : VReg) : (t.setVreg r x).trappc = t.trappc := rfl
@[simp] theorem Strand.setVreg_trapcause (t : Strand) (r : BitVec 6) (x : VReg) : (t.setVreg r x).trapcause = t.trapcause := rfl
@[simp] theorem Strand.setVreg_trapval (t : Strand) (r : BitVec 6) (x : VReg) : (t.setVreg r x).trapval = t.trapval := rfl
@[simp] theorem Strand.setVreg_trapinfo (t : Strand) (r : BitVec 6) (x : VReg) : (t.setVreg r x).trapinfo = t.trapinfo := rfl
@[simp] theorem Strand.setVreg_yieldwin (t : Strand) (r : BitVec 6) (x : VReg) : (t.setVreg r x).yieldwin = t.yieldwin := rfl
@[simp] theorem Strand.setVreg_vregs (t : Strand) (r : BitVec 6) (x : VReg) : (t.setVreg r x).vregs = t.vregs := rfl
@[simp] theorem Strand.setVreg_prio (t : Strand) (r : BitVec 6) (x : VReg) : (t.setVreg r x).prio = t.prio := rfl
@[simp] theorem Strand.setVreg_vlmin (t : Strand) (r : BitVec 6) (x : VReg) : (t.setVreg r x).vlmin = t.vlmin := rfl
@[simp] theorem Strand.setVreg_vlmax (t : Strand) (r : BitVec 6) (x : VReg) : (t.setVreg r x).vlmax = t.vlmax := rfl
@[simp] theorem Strand.setVreg_share (t : Strand) (r : BitVec 6) (x : VReg) : (t.setVreg r x).share = t.share := rfl
@[simp] theorem Strand.setVreg_slot (t : Strand) (r : BitVec 6) (x : VReg) : (t.setVreg r x).slot = t.slot := rfl
@[simp] theorem Strand.setVreg_placed (t : Strand) (r : BitVec 6) (x : VReg) : (t.setVreg r x).placed = t.placed := rfl
@[simp] theorem Strand.setVreg_pg (t : Strand) (r : BitVec 6) (x : VReg) : (t.setVreg r x).pg = t.pg := rfl
@[simp] theorem Strand.setVreg_grant (t : Strand) (r : BitVec 6) (x : VReg) : (t.setVreg r x).grant = t.grant := rfl
@[simp] theorem Strand.setVreg_egs (t : Strand) (r : BitVec 6) (x : VReg) : (t.setVreg r x).egs = t.egs := rfl
@[simp] theorem Strand.setVreg_mvl (t : Strand) (r : BitVec 6) (x : VReg) : (t.setVreg r x).mvl = t.mvl := rfl
@[simp] theorem Strand.setVreg_queue (t : Strand) (r : BitVec 6) (x : VReg) : (t.setVreg r x).queue = t.queue := rfl
@[simp] theorem Strand.setVreg_held (t : Strand) (r : BitVec 6) (x : VReg) : (t.setVreg r x).held = t.held := rfl
@[simp] theorem Strand.setVreg_resumePc (t : Strand) (r : BitVec 6) (x : VReg) : (t.setVreg r x).resumePc = t.resumePc := rfl
@[simp] theorem Strand.setVreg_hsave (t : Strand) (r : BitVec 6) (x : VReg) : (t.setVreg r x).hsave = t.hsave := rfl
@[simp] theorem Strand.setVreg_pendTrap (t : Strand) (r : BitVec 6) (x : VReg) : (t.setVreg r x).pendTrap = t.pendTrap := rfl
@[simp] theorem Strand.setVreg_pendFault (t : Strand) (r : BitVec 6) (x : VReg) : (t.setVreg r x).pendFault = t.pendFault := rfl
@[simp] theorem Strand.setVreg_kept (t : Strand) (r : BitVec 6) (x : VReg) : (t.setVreg r x).kept = t.kept := rfl
@[simp] theorem Strand.setVreg_pushBits (t : Strand) (r : BitVec 6) (x : VReg) : (t.setVreg r x).pushBits = t.pushBits := rfl
@[simp] theorem Strand.setVreg_pushed (t : Strand) (r : BitVec 6) (x : VReg) : (t.setVreg r x).pushed = t.pushed := rfl
@[simp] theorem Strand.setVreg_task (t : Strand) (r : BitVec 6) (x : VReg) : (t.setVreg r x).task = t.task := rfl
@[simp] theorem Strand.setVreg_entry (t : Strand) (r : BitVec 6) (x : VReg) : (t.setVreg r x).entry = t.entry := rfl
@[simp] theorem Strand.setVreg_fresh (t : Strand) (r : BitVec 6) (x : VReg) : (t.setVreg r x).fresh = t.fresh := rfl
@[simp] theorem Strand.setVreg_arrived (t : Strand) (r : BitVec 6) (x : VReg) : (t.setVreg r x).arrived = t.arrived := rfl
@[simp] theorem Strand.setVreg_away (t : Strand) (r : BitVec 6) (x : VReg) : (t.setVreg r x).away = t.away := rfl
@[simp] theorem Strand.setVreg_preempt (t : Strand) (r : BitVec 6) (x : VReg) : (t.setVreg r x).preempt = t.preempt := rfl
@[simp] theorem Strand.setVreg_record (t : Strand) (r : BitVec 6) (x : VReg) : (t.setVreg r x).record = t.record := rfl
@[simp] theorem Strand.setVreg_waits (t : Strand) (r : BitVec 6) (x : VReg) : (t.setVreg r x).waits = t.waits := rfl
@[simp] theorem Strand.setVreg_resuming (t : Strand) (r : BitVec 6) (x : VReg) : (t.setVreg r x).resuming = t.resuming := rfl
@[simp] theorem Strand.setVreg_inBeat (t : Strand) (r : BitVec 6) (x : VReg) : (t.setVreg r x).inBeat = t.inBeat := rfl
@[simp] theorem Strand.setVreg_susp (t : Strand) (r : BitVec 6) (x : VReg) : (t.setVreg r x).susp = t.susp := rfl
@[simp] theorem Strand.setVreg_arrival (t : Strand) (r : BitVec 6) (x : VReg) : (t.setVreg r x).arrival = t.arrival := rfl
@[simp] theorem Strand.setVreg_passed (t : Strand) (r : BitVec 6) (x : VReg) : (t.setVreg r x).passed = t.passed := rfl
@[simp] theorem Strand.setVreg_spilled (t : Strand) (r : BitVec 6) (x : VReg) : (t.setVreg r x).spilled = t.spilled := rfl

@[simp] theorem Strand.setMreg_status (t : Strand) (r : BitVec 3) (x : MReg) : (t.setMreg r x).status = t.status := rfl
@[simp] theorem Strand.setMreg_hive (t : Strand) (r : BitVec 3) (x : MReg) : (t.setMreg r x).hive = t.hive := rfl
@[simp] theorem Strand.setMreg_strandId (t : Strand) (r : BitVec 3) (x : MReg) : (t.setMreg r x).strandId = t.strandId := rfl
@[simp] theorem Strand.setMreg_gangId (t : Strand) (r : BitVec 3) (x : MReg) : (t.setMreg r x).gangId = t.gangId := rfl
@[simp] theorem Strand.setMreg_pc (t : Strand) (r : BitVec 3) (x : MReg) : (t.setMreg r x).pc = t.pc := rfl
@[simp] theorem Strand.setMreg_g (t : Strand) (r : BitVec 3) (x : MReg) : (t.setMreg r x).g = t.g := rfl
@[simp] theorem Strand.setMreg_v (t : Strand) (r : BitVec 3) (x : MReg) : (t.setMreg r x).v = t.v := rfl
@[simp] theorem Strand.setMreg_streams (t : Strand) (r : BitVec 3) (x : MReg) : (t.setMreg r x).streams = t.streams := rfl
@[simp] theorem Strand.setMreg_fslots (t : Strand) (r : BitVec 3) (x : MReg) : (t.setMreg r x).fslots = t.fslots := rfl
@[simp] theorem Strand.setMreg_tables (t : Strand) (r : BitVec 3) (x : MReg) : (t.setMreg r x).tables = t.tables := rfl
@[simp] theorem Strand.setMreg_fpctl (t : Strand) (r : BitVec 3) (x : MReg) : (t.setMreg r x).fpctl = t.fpctl := rfl
@[simp] theorem Strand.setMreg_seed (t : Strand) (r : BitVec 3) (x : MReg) : (t.setMreg r x).seed = t.seed := rfl
@[simp] theorem Strand.setMreg_rsr (t : Strand) (r : BitVec 3) (x : MReg) : (t.setMreg r x).rsr = t.rsr := rfl
@[simp] theorem Strand.setMreg_trappc (t : Strand) (r : BitVec 3) (x : MReg) : (t.setMreg r x).trappc = t.trappc := rfl
@[simp] theorem Strand.setMreg_trapcause (t : Strand) (r : BitVec 3) (x : MReg) : (t.setMreg r x).trapcause = t.trapcause := rfl
@[simp] theorem Strand.setMreg_trapval (t : Strand) (r : BitVec 3) (x : MReg) : (t.setMreg r x).trapval = t.trapval := rfl
@[simp] theorem Strand.setMreg_trapinfo (t : Strand) (r : BitVec 3) (x : MReg) : (t.setMreg r x).trapinfo = t.trapinfo := rfl
@[simp] theorem Strand.setMreg_yieldwin (t : Strand) (r : BitVec 3) (x : MReg) : (t.setMreg r x).yieldwin = t.yieldwin := rfl
@[simp] theorem Strand.setMreg_vregs (t : Strand) (r : BitVec 3) (x : MReg) : (t.setMreg r x).vregs = t.vregs := rfl
@[simp] theorem Strand.setMreg_prio (t : Strand) (r : BitVec 3) (x : MReg) : (t.setMreg r x).prio = t.prio := rfl
@[simp] theorem Strand.setMreg_vlmin (t : Strand) (r : BitVec 3) (x : MReg) : (t.setMreg r x).vlmin = t.vlmin := rfl
@[simp] theorem Strand.setMreg_vlmax (t : Strand) (r : BitVec 3) (x : MReg) : (t.setMreg r x).vlmax = t.vlmax := rfl
@[simp] theorem Strand.setMreg_share (t : Strand) (r : BitVec 3) (x : MReg) : (t.setMreg r x).share = t.share := rfl
@[simp] theorem Strand.setMreg_slot (t : Strand) (r : BitVec 3) (x : MReg) : (t.setMreg r x).slot = t.slot := rfl
@[simp] theorem Strand.setMreg_placed (t : Strand) (r : BitVec 3) (x : MReg) : (t.setMreg r x).placed = t.placed := rfl
@[simp] theorem Strand.setMreg_pg (t : Strand) (r : BitVec 3) (x : MReg) : (t.setMreg r x).pg = t.pg := rfl
@[simp] theorem Strand.setMreg_grant (t : Strand) (r : BitVec 3) (x : MReg) : (t.setMreg r x).grant = t.grant := rfl
@[simp] theorem Strand.setMreg_egs (t : Strand) (r : BitVec 3) (x : MReg) : (t.setMreg r x).egs = t.egs := rfl
@[simp] theorem Strand.setMreg_mvl (t : Strand) (r : BitVec 3) (x : MReg) : (t.setMreg r x).mvl = t.mvl := rfl
@[simp] theorem Strand.setMreg_queue (t : Strand) (r : BitVec 3) (x : MReg) : (t.setMreg r x).queue = t.queue := rfl
@[simp] theorem Strand.setMreg_held (t : Strand) (r : BitVec 3) (x : MReg) : (t.setMreg r x).held = t.held := rfl
@[simp] theorem Strand.setMreg_resumePc (t : Strand) (r : BitVec 3) (x : MReg) : (t.setMreg r x).resumePc = t.resumePc := rfl
@[simp] theorem Strand.setMreg_hsave (t : Strand) (r : BitVec 3) (x : MReg) : (t.setMreg r x).hsave = t.hsave := rfl
@[simp] theorem Strand.setMreg_pendTrap (t : Strand) (r : BitVec 3) (x : MReg) : (t.setMreg r x).pendTrap = t.pendTrap := rfl
@[simp] theorem Strand.setMreg_pendFault (t : Strand) (r : BitVec 3) (x : MReg) : (t.setMreg r x).pendFault = t.pendFault := rfl
@[simp] theorem Strand.setMreg_kept (t : Strand) (r : BitVec 3) (x : MReg) : (t.setMreg r x).kept = t.kept := rfl
@[simp] theorem Strand.setMreg_pushBits (t : Strand) (r : BitVec 3) (x : MReg) : (t.setMreg r x).pushBits = t.pushBits := rfl
@[simp] theorem Strand.setMreg_pushed (t : Strand) (r : BitVec 3) (x : MReg) : (t.setMreg r x).pushed = t.pushed := rfl
@[simp] theorem Strand.setMreg_task (t : Strand) (r : BitVec 3) (x : MReg) : (t.setMreg r x).task = t.task := rfl
@[simp] theorem Strand.setMreg_entry (t : Strand) (r : BitVec 3) (x : MReg) : (t.setMreg r x).entry = t.entry := rfl
@[simp] theorem Strand.setMreg_fresh (t : Strand) (r : BitVec 3) (x : MReg) : (t.setMreg r x).fresh = t.fresh := rfl
@[simp] theorem Strand.setMreg_arrived (t : Strand) (r : BitVec 3) (x : MReg) : (t.setMreg r x).arrived = t.arrived := rfl
@[simp] theorem Strand.setMreg_away (t : Strand) (r : BitVec 3) (x : MReg) : (t.setMreg r x).away = t.away := rfl
@[simp] theorem Strand.setMreg_preempt (t : Strand) (r : BitVec 3) (x : MReg) : (t.setMreg r x).preempt = t.preempt := rfl
@[simp] theorem Strand.setMreg_record (t : Strand) (r : BitVec 3) (x : MReg) : (t.setMreg r x).record = t.record := rfl
@[simp] theorem Strand.setMreg_waits (t : Strand) (r : BitVec 3) (x : MReg) : (t.setMreg r x).waits = t.waits := rfl
@[simp] theorem Strand.setMreg_resuming (t : Strand) (r : BitVec 3) (x : MReg) : (t.setMreg r x).resuming = t.resuming := rfl
@[simp] theorem Strand.setMreg_inBeat (t : Strand) (r : BitVec 3) (x : MReg) : (t.setMreg r x).inBeat = t.inBeat := rfl
@[simp] theorem Strand.setMreg_susp (t : Strand) (r : BitVec 3) (x : MReg) : (t.setMreg r x).susp = t.susp := rfl
@[simp] theorem Strand.setMreg_arrival (t : Strand) (r : BitVec 3) (x : MReg) : (t.setMreg r x).arrival = t.arrival := rfl
@[simp] theorem Strand.setMreg_passed (t : Strand) (r : BitVec 3) (x : MReg) : (t.setMreg r x).passed = t.passed := rfl
@[simp] theorem Strand.setMreg_spilled (t : Strand) (r : BitVec 3) (x : MReg) : (t.setMreg r x).spilled = t.spilled := rfl

@[simp] theorem Strand.setStream_status (t : Strand) (r : BitVec 4) (x : Stream) : (t.setStream r x).status = t.status := rfl
@[simp] theorem Strand.setStream_hive (t : Strand) (r : BitVec 4) (x : Stream) : (t.setStream r x).hive = t.hive := rfl
@[simp] theorem Strand.setStream_strandId (t : Strand) (r : BitVec 4) (x : Stream) : (t.setStream r x).strandId = t.strandId := rfl
@[simp] theorem Strand.setStream_gangId (t : Strand) (r : BitVec 4) (x : Stream) : (t.setStream r x).gangId = t.gangId := rfl
@[simp] theorem Strand.setStream_pc (t : Strand) (r : BitVec 4) (x : Stream) : (t.setStream r x).pc = t.pc := rfl
@[simp] theorem Strand.setStream_g (t : Strand) (r : BitVec 4) (x : Stream) : (t.setStream r x).g = t.g := rfl
@[simp] theorem Strand.setStream_v (t : Strand) (r : BitVec 4) (x : Stream) : (t.setStream r x).v = t.v := rfl
@[simp] theorem Strand.setStream_m (t : Strand) (r : BitVec 4) (x : Stream) : (t.setStream r x).m = t.m := rfl
@[simp] theorem Strand.setStream_fslots (t : Strand) (r : BitVec 4) (x : Stream) : (t.setStream r x).fslots = t.fslots := rfl
@[simp] theorem Strand.setStream_tables (t : Strand) (r : BitVec 4) (x : Stream) : (t.setStream r x).tables = t.tables := rfl
@[simp] theorem Strand.setStream_fpctl (t : Strand) (r : BitVec 4) (x : Stream) : (t.setStream r x).fpctl = t.fpctl := rfl
@[simp] theorem Strand.setStream_seed (t : Strand) (r : BitVec 4) (x : Stream) : (t.setStream r x).seed = t.seed := rfl
@[simp] theorem Strand.setStream_rsr (t : Strand) (r : BitVec 4) (x : Stream) : (t.setStream r x).rsr = t.rsr := rfl
@[simp] theorem Strand.setStream_trappc (t : Strand) (r : BitVec 4) (x : Stream) : (t.setStream r x).trappc = t.trappc := rfl
@[simp] theorem Strand.setStream_trapcause (t : Strand) (r : BitVec 4) (x : Stream) : (t.setStream r x).trapcause = t.trapcause := rfl
@[simp] theorem Strand.setStream_trapval (t : Strand) (r : BitVec 4) (x : Stream) : (t.setStream r x).trapval = t.trapval := rfl
@[simp] theorem Strand.setStream_trapinfo (t : Strand) (r : BitVec 4) (x : Stream) : (t.setStream r x).trapinfo = t.trapinfo := rfl
@[simp] theorem Strand.setStream_yieldwin (t : Strand) (r : BitVec 4) (x : Stream) : (t.setStream r x).yieldwin = t.yieldwin := rfl
@[simp] theorem Strand.setStream_vregs (t : Strand) (r : BitVec 4) (x : Stream) : (t.setStream r x).vregs = t.vregs := rfl
@[simp] theorem Strand.setStream_prio (t : Strand) (r : BitVec 4) (x : Stream) : (t.setStream r x).prio = t.prio := rfl
@[simp] theorem Strand.setStream_vlmin (t : Strand) (r : BitVec 4) (x : Stream) : (t.setStream r x).vlmin = t.vlmin := rfl
@[simp] theorem Strand.setStream_vlmax (t : Strand) (r : BitVec 4) (x : Stream) : (t.setStream r x).vlmax = t.vlmax := rfl
@[simp] theorem Strand.setStream_share (t : Strand) (r : BitVec 4) (x : Stream) : (t.setStream r x).share = t.share := rfl
@[simp] theorem Strand.setStream_slot (t : Strand) (r : BitVec 4) (x : Stream) : (t.setStream r x).slot = t.slot := rfl
@[simp] theorem Strand.setStream_placed (t : Strand) (r : BitVec 4) (x : Stream) : (t.setStream r x).placed = t.placed := rfl
@[simp] theorem Strand.setStream_pg (t : Strand) (r : BitVec 4) (x : Stream) : (t.setStream r x).pg = t.pg := rfl
@[simp] theorem Strand.setStream_grant (t : Strand) (r : BitVec 4) (x : Stream) : (t.setStream r x).grant = t.grant := rfl
@[simp] theorem Strand.setStream_egs (t : Strand) (r : BitVec 4) (x : Stream) : (t.setStream r x).egs = t.egs := rfl
@[simp] theorem Strand.setStream_mvl (t : Strand) (r : BitVec 4) (x : Stream) : (t.setStream r x).mvl = t.mvl := rfl
@[simp] theorem Strand.setStream_queue (t : Strand) (r : BitVec 4) (x : Stream) : (t.setStream r x).queue = t.queue := rfl
@[simp] theorem Strand.setStream_held (t : Strand) (r : BitVec 4) (x : Stream) : (t.setStream r x).held = t.held := rfl
@[simp] theorem Strand.setStream_resumePc (t : Strand) (r : BitVec 4) (x : Stream) : (t.setStream r x).resumePc = t.resumePc := rfl
@[simp] theorem Strand.setStream_hsave (t : Strand) (r : BitVec 4) (x : Stream) : (t.setStream r x).hsave = t.hsave := rfl
@[simp] theorem Strand.setStream_pendTrap (t : Strand) (r : BitVec 4) (x : Stream) : (t.setStream r x).pendTrap = t.pendTrap := rfl
@[simp] theorem Strand.setStream_pendFault (t : Strand) (r : BitVec 4) (x : Stream) : (t.setStream r x).pendFault = t.pendFault := rfl
@[simp] theorem Strand.setStream_kept (t : Strand) (r : BitVec 4) (x : Stream) : (t.setStream r x).kept = t.kept := rfl
@[simp] theorem Strand.setStream_pushBits (t : Strand) (r : BitVec 4) (x : Stream) : (t.setStream r x).pushBits = t.pushBits := rfl
@[simp] theorem Strand.setStream_pushed (t : Strand) (r : BitVec 4) (x : Stream) : (t.setStream r x).pushed = t.pushed := rfl
@[simp] theorem Strand.setStream_task (t : Strand) (r : BitVec 4) (x : Stream) : (t.setStream r x).task = t.task := rfl
@[simp] theorem Strand.setStream_entry (t : Strand) (r : BitVec 4) (x : Stream) : (t.setStream r x).entry = t.entry := rfl
@[simp] theorem Strand.setStream_fresh (t : Strand) (r : BitVec 4) (x : Stream) : (t.setStream r x).fresh = t.fresh := rfl
@[simp] theorem Strand.setStream_arrived (t : Strand) (r : BitVec 4) (x : Stream) : (t.setStream r x).arrived = t.arrived := rfl
@[simp] theorem Strand.setStream_away (t : Strand) (r : BitVec 4) (x : Stream) : (t.setStream r x).away = t.away := rfl
@[simp] theorem Strand.setStream_preempt (t : Strand) (r : BitVec 4) (x : Stream) : (t.setStream r x).preempt = t.preempt := rfl
@[simp] theorem Strand.setStream_record (t : Strand) (r : BitVec 4) (x : Stream) : (t.setStream r x).record = t.record := rfl
@[simp] theorem Strand.setStream_waits (t : Strand) (r : BitVec 4) (x : Stream) : (t.setStream r x).waits = t.waits := rfl
@[simp] theorem Strand.setStream_resuming (t : Strand) (r : BitVec 4) (x : Stream) : (t.setStream r x).resuming = t.resuming := rfl
@[simp] theorem Strand.setStream_inBeat (t : Strand) (r : BitVec 4) (x : Stream) : (t.setStream r x).inBeat = t.inBeat := rfl
@[simp] theorem Strand.setStream_susp (t : Strand) (r : BitVec 4) (x : Stream) : (t.setStream r x).susp = t.susp := rfl
@[simp] theorem Strand.setStream_arrival (t : Strand) (r : BitVec 4) (x : Stream) : (t.setStream r x).arrival = t.arrival := rfl
@[simp] theorem Strand.setStream_passed (t : Strand) (r : BitVec 4) (x : Stream) : (t.setStream r x).passed = t.passed := rfl
@[simp] theorem Strand.setStream_spilled (t : Strand) (r : BitVec 4) (x : Stream) : (t.setStream r x).spilled = t.spilled := rfl

@[simp] theorem Strand.setFslot_status (t : Strand) (r : BitVec 5) (x : FSlot) : (t.setFslot r x).status = t.status := rfl
@[simp] theorem Strand.setFslot_hive (t : Strand) (r : BitVec 5) (x : FSlot) : (t.setFslot r x).hive = t.hive := rfl
@[simp] theorem Strand.setFslot_strandId (t : Strand) (r : BitVec 5) (x : FSlot) : (t.setFslot r x).strandId = t.strandId := rfl
@[simp] theorem Strand.setFslot_gangId (t : Strand) (r : BitVec 5) (x : FSlot) : (t.setFslot r x).gangId = t.gangId := rfl
@[simp] theorem Strand.setFslot_pc (t : Strand) (r : BitVec 5) (x : FSlot) : (t.setFslot r x).pc = t.pc := rfl
@[simp] theorem Strand.setFslot_g (t : Strand) (r : BitVec 5) (x : FSlot) : (t.setFslot r x).g = t.g := rfl
@[simp] theorem Strand.setFslot_v (t : Strand) (r : BitVec 5) (x : FSlot) : (t.setFslot r x).v = t.v := rfl
@[simp] theorem Strand.setFslot_m (t : Strand) (r : BitVec 5) (x : FSlot) : (t.setFslot r x).m = t.m := rfl
@[simp] theorem Strand.setFslot_streams (t : Strand) (r : BitVec 5) (x : FSlot) : (t.setFslot r x).streams = t.streams := rfl
@[simp] theorem Strand.setFslot_tables (t : Strand) (r : BitVec 5) (x : FSlot) : (t.setFslot r x).tables = t.tables := rfl
@[simp] theorem Strand.setFslot_fpctl (t : Strand) (r : BitVec 5) (x : FSlot) : (t.setFslot r x).fpctl = t.fpctl := rfl
@[simp] theorem Strand.setFslot_seed (t : Strand) (r : BitVec 5) (x : FSlot) : (t.setFslot r x).seed = t.seed := rfl
@[simp] theorem Strand.setFslot_rsr (t : Strand) (r : BitVec 5) (x : FSlot) : (t.setFslot r x).rsr = t.rsr := rfl
@[simp] theorem Strand.setFslot_trappc (t : Strand) (r : BitVec 5) (x : FSlot) : (t.setFslot r x).trappc = t.trappc := rfl
@[simp] theorem Strand.setFslot_trapcause (t : Strand) (r : BitVec 5) (x : FSlot) : (t.setFslot r x).trapcause = t.trapcause := rfl
@[simp] theorem Strand.setFslot_trapval (t : Strand) (r : BitVec 5) (x : FSlot) : (t.setFslot r x).trapval = t.trapval := rfl
@[simp] theorem Strand.setFslot_trapinfo (t : Strand) (r : BitVec 5) (x : FSlot) : (t.setFslot r x).trapinfo = t.trapinfo := rfl
@[simp] theorem Strand.setFslot_yieldwin (t : Strand) (r : BitVec 5) (x : FSlot) : (t.setFslot r x).yieldwin = t.yieldwin := rfl
@[simp] theorem Strand.setFslot_vregs (t : Strand) (r : BitVec 5) (x : FSlot) : (t.setFslot r x).vregs = t.vregs := rfl
@[simp] theorem Strand.setFslot_prio (t : Strand) (r : BitVec 5) (x : FSlot) : (t.setFslot r x).prio = t.prio := rfl
@[simp] theorem Strand.setFslot_vlmin (t : Strand) (r : BitVec 5) (x : FSlot) : (t.setFslot r x).vlmin = t.vlmin := rfl
@[simp] theorem Strand.setFslot_vlmax (t : Strand) (r : BitVec 5) (x : FSlot) : (t.setFslot r x).vlmax = t.vlmax := rfl
@[simp] theorem Strand.setFslot_share (t : Strand) (r : BitVec 5) (x : FSlot) : (t.setFslot r x).share = t.share := rfl
@[simp] theorem Strand.setFslot_slot (t : Strand) (r : BitVec 5) (x : FSlot) : (t.setFslot r x).slot = t.slot := rfl
@[simp] theorem Strand.setFslot_placed (t : Strand) (r : BitVec 5) (x : FSlot) : (t.setFslot r x).placed = t.placed := rfl
@[simp] theorem Strand.setFslot_pg (t : Strand) (r : BitVec 5) (x : FSlot) : (t.setFslot r x).pg = t.pg := rfl
@[simp] theorem Strand.setFslot_grant (t : Strand) (r : BitVec 5) (x : FSlot) : (t.setFslot r x).grant = t.grant := rfl
@[simp] theorem Strand.setFslot_egs (t : Strand) (r : BitVec 5) (x : FSlot) : (t.setFslot r x).egs = t.egs := rfl
@[simp] theorem Strand.setFslot_mvl (t : Strand) (r : BitVec 5) (x : FSlot) : (t.setFslot r x).mvl = t.mvl := rfl
@[simp] theorem Strand.setFslot_queue (t : Strand) (r : BitVec 5) (x : FSlot) : (t.setFslot r x).queue = t.queue := rfl
@[simp] theorem Strand.setFslot_held (t : Strand) (r : BitVec 5) (x : FSlot) : (t.setFslot r x).held = t.held := rfl
@[simp] theorem Strand.setFslot_resumePc (t : Strand) (r : BitVec 5) (x : FSlot) : (t.setFslot r x).resumePc = t.resumePc := rfl
@[simp] theorem Strand.setFslot_hsave (t : Strand) (r : BitVec 5) (x : FSlot) : (t.setFslot r x).hsave = t.hsave := rfl
@[simp] theorem Strand.setFslot_pendTrap (t : Strand) (r : BitVec 5) (x : FSlot) : (t.setFslot r x).pendTrap = t.pendTrap := rfl
@[simp] theorem Strand.setFslot_pendFault (t : Strand) (r : BitVec 5) (x : FSlot) : (t.setFslot r x).pendFault = t.pendFault := rfl
@[simp] theorem Strand.setFslot_kept (t : Strand) (r : BitVec 5) (x : FSlot) : (t.setFslot r x).kept = t.kept := rfl
@[simp] theorem Strand.setFslot_pushBits (t : Strand) (r : BitVec 5) (x : FSlot) : (t.setFslot r x).pushBits = t.pushBits := rfl
@[simp] theorem Strand.setFslot_pushed (t : Strand) (r : BitVec 5) (x : FSlot) : (t.setFslot r x).pushed = t.pushed := rfl
@[simp] theorem Strand.setFslot_task (t : Strand) (r : BitVec 5) (x : FSlot) : (t.setFslot r x).task = t.task := rfl
@[simp] theorem Strand.setFslot_entry (t : Strand) (r : BitVec 5) (x : FSlot) : (t.setFslot r x).entry = t.entry := rfl
@[simp] theorem Strand.setFslot_fresh (t : Strand) (r : BitVec 5) (x : FSlot) : (t.setFslot r x).fresh = t.fresh := rfl
@[simp] theorem Strand.setFslot_arrived (t : Strand) (r : BitVec 5) (x : FSlot) : (t.setFslot r x).arrived = t.arrived := rfl
@[simp] theorem Strand.setFslot_away (t : Strand) (r : BitVec 5) (x : FSlot) : (t.setFslot r x).away = t.away := rfl
@[simp] theorem Strand.setFslot_preempt (t : Strand) (r : BitVec 5) (x : FSlot) : (t.setFslot r x).preempt = t.preempt := rfl
@[simp] theorem Strand.setFslot_record (t : Strand) (r : BitVec 5) (x : FSlot) : (t.setFslot r x).record = t.record := rfl
@[simp] theorem Strand.setFslot_waits (t : Strand) (r : BitVec 5) (x : FSlot) : (t.setFslot r x).waits = t.waits := rfl
@[simp] theorem Strand.setFslot_resuming (t : Strand) (r : BitVec 5) (x : FSlot) : (t.setFslot r x).resuming = t.resuming := rfl
@[simp] theorem Strand.setFslot_inBeat (t : Strand) (r : BitVec 5) (x : FSlot) : (t.setFslot r x).inBeat = t.inBeat := rfl
@[simp] theorem Strand.setFslot_susp (t : Strand) (r : BitVec 5) (x : FSlot) : (t.setFslot r x).susp = t.susp := rfl
@[simp] theorem Strand.setFslot_arrival (t : Strand) (r : BitVec 5) (x : FSlot) : (t.setFslot r x).arrival = t.arrival := rfl
@[simp] theorem Strand.setFslot_passed (t : Strand) (r : BitVec 5) (x : FSlot) : (t.setFslot r x).passed = t.passed := rfl
@[simp] theorem Strand.setFslot_spilled (t : Strand) (r : BitVec 5) (x : FSlot) : (t.setFslot r x).spilled = t.spilled := rfl

@[simp] theorem Strand.setTable_status (t : Strand) (r : BitVec 2) (x : CodeTable) : (t.setTable r x).status = t.status := rfl
@[simp] theorem Strand.setTable_hive (t : Strand) (r : BitVec 2) (x : CodeTable) : (t.setTable r x).hive = t.hive := rfl
@[simp] theorem Strand.setTable_strandId (t : Strand) (r : BitVec 2) (x : CodeTable) : (t.setTable r x).strandId = t.strandId := rfl
@[simp] theorem Strand.setTable_gangId (t : Strand) (r : BitVec 2) (x : CodeTable) : (t.setTable r x).gangId = t.gangId := rfl
@[simp] theorem Strand.setTable_pc (t : Strand) (r : BitVec 2) (x : CodeTable) : (t.setTable r x).pc = t.pc := rfl
@[simp] theorem Strand.setTable_g (t : Strand) (r : BitVec 2) (x : CodeTable) : (t.setTable r x).g = t.g := rfl
@[simp] theorem Strand.setTable_v (t : Strand) (r : BitVec 2) (x : CodeTable) : (t.setTable r x).v = t.v := rfl
@[simp] theorem Strand.setTable_m (t : Strand) (r : BitVec 2) (x : CodeTable) : (t.setTable r x).m = t.m := rfl
@[simp] theorem Strand.setTable_streams (t : Strand) (r : BitVec 2) (x : CodeTable) : (t.setTable r x).streams = t.streams := rfl
@[simp] theorem Strand.setTable_fslots (t : Strand) (r : BitVec 2) (x : CodeTable) : (t.setTable r x).fslots = t.fslots := rfl
@[simp] theorem Strand.setTable_fpctl (t : Strand) (r : BitVec 2) (x : CodeTable) : (t.setTable r x).fpctl = t.fpctl := rfl
@[simp] theorem Strand.setTable_seed (t : Strand) (r : BitVec 2) (x : CodeTable) : (t.setTable r x).seed = t.seed := rfl
@[simp] theorem Strand.setTable_rsr (t : Strand) (r : BitVec 2) (x : CodeTable) : (t.setTable r x).rsr = t.rsr := rfl
@[simp] theorem Strand.setTable_trappc (t : Strand) (r : BitVec 2) (x : CodeTable) : (t.setTable r x).trappc = t.trappc := rfl
@[simp] theorem Strand.setTable_trapcause (t : Strand) (r : BitVec 2) (x : CodeTable) : (t.setTable r x).trapcause = t.trapcause := rfl
@[simp] theorem Strand.setTable_trapval (t : Strand) (r : BitVec 2) (x : CodeTable) : (t.setTable r x).trapval = t.trapval := rfl
@[simp] theorem Strand.setTable_trapinfo (t : Strand) (r : BitVec 2) (x : CodeTable) : (t.setTable r x).trapinfo = t.trapinfo := rfl
@[simp] theorem Strand.setTable_yieldwin (t : Strand) (r : BitVec 2) (x : CodeTable) : (t.setTable r x).yieldwin = t.yieldwin := rfl
@[simp] theorem Strand.setTable_vregs (t : Strand) (r : BitVec 2) (x : CodeTable) : (t.setTable r x).vregs = t.vregs := rfl
@[simp] theorem Strand.setTable_prio (t : Strand) (r : BitVec 2) (x : CodeTable) : (t.setTable r x).prio = t.prio := rfl
@[simp] theorem Strand.setTable_vlmin (t : Strand) (r : BitVec 2) (x : CodeTable) : (t.setTable r x).vlmin = t.vlmin := rfl
@[simp] theorem Strand.setTable_vlmax (t : Strand) (r : BitVec 2) (x : CodeTable) : (t.setTable r x).vlmax = t.vlmax := rfl
@[simp] theorem Strand.setTable_share (t : Strand) (r : BitVec 2) (x : CodeTable) : (t.setTable r x).share = t.share := rfl
@[simp] theorem Strand.setTable_slot (t : Strand) (r : BitVec 2) (x : CodeTable) : (t.setTable r x).slot = t.slot := rfl
@[simp] theorem Strand.setTable_placed (t : Strand) (r : BitVec 2) (x : CodeTable) : (t.setTable r x).placed = t.placed := rfl
@[simp] theorem Strand.setTable_pg (t : Strand) (r : BitVec 2) (x : CodeTable) : (t.setTable r x).pg = t.pg := rfl
@[simp] theorem Strand.setTable_grant (t : Strand) (r : BitVec 2) (x : CodeTable) : (t.setTable r x).grant = t.grant := rfl
@[simp] theorem Strand.setTable_egs (t : Strand) (r : BitVec 2) (x : CodeTable) : (t.setTable r x).egs = t.egs := rfl
@[simp] theorem Strand.setTable_mvl (t : Strand) (r : BitVec 2) (x : CodeTable) : (t.setTable r x).mvl = t.mvl := rfl
@[simp] theorem Strand.setTable_queue (t : Strand) (r : BitVec 2) (x : CodeTable) : (t.setTable r x).queue = t.queue := rfl
@[simp] theorem Strand.setTable_held (t : Strand) (r : BitVec 2) (x : CodeTable) : (t.setTable r x).held = t.held := rfl
@[simp] theorem Strand.setTable_resumePc (t : Strand) (r : BitVec 2) (x : CodeTable) : (t.setTable r x).resumePc = t.resumePc := rfl
@[simp] theorem Strand.setTable_hsave (t : Strand) (r : BitVec 2) (x : CodeTable) : (t.setTable r x).hsave = t.hsave := rfl
@[simp] theorem Strand.setTable_pendTrap (t : Strand) (r : BitVec 2) (x : CodeTable) : (t.setTable r x).pendTrap = t.pendTrap := rfl
@[simp] theorem Strand.setTable_pendFault (t : Strand) (r : BitVec 2) (x : CodeTable) : (t.setTable r x).pendFault = t.pendFault := rfl
@[simp] theorem Strand.setTable_kept (t : Strand) (r : BitVec 2) (x : CodeTable) : (t.setTable r x).kept = t.kept := rfl
@[simp] theorem Strand.setTable_pushBits (t : Strand) (r : BitVec 2) (x : CodeTable) : (t.setTable r x).pushBits = t.pushBits := rfl
@[simp] theorem Strand.setTable_pushed (t : Strand) (r : BitVec 2) (x : CodeTable) : (t.setTable r x).pushed = t.pushed := rfl
@[simp] theorem Strand.setTable_task (t : Strand) (r : BitVec 2) (x : CodeTable) : (t.setTable r x).task = t.task := rfl
@[simp] theorem Strand.setTable_entry (t : Strand) (r : BitVec 2) (x : CodeTable) : (t.setTable r x).entry = t.entry := rfl
@[simp] theorem Strand.setTable_fresh (t : Strand) (r : BitVec 2) (x : CodeTable) : (t.setTable r x).fresh = t.fresh := rfl
@[simp] theorem Strand.setTable_arrived (t : Strand) (r : BitVec 2) (x : CodeTable) : (t.setTable r x).arrived = t.arrived := rfl
@[simp] theorem Strand.setTable_away (t : Strand) (r : BitVec 2) (x : CodeTable) : (t.setTable r x).away = t.away := rfl
@[simp] theorem Strand.setTable_preempt (t : Strand) (r : BitVec 2) (x : CodeTable) : (t.setTable r x).preempt = t.preempt := rfl
@[simp] theorem Strand.setTable_record (t : Strand) (r : BitVec 2) (x : CodeTable) : (t.setTable r x).record = t.record := rfl
@[simp] theorem Strand.setTable_waits (t : Strand) (r : BitVec 2) (x : CodeTable) : (t.setTable r x).waits = t.waits := rfl
@[simp] theorem Strand.setTable_resuming (t : Strand) (r : BitVec 2) (x : CodeTable) : (t.setTable r x).resuming = t.resuming := rfl
@[simp] theorem Strand.setTable_inBeat (t : Strand) (r : BitVec 2) (x : CodeTable) : (t.setTable r x).inBeat = t.inBeat := rfl
@[simp] theorem Strand.setTable_susp (t : Strand) (r : BitVec 2) (x : CodeTable) : (t.setTable r x).susp = t.susp := rfl
@[simp] theorem Strand.setTable_arrival (t : Strand) (r : BitVec 2) (x : CodeTable) : (t.setTable r x).arrival = t.arrival := rfl
@[simp] theorem Strand.setTable_passed (t : Strand) (r : BitVec 2) (x : CodeTable) : (t.setTable r x).passed = t.passed := rfl
@[simp] theorem Strand.setTable_spilled (t : Strand) (r : BitVec 2) (x : CodeTable) : (t.setTable r x).spilled = t.spilled := rfl

@[simp] theorem Strand.nextPc_status (t : Strand) : (t.nextPc).status = t.status := rfl
@[simp] theorem Strand.nextPc_hive (t : Strand) : (t.nextPc).hive = t.hive := rfl
@[simp] theorem Strand.nextPc_strandId (t : Strand) : (t.nextPc).strandId = t.strandId := rfl
@[simp] theorem Strand.nextPc_gangId (t : Strand) : (t.nextPc).gangId = t.gangId := rfl
@[simp] theorem Strand.nextPc_g (t : Strand) : (t.nextPc).g = t.g := rfl
@[simp] theorem Strand.nextPc_v (t : Strand) : (t.nextPc).v = t.v := rfl
@[simp] theorem Strand.nextPc_m (t : Strand) : (t.nextPc).m = t.m := rfl
@[simp] theorem Strand.nextPc_streams (t : Strand) : (t.nextPc).streams = t.streams := rfl
@[simp] theorem Strand.nextPc_fslots (t : Strand) : (t.nextPc).fslots = t.fslots := rfl
@[simp] theorem Strand.nextPc_tables (t : Strand) : (t.nextPc).tables = t.tables := rfl
@[simp] theorem Strand.nextPc_fpctl (t : Strand) : (t.nextPc).fpctl = t.fpctl := rfl
@[simp] theorem Strand.nextPc_seed (t : Strand) : (t.nextPc).seed = t.seed := rfl
@[simp] theorem Strand.nextPc_rsr (t : Strand) : (t.nextPc).rsr = t.rsr := rfl
@[simp] theorem Strand.nextPc_trappc (t : Strand) : (t.nextPc).trappc = t.trappc := rfl
@[simp] theorem Strand.nextPc_trapcause (t : Strand) : (t.nextPc).trapcause = t.trapcause := rfl
@[simp] theorem Strand.nextPc_trapval (t : Strand) : (t.nextPc).trapval = t.trapval := rfl
@[simp] theorem Strand.nextPc_trapinfo (t : Strand) : (t.nextPc).trapinfo = t.trapinfo := rfl
@[simp] theorem Strand.nextPc_yieldwin (t : Strand) : (t.nextPc).yieldwin = t.yieldwin := rfl
@[simp] theorem Strand.nextPc_vregs (t : Strand) : (t.nextPc).vregs = t.vregs := rfl
@[simp] theorem Strand.nextPc_prio (t : Strand) : (t.nextPc).prio = t.prio := rfl
@[simp] theorem Strand.nextPc_vlmin (t : Strand) : (t.nextPc).vlmin = t.vlmin := rfl
@[simp] theorem Strand.nextPc_vlmax (t : Strand) : (t.nextPc).vlmax = t.vlmax := rfl
@[simp] theorem Strand.nextPc_share (t : Strand) : (t.nextPc).share = t.share := rfl
@[simp] theorem Strand.nextPc_slot (t : Strand) : (t.nextPc).slot = t.slot := rfl
@[simp] theorem Strand.nextPc_placed (t : Strand) : (t.nextPc).placed = t.placed := rfl
@[simp] theorem Strand.nextPc_pg (t : Strand) : (t.nextPc).pg = t.pg := rfl
@[simp] theorem Strand.nextPc_grant (t : Strand) : (t.nextPc).grant = t.grant := rfl
@[simp] theorem Strand.nextPc_egs (t : Strand) : (t.nextPc).egs = t.egs := rfl
@[simp] theorem Strand.nextPc_mvl (t : Strand) : (t.nextPc).mvl = t.mvl := rfl
@[simp] theorem Strand.nextPc_queue (t : Strand) : (t.nextPc).queue = t.queue := rfl
@[simp] theorem Strand.nextPc_held (t : Strand) : (t.nextPc).held = t.held := rfl
@[simp] theorem Strand.nextPc_resumePc (t : Strand) : (t.nextPc).resumePc = t.resumePc := rfl
@[simp] theorem Strand.nextPc_hsave (t : Strand) : (t.nextPc).hsave = t.hsave := rfl
@[simp] theorem Strand.nextPc_pendTrap (t : Strand) : (t.nextPc).pendTrap = t.pendTrap := rfl
@[simp] theorem Strand.nextPc_pendFault (t : Strand) : (t.nextPc).pendFault = t.pendFault := rfl
@[simp] theorem Strand.nextPc_kept (t : Strand) : (t.nextPc).kept = t.kept := rfl
@[simp] theorem Strand.nextPc_pushBits (t : Strand) : (t.nextPc).pushBits = t.pushBits := rfl
@[simp] theorem Strand.nextPc_pushed (t : Strand) : (t.nextPc).pushed = t.pushed := rfl
@[simp] theorem Strand.nextPc_task (t : Strand) : (t.nextPc).task = t.task := rfl
@[simp] theorem Strand.nextPc_entry (t : Strand) : (t.nextPc).entry = t.entry := rfl
@[simp] theorem Strand.nextPc_fresh (t : Strand) : (t.nextPc).fresh = t.fresh := rfl
@[simp] theorem Strand.nextPc_arrived (t : Strand) : (t.nextPc).arrived = t.arrived := rfl
@[simp] theorem Strand.nextPc_away (t : Strand) : (t.nextPc).away = t.away := rfl
@[simp] theorem Strand.nextPc_preempt (t : Strand) : (t.nextPc).preempt = t.preempt := rfl
@[simp] theorem Strand.nextPc_record (t : Strand) : (t.nextPc).record = t.record := rfl
@[simp] theorem Strand.nextPc_waits (t : Strand) : (t.nextPc).waits = t.waits := rfl
@[simp] theorem Strand.nextPc_resuming (t : Strand) : (t.nextPc).resuming = t.resuming := rfl
@[simp] theorem Strand.nextPc_inBeat (t : Strand) : (t.nextPc).inBeat = t.inBeat := rfl
@[simp] theorem Strand.nextPc_susp (t : Strand) : (t.nextPc).susp = t.susp := rfl
@[simp] theorem Strand.nextPc_arrival (t : Strand) : (t.nextPc).arrival = t.arrival := rfl
@[simp] theorem Strand.nextPc_passed (t : Strand) : (t.nextPc).passed = t.passed := rfl
@[simp] theorem Strand.nextPc_spilled (t : Strand) : (t.nextPc).spilled = t.spilled := rfl

@[simp] theorem Strand.orFlags_status (t : Strand) (x : Nat) : (t.orFlags x).status = t.status := rfl
@[simp] theorem Strand.orFlags_hive (t : Strand) (x : Nat) : (t.orFlags x).hive = t.hive := rfl
@[simp] theorem Strand.orFlags_strandId (t : Strand) (x : Nat) : (t.orFlags x).strandId = t.strandId := rfl
@[simp] theorem Strand.orFlags_gangId (t : Strand) (x : Nat) : (t.orFlags x).gangId = t.gangId := rfl
@[simp] theorem Strand.orFlags_pc (t : Strand) (x : Nat) : (t.orFlags x).pc = t.pc := rfl
@[simp] theorem Strand.orFlags_g (t : Strand) (x : Nat) : (t.orFlags x).g = t.g := rfl
@[simp] theorem Strand.orFlags_v (t : Strand) (x : Nat) : (t.orFlags x).v = t.v := rfl
@[simp] theorem Strand.orFlags_m (t : Strand) (x : Nat) : (t.orFlags x).m = t.m := rfl
@[simp] theorem Strand.orFlags_streams (t : Strand) (x : Nat) : (t.orFlags x).streams = t.streams := rfl
@[simp] theorem Strand.orFlags_fslots (t : Strand) (x : Nat) : (t.orFlags x).fslots = t.fslots := rfl
@[simp] theorem Strand.orFlags_tables (t : Strand) (x : Nat) : (t.orFlags x).tables = t.tables := rfl
@[simp] theorem Strand.orFlags_seed (t : Strand) (x : Nat) : (t.orFlags x).seed = t.seed := rfl
@[simp] theorem Strand.orFlags_rsr (t : Strand) (x : Nat) : (t.orFlags x).rsr = t.rsr := rfl
@[simp] theorem Strand.orFlags_trappc (t : Strand) (x : Nat) : (t.orFlags x).trappc = t.trappc := rfl
@[simp] theorem Strand.orFlags_trapcause (t : Strand) (x : Nat) : (t.orFlags x).trapcause = t.trapcause := rfl
@[simp] theorem Strand.orFlags_trapval (t : Strand) (x : Nat) : (t.orFlags x).trapval = t.trapval := rfl
@[simp] theorem Strand.orFlags_trapinfo (t : Strand) (x : Nat) : (t.orFlags x).trapinfo = t.trapinfo := rfl
@[simp] theorem Strand.orFlags_yieldwin (t : Strand) (x : Nat) : (t.orFlags x).yieldwin = t.yieldwin := rfl
@[simp] theorem Strand.orFlags_vregs (t : Strand) (x : Nat) : (t.orFlags x).vregs = t.vregs := rfl
@[simp] theorem Strand.orFlags_prio (t : Strand) (x : Nat) : (t.orFlags x).prio = t.prio := rfl
@[simp] theorem Strand.orFlags_vlmin (t : Strand) (x : Nat) : (t.orFlags x).vlmin = t.vlmin := rfl
@[simp] theorem Strand.orFlags_vlmax (t : Strand) (x : Nat) : (t.orFlags x).vlmax = t.vlmax := rfl
@[simp] theorem Strand.orFlags_share (t : Strand) (x : Nat) : (t.orFlags x).share = t.share := rfl
@[simp] theorem Strand.orFlags_slot (t : Strand) (x : Nat) : (t.orFlags x).slot = t.slot := rfl
@[simp] theorem Strand.orFlags_placed (t : Strand) (x : Nat) : (t.orFlags x).placed = t.placed := rfl
@[simp] theorem Strand.orFlags_pg (t : Strand) (x : Nat) : (t.orFlags x).pg = t.pg := rfl
@[simp] theorem Strand.orFlags_grant (t : Strand) (x : Nat) : (t.orFlags x).grant = t.grant := rfl
@[simp] theorem Strand.orFlags_egs (t : Strand) (x : Nat) : (t.orFlags x).egs = t.egs := rfl
@[simp] theorem Strand.orFlags_mvl (t : Strand) (x : Nat) : (t.orFlags x).mvl = t.mvl := rfl
@[simp] theorem Strand.orFlags_queue (t : Strand) (x : Nat) : (t.orFlags x).queue = t.queue := rfl
@[simp] theorem Strand.orFlags_held (t : Strand) (x : Nat) : (t.orFlags x).held = t.held := rfl
@[simp] theorem Strand.orFlags_resumePc (t : Strand) (x : Nat) : (t.orFlags x).resumePc = t.resumePc := rfl
@[simp] theorem Strand.orFlags_hsave (t : Strand) (x : Nat) : (t.orFlags x).hsave = t.hsave := rfl
@[simp] theorem Strand.orFlags_pendTrap (t : Strand) (x : Nat) : (t.orFlags x).pendTrap = t.pendTrap := rfl
@[simp] theorem Strand.orFlags_pendFault (t : Strand) (x : Nat) : (t.orFlags x).pendFault = t.pendFault := rfl
@[simp] theorem Strand.orFlags_kept (t : Strand) (x : Nat) : (t.orFlags x).kept = t.kept := rfl
@[simp] theorem Strand.orFlags_pushBits (t : Strand) (x : Nat) : (t.orFlags x).pushBits = t.pushBits := rfl
@[simp] theorem Strand.orFlags_pushed (t : Strand) (x : Nat) : (t.orFlags x).pushed = t.pushed := rfl
@[simp] theorem Strand.orFlags_task (t : Strand) (x : Nat) : (t.orFlags x).task = t.task := rfl
@[simp] theorem Strand.orFlags_entry (t : Strand) (x : Nat) : (t.orFlags x).entry = t.entry := rfl
@[simp] theorem Strand.orFlags_fresh (t : Strand) (x : Nat) : (t.orFlags x).fresh = t.fresh := rfl
@[simp] theorem Strand.orFlags_arrived (t : Strand) (x : Nat) : (t.orFlags x).arrived = t.arrived := rfl
@[simp] theorem Strand.orFlags_away (t : Strand) (x : Nat) : (t.orFlags x).away = t.away := rfl
@[simp] theorem Strand.orFlags_preempt (t : Strand) (x : Nat) : (t.orFlags x).preempt = t.preempt := rfl
@[simp] theorem Strand.orFlags_record (t : Strand) (x : Nat) : (t.orFlags x).record = t.record := rfl
@[simp] theorem Strand.orFlags_waits (t : Strand) (x : Nat) : (t.orFlags x).waits = t.waits := rfl
@[simp] theorem Strand.orFlags_resuming (t : Strand) (x : Nat) : (t.orFlags x).resuming = t.resuming := rfl
@[simp] theorem Strand.orFlags_inBeat (t : Strand) (x : Nat) : (t.orFlags x).inBeat = t.inBeat := rfl
@[simp] theorem Strand.orFlags_susp (t : Strand) (x : Nat) : (t.orFlags x).susp = t.susp := rfl
@[simp] theorem Strand.orFlags_arrival (t : Strand) (x : Nat) : (t.orFlags x).arrival = t.arrival := rfl
@[simp] theorem Strand.orFlags_passed (t : Strand) (x : Nat) : (t.orFlags x).passed = t.passed := rfl
@[simp] theorem Strand.orFlags_spilled (t : Strand) (x : Nat) : (t.orFlags x).spilled = t.spilled := rfl

@[simp] theorem Strand.stepGen_status (t : Strand) (x : Nat) : (t.stepGen x).status = t.status := rfl
@[simp] theorem Strand.stepGen_hive (t : Strand) (x : Nat) : (t.stepGen x).hive = t.hive := rfl
@[simp] theorem Strand.stepGen_strandId (t : Strand) (x : Nat) : (t.stepGen x).strandId = t.strandId := rfl
@[simp] theorem Strand.stepGen_gangId (t : Strand) (x : Nat) : (t.stepGen x).gangId = t.gangId := rfl
@[simp] theorem Strand.stepGen_pc (t : Strand) (x : Nat) : (t.stepGen x).pc = t.pc := rfl
@[simp] theorem Strand.stepGen_g (t : Strand) (x : Nat) : (t.stepGen x).g = t.g := rfl
@[simp] theorem Strand.stepGen_v (t : Strand) (x : Nat) : (t.stepGen x).v = t.v := rfl
@[simp] theorem Strand.stepGen_m (t : Strand) (x : Nat) : (t.stepGen x).m = t.m := rfl
@[simp] theorem Strand.stepGen_streams (t : Strand) (x : Nat) : (t.stepGen x).streams = t.streams := rfl
@[simp] theorem Strand.stepGen_fslots (t : Strand) (x : Nat) : (t.stepGen x).fslots = t.fslots := rfl
@[simp] theorem Strand.stepGen_tables (t : Strand) (x : Nat) : (t.stepGen x).tables = t.tables := rfl
@[simp] theorem Strand.stepGen_fpctl (t : Strand) (x : Nat) : (t.stepGen x).fpctl = t.fpctl := rfl
@[simp] theorem Strand.stepGen_seed (t : Strand) (x : Nat) : (t.stepGen x).seed = t.seed := rfl
@[simp] theorem Strand.stepGen_trappc (t : Strand) (x : Nat) : (t.stepGen x).trappc = t.trappc := rfl
@[simp] theorem Strand.stepGen_trapcause (t : Strand) (x : Nat) : (t.stepGen x).trapcause = t.trapcause := rfl
@[simp] theorem Strand.stepGen_trapval (t : Strand) (x : Nat) : (t.stepGen x).trapval = t.trapval := rfl
@[simp] theorem Strand.stepGen_trapinfo (t : Strand) (x : Nat) : (t.stepGen x).trapinfo = t.trapinfo := rfl
@[simp] theorem Strand.stepGen_yieldwin (t : Strand) (x : Nat) : (t.stepGen x).yieldwin = t.yieldwin := rfl
@[simp] theorem Strand.stepGen_vregs (t : Strand) (x : Nat) : (t.stepGen x).vregs = t.vregs := rfl
@[simp] theorem Strand.stepGen_prio (t : Strand) (x : Nat) : (t.stepGen x).prio = t.prio := rfl
@[simp] theorem Strand.stepGen_vlmin (t : Strand) (x : Nat) : (t.stepGen x).vlmin = t.vlmin := rfl
@[simp] theorem Strand.stepGen_vlmax (t : Strand) (x : Nat) : (t.stepGen x).vlmax = t.vlmax := rfl
@[simp] theorem Strand.stepGen_share (t : Strand) (x : Nat) : (t.stepGen x).share = t.share := rfl
@[simp] theorem Strand.stepGen_slot (t : Strand) (x : Nat) : (t.stepGen x).slot = t.slot := rfl
@[simp] theorem Strand.stepGen_placed (t : Strand) (x : Nat) : (t.stepGen x).placed = t.placed := rfl
@[simp] theorem Strand.stepGen_pg (t : Strand) (x : Nat) : (t.stepGen x).pg = t.pg := rfl
@[simp] theorem Strand.stepGen_grant (t : Strand) (x : Nat) : (t.stepGen x).grant = t.grant := rfl
@[simp] theorem Strand.stepGen_egs (t : Strand) (x : Nat) : (t.stepGen x).egs = t.egs := rfl
@[simp] theorem Strand.stepGen_mvl (t : Strand) (x : Nat) : (t.stepGen x).mvl = t.mvl := rfl
@[simp] theorem Strand.stepGen_queue (t : Strand) (x : Nat) : (t.stepGen x).queue = t.queue := rfl
@[simp] theorem Strand.stepGen_held (t : Strand) (x : Nat) : (t.stepGen x).held = t.held := rfl
@[simp] theorem Strand.stepGen_resumePc (t : Strand) (x : Nat) : (t.stepGen x).resumePc = t.resumePc := rfl
@[simp] theorem Strand.stepGen_hsave (t : Strand) (x : Nat) : (t.stepGen x).hsave = t.hsave := rfl
@[simp] theorem Strand.stepGen_pendTrap (t : Strand) (x : Nat) : (t.stepGen x).pendTrap = t.pendTrap := rfl
@[simp] theorem Strand.stepGen_pendFault (t : Strand) (x : Nat) : (t.stepGen x).pendFault = t.pendFault := rfl
@[simp] theorem Strand.stepGen_kept (t : Strand) (x : Nat) : (t.stepGen x).kept = t.kept := rfl
@[simp] theorem Strand.stepGen_pushBits (t : Strand) (x : Nat) : (t.stepGen x).pushBits = t.pushBits := rfl
@[simp] theorem Strand.stepGen_pushed (t : Strand) (x : Nat) : (t.stepGen x).pushed = t.pushed := rfl
@[simp] theorem Strand.stepGen_task (t : Strand) (x : Nat) : (t.stepGen x).task = t.task := rfl
@[simp] theorem Strand.stepGen_entry (t : Strand) (x : Nat) : (t.stepGen x).entry = t.entry := rfl
@[simp] theorem Strand.stepGen_fresh (t : Strand) (x : Nat) : (t.stepGen x).fresh = t.fresh := rfl
@[simp] theorem Strand.stepGen_arrived (t : Strand) (x : Nat) : (t.stepGen x).arrived = t.arrived := rfl
@[simp] theorem Strand.stepGen_away (t : Strand) (x : Nat) : (t.stepGen x).away = t.away := rfl
@[simp] theorem Strand.stepGen_preempt (t : Strand) (x : Nat) : (t.stepGen x).preempt = t.preempt := rfl
@[simp] theorem Strand.stepGen_record (t : Strand) (x : Nat) : (t.stepGen x).record = t.record := rfl
@[simp] theorem Strand.stepGen_waits (t : Strand) (x : Nat) : (t.stepGen x).waits = t.waits := rfl
@[simp] theorem Strand.stepGen_resuming (t : Strand) (x : Nat) : (t.stepGen x).resuming = t.resuming := rfl
@[simp] theorem Strand.stepGen_inBeat (t : Strand) (x : Nat) : (t.stepGen x).inBeat = t.inBeat := rfl
@[simp] theorem Strand.stepGen_susp (t : Strand) (x : Nat) : (t.stepGen x).susp = t.susp := rfl
@[simp] theorem Strand.stepGen_arrival (t : Strand) (x : Nat) : (t.stepGen x).arrival = t.arrival := rfl
@[simp] theorem Strand.stepGen_passed (t : Strand) (x : Nat) : (t.stepGen x).passed = t.passed := rfl
@[simp] theorem Strand.stepGen_spilled (t : Strand) (x : Nat) : (t.stepGen x).spilled = t.spilled := rfl

@[simp] theorem Strand.stepScalar_status (t : Strand) : t.stepScalar.status = t.status := rfl
@[simp] theorem Strand.stepScalar_hive (t : Strand) : t.stepScalar.hive = t.hive := rfl
@[simp] theorem Strand.stepScalar_strandId (t : Strand) : t.stepScalar.strandId = t.strandId := rfl
@[simp] theorem Strand.stepScalar_gangId (t : Strand) : t.stepScalar.gangId = t.gangId := rfl
@[simp] theorem Strand.stepScalar_pc (t : Strand) : t.stepScalar.pc = t.pc := rfl
@[simp] theorem Strand.stepScalar_g (t : Strand) : t.stepScalar.g = t.g := rfl
@[simp] theorem Strand.stepScalar_v (t : Strand) : t.stepScalar.v = t.v := rfl
@[simp] theorem Strand.stepScalar_m (t : Strand) : t.stepScalar.m = t.m := rfl
@[simp] theorem Strand.stepScalar_streams (t : Strand) : t.stepScalar.streams = t.streams := rfl
@[simp] theorem Strand.stepScalar_fslots (t : Strand) : t.stepScalar.fslots = t.fslots := rfl
@[simp] theorem Strand.stepScalar_tables (t : Strand) : t.stepScalar.tables = t.tables := rfl
@[simp] theorem Strand.stepScalar_fpctl (t : Strand) : t.stepScalar.fpctl = t.fpctl := rfl
@[simp] theorem Strand.stepScalar_seed (t : Strand) : t.stepScalar.seed = t.seed := rfl
@[simp] theorem Strand.stepScalar_trappc (t : Strand) : t.stepScalar.trappc = t.trappc := rfl
@[simp] theorem Strand.stepScalar_trapcause (t : Strand) : t.stepScalar.trapcause = t.trapcause := rfl
@[simp] theorem Strand.stepScalar_trapval (t : Strand) : t.stepScalar.trapval = t.trapval := rfl
@[simp] theorem Strand.stepScalar_trapinfo (t : Strand) : t.stepScalar.trapinfo = t.trapinfo := rfl
@[simp] theorem Strand.stepScalar_yieldwin (t : Strand) : t.stepScalar.yieldwin = t.yieldwin := rfl
@[simp] theorem Strand.stepScalar_vregs (t : Strand) : t.stepScalar.vregs = t.vregs := rfl
@[simp] theorem Strand.stepScalar_prio (t : Strand) : t.stepScalar.prio = t.prio := rfl
@[simp] theorem Strand.stepScalar_vlmin (t : Strand) : t.stepScalar.vlmin = t.vlmin := rfl
@[simp] theorem Strand.stepScalar_vlmax (t : Strand) : t.stepScalar.vlmax = t.vlmax := rfl
@[simp] theorem Strand.stepScalar_share (t : Strand) : t.stepScalar.share = t.share := rfl
@[simp] theorem Strand.stepScalar_slot (t : Strand) : t.stepScalar.slot = t.slot := rfl
@[simp] theorem Strand.stepScalar_placed (t : Strand) : t.stepScalar.placed = t.placed := rfl
@[simp] theorem Strand.stepScalar_pg (t : Strand) : t.stepScalar.pg = t.pg := rfl
@[simp] theorem Strand.stepScalar_grant (t : Strand) : t.stepScalar.grant = t.grant := rfl
@[simp] theorem Strand.stepScalar_egs (t : Strand) : t.stepScalar.egs = t.egs := rfl
@[simp] theorem Strand.stepScalar_mvl (t : Strand) : t.stepScalar.mvl = t.mvl := rfl
@[simp] theorem Strand.stepScalar_held (t : Strand) : t.stepScalar.held = t.held := rfl
@[simp] theorem Strand.stepScalar_resumePc (t : Strand) : t.stepScalar.resumePc = t.resumePc := rfl
@[simp] theorem Strand.stepScalar_hsave (t : Strand) : t.stepScalar.hsave = t.hsave := rfl
@[simp] theorem Strand.stepScalar_pendTrap (t : Strand) : t.stepScalar.pendTrap = t.pendTrap := rfl
@[simp] theorem Strand.stepScalar_pendFault (t : Strand) : t.stepScalar.pendFault = t.pendFault := rfl
@[simp] theorem Strand.stepScalar_kept (t : Strand) : t.stepScalar.kept = t.kept := rfl
@[simp] theorem Strand.stepScalar_pushBits (t : Strand) : t.stepScalar.pushBits = t.pushBits := rfl
@[simp] theorem Strand.stepScalar_pushed (t : Strand) : t.stepScalar.pushed = t.pushed := rfl
@[simp] theorem Strand.stepScalar_task (t : Strand) : t.stepScalar.task = t.task := rfl
@[simp] theorem Strand.stepScalar_entry (t : Strand) : t.stepScalar.entry = t.entry := rfl
@[simp] theorem Strand.stepScalar_fresh (t : Strand) : t.stepScalar.fresh = t.fresh := rfl
@[simp] theorem Strand.stepScalar_arrived (t : Strand) : t.stepScalar.arrived = t.arrived := rfl
@[simp] theorem Strand.stepScalar_away (t : Strand) : t.stepScalar.away = t.away := rfl
@[simp] theorem Strand.stepScalar_preempt (t : Strand) : t.stepScalar.preempt = t.preempt := rfl
@[simp] theorem Strand.stepScalar_record (t : Strand) : t.stepScalar.record = t.record := rfl
@[simp] theorem Strand.stepScalar_waits (t : Strand) : t.stepScalar.waits = t.waits := rfl
@[simp] theorem Strand.stepScalar_resuming (t : Strand) : t.stepScalar.resuming = t.resuming := rfl
@[simp] theorem Strand.stepScalar_inBeat (t : Strand) : t.stepScalar.inBeat = t.inBeat := rfl
@[simp] theorem Strand.stepScalar_susp (t : Strand) : t.stepScalar.susp = t.susp := rfl
@[simp] theorem Strand.stepScalar_arrival (t : Strand) : t.stepScalar.arrival = t.arrival := rfl
@[simp] theorem Strand.stepScalar_passed (t : Strand) : t.stepScalar.passed = t.passed := rfl
@[simp] theorem Strand.stepScalar_spilled (t : Strand) : t.stepScalar.spilled = t.spilled := rfl
@[simp] theorem Strand.stepScalar_rsr (t : Strand) : t.stepScalar.rsr = t.rsr.set 0 (rsrStep t.rsr[0]) := rfl

@[simp] theorem Strand.setGreg_status (t : Strand) (r : BitVec 5) (x : Word) : (t.setGreg r x).status = t.status := by
  unfold Strand.setGreg; split <;> rfl
@[simp] theorem Strand.setGreg_hive (t : Strand) (r : BitVec 5) (x : Word) : (t.setGreg r x).hive = t.hive := by
  unfold Strand.setGreg; split <;> rfl
@[simp] theorem Strand.setGreg_strandId (t : Strand) (r : BitVec 5) (x : Word) : (t.setGreg r x).strandId = t.strandId := by
  unfold Strand.setGreg; split <;> rfl
@[simp] theorem Strand.setGreg_gangId (t : Strand) (r : BitVec 5) (x : Word) : (t.setGreg r x).gangId = t.gangId := by
  unfold Strand.setGreg; split <;> rfl
@[simp] theorem Strand.setGreg_pc (t : Strand) (r : BitVec 5) (x : Word) : (t.setGreg r x).pc = t.pc := by
  unfold Strand.setGreg; split <;> rfl
@[simp] theorem Strand.setGreg_v (t : Strand) (r : BitVec 5) (x : Word) : (t.setGreg r x).v = t.v := by
  unfold Strand.setGreg; split <;> rfl
@[simp] theorem Strand.setGreg_m (t : Strand) (r : BitVec 5) (x : Word) : (t.setGreg r x).m = t.m := by
  unfold Strand.setGreg; split <;> rfl
@[simp] theorem Strand.setGreg_streams (t : Strand) (r : BitVec 5) (x : Word) : (t.setGreg r x).streams = t.streams := by
  unfold Strand.setGreg; split <;> rfl
@[simp] theorem Strand.setGreg_fslots (t : Strand) (r : BitVec 5) (x : Word) : (t.setGreg r x).fslots = t.fslots := by
  unfold Strand.setGreg; split <;> rfl
@[simp] theorem Strand.setGreg_tables (t : Strand) (r : BitVec 5) (x : Word) : (t.setGreg r x).tables = t.tables := by
  unfold Strand.setGreg; split <;> rfl
@[simp] theorem Strand.setGreg_fpctl (t : Strand) (r : BitVec 5) (x : Word) : (t.setGreg r x).fpctl = t.fpctl := by
  unfold Strand.setGreg; split <;> rfl
@[simp] theorem Strand.setGreg_seed (t : Strand) (r : BitVec 5) (x : Word) : (t.setGreg r x).seed = t.seed := by
  unfold Strand.setGreg; split <;> rfl
@[simp] theorem Strand.setGreg_rsr (t : Strand) (r : BitVec 5) (x : Word) : (t.setGreg r x).rsr = t.rsr := by
  unfold Strand.setGreg; split <;> rfl
@[simp] theorem Strand.setGreg_trappc (t : Strand) (r : BitVec 5) (x : Word) : (t.setGreg r x).trappc = t.trappc := by
  unfold Strand.setGreg; split <;> rfl
@[simp] theorem Strand.setGreg_trapcause (t : Strand) (r : BitVec 5) (x : Word) : (t.setGreg r x).trapcause = t.trapcause := by
  unfold Strand.setGreg; split <;> rfl
@[simp] theorem Strand.setGreg_trapval (t : Strand) (r : BitVec 5) (x : Word) : (t.setGreg r x).trapval = t.trapval := by
  unfold Strand.setGreg; split <;> rfl
@[simp] theorem Strand.setGreg_trapinfo (t : Strand) (r : BitVec 5) (x : Word) : (t.setGreg r x).trapinfo = t.trapinfo := by
  unfold Strand.setGreg; split <;> rfl
@[simp] theorem Strand.setGreg_yieldwin (t : Strand) (r : BitVec 5) (x : Word) : (t.setGreg r x).yieldwin = t.yieldwin := by
  unfold Strand.setGreg; split <;> rfl
@[simp] theorem Strand.setGreg_vregs (t : Strand) (r : BitVec 5) (x : Word) : (t.setGreg r x).vregs = t.vregs := by
  unfold Strand.setGreg; split <;> rfl
@[simp] theorem Strand.setGreg_prio (t : Strand) (r : BitVec 5) (x : Word) : (t.setGreg r x).prio = t.prio := by
  unfold Strand.setGreg; split <;> rfl
@[simp] theorem Strand.setGreg_vlmin (t : Strand) (r : BitVec 5) (x : Word) : (t.setGreg r x).vlmin = t.vlmin := by
  unfold Strand.setGreg; split <;> rfl
@[simp] theorem Strand.setGreg_vlmax (t : Strand) (r : BitVec 5) (x : Word) : (t.setGreg r x).vlmax = t.vlmax := by
  unfold Strand.setGreg; split <;> rfl
@[simp] theorem Strand.setGreg_share (t : Strand) (r : BitVec 5) (x : Word) : (t.setGreg r x).share = t.share := by
  unfold Strand.setGreg; split <;> rfl
@[simp] theorem Strand.setGreg_slot (t : Strand) (r : BitVec 5) (x : Word) : (t.setGreg r x).slot = t.slot := by
  unfold Strand.setGreg; split <;> rfl
@[simp] theorem Strand.setGreg_placed (t : Strand) (r : BitVec 5) (x : Word) : (t.setGreg r x).placed = t.placed := by
  unfold Strand.setGreg; split <;> rfl
@[simp] theorem Strand.setGreg_pg (t : Strand) (r : BitVec 5) (x : Word) : (t.setGreg r x).pg = t.pg := by
  unfold Strand.setGreg; split <;> rfl
@[simp] theorem Strand.setGreg_grant (t : Strand) (r : BitVec 5) (x : Word) : (t.setGreg r x).grant = t.grant := by
  unfold Strand.setGreg; split <;> rfl
@[simp] theorem Strand.setGreg_egs (t : Strand) (r : BitVec 5) (x : Word) : (t.setGreg r x).egs = t.egs := by
  unfold Strand.setGreg; split <;> rfl
@[simp] theorem Strand.setGreg_mvl (t : Strand) (r : BitVec 5) (x : Word) : (t.setGreg r x).mvl = t.mvl := by
  unfold Strand.setGreg; split <;> rfl
@[simp] theorem Strand.setGreg_queue (t : Strand) (r : BitVec 5) (x : Word) : (t.setGreg r x).queue = t.queue := by
  unfold Strand.setGreg; split <;> rfl
@[simp] theorem Strand.setGreg_held (t : Strand) (r : BitVec 5) (x : Word) : (t.setGreg r x).held = t.held := by
  unfold Strand.setGreg; split <;> rfl
@[simp] theorem Strand.setGreg_resumePc (t : Strand) (r : BitVec 5) (x : Word) : (t.setGreg r x).resumePc = t.resumePc := by
  unfold Strand.setGreg; split <;> rfl
@[simp] theorem Strand.setGreg_hsave (t : Strand) (r : BitVec 5) (x : Word) : (t.setGreg r x).hsave = t.hsave := by
  unfold Strand.setGreg; split <;> rfl
@[simp] theorem Strand.setGreg_pendTrap (t : Strand) (r : BitVec 5) (x : Word) : (t.setGreg r x).pendTrap = t.pendTrap := by
  unfold Strand.setGreg; split <;> rfl
@[simp] theorem Strand.setGreg_pendFault (t : Strand) (r : BitVec 5) (x : Word) : (t.setGreg r x).pendFault = t.pendFault := by
  unfold Strand.setGreg; split <;> rfl
@[simp] theorem Strand.setGreg_kept (t : Strand) (r : BitVec 5) (x : Word) : (t.setGreg r x).kept = t.kept := by
  unfold Strand.setGreg; split <;> rfl
@[simp] theorem Strand.setGreg_pushBits (t : Strand) (r : BitVec 5) (x : Word) : (t.setGreg r x).pushBits = t.pushBits := by
  unfold Strand.setGreg; split <;> rfl
@[simp] theorem Strand.setGreg_pushed (t : Strand) (r : BitVec 5) (x : Word) : (t.setGreg r x).pushed = t.pushed := by
  unfold Strand.setGreg; split <;> rfl
@[simp] theorem Strand.setGreg_task (t : Strand) (r : BitVec 5) (x : Word) : (t.setGreg r x).task = t.task := by
  unfold Strand.setGreg; split <;> rfl
@[simp] theorem Strand.setGreg_entry (t : Strand) (r : BitVec 5) (x : Word) : (t.setGreg r x).entry = t.entry := by
  unfold Strand.setGreg; split <;> rfl
@[simp] theorem Strand.setGreg_fresh (t : Strand) (r : BitVec 5) (x : Word) : (t.setGreg r x).fresh = t.fresh := by
  unfold Strand.setGreg; split <;> rfl
@[simp] theorem Strand.setGreg_arrived (t : Strand) (r : BitVec 5) (x : Word) : (t.setGreg r x).arrived = t.arrived := by
  unfold Strand.setGreg; split <;> rfl
@[simp] theorem Strand.setGreg_away (t : Strand) (r : BitVec 5) (x : Word) : (t.setGreg r x).away = t.away := by
  unfold Strand.setGreg; split <;> rfl
@[simp] theorem Strand.setGreg_preempt (t : Strand) (r : BitVec 5) (x : Word) : (t.setGreg r x).preempt = t.preempt := by
  unfold Strand.setGreg; split <;> rfl
@[simp] theorem Strand.setGreg_record (t : Strand) (r : BitVec 5) (x : Word) : (t.setGreg r x).record = t.record := by
  unfold Strand.setGreg; split <;> rfl
@[simp] theorem Strand.setGreg_waits (t : Strand) (r : BitVec 5) (x : Word) : (t.setGreg r x).waits = t.waits := by
  unfold Strand.setGreg; split <;> rfl
@[simp] theorem Strand.setGreg_resuming (t : Strand) (r : BitVec 5) (x : Word) : (t.setGreg r x).resuming = t.resuming := by
  unfold Strand.setGreg; split <;> rfl
@[simp] theorem Strand.setGreg_inBeat (t : Strand) (r : BitVec 5) (x : Word) : (t.setGreg r x).inBeat = t.inBeat := by
  unfold Strand.setGreg; split <;> rfl
@[simp] theorem Strand.setGreg_susp (t : Strand) (r : BitVec 5) (x : Word) : (t.setGreg r x).susp = t.susp := by
  unfold Strand.setGreg; split <;> rfl
@[simp] theorem Strand.setGreg_arrival (t : Strand) (r : BitVec 5) (x : Word) : (t.setGreg r x).arrival = t.arrival := by
  unfold Strand.setGreg; split <;> rfl
@[simp] theorem Strand.setGreg_passed (t : Strand) (r : BitVec 5) (x : Word) : (t.setGreg r x).passed = t.passed := by
  unfold Strand.setGreg; split <;> rfl
@[simp] theorem Strand.setGreg_spilled (t : Strand) (r : BitVec 5) (x : Word) : (t.setGreg r x).spilled = t.spilled := by
  unfold Strand.setGreg; split <;> rfl

/-! Strands by number. -/

theorem State.strand_set (s : State) (k j : Nat) (t : Strand) :
    (s.setStrand k t).strand j = if k = j ∧ k < s.strands.length then t else s.strand j := by
  simp only [State.strand, State.setStrand, List.getD_eq_getElem?_getD, List.getElem?_set]
  by_cases h : k = j <;> by_cases l : k < s.strands.length <;> simp [h, l]
  · subst h; simp [l]
  · subst h; simp [l]

theorem State.strand_mod (s : State) (k j : Nat) (f : Strand → Strand) :
    (s.modStrand k f).strand j = if k = j ∧ k < s.strands.length then f (s.strand k) else s.strand j :=
  State.strand_set s k j _

/-- Strand k after its own update. -/
theorem State.strand_mod_self (s : State) (k : Nat) (f : Strand → Strand) (h : k < s.strands.length) :
    (s.modStrand k f).strand k = f (s.strand k) := by simp [State.strand_mod, h]

theorem State.strand_mod_other (s : State) (k j : Nat) (f : Strand → Strand) (h : j ≠ k) :
    (s.modStrand k f).strand j = s.strand j := by
  rw [State.strand_mod, if_neg (fun x => h x.1.symm)]

@[simp] theorem State.modStrand_length (s : State) (k : Nat) (f : Strand → Strand) :
    (s.modStrand k f).strands.length = s.strands.length := by simp [State.modStrand]

@[simp] theorem State.modMe_length (s : State) (f : Strand → Strand) :
    (s.modMe f).strands.length = s.strands.length := State.modStrand_length s s.cur f

theorem State.cur_lt_of_runs {s : State} (h : s.runs = true) : s.cur < s.strands.length := by
  simp only [State.runs, Bool.and_eq_true, decide_eq_true_eq] at h
  exact h.1.1

/-- The issuing strand after its own update. -/
theorem State.me_mod {s : State} (h : s.runs = true) (f : Strand → Strand) : (s.modMe f).me = f s.me :=
  State.strand_mod_self s s.cur f (State.cur_lt_of_runs h)

@[simp] theorem State.modCore_strand (s : State) (c k : Nat) (f : Core → Core) : (s.modCore c f).strand k = s.strand k := rfl

@[simp] theorem State.modHive_strand (s : State) (h k : Nat) (f : Hive → Hive) : (s.modHive h f).strand k = s.strand k := rfl

@[simp] theorem State.modCore_me (s : State) (c : Nat) (f : Core → Core) : (s.modCore c f).me = s.me := rfl

@[simp] theorem State.modHive_me (s : State) (h : Nat) (f : Hive → Hive) : (s.modHive h f).me = s.me := rfl

/-! Registers. -/

@[simp] theorem Strand.greg_zero (t : Strand) : t.greg 0 = 0 := by simp [Strand.greg]

/-- A register read after a write to it; g0 stays zero. -/
theorem Strand.greg_setGreg (t : Strand) (r q : BitVec 5) (x : Word) :
    (t.setGreg r x).greg q = if q = r ∧ r ≠ 0 then x else t.greg q := by
  unfold Strand.setGreg
  by_cases hr : r = 0
  · simp [hr]
  · rw [if_neg hr]
    unfold Strand.greg
    by_cases hq : q = 0
    · rw [if_pos hq, if_pos hq, if_neg (fun h => hr (h.1.symm.trans hq))]
    · rw [if_neg hq, if_neg hq]
      by_cases e : q = r
      · subst e; rw [if_pos ⟨rfl, hr⟩]; exact Vector.getElem_set_self _
      · have : q.toNat ≠ r.toNat := fun h => e (BitVec.eq_of_toNat_eq h)
        rw [if_neg (fun h => e h.1)]
        exact Vector.getElem_set_ne r.isLt q.isLt (Ne.symm this)

@[simp] theorem Strand.greg_nextPc (t : Strand) (r : BitVec 5) : t.nextPc.greg r = t.greg r := rfl

@[simp] theorem Strand.nextPc_pc (t : Strand) : t.nextPc.pc = t.pc + 8 := rfl

theorem Strand.vreg_setVreg (t : Strand) (r q : BitVec 6) (x : VReg) :
    (t.setVreg r x).vreg q = if q = r then x else t.vreg q := by
  unfold Strand.setVreg Strand.vreg
  by_cases e : q = r
  · subst e; simp
  · have : q.toNat ≠ r.toNat := fun h => e (BitVec.eq_of_toNat_eq h)
    simp [e, Vector.getElem_set_ne _ _ (Ne.symm this)]

theorem Strand.mreg_setMreg (t : Strand) (r q : BitVec 3) (x : MReg) :
    (t.setMreg r x).mreg q = if q = r then x else t.mreg q := by
  unfold Strand.setMreg Strand.mreg
  by_cases e : q = r
  · subst e; simp
  · have : q.toNat ≠ r.toNat := fun h => e (BitVec.eq_of_toNat_eq h)
    simp [e, Vector.getElem_set_ne _ _ (Ne.symm this)]

/-! Cores by number. -/

theorem State.core_mod (s : State) (c d : Nat) (f : Core → Core) :
    (s.modCore c f).core d = if c = d ∧ c < s.cores.length then f (s.core c) else s.core d := by
  simp only [State.core, State.modCore, List.getD_eq_getElem?_getD, List.getElem?_set]
  by_cases h : c = d <;> by_cases l : c < s.cores.length <;> simp [h, l]
  · subst h; simp [l]
  · subst h; simp [l]

/-! Answers of scalar meanings. -/

theorem scalar_next {s : State} (h : s.runs = true) (t : State) : scalar s (.ok t) = .next t := by
  simp [scalar, h]

theorem scalar_trap {s : State} (h : s.runs = true) (t : Trap) : scalar s (.error t) = .next (raise s t) := by
  simp [scalar, h]

theorem scalarWait_next {s : State} (h : s.runs = true) (t : State) : scalarWait s (some (.ok t)) = .next t := by
  simp [scalarWait, h]

theorem scalarWait_trap {s : State} (h : s.runs = true) (t : Trap) :
    scalarWait s (some (.error t)) = .next (raise s t) := by
  simp [scalarWait, h]

/-- What finish does: one register and the program counter of the issuing strand. -/
theorem State.finish_me {s : State} (h : s.runs = true) (rd : BitVec 5) (x : Word) :
    (s.finish rd x).me = (s.me.setGreg rd x).nextPc := State.me_mod h _

end Sys2Proof.Machine
end

