-- ==== Sys2Proof/Laws/Scalar.lean ====
section
/-! SUPPORT. What the shared endings of scalar instructions do: one register and the pc, or the pc alone. -/

namespace Sys2Proof.Machine

theorem onlyMe_mod (s : State) (f : Strand → Strand) : OnlyMe s (s.modMe f) :=
  ⟨rfl, State.modMe_length s f, fun k hk => State.strand_mod_other s s.cur k f hk⟩

theorem OnlyMe.sameMemory {s t : State} (h : OnlyMe s t) : SameMemory s t := by
  rw [h.1]; exact ⟨fun _ => rfl, fun _ _ => rfl⟩

theorem OnlyMe.memWf {s t : State} (h : OnlyMe s t) : t.memWf = s.memWf := by rw [h.1]; rfl

theorem Wrote.finish {s : State} (h : s.runs = true) (rd : BitVec 5) (x : Word) : Wrote s (s.finish rd x) rd x := by
  refine ⟨onlyMe_mod s _, ?_, fun r => ?_⟩
  · rw [State.finish_me h]
    unfold Strand.setGreg
    split <;> rfl
  · rw [State.finish_me h, Strand.greg_nextPc, Strand.greg_setGreg]
    by_cases e : r = rd
    · subst e; rfl
    · simp [e]

/-- An instruction that is the mould of R316 writes its result. -/
theorem Gives.alu {i : Instr} {s : State} (h : s.runs = true) {rd : BitVec 5} {x y : Word}
    (e : exec i s = alu s rd y) (xy : y = x) : Gives i s rd x :=
  ⟨_, e.trans (scalar_next h _), xy ▸ Wrote.finish h rd y⟩

theorem GoesTo.branch {i : Instr} {s : State} (h : s.runs = true) {o : BFmt} {b : Bool} {pc : Word}
    (e : exec i s = branch o s b) (p : (if b then target s.me.pc o.off else s.me.pc + 8) = pc) : GoesTo i s pc :=
  ⟨_, e.trans (scalar_next h _), onlyMe_mod s _, by rw [State.me_mod h, p]⟩

theorem GoesTo.advance {i : Instr} {s : State} (h : s.runs = true)
    (e : exec i s = scalar s (.ok s.advance)) : GoesTo i s (s.me.pc + 8) :=
  ⟨_, e.trans (scalar_next h _), onlyMe_mod s _, State.me_mod h _⟩

end Sys2Proof.Machine
end

