-- ==== Sys2Proof/Tests/Slice0.lean ====
section
/-! SUPPORT. Tests: words of the spec decode to their instructions, ill-formed terms are refused, single steps on a small
state give what the spec's entries give, and the hypotheses of every statement are met by some state. -/

namespace Sys2Proof.Tests
open Sys2Proof Sys2Proof.Machine

set_option Elab.async false

/-! ## A small state -/

/-- One core, one hive and its strand, which runs alone on the core (the hive and strand of Load.lean). -/
def tiny : State :=
  { State.reset with
    cores := [Core.reset], rings := [], strands := [loadedStrand], hives := [loadedHive], lastStrandId := 1, boot := { Boot.reset with mr0 := 0 }
    parts := [{ Partition.reset with live := true, root := 1, granules := [0] }] }

/-- A state with general registers of its strand set. -/
def withRegs (l : List (BitVec 5 × Word)) (s : State) : State :=
  s.modMe (fun t => l.foldl (fun t x => t.setGreg x.1 x.2) t)

/-- The state that an instruction leads to. -/
def next (i : Instr) (s : State) : State :=
  match exec i s with
  | .next t => t
  | _ => s

/-- First address of the scratchpad window (R93). -/
def win : Word := 0x01F0000000000000

/-- tiny with the first GiB of its hive mapped to physical addresses from 2^30 on, by a root entry and one leaf with some
permission bits (Tables 4.3 and 4.4). -/
def mapped (bits : Nat) : State :=
  { tiny with mem := Mem.write (Mem.write [] 0x200000 8 0x220001) 0x220000 8 (0x40000003 + bits) }

/-- tiny with a word where its next step fetches. -/
def fetches (w : Word) : State := placeWord (itsTurn tiny) 64 w.toNat

/-- A general-format instruction's operands. -/
def g123 : GFmt := ⟨1, 2, 3, 0, 0⟩

/-! ## Witnesses: states and operands that meet the hypotheses of each statement, clause by clause -/

/-- The first place of a step given to strand 0 of core 0. -/
def firstPlace (s : State) : State :=
  { ({ beginStep s with deviceTurn := true }.modCore 0 (fun x => { x with roundFirst := none })) with cur := 0, coreTurn := 0 }.modCore 0
    (fun x => { x with roundFirst := none })

/-- The second place of a step given to strand 1 of core 0. -/
def secondPlace (s : State) : State :=
  { ({ beginStep s with deviceTurn := true }) with cur := 1, coreTurn := 0 }.modCore 0 (fun x => { x with roundFirst := none })

/-- tiny with a second strand on the same core. -/
def pair : State := { tiny with strands := [loadedStrand, { loadedStrand with strandId := 2, slot := 1 }] }

/-- A word at the PC of both strands of pair, the first place of the cycle taken by strand 0. -/
def bothFetch (w : Word) : State := (placeWord (itsTurn pair) 64 w.toNat).modCore 0 (fun c => { c with roundFirst := some 0 })

theorem witness_StepRunsTheDecodedInstruction :
    (let s := fetches 0x0100_190A_0000_0000
     let v := firstPlace s
     TakesPlace s v false ∧ inArena v.myHive v.me.pc.toNat = true ∧
       decode (codeWord v v.me.coreNo v.me.pc.toNat) = .ok (.add ⟨3, 4, 5, 0, 0⟩)) ∧
    (let s := bothFetch 0x0100_190A_0000_0000
     let v := secondPlace s
     TakesPlace s v true ∧ inArena v.myHive v.me.pc.toNat = true ∧
       decode (codeWord v v.me.coreNo v.me.pc.toNat) = .ok (.add ⟨3, 4, 5, 0, 0⟩)) :=
  ⟨⟨⟨by decide, by decide, by decide, _, 0, 0, rfl, by decide, rfl⟩, by decide, by decide⟩,
    ⟨⟨by decide, by decide, 1, by decide, rfl⟩, by decide, by decide⟩⟩

theorem witness_FetchOutsideArenaTraps :
    let at_ (pc w : Word) : State := placeWord (itsTurn (tiny.modMe (fun t => { t with pc := pc }))) 64 w.toNat
    let v (pc w : Word) : State := firstPlace (at_ pc w)
    (TakesPlace (at_ 0xFFF8 0) (v 0xFFF8 0) false ∧ (v 0xFFF8 0).me.pc.toNat < (v 0xFFF8 0).myHive.codebase) ∧
    (TakesPlace (at_ 0x20000 0) (v 0x20000 0) false ∧ (v 0x20000 0).myHive.codebound < (v 0x20000 0).me.pc.toNat + 8) ∧
    (TakesPlace (at_ 0x1FFF8 0) (v 0x1FFF8 0) false ∧ (v 0x1FFF8 0).me.pc.toNat + 8 ≤ (v 0x1FFF8 0).myHive.codebound ∧
     decode (codeWord (v 0x1FFF8 0) 0 0x1FFF8) = .illegalOp ∧ queuedWord 0 = false ∧
     decode (codeWord (v 0x10000 0x0100_190A_0000_0001) 0 0x10000) = .illegalField ∧ queuedWord 0x0100_190A_0000_0001 = false) ∧
    (decode (codeWord (v 0x10000 0x60FF_0000_0000_0000) 0 0x10000) = .illegalOp ∧ queuedWord 0x60FF_0000_0000_0000 = true ∧
     decode (codeWord (v 0x10000 0x6000_0000_0000_00FF) 0 0x10000) = .illegalField ∧ queuedWord 0x6000_0000_0000_00FF = true) :=
  ⟨⟨⟨by decide, by decide, by decide, _, 0, 0, rfl, by decide, rfl⟩, by decide⟩,
    ⟨⟨by decide, by decide, by decide, _, 0, 0, rfl, by decide, rfl⟩, by decide⟩,
    ⟨⟨by decide, by decide, by decide, _, 0, 0, rfl, by decide, rfl⟩, by decide, by decide, by decide, by decide, by decide⟩,
    by decide, by decide, by decide, by decide⟩

theorem witness_runs : tiny.runs = true ∧ (loadRoot State.reset).runs = true := by decide

theorem witness_NopOnlyAdvancesPc :
    opOf 0x3301_0000_0000_0000 = 0x33 ∧ fnOf 0x3301_0000_0000_0000 ≠ 0x00 ∧ fnOf 0x3300_0000_0000_0001 = 0x00 := by decide

theorem witness_ExtendCountAndImmediateResults :
    1 ≤ ((⟨1, 2, 0, 0, 1⟩ : GFmt).q.extractLsb' 0 6).toNat ∧ (⟨1, 2, 0, 63⟩ : IFmt).imm.toNat < 64 := by decide

theorem witness_BranchesAndJumps :
    let o : IFmt := ⟨1, 2, 0, 4⟩
    ((withRegs [(2, 0x10004)] tiny).me.greg o.ga + o.imm.signExtend 64).toNat % 8 = 0 ∧
    ((withRegs [(2, 0x10000)] tiny).me.greg o.ga + o.imm.signExtend 64).toNat % 8 ≠ 0 := by decide

theorem witness_ScalarFloatResults :
    let nan := fdecode (floatFmt .f32) 0x7FC00000
    let one := fdecode (floatFmt .f32) 0x3F800000
    let zero (s : Bool) : FVal := .fin s 0 0
    (nan.isNan = true ∧ one.isNan = false ∧ one = .fin false 8388608 (-23)) ∧
    (fdecode (floatFmt .f32) 0x7F800000 = .inf false ∧ fdecode (floatFmt .f32) 0xFF800000 = .inf true) ∧
    (one.units (-23) + one.units (-23) ≠ 0 ∧ one.units (-23) + (FVal.fin true 8388608 (-23)).units (-23) = 0) ∧
    (one.Below (.inf false) ∧ (FVal.inf true).Below one ∧ (FVal.inf true).Below (.inf false) ∧ one.Below (.fin false 2 0)) ∧
    (¬ (FVal.fin false 2 0).Below one ∧ ¬ nan.Below one ∧ ¬ one.Below nan) ∧
    (¬ (zero true).Below (zero false) ∧ ¬ (zero false).Below (zero true) ∧ (zero true).neg = true ∧ (zero false).neg = false) ∧
    ((⟨1, 2, 3, 0, 5 * 32⟩ : GFmt).q.extractLsb' 5 3).toNat = 5 := by
  refine ⟨by decide, by decide, by decide, ?_, ?_, ?_, by decide⟩
  all_goals simp only [show fdecode (floatFmt .f32) 0x7FC00000 = .nan false by decide,
    show fdecode (floatFmt .f32) 0x3F800000 = .fin false 8388608 (-23) by decide]
  all_goals simp [FVal.Below, FVal.units, FVal.power, FVal.neg]

theorem witness_WhereAnAddressLeads :
    let size := (512 + 256 * (tiny.core 0).sps.toNat) * 1024
    win.toNat = 0x01F0000000000000 + 0 ∧ size * 16 / 16 - 1 < size * 16 / 16 ∧ size * 16 / 16 < 2 ^ 52 ∧
    (2 ^ 57 : Nat) < 2 ^ 64 ∧
    (∃ e, walk (mapped 12) loadedHive 5 = .leaf e ∧ e.r = true ∧ e.w = true ∧
      (mapped 12).shadowAt (e.pbase + (5 - e.vbase)) = none ∧ (mapped 12).sealed (e.pbase + (5 - e.vbase)) = false) ∧
    (∃ e, walk (mapped 4) loadedHive 5 = .leaf e ∧ e.w = false) ∧
    walk tiny loadedHive 5 = .fail .notPresent ∧ (tiny.core 0).tlb = [] :=
  ⟨by decide, by decide, by decide, by decide, ⟨_, rfl, by decide⟩, ⟨_, rfl, by decide⟩, by decide, by decide⟩

set_option maxRecDepth 8000 in
theorem witness_ScratchpadLoadsAndStores :
    let s := withRegs [(2, win)] tiny
    let o : MFmt := ⟨1, 2, 3, 0, 0, 8⟩
    let va := s.me.greg o.ga + o.disp.signExtend 64
    s.runs = true ∧ va.toNat % loadBytes .d = 0 ∧ 0 < s.cores.length ∧ locate s s.who va.toNat .read = .ok (.scratch 0 8, s) ∧
    locate s s.who va.toNat .write = .ok (.scratch 0 8, s) ∧ o.ord = 0 ∧ (⟨1, 2, 3, 1, 0, 8⟩ : MFmt).scope = 0 ∧
    (⟨1, 2, 3, 2, 3, 8⟩ : MFmt).ord = 2 := ⟨by decide, by decide, by decide, rfl, rfl, by decide, by decide, by decide⟩

/-- A line of the L1 with one dirty byte. -/
def dirtyLine : L1Line := { line := 2 ^ 23, data := 7, dirty := 1, hive := 1, since := 0 }

/-- tiny mapped, SPLIT of its core set (6: nothing is left for the L1). -/
def smallL1 (sps : BitVec 3) : State := (mapped 12).modCore 0 (fun c => { c with sps := sps })

theorem witness_MemoryLoadsAndStores :
    let o : MFmt := ⟨1, 2, 3, 0, 0, 8⟩
    let va (s : State) := s.me.greg o.ga + o.disp.signExtend 64
    (mapped 12).runs = true ∧ (va (mapped 12)).toNat % 8 = 0 ∧ (mapped 12).who.core = some 0 ∧
    (∃ e u, locate (mapped 12) (mapped 12).who 8 .read = .ok (.mem (2 ^ 30 + 8) e, u) ∧ e.nl1 = false) ∧
    (∃ e u, locate (mapped 12) (mapped 12).who 8 .write = .ok (.mem (2 ^ 30 + 8) e, u) ∧ e.tw = false ∧ e.nl1 = false) ∧
    (∃ e u, locate (mapped 44) (mapped 44).who 8 .read = .ok (.mem (2 ^ 30 + 8) e, u) ∧ e.nl1 = true) ∧
    (∃ e u, locate (mapped 44) (mapped 44).who 8 .write = .ok (.mem (2 ^ 30 + 8) e, u) ∧ e.tw = false ∧ e.nl1 = true) ∧
    (∃ e u, locate (flushL1 (mapped 12) 1 0) (mapped 12).who 8 .write = .ok (.mem (2 ^ 30 + 8) e, u) ∧ e.tw = false) ∧
    (∃ e u, locate (mapped 12) (mapped 12).who 8 .amo = .ok (.mem (2 ^ 30 + 8) e, u) ∧ e.tw = false) ∧
    (((mapped 12).core 0).l1Lines ≠ 0 ∧ 0 < (mapped 12).cores.length ∧ ((mapped 12).core 0).hasRoom (2 ^ 30 + 8)) ∧
    (let s := smallL1 6; ((s.core 0).l1Lines = 0 ∧
      ∃ e u, locate s s.who 8 .write = .ok (.mem (2 ^ 30 + 8) e, u) ∧ e.tw = false ∧ (u.core 0).l1Lines = 0)) ∧
    ((((smallL1 2).modCore 0 (fun c => { c with l1 := [dirtyLine] })).core 0).l1.map (fun l => l.line)).Nodup ∧
    dirtyLine.line ≠ (2 ^ 30 + 128) / 128 ∧ (⟨1, 2, 3, 1, 2, 8⟩ : MFmt).scope ≠ 0 :=
  ⟨by decide, by decide, by decide, ⟨_, _, rfl, by decide⟩, ⟨_, _, rfl, by decide⟩, ⟨_, _, rfl, by decide⟩, ⟨_, _, rfl, by decide⟩,
    ⟨_, _, rfl, by decide⟩, ⟨_, _, rfl, by decide⟩, ⟨by decide, by decide, .inr (by decide)⟩,
    ⟨by decide, _, _, rfl, by decide, by decide⟩, by decide, by decide, by decide⟩

theorem witness_AccessTraps :
    ((win + 1).toNat % loadBytes .d ≠ 0 ∧ (win + 1).toNat % storeBytes .d ≠ 0) ∧
    locate tiny tiny.who 8 .read = .error .notPresent ∧ locate (mapped 4) (mapped 4).who 8 .write = .error .notPermitted ∧
    ∃ e u, locate (mapped 28) (mapped 28).who 8 .write = .ok (.mem (2 ^ 30 + 8) e, u) ∧ e.tw = true :=
  ⟨by decide, rfl, rfl, _, _, rfl, by decide⟩

theorem witness_AcquireWritesBackAndInvalidates :
    let s := tiny.modCore 0 (fun c => { c with l1 := [dirtyLine] })
    s.who.core = some 0 ∧ 0 < s.cores.length ∧ ((s.core 0).l1.map (fun l => l.line)).Nodup ∧
    (s.core 0).line (2 ^ 30 / 128) = some dirtyLine ∧ dirtyLine.dirty.getLsbD 0 = true ∧ (3 : Nat) ≠ 0 :=
  ⟨rfl, by decide, by decide, rfl, by decide, by decide⟩

set_option maxRecDepth 8000 in
theorem witness_AtomicReadModifyWrites :
    let s := withRegs [(2, win)] tiny
    win.toNat % 8 = 0 ∧ (win + 4).toNat % 8 ≠ 0 ∧ locate s s.who win.toNat .amo = .ok (.scratch 0 0, s) ∧
    (⟨1, 2, 3, 1, 0, 4⟩ : MFmt).ord.getLsbD 1 = false ∧ (⟨1, 2, 3, 3, 2, 0⟩ : MFmt).ord.getLsbD 1 = true :=
  ⟨by decide, by decide, rfl, by decide, by decide⟩

set_option maxRecDepth 8000 in
theorem witness_FullEmptyAndWaitingLoads :
    let s := withRegs [(2, win)] tiny
    let f := s.modCore 0 (fun c => { c with full := [0] })
    locate s s.who win.toNat .write = .ok (.scratch 0 0, s) ∧ locate f f.who win.toNat .read = .ok (.scratch 0 0, f) ∧
    (s.core 0).isFull (15 / 16) = false ∧ (f.core 0).isFull (15 / 16) = true ∧
    (BitVec.ofNat 64 0 : Word) = s.me.greg 3 ∧ (BitVec.ofNat 64 0 : Word) ≠ (withRegs [(3, 1)] s).me.greg 3 :=
  ⟨rfl, rfl, by decide, by decide, by decide, by decide⟩

/-- A queue entry of an instruction at the queue's start. -/
def entryOf (i : Instr) : QEntry :=
  { item := .instr i, addr := 0x10000, caps := [], p := 0, underM7 := false, mvl := 128, grant := 8, drm := 0, order := 0
    flags := 0, fence := none, tags := none }

/-- A VST of no elements. -/
def someVst : Instr := .vst ⟨1, 0, 0, 0, 0, 0, 0, 2, 0, 0, 0⟩

theorem witness_FencesComplete :
    tiny.me.queue.any (fun e => e.vectorAccess) = false ∧
    (tiny.modMe (fun t => { t with queue := [entryOf someVst] })).me.queue.any (fun e => e.vectorAccess) = true := by decide

theorem witness_GrantsAndControlRegisterReads :
    tiny.me.queue = [] ∧ (tiny.modMe (fun t => { t with queue := [entryOf someVst] })).me.queue ≠ [] ∧
    (⟨1, 0, 0, 0x12⟩ : IFmt).imm = 0x12 ∧ (⟨1, 0, 0, 2⟩ : IFmt).imm = 2 := by decide

theorem witness_ControlRegisterWriting :
    (5 : Word).toNat % 8 < 6 ∧ 6 ≤ (6 : Word).toNat % 8 ∧
    (let x : Word := 0x1FFF8; x.toNat % 8 = 0 ∧ tiny.myHive.codebase ≤ x.toNat ∧ x.toNat + 8 ≤ tiny.myHive.codebound) ∧
    (0x10004 : Word).toNat % 8 ≠ 0 ∧ (let x : Word := 0x20000; x.toNat % 8 = 0 ∧ tiny.myHive.codebound < x.toNat + 8) ∧
    (let x : Word := 0xFFF8; x.toNat % 8 = 0 ∧ x.toNat < tiny.myHive.codebase) ∧ tiny.myHive.parent = 0 ∧
    (tiny.modHive 1 (fun h => { h with parent := 2 })).myHive.parent ≠ 0 := by decide

/-- A copy from scratchpad, not yet started, by the strand of a state. -/
def someCopy (s : State) : Cmd := newCommand s s.cur .copy 0

/-- tiny with a child hive 2 of its hive 1. -/
def family : State := { tiny with hives := [loadedHive, { loadedHive with id := 2, parent := 1, depth := 1, shares := [] }] }

/-- A state in whose partition 0 an HTAKE is in progress. -/
def waitsForTree (s : State) : State := s.modPart 0 (fun p => { p with taking := some ⟨0, 0x10000, 1, 2, [⟨1, 0, 16⟩]⟩ })

theorem witness_SplitFlushAndInvalidate :
    tiny.me.coreNo < tiny.cores.length ∧ (⟨0, 0, 16⟩ : ShareRef) ∈ tiny.myHive.shares ∧
    (⟨0, 0, 16⟩ : ShareRef) ∉ (tiny.modHive 1 (fun h => { h with shares := [⟨0, 0, 8⟩] })).myHive.shares ∧
    (7 : Word).toNat % 8 = 7 ∧ (6 : Word).toNat % 8 < 7 ∧
    (1 < pair.strands.length ∧ 1 ≠ pair.cur ∧ (pair.strand 1).placed = true ∧ (pair.strand 1).coreNo = 0) ∧
    (∀ k < tiny.strands.length, k = tiny.cur) ∧ tiny.cmds = [] ∧ padsOf tiny 0 = [] ∧ tiny.me.queue = [] ∧
    (4 : Nat) % 8 ≠ 0 ∧ (tiny.myHive.codebase ≤ 0x10000 ∧ 0x10000 + 0x10000 ≤ tiny.myHive.codebound) ∧
    tiny.myHive.codebound < 0x10008 + 0x10000 ∧ 0xFFF8 < tiny.myHive.codebase ∧ tiny.myHive ∈ tiny.hives ∧
    (∃ d, family.findHive 2 = some d ∧ d.parent = family.me.hive ∧ family.me.hive ≠ 0) ∧ tiny.findHive 2 = none ∧
    (family.part family.myHive.part).taking = none ∧
    ((waitsForTree family).part family.myHive.part).taking ≠ none :=
  ⟨by decide, by decide, by decide, by decide, by decide, by decide, by decide, by decide, by decide, by decide, by decide,
    by decide, by decide, by decide, by decide, ⟨_, rfl, by decide⟩, by decide, by decide, by decide⟩

/-- tiny, its hive taking SOFTWARE traps itself (R253). -/
def takesTraps : State := tiny.modHive 1 (fun h => { h with trapmask := BitVec.allOnes 64 })

/-- The strand of a state with a page fault to be taken after no older instruction, and instructions in its queue. -/
def faulty (q : List QEntry) (s : State) : State :=
  s.modMe (fun t => { t with queue := q, pendFault := some ⟨⟨.pageFault, 0, 0, 0⟩, 0, 0, false⟩ })

/-- tiny mapped, its hive tracing into 128 bytes from an address on. -/
def traces (base : Word) : State := (mapped 12).modHive 1 (fun h => { h with tracebase := base, tracesize := 128 })

theorem witness_TrapsMarksAndDelivery :
    tiny.myHive.tracesize = 0 ∧ (takesTraps.myHive.trapmask.getLsbD 0x20 = true ∧ takesTraps.myHive.trapmask.getLsbD 0x21 = true ∧
      takesTraps.me.queue = [] ∧ takesTraps.me.trapcause.getLsbD 8 = false ∧ tiny.myHive.trapmask.getLsbD 0x20 = false ∧
      tiny.myHive.trapmask.getLsbD 0x21 = false) ∧
    ((traces 0).myHive.tracesize ≠ 0 ∧ (deviceRead (traces 0) 1 0).any (fun x => x.1 == 0 &&
      deviceWritable x.2 1 64 32 && deviceWritable x.2 1 0 8) = true) ∧
    ((traces 0x3FFFFFC8).myHive.tracesize ≠ 0 ∧ (deviceRead (traces 0x3FFFFFC8) 1 0x3FFFFFC8).any (fun x =>
      !deviceWritable x.2 1 (0x3FFFFFC8 + 64) 32 && (deviceRead x.2 1 (0x3FFFFFC8 + 8)).any (fun y =>
        deviceWritable y.2 1 (0x3FFFFFC8 + 8) 8)) = true) ∧
    (let s := faulty [entryOf someVst] takesTraps
     (s.strand 0).queue ≠ [] ∧ (s.strand 0).resuming = false ∧ Cause.pageFault.parental = false ∧
     (s.hive (s.strand 0).hive).trapmask.getLsbD Cause.pageFault.code = true) ∧
    (let s := tiny.modMe (fun t => { t with pendTrap := some (⟨.software, 1, 0, 0⟩, 0x10000) })
     (s.strand 0).placed = true ∧ (s.strand 0).pendFault = none ∧ (s.strand 0).pendTrap = some (⟨.software, 1, 0, 0⟩, 0x10000) ∧
     (s.strand 0).queue = [] ∧ (s.modMe (fun t => { t with queue := [entryOf someVst] })).me.queue ≠ []) ∧
    (let s := tiny.modMe (fun t => { t with pendFault := some ⟨⟨.pageFault, 0, 0, 0⟩, 0, 0, false⟩ })
     ∃ f, (s.strand 0).pendFault = some f ∧ f.older = 0) :=
  ⟨by decide, by decide, by decide +kernel, by decide +kernel, by decide, by decide, _, rfl, by decide⟩

theorem witness_LocalTrapAndReturn :
    takesTraps.runs = true ∧ takesTraps.me.queue = [] ∧ Cause.software.parental = false ∧
    takesTraps.myHive.trapmask.getLsbD Cause.software.code = true ∧ takesTraps.me.trapcause.getLsbD 8 = false ∧
    takesTraps.myHive.tracesize = 0 ∧ entryOff takesTraps.myHive takesTraps.me % 2 ^ 21 + 0x1500 ≤ 2 ^ 21 := by decide

theorem witness_ParentalTrapDelivery :
    tiny.myHive.tracesize = 0 ∧ Cause.tableWrite.parental = true ∧ family.myHive.trapmask.getLsbD Cause.software.code = false ∧
    (takesTraps.modMe (fun t => { t with trapcause := 256 })).me.trapcause.getLsbD 8 = true ∧
    ¬ (Cause.software = .tableWrite ∧ tiny.myHive.parent = 0) ∧
    (tiny.modHive 1 (fun h => { h with parent := 2 })).myHive.parent ≠ 0 := by decide

theorem witness_TretReturns :
    tiny.me.trapcause.getLsbD 8 = false ∧
    (let s := tiny.modMe (fun t => { t with trapcause := 0x100, held := [entryOf someVst] })
     s.me.trapcause.getLsbD 8 = true ∧ s.me.queue = [] ∧ s.me.held = [entryOf someVst] ∧
     streamUse (entryOf someVst) = some (0, 0)) ∧
    (tiny.modMe (fun t => { t with queue := [entryOf someVst] })).me.queue ≠ [] := by decide

theorem witness_PreemptionAndResumption :
    2 ^ 24 ≤ (0x1000000 : Word).toNat ∧ (0xFFFFFF : Word).toNat < 2 ^ 24 ∧ tiny.me.preempt = none ∧
    (let s := tiny.modMe (fun t => { t with preempt := some ⟨0, false, 0⟩ })
     s.me.preempt ≠ none ∧ s.me.trapcause.getLsbD 8 = false ∧ s.me.queue = [] ∧ windowOver s s.cur = true ∧
     s.me.resuming = false ∧ s.me.inBeat = false ∧
     (s.modMe (fun t => { t with queue := [entryOf someVst] })).me.queue ≠ []) ∧
    windowOver tiny tiny.cur = false ∧
    (let s := tiny.modMe (fun t => { t with resuming := true })
     let r := readEntry (acquireL1 s ⟨1, some ⟨0, 0, 16⟩, true⟩ 2) (s.strand 0)
     0 < s.strands.length ∧ (s.strand 0).placed = true ∧ (s.strand 0).resuming = true ∧ (s.hive 1).tracesize = 0 ∧
     (s.strand 0).away = none ∧ r.queue = [] ∧ r.pendFault = none) := by decide

/-! ## Witnesses: hives, gangs, queued instructions -/

/-- An answer with a property. -/
def meets {ε α : Type} (x : Except ε α) (p : α → Bool) : Bool :=
  match x with
  | .ok a => p a
  | .error _ => false

/-- Fields written in the scratchpad of the strand's core: offset, bytes, number. -/
def record (l : List (Nat × Nat × Nat)) (s : State) : State :=
  s.modCore s.me.coreNo (fun c => { c with scratch := l.foldl (fun m x => Mem.write m x.1 x.2.1 x.2.2) c.scratch })

/-- tiny mapped, with a second core that is its hive's share 1. -/
def lord : State :=
  { (mapped 12).modHive 1 (fun h => { h with shares := [⟨0, 0, 16⟩, ⟨1, 0, 16⟩] }) with cores := [Core.reset, Core.reset] }

/-- A descriptor of a child with one share, and its address in g2. -/
def describes (more : List (Nat × Nat × Nat)) (s : State) : State :=
  withRegs [(2, win)] (record ([(8, 1, 1), (9, 1, 1), (0xA, 1, 1), (0x10, 8, 0x10000000), (0x18, 8, 0x1000000), (0x20, 8, 0x10000),
    (0x28, 8, 0x20000), (0x30, 8, 0x10000), (0x40, 8, 0x20000000), (0x48, 8, 0x400000), (0x58, 4, 16), (0x5C, 4, 2),
    (0x60, 8, 0x40000), (0x68, 8, 0x200000), (0x70, 4, 4), (0x88, 8, 0x10010), (0x90, 8, 7), (0xA0, 2, 100), (0xA2, 4, 1000),
    (0xC0, 4, 1)] ++ more) s)

/-- A hive whose strand runs on a core of the next ring, with the ring and the 12 cores of its own to give. -/
def ringlord : State :=
  { (mapped 12).modHive 1 (fun h => { h with ring := .held, shares := (List.range 12).map (fun p => ⟨p, 0, 16⟩) }) with
    cores := List.replicate 13 Core.reset
    strands := [{ loadedStrand with share := some ⟨12, 0, 16⟩ }] }

/-- The hypotheses of HnewMakesAChild. -/
def hnewWorks (s : State) (o : GFmt) : Bool :=
  s.runs && !s.me.queue.any (fun e => e.vectorAccess) && s.treeFree && (s.me.greg o.ga).toNat % 64 == 0 &&
  meets (loadRecord s.fenced s.fenced.who (s.me.greg o.ga) 32) (fun (r, u) =>
    let h := u.myHive
    let f := field r
    (descFault none r).isNone && decide (h.codebase ≤ f 0x20 8 ∧ f 0x28 8 ≤ h.codebound) &&
    meets (carveShares h ((List.range (f 8 1)).map (fun k => f (0xC0 + 4 * k) 4))) (fun (_, out) =>
      decide (u.hives.length < 4096 ∧ h.depth < 8 ∧ f 0xA 1 ≤ unusedSlots u h) &&
      (List.range 4).all (fun i => decide (f (0xA0 + 8 * i) 2 ≤ remainderRate u h i ∧ f (0xA2 + 8 * i) 4 ≤ (h.bucket i).burst)) &&
      sourcesIdle u h out &&
      (!bit (f 0 8) 0 || (h.ring.isHeld && (List.range 12).all (fun p => out.any (fun x => x.2 == ⟨12 * h.part + p, 0, 16⟩)))) &&
      (firstUnmapped u h 0 (f 0x18 8 / 65536 + 1) (f 0x10 8) (f 0x10 8 + f 0x18 8)).isNone &&
      (firstUnmapped u h (2 ^ 21) (f 0x48 8 / 65536 + 1) (f 0x40 8) (f 0x40 8 + f 0x48 8)).isNone &&
      (freeHiveId u).isSome))

theorem witness_HnewMakesAChild :
    hnewWorks (describes [] lord) ⟨1, 2, 0, 0, 0⟩ = true ∧
    meets (loadRecord (describes [(9, 1, 0)] lord) (describes [] lord).who win 32) (fun x => descFault none x.1 == some 9) = true ∧
    (withRegs [(2, 4)] tiny).me.greg 2 = 4 ∧ (waitsForTree family).treeFree = false ∧ (waitsForTree family).runs = true := by
  decide +kernel

theorem witness_HnewOfTheRing :
    hnewWorks (describes ([(0, 8, 1), (8, 1, 12)] ++ (List.range 12).map (fun p => (0xC0 + 4 * p, 4, p))) ringlord)
      ⟨1, 2, 0, 0, 0⟩ = true := by decide +kernel

/-- tiny mapped, its hive of shares on cores 0 and 1 with a child of id 2. -/
def lords (f : Hive → Hive) : State :=
  { lord with hives := lord.hives ++ [f { loadedHive with id := 2, parent := 1, depth := 1, shares := [], fslots := 8 }] }

/-- The hypothesis ChildRecord for a child of id 2 and a record at the window, with a property of the record and its state. -/
def childRecord (s : State) (l : List (Nat × Nat × Nat)) (p : Hive → Nat → State → Bool) : Bool :=
  let s := withRegs [(1, 2), (2, win)] (record l s)
  s.runs && !s.me.queue.any (fun e => e.vectorAccess) && s.treeFree && s.me.awayHere.isNone &&
    ((s.findHive 2).map (fun d => d.parent == s.me.hive && s.me.hive != 0 &&
      meets (loadRecord s.fenced s.fenced.who win 8) (fun x => p d x.1 x.2))).getD false

/-- lords, the ring held by hive 1 and the cores of ring 0 by its child. -/
def ringLords : State :=
  { ((lords (fun h => { h with shares := (List.range 12).map (fun p => ⟨p, 0, 16⟩) })).modHive 1 (fun h => { h with
      ring := .held, shares := [⟨12, 0, 16⟩] })) with cores := List.replicate 13 Core.reset
                                                      strands := [{ loadedStrand with share := some ⟨12, 0, 16⟩ }] }

theorem witness_HgivePassesResources :
    childRecord (lords id) [(1, 1, 1), (8, 4, 1)] (fun _ r u => extentOk r 0 (4 * field r 1 1) &&
      (extentEntries r).all (fun e => decide (e < 2 ^ 13)) &&
      meets (carveShares u.myHive (extentEntries r)) (fun x => sourcesIdle u u.myHive x.2)) = true ∧
    childRecord ringLords [(0, 1, 1)] (fun d r u => extentOk r 1 0 && u.myHive.ring.isHeld && holdsCores d) = true ∧
    childRecord (lords id) [(0, 1, 1)] (fun d r u => extentOk r 1 0 && !u.myHive.ring.isHeld && !holdsCores d) = true ∧
    childRecord (lords id) [(0, 1, 2), (8, 1, 9)] (fun d r u => extentOk r 2 1 && decide (d.fslots ≤ field r 8 1) &&
      decide (field r 8 1 - d.fslots ≤ unusedSlots u u.myHive) && u.findHive d.id == some d) = true ∧
    childRecord (lords id) [(0, 1, 2), (8, 1, 7)] (fun d r _ => extentOk r 2 1 && decide (field r 8 1 < d.fslots)) = true ∧
    childRecord (lords (fun h => { h with wsize := 2 ^ 29, poolBase := 2 ^ 52 })) [(0, 1, 3), (8, 8, 2 ^ 29 + 65536)] (fun d r u =>
      extentOk r 3 8 && decide (d.wsize ≤ field r 8 8) && field r 8 8 % 65536 == 0 && decide (d.wbase + field r 8 8 ≤ d.poolBase) &&
      (firstUnmapped u u.myHive 0 ((field r 8 8 - d.wsize) / 65536 + 1) (d.wbase + d.wsize)
        (d.wbase + d.wsize + (field r 8 8 - d.wsize))).isNone && u.findHive d.id == some d) = true ∧
    childRecord (lords (fun h => { h with buckets := [] })) [(0, 1, 4), (8, 2, 5), (10, 4, 6)] (fun d r u =>
      extentOk r 4 32 && (List.range 4).all (fun i => let w := field r (8 + 8 * i) 8
        decide (w < 2 ^ 48 ∧ (d.bucket i).rate ≤ bits w 15 0 ∧ (d.bucket i).burst ≤ bits w 47 16 ∧
          bits w 15 0 - (if (d.bucket i).own then (d.bucket i).rate else 0) ≤ remainderRate u u.myHive i ∧
          bits w 47 16 ≤ (u.myHive.bucket i).burst))) = true ∧
    childRecord (lords id) [(0, 1, 4)] (fun d r _ => extentOk r 4 32 &&
      (List.range 4).all (fun i => decide (field r (8 + 8 * i) 8 < 2 ^ 48)) &&
      decide (bits (field r 8 8) 15 0 < (d.bucket 0).rate)) = true ∧
    tiny.findHive (tiny.me.greg 1).toNat = none ∧ tiny.me.awayHere = none := by decide +kernel

/-- A strand of hive 2 that runs on a core. -/
def childStrand (core : Nat) : Strand := { loadedStrand with hive := 2, strandId := 2, gangId := 2, share := some ⟨core, 0, 16⟩ }

/-- The shares that a record of HTAKE names, emptied. -/
def emptied (d : Hive) (r : Nat) (u : State) : State × List ShareRef :=
  let xs := (extentEntries r).eraseDups.filterMap (fun n => (sharesInOrder d)[n]?)
  let a := if d.ring.isHeld && xs.any (fun x => x.core / 12 == d.part) then claimRing (revokeRing u d.id) u.me.hive else u
  (xs.foldl emptyShare a, xs)

/-- A strand of hive 2 that leaves its share while it waits as a paired task. -/
def leaving : Strand :=
  { childStrand 1 with preempt := some ⟨0, false, 0⟩, task := some { ring := 0, pos := 0, session := 0, entry := 0, holds := false } }

theorem witness_HtakeRevokesResources :
    (let ps : List Strand → Bool → Bool := fun l e =>
       childRecord { lords (fun h => { h with shares := [⟨1, 0, 16⟩] }) with strands := loadedStrand :: l } [(1, 1, 1), (8, 4, 0)]
        (fun d r u => extentOk r 0 (4 * field r 1 1) && (extentEntries r).all (fun e => decide (e < d.shares.length)) &&
          (emptied d r u).2.all (fun x => shareEmpty (emptied d r u).1 x) == e &&
          !tasksLeaving (emptied d r u).1 (subtree (emptied d r u).1 d.id))
     ps [] true = true ∧ ps [{ childStrand 1 with yieldwin := 100 }] false = true) ∧
    (let leaves : List Strand → Bool → Bool := fun l b =>
       childRecord { lords id with strands := loadedStrand :: l } [(0, 1, 1)] (fun d r u => extentOk r 1 0 &&
         (((subtree u d.id).find? (fun h => hasRing (u.hive h))).elim u (fun h => claimRing (revokeRing u h) u.me.hive) |>
           fun a => tasksLeaving a (subtree u d.id) == b))
     leaves [] false = true ∧ leaves [leaving] true = true) ∧
    childRecord (lords id) [(0, 1, 2), (8, 1, 8)] (fun d r _ => extentOk r 2 1 && decide (field r 8 1 ≤ d.fslots)) = true ∧
    childRecord (lords id) [(0, 1, 3), (16, 8, 65536)] (fun _ r _ => extentOk r 3 16 && field r 8 8 % 65536 == 0 &&
      field r 16 8 % 65536 == 0) = true ∧
    childRecord (lords id) [(0, 1, 4), (8, 2, 1024), (10, 4, 65536)] (fun d r _ => extentOk r 4 32 &&
      (List.range 4).all (fun i => let w := field r (8 + 8 * i) 8
        decide (w < 2 ^ 48 ∧ bits w 15 0 ≤ (d.bucket i).rate ∧ bits w 47 16 ≤ (d.bucket i).burst))) = true ∧
    (tiny.findHive 1).isSome ∧ tiny.findHive (tiny.me.greg 1).toNat = none ∧
    (let gone (a : State) (x : Taking) : Bool := let b := x.shares.foldl emptyShare a
       x.shares.all (fun y => shareEmpty b y) && !tasksLeaving b (subtree b x.child)
     let a := lords (fun h => { h with shares := [⟨1, 0, 16⟩] })
     let x : Taking := ⟨0, 0x10000, 1, 2, [⟨1, 0, 16⟩]⟩
     0 < a.parts.length ∧ gone a x = true ∧
     gone { a with strands := [loadedStrand, { childStrand 1 with yieldwin := 100 }] } x = false ∧
     gone { lords id with strands := [loadedStrand, leaving] } { x with shares := [] } = false ∧ (a.strand 0).placed = true ∧ (a.strand 0).resuming = false ∧
     (a.strand 0).pc = x.pc ∧ (a.strand 0).status ≠ .ended) ∧
    (let w : Away := ⟨0x10000, 0, 0, false⟩
     let s := tiny.modMe (fun t => { t with away := some w })
     s.runs = true ∧ s.me.resuming = false ∧ s.me.awayHere = some w) := by decide +kernel

theorem witness_HkillAndHstat :
    (let s := withRegs [(1, 2), (2, win)] (lords id)
     s.runs = true ∧ s.treeFree = true ∧ (waitsForTree s).treeFree = false ∧
     (s.findHive 2).map (fun d => d.parent) = some s.me.hive ∧ s.me.hive ≠ 0 ∧ s.within s.me.hive 2 = true ∧
     (∀ c < 2, (s.core c).comb = []) ∧
     meets ((hstatBlock s.fenced s.myHive).zipIdx.foldlM
      (fun u w => storeW u u.who (win + BitVec.ofNat 64 (8 * w.2)) 8 w.1 true) s.fenced) (fun _ => true) = true) ∧
    ((withRegs [(1, 9)] tiny).findHive 9 = none ∧ (win + 4).toNat % 64 ≠ 0) := by decide +kernel

/-- lords with a strand of hive 2 suspended by a trap, its ticket 7. -/
def ticketed (kind : SuspKind) (task : Option TaskRef) : State :=
  let x : Suspension := ⟨kind, 7, 1, ⟨0, 0, 0, 0, 0, 0, 0, 0, 0, 0, 0⟩⟩
  withRegs [(1, 7)] { lords (fun h => { h with shares := [⟨1, 0, 16⟩] }) with
    strands := [loadedStrand, { childStrand 1 with status := .suspended, placed := false, susp := some x, task := task }] }

theorem witness_HretAnswersTickets :
    (let s := ticketed .trap none
     let a := releaseL1 s.fenced s.fenced.who 2
     s.runs = true ∧ s.me.queue.any (fun e => e.vectorAccess) = false ∧
     (ticketStrand a a.me.hive 7).map (fun p => p.1) = some 1 ∧ ticketStrand a a.me.hive 8 = none ∧
     (ticketStrand a a.me.hive 7).all (fun p => meets (answerReissue a p.1) (fun _ => true) &&
       meets (answerSkip a p.1 p.2) (fun _ => true) && meets (answerDeliver a p.1 p.2 6) (fun _ => true) &&
       meets (answerForward a 1 p.1 p.2) (fun _ => true) && meets (answerPlace a p.1 0) (fun _ => true) &&
       !meets (answerPlace a p.1 1) (fun _ => true)) = true ∧
     isCauseCode 6 = true ∧ isCauseCode 0x3F = false ∧ heldShare s 1 = some ⟨1, 0, 16⟩ ∧ (s.strand 1).queue = [] ∧
     (sharesInOrder (s.hive 2))[0]? = some ⟨1, 0, 16⟩ ∧ (sharesInOrder (s.hive 2))[1]? = none) ∧
    (let s := (ticketed .revoked (some { ring := 0, pos := 0, session := 0, entry := 0, holds := false })).modHive 2
       (fun h => { h with shares := [] })
     heldShare s 1 = none ∧ (s.strand 1).task.isSome = true ∧ SuspKind.revoked ≠ .trap) := by decide +kernel

/-- A launch of n strands on share 0 of a hive, its record at the window. -/
def launching (n : Nat) (s : State) : State :=
  withRegs [(2, win)] (record [(0, 8, 0x10000), (0x28, 4, n), (0x2E, 1, 1), (0x2F, 1, 8), (0x30, 8, 1)] s)

theorem witness_GangLaunchCreatesStrands :
    let loads (n : Nat) (p : Nat → State → Bool) : Bool := let s := launching n (mapped 12)
      s.runs && (s.me.greg 2).toNat % 64 == 0 && meets (loadRecord s s.who win 8) (fun x => p x.1 x.2)
    loads 1 (fun r u => let h := u.myHive
      launchFault h.shares.length true r == none && launchFault h.shares.length false r == none &&
      decide (h.codebase ≤ field r 0 8 ∧ field r 0 8 < h.codebound ∧ spillReserved u h.id + field r 0x28 4 ≤ h.spillcnt)) = true ∧
    loads 17 (fun r u => let h := u.myHive
      launchFault h.shares.length false r == none && decide (h.spillcnt < spillReserved u h.id + field r 0x28 4)) = true ∧
    loads 2 (fun r u => launchFault u.myHive.shares.length true r == some 0x28) = true ∧
    loads 0 (fun r u => launchFault u.myHive.shares.length false r == some 0x28) = true ∧
    (win + 4).toNat % 64 ≠ 0 := by decide +kernel

/-- tiny with a second strand of its gang, which has arrived at the barrier or has not. -/
def gang (arrived : Bool) : State :=
  { tiny with strands := [loadedStrand, { loadedStrand with strandId := 2, slot := 1, arrived := if arrived then some 0x10000 else none }] }

theorem witness_BarriersWaitsAndQuitting :
    (let all (s : State) : Bool := let w := s.modMe (fun t => { t with arrived := some t.pc })
       (gangMembers w s.me.hive s.me.gangId).all (fun k => (w.strand k).arrived.isSome)
     all (gang true) = true ∧ all (gang false) = false ∧ (gang true).me.awayHere = none ∧ (gang true).me.arrived = none ∧
     (gang true).me.resuming = false ∧
     (let w := (gang false).modMe (fun t => { t with status := .blocked (.gbar ⟨0, 0, 0, 0, 0⟩), arrived := some t.pc })
      (gangMembers w 1 1).all (fun k => !arriving w k) = true ∧
      arriving (gang false) 1 = false ∧ arriving (w.modStrand 1 (fun t => { t with status := .blocked (.gbar ⟨0, 0, 0, 0, 0⟩) })) 1 = true) ∧
     (let x := (gang true).strand 1
      x.placed = true ∧ x.resuming = false ∧ x.arrived = some x.pc) ∧
     (let w : Away := ⟨0x10000, 0, 0, true⟩
      (tiny.modMe (fun t => { t with away := some w })).me.awayHere = some w)) ∧
    (gangMembers tiny tiny.me.hive (BitVec.setWidth 32 (1 : Word)) ≠ [] ∧
     gangMembers tiny tiny.me.hive (BitVec.setWidth 32 (2 : Word)) = [] ∧
     gangMembers { pair with strands := [loadedStrand, { loadedStrand with gangId := 3 }] } 1 (BitVec.setWidth 32 (3 : Word)) ≠ []) ∧
    (tiny.me.queue = [] ∧ tiny.me.task = none ∧ (∀ n, (tiny.me.fslot n).bound = false) ∧
     ownedSessions ((undoBindings (releaseL1 tiny tiny.who 1) tiny.cur).modMe (fun t => { t with pushed := [], pushBits := 0 }))
       tiny.cur = []) ∧
    (tiny.modMe (fun t => { t with queue := [entryOf someVst] })).me.queue ≠ [] := by decide +kernel

/-- What Enters asks. -/
def enters (s : State) (i : Instr) : Bool :=
  s.runs && s.me.queue == [] && s.me.pendFault == none &&
    (shapeOf i).any (fun x => firstTrap s.me [] i (newEntry s s.me i x) == none)

theorem enters_meets {s : State} {i : Instr} (h : enters s i = true) : Enters s i := by
  simp only [enters, Bool.and_eq_true, beq_iff_eq, Option.any_eq_true] at h
  obtain ⟨⟨⟨h1, h2⟩, h3⟩, x, h4, h5⟩ := h
  exact ⟨h1, h2, h3, x, h4, h5⟩

/-- A state in whose strand's queue an instruction stands alone. -/
def alone (s : State) (i : Instr) : State :=
  s.modMe (fun t => { t with queue := ((shapeOf i).map (fun x => newEntry s s.me i x)).toList })

/-- What AwaitsAlone asks. -/
def awaits (s : State) (i : Instr) : Bool :=
  decide (s.cur < s.strands.length) && s.me.placed && !s.me.resuming && s.me.pendFault == none &&
    (shapeOf i).any (fun x => (s.me.queue == [{ newEntry s s.me i x with
        addr := ((s.me.queue.map (fun e => e.addr)).headD 0), order := (s.me.queue.map (fun e => e.order)).headD 0 }]) &&
      firstTrap s.me [] i (newEntry s s.me i x) == none)

theorem awaits_meets {s : State} {i : Instr} (h : awaits s i = true) : AwaitsAlone s i := by
  simp only [awaits, Bool.and_eq_true, beq_iff_eq, Option.any_eq_true, decide_eq_true_eq, Bool.not_eq_true'] at h
  obtain ⟨⟨⟨⟨h1, h2⟩, h3⟩, h4⟩, x, h5, h6, h7⟩ := h
  exact ⟨h1, h2, h3, h4, x, _, _, h5, h6, h7⟩

/-- tiny with a length of n elements in g4. -/
def ofLength (n : Word) : State := withRegs [(4, n)] tiny

/-- Operands of an element type, of length g4. -/
def vOf (et : BitVec 4) (q : BitVec 8) : VFmt := ⟨3, 1, 2, 0, 4, 0, 0, et, 0, q⟩

/-- Vector instructions on 32-bit integers (their first operand type 7) or on F32 (13). -/
def arithmetic (et : BitVec 4) : List Instr :=
  let o := vOf et 0
  [.vadd o, .vsub o, .vmul o, .vdiv o, .vmin o, .vmax o, .vabs o, .vneg o, .vclamp { o with vc := 4 }, .vfma { o with vc := 4 }]

theorem witness_VectorRegisterInstructionsComplete :
    ∀ i ∈ arithmetic 7 ++ arithmetic 13, registerOnly i = true ∧ (shapeOf i).isSome = true ∧ (ofLength 3).eager = true ∧
      enters (ofLength 3) i = true := by decide +kernel

theorem witness_IntegerElementResults :
    ∀ i ∈ arithmetic 7 ++ [.vmulh (vOf 7 0), .vand (vOf 7 0), .vor (vOf 7 0), .vxor (vOf 7 0), .vshl (vOf 7 0), .vshr (vOf 7 0),
        .vsar (vOf 7 0)],
      enters (ofLength 3) i = true := by decide +kernel

theorem witness_FloatElementResults :
    (ElemType.ofCode 13).isFloat = true ∧
    ∀ i ∈ arithmetic 13 ++ [.vsqrt (vOf 13 0), .vrcp (vOf 13 0), .vrsq (vOf 13 0), .vexp2 (vOf 13 0), .vlog2 (vOf 13 0),
        .vtanh (vOf 13 0), .vcvt (vOf 13 7)],
      enters (ofLength 3) i = true := by decide +kernel

theorem witness_CompareSelectAndMaskResults :
    ∀ i ∈ ([.vcmp .lt (vOf 7 0), .vcmp .lt (vOf 13 0), .vsel (vOf 7 1), .mkand (vOf 7 0), .mkor (vOf 7 0), .mkxor (vOf 7 0),
        .mknot { vOf 7 0 with vb := 0 }, .mkset { vOf 7 1 with va := 0, vb := 0 }, .mkpopc { vOf 7 0 with vb := 0 },
        .mkfirst { vOf 7 0 with vb := 0 }, .mktest { vOf 7 0 with vb := 0 }] : List Instr),
      enters (ofLength 3) i = true := by decide +kernel

theorem witness_PermuteResults :
    ((ofLength 4).me.greg 4).toNat ≤ 8192 ∧
    ∀ i ∈ ([.vslide { vOf 7 0 with vb := 0 }, .vslide { vOf 7 1 with vb := 0 }, .vperm (vOf 7 0),
        .vbcast { vOf 7 0 with va := 0, vb := 0 }, .vindex { vOf 7 0 with va := 0, vb := 0 },
        .vins { vOf 7 0 with va := 0 }, .vzip (vOf 7 0), .vunzip (vOf 7 0), .vhad { vOf 7 0 with vb := 0 },
        .vcomp { vOf 7 0 with vb := 0 }, .vexpd { vOf 7 0 with vb := 0 }, .vext { vOf 7 0 with vb := 0 },
        .vscan { vOf 7 0 with vb := 0 }, .vred { vOf 7 0 with vb := 0 }, .vred { vOf 7 4 with vb := 0 }] : List Instr),
      enters (ofLength 4) i = true := by decide +kernel

theorem witness_EnteringTheQueue :
    let o := vOf 7 0
    let n (s : State) := (shapeOf (.vadd o)).map (fun x => newEntry s s.me (.vadd o) x)
    let lazily : State := { ofLength 3 with eager := false }
    (lazily.me.queue.length < 32 ∧ (n lazily).map (fun e => firstTrap lazily.me lazily.me.queue (.vadd o) e) = some none) ∧
    (let s := lazily.modMe (fun t => { t with queue := List.replicate 32 (entryOf someVst) })
     32 ≤ s.me.queue.length) ∧
    (let s := (ofLength 600).modHive 1 (fun h => { h with trapmask := BitVec.allOnes 64 })
     s.me.grant * 2048 / 32 < (s.me.greg 4).toNat ∧ s.me.trapcause.getLsbD 8 = false ∧ s.me.queue = [] ∧
     ∀ q ∈ ([[], [entryOf someVst]] : List (List QEntry)), let s := s.modMe (fun t => { t with queue := q })
       ((n s).bind (fun e => firstTrap s.me s.me.queue (.vadd o) e)).any (fun tr => !tr.cause.parental &&
        s.myHive.trapmask.getLsbD tr.cause.code) = true) := by decide +kernel

/-- A stream of two 32-bit elements in the scratchpad window, read or written. -/
def twoWords (write : Bool) : Stream :=
  ⟨true, if write then
    0x10700000000000000000000000000000000000000000000000000000000000000010000000100000002000000000000000001f0000000000000
  else
    0x700000000000000000000000000000000000000000000000000000000000000010000000100000002000000000000000001f0000000000000,
    0, [], none⟩

/-- tiny, without its tiles, with a stream of two words in s1, the length 2 in g4, the window in g2 and two indexes in v5. -/
def streaming (write : Bool) : State :=
  (withRegs [(2, win), (4, 2)] { tiny with cores := [{ Core.reset with tiles := [] }] }).modMe (fun t => (t.setStream 1 (twoWords write)).setVreg 5 0x400000000)

/-- The operands of its vector loads and stores. -/
def vm : VMFmt := ⟨3, 0, 1, 0, 4, 0, 0, 7, 0, 0, 0⟩

/-- Two elements that an instruction governs, at the first two words of its strand's window. -/
theorem twoWords_inScratchpad {s : State} {g : VAgent} {kind : AccessKind} {gov : Nat → Bool} {addr : Nat → Nat}
    (hl : g.look = []) (hs : g.who.share = some ⟨0, 0, 16⟩) (hc : 0 < s.cores.length)
    (h0 : addr 0 = 0x01F0000000000000) (h1 : addr 1 = 0x01F0000000000004) (hn : 4 < scratchLen (s.core 0) ⟨0, 0, 16⟩)
    (hb : scratchBase (s.core 0) ⟨0, 0, 16⟩ = 0) :
    InScratchpad s g kind 4 2 gov addr (fun k => 4 * k) 0 ∧ Apart 4 2 gov (fun k => 4 * k) := by
  refine ⟨⟨hc, fun k hk _ => ?_⟩, fun j _ k _ _ _ hjk => by dsimp only; omega⟩
  match k, hk with
  | 0, _ =>
    rw [h0, locateV_window kind hl hs (by decide) (by decide) (by show 0 < scratchLen (s.core 0) ⟨0, 0, 16⟩; omega)]
    simp [hb]
  | 1, _ =>
    rw [h1, locateV_window kind hl hs (by decide) (by decide) hn]
    simp [hb]

theorem witness_StreamLoadsAndStores :
    let gov (s : State) (k : Nat) : Bool := governs s.me 0 0 false k
    let ok (w : Bool) (kind : AccessKind) : Prop := let s := streaming w
      InScratchpad s (streamAgent s.me 1) kind 4 2 (gov s) (fun k => (takenAddr s.me 1 32 k).1) (fun k => 4 * k) 0 ∧
        Apart 4 2 (gov s) (fun k => 4 * k)
    ok false .read ∧ ok true .write ∧
    (let x := (streaming true).me.stream 1
     x.bound = true ∧ x.et = vm.et ∧ x.coding = 0 ∧ x.pos.toNat + 2 ≤ x.total ∧ x.isWrite = true ∧ (twoWords false).isWrite = false) ∧
    enters (streaming false) (.vld vm) = true ∧ enters (streaming true) (.vst vm) = true :=
  ⟨twoWords_inScratchpad rfl rfl (by decide) (by decide +kernel) (by decide +kernel) (by decide +kernel) (by decide +kernel),
    twoWords_inScratchpad rfl rfl (by decide) (by decide +kernel) (by decide +kernel) (by decide +kernel) (by decide +kernel), by decide +kernel, by decide +kernel,
    by decide +kernel⟩

theorem witness_GathersScattersAndAtomics :
    let s := streaming false
    let o : VMFmt := ⟨3, 5, 0, 2, 4, 0, 0, 7, 0, 0, 0⟩
    let index (k : Nat) : Int := (elemAt (s.me.vreg o.vi) 32 k : Int)
    let addr (k : Nat) : Nat := (((s.me.greg o.ga).toNat + index k * (2 ^ 0 : Nat)) % (2 ^ 64 : Nat)).toNat
    let ok (kind : AccessKind) : Prop :=
      InScratchpad s (gatherAgent s.me) kind 4 2 (fun k => governs s.me 0 0 false k) addr (fun k => 4 * k) 0 ∧
        Apart 4 2 (fun k => governs s.me 0 0 false k) (fun k => 4 * k)
    ok .read ∧ ok .write ∧ ok .amo ∧ enters s (.vldx o) = true ∧ enters s (.vstx o) = true ∧ enters s (.vamo o) = true :=
  ⟨twoWords_inScratchpad rfl rfl (by decide) (by decide +kernel) (by decide +kernel) (by decide +kernel) (by decide +kernel),
    twoWords_inScratchpad rfl rfl (by decide) (by decide +kernel) (by decide +kernel) (by decide +kernel) (by decide +kernel),
    twoWords_inScratchpad rfl rfl (by decide) (by decide +kernel) (by decide +kernel) (by decide +kernel) (by decide +kernel), by decide +kernel, by decide +kernel,
    by decide +kernel⟩

/-- streaming, the first 16 bytes of scratchpad full. -/
def fullStream : State := (streaming false).modCore 0 (fun c => { c with full := [0] })

theorem witness_FullEmptyStreamsAndPrefetches :
    (let ok (s : State) : Prop :=
       InScratchpad s (streamAgent s.me 1) .read 4 2 (fun k => governs s.me 0 0 false k) (fun k => (takenAddr s.me 1 32 k).1)
         (fun k => 4 * k) 0
     ok fullStream ∧ ok (streaming false) ∧ ok (alone fullStream (.vldfe { vm with ord := 1, scope := 2 }))) ∧
    awaits (alone fullStream (.vldfe { vm with ord := 1, scope := 2 })) (.vldfe { vm with ord := 1, scope := 2 }) = true ∧
    ((streaming false).who.core = some 0 ∧ ((streaming false).modMe (fun t => { t with share := none })).who.core = none) ∧
    (∀ k < 2, (fullStream.core 0).isFull (4 * k / 16) = true) ∧ ((streaming false).core 0).isFull 0 = false ∧
    governs (streaming false).me 0 0 false 0 = true ∧
    enters fullStream (.vldfe { vm with ord := 1, scope := 2 }) = true ∧
    enters (streaming false) (.vldfe { vm with ord := 1, scope := 2 }) = true ∧
    enters (streaming false) (.vpf { vm with vd := 0 }) = true :=
  ⟨⟨(twoWords_inScratchpad rfl rfl (by decide) (by decide +kernel) (by decide +kernel) (by decide +kernel) (by decide +kernel)).1,
    (twoWords_inScratchpad rfl rfl (by decide) (by decide +kernel) (by decide +kernel) (by decide +kernel) (by decide +kernel)).1,
    (twoWords_inScratchpad rfl rfl (by decide) (by decide +kernel) (by decide +kernel) (by decide +kernel) (by decide +kernel)).1⟩,
    by decide +kernel, by decide +kernel, by decide +kernel, by decide +kernel,
    by decide +kernel, by decide +kernel, by decide +kernel, by decide +kernel⟩

theorem witness_StreamBindingAndPositions :
    (let s := withRegs [(2, win)] (record [(0, 8, 64), (0x10, 4, 2), (0x14, 4, 1), (0x18, 4, 1), (0x38, 1, 7)] tiny)
     let r := s.scratchWord 0 0 64
     s.me.share = some ⟨0, 0, 16⟩ ∧ (s.me.greg 2).toNat = 0x01F0000000000000 + 0 ∧ recordFault r = none ∧
     bindingOk ⟨true, BitVec.ofNat 512 r, 0, [], none⟩ = true ∧ enters s (.sbind ⟨0, 2, 1, 0⟩) = true ∧
     s.scratchWord 0 ((512 + 256 * (s.core 0).sps.toNat) * 1024 * 0 / 16 + 0) 64 = r) ∧
    (let s := withRegs [(2, 1)] (streaming false)
     let x := s.me.stream 1
     x.bound = true ∧ (s.me.greg 2).toNat ≤ x.total ∧ x.coding ≠ 1 ∧ enters s (.sset ⟨0, 2, 1, 0⟩) = true ∧
     0 ≤ (x.pos.toNat : Int) + ((s.me.greg 2).toInt + (0 : BitVec 32).toInt) ∧
     (x.pos.toNat : Int) + ((s.me.greg 2).toInt + (0 : BitVec 32).toInt) ≤ x.total ∧ enters s (.sadv ⟨0, 2, 1, 0⟩) = true ∧
     enters s (.sget ⟨3, 0, 1, 0⟩) = true) := by decide +kernel

theorem witness_PushedValues :
    let o : XFmt := ⟨0, 1, 0, 0, 7, 3, 0, 0⟩
    let w : XFmt := ⟨0, 0, 0, 0, 7, 0, 0, 0⟩
    let s (n : Word) (f : Strand → Strand) : State := withRegs [(1, n)] (pair.modStrand 1 f)
    (strandOf (s 2 id) 1 2 = some 1 ∧ enters (s 2 id) (.vpush o) = true ∧
     let d := (s 2 id).strand 1
     (d.placed = true ∧ d.pushBits.getLsbD 7 = false ∧ d.pushed.length < 16) ∧ 7 < d.budget) ∧
    (enters (s 2 (fun t => { t with placed := false })) (.vpush o) = true ∧
     ((s 2 (fun t => { t with placed := false })).strand 1).placed = false ∧
     enters (s 2 (fun t => { t with resuming := true })) (.vpush o) = true) ∧
    (let a := alone (s 2 id) (.vpush o)
     awaits a (.vpush o) = true ∧ strandOf a 1 2 = some 1 ∧ (a.strand 1).placed = true ∧ (a.strand 1).resuming = false ∧
     (a.strand 1).pushBits.getLsbD 7 = false ∧ 7 < (a.strand 1).budget) ∧
    (let p := alone ((s 1 id).modMe (fun t => { t with pushed := [⟨7, 8, 5⟩] })) (.vwaitf w)
     awaits p (.vwaitf w) = true ∧ p.me.pushed.find? (fun p => p.reg == 7) = some ⟨7, 8, 5⟩) ∧
    (let p := (s 1 id).modMe (fun t => { t with pushed := [⟨7, 8, 5⟩] })
     p.me.pushed.find? (fun p => p.reg == 7) = some ⟨7, 8, 5⟩ ∧ enters p (.vwaitf w) = true ∧ enters (s 1 id) (.vwaitf w) = true ∧
     (s 1 id).me.pushed = []) ∧
    (strandOf (s 9 id) 1 9 = none ∧ strandOf (s 1 id) 1 1 = some (s 1 id).cur ∧ enters (s 9 id) (.vpush o) = true ∧
     enters (s 1 id) (.vpush o) = true) ∧
    (takesTraps.myHive.trapmask.getLsbD 0x1B = true ∧ takesTraps.me.trapcause.getLsbD 8 = false) := by decide +kernel

theorem witness_TileInstructions :
    let s := (ofLength 1).modMe (fun t => { t with mvl := 4 })
    let c := s.core 0
    s.me.share = some ⟨0, 0, 16⟩ ∧ 0 < s.cores.length ∧ s.me.mvl ≤ 128 ∧ 0 / 4 + 1 < c.tiles.length ∧ (c.tile 1).length = 128 ∧
    (ElemType.ofCode 2).isFloat = false ∧ unitBusy s 0 = false ∧ enters (withRegs [(2, 32)] tiny) (.tmode ⟨1, 2, 0, 0⟩) = true ∧
    (∀ i ∈ ([.topa ⟨1, 1, 2, 4, 0, 0, 2, 2, 0, 0, 0⟩, .tops ⟨1, 1, 2, 4, 0, 0, 2, 2, 0, 0, 0⟩, .tzero ⟨1, 0, 0, 0, 0, 0, 0, 0, 0, 0, 0⟩,
        .tscl ⟨1, 1, 2, 0, 0, 0, 13, 13, 0, 0, 3⟩, .trd ⟨1, 3, 0, 4, 0, 0, 13, 13, 0, 0, 0⟩,
        .twr ⟨1, 3, 0, 4, 0, 0, 13, 13, 0, 0, 0⟩] : List Instr), enters s i = true) := by decide +kernel

/-! ## Witnesses: comb, rings, engine, device events -/

/-- tiny with a comb image of four nodes at the window, its restart area at the window + 0x1000 and a patch at + 0x2000; their
addresses in g6, g7 and g8, a length of 3 in g9, and an output register to be. -/
def combImage : State :=
  withRegs [(6, win), (7, win + 0x1000), (8, win + 0x2000), (9, 3)]
    (record [(0, 8, 72620549415453233), (8, 8, 30116155917), (16, 8, 119), (32, 8, 54273), (64, 8, 17592186114464),
      (72, 8, 18067999701389741), (80, 8, 17592188064175), (96, 8, 40), (104, 8, 671088672), (0x2000, 8, 1), (0x2008, 8, 40)] tiny)

/-- combImage bound to fabric slot 3, its context loaded. -/
def combBound : State :=
  let m := imageOf 0xd40100000000000000000000000000000077000000070310120d01020001434d4231
    0x280000200000000000000028000000000000000000001000001ed1af004030c00000d1ad00001000000111a0
  (combImage.modSlot 0 3 (fun f => { f with bound := true, image := win, area := win + 0x1000 })).modCore 0
    (fun c => { c with comb := [CombCtx.blank combImage 0 3 0 0 m] })

/-- A state with a binding's context changed. -/
def withCtx (f : CombCtx → CombCtx) (s : State) : State := s.modCore 0 (fun c => { c with comb := c.comb.map f })

/-- combBound, its context not loaded. -/
def combAway : State := combBound.modCore 0 (fun c => { c with comb := [] })

/-- combBound with three other contexts pinned in its region. -/
def combPinned : State :=
  combBound.modCore 0 (fun c => { c with comb := c.comb ++ c.comb.flatMap (fun x =>
    [1, 2, 3].map (fun n => { x with num := n, slot := BitVec.ofNat 5 n, pinned := true, running := true })) })

/-- An FX of slot 3. -/
def someFx : XFmt := ⟨7, 9, 8, 0, 12, 3, 0, 0⟩

theorem witness_CombInstructions :
    let o : XFmt := ⟨0, 6, 7, 0, 0, 0, 0, 3⟩
    let at3 : XFmt := ⟨5, 0, 0, 0, 0, 0, 0, 3⟩
    (enters combImage (.fbind o) = true ∧
     let v := append combImage (.fbind o) (newEntry combImage combImage.me (.fbind o) ((shapeOf (.fbind o)).getD (plainShape none [] [])))
     (shapeOf (.fbind o)).isSome = true ∧ win.toNat % 64 = 0 ∧ (win + 0x1000).toNat % 4096 = 0 ∧
     meets (loadImage v (gatherAgent combImage.me) win.toNat) (fun x =>
      meets (checkImage x.1 16 x.2.1) (fun _ => (areaFault x.2.2 (gatherAgent combImage.me) (win + 0x1000).toNat).isNone)) = true ∧
     slotsBound combImage 1 - 0 < ownSlots combImage combImage.myHive) ∧
    (∀ i ∈ ([.ffree at3, .fdrain at3, .fstat at3, .fstat { at3 with imm := 0x23 }, .fctxLoad at3, .fctxPin at3, .fctxUnpin at3,
       .fctxEvict at3] : List Instr), enters combBound i = true) ∧
    ((combBound.resident 0 3).map (fun c => c.2.num) = some 0 ∧
     (regionCtxs combBound 0 0).filter (fun y => y.pinned) = []) ∧
    (enters combPinned (.fctxPin at3) = true ∧ (combPinned.resident 0 3).map (fun c => (c.2.num, c.2.pinned)) = some (0, false) ∧
     ((regionCtxs combPinned 0 0).filter (fun y => y.pinned)).length = 3) ∧
    (let own := combPinned.modCore 0 (fun c => { c with comb := (c.comb.take 3).map (fun x => { x with pinned := true }) })
     enters own (.fctxPin at3) = true ∧ (own.resident 0 3).any (fun c => c.2.pinned) = true ∧
     ((regionCtxs own 0 0).filter (fun y => y.pinned)).length = 3) ∧
    (enters combAway (.fctxEvict at3) = true ∧ combAway.ctxOf 0 3 = none ∧ enters combAway (.fstat at3) = true) ∧
    (let v := append combBound (.fctxEvict at3) (newEntry combBound combBound.me (.fctxEvict at3) (plainShape (some 5) [] []))
     (combBound.ctxOf 0 3).any (fun c => meets (evictCtx v c.1 c.2) (fun _ => true)) = true) ∧
    (let o : XFmt := ⟨0, 8, 0, 0, 0, 0, 0, 3⟩
     let v := append combBound (.fcfg o) (newEntry combBound combBound.me (.fcfg o) ((shapeOf (.fcfg o)).getD (plainShape none [] [])))
     enters combBound (.fcfg o) = true ∧ (combBound.resident 0 3).any (fun c =>
       meets (readPatch v (gatherAgent combBound.me) (win + 0x2000).toNat) (fun p =>
        p.2.1.all (fun d => decide (d.1 < shapeNodes c.2.image.shape)) && meets (checkConfig (patched c.2.image p.2.1)) (fun _ => true) &&
        regionTokens c.2 p.1 == 0 && meets (applyPatch p.2.2 c.1 c.2 p.2.1) (fun _ => true))) = true) ∧
    (let d := combBound.modSlot 0 3 (fun f => { f with state := .done })
     (d.me.fslot 3).state = .done ∧ enters d (.fx 3 someFx) = true) ∧
    (enters combBound (.fx 3 someFx) = true ∧ (combBound.me.fslot 3).state = .idle ∧
     (combBound.resident 0 3).any (fun c => (streamEdges c.2.image).all (fun d => decide ((combBound.me.stream d.2).coding ≠ 1)) &&
      startFault combBound.me (newEntry combBound combBound.me (.fx 3 someFx) ((shapeOf (.fx 3 someFx)).getD (plainShape none [] [])))
        someFx { c.2 with len := combBound.me.greg 9 } == none) = true) := by decide +kernel

/-- A state whose queue holds an FX that waits for its context. -/
def wantsContext (s : State) : State :=
  { s with eager := false }.modMe (fun t => { t with queue := [entryOf (.fx 3 someFx)] })

/-- combBound, an FX of slot 3 begun and its context changed. -/
def fxRuns (f : CombCtx → CombCtx) : State := withCtx f (next (.fx 3 someFx) combBound)

/-- A context that holds a token and has not fired for 64 cycles. -/
def stuck (x : CombCtx) : CombCtx := { x with idle := 64, nodes := [{ CombNode.fresh [] with window := [⟨0, 0⟩] }] }

/-- A buffer of a comb port with one byte. -/
def someBuf (scratch : Bool) : PortBuf := { node := 2, scratch := scratch, ctx := 0, line := 5, bytes := [(7, 9)], hive := 1, since := 0 }

theorem witness_CombEvents :
    (contextWanted (wantsContext combAway) 0 = some (0, 3) ∧ contextWanted tiny 0 = none ∧
     meets (loadSlot (wantsContext combAway) 0 3) (fun u => u.isSome) = true ∧
     meets (loadSlot (wantsContext (withCtx (fun x => { x with slot := 9, running := true }) combPinned)) 0 3) (fun u => u.isNone) = true ∧
     meets (loadSlot (wantsContext (combAway.modCore 0 (fun c => { c with scratch := [] }))) 0 3) (fun _ => true) = false) ∧
    (tiny.combAt 0 0 0 = none ∧ regionCtxs tiny 0 0 = [] ∧
     ((withCtx (fun x => { x with running := true, idle := 64, nodes := [{ CombNode.fresh [] with window := [⟨0, 0⟩] }] }) combBound).combAt 0 0 0).any (fun x =>
       x.running && decide (64 ≤ x.idle) && x.balance != 0) = true ∧
     (combBound.combAt 0 0 0).any (fun x => !x.running) = true) ∧
    ((let s := fxRuns stuck
      (fxEntry (s.strand 0) 3).map (fun e => e.1) = some 0 ∧ (s.combAt 0 0 0).any (fun x =>
        x.running && decide (64 ≤ x.idle) && x.balance != 0 && x.owner == 0 && x.slot == 3 && (stopFx s 0 x).2.isNone) = true) ∧
     (let s := (fxRuns stuck).modMe (fun t => { t with queue := entryOf someVst :: t.queue })
      (fxEntry (s.strand 0) 3).map (fun e => e.1) = some 1)) ∧
    (let r := fillRegion (fxRuns (fun x => { x with outEnded := true, edgeEnded := List.replicate 8 true })) 0 0
     r.2.isEmpty = true ∧ (regionCtxs r.1 0 0).map (fun x => (x.running, x.outEnded, x.balance, x.owner, x.slot)) =
       [(true, true, 0, 0, 3)] ∧ (r.1.strand 0).placed = true ∧ (r.1.strand 0).pendFault = none ∧
     (r.1.strand 0).queue.length = 1 ∧ (r.1.strand 0).queue.all (fun e => e.item == .instr (.fx 3 someFx) &&
       e.tags.map (fun g => g.uops) == some 1 && e.fence == none) = true) ∧
    (let s := tiny.modCore 0 (fun c => { c with bufs := [someBuf true], cycles := 16 })
     (s.core 0).bufs = [someBuf true] ∧ (someBuf true).since + 16 ≤ (s.core 0).cycles.toNat ∧
     ((someBuf true).bytes.map (fun x => x.1)).Nodup ∧ (someBuf false).scratch = false ∧
     (tiny.core 0).cycles.toNat < (someBuf true).since + 16) ∧
    (combBound.combAt 0 0 0).any (fun x => decide (x.owner < combBound.strands.length)) = true ∧
    (let e := entryOf (.fdrain ⟨5, 0, 0, 0, 0, 0, 0, 3⟩)
     let s := combBound.modMe (fun t => { t with queue := [e] })
     (s.strand 0).placed = true ∧ (s.strand 0).resuming = false ∧ (s.strand 0).pendFault = none ∧ (s.strand 0).queue = [e] ∧
     e.tags = none ∧ e.known = true ∧ e.fence = none ∧ firstTrap (s.strand 0) [] (.fdrain ⟨5, 0, 0, 0, 0, 0, 0, 3⟩) e = none) := by decide +kernel

/-- tiny, its hive holding ring 0, with session 1 of the ring changed. -/
def ringed (f : Session → Session) : State :=
  ({ tiny with rings := [Ring.reset] }.modHive 1 (fun h => { h with ring := .held })).modSession 0 1 f

/-- A session that runs, of one firing and two pads, with a window of one tile for each family. -/
def running (ss : Session) : Session := { ss with state := .running, desc := BitVec.ofNat 512 0x0101010200000001 }

/-- A tile header of session 1: family A, ID 5, two captures, one block. -/
def header : Word := 0x20002000005

theorem witness_RingInstructions :
    (let s := withRegs [(2, win)] (record [(0, 4, 1), (4, 1, 2), (5, 1, 1), (6, 1, 1), (7, 1, 1), (0xE, 1, 1), (0xF, 1, 8),
        (0x10, 8, 0x10000), (0x18, 8, win.toNat + 0x100), (0x20, 8, win.toNat + 0x200), (0x28, 4, 48)] (ringed id))
     s.myHive.ring.isHeld = true ∧ s.myHive.part = s.me.coreNo / 12 ∧
     meets (loadRecord s s.who win 8) (fun x =>
      (sessionChecks x.1).all (fun c => c.2) && field x.1 0x10 8 % 8 == 0 && decide (s.myHive.codebase ≤ field x.1 0x10 8) &&
      decide (field x.1 0x10 8 + 8 ≤ s.myHive.codebound) && field x.1 0x18 8 % 8 == 0 && field x.1 0x20 8 % 64 == 0 &&
      padsFit x.2 x.2.myRing x.1 && (x.2.session 0 0).state.isFree &&
      meets (storeW (wakeWaiters x.2 x.2.myRing 0) (wakeWaiters x.2 x.2.myRing 0).who (BitVec.ofNat 64 (field x.1 0x18 8)) 8 0 true)
        (fun _ => true)) = true) ∧
    ((∀ n < 4, (({ tiny with rings := [{ Ring.reset with sessions := List.replicate 4 (running Session.reset) }] }).session 0 n).state
      ≠ .free)) ∧
    (let s := withRegs [(3, win)] (record [(0, 8, 5 + 6 * 2 ^ 24 + 2 ^ 48), (8, 8, 99)] (ringed (fun ss => { ss with state := .setup })))
     meets (pairEntries s (.wgpair ⟨0, 2, 3, 4, 0⟩) win 7 1) (fun x => x.1.length == 1) = true) ∧
    (headOk header = true ∧ headSession header = 1 ∧ ((ringed running).session 0 1).state = .running ∧
     inScratch (ringed running) ⟨0, 0, 16⟩ win.toNat (headLen header * 2048) = true ∧ (ringed running).me.queue = [] ∧
     ((ringed id).session 0 1).state = .free) ∧
    (((ringed running).session 0 1).status = 0 ∧
     ((ringed (fun ss => { running ss with status := 1 })).session 0 1).faultCause = none ∧
     ((ringed (fun ss => { running ss with status := 2, faultCause := some .ringStuck })).session 0 1).owner = (ringed id).cur) ∧
    (runningTasks (discardTasks (ringed running) 0 1) 0 1 = false ∧
     let busy := (ringed running).modRing 0 (fun g => { g with tables := modAt g.tables 0 (fun l =>
       l.set 3 (some ⟨5, 6, 1, 0, none, none, true, true⟩)) })
     runningTasks (discardTasks (busy.modMe (fun t => { t with task := some ⟨0, 0, 1, 3, true⟩ })) 0 1) 0 1 = true) ∧
    (let s := withRegs [(3, win)] (ringed running)
     meets ((statusBlock s 0 1).zipIdx.foldlM
      (fun u w => storeW u u.who (s.me.greg 3 + BitVec.ofNat 64 (8 * w.2)) 8 w.1 false) s) (fun _ => true) = true) ∧
    (tiny.me.task = none ∧ tiny.myHive.ring.isHeld = false) ∧
    (let s := (ringed id).modMe (fun t => { t with task := some ⟨0, 0, 1, 3, true⟩ })
     s.me.task.isSome = true ∧ s.me.queue = [] ∧
     ownedSessions ((undoBindings (releaseL1 s s.who 1) s.cur).modMe (fun t => { t with pushed := [], pushBits := 0 })) s.cur = []) ∧
    ((ringed running).me.awayHere = none ∧ (0 : Nat) < (ringed running).strands.length ∧
     (let w : Away := ⟨0x10000, 5, 9, false⟩
      let s := (ringed running).modMe (fun t => { t with away := some w })
      s.me.awayHere = some w ∧ s.me.status.isEnded = false ∧ s.me.onShare = true ∧ s.me.pc = w.pc ∧
      (s.modMe (fun t => { t with pc := 0x10008 })).me.pc ≠ w.pc)) ∧
    (closing (ringed (fun ss => { running ss with closers := [⟨0, 0x10000, 0⟩] })) 0 = some (0, 1) ∧
     let s := ringed (fun ss => { running ss with drain := .stopping, drainers := [⟨0, 0x10000, 5⟩] })
     drainReady s 0 = some (0, 1, ⟨0, 0x10000, 5⟩) ∧ meets (finishDrain s 0 1).2 (fun _ => true) = true) := by decide +kernel

/-- A tile of session 1. -/
def someTile (need : Nat) : Tile :=
  { id := 5, fam := false, session := 1, need := need, len := 1, laps := 0, origin := 0, src := win, payload := 0 }

/-- A ring whose slot of position 0 holds a tile, with entries of one half. -/
def carrying (need : Nat) (es : List PairEntry) (pads : List Pad) : State :=
  (ringed running).modRing 0 (fun g => { g with
    slotsA := g.slotsA.set 0 (some (someTile need)), pads := g.pads.set 0 pads
    tables := g.tables.set 0 ((es.map some ++ List.replicate 256 none).take 256) })

/-- An entry of session 1 whose A half is tile 5. -/
def someEntry (b : Option Nat) : PairEntry := ⟨5, 6, 1, 0, none, b, false, false⟩

/-- A pad of session 1 that holds a B tile. -/
def somePad (n : Nat) (refs : List Nat) : Pad :=
  { session := 1, num := n, fam := true, id := 6, src := 0, origin := 0, laps := 0, len := 1, refs := refs }

theorem witness_RingBeats :
    0 < (ringed id).rings.length ∧
    (let o : GFmt := ⟨0, 1, 2, 0, 0⟩
     let s := withRegs [(1, win), (2, header)] ((ringed running).modMe (fun t => { t with status := .blocked (.wginj o) }))
     (s.ring 0).slotsA.length = 12 ∧ (s.ring 0).slotsB.length = 12 ∧ (s.ring 0).slot false 0 = none ∧
     injector s 0 0 false = some 0 ∧ (s.strand 0).status = .blocked (.wginj o)) ∧
    (let es (s : State) := ((s.ring 0).entriesAt 0).filter (fun e =>
       e.2.session == 1 && !e.2.fired && (e.2.half false).1 == 5 && (e.2.half false).2.isNone)
     let waits (s : State) := (((s.ring 0).padsAt 0 1).filter ((s.ring 0).unpaired 0)).length
     let pads (s : State) := (s.session 0 1).padCount
     (∀ s ∈ [carrying 2 [] [], carrying 1 [someEntry none, someEntry none] [], carrying 2 [someEntry none] [somePad 0 [], somePad 1 []],
        carrying 2 [someEntry none] [somePad 0 [0]], carrying 2 [someEntry (some 0)] [somePad 0 [0]], carrying 2 [someEntry none] []],
       (s.ring 0).slot false 0 ≠ none ∧ sessionLive s 0 1 = true ∧ pads s = 2) ∧
     es (carrying 2 [] []) = [] ∧ 1 < (es (carrying 1 [someEntry none, someEntry none] [])).length ∧
     (let s := carrying 2 [someEntry none] [somePad 0 [], somePad 1 []]
      es s ≠ [] ∧ (es s).length ≤ 2 ∧ (s.ring 0).freePad 0 1 (pads s) = none) ∧
     (let s := carrying 2 [someEntry none] [somePad 0 [0]]
      (s.ring 0).freePad 0 1 (pads s) = some 1 ∧ (∀ e ∈ es s, (e.2.half true).2 = none) ∧ pads s - 1 ≤ waits s) ∧
     (let s := carrying 2 [someEntry (some 0)] [somePad 0 [0]]
      (s.ring 0).freePad 0 1 (pads s) = some 1 ∧ ∃ e ∈ es s, (e.2.half true).2.isSome = true) ∧
     (let s := carrying 2 [someEntry none] []
      (s.ring 0).freePad 0 1 (pads s) = some 0 ∧ waits s < pads s - 1)) ∧
    (let s := ringed (fun ss => { running ss with fired := 1, ended := 1 })
     (s.session 0 1).state = .running ∧ sessionLive s 0 1 = true ∧ (s.session 0 1).fired = (s.session 0 1).total ∧
     (s.session 0 1).ended = (s.session 0 1).total ∧ (s.ring 0).tilesOf 1 = []) ∧
    (((ringed id).session 0 1).state ≠ .running ∧
     (let s := (ringed running).modRing 0 (fun g => { g with slotsA := g.slotsA.set 0 (some { someTile 1 with laps := 2 }) })
      (strandedTile s 0 1).isSome = true ∧ (s.session 0 1).state = .running) ∧
     strandedTile (ringed running) 0 1 = none ∧ 12 ≤ ((ringed (fun ss => { running ss with idle := 12 })).session 0 1).idle ∧
     ((ringed running).session 0 1).idle < 12) := by decide +kernel

/-- A number whose fields are given: offset, number. -/
def fieldsOf (l : List (Nat × Nat)) : Nat := l.foldl (fun a x => a + x.2 * 256 ^ x.1) 0

/-- A command record of each kind for 8 elements or bytes, its completion record at the window + 0x100. -/
def commandOf (k : CmdKind) (more : List (Nat × Nat)) : Nat :=
  fieldsOf ([(8, win.toNat + 0x100), (0x24, 1), (0x28, 1), (0x2C, 1)] ++ more ++ match k with
    | .copy => [(1, 1), (0x10, win.toNat + 0x400), (0x18, win.toNat + 0x800), (0x20, 8)]
    | .fill => [(1, 1), (0x10, 7), (0x18, win.toNat + 0x800), (0x20, 8)]
    | .ztab => [(2, 9), (0x10, win.toNat + 0x400), (0x20, 8)]
    | .zenc => [(2, 9), (0x10, win.toNat + 0x400), (0x18, win.toNat + 0x800), (0x20, 8), (0x68, 64)]
    | .xseal => [(0, 3), (0x10, 0x1000), (0x18, 2 ^ 30), (0x20, 8)])

/-- tiny mapped, its second GiB in host memory and 2 MiB of its first sealed. -/
def sealedFrame : State :=
  { (mapped 12).modPart 0 (fun p => { p with seals := [(2 ^ 30, 2 ^ 21)] }) with
    mem := Mem.write (mapped 12).mem 0x220008 8 (2 ^ 51 + 15) }

def kinds : List CmdKind := [.copy, .fill, .ztab, .zenc, .xseal]

theorem witness_EngineCommandsIssueAndWait :
    (win + 4).toNat % 64 ≠ 0 ∧ win.toNat % 64 = 0 ∧
    (∀ k ∈ kinds, let s := record [(0, 128, commandOf k [])] sealedFrame
      meets (loadRecord s s.who win 16) (fun x => x.1 == commandOf k [] && badField k x.1 == none &&
        (k != .xseal || sealFault x.2 x.2.me.hive x.1 == none) &&
        meets (storeW x.2 x.2.who (BitVec.ofNat 64 (field x.1 8 8)) 8 0 false) (fun v => v.cmds.length < 16)) = true ∧
      (badField k (commandOf k [(4, 1)])).isSome = true) ∧
    (({ tiny with cmds := List.replicate 16 (newCommand tiny 0 .copy 0) } : State).cmds.filter (fun c => c.strand == 0)).length = 16 ∧
    meets (loadW tiny tiny.who win 8 true) (fun x => x.1 == 0) = true ∧
    meets (loadW (record [(0, 8, 1)] tiny) tiny.who win 8 true) (fun x => x.1 == 1) = true ∧ tiny.me.placed = true := by decide +kernel

/-- A state with one command that has started. -/
def commands (s : State) (k : CmdKind) (r : Nat) (f : Cmd → Cmd) : State :=
  { s with cmds := [f { newCommand s s.cur k r with started := true }] }

theorem witness_EngineCommandSteps :
    (let c := newCommand tiny 0 .copy 0
     let late := tiny.modMe (fun t => { t with queue := [entryOf someVst] })
     let d := newCommand late 0 .copy 0
     ({ tiny with cmds := [c] } : State).cmd c.id = some c ∧ c.started = false ∧ c.ending = none ∧ commandMayStart tiny c = true ∧
     ({ late with cmds := [d] } : State).cmd d.id = some d ∧ commandMayStart late d = false) ∧
    (∀ k ∈ kinds, let s := commands tiny k (commandOf k []) id
      (s.cmd 1).any (fun c => c.started && c.ending == none && c.kind == k) = true) ∧
    (let r := commandOf .copy [(0x10, 2 ^ 57)]
     let s := commands tiny .copy r id
     (s.cmd 1).any (fun c => meets (gatherChunk c s (runsOf r 4096 0 (min 4096 (totalOf r)))) (fun _ => true)) = false) ∧
    (∀ n ∈ [8, 40], ∀ limit ∈ [35, 4096], let s := commands tiny .zenc (commandOf .zenc [(0x20, n - 8), (0x68, limit - 64)]) id
      (s.cmd 1).any (fun c => meets (readRange s c.who (win.toNat + 0x400) (min 32 n)) (fun x =>
        meets (writeRange x.2 c.who (win.toNat + 0x800) [0]) (fun _ => true))) = true) ∧
    (let s := commands tiny .ztab (commandOf .ztab []) id
     (s.cmd 1).any (fun c => meets (readRange s c.who (win.toNat + 0x400) 8) (fun _ => true) && c.table == none &&
      slotReferences s { c with table := some [] } == 0 &&
      slotReferences { s with cmds := s.cmds ++ [{ c with id := 7, kind := .zenc }] } c != 0) = true) ∧
    (let s := commands sealedFrame .xseal (commandOf .xseal []) id
     let r := commandOf .xseal []
     stampFault s 1 0x1000 (2 ^ 30) 8 = none ∧ sealFault s 1 r = none ∧ meets (stampPages s 1 .read 0x1000 8) (fun _ => true) = true ∧
     meets (stampPages s 1 .write (2 ^ 30) (8 + 3584)) (fun _ => true) = true ∧ (stampFault tiny 1 0x1000 (2 ^ 30) 8).isSome = true) ∧
    (∀ done ∈ [0, 2 ^ 57], let s := commands tiny .fill (commandOf .fill [(8, done)]) (fun c => { c with ending := some (1, 0, 0, 0) })
      (s.cmd 1).any (fun c => meets (writeCompletion s c (1, 0, 0, 0)) (fun _ => true)) = decide (done = 0)) ∧
    (let c := newCommand tiny 0 .fill (commandOf .fill [])
     let s := { tiny with cmds := { c with id := 2, ending := some (1, 0, 0, 0) } :: List.replicate 15 { c with id := 3 } }
     let w := s.modMe (fun t => { t with status := .blocked (.xcopy ⟨0, 1, 0, 0, 0⟩), record := some 7 })
     s.me.record = none ∧ w.me.record = some 7 ∧ w.me.status = .blocked (.xcopy ⟨0, 1, 0, 0, 0⟩) ∧
     commandKind (.xcopy ⟨0, 1, 0, 0, 0⟩) = some .copy ∧ (w.cmd 2).any (fun c => meets (writeCompletion w c (1, 0, 0, 0)) (fun u =>
      ((u.cmds.filter (fun x => x.id != 2)).filter (fun x => x.strand == 0)).length < 16)) = true) := by decide +kernel

/-- A copy of 8 bytes, both its sides in the scratchpad window. -/
theorem witness_EngineCopies :
    let s := commands tiny .copy (commandOf .copy []) id
    let c := (s.cmd 1).getD (newCommand s s.cur .copy 0)
    (∀ k < 8, locate s c.who (win.toNat + 0x800 + k) .write = .ok (.scratch 0 (0x800 + k), s)) ∧
    (∀ k < 8, locate s c.who (win.toNat + 0x400 + k) .read = .ok (.scratch 0 (0x400 + k), s)) ∧
    (s.hive c.hive).holds c.share = true := by
  intro s c
  have h : ∀ b ∈ [0x400, 0x800], ∀ k < 8, bits (win.toNat + b + k) 63 57 = 0 ∧ bits (win.toNat + b + k) 56 52 = 31 ∧
      (win.toNat + b + k) % 2 ^ 52 = b + k ∧ b + k < scratchLen (s.core 0) ⟨0, 0, 16⟩ := by decide +kernel
  have hb : scratchBase (s.core 0) ⟨0, 0, 16⟩ = 0 := by decide +kernel
  have hc : c.who.share = some ⟨0, 0, 16⟩ := by decide +kernel
  have go : ∀ b ∈ [0x400, 0x800], ∀ kind, ∀ k < 8, locate s c.who (win.toNat + b + k) kind = .ok (.scratch 0 (b + k), s) := by
    intro b hm kind k hk
    obtain ⟨h1, h2, h3, h4⟩ := h b hm k hk
    rw [locate_window kind hc h1 h2 (by rw [h3]; exact h4), h3, hb, Nat.zero_add]
  exact ⟨go _ (by decide) _, go _ (by decide) _, by decide +kernel⟩

/-- A strand that waits to be placed on core 0, after some that were placed past it. -/
def waiter (vlmin passed : Nat) : Strand :=
  { loadedStrand with strandId := 2, slot := 0, status := .waiting, placed := false, egs := 0, entry := none, fresh := true,
                      pg := 0, vlmin := vlmin, passed := passed }

/-- tiny with its strand's grant halved, and a second that waits. -/
def waits (t : Strand) : State :=
  { tiny.modMe (fun t => { t with egs := 64, pg := 1, grant := 1 }) with strands := [{ loadedStrand with egs := 64, pg := 1, grant := 1 }, t] }
    |>.modHive 1 (fun h => { h with savecnt := 4 })

/-- A VADD entered in the queue of a machine that is not eager; the same with its tags; and with one micro-operation issued. -/
def entered : State := next (.vadd (vOf 7 0)) { ofLength 3 with eager := false }

def tagged : State := next (.queueHeadTagAllocation 0) entered

def issuedOne : State := next (.microOperationIssue 0 0) tagged

/-- The same of a tile instruction, which the matrix unit then takes. -/
def tileEntered : State :=
  next (.queueHeadTagAllocation 0) (next (.tzero ⟨1, 0, 0, 0, 0, 0, 0, 0, 0, 0, 0⟩) { ofLength 1 with eager := false })

def tileTaken : State := next (.matrixUnitTake 0) tileEntered

/-- A store and then a load at an address that is not mapped, both issued. -/
def faultsLater : State :=
  let o : VMFmt := ⟨3, 5, 0, 3, 4, 0, 0, 7, 0, 0, 0⟩
  let s := { (streaming false).modMe (fun t => t.setGreg 3 0x40000000) with eager := false }
  let s := next (.vldx o) (next (.vadd { vOf 7 0 with vd := 9 }) s)
  let s := next (.queueHeadTagAllocation 0) (next (.queueHeadTagAllocation 0) s)
  s.modMe (fun t => { t with queue := t.queue.zipIdx.map (fun e => { e.1 with tags := e.1.tags.map (fun g =>
    { g with issued := if e.2 = 1 then 1 else 0 }) }) })

/-- A TRD that the unit has taken, its EGs still to be produced. -/
def trdTaken : State :=
  next (.matrixUnitTake 0) (next (.queueHeadTagAllocation 0) (next (.trd ⟨1, 3, 0, 4, 0, 0, 13, 13, 0, 0, 0⟩)
    { (ofLength 0).modMe (fun t => { t with mvl := 4 }) with eager := false }))

/-- A TOPA with tags that names a scale stream which is not bound. -/
def scaleless : State :=
  next (.queueHeadTagAllocation 0) (next (.topa ⟨1, 1, 2, 4, 0, 0, 9, 9, 1, 0, 1⟩)
    { (ofLength 1).modMe (fun t => { t with mvl := 4 }) with eager := false })

/-- entered with a second strand that has entered the same. -/
def bothEntered : State :=
  { entered with strands := [entered.me, { entered.me with strandId := 2, slot := 1 }] }

/-- bothEntered, every tag of the share in use. -/
def noTags : State :=
  { bothEntered.modStrand 1 (fun t => { t with queue := t.queue.map (fun e => { e with tags := some (Tags.given 1 0 ⟨0, 0, none, 0, t.rsr, []⟩) }) }) with
    cores := bothEntered.cores.map (fun c => { c with tagNext := c.tagNext.set 0 128 }) }

/-- What a statement about tags asks of a windowed queue head. -/
def headReady (s : State) (k : Nat) (p : Nat → Bool) : Bool :=
  !s.eager && !headTagless s k && (allocHead s k).any (fun h =>
    windowed h.2.2.1 && headFree s k h.1 h.2.1 h.2.2.1 h.2.2.2 && !runsAtTags h.2.2.1 && p (tagsUsed s k + uopCount h.2.2.2 h.2.1))

theorem witness_PlacementAndTheWindow :
    (let x : ShareRef := ⟨0, 0, 16⟩
     let s := waits (waiter 1 0)
     (s.strands.filterMap (fun t => t.share)).find? (fun y => y.core == 0 && y.lg == 0) = some x ∧ waitingFor s x = [1] ∧
     (fitting s (s.strand 1) x).isSome = true ∧ (s.strand 1).task = none ∧
     let t := { tiny with strands := [loadedStrand, waiter 8 16] }
     (∀ k ∈ waitingFor t x, fitting t (t.strand k) x = none) ∧
     (waitingFor t x).find? (fun k => decide (16 ≤ (t.strand k).passed)) = some 1) ∧
    ((tiny.strand 0).placed = true ∧ (tiny.strand 0).resuming = false ∧ (tiny.strand 0).pendFault = none ∧ tiny.eager = true ∧
     headReady entered 0 (fun n => decide (n ≤ 128)) = true ∧ allocTurn entered 0 = some 0 ∧
     headReady noTags 0 (fun n => decide (128 < n)) = true ∧ allocTurn noTags 0 = some 0 ∧
     headReady bothEntered 1 (fun _ => true) = true ∧ allocTurn bothEntered 0 = some 0 ∧ (bothEntered.strand 1).coreNo = 0 ∧
     (∀ e ∈ (tagged.strand 0).queue, e.tags.isSome = true)) ∧
    ((candidates tagged 0 0).length = 1 ∧ 0 ∈ strandsOn tagged 0 0 ∧ 0 ∉ strandsOn tagged 1 0) ∧
    ((tiny.strand 0).queue.findIdx? inFlight = none ∧ (issuedOne.strand 0).queue.findIdx? inFlight = some 0 ∧
     ((issuedOne.strand 0).queue[0]?).any (fun e => !readingTile e) = true ∧
     (egRun issuedOne 0 0 false).any (fun r => match r.2.2.2 with
      | .ok _ _ => true
      | _ => false) = true ∧
     (trdTaken.strand 0).queue.findIdx? inFlight = some 0 ∧ ((trdTaken.strand 0).queue[0]?).any readingTile = true ∧
     (faultsLater.strand 0).queue.findIdx? inFlight = some 1 ∧
     (egRun faultsLater 0 1 false).any (fun r => match r.2.2.2 with
      | .trap _ _ _ _ => true
      | _ => false) = true) ∧
    (unitBusy tileEntered 0 = false ∧ nextTurn tileEntered 0 = some (0, 0) ∧ unitBusy tileTaken 0 = true ∧
     (taggedAt (tileEntered.strand 0) 0).any (fun h => (reachAt tileEntered 0 h.1 h.2.1 h.2.2.1 0).toBool) = true ∧
     unitBusy scaleless 0 = false ∧ nextTurn scaleless 0 = some (0, 0) ∧
     (taggedAt (scaleless.strand 0) 0).any (fun h => !(reachAt scaleless 0 h.1 h.2.1 h.2.2.1 0).toBool) = true ∧
     leaver tileTaken 0 = some (0, 0) ∧ (taggedAt (tileTaken.strand 0) 0).any (fun h => !h.2.2.2.ran) = true) := by decide +kernel

/-- A walk of die 0 for stream 1 of tiny's strand. -/
def someWalk : Walk := { die := 0, hive := 1, gen := 0, va := 0, strand := 0, stream := 1, begun := true }

theorem witness_MemoryEvents :
    WalksBounded tiny 0 ∧
    (tiny.walks.find? (fun w => w.die == 0 && w.begun) = none ∧
     let s := { (mapped 12).modMe (fun t => t.setStream 1 (twoWords false)) with walks := [someWalk] }
     s.walks.find? (fun w => w.die == 0 && w.begun) = some someWalk ∧
     s.walks.filter (fun y => y.begun && sameWalk someWalk y) = [someWalk] ∧
     someWalk.gen = (s.hive 1).gen ∧ (match walk s (s.hive 1) 0 with
      | .leaf _ => true
      | _ => false) = true ∧
     ((s.strand 0).stream 1).bound = true ∧ (s.strand 0).hive = 1 ∧
     someWalk.gen ≠ ((s.modHive 1 (fun h => { h with gen := 1 })).hive 1).gen ∧
     walk tiny (tiny.hive 1) 0 = .fail .notPresent) ∧
    (admissible tiny 0 = none ∧
     let s : State := { tiny with llc := [⟨0, 1, 128⟩] }
     admissible s 0 = some ⟨0, 1, 128⟩ ∧ admits s ⟨0, 1, 128⟩ = some (1, false) ∧ (s.findHive 1).isSome = true ∧
     0 < (s.hive 1).buckets.length) ∧
    (family.hives.map (fun h => h.id)).Nodup ∧
    (let s (n : Word) := tiny.modCore 0 (fun c => { c with l1 := [dirtyLine], cycles := n })
     ((s 65536).core 0).line (2 ^ 23) = some dirtyLine ∧ dirtyLine.dirty ≠ 0 ∧ dirtyLine.since + 65536 ≤ ((s 65536).core 0).cycles.toNat ∧
     ((s 65535).core 0).cycles.toNat < dirtyLine.since + 65536) :=
  ⟨fun l _ h => by
    cases l with
    | nil => exact Nat.zero_le _
    | cons a l => exact absurd (h a (List.mem_cons_self ..)).1 (List.not_mem_nil), by decide +kernel, by decide +kernel, by decide +kernel,
    by decide +kernel⟩

theorem witness_ErrorsPowerAndLinks :
    0 < tiny.parts.length ∧ tiny.findHive (tiny.part 0).root = some loadedHive ∧ inModule 0x1000 4 = true ∧
    (sealedFrame.sealed (2 ^ 30) = true ∧ sealedFrame.sealed 0x1000 = false) ∧
    (let s : State := { tiny with imports := [(3, 0, 1)] }
     s.imports.find? (fun e => e.1 == 3) = some (3, 0, 1) ∧ (s.findHive 1).isSome = true ∧
     tiny.imports.find? (fun e => e.1 == 3) = none ∧
     let m : State := { mapped 12 with imports := [(3, 0, 1)] }
     meets (writeRange m ⟨1, none, false⟩ 8 [7]) (fun _ => true) = true ∧
     meets (readRange m ⟨1, none, false⟩ 8 4) (fun _ => true) = true ∧
     meets (amoW m ⟨1, none, false⟩ 8 .add 8 1 0) (fun _ => true) = true ∧
     remoteFault m 1 8 (.store [7]) = none ∧ remoteFault m 1 8 (.load 4) = none ∧ remoteFault m 1 8 (.amo .add true 1 0) = none ∧
     remoteFault m 1 (2 ^ 40) (.load 4) = some .notPresent ∧
     remoteFault { mapped 4 with imports := [(3, 0, 1)] } 1 8 (.store [7]) = some .notPermitted) ∧
    (let s : State := { tiny with parts := List.replicate 48 { Partition.reset with live := true, granules := [] } }
     let at_ (info val : Nat) : Option Nat := chargedTo s 47 info val
     chargedTo tiny 0 1 5 = some 0 ∧ chargedTo { tiny with parts := [{ Partition.reset with granules := [1024] }] } 0 2 (2 ^ 40) = some 0 ∧
     chargedTo tiny 0 8 5 = some 0 ∧ at_ 8 (2 ^ 51) = some 47 ∧ at_ 3 47 = some 47 ∧ at_ 7 0 = some 0 ∧ at_ 4 191 = some 47 ∧
     at_ 5 0 = some 0 ∧ at_ 6 9 = some 47 ∧ at_ 1 5 = none ∧ at_ 3 48 = none ∧ at_ 9 0 = none) ∧
    ((List.range 4).find? (fun k => sealedFrame.sealed (2 ^ 30 - 2 + k)) = some 2 ∧ sealOwner sealedFrame (2 ^ 30) = some 0 ∧
     (List.range 4).find? (fun k => sealedFrame.sealed (0x1000 + k)) = none) ∧
    (let d : PowerDraw := ⟨0, []⟩
     drawOf d 0 = 0 ∧ d.module * 100 < tiny.powerLimit * 95 ∧ tiny.powerLimit < (⟨12001, []⟩ : PowerDraw).module) := by decide +kernel

/-- The check value that the parameters of R308 (polynomial 0x1021, initial value 0xFFFF) give for the bytes "123456789". -/
theorem test_crc16 : crc16 [0x31, 0x32, 0x33, 0x34, 0x35, 0x36, 0x37, 0x38, 0x39] = 0x29B1 := by decide +kernel

/-- The host's request queue, its one request of a code with argument words, in a module that serves. -/
def requests (code : Nat) (args : List Nat) (s : State) : State :=
  { s with
    boot := { s.boot with state := 5, queueBase := BitVec.ofNat 64 (2 ^ 51), queueSize := 16 }
    mem := (args.zipIdx).foldl (fun m x => Mem.write m (2 ^ 51 + 64 + 8 + 8 * x.2) 8 x.1)
      (Mem.write (Mem.write s.mem (2 ^ 51 + 8) 8 1) (2 ^ 51 + 64) 4 code) }

/-- What the clause of a request asks of its words. -/
def asks (s : State) (code args : Nat) (p : (Nat → Nat) → Bool) : Bool :=
  s.request.any (fun q => requestCode q.2 == code && argsUnused q.2 args && p (requestArg q.2))

/-- tiny with two partitions, the first of granules 0 and 2, its ticket 7 with the host, and a virtual function bound. -/
def hosted : State :=
  let p := { Partition.reset with live := true, root := 1, granules := [0, 2], seals := [(2 ^ 21, 2 ^ 21)] }
  let x : Suspension := ⟨.trap, 7, 0, ⟨0, 0, 0, 0, 0, 0, 0, 0, 0, 0, 0⟩⟩
  { tiny with
    parts := [p, Partition.reset], vfs := [(4, 1)]
    strands := [loadedStrand, { loadedStrand with strandId := 2, slot := 1, status := .suspended, placed := false, susp := some x }] }

/-- A root descriptor in granule 1 and a list of that granule, in host memory. -/
def rootDescribed (weight : Nat) (s : State) : State :=
  let d := 2 ^ 51 + 0x1000
  { s with mem := ([(d, 8, 1), (d + 9, 1, weight), (d + 0x18, 8, 2 ^ 30), (d + 0x20, 8, 2 ^ 30), (d + 0x28, 8, 2 ^ 30 + 0x10000),
      (d + 0x30, 8, 2 ^ 30), (d + 0x40, 8, 0x20000000), (d + 0x48, 8, 0x400000), (d + 0x58, 4, 16), (d + 0x5C, 4, 2),
      (d + 0x60, 8, 0x40000), (d + 0x68, 8, 0x200000), (d + 0x70, 4, 4), (d + 0x88, 8, 2 ^ 30), (d + 0x800, 8, 1), (d + 0x808, 8, 1)]
      : List (Nat × Nat × Nat)).foldl (fun m x => Mem.write m x.1 x.2.1 x.2.2) s.mem }

theorem witness_FirmwareRequests :
    (∀ x ∈ [(1, 5), (2, 1), (3, 2), (4, 1), (5, 3), (6, 5), (7, 2), (8, 3), (9, 3), (10, 4), (11, 2), (12, 3)],
      (requests x.1 (List.replicate x.2 0 ++ [1]) hosted).request.any (fun q => requestCode q.2 == x.1 && !argsUnused q.2 x.2) = true) ∧
    (∀ c ∈ [0, 13], (requests c [] hosted).request.any (fun q => requestCode q.2 == c) = true) ∧
    (asks (requests 3 [5, 1] hosted) 3 2 (fun g => decide (g 0 < 512) && (hosted.findHive (g 1)).isSome &&
      hosted.vfs.all (fun v => v.1 != g 0)) = true ∧
     asks (requests 3 [512, 1] hosted) 3 2 (fun g => decide (512 ≤ g 0)) = true) ∧
    (asks (requests 4 [4] hosted) 4 1 (fun g => hosted.vfs.any (fun v => v.1 == g 0)) = true ∧
     asks (requests 4 [5] hosted) 4 1 (fun g => hosted.vfs.all (fun v => v.1 != g 0)) = true) ∧
    (asks (requests 12 [3, 47, 0] hosted) 12 3 (fun g => decide (g 0 < 1024 ∧ g 1 < 48 ∧ g 2 = 0)) = true ∧
     asks (requests 12 [1023, 0, 1] hosted) 12 3 (fun g => decide (g 0 < 1024) && (hosted.findHive (g 2)).isSome &&
      hosted.partOf (g 2) == g 1) = true) ∧
    asks (requests 6 [0, 30, 1, 9, 1023] hosted) 6 5 (fun g => decide (g 0 < 48 ∧ 1 ≤ g 1 ∧ g 1 ≤ 30 ∧ g 2 ≠ 0 ∧ g 2 < 2 ^ 16 ∧
      g 4 < 1024)) = true ∧
    (asks (requests 7 [12000, 0] hosted) 7 2 (fun g => decide (g 0 ≤ 12000 ∧ g 1 = 0)) = true ∧
     asks (requests 7 [12001, 0] hosted) 7 2 (fun g => decide (12000 < g 0)) = true) ∧
    (asks (requests 5 [0, 2 ^ 22, 2 ^ 21] hosted) 5 3 (fun g => inGranules [0, 2] (g 1) (g 2) &&
      (hosted.part 0).seals.all (fun x => !overlaps x.1 x.2 (g 1) (g 2))) = true ∧
     asks (requests 5 [0, 1, 1] hosted) 5 3 (fun g => g 1 % 2 ^ 21 != 0) = true) ∧
    (asks (requests 9 [0, 2 ^ 21, 2 ^ 21] hosted) 9 3 (fun g => (hosted.part 0).seals.contains (g 1, g 2) &&
      !sealBusy hosted (g 1) (g 2)) = true ∧
     asks (requests 9 [0, 0, 2 ^ 21] hosted) 9 3 (fun g => !(hosted.part 0).seals.contains (g 1, g 2)) = true ∧
     sealBusy (commands sealedFrame .xseal (commandOf .xseal []) id) (2 ^ 30) (2 ^ 21) = true) ∧
    asks (requests 11 [47, 2 ^ 51 + 0x40] hosted) 11 2 (fun g => decide (g 0 < 48 ∧ g 1 % 64 = 0) && inHost (g 1) 320) = true ∧
    (asks (requests 2 [0] hosted) 2 1 (fun g => decide (g 0 < 48) && (hosted.part (g 0)).live) = true ∧
     asks (requests 2 [1] hosted) 2 1 (fun g => !(hosted.part (g 0)).live) = true) ∧
    (∀ w ∈ [0, 1], asks (requests 1 [1, 2 ^ 51 + 0x1800, 2 ^ 51 + 0x40, 16, 2 ^ 51 + 0x1000] (rootDescribed w hosted)) 1 5 (fun g =>
      let s := rootDescribed w hosted
      let gs := granuleList s (g 1)
      decide (g 0 < 48 ∧ g 2 % 64 = 0) && !(s.part (g 0)).live && gs != [] && gs.length == Mem.read s.mem (g 1) 8 &&
      gs.eraseDups.length == gs.length && gs.all (fun x => granuleExists x && granuleFree s (g 0) x) &&
      inHost (g 1) (8 + 8 * gs.length) && isPow2In (g 3) 16 65536 && inHost (g 2) (64 + 64 * g 3) && inHost (g 4) 256 &&
      (rootFault s gs (Mem.read s.mem (g 4) 256) == none) == (w == 1)) = true) ∧
    asks (requests 1 [0, 0, 0, 0, 0] hosted) 1 5 (fun g => (hosted.part (g 0)).live) = true ∧
    (asks (requests 10 [0, 7, 0, 0] hosted) 10 4 (fun g => (hosted.part (g 0)).live &&
      (ticketStrand hosted 0 (BitVec.ofNat 64 (g 1))).any (fun x => hosted.partOf (hosted.strand x.1).hive == g 0 &&
        meets (answer hosted x.1 x.2 (g 2) (BitVec.ofNat 64 (g 3))) (fun _ => true))) = true ∧
     asks (requests 10 [0, 8, 2, 6] hosted) 10 4 (fun g => isCauseCode (g 3) &&
      (ticketStrand hosted 0 (BitVec.ofNat 64 (g 1))).isNone) = true ∧
     asks (requests 10 [0, 7, 3, 0] hosted) 10 4 (fun g => g 2 == 3) = true) ∧
    (asks (requests 8 [0, 2, 5] hosted) 8 3 (fun g => (hosted.part (g 0)).live && (hosted.part (g 0)).granules.contains (g 1) &&
      granuleExists (g 2) && hosted.parts.all (fun p => !p.granules.contains (g 2)) &&
      hosted.hives.all (fun h => !overlaps (g 1 * 2 ^ 30) (2 ^ 30) h.codebase (h.codebound - h.codebase)) &&
      (hosted.part (g 0)).seals.all (fun x => !overlaps (g 1 * 2 ^ 30) (2 ^ 30) x.1 x.2)) = true ∧
     asks (requests 8 [0, 1, 5] hosted) 8 3 (fun g => !(hosted.part (g 0)).granules.contains (g 1)) = true ∧
     rootRuns (haltRoot hosted 1) 1 = false ∧
     rootRuns (haltRoot (hosted.modMe (fun t => { t with yieldwin := 100 })) 1) 1 = true) := by decide +kernel

/-- A module whose boot window is in a state. -/
def booting (n : Nat) (s : State) : State := { s with boot := { s.boot with state := n } }

theorem witness_BootSequence :
    State.reset.boot.state = 0 ∧ (booting 3 tiny).boot.state = 3 ∧ (booting 4 tiny).boot.state = 4 ∧
    (booting 1 tiny).boot.state = 1 ∧ (booting 2 tiny).boot.state = 2 ∧ (booting 2 tiny).boot.image.length < 8192 ∧
    firmwareFault (List.replicate 8192 0) = some 4 := by decide +kernel

/-! ## Witnesses: further clauses -/

/-- lords, its first page of memory the pool of the child; a table of the child's lies at pool offset 0x20000. -/
def overlord : State :=
  let s := lords (fun h => { h with pool := [2 ^ 30, 2 ^ 30 + 2 ^ 21], saveoff := 0x100000, wsize := 2 ^ 30 })
  { s with mem := Mem.write s.mem (2 ^ 30) 8 (2 ^ 30 + 0x20001) }

theorem cachesSound_of_empty {s : State} (h : s.cores.all (fun c => c.l1.isEmpty && c.tlb.isEmpty) = true)
    (hd : s.hives.all (fun h => decide (h.saveoff % 65536 = 0) && h.pool.all (fun b => decide (b % 2 ^ 21 = 0))) = true)
    (hn : (s.hives.map (fun h => h.id)).Nodup) : s.CachesSound := by
  have hc : ∀ c, (s.core c).l1 = [] ∧ (s.core c).tlb = [] := by
    intro c
    simp only [State.core, List.getD_eq_getElem?_getD]
    cases hx : s.cores[c]? with
    | none => exact ⟨by decide, by decide⟩
    | some x =>
      simp only [List.all_eq_true, Bool.and_eq_true, List.isEmpty_iff] at h
      exact h x (List.mem_of_getElem? hx)
  simp only [List.all_eq_true, Bool.and_eq_true, decide_eq_true_eq] at hd
  refine ⟨fun c l hl => ?_, fun c e he => ?_, hn, hd⟩
  · rw [(hc c).1] at hl; exact absurd hl List.not_mem_nil
  · rw [(hc c).2] at he; exact absurd he List.not_mem_nil

theorem witness_WhereAnAddressLeads_changes :
    (mapped 12).CachesSound ∧ overlord.CachesSound ∧
    (∃ pa e u, locate (mapped 12) (mapped 12).who 8 .read = .ok (.mem pa e, u)) ∧
    (∃ c off pa e u, locate overlord overlord.who 0 .write = .ok (.shadow c off pa e, u)) ∧
    meets (loadW (mapped 12) (mapped 12).who 8 8 false) (fun _ => true) = true ∧
    meets (storeW (mapped 12) (mapped 12).who 8 8 7 false) (fun _ => true) = true ∧
    meets (amoW (mapped 12) (mapped 12).who 8 .add 8 1 0) (fun _ => true) = true ∧
    meets (storeSt overlord overlord.who 0 8 0x20001 false) (fun _ => true) = true ∧
    meets (storeSt (mapped 12) (mapped 12).who 8 4 7 true) (fun _ => true) = true :=
  ⟨cachesSound_of_empty (by decide +kernel) (by decide +kernel) (by decide), cachesSound_of_empty (by decide +kernel) (by decide +kernel) (by decide),
    ⟨_, _, _, rfl⟩, ⟨_, _, _, _, _, rfl⟩, by decide +kernel, by decide +kernel, by decide +kernel, by decide +kernel, by decide +kernel⟩

theorem witness_MemoryStores_composing :
    (∃ off pa e u, locate overlord overlord.who 0x20000 .write = .ok (.shadow 2 off pa e, u) ∧ e.tw = false ∧ off = 0x20000 ∧
      (linkedTables (charge u 1 pa 128) ((charge u 1 pa 128).hive 2)).find? (fun t => decide (t.1 ≤ off) && decide (off < t.1 + tableSize t.2)) =
        some (0x20000, 2)) ∧
    (∃ off pa e u, locate overlord overlord.who 0x30000 .write = .ok (.shadow 2 off pa e, u) ∧ e.tw = false ∧
      (linkedTables (charge u 1 pa 128) ((charge u 1 pa 128).hive 2)).all (fun t => decide (off < t.1 ∨ t.1 + tableSize t.2 ≤ off)) = true) ∧
    (let h := overlord.hive 2
     let at_ (l v : Nat) (p : State → Bool) : Bool := meets (composeAt overlord h 0x20000 l v 0x20000) p
     at_ 2 15 (fun _ => true) = true ∧ at_ 2 (2 ^ 30 + 15) (fun _ => true) = false ∧
     h.poolPhys 0x20000 + 8 ≤ h.poolPhys (0x20000 + tableSize 2) ∧
     viewForm 3 0x20001 = .table 0x20000 ∧ 0x20000 + 2 * tableSize 2 ≤ h.saveoff ∧ h.poolPhys 0x20000 % 256 = 0 ∧
     h.poolPhys 0x20000 < 2 ^ 52 ∧ viewForm 3 0x100001 = .table 0x100000 ∧ h.saveoff < 0x100000 + 2 * tableSize 2 ∧
     viewForm 2 15 = .page 0 true true false false ∧ 0 + pageSize 2 ≤ h.wsize ∧ h.wsize < 2 ^ 30 + pageSize 2 ∧
     viewForm 2 (2 ^ 30 + 15) = .page (2 ^ 30) true true false false ∧
     walk tiny (tiny.hive h.parent) (h.wbase + 0) = .fail .notPresent ∧
     (∃ back, walk overlord (overlord.hive h.parent) (h.wbase + 0) = .leaf back ∧ 0 + pageSize 2 ≤ back.size ∧
      back.vbase = 0 ∧ back.pbase % 256 = 0 ∧ back.pbase < 2 ^ 52) ∧
     (let g := { h with wbase := 65536 }
      (2 ^ 30 - 2 ^ 21) + pageSize 1 ≤ g.wsize ∧ ∃ back, walk overlord (overlord.hive g.parent) (g.wbase + (2 ^ 30 - 2 ^ 21)) = .leaf back ∧
        back.size < g.wbase + (2 ^ 30 - 2 ^ 21) - back.vbase + pageSize 1)) :=
  ⟨⟨_, _, _, _, rfl, by decide, rfl, by decide +kernel⟩, ⟨_, _, _, _, rfl, by decide, by decide +kernel⟩,
    by decide +kernel, by decide +kernel, by decide +kernel, by decide +kernel, by decide +kernel, by decide +kernel, by decide +kernel,
    by decide +kernel, by decide +kernel, by decide +kernel, by decide +kernel, by decide +kernel, by decide +kernel, by decide +kernel,
    ⟨_, rfl, by decide, by decide, by decide, by decide⟩, by decide +kernel, ⟨_, rfl, by decide⟩⟩

/-- A queue of a hive at 0x1000: its HEAD, its TAIL, its size, in memory that reads one GiB of pages. -/
def posts (base head tail : Nat) : State :=
  let s := (mapped 12).modHive 1 (fun h => { h with tqbase := BitVec.ofNat 64 base, tqsize := 16 })
  { s with mem := Mem.write (Mem.write s.mem (2 ^ 30 + base) 8 head) (2 ^ 30 + base + 8) 8 tail }

/-- tiny, its partition's host queue of 16 entries at the start of host memory, with a TAIL. -/
def hostPosts (tail : Nat) : State :=
  { tiny.modPart 0 (fun p => { p with hqbase := 2 ^ 51, hqsize := 16 }) with mem := Mem.write [] (2 ^ 51 + 8) 8 tail }

theorem witness_ParentalTrapDelivery_records :
    (tiny.findHive tiny.me.hive).isSome = true ∧
    (let at_ (s : State) (p : Nat → Nat → State → Bool) : Bool := (deviceRead s 1 (s.hive 1).tqbase.toNat).any (fun x =>
       (deviceRead x.2 1 ((s.hive 1).tqbase.toNat + 8)).any (fun y => p x.1 y.1 y.2))
     at_ (posts 0x1000 3 5) (fun h t b => decide ((t + 2 ^ 64 - h) % 2 ^ 64 < 16) &&
       deviceWritable b 1 (0x1000 + 64 + 64 * (t % 16)) 64 && deviceWritable b 1 0x1008 8) = true ∧
     at_ (posts 0x1000 0 16) (fun h t _ => decide (16 ≤ (t + 2 ^ 64 - h) % 2 ^ 64)) = true) ∧
    (deviceRead tiny 1 (tiny.hive 1).tqbase.toNat).isNone = true ∧
    (deviceRead (posts (2 ^ 30 - 8) 0 0) 1 (2 ^ 30 - 8)).any (fun x => (deviceRead x.2 1 (2 ^ 30)).isNone) = true ∧
    (∃ pa e v, locate (mapped 12) ⟨1, none, false⟩ 8 .write = .ok (.mem pa e, v)) ∧
    (let used (s : State) : Nat := (Mem.read s.mem ((s.part 0).hqbase + 8) 8 + 2 ^ 64 - Mem.read s.mem (s.part 0).hqbase 8) % 2 ^ 64
     used (hostPosts 15) < ((hostPosts 15).part 0).hqsize ∧ ((hostPosts 16).part 0).hqsize ≤ used (hostPosts 16) ∧
     0 < (hostPosts 15).parts.length) :=
  ⟨by decide, by decide +kernel, by decide +kernel, by decide +kernel, ⟨_, _, _, rfl⟩, by decide +kernel⟩

/-- A strand asked to leave, for firmware or not, that waits at a barrier. -/
def askedToLeave (firmware : Bool) : State :=
  tiny.modMe (fun t => { t with preempt := some ⟨0, firmware, 0⟩, status := .blocked (.gbar ⟨0, 0, 0, 0, 0⟩) })

theorem witness_PreemptionAndResumption_saves :
    (∀ b ∈ [true, false], let s := askedToLeave b
      0 < s.strands.length ∧ (s.strand 0).active = true ∧ (s.strand 0).inBeat = false ∧ (s.strand 0).preempt = some ⟨0, b, 0⟩ ∧
      (s.strand 0).status.isBlocked = true ∧ (s.strand 0).queue = [] ∧ (s.strand 0).trapcause.getLsbD 8 = false ∧
      (s.strand 0).kept = none ∧ (s.strand 0).pendFault = none ∧ (s.strand 0).away = none ∧ (s.core (s.strand 0).coreNo).comb = []) ∧
    (let s := tagged.modMe (fun t => { t with preempt := some ⟨0, false, 0⟩ })
     (0 : Nat) ≤ (s.core (s.strand 0).coreNo).cycles.toNat ∧ (s.strand 0).active = true ∧
     (s.strand 0).queue.all (fun e => !e.inUnit) = true ∧ (s.strand 0).queue.length = 1) ∧
    ((tagged.strand 0).queue.all (fun e => e.item == .instr (.vadd (vOf 7 0)) && e.p == 0 && e.tags.any (fun g => !g.taken)) = true ∧
     (ElemType.ofCode (vOf 7 0).et).isFloat = false ∧ (vOf 7 0).q.getLsbD 0 = false) := by decide +kernel

theorem witness_PreemptionAndResumption_entries :
    EntryFits tiny (tiny.strand 0) ∧ EntryFits (askedToLeave true) ((askedToLeave true).strand 0) ∧
    (tiny.strand 0).trapcause.getLsbD 8 = false ∧ (tiny.strand 0).kept = none ∧ (tiny.strand 0).pendFault = none := by
  simp only [EntryFits]
  refine ⟨⟨by decide +kernel, by decide, by decide, by decide, by decide, by decide, by decide, by decide, by decide⟩,
    ⟨by decide +kernel, by decide, by decide, by decide, by decide, by decide, by decide, by decide, by decide⟩, by decide, by decide, by decide⟩

/-- overlord with a grandchild; the child's shadow maps a page of its own and the grandchild's pool lies in that. -/
def dynasty : State :=
  { overlord with
    hives := overlord.hives ++ [{ loadedHive with
      id := 3, parent := 2, depth := 2, shares := [], fslots := 4, pool := [2 ^ 30 + 2 ^ 22, 2 ^ 30 + 2 ^ 23] }]
    mem := Mem.write (Mem.write overlord.mem (2 ^ 30 + 0x20000) 8 (2 ^ 30 + 15)) (2 ^ 30 + 0x21000) 8 15 }

theorem witness_HtakeRevokesResources_amounts :
    childRecord (lords (fun h => { h with shares := [⟨1, 0, 16⟩] })) [(1, 1, 1), (8, 4, 1)] (fun d r _ => extentOk r 0 (4 * field r 1 1) &&
      (extentEntries r).any (fun e => decide (d.shares.length ≤ e))) = true ∧
    childRecord (lords id) [(0, 1, 2), (8, 1, 9)] (fun d r _ => extentOk r 2 1 && decide (d.fslots < field r 8 1)) = true ∧
    childRecord (lords id) [(0, 1, 3), (16, 8, 5)] (fun _ r _ => extentOk r 3 16 && field r 16 8 % 65536 != 0) = true ∧
    childRecord (lords id) [(0, 1, 4), (8, 2, 1025)] (fun d r _ => extentOk r 4 32 &&
      decide ((d.bucket 0).rate < bits (field r 8 8) 15 0)) = true ∧
    (dynasty.hives.map (fun k => k.id)).Nodup ∧ (dynasty.findHive 2).isSome = true ∧ descendants dynasty 2 = [3] ∧
    (dynasty.findHive 1).isSome = true ∧ 1 ≠ 2 ∧ 1 ∉ descendants dynasty 2 ∧ 0 < (dynasty.hive 3).buckets.length ∧
    (shadowLeaves dynasty (dynasty.hive 2)).filter (fun l => decide (0 ≤ l.2.1) && decide (l.2.1 < 65536)) =
      [(2 ^ 30 + 0x20000, 0, 2 ^ 30, 2 ^ 30)] ∧
    (dynasty.hive 3).pool.any (fun c => overlaps (2 ^ 30) (2 ^ 30) c (2 ^ 21)) = true ∧
    (let s := { dynasty.modHive 3 (fun h => { h with pool := [2 ^ 32, 2 ^ 32 + 2 ^ 21] }) with
       mem := Mem.write (Mem.write dynasty.mem (2 ^ 32) 8 (2 ^ 32 + 0x20001)) (2 ^ 32 + 0x20000) 8 (2 ^ 30 + 15) }
     (shadowLeaves s (s.hive 3)).any (fun l => overlaps (2 ^ 30) (2 ^ 30) l.2.2.1 l.2.2.2) = true ∧
     ((takeMemory s 2 0 65536).findHive 3).isSome = true) := by decide +kernel

theorem witness_HkillAndHstat_others :
    ((withRegs [(1, 1)] tiny).findHive 1).map (fun d => d.parent) = some 0 ∧ (0 : Nat) ≠ tiny.me.hive ∧
    (let s := (withRegs [(1, 1)] dynasty).modMe (fun t => { t with hive := 2 })
     s.me.greg 1 ≠ 0 ∧ (s.findHive 1).isSome = true ∧ s.within 2 1 = false) ∧
    (let s := { dynasty with strands := [loadedStrand, childStrand 1] }
     (s.strand 1).hive ∈ 2 :: descendants s 2 ∧ (s.strand 1).status ≠ .ended ∧ (s.findHive (s.hive 2).parent).isSome = true ∧
     (s.hive 2).parent ∉ 2 :: descendants s 2 ∧ (s.hive 2).parent ≠ 0 ∧
     ((lords (fun h => { h with shares := [⟨1, 0, 16⟩] })).hive 2).shares ≠ []) ∧
    (let k := dynasty.hive 1
     k.id < 2 ^ 16 ∧ k.depth < 2 ^ 8 ∧ k.fslots < 2 ^ 8 ∧ (childrenOf dynasty k.id).length < 2 ^ 16 ∧ (∀ x ∈ k.shares, x.lg < 16) ∧
     k.shares.length = 2) := by decide +kernel

theorem witness_HretAnswersTickets_effects :
    (let s := ticketed .trap none
     (s.strand 1).queue = [] ∧ heldShare s 1 = some ⟨1, 0, 16⟩ ∧
     entryOff (s.hive (s.strand 1).hive) (s.strand 1) % 2 ^ 21 + 8 ≤ 2 ^ 21 ∧
     (s.strand 1).susp.any (fun x => x.kind == .trap && meets (answerSkip s 1 x) (fun _ => true)) = true) ∧
    (let s := ticketed .handlerTrap none
     (s.strand 1).queue = [] ∧ heldShare s 1 = some ⟨1, 0, 16⟩ ∧ (s.strand 1).susp.any (fun x => x.kind == .handlerTrap) = true) := by
  decide +kernel

theorem witness_PermuteResults_reductions :
    ((13 : BitVec 4).toNat = 13 ∧ (ElemType.ofCode 13).isFloat = true ∧ (1 : BitVec 8).extractLsb' 0 2 ≠ 3) ∧
    ∀ et ∈ ([7, 13] : List (BitVec 4)), ∀ q ∈ ([0, 1, 2, 4, 5, 6] : List (BitVec 8)),
      enters (ofLength 4) (.vred { vOf et q with vb := 0 }) = true ∧
      (4 ≤ q.toNat ∨ enters (ofLength 4) (.vscan { vOf et q with vb := 0 }) = true) := by decide +kernel

/-- What a statement about a queued instruction's checks asks, for an instruction with a length in g4. -/
def checked (s : State) (i : Instr) (p : Nat → Nat → List (BitVec 6) → Bool) : Bool :=
  s.runs && registerOnly i && s.me.queue == [] && (shapeOf i).any (fun x => x.gl == some 4 && combosOk i &&
    p (s.me.greg 4).toNat (s.me.grant * 2048 / x.wide) (x.vd.toList ++ x.vs))

theorem witness_EnteringTheQueue_checks :
    (combosOk (.vadd (vOf 13 1)) = false ∧ registerOnly (.vadd (vOf 13 1)) = true ∧ (shapeOf (.vadd (vOf 13 1))).isSome = true) ∧
    checked (ofLength 600) (.vmul (vOf 7 0)) (fun n most _ => decide (most < n)) = true ∧
    checked (ofLength 3) (.vzip (vOf 7 0)) (fun n most _ => decide (n ≤ most ∧ n % 2 = 1)) = true ∧
    checked (ofLength 3) (.vhad { vOf 7 0 with vb := 0 }) (fun n most _ => decide (n ≤ most ∧ n % (2 * 2 ^ 0) ≠ 0)) = true ∧
    checked ((ofLength 3).modMe (fun t => { t with vregs := 0 })) (.vmul { vOf 7 0 with vd := 8 }) (fun n most l =>
      decide (n ≤ most) && l.any (fun r => decide (8 * 2 ^ 0 ≤ r.toNat))) = true ∧
    checked (ofLength 3) (.vmul (vOf 7 0)) (fun n most l => decide (n ≤ most) && l.all (fun r => decide (r.toNat < 64))) = true := by
  decide +kernel

/-- A stream of two elements from an address on: element type, coding, and whether it is written. -/
def streamOf (base et coding dir : Nat) : Stream :=
  ⟨true, BitVec.ofNat 512 (base + 2 * 2 ^ 128 + 2 ^ 160 + 2 ^ 192 + et * 2 ^ 448 + coding * 2 ^ 452 + dir * 2 ^ 456), 0, [], none⟩

/-- streaming with another stream in s1. -/
def streams (x : Stream) : State := (streaming false).modMe (fun t => t.setStream 1 x)

/-- The leaf through which mapped 12 reaches its first GiB. -/
def firstLeaf : TlbEntry :=
  match walk (mapped 12) loadedHive 0 with
  | .leaf e => e
  | .fail _ => ⟨0, 0, 0, 0, 0, 0, false, false, false, false⟩

/-- mapped 12, without its tiles, with a stream of two words of memory in s1 whose page its lookahead holds, and the same leaf in its
TLB; g2 is 0, g4 2 and v5 two indexes. -/
def streamsMemory (dir : Nat) : State :=
  ((withRegs [(4, 2)] { mapped 12 with cores := [{ Core.reset with tiles := [], tlb := [firstLeaf] }] }).modMe (fun t =>
    (t.setStream 1 { streamOf 0 7 0 dir with look := [firstLeaf] }).setVreg 5 0x400000000))

theorem twoWords_inMemory {s : State} {g : VAgent} {kind : AccessKind} {gov : Nat → Bool} {addr : Nat → Nat}
    (h0 : addr 0 = 0) (h1 : addr 1 = 4) (hc : 0 < s.cores.length) (hw : g.who.core = some 0)
    (hr : (s.core 0).l1.length + 2 ≤ (s.core 0).l1Lines)
    (ha : addressError s g kind 0 = false ∧ addressError s g kind 4 = false)
    (hp : placeOf s g.who kind 0 firstLeaf = .ok (.mem (2 ^ 30) firstLeaf) ∧ placeOf s g.who kind 4 firstLeaf = .ok (.mem (2 ^ 30 + 4) firstLeaf))
    (hl : ∀ va ∈ [0, 4], (g.look ++ if g.tlb then (s.core 0).tlb else []).find? (fun e =>
      e.covers (s.hive g.who.hive).id (s.hive g.who.hive).gen va) = some firstLeaf) :
    InMemory s g kind 4 2 gov addr (fun k => 2 ^ 30 + 4 * k) 0 := by
  refine ⟨hc, hw, hr, fun k hk _ => ?_⟩
  match k, hk with
  | 0, _ => rw [h0]; exact ⟨by decide, by decide, ha.1, by decide, firstLeaf, by decide +kernel, hp.1, hl 0 (by decide)⟩
  | 1, _ => rw [h1]; exact ⟨by decide, by decide, ha.2, by decide, firstLeaf, by decide +kernel, hp.2, hl 4 (by decide)⟩

/-- The address of element k of a stream by R112, as StreamLoadsAndStores computes it. -/
def addrOf (s : State) (w k : Nat) : Nat :=
  let x := s.me.stream 1
  let i0 := (x.pos.toNat + k) % x.count 0
  let i1 := (x.pos.toNat + k) / x.count 0 % x.count 1
  let i2 := (x.pos.toNat + k) / (x.count 0 * x.count 1)
  (((x.base : Nat) + (i1 : Nat) * x.stride 1 + (i2 : Nat) * x.stride 2 +
    (if x.stride 0 = 0 then ((w * i0 / 8 : Nat) : Int) else (i0 : Nat) * x.stride 0)) % (2 ^ 64 : Nat)).toNat

/-- The address of element k of a gather from g2 with the indexes of v5, as GathersScattersAndAtomics computes it. -/
def indexOf (s : State) (k : Nat) : Nat :=
  (((s.me.greg 2).toNat + ((elemAt (s.me.vreg 5) 32 k : Nat) : Int) * (2 ^ 0 : Nat)) % (2 ^ 64 : Nat)).toNat

/-- The operands of a gather. -/
def gatherFmt : VMFmt := ⟨3, 5, 0, 2, 4, 0, 0, 7, 0, 0, 0⟩

theorem witness_StreamLoadsAndStores_memory :
    InMemory (streamsMemory 0) (streamAgent (streamsMemory 0).me 1) .read 4 2 (fun k => governs (streamsMemory 0).me 0 0 false k)
      (addrOf (streamsMemory 0) 32) (fun k => 2 ^ 30 + 4 * k) 0 ∧
    InMemory (streamsMemory 1) (streamAgent (streamsMemory 1).me 1) .write 4 2 (fun k => governs (streamsMemory 1).me 0 0 false k)
      (addrOf (streamsMemory 1) 32) (fun k => 2 ^ 30 + 4 * k) 0 ∧
    Apart 4 2 (fun k => governs (streamsMemory 1).me 0 0 false k) (fun k => 2 ^ 30 + 4 * k) ∧
    (let x := (streamsMemory 1).me.stream 1
     x.bound = true ∧ x.et = vm.et ∧ x.coding ≠ 1 ∧ x.pos.toNat + 2 ≤ x.total ∧ x.isWrite = true) ∧
    ((streamsMemory 0).me.stream 1).isWrite = false ∧
    enters (streamsMemory 0) (.vld vm) = true ∧ enters (streamsMemory 1) (.vst vm) = true := by
  refine ⟨twoWords_inMemory ?_ ?_ ?_ ?_ ?_ ?_ ?_ ?_, twoWords_inMemory ?_ ?_ ?_ ?_ ?_ ?_ ?_ ?_, fun j _ k _ _ _ h => by dsimp only; omega,
    ?_, ?_, ?_, ?_⟩
  all_goals decide +kernel

theorem witness_GathersScattersAndAtomics_memory :
    (∀ kind : AccessKind, InMemory (streamsMemory 0) (gatherAgent (streamsMemory 0).me) kind 4 2
      (fun k => governs (streamsMemory 0).me 0 0 false k) (indexOf (streamsMemory 0)) (fun k => 2 ^ 30 + 4 * k) 0) ∧
    (∀ k < 2, ((streamsMemory 0).core 0).line ((2 ^ 30 + 4 * k) / 128) = none) ∧
    enters (streamsMemory 0) (.vldx gatherFmt) = true ∧ enters (streamsMemory 0) (.vstx gatherFmt) = true ∧
    enters (streamsMemory 0) (.vamo gatherFmt) = true := by
  refine ⟨fun kind => ?_, ?_, ?_, ?_, ?_⟩
  · cases kind
    all_goals refine twoWords_inMemory ?_ ?_ ?_ ?_ ?_ ?_ ?_ ?_
    all_goals decide +kernel
  all_goals decide +kernel

theorem twoWords_missed {s : State} {g : VAgent} {kind : AccessKind} {gov : Nat → Bool} {addr : Nat → Nat}
    (hc : 0 < s.cores.length) (hg : gov 0 = true)
    (ha : ∀ k < 2, addr k % 4 = 0 ∧ addressError s g kind (addr k) = false)
    (hl : ∀ k < 2, (match locateV s g (addr k) kind with | .error .notPresent => true | _ => false) = true) :
    SomeMissed s g kind 4 2 gov addr (fun _ => 0) 0 (fun _ => some .notPresent) := by
  refine ⟨hc, ⟨0, by decide, hg, by simp⟩, fun k hk _ => ⟨(ha k hk).1, (ha k hk).2, by decide, ?_⟩⟩
  have h := hl k hk
  split at h
  · assumption
  · exact absurd h (by decide)

/-- A stream of two words, or two indexes, that no page holds, for a strand that takes the trap itself. -/
def missing (dir : Nat) : State :=
  (withRegs [(2, 0x12344)] (streams (streamOf 0x12344 7 0 dir))).modHive 1 (fun h => { h with trapmask := BitVec.allOnes 64 })

theorem witness_StreamsAndGathers_missing :
    SomeMissed (missing 0) (streamAgent (missing 0).me 1) .read 4 2 (fun k => governs (missing 0).me 0 0 false k) (addrOf (missing 0) 32)
      (fun _ => 0) 0 (fun _ => some .notPresent) ∧
    SomeMissed (missing 1) (streamAgent (missing 1).me 1) .write 4 2 (fun k => governs (missing 1).me 0 0 false k) (addrOf (missing 1) 32)
      (fun _ => 0) 0 (fun _ => some .notPresent) ∧
    (∀ kind : AccessKind, SomeMissed (missing 0) (gatherAgent (missing 0).me) kind 4 2
      (fun k => governs (missing 0).me 0 0 false k) (indexOf (missing 0)) (fun _ => 0) 0 (fun _ => some .notPresent)) ∧
    (let x := (missing 1).me.stream 1
     x.bound = true ∧ x.et = vm.et ∧ x.coding ≠ 1 ∧ x.pos.toNat + 2 ≤ x.total ∧ x.isWrite = true) ∧
    ((missing 0).myHive.trapmask.getLsbD 9 = true ∧ (missing 0).me.trapcause.getLsbD 8 = false) ∧
    enters (missing 0) (.vld vm) = true ∧ enters (missing 1) (.vst vm) = true ∧ enters (missing 0) (.vldx gatherFmt) = true ∧
    enters (missing 0) (.vstx gatherFmt) = true ∧ enters (missing 0) (.vamo gatherFmt) = true := by
  refine ⟨?_, ?_, fun kind => ?_, ?_⟩
  · refine twoWords_missed ?_ ?_ ?_ ?_
    all_goals decide +kernel
  · refine twoWords_missed ?_ ?_ ?_ ?_
    all_goals decide +kernel
  · cases kind
    all_goals refine twoWords_missed ?_ ?_ ?_ ?_
    all_goals decide +kernel
  · decide +kernel

theorem halfBytes_inScratchpad {s : State} {g : VAgent} {kind : AccessKind} {gov : Nat → Bool} {addr : Nat → Nat}
    (hl : g.look = []) (hs : g.who.share = some ⟨0, 0, 16⟩) (hc : 0 < s.cores.length) (h0 : addr 0 = 0x01F0000000000000)
    (h1 : addr 1 = 0x01F0000000000000) (hn : 4 < scratchLen (s.core 0) ⟨0, 0, 16⟩) (hb : scratchBase (s.core 0) ⟨0, 0, 16⟩ = 0) :
    InScratchpad s g kind 1 2 gov addr (fun _ => 0) 0 := by
  have h : locateV s g 0x01F0000000000000 kind = .ok (.scratch 0 0, s) := by
    have := locateV_window (x := ⟨0, 0, 16⟩) kind hl hs (va := 0x01F0000000000000) (by decide) (by decide)
      (by show 0 < scratchLen (s.core 0) ⟨0, 0, 16⟩; omega)
    simpa [hb] using this
  refine ⟨hc, fun k hk _ => ⟨Nat.mod_one _, ?_⟩⟩
  match k, hk with
  | 0, _ => rw [h0]; exact h
  | 1, _ => rw [h1]; exact h

/-- A stream of two 4-bit elements in one byte of scratchpad, read or written. -/
def halfBytes (dir : Nat) : State := streams (streamOf 0x01F0000000000000 1 0 dir)

theorem witness_StreamLoadsAndStores_bits :
    let o : VMFmt := { vm with et := 1 }
    InScratchpad (halfBytes 0) (streamAgent (halfBytes 0).me 1) .read 1 2 (fun k => governs (halfBytes 0).me 0 0 false k)
      (addrOf (halfBytes 0) 4) (fun _ => 0) 0 ∧
    InScratchpad (halfBytes 1) (streamAgent (halfBytes 1).me 1) .write 1 2 (fun k => governs (halfBytes 1).me 0 0 false k)
      (addrOf (halfBytes 1) 4) (fun _ => 0) 0 ∧
    BitsApart 1 4 2 (fun _ => true) (fun _ => 0) (fun k => 4 * k) ∧
    (let x := (halfBytes 1).me.stream 1
     x.bound = true ∧ x.et = o.et ∧ x.stride 0 = 0 ∧ x.isWrite = true ∧ ((halfBytes 0).me.stream 1).isWrite = false ∧
     x.pos.toNat + 2 ≤ x.total ∧ 4 * ((x.pos.toNat + 1) % x.count 0) % 8 = 4) ∧
    enters (halfBytes 1) (.vst o) = true ∧ enters (halfBytes 0) (.vld o) = true := by
  refine ⟨halfBytes_inScratchpad rfl rfl ?_ ?_ ?_ ?_ ?_, halfBytes_inScratchpad rfl rfl ?_ ?_ ?_ ?_ ?_,
    fun j hj k hk _ _ h => .inr (.inr ⟨rfl, by dsimp only; omega⟩), ?_, ?_, ?_⟩
  all_goals decide +kernel

/-- A CF8 stream of one raw block of two bytes, 5 and 6, in scratchpad, with a check value that holds or not. -/
def coded (crc : Nat) : State :=
  (record [(0, 2, 0x0810), (2, 1, 5), (3, 1, 6), (4, 1, crc)] (streams (streamOf 0x01F0000000000000 9 1 0))).modHive 1
    (fun h => { h with trapmask := BitVec.allOnes 64 })

theorem witness_StreamLoadsAndStores_coded :
    let o : VMFmt := { vm with et := 9 }
    ∀ c ∈ [101, 102], let s := coded c
      let x := s.me.stream 1
      let size := blockSize (s.scratchWord 0 0 2)
      (x.isWrite = false ∧ x.coding = 1 ∧ (ElemType.ofCode o.et).width = 8 ∧ x.kept = none ∧ s.cmds = [] ∧ x.pos.toNat + 2 ≤ 32 ∧
        x.bound = true ∧ x.et = o.et ∧ x.pos.toNat + 2 ≤ x.total ∧ governs s.me 0 0 false 0 = true ∧ 0 < s.cores.length ∧ size = 5 ∧
        enters s (.vld o) = true ∧ s.myHive.trapmask.getLsbD 0xF = true ∧ s.me.trapcause.getLsbD 8 = false) ∧
      (∀ j < size, addressError s (streamAgent s.me 1) .read (x.base + j) = false ∧
        (match locateV s (streamAgent s.me 1) (x.base + j) .read with
          | .ok (.scratch 0 off, _) => off == j
          | _ => false) = true) ∧
      (match decodeBlock x.tslot.toNat (s.me.table x.tslot).gen.toNat o.et.toNat (min 32 (x.count 0)) (s.me.table x.tslot).entries
          ((List.range size).map (fun j => Mem.get (s.core 0).scratch j)) with
        | .ok l => c == 101 && l == [5, 6]
        | .error q => c == 102 && q == 0) = true := by decide +kernel

theorem witness_FloatResults_dynamic :
    ((⟨1, 2, 3, 0, 6 * 32⟩ : GFmt).q.extractLsb' 5 3).toNat = 6 ∧ (tiny.me.fpctl.extractLsb' 0 3).toNat < 6 ∧
    enters (ofLength 3) (.vadd { vOf 13 0 with rm := 6 }) = true ∧ ((ofLength 3).me.fpctl.extractLsb' 0 3).toNat < 6 := by decide +kernel

theorem witness_AccessTraps_ordered :
    (1 : BitVec 3).toNat < 4 ∧ (2 : BitVec 3).toNat < 4 ∧
    locate (releaseL1 tiny tiny.who 2) tiny.who 8 .write = .error .notPresent ∧
    (∃ e u, locate (releaseL1 (mapped 28) (mapped 28).who 2) (mapped 28).who 8 .write = .ok (.mem (2 ^ 30 + 8) e, u) ∧ e.tw = true) :=
  ⟨by decide, by decide, rfl, _, _, rfl, by decide⟩

theorem witness_FullEmptyAndWaitingLoads_memory :
    (∃ e u, locate (mapped 12) (mapped 12).who 8 .read = .ok (.mem (2 ^ 30 + 8) e, u)) ∧
    (BitVec.ofNat 64 0 : Word) = (mapped 12).me.greg 3 ∧ (BitVec.ofNat 64 0 : Word) ≠ (withRegs [(3, 1)] (mapped 12)).me.greg 3 :=
  ⟨⟨_, _, rfl⟩, by decide, by decide⟩

theorem witness_ControlRegisterWriting_waits :
    (tiny.modMe (fun t => { t with queue := [entryOf someVst] })).me.queue ≠ [] ∧ tiny.me.queue = [] ∧ tiny.myHive.parent = 0 := by decide

theorem witness_SplitFlushAndInvalidate_others :
    (let s := lords (fun h => { h with shares := [⟨1, 0, 16⟩] })
     (s.hive 2) ∈ s.hives ∧ s.within 1 2 = true ∧ (⟨1, 0, 16⟩ : ShareRef) ∈ (s.hive 2).shares) ∧
    (tiny.findHive 1).map (fun d => d.parent) = some 0 ∧ (0 : Nat) ≠ tiny.me.hive := by decide +kernel

/-- The state of the tile statements, of MVL 4, with two streams of four scales in scratchpad: 127 each, in s1 and s2. -/
def scaled : State :=
  let x (off : Nat) : Stream :=
    ⟨true, BitVec.ofNat 512 (0x01F0000000000000 + off + 4 * 2 ^ 128 + 2 ^ 160 + 2 ^ 192 + 3 * 2 ^ 448), 0, [], none⟩
  (record [(0, 8, 0x7F7F7F7F7F7F7F7F)] (ofLength 1)).modMe (fun t => ((t.setStream 1 (x 0)).setStream 2 (x 4)) |> fun t => { t with mvl := 4 })

/-- Four byte places of the scratchpad window, one after another. -/
theorem scales_inScratchpad {s : State} {g : VAgent} {addr : Nat → Nat} (b : Nat)
    (hl : g.look = []) (hs : g.who.share = some ⟨0, 0, 16⟩) (hc : 0 < s.cores.length)
    (ha : ∀ k < 4, addr k = 0x01F0000000000000 + (b + k)) (hb : b ≤ 4)
    (hn : 8 < scratchLen (s.core 0) ⟨0, 0, 16⟩) (hz : scratchBase (s.core 0) ⟨0, 0, 16⟩ = 0) :
    InScratchpad s g .read 1 4 (fun _ => true) addr (fun k => b + k) 0 := by
  refine ⟨hc, fun k hk _ => ⟨Nat.mod_one _, ?_⟩⟩
  have hm : (0x01F0000000000000 + (b + k)) % 2 ^ 52 = b + k := by omega
  have h := locateV_window (x := ⟨0, 0, 16⟩) .read hl hs (va := 0x01F0000000000000 + (b + k))
    (by simp only [bits]; omega) (by simp only [bits]; omega) (by rw [hm]; show _ < scratchLen (s.core 0) ⟨0, 0, 16⟩; omega)
  rw [ha k hk, h, hm]
  show _ = Except.ok (Place.scratch 0 (b + k), s)
  simp [hz]

/-- The operands of a floating outer product whose scale streams are s1 and s2. -/
def outerFmt (q : BitVec 7) : TFmt := ⟨1, 1, 2, 4, 0, 0, 9, 9, 1, 2, q⟩

theorem witness_TileInstructions_scaled :
    (InScratchpad scaled (streamAgent scaled.me 1) .read 1 4 (fun _ => true) (fun k => (takenAddr scaled.me 1 8 k).1) (fun k => 0 + k) 0 ∧
     InScratchpad scaled (streamAgent scaled.me 2) .read 1 4 (fun _ => true) (fun k => (takenAddr scaled.me 2 8 k).1) (fun k => 4 + k) 0) ∧
    (∀ sx ∈ ([1, 2] : List (BitVec 4)), let x := scaled.me.stream sx
      x.bound = true ∧ x.isWrite = false ∧ x.coding = 0 ∧ x.et = 3 ∧ x.count 0 = scaled.me.mvl * (((scaled.me.greg 4).toNat + 31) / 32) ∧
      x.pos.toNat % 4 = 0 ∧ x.pos.toNat + 4 ≤ x.total) ∧
    (∀ k < 8, scaled.scratchWord 0 k 1 ≠ 255) ∧
    (∀ k < 4, (fdecode (floatFmt .f8e4) (elemAt (scaled.me.vreg 1) 8 k)).isNan = false ∧
      (fdecode (floatFmt .f8e4) (elemAt (scaled.me.vreg 1) 8 k)).isInf = false) ∧
    ((ElemType.ofCode 9).isFloat = true ∧ scaled.me.share = some ⟨0, 0, 16⟩ ∧ 0 < scaled.cores.length ∧ scaled.me.mvl ≤ 128 ∧
     0 / 4 + 1 < (scaled.core 0).tiles.length ∧ ((scaled.core 0).tile 1).length = 128 ∧ unitBusy scaled 0 = false) ∧
    (∀ q ∈ ([0, 1, 2, 3] : List (BitVec 7)), enters scaled (.topa (outerFmt q)) = true ∧ enters scaled (.tops (outerFmt q)) = true) := by
  refine ⟨⟨scales_inScratchpad 0 rfl rfl ?_ ?_ (by decide) ?_ ?_, scales_inScratchpad 4 rfl rfl ?_ ?_ (by decide) ?_ ?_⟩, ?_, ?_, ?_, ?_, ?_⟩
  all_goals decide +kernel

/-- A strand of MVL 4 and length 1 without streams, which takes its traps itself. -/
def unscaled : State :=
  ((ofLength 1).modMe (fun t => { t with mvl := 4 })).modHive 1 (fun h => { h with trapmask := BitVec.allOnes 64 })

theorem witness_TileInstructions_others :
    (let s := (ofLength 3).modMe (fun t => { t with mvl := 4 })
     let o : TFmt := ⟨1, 1, 2, 4, 0, 0, 2, 2, 0, 0, 4⟩
     enters s (.topa o) = true ∧ enters s (.tops o) = true ∧ (ElemType.ofCode 2).isFloat = false) ∧
    (let s := (ofLength 0).modMe (fun t => { t with mvl := 4 })
     enters s (.topa (outerFmt 0)) = true ∧ enters s (.tops (outerFmt 0)) = true ∧ (s.me.greg 4).toNat = 0) ∧
    (∀ q ∈ ([1, 2] : List (BitVec 7)), let s := unscaled
     enters s (.topa (outerFmt q)) = true ∧ enters s (.tops (outerFmt q)) = true ∧ (s.me.stream 1).bound = false ∧
     (s.me.stream 2).bound = false ∧ s.myHive.trapmask.getLsbD 0xD = true ∧ s.me.trapcause.getLsbD 8 = false ∧ 0 < s.me.mvl) ∧
    (let s := (ofLength 1).modMe (fun t => { t with mvl := 4 })
     enters s (.trd ⟨1, 3, 0, 4, 0, 0, 13, 13, 0, 0, 6⟩) = true ∧ (s.me.fpctl.extractLsb' 0 3).toNat < 6) := by decide +kernel

theorem witness_CombEvents_stopped :
    ((fxRuns stuck).combAt 0 0 0).any (fun x => decide (x.owner < (fxRuns stuck).strands.length) &&
      fxEntry ((fxRuns stuck).strand x.owner) x.slot == some (0, someFx)) = true ∧
    (let e := entryOf (.fdrain ⟨5, 0, 0, 0, 0, 0, 0, 3⟩)
     let i : XFmt := ⟨5, 0, 0, 0, 0, 0, 0, 3⟩
     let s := combBound.modMe (fun t => { t with queue := [e], status := .blocked (.fdrain i) })
     (s.strand 0).status = .blocked (.fdrain i) ∧ firstTrap (s.strand 0) [] (.fdrain i) e = none) := by decide +kernel

theorem witness_RingInstructions_faults :
    (let s := ringed (fun ss => { running ss with status := 2, faultCause := some .ringStuck, owner := 5 })
     (s.session 0 1).faultCause = some .ringStuck ∧ (s.session 0 1).owner ≠ s.cur ∧ (s.session 0 1).state ≠ .free ∧ (s.session 0 1).status ≠ 0) ∧
    (0 < (ringed running).rings.length ∧ 1 < ((ringed running).ring 0).sessions.length) := by decide +kernel

theorem witness_EngineCommandsIssueAndWait_seals :
    let s := record [(0, 128, commandOf .xseal [(0x10, 0x1000 + 2 ^ 21)])] sealedFrame
    meets (loadRecord s s.who win 16) (fun x => badField .xseal x.1 == none && (sealFault x.2 x.2.me.hive x.1).isSome) = true := by
  decide +kernel

theorem witness_ErrorsPowerAndLinks_damaged :
    tiny.parts.length ≤ 1 ∧ 0 < tiny.parts.length ∧ damagedHeader tiny 1 6 = true ∧ damagedHeader tiny 0 6 = false ∧
    chargedTo tiny 0 3 1 = none := by decide

theorem witness_StepsKeepMemoryCanonical :
    tiny.memWf = true ∧ (mapped 12).memWf = true ∧ (fetches 0x0100_190A_0000_0000).memWf = true := by decide +kernel

/-! ## Decoding: words written out field by field from Tables 12.1 and 12.2, and the words of the spec's examples -/

theorem test_decode_Int :
    decode 0b00000001_00000000_00011_00100_00101_00000_00000000_00000000000000000000 = .ok (.add ⟨3, 4, 5, 0, 0⟩) ∧
    decode 0b00000001_00000001_00011_00100_00101_00000_00000000_00000000000000000000 = .ok (.sub ⟨3, 4, 5, 0, 0⟩) ∧
    decode 0b00000001_00000010_00011_00100_00101_00000_00000000_00000000000000000000 = .ok (.and ⟨3, 4, 5, 0, 0⟩) ∧
    decode 0b00000001_00000011_00011_00100_00101_00000_00000000_00000000000000000000 = .ok (.or ⟨3, 4, 5, 0, 0⟩) ∧
    decode 0b00000001_00000100_00011_00100_00101_00000_00000000_00000000000000000000 = .ok (.xor ⟨3, 4, 5, 0, 0⟩) ∧
    decode 0b00000001_00000101_00011_00100_00101_00000_00000000_00000000000000000000 = .ok (.shl ⟨3, 4, 5, 0, 0⟩) ∧
    decode 0b00000001_00000110_00011_00100_00101_00000_00000000_00000000000000000000 = .ok (.shr ⟨3, 4, 5, 0, 0⟩) ∧
    decode 0b00000001_00000111_00011_00100_00101_00000_00000000_00000000000000000000 = .ok (.sar ⟨3, 4, 5, 0, 0⟩) ∧
    decode 0b00000001_00001000_00011_00100_00101_00000_00000000_00000000000000000000 = .ok (.slt ⟨3, 4, 5, 0, 0⟩) ∧
    decode 0b00000001_00001001_00011_00100_00101_00000_00000000_00000000000000000000 = .ok (.sltu ⟨3, 4, 5, 0, 0⟩) ∧
    decode 0b00000001_00001010_00011_00100_00101_00000_00000000_00000000000000000000 = .ok (.min ⟨3, 4, 5, 0, 0⟩) ∧
    decode 0b00000001_00001011_00011_00100_00101_00000_00000000_00000000000000000000 = .ok (.max ⟨3, 4, 5, 0, 0⟩) ∧
    decode 0b00000001_00001100_00011_00100_00101_00000_00000000_00000000000000000000 = .ok (.minu ⟨3, 4, 5, 0, 0⟩) ∧
    decode 0b00000001_00001101_00011_00100_00101_00000_00000000_00000000000000000000 = .ok (.maxu ⟨3, 4, 5, 0, 0⟩) ∧
    decode 0b00000001_00001110_00101_00110_00000_00000_00001000_00000000000000000000 = .ok (.sext ⟨5, 6, 0, 0, 8⟩) ∧
    decode 0b00000001_00001111_00101_00110_00000_00000_00111111_00000000000000000000 = .ok (.zext ⟨5, 6, 0, 0, 63⟩) ∧
    decode 0b00000001_00010000_00110_00111_00000_00000_00000000_00000000000000000000 = .ok (.clz ⟨6, 7, 0, 0, 0⟩) ∧
    decode 0b00000001_00010001_00110_00111_00000_00000_00000000_00000000000000000000 = .ok (.ctz ⟨6, 7, 0, 0, 0⟩) ∧
    decode 0b00000001_00010010_00110_00111_00000_00000_00000000_00000000000000000000 = .ok (.popc ⟨6, 7, 0, 0, 0⟩) ∧
    decode 0b00000010_00000000_00101_00110_000000_11111111111111111111111111111111 = .ok (.addi ⟨5, 6, 0, 4294967295⟩) ∧
    decode 0b00000010_00000010_00101_00110_000000_11111111111111111111111111111111 = .ok (.andi ⟨5, 6, 0, 4294967295⟩) ∧
    decode 0b00000010_00000011_00101_00110_000000_11111111111111111111111111111111 = .ok (.ori ⟨5, 6, 0, 4294967295⟩) ∧
    decode 0b00000010_00000100_00101_00110_000000_11111111111111111111111111111111 = .ok (.xori ⟨5, 6, 0, 4294967295⟩) ∧
    decode 0b00000010_00001000_00101_00110_000000_11111111111111111111111111111111 = .ok (.slti ⟨5, 6, 0, 4294967295⟩) ∧
    decode 0b00000010_00000101_00101_00110_000000_00000000000000000000000000111111 = .ok (.shli ⟨5, 6, 0, 63⟩) ∧
    decode 0b00000010_00000110_00101_00110_000000_00000000000000000000000000111111 = .ok (.shri ⟨5, 6, 0, 63⟩) ∧
    decode 0b00000010_00000111_00101_00110_000000_00000000000000000000000000111111 = .ok (.sari ⟨5, 6, 0, 63⟩) ∧
    decode 0b00000011_00000000_00101_00101_000000_00000000000000000000000000000001 = .ok (.lih ⟨5, 5, 0, 1⟩) ∧
    decode 0b00000011_00000001_00111_00000_000000_00000000000000000000000000010000 = .ok (.addpc ⟨7, 0, 0, 16⟩) ∧
    decode 0b00000100_00000000_00101_00110_00111_00000_00000000_00000000000000000000 = .ok (.mul ⟨5, 6, 7, 0, 0⟩) ∧
    decode 0b00000100_00000001_00101_00110_00111_00000_00000000_00000000000000000000 = .ok (.mulh ⟨5, 6, 7, 0, 0⟩) ∧
    decode 0b00000100_00000010_00101_00110_00111_00000_00000000_00000000000000000000 = .ok (.mulhu ⟨5, 6, 7, 0, 0⟩) ∧
    decode 0b00000100_00000100_00101_00110_00111_00000_00000000_00000000000000000000 = .ok (.div ⟨5, 6, 7, 0, 0⟩) ∧
    decode 0b00000100_00000101_00101_00110_00111_00000_00000000_00000000000000000000 = .ok (.divu ⟨5, 6, 7, 0, 0⟩) ∧
    decode 0b00000100_00000110_00101_00110_00111_00000_00000000_00000000000000000000 = .ok (.rem ⟨5, 6, 7, 0, 0⟩) ∧
    decode 0b00000100_00000111_00101_00110_00111_00000_00000000_00000000000000000000 = .ok (.remu ⟨5, 6, 7, 0, 0⟩) := by decide

theorem test_decode_Float :
    decode 0b00001000_00000000_00101_00110_00111_00000_00011000_00000000000000000000 = .ok (.fadd ⟨5, 6, 7, 0, 24⟩) ∧
    decode 0b00001000_00000001_00101_00110_00111_00000_00011000_00000000000000000000 = .ok (.fsub ⟨5, 6, 7, 0, 24⟩) ∧
    decode 0b00001000_00000010_00101_00110_00111_00000_00011000_00000000000000000000 = .ok (.fmul ⟨5, 6, 7, 0, 24⟩) ∧
    decode 0b00001000_00000011_00101_00110_00111_00000_00011000_00000000000000000000 = .ok (.fdiv ⟨5, 6, 7, 0, 24⟩) ∧
    decode 0b00001000_00000110_00101_00110_00111_00000_00011000_00000000000000000000 = .ok (.fmin ⟨5, 6, 7, 0, 24⟩) ∧
    decode 0b00001000_00000111_00101_00110_00111_00000_00011000_00000000000000000000 = .ok (.fmax ⟨5, 6, 7, 0, 24⟩) ∧
    decode 0b00001000_00000100_00101_00110_00000_00000_00001110_00000000000000000000 = .ok (.fsqrt ⟨5, 6, 0, 0, 14⟩) ∧
    decode 0b00001000_00000101_00101_00110_00111_01000_00001001_00000000000000000000 = .ok (.fma ⟨5, 6, 7, 8, 9⟩) ∧
    decode 0b00001000_00001000_00101_00110_00111_00000_01000000_00000000000000000000 = .ok (.fcmp ⟨5, 6, 7, 0, 64⟩) ∧
    decode 0b00001000_00001001_00101_00110_00000_00001_10000001_00000000000000000000 = .ok (.fcvt ⟨5, 6, 0, 1, 129⟩) ∧
    decode 0b00001000_00001010_00101_00110_00000_00000_00000000_00000000000000000000 = .ok (.fclass ⟨5, 6, 0, 0, 0⟩) := by decide

theorem test_decode_Flow :
    decode 0b00010000_00000000_00101_00110_000001_11111111111111111111111111111100 = .ok (.beq ⟨5, 6, 1, 4294967292⟩) ∧
    decode 0b00010000_00000001_00101_00110_000001_11111111111111111111111111111100 = .ok (.bne ⟨5, 6, 1, 4294967292⟩) ∧
    decode 0b00010000_00000010_00101_00110_000001_11111111111111111111111111111100 = .ok (.blt ⟨5, 6, 1, 4294967292⟩) ∧
    decode 0b00010000_00000011_00101_00110_000001_11111111111111111111111111111100 = .ok (.bge ⟨5, 6, 1, 4294967292⟩) ∧
    decode 0b00010000_00000100_00101_00110_000001_11111111111111111111111111111100 = .ok (.bltu ⟨5, 6, 1, 4294967292⟩) ∧
    decode 0b00010000_00000101_00101_00110_000001_11111111111111111111111111111100 = .ok (.bgeu ⟨5, 6, 1, 4294967292⟩) ∧
    decode 0b00010001_00000000_00000_00000_000000_00000000000000000000000000000100 = .ok (.j ⟨0, 0, 0, 4⟩) ∧
    decode 0b00010010_00000000_11111_00000_000000_00000000000000000000000000000100 = .ok (.jal ⟨31, 0, 0, 4⟩) ∧
    decode 0b00010011_00000000_11111_00101_000000_11111111111111111111111111111000 = .ok (.jalr ⟨31, 5, 0, 4294967288⟩) ∧
    decode 0b00110011_00000000_00000_00000_00000_00000_00000000_00000000000000000000 = .ok (.nop ⟨0, 0, 0, 0, 0⟩) := by decide

theorem test_decode_Mem :
    decode 0b00011000_00000000_00100_00001_00000_000_00_0000000000000000000011000000 = .ok (.ld .b ⟨4, 1, 0, 0, 0, 192⟩) ∧
    decode 0b00011010_00000000_00101_01011_00000_001_01_0000000000000000000000000000 = .ok (.lda .b ⟨5, 11, 0, 1, 1, 0⟩) ∧
    decode 0b00011000_00000001_00100_00001_00000_000_00_0000000000000000000011000000 = .ok (.ld .h ⟨4, 1, 0, 0, 0, 192⟩) ∧
    decode 0b00011010_00000001_00101_01011_00000_001_01_0000000000000000000000000000 = .ok (.lda .h ⟨5, 11, 0, 1, 1, 0⟩) ∧
    decode 0b00011000_00000010_00100_00001_00000_000_00_0000000000000000000011000000 = .ok (.ld .w ⟨4, 1, 0, 0, 0, 192⟩) ∧
    decode 0b00011010_00000010_00101_01011_00000_001_01_0000000000000000000000000000 = .ok (.lda .w ⟨5, 11, 0, 1, 1, 0⟩) ∧
    decode 0b00011000_00000011_00100_00001_00000_000_00_0000000000000000000011000000 = .ok (.ld .d ⟨4, 1, 0, 0, 0, 192⟩) ∧
    decode 0b00011010_00000011_00101_01011_00000_001_01_0000000000000000000000000000 = .ok (.lda .d ⟨5, 11, 0, 1, 1, 0⟩) ∧
    decode 0b00011000_00001000_00100_00001_00000_000_00_0000000000000000000011000000 = .ok (.ld .bu ⟨4, 1, 0, 0, 0, 192⟩) ∧
    decode 0b00011010_00001000_00101_01011_00000_001_01_0000000000000000000000000000 = .ok (.lda .bu ⟨5, 11, 0, 1, 1, 0⟩) ∧
    decode 0b00011000_00001001_00100_00001_00000_000_00_0000000000000000000011000000 = .ok (.ld .hu ⟨4, 1, 0, 0, 0, 192⟩) ∧
    decode 0b00011010_00001001_00101_01011_00000_001_01_0000000000000000000000000000 = .ok (.lda .hu ⟨5, 11, 0, 1, 1, 0⟩) ∧
    decode 0b00011000_00001010_00100_00001_00000_000_00_0000000000000000000011000000 = .ok (.ld .wu ⟨4, 1, 0, 0, 0, 192⟩) ∧
    decode 0b00011010_00001010_00101_01011_00000_001_01_0000000000000000000000000000 = .ok (.lda .wu ⟨5, 11, 0, 1, 1, 0⟩) ∧
    decode 0b00011001_00000000_00000_01010_00001_000_00_1111111111111111111111111000 = .ok (.st .b ⟨0, 10, 1, 0, 0, 268435448⟩) ∧
    decode 0b00011011_00000000_00000_01011_00001_010_11_0000000000000000000000000000 = .ok (.stl .b ⟨0, 11, 1, 2, 3, 0⟩) ∧
    decode 0b00011001_00000001_00000_01010_00001_000_00_1111111111111111111111111000 = .ok (.st .h ⟨0, 10, 1, 0, 0, 268435448⟩) ∧
    decode 0b00011011_00000001_00000_01011_00001_010_11_0000000000000000000000000000 = .ok (.stl .h ⟨0, 11, 1, 2, 3, 0⟩) ∧
    decode 0b00011001_00000010_00000_01010_00001_000_00_1111111111111111111111111000 = .ok (.st .w ⟨0, 10, 1, 0, 0, 268435448⟩) ∧
    decode 0b00011011_00000010_00000_01011_00001_010_11_0000000000000000000000000000 = .ok (.stl .w ⟨0, 11, 1, 2, 3, 0⟩) ∧
    decode 0b00011001_00000011_00000_01010_00001_000_00_1111111111111111111111111000 = .ok (.st .d ⟨0, 10, 1, 0, 0, 268435448⟩) ∧
    decode 0b00011011_00000011_00000_01011_00001_010_11_0000000000000000000000000000 = .ok (.stl .d ⟨0, 11, 1, 2, 3, 0⟩) ∧
    decode 0b00011100_00100000_00101_01010_00001_000_00_0000000000000000000000000000 = .ok (.amo .add false ⟨5, 10, 1, 0, 0, 0⟩) ∧
    decode 0b00011100_00110000_00101_01010_00001_011_01_0000000000000000000000000000 = .ok (.amo .add true ⟨5, 10, 1, 3, 1, 0⟩) ∧
    decode 0b00011100_00100001_00101_01010_00001_000_00_0000000000000000000000000000 = .ok (.amo .swap false ⟨5, 10, 1, 0, 0, 0⟩) ∧
    decode 0b00011100_00110001_00101_01010_00001_011_01_0000000000000000000000000000 = .ok (.amo .swap true ⟨5, 10, 1, 3, 1, 0⟩) ∧
    decode 0b00011100_00100010_00101_01010_00001_000_00_0000000000000000000000000000 = .ok (.amo .cas false ⟨5, 10, 1, 0, 0, 0⟩) ∧
    decode 0b00011100_00110010_00101_01010_00001_011_01_0000000000000000000000000000 = .ok (.amo .cas true ⟨5, 10, 1, 3, 1, 0⟩) ∧
    decode 0b00011100_00100011_00101_01010_00001_000_00_0000000000000000000000000000 = .ok (.amo .and false ⟨5, 10, 1, 0, 0, 0⟩) ∧
    decode 0b00011100_00110011_00101_01010_00001_011_01_0000000000000000000000000000 = .ok (.amo .and true ⟨5, 10, 1, 3, 1, 0⟩) ∧
    decode 0b00011100_00100100_00101_01010_00001_000_00_0000000000000000000000000000 = .ok (.amo .or false ⟨5, 10, 1, 0, 0, 0⟩) ∧
    decode 0b00011100_00110100_00101_01010_00001_011_01_0000000000000000000000000000 = .ok (.amo .or true ⟨5, 10, 1, 3, 1, 0⟩) ∧
    decode 0b00011100_00100101_00101_01010_00001_000_00_0000000000000000000000000000 = .ok (.amo .min false ⟨5, 10, 1, 0, 0, 0⟩) ∧
    decode 0b00011100_00110101_00101_01010_00001_011_01_0000000000000000000000000000 = .ok (.amo .min true ⟨5, 10, 1, 3, 1, 0⟩) ∧
    decode 0b00011100_00100110_00101_01010_00001_000_00_0000000000000000000000000000 = .ok (.amo .max false ⟨5, 10, 1, 0, 0, 0⟩) ∧
    decode 0b00011100_00110110_00101_01010_00001_011_01_0000000000000000000000000000 = .ok (.amo .max true ⟨5, 10, 1, 3, 1, 0⟩) ∧
    decode 0b00011100_00100111_00101_01010_00001_000_00_0000000000000000000000000000 = .ok (.amo .minu false ⟨5, 10, 1, 0, 0, 0⟩) ∧
    decode 0b00011100_00110111_00101_01010_00001_011_01_0000000000000000000000000000 = .ok (.amo .minu true ⟨5, 10, 1, 3, 1, 0⟩) ∧
    decode 0b00011100_00101000_00101_01010_00001_000_00_0000000000000000000000000000 = .ok (.amo .maxu false ⟨5, 10, 1, 0, 0, 0⟩) ∧
    decode 0b00011100_00111000_00101_01010_00001_011_01_0000000000000000000000000000 = .ok (.amo .maxu true ⟨5, 10, 1, 3, 1, 0⟩) ∧
    decode 0b00011101_00000010_00101_00110_00000_000_00_0000000000000000000000010000 = .ok (.ldfe false false ⟨5, 6, 0, 0, 0, 16⟩) ∧
    decode 0b00011101_00000011_00101_00110_00000_000_00_0000000000000000000000010000 = .ok (.ldfe true false ⟨5, 6, 0, 0, 0, 16⟩) ∧
    decode 0b00011101_00010010_00101_00110_00000_000_00_0000000000000000000000010000 = .ok (.ldfe false true ⟨5, 6, 0, 0, 0, 16⟩) ∧
    decode 0b00011101_00010011_00101_00110_00000_000_00_0000000000000000000000010000 = .ok (.ldfe true true ⟨5, 6, 0, 0, 0, 16⟩) ∧
    decode 0b00011110_00000010_00000_00110_00111_000_00_0000000000000000000000000000 = .ok (.stfe false ⟨0, 6, 7, 0, 0, 0⟩) ∧
    decode 0b00011110_00000011_00000_00110_00111_000_00_0000000000000000000000000000 = .ok (.stfe true ⟨0, 6, 7, 0, 0, 0⟩) ∧
    decode 0b00011111_00000000_00101_00110_00111_000_00_0000000000000000000000001000 = .ok (.waitw ⟨5, 6, 7, 0, 0, 8⟩) ∧
    decode 0b00100000_00000000_00000_00000_00000_000_11_0000000000000000000000000000 = .ok (.fenceSv ⟨0, 0, 0, 0, 3, 0⟩) ∧
    decode 0b00100000_00000001_00000_00000_00000_000_10_0000000000000000000000000000 = .ok (.fenceVs ⟨0, 0, 0, 0, 2, 0⟩) ∧
    decode 0b00100000_00000010_00000_00000_00000_000_01_0000000000000000000000000000 = .ok (.fenceVv ⟨0, 0, 0, 0, 1, 0⟩) ∧
    decode 0b00100000_00000011_00000_00000_00000_000_00_0000000000000000000000000000 = .ok (.fenceAll ⟨0, 0, 0, 0, 0, 0⟩) := by decide

theorem test_decode_Sys :
    decode 0b00101000_00000000_00101_00100_001101_00000000000000000000000000000000 = .ok (.setvl ⟨5, 4, 13, 0⟩) ∧
    decode 0b00101001_00000000_00101_00000_000000_00000000000000000000000000010010 = .ok (.ctlrd ⟨5, 0, 0, 18⟩) ∧
    decode 0b00101010_00000000_00000_00110_000000_00000000000000000000000000000010 = .ok (.ctlwrFpctl ⟨0, 6, 0, 2⟩) ∧
    decode 0b00101010_00000000_00000_00110_000000_00000000000000000000000000000011 = .ok (.ctlwrSeed ⟨0, 6, 0, 3⟩) ∧
    decode 0b00101010_00000000_00000_00110_000000_00000000000000000000000000000100 = .ok (.ctlwrTrapvec ⟨0, 6, 0, 4⟩) ∧
    decode 0b00101010_00000000_00000_00110_000000_00000000000000000000000000001101 = .ok (.ctlwrTblroot ⟨0, 6, 0, 13⟩) ∧
    decode 0b00101010_00000000_00000_00110_000000_00000000000000000000000000001110 = .ok (.ctlwrYieldwin ⟨0, 6, 0, 14⟩) ∧
    decode 0b00101010_00000000_00000_00110_000000_00000000000000000000000000010010 = .ok (.ctlwrSplit ⟨0, 6, 0, 18⟩) ∧
    decode 0b00101010_00000000_00000_00110_000000_00000000000000000000000000000101 = .ok (.ctlwr ⟨0, 6, 0, 5⟩) ∧
    decode 0b00101011_00000000_00111_00000_000000_00000000000000000000000000000000 = .ok (.cycrd ⟨7, 0, 0, 0⟩) ∧
    decode 0b00101100_00000000_00000_00110_00111_00000_00000000_00000000000000000000 = .ok (.cflush ⟨0, 6, 7, 0, 0⟩) ∧
    decode 0b00101101_00000000_00000_01001_00000_00000_00000000_00000000000000000000 = .ok (.ainv ⟨0, 9, 0, 0, 0⟩) ∧
    decode 0b00101110_00000000_00000_00111_000000_00000000000000000000000000000101 = .ok (.tmark ⟨0, 7, 0, 5⟩) ∧
    decode 0b00110000_00000000_00000_00000_000000_00000000000000000001001000110100 = .ok (.trap ⟨0, 0, 0, 4660⟩) ∧
    decode 0b00110001_00000000_00000_00000_00000_00000_00000000_00000000000000000000 = .ok (.tret ⟨0, 0, 0, 0, 0⟩) ∧
    decode 0b00110001_00000000_00000_00000_00000_00000_00000001_00000000000000000000 = .ok (.tretSkip ⟨0, 0, 0, 0, 1⟩) ∧
    decode 0b00110010_00000000_00000_00000_000000_00000000000000000000000000000111 = .ok (.brk ⟨0, 0, 0, 7⟩) := by decide

theorem test_decode_Hive :
    decode 0b00111000_00000000_00101_00110_00000_00000_00000000_00000000000000000000 = .ok (.hnew ⟨5, 6, 0, 0, 0⟩) ∧
    decode 0b00111001_00000000_00000_00110_00111_00000_00000000_00000000000000000000 = .ok (.hgiveShares ⟨0, 6, 7, 0, 0⟩) ∧
    decode 0b00111010_00000000_00000_00110_00111_00000_00000000_00000000000000000000 = .ok (.htakeShares ⟨0, 6, 7, 0, 0⟩) ∧
    decode 0b00111011_00000000_00000_00110_00000_00000_00000000_00000000000000000000 = .ok (.hkill ⟨0, 6, 0, 0, 0⟩) ∧
    decode 0b00111100_00000000_00000_00110_00111_00000_00000000_00000000000000000000 = .ok (.hstat ⟨0, 6, 7, 0, 0⟩) ∧
    decode 0b00111101_00000000_00101_00110_00111_01000_00000000_00000000000000000000 = .ok (.hretReissue ⟨5, 6, 7, 8, 0⟩) ∧
    decode 0b01000000_00000000_00110_00111_00000_00000_00000000_00000000000000000000 = .ok (.spawn ⟨6, 7, 0, 0, 0⟩) ∧
    decode 0b01000001_00000000_00000_00000_00000_00000_00000000_00000000000000000000 = .ok (.squit ⟨0, 0, 0, 0, 0⟩) ∧
    decode 0b01000010_00000000_00110_00111_00000_00000_00000000_00000000000000000000 = .ok (.glaunch ⟨6, 7, 0, 0, 0⟩) ∧
    decode 0b01000011_00000000_00000_00000_00000_00000_00000000_00000000000000000000 = .ok (.gbar ⟨0, 0, 0, 0, 0⟩) ∧
    decode 0b01000100_00000000_00000_00110_00000_00000_00000000_00000000000000000000 = .ok (.gwait ⟨0, 6, 0, 0, 0⟩) ∧
    decode 0b01000101_00000000_00101_00110_00111_00000_00000000_00000000000000000000 = .ok (.yield ⟨5, 6, 7, 0, 0⟩) := by decide

theorem test_decode_Vec :
    decode 0b01100000_00000000_000011_000001_000010_000000_01001_010_1_1101_001_00000000 = .ok (.vadd ⟨3, 1, 2, 0, 9, 2, 1, 13, 1, 0⟩) ∧
    decode 0b01100000_00000001_000011_000001_000010_000000_01001_010_1_1101_001_00000000 = .ok (.vsub ⟨3, 1, 2, 0, 9, 2, 1, 13, 1, 0⟩) ∧
    decode 0b01100000_00000010_000011_000001_000010_000000_01001_010_1_1101_001_00000000 = .ok (.vmul ⟨3, 1, 2, 0, 9, 2, 1, 13, 1, 0⟩) ∧
    decode 0b01100000_00000011_000011_000001_000010_000000_01001_010_1_1101_001_00000000 = .ok (.vmulh ⟨3, 1, 2, 0, 9, 2, 1, 13, 1, 0⟩) ∧
    decode 0b01100000_00000100_000011_000001_000010_000000_01001_010_1_1101_001_00000000 = .ok (.vdiv ⟨3, 1, 2, 0, 9, 2, 1, 13, 1, 0⟩) ∧
    decode 0b01100000_00000101_000011_000001_000010_000000_01001_010_1_1101_001_00000000 = .ok (.vmin ⟨3, 1, 2, 0, 9, 2, 1, 13, 1, 0⟩) ∧
    decode 0b01100000_00000110_000011_000001_000010_000000_01001_010_1_1101_001_00000000 = .ok (.vmax ⟨3, 1, 2, 0, 9, 2, 1, 13, 1, 0⟩) ∧
    decode 0b01100000_00000111_000010_000001_000000_000000_01001_000_0_0100_000_00000001 = .ok (.vabs ⟨2, 1, 0, 0, 9, 0, 0, 4, 0, 1⟩) ∧
    decode 0b01100000_00001000_000010_000001_000000_000000_01001_010_1_1101_000_00000000 = .ok (.vneg ⟨2, 1, 0, 0, 9, 2, 1, 13, 0, 0⟩) ∧
    decode 0b01100000_00001001_000011_000001_000010_000000_01001_000_0_0110_000_00000000 = .ok (.vand ⟨3, 1, 2, 0, 9, 0, 0, 6, 0, 0⟩) ∧
    decode 0b01100000_00001010_000011_000001_000010_000000_01001_000_0_0110_000_00000000 = .ok (.vor ⟨3, 1, 2, 0, 9, 0, 0, 6, 0, 0⟩) ∧
    decode 0b01100000_00001011_000011_000001_000010_000000_01001_000_0_0110_000_00000000 = .ok (.vxor ⟨3, 1, 2, 0, 9, 0, 0, 6, 0, 0⟩) ∧
    decode 0b01100000_00001100_000011_000001_000010_000000_01001_000_0_0110_000_00000000 = .ok (.vshl ⟨3, 1, 2, 0, 9, 0, 0, 6, 0, 0⟩) ∧
    decode 0b01100000_00001101_000011_000001_000010_000000_01001_000_0_0110_000_00000000 = .ok (.vshr ⟨3, 1, 2, 0, 9, 0, 0, 6, 0, 0⟩) ∧
    decode 0b01100000_00001110_000011_000001_000010_000000_01001_000_0_0110_000_00000000 = .ok (.vsar ⟨3, 1, 2, 0, 9, 0, 0, 6, 0, 0⟩) ∧
    decode 0b01100000_00001111_000010_000001_000011_000100_01001_010_1_1101_000_00000000 = .ok (.vclamp ⟨2, 1, 3, 4, 9, 2, 1, 13, 0, 0⟩) ∧
    decode 0b01100000_00010000_000010_000001_000011_000010_00101_000_0_1101_000_00000000 = .ok (.vfma ⟨2, 1, 3, 2, 5, 0, 0, 13, 0, 0⟩) ∧
    decode 0b01100000_00010001_000010_000001_000000_000000_01001_010_1_1101_110_00000000 = .ok (.vsqrt ⟨2, 1, 0, 0, 9, 2, 1, 13, 6, 0⟩) ∧
    decode 0b01100000_00010010_000010_000001_000000_000000_01001_010_1_1101_110_00000000 = .ok (.vrcp ⟨2, 1, 0, 0, 9, 2, 1, 13, 6, 0⟩) ∧
    decode 0b01100000_00010011_000010_000001_000000_000000_01001_010_1_1101_110_00000000 = .ok (.vrsq ⟨2, 1, 0, 0, 9, 2, 1, 13, 6, 0⟩) ∧
    decode 0b01100000_00010100_000010_000001_000000_000000_01001_010_1_1101_110_00000000 = .ok (.vexp2 ⟨2, 1, 0, 0, 9, 2, 1, 13, 6, 0⟩) ∧
    decode 0b01100000_00010101_000010_000001_000000_000000_01001_010_1_1101_110_00000000 = .ok (.vlog2 ⟨2, 1, 0, 0, 9, 2, 1, 13, 6, 0⟩) ∧
    decode 0b01100000_00010110_000010_000001_000000_000000_01001_010_1_1101_110_00000000 = .ok (.vtanh ⟨2, 1, 0, 0, 9, 2, 1, 13, 6, 0⟩) ∧
    decode 0b01100001_00000000_000010_000001_000011_000000_01001_000_0_1101_000_00000000 = .ok (.vcmp .eq ⟨2, 1, 3, 0, 9, 0, 0, 13, 0, 0⟩) ∧
    decode 0b01100001_00000001_000010_000001_000011_000000_01001_000_0_1101_000_00000000 = .ok (.vcmp .ne ⟨2, 1, 3, 0, 9, 0, 0, 13, 0, 0⟩) ∧
    decode 0b01100001_00000010_000010_000001_000011_000000_01001_000_0_1101_000_00000000 = .ok (.vcmp .lt ⟨2, 1, 3, 0, 9, 0, 0, 13, 0, 0⟩) ∧
    decode 0b01100001_00000011_000010_000001_000011_000000_01001_000_0_1101_000_00000000 = .ok (.vcmp .le ⟨2, 1, 3, 0, 9, 0, 0, 13, 0, 0⟩) ∧
    decode 0b01100001_00000100_000010_000001_000011_000000_01001_000_0_1101_000_00000000 = .ok (.vcmp .gt ⟨2, 1, 3, 0, 9, 0, 0, 13, 0, 0⟩) ∧
    decode 0b01100001_00000101_000010_000001_000011_000000_01001_000_0_1101_000_00000000 = .ok (.vcmp .ge ⟨2, 1, 3, 0, 9, 0, 0, 13, 0, 0⟩) ∧
    decode 0b01100010_00000000_000101_000001_000010_000000_01001_011_0_1101_000_00000010 = .ok (.vsel ⟨5, 1, 2, 0, 9, 3, 0, 13, 0, 2⟩) ∧
    decode 0b01100011_00000000_000110_000101_000000_000000_01001_000_0_1001_000_00011101 = .ok (.vcvt ⟨6, 5, 0, 0, 9, 0, 0, 9, 0, 29⟩) ∧
    decode 0b01101000_00000000_001000_000001_000000_000000_01001_000_0_1011_000_00000000 = .ok (.vred ⟨8, 1, 0, 0, 9, 0, 0, 11, 0, 0⟩) ∧
    decode 0b01101000_00000001_001001_000001_000000_000000_01001_000_0_1011_000_00000000 = .ok (.vscan ⟨9, 1, 0, 0, 9, 0, 0, 11, 0, 0⟩) ∧
    decode 0b01101000_00000010_000100_000001_000000_000000_01001_010_0_1101_000_00000000 = .ok (.vcomp ⟨4, 1, 0, 0, 9, 2, 0, 13, 0, 0⟩) ∧
    decode 0b01101000_00000011_000100_000001_000000_000000_01001_010_0_1101_000_00000000 = .ok (.vexpd ⟨4, 1, 0, 0, 9, 2, 0, 13, 0, 0⟩) ∧
    decode 0b01101000_00000100_000100_000001_000000_000110_01001_000_0_1101_000_00000001 = .ok (.vslide ⟨4, 1, 0, 6, 9, 0, 0, 13, 0, 1⟩) ∧
    decode 0b01101000_00000101_000111_000001_000010_000000_01001_000_0_1101_000_00000000 = .ok (.vperm ⟨7, 1, 2, 0, 9, 0, 0, 13, 0, 0⟩) ∧
    decode 0b01101000_00000110_000100_000100_000000_000000_01001_000_0_0110_000_00000001 = .ok (.vhad ⟨4, 4, 0, 0, 9, 0, 0, 6, 0, 1⟩) ∧
    decode 0b01101000_00000111_000011_000000_000000_000110_00101_000_0_1101_000_00000000 = .ok (.vbcast ⟨3, 0, 0, 6, 5, 0, 0, 13, 0, 0⟩) ∧
    decode 0b01101000_00001000_000010_000000_000000_000000_01001_000_0_0110_000_00000000 = .ok (.vindex ⟨2, 0, 0, 0, 9, 0, 0, 6, 0, 0⟩) ∧
    decode 0b01101000_00001001_000101_000011_000000_000110_01001_000_0_0110_000_00000000 = .ok (.vext ⟨5, 3, 0, 6, 9, 0, 0, 6, 0, 0⟩) ∧
    decode 0b01101000_00001010_000011_000000_000111_000110_01001_000_0_1101_000_00000000 = .ok (.vins ⟨3, 0, 7, 6, 9, 0, 0, 13, 0, 0⟩) ∧
    decode 0b01101000_00001011_000100_000001_000010_000000_01001_000_0_0100_000_00000001 = .ok (.vzip ⟨4, 1, 2, 0, 9, 0, 0, 4, 0, 1⟩) ∧
    decode 0b01101000_00001100_000100_000001_000010_000000_01001_000_0_0100_000_00000000 = .ok (.vunzip ⟨4, 1, 2, 0, 9, 0, 0, 4, 0, 0⟩) ∧
    decode 0b01110000_00000000_000011_000001_000010_000000_01001_000_0_0010_000_00000000 = .ok (.mkand ⟨3, 1, 2, 0, 9, 0, 0, 2, 0, 0⟩) ∧
    decode 0b01110000_00000001_000011_000001_000010_000000_01001_000_0_0010_000_00000000 = .ok (.mkor ⟨3, 1, 2, 0, 9, 0, 0, 2, 0, 0⟩) ∧
    decode 0b01110000_00000010_000011_000001_000010_000000_01001_000_0_0010_000_00000000 = .ok (.mkxor ⟨3, 1, 2, 0, 9, 0, 0, 2, 0, 0⟩) ∧
    decode 0b01110000_00000011_000011_000001_000000_000000_01001_000_0_0010_000_00000000 = .ok (.mknot ⟨3, 1, 0, 0, 9, 0, 0, 2, 0, 0⟩) ∧
    decode 0b01110000_00000100_000101_000001_000000_000000_01001_000_0_0010_000_00000000 = .ok (.mkpopc ⟨5, 1, 0, 0, 9, 0, 0, 2, 0, 0⟩) ∧
    decode 0b01110000_00000101_000101_000001_000000_000000_01001_000_0_0010_000_00000000 = .ok (.mkfirst ⟨5, 1, 0, 0, 9, 0, 0, 2, 0, 0⟩) ∧
    decode 0b01110000_00000110_000001_000000_000000_000000_00101_000_0_0110_000_00000001 = .ok (.mkset ⟨1, 0, 0, 0, 5, 0, 0, 6, 0, 1⟩) ∧
    decode 0b01110000_00000111_000101_000001_000000_000000_01001_000_0_0010_000_00000000 = .ok (.mktest ⟨5, 1, 0, 0, 9, 0, 0, 2, 0, 0⟩) := by decide

theorem test_decode_VecMem :
    decode 0b01111000_00000000_000001_000000_1111_00000_00101_000_0_1101_001_10_000000000 = .ok (.vld ⟨1, 0, 15, 0, 5, 0, 0, 13, 1, 2, 0⟩) ∧
    decode 0b01111001_00000000_000011_000000_0001_00000_01001_000_0_1101_010_01_000000000 = .ok (.vst ⟨3, 0, 1, 0, 9, 0, 0, 13, 2, 1, 0⟩) ∧
    decode 0b01111010_00000000_000101_000110_0000_01010_01001_000_0_1101_000_00_000001001 = .ok (.vldx ⟨5, 6, 0, 10, 9, 0, 0, 13, 0, 0, 9⟩) ∧
    decode 0b01111011_00000000_000101_000110_0000_01010_01001_000_0_1101_000_00_000001001 = .ok (.vstx ⟨5, 6, 0, 10, 9, 0, 0, 13, 0, 0, 9⟩) ∧
    decode 0b01111100_00000000_000111_000110_0000_01010_01001_000_0_0110_000_00_000001000 = .ok (.vamo ⟨7, 6, 0, 10, 9, 0, 0, 6, 0, 0, 8⟩) ∧
    decode 0b01111101_00000000_000100_000000_0011_00000_01001_000_0_1101_000_00_000000001 = .ok (.vldfe ⟨4, 0, 3, 0, 9, 0, 0, 13, 0, 0, 1⟩) ∧
    decode 0b01111110_00000000_000000_000000_0011_00000_01001_000_0_1101_000_00_000000000 = .ok (.vpf ⟨0, 0, 3, 0, 9, 0, 0, 13, 0, 0, 0⟩) ∧
    decode 0b10000000_00000000_00000_01001_000010_00000000000000000000000000000000 = .ok (.sbind ⟨0, 9, 2, 0⟩) ∧
    decode 0b10000001_00000000_00000_00110_000010_00000000000000000000000000000000 = .ok (.sset ⟨0, 6, 2, 0⟩) ∧
    decode 0b10000010_00000000_00101_00000_000010_00000000000000000000000000000000 = .ok (.sget ⟨5, 0, 2, 0⟩) ∧
    decode 0b10000011_00000000_00000_00110_000010_11111111111111111111111111111100 = .ok (.sadv ⟨0, 6, 2, 4294967292⟩) ∧
    decode 0b10001000_00000000_00000_00110_00000_00000_000011_001010_000000_0000000000 = .ok (.vpush ⟨0, 6, 0, 0, 3, 10, 0, 0⟩) ∧
    decode 0b10001001_00000000_00000_00000_00000_00000_000011_000000_000000_0000000000 = .ok (.vwaitf ⟨0, 0, 0, 0, 3, 0, 0, 0⟩) := by decide

theorem test_decode_Tile :
    decode 0b10010000_00000000_00101_00110_000000_00000000000000000000000000000000 = .ok (.tmode ⟨5, 6, 0, 0⟩) ∧
    decode 0b10010001_00000000_01_001000_001001_00111_001_010_1100_1100_0000_0000_0000000 = .ok (.topa ⟨1, 8, 9, 7, 1, 2, 12, 12, 0, 0, 0⟩) ∧
    decode 0b10010010_00000000_01_001000_001001_00111_001_010_1100_1100_0000_0000_0000000 = .ok (.tops ⟨1, 8, 9, 7, 1, 2, 12, 12, 0, 0, 0⟩) ∧
    decode 0b10010011_00000000_11_000000_000000_00000_010_000_0000_0000_0000_0000_0000000 = .ok (.tzero ⟨3, 0, 0, 0, 2, 0, 0, 0, 0, 0, 0⟩) ∧
    decode 0b10010100_00000000_01_010100_000000_00011_000_000_1100_1101_0000_0000_0000000 = .ok (.trd ⟨1, 20, 0, 3, 0, 0, 12, 13, 0, 0, 0⟩) ∧
    decode 0b10010101_00000000_10_010101_000000_00011_000_000_1101_1100_0000_0000_0000001 = .ok (.twr ⟨2, 21, 0, 3, 0, 0, 13, 12, 0, 0, 1⟩) ∧
    decode 0b10010110_00000000_10_001010_000000_00000_000_000_1101_1101_0000_0000_0000001 = .ok (.tscl ⟨2, 10, 0, 0, 0, 0, 13, 13, 0, 0, 1⟩) := by decide

theorem test_decode_Comb :
    decode 0b10100000_00000000_00000_00110_00111_00000_000000_000000_000000_0000100011 = .ok (.fbind ⟨0, 6, 7, 0, 0, 0, 0, 35⟩) ∧
    decode 0b10100001_00000000_00000_00000_00000_00000_000000_000000_000000_0000000011 = .ok (.ffree ⟨0, 0, 0, 0, 0, 0, 0, 3⟩) ∧
    decode 0b10100010_00000011_00111_01001_00000_00000_001100_000011_000000_0000000001 = .ok (.fx 3 ⟨7, 9, 0, 0, 12, 3, 0, 1⟩) ∧
    decode 0b10100010_00011111_00111_01001_01000_00000_001100_000011_000100_1111110001 = .ok (.fx 31 ⟨7, 9, 8, 0, 12, 3, 4, 1009⟩) ∧
    decode 0b10100011_00000000_00000_00110_00000_00000_000000_000000_000000_0000100011 = .ok (.fcfg ⟨0, 6, 0, 0, 0, 0, 0, 35⟩) ∧
    decode 0b10100100_00000000_00000_00000_00000_00000_000000_000000_000000_0000000011 = .ok (.fdrain ⟨0, 0, 0, 0, 0, 0, 0, 3⟩) ∧
    decode 0b10100101_00000000_00101_00000_00000_00000_000000_000000_000000_0010100011 = .ok (.fstat ⟨5, 0, 0, 0, 0, 0, 0, 163⟩) ∧
    decode 0b10100110_00000000_00101_00000_00000_00000_000000_000000_000000_0000000011 = .ok (.fctxLoad ⟨5, 0, 0, 0, 0, 0, 0, 3⟩) ∧
    decode 0b10100110_00000000_00101_00000_00000_00000_000000_000000_000000_0000100011 = .ok (.fctxPin ⟨5, 0, 0, 0, 0, 0, 0, 35⟩) ∧
    decode 0b10100110_00000000_00101_00000_00000_00000_000000_000000_000000_0001000011 = .ok (.fctxUnpin ⟨5, 0, 0, 0, 0, 0, 0, 67⟩) ∧
    decode 0b10100110_00000000_00101_00000_00000_00000_000000_000000_000000_0001100011 = .ok (.fctxEvict ⟨5, 0, 0, 0, 0, 0, 0, 99⟩) := by decide

theorem test_decode_Ring :
    decode 0b10110000_00000000_00110_00101_00000_00000_00000000_00000000000000000000 = .ok (.wgcfg ⟨6, 5, 0, 0, 0⟩) ∧
    decode 0b10110000_00000000_00000_00101_00000_00000_00000001_00000000000000000000 = .ok (.wgcfgClose ⟨0, 5, 0, 0, 1⟩) ∧
    decode 0b10110001_00000000_00000_00100_00101_00110_00000000_00000000000000000000 = .ok (.wgpair ⟨0, 4, 5, 6, 0⟩) ∧
    decode 0b10110010_00000000_00000_00110_00111_00000_00000000_00000000000000000000 = .ok (.wginj ⟨0, 6, 7, 0, 0⟩) ∧
    decode 0b10110011_00000000_01001_01000_00000_00000_00000000_00000000000000000000 = .ok (.wgwait ⟨9, 8, 0, 0, 0⟩) ∧
    decode 0b10110100_00000000_01001_01000_00000_00000_00000000_00000000000000000000 = .ok (.wgdrain ⟨9, 8, 0, 0, 0⟩) ∧
    decode 0b10110101_00000000_00000_01000_01001_00000_00000000_00000000000000000000 = .ok (.wgstat ⟨0, 8, 9, 0, 0⟩) ∧
    decode 0b10110110_00000000_00000_00000_00000_00000_00000000_00000000000000000000 = .ok (.wgend ⟨0, 0, 0, 0, 0⟩) ∧
    decode 0b11000000_00000000_00000_10100_00000_00000_00000000_00000000000000000000 = .ok (.xcopy ⟨0, 20, 0, 0, 0⟩) ∧
    decode 0b11000001_00000000_00000_10100_00000_00000_00000000_00000000000000000000 = .ok (.xfill ⟨0, 20, 0, 0, 0⟩) ∧
    decode 0b11000010_00000000_00101_10101_00000_00000_00000000_00000000000000000000 = .ok (.xwait ⟨5, 21, 0, 0, 0⟩) ∧
    decode 0b11000011_00000000_00000_10100_00000_00000_00000000_00000000000000000000 = .ok (.xztab ⟨0, 20, 0, 0, 0⟩) ∧
    decode 0b11000100_00000000_00000_10100_00000_00000_00000000_00000000000000000000 = .ok (.xzenc ⟨0, 20, 0, 0, 0⟩) ∧
    decode 0b11000101_00000000_00000_10100_00000_00000_00000000_00000000000000000000 = .ok (.xseal ⟨0, 20, 0, 0, 0⟩) := by decide

theorem test_decode_examples :
    decode 0x0100_190A_0000_0000 = .ok (.add ⟨3, 4, 5, 0, 0⟩) ∧
    decode 0x0200_1040_0000_0040 = .ok (.addi ⟨2, 1, 0, 64⟩) ∧
    decode 0x1C30_2A82_D000_0000 = .ok (.amo .add true ⟨5, 10, 1, 3, 1, 0⟩) ∧
    decode 0x1000_2981_0000_0004 = .ok (.beq ⟨5, 6, 1, 4⟩) ∧
    decode 0x0800_298E_0180_0000 = .ok (.fadd ⟨5, 6, 7, 0, 24⟩) ∧
    decode 0x0809_2980_1810_0000 = .ok (.fcvt ⟨5, 6, 0, 1, 129⟩) ∧
    decode 0x2A00_0180_0000_0003 = .ok (.ctlwrSeed ⟨0, 6, 0, 3⟩) ∧
    decode 0x1D13_2980_0000_0010 = .ok (.ldfe true true ⟨5, 6, 0, 0, 0, 16⟩) ∧
    decode 0x2003_0000_3000_0000 = .ok (.fenceAll ⟨0, 0, 0, 0, 3, 0⟩) ∧
    decode 0x4500_298E_0000_0000 = .ok (.yield ⟨5, 6, 7, 0, 0⟩) ∧
    decode 0x4200_31C0_0000_0000 = .ok (.glaunch ⟨6, 7, 0, 0, 0⟩) ∧
    decode 0x6000_0C10_8048_1001 = .ok (.vadd ⟨3, 1, 2, 0, 9, 0, 0, 2, 0, 1⟩) ∧
    decode 0x6010_0810_C228_6800 = .ok (.vfma ⟨2, 1, 3, 2, 5, 0, 0, 13, 0, 0⟩) ∧
    decode 0x6104_0810_C048_6800 = .ok (.vcmp .gt ⟨2, 1, 3, 0, 9, 0, 0, 13, 0, 0⟩) ∧
    decode 0x6200_1410_804B_6802 = .ok (.vsel ⟨5, 1, 2, 0, 9, 3, 0, 13, 0, 2⟩) ∧
    decode 0x7C00_1C60_5241_8008 = .ok (.vamo ⟨7, 6, 0, 10, 9, 0, 0, 6, 0, 0, 8⟩) ∧
    decode 0x7900_0C01_0243_5200 = .ok (.vst ⟨3, 0, 1, 0, 9, 0, 0, 13, 2, 1, 0⟩) ∧
    decode 0x8300_0182_FFFF_FFFC = .ok (.sadv ⟨0, 6, 2, 4294967292⟩) ∧
    decode 0x8800_0180_00CA_0000 = .ok (.vpush ⟨0, 6, 0, 0, 3, 10, 0, 0⟩) ∧
    decode 0x9200_4824_E066_0000 = .ok (.tops ⟨1, 8, 9, 7, 0, 0, 12, 12, 0, 0, 0⟩) ∧
    decode 0x9600_8A00_006E_8001 = .ok (.tscl ⟨2, 10, 0, 0, 0, 0, 13, 13, 0, 0, 1⟩) ∧
    decode 0xA203_3A40_0303_0001 = .ok (.fx 3 ⟨7, 9, 0, 0, 12, 3, 0, 1⟩) ∧
    decode 0xA600_2800_0000_0023 = .ok (.fctxPin ⟨5, 0, 0, 0, 0, 0, 0, 35⟩) ∧
    decode 0xB000_0140_0010_0000 = .ok (.wgcfgClose ⟨0, 5, 0, 0, 1⟩) ∧
    decode 0xB100_010A_6000_0000 = .ok (.wgpair ⟨0, 4, 5, 6, 0⟩) ∧
    decode 0xC200_2D40_0000_0000 = .ok (.xwait ⟨5, 21, 0, 0, 0⟩) := by decide

/-! ## Well-formedness (R272, R274 step 2) -/

/-- One legal term of each shape of check. -/
theorem test_wellFormed_accepts :
    ∀ i ∈ ([.add ⟨0, 0, 0, 0, 0⟩, .sext ⟨0, 0, 0, 0, 1⟩, .clz ⟨0, 0, 0, 0, 0⟩, .fadd ⟨0, 0, 0, 0, 0⟩, .fsqrt ⟨0, 0, 0, 0, 0⟩,
      .fma ⟨0, 0, 0, 0, 0⟩, .fcmp ⟨0, 0, 0, 0, 0⟩, .fcvt ⟨0, 0, 0, 0, 0⟩, .cflush ⟨0, 0, 0, 0, 0⟩, .ainv ⟨0, 0, 0, 0, 0⟩,
      .tret ⟨0, 0, 0, 0, 0⟩, .tretSkip ⟨0, 0, 0, 0, 1⟩, .hretReissue ⟨0, 0, 0, 0, 0⟩, .wgcfgClose ⟨0, 0, 0, 0, 1⟩,
      .wgpair ⟨0, 0, 0, 0, 0⟩, .addi ⟨0, 0, 0, 0⟩, .shli ⟨0, 0, 0, 0⟩, .addpc ⟨0, 0, 0, 0⟩, .setvl ⟨0, 0, 0, 0⟩,
      .ctlrd ⟨0, 0, 0, 0⟩, .ctlwrFpctl ⟨0, 0, 0, 2⟩, .ctlwrSeed ⟨0, 0, 0, 3⟩, .ctlwrTrapvec ⟨0, 0, 0, 4⟩,
      .ctlwrTblroot ⟨0, 0, 0, 13⟩, .ctlwrYieldwin ⟨0, 0, 0, 14⟩, .ctlwrSplit ⟨0, 0, 0, 18⟩, .ctlwr ⟨0, 0, 0, 5⟩,
      .cycrd ⟨0, 0, 0, 0⟩, .tmark ⟨0, 0, 0, 0⟩, .trap ⟨0, 0, 0, 0⟩, .sbind ⟨0, 0, 0, 0⟩, .sget ⟨0, 0, 0, 0⟩,
      .sadv ⟨0, 0, 0, 0⟩, .tmode ⟨0, 0, 0, 0⟩, .beq ⟨0, 0, 0, 0⟩, .j ⟨0, 0, 0, 0⟩, .ld .b ⟨0, 0, 0, 0, 0, 0⟩,
      .st .b ⟨0, 0, 0, 0, 0, 0⟩, .amo .add false ⟨0, 0, 0, 0, 0, 0⟩, .ldfe false false ⟨0, 0, 0, 0, 0, 0⟩,
      .stfe false ⟨0, 0, 0, 0, 0, 0⟩, .waitw ⟨0, 0, 0, 0, 0, 0⟩, .fenceSv ⟨0, 0, 0, 0, 0, 0⟩,
      .vadd ⟨0, 0, 0, 0, 0, 0, 0, 0, 0, 0⟩, .vabs ⟨0, 0, 0, 0, 0, 0, 0, 0, 0, 0⟩, .vclamp ⟨0, 0, 0, 0, 0, 0, 0, 0, 0, 0⟩,
      .vcmp .eq ⟨0, 0, 0, 0, 0, 0, 0, 0, 0, 0⟩, .vsel ⟨0, 0, 0, 0, 0, 0, 0, 0, 0, 1⟩,
      .vcvt ⟨0, 0, 0, 0, 0, 0, 0, 0, 0, 0⟩, .vred ⟨0, 0, 0, 0, 0, 0, 0, 0, 0, 0⟩, .vscan ⟨0, 0, 0, 0, 0, 0, 0, 0, 0, 0⟩,
      .vcomp ⟨0, 0, 0, 0, 0, 0, 0, 0, 0, 0⟩, .vslide ⟨0, 0, 0, 0, 0, 0, 0, 0, 0, 0⟩,
      .vperm ⟨0, 0, 0, 0, 0, 0, 0, 0, 0, 0⟩, .vhad ⟨0, 0, 0, 0, 0, 0, 0, 0, 0, 0⟩, .vbcast ⟨0, 0, 0, 0, 0, 0, 0, 0, 0, 0⟩,
      .vindex ⟨0, 0, 0, 0, 0, 0, 0, 0, 0, 0⟩, .vext ⟨0, 0, 0, 0, 0, 0, 0, 0, 0, 0⟩, .vins ⟨0, 0, 0, 0, 0, 0, 0, 0, 0, 0⟩,
      .vzip ⟨0, 0, 0, 0, 0, 0, 0, 0, 0, 0⟩, .mkand ⟨0, 0, 0, 0, 0, 0, 0, 0, 0, 0⟩, .mknot ⟨0, 0, 0, 0, 0, 0, 0, 0, 0, 0⟩,
      .mkpopc ⟨0, 0, 0, 0, 0, 0, 0, 0, 0, 0⟩, .mkset ⟨0, 0, 0, 0, 0, 0, 0, 0, 0, 0⟩,
      .vld ⟨0, 0, 0, 0, 0, 0, 0, 0, 0, 0, 0⟩, .vldx ⟨0, 0, 0, 0, 0, 0, 0, 0, 0, 0, 0⟩,
      .vamo ⟨0, 0, 0, 0, 0, 0, 0, 0, 0, 0, 0⟩, .vldfe ⟨0, 0, 0, 0, 0, 0, 0, 0, 0, 0, 0⟩,
      .vpf ⟨0, 0, 0, 0, 0, 0, 0, 0, 0, 0, 0⟩, .vpush ⟨0, 0, 0, 0, 0, 0, 0, 0⟩, .vwaitf ⟨0, 0, 0, 0, 0, 0, 0, 0⟩,
      .fbind ⟨0, 0, 0, 0, 0, 0, 0, 0⟩, .ffree ⟨0, 0, 0, 0, 0, 0, 0, 0⟩, .fx 0 ⟨0, 0, 0, 0, 0, 0, 0, 0⟩,
      .fcfg ⟨0, 0, 0, 0, 0, 0, 0, 0⟩, .fstat ⟨0, 0, 0, 0, 0, 0, 0, 0⟩, .fctxLoad ⟨0, 0, 0, 0, 0, 0, 0, 0⟩,
      .fctxPin ⟨0, 0, 0, 0, 0, 0, 0, 32⟩, .fctxUnpin ⟨0, 0, 0, 0, 0, 0, 0, 64⟩, .fctxEvict ⟨0, 0, 0, 0, 0, 0, 0, 96⟩,
      .topa ⟨0, 0, 0, 0, 0, 0, 0, 0, 0, 0, 0⟩, .tzero ⟨0, 0, 0, 0, 0, 0, 0, 0, 0, 0, 0⟩,
      .trd ⟨0, 0, 0, 0, 0, 0, 0, 0, 0, 0, 0⟩, .tscl ⟨0, 0, 0, 0, 0, 0, 13, 13, 0, 0, 0⟩] : List Instr), i.wellFormed = true := by decide

/-- Terms that fail one check each. -/
theorem test_wellFormed_refuses_1 :
    ∀ i ∈ ([.add ⟨0, 0, 0, 1, 0⟩, .add ⟨0, 0, 0, 0, 1⟩, .sext ⟨0, 0, 1, 0, 1⟩, .sext ⟨0, 0, 0, 1, 1⟩, .sext ⟨0, 0, 0, 0, 65⟩,
      .sext ⟨0, 0, 0, 0, 0⟩, .clz ⟨0, 0, 1, 0, 0⟩, .clz ⟨0, 0, 0, 1, 0⟩, .clz ⟨0, 0, 0, 0, 1⟩, .fadd ⟨0, 0, 0, 0, 7⟩,
      .fadd ⟨0, 0, 0, 0, 32⟩, .fadd ⟨0, 0, 0, 1, 0⟩, .fsqrt ⟨0, 0, 0, 0, 7⟩, .fsqrt ⟨0, 0, 0, 0, 32⟩,
      .fsqrt ⟨0, 0, 1, 0, 0⟩, .fsqrt ⟨0, 0, 0, 1, 0⟩, .fma ⟨0, 0, 0, 0, 7⟩, .fma ⟨0, 0, 0, 0, 32⟩, .fcmp ⟨0, 0, 0, 0, 7⟩,
      .fcmp ⟨0, 0, 0, 0, 192⟩, .fcmp ⟨0, 0, 0, 1, 0⟩, .fcvt ⟨0, 0, 0, 0, 7⟩, .fcvt ⟨0, 0, 0, 0, 192⟩,
      .fcvt ⟨0, 0, 0, 2, 0⟩, .fcvt ⟨0, 0, 1, 0, 0⟩, .cflush ⟨1, 0, 0, 0, 0⟩, .cflush ⟨0, 0, 0, 1, 0⟩,
      .cflush ⟨0, 0, 0, 0, 1⟩, .ainv ⟨1, 0, 0, 0, 0⟩, .ainv ⟨0, 0, 1, 0, 0⟩, .ainv ⟨0, 0, 0, 1, 0⟩, .ainv ⟨0, 0, 0, 0, 1⟩,
      .tret ⟨1, 0, 0, 0, 0⟩, .tret ⟨0, 1, 0, 0, 0⟩, .tret ⟨0, 0, 1, 0, 0⟩, .tret ⟨0, 0, 0, 1, 0⟩, .tret ⟨0, 0, 0, 0, 1⟩,
      .tretSkip ⟨1, 0, 0, 0, 1⟩, .tretSkip ⟨0, 1, 0, 0, 1⟩, .tretSkip ⟨0, 0, 1, 0, 1⟩] : List Instr), i.wellFormed = false := by decide

/-- Terms that fail one check each. -/
theorem test_wellFormed_refuses_2 :
    ∀ i ∈ ([.tretSkip ⟨0, 0, 0, 1, 1⟩, .tretSkip ⟨0, 0, 0, 0, 0⟩, .hretReissue ⟨0, 0, 0, 0, 1⟩, .wgcfgClose ⟨1, 0, 0, 0, 1⟩,
      .wgcfgClose ⟨0, 0, 1, 0, 1⟩, .wgcfgClose ⟨0, 0, 0, 1, 1⟩, .wgcfgClose ⟨0, 0, 0, 0, 0⟩, .wgpair ⟨1, 0, 0, 0, 0⟩,
      .wgpair ⟨0, 0, 0, 0, 1⟩, .addi ⟨0, 0, 1, 0⟩, .shli ⟨0, 0, 1, 0⟩, .shli ⟨0, 0, 0, 64⟩, .addpc ⟨0, 1, 0, 0⟩,
      .addpc ⟨0, 0, 1, 0⟩, .setvl ⟨0, 0, 16, 0⟩, .setvl ⟨0, 0, 0, 1⟩, .ctlrd ⟨0, 1, 0, 0⟩, .ctlrd ⟨0, 0, 1, 0⟩,
      .ctlrd ⟨0, 0, 0, 19⟩, .ctlwrFpctl ⟨1, 0, 0, 2⟩, .ctlwrFpctl ⟨0, 0, 1, 2⟩, .ctlwrFpctl ⟨0, 0, 0, 3⟩,
      .ctlwrSeed ⟨1, 0, 0, 3⟩, .ctlwrSeed ⟨0, 0, 1, 3⟩, .ctlwrSeed ⟨0, 0, 0, 2⟩, .ctlwrTrapvec ⟨1, 0, 0, 4⟩,
      .ctlwrTrapvec ⟨0, 0, 1, 4⟩, .ctlwrTrapvec ⟨0, 0, 0, 5⟩, .ctlwrTblroot ⟨1, 0, 0, 13⟩, .ctlwrTblroot ⟨0, 0, 1, 13⟩,
      .ctlwrTblroot ⟨0, 0, 0, 12⟩, .ctlwrYieldwin ⟨1, 0, 0, 14⟩, .ctlwrYieldwin ⟨0, 0, 1, 14⟩,
      .ctlwrYieldwin ⟨0, 0, 0, 15⟩, .ctlwrSplit ⟨1, 0, 0, 18⟩, .ctlwrSplit ⟨0, 0, 1, 18⟩, .ctlwrSplit ⟨0, 0, 0, 19⟩,
      .ctlwr ⟨1, 0, 0, 5⟩, .ctlwr ⟨0, 0, 1, 5⟩, .ctlwr ⟨0, 0, 0, 19⟩] : List Instr), i.wellFormed = false := by decide

/-- Terms that fail one check each. -/
theorem test_wellFormed_refuses_3 :
    ∀ i ∈ ([.ctlwr ⟨0, 0, 0, 2⟩, .cycrd ⟨0, 1, 0, 0⟩, .cycrd ⟨0, 0, 1, 0⟩, .cycrd ⟨0, 0, 0, 1⟩, .tmark ⟨1, 0, 0, 0⟩,
      .tmark ⟨0, 0, 1, 0⟩, .trap ⟨1, 0, 0, 0⟩, .trap ⟨0, 1, 0, 0⟩, .trap ⟨0, 0, 1, 0⟩, .sbind ⟨0, 0, 16, 0⟩,
      .sbind ⟨1, 0, 0, 0⟩, .sbind ⟨0, 0, 0, 1⟩, .sget ⟨0, 0, 16, 0⟩, .sget ⟨0, 1, 0, 0⟩, .sget ⟨0, 0, 0, 1⟩,
      .sadv ⟨0, 0, 16, 0⟩, .sadv ⟨1, 0, 0, 0⟩, .tmode ⟨0, 0, 1, 0⟩, .tmode ⟨0, 0, 0, 1⟩, .beq ⟨0, 0, 2, 0⟩,
      .j ⟨1, 0, 0, 0⟩, .j ⟨0, 1, 0, 0⟩, .j ⟨0, 0, 1, 0⟩, .ld .b ⟨0, 0, 1, 0, 0, 0⟩, .ld .b ⟨0, 0, 0, 0, 1, 0⟩,
      .st .b ⟨1, 0, 0, 0, 0, 0⟩, .st .b ⟨0, 0, 0, 0, 1, 0⟩, .amo .add false ⟨0, 0, 0, 0, 1, 0⟩,
      .ldfe false false ⟨0, 0, 1, 0, 0, 0⟩, .ldfe false false ⟨0, 0, 0, 1, 0, 0⟩, .ldfe false false ⟨0, 0, 0, 0, 1, 0⟩,
      .stfe false ⟨1, 0, 0, 0, 0, 0⟩, .stfe false ⟨0, 0, 0, 1, 0, 0⟩, .stfe false ⟨0, 0, 0, 0, 1, 0⟩,
      .waitw ⟨0, 0, 0, 1, 0, 0⟩, .waitw ⟨0, 0, 0, 0, 1, 0⟩, .fenceSv ⟨1, 0, 0, 0, 0, 0⟩, .fenceSv ⟨0, 1, 0, 0, 0, 0⟩,
      .fenceSv ⟨0, 0, 1, 0, 0, 0⟩, .fenceSv ⟨0, 0, 0, 1, 0, 0⟩] : List Instr), i.wellFormed = false := by decide

/-- Terms that fail one check each. -/
theorem test_wellFormed_refuses_4 :
    ∀ i ∈ ([.fenceSv ⟨0, 0, 0, 0, 0, 1⟩, .vadd ⟨0, 0, 0, 0, 0, 0, 1, 0, 0, 0⟩, .vadd ⟨0, 0, 0, 0, 0, 0, 0, 0, 7, 0⟩,
      .vadd ⟨0, 0, 0, 0, 0, 0, 0, 0, 0, 2⟩, .vadd ⟨0, 0, 0, 1, 0, 0, 0, 0, 0, 0⟩, .vabs ⟨0, 0, 0, 0, 0, 0, 1, 0, 0, 0⟩,
      .vabs ⟨0, 0, 0, 0, 0, 0, 0, 0, 7, 0⟩, .vabs ⟨0, 0, 0, 0, 0, 0, 0, 0, 0, 2⟩, .vabs ⟨0, 0, 1, 0, 0, 0, 0, 0, 0, 0⟩,
      .vabs ⟨0, 0, 0, 1, 0, 0, 0, 0, 0, 0⟩, .vclamp ⟨0, 0, 0, 0, 0, 0, 1, 0, 0, 0⟩,
      .vclamp ⟨0, 0, 0, 0, 0, 0, 0, 0, 7, 0⟩, .vclamp ⟨0, 0, 0, 0, 0, 0, 0, 0, 0, 2⟩,
      .vcmp .eq ⟨0, 0, 0, 0, 0, 0, 1, 0, 0, 0⟩, .vcmp .eq ⟨8, 0, 0, 0, 0, 0, 0, 0, 0, 0⟩,
      .vcmp .eq ⟨0, 0, 0, 1, 0, 0, 0, 0, 0, 0⟩, .vcmp .eq ⟨0, 0, 0, 0, 0, 0, 0, 0, 1, 0⟩,
      .vcmp .eq ⟨0, 0, 0, 0, 0, 0, 0, 0, 0, 1⟩, .vsel ⟨0, 0, 0, 0, 0, 0, 1, 0, 0, 1⟩,
      .vsel ⟨0, 0, 0, 0, 0, 0, 0, 0, 0, 9⟩, .vsel ⟨0, 0, 0, 0, 0, 0, 0, 0, 0, 0⟩, .vsel ⟨0, 0, 0, 1, 0, 0, 0, 0, 0, 1⟩,
      .vsel ⟨0, 0, 0, 0, 0, 0, 0, 0, 1, 1⟩, .vcvt ⟨0, 0, 0, 0, 0, 0, 1, 0, 0, 0⟩, .vcvt ⟨0, 0, 0, 0, 0, 0, 0, 0, 7, 0⟩,
      .vcvt ⟨0, 0, 0, 0, 0, 0, 0, 0, 0, 32⟩, .vcvt ⟨0, 0, 1, 0, 0, 0, 0, 0, 0, 0⟩, .vcvt ⟨0, 0, 0, 1, 0, 0, 0, 0, 0, 0⟩,
      .vred ⟨0, 0, 0, 0, 0, 0, 1, 0, 0, 0⟩, .vred ⟨0, 0, 0, 0, 0, 0, 0, 0, 7, 0⟩, .vred ⟨0, 0, 0, 0, 0, 0, 0, 0, 0, 8⟩,
      .vred ⟨0, 0, 0, 0, 0, 0, 0, 0, 0, 3⟩, .vred ⟨32, 0, 0, 0, 0, 0, 0, 0, 0, 4⟩, .vred ⟨0, 0, 1, 0, 0, 0, 0, 0, 0, 0⟩,
      .vred ⟨0, 0, 0, 1, 0, 0, 0, 0, 0, 0⟩, .vscan ⟨0, 0, 0, 0, 0, 0, 1, 0, 0, 0⟩, .vscan ⟨0, 0, 0, 0, 0, 0, 0, 0, 7, 0⟩,
      .vscan ⟨0, 0, 0, 0, 0, 0, 0, 0, 0, 4⟩, .vscan ⟨0, 0, 0, 0, 0, 0, 0, 0, 0, 3⟩, .vscan ⟨0, 0, 1, 0, 0, 0, 0, 0, 0, 0⟩] : List Instr), i.wellFormed = false := by decide

/-- Terms that fail one check each. -/
theorem test_wellFormed_refuses_5 :
    ∀ i ∈ ([.vscan ⟨0, 0, 0, 1, 0, 0, 0, 0, 0, 0⟩, .vcomp ⟨0, 0, 0, 0, 0, 0, 1, 0, 0, 0⟩, .vcomp ⟨0, 0, 1, 0, 0, 0, 0, 0, 0, 0⟩,
      .vcomp ⟨0, 0, 0, 1, 0, 0, 0, 0, 0, 0⟩, .vcomp ⟨0, 0, 0, 0, 0, 0, 0, 0, 1, 0⟩, .vcomp ⟨0, 0, 0, 0, 0, 0, 0, 0, 0, 1⟩,
      .vslide ⟨0, 0, 0, 0, 0, 0, 1, 0, 0, 0⟩, .vslide ⟨0, 0, 0, 32, 0, 0, 0, 0, 0, 0⟩,
      .vslide ⟨0, 0, 0, 0, 0, 0, 0, 0, 0, 2⟩, .vslide ⟨0, 0, 1, 0, 0, 0, 0, 0, 0, 0⟩,
      .vslide ⟨0, 0, 0, 0, 0, 0, 0, 0, 1, 0⟩, .vperm ⟨0, 0, 0, 0, 0, 0, 1, 0, 0, 0⟩,
      .vperm ⟨0, 0, 0, 1, 0, 0, 0, 0, 0, 0⟩, .vperm ⟨0, 0, 0, 0, 0, 0, 0, 0, 1, 0⟩, .vperm ⟨0, 0, 0, 0, 0, 0, 0, 0, 0, 1⟩,
      .vhad ⟨0, 0, 0, 0, 0, 0, 1, 0, 0, 0⟩, .vhad ⟨0, 0, 0, 0, 0, 0, 0, 0, 7, 0⟩, .vhad ⟨0, 0, 0, 0, 0, 0, 0, 0, 0, 16⟩,
      .vhad ⟨0, 0, 0, 0, 0, 0, 0, 0, 0, 13⟩, .vhad ⟨0, 0, 1, 0, 0, 0, 0, 0, 0, 0⟩, .vhad ⟨0, 0, 0, 1, 0, 0, 0, 0, 0, 0⟩,
      .vbcast ⟨0, 0, 0, 0, 0, 0, 1, 0, 0, 0⟩, .vbcast ⟨0, 0, 0, 32, 0, 0, 0, 0, 0, 0⟩,
      .vbcast ⟨0, 1, 0, 0, 0, 0, 0, 0, 0, 0⟩, .vbcast ⟨0, 0, 1, 0, 0, 0, 0, 0, 0, 0⟩,
      .vbcast ⟨0, 0, 0, 0, 0, 0, 0, 0, 1, 0⟩, .vbcast ⟨0, 0, 0, 0, 0, 0, 0, 0, 0, 1⟩,
      .vindex ⟨0, 0, 0, 0, 0, 0, 1, 0, 0, 0⟩, .vindex ⟨0, 1, 0, 0, 0, 0, 0, 0, 0, 0⟩,
      .vindex ⟨0, 0, 1, 0, 0, 0, 0, 0, 0, 0⟩, .vindex ⟨0, 0, 0, 1, 0, 0, 0, 0, 0, 0⟩,
      .vindex ⟨0, 0, 0, 0, 0, 0, 0, 0, 1, 0⟩, .vindex ⟨0, 0, 0, 0, 0, 0, 0, 0, 0, 1⟩,
      .vext ⟨0, 0, 0, 0, 0, 0, 1, 0, 0, 0⟩, .vext ⟨32, 0, 0, 0, 0, 0, 0, 0, 0, 0⟩, .vext ⟨0, 0, 0, 32, 0, 0, 0, 0, 0, 0⟩,
      .vext ⟨0, 0, 1, 0, 0, 0, 0, 0, 0, 0⟩, .vext ⟨0, 0, 0, 0, 0, 0, 0, 0, 1, 0⟩, .vext ⟨0, 0, 0, 0, 0, 0, 0, 0, 0, 1⟩,
      .vins ⟨0, 0, 0, 0, 0, 0, 1, 0, 0, 0⟩] : List Instr), i.wellFormed = false := by decide

/-- Terms that fail one check each. -/
theorem test_wellFormed_refuses_6 :
    ∀ i ∈ ([.vins ⟨0, 0, 32, 0, 0, 0, 0, 0, 0, 0⟩, .vins ⟨0, 0, 0, 32, 0, 0, 0, 0, 0, 0⟩, .vins ⟨0, 1, 0, 0, 0, 0, 0, 0, 0, 0⟩,
      .vins ⟨0, 0, 0, 0, 0, 0, 0, 0, 1, 0⟩, .vins ⟨0, 0, 0, 0, 0, 0, 0, 0, 0, 1⟩, .vzip ⟨0, 0, 0, 0, 0, 0, 1, 0, 0, 0⟩,
      .vzip ⟨0, 0, 0, 0, 0, 0, 0, 0, 0, 2⟩, .vzip ⟨0, 0, 0, 1, 0, 0, 0, 0, 0, 0⟩, .vzip ⟨0, 0, 0, 0, 0, 0, 0, 0, 1, 0⟩,
      .mkand ⟨0, 0, 0, 0, 0, 0, 1, 0, 0, 0⟩, .mkand ⟨8, 0, 0, 0, 0, 0, 0, 0, 0, 0⟩, .mkand ⟨0, 8, 0, 0, 0, 0, 0, 0, 0, 0⟩,
      .mkand ⟨0, 0, 8, 0, 0, 0, 0, 0, 0, 0⟩, .mkand ⟨0, 0, 0, 1, 0, 0, 0, 0, 0, 0⟩, .mkand ⟨0, 0, 0, 0, 0, 0, 0, 0, 1, 0⟩,
      .mkand ⟨0, 0, 0, 0, 0, 0, 0, 0, 0, 1⟩, .mknot ⟨0, 0, 0, 0, 0, 0, 1, 0, 0, 0⟩, .mknot ⟨8, 0, 0, 0, 0, 0, 0, 0, 0, 0⟩,
      .mknot ⟨0, 8, 0, 0, 0, 0, 0, 0, 0, 0⟩, .mknot ⟨0, 0, 1, 0, 0, 0, 0, 0, 0, 0⟩, .mknot ⟨0, 0, 0, 1, 0, 0, 0, 0, 0, 0⟩,
      .mknot ⟨0, 0, 0, 0, 0, 0, 0, 0, 1, 0⟩, .mknot ⟨0, 0, 0, 0, 0, 0, 0, 0, 0, 1⟩,
      .mkpopc ⟨0, 0, 0, 0, 0, 0, 1, 0, 0, 0⟩, .mkpopc ⟨32, 0, 0, 0, 0, 0, 0, 0, 0, 0⟩,
      .mkpopc ⟨0, 8, 0, 0, 0, 0, 0, 0, 0, 0⟩, .mkpopc ⟨0, 0, 1, 0, 0, 0, 0, 0, 0, 0⟩,
      .mkpopc ⟨0, 0, 0, 1, 0, 0, 0, 0, 0, 0⟩, .mkpopc ⟨0, 0, 0, 0, 0, 0, 0, 0, 1, 0⟩,
      .mkpopc ⟨0, 0, 0, 0, 0, 0, 0, 0, 0, 1⟩, .mkset ⟨0, 0, 0, 0, 0, 0, 1, 0, 0, 0⟩,
      .mkset ⟨8, 0, 0, 0, 0, 0, 0, 0, 0, 0⟩, .mkset ⟨0, 0, 0, 0, 0, 0, 0, 0, 0, 2⟩, .mkset ⟨0, 1, 0, 0, 0, 0, 0, 0, 0, 0⟩,
      .mkset ⟨0, 0, 1, 0, 0, 0, 0, 0, 0, 0⟩, .mkset ⟨0, 0, 0, 1, 0, 0, 0, 0, 0, 0⟩, .mkset ⟨0, 0, 0, 0, 0, 0, 0, 0, 1, 0⟩,
      .vld ⟨0, 0, 0, 0, 0, 0, 1, 0, 0, 0, 0⟩, .vld ⟨0, 0, 0, 0, 0, 0, 0, 0, 0, 1, 0⟩,
      .vld ⟨0, 1, 0, 0, 0, 0, 0, 0, 0, 0, 0⟩] : List Instr), i.wellFormed = false := by decide

/-- Terms that fail one check each. -/
theorem test_wellFormed_refuses_7 :
    ∀ i ∈ ([.vld ⟨0, 0, 0, 1, 0, 0, 0, 0, 0, 0, 0⟩, .vld ⟨0, 0, 0, 0, 0, 0, 0, 0, 0, 0, 1⟩,
      .vldx ⟨0, 0, 0, 0, 0, 0, 1, 0, 0, 0, 0⟩, .vldx ⟨0, 0, 0, 0, 0, 0, 0, 0, 0, 1, 0⟩,
      .vldx ⟨0, 0, 0, 0, 0, 0, 0, 0, 0, 0, 32⟩, .vldx ⟨0, 0, 0, 0, 0, 0, 0, 0, 0, 0, 3⟩,
      .vldx ⟨0, 0, 1, 0, 0, 0, 0, 0, 0, 0, 0⟩, .vamo ⟨0, 0, 0, 0, 0, 0, 1, 0, 0, 0, 0⟩,
      .vamo ⟨0, 0, 0, 0, 0, 0, 0, 0, 0, 1, 0⟩, .vamo ⟨0, 0, 0, 0, 0, 0, 0, 0, 0, 0, 288⟩,
      .vamo ⟨0, 0, 0, 0, 0, 0, 0, 0, 0, 0, 3⟩, .vamo ⟨0, 0, 1, 0, 0, 0, 0, 0, 0, 0, 0⟩,
      .vldfe ⟨0, 0, 0, 0, 0, 0, 1, 0, 0, 0, 0⟩, .vldfe ⟨0, 0, 0, 0, 0, 0, 0, 0, 0, 1, 0⟩,
      .vldfe ⟨0, 0, 0, 0, 0, 0, 0, 0, 0, 0, 2⟩, .vldfe ⟨0, 1, 0, 0, 0, 0, 0, 0, 0, 0, 0⟩,
      .vldfe ⟨0, 0, 0, 1, 0, 0, 0, 0, 0, 0, 0⟩, .vpf ⟨0, 0, 0, 0, 0, 0, 1, 0, 0, 0, 0⟩,
      .vpf ⟨0, 0, 0, 0, 0, 0, 0, 0, 0, 1, 0⟩, .vpf ⟨1, 0, 0, 0, 0, 0, 0, 0, 0, 0, 0⟩,
      .vpf ⟨0, 1, 0, 0, 0, 0, 0, 0, 0, 0, 0⟩, .vpf ⟨0, 0, 0, 1, 0, 0, 0, 0, 0, 0, 0⟩,
      .vpf ⟨0, 0, 0, 0, 0, 0, 0, 0, 0, 0, 1⟩, .vpush ⟨1, 0, 0, 0, 0, 0, 0, 0⟩, .vpush ⟨0, 0, 1, 0, 0, 0, 0, 0⟩,
      .vpush ⟨0, 0, 0, 1, 0, 0, 0, 0⟩, .vpush ⟨0, 0, 0, 0, 0, 0, 1, 0⟩, .vpush ⟨0, 0, 0, 0, 0, 0, 0, 1⟩,
      .vwaitf ⟨1, 0, 0, 0, 0, 0, 0, 0⟩, .vwaitf ⟨0, 1, 0, 0, 0, 0, 0, 0⟩, .vwaitf ⟨0, 0, 1, 0, 0, 0, 0, 0⟩,
      .vwaitf ⟨0, 0, 0, 1, 0, 0, 0, 0⟩, .vwaitf ⟨0, 0, 0, 0, 0, 1, 0, 0⟩, .vwaitf ⟨0, 0, 0, 0, 0, 0, 1, 0⟩,
      .vwaitf ⟨0, 0, 0, 0, 0, 0, 0, 1⟩, .fbind ⟨0, 0, 0, 0, 0, 0, 0, 64⟩, .fbind ⟨1, 0, 0, 0, 0, 0, 0, 0⟩,
      .fbind ⟨0, 0, 0, 1, 0, 0, 0, 0⟩, .fbind ⟨0, 0, 0, 0, 1, 0, 0, 0⟩, .fbind ⟨0, 0, 0, 0, 0, 1, 0, 0⟩] : List Instr), i.wellFormed = false := by decide

/-- Terms that fail one check each. -/
theorem test_wellFormed_refuses_8 :
    ∀ i ∈ ([.fbind ⟨0, 0, 0, 0, 0, 0, 1, 0⟩, .ffree ⟨0, 0, 0, 0, 0, 0, 0, 32⟩, .ffree ⟨1, 0, 0, 0, 0, 0, 0, 0⟩,
      .ffree ⟨0, 1, 0, 0, 0, 0, 0, 0⟩, .ffree ⟨0, 0, 1, 0, 0, 0, 0, 0⟩, .ffree ⟨0, 0, 0, 1, 0, 0, 0, 0⟩,
      .ffree ⟨0, 0, 0, 0, 1, 0, 0, 0⟩, .ffree ⟨0, 0, 0, 0, 0, 1, 0, 0⟩, .ffree ⟨0, 0, 0, 0, 0, 0, 1, 0⟩,
      .fx 0 ⟨0, 0, 0, 0, 0, 0, 0, 2⟩, .fx 0 ⟨0, 0, 0, 1, 0, 0, 0, 0⟩, .fcfg ⟨0, 0, 0, 0, 0, 0, 0, 64⟩,
      .fcfg ⟨1, 0, 0, 0, 0, 0, 0, 0⟩, .fcfg ⟨0, 0, 1, 0, 0, 0, 0, 0⟩, .fcfg ⟨0, 0, 0, 1, 0, 0, 0, 0⟩,
      .fcfg ⟨0, 0, 0, 0, 1, 0, 0, 0⟩, .fcfg ⟨0, 0, 0, 0, 0, 1, 0, 0⟩, .fcfg ⟨0, 0, 0, 0, 0, 0, 1, 0⟩,
      .fstat ⟨0, 0, 0, 0, 0, 0, 0, 512⟩, .fstat ⟨0, 0, 0, 0, 0, 0, 0, 192⟩, .fstat ⟨0, 1, 0, 0, 0, 0, 0, 0⟩,
      .fstat ⟨0, 0, 1, 0, 0, 0, 0, 0⟩, .fstat ⟨0, 0, 0, 1, 0, 0, 0, 0⟩, .fstat ⟨0, 0, 0, 0, 1, 0, 0, 0⟩,
      .fstat ⟨0, 0, 0, 0, 0, 1, 0, 0⟩, .fstat ⟨0, 0, 0, 0, 0, 0, 1, 0⟩, .fctxLoad ⟨0, 0, 0, 0, 0, 0, 0, 128⟩,
      .fctxLoad ⟨0, 0, 0, 0, 0, 0, 0, 32⟩, .fctxLoad ⟨0, 1, 0, 0, 0, 0, 0, 0⟩, .fctxLoad ⟨0, 0, 1, 0, 0, 0, 0, 0⟩,
      .fctxLoad ⟨0, 0, 0, 1, 0, 0, 0, 0⟩, .fctxLoad ⟨0, 0, 0, 0, 1, 0, 0, 0⟩, .fctxLoad ⟨0, 0, 0, 0, 0, 1, 0, 0⟩,
      .fctxLoad ⟨0, 0, 0, 0, 0, 0, 1, 0⟩, .fctxPin ⟨0, 0, 0, 0, 0, 0, 0, 160⟩, .fctxPin ⟨0, 0, 0, 0, 0, 0, 0, 0⟩,
      .fctxPin ⟨0, 1, 0, 0, 0, 0, 0, 32⟩, .fctxPin ⟨0, 0, 1, 0, 0, 0, 0, 32⟩, .fctxPin ⟨0, 0, 0, 1, 0, 0, 0, 32⟩,
      .fctxPin ⟨0, 0, 0, 0, 1, 0, 0, 32⟩] : List Instr), i.wellFormed = false := by decide

/-- Terms that fail one check each. -/
theorem test_wellFormed_refuses_9 :
    ∀ i ∈ ([.fctxPin ⟨0, 0, 0, 0, 0, 1, 0, 32⟩, .fctxPin ⟨0, 0, 0, 0, 0, 0, 1, 32⟩, .fctxUnpin ⟨0, 0, 0, 0, 0, 0, 0, 192⟩,
      .fctxUnpin ⟨0, 0, 0, 0, 0, 0, 0, 96⟩, .fctxUnpin ⟨0, 1, 0, 0, 0, 0, 0, 64⟩, .fctxUnpin ⟨0, 0, 1, 0, 0, 0, 0, 64⟩,
      .fctxUnpin ⟨0, 0, 0, 1, 0, 0, 0, 64⟩, .fctxUnpin ⟨0, 0, 0, 0, 1, 0, 0, 64⟩, .fctxUnpin ⟨0, 0, 0, 0, 0, 1, 0, 64⟩,
      .fctxUnpin ⟨0, 0, 0, 0, 0, 0, 1, 64⟩, .fctxEvict ⟨0, 0, 0, 0, 0, 0, 0, 224⟩, .fctxEvict ⟨0, 0, 0, 0, 0, 0, 0, 64⟩,
      .fctxEvict ⟨0, 1, 0, 0, 0, 0, 0, 96⟩, .fctxEvict ⟨0, 0, 1, 0, 0, 0, 0, 96⟩, .fctxEvict ⟨0, 0, 0, 1, 0, 0, 0, 96⟩,
      .fctxEvict ⟨0, 0, 0, 0, 1, 0, 0, 96⟩, .fctxEvict ⟨0, 0, 0, 0, 0, 1, 0, 96⟩, .fctxEvict ⟨0, 0, 0, 0, 0, 0, 1, 96⟩,
      .topa ⟨0, 0, 0, 0, 0, 0, 0, 0, 0, 0, 8⟩, .topa ⟨0, 0, 0, 0, 0, 0, 0, 0, 1, 0, 0⟩,
      .topa ⟨0, 0, 0, 0, 0, 0, 0, 0, 0, 1, 0⟩, .tzero ⟨0, 1, 0, 0, 0, 0, 0, 0, 0, 0, 0⟩,
      .tzero ⟨0, 0, 1, 0, 0, 0, 0, 0, 0, 0, 0⟩, .tzero ⟨0, 0, 0, 1, 0, 0, 0, 0, 0, 0, 0⟩,
      .tzero ⟨0, 0, 0, 0, 0, 0, 1, 0, 0, 0, 0⟩, .tzero ⟨0, 0, 0, 0, 0, 0, 0, 1, 0, 0, 0⟩,
      .tzero ⟨0, 0, 0, 0, 0, 0, 0, 0, 1, 0, 0⟩, .tzero ⟨0, 0, 0, 0, 0, 0, 0, 0, 0, 1, 0⟩,
      .tzero ⟨0, 0, 0, 0, 0, 0, 0, 0, 0, 0, 1⟩, .trd ⟨0, 0, 0, 0, 0, 0, 0, 0, 0, 0, 16⟩,
      .trd ⟨0, 0, 0, 0, 0, 0, 0, 0, 0, 0, 7⟩, .trd ⟨0, 0, 1, 0, 0, 0, 0, 0, 0, 0, 0⟩,
      .trd ⟨0, 0, 0, 0, 0, 0, 0, 0, 1, 0, 0⟩, .trd ⟨0, 0, 0, 0, 0, 0, 0, 0, 0, 1, 0⟩,
      .tscl ⟨0, 0, 0, 0, 0, 0, 13, 13, 0, 0, 4⟩, .tscl ⟨0, 0, 0, 0, 0, 0, 12, 13, 0, 0, 0⟩,
      .tscl ⟨0, 0, 0, 0, 0, 0, 13, 12, 0, 0, 0⟩, .tscl ⟨0, 1, 0, 0, 0, 0, 13, 13, 0, 0, 0⟩,
      .tscl ⟨0, 0, 1, 0, 0, 0, 13, 13, 0, 0, 0⟩, .tscl ⟨0, 0, 0, 1, 0, 0, 13, 13, 0, 0, 0⟩] : List Instr), i.wellFormed = false := by decide

/-- Terms that fail one check each. -/
theorem test_wellFormed_refuses_10 :
    ∀ i ∈ ([.tscl ⟨0, 0, 0, 0, 0, 0, 13, 13, 1, 0, 0⟩, .tscl ⟨0, 0, 0, 0, 0, 0, 13, 13, 0, 1, 0⟩] : List Instr), i.wellFormed = false := by decide

/-- An event, and a row that shares another's word, have no word of their own. -/
theorem test_wellFormed_needs_a_word :
    Instr.powerUp.wellFormed = false ∧ (Instr.hgiveRing ⟨0, 1, 2, 0, 0⟩).wellFormed = false ∧
    (Instr.hretSkip ⟨1, 2, 3, 4, 0⟩).wellFormed = false := by decide

/-! ## Single steps -/

/-- A general register after an instruction. -/
def got (i : Instr) (r : BitVec 5) (s : State) : Word := (next i s).me.greg r

/-- 32-bit elements 0 to 3 of a vector register after an instruction. -/
def lanes (i : Instr) (r : BitVec 6) (s : State) : List Nat :=
  (List.range 4).map (fun k => elemAt ((next i s).me.vreg r) 32 k)

/-- ADD and SUB wrap (R318, R394). -/
theorem test_add_wraps :
    got (.add g123) 1 (withRegs [(2, BitVec.allOnes 64), (3, 2)] tiny) = 1 ∧
    got (.sub g123) 1 (withRegs [(2, 1), (3, 2)] tiny) = BitVec.allOnes 64 := by decide +kernel

/-- A write of g0 is discarded and the pc goes on (R283). -/
theorem test_g0_stays_zero :
    let s := withRegs [(2, 5), (3, 6)] tiny
    got (.add ⟨0, 2, 3, 0, 0⟩) 0 s = 0 ∧ (next (.add ⟨0, 2, 3, 0, 0⟩) s).me.pc = 0x10008 := by decide +kernel

/-- The examples of R382 and of MAX: a count of 67 shifts by 3. -/
theorem test_shift_and_max_examples :
    got (.sar ⟨5, 6, 7, 0, 0⟩) 5 (withRegs [(6, 0x8000000000000000), (7, 67)] tiny) = 0xF000000000000000 ∧
    got (.shr ⟨5, 6, 7, 0, 0⟩) 5 (withRegs [(6, 0x8000000000000000), (7, 67)] tiny) = 0x1000000000000000 ∧
    got (.max ⟨5, 6, 7, 0, 0⟩) 5 (withRegs [(6, 0xFFFFFFFFFFFFFFFF), (7, 1)] tiny) = 1 ∧
    got (.maxu ⟨5, 6, 7, 0, 0⟩) 5 (withRegs [(6, 0xFFFFFFFFFFFFFFFF), (7, 1)] tiny) = 0xFFFFFFFFFFFFFFFF := by decide +kernel

/-- Division corners: by zero, the most negative number by -1, and the sign of a remainder (R334, R335, R380). -/
theorem test_division_corners :
    got (.div g123) 1 (withRegs [(2, 7), (3, 0)] tiny) = BitVec.allOnes 64 ∧
    got (.div g123) 1 (withRegs [(2, 0x8000000000000000), (3, BitVec.allOnes 64)] tiny) = 0x8000000000000000 ∧
    got (.rem g123) 1 (withRegs [(2, -7), (3, 2)] tiny) = -1 ∧ got (.rem g123) 1 (withRegs [(2, 7), (3, 0)] tiny) = 7 := by
  decide +kernel

/-- The words of the FCLASS examples (R339), and 1 + 1 in F32. -/
theorem test_float_examples :
    got (.fclass ⟨5, 6, 0, 0, 0⟩) 5 (withRegs [(6, 0xC0F80000)] tiny) = 0x000000000002000A ∧
    got (.fclass ⟨5, 6, 0, 0, 0⟩) 5 (withRegs [(6, 1)] tiny) = 0x00000000FF6B0001 ∧
    got (.fadd ⟨5, 6, 6, 0, 0⟩) 5 (withRegs [(6, 0x3F800000)] tiny) = 0x40000000 := by decide +kernel

/-- A signed branch backwards, and JALR to an address that is no word's (R326, R366). -/
theorem test_branch_and_jump :
    (next (.blt ⟨2, 3, 0, -2⟩) (withRegs [(2, -1), (3, 1)] tiny)).me.pc = 0xFFF0 ∧
    (next (.bltu ⟨2, 3, 0, -2⟩) (withRegs [(2, -1), (3, 1)] tiny)).me.pc = 0x10008 ∧
    got (.jalr ⟨1, 2, 0, 8⟩) 1 (withRegs [(2, 0x10000)] tiny) = 0x10008 ∧
    (let t := next (.jalr ⟨1, 2, 0, 4⟩) (withRegs [(2, 0x10000)] takesTraps)
     t.me.pc = 0x10000 ∧ t.me.trapval = 0x10004 ∧ t.me.greg 1 = 0) := by decide +kernel

/-- Stores put the least significant byte first, and loads extend as their size says (R3, R367, R391). -/
theorem test_store_and_load :
    let s := next (.st .w ⟨0, 2, 3, 0, 0, 0⟩) (withRegs [(2, win), (3, 0xAABBCC80)] tiny)
    got (.ld .bu ⟨1, 2, 0, 0, 0, 0⟩) 1 s = 0x80 ∧ got (.ld .b ⟨1, 2, 0, 0, 0, 0⟩) 1 s = 0xFFFFFFFFFFFFFF80 ∧
    got (.ld .hu ⟨1, 2, 0, 0, 0, 2⟩) 1 s = 0xAABB := by decide +kernel

/-- An atomic answers the old value; a CAS that fails stores nothing (R322). -/
theorem test_atomics :
    let s := next (.st .d ⟨0, 2, 3, 0, 0, 0⟩) (withRegs [(2, win), (3, 40), (4, 2)] tiny)
    got (.amo .add true ⟨1, 2, 4, 0, 0, 0⟩) 1 s = 40 ∧
    got (.ld .d ⟨1, 2, 0, 0, 0, 0⟩) 1 (next (.amo .add true ⟨1, 2, 4, 0, 0, 0⟩) s) = 42 ∧
    got (.ld .d ⟨5, 2, 0, 0, 0, 0⟩) 5 (next (.amo .cas true ⟨1, 2, 4, 0, 0, 0⟩) s) = 40 := by decide +kernel

/-- The example of STFE and LDFE: the load waits for the granule to fill, and CLR empties it (R107, R108). -/
theorem test_full_empty :
    let s := withRegs [(10, win), (2, 2)] tiny
    let load : Instr := .ldfe true true ⟨5, 10, 0, 0, 0, 0⟩
    (next load s).me.status = .blocked load ∧
    (let f := next (.stfe true ⟨0, 10, 2, 0, 0, 0⟩) s
     (f.core 0).isFull 0 = true ∧ got load 5 f = 2 ∧ ((next load f).core 0).isFull 0 = false) := by decide +kernel

/-- SETVL grants at most what the type's width allows: 8 EGs of 2,048 bits hold 512 F32 elements (R54). -/
theorem test_setvl :
    got (.setvl ⟨5, 4, 13, 0⟩) 5 (withRegs [(4, 1000)] tiny) = 512 ∧ got (.setvl ⟨5, 4, 13, 0⟩) 5 (withRegs [(4, 7)] tiny) = 7 := by
  decide +kernel

/-- A TRAP that its hive takes: the operand and the handler; TRET returns past nothing it held (R253, R256, R257). -/
theorem test_trap_and_return :
    let t := next (.trap ⟨0, 0, 0, 0x1234⟩) (takesTraps.modHive 1 (fun h => { h with trapvec := 0x10100 }))
    t.me.pc = 0x10100 ∧ t.me.trappc = 0x10000 ∧ t.me.trapval = 0x1234 ∧ t.me.trapcause.getLsbD 8 = true ∧
    (next (.tret ⟨0, 0, 0, 0, 0⟩) t).me.pc = 0x10000 ∧ (next (.tret ⟨0, 0, 0, 0, 0⟩) t).me.trapcause.getLsbD 8 = false := by
  decide +kernel

/-- VHAD's example: 1, 2, 3, 4 give 3, -1, 7, -1 and then 10, -2, -4, 0 (R168). -/
theorem test_vhad_example :
    let s := (ofLength 4).modMe (fun t => t.setVreg 3 0x00000004000000030000000200000001)
    let one : Instr := .vhad ⟨4, 3, 0, 0, 4, 0, 0, 6, 0, 0⟩
    lanes one 4 s = [3, 2 ^ 32 - 1, 7, 2 ^ 32 - 1] ∧
    lanes (.vhad ⟨4, 4, 0, 0, 4, 0, 0, 6, 0, 1⟩) 4 (next one s) = [10, 2 ^ 32 - 2, 2 ^ 32 - 4, 0] := by decide +kernel

/-- A VADD writes governed elements below its length and no others (R46, R409). -/
theorem test_vadd_tail :
    let s := (ofLength 3).modMe (fun t => (t.setVreg 1 0x000000040000000300000002FFFFFFFF).setVreg 2 0x00000001000000010000000100000001)
    lanes (.vadd ⟨2, 1, 2, 0, 4, 0, 0, 7, 0, 0⟩) 2 s = [0, 3, 4, 1] := by decide +kernel

/-- TMODE's example: 128 asked, 64 granted under MVLC 1 (R178). -/
theorem test_tmode_example :
    got (.tmode ⟨5, 6, 0, 0⟩) 5 (withRegs [(6, 128)] (tiny.modCore 0 (fun c => { c with mvlc := 1 }))) = 64 := by decide +kernel

/-- The CF8 example: 20 elements of exponent 7, 8 of 6 and 4 of 8 make 176 bits, and HDR 0x60B0 (R161, R162). -/
theorem test_cf8_example :
    let b := encodeBlock 1 2 9 9 [(7, 1), (6, 2), (8, 3), (5, 4), (9, 5), (4, 6), (10, 6)]
      (List.replicate 20 0x3C ++ List.replicate 8 0x30 ++ List.replicate 4 0x40)
    b.length = 25 ∧ b.take 2 = [0xB0, 0x60] := by decide +kernel

/-- HNEW answers the child's HIVEID, and the child's first strand waits for HRET (R69). -/
theorem test_hnew :
    let t := next (.hnew ⟨1, 2, 0, 0, 0⟩) (describes [] lord)
    t.me.greg 1 = 2 ∧ (t.hive 2).parent = 1 ∧ (t.strand 1).status = .suspended ∧ (t.strand 1).pc = 0x10010 ∧
    (t.strand 1).greg 1 = 7 := by decide +kernel

/-- SPAWN answers the gang's number; its strand starts at the record's address with index 0 in g5 (R27, R30). -/
theorem test_spawn :
    let t := next (.spawn ⟨1, 2, 0, 0, 0⟩) (launching 1 (mapped 12))
    t.strands.length = 2 ∧ t.me.greg 1 = 1 ∧ (t.strand 1).pc = 0x10000 ∧ (t.strand 1).greg 5 = 0 ∧
    (t.strand 1).status = .waiting := by decide +kernel

/-- HKILL ends the child (R72). -/
theorem test_hkill :
    let t := next (.hkill ⟨0, 1, 0, 0, 0⟩) (withRegs [(1, 2)] (lords id))
    t.findHive 2 = none ∧ t.me.pc = 0x10008 := by decide +kernel

/-- An engine copy: issued, started, copied and completed with STATE 1 (R239, R241). -/
theorem test_engine_copy :
    let s := withRegs [(2, win)] (record [(0, 128, commandOf .copy []), (0x400, 8, 0x1122334455667788)] tiny)
    let t := next (.commandCompletion 1) (next (.copyChunk 1) (next (.engineCommandStart 1) (next (.xcopy ⟨0, 2, 0, 0, 0⟩) s)))
    t.scratchWord 0 0x800 8 = 0x1122334455667788 ∧ t.scratchWord 0 0x100 1 = 1 ∧ t.cmds.length = 0 := by decide +kernel

/-- Firmware serves BIND_VF and advances HEAD (R300, R301). -/
theorem test_bind_vf :
    let t := next .bindVf (requests 3 [5, 1] hosted)
    t.vfs = [(4, 1), (5, 1)] ∧ Mem.read t.mem (2 ^ 51) 8 = 1 ∧ Mem.read t.mem (2 ^ 51 + 68) 4 = 1 := by decide +kernel

/-! ## The standards of R313 -/

/-- The base point as RFC 8032 writes it out. -/
theorem test_ed25519_base :
    edBase.x = 15112221349535400772501151409588531511454012693041857206046113283949847762202 := by decide +kernel

/-- The first vector of RFC 8032, 7.1: the signature of the empty message. -/
theorem test_ed25519_sign :
    ofLeBytes (ed25519Sign
      (leBytes 32 0x9d61b19deffd5a60ba844af492ec2cc44449c5697b326919703bac031cae7f60).reverse []).reverse
      = 0xe5564300c360ac729086e2cc806e828a84877f1eb8e5d974d873e065224901555fb8821590a33bacc61e39701cf9b46bd25bf5f0595bbe24655141438e7a100b := by
  decide +kernel

/-- Keccak-f[1600] of the zero state, its first lane, as published with FIPS 202. -/
theorem test_keccak : (keccak (List.replicate 25 0)).headD 0 = 0xF1258F7940E1DDE7 := by decide +kernel

/-- The first zeta of FIPS 204, and that 1753 is a 512th root of unity there. -/
theorem test_ml_roots : mlRoots.getD 128 0 = 4808194 ∧ mlRoots.getD 256 0 = mlQ - 1 := by decide +kernel

end Sys2Proof.Tests
end

/-! SUPPORT. The canonical form of the memories (spec/04 R94, spec/05 R107): what the shared operations over the state do to
it. Every operation reaches main memory and the scratchpads through the operations of Mem, which keep the form (Mem.put_wf,
Mem.write_wf, Mem.wipe_wf, Mem.filter_wf); each lemma here says so for one operation, in the order of the model. -/

namespace Sys2Proof.Machine

section
variable {s t : State} {w : Who} {p : Place} {h : Hive} {l : L1Line} {k c pa n x : Nat}

/-! ## The rules -/

theorem State.memWf_iff (s : State) :
    s.memWf = true ↔ Mem.wf s.mem = true ∧ ∀ c ∈ s.cores, Mem.wf c.scratch = true := by
  simp [State.memWf]

/-- Every core's scratchpad is canonical; a core that is not there reads as one after reset. -/
theorem State.core_scratch_wf (hs : s.memWf = true) (c : Nat) : Mem.wf (s.core c).scratch = true := by
  unfold State.core
  rw [List.getD_eq_getElem?_getD]
  by_cases hc : c < s.cores.length
  · rw [List.getElem?_eq_getElem hc]
    exact ((State.memWf_iff s).mp hs).2 _ (List.getElem_mem hc)
  · rw [List.getElem?_eq_none (by omega)]
    rfl

/-- The canonical form speaks of main memory and the cores alone. -/
theorem memWf_congr (hm : t.mem = s.mem) (hc : t.cores = s.cores) (hs : s.memWf = true) : t.memWf = true := by
  rw [State.memWf, hm, hc]
  exact hs

/-- An update of the cores that gives each one there the scratchpad of one that was there. -/
theorem memWf_of_scratch (hs : s.memWf = true) (hm : t.mem = s.mem)
    (hc : ∀ c ∈ t.cores, ∃ d ∈ s.cores, c.scratch = d.scratch) : t.memWf = true := by
  rw [State.memWf_iff] at hs ⊢
  refine ⟨hm ▸ hs.1, fun c hct => ?_⟩
  obtain ⟨d, hd, he⟩ := hc c hct
  exact he ▸ hs.2 d hd

theorem withMem_memWf {m : Mem} (hs : s.memWf = true) (hm : Mem.wf m = true) : ({ s with mem := m } : State).memWf = true :=
  (State.memWf_iff _).mpr ⟨hm, ((State.memWf_iff s).mp hs).2⟩

theorem State.modCore_memWf {f : Core → Core} (hs : s.memWf = true) (hf : Mem.wf (f (s.core c)).scratch = true) :
    (s.modCore c f).memWf = true := by
  rw [State.memWf_iff] at hs ⊢
  refine ⟨hs.1, fun k hk => ?_⟩
  rcases List.mem_or_eq_of_mem_set hk with hk | rfl
  · exact hs.2 k hk
  · exact hf

/-- An update of a core that leaves its scratchpad alone. -/
theorem State.modCore_memWf_same {f : Core → Core} (hs : s.memWf = true) (hf : (f (s.core c)).scratch = (s.core c).scratch) :
    (s.modCore c f).memWf = true :=
  State.modCore_memWf hs (hf ▸ State.core_scratch_wf hs c)

theorem State.setStrand_memWf {t : Strand} (hs : s.memWf = true) : (s.setStrand k t).memWf = true := hs
theorem State.modStrand_memWf {f : Strand → Strand} (hs : s.memWf = true) : (s.modStrand k f).memWf = true := hs
theorem State.modMe_memWf {f : Strand → Strand} (hs : s.memWf = true) : (s.modMe f).memWf = true := hs
theorem State.modRing_memWf {f : Ring → Ring} (hs : s.memWf = true) : (s.modRing k f).memWf = true := hs
theorem State.modPart_memWf {f : Partition → Partition} (hs : s.memWf = true) : (s.modPart k f).memWf = true := hs
theorem State.modHive_memWf {f : Hive → Hive} (hs : s.memWf = true) : (s.modHive k f).memWf = true := hs

theorem foldl_memWf {α : Type} {f : State → α → State} (hf : ∀ s a, s.memWf = true → (f s a).memWf = true)
    (l : List α) (hs : s.memWf = true) : (l.foldl f s).memWf = true :=
  List.foldlRecOn l f hs (fun s hs a _ => hf s a hs)

/-- A run over a list that carries the state and something beside it. -/
theorem foldl_fst_memWf {α β : Type} {f : State × β → α → State × β}
    (hf : ∀ r a, r.1.memWf = true → (f r a).1.memWf = true) (l : List α) {r : State × β} (hr : r.1.memWf = true) :
    (l.foldl f r).1.memWf = true :=
  List.foldlRecOn l f (motive := fun r => r.1.memWf = true) hr (fun r hr a _ => hf r a hr)

theorem foldl_mem_wf {α : Type} {f : Mem → α → Mem} (hf : ∀ m a, Mem.wf m = true → Mem.wf (f m a) = true) (l : List α)
    {m : Mem} (hm : Mem.wf m = true) : Mem.wf (l.foldl f m) = true :=
  List.foldlRecOn l f hm (fun m hm a _ => hf m a hm)

/-- A do block over Except that ends well: its first part did, and so did the rest after it. -/
theorem bind_eq_ok {ε α β : Type} {x : Except ε α} {f : α → Except ε β} {b : β} :
    (x >>= f) = .ok b ↔ ∃ a, x = .ok a ∧ f a = .ok b := by
  cases x <;> simp [bind, Except.bind]

theorem pure_eq_ok {ε α : Type} {a b : α} : (pure a : Except ε α) = .ok b ↔ a = b := by
  simp [pure, Except.pure]

theorem throw_ne_ok {ε α : Type} {e : ε} {b : α} : (throw e : Except ε α) ≠ .ok b := nofun

/-- Where a meaning that may trap succeeds, the memories it leaves are canonical. -/
def LeavesWf {ε : Type} (r : Except ε State) : Prop := ∀ t, r = .ok t → t.memWf = true

theorem leavesWf_ok {ε : Type} (hs : s.memWf = true) : LeavesWf (.ok s : Except ε State) := by
  rintro _ ⟨⟩
  exact hs

theorem leavesWf_pure {ε : Type} (hs : s.memWf = true) : LeavesWf (pure s : Except ε State) := leavesWf_ok hs

theorem leavesWf_error {ε : Type} {e : ε} : LeavesWf (.error e) := nofun

theorem leavesWf_bind {ε α : Type} {x : Except ε α} {f : α → Except ε State} (h : ∀ a, x = .ok a → LeavesWf (f a)) :
    LeavesWf (x >>= f) := by
  cases x with
  | error e => exact leavesWf_error
  | ok a => exact h a rfl

theorem leavesWf_throw {ε α : Type} {e : ε} {f : α → Except ε State} : LeavesWf (throw e >>= f) := nofun

/-- A run over a list that may fail: where it does not, what every turn keeps holds at its end. -/
theorem foldlM_memWf {ε α : Type} {f : State → α → Except ε State}
    (hf : ∀ s a t, s.memWf = true → f s a = .ok t → t.memWf = true) (l : List α) (hs : s.memWf = true)
    (he : l.foldlM f s = .ok t) : t.memWf = true := by
  induction l generalizing s with
  | nil => cases he; exact hs
  | cons a l ih =>
    rw [List.foldlM_cons, bind_eq_ok] at he
    obtain ⟨u, hu, he⟩ := he
    exact ih (hf s a u hs hu) he

/-! ## Requests, lines and buffers -/

theorem charge_memWf (hs : s.memWf = true) : (charge s k pa n).memWf = true := hs
theorem chargeLines_memWf (hs : s.memWf = true) : (chargeLines s k pa n).memWf = true := hs

theorem chargePool_memWf (hs : s.memWf = true) : (chargePool s h k n).memWf = true := by
  unfold chargePool
  dsimp only
  split <;> exact hs

theorem putDirty_wf {m : Mem} (hm : Mem.wf m = true) : Mem.wf (putDirty m l) = true := by
  refine foldl_mem_wf (fun m k hm => ?_) _ hm
  split
  · exact Mem.write_wf hm _ _ _
  · exact hm

theorem writeBack_memWf (hs : s.memWf = true) : (writeBack s k l).memWf = true := by
  unfold writeBack
  split
  · exact hs
  · exact charge_memWf (withMem_memWf hs (putDirty_wf ((State.memWf_iff s).mp hs).1))

theorem dropLine_memWf (hs : s.memWf = true) : (dropLine s k c n).memWf = true := by
  unfold dropLine
  split
  · exact hs
  · exact State.modCore_memWf_same (writeBack_memWf hs) rfl

theorem flushL1_memWf (hs : s.memWf = true) : (flushL1 s k c).memWf = true :=
  State.modCore_memWf_same (foldl_memWf (fun _ _ => writeBack_memWf) _ hs) rfl

theorem clearL1_memWf (hs : s.memWf = true) : (clearL1 s k c).memWf = true :=
  State.modCore_memWf_same (flushL1_memWf hs) rfl

theorem makeRoom_memWf (hs : s.memWf = true) : (makeRoom s c).memWf = true := by
  unfold makeRoom
  dsimp only
  split
  · exact hs
  · split
    · exact State.modCore_memWf_same (writeBack_memWf hs) rfl
    · exact hs

theorem fetchLine_memWf (hs : s.memWf = true) : (fetchLine s k c n).2.memWf = true := by
  unfold fetchLine
  split
  · exact hs
  · exact charge_memWf (State.modCore_memWf_same (makeRoom_memWf hs) rfl)

theorem l1Read_memWf (hs : s.memWf = true) : (l1Read s k c pa n).2.memWf = true := fetchLine_memWf hs

theorem l1Write_memWf (hs : s.memWf = true) : (l1Write s k c pa n x).memWf = true :=
  State.modCore_memWf_same (fetchLine_memWf hs) rfl

theorem releaseL1_memWf (hs : s.memWf = true) : (releaseL1 s w n).memWf = true := by
  grind [releaseL1, flushL1_memWf]

theorem acquireL1_memWf (hs : s.memWf = true) : (acquireL1 s w n).memWf = true := by
  grind [acquireL1, clearL1_memWf]

/-! ## Scratchpad and its full-empty bits -/

theorem scratchWrite_memWf (hs : s.memWf = true) : (scratchWrite s c k n x).memWf = true :=
  State.modCore_memWf hs (Mem.write_wf (State.core_scratch_wf hs c) _ _ _)

theorem setFull_memWf (hs : s.memWf = true) : (setFull s c k).memWf = true := State.modCore_memWf_same hs rfl
theorem setEmpty_memWf (hs : s.memWf = true) : (setEmpty s c k).memWf = true := State.modCore_memWf_same hs rfl

theorem fillGranules_memWf (hs : s.memWf = true) : (fillGranules s c k n).memWf = true := by
  unfold fillGranules
  split
  · exact hs
  · exact foldl_memWf (fun _ _ => setFull_memWf) _ hs

/-! ## Places: where an address leads, and accesses there -/

theorem xlate_memWf {core : Option Nat} (hs : s.memWf = true) : (xlate s core h k).2.memWf = true := by
  unfold xlate
  split
  · exact hs
  · split
    · exact hs
    · split
      · exact State.modCore_memWf_same hs rfl
      · exact hs

theorem locate_memWf {kind : AccessKind} (hs : s.memWf = true) (he : locate s w k kind = .ok (p, t)) : t.memWf = true := by
  have hx := xlate_memWf (core := w.core) (h := s.hive w.hive) (k := k % 2 ^ 52) hs
  unfold locate at he
  dsimp only at he
  split at he
  · cases he
  · split at he
    · split at he
      · split at he <;> cases he
        exact hs
      · cases he
    · split at he
      · split at he
        · rename_i e u hu
          rw [hu] at hx
          cases hp : placeOf s w kind (k % 2 ^ 52) e <;> rw [hp] at he <;> cases he
          exact hx
        · cases he
      · split at he
        · cases he
        · split at he <;> cases he
          exact hs

theorem peerBytes_memWf (hs : s.memWf = true) : (peerBytes s n).2.memWf = true := hs

theorem readPlace_memWf {coh : Bool} (hs : s.memWf = true) : (readPlace s w p n coh).2.memWf = true := by
  unfold readPlace
  split
  · exact hs
  · exact charge_memWf hs
  · exact peerBytes_memWf hs
  · split
    · exact charge_memWf hs
    · split
      · exact charge_memWf (dropLine_memWf hs)
      · exact l1Read_memWf hs

theorem withWrite_memWf (hs : s.memWf = true) : ({ s with mem := Mem.write s.mem pa n x } : State).memWf = true :=
  withMem_memWf hs (Mem.write_wf ((State.memWf_iff s).mp hs).1 _ _ _)

theorem withPut_memWf {bs : List Byte} (hs : s.memWf = true) : ({ s with mem := Mem.put s.mem pa bs } : State).memWf = true :=
  withMem_memWf hs (Mem.put_wf ((State.memWf_iff s).mp hs).1 _ _)

theorem withWipe_memWf (hs : s.memWf = true) : ({ s with mem := Mem.wipe s.mem pa n } : State).memWf = true :=
  withMem_memWf hs (Mem.wipe_wf ((State.memWf_iff s).mp hs).1 _ _)

theorem writePlace_memWf {through : Bool} (hs : s.memWf = true) : (writePlace s w p n x through).memWf = true := by
  unfold writePlace
  split
  · exact scratchWrite_memWf hs
  · exact hs
  · exact hs
  · split
    · exact charge_memWf (withWrite_memWf hs)
    · split
      · exact charge_memWf (withWrite_memWf (dropLine_memWf hs))
      · exact l1Write_memWf hs

theorem modifyPlace_memWf {f : Nat → Option Nat} (hs : s.memWf = true) : (modifyPlace s w p n k f).2.memWf = true := by
  unfold modifyPlace
  split
  · dsimp only
    cases f _ with
    | none => exact hs
    | some new => exact scratchWrite_memWf hs
  · exact hs
  · exact peerBytes_memWf hs
  · rename_i pa e
    have hd : (w.core.elim s (fun c => dropLine s w.hive c (pa / 128))).memWf = true := by
      cases w.core with
      | none => exact hs
      | some c => exact dropLine_memWf hs
    dsimp only
    cases f _ with
    | none => exact charge_memWf hd
    | some new => exact charge_memWf (withWrite_memWf hd)

theorem amoPlace_memWf {op : AmoOp} (hs : s.memWf = true) : (amoPlace s w p op n x k).2.memWf = true := modifyPlace_memWf hs

theorem flushBuf_memWf {b : PortBuf} (hs : s.memWf = true) : (flushBuf s c b).memWf = true := by
  unfold flushBuf
  have hu : (s.modCore c (fun c => { c with bufs := c.bufs.filter (fun y => y != b) })).memWf = true :=
    State.modCore_memWf_same hs rfl
  dsimp only
  split
  · exact foldl_memWf (fun _ _ => scratchWrite_memWf) _ hu
  · have hd := dropLine_memWf (k := b.hive) (c := c) (n := b.line / 2) hu
    exact charge_memWf (withMem_memWf hd
      (foldl_mem_wf (fun _ _ hm => Mem.write_wf hm _ _ _) _ ((State.memWf_iff _).mp hd).1))

theorem flushBufs_memWf {f : PortBuf → Bool} (hs : s.memWf = true) : (flushBufs s c f).memWf = true :=
  foldl_memWf (fun _ _ => flushBuf_memWf) _ hs

theorem flushHive_memWf (hs : s.memWf = true) : (flushHive s k).memWf = true := by
  grind [flushHive, foldl_memWf, flushBufs_memWf, flushL1_memWf]

/-! ## Devices -/

theorem devicePut_memWf {bs : List Byte} (hs : s.memWf = true) : (devicePut s k n bs).memWf = true := by
  unfold devicePut
  split
  · rename_i he
    exact charge_memWf (withPut_memWf (locate_memWf hs he))
  · exact hs

theorem deviceWrite_memWf {bs : List Byte} (hs : s.memWf = true) : (deviceWrite s k n bs).memWf = true := by
  grind [deviceWrite, devicePut_memWf]

theorem deviceTake_memWf (hs : s.memWf = true) (he : deviceTake s k pa n = some (x, t)) : t.memWf = true := by
  unfold deviceTake at he
  split at he
  · rename_i hl
    cases he
    exact charge_memWf (locate_memWf hs hl)
  · cases he

theorem deviceRead_memWf (hs : s.memWf = true) (he : deviceRead s k pa = some (x, t)) : t.memWf = true := by
  unfold deviceRead at he
  dsimp only at he
  split at he
  · exact deviceTake_memWf hs he
  · simp only [Option.bind_eq_some_iff, Option.map_eq_some_iff] at he
    obtain ⟨lo, hlo, hi, hhi, he⟩ := he
    cases he
    exact deviceTake_memWf (deviceTake_memWf hs hlo) hhi

end

end Sys2Proof.Machine

namespace Sys2Proof.Machine

/-! ## Outcomes that carry a state -/

/-- What each outcome that carries a state says of its memories. -/
def Ran.memWf : Ran → Bool
  | .wait => true
  | .hold s => s.memWf
  | .trap _ _ s _ => s.memWf
  | .ok s _ => s.memWf

/-- The same of a posted record. -/
def Posted.memWf : Posted → Bool
  | .done s => s.memWf
  | .full s => s.memWf
  | .unmapped s => s.memWf

/-- The same of a queue head's move. -/
def HeadStep.memWf : HeadStep → Bool
  | .stay => true
  | .began s => s.memWf
  | .left s => s.memWf

/-- The same of a served request. -/
def Served.memWf : Served → Bool
  | .done s => s.memWf
  | .answered s _ => s.memWf
  | .refused _ => true
  | .later s => s.memWf

/-- The same of an issue place. -/
def Issued.memWf : Issued → Bool
  | .idle s => s.memWf
  | .trapped s => s.memWf
  | .run _ _ s => s.memWf

/-! ## Translation -/

theorem putEntry_memWf {s : State} {h : Hive} {off level eff stored : Nat} (hs : s.memWf = true) :
    (putEntry s h off level eff stored).memWf = true := by
  grind [putEntry, State.memWf_iff, Mem.write_wf, State.modHive_memWf]

theorem composeAt_memWf {s t : State} {h : Hive} {off level stored : Nat} {va : Word} (hs : s.memWf = true)
    (he : composeAt s h off level stored va = .ok t) : t.memWf = true := by
  grind [composeAt, putEntry_memWf]

theorem composeStore_memWf {s t : State} {h : Hive} {off stored : Nat} {va : Word} (hs : s.memWf = true)
    (he : composeStore s h off stored va = .ok t) : t.memWf = true := by
  grind [composeStore, composeAt_memWf]

theorem rootCompose_memWf {h : Hive} {p : Partition} {level off stored : Nat} {r : State × Nat} (hr : r.1.memWf = true) :
    (rootCompose h p level off stored r).1.memWf = true := by
  induction level generalizing off stored r with
  | zero => grind [rootCompose, putEntry_memWf]
  | succ level ih =>
    obtain ⟨s, next⟩ := r
    unfold rootCompose
    dsimp only
    split
    · exact putEntry_memWf hr
    · exact putEntry_memWf hr
    · exact putEntry_memWf hr
    · split
      · exact foldl_fst_memWf (fun _ _ => ih) _ (putEntry_memWf (withWipe_memWf hr))
      · exact putEntry_memWf hr

theorem rootShadow_memWf {s : State} {h : Hive} {root : Nat} (hs : s.memWf = true) : (rootShadow s h root).memWf = true := by
  have hw (n : Nat) : ({ s with mem := Mem.wipe s.mem (h.poolPhys 0) n } : State).memWf = true := withWipe_memWf hs
  unfold rootShadow
  dsimp only
  split
  · split
    · exact hw _
    · exact foldl_fst_memWf (fun _ _ => rootCompose_memWf) _ (State.modHive_memWf (hw _))
  · exact hw _

theorem markTablePages_memWf {s : State} {h : Hive} (hs : s.memWf = true) : (markTablePages s h).memWf = true := by
  grind [markTablePages, foldl_memWf, State.memWf_iff, Mem.write_wf]

theorem rootTableWrite_memWf {s : State} {h : Hive} {hp data : Nat} (hs : s.memWf = true) :
    (rootTableWrite s h hp data).memWf = true := by
  unfold rootTableWrite
  dsimp only
  split
  · exact hs
  · exact markTablePages_memWf (foldl_fst_memWf (fun _ _ => rootCompose_memWf) _ (withWrite_memWf hs))

/-! ## Streams -/

theorem startWalks_memWf {s : State} {die : Nat} (hs : s.memWf = true) : (startWalks s die).memWf = true := hs

theorem requestWalks_memWf {s : State} {k : Nat} {sx : BitVec 4} (hs : s.memWf = true) :
    (requestWalks s k sx).memWf = true := by
  unfold requestWalks
  dsimp only
  split
  · exact hs
  · exact startWalks_memWf hs

theorem refillLook_memWf {s : State} {k : Nat} (hs : s.memWf = true) : (refillLook s k).memWf = true :=
  foldl_memWf (fun _ _ => requestWalks_memWf) _ hs

theorem newGeneration_memWf {s : State} {hive : Nat} (hs : s.memWf = true) : (newGeneration s hive).memWf = true := by
  grind [newGeneration, State.modHive_memWf, State.memWf_iff, foldl_memWf, refillLook_memWf]

/-! ## Memory -/

theorem loadW_memWf {s t : State} {w : Who} {va : Word} {n : Nat} {coh : Bool} {x : Nat} (hs : s.memWf = true)
    (he : loadW s w va n coh = .ok (x, t)) : t.memWf = true := by
  grind [loadW, locate_memWf, readPlace_memWf]

theorem storeW_memWf {s t : State} {w : Who} {va : Word} {n x : Nat} {through : Bool} (hs : s.memWf = true)
    (he : storeW s w va n x through = .ok t) : t.memWf = true := by
  grind [storeW, locate_memWf, writePlace_memWf]

theorem storeSt_memWf {s t : State} {w : Who} {va : Word} {n x : Nat} {through : Bool} (hs : s.memWf = true)
    (he : storeSt s w va n x through = .ok t) : t.memWf = true := by
  grind [storeSt, locate_memWf, composeStore_memWf, charge_memWf, writePlace_memWf]

theorem loadRecord_memWf {s t : State} {w : Who} {va : Word} {n x : Nat} (hs : s.memWf = true)
    (he : loadRecord s w va n = .ok (x, t)) : t.memWf = true := by
  induction n generalizing x t with
  | zero => cases he; exact hs
  | succ n ih => grind [loadRecord, loadW_memWf]

theorem amoW_memWf {s t : State} {w : Who} {va : Word} {op : AmoOp} {n x expected : Nat} {y : Nat}
    (hs : s.memWf = true) (he : amoW s w va op n x expected = .ok (y, t)) : t.memWf = true := by
  grind [amoW, locate_memWf, amoPlace_memWf]

/-! ## Operations -/

theorem traceRecord_memWf {s : State} {k kind : Nat} {a b : Word} (hs : s.memWf = true) :
    (traceRecord s k kind a b).memWf = true := by
  unfold traceRecord
  dsimp only
  split
  · exact hs
  · have drop {u : State} (hu : u.memWf = true) (id va : Nat) :
        (match deviceRead u id va with
          | some (d, v) => if deviceWritable v id va 8 then deviceWrite v id va (leBytes 8 (d + 1)) else v
          | none => u).memWf = true := by
      split
      · rename_i hd
        have hd := deviceRead_memWf hu hd
        split
        · exact deviceWrite_memWf hd
        · exact hd
      · exact hu
    split
    · exact drop hs _ _
    · rename_i hd
      have hd := deviceRead_memWf hs hd
      split
      · exact deviceWrite_memWf (deviceWrite_memWf hd)
      · exact drop hd _ _

theorem postHive_memWf {s : State} {h : Hive} {r : TrapRecord} (hs : s.memWf = true) : (postHive s h r).memWf = true := by
  unfold postHive
  dsimp only
  split
  · exact hs
  · rename_i hd
    have hd := deviceRead_memWf hs hd
    split
    · exact hd
    · rename_i ht
      have ht := deviceRead_memWf hd ht
      split
      · split
        · exact State.modHive_memWf (deviceWrite_memWf (deviceWrite_memWf ht))
        · exact ht
      · exact ht

theorem postHost_memWf {s : State} {n : Nat} {r : TrapRecord} (hs : s.memWf = true) : (postHost s n r).memWf = true := by
  unfold postHost
  dsimp only
  split
  · have hw (a x b y : Nat) (bs : List Byte) : ({ s with mem := Mem.write (Mem.put s.mem a bs) b y x } : State).memWf = true :=
      withMem_memWf hs (Mem.write_wf (Mem.put_wf ((State.memWf_iff s).mp hs).1 _ _) _ _ _)
    split <;> exact hw _ _ _ _ _
  · exact hs

theorem pendRecord_memWf {s : State} {owner part : Nat} {r : TrapRecord} (hs : s.memWf = true) :
    (pendRecord s owner part r).memWf = true := by
  unfold pendRecord
  split
  · exact State.modPart_memWf hs
  · split <;> exact State.modHive_memWf hs

theorem postFrom_memWf {fuel : Nat} {s : State} {owner part : Nat} {r : TrapRecord} (hs : s.memWf = true) :
    (postFrom fuel s owner part r).2.memWf = true := by
  induction fuel generalizing s owner r with
  | zero => exact pendRecord_memWf hs
  | succ fuel ih =>
    have hhost := postHost_memWf (n := part) (r := r) hs
    have hhive := postHive_memWf (h := s.hive owner) (r := r) hs
    unfold postFrom
    split
    · split
      · rename_i hp
        rwa [hp] at hhost
      · exact pendRecord_memWf hs
    · split
      · rename_i hp
        rwa [hp] at hhive
      · rename_i hp
        exact pendRecord_memWf (by rwa [hp] at hhive)
      · rename_i hp
        exact ih (by rwa [hp] at hhive)

theorem post_memWf {s : State} {owner part : Nat} {r : TrapRecord} (hs : s.memWf = true) :
    (post s owner part r).2.memWf = true := postFrom_memWf hs

theorem rehold_memWf {s : State} {ticket : BitVec 32} {holder : Nat} (hs : s.memWf = true) :
    (rehold s ticket holder).memWf = true := hs

theorem postAgain_memWf {owner part : Nat} {s : State} {r : TrapRecord} (hs : s.memWf = true) :
    (postAgain owner part s r).memWf = true := rehold_memWf (post_memWf hs)

theorem postPending_memWf {s : State} {owner : Nat} (hs : s.memWf = true) : (postPending s owner).memWf = true := by
  grind [postPending, State.modHive_memWf, foldl_memWf, postAgain_memWf, post_memWf]

theorem postHostPending_memWf {s : State} {n : Nat} (hs : s.memWf = true) : (postHostPending s n).memWf = true :=
  foldl_memWf (fun _ _ => post_memWf) _ (State.modPart_memWf hs)

theorem poolPut_memWf {s : State} {h : Hive} {off : Nat} {bs : List Byte} (hs : s.memWf = true) :
    (poolPut s h off bs).memWf = true := by
  grind [poolPut, Mem.put_wf, chargePool_memWf, State.memWf_iff]

theorem writeEntry_memWf {s : State} {k kind : Nat} (hs : s.memWf = true) : (writeEntry s k kind).memWf = true := by
  have hf (l : List (Nat × List Byte)) (h : Hive) (base : Nat) :
      (l.foldl (fun s x => poolPut s h (base + x.1) x.2) s).memWf = true := foldl_memWf (fun _ _ => poolPut_memWf) l hs
  exact hf _ _ _

theorem chargeEntry_memWf {s : State} {t : Strand} (hs : s.memWf = true) : (chargeEntry s t).memWf = true :=
  chargePool_memWf hs

theorem unpin_memWf {s : State} {k : Nat} (hs : s.memWf = true) : (unpin s k).memWf = true :=
  State.modCore_memWf_same hs rfl

theorem suspendWith_memWf {s : State} {k saveKind : Nat} {kind : SuspKind} {owner : Nat} {r : TrapRecord}
    (hs : s.memWf = true) : (suspendWith s k saveKind kind owner r).memWf = true :=
  post_memWf (writeEntry_memWf (State.modStrand_memWf (unpin_memWf (releaseL1_memWf hs))))

theorem deliverLocal_memWf {s : State} {k : Nat} {t : Trap} {pc : Word} {qd : Bool} {held : List QEntry}
    (hs : s.memWf = true) : (deliverLocal s k t pc qd held).memWf = true :=
  traceRecord_memWf (State.setStrand_memWf (poolPut_memWf (poolPut_memWf (poolPut_memWf (releaseL1_memWf hs)))))

theorem firmwareTable_memWf {s : State} {k : Nat} {t : Trap} (hs : s.memWf = true) :
    (firmwareTable s k t).memWf = true :=
  State.modStrand_memWf (acquireL1_memWf (newGeneration_memWf (flushHive_memWf (rootTableWrite_memWf (releaseL1_memWf
    hs)))))

theorem firmwareRoot_memWf {s : State} {h : Hive} {root : Nat} (hs : s.memWf = true) :
    (firmwareRoot s h root).memWf = true :=
  newGeneration_memWf (flushHive_memWf (markTablePages_memWf (rootShadow_memWf hs)))

theorem deliverParent_memWf {s : State} {k : Nat} {t : Trap} {pc : Word} {held : List QEntry} (hs : s.memWf = true) :
    (deliverParent s k t pc held).memWf = true :=
  suspendWith_memWf (State.modHive_memWf (traceRecord_memWf (State.modStrand_memWf hs)))

theorem deliver_memWf {s : State} {k : Nat} {t : Trap} {pc : Word} {qd : Bool} {held : List QEntry}
    (hs : s.memWf = true) : (deliver s k t pc qd held).memWf = true := by
  unfold deliver
  split
  · exact deliverLocal_memWf hs
  · split
    · exact firmwareTable_memWf hs
    · exact deliverParent_memWf hs

theorem raiseAt_memWf {s : State} {k : Nat} {t : Trap} (hs : s.memWf = true) : (raiseAt s k t).memWf = true := by
  unfold raiseAt
  dsimp only
  split
  · exact deliver_memWf hs
  · exact State.modStrand_memWf hs

theorem raise_memWf {s : State} {t : Trap} (hs : s.memWf = true) : (raise s t).memWf = true := raiseAt_memWf hs

theorem stopAwaiting_memWf {s : State} {k : Nat} (hs : s.memWf = true) : (stopAwaiting s k).memWf = true := hs

theorem raiseQueued_memWf {s : State} {k : Nat} {t : Trap} {underM7 : Bool} (hs : s.memWf = true) :
    (raiseQueued s k t underM7).memWf = true := by
  unfold raiseQueued
  dsimp only
  split
  · exact hs
  · exact deliver_memWf (stopAwaiting_memWf (State.modStrand_memWf hs))

theorem scalar_memWf {s t : State} {f : Except Trap State} (hs : s.memWf = true) (hf : ∀ u, f = .ok u → u.memWf = true)
    (he : scalar s f = .next t) : t.memWf = true := by
  unfold scalar at he
  split at he
  · split at he <;> cases he
    · exact hf _ rfl
    · exact raise_memWf hs
  · cases he

theorem scalarWait_memWf {s t : State} {f : Option (Except Trap State)} (hs : s.memWf = true)
    (hf : ∀ u, f = some (.ok u) → u.memWf = true) (he : scalarWait s f = .next t) : t.memWf = true := by
  unfold scalarWait at he
  split at he
  · split at he <;> cases he
    · exact hs
    · exact hf _ rfl
    · exact raise_memWf hs
  · cases he

theorem completeAt_memWf {s : State} {k : Nat} {w : Away} (hs : s.memWf = true) : (completeAt s k w).memWf = true := by
  grind [completeAt, acquireL1_memWf, State.modStrand_memWf]

theorem State.block_memWf {s : State} {i : Instr} (hs : s.memWf = true) : (s.block i).memWf = true :=
  State.modMe_memWf hs

theorem wake_memWf {s t : State} {k : Nat} {pick : Instr → Bool} {run : Instr → State → Host.Outcome State Fault Refusal}
    (hs : s.memWf = true) (hr : ∀ i s t, s.memWf = true → run i s = .next t → t.memWf = true)
    (he : wake s k pick run = .next t) : t.memWf = true := by
  unfold wake at he
  split at he
  · split at he
    · exact hr _ _ _ (State.modStrand_memWf (s := { s with cur := k }) hs) he
    · cases he; exact hs
  · cases he; exact hs

theorem State.finish_memWf {s : State} {rd : BitVec 5} {x : Word} (hs : s.memWf = true) :
    (s.finish rd x).memWf = true := State.modMe_memWf hs

theorem State.advance_memWf {s : State} (hs : s.memWf = true) : s.advance.memWf = true := State.modMe_memWf hs

/-! ## Integer instructions -/

theorem alu_memWf {s t : State} {rd : BitVec 5} {x : Word} (hs : s.memWf = true) (he : alu s rd x = .next t) :
    t.memWf = true := by
  unfold alu at he
  refine scalar_memWf hs (fun u hu => ?_) he
  grind [State.finish_memWf]

/-! ## Traps and system instructions -/

theorem execSetvl_memWf {o : IFmt} {s t : State} (hs : s.memWf = true) (he : execSetvl o s = .next t) :
    t.memWf = true := by
  unfold execSetvl at he
  refine scalar_memWf hs (fun u hu => ?_) he
  grind [State.finish_memWf, State.modMe_memWf]

theorem execCtlrd_memWf {o : IFmt} {s t : State} (hs : s.memWf = true) (he : execCtlrd o s = .next t) :
    t.memWf = true := by
  unfold execCtlrd at he
  refine scalarWait_memWf hs (fun u hu => ?_) he
  grind [State.finish_memWf]

theorem execCtlwrFpctl_memWf {o : IFmt} {s t : State} (hs : s.memWf = true) (he : execCtlwrFpctl o s = .next t) :
    t.memWf = true := by
  unfold execCtlwrFpctl at he
  refine scalarWait_memWf hs (fun u hu => ?_) he
  grind [State.advance_memWf, State.modMe_memWf]

theorem execCtlwrSeed_memWf {o : IFmt} {s t : State} (hs : s.memWf = true) (he : execCtlwrSeed o s = .next t) :
    t.memWf = true := by
  unfold execCtlwrSeed at he
  refine scalarWait_memWf hs (fun u hu => ?_) he
  grind [State.advance_memWf, State.modMe_memWf]

theorem execCtlwrTrapvec_memWf {o : IFmt} {s t : State} (hs : s.memWf = true) (he : execCtlwrTrapvec o s = .next t) :
    t.memWf = true := by
  unfold execCtlwrTrapvec at he
  refine scalar_memWf hs (fun u hu => ?_) he
  grind [State.advance_memWf, State.modHive_memWf]

theorem execCtlwrTblroot_memWf {o : IFmt} {s t : State} (hs : s.memWf = true) (he : execCtlwrTblroot o s = .next t) :
    t.memWf = true := by
  unfold execCtlwrTblroot at he
  refine scalarWait_memWf hs (fun u hu => ?_) he
  grind [State.advance_memWf, acquireL1_memWf, firmwareRoot_memWf, releaseL1_memWf]

theorem execCtlwrYieldwin_memWf {o : IFmt} {s t : State} (hs : s.memWf = true) (he : execCtlwrYieldwin o s = .next t) :
    t.memWf = true := by
  unfold execCtlwrYieldwin at he
  refine scalar_memWf hs (fun u hu => ?_) he
  grind [State.advance_memWf, State.modMe_memWf]

theorem setSplit_memWf {s : State} {c : Nat} {sps : BitVec 3} (hs : s.memWf = true) : (setSplit s c sps).memWf = true :=
  State.modCore_memWf hs (Mem.filter_wf (State.core_scratch_wf hs c) _)

theorem execCtlwrSplit_memWf {o : IFmt} {s t : State} (hs : s.memWf = true) (he : execCtlwrSplit o s = .next t) :
    t.memWf = true := by
  unfold execCtlwrSplit at he
  refine scalarWait_memWf hs (fun u hu => ?_) he
  grind [State.advance_memWf, setSplit_memWf, clearL1_memWf]

theorem execCtlwr_memWf {o : IFmt} {s t : State} (hs : s.memWf = true) (he : execCtlwr o s = .next t) :
    t.memWf = true := by
  unfold execCtlwr at he
  refine scalar_memWf hs (fun u hu => ?_) he
  grind

theorem execCycrd_memWf {o : IFmt} {s t : State} (hs : s.memWf = true) (he : execCycrd o s = .next t) :
    t.memWf = true := by
  unfold execCycrd at he
  refine scalar_memWf hs (fun u hu => ?_) he
  grind [State.finish_memWf]

theorem flushCode_memWf {s : State} {hive lo len : Nat} (hs : s.memWf = true) :
    (flushCode s hive lo len).memWf = true := foldl_memWf (fun _ _ hu => State.modCore_memWf_same hu rfl) _ hs

theorem execCflush_memWf {o : GFmt} {s t : State} (hs : s.memWf = true) (he : execCflush o s = .next t) :
    t.memWf = true := by
  unfold execCflush at he
  refine scalarWait_memWf hs (fun u hu => ?_) he
  grind [acquireL1_memWf, State.advance_memWf, flushCode_memWf]

theorem execAinv_memWf {o : GFmt} {s t : State} (hs : s.memWf = true) (he : execAinv o s = .next t) :
    t.memWf = true := by
  unfold execAinv at he
  refine scalarWait_memWf hs (fun u hu => ?_) he
  grind [State.advance_memWf, newGeneration_memWf, flushHive_memWf, acquireL1_memWf]

theorem execTmark_memWf {o : IFmt} {s t : State} (hs : s.memWf = true) (he : execTmark o s = .next t) :
    t.memWf = true := by
  unfold execTmark at he
  refine scalar_memWf hs (fun u hu => ?_) he
  grind [State.advance_memWf, traceRecord_memWf]

theorem execTrap_memWf {o : IFmt} {s t : State} (hs : s.memWf = true) (he : execTrap o s = .next t) :
    t.memWf = true := by
  unfold execTrap at he
  refine scalar_memWf hs (fun u hu => ?_) he
  grind

theorem execBrk_memWf {o : IFmt} {s t : State} (hs : s.memWf = true) (he : execBrk o s = .next t) : t.memWf = true := by
  unfold execBrk at he
  refine scalar_memWf hs (fun u hu => ?_) he
  grind

theorem tret_memWf {i : Instr} {skip : Bool} {s t : State} (hs : s.memWf = true) (he : tret i skip s = .next t) :
    t.memWf = true := by
  unfold tret at he
  refine scalarWait_memWf hs (fun u hu => ?_) he
  grind [acquireL1_memWf, State.modMe_memWf]

/-! ## The engine -/

theorem makeCommand_memWf {s : State} {k : Nat} {kind : CmdKind} {r : Nat} (hs : s.memWf = true) :
    (makeCommand s k kind r).memWf = true := by
  grind [makeCommand, State.memWf_iff, State.modHive_memWf, State.modStrand_memWf]

theorem issueCommand_memWf {kind : CmdKind} {i : Instr} {o : GFmt} {s t : State} (hs : s.memWf = true)
    (he : issueCommand kind i o s = .next t) : t.memWf = true := by
  unfold issueCommand at he
  refine scalar_memWf hs (leavesWf_bind fun _ _ => leavesWf_bind fun p hp => ?_) he
  have hp := loadRecord_memWf hs hp
  dsimp only
  split
  · exact leavesWf_throw
  split
  on_goal 1 => split
  · exact leavesWf_throw
  all_goals
    refine leavesWf_bind fun u hu => ?_
    have hu := storeW_memWf hp hu
    split
    · exact leavesWf_pure hu
    · exact leavesWf_pure (makeCommand_memWf hu)

theorem execXwait_memWf {o : GFmt} {s t : State} (hs : s.memWf = true) (he : execXwait o s = .next t) :
    t.memWf = true := by
  unfold execXwait at he
  refine scalar_memWf hs (fun u hu => ?_) he
  clear he
  grind [bind_eq_ok, pure_eq_ok, throw_ne_ok, loadW_memWf, State.finish_memWf, acquireL1_memWf, State.block_memWf]

theorem execXwaitWake_memWf {st : Nat} {s t : State} (hs : s.memWf = true) (he : execXwaitWake st s = .next t) :
    t.memWf = true := by
  refine wake_memWf hs (fun i s t hs he => ?_) he
  split at he
  · exact execXwait_memWf hs he
  · cases he; exact hs

theorem State.modCmd_memWf {s : State} {id : Nat} {f : Cmd → Cmd} (hs : s.memWf = true) :
    (s.modCmd id f).memWf = true := hs

theorem placeBytes_memWf {s : State} {w : Who} {p : Place} {n : Nat} (hs : s.memWf = true) :
    (placeBytes s w p n).2.memWf = true := by
  unfold placeBytes
  split
  · exact hs
  · exact chargeLines_memWf hs
  · exact hs
  · exact chargeLines_memWf hs

theorem putPlace_memWf {s : State} {w : Who} {p : Place} {bs : List Byte} (hs : s.memWf = true) :
    (putPlace s w p bs).memWf = true := by
  unfold putPlace
  split
  · exact fillGranules_memWf (State.modCore_memWf hs (Mem.put_wf (State.core_scratch_wf hs _) _ _))
  · exact chargeLines_memWf (withPut_memWf hs)
  · exact hs
  · exact hs

theorem engineLocate_memWf {s t : State} {w : Who} {va : Nat} {k : AccessKind} {x : Place} (hs : s.memWf = true)
    (he : engineLocate s w va k = .ok (x, t)) : t.memWf = true := by
  grind [engineLocate, locate_memWf]

theorem engineWrite_memWf {s t : State} {w : Who} {va : Nat} {x : Place} (hs : s.memWf = true)
    (he : engineWrite s w va = .ok (x, t)) : t.memWf = true := by
  grind [engineWrite, engineLocate_memWf]

theorem engineRead_memWf {fuel : Nat} {s t : State} {w : Who} {va n : Nat} {bs : List Byte} (hs : s.memWf = true)
    (he : engineRead s w fuel va n = .ok (bs, t)) : t.memWf = true := by
  induction fuel generalizing s va n bs with
  | zero => cases he; exact hs
  | succ fuel ih => grind [engineRead, engineLocate_memWf, placeBytes_memWf]

theorem enginePlaces_memWf {fuel : Nat} {s t : State} {w : Who} {va n : Nat} {ps : List (Place × Nat)}
    (hs : s.memWf = true) (he : enginePlaces s w fuel va n = .ok (ps, t)) : t.memWf = true := by
  induction fuel generalizing s va n ps with
  | zero => cases he; exact hs
  | succ fuel ih => grind [enginePlaces, engineWrite_memWf]

theorem putPlaces_memWf {s : State} {w : Who} {ps : List (Place × Nat)} {bs : List Byte} (hs : s.memWf = true) :
    (putPlaces s w ps bs).memWf = true := by
  induction ps generalizing s bs with
  | nil => exact hs
  | cons p ps ih => exact ih (putPlace_memWf hs)

theorem readRange_memWf {s t : State} {w : Who} {va n : Nat} {x : List Byte} (hs : s.memWf = true)
    (he : readRange s w va n = .ok (x, t)) : t.memWf = true := by
  grind [readRange, engineRead_memWf]

theorem writeRange_memWf {s t : State} {w : Who} {va : Nat} {bs : List Byte} (hs : s.memWf = true)
    (he : writeRange s w va bs = .ok t) : t.memWf = true := by
  unfold writeRange at he
  cases hp : enginePlaces s w (pieceFuel bs.length) va bs.length with
  | error e => rw [hp] at he; cases he
  | ok x =>
    rw [hp] at he
    cases he
    exact putPlaces_memWf (enginePlaces_memWf (ps := x.1) hs hp)

theorem endCommand_memWf {s : State} {id : Nat} {e : Ending} (hs : s.memWf = true) :
    (endCommand s id e).memWf = true := State.modCmd_memWf hs

theorem gatherChunk_memWf {c : Cmd} {s t : State} {runs : List (Nat × Nat × Nat × Nat)} {l : List (Place × List Byte)}
    (hs : s.memWf = true) (he : gatherChunk c s runs = .ok (l, t)) : t.memWf = true := by
  induction runs generalizing s l with
  | nil => cases he; exact hs
  | cons r runs ih =>
    unfold gatherChunk at he
    dsimp only at he
    split at he
    · cases he
    · rename_i u hr
      have hu : u.memWf = true := by
        split at hr
        · cases hr; exact hs
        · exact readRange_memWf hs hr
      grind [engineWrite_memWf]

theorem runChunk_memWf {s : State} {c : Cmd} (hs : s.memWf = true) : (runChunk s c).memWf = true := by
  unfold runChunk
  dsimp only
  split
  · exact endCommand_memWf hs
  · rename_i he
    have hg := gatherChunk_memWf hs he
    split
    · exact endCommand_memWf (State.modCmd_memWf (foldl_memWf (fun _ _ => putPlace_memWf) _ hg))
    · exact State.modCmd_memWf (foldl_memWf (fun _ _ => putPlace_memWf) _ hg)

theorem withRunning_memWf {id : Nat} {s t : State} {kinds : CmdKind → Bool} {f : Cmd → State} (hs : s.memWf = true)
    (hf : ∀ c, (f c).memWf = true) (he : withRunning id s kinds f = .next t) : t.memWf = true := by
  unfold withRunning at he
  split at he
  · cases he; exact hs
  · split at he <;> cases he
    · exact hf _
    · exact hs

theorem execCopyChunk_memWf {cmd : Nat} {s t : State} (hs : s.memWf = true) (he : execCopyChunk cmd s = .next t) :
    t.memWf = true := by
  grind [execCopyChunk, withRunning_memWf, runChunk_memWf]

theorem makeTable_memWf {s t : State} {c : Cmd} {x : (Nat × List (Nat × Nat))} (hs : s.memWf = true)
    (he : makeTable s c = .ok (x, t)) : t.memWf = true := by
  grind [makeTable, readRange_memWf]

theorem runTable_memWf {s : State} {c : Cmd} (hs : s.memWf = true) : (runTable s c).memWf = true := by
  unfold runTable
  dsimp only
  split
  · exact endCommand_memWf hs
  · rename_i he
    have h1 := makeTable_memWf hs he
    split
    · exact State.modCmd_memWf h1
    · split
      · exact endCommand_memWf h1
      · rename_i he
        exact State.modCmd_memWf (writeRange_memWf h1 he)

theorem execXztabInstall_memWf {cmd : Nat} {s t : State} (hs : s.memWf = true) (he : execXztabInstall cmd s = .next t) :
    t.memWf = true := by
  grind [execXztabInstall, withRunning_memWf, runTable_memWf, State.modStrand_memWf, endCommand_memWf,
    State.modCmd_memWf]

theorem runBlock_memWf {s : State} {c : Cmd} (hs : s.memWf = true) : (runBlock s c).memWf = true := by
  unfold runBlock
  dsimp only
  split
  · exact endCommand_memWf hs
  · rename_i he
    have h1 := readRange_memWf hs he
    split
    · exact endCommand_memWf h1
    · split
      · exact endCommand_memWf h1
      · rename_i he
        have h2 := writeRange_memWf h1 he
        split
        · exact endCommand_memWf (State.modCmd_memWf h2)
        · exact State.modCmd_memWf h2

theorem execCodecBlock_memWf {cmd : Nat} {s t : State} (hs : s.memWf = true) (he : execCodecBlock cmd s = .next t) :
    t.memWf = true := by
  grind [execCodecBlock, withRunning_memWf, runBlock_memWf]

theorem putPages_memWf {s : State} {hive : Nat} {ps : List (Nat × Nat)} {bs : List Byte} (hs : s.memWf = true) :
    (putPages s hive ps bs).memWf = true := by
  induction ps generalizing s bs with
  | nil => exact hs
  | cons p ps ih => exact ih (chargeLines_memWf (withPut_memWf hs))

theorem runStamp_memWf {s : State} {c : Cmd} (hs : s.memWf = true) : (runStamp s c).memWf = true := by
  unfold runStamp
  dsimp only
  split
  · exact endCommand_memWf hs
  · exact endCommand_memWf (State.modCmd_memWf (putPages_memWf (foldl_memWf (fun _ _ => chargeLines_memWf) _ hs)))
  · exact endCommand_memWf hs
  · exact endCommand_memWf hs
  · exact endCommand_memWf hs

theorem execSealStamp_memWf {cmd : Nat} {s t : State} (hs : s.memWf = true) (he : execSealStamp cmd s = .next t) :
    t.memWf = true := by
  grind [execSealStamp, withRunning_memWf, runStamp_memWf]

theorem execEngineCommandStart_memWf {cmd : Nat} {s t : State} (hs : s.memWf = true)
    (he : execEngineCommandStart cmd s = .next t) : t.memWf = true := by
  grind [execEngineCommandStart, releaseL1_memWf, State.modCmd_memWf]

theorem leaveStep5_memWf {s : State} {k : Nat} (hs : s.memWf = true) : (leaveStep5 s k).memWf = true := by
  unfold leaveStep5
  split
  · split
    · split
      · exact makeCommand_memWf hs
      · exact hs
    · exact hs
  · exact hs

theorem writeCompletion_memWf {s t : State} {c : Cmd} {e : Ending} (hs : s.memWf = true)
    (he : writeCompletion s c e = .ok t) : t.memWf = true := by
  unfold writeCompletion at he
  dsimp only at he
  split at he
  · cases he
  · rename_i hw
    exact writeRange_memWf (writeRange_memWf hs hw) he

theorem tryCompletion_memWf {s : State} {cmd : Nat} (hs : s.memWf = true) : (tryCompletion s cmd).memWf = true := by
  unfold tryCompletion
  split
  · exact hs
  · split
    · exact hs
    · split
      · exact hs
      · rename_i he
        have hw := writeCompletion_memWf hs he
        exact leaveStep5_memWf hw

theorem execCommandCompletion_memWf {cmd : Nat} {s t : State} (hs : s.memWf = true)
    (he : execCommandCompletion cmd s = .next t) : t.memWf = true := by
  grind [execCommandCompletion, tryCompletion_memWf]

/-! ## Vector memory instructions -/

theorem locateV_memWf {s t : State} {g : VAgent} {va : Nat} {k : AccessKind} {p : Place} (hs : s.memWf = true)
    (he : locateV s g va k = .ok (p, t)) : t.memWf = true := by
  unfold locateV at he
  dsimp only at he
  split at he
  · rename_i e _
    cases hp : placeOf s g.who k va e <;> rw [hp] at he <;> cases he
    exact hs
  · exact locate_memWf hs he

theorem MemOut.result_memWf {out : MemOut} {k : Nat} {kind : AccessKind} (ho : out.s.memWf = true) :
    (out.result k kind).memWf = true := by
  unfold MemOut.result
  split <;> exact ho

/-- A run over governed elements, of which each keeps the form where it is performed. -/
theorem memEach_memWf {x : Work} {mk : BitVec 3} {mn : BitVec 1} {out : MemOut} {addr : Nat → Nat}
    {f : MemOut → Nat → Except Reason MemOut} (ho : out.s.memWf = true)
    (hf : ∀ out e u, out.s.memWf = true → f out e = .ok u → u.s.memWf = true) : (memEach x mk mn out addr f).s.memWf = true := by
  refine List.foldlRecOn _ _ (motive := fun out : MemOut => out.s.memWf = true) ho fun out ho e _ => ?_
  split
  · split
    · rename_i hu
      exact hf _ _ _ ho hu
    · exact ho
  · exact ho

theorem loadElem_memWf {g : VAgent} {w k : Nat} {coh : Bool} {a : Nat × Nat} {out u : MemOut} (ho : out.s.memWf = true)
    (he : loadElem g w coh a out k = .ok u) : u.s.memWf = true := by
  unfold loadElem at he
  cases hl : locateV out.s g a.1 .read <;> rw [hl] at he <;> cases he
  exact readPlace_memWf (locateV_memWf ho hl)

theorem storeElem_memWf {g : VAgent} {w x : Nat} {through : Bool} {a : Nat × Nat} {out u : MemOut}
    (ho : out.s.memWf = true) (he : storeElem g w x through a out = .ok u) : u.s.memWf = true := by
  unfold storeElem at he
  split at he
  · cases he
  · cases he
  · rename_i hl
    have hl := locateV_memWf ho hl
    split at he <;> cases he
    · exact modifyPlace_memWf hl
    · exact writePlace_memWf hl

theorem beforeFirst_memWf {s : State} {g : VAgent} {x : Work} {o : VMFmt} (hs : s.memWf = true) :
    (beforeFirst s g x o).memWf = true := by
  unfold beforeFirst
  split
  · exact releaseL1_memWf hs
  · exact hs

theorem afterLast_memWf {out : MemOut} {g : VAgent} {x : Work} {o : VMFmt} (ho : out.s.memWf = true) :
    (afterLast out g x o).s.memWf = true := by
  unfold afterLast
  split
  · exact acquireL1_memWf ho
  · exact ho

theorem streamBytes_memWf {g : VAgent} {coh : Bool} {n va : Nat} {s t : State} {bs : List Byte} (hs : s.memWf = true)
    (he : streamBytes g coh n va s = .ok (bs, t)) : t.memWf = true := by
  induction n generalizing s va bs with
  | zero => cases he; exact hs
  | succ n ih => grind [streamBytes, locateV_memWf, readPlace_memWf]

theorem blockAddr_memWf {g : VAgent} {coh : Bool} {n va x : Nat} {s t : State} (hs : s.memWf = true)
    (he : blockAddr g coh n va s = .ok (x, t)) : t.memWf = true := by
  induction n generalizing s va with
  | zero => cases he; exact hs
  | succ n ih => grind [blockAddr, streamBytes_memWf]

theorem readBlock_memWf {t : Strand} {sx : BitVec 4} {coh : Bool} {known : List CodedBlock} {i : Nat} {s : State}
    (hs : s.memWf = true) : (readBlock t sx coh known i s).2.memWf = true := by
  unfold readBlock
  dsimp only
  split
  · exact hs
  · split
    · exact hs
    · rename_i he
      have h1 := blockAddr_memWf hs he
      split
      · exact h1
      · rename_i he
        have h2 := streamBytes_memWf h1 he
        split
        · exact h2
        · rename_i he
          have h3 := streamBytes_memWf h2 he
          split <;> exact h3

theorem readBlocks_memWf {x : Work} {o : VMFmt} {known : List CodedBlock} {s : State} (hs : s.memWf = true) :
    (readBlocks x o known s).2.2.memWf = true :=
  List.foldlRecOn _ _ (motive := fun r : List (Nat × BlockRead) × List CodedBlock × State => r.2.2.memWf = true) hs
    fun _ hr _ _ => readBlock_memWf hr

theorem runCoded_memWf {o : VMFmt} {s : State} {k : Nat} {x : Work} {a : Part} (hs : s.memWf = true) :
    (runCoded o s k x a).memWf = true := by
  unfold runCoded
  dsimp only
  split
  · exact readBlocks_memWf hs
  · refine MemOut.result_memWf (afterLast_memWf (memEach_memWf (readBlocks_memWf hs) fun out e u ho hu => ?_))
    split at hu <;> cases hu <;> exact ho

theorem runVld_memWf {o : VMFmt} {s : State} {k : Nat} {x : Work} {a : Part} (hs : s.memWf = true) :
    (runVld o s k x a).memWf = true := by
  unfold runVld
  dsimp only
  split
  · exact hs
  · split
    · split
      · rfl
      · exact runCoded_memWf hs
    · split
      · exact hs
      · exact MemOut.result_memWf (afterLast_memWf (memEach_memWf hs fun _ _ _ => loadElem_memWf))

theorem runVst_memWf {o : VMFmt} {s : State} {k : Nat} {x : Work} {a : Part} (hs : s.memWf = true) :
    (runVst o s k x a).memWf = true := by
  unfold runVst
  dsimp only
  split
  · exact hs
  · split
    · exact hs
    · exact MemOut.result_memWf (memEach_memWf (beforeFirst_memWf hs) fun _ _ _ => storeElem_memWf)

theorem runVldx_memWf {o : VMFmt} {s : State} {k : Nat} {x : Work} {a : Part} (hs : s.memWf = true) :
    (runVldx o s k x a).memWf = true := by
  unfold runVldx
  dsimp only
  split
  · exact hs
  · exact MemOut.result_memWf (afterLast_memWf (memEach_memWf hs fun _ _ _ => loadElem_memWf))

theorem runVstx_memWf {o : VMFmt} {s : State} {k : Nat} {x : Work} {a : Part} (hs : s.memWf = true) :
    (runVstx o s k x a).memWf = true := by
  unfold runVstx
  dsimp only
  split
  · exact hs
  · exact MemOut.result_memWf (memEach_memWf (beforeFirst_memWf hs) fun _ _ _ => storeElem_memWf)

theorem runVamo_memWf {o : VMFmt} {s : State} {k : Nat} {x : Work} {a : Part} (hs : s.memWf = true) :
    (runVamo o s k x a).memWf = true := by
  unfold runVamo
  dsimp only
  split
  · exact hs
  · refine MemOut.result_memWf (afterLast_memWf (memEach_memWf (beforeFirst_memWf hs) fun out e u ho hu => ?_))
    cases hl : locateV out.s (gatherAgent x.t) (indexAddr x.t x.e o e) .amo <;> rw [hl] at hu <;> cases hu
    exact amoPlace_memWf (locateV_memWf ho hl)

theorem runVldfe_memWf {o : VMFmt} {s : State} {k : Nat} {x : Work} {a : Part} (hs : s.memWf = true) :
    (runVldfe o s k x a).memWf = true := by
  unfold runVldfe
  dsimp only
  split
  · exact hs
  · split
    · exact hs
    · exact hs
    · split
      · have hm := memEach_memWf (x := x) (mk := o.mk) (mn := o.mn) (out := ⟨s, a, []⟩)
          (addr := fun e => (takenAddr x.t o.sx (etw o.et) e).1) hs (fun out e u ho hu =>
            loadElem_memWf (g := streamAgent x.t o.sx) (w := etw o.et) (k := e) (coh := true)
              (a := takenAddr x.t o.sx (etw o.et) e) ho hu)
        refine MemOut.result_memWf (afterLast_memWf ?_)
        dsimp only
        split
        · exact foldl_memWf (fun _ _ => setEmpty_memWf) _ hm
        · exact hm
      · rfl

theorem prefetch_memWf {g : VAgent} {k : AccessKind} {s : State} {line : Nat} (hs : s.memWf = true) :
    (prefetch g k s line).memWf = true := by
  unfold prefetch
  split
  · rename_i he
    have h1 := locateV_memWf hs he
    split
    · split
      · exact charge_memWf h1
      · exact fetchLine_memWf h1
    · exact h1
  · exact hs

theorem runVpf_memWf {o : VMFmt} {s : State} {k : Nat} {x : Work} {a : Part} (hs : s.memWf = true) :
    (runVpf o s k x a).memWf = true := by
  have hf {g : VAgent} {kind : AccessKind} {l : List Nat} {s : State} (hs : s.memWf = true) :
      (l.foldl (prefetch g kind) s).memWf = true := foldl_memWf (fun _ _ => prefetch_memWf) l hs
  unfold runVpf
  dsimp only
  split
  · exact hs
  · exact hf (hf hs)

theorem recordV_memWf {s t : State} {g : VAgent} {va n x : Nat} (hs : s.memWf = true)
    (he : recordV s g va n = .ok (x, t)) : t.memWf = true := by
  induction n generalizing x t with
  | zero => cases he; exact hs
  | succ n ih => grind [recordV, locateV_memWf, readPlace_memWf]

theorem runSbind_memWf {o : IFmt} {s : State} {k : Nat} {x : Work} {a : Part} (hs : s.memWf = true) :
    (runSbind o s k x a).memWf = true := by
  grind [runSbind, recordV_memWf, requestWalks_memWf, State.modStrand_memWf, Ran.memWf]

theorem movePos_memWf {sx : BitVec 4} {p : ℤ} {ok : Machine.Stream → Bool} {s : State} {k : Nat} {x : Work} {a : Part}
    (hs : s.memWf = true) : (movePos sx p ok s k x a).memWf = true := by
  grind [movePos, requestWalks_memWf, State.modStrand_memWf, Ran.memWf]

theorem runSset_memWf {o : IFmt} {s : State} {k : Nat} {x : Work} {a : Part} (hs : s.memWf = true) :
    (runSset o s k x a).memWf = true := by
  grind [runSset, movePos_memWf, Ran.memWf]

theorem runSadv_memWf {o : IFmt} {s : State} {k : Nat} {x : Work} {a : Part} (hs : s.memWf = true) :
    (runSadv o s k x a).memWf = true := by
  grind [runSadv, movePos_memWf, Ran.memWf]

theorem runSget_memWf {o : IFmt} {s : State} {k : Nat} {x : Work} {a : Part} (hs : s.memWf = true) :
    (runSget o s k x a).memWf = true := by
  grind [runSget, Ran.memWf]

/-! ## Tile instructions -/

theorem modTile_memWf {s : State} {k : Nat} {ad : BitVec 2} {f : List TileRow → List TileRow} (hs : s.memWf = true) :
    (modTile s k ad f).memWf = true := State.modCore_memWf_same hs rfl

theorem readSide_memWf {t : Strand} {sx : BitVec 4} {vas : List Nat} {s : State} (hs : s.memWf = true) :
    (readSide t sx vas s).2.2.memWf = true := by
  refine List.foldlRecOn _ _ (motive := fun r : List Nat × List Missed × State => r.2.2.memWf = true) hs
    fun r hr va _ => ?_
  dsimp only
  split
  · exact hr
  · rename_i hl
    exact readPlace_memWf (locateV_memWf hr hl)

theorem outerScales_memWf {o : TFmt} {s t : State} {x : Work} {y : Scales} (hs : s.memWf = true)
    (he : outerScales o s x = .ok (y, t)) : t.memWf = true := by
  grind [outerScales, bind_eq_ok, readSide_memWf, pure_eq_ok, throw_ne_ok]

theorem outerAccumulate_memWf {o : TFmt} {negate : Bool} {sc : Scales} {s : State} {k : Nat} {x : Work} {a : Part}
    (hs : s.memWf = true) : (outerAccumulate o negate sc s k x a).1.memWf = true := by
  grind [outerAccumulate, foldl_memWf, modTile_memWf]

theorem outerProduct_memWf {o : TFmt} {negate : Bool} {s : State} {k : Nat} {x : Work} {a : Part}
    (hs : s.memWf = true) : (outerProduct o negate s k x a).memWf = true := by
  grind [outerProduct, outerScales_memWf, outerAccumulate_memWf, Ran.memWf]

theorem runTopa_memWf {o : TFmt} {s : State} {k : Nat} {x : Work} {a : Part} (hs : s.memWf = true) :
    (runTopa o s k x a).memWf = true := outerProduct_memWf hs

theorem runTops_memWf {o : TFmt} {s : State} {k : Nat} {x : Work} {a : Part} (hs : s.memWf = true) :
    (runTops o s k x a).memWf = true := outerProduct_memWf hs

theorem runTzero_memWf {o : TFmt} {s : State} {k : Nat} {x : Work} {a : Part} (hs : s.memWf = true) :
    (runTzero o s k x a).memWf = true := State.modStrand_memWf (modTile_memWf hs)

theorem runTrd_memWf {o : TFmt} {s : State} {k : Nat} {x : Work} {a : Part} (hs : s.memWf = true) :
    (runTrd o s k x a).memWf = true := hs

theorem runTwr_memWf {o : TFmt} {s : State} {k : Nat} {x : Work} {a : Part} (hs : s.memWf = true) :
    (runTwr o s k x a).memWf = true := modTile_memWf hs

theorem runTscl_memWf {o : TFmt} {s : State} {k : Nat} {x : Work} {a : Part} (hs : s.memWf = true) :
    (runTscl o s k x a).memWf = true := modTile_memWf hs

theorem leaveUnit_memWf {i : Instr} {sc : Scales} {s : State} {k : Nat} {x : Work} {a : Part} (hs : s.memWf = true) :
    (leaveUnit i sc s k x a).1.memWf = true := by
  unfold leaveUnit
  split
  · exact outerAccumulate_memWf hs
  · exact outerAccumulate_memWf hs
  · exact State.modStrand_memWf (modTile_memWf hs)
  · exact hs
  · exact modTile_memWf hs
  · exact modTile_memWf hs
  · exact hs

theorem reachUnit_memWf {i : Instr} {s t : State} {x : Work} {y : Scales} (hs : s.memWf = true)
    (he : reachUnit i s x = .ok (y, t)) : t.memWf = true := by
  unfold reachUnit at he
  split at he
  · exact outerScales_memWf hs he
  · exact outerScales_memWf hs he
  · cases he; exact hs

theorem runTmode_memWf {o : IFmt} {s : State} {k : Nat} {x : Work} {a : Part} (hs : s.memWf = true) :
    (runTmode o s k x a).memWf = true := hs

/-! ## The comb -/

theorem State.putCtx_memWf {s : State} {core : Nat} {x : CombCtx} (hs : s.memWf = true) :
    (s.putCtx core x).memWf = true := State.modCore_memWf_same hs rfl

theorem State.dropCtx_memWf {s : State} {core : Nat} {x : CombCtx} (hs : s.memWf = true) :
    (s.dropCtx core x).memWf = true := State.modCore_memWf_same hs rfl

theorem State.modSlot_memWf {s : State} {k : Nat} {n : BitVec 5} {f : FSlot → FSlot} (hs : s.memWf = true) :
    (s.modSlot k n f).memWf = true := State.modStrand_memWf hs

theorem flushCtx_memWf {s : State} {core : Nat} {x : CombCtx} (hs : s.memWf = true) :
    (flushCtx s core x).memWf = true := flushBufs_memWf hs

theorem freePorts_memWf {s : State} {core : Nat} {x : CombCtx} (hs : s.memWf = true) :
    (freePorts s core x).memWf = true := State.modCore_memWf_same hs rfl

theorem takePorts_memWf {s : State} {core : Nat} {x : CombCtx} (hs : s.memWf = true) :
    (takePorts s core x).memWf = true := State.modCore_memWf_same hs rfl

theorem givePort_memWf {s : State} {core : Nat} {x : CombCtx} {n tgt : Nat} (hs : s.memWf = true) :
    (givePort s core x n tgt).memWf = true := by
  unfold givePort
  dsimp only
  split
  · exact State.modCore_memWf_same (flushBufs_memWf hs) rfl
  · exact hs

theorem portLoad_memWf {s t : State} {g : VAgent} {va n fe : Nat} {x : Nat} (hs : s.memWf = true)
    (he : portLoad s g va n fe = .ok (some ((x, t)))) : t.memWf = true := by
  grind [portLoad, setEmpty_memWf, locateV_memWf, readPlace_memWf]

theorem bufferStore_memWf {s : State} {core node ctx hive : Nat} {scratch : Bool} {addr n x : Nat}
    (hs : s.memWf = true) : (bufferStore s core node ctx hive scratch addr n x).memWf = true := by
  unfold bufferStore
  dsimp only
  split
  · exact flushBuf_memWf (State.modCore_memWf_same (flushBufs_memWf hs) rfl)
  · exact State.modCore_memWf_same (flushBufs_memWf hs) rfl

theorem flushFx_memWf {s : State} {g : VAgent} {core ctx : Nat} (hs : s.memWf = true) :
    (flushFx s g core ctx).memWf = true := by
  unfold flushFx
  split
  · exact flushBufs_memWf hs
  · exact hs

theorem portStore_memWf {s t : State} {g : VAgent} {core node ctx va n x fe : Nat} (hs : s.memWf = true)
    (he : portStore s g core node ctx va n x fe = .ok t) : t.memWf = true := by
  grind [portStore, setFull_memWf, scratchWrite_memWf, flushFx_memWf, locateV_memWf, bufferStore_memWf,
    writePlace_memWf]

theorem store4_memWf {s t : State} {g : VAgent} {record : Bool} {va x : Nat} (hs : s.memWf = true)
    (he : store4 s g record va x = .ok t) : t.memWf = true := by
  grind [store4, locateV_memWf, writePlace_memWf]

theorem storeV_memWf {g : VAgent} {record : Bool} {n va : Nat} {bs : List Byte} {s t : State} (hs : s.memWf = true)
    (he : storeV g record n va bs s = .ok t) : t.memWf = true := by
  induction n generalizing s va bs with
  | zero => cases he; exact hs
  | succ n ih =>
    unfold storeV at he
    split at he
    · cases he
    · rename_i h4
      exact ih (store4_memWf hs h4) he

theorem writeRecord_memWf {s t : State} {x : CombCtx} {st : SlotState} {whole : Bool} (hs : s.memWf = true)
    (he : writeRecord s x st whole = .ok t) : t.memWf = true := by
  grind [writeRecord, storeV_memWf]

theorem loadImage_memWf {s t : State} {g : VAgent} {va x : Nat} {m : Image} (hs : s.memWf = true)
    (he : loadImage s g va = .ok (x, m, t)) : t.memWf = true := by
  unfold loadImage at he
  dsimp only at he
  split at he
  · cases he
  · rename_i h1
    have hu := recordV_memWf hs h1
    split at he
    · cases he
    · rename_i h2
      cases he
      exact recordV_memWf hu h2

theorem restoreCtx_memWf {s t : State} {f : FSlot} {x y : CombCtx} (hs : s.memWf = true)
    (he : restoreCtx s f x = .ok (y, t)) : t.memWf = true := by
  unfold restoreCtx at he
  dsimp only at he
  split at he
  · cases he
  · rename_i h1
    have h1 := recordV_memWf hs h1
    split at he <;> cases he
    exact h1

theorem evictCtx_memWf {s t : State} {core : Nat} {x : CombCtx} (hs : s.memWf = true) (he : evictCtx s core x = .ok t) :
    t.memWf = true := by
  grind [evictCtx, writeRecord_memWf, State.dropCtx_memWf, State.modSlot_memWf]

theorem takeContext_memWf {s t : State} {core lg x : Nat} (hs : s.memWf = true)
    (he : takeContext s core lg = some (x, t)) : t.memWf = true := by
  unfold takeContext at he
  dsimp only at he
  split at he
  · cases he; exact hs
  · obtain ⟨c, _, hc⟩ := List.exists_of_findSome?_eq_some he
    split at hc
    · rename_i hv
      cases hc
      exact evictCtx_memWf hs hv
    · cases hc

theorem loadSlot_memWf {s t : State} {k : Nat} {n : BitVec 5} (hs : s.memWf = true)
    (he : loadSlot s k n = .ok (some t)) : t.memWf = true := by
  unfold loadSlot at he
  dsimp only at he
  split at he
  · cases he
  · rename_i u hu
    have hu : u.memWf = true := by
      split at hu
      · exact evictCtx_memWf hs hu
      · cases hu; exact hs
    split at he
    · cases he
    · rename_i hl
      have hl := loadImage_memWf hu hl
      split at he
      · cases he
      · split at he
        · cases he
        · split at he
          · cases he
          · rename_i ht
            have ht := takeContext_memWf hl ht
            split at he
            · cases he
            · rename_i v hv
              have hv : v.memWf = true := by
                split at hv
                · exact restoreCtx_memWf ht hv
                · cases hv; exact ht
              cases he
              exact State.modCore_memWf_same hv rfl

theorem setTags_memWf {s : State} {k : Nat} {p : QEntry → Bool} {g : Option Tags} (hs : s.memWf = true) :
    (setTags s k p g).memWf = true := State.modStrand_memWf hs

theorem stopFx_memWf {s : State} {core : Nat} {x : CombCtx} (hs : s.memWf = true) :
    (stopFx s core x).1.memWf = true := by
  grind [stopFx, freePorts_memWf, flushCtx_memWf, State.modStrand_memWf, setTags_memWf, State.modSlot_memWf,
    writeRecord_memWf, State.putCtx_memWf]

theorem stopFxs_memWf {s : State} {k : Nat} (hs : s.memWf = true) : (stopFxs s k).memWf = true :=
  foldl_memWf (fun _ _ => stopFx_memWf) _ hs

theorem startFx_memWf {s : State} {k : Nat} {n : BitVec 5} {o : XFmt} {x : Work} {a : Part} (hs : s.memWf = true) :
    (startFx s k n o x a).memWf = true := by
  grind [startFx, State.modSlot_memWf, setTags_memWf, State.putCtx_memWf, stopFx_memWf, takePorts_memWf,
    State.modStrand_memWf, Ran.memWf]

theorem finishFx_memWf {s : State} {core : Nat} {x : CombCtx} {st : SlotState} {count : Nat} (hs : s.memWf = true) :
    (finishFx s core x st count).memWf = true :=
  State.putCtx_memWf (State.modSlot_memWf (State.modStrand_memWf (freePorts_memWf (flushCtx_memWf hs))))

theorem readPatch_memWf {s t : State} {g : VAgent} {va : Nat} {mask : BitVec 16} {l : List (Nat × Word)}
    (hs : s.memWf = true) (he : readPatch s g va = .ok (mask, l, t)) : t.memWf = true := by
  unfold readPatch at he
  dsimp only at he
  split at he
  · cases he
  · rename_i h1
    have h1 := recordV_memWf hs h1
    split at he
    · cases he
    · rename_i h2
      cases he
      exact recordV_memWf h1 h2

theorem applyPatch_memWf {s t : State} {core : Nat} {x : CombCtx} {l : List (Nat × Word)} (hs : s.memWf = true)
    (he : applyPatch s core x l = .ok t) : t.memWf = true := by
  unfold applyPatch at he
  dsimp only at he
  split at he
  · cases he
  · rename_i hw
    cases he
    refine State.modCore_memWf_same (List.foldlRecOn _ _ (motive := LeavesWf) (leavesWf_ok hs) (fun r hr d _ => ?_) _ hw) rfl
    cases r with
    | error e => exact leavesWf_error
    | ok s => exact fun t => storeV_memWf (hr s rfl)

theorem abandon_memWf {s : State} {core : Nat} {x : CombCtx} {mask : BitVec 16} (hs : s.memWf = true) :
    (abandon s core x mask).2.memWf = true := by
  grind [abandon, State.modSlot_memWf, State.putCtx_memWf]

theorem runFcfg_memWf {s : State} {k : Nat} {o : XFmt} {x : Work} {a : Part} (hs : s.memWf = true) :
    (runFcfg s k o x a).memWf = true := by
  unfold runFcfg
  dsimp only
  split
  · exact hs
  · split
    · exact hs
    · split
      · rfl
      · split
        · exact hs
        · rename_i c _ _ mask l u hp
          have hu := readPatch_memWf hs hp
          split
          · exact hu
          · split
            · exact hu
            · have done {core : Nat} {d : CombCtx} {v : State} (hv : v.memWf = true) : Ran.memWf
                  (match applyPatch v core d l with
                    | .ok s => .ok s a
                    | .error t => .trap t false (v.putCtx core { d with closed := 0 }) a) = true := by
                split
                · rename_i ha
                  exact applyPatch_memWf hv ha
                · exact State.putCtx_memWf hv
              split
              · exact done (abandon_memWf hu)
              · split
                · exact done hu
                · split
                  · exact setTags_memWf (State.putCtx_memWf hu)
                  · exact State.putCtx_memWf hu

theorem releaseSlot_memWf {s : State} {k : Nat} {n : BitVec 5} (hs : s.memWf = true) :
    (releaseSlot s k n).memWf = true := by
  grind [releaseSlot, State.dropCtx_memWf, freePorts_memWf, flushCtx_memWf, State.modSlot_memWf]

theorem undoBindings_memWf {s : State} {k : Nat} (hs : s.memWf = true) : (undoBindings s k).memWf = true :=
  foldl_memWf (fun _ _ => releaseSlot_memWf) _ hs

theorem adoptedState_memWf {s t : State} {g : VAgent} {n : BitVec 5} {m : Image} {area x y : Nat} {st : SlotState}
    (hs : s.memWf = true) (he : adoptedState s g n m area = .ok (st, x, y, t)) : t.memWf = true := by
  unfold adoptedState at he
  dsimp only at he
  split at he
  · cases he
  · rename_i h1
    have h1 := recordV_memWf hs h1
    split at he
    · split at he <;> cases he <;> exact h1
    · cases he; exact h1

theorem runFbind_memWf {s : State} {k : Nat} {o : XFmt} {x : Work} {a : Part} (hs : s.memWf = true) :
    (runFbind s k o x a).memWf = true := by
  unfold runFbind
  dsimp only
  split
  · exact hs
  · split
    · exact hs
    · rename_i hl
      have hl := loadImage_memWf hs hl
      split
      · exact hs
      · split
        · exact hs
        · split
          · exact hs
          · split
            · exact hs
            · split
              · exact hs
              · rename_i u hu
                have hu : u.memWf = true := by
                  split at hu
                  · exact adoptedState_memWf hl hu
                  · cases hu; exact hl
                have hr {n : Nat} : ({ releaseSlot u k (o.imm.extractLsb' 0 5) with nextCmd := n } : State).memWf = true :=
                  memWf_congr rfl rfl (releaseSlot_memWf hu)
                split
                · split
                  · rename_i hv
                    exact loadSlot_memWf (State.modSlot_memWf hr) hv
                  · exact State.modSlot_memWf hr
                · exact State.modSlot_memWf hr

theorem onSlot_memWf {s : State} {k : Nat} {n : BitVec 5} {a : Part} {f : Ran} (hs : s.memWf = true)
    (hf : f.memWf = true) : (onSlot s k n a f).memWf = true := by
  unfold onSlot
  split
  · exact hf
  · exact hs

theorem pinCtx_memWf {s : State} {core : Nat} {c : CombCtx} {a : Part} (hs : s.memWf = true) :
    (pinCtx s core c a).memWf = true := by
  grind [pinCtx, State.putCtx_memWf, Ran.memWf]

theorem runComb_memWf {i : Instr} {s : State} {k : Nat} {x : Work} {a : Part} (hs : s.memWf = true) :
    (runComb i s k x a).memWf = true := by
  unfold runComb
  split
  · exact runFbind_memWf hs
  · exact releaseSlot_memWf hs
  · exact startFx_memWf hs
  · exact runFcfg_memWf hs
  · refine onSlot_memWf hs ?_
    cases s.resident k _ with
    | none => exact hs
    | some c => exact flushCtx_memWf hs
  · exact onSlot_memWf hs hs
  · refine onSlot_memWf hs ?_
    split
    · exact hs
    · rfl
  · refine onSlot_memWf hs ?_
    split
    · exact pinCtx_memWf hs
    · rfl
  · refine onSlot_memWf hs ?_
    cases s.resident k _ with
    | none => exact hs
    | some c => exact State.putCtx_memWf hs
  · refine onSlot_memWf hs ?_
    split
    · split
      · rename_i hv
        exact evictCtx_memWf hs hv
      · exact hs
    · exact hs
  · rfl

/-! ## The queue -/

theorem runVpush_memWf {o : XFmt} {s : State} {k : Nat} {x : Work} {a : Part} (hs : s.memWf = true) :
    (runVpush o s k x a).memWf = true := by
  grind [runVpush, releaseL1_memWf, State.modStrand_memWf, Ran.memWf]

theorem runVwaitf_memWf {o : XFmt} {s : State} {k : Nat} {x : Work} {a : Part} (hs : s.memWf = true) :
    (runVwaitf o s k x a).memWf = true := by
  grind [runVwaitf, acquireL1_memWf, State.modStrand_memWf, Ran.memWf]

theorem runItem_memWf {i : Instr} {s : State} {k : Nat} {x : Work} {a : Part} (hs : s.memWf = true) :
    (runItem i s k x a).memWf = true := by
  unfold runItem
  split
  case h_48 => exact runVld_memWf hs
  case h_49 => exact runVst_memWf hs
  case h_50 => exact runVldx_memWf hs
  case h_51 => exact runVstx_memWf hs
  case h_52 => exact runVamo_memWf hs
  case h_53 => exact runVldfe_memWf hs
  case h_54 => exact runVpf_memWf hs
  case h_55 => exact runSbind_memWf hs
  case h_56 => exact runSset_memWf hs
  case h_57 => exact runSget_memWf hs
  case h_58 => exact runSadv_memWf hs
  case h_59 => exact runVpush_memWf hs
  case h_60 => exact runVwaitf_memWf hs
  case h_61 => exact runTmode_memWf hs
  case h_62 => exact runTopa_memWf hs
  case h_63 => exact runTops_memWf hs
  case h_64 => exact runTzero_memWf hs
  case h_65 => exact runTrd_memWf hs
  case h_66 => exact runTwr_memWf hs
  case h_67 => exact runTscl_memWf hs
  case h_68 => exact runComb_memWf hs
  all_goals exact hs

theorem runItem_hold_memWf {i : Instr} {s t : State} {k : Nat} {x : Work} {a : Part} (hs : s.memWf = true)
    (he : runItem i s k x a = .hold t) : t.memWf = true := by
  have := runItem_memWf (i := i) (k := k) (x := x) (a := a) hs
  rwa [he] at this

theorem runItem_ok_memWf {i : Instr} {s t : State} {k : Nat} {x : Work} {a b : Part} (hs : s.memWf = true)
    (he : runItem i s k x a = .ok t b) : t.memWf = true := by
  have := runItem_memWf (i := i) (k := k) (x := x) (a := a) hs
  rwa [he] at this

theorem runItem_trap_memWf {i : Instr} {s t : State} {k : Nat} {x : Work} {a b : Part} {tr : Trap} {u : Bool}
    (hs : s.memWf = true) (he : runItem i s k x a = .trap tr u t b) : t.memWf = true := by
  have := runItem_memWf (i := i) (k := k) (x := x) (a := a) hs
  rwa [he] at this

theorem countWork_memWf {s : State} {hive : Nat} {i : Instr} {x : Shape} {e : QEntry} (hs : s.memWf = true) :
    (countWork s hive i x e).memWf = true := by
  unfold countWork
  split
  · exact State.modHive_memWf hs
  · split
    · exact State.modHive_memWf hs
    · exact hs

theorem passFence_memWf {s : State} {k : Nat} {e : QEntry} (hs : s.memWf = true) : (passFence s k e).memWf = true := by
  unfold passFence
  cases e.fence with
  | none => exact hs
  | some sc => exact acquireL1_memWf hs

theorem retireHead_memWf {s : State} {k : Nat} {i : Instr} {e : QEntry} {x : Shape} {a : Part} (hs : s.memWf = true) :
    (retireHead s k i e x a).memWf = true := by
  unfold retireHead
  dsimp only
  split
  · exact State.modStrand_memWf (foldl_memWf (fun _ _ => requestWalks_memWf) _ (passFence_memWf
    (State.modStrand_memWf (countWork_memWf hs))))
  · exact foldl_memWf (fun _ _ => requestWalks_memWf) _ (passFence_memWf (State.modStrand_memWf (countWork_memWf hs)))

theorem modTags_memWf {s : State} {k j : Nat} {f : Tags → Tags} (hs : s.memWf = true) :
    (modTags s k j f).memWf = true := State.modStrand_memWf hs

theorem setEntry_memWf {s : State} {k j : Nat} {e : QEntry} (hs : s.memWf = true) :
    (setEntry s k j e).memWf = true := State.modStrand_memWf hs

theorem passTurn_memWf {s : State} {k : Nat} (hs : s.memWf = true) : (passTurn s k).memWf = true :=
  State.modCore_memWf_same hs rfl

theorem leaveAt_memWf {s : State} {k j : Nat} (hs : s.memWf = true) : (leaveAt s k j).memWf = true := by
  grind [leaveAt, leaveUnit_memWf, modTags_memWf, State.modStrand_memWf]

theorem finishUnit_memWf {s : State} {k : Nat} (hs : s.memWf = true) : (finishUnit s k).memWf = true := by
  unfold finishUnit
  cases inUnitAt (s.strand k) with
  | none => exact hs
  | some j => exact leaveAt_memWf hs

theorem finishTaken_memWf {s : State} {k : Nat} (hs : s.memWf = true) : (finishTaken s k).memWf = true :=
  State.setStrand_memWf (finishUnit_memWf hs)

theorem trapAtHead_memWf {s : State} {k : Nat} {tr : Trap} {underM7 : Bool} (hs : s.memWf = true) :
    (trapAtHead s k tr underM7).memWf = true := raiseQueued_memWf (finishTaken_memWf (stopFxs_memWf hs))

theorem runHead_memWf {s : State} {k : Nat} (hs : s.memWf = true) : (runHead s k).memWf = true := by
  unfold runHead
  dsimp only
  split
  · rfl
  · split
    · exact trapAtHead_memWf hs
    · split
      · exact trapAtHead_memWf hs
      · split
        · split
          · exact retireHead_memWf hs
          · split
            · split
              · split
                · rename_i hr
                  exact retireHead_memWf (runItem_ok_memWf hs hr)
                · rename_i hr
                  exact trapAtHead_memWf (State.modStrand_memWf (runItem_trap_memWf hs hr))
                · rfl
              · rfl
            · rfl
        · split
          · rfl
          · split
            · exact trapAtHead_memWf hs
            · split
              · exact retireHead_memWf hs
              · split
                · rfl
                · split
                  · rfl
                  · rename_i hr
                    exact runItem_hold_memWf hs hr
                  · rename_i hr
                    have hr := runItem_ok_memWf hs hr
                    refine retireHead_memWf ?_
                    split
                    · exact passTurn_memWf hr
                    · exact hr
                  · rename_i hr
                    exact trapAtHead_memWf (State.modStrand_memWf (runItem_trap_memWf hs hr))

theorem runHead_began_memWf {s t : State} {k : Nat} (hs : s.memWf = true) (he : runHead s k = .began t) :
    t.memWf = true := by
  have := runHead_memWf (k := k) hs
  rwa [he] at this

theorem runHead_left_memWf {s t : State} {k : Nat} (hs : s.memWf = true) (he : runHead s k = .left t) :
    t.memWf = true := by
  have := runHead_memWf (k := k) hs
  rwa [he] at this

theorem drain_memWf {n : Nat} {s : State} {k : Nat} (hs : s.memWf = true) : (drain n s k).memWf = true := by
  induction n generalizing s with
  | zero => exact hs
  | succ n ih =>
    unfold drain
    split
    · exact hs
    · split
      · exact hs
      · rename_i hr
        exact runHead_began_memWf hs hr
      · rename_i hr
        exact ih (runHead_left_memWf hs hr)

theorem startBehind_memWf {s t : State} {k j : Nat} (hs : s.memWf = true) (he : startBehind s k j = some t) :
    t.memWf = true := by
  unfold startBehind at he
  dsimp only at he
  split at he
  · cases he
  · split at he
    · cases he
    · split at he
      · cases he
      · split at he
        · split at he
          · rename_i hr
            cases he
            exact runItem_hold_memWf hs hr
          · rename_i hr
            split at he <;> cases he
            exact State.modStrand_memWf (setEntry_memWf (runItem_ok_memWf hs hr))
          · cases he
        · cases he

theorem startMore_memWf {n : Nat} {s : State} {k : Nat} (hs : s.memWf = true) : (startMore n s k).memWf = true := by
  induction n generalizing s with
  | zero => exact hs
  | succ n ih =>
    unfold startMore
    split
    · rename_i hb
      obtain ⟨j, _, hb⟩ := Option.bind_eq_some_iff.mp hb
      exact ih (startBehind_memWf hs hb)
    · exact hs

theorem settleQueue_memWf {s : State} {k : Nat} (hs : s.memWf = true) : (settleQueue s k).memWf = true := by
  unfold settleQueue
  split
  · exact startMore_memWf (drain_memWf hs)
  · exact hs

theorem trapAtEnqueue_memWf {s : State} {e : QEntry} {tr : Trap} (hs : s.memWf = true) :
    (trapAtEnqueue s e tr).memWf = true := raiseQueued_memWf (State.modMe_memWf hs)

theorem append_memWf {s : State} {i : Instr} {e : QEntry} (hs : s.memWf = true) : (append s i e).memWf = true :=
  State.modMe_memWf hs

theorem enqueue_memWf {i : Instr} {s t : State} (hs : s.memWf = true) (he : enqueue i s = .next t) : t.memWf = true := by
  unfold enqueue at he
  split at he
  · cases he; exact hs
  · refine scalarWait_memWf hs (fun u hu => ?_) he
    dsimp only at hu
    split at hu
    · split at hu <;> cases hu
      exact trapAtEnqueue_memWf hs
    · split at hu <;> cases hu
      exact settleQueue_memWf (append_memWf hs)

/-! ## The window -/

theorem countTags_memWf {s : State} {k n : Nat} (hs : s.memWf = true) : (countTags s k n).memWf = true :=
  State.modCore_memWf_same hs rfl

theorem setTurn_memWf {s : State} {k past : Nat} (hs : s.memWf = true) : (setTurn s k past).memWf = true :=
  State.modCore_memWf_same hs rfl

theorem giveWindow_memWf {s : State} {k j : Nat} {e : QEntry} {i : Instr} {x : Shape} (hs : s.memWf = true) :
    (giveWindow s k j e i x).memWf = true := by
  unfold giveWindow
  dsimp only
  split
  · split
    · rename_i hr
      exact countTags_memWf (setEntry_memWf (runItem_ok_memWf hs hr))
    · rename_i hr
      exact trapAtHead_memWf (State.modStrand_memWf (runItem_trap_memWf hs hr))
    · exact hs
  · exact countTags_memWf (setEntry_memWf hs)

theorem giveTags_memWf {s : State} {k : Nat} (hs : s.memWf = true) : (giveTags s k).memWf = true := by
  unfold giveTags
  split
  · exact hs
  · split
    · exact giveWindow_memWf hs
    · split
      · split
        · exact hs
        · rename_i hr
          exact countTags_memWf (runHead_began_memWf hs hr)
        · rename_i hr
          exact countTags_memWf (runHead_left_memWf hs hr)
      · cases hb : startBehind s k _ with
        | none => exact hs
        | some t => exact countTags_memWf (startBehind_memWf hs hb)

theorem allocate_memWf {s : State} {k : Nat} (hs : s.memWf = true) : (allocate s k).memWf = true := by
  unfold allocate
  split
  · exact hs
  · split
    · exact hs
    · split
      · exact giveTags_memWf (setTurn_memWf hs)
      · exact setTurn_memWf hs

theorem moveHead_memWf {s : State} {k : Nat} (hs : s.memWf = true) : (moveHead s k).memWf = true := by
  unfold moveHead
  dsimp only
  split
  · exact hs
  · split
    · exact settleQueue_memWf hs
    · split
      · split
        · exact hs
        · rename_i hr
          exact runHead_began_memWf hs hr
        · rename_i hr
          exact runHead_left_memWf hs hr
      · exact allocate_memWf hs

theorem execQueueHeadTagAllocation_memWf {st : Nat} {s t : State} (hs : s.memWf = true)
    (he : execQueueHeadTagAllocation st s = .next t) : t.memWf = true := by
  grind [execQueueHeadTagAllocation, moveHead_memWf]

theorem execMicroOperationIssue_memWf {core lg : Nat} {s t : State} (hs : s.memWf = true)
    (he : execMicroOperationIssue core lg s = .next t) : t.memWf = true := by
  grind [execMicroOperationIssue, foldl_memWf, State.modStrand_memWf, State.modHive_memWf]

theorem egRun_memWf {s : State} {k j : Nat} {rest : Bool} {e : QEntry} {x : Shape} {g : Tags} {r : Ran}
    (hs : s.memWf = true) (he : egRun s k j rest = some (e, x, g, r)) : r.memWf = true := by
  unfold egRun at he
  obtain ⟨y, _, he⟩ := Option.map_eq_some_iff.mp he
  cases he
  split
  · exact hs
  · exact runItem_memWf hs

theorem producedEg_memWf {s : State} {k j : Nat} {e : QEntry} {g : Tags} {a : Part} (hs : s.memWf = true) :
    (producedEg s k j e g a).memWf = true := setEntry_memWf hs

theorem produceAt_memWf {s t : State} {k j : Nat} (hs : s.memWf = true) (he : produceAt s k j = some t) :
    t.memWf = true := by
  unfold produceAt at he
  split at he
  · cases he; exact modTags_memWf hs
  · split at he
    · rename_i hr
      cases he
      exact producedEg_memWf (egRun_memWf hs hr)
    · split at he
      · split at he
        · rename_i hr
          cases he
          exact trapAtHead_memWf (State.modStrand_memWf (egRun_memWf hs hr))
        · cases he
      · cases he
    · cases he

theorem retireDone_memWf {n : Nat} {s : State} {k : Nat} (hs : s.memWf = true) : (retireDone n s k).memWf = true := by
  induction n generalizing s with
  | zero => exact hs
  | succ n ih =>
    unfold retireDone
    split
    · exact hs
    · split
      · split
        · rename_i hr
          exact ih (runHead_left_memWf hs hr)
        · exact hs
      · exact hs

theorem execEgProduced_memWf {st : Nat} {s t : State} (hs : s.memWf = true) (he : execEgProduced st s = .next t) :
    t.memWf = true := by
  grind [execEgProduced, produceAt_memWf, retireDone_memWf]

theorem reachAt_memWf {s t : State} {k : Nat} {e : QEntry} {i : Instr} {x : Shape} {j : Nat} {y : Scales}
    (hs : s.memWf = true) (he : reachAt s k e i x j = .ok (y, t)) : t.memWf = true := by
  grind [reachAt, reachUnit_memWf]

theorem takeAt_memWf {s : State} {k j : Nat} {e : QEntry} {i : Instr} {x : Shape} {sc : Scales} (hs : s.memWf = true) :
    (takeAt s k j e i x sc).memWf = true := passTurn_memWf (modTags_memWf hs)

theorem execMatrixUnitTake_memWf {core : Nat} {s t : State} (hs : s.memWf = true)
    (he : execMatrixUnitTake core s = .next t) : t.memWf = true := by
  cases he
  split
  · exact hs
  · split
    · exact hs
    · split
      · exact hs
      · split
        · exact trapAtHead_memWf hs
        · rename_i hr
          exact takeAt_memWf (reachAt_memWf hs hr)

theorem execMatrixUnitLeave_memWf {core : Nat} {s t : State} (hs : s.memWf = true)
    (he : execMatrixUnitLeave core s = .next t) : t.memWf = true := by
  cases he
  cases leaver s core with
  | none => exact hs
  | some p => exact retireDone_memWf (leaveAt_memWf hs)

theorem execTrapDelivery_memWf {st : Nat} {s t : State} (hs : s.memWf = true) (he : execTrapDelivery st s = .next t) :
    t.memWf = true := by
  grind [execTrapDelivery, raiseQueued_memWf, State.modStrand_memWf, deliver_memWf]

theorem runHeadOf_memWf {s : State} {k : Nat} {kind : Instr → Bool} (hs : s.memWf = true) :
    (runHeadOf s k kind).memWf = true := by
  unfold runHeadOf
  split
  · split
    · split
      · exact moveHead_memWf hs
      · exact hs
    · exact hs
  · exact hs

theorem execVpushTransfer_memWf {st : Nat} {s t : State} (hs : s.memWf = true) (he : execVpushTransfer st s = .next t) :
    t.memWf = true := by
  grind [execVpushTransfer, runHeadOf_memWf]

theorem execVwaitfFill_memWf {st : Nat} {s t : State} (hs : s.memWf = true) (he : execVwaitfFill st s = .next t) :
    t.memWf = true := by
  grind [execVwaitfFill, runHeadOf_memWf]

theorem execVldfeWake_memWf {st : Nat} {s t : State} (hs : s.memWf = true) (he : execVldfeWake st s = .next t) :
    t.memWf = true := by
  grind [execVldfeWake, runHeadOf_memWf]

theorem execFdrainComplete_memWf {st : Nat} {s t : State} (hs : s.memWf = true)
    (he : execFdrainComplete st s = .next t) : t.memWf = true := by
  grind [execFdrainComplete, settleQueue_memWf, allocate_memWf, runHeadOf_memWf]

/-! ## Launch and barriers -/

theorem startTask_memWf {s : State} {t : Strand} (hs : s.memWf = true) : (startTask s t).memWf = true := by
  unfold startTask
  split
  · exact State.modRing_memWf hs
  · exact hs

theorem placeStrand_memWf {s : State} {k : Nat} {p : Nat × Nat × Nat × Nat} (hs : s.memWf = true) :
    (placeStrand s k p).memWf = true := by
  grind [placeStrand, startTask_memWf, acquireL1_memWf, State.modStrand_memWf]

theorem placeInOrder_memWf {x : ShareRef} {n : Nat} {s : State} (hs : s.memWf = true) : (placeInOrder x n s).memWf = true := by
  induction n generalizing s with
  | zero => exact hs
  | succ n ih =>
    unfold placeInOrder
    dsimp only
    split
    · exact hs
    · exact ih (placeStrand_memWf (foldl_memWf (fun _ _ => State.modStrand_memWf) _ hs))

theorem placeShare_memWf {s : State} {x : ShareRef} (hs : s.memWf = true) : (placeShare s x).memWf = true :=
  placeInOrder_memWf hs

theorem execStrandPlacement_memWf {core lg : Nat} {s t : State} (hs : s.memWf = true)
    (he : execStrandPlacement core lg s = .next t) : t.memWf = true := by
  grind [execStrandPlacement, placeShare_memWf]

theorem waitOn_memWf {s : State} {k : Nat} {x : ShareRef} (hs : s.memWf = true) : (waitOn s k x).memWf = true :=
  State.modStrand_memWf hs

theorem launchOne_memWf {s : State} {hive id gang r i : Nat} {shares : List ShareRef} (hs : s.memWf = true) :
    (launchOne s hive id gang r i shares).memWf = true := by
  unfold launchOne
  dsimp only
  split
  · exact placeShare_memWf (waitOn_memWf hs)
  · exact hs

theorem launchGang_memWf {s : State} {hive gang r : Nat} {shares : List ShareRef} (hs : s.memWf = true) :
    (launchGang s hive gang r shares).memWf = true := foldl_memWf (fun _ _ => launchOne_memWf) _ hs

theorem launch_memWf {single : Bool} {i : Instr} {o : GFmt} {s t : State} (hs : s.memWf = true)
    (he : launch single i o s = .next t) : t.memWf = true := by
  unfold launch at he
  refine scalar_memWf hs (fun u hu => ?_) he
  clear he
  grind [bind_eq_ok, pure_eq_ok, throw_ne_ok, loadRecord_memWf, State.modHive_memWf, releaseL1_memWf,
    State.finish_memWf, launchGang_memWf]

theorem depart_memWf {s : State} {k : Nat} (hs : s.memWf = true) : (depart s k).memWf = true :=
  completeAt_memWf (State.modStrand_memWf hs)

theorem completeBarrier_memWf {s : State} {hive : Nat} {gang : BitVec 32} (hs : s.memWf = true) :
    (completeBarrier s hive gang).memWf = true := by
  grind [completeBarrier, foldl_memWf, depart_memWf]

theorem arrive_memWf {s : State} {k : Nat} (hs : s.memWf = true) : (arrive s k).memWf = true :=
  State.modStrand_memWf (releaseL1_memWf (acquireL1_memWf hs))

theorem execGbar_memWf {o : GFmt} {s t : State} (hs : s.memWf = true) (he : execGbar o s = .next t) :
    t.memWf = true := by
  unfold execGbar at he
  refine scalar_memWf hs (fun u hu => ?_) he
  grind [completeAt_memWf, State.block_memWf, State.modMe_memWf, completeBarrier_memWf, arrive_memWf]

theorem execGbarComplete_memWf {hive : Nat} {gang : BitVec 32} {s t : State} (hs : s.memWf = true)
    (he : execGbarComplete hive gang s = .next t) : t.memWf = true := by
  grind [execGbarComplete, foldl_memWf, arrive_memWf, completeBarrier_memWf]

theorem execGwait_memWf {o : GFmt} {s t : State} (hs : s.memWf = true) (he : execGwait o s = .next t) :
    t.memWf = true := by
  unfold execGwait at he
  refine scalar_memWf hs (fun u hu => ?_) he
  clear he
  grind [bind_eq_ok, pure_eq_ok, throw_ne_ok, State.block_memWf, State.advance_memWf, acquireL1_memWf]

theorem execGwaitComplete_memWf {st : Nat} {s t : State} (hs : s.memWf = true) (he : execGwaitComplete st s = .next t) :
    t.memWf = true := by
  refine wake_memWf hs (fun i s t hs he => ?_) he
  split at he
  · exact execGwait_memWf hs he
  · cases he; exact hs

theorem endStrand_memWf {s : State} {k : Nat} (hs : s.memWf = true) : (endStrand s k).memWf = true :=
  State.modStrand_memWf (undoBindings_memWf hs)

/-! ## Pre-emption and resumption -/

theorem saveAway_memWf {s : State} {k saveKind : Nat} (hs : s.memWf = true) : (saveAway s k saveKind).memWf = true := by
  unfold saveAway
  dsimp only
  split
  · split
    · exact State.modStrand_memWf (writeEntry_memWf (State.modStrand_memWf (unpin_memWf (releaseL1_memWf
      (State.modStrand_memWf (State.modHive_memWf (traceRecord_memWf hs)))))))
    · exact suspendWith_memWf (State.modStrand_memWf (State.modHive_memWf (traceRecord_memWf hs)))
  · exact State.modStrand_memWf (State.modHive_memWf (traceRecord_memWf hs))

theorem finishEntry_memWf {n : Nat} {s : State} {k j : Nat} (hs : s.memWf = true) : (finishEntry n s k j).1.memWf = true := by
  induction n generalizing s with
  | zero => exact hs
  | succ n ih =>
    unfold finishEntry
    dsimp only
    split
    · exact hs
    · split
      · exact hs
      · split
        · rename_i hr
          exact ih (producedEg_memWf (egRun_memWf hs hr))
        · split
          · split
            · rename_i hr
              exact State.modStrand_memWf (egRun_memWf hs hr)
            · exact hs
          · exact hs
        · exact hs

theorem finishUops_memWf {s : State} {k : Nat} (hs : s.memWf = true) : (finishUops s k).1.memWf = true := by
  unfold finishUops
  refine foldl_fst_memWf (fun r j hr => ?_) _ hs
  exact finishEntry_memWf hr

theorem fullSaveNow_memWf {s : State} {k : Nat} (hs : s.memWf = true) : (fullSaveNow s k).memWf = true :=
  saveAway_memWf (State.setStrand_memWf (finishUnit_memWf (stopFxs_memWf (retireDone_memWf (finishUops_memWf hs)))))

theorem requestPreempt_memWf {s : State} {k kind : Nat} {firmware : Bool} (hs : s.memWf = true) :
    (requestPreempt s k kind firmware).memWf = true := by
  unfold requestPreempt
  dsimp only
  split
  · exact fullSaveNow_memWf (State.modStrand_memWf hs)
  · exact State.modStrand_memWf hs

theorem execYieldwinExpiry_memWf {st : Nat} {s t : State} (hs : s.memWf = true)
    (he : execYieldwinExpiry st s = .next t) : t.memWf = true := by
  grind [execYieldwinExpiry, fullSaveNow_memWf]

theorem execFullSave_memWf {st : Nat} {s t : State} (hs : s.memWf = true) (he : execFullSave st s = .next t) :
    t.memWf = true := by
  grind [execFullSave, fullSaveNow_memWf]

theorem execYield_memWf {o : GFmt} {s t : State} (hs : s.memWf = true) (he : execYield o s = .next t) :
    t.memWf = true := by
  unfold execYield at he
  refine scalarWait_memWf hs (fun u hu => ?_) he
  grind [State.finish_memWf, saveAway_memWf, State.modMe_memWf]

theorem afterAway_memWf {s : State} {k : Nat} (hs : s.memWf = true) : (afterAway s k).memWf = true := by
  unfold afterAway
  split
  · exact completeAt_memWf hs
  · exact hs

theorem execResumption_memWf {st : Nat} {s t : State} (hs : s.memWf = true) (he : execResumption st s = .next t) :
    t.memWf = true := by
  grind [execResumption, chargeEntry_memWf, acquireL1_memWf, refillLook_memWf, State.setStrand_memWf,
    afterAway_memWf, traceRecord_memWf, settleQueue_memWf]

/-! ## Rings -/

theorem State.modSession_memWf {s : State} {r n : Nat} {f : Session → Session} (hs : s.memWf = true) :
    (s.modSession r n f).memWf = true := State.modRing_memWf hs

theorem State.setSlot_memWf {s : State} {r : Nat} {fam : Bool} {pos : Nat} {t : Option Tile} (hs : s.memWf = true) :
    (s.setSlot r fam pos t).memWf = true := State.modRing_memWf hs

theorem State.modEntry_memWf {s : State} {r pos idx : Nat} {f : PairEntry → PairEntry} (hs : s.memWf = true) :
    (s.modEntry r pos idx f).memWf = true := State.modRing_memWf hs

theorem State.modPads_memWf {s : State} {r pos : Nat} {f : List Pad → List Pad} (hs : s.memWf = true) :
    (s.modPads r pos f).memWf = true := State.modRing_memWf hs

theorem storeDone_memWf {s : State} {r n x : Nat} (hs : s.memWf = true) : (storeDone s r n x).memWf = true := by
  unfold storeDone
  dsimp only
  split
  · rename_i he
    exact storeW_memWf hs he
  · exact hs

theorem sessionFault_memWf {s : State} {r n : Nat} {state : SessState} {cause : Cause} {status : Nat}
    {val info : Word} (hs : s.memWf = true) : (sessionFault s r n state cause status val info).memWf = true :=
  storeDone_memWf (State.modSession_memWf hs)

theorem waitDone_memWf {o : GFmt} {r n : Nat} {s : State} (hs : s.memWf = true) : (waitDone o r n s).memWf = true := by
  unfold waitDone
  dsimp only
  split
  · exact raise_memWf (acquireL1_memWf hs)
  · exact State.finish_memWf (acquireL1_memWf hs)

theorem execWgwait_memWf {o : GFmt} {s t : State} (hs : s.memWf = true) (he : execWgwait o s = .next t) :
    t.memWf = true := by
  unfold execWgwait at he
  refine scalar_memWf hs (fun u hu => ?_) he
  clear he
  grind [bind_eq_ok, pure_eq_ok, throw_ne_ok, State.finish_memWf, State.block_memWf, waitDone_memWf]

theorem execWgwaitWake_memWf {st : Nat} {s t : State} (hs : s.memWf = true) (he : execWgwaitWake st s = .next t) :
    t.memWf = true := by
  refine wake_memWf hs (fun i s t hs he => ?_) he
  split at he
  · dsimp only at he
    split at he
    · cases he; exact State.block_memWf hs
    · refine scalar_memWf hs (fun u hu => ?_) he
      cases hu
      exact waitDone_memWf hs
  · cases he; exact hs

theorem wakeWaiters_memWf {s : State} {r n : Nat} (hs : s.memWf = true) : (wakeWaiters s r n).memWf = true := by
  unfold wakeWaiters
  refine memWf_congr rfl rfl (foldl_memWf (fun s k hs => ?_) _ hs)
  split
  · split
    · rename_i he
      exact execWgwaitWake_memWf hs he
    · exact hs
  · exact hs

theorem execWgcfg_memWf {o : GFmt} {s t : State} (hs : s.memWf = true) (he : execWgcfg o s = .next t) :
    t.memWf = true := by
  unfold execWgcfg at he
  refine scalar_memWf hs (leavesWf_bind fun _ _ => leavesWf_bind fun _ _ => leavesWf_bind fun p hp => ?_) he
  have hp := loadRecord_memWf hs hp
  dsimp only
  split
  · exact leavesWf_throw
  refine leavesWf_bind fun _ _ => leavesWf_bind fun _ _ => leavesWf_bind fun _ _ => leavesWf_bind fun _ _ => ?_
  split
  · exact leavesWf_pure (State.finish_memWf hp)
  · refine leavesWf_bind fun u hu => leavesWf_pure (State.finish_memWf (State.modSession_memWf ?_))
    exact storeW_memWf (wakeWaiters_memWf hp) hu

theorem pairEntries_memWf {s t : State} {i : Instr} {base : Word} {first n : Nat} {x : List (Nat × PairEntry)}
    (hs : s.memWf = true) (he : pairEntries s i base first n = .ok (x, t)) : t.memWf = true := by
  induction n generalizing x t with
  | zero => cases he; exact hs
  | succ n ih => grind [pairEntries, bind_eq_ok, pure_eq_ok, loadRecord_memWf]

theorem execWgpair_memWf {o : GFmt} {s t : State} (hs : s.memWf = true) (he : execWgpair o s = .next t) :
    t.memWf = true := by
  unfold execWgpair at he
  refine scalar_memWf hs (fun u hu => ?_) he
  clear he
  grind [bind_eq_ok, pure_eq_ok, throw_ne_ok, pairEntries_memWf, State.modRing_memWf, foldl_memWf,
    State.advance_memWf]

theorem execWginj_memWf {o : GFmt} {s t : State} (hs : s.memWf = true) (he : execWginj o s = .next t) :
    t.memWf = true := by
  unfold execWginj at he
  refine scalarWait_memWf hs (fun u hu => ?_) he
  clear he
  grind [bind_eq_ok, pure_eq_ok, throw_ne_ok, State.block_memWf, releaseL1_memWf]

theorem endWaiting_memWf {s : State} {r n : Nat} (hs : s.memWf = true) : (endWaiting s r n).memWf = true := by
  grind [endWaiting, foldl_memWf, endStrand_memWf]

theorem discardTasks_memWf {s : State} {r n : Nat} (hs : s.memWf = true) : (discardTasks s r n).memWf = true :=
  foldl_memWf (fun _ _ hu => State.modPads_memWf (State.modRing_memWf hu)) _ (endWaiting_memWf hs)

theorem freeSession_memWf {s : State} {r n : Nat} (hs : s.memWf = true) : (freeSession s r n).memWf = true :=
  State.modSession_memWf (State.modRing_memWf hs)

theorem completeWaiters_memWf {s : State} {l : List RingWaiter} {x : Word} (hs : s.memWf = true) :
    (completeWaiters s l x).memWf = true := foldl_memWf (fun _ _ => completeAt_memWf) _ hs

theorem endSession_memWf {s : State} {r n status : Nat} (hs : s.memWf = true) :
    (endSession s r n status).memWf = true :=
  completeWaiters_memWf (freeSession_memWf (storeDone_memWf (State.modSession_memWf hs)))

theorem closeSession_memWf {s : State} {r n : Nat} (hs : s.memWf = true) : (closeSession s r n).memWf = true :=
  endSession_memWf (endWaiting_memWf hs)

theorem dropCloser_memWf {s : State} {r n : Nat} (hs : s.memWf = true) : (dropCloser s r n).memWf = true :=
  State.modSession_memWf hs

theorem execWgcfgClose_memWf {o : GFmt} {s t : State} (hs : s.memWf = true) (he : execWgcfgClose o s = .next t) :
    t.memWf = true := by
  unfold execWgcfgClose at he
  refine scalar_memWf hs (fun u hu => ?_) he
  clear he
  grind [bind_eq_ok, pure_eq_ok, throw_ne_ok, completeAt_memWf, State.advance_memWf, discardTasks_memWf,
    State.block_memWf, State.modSession_memWf, closeSession_memWf, dropCloser_memWf]

theorem execWgcfgCloseComplete_memWf {st : Nat} {s t : State} (hs : s.memWf = true)
    (he : execWgcfgCloseComplete st s = .next t) : t.memWf = true := by
  unfold execWgcfgCloseComplete at he
  split at he
  · cases he; exact closeSession_memWf hs
  · refine wake_memWf hs (fun i s t hs he => ?_) he
    split at he
    · exact execWgcfgClose_memWf hs he
    · cases he; exact hs

theorem dropHalves_memWf {s : State} {r n pos : Nat} {pick : PairEntry → Bool} (hs : s.memWf = true) :
    (dropHalves s r n pos pick).memWf = true := by
  unfold dropHalves
  refine foldl_memWf (fun s e hs => ?_) _ hs
  split
  · refine foldl_memWf (fun s fam hs => ?_) _ hs
    split
    · exact hs
    · refine State.modPads_memWf (State.modEntry_memWf ?_)
      cases List.find? _ _ with
      | none => exact hs
      | some p => exact State.modSession_memWf hs
  · exact hs

theorem drainHalves_memWf {s : State} {r n : Nat} {pick : PairEntry → Bool} (hs : s.memWf = true) :
    (drainHalves s r n pick).memWf = true :=
  foldl_memWf (fun _ _ hu => State.modPads_memWf (dropHalves_memWf hu)) _ hs

theorem storeWords_memWf {s t : State} {w : Who} {a : Nat} {l : List Nat} (hs : s.memWf = true)
    (he : storeWords s w a l = .ok t) : t.memWf = true := by
  induction l generalizing s a with
  | nil => cases he; exact hs
  | cons x l ih =>
    unfold storeWords at he
    split at he
    · cases he
    · rename_i hw
      exact ih (storeW_memWf hs hw) he

theorem finishDrain_memWf {s : State} {r n : Nat} (hs : s.memWf = true) : (finishDrain s r n).1.memWf = true := by
  unfold finishDrain
  dsimp only
  split
  · exact State.modSession_memWf (drainHalves_memWf hs)
  · rename_i hw
    exact State.modSession_memWf (storeDone_memWf (wakeWaiters_memWf
      (storeWords_memWf (State.modSession_memWf (drainHalves_memWf hs)) hw)))

theorem execWgdrain_memWf {o : GFmt} {s t : State} (hs : s.memWf = true) (he : execWgdrain o s = .next t) :
    t.memWf = true := by
  unfold execWgdrain at he
  refine scalar_memWf hs (fun u hu => ?_) he
  clear he
  grind [bind_eq_ok, pure_eq_ok, throw_ne_ok, completeAt_memWf, State.finish_memWf, State.block_memWf,
    State.modSession_memWf]

theorem execWgdrainComplete_memWf {st : Nat} {s t : State} (hs : s.memWf = true)
    (he : execWgdrainComplete st s = .next t) : t.memWf = true := by
  grind [execWgdrainComplete, finishDrain_memWf, completeAt_memWf, raiseAt_memWf, State.modStrand_memWf,
    State.memWf_iff]

theorem execWgstat_memWf {o : GFmt} {s t : State} (hs : s.memWf = true) (he : execWgstat o s = .next t) :
    t.memWf = true := by
  unfold execWgstat at he
  refine scalar_memWf hs (leavesWf_bind fun _ _ => leavesWf_bind fun _ _ => leavesWf_bind fun _ _ =>
    leavesWf_bind fun u hu => leavesWf_pure (State.advance_memWf ?_)) he
  exact foldlM_memWf (fun _ _ _ => storeW_memWf) _ hs hu

theorem injectAt_memWf {r pos : Nat} {fam : Bool} {s : State} (hs : s.memWf = true) :
    (injectAt r pos fam s).1.memWf = true := by
  grind [injectAt, State.setSlot_memWf, State.modSession_memWf, State.modStrand_memWf]

theorem wakeInjector_memWf {s : State} {k r : Nat} (hs : s.memWf = true) : (wakeInjector s k r).memWf = true := by
  unfold wakeInjector
  dsimp only
  split
  · split
    · exact State.modStrand_memWf hs
    · exact hs
  · exact hs

theorem leaveSlot_memWf {s : State} {r pos : Nat} {t : Tile} (hs : s.memWf = true) :
    (leaveSlot s r pos t).memWf = true := State.modSession_memWf (State.setSlot_memWf hs)

theorem lapAt_memWf {r pos : Nat} {fam fresh : Bool} {s : State} (hs : s.memWf = true) :
    (lapAt r pos fam fresh s).memWf = true := by
  unfold lapAt
  dsimp only
  split
  · exact hs
  · split
    · exact hs
    · split
      · exact State.modSession_memWf (leaveSlot_memWf hs)
      · split
        · exact State.modSession_memWf (State.setSlot_memWf hs)
        · exact hs

theorem fireTask_memWf {s : State} {r pos idx : Nat} {e : PairEntry} (hs : s.memWf = true) :
    (fireTask s r pos idx e).memWf = true := State.modHive_memWf hs

theorem fireEntry_memWf {r pos n : Nat} {s : State} {idx : Nat} (hs : s.memWf = true) :
    (fireEntry r pos n s idx).memWf = true := by
  unfold fireEntry
  dsimp only
  split
  · exact hs
  · split
    · exact hs
    · split
      · exact sessionFault_memWf hs
      · exact fireTask_memWf (State.modEntry_memWf (State.modSession_memWf hs))

theorem captureTile_memWf {s : State} {r pos : Nat} {t : Tile} {pad : Nat} {es : List Nat} (hs : s.memWf = true) :
    (captureTile s r pos t pad es).memWf = true := by
  grind [captureTile, State.modCore_memWf_same, Mem.write_wf, State.setSlot_memWf, State.modPads_memWf, foldl_memWf,
    State.modEntry_memWf, State.modSession_memWf, fireEntry_memWf, leaveSlot_memWf, State.modCore_memWf,
    State.core_scratch_wf]

theorem lookAt_memWf {r pos : Nat} {fam : Bool} {s : State} (hs : s.memWf = true) :
    (lookAt r pos fam s).memWf = true := by
  unfold lookAt
  dsimp only
  split
  · exact hs
  · split
    · exact hs
    · split
      · exact hs
      · split
        · exact sessionFault_memWf hs
        · split
          · exact State.modSession_memWf hs
          · split
            · exact captureTile_memWf hs
            · exact State.modSession_memWf hs

theorem settleSession_memWf {r : Nat} {s : State} {n : Nat} (hs : s.memWf = true) :
    (settleSession r s n).memWf = true := by
  unfold settleSession
  dsimp only
  split
  · exact hs
  · split
    · exact endSession_memWf hs
    · split
      · exact State.modSession_memWf hs
      · split
        · exact State.modSession_memWf hs
        · exact hs

theorem beginBeat_memWf {s : State} {r : Nat} (hs : s.memWf = true) : (beginBeat s r).memWf = true :=
  State.modRing_memWf hs

theorem beatAt_memWf {r : Nat} {fresh : List (Nat × Bool)} {s : State} {pos : Nat} (hs : s.memWf = true) :
    (beatAt r fresh s pos).memWf = true := lookAt_memWf (lookAt_memWf (lapAt_memWf (lapAt_memWf hs)))

theorem execRingBeat_memWf {ring : Nat} {s t : State} (hs : s.memWf = true) (he : execRingBeat ring s = .next t) :
    t.memWf = true := by
  unfold execRingBeat at he
  dsimp only at he
  rw [← Host.Outcome.next.inj he]
  refine foldl_memWf (fun _ _ => wakeInjector_memWf) _ (foldl_memWf (fun _ _ => settleSession_memWf) _
    (foldl_memWf (fun _ _ => beatAt_memWf) _ (foldl_fst_memWf (fun r x hr => ?_) _ (beginBeat_memWf hs))))
  exact injectAt_memWf hr

theorem execRingStranded_memWf {ring session : Nat} {s t : State} (hs : s.memWf = true)
    (he : execRingStranded ring session s = .next t) : t.memWf = true := by
  grind [execRingStranded, sessionFault_memWf]

theorem execRingStuck_memWf {ring session : Nat} {s t : State} (hs : s.memWf = true)
    (he : execRingStuck ring session s = .next t) : t.memWf = true := by
  grind [execRingStuck, sessionFault_memWf]

/-! ## Quitting -/

theorem endTask_memWf {s : State} {k : Nat} (hs : s.memWf = true) : (endTask s k).memWf = true := by
  unfold endTask
  dsimp only
  split
  · exact hs
  · split
    · exact hs
    · exact State.modSession_memWf (State.modPads_memWf (State.modEntry_memWf hs))

theorem quit_memWf {i : Instr} {s t : State} (hs : s.memWf = true) (he : quit i s = some (.ok t)) : t.memWf = true := by
  unfold quit at he
  have hu := undoBindings_memWf (k := s.cur) (releaseL1_memWf (w := s.who) (n := 1) hs)
  split at he
  · cases he
  · dsimp only at he
    split at he
    · cases he
      exact State.block_memWf (foldl_memWf (fun _ _ => discardTasks_memWf) _ (State.modMe_memWf hu))
    · rw [← Except.ok.inj (Option.some.inj he)]
      refine endStrand_memWf (endTask_memWf (foldl_memWf (fun _ _ => closeSession_memWf) _ ?_))
      exact foldl_memWf (fun _ _ => discardTasks_memWf) _ (State.modMe_memWf hu)

theorem execSquit_memWf {o : GFmt} {s t : State} (hs : s.memWf = true) (he : execSquit o s = .next t) :
    t.memWf = true := by
  unfold execSquit at he
  refine scalarWait_memWf hs (fun u hu => ?_) he
  grind [quit_memWf]

theorem execWgend_memWf {o : GFmt} {s t : State} (hs : s.memWf = true) (he : execWgend o s = .next t) :
    t.memWf = true := by
  unfold execWgend at he
  refine scalarWait_memWf hs (fun u hu => ?_) he
  grind [quit_memWf]

theorem execSquitComplete_memWf {st : Nat} {s t : State} (hs : s.memWf = true) (he : execSquitComplete st s = .next t) :
    t.memWf = true := by
  refine wake_memWf hs (fun i s t hs he => ?_) he
  split at he
  · exact execSquit_memWf hs he
  · exact execWgend_memWf hs he
  · cases he; exact hs

/-! ## Shares -/

theorem mergeShares_memWf {n : Nat} {s : State} {h : Nat} (hs : s.memWf = true) : (mergeShares n s h).memWf = true := by
  induction n generalizing s with
  | zero => exact hs
  | succ n ih =>
    unfold mergeShares
    split
    · exact ih (State.modHive_memWf hs)
    · exact hs

theorem dropRegion_memWf {s : State} {c : Nat} {x : CombCtx} (hs : s.memWf = true) :
    (dropRegion s c x).memWf = true := by
  unfold dropRegion
  split
  · rename_i he
    exact evictCtx_memWf hs he
  · exact State.dropCtx_memWf hs

theorem clearComb_memWf {s : State} {x : ShareRef} (hs : s.memWf = true) : (clearComb s x).memWf = true :=
  foldl_memWf (fun _ _ => dropRegion_memWf) _ hs

theorem clearLanes_memWf {s : State} {x : ShareRef} (hs : s.memWf = true) : (clearLanes s x).memWf = true :=
  have hc := clearComb_memWf (x := x) hs
  State.modCore_memWf hc (Mem.wipe_wf (State.core_scratch_wf hc _) _ _)

theorem receiveShare_memWf {s : State} {h : Nat} {x : ShareRef} (hs : s.memWf = true) :
    (receiveShare s h x).memWf = true := State.modHive_memWf (clearLanes_memWf hs)

theorem claimRing_memWf {s : State} {h : Nat} (hs : s.memWf = true) : (claimRing s h).memWf = true :=
  State.modHive_memWf hs

theorem settleHives_memWf {s : State} {l : List Nat} (hs : s.memWf = true) : (settleHives s l).memWf = true :=
  memWf_congr rfl rfl (foldl_memWf (fun _ _ => mergeShares_memWf) l hs)

theorem State.modBucket_memWf {s : State} {h i : Nat} {f : Bucket → Bucket} (hs : s.memWf = true) :
    (s.modBucket h i f).memWf = true := State.modHive_memWf hs

/-! ## Revocation -/

theorem noticeStrand_memWf {s : State} {k kind : Nat} (hs : s.memWf = true) : (noticeStrand s k kind).memWf = true :=
  State.modStrand_memWf (post_memWf hs)

theorem moveStrand_memWf {s : State} {k kind : Nat} (hs : s.memWf = true) : (moveStrand s k kind).memWf = true :=
  noticeStrand_memWf (State.modStrand_memWf hs)

theorem emptyShare_memWf {s : State} {x : ShareRef} (hs : s.memWf = true) : (emptyShare s x).memWf = true := by
  grind [emptyShare, foldl_memWf, requestPreempt_memWf, moveStrand_memWf]

theorem dropTilesOwed_memWf {s : State} {r n : Nat} (hs : s.memWf = true) : (dropTilesOwed s r n).memWf = true :=
  State.modRing_memWf (State.modSession_memWf hs)

theorem storeRecords_memWf {s : State} {w : Who} {a : Nat} {l : List (List Nat)} (hs : s.memWf = true) :
    (storeRecords s w a l).memWf = true := by
  induction l generalizing s a with
  | nil => exact hs
  | cons x l ih =>
    unfold storeRecords
    split
    · rename_i hw
      exact ih (storeWords_memWf hs hw)
    · exact ih hs

theorem revokeSession_memWf {r : Nat} {s : State} {n : Nat} (hs : s.memWf = true) :
    (revokeSession r s n).memWf = true := by
  unfold revokeSession
  dsimp only
  split
  · exact hs
  · exact freeSession_memWf (storeRecords_memWf (releaseL1_memWf (drainHalves_memWf (endWaiting_memWf
    (dropTilesOwed_memWf hs)))))

theorem revokeTasks_memWf {s : State} {r : Nat} (hs : s.memWf = true) : (revokeTasks s r).memWf = true := by
  grind [revokeTasks, foldl_memWf, State.modStrand_memWf, requestPreempt_memWf, moveStrand_memWf]

theorem revokeRing_memWf {s : State} {h : Nat} (hs : s.memWf = true) : (revokeRing s h).memWf = true := by
  grind [revokeRing, foldl_memWf, revokeSession_memWf, revokeTasks_memWf, State.memWf_iff, State.modHive_memWf,
    post_memWf]

theorem ringBefore_memWf {s : State} {h : Nat} {xs : List ShareRef} (hs : s.memWf = true) :
    (ringBefore s h xs).memWf = true := by
  unfold ringBefore
  split
  · exact revokeRing_memWf hs
  · exact hs

theorem undoBinding_memWf {s : State} {k : Nat} {n : BitVec 5} (hs : s.memWf = true) :
    (undoBinding s k n).memWf = true := by
  grind [undoBinding, stopFx_memWf, releaseSlot_memWf, poolPut_memWf]

theorem trimBindings_memWf {n : Nat} {s : State} {h : Nat} (hs : s.memWf = true) : (trimBindings n s h).memWf = true := by
  induction n generalizing s with
  | zero => exact hs
  | succ n ih =>
    unfold trimBindings
    split
    · exact hs
    · split
      · exact ih (undoBinding_memWf hs)
      · exact hs

theorem takeSlots_memWf {s : State} {h new : Nat} (hs : s.memWf = true) : (takeSlots s h new).memWf = true := by
  unfold takeSlots
  dsimp only
  split
  · exact foldl_memWf (fun _ _ => post_memWf) _ (foldl_memWf (fun _ _ => trimBindings_memWf) _ (State.modHive_memWf
    (foldl_memWf (fun _ _ => State.modHive_memWf) _ hs)))
  · exact foldl_memWf (fun _ _ => trimBindings_memWf) _ (State.modHive_memWf (foldl_memWf (fun _ _ =>
    State.modHive_memWf) _ hs))

theorem discardRing_memWf {s : State} {h : Nat} (hs : s.memWf = true) : (discardRing s h).memWf = true := by
  unfold discardRing
  dsimp only
  split
  · exact foldl_memWf (fun _ _ hu => State.modSession_memWf (freeSession_memWf hu)) _ hs
  · exact hs

theorem releaseVfs_memWf {s : State} {h : Nat} (hs : s.memWf = true) : (releaseVfs s h).memWf = true :=
  foldl_memWf (fun _ _ => post_memWf) _ hs

theorem dropTaking_memWf {s : State} {part h : Nat} (hs : s.memWf = true) : (dropTaking s part h).memWf = true := by
  unfold dropTaking
  split
  · split
    · exact completeAt_memWf (State.modPart_memWf hs)
    · exact hs
  · exact hs

theorem killOne_memWf {tgt : Nat} {s : State} {h : Nat} (hs : s.memWf = true) : (killOne tgt s h).memWf = true := by
  unfold killOne
  have hk (l : List ShareRef) {u : State} (hu : u.memWf = true) :
      (l.foldl (fun s x => if tgt = 0 then clearLanes s x else receiveShare s tgt x) u).memWf = true := by
    refine foldl_memWf (fun u x hu => ?_) l hu
    split
    · exact clearLanes_memWf hu
    · exact receiveShare_memWf hu
  have he (l : List Nat) : (l.foldl (fun s i =>
      if (s.strand i).hive == h && !(s.strand i).status.isEnded then endStrand s i else s) (discardRing s h)).memWf = true := by
    refine foldl_memWf (fun u i hu => ?_) l (discardRing_memWf hs)
    split
    · exact endStrand_memWf hu
    · exact hu
  dsimp only
  split
  · refine claimRing_memWf (hk _ (memWf_congr rfl rfl (dropTaking_memWf (releaseVfs_memWf
      (memWf_of_scratch (he _) rfl (fun c hc => ?_))))))
    obtain ⟨d, hd, rfl⟩ := List.mem_map.mp hc
    exact ⟨d, hd, rfl⟩
  · refine hk _ (memWf_congr rfl rfl (dropTaking_memWf (releaseVfs_memWf
      (memWf_of_scratch (he _) rfl (fun c hc => ?_)))))
    obtain ⟨d, hd, rfl⟩ := List.mem_map.mp hc
    exact ⟨d, hd, rfl⟩

theorem killHive_memWf {s : State} {h : Nat} (hs : s.memWf = true) : (killHive s h).memWf = true := by
  grind [killHive, foldl_memWf, killOne_memWf]

theorem markLeaves_memWf {s : State} {h : Nat} {l : List (Nat × Nat × Nat × Nat)} (hs : s.memWf = true) :
    (markLeaves s h l).memWf = true := State.modHive_memWf hs

theorem revokeCommands_memWf {s : State} {h : Nat} {hit : Cmd → Bool} (hs : s.memWf = true) :
    (revokeCommands s h hit).memWf = true :=
  foldl_memWf (fun _ _ hu => tryCompletion_memWf (State.modCmd_memWf hu)) _ hs

theorem stopCommands_memWf {s : State} {h : Nat} (hs : s.memWf = true) : (stopCommands s h).memWf = true :=
  revokeCommands_memWf hs

theorem invalidate_memWf {s : State} {h : Nat} (hs : s.memWf = true) : (invalidate s h).memWf = true :=
  newGeneration_memWf (flushHive_memWf hs)

theorem takePages_memWf {s : State} {h : Nat} {more : List Nat} {pages : List (Nat × Nat)} (hs : s.memWf = true) :
    (takePages s h more pages).memWf = true := by
  unfold takePages
  refine foldl_memWf (fun _ _ => post_memWf) _ (foldl_memWf (fun _ _ => invalidate_memWf) _
    (foldl_memWf (fun _ _ => stopCommands_memWf) _ (foldl_memWf (fun u d hu => ?_) _
      (foldl_memWf (fun _ _ => markLeaves_memWf) _ hs))))
  split
  · exact settleHives_memWf (killHive_memWf hu)
  · exact hu

theorem takeMemory_memWf {s : State} {h base size : Nat} (hs : s.memWf = true) :
    (takeMemory s h base size).memWf = true := takePages_memWf (markLeaves_memWf hs)

theorem takeRate_memWf {s : State} {h i rate burst : Nat} (hs : s.memWf = true) :
    (takeRate s h i rate burst).memWf = true :=
  foldl_memWf (fun _ _ => State.modBucket_memWf) _ (State.modBucket_memWf hs)

/-! ## Hives -/

theorem passShares_memWf {s : State} {h child : Nat} {left out : List (Nat × ShareRef)} (hs : s.memWf = true) :
    (passShares s h child left out).memWf = true :=
  foldl_memWf (fun _ _ => receiveShare_memWf) _ (State.modHive_memWf (foldl_memWf (fun _ _ => clearComb_memWf) _ hs))

theorem grantBucket_memWf {s : State} {h i rate burst : Nat} (hs : s.memWf = true) :
    (grantBucket s h i rate burst).memWf = true := State.modBucket_memWf hs

theorem initialStrand_memWf {s : State} {h r : Nat} (hs : s.memWf = true) : (initialStrand s h r).memWf = true :=
  State.modStrand_memWf (writeEntry_memWf (State.modHive_memWf hs))

theorem addHive_memWf {s : State} {k : Hive} {r : Nat} (hs : s.memWf = true) : (addHive s k r).memWf = true :=
  foldl_memWf (fun _ _ => grantBucket_memWf) _ (withWipe_memWf hs)

theorem hiveOp_memWf {α : Type} {s t : State} {turn : Bool} {check : Except Trap α} {f : α → State → Except Trap State}
    (hs : s.memWf = true) (he : hiveOp s turn check f = .next t)
    (hf : ∀ x s, s.memWf = true → LeavesWf (f x s)) :
    t.memWf = true := by
  unfold hiveOp at he
  refine scalarWait_memWf hs (fun u hu => ?_) he
  split at hu
  · cases hu
  · split at hu
    · cases hu
    · exact hf _ _ (acquireL1_memWf hs) u (Option.some.inj hu)

theorem execHnew_memWf {o : GFmt} {s t : State} (hs : s.memWf = true) (he : execHnew o s = .next t) : t.memWf = true := by
  unfold execHnew at he
  refine hiveOp_memWf hs he fun _ s hs => leavesWf_bind fun p hp => ?_
  have hp := loadRecord_memWf hs hp
  dsimp only
  split
  · exact leavesWf_throw
  refine leavesWf_bind fun _ _ => leavesWf_bind fun _ _ => leavesWf_bind fun _ _ => leavesWf_bind fun _ _ =>
    leavesWf_bind fun _ _ => leavesWf_bind fun _ _ => leavesWf_bind fun _ _ => leavesWf_bind fun _ _ => ?_
  split
  · exact leavesWf_error
  · refine leavesWf_pure (settleHives_memWf (State.finish_memWf (initialStrand_memWf ?_)))
    split
    · exact State.modHive_memWf (passShares_memWf (addHive_memWf (ringBefore_memWf hp)))
    · split
      · exact claimRing_memWf (passShares_memWf (addHive_memWf (ringBefore_memWf hp)))
      · exact passShares_memWf (addHive_memWf (ringBefore_memWf hp))

theorem extentOp_memWf {i : Instr} {o : GFmt} {kind : Nat} {s t : State} {f : Hive → Nat → State → Except Trap State}
    (hs : s.memWf = true) (he : extentOp i o kind s f = .next t)
    (hf : ∀ h r s, s.memWf = true → LeavesWf (f h r s)) :
    t.memWf = true := by
  unfold extentOp at he
  split at he
  · exact scalar_memWf hs (leavesWf_ok (completeAt_memWf hs)) he
  · refine hiveOp_memWf hs he fun h s hs => leavesWf_bind fun p hp => ?_
    have hp := loadRecord_memWf hs hp
    dsimp only
    split
    · exact leavesWf_pure hp
    · exact hf _ _ _ hp

theorem execHgiveShares_memWf {o : GFmt} {s t : State} (hs : s.memWf = true) (he : execHgiveShares o s = .next t) :
    t.memWf = true := by
  unfold execHgiveShares at he
  refine extentOp_memWf hs he fun _ _ s hs => leavesWf_bind fun _ _ => leavesWf_bind fun _ _ => leavesWf_bind fun _ _ =>
    leavesWf_pure (State.advance_memWf (settleHives_memWf ?_))
  split
  · exact claimRing_memWf (passShares_memWf (ringBefore_memWf hs))
  · exact passShares_memWf (ringBefore_memWf hs)

theorem execHgiveRing_memWf {o : GFmt} {s t : State} (hs : s.memWf = true) (he : execHgiveRing o s = .next t) :
    t.memWf = true := by
  unfold execHgiveRing at he
  exact extentOp_memWf hs he fun _ _ _ hs => leavesWf_bind fun _ _ => leavesWf_bind fun _ _ =>
    leavesWf_pure (State.advance_memWf (settleHives_memWf (State.modHive_memWf (revokeRing_memWf hs))))

theorem execHgiveFabricBindings_memWf {o : GFmt} {s t : State} (hs : s.memWf = true)
    (he : execHgiveFabricBindings o s = .next t) : t.memWf = true := by
  unfold execHgiveFabricBindings at he
  exact extentOp_memWf hs he fun _ _ _ hs => leavesWf_bind fun _ _ => leavesWf_bind fun _ _ => leavesWf_bind fun _ _ =>
    leavesWf_pure (State.advance_memWf (settleHives_memWf (State.modHive_memWf hs)))

theorem execHgiveMemory_memWf {o : GFmt} {s t : State} (hs : s.memWf = true) (he : execHgiveMemory o s = .next t) :
    t.memWf = true := by
  unfold execHgiveMemory at he
  exact extentOp_memWf hs he fun _ _ _ hs => leavesWf_bind fun _ _ => leavesWf_bind fun _ _ => leavesWf_bind fun _ _ =>
    leavesWf_bind fun _ _ => leavesWf_pure (State.advance_memWf (settleHives_memWf (State.modHive_memWf hs)))

theorem execHgiveBuckets_memWf {o : GFmt} {s t : State} (hs : s.memWf = true) (he : execHgiveBuckets o s = .next t) :
    t.memWf = true := by
  unfold execHgiveBuckets at he
  refine extentOp_memWf hs he fun _ _ _ hs => leavesWf_bind fun _ _ => ?_
  dsimp only
  split
  · exact leavesWf_throw
  · exact leavesWf_bind fun _ _ => leavesWf_pure (State.advance_memWf (settleHives_memWf
      (foldl_memWf (fun _ _ => grantBucket_memWf) _ hs)))

theorem stopOnShares_memWf {s : State} {h : Nat} {xs : List ShareRef} (hs : s.memWf = true) :
    (stopOnShares s h xs).memWf = true := revokeCommands_memWf hs

theorem goOnTaking_memWf {s : State} {n : Nat} {x : Taking} (hs : s.memWf = true) :
    (goOnTaking s n x).memWf = true := by
  grind [goOnTaking, foldl_memWf, emptyShare_memWf, stopOnShares_memWf, State.modHive_memWf, receiveShare_memWf,
    State.modPart_memWf, settleHives_memWf, completeAt_memWf]

theorem goOnTakings_memWf {s : State} (hs : s.memWf = true) : (goOnTakings s).memWf = true := by
  unfold goOnTakings
  split
  · refine foldl_memWf (fun s n hs => ?_) _ hs
    cases (s.part n).taking with
    | none => exact hs
    | some x => exact goOnTaking_memWf hs
  · exact hs

theorem startTaking_memWf {s : State} {child : Nat} {xs : List ShareRef} (hs : s.memWf = true) :
    (startTaking s child xs).memWf = true := by
  unfold startTaking
  dsimp only
  split
  · exact goOnTaking_memWf hs
  · exact State.modMe_memWf (goOnTaking_memWf hs)

theorem execHtakeShares_memWf {o : GFmt} {s t : State} (hs : s.memWf = true) (he : execHtakeShares o s = .next t) :
    t.memWf = true := by
  unfold execHtakeShares at he
  refine extentOp_memWf hs he fun _ _ _ hs => leavesWf_bind fun _ _ => leavesWf_pure (startTaking_memWf ?_)
  split
  · exact claimRing_memWf (revokeRing_memWf hs)
  · exact hs

theorem execHtakeRing_memWf {o : GFmt} {s t : State} (hs : s.memWf = true) (he : execHtakeRing o s = .next t) :
    t.memWf = true := by
  unfold execHtakeRing at he
  refine extentOp_memWf hs he fun _ _ _ hs => leavesWf_bind fun _ _ => leavesWf_pure (startTaking_memWf ?_)
  split
  · exact claimRing_memWf (revokeRing_memWf hs)
  · exact hs

theorem execHtakeFabricBindings_memWf {o : GFmt} {s t : State} (hs : s.memWf = true)
    (he : execHtakeFabricBindings o s = .next t) : t.memWf = true := by
  unfold execHtakeFabricBindings at he
  exact extentOp_memWf hs he fun _ _ _ hs => leavesWf_bind fun _ _ =>
    leavesWf_pure (State.advance_memWf (settleHives_memWf (takeSlots_memWf hs)))

theorem execHtakeMemory_memWf {o : GFmt} {s t : State} (hs : s.memWf = true) (he : execHtakeMemory o s = .next t) :
    t.memWf = true := by
  unfold execHtakeMemory at he
  exact extentOp_memWf hs he fun _ _ _ hs => leavesWf_bind fun _ _ =>
    leavesWf_pure (State.advance_memWf (settleHives_memWf (takeMemory_memWf hs)))

theorem execHtakeBuckets_memWf {o : GFmt} {s t : State} (hs : s.memWf = true) (he : execHtakeBuckets o s = .next t) :
    t.memWf = true := by
  unfold execHtakeBuckets at he
  exact extentOp_memWf hs he fun _ _ _ hs => leavesWf_bind fun _ _ =>
    leavesWf_pure (State.advance_memWf (settleHives_memWf (foldl_memWf (fun _ _ => takeRate_memWf) _ hs)))

theorem execHkill_memWf {o : GFmt} {s t : State} (hs : s.memWf = true) (he : execHkill o s = .next t) : t.memWf = true := by
  unfold execHkill at he
  exact hiveOp_memWf hs he fun _ _ hs => leavesWf_ok (State.advance_memWf (postPending_memWf
    (settleHives_memWf (killHive_memWf hs))))

theorem execHstat_memWf {o : GFmt} {s t : State} (hs : s.memWf = true) (he : execHstat o s = .next t) : t.memWf = true := by
  unfold execHstat at he
  exact hiveOp_memWf hs he fun _ _ hs => leavesWf_bind fun _ hu => leavesWf_pure (State.advance_memWf (postPending_memWf
    (foldlM_memWf (fun _ _ _ => storeW_memWf) _ hs hu)))

/-! ## HRET -/

theorem chargeGrant_memWf {s : State} {t : Strand} (hs : s.memWf = true) : (chargeGrant s t).memWf = true := by
  unfold chargeGrant
  dsimp only
  split
  · exact hs
  · exact charge_memWf hs

theorem resumeOn_memWf {s : State} {k : Nat} {x : ShareRef} (hs : s.memWf = true) : (resumeOn s k x).memWf = true :=
  waitOn_memWf (State.modStrand_memWf (chargeGrant_memWf hs))

theorem answerReissue_memWf {s t : State} {k : Nat} (hs : s.memWf = true) (he : answerReissue s k = .ok t) :
    t.memWf = true := by
  grind [answerReissue, resumeOn_memWf]

theorem answerSkip_memWf {s t : State} {k : Nat} {x : Suspension} (hs : s.memWf = true)
    (he : answerSkip s k x = .ok t) : t.memWf = true := by
  grind [answerSkip, State.modStrand_memWf, poolPut_memWf, resumeOn_memWf]

theorem answerDeliver_memWf {s t : State} {k : Nat} {x : Suspension} {cause : Nat} (hs : s.memWf = true)
    (he : answerDeliver s k x cause = .ok t) : t.memWf = true := by
  grind [answerDeliver, State.setStrand_memWf, chargeEntry_memWf, resumeOn_memWf, writeEntry_memWf]

theorem answerForward_memWf {s t : State} {issuer k : Nat} {x : Suspension} (hs : s.memWf = true)
    (he : answerForward s issuer k x = .ok t) : t.memWf = true := by
  grind [answerForward, State.modHive_memWf, post_memWf, State.modStrand_memWf]

theorem answerPlace_memWf {s t : State} {k : Nat} {share : Word} (hs : s.memWf = true)
    (he : answerPlace s k share = .ok t) : t.memWf = true := by
  grind [answerPlace, resumeOn_memWf]

theorem answer_memWf {s t : State} {k : Nat} {x : Suspension} {action : Nat} {operand : Word} (hs : s.memWf = true)
    (he : answer s k x action operand = .ok t) : t.memWf = true := by
  unfold answer at he
  split at he
  · exact answerReissue_memWf hs he
  · exact answerSkip_memWf hs he
  · exact answerDeliver_memWf hs he
  · exact answerPlace_memWf hs he
  · cases he

theorem hret_memWf {i : Instr} {o : GFmt} {action : Nat} {s t : State} {f : State → Nat → Suspension → Answer}
    (hs : s.memWf = true) (he : hret i o action s f = .next t)
    (hf : ∀ s k x, s.memWf = true → LeavesWf (f s k x)) :
    t.memWf = true := by
  unfold hret at he
  refine hiveOp_memWf hs he fun _ s hs => ?_
  have hr := releaseL1_memWf (w := s.who) (n := 2) hs
  split
  · exact leavesWf_ok hs
  · refine leavesWf_ok (State.finish_memWf (postPending_memWf ?_))
    split
    · exact hr
    · split
      · rename_i ha
        exact hf _ _ _ hr _ ha
      · exact hr

theorem execHretReissue_memWf {o : GFmt} {s t : State} (hs : s.memWf = true) (he : execHretReissue o s = .next t) :
    t.memWf = true := hret_memWf hs he fun _ _ _ hs _ => answerReissue_memWf hs

theorem execHretSkip_memWf {o : GFmt} {s t : State} (hs : s.memWf = true) (he : execHretSkip o s = .next t) :
    t.memWf = true := hret_memWf hs he fun _ _ _ hs _ => answerSkip_memWf hs

theorem execHretDeliver_memWf {o : GFmt} {s t : State} (hs : s.memWf = true) (he : execHretDeliver o s = .next t) :
    t.memWf = true := hret_memWf hs he fun _ _ _ hs _ => answerDeliver_memWf hs

theorem execHretForward_memWf {o : GFmt} {s t : State} (hs : s.memWf = true) (he : execHretForward o s = .next t) :
    t.memWf = true := hret_memWf hs he fun _ _ _ hs _ => answerForward_memWf hs

theorem execHretPlace_memWf {o : GFmt} {s t : State} (hs : s.memWf = true) (he : execHretPlace o s = .next t) :
    t.memWf = true := hret_memWf hs he fun _ _ _ hs _ => answerPlace_memWf hs

/-! ## Errors -/

theorem countError_memWf {s : State} {part info : Nat} {corrected : Bool} (hs : s.memWf = true) :
    (countError s part info corrected).memWf = true := by
  unfold countError
  dsimp only
  split
  · exact hs
  · split <;> exact State.modPart_memWf hs

theorem emptyPartition_memWf {s : State} {n : Nat} (hs : s.memWf = true) : (emptyPartition s n).memWf = true := by
  grind [emptyPartition, killHive_memWf, State.modPart_memWf]

/-- Stated of the function itself: between applications the kernel would evaluate the post to compare the two sides. -/
theorem machineCheck_eq : machineCheck = fun s part info val data =>
    (post (emptyPartition (countError s part info false) part) 0 part (checkRecord info val data)).2 := rfl

theorem machineCheck_memWf {s : State} {part info : Nat} {val data : Word} (hs : s.memWf = true) :
    (machineCheck s part info val data).memWf = true := by
  rw [machineCheck_eq]
  exact post_memWf (emptyPartition_memWf (countError_memWf hs))

theorem execMachineCheck_memWf {part info : Nat} {val : Word} {s t : State} (hs : s.memWf = true)
    (he : execMachineCheck part info val s = .next t) : t.memWf = true := by
  grind [execMachineCheck, foldl_memWf, machineCheck_memWf, State.memWf_iff]

theorem execLlcTagParityError_memWf {slice : Nat} {s t : State} (hs : s.memWf = true)
    (he : execLlcTagParityError slice s = .next t) : t.memWf = true := by
  obtain ⟨hm, hc⟩ := (State.memWf_iff s).mp hs
  unfold execLlcTagParityError at he
  rw [← Host.Outcome.next.inj he]
  exact machineCheck_memWf ((State.memWf_iff _).mpr ⟨foldl_mem_wf (fun _ _ hm => Mem.write_wf hm _ _ _) _ hm, hc⟩)

theorem execCorrectedError_memWf {part info : Nat} {s t : State} (hs : s.memWf = true)
    (he : execCorrectedError part info s = .next t) : t.memWf = true := by
  grind [execCorrectedError, countError_memWf]

theorem execScrub_memWf {s t : State} (hs : s.memWf = true) (he : execScrub s = .next t) : t.memWf = true := by
  grind [execScrub]

/-! ## Platform events -/

theorem countRefusal_memWf {s : State} {pa : Nat} (hs : s.memWf = true) : (countRefusal s pa).memWf = true := by
  unfold countRefusal
  dsimp only
  split
  · exact State.modPart_memWf hs
  · exact hs

theorem execHostAccess_memWf {write : Bool} {pa : Nat} {data : List Byte} {s t : State} (hs : s.memWf = true)
    (he : execHostAccess write pa data s = .next t) : t.memWf = true := by
  grind [execHostAccess, countRefusal_memWf, State.memWf_iff, Mem.put_wf]

theorem execHostInvalidation_memWf {pa : Nat} {data : List Byte} {s t : State} (hs : s.memWf = true)
    (he : execHostInvalidation pa data s = .next t) : t.memWf = true := by
  grind [execHostInvalidation, State.memWf_iff, Mem.put_wf]

theorem remoteAs_memWf {s : State} {hive va : Nat} {k : RemoteKind} (hs : s.memWf = true) :
    (remoteAs s hive va k).1.memWf = true := by
  unfold remoteAs
  dsimp only
  split
  · exact hs
  · split
    · rename_i hr
      exact readRange_memWf hs hr
    · exact hs
  · split
    · rename_i hw
      exact writeRange_memWf hs hw
    · exact hs
  · split
    · rename_i ha
      exact amoW_memWf hs ha
    · exact hs

theorem execRemoteAccess_memWf {kind : RemoteKind} {entry : Nat} {offset : BitVec 52} {s t : State}
    (hs : s.memWf = true) (he : execRemoteAccess kind entry offset s = .next t) : t.memWf = true := by
  grind [execRemoteAccess, remoteAs_memWf, State.memWf_iff]

theorem execPeerLinkDown_memWf {port : Nat} {s t : State} (hs : s.memWf = true)
    (he : execPeerLinkDown port s = .next t) : t.memWf = true := by
  grind [execPeerLinkDown, State.memWf_iff]

theorem onCores_memWf {s : State} {pick : Nat → Core → Bool} {f : Core → Core} (hs : s.memWf = true)
    (hf : ∀ c, (f c).scratch = c.scratch) : (onCores s pick f).memWf = true := by
  refine memWf_of_scratch hs rfl (fun c hc => ?_)
  obtain ⟨x, hx, rfl⟩ := List.mem_map.mp hc
  refine ⟨x.1, List.fst_mem_of_mem_zipIdx hx, ?_⟩
  split
  · exact hf x.1
  · rfl

theorem execPowerSample_memWf {m : PowerDraw} {s t : State} (hs : s.memWf = true) (he : execPowerSample m s = .next t) :
    t.memWf = true := by
  rw [← Host.Outcome.next.inj he]
  exact onCores_memWf hs (fun c => by unfold Core.lower; split <;> rfl)

theorem execGrantRaise_memWf {m : PowerDraw} {s t : State} (hs : s.memWf = true) (he : execGrantRaise m s = .next t) :
    t.memWf = true := by
  rw [← Host.Outcome.next.inj he]
  refine onCores_memWf hs (fun c => ?_)
  unfold Core.rise
  split
  · rfl
  · split <;> rfl

theorem execIssueDuty_memWf {m : PowerDraw} {k : Nat} {s t : State} (hs : s.memWf = true)
    (he : execIssueDuty m k s = .next t) : t.memWf = true := by
  rw [← Host.Outcome.next.inj he]
  split
  · exact onCores_memWf hs (fun _ => rfl)
  · exact hs

/-! ## Firmware requests -/

theorem closeRequest_memWf {s : State} {a status : Nat} {ret : List Byte} (hs : s.memWf = true) :
    (closeRequest s a status ret).memWf = true :=
  withMem_memWf hs (Mem.write_wf (Mem.write_wf (Mem.put_wf ((State.memWf_iff s).mp hs).1 _ _) _ _ _) _ _ _)

theorem serveRequest_memWf {s t : State} {code n : Nat} {f : (Nat → Nat) → Served} (hs : s.memWf = true)
    (he : serveRequest s code n f = .next t) (hf : ∀ a, (f a).memWf = true) : t.memWf = true := by
  rw [← Host.Outcome.next.inj he]
  split
  · exact hs
  · rename_i a r _
    have hr := hf (requestArg r)
    split
    · exact hs
    · split
      · exact closeRequest_memWf hs
      · split
        case h_1 h => exact closeRequest_memWf (by rwa [h] at hr)
        case h_2 h => exact closeRequest_memWf (by rwa [h] at hr)
        case h_3 => exact closeRequest_memWf hs
        case h_4 h => rwa [h] at hr

theorem serveIf_memWf {b : Bool} {s : State} (hs : s.memWf = true) : (serveIf b s).memWf = true := by
  unfold serveIf
  split
  · exact hs
  · rfl

theorem execUnknownCodeRequest_memWf {s t : State} (hs : s.memWf = true) (he : execUnknownCodeRequest s = .next t) :
    t.memWf = true := by
  grind [execUnknownCodeRequest, closeRequest_memWf]

theorem createRoot_memWf {s : State} {n : Nat} {gs : List Nat} {hq hqn r : Nat} (hs : s.memWf = true) :
    (createRoot s n gs hq hqn r).memWf = true :=
  resumeOn_memWf (initialStrand_memWf (firmwareRoot_memWf (foldl_memWf (fun _ _ => receiveShare_memWf) _
    (addHive_memWf (State.modPart_memWf hs)))))

theorem execCreateRoot_memWf {s t : State} (hs : s.memWf = true) (he : execCreateRoot s = .next t) : t.memWf = true := by
  refine serveRequest_memWf hs he (fun a => ?_)
  dsimp only
  split
  · rfl
  · split
    · rfl
    · exact createRoot_memWf hs

theorem execDestroyRoot_memWf {s t : State} (hs : s.memWf = true) (he : execDestroyRoot s = .next t) : t.memWf = true :=
  serveRequest_memWf hs he (fun _ => serveIf_memWf (State.modPart_memWf (emptyPartition_memWf hs)))

theorem execRootHret_memWf {s t : State} (hs : s.memWf = true) (he : execRootHret s = .next t) : t.memWf = true := by
  refine serveRequest_memWf hs he (fun a => ?_)
  dsimp only
  split
  · rfl
  · refine postHostPending_memWf ?_
    split
    · exact hs
    · split
      · rename_i ha
        exact answer_memWf hs ha
      · exact hs

theorem execBindVf_memWf {s t : State} (hs : s.memWf = true) (he : execBindVf s = .next t) : t.memWf = true :=
  serveRequest_memWf hs he (fun _ => serveIf_memWf hs)

theorem execUnbindVf_memWf {s t : State} (hs : s.memWf = true) (he : execUnbindVf s = .next t) : t.memWf = true :=
  serveRequest_memWf hs he (fun _ => serveIf_memWf hs)

theorem execImportEntry_memWf {s t : State} (hs : s.memWf = true) (he : execImportEntry s = .next t) : t.memWf = true := by
  refine serveRequest_memWf hs he (fun a => ?_)
  dsimp only
  split <;> exact serveIf_memWf hs

theorem execPeerMap_memWf {s t : State} (hs : s.memWf = true) (he : execPeerMap s = .next t) : t.memWf = true :=
  serveRequest_memWf hs he (fun _ => serveIf_memWf (State.modPart_memWf hs))

theorem execPowerCap_memWf {s t : State} (hs : s.memWf = true) (he : execPowerCap s = .next t) : t.memWf = true := by
  refine serveRequest_memWf hs he (fun a => ?_)
  dsimp only
  split
  · rfl
  · split
    · exact hs
    · exact serveIf_memWf hs

theorem execSealRange_memWf {s t : State} (hs : s.memWf = true) (he : execSealRange s = .next t) : t.memWf = true :=
  serveRequest_memWf hs he (fun _ => serveIf_memWf (State.modPart_memWf hs))

theorem execUnsealRange_memWf {s t : State} (hs : s.memWf = true) (he : execUnsealRange s = .next t) : t.memWf = true := by
  refine serveRequest_memWf hs he (fun a => ?_)
  split
  · rfl
  · split
    · exact hs
    · exact State.modPart_memWf (withWipe_memWf hs)

theorem execReadCounts_memWf {s t : State} (hs : s.memWf = true) (he : execReadCounts s = .next t) : t.memWf = true :=
  serveRequest_memWf hs he (fun _ => serveIf_memWf (withPut_memWf hs))

theorem haltRoot_memWf {s : State} {root : Nat} (hs : s.memWf = true) : (haltRoot s root).memWf = true := by
  grind [haltRoot, foldl_memWf, requestPreempt_memWf]

theorem resumeRoot_memWf {s : State} {root : Nat} (hs : s.memWf = true) : (resumeRoot s root).memWf = true := by
  grind [resumeRoot, foldl_memWf, resumeOn_memWf]

/-- The bytes of a moved range lie in its new place, so they stand between what lies below it and what lies above. -/
theorem copyRange_wf {m : Mem} (hm : Mem.wf m = true) (src dst n : Nat) : Mem.wf (copyRange m src dst n) = true := by
  obtain ⟨hp, hb⟩ := (Mem.wf_iff m).mp hm
  unfold copyRange
  simp only [Mem.wf_iff, List.pairwise_append, List.pairwise_map, List.mem_append, List.mem_map, List.mem_filter,
    Bool.and_eq_true, decide_eq_true_eq]
  refine ⟨⟨⟨hp.filter _, ?_, ?_⟩, hp.filter _, ?_⟩, ?_⟩
  · refine (List.Pairwise.and_mem.mp (hp.filter _)).imp ?_
    rintro c d ⟨hc, hd, hlt⟩
    simp only [List.mem_filter, Bool.and_eq_true, decide_eq_true_eq] at hc hd
    omega
  · rintro c ⟨_, hc⟩ _ ⟨d, ⟨_, hd⟩, rfl⟩
    dsimp only
    omega
  · rintro c (⟨_, hc⟩ | ⟨d, ⟨_, hd⟩, rfl⟩) e ⟨_, he⟩
    · omega
    · dsimp only
      omega
  · rintro c ((⟨hc, _⟩ | ⟨d, ⟨hd, _⟩, rfl⟩) | ⟨hc, _⟩)
    · exact hb c hc
    · exact hb d hd
    · exact hb c hc

theorem moveGranule_memWf {s : State} {n g d : Nat} (hs : s.memWf = true) : (moveGranule s n g d).memWf = true := by
  unfold moveGranule
  have ht {u : State} (hu : u.memWf = true) : ({ u with mem := copyRange u.mem (g * 2 ^ 30) (d * 2 ^ 30) (2 ^ 30) } : State).memWf = true :=
    withMem_memWf hu (copyRange_wf ((State.memWf_iff u).mp hu).1 _ _ _)
  exact firmwareRoot_memWf (State.modHive_memWf (State.modPart_memWf (ht (takePages_memWf
    (foldl_memWf (fun _ _ => clearL1_memWf) _ hs)))))

theorem execMigrate_memWf {s t : State} (hs : s.memWf = true) (he : execMigrate s = .next t) : t.memWf = true := by
  refine serveRequest_memWf hs he (fun a => ?_)
  dsimp only
  split
  · rfl
  · split
    · exact haltRoot_memWf hs
    · exact resumeRoot_memWf (moveGranule_memWf (haltRoot_memWf hs))

theorem Core.reset_scratch : Core.reset.scratch = [] := rfl

/-! ## Boot -/

theorem powerOn_memWf {s : State} (hs : s.memWf = true) : (powerOn s).memWf = true := by
  refine (State.memWf_iff _).mpr ⟨Mem.filter_wf ((State.memWf_iff s).mp hs).1 _, fun c hc => ?_⟩
  rw [List.eq_of_mem_replicate hc, Core.reset_scratch]
  rfl

theorem execPowerUp_memWf {s t : State} (hs : s.memWf = true) (he : execPowerUp s = .next t) : t.memWf = true := by
  grind [execPowerUp, powerOn_memWf]

theorem execModuleReset_memWf {s t : State} (hs : s.memWf = true) (he : execModuleReset s = .next t) :
    t.memWf = true := by
  grind [execModuleReset, powerOn_memWf]

theorem execGo_memWf {value : BitVec 32} {s t : State} (hs : s.memWf = true) (he : execGo value s = .next t) :
    t.memWf = true := by
  grind [execGo, State.memWf_iff]

theorem execBootWindowWrite_memWf {offset : Nat} {data : List Byte} {s t : State} (hs : s.memWf = true)
    (he : execBootWindowWrite offset data s = .next t) : t.memWf = true := by
  grind [execBootWindowWrite, State.memWf_iff]

theorem execFirmwareImageVerify_memWf {s t : State} (hs : s.memWf = true) (he : execFirmwareImageVerify s = .next t) :
    t.memWf = true := by
  grind [execFirmwareImageVerify, State.memWf_iff]

theorem execFirmwareTrainingComplete_memWf {reason : Nat} {s t : State} (hs : s.memWf = true)
    (he : execFirmwareTrainingComplete reason s = .next t) : t.memWf = true := by
  grind [execFirmwareTrainingComplete, State.memWf_iff]

/-! ## Serving a fabric region -/

theorem streamElems_memWf {t : Strand} {sx : BitVec 4} {w n e : Nat} {b c : Option CodedBlock} {s u : State} {l : List Nat}
    (hs : s.memWf = true) (he : streamElems t sx w n e b s = .ok (l, c, u)) : u.memWf = true := by
  induction n generalizing e b s l with
  | zero => cases he; exact hs
  | succ n ih =>
    unfold streamElems at he
    dsimp only at he
    split at he
    · cases he
    · rename_i hone
      split at he
      · cases he
      · rename_i hrest
        cases he
        refine ih ?_ hrest
        split at hone
        · split at hone
          · rename_i hb
            have hr := readBlock_memWf (t := t) (sx := sx) (coh := false) (known := b.toList) (i := e / 32) hs
            rw [hb] at hr
            cases hone
            exact hr
          · cases hone
          · cases hone
          · cases hone
        · split at hone
          · cases hone
          · split at hone
            · cases hone
            · split at hone
              · cases hone
              · rename_i hp
                cases hone
                exact readPlace_memWf (locateV_memWf hs hp)

theorem fillEdge_memWf {s t : State} {core lg num j : Nat} (hs : s.memWf = true) (he : fillEdge s core lg num j = .ok t) :
    t.memWf = true := by
  unfold fillEdge at he
  dsimp only at he
  split at he
  · cases he; exact hs
  · split at he
    · cases he; exact hs
    · split at he
      · cases he; exact hs
      · split at he
        · cases he; exact State.putCtx_memWf hs
        · split at he
          · cases he; exact State.putCtx_memWf hs
          · split at he
            · cases he
            · rename_i hl
              cases he
              exact requestWalks_memWf (State.modStrand_memWf (State.putCtx_memWf (streamElems_memWf hs hl)))

theorem fillEdges_memWf {s t : State} {core lg num : Nat} (hs : s.memWf = true) (he : fillEdges s core lg num = .ok t) :
    t.memWf = true := by
  unfold fillEdges at he
  refine List.foldlRecOn (motive := fun r : Except Trap State => LeavesWf r) _ _ (leavesWf_ok hs) (fun r hr j _ => ?_) t he
  split
  · exact leavesWf_error
  · exact fun _ => fillEdge_memWf (hr _ rfl)

theorem fireNode_memWf {f : Fired} {n : Nat} {a : Act} (hf : f.s.memWf = true) : (fireNode f n a).s.memWf = true := hf

theorem fireOne_memWf {core : Nat} {f : Fired} {p : Firing} (hf : f.s.memWf = true) : (fireOne core f p).s.memWf = true := by
  unfold fireOne
  dsimp only
  split
  · exact fireNode_memWf hf
  · exact fireNode_memWf (givePort_memWf hf)
  · split
    · exact hf
    · split
      · exact hf
      · exact hf
      · rename_i hl
        exact fireNode_memWf (portLoad_memWf hf hl)
  · split
    · exact hf
    · split
      · exact hf
      · rename_i hst
        exact fireNode_memWf (portStore_memWf hf hst)
  · exact hf

theorem serveCtx_memWf {s : State} {core : Nat} {x : CombCtx} (hs : s.memWf = true) :
    (serveCtx s core x).1.memWf = true := by
  unfold serveCtx
  dsimp only
  split
  · exact hs
  · refine State.putCtx_memWf (State.modSlot_memWf ?_)
    exact List.foldlRecOn (motive := fun f : Fired => f.s.memWf = true) _ _ hs (fun _ hf _ _ => fireOne_memWf hf)

theorem fillRegion_memWf {s : State} {core lg : Nat} (hs : s.memWf = true) : (fillRegion s core lg).1.memWf = true := by
  unfold fillRegion
  refine foldl_fst_memWf (fun r x hr => ?_) _ hs
  split
  · rename_i hf
    exact fillEdges_memWf hr hf
  · exact hr

theorem countIdle_memWf {s : State} {core lg : Nat} (hs : s.memWf = true) : (countIdle s core lg).memWf = true :=
  foldl_memWf (fun _ _ => State.putCtx_memWf) _ hs

theorem serveRegion_memWf {s : State} {core lg : Nat} (hs : s.memWf = true) :
    (serveRegion s core lg).1.memWf = true := by
  grind [serveRegion, fillRegion_memWf, countIdle_memWf, State.modCore_memWf_same, serveCtx_memWf]

/-! ## Comb events -/

theorem combFault_memWf {s : State} {core lg num : Nat} {tr : Trap} (hs : s.memWf = true) :
    (combFault s core lg num tr).memWf = true := by
  grind [combFault, stopFx_memWf, State.modSlot_memWf, settleQueue_memWf, trapAtHead_memWf]

theorem combEnd_memWf {s : State} {core lg num : Nat} (hs : s.memWf = true) : (combEnd s core lg num).memWf = true := by
  unfold combEnd
  dsimp only
  split
  · exact hs
  · split
    · split
      · exact settleQueue_memWf (retireDone_memWf (finishFx_memWf hs))
      · split
        · exact settleQueue_memWf (retireDone_memWf (finishFx_memWf hs))
        · exact hs
    · exact hs

theorem fcfgStep_memWf {s : State} {k : Nat} (hs : s.memWf = true) : (fcfgStep s k).memWf = true := by
  unfold fcfgStep
  refine foldl_memWf (fun u j hu => ?_) _ hs
  dsimp only
  split
  · split
    · split
      · split
        · split
          · rename_i hr
            exact setTags_memWf (runItem_ok_memWf hu hr)
          · exact hu
        · exact hu
      · exact hu
    · exact hu
  · exact hu

theorem execCombContextServe_memWf {core lg : Nat} {s t : State} (hs : s.memWf = true)
    (he : execCombContextServe core lg s = .next t) : t.memWf = true := by
  grind [execCombContextServe, serveRegion_memWf, foldl_memWf, combFault_memWf, combEnd_memWf, fcfgStep_memWf]

theorem execFabricStall_memWf {core lg ctx : Nat} {s t : State} (hs : s.memWf = true)
    (he : execFabricStall core lg ctx s = .next t) : t.memWf = true := by
  grind [execFabricStall, combFault_memWf]

theorem execCoalescingBufferFlush_memWf {core node : Nat} {s t : State} (hs : s.memWf = true)
    (he : execCoalescingBufferFlush core node s = .next t) : t.memWf = true := by
  grind [execCoalescingBufferFlush, flushBufs_memWf]

theorem execFabricContextLoad_memWf {st slot : Nat} {s t : State} (hs : s.memWf = true)
    (he : execFabricContextLoad st slot s = .next t) : t.memWf = true := by
  grind [execFabricContextLoad, loadSlot_memWf, settleQueue_memWf, trapAtHead_memWf]

/-! ## Flow -/

theorem branch_memWf {o : BFmt} {s t : State} {taken : Bool} (hs : s.memWf = true) (he : branch o s taken = .next t) :
    t.memWf = true := by
  unfold branch at he
  refine scalar_memWf hs (fun u hu => ?_) he
  grind [State.modMe_memWf]

theorem execJal_memWf {o : IFmt} {s t : State} (hs : s.memWf = true) (he : execJal o s = .next t) : t.memWf = true := by
  unfold execJal at he
  refine scalar_memWf hs (fun u hu => ?_) he
  grind [State.modMe_memWf]

theorem execJalr_memWf {o : IFmt} {s t : State} (hs : s.memWf = true) (he : execJalr o s = .next t) :
    t.memWf = true := by
  unfold execJalr at he
  refine scalar_memWf hs (fun u hu => ?_) he
  grind [State.modMe_memWf]

theorem execNop_memWf {o : GFmt} {s t : State} (hs : s.memWf = true) (he : execNop o s = .next t) : t.memWf = true := by
  unfold execNop at he
  refine scalar_memWf hs (fun u hu => ?_) he
  grind [State.advance_memWf]

/-! ## Memory events -/

theorem execPageWalkComplete_memWf {die : Nat} {s t : State} (hs : s.memWf = true)
    (he : execPageWalkComplete die s = .next t) : t.memWf = true := by
  grind [execPageWalkComplete, startWalks_memWf, State.memWf_iff, foldl_memWf, State.modStrand_memWf]

theorem execLlcRequestAdmit_memWf {slice : Nat} {s t : State} (hs : s.memWf = true)
    (he : execLlcRequestAdmit slice s = .next t) : t.memWf = true := by
  grind [execLlcRequestAdmit, State.memWf_iff, State.modBucket_memWf]

theorem execBucketRefill_memWf {slice : Nat} {s t : State} (hs : s.memWf = true)
    (he : execBucketRefill slice s = .next t) : t.memWf = true := by
  grind [execBucketRefill, foldl_memWf, State.modBucket_memWf]

theorem execL1DirtyTimeout_memWf {core line : Nat} {s t : State} (hs : s.memWf = true)
    (he : execL1DirtyTimeout core line s = .next t) : t.memWf = true := by
  grind [execL1DirtyTimeout, State.modCore_memWf_same, writeBack_memWf]

/-! ## Scalar floating point -/

theorem floatDone_memWf {s : State} {rd : BitVec 5} {r : FRes} (hs : s.memWf = true) :
    (floatDone s rd r).memWf = true := State.modMe_memWf hs

theorem rounding_memWf {o : GFmt} {s t : State} {f : FloatFmt → Nat → Nat → FRes} (hs : s.memWf = true)
    (he : rounding o s f = .next t) : t.memWf = true := by
  unfold rounding at he
  refine scalar_memWf hs (fun u hu => ?_) he
  grind [State.modMe_memWf, floatDone_memWf]

theorem execFadd_memWf {o : GFmt} {s t : State} (hs : s.memWf = true) (he : execFadd o s = .next t) :
    t.memWf = true := by
  grind [execFadd, rounding_memWf]

theorem execFsub_memWf {o : GFmt} {s t : State} (hs : s.memWf = true) (he : execFsub o s = .next t) :
    t.memWf = true := by
  grind [execFsub, rounding_memWf]

theorem execFmul_memWf {o : GFmt} {s t : State} (hs : s.memWf = true) (he : execFmul o s = .next t) :
    t.memWf = true := by
  grind [execFmul, rounding_memWf]

theorem execFdiv_memWf {o : GFmt} {s t : State} (hs : s.memWf = true) (he : execFdiv o s = .next t) :
    t.memWf = true := by
  grind [execFdiv, rounding_memWf]

theorem execFsqrt_memWf {o : GFmt} {s t : State} (hs : s.memWf = true) (he : execFsqrt o s = .next t) :
    t.memWf = true := by
  grind [execFsqrt, rounding_memWf]

theorem execFma_memWf {o : GFmt} {s t : State} (hs : s.memWf = true) (he : execFma o s = .next t) : t.memWf = true := by
  grind [execFma, rounding_memWf]

theorem execFmin_memWf {o : GFmt} {s t : State} (hs : s.memWf = true) (he : execFmin o s = .next t) :
    t.memWf = true := by
  unfold execFmin at he
  refine scalar_memWf hs (fun u hu => ?_) he
  grind [floatDone_memWf]

theorem execFmax_memWf {o : GFmt} {s t : State} (hs : s.memWf = true) (he : execFmax o s = .next t) :
    t.memWf = true := by
  unfold execFmax at he
  refine scalar_memWf hs (fun u hu => ?_) he
  grind [floatDone_memWf]

theorem execFcmp_memWf {o : GFmt} {s t : State} (hs : s.memWf = true) (he : execFcmp o s = .next t) :
    t.memWf = true := by
  unfold execFcmp at he
  refine scalar_memWf hs (fun u hu => ?_) he
  grind [floatDone_memWf]

theorem execFcvt_memWf {o : GFmt} {s t : State} (hs : s.memWf = true) (he : execFcvt o s = .next t) :
    t.memWf = true := by
  grind [execFcvt, rounding_memWf]

theorem execFclass_memWf {o : GFmt} {s t : State} (hs : s.memWf = true) (he : execFclass o s = .next t) :
    t.memWf = true := by
  unfold execFclass at he
  refine scalar_memWf hs (fun u hu => ?_) he
  grind [State.finish_memWf]

/-! ## Scalar memory instructions -/

theorem execLd_memWf {sz : LoadSize} {o : MFmt} {s t : State} (hs : s.memWf = true) (he : execLd sz o s = .next t) :
    t.memWf = true := by
  unfold execLd at he
  refine scalar_memWf hs (fun u hu => ?_) he
  clear he
  grind [bind_eq_ok, pure_eq_ok, throw_ne_ok, loadW_memWf, State.finish_memWf]

theorem execLda_memWf {sz : LoadSize} {o : MFmt} {s t : State} (hs : s.memWf = true) (he : execLda sz o s = .next t) :
    t.memWf = true := by
  unfold execLda at he
  refine scalar_memWf hs (fun u hu => ?_) he
  clear he
  grind [bind_eq_ok, pure_eq_ok, throw_ne_ok, loadW_memWf, State.finish_memWf, acquireL1_memWf]

theorem execSt_memWf {sz : StoreSize} {o : MFmt} {s t : State} (hs : s.memWf = true) (he : execSt sz o s = .next t) :
    t.memWf = true := by
  unfold execSt at he
  refine scalar_memWf hs (fun u hu => ?_) he
  clear he
  grind [bind_eq_ok, pure_eq_ok, throw_ne_ok, storeSt_memWf, State.advance_memWf]

theorem execStl_memWf {sz : StoreSize} {o : MFmt} {s t : State} (hs : s.memWf = true) (he : execStl sz o s = .next t) :
    t.memWf = true := by
  unfold execStl at he
  refine scalar_memWf hs (fun u hu => ?_) he
  clear he
  grind [bind_eq_ok, pure_eq_ok, throw_ne_ok, storeSt_memWf, releaseL1_memWf, State.advance_memWf]

theorem execAmo_memWf {op : AmoOp} {wide : Bool} {o : MFmt} {s t : State} (hs : s.memWf = true)
    (he : execAmo op wide o s = .next t) : t.memWf = true := by
  unfold execAmo at he
  refine scalar_memWf hs (fun u hu => ?_) he
  clear he
  grind [bind_eq_ok, pure_eq_ok, throw_ne_ok, releaseL1_memWf, amoW_memWf, acquireL1_memWf, State.finish_memWf]

theorem execLdfe_memWf {wide clr : Bool} {o : MFmt} {s t : State} (hs : s.memWf = true)
    (he : execLdfe wide clr o s = .next t) : t.memWf = true := by
  unfold execLdfe at he
  refine scalar_memWf hs (fun u hu => ?_) he
  clear he
  grind [bind_eq_ok, pure_eq_ok, throw_ne_ok, setEmpty_memWf, State.finish_memWf, State.block_memWf]

theorem execLdfeWake_memWf {st : Nat} {s t : State} (hs : s.memWf = true) (he : execLdfeWake st s = .next t) :
    t.memWf = true := by
  refine wake_memWf hs (fun i s t hs he => ?_) he
  split at he
  · exact execLdfe_memWf hs he
  · cases he; exact hs

theorem execStfe_memWf {wide : Bool} {o : MFmt} {s t : State} (hs : s.memWf = true) (he : execStfe wide o s = .next t) :
    t.memWf = true := by
  unfold execStfe at he
  refine scalar_memWf hs (fun u hu => ?_) he
  clear he
  grind [bind_eq_ok, pure_eq_ok, throw_ne_ok, State.advance_memWf, setFull_memWf, scratchWrite_memWf]

theorem execWaitw_memWf {o : MFmt} {s t : State} (hs : s.memWf = true) (he : execWaitw o s = .next t) :
    t.memWf = true := by
  unfold execWaitw at he
  refine scalar_memWf hs (fun u hu => ?_) he
  clear he
  grind [bind_eq_ok, pure_eq_ok, throw_ne_ok, loadW_memWf, State.finish_memWf, acquireL1_memWf, State.block_memWf]

theorem execWaitwWake_memWf {st : Nat} {s t : State} (hs : s.memWf = true) (he : execWaitwWake st s = .next t) :
    t.memWf = true := by
  refine wake_memWf hs (fun i s t hs he => ?_) he
  split at he
  · exact execWaitw_memWf hs he
  · cases he; exact hs

theorem fenceDone_memWf {s : State} {scope : BitVec 2} (hs : s.memWf = true) : (fenceDone s scope).memWf = true :=
  State.advance_memWf (acquireL1_memWf hs)

theorem execFenceSv_memWf {o : MFmt} {s t : State} (hs : s.memWf = true) (he : execFenceSv o s = .next t) :
    t.memWf = true := by
  unfold execFenceSv at he
  refine scalar_memWf hs (fun u hu => ?_) he
  grind [fenceDone_memWf]

theorem execFenceVs_memWf {o : MFmt} {s t : State} (hs : s.memWf = true) (he : execFenceVs o s = .next t) :
    t.memWf = true := by
  unfold execFenceVs at he
  refine scalarWait_memWf hs (fun u hu => ?_) he
  grind [fenceDone_memWf]

theorem execFenceVv_memWf {o : MFmt} {s t : State} (hs : s.memWf = true) (he : execFenceVv o s = .next t) :
    t.memWf = true := by
  unfold execFenceVv at he
  refine scalar_memWf hs (fun u hu => ?_) he
  grind [fenceDone_memWf, State.modMe_memWf]

theorem execFenceAll_memWf {o : MFmt} {s t : State} (hs : s.memWf = true) (he : execFenceAll o s = .next t) :
    t.memWf = true := by
  unfold execFenceAll at he
  refine scalarWait_memWf hs (fun u hu => ?_) he
  grind [fenceDone_memWf]

/-! ## Issue -/

theorem keepCode_memWf {s : State} {c pc : Nat} (hs : s.memWf = true) : (keepCode s c pc).memWf = true := by
  unfold keepCode
  dsimp only
  split
  · exact hs
  · split
    · exact State.modCore_memWf_same hs rfl
    · exact charge_memWf (State.modCore_memWf_same hs rfl)

theorem countPlace_scratch (s : State) (k : Nat) (second : Bool) (c : Core) : (countPlace s k second c).scratch = c.scratch := by
  unfold countPlace
  dsimp only
  split
  · rfl
  · split
    · rfl
    · split <;> rfl

theorem countIssue_memWf {s : State} {k : Nat} {second : Bool} (hs : s.memWf = true) :
    (countIssue s k second).memWf = true := State.modCore_memWf_same hs (countPlace_scratch _ _ _ _)

theorem issued_memWf {before t : State} {x : Host.Outcome State Fault Refusal} (hb : before.memWf = true)
    (hx : ∀ u, x = .next u → u.memWf = true) (he : issued before x = .next t) : t.memWf = true := by
  unfold issued at he
  split at he
  · split at he <;> cases he
    · exact State.modMe_memWf hb
    · exact State.modHive_memWf (hx _ rfl)
  · exact hx t he

theorem tryAgain_memWf {s : State} (hs : s.memWf = true) : (tryAgain s).memWf = true := by
  unfold tryAgain
  split <;> exact hs

theorem fetchDecode_memWf {s : State} {second : Bool} (hs : s.memWf = true) : (fetchDecode s second).memWf = true := by
  have ht := countIssue_memWf (k := s.cur) (second := second) hs
  have wrong (c : Cause) (w : Word) {u : State} (hu : u.memWf = true) :
      (if queuedWord w then trapAtEnqueue u (wordEntry u u.me w) (Trap.at c w) else raise u (Trap.at c w)).memWf = true := by
    split
    · exact trapAtEnqueue_memWf hu
    · exact raise_memWf hu
  unfold fetchDecode
  dsimp only
  split
  · exact raise_memWf ht
  · split
    · exact keepCode_memWf hs
    · exact wrong _ _ (keepCode_memWf ht)
    · exact wrong _ _ (keepCode_memWf ht)

theorem issue_memWf {s : State} (hs : s.memWf = true) : (issue s).memWf = true := by
  have go (c k turn : Nat) (second : Bool) :
      (fetchDecode ({ s with cur := k, coreTurn := turn }.modCore c (fun x => { x with roundFirst := none })) second).memWf = true :=
    fetchDecode_memWf (State.modCore_memWf_same hs rfl)
  unfold issue
  dsimp only
  split
  · exact go _ _ _ _
  · split
    · exact State.modCore_memWf_same hs rfl
    · exact go _ _ _ _

theorem tick_memWf {s : State} (hs : s.memWf = true) : (tick s).memWf = true := by
  refine memWf_of_scratch hs rfl (fun c hc => ?_)
  obtain ⟨n, hn, rfl⟩ := List.mem_mapIdx.mp hc
  exact ⟨s.cores[n], List.getElem_mem hn, rfl⟩

/-! ## The start of a step -/

theorem beginStep_memWf {s : State} (hs : s.memWf = true) : (beginStep s).memWf = true :=
  goOnTakings_memWf (tick_memWf hs)

/-! ## Every instruction, and a step -/

theorem exec_memWf {i : Instr} {s t : State} (hs : s.memWf = true) (he : exec i s = .next t) : t.memWf = true := by
  cases i with
  | add _ | sub _ | and _ | or _ | xor _ | shl _ | shr _ | sar _ | slt _ | sltu _ | min _ | max _ | minu _
  | maxu _ | sext _ | zext _ | clz _ | ctz _ | popc _ | addi _ | andi _ | ori _ | xori _ | shli _ | shri _
  | sari _ | slti _ | lih _ | addpc _ | mul _ | mulh _ | mulhu _ | div _ | divu _ | rem _ | remu _ => exact alu_memWf hs he
  | fadd _ => exact execFadd_memWf hs he
  | fsub _ => exact execFsub_memWf hs he
  | fmul _ => exact execFmul_memWf hs he
  | fdiv _ => exact execFdiv_memWf hs he
  | fsqrt _ => exact execFsqrt_memWf hs he
  | fma _ => exact execFma_memWf hs he
  | fmin _ => exact execFmin_memWf hs he
  | fmax _ => exact execFmax_memWf hs he
  | fcmp _ => exact execFcmp_memWf hs he
  | fcvt _ => exact execFcvt_memWf hs he
  | fclass _ => exact execFclass_memWf hs he
  | beq _ | bne _ | blt _ | bge _ | bltu _ | bgeu _ | j _ => exact branch_memWf hs he
  | jal _ => exact execJal_memWf hs he
  | jalr _ => exact execJalr_memWf hs he
  | ld _ _ => exact execLd_memWf hs he
  | lda _ _ => exact execLda_memWf hs he
  | st _ _ => exact execSt_memWf hs he
  | stl _ _ => exact execStl_memWf hs he
  | amo _ _ _ => exact execAmo_memWf hs he
  | ldfe _ _ _ => exact execLdfe_memWf hs he
  | ldfeWake _ => exact execLdfeWake_memWf hs he
  | stfe _ _ => exact execStfe_memWf hs he
  | waitw _ => exact execWaitw_memWf hs he
  | waitwWake _ => exact execWaitwWake_memWf hs he
  | fenceSv _ => exact execFenceSv_memWf hs he
  | fenceVs _ => exact execFenceVs_memWf hs he
  | fenceVv _ => exact execFenceVv_memWf hs he
  | fenceAll _ => exact execFenceAll_memWf hs he
  | setvl _ => exact execSetvl_memWf hs he
  | ctlrd _ => exact execCtlrd_memWf hs he
  | ctlwrFpctl _ => exact execCtlwrFpctl_memWf hs he
  | ctlwrSeed _ => exact execCtlwrSeed_memWf hs he
  | ctlwrTrapvec _ => exact execCtlwrTrapvec_memWf hs he
  | ctlwrTblroot _ => exact execCtlwrTblroot_memWf hs he
  | ctlwrYieldwin _ => exact execCtlwrYieldwin_memWf hs he
  | ctlwrSplit _ => exact execCtlwrSplit_memWf hs he
  | ctlwr _ => exact execCtlwr_memWf hs he
  | cycrd _ => exact execCycrd_memWf hs he
  | cflush _ => exact execCflush_memWf hs he
  | ainv _ => exact execAinv_memWf hs he
  | tmark _ => exact execTmark_memWf hs he
  | trap _ => exact execTrap_memWf hs he
  | brk _ => exact execBrk_memWf hs he
  | tret _ | tretSkip _ => exact tret_memWf hs he
  | nop o => exact execNop_memWf (o := o) hs he
  | hnew _ => exact execHnew_memWf hs he
  | hgiveShares _ => exact execHgiveShares_memWf hs he
  | hgiveRing _ => exact execHgiveRing_memWf hs he
  | hgiveFabricBindings _ => exact execHgiveFabricBindings_memWf hs he
  | hgiveMemory _ => exact execHgiveMemory_memWf hs he
  | hgiveBuckets _ => exact execHgiveBuckets_memWf hs he
  | htakeShares _ => exact execHtakeShares_memWf hs he
  | htakeRing _ => exact execHtakeRing_memWf hs he
  | htakeFabricBindings _ => exact execHtakeFabricBindings_memWf hs he
  | htakeMemory _ => exact execHtakeMemory_memWf hs he
  | htakeBuckets _ => exact execHtakeBuckets_memWf hs he
  | hkill _ => exact execHkill_memWf hs he
  | hstat _ => exact execHstat_memWf hs he
  | hretReissue _ => exact execHretReissue_memWf hs he
  | hretSkip _ => exact execHretSkip_memWf hs he
  | hretDeliver _ => exact execHretDeliver_memWf hs he
  | hretForward _ => exact execHretForward_memWf hs he
  | hretPlace _ => exact execHretPlace_memWf hs he
  | spawn _ | glaunch _ => exact launch_memWf hs he
  | squit _ => exact execSquit_memWf hs he
  | squitComplete _ => exact execSquitComplete_memWf hs he
  | gbar _ => exact execGbar_memWf hs he
  | gbarComplete _ _ => exact execGbarComplete_memWf hs he
  | gwait _ => exact execGwait_memWf hs he
  | gwaitComplete _ => exact execGwaitComplete_memWf hs he
  | yield _ => exact execYield_memWf hs he
  | vadd _ | vsub _ | vmul _ | vmulh _ | vdiv _ | vmin _ | vmax _ | vabs _ | vneg _ | vand _ | vor _ | vxor _
  | vshl _ | vshr _ | vsar _ | vclamp _ | vfma _ | vsqrt _ | vrcp _ | vrsq _ | vexp2 _ | vlog2 _ | vtanh _
  | vcmp _ _ | vsel _ | vcvt _ | vred _ | vscan _ | vcomp _ | vexpd _ | vslide _ | vperm _ | vhad _ | vbcast _
  | vindex _ | vext _ | vins _ | vzip _ | vunzip _ | mkand _ | mkor _ | mkxor _ | mknot _ | mkpopc _ | mkfirst _
  | mktest _ | mkset _ | vld _ | vst _ | vldx _ | vstx _ | vamo _ | vldfe _ | vpf _ | sbind _ | sset _ | sget _
  | sadv _ | vpush _ | vwaitf _ | tmode _ | topa _ | tops _ | tzero _ | trd _ | twr _ | tscl _ | fbind _
  | ffree _ | fx _ _ | fcfg _ | fdrain _ | fstat _ | fctxLoad _ | fctxPin _ | fctxUnpin _ | fctxEvict _ =>
    dsimp only [exec] at he
    exact enqueue_memWf hs he
  | vldfeWake _ => exact execVldfeWake_memWf hs he
  | vpushTransfer _ => exact execVpushTransfer_memWf hs he
  | vwaitfFill _ => exact execVwaitfFill_memWf hs he
  | fdrainComplete _ => exact execFdrainComplete_memWf hs he
  | fabricContextLoad _ _ => exact execFabricContextLoad_memWf hs he
  | combContextServe _ _ => exact execCombContextServe_memWf hs he
  | fabricStall _ _ _ => exact execFabricStall_memWf hs he
  | coalescingBufferFlush _ _ => exact execCoalescingBufferFlush_memWf hs he
  | wgcfg _ => exact execWgcfg_memWf hs he
  | wgcfgClose _ => exact execWgcfgClose_memWf hs he
  | wgcfgCloseComplete _ => exact execWgcfgCloseComplete_memWf hs he
  | wgpair _ => exact execWgpair_memWf hs he
  | wginj _ => exact execWginj_memWf hs he
  | wgwait _ => exact execWgwait_memWf hs he
  | wgwaitWake _ => exact execWgwaitWake_memWf hs he
  | wgdrain _ => exact execWgdrain_memWf hs he
  | wgdrainComplete _ => exact execWgdrainComplete_memWf hs he
  | wgstat _ => exact execWgstat_memWf hs he
  | wgend _ => exact execWgend_memWf hs he
  | ringBeat _ => exact execRingBeat_memWf hs he
  | ringStranded _ _ => exact execRingStranded_memWf hs he
  | ringStuck _ _ => exact execRingStuck_memWf hs he
  | xcopy _ | xfill _ | xztab _ | xzenc _ | xseal _ => exact issueCommand_memWf hs he
  | xwait _ => exact execXwait_memWf hs he
  | xwaitWake _ => exact execXwaitWake_memWf hs he
  | engineCommandStart _ => exact execEngineCommandStart_memWf hs he
  | copyChunk _ => exact execCopyChunk_memWf hs he
  | codecBlock _ => exact execCodecBlock_memWf hs he
  | xztabInstall _ => exact execXztabInstall_memWf hs he
  | sealStamp _ => exact execSealStamp_memWf hs he
  | commandCompletion _ => exact execCommandCompletion_memWf hs he
  | strandPlacement _ _ => exact execStrandPlacement_memWf hs he
  | queueHeadTagAllocation _ => exact execQueueHeadTagAllocation_memWf hs he
  | microOperationIssue _ _ => exact execMicroOperationIssue_memWf hs he
  | egProduced _ => exact execEgProduced_memWf hs he
  | matrixUnitTake _ => exact execMatrixUnitTake_memWf hs he
  | matrixUnitLeave _ => exact execMatrixUnitLeave_memWf hs he
  | pageWalkComplete _ => exact execPageWalkComplete_memWf hs he
  | llcRequestAdmit _ => exact execLlcRequestAdmit_memWf hs he
  | bucketRefill _ => exact execBucketRefill_memWf hs he
  | l1DirtyTimeout _ _ => exact execL1DirtyTimeout_memWf hs he
  | trapDelivery _ => exact execTrapDelivery_memWf hs he
  | yieldwinExpiry _ => exact execYieldwinExpiry_memWf hs he
  | fullSave _ => exact execFullSave_memWf hs he
  | resumption _ => exact execResumption_memWf hs he
  | machineCheck _ _ _ => exact execMachineCheck_memWf hs he
  | llcTagParityError _ => exact execLlcTagParityError_memWf hs he
  | correctedError _ _ => exact execCorrectedError_memWf hs he
  | scrub => exact execScrub_memWf hs he
  | hostAccess _ _ _ => exact execHostAccess_memWf hs he
  | remoteAccess _ _ _ => exact execRemoteAccess_memWf hs he
  | peerLinkDown _ => exact execPeerLinkDown_memWf hs he
  | powerSample _ => exact execPowerSample_memWf hs he
  | grantRaise _ => exact execGrantRaise_memWf hs he
  | issueDuty _ _ => exact execIssueDuty_memWf hs he
  | createRoot => exact execCreateRoot_memWf hs he
  | destroyRoot => exact execDestroyRoot_memWf hs he
  | bindVf => exact execBindVf_memWf hs he
  | unbindVf => exact execUnbindVf_memWf hs he
  | sealRange => exact execSealRange_memWf hs he
  | unsealRange => exact execUnsealRange_memWf hs he
  | peerMap => exact execPeerMap_memWf hs he
  | powerCap => exact execPowerCap_memWf hs he
  | migrate => exact execMigrate_memWf hs he
  | rootHret => exact execRootHret_memWf hs he
  | readCounts => exact execReadCounts_memWf hs he
  | importEntry => exact execImportEntry_memWf hs he
  | powerUp => exact execPowerUp_memWf hs he
  | moduleReset => exact execModuleReset_memWf hs he
  | go _ => exact execGo_memWf hs he
  | bootWindowWrite _ _ => exact execBootWindowWrite_memWf hs he
  | firmwareImageVerify => exact execFirmwareImageVerify_memWf hs he
  | firmwareTrainingComplete _ => exact execFirmwareTrainingComplete_memWf hs he
  | hostInvalidation _ _ => exact execHostInvalidation_memWf hs he
  | unknownCodeRequest => exact execUnknownCodeRequest_memWf hs he

theorem runIssued_memWf {x : Issued} {t : State} (hx : x.memWf = true) (he : runIssued x = .next t) : t.memWf = true := by
  cases x with
  | idle s => cases he; exact hx
  | trapped s => cases he; exact hx
  | run i second s => exact issued_memWf hx (fun u hu => exec_memWf (countIssue_memWf hx) hu) he

theorem step_memWf {s t : State} (hs : s.memWf = true) (he : step s = .next t) : t.memWf = true := by
  have hb := beginStep_memWf hs
  unfold step at he
  dsimp only at he
  split at he
  · refine exec_memWf ?_ he
    exact memWf_congr rfl rfl hb
  · split at he
    · have ht := tryAgain_memWf hb
      split at he
      · refine exec_memWf ?_ he
        exact memWf_congr rfl rfl ht
      · refine runIssued_memWf (issue_memWf ?_) he
        exact memWf_congr rfl rfl ht
    · refine runIssued_memWf (issue_memWf ?_) he
      exact memWf_congr rfl rfl hb

/-- Settles O60: each instruction's meaning reaches the memories through operations that keep the form, and so do the duties
of a step before and after it. -/
theorem stepsKeepMemoryCanonical : Obligations.StepsKeepMemoryCanonical :=
  ⟨fun _ _ _ => exec_memWf, fun _ _ => step_memWf⟩

end Sys2Proof.Machine

/-! SUPPORT. Scalar loads from and stores to scratchpad (R3, R93, R105, R125): what a load and a store do there, what a release
leaves as it was, and so that an address leads to the same place after it. -/

namespace Sys2Proof.Machine

/-! ## Values -/

/-- The value that a signed load writes (Table 15.2) is the sign extension of its bytes. -/
theorem word_toSigned (w n : Nat) : word (toSigned (w + 1) n) = (BitVec.ofNat (w + 1) n).signExtend 64 := by
  have hpow : 2 ^ (w + 1) = 2 * 2 ^ w := Nat.pow_succ'
  have ht : toSigned (w + 1) n = (BitVec.ofNat (w + 1) n).toInt := by
    rw [BitVec.toInt_eq_toNat_cond, BitVec.toNat_ofNat, toSigned, Nat.add_sub_cancel]
    by_cases h : n % 2 ^ (w + 1) < 2 ^ w
    · rw [if_pos h, if_pos (by omega)]
    · rw [if_neg h, if_neg (by omega)]
  rw [ht]
  rfl

/-- A byte of the low n bytes of a number is that byte of the number. -/
theorem byte_mod_pow (x : Nat) {n k : Nat} (h : k < n) :
    BitVec.ofNat 8 (x % 2 ^ (8 * n) / 256 ^ k) = BitVec.ofNat 8 (x / 256 ^ k) := by
  have hn : 2 ^ (8 * n) = 256 ^ k * 256 ^ (n - k) := by
    rw [Nat.pow_mul, ← Nat.pow_add, Nat.add_sub_cancel' h.le]
  have hd : 256 ∣ 256 ^ (n - k) := dvd_pow_self 256 (by omega)
  apply BitVec.eq_of_toNat_eq
  rw [BitVec.toNat_ofNat, BitVec.toNat_ofNat, hn, Nat.mod_mul_right_div_self]
  exact Nat.mod_mod_of_dvd _ hd

/-! ## What a release leaves -/

section
variable (s : State) (w : Who) (hive c n : Nat)

theorem writeBack_eq (l : L1Line) : ∃ m q, writeBack s hive l = { s with mem := m, llc := q } := by
  unfold writeBack
  split
  · exact ⟨s.mem, s.llc, rfl⟩
  · exact ⟨_, _, rfl⟩

theorem writeBacks_eq (ls : List L1Line) :
    ∃ m q, ls.foldl (fun s l => writeBack s hive l) s = { s with mem := m, llc := q } := by
  induction ls generalizing s with
  | nil => exact ⟨s.mem, s.llc, rfl⟩
  | cons l ls ih =>
    obtain ⟨m, q, hl⟩ := writeBack_eq s hive l
    obtain ⟨m', q', hls⟩ := ih (writeBack s hive l)
    exact ⟨m', q', by rw [List.foldl_cons, hls, hl]⟩

/-- A flush changes memory, the requests and the lines of one core. -/
theorem flushL1_eq : ∃ (m : Mem) (q : List LlcReq) (f : Core → List L1Line),
    flushL1 s hive c = { s with mem := m, llc := q }.modCore c (fun k => { k with l1 := f k }) := by
  obtain ⟨m, q, h⟩ := writeBacks_eq s hive (s.core c).l1
  exact ⟨m, q, _, by rw [flushL1, h]⟩

theorem releaseL1_eq : releaseL1 s w n = s ∨ ∃ (c : Nat) (m : Mem) (q : List LlcReq) (f : Core → List L1Line),
    releaseL1 s w n = { s with mem := m, llc := q }.modCore c (fun k => { k with l1 := f k }) := by
  unfold releaseL1
  split
  · split
    · exact .inl rfl
    · exact .inr ⟨_, flushL1_eq s _ _⟩
  · exact .inl rfl

theorem releaseL1_strands : (releaseL1 s w n).strands = s.strands := by
  obtain h | ⟨c, m, q, f, h⟩ := releaseL1_eq s w n <;> rw [h]
  rfl

theorem releaseL1_cur : (releaseL1 s w n).cur = s.cur := by
  obtain h | ⟨c, m, q, f, h⟩ := releaseL1_eq s w n <;> rw [h]
  rfl

theorem releaseL1_cores_length : (releaseL1 s w n).cores.length = s.cores.length := by
  obtain h | ⟨c, m, q, f, h⟩ := releaseL1_eq s w n <;> rw [h]
  exact List.length_set

/-- A core after a release: its scratchpad and its SPLIT are as before. -/
theorem releaseL1_core (d : Nat) : ∃ ls, (releaseL1 s w n).core d = { s.core d with l1 := ls } := by
  obtain h | ⟨c, m, q, f, h⟩ := releaseL1_eq s w n <;> rw [h]
  · exact ⟨(s.core d).l1, rfl⟩
  · rw [State.core_mod]
    split
    · rename_i hc
      exact ⟨_, by rw [← hc.1]; rfl⟩
    · exact ⟨(s.core d).l1, rfl⟩

end

section
variable {s t : State} {w : Who} {k : AccessKind} {c off n x : Nat} {va : Word}

theorem State.me_congr (hs : t.strands = s.strands) (hc : t.cur = s.cur) : t.me = s.me := by
  unfold State.me State.strand
  rw [hs, hc]

theorem State.runs_congr (hs : t.strands = s.strands) (hc : t.cur = s.cur) : t.runs = s.runs := by
  unfold State.runs
  rw [State.me_congr hs hc, hs, hc]

/-! ## Scratchpad places -/

/-- Only an address of the window leads to scratchpad (R93). -/
theorem window_of_locate {va : Nat} (h : locate s w va k = .ok (.scratch c off, t)) :
    ∃ x, w.share = some x ∧ bits va 63 57 = 0 ∧ bits va 56 52 = 31 ∧ va % 2 ^ 52 < scratchLen (s.core x.core) x ∧
      c = x.core ∧ off = scratchBase (s.core x.core) x + va % 2 ^ 52 := by
  have hp (e : TlbEntry) : placeOf s w k (va % 2 ^ 52) e ≠ .ok (.scratch c off) := by
    unfold placeOf
    dsimp only
    split
    · nofun
    · split
      · split <;> nofun
      · split <;> nofun
  unfold locate at h
  dsimp only at h
  split at h
  · cases h
  · rename_i h57
    split at h
    · rename_i h31
      split at h
      · rename_i x hx
        split at h <;> cases h
        exact ⟨x, hx, not_not.mp h57, h31, ‹_›, rfl, rfl⟩
      · cases h
    · split at h
      · split at h
        · rename_i e u _
          cases hq : placeOf s w k (va % 2 ^ 52) e with
          | error r => rw [hq] at h; cases h
          | ok p =>
            rw [hq] at h
            cases h
            exact absurd hq (hp e)
        · cases h
      · split at h
        · cases h
        · split at h <;> cases h

/-- A release leaves each scratchpad address where it led. -/
theorem locate_scratch_release {va m : Nat} (h : locate s w va k = .ok (.scratch c off, t)) :
    locate (releaseL1 s w m) w va k = .ok (.scratch c off, releaseL1 s w m) := by
  obtain ⟨x, hx, h57, h31, hlt, rfl, rfl⟩ := window_of_locate h
  obtain ⟨ls, hc⟩ := releaseL1_core s w m x.core
  have hb : scratchBase ((releaseL1 s w m).core x.core) x = scratchBase (s.core x.core) x := by rw [hc]; rfl
  have hl : scratchLen ((releaseL1 s w m).core x.core) x = scratchLen (s.core x.core) x := by rw [hc]; rfl
  rw [locate_window k hx h57 h31 (by rw [hl]; exact hlt), hb]

theorem loadW_scratch {coh : Bool} (ha : va.toNat % n = 0) (hl : locate s w va.toNat .read = .ok (.scratch c off, s)) :
    loadW s w va n coh = .ok (Mem.read (s.core c).scratch off n, s) := by
  rw [loadW, if_neg (not_not.mpr ha), hl]
  rfl

theorem storeSt_scratch {through : Bool} (ha : va.toNat % n = 0)
    (hl : locate s w va.toNat .write = .ok (.scratch c off, s)) :
    storeSt s w va n x through = .ok (scratchWrite s c off n x) := by
  rw [storeSt, if_neg (not_not.mpr ha), hl]
  rfl

theorem scratchWrite_core (hc : c < s.cores.length) :
    (scratchWrite s c off n x).core c = { s.core c with scratch := Mem.write (s.core c).scratch off n x } := by
  rw [scratchWrite, State.core_mod, if_pos ⟨rfl, hc⟩]

theorem scratchWrite_core_other {d : Nat} (h : d ≠ c) : (scratchWrite s c off n x).core d = s.core d := by
  rw [scratchWrite, State.core_mod, if_neg (fun e => h e.1.symm)]

/-- The bytes of a core's scratchpad after the low n bytes of x went there. -/
theorem get_scratchWrite (hc : c < s.cores.length) (a : Nat) :
    Mem.get ((scratchWrite s c off n (x % 2 ^ (8 * n))).core c).scratch a =
      if off ≤ a ∧ a < off + n then BitVec.ofNat 8 (x / 256 ^ (a - off)) else Mem.get (s.core c).scratch a := by
  rw [scratchWrite_core hc, Mem.get_write]
  split
  · exact byte_mod_pow x (by omega)
  · rfl

/-! ## Loads and stores -/

/-- The value of a load in the words of Table 15.2. -/
theorem loadValue_eq (sz : LoadSize) (x : Nat) : loadValue sz x = match sz with
    | .b | .h | .w => (BitVec.ofNat (8 * loadBytes sz) x).signExtend 64
    | _ => BitVec.ofNat 64 x := by
  cases sz with
  | b => exact word_toSigned 7 x
  | h => exact word_toSigned 15 x
  | w => exact word_toSigned 31 x
  | bu | hu | wu | d => rfl

theorem exec_ld_scratch {sz : LoadSize} {o : MFmt} (hr : s.runs = true) (ho : o.ord = 0)
    (ha : (mAddr s.me o).toNat % loadBytes sz = 0)
    (hl : locate s s.who (mAddr s.me o).toNat .read = .ok (.scratch c off, s)) :
    exec (.ld sz o) s = .next (s.finish o.gd (loadValue sz (Mem.read (s.core c).scratch off (loadBytes sz)))) := by
  rw [← scalar_next hr]
  change execLd sz o s = _
  simp [execLd, need, ho, loadW_scratch ha hl, bind, Except.bind, pure, Except.pure]

theorem exec_lda_scratch {sz : LoadSize} {o : MFmt} (hr : s.runs = true) (ho : o.ord = 1)
    (ha : (mAddr s.me o).toNat % loadBytes sz = 0)
    (hl : locate s s.who (mAddr s.me o).toNat .read = .ok (.scratch c off, s)) :
    exec (.lda sz o) s = .next ((acquireL1 s s.who o.scope.toNat).finish o.gd
      (loadValue sz (Mem.read (s.core c).scratch off (loadBytes sz)))) := by
  rw [← scalar_next hr]
  change execLda sz o s = _
  simp [execLda, need, ho, loadW_scratch ha hl, bind, Except.bind, pure, Except.pure]

theorem exec_st_scratch {sz : StoreSize} {o : MFmt} (hr : s.runs = true) (ho : o.ord = 0)
    (ha : (mAddr s.me o).toNat % storeBytes sz = 0)
    (hl : locate s s.who (mAddr s.me o).toNat .write = .ok (.scratch c off, s)) :
    exec (.st sz o) s = .next
      (scratchWrite s c off (storeBytes sz) ((s.me.greg o.gb).toNat % 2 ^ (8 * storeBytes sz))).advance := by
  rw [← scalar_next hr]
  change execSt sz o s = _
  simp [execSt, need, ho, storeSt_scratch ha hl, bind, Except.bind, pure, Except.pure]

theorem exec_stl_scratch {sz : StoreSize} {o : MFmt} (hr : s.runs = true) (ho : o.ord = 2)
    (ha : (mAddr s.me o).toNat % storeBytes sz = 0)
    (hl : locate s s.who (mAddr s.me o).toNat .write = .ok (.scratch c off, s)) :
    exec (.stl sz o) s = .next (scratchWrite (releaseL1 s s.who o.scope.toNat) c off (storeBytes sz)
      ((s.me.greg o.gb).toNat % 2 ^ (8 * storeBytes sz))).advance := by
  rw [← scalar_next hr]
  change execStl sz o s = _
  simp [execStl, need, ho, storeSt_scratch ha (locate_scratch_release hl), bind, Except.bind, pure, Except.pure]

theorem State.advance_core (s : State) (c : Nat) : s.advance.core c = s.core c := rfl

theorem acquireL1_zero (s : State) (w : Who) : acquireL1 s w 0 = s := by
  unfold acquireL1
  split <;> rfl

end

/-- Settles O14: a scratchpad address leads through the window of R93 alone, and a release leaves the window and the scratchpad
as they were. -/
theorem scratchpadLoadsAndStores : Obligations.ScratchpadLoadsAndStores := by
  unfold Obligations.ScratchpadLoadsAndStores
  constructor
  · intro s sz o c off hr va n ha hl x v
    have hv : loadValue sz (Mem.read (s.core c).scratch off (loadBytes sz)) = v := loadValue_eq sz _
    have hld (ho : o.ord = 1) := hv ▸ exec_lda_scratch hr ho ha hl
    refine ⟨fun ho => ⟨_, exec_ld_scratch hr ho ha hl, hv ▸ Wrote.finish hr _ _⟩, fun ho hsc => ⟨_, hld ho, ?_⟩, hld⟩
    rw [hsc]
    exact (acquireL1_zero s s.who).symm ▸ Wrote.finish hr _ _
  · intro s sz o c off hr hc va n ha hl x
    have hu := releaseL1_strands s s.who o.scope.toNat
    have hcur := releaseL1_cur s s.who o.scope.toNat
    have hcu := (releaseL1_cores_length s s.who o.scope.toNat).symm ▸ hc
    refine ⟨fun ho => ⟨_, exec_st_scratch hr ho ha hl, rfl, fun k hk => State.strand_mod_other _ _ k _ hk,
      State.me_mod ((State.runs_congr rfl rfl).trans hr) _, fun d hd => scratchWrite_core_other hd, ?_, get_scratchWrite hc⟩,
      fun ho => ⟨_, exec_stl_scratch hr ho ha hl, ?_, rfl, fun a => (get_scratchWrite hcu a).trans ?_⟩⟩
    · rw [State.advance_core, scratchWrite_core hc]
    · exact (State.me_mod ((State.runs_congr hu hcur).trans hr) _).trans (congrArg Strand.nextPc (State.me_congr hu hcur))
    · obtain ⟨ls, hls⟩ := releaseL1_core s s.who o.scope.toNat c
      rw [hls]

end Sys2Proof.Machine

/-! SUPPORT. The L1 and the coherence point (R16, R103, R105, R122): the bytes of a line, what a write-back, a fetch, a store and the
line that a full L1 gives up leave in memory and in the L1, and that no access changes more than memory, the requests, and the TLB
and the L1 of its core. -/

namespace Sys2Proof.Machine

/-! ## Bytes of numbers, lines and memory -/

theorem leBytes_eq_map (n x : Nat) : leBytes n x = (List.range n).map (fun k => BitVec.ofNat 8 (x / 256 ^ k)) := by
  apply List.ext_getElem
  · simp [leBytes_length]
  · intro k h _
    have hk : k < n := by simpa [leBytes_length] using h
    have := leBytes_getD n x k hk
    rw [List.getD_eq_getElem _ _ h] at this
    simpa using this

/-- The bytes of a number spell the number. -/
theorem ofLeBytes_of_bytes {n x : Nat} {f : Nat → Byte} (hx : x < 256 ^ n)
    (hf : ∀ k < n, f k = BitVec.ofNat 8 (x / 256 ^ k)) : ofLeBytes ((List.range n).map f) = x := by
  rw [List.map_congr_left (fun k hk => hf k (List.mem_range.mp hk)), ← leBytes_eq_map, ofLeBytes_leBytes,
    Nat.mod_eq_of_lt hx]

/-- Byte k of the number that bytes spell is the k-th of them. -/
theorem ofLeBytes_byte {bs : List Byte} {k : Nat} (h : k < bs.length) : BitVec.ofNat 8 (ofLeBytes bs / 256 ^ k) = bs[k] := by
  induction bs generalizing k with
  | nil => cases h
  | cons b bs ih =>
    cases k with
    | zero =>
      apply BitVec.eq_of_toNat_eq
      have := b.isLt
      simp only [ofLeBytes, pow_zero, Nat.div_one, BitVec.toNat_ofNat, List.getElem_cons_zero]
      omega
    | succ k =>
      have hb : (b.toNat + 256 * ofLeBytes bs) / 256 = ofLeBytes bs := by have := b.isLt; omega
      rw [ofLeBytes, Nat.pow_succ', ← Nat.div_div_eq_div_mul, hb, List.getElem_cons_succ]
      exact ih (by simpa using h)

theorem ofNat_elemAt_byte {w : Nat} (v : BitVec w) (k : Nat) : BitVec.ofNat 8 (elemAt v 8 k) = BitVec.ofNat 8 (v.toNat / 256 ^ k) := by
  apply BitVec.eq_of_toNat_eq
  rw [elemAt, Nat.pow_mul, BitVec.toNat_ofNat, BitVec.toNat_ofNat, Nat.mod_mod]
  

/-- The bytes of an element of n bytes stand from n times its number on. -/
theorem byte_of_elemAt {w : Nat} (v : BitVec w) {n k : Nat} (e : Nat) (h : k < n) :
    BitVec.ofNat 8 (elemAt v 8 (n * e + k)) = BitVec.ofNat 8 (elemAt v (8 * n) e / 256 ^ k) := by
  have hp : 256 ^ (n * e + k) = 2 ^ (8 * n * e) * 256 ^ k := by
    rw [Nat.pow_add, Nat.mul_assoc 8 n e, Nat.pow_mul 2 8]
  rw [ofNat_elemAt_byte, elemAt, byte_mod_pow _ h, Nat.div_div_eq_div_mul, hp]

/-- The bytes of a line that an element of n bytes takes spell the element. -/
theorem ofLeBytes_elemAt {w : Nat} (v : BitVec w) (n e : Nat) :
    ofLeBytes ((List.range n).map (fun k => BitVec.ofNat 8 (elemAt v 8 (n * e + k)))) = elemAt v (8 * n) e :=
  ofLeBytes_of_bytes ((elemAt_lt v (8 * n) e).trans_eq (Nat.pow_mul 2 8 n)) (fun _ hk => byte_of_elemAt v e hk)

theorem setElemAt_mod {w : Nat} (v : BitVec w) (b e x : Nat) : setElemAt v b e (x % 2 ^ b) = setElemAt v b e x := by
  rw [setElemAt, Nat.mod_mod, setElemAt]

/-- A byte of a line after an element of n bytes was written. -/
theorem byte_setElemAt {w n e : Nat} (v : BitVec w) (x j : Nat) (h : n * e + n ≤ w / 8) :
    BitVec.ofNat 8 (elemAt (setElemAt v (8 * n) e x) 8 j) =
      if n * e ≤ j ∧ j < n * e + n then BitVec.ofNat 8 (x / 256 ^ (j - n * e)) else BitVec.ofNat 8 (elemAt v 8 j) := by
  have hw : 8 * n * e + 8 * n ≤ w := by rw [Nat.mul_assoc]; omega
  split
  · rename_i hj
    obtain ⟨k, rfl⟩ := Nat.exists_eq_add_of_le hj.1
    have hk : k < n := by omega
    rw [byte_of_elemAt _ _ hk, elemAt_setElemAt _ _ _ _ _ hw, if_pos rfl, byte_mod_pow _ hk, Nat.add_sub_cancel_left]
  · rename_i hj
    congr 1
    apply Nat.eq_of_testBit_eq
    intro i
    rw [testBit_elemAt, testBit_elemAt, getLsbD_setElemAt _ _ _ _ _ hw, Nat.mul_assoc]
    by_cases hi : i < 8
    · rw [if_neg (by omega)]
    · simp [hi]

/-- A byte of the number that memory holds from an address on. -/
theorem byte_read (m : Mem) (a : Nat) {n k w : Nat} (hk : k < n) (hw : w = 8 * n) :
    BitVec.ofNat 8 (elemAt (BitVec.ofNat w (Mem.read m a n)) 8 k) = Mem.get m (a + k) := by
  subst hw
  have hl : k < (Mem.take m a n).length := by simpa [Mem.take] using hk
  rw [ofNat_elemAt_byte, BitVec.toNat_ofNat, byte_mod_pow _ hk, Mem.read, ofLeBytes_byte hl]
  simp [Mem.take]

/-- A byte of memory after the low n bytes of x were stored. -/
theorem Mem.get_write_low (m : Mem) (pa n x a : Nat) : Mem.get (Mem.write m pa n (x % 2 ^ (8 * n))) a =
    if pa ≤ a ∧ a < pa + n then BitVec.ofNat 8 (x / 256 ^ (a - pa)) else Mem.get m a := by
  rw [Mem.get_write]
  split
  · exact byte_mod_pow x (by omega)
  · rfl

/-! ## Lines written back -/

theorem putDirty_clean {l : L1Line} (h : l.dirty = 0) (m : Mem) : putDirty m l = m := by
  simp [putDirty, h]

/-- A byte of memory after the chosen bytes of a list were written from an address on. -/
theorem get_foldl_write (b : Nat) (p : Nat → Bool) (f : Nat → Nat) (ks : List Nat) (m : Mem) (a : Nat) :
    Mem.get (ks.foldl (fun m k => if p k then Mem.write m (b + k) 1 (f k) else m) m) a =
      if b ≤ a ∧ a - b ∈ ks ∧ p (a - b) = true then BitVec.ofNat 8 (f (a - b)) else Mem.get m a := by
  induction ks generalizing m with
  | nil => simp
  | cons k ks ih =>
    have hw (hp : p k = true) : Mem.get (Mem.write m (b + k) 1 (f k)) a =
        if b ≤ a ∧ a - b = k ∧ p (a - b) = true then BitVec.ofNat 8 (f (a - b)) else Mem.get m a := by
      rw [Mem.get_write]
      by_cases h : b ≤ a ∧ a - b = k
      · rw [if_pos (by omega), if_pos ⟨h.1, h.2, h.2.symm ▸ hp⟩, show a - (b + k) = 0 by omega, h.2, pow_zero, Nat.div_one]
      · rw [if_neg (by omega), if_neg (fun x => h ⟨x.1, x.2.1⟩)]
    rw [List.foldl_cons, ih]
    simp only [List.mem_cons]
    grind

/-- Writing a line back changes its dirty bytes and no other (R122). -/
theorem get_putDirty (m : Mem) (l : L1Line) (a : Nat) : Mem.get (putDirty m l) a =
    if l.line = a / 128 ∧ l.dirty.getLsbD (a % 128) = true then BitVec.ofNat 8 (elemAt l.data 8 (a % 128)) else Mem.get m a := by
  rw [putDirty, get_foldl_write]
  simp only [List.mem_range]
  by_cases h : l.line = a / 128
  · rw [show a - 128 * l.line = a % 128 by omega]
    exact if_congr ⟨fun x => ⟨h, x.2.2⟩, fun x => ⟨by omega, by omega, x.2⟩⟩ rfl rfl
  · rw [if_neg (by omega), if_neg (fun x => h x.1)]

theorem writeBack_mem (s : State) (hive : Nat) (l : L1Line) : (writeBack s hive l).mem = putDirty s.mem l := by
  unfold writeBack
  split
  · exact (putDirty_clean ‹_› s.mem).symm
  · rfl

/-! ## What an access through the caches leaves -/

theorem State.modCore_modCore (s : State) (c : Nat) (f g : Core → Core) :
    (s.modCore c f).modCore c g = s.modCore c (fun k => g (f k)) := by
  by_cases hc : c < s.cores.length
  · rw [State.modCore, State.core_mod, if_pos ⟨rfl, hc⟩]
    simp [State.modCore]
  · simp [State.modCore, List.set_eq_of_length_le (Nat.le_of_not_lt hc)]

theorem State.modCore_self (s : State) (c : Nat) : s.modCore c (fun _ => s.core c) = s := by
  have h : s.cores.set c (s.core c) = s.cores := by
    by_cases hc : c < s.cores.length
    · rw [State.core, List.getD_eq_getElem _ _ hc, List.set_getElem_self]
    · exact List.set_eq_of_length_le (Nat.le_of_not_lt hc)
  rw [State.modCore, h]

/-- A core with another TLB and L1. -/
def Core.withCaches (k : Core) (b : List TlbEntry) (ls : List L1Line) : Core := { k with tlb := b, l1 := ls }

/-- Only memory, the requests at the slice ports, and the TLB and the L1 of core c differ. -/
def CachesOnly (s t : State) (c : Nat) : Prop :=
  ∃ m q b ls, t = { s with mem := m, llc := q }.modCore c (fun k => k.withCaches b ls)

section
variable {s t u : State} {c d hive n : Nat}

theorem CachesOnly.refl (s : State) (c : Nat) : CachesOnly s s c :=
  ⟨s.mem, s.llc, (s.core c).tlb, (s.core c).l1, (s.modCore_self c).symm⟩

theorem CachesOnly.trans (h : CachesOnly s t c) (h' : CachesOnly t u c) : CachesOnly s u c := by
  obtain ⟨m, q, b, ls, rfl⟩ := h
  obtain ⟨m', q', b', ls', rfl⟩ := h'
  exact ⟨m', q', b', ls', State.modCore_modCore { s with mem := m', llc := q' } c (·.withCaches b ls) (·.withCaches b' ls')⟩

theorem CachesOnly.withMem (m : Mem) (q : List LlcReq) : CachesOnly s { s with mem := m, llc := q } c :=
  ⟨m, q, (s.core c).tlb, (s.core c).l1, (State.modCore_self { s with mem := m, llc := q } c).symm⟩

theorem CachesOnly.modL1 (f : Core → List L1Line) : CachesOnly s (s.modCore c (fun k => { k with l1 := f k })) c :=
  ⟨s.mem, s.llc, (s.core c).tlb, f (s.core c), rfl⟩

theorem CachesOnly.modTlb (b : List TlbEntry) : CachesOnly s (s.modCore c (fun k => { k with tlb := b })) c :=
  ⟨s.mem, s.llc, b, (s.core c).l1, rfl⟩

/-- Every field of the state but these is as it was. -/
theorem CachesOnly.state_eq (h : CachesOnly s t c) : t = { s with cores := t.cores, llc := t.llc, mem := t.mem } := by
  obtain ⟨m, q, b, ls, rfl⟩ := h
  rfl

theorem CachesOnly.core_eq (h : CachesOnly s t c) (d : Nat) :
    t.core d = { s.core d with tlb := (t.core d).tlb, l1 := (t.core d).l1 } := by
  obtain ⟨m, q, b, ls, rfl⟩ := h
  rw [State.core_mod]
  split
  · rename_i hd
    rw [← hd.1]
    rfl
  · rfl

theorem CachesOnly.core_other (h : CachesOnly s t c) (hd : d ≠ c) : t.core d = s.core d := by
  obtain ⟨m, q, b, ls, rfl⟩ := h
  rw [State.core_mod, if_neg (fun x => hd x.1.symm)]
  rfl

theorem CachesOnly.cores_length (h : CachesOnly s t c) : t.cores.length = s.cores.length := by
  obtain ⟨m, q, b, ls, rfl⟩ := h
  exact List.length_set

theorem CachesOnly.l1Lines (h : CachesOnly s t c) (d : Nat) : (t.core d).l1Lines = (s.core d).l1Lines := by
  rw [h.core_eq d]
  rfl

theorem CachesOnly.scratch (h : CachesOnly s t c) (d : Nat) : (t.core d).scratch = (s.core d).scratch := by
  rw [h.core_eq d]

theorem CachesOnly.strands (h : CachesOnly s t c) : t.strands = s.strands := by rw [h.state_eq]

theorem CachesOnly.cur (h : CachesOnly s t c) : t.cur = s.cur := by rw [h.state_eq]

theorem CachesOnly.me (h : CachesOnly s t c) : t.me = s.me := State.me_congr h.strands h.cur

theorem CachesOnly.who (h : CachesOnly s t c) : t.who = s.who := by rw [State.who, h.me, State.who]

theorem CachesOnly.runs (h : CachesOnly s t c) : t.runs = s.runs := State.runs_congr h.strands h.cur

/-- The L1 of a core whose lines were replaced. -/
theorem State.core_modL1 (hc : c < s.cores.length) (f : Core → List L1Line) :
    (s.modCore c (fun k => { k with l1 := f k })).core c = { s.core c with l1 := f (s.core c) } := by
  rw [State.core_mod, if_pos ⟨rfl, hc⟩]

theorem charge_cachesOnly (pa : Nat) : CachesOnly s (charge s hive pa n) c := .withMem _ _

theorem writeBack_cachesOnly (l : L1Line) : CachesOnly s (writeBack s hive l) c := by
  obtain ⟨m, q, h⟩ := writeBack_eq s hive l
  exact h ▸ .withMem m q

theorem dropLine_cachesOnly : CachesOnly s (dropLine s hive c n) c := by
  unfold dropLine
  split
  · exact .refl s c
  · exact (writeBack_cachesOnly _).trans (.modL1 _)

theorem flushL1_cachesOnly : CachesOnly s (flushL1 s hive c) c := by
  obtain ⟨m, q, f, h⟩ := flushL1_eq s hive c
  exact h ▸ (CachesOnly.withMem m q).trans (.modL1 f)

theorem clearL1_cachesOnly : CachesOnly s (clearL1 s hive c) c := flushL1_cachesOnly.trans (.modL1 _)

theorem clearL1_l1 (hc : c < s.cores.length) : ((clearL1 s hive c).core c).l1 = [] := by
  rw [clearL1, State.core_modL1 (s := flushL1 s hive c) (by rwa [flushL1_cachesOnly.cores_length]) (fun _ => [])]

theorem releaseL1_of_scope {w : Who} (hw : w.core = some c) {m : Nat} (hm : m ≠ 0) : releaseL1 s w m = flushL1 s w.hive c := by
  rw [releaseL1, hw]
  exact if_neg hm

theorem acquireL1_of_scope {w : Who} (hw : w.core = some c) {m : Nat} (hm : m ≠ 0) : acquireL1 s w m = clearL1 s w.hive c := by
  rw [acquireL1, hw]
  exact if_neg hm

theorem makeRoom_cachesOnly : CachesOnly s (makeRoom s c) c := by
  unfold makeRoom
  dsimp only
  split
  · exact .refl s c
  · split
    · exact (writeBack_cachesOnly _).trans (.modL1 _)
    · exact .refl s c

theorem fetchLine_cachesOnly : CachesOnly s (fetchLine s hive c n).2 c := by
  unfold fetchLine
  split
  · exact .refl s c
  · exact makeRoom_cachesOnly.trans ((CachesOnly.modL1 _).trans (charge_cachesOnly _))

end

/-! ## The lines of an L1 -/

section
variable {s t u : State} {c hive n : Nat} {l : L1Line}

theorem Core.line_mem {k : Core} (h : k.line n = some l) : l ∈ k.l1 ∧ l.line = n :=
  ⟨List.mem_of_find?_eq_some h, by simpa using List.find?_some h⟩

theorem Core.line_eq_none {k : Core} : k.line n = none ↔ ∀ l ∈ k.l1, l.line ≠ n := by
  simp [Core.line]

theorem Core.line_congr {k k' : Core} (h : k.l1 = k'.l1) : k.line n = k'.line n := by rw [Core.line, h, Core.line]

/-- What a core sees depends on its L1 and on memory alone. -/
theorem State.seen_congr (hl : (t.core c).l1 = (s.core c).l1) (hm : t.mem = s.mem) (a : Nat) : t.seen c a = s.seen c a := by
  rw [State.seen, Core.line_congr hl, hm]
  rfl

theorem State.seen_of_line {a : Nat} (h : (s.core c).line (a / 128) = some l) :
    s.seen c a = BitVec.ofNat 8 (elemAt l.data 8 (a % 128)) := by
  rw [State.seen, h]

theorem State.seen_of_absent {a : Nat} (h : (s.core c).line (a / 128) = none) : s.seen c a = Mem.get s.mem a := by
  rw [State.seen, h]

theorem dropLine_mem (s : State) (hive c n : Nat) :
    (dropLine s hive c n).mem = ((s.core c).line n).elim s.mem (putDirty s.mem) := by
  unfold dropLine
  cases (s.core c).line n with
  | none => rfl
  | some l => exact writeBack_mem s hive l

theorem dropLine_mem_congr (hl : (t.core c).l1 = (s.core c).l1) (hm : t.mem = s.mem) :
    (dropLine t hive c n).mem = (dropLine s hive c n).mem := by
  rw [dropLine_mem, dropLine_mem, Core.line_congr hl, hm]

/-! ## Lines that leave -/

theorem Evicts.refl (s : State) (c : Nat) : Evicts s s c := ⟨fun _ => .inl rfl, fun _ _ hl => .inl hl⟩

/-- Lines that join the L1 evict nothing. -/
theorem Evicts.mono (h : Evicts s t c) (hm : u.mem = t.mem) (hl : ∀ l ∈ (t.core c).l1, l ∈ (u.core c).l1) : Evicts s u c := by
  unfold Evicts
  rw [hm]
  exact ⟨h.1, fun hn l hs => (h.2 hn l hs).imp_left (hl l)⟩

/-- Memory keeps the bytes of a line that the L1 does not hold. -/
theorem Evicts.get_of_absent {a : Nat} (h : Evicts s t c) (ha : (s.core c).line (a / 128) = none) :
    Mem.get t.mem a = Mem.get s.mem a := by
  obtain h | ⟨l, hl, hn, -⟩ := h.1 a
  · exact h
  · exact absurd hn (Core.line_eq_none.mp ha l hl)

theorem makeRoom_of_room (h : (s.core c).l1.length < (s.core c).l1Lines) : makeRoom s c = s := if_pos h

/-- A full L1 gives up a line that it holds. -/
theorem makeRoom_of_full (h : ¬ (s.core c).l1.length < (s.core c).l1Lines) (hn : (s.core c).l1Lines ≠ 0) :
    ∃ v ∈ (s.core c).l1, makeRoom s c =
      (writeBack s v.hive v).modCore c (fun k => { k with l1 := k.l1.filter (fun x => x.line != v.line) }) := by
  have hv : Config.l1Victim s.freeCount % (s.core c).l1.length < (s.core c).l1.length := Nat.mod_lt _ (by omega)
  refine ⟨_, List.getElem_mem hv, ?_⟩
  rw [makeRoom, if_neg h, List.getElem?_eq_getElem hv]

theorem l1_of_given_up (hc : c < s.cores.length) (v : L1Line) :
    (((writeBack s v.hive v).modCore c (fun k => { k with l1 := k.l1.filter (fun x => x.line != v.line) })).core c).l1 =
      (s.core c).l1.filter (fun x => x.line != v.line) := by
  obtain ⟨m, q, h⟩ := writeBack_eq s v.hive v
  rw [h, State.core_modL1 (s := { s with mem := m, llc := q }) hc]
  rfl

theorem makeRoom_evicts (hc : c < s.cores.length) (hn : (s.core c).l1Lines ≠ 0) : Evicts s (makeRoom s c) c := by
  by_cases h : (s.core c).l1.length < (s.core c).l1Lines
  · exact (makeRoom_of_room h).symm ▸ .refl s c
  · obtain ⟨v, hv, he⟩ := makeRoom_of_full h hn
    have hm (a : Nat) := get_putDirty s.mem v a
    unfold Evicts
    rw [he, l1_of_given_up hc, State.modCore_mem, writeBack_mem]
    refine ⟨fun _ => ?_, fun hnd l hl => ?_⟩
    · rw [hm]
      split
      · rename_i hd
        exact .inr ⟨v, hv, hd.1, hd.2, rfl⟩
      · exact .inl rfl
    · by_cases hlv : l.line = v.line
      · obtain rfl := List.inj_on_of_nodup_map hnd hl hv hlv
        refine .inr fun k hk hd => ?_
        rw [hm, show (128 * l.line + k) / 128 = l.line by omega, show (128 * l.line + k) % 128 = k by omega, if_pos ⟨rfl, hd⟩]
      · exact .inl (List.mem_filter.mpr ⟨hl, by simpa using hlv⟩)

theorem makeRoom_l1_subset (hc : c < s.cores.length) (hn : (s.core c).l1Lines ≠ 0) :
    ∀ l ∈ ((makeRoom s c).core c).l1, l ∈ (s.core c).l1 := by
  by_cases h : (s.core c).l1.length < (s.core c).l1Lines
  · rw [makeRoom_of_room h]
    exact fun _ hl => hl
  · obtain ⟨v, -, he⟩ := makeRoom_of_full h hn
    rw [he, l1_of_given_up hc]
    exact fun _ hl => (List.mem_filter.mp hl).1

theorem makeRoom_length (hc : c < s.cores.length) (hn : (s.core c).l1Lines ≠ 0)
    (hf : (s.core c).l1.length ≤ (s.core c).l1Lines) : ((makeRoom s c).core c).l1.length < (s.core c).l1Lines := by
  by_cases h : (s.core c).l1.length < (s.core c).l1Lines
  · rwa [makeRoom_of_room h]
  · obtain ⟨v, hv, he⟩ := makeRoom_of_full h hn
    rw [he, l1_of_given_up hc]
    exact (List.length_filter_lt_length_iff_exists.mpr ⟨v, hv, by simp⟩).trans_le hf

theorem freshLine_byte (s : State) (hive : Nat) {a : Nat} (h : a / 128 = n) :
    BitVec.ofNat 8 (elemAt (freshLine s hive n).data 8 (a % 128)) = Mem.get s.mem a := by
  have ha : 128 * n + a % 128 = a := by omega
  exact (byte_read (w := 1024) (n := 128) s.mem (128 * n) (Nat.mod_lt a (by decide)) rfl).trans (by rw [ha])

/-! ## A line brought into the L1 -/

/-- From s to t core c has brought line n into its L1, where l is it, and no byte was lost (R16, R105, R122). -/
structure Fetched (s t : State) (c n : Nat) (l : L1Line) : Prop where
  only : CachesOnly s t c
  line : (t.core c).line n = some l
  byte : ∀ a, a / 128 = n → BitVec.ofNat 8 (elemAt l.data 8 (a % 128)) = s.seen c a
  own : ∀ a, a / 128 = n → Mem.get t.mem a = Mem.get s.mem a
  evicts : Evicts s t c
  mem_of_room : ((s.core c).line n).isSome ∨ (s.core c).l1.length < (s.core c).l1Lines → t.mem = s.mem
  line_of_room : ((s.core c).line n).isSome ∨ (s.core c).l1.length < (s.core c).l1Lines →
    ∀ m, m ≠ n → (t.core c).line m = (s.core c).line m
  fits : (s.core c).l1.length ≤ (s.core c).l1Lines → (t.core c).l1.length ≤ (t.core c).l1Lines

theorem Fetched.of_line (h : (s.core c).line n = some l) : Fetched s s c n l where
  only := .refl s c
  line := h
  byte _ ha := (State.seen_of_line (ha ▸ h)).symm
  own _ _ := rfl
  evicts := .refl s c
  mem_of_room _ := rfl
  line_of_room _ _ _ := rfl
  fits := id

/-- The L1 and memory after a line was filled: makeRoom gave the others their place. -/
theorem Fetched.of_fill (hc : c < s.cores.length) (hn : (s.core c).l1Lines ≠ 0) (h : (s.core c).line n = none)
    (ht : t = charge ((makeRoom s c).modCore c (fun k => { k with l1 := freshLine (makeRoom s c) hive n :: k.l1 })) hive
      (128 * n) 128) : Fetched s t c n (freshLine (makeRoom s c) hive n) := by
  have hw := makeRoom_cachesOnly (s := s) (c := c)
  have hev := makeRoom_evicts hc hn
  have hl1 : (t.core c).l1 = freshLine (makeRoom s c) hive n :: ((makeRoom s c).core c).l1 :=
    ht ▸ congrArg Core.l1 (State.core_modL1 (hw.cores_length ▸ hc) (fun k => freshLine (makeRoom s c) hive n :: k.l1))
  have hm : t.mem = (makeRoom s c).mem := ht ▸ rfl
  have honly : CachesOnly s t c := ht ▸ hw.trans ((CachesOnly.modL1 _).trans (charge_cachesOnly _))
  have hown (a : Nat) (ha : a / 128 = n) : Mem.get (makeRoom s c).mem a = Mem.get s.mem a := hev.get_of_absent (ha ▸ h)
  have hroom (hr : ((s.core c).line n).isSome ∨ (s.core c).l1.length < (s.core c).l1Lines) : makeRoom s c = s :=
    makeRoom_of_room (hr.resolve_left (by simp [h]))
  refine ⟨honly, ?_, fun a ha => ?_, fun _ ha => hm ▸ hown _ ha, hev.mono hm ?_, fun hr => hm.trans (by rw [hroom hr]),
    fun hr m hmn => ?_, fun hf => ?_⟩
  · rw [Core.line, hl1]
    exact List.find?_cons_of_pos (beq_self_eq_true n)
  · rw [freshLine_byte _ hive ha, hown a ha, State.seen_of_absent (ha ▸ h)]
  · rw [hl1]
    exact fun _ hl => List.mem_cons_of_mem _ hl
  · rw [Core.line, hl1, List.find?_cons_of_neg (by simpa [freshLine] using Ne.symm hmn), hroom hr]
    rfl
  · rw [honly.l1Lines, hl1]
    exact makeRoom_length hc hn hf

theorem fetchLine_fetched (hive n : Nat) (hc : c < s.cores.length) (hn : (s.core c).l1Lines ≠ 0) :
    Fetched s (fetchLine s hive c n).2 c n (fetchLine s hive c n).1 := by
  unfold fetchLine
  split
  · exact .of_line ‹_›
  · exact .of_fill hc hn ‹_› rfl

end

/-! ## Aligned accesses -/

section
variable {s t : State} {c hive n pa x : Nat} {l : L1Line}

theorem loadBytes_dvd (sz : LoadSize) : loadBytes sz ∣ 128 := by cases sz <;> decide

theorem storeBytes_dvd (sz : StoreSize) : storeBytes sz ∣ 128 := by cases sz <;> decide

/-- The place of n aligned bytes within their line. -/
theorem aligned_in_line (hn : n ∣ 128) (hp : pa % n = 0) : n * (pa % 128 / n) = pa % 128 ∧ pa % 128 + n ≤ 128 := by
  have hd : n ∣ pa % 128 := (Nat.dvd_mod_iff hn).mpr (Nat.dvd_of_mod_eq_zero hp)
  refine ⟨Nat.mul_div_cancel' hd, ?_⟩
  have h := Nat.le_of_dvd (by omega) (Nat.dvd_sub hn hd)
  omega

/-- A read through the L1 gives the bytes that the core sees (R105). -/
theorem l1Read_value (hc : c < s.cores.length) (hl : (s.core c).l1Lines ≠ 0) (hn : n ∣ 128) (hp : pa % n = 0) :
    (l1Read s hive c pa n).1 = ofLeBytes ((List.range n).map (fun k => s.seen c (pa + k))) := by
  have hf := fetchLine_fetched hive (pa / 128) hc hl
  obtain ⟨he, hle⟩ := aligned_in_line hn hp
  refine (ofLeBytes_elemAt (fetchLine s hive c (pa / 128)).1.data n (pa % 128 / n)).symm.trans ?_
  refine congrArg ofLeBytes (List.map_congr_left fun k hk => ?_)
  have hk := List.mem_range.mp hk
  rw [← hf.byte (pa + k) (by omega), show (pa + k) % 128 = pa % 128 + k by omega, he]

/-- Looking a line up after every copy of one line was replaced. -/
theorem find?_replace_line (ls : List L1Line) (l : L1Line) (j : Nat) :
    (ls.map (fun y => if y.line == l.line then l else y)).find? (fun y => y.line == j) =
      if j = l.line then (ls.find? (fun y => y.line == j)).map (fun _ => l) else ls.find? (fun y => y.line == j) := by
  induction ls with
  | nil => simp
  | cons y ls ih =>
    rw [List.map_cons, List.find?_cons, List.find?_cons, ih]
    grind

/-- From s to t a store of the low n bytes of x at pa went to the L1 of core c: the core sees them there, memory received nothing but
dirty bytes of lines that left, and no dirty byte was lost (R105, R122). -/
structure Stored (s t : State) (c pa n x : Nat) : Prop where
  only : CachesOnly s t c
  mem : ∀ a, Mem.get t.mem a = Mem.get s.mem a ∨ a / 128 ≠ pa / 128 ∧ ∃ l ∈ (s.core c).l1, l.line = a / 128 ∧
    l.dirty.getLsbD (a % 128) = true ∧ Mem.get t.mem a = BitVec.ofNat 8 (elemAt l.data 8 (a % 128))
  kept : ((s.core c).l1.map (fun l => l.line)).Nodup → ∀ l ∈ (s.core c).l1, l.line ≠ pa / 128 → l ∈ (t.core c).l1 ∨
    ∀ k < 128, l.dirty.getLsbD k = true → Mem.get t.mem (128 * l.line + k) = BitVec.ofNat 8 (elemAt l.data 8 k)
  seen : ∀ a, a / 128 = pa / 128 →
    t.seen c a = if pa ≤ a ∧ a < pa + n then BitVec.ofNat 8 (x / 256 ^ (a - pa)) else s.seen c a
  mem_of_room : (s.core c).hasRoom pa → t.mem = s.mem
  seen_of_room : (s.core c).hasRoom pa → ∀ a, a / 128 ≠ pa / 128 → t.seen c a = s.seen c a
  fits : (s.core c).l1.length ≤ (s.core c).l1Lines → (t.core c).l1.length ≤ (t.core c).l1Lines

/-- A store replaces its line in the L1 once the line is there. -/
theorem Fetched.stored {v : State} {l' : L1Line} (h : Fetched s t c (pa / 128) l) (hc : c < s.cores.length) (hn : n ∣ 128)
    (hp : pa % n = 0)
    (hv : v = t.modCore c (fun k => { k with l1 := k.l1.map (fun y => if y.line == l.line then l' else y) }))
    (hline : l'.line = l.line) (hdata : l'.data = setElemAt l.data (8 * n) (pa % 128 / n) x) :
    Stored s v c pa n x := by
  have hl1 : (v.core c).l1 = (t.core c).l1.map (fun y => if y.line == l'.line then l' else y) := by
    rw [hv, State.core_modL1 (h.only.cores_length ▸ hc) (fun k => k.l1.map (fun y => if y.line == l.line then l' else y)), hline]
  have honly : CachesOnly t v c := hv ▸ .modL1 (fun k => k.l1.map (fun y => if y.line == l.line then l' else y))
  have hm : v.mem = t.mem := hv ▸ rfl
  have hll : l.line = pa / 128 := (Core.line_mem h.line).2
  have hfind (j : Nat) : (v.core c).line j = if j = pa / 128 then some l' else (t.core c).line j := by
    rw [Core.line, hl1, find?_replace_line, hline, hll]
    split
    · rename_i hj
      exact hj ▸ congrArg (Option.map _) h.line
    · rfl
  refine ⟨h.only.trans honly, fun a => ?_, fun hnd m hs hne => ?_, fun a ha => ?_, fun hr => hm.trans (h.mem_of_room hr),
    fun hr a ha => ?_, fun hf => ?_⟩
  · rw [hm]
    by_cases ha : a / 128 = pa / 128
    · exact .inl (h.own a ha)
    · exact (h.evicts.1 a).imp_right (⟨ha, ·⟩)
  · refine (h.evicts.2 hnd m hs).imp (fun hmt => ?_) (fun hd => hm ▸ hd)
    rw [hl1]
    exact List.mem_map.mpr ⟨m, hmt, if_neg (by simpa [hline, hll] using hne)⟩
  · obtain ⟨he, hle⟩ := aligned_in_line hn hp
    rw [State.seen_of_line (ha ▸ (hfind (pa / 128)).trans (if_pos rfl)), hdata, byte_setElemAt _ _ _ (by omega), he, h.byte a ha]
    by_cases hin : pa ≤ a ∧ a < pa + n
    · rw [if_pos hin, if_pos (by omega), show a % 128 - pa % 128 = a - pa by omega]
    · rw [if_neg hin, if_neg (by omega)]
  · rw [State.seen, hfind, if_neg ha, h.line_of_room hr _ ha, hm, h.mem_of_room hr]
    rfl
  · rw [honly.l1Lines, hl1, List.length_map]
    exact h.fits hf

/-- A store through the L1 replaces the line that it fetches by one with the element written. -/
theorem l1Write_eq (s : State) (hive c pa n x : Nat) : ∃ l' : L1Line,
    l1Write s hive c pa n x = (fetchLine s hive c (pa / 128)).2.modCore c (fun k =>
      { k with l1 := k.l1.map (fun y => if y.line == (fetchLine s hive c (pa / 128)).1.line then l' else y) }) ∧
    l'.line = (fetchLine s hive c (pa / 128)).1.line ∧
    l'.data = setElemAt (fetchLine s hive c (pa / 128)).1.data (8 * n) (pa % 128 / n) x :=
  ⟨_, rfl, rfl, rfl⟩

end

end Sys2Proof.Machine

/-! SUPPORT. Scalar loads from and stores to memory (R97, R105, R125, R367, R391): where an address leads, whether the access goes by
the L1, and what it leaves. -/

namespace Sys2Proof.Machine

section
variable {s t u : State} {w : Who} {p : Place} {e : TlbEntry} {c n pa x : Nat} {va : Word} {l : L1Line}

/-! ## Where an address of memory leads -/

theorem xlate_tlb (s : State) (c : Nat) (h : Hive) (a : Nat) :
    ∃ b, (xlate s (some c) h a).2 = s.modCore c (fun k => { k with tlb := b }) := by
  have hs : s = s.modCore c (fun k => { k with tlb := (s.core c).tlb }) := (s.modCore_self c).symm
  unfold xlate
  dsimp only
  split
  · exact ⟨_, hs⟩
  · split
    · exact ⟨_, rfl⟩
    · exact ⟨_, hs⟩

theorem locate_mem_eq {k : AccessKind} {a : Nat} (h : locate s w a k = .ok (.mem pa e, u)) :
    u = (xlate s w.core (s.hive w.hive) (a % 2 ^ 52)).2 := by
  unfold locate at h
  dsimp only at h
  split at h
  · cases h
  · split at h
    · split at h
      · split at h <;> cases h
      · cases h
    · split at h
      · split at h
        · rename_i hx
          rw [hx]
          cases hq : placeOf s w k (a % 2 ^ 52) _ <;> rw [hq] at h <;> cases h
          rfl
        · cases h
      · split at h
        · cases h
        · split at h <;> cases h

/-- A translation fills the TLB and leaves the L1 and memory as they were. -/
theorem locate_mem_keeps {k : AccessKind} {a : Nat} (hw : w.core = some c) (h : locate s w a k = .ok (.mem pa e, u)) :
    CachesOnly s u c ∧ (u.core c).l1 = (s.core c).l1 ∧ u.mem = s.mem := by
  obtain ⟨b, hb⟩ := xlate_tlb s c (s.hive w.hive) (a % 2 ^ 52)
  obtain rfl := (locate_mem_eq h).trans (hw ▸ hb)
  refine ⟨.modTlb b, ?_, rfl⟩
  rw [State.core_mod]
  split
  · rfl
  · rfl

/-- What a fetch tells of the state after a translation it tells of the one before. -/
theorem Fetched.of_keeps (h : Fetched u t c n l) (ho : CachesOnly s u c) (hl : (u.core c).l1 = (s.core c).l1)
    (hm : u.mem = s.mem) : Fetched s t c n l := by
  have hn := ho.l1Lines c
  have hline (j : Nat) : (u.core c).line j = (s.core c).line j := Core.line_congr hl
  refine ⟨ho.trans h.only, h.line, fun a ha => (h.byte a ha).trans (State.seen_congr hl hm a), fun a ha => hm ▸ h.own a ha, ?_,
    fun hr => ?_, fun hr j hj => ?_, fun hf => ?_⟩
  · have := h.evicts
    unfold Evicts at this ⊢
    rwa [hl, hm] at this
  · rw [← hm]
    exact h.mem_of_room (by rwa [hline, hl, hn])
  · rw [← hline]
    exact h.line_of_room (by rwa [hline, hl, hn]) j hj
  · exact h.fits (by rwa [hl, hn])

/-- A store of the low n bytes of x through the L1, after a translation. -/
theorem l1Write_stored (hive x : Nat) (ho : CachesOnly s u c) (hl : (u.core c).l1 = (s.core c).l1) (hm : u.mem = s.mem)
    (hc : c < s.cores.length) (hl1 : (s.core c).l1Lines ≠ 0) (hn : n ∣ 128) (hp : pa % n = 0) :
    Stored s (l1Write u hive c pa n (x % 2 ^ (8 * n))) c pa n x := by
  obtain ⟨l', he, hline, hdata⟩ := l1Write_eq u hive c pa n (x % 2 ^ (8 * n))
  have hf := fetchLine_fetched hive (pa / 128) (by rwa [ho.cores_length]) (by rwa [ho.l1Lines])
  exact (hf.of_keeps ho hl hm).stored hc hn hp he hline (hdata.trans (setElemAt_mod _ _ _ _))

theorem Core.bypasses_of_not {k : Core} (he : e.nl1 = false) (hl : k.l1Lines ≠ 0) : k.bypasses e false = false := by
  simp [Core.bypasses, he, hl]

theorem Core.bypasses_of_nl1 {k : Core} (h : e.nl1 = true ∨ k.l1Lines = 0) (b : Bool) : k.bypasses e b = true := by
  obtain h | h := h <;> simp [Core.bypasses, h]

theorem Core.bypasses_of_through (k : Core) (e : TlbEntry) : k.bypasses e true = true := by simp [Core.bypasses]

theorem readPlace_cached {b : Bool} (hw : w.core = some c) (hb : (s.core c).bypasses e b = false) :
    readPlace s w (.mem pa e) n b = l1Read s w.hive c pa n := by
  simp [readPlace, hw, hb]

theorem readPlace_bypassed {b : Bool} (hw : w.core = some c) (hb : (s.core c).bypasses e b = true) :
    readPlace s w (.mem pa e) n b =
      (Mem.read (dropLine s w.hive c (pa / 128)).mem pa n, charge (dropLine s w.hive c (pa / 128)) w.hive pa 64) := by
  simp [readPlace, hw, hb]

theorem writePlace_cached {b : Bool} (hw : w.core = some c) (hb : (s.core c).bypasses e b = false) :
    writePlace s w (.mem pa e) n x b = l1Write s w.hive c pa n x := by
  simp [writePlace, hw, hb]

theorem writePlace_bypassed {b : Bool} (hw : w.core = some c) (hb : (s.core c).bypasses e b = true) (pa n x : Nat) :
    CachesOnly s (writePlace s w (.mem pa e) n x b) c ∧
      (writePlace s w (.mem pa e) n x b).mem = Mem.write (dropLine s w.hive c (pa / 128)).mem pa n x := by
  simp only [writePlace, hw, hb, if_true, charge_mem, and_true]
  exact (dropLine_cachesOnly (hive := w.hive) (n := pa / 128)).trans ((CachesOnly.withMem _ _).trans (charge_cachesOnly pa))

/-! ## Loads and stores at a place -/

theorem loadW_of_locate {b : Bool} (ha : va.toNat % n = 0) (hl : locate s w va.toNat .read = .ok (p, u)) :
    loadW s w va n b = .ok (readPlace u w p n b) := by
  rw [loadW, if_neg (not_not.mpr ha), hl]

theorem exec_ld_eq {sz : LoadSize} {o : MFmt} (ho : o.ord = 0) : exec (.ld sz o) s =
    scalar s ((loadW s s.who (mAddr s.me o) (loadBytes sz) false).map (fun r => r.2.finish o.gd (loadValue sz r.1))) := by
  change execLd sz o s = _
  simp only [execLd, need, ho]
  cases loadW s s.who (mAddr s.me o) (loadBytes sz) false <;> rfl

theorem exec_lda_eq {sz : LoadSize} {o : MFmt} (ho : o.ord = 1) : exec (.lda sz o) s =
    scalar s ((loadW s s.who (mAddr s.me o) (loadBytes sz) (o.scope != 0)).map
      (fun r => (acquireL1 r.2 r.2.who o.scope.toNat).finish o.gd (loadValue sz r.1))) := by
  change execLda sz o s = _
  simp only [execLda, need, ho]
  cases loadW s s.who (mAddr s.me o) (loadBytes sz) (o.scope != 0) <;> rfl

/-- An LD where its address leads (R367). -/
theorem exec_ld_of_locate {sz : LoadSize} {o : MFmt} (hr : s.runs = true) (ho : o.ord = 0)
    (ha : (mAddr s.me o).toNat % loadBytes sz = 0) (hl : locate s s.who (mAddr s.me o).toNat .read = .ok (p, u))
    (hp : readPlace u s.who p (loadBytes sz) false = (x, t)) :
    exec (.ld sz o) s = .next (t.finish o.gd (loadValue sz x)) := by
  rw [exec_ld_eq ho, loadW_of_locate ha hl, hp]
  exact scalar_next hr _

/-- An LDA of HIVE scope or wider where its address leads: it reads at the coherence point (R367, R125). -/
theorem exec_lda_of_locate {sz : LoadSize} {o : MFmt} (hr : s.runs = true) (ho : o.ord = 1) (hs : o.scope ≠ 0)
    (ha : (mAddr s.me o).toNat % loadBytes sz = 0) (hl : locate s s.who (mAddr s.me o).toNat .read = .ok (p, u))
    (hp : readPlace u s.who p (loadBytes sz) true = (x, t)) :
    exec (.lda sz o) s = .next ((acquireL1 t t.who o.scope.toNat).finish o.gd (loadValue sz x)) := by
  rw [exec_lda_eq ho, bne_iff_ne.mpr hs, loadW_of_locate ha hl, hp]
  exact scalar_next hr _

theorem storeSt_of_locate {b : Bool} (ha : va.toNat % n = 0) (htw : e.tw = false)
    (hl : locate s w va.toNat .write = .ok (.mem pa e, u)) :
    storeSt s w va n x b = .ok (writePlace u w (.mem pa e) n x b) := by
  rw [storeSt, if_neg (not_not.mpr ha), hl]
  simp [htw]

theorem exec_st_eq {sz : StoreSize} {o : MFmt} (ho : o.ord = 0) : exec (.st sz o) s =
    scalar s ((storeSt s s.who (mAddr s.me o) (storeBytes sz) ((s.me.greg o.gb).toNat % 2 ^ (8 * storeBytes sz)) false).map
      State.advance) := by
  change execSt sz o s = _
  simp only [execSt, need, ho]
  cases storeSt s s.who (mAddr s.me o) (storeBytes sz) ((s.me.greg o.gb).toNat % 2 ^ (8 * storeBytes sz)) false <;> rfl

theorem exec_stl_eq {sz : StoreSize} {o : MFmt} (ho : o.ord = 2) : exec (.stl sz o) s =
    scalar s ((storeSt (releaseL1 s s.who o.scope.toNat) s.who (mAddr s.me o) (storeBytes sz)
      ((s.me.greg o.gb).toNat % 2 ^ (8 * storeBytes sz)) (o.scope != 0)).map State.advance) := by
  change execStl sz o s = _
  simp only [execStl, need, ho]
  cases storeSt (releaseL1 s s.who o.scope.toNat) s.who (mAddr s.me o) (storeBytes sz)
    ((s.me.greg o.gb).toNat % 2 ^ (8 * storeBytes sz)) (o.scope != 0) <;> rfl

/-- An ST at a place of memory (R391). -/
theorem exec_st_of_locate {sz : StoreSize} {o : MFmt} (hr : s.runs = true) (ho : o.ord = 0)
    (ha : (mAddr s.me o).toNat % storeBytes sz = 0) (htw : e.tw = false)
    (hl : locate s s.who (mAddr s.me o).toNat .write = .ok (.mem pa e, u)) :
    exec (.st sz o) s = .next (writePlace u s.who (.mem pa e) (storeBytes sz)
      ((s.me.greg o.gb).toNat % 2 ^ (8 * storeBytes sz)) false).advance := by
  rw [exec_st_eq ho, storeSt_of_locate ha htw hl]
  exact scalar_next hr _

/-- An STL of HIVE scope or wider at a place of memory, where its address leads after the release (R391, R125). -/
theorem exec_stl_of_locate {sz : StoreSize} {o : MFmt} (hr : s.runs = true) (ho : o.ord = 2) (hs : o.scope ≠ 0)
    (ha : (mAddr s.me o).toNat % storeBytes sz = 0) (htw : e.tw = false)
    (hl : locate (releaseL1 s s.who o.scope.toNat) s.who (mAddr s.me o).toNat .write = .ok (.mem pa e, u)) :
    exec (.stl sz o) s = .next (writePlace u s.who (.mem pa e) (storeBytes sz)
      ((s.me.greg o.gb).toNat % 2 ^ (8 * storeBytes sz)) true).advance := by
  rw [exec_stl_eq ho, bne_iff_ne.mpr hs, storeSt_of_locate ha htw hl]
  exact scalar_next hr _

/-! ## What completes with another strand state -/

theorem CachesOnly.modMe_eq (h : CachesOnly s t c) (f : Strand → Strand) : t.modMe f =
    { s with strands := (t.modMe f).strands, cores := (t.modMe f).cores, llc := (t.modMe f).llc, mem := (t.modMe f).mem } := by
  obtain ⟨m, q, b, ls, rfl⟩ := h
  rfl

theorem CachesOnly.modMe_strand (h : CachesOnly s t c) (f : Strand → Strand) {k : Nat} (hk : k ≠ s.cur) :
    (t.modMe f).strand k = s.strand k := by
  rw [State.modMe, State.strand_mod_other _ _ _ _ (h.cur ▸ hk), State.strand, h.strands, State.strand]

theorem CachesOnly.modMe_me (h : CachesOnly s t c) (hr : s.runs = true) (f : Strand → Strand) : (t.modMe f).me = f s.me := by
  rw [State.me_mod (h.runs.trans hr), h.me]

/-- What a load that went through the caches leaves (R367). -/
theorem CachesOnly.finish (h : CachesOnly s t c) (hr : s.runs = true) (rd : BitVec 5) (y : Word) :
    (t.finish rd y = { s with
        strands := (t.finish rd y).strands, cores := (t.finish rd y).cores, llc := (t.finish rd y).llc, mem := (t.finish rd y).mem } ∧
      (∀ d, (t.finish rd y).core d = { s.core d with tlb := ((t.finish rd y).core d).tlb, l1 := ((t.finish rd y).core d).l1 }) ∧
      (∀ k, k ≠ s.cur → (t.finish rd y).strand k = s.strand k) ∧
      (t.finish rd y).me = { s.me with g := (t.finish rd y).me.g, pc := s.me.pc + 8 }) ∧
    ∀ r, (t.finish rd y).me.greg r = if r = rd ∧ r ≠ 0 then y else s.me.greg r := by
  obtain ⟨-, hme, hg⟩ := Wrote.finish (h.runs.trans hr) rd y
  rw [h.me] at hme hg
  exact ⟨⟨h.modMe_eq _, h.core_eq, fun k hk => h.modMe_strand _ hk, hme⟩, hg⟩

/-- What a store that goes by the L1 leaves, after its core's own line was written back (R105). -/
theorem CachesOnly.through {b : Bool} (h : CachesOnly s u c) (hr : s.runs = true) (hw : s.who.core = some c)
    (hb : (u.core c).bypasses e b = true) (pa n x : Nat) :
    (writePlace u s.who (.mem pa e) n (x % 2 ^ (8 * n)) b).advance.me = { s.me with pc := s.me.pc + 8 } ∧
      ∀ a, Mem.get (writePlace u s.who (.mem pa e) n (x % 2 ^ (8 * n)) b).advance.mem a =
        if pa ≤ a ∧ a < pa + n then BitVec.ofNat 8 (x / 256 ^ (a - pa))
        else Mem.get (dropLine u s.me.hive c (pa / 128)).mem a := by
  obtain ⟨hd, hm⟩ := writePlace_bypassed hw hb pa n (x % 2 ^ (8 * n))
  exact ⟨(h.trans hd).modMe_me hr _, fun a => (congrArg (Mem.get · a) hm).trans (Mem.get_write_low _ pa n x a)⟩

end

/-- Settles O15: a cached load reads the line that its fetch brings in, and the others read memory behind the core's own line. -/
theorem memoryLoads : Obligations.MemoryLoads := by
  unfold Obligations.MemoryLoads
  intro s u sz o pa c e hr va n ha hp hw hc hl near far v frame
  obtain ⟨hu, hul, hum⟩ := locate_mem_keeps hw hl
  have hcu : c < u.cores.length := by rwa [hu.cores_length]
  have hdrop : (dropLine u s.me.hive c (pa / 128)).mem = (dropLine s s.me.hive c (pa / 128)).mem := dropLine_mem_congr hul hum
  have hfar : loadValue sz (Mem.read (dropLine u s.me.hive c (pa / 128)).mem pa n) = v far := hdrop ▸ loadValue_eq sz far
  have hd : CachesOnly s (charge (dropLine u s.who.hive c (pa / 128)) s.who.hive pa 64) c :=
    hu.trans (dropLine_cachesOnly.trans (charge_cachesOnly pa))
  refine ⟨fun ho he hn => ?_, fun ho he => ?_, fun ho hs => ?_⟩
  · have hnu : (u.core c).l1Lines ≠ 0 := by rwa [hu.l1Lines]
    have hf := (fetchLine_fetched s.me.hive (pa / 128) hcu hnu).of_keeps hu hul hum
    have hx : loadValue sz (l1Read u s.me.hive c pa n).1 = v near := by
      rw [l1Read_value hcu hnu (loadBytes_dvd sz) hp]
      simp only [State.seen_congr hul hum]
      exact loadValue_eq sz near
    obtain ⟨hframe, hg⟩ := hf.only.finish hr o.gd (v near)
    refine ⟨_, (exec_ld_of_locate hr ho ha hl (readPlace_cached hw (Core.bypasses_of_not he hnu))).trans ?_,
      hframe, hg, hf.mem_of_room, hf.evicts, hf.fits⟩
    exact congrArg (fun y => Host.Outcome.next ((l1Read u s.me.hive c pa n).2.finish o.gd y)) hx
  · obtain ⟨hframe, hg⟩ := hd.finish hr o.gd (v far)
    have hb : (u.core c).bypasses e false = true := Core.bypasses_of_nl1 (by rwa [hu.l1Lines]) false
    exact ⟨_, hfar ▸ exec_ld_of_locate hr ho ha hl (readPlace_bypassed hw hb), hframe, hdrop, hg⟩
  · have hm : o.scope.toNat ≠ 0 := fun h => hs (BitVec.eq_of_toNat_eq h)
    obtain ⟨hframe, hg⟩ := (hd.trans (clearL1_cachesOnly (hive := s.who.hive))).finish hr o.gd (v far)
    have he := hfar ▸ exec_lda_of_locate hr ho hs ha hl (readPlace_bypassed hw (Core.bypasses_of_through (u.core c) e))
    rw [hd.who, acquireL1_of_scope hw hm] at he
    exact ⟨_, he, hframe, clearL1_l1 (by rwa [hd.cores_length]), hg⟩

end Sys2Proof.Machine

/-! SUPPORT. Composing stores (R75, R76): what the two halves of an entry hold afterwards, and what composeAt makes of each form of a
stored entry. -/

namespace Sys2Proof.Machine

section
variable {s u : State} {h : Hive} {off level stored eff out : Nat} {va : Word} {r w tw nl1 : Bool}

/-- The entry of a hive after an update of that hive that keeps its number. -/
theorem State.hive_modHive {f : Hive → Hive} (hf : ∀ x, (f x).id = x.id) (n : Nat) :
    (s.modHive n f).hive n = ((s.findHive n).map f).getD Hive.blank := by
  have hmap (l : List Hive) : (l.map (fun x => if x.id == n then f x else x)).find? (fun x => x.id == n) =
      (l.find? (fun x => x.id == n)).map f := by
    induction l with
    | nil => rfl
    | cons x l ih =>
      rw [List.map_cons, List.find?_cons, List.find?_cons, ih]
      cases hx : x.id == n <;> simp [hx, hf]
  rw [State.hive, State.findHive, State.modHive, hmap]
  rfl

/-- Both halves of an entry stand where they were written, nothing else of memory changed, and the entry is no marker (R75, R76). -/
theorem putEntry_halves (heff : eff < 2 ^ 64) (hst : stored < 2 ^ 64)
    (hap : h.poolPhys off + 8 ≤ h.poolPhys (off + tableSize level)) (hu : u = putEntry s h off level eff stored) :
    Mem.read u.mem (h.poolPhys off) 8 = eff ∧ Mem.read u.mem (h.poolPhys (off + tableSize level)) 8 = stored ∧
      (∀ a, (a < h.poolPhys off ∨ h.poolPhys off + 8 ≤ a) →
        (a < h.poolPhys (off + tableSize level) ∨ h.poolPhys (off + tableSize level) + 8 ≤ a) →
        Mem.get u.mem a = Mem.get s.mem a) ∧
      h.poolPhys off ∉ (u.hive h.id).revoked := by
  have hm : u.mem = Mem.write (Mem.write s.mem (h.poolPhys off) 8 eff) (h.poolPhys (off + tableSize level)) 8 stored := hu ▸ rfl
  rw [hm]
  refine ⟨?_, ?_, fun a h1 h2 => ?_, ?_⟩
  · rw [Mem.read_write_apart _ _ _ _ _ _ (.inl hap), Mem.read_write, Nat.mod_eq_of_lt (by simpa using heff)]
  · rw [Mem.read_write, Nat.mod_eq_of_lt (by simpa using hst)]
  · rw [Mem.get_write, if_neg (by omega), Mem.get_write, if_neg (by omega)]
  · rw [hu, putEntry,
      State.hive_modHive (f := fun x => { x with revoked := x.revoked.filter (fun p => p != h.poolPhys off) }) (fun _ => rfl)]
    cases State.findHive _ h.id with
    | none => exact List.not_mem_nil
    | some x => simp

theorem viewForm_absent (h0 : stored % 2 = 0) : viewForm level stored = .absent := by
  have : bit stored 0 = false := by simp [bit, Nat.testBit_zero, h0]
  simp [viewForm, this]

/-- A linking entry has no bit above OUT. -/
theorem high_of_viewForm_table (hv : viewForm level stored = .table out) : stored / 2 ^ 52 % 2 ^ 12 = 0 := by
  unfold viewForm at hv
  split_ifs at hv with _ hbad
  cases hv
  simp only [Bool.or_eq_true, decide_eq_true_eq, not_or, not_not] at hbad
  exact hbad.2

theorem bits_of_viewForm_page (hv : viewForm level stored = .page out r w tw nl1) :
    bit stored 2 = r ∧ bit stored 3 = w ∧ bit stored 4 = tw ∧ bit stored 5 = nl1 := by
  unfold viewForm at hv
  split_ifs at hv
  cases hv
  exact ⟨rfl, rfl, rfl, rfl⟩

theorem withOut_eq (hst : stored < 2 ^ 64) (hv : viewForm level stored = .table out) {pa : Nat} (h8 : pa % 256 = 0)
    (hp : pa < 2 ^ 52) : withOut stored pa = stored % 256 + pa := by
  have hh := high_of_viewForm_table hv
  rw [withOut]
  omega

theorem composeLeaf_eq (hv : viewForm level stored = .page out r w tw nl1) {pa : Nat} (back : TlbEntry) (h8 : pa % 256 = 0)
    (hp : pa < 2 ^ 52) : composeLeaf stored pa back =
      3 + 4 * (r && back.r).toNat + 8 * (w && back.w).toNat + 16 * tw.toNat + 32 * (nl1 || back.nl1).toNat + pa := by
  obtain ⟨hr, hw, htw, hnl1⟩ := bits_of_viewForm_page hv
  rw [composeLeaf, hr, hw, htw, hnl1]
  omega

theorem composeStore_of_none {x : Nat} (hn : ∀ t ∈ linkedTables s h, off < t.1 ∨ t.1 + tableSize t.2 ≤ off) :
    composeStore s h off x va = .error (accessTrap va .write .notPermitted) := by
  have : (linkedTables s h).find? (fun t => decide (t.1 ≤ off) && decide (off < t.1 + tableSize t.2)) = none := by
    rw [List.find?_eq_none]
    intro t ht
    have := hn t ht
    simp only [Bool.and_eq_true, decide_eq_true_eq]
    omega
  rw [composeStore, this]

theorem composeStore_of_some {x : Nat} {t : Nat × Nat}
    (ht : (linkedTables s h).find? (fun t => decide (t.1 ≤ off) && decide (off < t.1 + tableSize t.2)) = some t) :
    composeStore s h off x va = composeAt s h off t.2 x va := by
  rw [composeStore, ht]

theorem storeSt_shadow {w : Who} {child n pa x : Nat} {e : TlbEntry} {b : Bool} (ha : va.toNat % n = 0) (htw : e.tw = false)
    (hl : locate s w va.toNat .write = .ok (.shadow child off pa e, u)) :
    storeSt s w va n x b = if n = 8 then composeStore (charge u w.hive pa 128) (u.hive child) off x va
      else .error (accessTrap va .write .notPermitted) := by
  rw [storeSt, if_neg (not_not.mpr ha), hl]
  simp [htw, protectionAt]

theorem storeBytes_eq_eight {sz : StoreSize} : storeBytes sz = 8 ↔ sz = .d := by cases sz <;> decide

section
variable {sz : StoreSize} {o : MFmt} {child pa : Nat} {e : TlbEntry}

/-- A shadow part is closed to an ST of fewer than 8 bytes (R76). -/
theorem exec_st_shadow_narrow (hr : s.runs = true) (ho : o.ord = 0) (ha : (mAddr s.me o).toNat % storeBytes sz = 0)
    (htw : e.tw = false) (hl : locate s s.who (mAddr s.me o).toNat .write = .ok (.shadow child off pa e, u)) (hsz : sz ≠ .d) :
    exec (.st sz o) s = .next (raise s (accessTrap (mAddr s.me o) .write .notPermitted)) := by
  rw [exec_st_eq ho, storeSt_shadow ha htw hl, if_neg (storeBytes_eq_eight.not.mpr hsz)]
  exact scalar_trap hr _

theorem exec_st_shadow_wide (ho : o.ord = 0) (ha : (mAddr s.me o).toNat % storeBytes sz = 0)
    (htw : e.tw = false) (hl : locate s s.who (mAddr s.me o).toNat .write = .ok (.shadow child off pa e, u)) (hsz : sz = .d) :
    exec (.st sz o) s = scalar s ((composeStore (charge u s.me.hive pa 128) ((charge u s.me.hive pa 128).hive child) off
      (s.me.greg o.gb).toNat (mAddr s.me o)).map State.advance) := by
  have hx : (s.me.greg o.gb).toNat % 2 ^ (8 * storeBytes sz) = (s.me.greg o.gb).toNat :=
    Nat.mod_eq_of_lt (hsz ▸ (s.me.greg o.gb).isLt)
  rw [exec_st_eq ho, storeSt_shadow ha htw hl, if_pos (storeBytes_eq_eight.mpr hsz), hx]
  rfl

/-- An ST.D to a shadow part composes (R76). -/
theorem exec_st_shadow_composed {y : State} (hr : s.runs = true) (ho : o.ord = 0) (ha : (mAddr s.me o).toNat % storeBytes sz = 0)
    (htw : e.tw = false) (hl : locate s s.who (mAddr s.me o).toNat .write = .ok (.shadow child off pa e, u)) (hsz : sz = .d)
    (hc : composeStore (charge u s.me.hive pa 128) ((charge u s.me.hive pa 128).hive child) off (s.me.greg o.gb).toNat
      (mAddr s.me o) = .ok y) : exec (.st sz o) s = .next y.advance := by
  rw [exec_st_shadow_wide ho ha htw hl hsz, hc]
  exact scalar_next hr _

theorem exec_st_shadow_refused {tr : Trap} (hr : s.runs = true) (ho : o.ord = 0) (ha : (mAddr s.me o).toNat % storeBytes sz = 0)
    (htw : e.tw = false) (hl : locate s s.who (mAddr s.me o).toNat .write = .ok (.shadow child off pa e, u)) (hsz : sz = .d)
    (hc : composeStore (charge u s.me.hive pa 128) ((charge u s.me.hive pa 128).hive child) off (s.me.greg o.gb).toNat
      (mAddr s.me o) = .error tr) : exec (.st sz o) s = .next (raise s tr) := by
  rw [exec_st_shadow_wide ho ha htw hl hsz, hc]
  exact scalar_trap hr _

end

theorem composeAt_absent (h0 : stored % 2 = 0) : composeAt s h off level stored va = .ok (putEntry s h off level 0 stored) := by
  simp only [composeAt, viewForm_absent h0]

/-- A link to a table of the shadow part holds the physical place of the table (R76). -/
theorem composeAt_table (hst : stored < 2 ^ 64) (hv : viewForm level stored = .table out)
    (hle : out + 2 * tableSize (level - 1) ≤ h.saveoff) (h8 : h.poolPhys out % 256 = 0) (hp : h.poolPhys out < 2 ^ 52) :
    composeAt s h off level stored va = .ok (putEntry s h off level (stored % 256 + h.poolPhys out) stored) := by
  simp only [composeAt, hv, if_pos hle, withOut_eq hst hv h8 hp]

theorem composeAt_table_beyond (hv : viewForm level stored = .table out) (hgt : h.saveoff < out + 2 * tableSize (level - 1)) :
    composeAt s h off level stored va = .error (accessTrap va .write .notPermitted) := by
  simp only [composeAt, hv, if_neg (Nat.not_le.mpr hgt)]

theorem composeAt_page_beyond_window (hv : viewForm level stored = .page out r w tw nl1) (hgt : h.wsize < out + pageSize level) :
    composeAt s h off level stored va = .error (accessTrap va .write .notPermitted) := by
  simp only [composeAt, hv, if_pos hgt]

theorem composeAt_page_of_fail {x : Reason} (hv : viewForm level stored = .page out r w tw nl1)
    (hle : out + pageSize level ≤ h.wsize) (hw : walk s (s.hive h.parent) (h.wbase + out) = .fail x) :
    composeAt s h off level stored va = .error (accessTrap va .write x) := by
  simp only [composeAt, hv, if_neg (Nat.not_lt.mpr hle), hw]

theorem composeAt_page_beyond_leaf {back : TlbEntry} (hv : viewForm level stored = .page out r w tw nl1)
    (hle : out + pageSize level ≤ h.wsize) (hw : walk s (s.hive h.parent) (h.wbase + out) = .leaf back)
    (hgt : back.size < h.wbase + out - back.vbase + pageSize level) :
    composeAt s h off level stored va = .error (accessTrap va .write .notPermitted) := by
  simp only [composeAt, hv, if_neg (Nat.not_lt.mpr hle), hw, if_pos hgt]

/-- A leaf within the window and the parent's leaf is composed with that (R76). -/
theorem composeAt_page {back : TlbEntry} (hv : viewForm level stored = .page out r w tw nl1)
    (hle : out + pageSize level ≤ h.wsize) (hw : walk s (s.hive h.parent) (h.wbase + out) = .leaf back)
    (hin : h.wbase + out - back.vbase + pageSize level ≤ back.size) :
    composeAt s h off level stored va = .ok (putEntry s h off level
      (composeLeaf stored (back.pbase + (h.wbase + out - back.vbase)) back) stored) := by
  simp only [composeAt, hv, if_neg (Nat.not_lt.mpr hle), hw, if_neg (Nat.not_lt.mpr hin)]

theorem composeLeaf_lt (hv : viewForm level stored = .page out r w tw nl1) {pa : Nat} (back : TlbEntry) (h8 : pa % 256 = 0)
    (hp : pa < 2 ^ 52) : composeLeaf stored pa back < 2 ^ 64 := by
  have hr := Bool.toNat_le (r && back.r)
  have hw := Bool.toNat_le (w && back.w)
  have htw := Bool.toNat_le tw
  have hnl1 := Bool.toNat_le (nl1 || back.nl1)
  rw [composeLeaf_eq hv back h8 hp]
  omega

end

/-- Settles O16: a cached store writes the line that its fetch brings in, one at the coherence point goes to memory behind the
core's own line, and a composing store puts both halves of the entry that composeAt makes of the stored one. -/
theorem memoryStores : Obligations.MemoryStores := by
  unfold Obligations.MemoryStores
  refine ⟨?_, ?_, ?_, ?_⟩
  · intro s u sz o pa c e hr va n ha hp hw hc hl htw hnl ho hn stored
    obtain ⟨hu, hul, hum⟩ := locate_mem_keeps hw hl
    have hb : (u.core c).bypasses e false = false := Core.bypasses_of_not hnl (by rwa [hu.l1Lines])
    have hst : Stored s (l1Write u s.who.hive c pa n ((s.me.greg o.gb).toNat % 2 ^ (8 * n))) c pa n (s.me.greg o.gb).toNat :=
      l1Write_stored _ _ hu hul hum hc hn (storeBytes_dvd sz) hp
    have he := exec_st_of_locate hr ho ha htw hl
    rw [writePlace_cached hw hb] at he
    refine ⟨_, he, hst.only.modMe_eq _, fun k hk => hst.only.modMe_strand _ hk, hst.only.modMe_me hr _,
      fun d hd => hst.only.core_other hd, ?_, hst.seen, hst.mem, hst.kept, fun hroom => ⟨⟨fun a => ?_, fun d a => ?_⟩, fun a => ?_⟩, hst.fits⟩
    · exact hst.only.core_eq c
    · exact congrArg (Mem.get · a) (hst.mem_of_room hroom)
    · exact congrArg (Mem.get · a) (hst.only.scratch d)
    · by_cases hline : a / 128 = pa / 128
      · exact hst.seen a hline
      · obtain ⟨-, hle⟩ := aligned_in_line (storeBytes_dvd sz) hp
        exact (hst.seen_of_room hroom a hline).trans (if_neg (by omega)).symm
  · intro s sz o pa c e hr va n ha hw htw
    refine ⟨fun u ho hs hl => ?_, fun u ho he hl => ?_⟩
    · have hrel : releaseL1 s s.who o.scope.toNat = flushL1 s s.me.hive c :=
        releaseL1_of_scope hw (fun h => hs (BitVec.eq_of_toNat_eq h))
      exact ⟨_, exec_stl_of_locate hr ho hs ha htw (hrel ▸ hl),
        (flushL1_cachesOnly.trans (locate_mem_keeps hw hl).1).through hr hw (Core.bypasses_of_through _ e) pa n _⟩
    · exact ⟨_, exec_st_of_locate hr ho ha htw hl,
        (locate_mem_keeps hw hl).1.through hr hw (Core.bypasses_of_nl1 he false) pa n _⟩
  · intro s u sz o child off pa e hr ho va v refused ha hl htw
    exact ⟨exec_st_shadow_narrow hr ho ha htw hl,
      fun hsz hno => exec_st_shadow_refused hr ho ha htw hl hsz (composeStore_of_none hno),
      fun t hsz ht => ⟨fun y hy => exec_st_shadow_composed hr ho ha htw hl hsz ((composeStore_of_some ht).trans hy),
        fun tr htr => exec_st_shadow_refused hr ho ha htw hl hsz ((composeStore_of_some ht).trans htr)⟩⟩
  · intro s h off level stored va hst hap halves refuses
    have hput {eff : Nat} (heff : eff < 2 ^ 64) (hc : composeAt s h off level stored va = .ok (putEntry s h off level eff stored)) :
        halves eff := ⟨_, hc, putEntry_halves heff hst hap rfl⟩
    refine ⟨fun h0 => hput (by decide) (composeAt_absent h0), fun out hv => ⟨fun hle h8 hp => ?_, composeAt_table_beyond hv⟩,
      fun out r w tw nl1 hv => ⟨composeAt_page_beyond_window hv, fun hle => ⟨composeAt_page_of_fail hv hle, fun back hw =>
        ⟨composeAt_page_beyond_leaf hv hle hw, fun hin h8 hp => ?_⟩⟩⟩⟩
    · exact hput (by omega) (composeAt_table hst hv hle h8 hp)
    · exact composeLeaf_eq hv back h8 hp ▸ hput (composeLeaf_lt hv back h8 hp) (composeAt_page hv hle hw hin)

end Sys2Proof.Machine

/-! SUPPORT. Rules of state updates and of shared operations that the statements on strands, gangs and scheduling use (spec/02). -/

namespace Sys2Proof.Machine

/-! ## Strands updated one after the other, and seen in part -/

section
variable {s : State}

theorem State.modStrand_modStrand (s : State) (k : Nat) (f g : Strand → Strand) :
    (s.modStrand k f).modStrand k g = s.modStrand k (fun t => g (f t)) := by
  by_cases h : k < s.strands.length
  · rw [State.modStrand, State.strand_mod_self s k f h, State.modStrand, State.modStrand, List.set_set]
  · have hno (u : State) (x : Strand → Strand) (hu : u.strands = s.strands) : u.modStrand k x = u := by
      rw [State.modStrand, hu, List.set_eq_of_length_le (by omega), ← hu]
    rw [hno s f rfl, hno s g rfl, hno s _ rfl]

theorem State.modMe_modMe (s : State) (f g : Strand → Strand) : (s.modMe f).modMe g = s.modMe (fun t => g (f t)) :=
  State.modStrand_modStrand s s.cur f g

/-- A strand with a general register written is the same but for its general registers. -/
theorem Strand.setGreg_eq (t : Strand) (r : BitVec 5) (x : Word) : t.setGreg r x = { t with g := (t.setGreg r x).g } := by
  unfold Strand.setGreg
  split <;> rfl

theorem scalarWait_waits (h : s.runs = true) : scalarWait s none = .next { s with stalled := true } := by
  simp [scalarWait, h]

end

/-- An update of a strand that keeps some part of it keeps that part of every strand. -/
theorem State.modStrand_map {α : Type} {F : Strand → α} (s : State) (k : Nat) {f : Strand → Strand} (hf : ∀ x, F (f x) = F x) :
    (s.modStrand k f).strands.map F = s.strands.map F := by
  rw [State.modStrand, List.map_set, hf]
  refine List.ext_getElem? fun j => ?_
  rw [List.getElem?_set]
  split
  · next h =>
    subst h
    split
    · next hk =>
      have hlt : k < s.strands.length := by simpa using hk
      simp [State.strand, hlt]
    · next hk => simp at hk; simp [hk]
  · rfl

theorem State.foldl_map {α β : Type} {F : Strand → α} {f : State → β → State}
    (hf : ∀ s b, (f s b).strands.map F = s.strands.map F) (l : List β) (s : State) :
    (l.foldl f s).strands.map F = s.strands.map F := by
  induction l generalizing s with
  | nil => rfl
  | cons b l ih => exact (ih (f s b)).trans (hf s b)

/-- Strand k of a state, seen in part. -/
theorem State.map_strand {α : Type} (F : Strand → α) (s : State) (k : Nat) :
    F (s.strand k) = (s.strands.map F).getD k (F Strand.blank) := (List.getD_map ..).symm

/-! ## Answers -/

theorem ok_bind {ε α β : Type} (a : α) (f : α → Except ε β) : ((Except.ok a : Except ε α) >>= f) = f a := rfl

/-! ## Acquires and releases change the caches of a core, memory and the requests (R105) -/

section
variable (s : State) (w : Who) (n : Nat)

theorem releaseL1_cachesOnly : ∃ c, CachesOnly s (releaseL1 s w n) c := by
  unfold releaseL1
  split
  · next c _ =>
    split
    · exact ⟨c, .refl s c⟩
    · exact ⟨c, flushL1_cachesOnly⟩
  · exact ⟨0, .refl s 0⟩

theorem acquireL1_cachesOnly : ∃ c, CachesOnly s (acquireL1 s w n) c := by
  unfold acquireL1
  split
  · next c _ =>
    split
    · exact ⟨c, .refl s c⟩
    · exact ⟨c, clearL1_cachesOnly⟩
  · exact ⟨0, .refl s 0⟩

@[simp] theorem acquireL1_strands : (acquireL1 s w n).strands = s.strands :=
  (acquireL1_cachesOnly s w n).elim fun _ h => h.strands

@[simp] theorem acquireL1_cur : (acquireL1 s w n).cur = s.cur :=
  (acquireL1_cachesOnly s w n).elim fun _ h => h.cur

end

end Sys2Proof.Machine

/-! SUPPORT. What reset leaves (spec/02 R53, spec/04 R103, R109), and a step that takes an issue place (spec/02 R40, R41). -/

namespace Sys2Proof.Machine

/-- Every core is as after module reset, also one that is not there. -/
theorem State.reset_core (c : Nat) : State.reset.core c = Core.reset := List.getElem?_getD_replicate_default_eq _ 576 c

/-- Every ring is as after module reset, also one that is not there. -/
theorem State.reset_ring (r : Nat) : State.reset.ring r = Ring.reset := List.getElem?_getD_replicate_default_eq _ 48 r

/-- Every session is FREE (R217). -/
theorem State.reset_session (r n : Nat) : State.reset.session r n = Session.reset := by
  rw [State.session, State.reset_ring]
  exact List.getElem?_getD_replicate_default_eq _ 4 n

/-- The tiles of a core after reset hold zeros (R109). -/
theorem Core.reset_tiles_zero {t : List TileRow} (ht : t ∈ Core.reset.tiles) {row : TileRow} (hrow : row ∈ t) : row = 0 := by
  rw [show t = Core.zeroTile from List.eq_of_mem_replicate ht] at hrow
  exact List.eq_of_mem_replicate hrow

/-- Main memory and every scratchpad of the module after reset list no byte. -/
theorem State.reset_memWf : State.reset.memWf = true := by
  rw [State.memWf_iff]
  exact ⟨rfl, fun c hc => by rw [List.eq_of_mem_replicate hc]; rfl⟩

/-- Settles O4: each core and each session is one after module reset. -/
theorem resetLeavesTheModuleEmpty : Obligations.ResetLeavesTheModuleEmpty := by
  unfold Obligations.ResetLeavesTheModuleEmpty
  refine ⟨⟨List.length_replicate .., List.length_replicate .., rfl, rfl, rfl, fun c _ => ?_, fun r _ n _ => ?_⟩, State.reset_memWf⟩
  · rw [State.reset_core]
    exact ⟨rfl, fun _ => rfl, fun _ => rfl, rfl, rfl, rfl, fun t ht row hrow => Core.reset_tiles_zero ht hrow⟩
  · rw [State.reset_session]
    rfl

section
open Sys2Proof.Tests

/-- Two cores and a strand on core 1 that fetches NOP, while core 0, whose turn it is, has filled the first place of its cycle and has
no strand for the second. -/
def openSecondPlace : State :=
  let t : Strand := { loadedStrand with share := some ⟨1, 0, 16⟩ }
  { tiny with
    cores := [{ Core.reset with roundFirst := some 0 }, Core.reset], strands := [t]
    mem := Mem.write [] t.pc.toNat 8 0x3300000000000000 }

/-- The state that TakesPlace describes for the first place of core 1: it closes the second place of core 0. -/
def secondPlaceClosed : State :=
  { ({ beginStep openSecondPlace with deviceTurn := true }.modCore 0 (fun x => { x with roundFirst := none })) with
    cur := 0, coreTurn := 1 }.modCore 1 (fun x => { x with roundFirst := none })

/-- Which strand has filled the first place of core 0's open cycle after a step. -/
def firstOfCore0 : Host.Outcome State Fault Refusal → Option Nat
  | .next t => (t.core 0).roundFirst
  | _ => none

theorem secondPlaceClosed_takesPlace : TakesPlace openSecondPlace secondPlaceClosed false :=
  ⟨by decide, by decide, by decide, _, 1, 0, rfl, by decide, rfl⟩

/-- Issuing on core 1, the model leaves the second place of core 0's cycle open. -/
theorem firstOfCore0_step : firstOfCore0 (step openSecondPlace) = some 0 := by decide +kernel

/-- Refutes O5: where no strand can fill the second place of the core whose turn it is, and another core issues, the statement closes
that second place before the instruction runs, while the step leaves it open. -/
theorem not_stepRunsTheDecodedInstruction : ¬ Obligations.StepRunsTheDecodedInstruction := by
  unfold Obligations.StepRunsTheDecodedInstruction
  intro h
  have hstep := congrArg firstOfCore0 (h openSecondPlace secondPlaceClosed false (.nop ⟨0, 0, 0, 0, 0⟩)
    secondPlaceClosed_takesPlace (by decide) (by decide))
  rw [firstOfCore0_step] at hstep
  revert hstep
  decide +kernel

end

end Sys2Proof.Machine

/-! SUPPORT. SETVL and the reads of control registers (spec/02 R52 to R56, spec/14 R330). -/

namespace Sys2Proof.Machine

section
variable {s : State}

/-- SETVL writes the strip length, and the grant and the EG slots of its strand (R54, R56). -/
theorem exec_setvl (hr : s.runs = true) (o : IFmt) :
    exec (.setvl o) s = .next (s.modMe (fun t =>
      ({ t with grant := setvlGrant s.me.pg s.myCore.vlgrant s.me.vlmin, egs := min t.egs ((t.budget + 32) * t.pg) }.setGreg o.gd
        (BitVec.ofNat 64 (min (s.me.greg o.ga).toNat (setvlGrant s.me.pg s.myCore.vlgrant s.me.vlmin * 2048 /
          (ElemType.ofCode (o.q.extractLsb' 0 4)).width)))).nextPc)) :=
  (scalar_next hr _).trans (congrArg Host.Outcome.next (State.modMe_modMe s _ _))

/-- CTLRD of a register other than FPCTL and SEED, or with an empty queue, reads it at once (R151, R330). -/
theorem ctlrd_gives {o : IFmt} {n : BitVec 32} {v : Word} (hr : s.runs = true) (hq : (n ≠ 2 ∧ n ≠ 3) ∨ s.me.queue = [])
    (hv : controlValue s n.toNat = v) (hn : o.imm = n) : Gives (.ctlrd o) s o.gd v := by
  subst hn hv
  have hnow : ((o.imm == 2 || o.imm == 3) && !s.me.queue.isEmpty) = false := by
    rcases hq with ⟨h2, h3⟩ | hq
    · rw [beq_false_of_ne h2, beq_false_of_ne h3]
      rfl
    · rw [hq]
      exact Bool.and_false _
  refine ⟨_, ?_, Wrote.finish hr o.gd _⟩
  rw [exec, execCtlrd, hnow]
  exact scalarWait_next hr _

/-- CTLRD of FPCTL and SEED waits for the queue (R151). -/
theorem exec_ctlrd_waits {o : IFmt} (hr : s.runs = true) (hq : s.me.queue ≠ []) (hn : o.imm = 2 ∨ o.imm = 3) :
    exec (.ctlrd o) s = .next { s with stalled := true } := by
  have hwait : ((o.imm == 2 || o.imm == 3) && !s.me.queue.isEmpty) = true := by
    rcases hn with hn | hn <;> simp [hn, hq]
  rw [exec, execCtlrd, hwait]
  exact scalarWait_waits hr

end

/-- Settles O22: SETVL is one update of its strand, and each read of a register is one register written. -/
theorem grantsAndControlRegisterReads : Obligations.GrantsAndControlRegisterReads := by
  unfold Obligations.GrantsAndControlRegisterReads
  constructor
  · intro s o hr w g n
    refine ⟨_, exec_setvl hr o, onlyMe_mod s _, ?_, fun r => ?_⟩
    · rw [State.me_mod hr, Strand.setGreg_eq]
      rfl
    · rw [State.me_mod hr, Strand.greg_nextPc, Strand.greg_setGreg]
      by_cases hg : r = o.gd
      · subst hg
        rfl
      · rw [if_neg (fun x => hg x.1), if_neg (fun x => hg x.1)]
        rfl
  · intro s o hr t h reads
    have now {n : BitVec 32} {v : Word} (hn : n ≠ 2 ∧ n ≠ 3) (hv : controlValue s n.toNat = v) : reads n v :=
      ctlrd_gives hr (.inl hn) hv
    exact ⟨now (by decide) rfl, now (by decide) rfl, fun hq => ⟨ctlrd_gives hr (.inr hq) rfl, ctlrd_gives hr (.inr hq) rfl⟩,
      exec_ctlrd_waits hr, now (by decide) rfl, now (by decide) rfl, now (by decide) rfl, now (by decide) rfl, now (by decide) rfl,
      now (by decide) rfl, now (by decide) rfl, now (by decide) rfl, now (by decide) rfl, now (by decide) rfl,
      now (by decide) rfl, now (by decide) rfl, now (by decide) rfl, now (by decide) rfl,
      now (by decide) (BitVec.ofNat_toNat ..), ⟨_, scalar_next hr _, Wrote.finish hr o.gd _⟩⟩

end Sys2Proof.Machine

/-! SUPPORT. Launching a gang (spec/02 R27 to R35). -/

namespace Sys2Proof.Machine

/-! Strands that keep what a launch gave them -/

/-- What the launch of a strand gives it, and its queue and trap state (R29, R30). -/
def Strand.launched (t : Strand) : Word × Vector Word 32 × BitVec 32 × BitVec 32 × Nat × List QEntry × Word :=
  (t.pc, t.g, t.strandId, t.gangId, t.hive, t.queue, t.trapcause)

theorem startTask_strands (s : State) (t : Strand) : (startTask s t).strands = s.strands := by
  unfold startTask
  split <;> rfl

theorem placeStrand_launched (s : State) (k : Nat) (p : Nat × Nat × Nat × Nat) :
    (placeStrand s k p).strands.map Strand.launched = s.strands.map Strand.launched := by
  unfold placeStrand
  dsimp only
  rw [State.modStrand_map]
  · split
    · rw [acquireL1_strands, startTask_strands]
    · rw [startTask_strands]
  · exact fun _ => rfl

theorem placeInOrder_launched (x : ShareRef) (n : Nat) (s : State) :
    (placeInOrder x n s).strands.map Strand.launched = s.strands.map Strand.launched := by
  induction n generalizing s with
  | zero => rfl
  | succ n ih =>
    unfold placeInOrder
    dsimp only
    split
    · rfl
    · rw [ih, placeStrand_launched]
      refine State.foldl_map (fun s q => State.modStrand_map s q ?_) _ s
      exact fun _ => rfl

theorem waitOn_launched (s : State) (k : Nat) (x : ShareRef) :
    (waitOn s k x).strands.map Strand.launched = s.strands.map Strand.launched :=
  State.modStrand_map { s with nextArrival := s.nextArrival + 1 } k fun _ => rfl

/-! The strands of a gang -/

/-- The strand of index i of a gang in its launch state (R30). -/
def gangStrand (hive id gang r i : Nat) : Strand :=
  freshStrand hive id gang (field r 0 8) ((List.range 4).map (fun n => field r (8 + 8 * n) 8) ++ [i]) (field r 0x2C 1)
    (field r 0x2D 1) (field r 0x2E 1) (field r 0x2F 1)

theorem launchOne_launched (s : State) (hive id gang r i : Nat) (shares : List ShareRef) :
    (launchOne s hive id gang r i shares).strands.map Strand.launched =
      (s.strands ++ [gangStrand hive id gang r i]).map Strand.launched := by
  unfold launchOne
  dsimp only
  split
  · rw [placeShare, placeInOrder_launched, waitOn_launched]
    rfl
  · rfl

theorem launchOnes_launched (s : State) (hive gang r first : Nat) (shares : List ShareRef) (n : Nat) :
    ((List.range n).foldl (fun s i => launchOne s hive (first + i) gang r i shares) s).strands.map Strand.launched =
      (s.strands ++ (List.range n).map (fun i => gangStrand hive (first + i) gang r i)).map Strand.launched := by
  induction n with
  | zero => exact congrArg (List.map Strand.launched) (List.append_nil s.strands).symm
  | succ n ih =>
    simp only [List.range_succ, List.foldl_append, List.foldl_cons, List.foldl_nil, launchOne_launched, List.map_append, ih,
      List.append_assoc, List.map_cons, List.map_nil]

/-- The strands of a gang stand in order behind those that there were (R29, R31). -/
theorem launchGang_launched (s : State) (hive gang r : Nat) (shares : List ShareRef) :
    (launchGang s hive gang r shares).strands.map Strand.launched = (s.strands ++ (List.range (field r 0x28 4)).map
      (fun i => gangStrand hive (nextStrandIds s (field r 0x28 4) + i) gang r i)).map Strand.launched :=
  launchOnes_launched _ hive gang r _ shares _

/-- The registers of a strand in its launch state: ARG0 to ARG3 in g1 to g4, the index in g5 (R30). -/
theorem gangStrand_greg (hive id gang r i : Nat) (q : BitVec 5) :
    (gangStrand hive id gang r i).greg q = if q = 5 then BitVec.ofNat 64 i
      else if 1 ≤ q.toNat ∧ q.toNat ≤ 4 then BitVec.ofNat 64 (field r (8 * q.toNat) 8) else 0 := by
  have h5 : q = 5 ↔ 5 = q.toNat := ⟨fun h => h ▸ rfl, fun h => BitVec.eq_of_toNat_eq h.symm⟩
  have h0 : q = 0 ↔ q.toNat = 0 := ⟨fun h => h ▸ rfl, fun h => BitVec.eq_of_toNat_eq h⟩
  simp only [gangStrand, freshStrand, Strand.greg, Vector.getElem_set, Vector.getElem_replicate, h0, h5]
  generalize q.toNat = n
  by_cases hn : n ≤ 5
  · interval_cases n <;> rfl
  · rw [if_neg (by omega), if_neg (by omega), if_neg (by omega), if_neg (by omega), if_neg (by omega), if_neg (by omega),
      if_neg (by omega), if_neg (by omega)]

section
variable {s u : State} {o : GFmt} {r : Nat} {single : Bool} {i : Instr}

/-- A launch whose record passes its checks reserves its spill entries, or has no room for them (R29, R35). -/
theorem launch_of_record (ha : (s.me.greg o.ga).toNat % 64 = 0) (hl : loadRecord s s.who (s.me.greg o.ga) 8 = .ok (r, u))
    (hf : launchFault u.myHive.shares.length single r = none) (hlo : u.myHive.codebase ≤ field r 0 8)
    (hhi : field r 0 8 < u.myHive.codebound) :
    launch single i o s = scalar s (if spillReserved u u.myHive.id + field r 0x28 4 ≤ u.myHive.spillcnt then
      .ok (launchGang (((releaseL1 u u.who 1).modHive u.myHive.id (fun x => { x with lastGang := nextGang u.myHive })).finish o.gd
        (BitVec.ofNat 64 (nextGang u.myHive))) u.myHive.id (nextGang u.myHive) r
        ((sharesInOrder u.myHive).zipIdx.filterMap (fun x => if bit (field r 0x30 16) x.2 then some x.1 else none)))
      else .error ⟨.hiveLimit, encode i, 0, 0x28⟩) := by
  unfold launch
  congr 1
  simp only [need, ha, hl, hf, hlo, hhi, beq_self_eq_true, decide_true, Bool.and_self, if_true, ok_bind, decide_eq_true_eq]
  split
  · rfl
  · rfl

theorem launch_of_fault {off : Nat} (ha : (s.me.greg o.ga).toNat % 64 = 0)
    (hl : loadRecord s s.who (s.me.greg o.ga) 8 = .ok (r, u)) (hf : launchFault u.myHive.shares.length single r = some off) :
    launch single i o s = scalar s (.error ⟨.illegalField, BitVec.ofNat 64 off, 0, 0⟩) := by
  unfold launch
  congr 1
  simp only [need, ha, hl, hf, beq_self_eq_true, if_true, ok_bind]
  rfl

theorem launch_of_misaligned (ha : (s.me.greg o.ga).toNat % 64 ≠ 0) :
    launch single i o s = scalar s (.error ⟨.align, s.me.greg o.ga, 0, 0⟩) := by
  unfold launch
  congr 1
  simp only [need, beq_false_of_ne ha, Bool.false_eq_true, if_false]
  rfl

end

/-- Settles O35: a launch is its checks and then the gang, whose strands stand in order behind those that there were. -/
theorem gangLaunchCreatesStrands : Obligations.GangLaunchCreatesStrands := by
  unfold Obligations.GangLaunchCreatesStrands
  refine ⟨?_, ?_, ?_⟩
  · intro s u o r hr ha hl h shares gang v done runs
    have launches (single : Bool) (i : Instr) (hi : exec i s = launch single i o s) : runs single i := by
      refine ⟨fun hf hlo hhi => ⟨fun hroom => ?_, fun hfull => ?_⟩, fun off hf => ?_⟩
      · rw [hi, launch_of_record ha hl hf hlo hhi, if_pos hroom]
        exact scalar_next hr _
      · rw [hi, launch_of_record ha hl hf hlo hhi, if_neg (Nat.not_le.mpr hfull)]
        exact scalar_trap hr _
      · rw [hi, launch_of_fault ha hl hf]
        exact scalar_trap hr _
    exact ⟨launches true _ rfl, launches false _ rfl⟩
  · intro s h gang r shares n t first
    have hmap : t.strands.map Strand.launched = (s.strands ++ (List.range n).map (fun i => gangStrand h (first + i) gang r i)).map
        Strand.launched := launchGang_launched s h gang r shares
    have hstrand (k : Nat) : (t.strand k).launched =
        ((s.strands ++ (List.range n).map (fun i => gangStrand h (first + i) gang r i)).getD k Strand.blank).launched := by
      rw [State.map_strand Strand.launched, hmap]
      exact List.getD_map ..
    refine ⟨by simpa using congrArg List.length hmap, fun k hk => ?_, fun i hi => ?_⟩
    · have hk' := hstrand k
      rw [List.getD_append _ _ _ _ hk] at hk'
      simp only [Strand.launched, Prod.mk.injEq] at hk'
      obtain ⟨hpc, hg, hid, -, hh, -, -⟩ := hk'
      exact ⟨hpc, hg, hid, hh⟩
    · have hi' := hstrand (s.strands.length + i)
      rw [List.getD_append_right _ _ _ _ (Nat.le_add_right ..), Nat.add_sub_cancel_left] at hi'
      rw [List.getD_eq_getElem _ _ (by simpa using hi), List.getElem_map, List.getElem_range] at hi'
      simp only [Strand.launched, Prod.mk.injEq] at hi'
      obtain ⟨hpc, hg, hid, hgang, hh, hq, hcause⟩ := hi'
      refine ⟨hh, by rw [hgang]; exact BitVec.toNat_ofNat .., hid, hpc, hq, hcause, fun q => ?_⟩
      rw [Strand.greg, hg]
      exact gangStrand_greg h (first + i) gang r i q
  · intro s o hr ha
    exact ⟨(launch_of_misaligned ha).trans (scalar_trap hr _), (launch_of_misaligned ha).trans (scalar_trap hr _)⟩

end Sys2Proof.Machine

/-! SUPPORT. The gang barrier, GWAIT and SQUIT (spec/02 R37 to R39, spec/15 R355, R357, R389). -/

namespace Sys2Proof.Machine

/-! ## Acquires and releases beside an update of a strand -/

section
variable (s : State) (l : List Strand) (hive c n : Nat) (w : Who)

theorem writeBacks_withStrands (ls : List L1Line) : ls.foldl (fun s x => writeBack s hive x) { s with strands := l } =
    { ls.foldl (fun s x => writeBack s hive x) s with strands := l } := by
  induction ls generalizing s with
  | nil => rfl
  | cons x ls ih =>
    have hx : writeBack { s with strands := l } hive x = { writeBack s hive x with strands := l } := by
      unfold writeBack
      split
      · rfl
      · dsimp only
        generalize putDirty s.mem x = m
        rfl
    rw [List.foldl_cons, hx]
    exact ih (writeBack s hive x)

theorem flushL1_withStrands : flushL1 { s with strands := l } hive c = { flushL1 s hive c with strands := l } := by
  unfold flushL1
  rw [show (State.core { s with strands := l } c).l1 = (s.core c).l1 from rfl, writeBacks_withStrands]
  rfl

theorem releaseL1_withStrands : releaseL1 { s with strands := l } w n = { releaseL1 s w n with strands := l } := by
  unfold releaseL1
  split
  · split
    · rfl
    · exact flushL1_withStrands s l _ _
  · rfl

theorem acquireL1_withStrands : acquireL1 { s with strands := l } w n = { acquireL1 s w n with strands := l } := by
  unfold acquireL1
  split
  · split
    · rfl
    · rw [clearL1, flushL1_withStrands]
      rfl
  · rfl

theorem releaseL1_modStrand (k : Nat) (f : Strand → Strand) : releaseL1 (s.modStrand k f) w n = (releaseL1 s w n).modStrand k f := by
  rw [State.modStrand, releaseL1_withStrands, State.modStrand, State.strand, State.strand, releaseL1_strands]

theorem acquireL1_modStrand (k : Nat) (f : Strand → Strand) : acquireL1 (s.modStrand k f) w n = (acquireL1 s w n).modStrand k f := by
  rw [State.modStrand, acquireL1_withStrands, State.modStrand, State.strand, State.strand, acquireL1_strands]

@[simp] theorem acquireL1_strand (k : Nat) : (acquireL1 s w n).strand k = s.strand k := by
  rw [State.strand, acquireL1_strands, State.strand]

@[simp] theorem releaseL1_strand (k : Nat) : (releaseL1 s w n).strand k = s.strand k := by
  rw [State.strand, releaseL1_strands, State.strand]

end

/-! ## Running and Blocked strands -/

section
variable {s : State}

theorem State.status_of_runs (h : s.runs = true) : s.me.status = .running := by
  simp only [State.runs, Bool.and_eq_true] at h
  obtain ⟨⟨-, hrun⟩, -⟩ := h
  revert hrun
  cases s.me.status <;> simp [Status.isRunning]

theorem State.placed_of_runs (h : s.runs = true) : s.me.placed = true := by
  simp only [State.runs, Bool.and_eq_true] at h
  exact h.2

/-- An update that keeps a strand as it is keeps the state. -/
theorem State.modStrand_eq_self {k : Nat} {f : Strand → Strand} (h : f (s.strand k) = s.strand k) : s.modStrand k f = s := by
  rw [State.modStrand, h]
  suffices s.strands.set k (s.strand k) = s.strands by rw [this]
  by_cases hk : k < s.strands.length
  · rw [State.strand, List.getD_eq_getElem _ _ hk, List.set_getElem_self]
  · exact List.set_eq_of_length_le (by omega)

/-- The instruction that a strand is Blocked in runs again from the state in which it ran (R26). -/
theorem wake_of_blocked {pick : Instr → Bool} {run : Instr → State → Host.Outcome State Fault Refusal} {i : Instr}
    (hr : s.runs = true) (hp : pick i = true) :
    wake (s.modMe (fun t => { t with status := .blocked i })) s.cur pick run = run i s := by
  have hme : (s.modMe (fun t => { t with status := .blocked i })).strand s.cur = { s.me with status := .blocked i } := State.me_mod hr _
  have hback : (s.modMe (fun t => { t with status := .blocked i })).modStrand s.cur (fun t => { t with status := .running }) = s := by
    rw [State.modMe, State.modStrand_modStrand]
    refine State.modStrand_eq_self ?_
    rw [← State.status_of_runs hr]
    rfl
  unfold wake
  rw [hme]
  simp only [hp, State.placed_of_runs hr, Bool.and_self, if_true]
  exact congrArg (run i) hback

end

/-! ## The gang barrier (R38) -/

/-- A strand that has departed from its GBAR, where it stands, or while it is away (R38). -/
def departed (x : Strand) : Strand :=
  if x.status.isEnded then { x with arrived := none }
  else if x.onShare && x.pc == x.arrived.getD 0 then
    { x with arrived := none, status := .running, pc := x.pc + 8, away := none }
  else { x with arrived := none, away := some ⟨x.arrived.getD 0, 0, 0, true⟩ }

theorem Strand.setGreg_zero (t : Strand) (x : Word) : t.setGreg 0 x = t := if_pos rfl

/-- What completing an instruction of a strand leaves of it. -/
def completedAt (w : Away) (t : Strand) : Strand :=
  if t.status.isEnded then t
  else if t.onShare && t.pc == w.pc then { t.setGreg w.gd w.val with status := .running, pc := t.pc + 8, away := none }
  else { t with away := some w }

theorem completeAt_strands (s : State) (k : Nat) (w : Away) :
    (completeAt s k w).strands = s.strands.set k (completedAt w (s.strand k)) := by
  unfold completeAt completedAt
  dsimp only
  split
  · exact (congrArg State.strands (State.modStrand_eq_self (f := id) rfl)).symm
  · split
    · split
      · rw [← acquireL1_modStrand, acquireL1_strands]
        rfl
      · rfl
    · rfl

theorem depart_strands (s : State) (k : Nat) : (depart s k).strands = s.strands.set k (departed (s.strand k)) := by
  unfold depart
  rw [completeAt_strands]
  by_cases hk : k < s.strands.length
  · rw [State.strand_mod_self s k _ hk, State.modStrand, List.set_set]
    rfl
  · rw [State.modStrand, List.set_eq_of_length_le (by simpa using hk), List.set_eq_of_length_le (by omega),
      List.set_eq_of_length_le (by omega)]

theorem depart_strand (s : State) (k j : Nat) :
    (depart s k).strand j = if k = j ∧ k < s.strands.length then departed (s.strand k) else s.strand j := by
  rw [← State.strand_set, State.strand, depart_strands]
  rfl

theorem depart_length (s : State) (k : Nat) : (depart s k).strands.length = s.strands.length := by
  rw [depart_strands, List.length_set]

/-- Strands that depart do so one by one, each as it stands. -/
theorem departs_strand {ks : List Nat} (hn : ks.Nodup) (s : State) (hl : ∀ k ∈ ks, k < s.strands.length) (j : Nat) :
    (ks.foldl depart s).strand j = if j ∈ ks then departed (s.strand j) else s.strand j := by
  induction ks generalizing s with
  | nil => rfl
  | cons k ks ih =>
    obtain ⟨hk, hn⟩ := List.nodup_cons.mp hn
    rw [List.foldl_cons, ih hn (depart s k) fun q hq => depart_length s k ▸ hl q (List.mem_cons_of_mem k hq), depart_strand]
    by_cases hj : k = j
    · subst hj
      rw [if_neg hk, if_pos ⟨rfl, hl k List.mem_cons_self⟩, if_pos List.mem_cons_self]
    · rw [if_neg (fun h : k = j ∧ k < s.strands.length => hj h.1)]
      simp only [List.mem_cons, Ne.symm hj, false_or]

theorem gangMembers_nodup (s : State) (hive : Nat) (gang : BitVec 32) : (gangMembers s hive gang).Nodup :=
  List.nodup_range.filter _

theorem mem_gangMembers {s : State} {hive k : Nat} {gang : BitVec 32} : k ∈ gangMembers s hive gang ↔
    k < s.strands.length ∧ (s.strand k).status.isEnded = false ∧ (s.strand k).hive = hive ∧ (s.strand k).gangId = gang := by
  simp [gangMembers, and_assoc]

theorem barrierFull_iff {s : State} {hive : Nat} {gang : BitVec 32} : barrierFull s hive gang = true ↔
    gangMembers s hive gang ≠ [] ∧ ∀ k ∈ gangMembers s hive gang, (s.strand k).arrived ≠ none := by
  simp [barrierFull, Option.isSome_iff_ne_none]

theorem completeBarrier_of_missing {s : State} {hive k : Nat} {gang : BitVec 32} (hk : k ∈ gangMembers s hive gang)
    (hn : (s.strand k).arrived = none) : completeBarrier s hive gang = s :=
  if_neg fun h => (barrierFull_iff.mp h).2 k hk hn

theorem completeBarrier_of_full {s : State} {hive k : Nat} {gang : BitVec 32} (hk : k ∈ gangMembers s hive gang)
    (hn : ∀ k ∈ gangMembers s hive gang, (s.strand k).arrived ≠ none) :
    completeBarrier s hive gang = (gangMembers s hive gang).foldl depart s :=
  if_pos (barrierFull_iff.mpr ⟨List.ne_nil_of_mem hk, hn⟩)

theorem arriving_of_arrived {s : State} {k : Nat} (h : (s.strand k).arrived ≠ none) : arriving s k = false := by
  obtain ⟨p, hp⟩ := Option.ne_none_iff_exists'.mp h
  simp [arriving, hp]

/-- No strand of a gang arrives: only a barrier that is full completes. -/
theorem exec_gbarComplete {s : State} {hive : Nat} {gang : BitVec 32} (h : ∀ k ∈ gangMembers s hive gang, arriving s k = false) :
    exec (.gbarComplete hive gang) s = .next (completeBarrier s hive gang) := by
  have hnone : (gangMembers s hive gang).filter (arriving s) = [] := List.filter_eq_nil_iff.mpr fun k hk => by simp [h k hk]
  rw [exec, execGbarComplete, hnone]
  rfl

section
variable {s : State} {o : GFmt}

/-- GBAR blocks its strand while vector accesses of it are outstanding (R38). -/
theorem exec_gbar_waits (hr : s.runs = true) (haway : s.me.awayHere = none) (harr : s.me.arrived = none)
    (hq : s.me.queue.any (fun e => e.vectorAccess) = true) : exec (.gbar o) s = .next (s.block (.gbar o)) := by
  have hme : (s.block (.gbar o)).me = { s.me with status := .blocked (.gbar o) } := State.me_mod hr _
  rw [exec, execGbar, haway]
  simp only [hme, harr, Option.isSome_none, Bool.false_eq_true, if_false, hq, if_true]
  exact scalar_next hr _

/-- The state in which a strand has arrived at its GBAR, after an acquire and a release at HIVE scope (R38). -/
def arrivedAt (s : State) (o : GFmt) : State :=
  (releaseL1 (acquireL1 s s.who 1) s.who 1).modMe (fun t => { t with status := .blocked (.gbar o), arrived := some t.pc })

/-- GBAR arrives, and its barrier completes if that makes it full (R38). -/
theorem exec_gbar_arrives (hr : s.runs = true) (haway : s.me.awayHere = none) (harr : s.me.arrived = none)
    (hq : s.me.queue.any (fun e => e.vectorAccess) = false) :
    exec (.gbar o) s = .next (completeBarrier (arrivedAt s o) s.me.hive s.me.gangId) := by
  have hme : (s.block (.gbar o)).me = { s.me with status := .blocked (.gbar o) } := State.me_mod hr _
  have harrive : arrive (s.block (.gbar o)) s.cur = arrivedAt s o := by
    have hwho : (⟨((s.block (.gbar o)).strand s.cur).hive, ((s.block (.gbar o)).strand s.cur).share, true⟩ : Who) = s.who := by
      rw [show (s.block (.gbar o)).strand s.cur = (s.block (.gbar o)).me from rfl, hme]
      rfl
    have hcur : (releaseL1 (acquireL1 s s.who 1) s.who 1).cur = s.cur := by rw [releaseL1_cur, acquireL1_cur]
    unfold arrive arrivedAt
    dsimp only
    rw [hwho, State.block, State.modMe, acquireL1_modStrand, releaseL1_modStrand, State.modStrand_modStrand, State.modMe, hcur]
  rw [exec, execGbar, haway]
  simp only [hme, harr, Option.isSome_none, Bool.false_eq_true, if_false, hq]
  refine (scalar_next hr _).trans ?_
  rw [show (s.block (.gbar o)).cur = s.cur from rfl, harrive]

theorem arrivedAt_cur : (arrivedAt s o).cur = s.cur := by
  rw [arrivedAt, State.modMe_cur, releaseL1_cur, acquireL1_cur]

theorem arrivedAt_strand (j : Nat) : (arrivedAt s o).strand j = if s.cur = j ∧ s.cur < s.strands.length then
    { s.me with status := .blocked (.gbar o), arrived := some s.me.pc } else s.strand j := by
  rw [arrivedAt, State.modMe, State.strand_mod, releaseL1_cur, acquireL1_cur, releaseL1_strands, acquireL1_strands, releaseL1_strand,
    acquireL1_strand, releaseL1_strand, acquireL1_strand]
  rfl

end

/-- What departing leaves of a strand that has arrived: it goes on where it stands at its GBAR, or finds it completed when it comes back
to it (R38, R355). -/
theorem departed_of_arrived {x : Strand} {p : Word} (he : x.status.isEnded = false) (hp : x.arrived = some p) :
    departed x = if x.placed = true ∧ x.resuming = false ∧ x.pc = p then
        { x with arrived := none, status := .running, pc := x.pc + 8, away := none }
      else { x with arrived := none, away := some ⟨p, 0, 0, true⟩ } := by
  unfold departed
  simp [he, hp, Strand.onShare, and_assoc]

/-- A GBAR completed while its strand was away lets it go on alone (R355). -/
theorem exec_gbar_away {s : State} {o : GFmt} {w : Away} (hr : s.runs = true) (haway : s.me.awayHere = some w) :
    exec (.gbar o) s = .next (completeAt s s.cur w) := by
  rw [exec, execGbar, haway]
  exact scalar_next hr _

theorem completeAt_cur (s : State) (k : Nat) (w : Away) : (completeAt s k w).cur = s.cur := by
  unfold completeAt
  dsimp only
  split
  · rfl
  · split
    · split
      · exact acquireL1_cur ..
      · rfl
    · rfl

theorem completeAt_strand (s : State) (k j : Nat) (w : Away) :
    (completeAt s k w).strand j = if k = j ∧ k < s.strands.length then completedAt w (s.strand k) else s.strand j := by
  rw [← State.strand_set, State.strand, completeAt_strands]
  rfl

theorem depart_cur (s : State) (k : Nat) : (depart s k).cur = s.cur := completeAt_cur ..

theorem departs_cur (ks : List Nat) (s : State) : (ks.foldl depart s).cur = s.cur := by
  induction ks generalizing s with
  | nil => rfl
  | cons k ks ih => rw [List.foldl_cons, ih, depart_cur]

/-- The strands of the gang of a strand that runs, seen where it has arrived. -/
theorem cur_mem_gangMembers {s : State} {o : GFmt} (hr : s.runs = true) :
    s.cur ∈ gangMembers (arrivedAt s o) s.me.hive s.me.gangId := by
  have hme : (arrivedAt s o).strand s.cur = { s.me with status := .blocked (.gbar o), arrived := some s.me.pc } := by
    rw [arrivedAt_strand, if_pos ⟨rfl, State.cur_lt_of_runs hr⟩]
  rw [mem_gangMembers, hme]
  refine ⟨?_, rfl, rfl, rfl⟩
  rw [arrivedAt, State.modMe_length, releaseL1_strands, acquireL1_strands]
  exact State.cur_lt_of_runs hr

/-! ## GWAIT and SQUIT -/

section
variable {s : State} {o : GFmt}

theorem exec_gwait_own (hr : s.runs = true) (h : (s.me.greg o.ga).toNat = s.me.gangId.toNat) :
    exec (.gwait o) s = .next (raise s ⟨.illegalCombo, encode (.gwait o), 0, 0⟩) := by
  rw [exec, execGwait]
  simp only [need, h, bne_self_eq_false]
  exact scalar_trap hr _

theorem exec_gwait_other (hr : s.runs = true) (h : (s.me.greg o.ga).toNat ≠ s.me.gangId.toNat) :
    exec (.gwait o) s = .next (if (s.me.greg o.ga).toNat < 2 ^ 32 ∧ gangMembers s s.me.hive ((s.me.greg o.ga).setWidth 32) ≠ []
      then s.block (.gwait o) else (acquireL1 s s.who 1).advance) := by
  have hlive : (decide ((s.me.greg o.ga).toNat < 2 ^ 32) && !(gangMembers s s.me.hive ((s.me.greg o.ga).setWidth 32)).isEmpty) = true ↔
      (s.me.greg o.ga).toNat < 2 ^ 32 ∧ gangMembers s s.me.hive ((s.me.greg o.ga).setWidth 32) ≠ [] := by simp
  rw [exec, execGwait]
  simp only [need, bne_iff_ne.mpr h, if_true, ok_bind, hlive]
  split
  · exact scalar_next hr _
  · exact scalar_next hr _

theorem exec_gwaitComplete (hr : s.runs = true) :
    exec (.gwaitComplete s.cur) (s.modMe (fun t => { t with status := .blocked (.gwait o) })) = exec (.gwait o) s :=
  wake_of_blocked hr rfl

theorem exec_squitComplete (hr : s.runs = true) :
    exec (.squitComplete s.cur) (s.modMe (fun t => { t with status := .blocked (.squit o) })) = exec (.squit o) s :=
  wake_of_blocked hr rfl

theorem exec_squit_waits (hr : s.runs = true) (hq : s.me.queue ≠ []) : exec (.squit o) s = .next { s with stalled := true } := by
  have hbusy : (!s.me.queue.isEmpty || !s.quietV) = true := by simp [hq]
  rw [exec, execSquit, quit, if_pos hbusy]
  exact scalarWait_waits hr

/-- The state in which SQUIT looks at the sessions of its strand: the scalar accesses released, bindings and pushed values gone (R389). -/
def quitting (s : State) : State :=
  (undoBindings (releaseL1 s s.who 1) s.cur).modMe (fun t => { t with pushed := [], pushBits := 0 })

theorem exec_squit_ends (hr : s.runs = true) (hq : s.me.queue = []) (ho : ownedSessions (quitting s) s.cur = []) :
    exec (.squit o) s = .next (endStrand (endTask (quitting s) s.cur) s.cur) := by
  have hidle : (!s.me.queue.isEmpty || !s.quietV) = false := by simp [State.quietV, hq]
  rw [exec, execSquit, quit, hidle]
  refine (congrArg (scalarWait s) ?_).trans (scalarWait_next hr _)
  rw [if_neg Bool.false_ne_true]
  dsimp only
  rw [← quitting, ho]
  rfl

/-- A strand that has bound no slot has no bindings to undo. -/
theorem undoBindings_of_unbound {k : Nat} (h : ∀ n, ((s.strand k).fslot n).bound = false) : undoBindings s k = s := by
  have hnone : (List.range 32).filter (fun n => ((s.strand k).fslot (BitVec.ofNat 5 n)).bound) = [] :=
    List.filter_eq_nil_iff.mpr fun n _ => by simp [h]
  rw [undoBindings, hnone]
  rfl

end

/-- The last strand of a gang to arrive completes the barrier, and so does the event, at once (R38). -/
theorem exec_gbar_completes {s : State} {o : GFmt} (hr : s.runs = true) (haway : s.me.awayHere = none) (harr : s.me.arrived = none)
    (hq : s.me.queue.any (fun e => e.vectorAccess) = false)
    (hall : ∀ k ∈ gangMembers (arrivedAt s o) s.me.hive s.me.gangId, ((arrivedAt s o).strand k).arrived ≠ none) :
    ∃ t, exec (.gbar o) s = .next t ∧ exec (.gbarComplete s.me.hive s.me.gangId) (arrivedAt s o) = .next t ∧ t.cur = s.cur ∧
      ∀ k, t.strand k = if k ∈ gangMembers (arrivedAt s o) s.me.hive s.me.gangId then departed ((arrivedAt s o).strand k)
        else (arrivedAt s o).strand k := by
  have hme := cur_mem_gangMembers (o := o) hr
  refine ⟨_, exec_gbar_arrives hr haway harr hq, exec_gbarComplete fun k hk => arriving_of_arrived (hall k hk), ?_, fun k => ?_⟩
  · rw [completeBarrier_of_full hme hall, departs_cur, arrivedAt_cur]
  · rw [completeBarrier_of_full hme hall]
    exact departs_strand (gangMembers_nodup ..) _ (fun q hq => (mem_gangMembers.mp hq).1) k

/-- A strand that has ended holds nothing (R37). -/
theorem endStrand_self {s : State} {k : Nat} (hk : k < s.strands.length) (h : ∀ n, ((s.strand k).fslot n).bound = false) :
    let x := (endStrand s k).strand k
    x.status = .ended ∧ x.placed = false ∧ x.egs = 0 ∧ x.entry = none ∧ x.queue = [] ∧ x.pushed = [] := by
  dsimp only
  rw [endStrand, undoBindings_of_unbound h, State.strand_mod_self s k _ hk]
  exact ⟨rfl, rfl, rfl, rfl, rfl, rfl⟩

theorem endStrand_other {s : State} {k j : Nat} (h : ∀ n, ((s.strand k).fslot n).bound = false) (hj : j ≠ k) :
    (endStrand s k).strand j = s.strand j := by
  rw [endStrand, undoBindings_of_unbound h, State.strand_mod_other s k j _ hj]

theorem endStrand_cur {s : State} {k : Nat} (h : ∀ n, ((s.strand k).fslot n).bound = false) : (endStrand s k).cur = s.cur := by
  rw [endStrand, undoBindings_of_unbound h]
  rfl

theorem endTask_of_none {s : State} {k : Nat} (h : (s.strand k).task = none) : endTask s k = s := by
  rw [endTask, h]

/-- Without bindings only the pushed values of the strand go. -/
theorem quitting_of_unbound {s : State} (hf : ∀ n, (s.me.fslot n).bound = false) :
    quitting s = (releaseL1 s s.who 1).modStrand s.cur (fun t => { t with pushed := [], pushBits := 0 }) := by
  rw [quitting, undoBindings_of_unbound (fun n => by rw [releaseL1_strand]; exact hf n), State.modMe, releaseL1_cur]

/-- A strand that quits where it holds no task and no bindings ends, and no other changes (R37, R389). -/
theorem endStrand_quitting {s : State} (hr : s.runs = true) (ht : s.me.task = none) (hf : ∀ n, (s.me.fslot n).bound = false) :
    let t := endStrand (endTask (quitting s) s.cur) s.cur
    t.me.status = .ended ∧ t.me.placed = false ∧ t.me.egs = 0 ∧ t.me.entry = none ∧ t.me.queue = [] ∧ t.me.pushed = [] ∧
      ∀ k, k ≠ s.cur → t.strand k = s.strand k := by
  have hq := quitting_of_unbound hf
  have hlen : s.cur < (quitting s).strands.length := by
    rw [hq, State.modStrand_length, releaseL1_strands]
    exact State.cur_lt_of_runs hr
  have hme : (quitting s).strand s.cur = { s.me with pushed := [], pushBits := 0 } := by
    rw [hq, State.strand_mod_self _ _ _ (by rw [releaseL1_strands]; exact State.cur_lt_of_runs hr), releaseL1_strand]
    rfl
  have hub (n : BitVec 5) : (((quitting s).strand s.cur).fslot n).bound = false := hme ▸ hf n
  rw [endTask_of_none (hme ▸ ht)]
  have hcur : (endStrand (quitting s) s.cur).cur = s.cur := by rw [endStrand_cur hub, hq, State.modStrand_cur, releaseL1_cur]
  obtain ⟨h1, h2, h3, h4, h5, h6⟩ := endStrand_self hlen hub
  dsimp only [State.me]
  rw [hcur]
  refine ⟨h1, h2, h3, h4, h5, h6, fun k hk => ?_⟩
  rw [endStrand_other hub hk, hq, State.strand_mod_other _ _ _ _ hk, releaseL1_strand]

/-- Settles O36: a barrier completes with its last arrival, GWAIT and SQUIT look at the gang and the sessions, and each waking event runs
the waiting instruction from the state in which it ran. -/
theorem barriersWaitsAndQuitting : Obligations.BarriersWaitsAndQuitting := by
  unfold Obligations.BarriersWaitsAndQuitting
  refine ⟨?_, ?_, ?_, ?_⟩
  · intro s o hr haway harr hres quiet a w ks
    refine ⟨fun hq => exec_gbar_waits hr haway harr (by simpa [quiet] using hq), fun hq ⟨k, hk, hnone⟩ => ?_, fun hq hall => ?_⟩
    · have hstay := completeBarrier_of_missing hk hnone
      refine ⟨(exec_gbar_arrives hr haway harr hq).trans (congrArg _ hstay), fun hno => ?_⟩
      exact (exec_gbarComplete hno).trans (congrArg _ hstay)
    · obtain ⟨t, hgbar, hdone, hcur, ht⟩ := exec_gbar_completes hr haway harr hq hall
      refine ⟨t, hgbar, hdone, ?_, fun k hk hne p hp => ?_, fun k hk => ?_⟩
      · rw [State.me, hcur, ht, if_pos (cur_mem_gangMembers hr), arrivedAt_strand, if_pos ⟨rfl, State.cur_lt_of_runs hr⟩,
          departed_of_arrived rfl rfl, if_pos ⟨State.placed_of_runs hr, hres, rfl⟩]
      · obtain ⟨-, hlive, -⟩ := mem_gangMembers.mp hk
        have htk := (ht k).trans ((if_pos hk).trans (departed_of_arrived hlive hp))
        exact ⟨fun h => htk.trans (if_pos h), fun h => htk.trans (if_neg h)⟩
      · have hne : ¬(s.cur = k ∧ s.cur < s.strands.length) := by
          rintro ⟨rfl, -⟩
          exact hk (cur_mem_gangMembers hr)
        exact (ht k).trans ((if_neg hk).trans ((arrivedAt_strand k).trans (if_neg hne)))
  · intro s o w hr hres haway
    have hpc : s.me.pc = w.pc := by
      obtain ⟨-, h⟩ := Option.filter_eq_some_iff.mp haway
      exact (beq_iff_eq.mp h).symm
    have hdone : completedAt w s.me = { s.me.setGreg w.gd w.val with status := .running, pc := s.me.pc + 8, away := none } := by
      simp [completedAt, State.status_of_runs hr, Status.isEnded, Strand.onShare, State.placed_of_runs hr, hres, hpc]
    have hme : (completeAt s s.cur w).me = completedAt w s.me := by
      rw [State.me, completeAt_cur, completeAt_strand, if_pos ⟨rfl, State.cur_lt_of_runs hr⟩]
      rfl
    refine ⟨_, exec_gbar_away hr haway, ?_, ?_, ?_, fun k hk => ?_⟩
    · rw [hme, hdone]
    · rw [hme, hdone]
    · rw [hme, hdone]
    · rw [completeAt_strand, if_neg fun h => hk h.1.symm]
  · intro s o hr g live
    refine ⟨exec_gwait_own hr, fun hne hdead => ?_, fun hne hlive => ?_⟩
    · rw [exec_gwaitComplete hr, exec_gwait_other hr hne, if_neg hdead]
      exact ⟨rfl, rfl⟩
    · rw [exec_gwaitComplete hr, exec_gwait_other hr hne, if_pos hlive]
      exact ⟨rfl, rfl⟩
  · intro s o hr u v
    refine ⟨exec_squit_waits hr, exec_squit_ends hr, fun hq ho ht hf => ?_, exec_squitComplete hr⟩
    exact ⟨_, exec_squit_ends hr hq ho, (exec_squitComplete hr).trans (exec_squit_ends hr hq ho), endStrand_quitting hr ht hf⟩

end Sys2Proof.Machine

/-! SUPPORT. Taking a trap in the strand's own handler. -/

namespace Sys2Proof.Machine

/-- The strands, which of them issues, and the hives are as they were. -/
structure KeepsStrands (s t : State) : Prop where
  strands : t.strands = s.strands
  cur : t.cur = s.cur
  hives : t.hives = s.hives

namespace KeepsStrands

variable {s t u : State}

theorem refl (s : State) : KeepsStrands s s := ⟨rfl, rfl, rfl⟩

theorem trans (h : KeepsStrands s t) (g : KeepsStrands t u) : KeepsStrands s u :=
  ⟨g.strands.trans h.strands, g.cur.trans h.cur, g.hives.trans h.hives⟩

theorem setStrand (h : KeepsStrands s t) (k : Nat) (x : Strand) : KeepsStrands (s.setStrand k x) (t.setStrand k x) :=
  ⟨congrArg (fun l => l.set k x) h.strands, h.cur, h.hives⟩

theorem strand (h : KeepsStrands s t) (k : Nat) : t.strand k = s.strand k := by simp [State.strand, h.strands]

theorem me (h : KeepsStrands s t) : t.me = s.me := by simp [State.me, h.strand, h.cur]

theorem modCore (h : KeepsStrands s t) (c : Nat) (f : Core → Core) : KeepsStrands s (t.modCore c f) :=
  ⟨h.strands, h.cur, h.hives⟩

theorem charge (h : KeepsStrands s t) (m : Mem) (hive pa n : Nat) :
    KeepsStrands s (Sys2Proof.Machine.charge { t with mem := m } hive pa n) :=
  ⟨h.strands, h.cur, h.hives⟩

theorem of_withMem {m : Mem} (h : KeepsStrands { s with mem := m } t) : KeepsStrands s t :=
  ⟨h.strands, h.cur, h.hives⟩

theorem of_cachesOnly {c : Nat} (h : CachesOnly s t c) : KeepsStrands s t :=
  ⟨h.strands, h.cur, by rw [h.state_eq]⟩

end KeepsStrands

theorem xlate_keepsStrands (s : State) (core : Option Nat) (h : Hive) (k : Nat) : KeepsStrands s (xlate s core h k).2 := by
  unfold xlate
  split
  · exact .refl s
  · split
    · exact .refl s
    · split <;> exact ⟨rfl, rfl, rfl⟩

theorem locate_keepsStrands {s t : State} {w : Who} {va : Nat} {kind : AccessKind} {p : Place}
    (h : locate s w va kind = .ok (p, t)) : KeepsStrands s t := by
  have hx := xlate_keepsStrands s w.core (s.hive w.hive) (va % 2 ^ 52)
  unfold locate at h
  dsimp only at h
  split at h
  · cases h
  · split at h
    · split at h
      · split at h <;> cases h
        exact .refl s
      · cases h
    · split at h
      · split at h
        · next e u hu =>
          rw [hu] at hx
          cases hp : placeOf s w kind (va % 2 ^ 52) e <;> rw [hp] at h <;> cases h
          exact hx
        · cases h
      · split at h
        · cases h
        · split at h <;> cases h
          exact ⟨rfl, rfl, rfl⟩

theorem devicePut_keepsStrands (s : State) (hive va : Nat) (bs : List Byte) : KeepsStrands s (devicePut s hive va bs) := by
  unfold devicePut
  split
  · next h => exact (locate_keepsStrands h).charge _ _ _ _
  · exact .refl s

theorem deviceWrite_keepsStrands (s : State) (hive va : Nat) (bs : List Byte) : KeepsStrands s (deviceWrite s hive va bs) := by
  unfold deviceWrite
  dsimp only
  split
  · exact (devicePut_keepsStrands _ _ _ _).trans (devicePut_keepsStrands _ _ _ _)
  · exact devicePut_keepsStrands _ _ _ _

theorem deviceTake_keepsStrands {s t : State} {hive va n x : Nat} (h : deviceTake s hive va n = some (x, t)) :
    KeepsStrands s t := by
  unfold deviceTake at h
  split at h
  · next hl =>
    cases h
    exact (locate_keepsStrands hl).charge _ _ _ _
  · cases h

theorem deviceRead_keepsStrands {s t : State} {hive va x : Nat} (h : deviceRead s hive va = some (x, t)) :
    KeepsStrands s t := by
  unfold deviceRead at h
  dsimp only at h
  split at h
  · exact deviceTake_keepsStrands h
  · simp only [Option.bind_eq_some_iff, Option.map_eq_some_iff] at h
    obtain ⟨⟨x, u⟩, hlo, ⟨y, v⟩, hhi, h⟩ := h
    cases h
    exact (deviceTake_keepsStrands hlo).trans (deviceTake_keepsStrands hhi)

theorem traceRecord_keepsStrands (s : State) (k kind : Nat) (a b : Word) : KeepsStrands s (traceRecord s k kind a b) := by
  unfold traceRecord
  dsimp only
  split
  · exact .refl s
  · have drop (u : State) (id va : Nat) : KeepsStrands u
        (match deviceRead u id va with
          | some (d, v) => if deviceWritable v id va 8 then deviceWrite v id va (leBytes 8 (d + 1)) else v
          | none => u) := by
      split
      · next hd =>
        split
        · exact (deviceRead_keepsStrands hd).trans (deviceWrite_keepsStrands _ _ _ _)
        · exact deviceRead_keepsStrands hd
      · exact .refl u
    split
    · exact drop s _ _
    · next hd =>
      refine (deviceRead_keepsStrands hd).trans ?_
      split
      · exact (deviceWrite_keepsStrands _ _ _ _).trans (deviceWrite_keepsStrands _ _ _ _)
      · exact drop _ _ _

theorem chargePool_keepsStrands (s : State) (h : Hive) (off n : Nat) : KeepsStrands s (chargePool s h off n) := by
  unfold chargePool
  dsimp only
  split <;> exact ⟨rfl, rfl, rfl⟩

theorem poolPut_keepsStrands (s : State) (h : Hive) (off : Nat) (bs : List Byte) : KeepsStrands s (poolPut s h off bs) :=
  KeepsStrands.of_withMem (chargePool_keepsStrands { s with mem := _ } h off bs.length)

theorem releaseL1_keepsStrands (s : State) (w : Who) (scope : Nat) : KeepsStrands s (releaseL1 s w scope) := by
  obtain ⟨c, h⟩ := releaseL1_cachesOnly s w scope
  exact .of_cachesOnly h

theorem acquireL1_keepsStrands (s : State) (w : Who) (scope : Nat) : KeepsStrands s (acquireL1 s w scope) := by
  obtain ⟨c, h⟩ := acquireL1_cachesOnly s w scope
  exact .of_cachesOnly h

/-- A strand as its handler finds it (R253). -/
def Strand.inHandlerFor (t : Strand) (x : Trap) (pc vec : Word) (qd : Bool) (held : List QEntry) : Strand :=
  { t with
    status := .running, record := none, queue := [], held := held, resumePc := t.pc
    hsave := #v[t.g[28], t.g[29], t.g[30], t.g[31]], pendTrap := none
    trappc := pc, trapcause := trapCauseWord x.cause.code qd held.length, trapval := x.val, trapinfo := x.info
    pc := vec }

theorem deliverLocal_keepsStrands (s : State) (k : Nat) (x : Trap) (pc : Word) (qd : Bool) (held : List QEntry) :
    KeepsStrands (s.setStrand k ((s.strand k).inHandlerFor x pc (s.hive (s.strand k).hive).trapvec qd held))
      (deliverLocal s k x pc qd held) := by
  have hk (w : Who) (h : Hive) (o₁ o₂ o₃ : Nat) (b₁ b₂ b₃ : List Byte) :
      KeepsStrands s (poolPut (poolPut (poolPut (releaseL1 s w 2) h o₁ b₁) h o₂ b₂) h o₃ b₃) :=
    (((releaseL1_keepsStrands s w 2).trans (poolPut_keepsStrands _ _ _ _)).trans
      (poolPut_keepsStrands _ _ _ _)).trans (poolPut_keepsStrands _ _ _ _)
  unfold deliverLocal
  exact ((hk _ _ _ _ _ _ _ _).setStrand k _).trans (traceRecord_keepsStrands _ _ _ _ _)

variable {s : State} {k : Nat} {x : Trap} {e : QEntry} {rest : List QEntry}

theorem raiseQueued_keepsStrands (hk : k < s.strands.length) (hq : (s.strand k).queue = e :: rest)
    (hl : handlesLocally s k x.cause = true) (m7 : Bool) :
    KeepsStrands
      (s.setStrand k ({ s.strand k with pendFault := none }.inHandlerFor x e.addr (s.hive (s.strand k).hive).trapvec true
        (holdAll ({ e with underM7 := m7 } :: rest))))
      (raiseQueued s k x m7) := by
  have hd : raiseQueued s k x m7 = deliver (stopAwaiting (s.modStrand k (fun t => { t with
      pendTrap := none, pendFault := none })) k) k x e.addr true (holdAll ({ e with underM7 := m7 } :: rest)) := by
    simp only [raiseQueued, hq]
  have hs : (stopAwaiting (s.modStrand k (fun t => { t with pendTrap := none, pendFault := none })) k).strand k =
      { s.strand k with pendTrap := none, pendFault := none } := 
    State.strand_mod_self s k (fun t => { t with pendTrap := none, pendFault := none }) hk
  rw [hd, deliver, if_pos (by
    unfold handlesLocally Strand.inHandler at *
    rw [hs]
    exact hl)]
  refine KeepsStrands.trans ?_ (deliverLocal_keepsStrands _ _ _ _ _ _)
  rw [hs]
  exact ⟨List.set_set .., rfl, rfl⟩

theorem raiseQueued_cur (hk : k < s.strands.length) (hq : (s.strand k).queue = e :: rest)
    (hl : handlesLocally s k x.cause = true) (m7 : Bool) : (raiseQueued s k x m7).cur = s.cur :=
  (raiseQueued_keepsStrands hk hq hl m7).cur

/-- The strand is in its handler. -/
theorem raiseQueued_strand (hk : k < s.strands.length) (hq : (s.strand k).queue = e :: rest)
    (hl : handlesLocally s k x.cause = true) (m7 : Bool) : (raiseQueued s k x m7).strand k =
      { s.strand k with pendFault := none }.inHandlerFor x e.addr (s.hive (s.strand k).hive).trapvec true
        (holdAll ({ e with underM7 := m7 } :: rest)) :=
  ((raiseQueued_keepsStrands hk hq hl m7).strand k).trans ((State.strand_set _ _ _ _).trans (if_pos ⟨rfl, hk⟩))

end Sys2Proof.Machine

/-! SUPPORT. Entering the queue. -/

namespace Sys2Proof.Machine

section
variable {i : Instr} (hi : registerOnly i = true)
include hi

theorem exec_registerOnly (s : State) : exec i s = enqueue i s := by
  cases i <;> simp only [registerOnly, reduceCtorEq] at hi <;> rfl

theorem tileNamed_registerOnly : tileNamed i = none := by
  cases i <;> simp only [registerOnly, reduceCtorEq] at hi <;> rfl

theorem isTileOp_registerOnly : isTileOp i = false := by
  cases i <;> simp only [registerOnly, reduceCtorEq] at hi <;> rfl

theorem slotNeeded_registerOnly : slotNeeded i = none := by
  cases i <;> simp only [registerOnly, reduceCtorEq] at hi <;> rfl

theorem captureMvl_registerOnly (s : State) (t : Strand) (e : QEntry) : captureMvl s t i e = t.mvl := by
  cases i <;> simp only [registerOnly, reduceCtorEq] at hi <;> rfl

theorem statusIn_registerOnly (st : Status) : statusIn i st = st := by
  cases i <;> simp only [registerOnly, reduceCtorEq] at hi <;> rfl

/-- It has a length, in a general register that it captures. -/
theorem gl_registerOnly {x : Shape} (hx : shapeOf i = some x) : ∃ gl, x.gl = some gl ∧ gl ∈ x.args := by
  cases i <;> simp only [registerOnly, reduceCtorEq] at hi <;>
    grind [shapeOf, vecShape, maskShape, gprShape]

end

/-! ## What an entry captures -/

theorem Strand.pending_of_empty {t : Strand} (hq : t.queue = []) (r : BitVec 5) : t.pending r = false := by
  simp [Strand.pending, hq]

/-- A list of captured registers, looked up. -/
theorem find?_capture {t : Strand} {r : BitVec 5} : ∀ {l : List (BitVec 5)}, r ∈ l →
    (l.map (fun r => (⟨r, some (t.greg r)⟩ : Capture))).find? (fun c => c.reg == r) = some ⟨r, some (t.greg r)⟩
  | q :: l, hr => by
    by_cases h : q = r
    · simp [h]
    · have hr : r ∈ l := (List.mem_cons.mp hr).resolve_left (Ne.symm h)
      simp [h, find?_capture hr]

section
variable (s : State) {t : Strand} (i : Instr) (x : Shape) (hp : ∀ r, t.pending r = false)
include hp

theorem newEntry_caps_of_ready : (newEntry s t i x).caps = x.args.map (fun r => ⟨r, some (t.greg r)⟩) := by
  simp [newEntry, hp]

theorem newEntry_knows (r : BitVec 5) : (newEntry s t i x).knows r = true := by
  simp [QEntry.knows, newEntry_caps_of_ready s i x hp]

theorem newEntry_known : (newEntry s t i x).known = true := by
  simp [QEntry.known, newEntry_caps_of_ready s i x hp]

/-- The entry holds what the registers hold, of those that the instruction captures. -/
theorem newEntry_arg {r : BitVec 5} (hr : r ∈ x.args) : (newEntry s t i x).arg r = t.greg r := by
  unfold QEntry.arg
  rw [newEntry_caps_of_ready s i x hp, find?_capture hr]
  split
  · next h => simp [h, Strand.greg]
  · rfl

end

/-- With an empty queue every check can be made. -/
theorem firstTrap_of_empty (s : State) {t : Strand} (i : Instr) {x : Shape} (hx : shapeOf i = some x) (hq : t.queue = []) :
    firstTrap t [] i (newEntry s t i x) =
      ((queueChecks t [] x i (newEntry s t i x)).find? (fun c => !c.ok)).map (fun c => c.trap) := by
  have hk (c : Check) : (c.needs.all (newEntry s t i x).knows && (!c.needsMvl || mvlSettled [])) = true := by
    simp [newEntry_knows s i x (Strand.pending_of_empty hq), mvlSettled]
  simp only [firstTrap, hx, hk, Bool.true_and]

/-! ## The checks of an instruction that reads and writes registers alone -/

/-- An odd length of VZIP or VUNZIP. -/
def oddLength (i : Instr) (n : Nat) : Bool :=
  match i with
  | .vzip _ | .vunzip _ => n % 2 == 1
  | _ => false

/-- A length of VHAD that is no multiple of its block. -/
def splitBlock (i : Instr) (n : Nat) : Bool :=
  match i with
  | .vhad o => n % (2 * 2 ^ (o.q.toNat % 16)) != 0
  | _ => false

theorem oddLength_iff (i : Instr) (n : Nat) :
    oddLength i n = true ↔ ∃ o : VFmt, (i = .vzip o ∨ i = .vunzip o) ∧ n % 2 = 1 := by
  cases i <;> simp [oddLength]

theorem splitBlock_iff (i : Instr) (n : Nat) :
    splitBlock i n = true ↔ ∃ o : VFmt, i = .vhad o ∧ n % (2 * 2 ^ (o.q.toNat % 16)) ≠ 0 := by
  cases i <;> simp [splitBlock]

/-- The first check that fails gives its trap. -/
theorem find?_check (c : Check) (l : List Check) :
    ((c :: l).find? (fun c => !c.ok)).map (fun c => c.trap) =
      if c.ok then (l.find? (fun c => !c.ok)).map (fun c => c.trap) else some c.trap := by
  cases h : c.ok <;> simp [h]

theorem getLsbD_zero_eq (x : Word) : x.getLsbD 0 = (x.toNat % 2 == 1) := by
  rw [BitVec.getLsbD, Nat.testBit_zero, beq_eq_decide]

/-- The checks after the combination of an instruction on registers alone: its length and what its kind asks of it. -/
theorem valueChecks_registerOnly {i : Instr} {x : Shape} {gl : BitVec 5} (e : QEntry) (hi : registerOnly i = true)
    (hx : shapeOf i = some x) (hg : x.gl = some gl) (rest : List Check) :
    ((valueChecks x i e ++ rest).find? (fun c => !c.ok)).map (fun c => c.trap) =
      if e.grant * 2048 / x.wide < (e.arg gl).toNat then some (Trap.at .illegalCombo (e.arg gl))
      else if oddLength i (e.arg gl).toNat then some (Trap.at .illegalCombo (e.arg gl))
      else if splitBlock i (e.arg gl).toNat then some (Trap.at .illegalCombo (encode i))
      else (rest.find? (fun c => !c.ok)).map (fun c => c.trap) := by
  by_cases ho : ∃ o : VFmt, i = .vhad o ∨ i = .vzip o ∨ i = .vunzip o
  · obtain ⟨o, rfl | rfl | rfl⟩ := ho <;> cases hx <;> cases hg <;>
      simp only [valueChecks, vecShape, List.cons_append, List.nil_append, find?_check, oddLength, splitBlock,
        getLsbD_zero_eq] <;> grind
  · have hv : valueChecks x i e =
        [⟨[gl], false, decide ((e.arg gl).toNat ≤ e.grant * 2048 / x.wide), Trap.at .illegalCombo (e.arg gl)⟩] := by
      cases i <;> simp only [registerOnly, reduceCtorEq] at hi <;> simp_all [valueChecks]
    have hk : oddLength i (e.arg gl).toNat = false ∧ splitBlock i (e.arg gl).toNat = false := by
      simp only [← Bool.not_eq_true, oddLength_iff, splitBlock_iff]
      grind
    rw [hv, hk.1, hk.2]
    simp only [List.cons_append, List.nil_append, find?_check]
    grind

/-- A register that an instruction names lies beyond the budget. -/
def beyondBudget (t : Strand) (x : Shape) : Bool := (x.vd.toList ++ x.vs).any (fun r => !decide (r.toNat < t.budget))

/-- The checks of an instruction on registers alone that meets an empty queue, in their order. -/
theorem firstTrap_registerOnly {s : State} {t : Strand} {i : Instr} {x : Shape} {gl : BitVec 5} (hi : registerOnly i = true)
    (hx : shapeOf i = some x) (hg : x.gl = some gl) (hq : t.queue = []) :
    firstTrap t [] i (newEntry s t i x) =
      if combosOk i then
        if t.grant * 2048 / x.wide < (t.greg gl).toNat then some (Trap.at .illegalCombo (t.greg gl))
        else if oddLength i (t.greg gl).toNat then some (Trap.at .illegalCombo (t.greg gl))
        else if splitBlock i (t.greg gl).toNat then some (Trap.at .illegalCombo (encode i))
        else if beyondBudget t x then some (Trap.at .illegalCombo (encode i)) else none
      else some (Trap.at .illegalCombo (encode i)) := by
  obtain ⟨gl', hg', hm⟩ := gl_registerOnly hi hx
  obtain rfl : gl' = gl := Option.some.inj (hg'.symm.trans hg)
  have hb : (x.vd.toList ++ x.vs).all (fun r => decide (r.toNat < t.budget)) = !beyondBudget t x :=
    List.all_eq_not_any_not
  have ha := newEntry_arg s i x (Strand.pending_of_empty hq) hm
  have hgr : (newEntry s t i x).grant = t.grant := rfl
  rw [firstTrap_of_empty s i hx hq, queueChecks]
  simp only [isTileOp_registerOnly hi, tileNamed_registerOnly hi, slotNeeded_registerOnly hi, List.cons_append, List.nil_append,
    find?_check, valueChecks_registerOnly _ hi hx hg, ha, hgr, hb, Check.fields]
  cases combosOk i <;> cases beyondBudget t x <;> simp

/-! ## What enqueue comes to -/

/-- One entry of the queue as settleMvl passes it: the entries so far, and the last M that is settled (R44, R178). -/
def settleEntry (acc : List QEntry × Option Nat) (e : QEntry) : List QEntry × Option Nat :=
  match e.item with
  | .instr (.tmode _) => (acc.1 ++ [e], if e.setsMvl then some e.mvl else acc.2)
  | _ => (acc.1 ++ [acc.2.elim e (fun m => { e with mvl := m })], acc.2)

theorem settleMvl_eq (t : Strand) : settleMvl t =
    { t with queue := (t.queue.foldl settleEntry ([], none)).1
             mvl := (t.queue.foldl settleEntry ([], none)).2.getD t.mvl } := rfl

theorem settleEntry_of_not_tmode {e : QEntry} (he : ∀ o, e.item ≠ .instr (.tmode o)) (out : List QEntry) :
    settleEntry (out, none) e = (out ++ [e], none) := by
  unfold settleEntry
  split
  · next o ho => exact absurd ho (he o)
  · rfl

theorem foldl_settleEntry : ∀ (l out : List QEntry), (∀ d ∈ l, ∀ o, d.item ≠ .instr (.tmode o)) →
    l.foldl settleEntry (out, none) = (out ++ l, none)
  | [], out, _ => by simp
  | e :: l, out, hl => by
    rw [List.foldl_cons, settleEntry_of_not_tmode (hl e List.mem_cons_self),
      foldl_settleEntry l (out ++ [e]) (fun d hd => hl d (List.mem_cons_of_mem _ hd))]
    simp

/-- Without a TMODE in the queue nothing about MVL has to settle. -/
theorem settleMvl_of_no_tmode {t : Strand} (h : ∀ d ∈ t.queue, ∀ o, d.item ≠ .instr (.tmode o)) : settleMvl t = t := by
  rw [settleMvl_eq, foldl_settleEntry t.queue [] h]
  rfl

section
variable {s : State} {i : Instr} {x : Shape}

/-- An instruction enters the queue; what then drains is the model's choice. -/
theorem enqueue_enters (hr : s.runs = true) (hx : shapeOf i = some x) (hl : s.me.queue.length < 32)
    (hf : firstTrap s.me s.me.queue i (newEntry s s.me i x) = none) :
    enqueue i s = .next (settleQueue (append s i (newEntry s s.me i x)) s.cur) := by
  have hn : ¬ queueDepth ≤ s.me.queue.length := Nat.not_le.mpr hl
  simp only [enqueue, hx, scalarWait, hr, hf, hn, if_true, if_false]

theorem enqueue_full (hr : s.runs = true) (hx : shapeOf i = some x) (hl : 32 ≤ s.me.queue.length) :
    enqueue i s = .next { s with stalled := true } := by
  have hne : s.me.queue.isEmpty = false := by
    cases h : s.me.queue with
    | nil => simp [h] at hl
    | cons => rfl
  have hl' : queueDepth ≤ s.me.queue.length := hl
  cases hf : firstTrap s.me s.me.queue i (newEntry s s.me i x) <;>
    simp only [enqueue, hx, scalarWait, hr, hf, hne, hl', if_true, Bool.false_eq_true, if_false]

theorem enqueue_behind (hr : s.runs = true) (hx : shapeOf i = some x) (hne : s.me.queue ≠ []) {tr : Trap}
    (hf : firstTrap s.me s.me.queue i (newEntry s s.me i x) = some tr) : enqueue i s = .next { s with stalled := true } := by
  have hne : s.me.queue.isEmpty = false := by simpa using hne
  simp only [enqueue, hx, scalarWait, hr, hf, hne, if_true, Bool.false_eq_true, if_false]

theorem enqueue_traps (hr : s.runs = true) (hx : shapeOf i = some x) (hq : s.me.queue = []) {tr : Trap}
    (hf : firstTrap s.me s.me.queue i (newEntry s s.me i x) = some tr) :
    enqueue i s = .next (trapAtEnqueue s (newEntry s s.me i x) tr) := by
  have hne : s.me.queue.isEmpty = true := by simp [hq]
  simp only [enqueue, hx, scalarWait, hr, hf, hne, if_true]

/-- Neither TMODE nor FDRAIN at the end of a queue without TMODE. -/
theorem append_plain (hs : statusIn i s.me.status = s.me.status) (hi : ∀ o, i ≠ .tmode o) {e : QEntry} (he : e.item = .instr i)
    (hm : ∀ d ∈ s.me.queue, ∀ o, d.item ≠ .instr (.tmode o)) :
    append s i e =
      { s with nextCmd := s.nextCmd + 1 }.modMe (fun t => { t with pc := t.pc + 8, queue := t.queue ++ [e] }) := by
  have hh : ∀ d ∈ s.me.queue ++ [e], ∀ o, d.item ≠ .instr (.tmode o) := by
    intro d hd o
    rcases List.mem_append.mp hd with hd | hd
    · exact hm d hd o
    · rw [List.mem_singleton.mp hd, he]
      exact fun h => hi o (QItem.instr.inj h)
  have hq := settleMvl_of_no_tmode (t := { s.me with queue := s.me.queue ++ [e], pc := s.me.pc + 8 }) hh
  exact congrArg (fun t => ({ s with nextCmd := s.nextCmd + 1 } : State).setStrand s.cur t)
    ((congrArg (fun st => settleMvl { s.me with queue := s.me.queue ++ [e], pc := s.me.pc + 8, status := st }) hs).trans hq)

theorem ne_tmode_of_registerOnly (hi : registerOnly i = true) (o : IFmt) : i ≠ .tmode o := by
  rintro rfl
  cases hi

end

/-- A captured value that is not pending is the register's. -/
theorem newEntry_caps {s : State} {t : Strand} {i : Instr} {x : Shape} {c : Capture} (hc : c ∈ (newEntry s t i x).caps)
    (hp : t.pending c.reg = false) : c.val = some (t.greg c.reg) := by
  obtain ⟨r, -, rfl⟩ := List.mem_map.mp hc
  exact if_neg (by simp [show t.pending r = false from hp])

/-- The strand of a trap at enqueue is in its handler, with the instruction held. -/
theorem trapAtEnqueue_me {s : State} {e : QEntry} {tr : Trap} (hr : s.runs = true)
    (hl : handlesLocally s s.cur tr.cause = true) : (trapAtEnqueue s e tr).me =
      { s.me with queue := [e], pc := s.me.pc + 8, pendFault := none }.inHandlerFor tr e.addr s.myHive.trapvec true
        (holdAll [{ e with underM7 := false }]) := by
  have hk := State.cur_lt_of_runs hr
  have hm := State.me_mod hr (fun t => { t with queue := [e], pc := t.pc + 8 })
  have hk' : s.cur < (s.modMe (fun t => { t with queue := [e], pc := t.pc + 8 })).strands.length := by simpa using hk
  have hm : (s.modMe (fun t => { t with queue := [e], pc := t.pc + 8 })).strand s.cur =
    { s.me with queue := [e], pc := s.me.pc + 8 } := hm
  have hl' : handlesLocally (s.modMe (fun t => { t with queue := [e], pc := t.pc + 8 })) s.cur tr.cause = true := by
    unfold handlesLocally Strand.inHandler at *
    rw [hm]
    exact hl
  have hs := raiseQueued_strand (s := s.modMe (fun t => { t with queue := [e], pc := t.pc + 8 })) (k := s.cur) (x := tr) hk'
    (congrArg Strand.queue hm) hl' false
  rw [hm] at hs
  unfold State.me trapAtEnqueue
  rw [raiseQueued_cur hk' (congrArg Strand.queue hm) hl' false]
  exact hs

theorem settleQueue_of_not_eager {s : State} (h : s.eager = false) (k : Nat) : settleQueue s k = s := by
  simp [settleQueue, h]

theorem beyondBudget_iff (t : Strand) (x : Shape) :
    beyondBudget t x = true ↔ ∃ r ∈ x.vd.toList ++ x.vs, 8 * 2 ^ t.vregs.toNat ≤ r.toNat := by
  unfold beyondBudget
  rw [List.any_eq_true]
  refine exists_congr fun r => and_congr_right fun _ => ?_
  rw [Bool.not_eq_true', decide_eq_false_iff_not, Nat.not_lt, Strand.budget]

theorem Cause.code_lt (c : Cause) : c.code % 64 = c.code := by
  cases c <;> rfl

/-- The trap registers after a trap at enqueue, with the one instruction held. -/
theorem trapCauseWord_one (c : Cause) : trapCauseWord c.code true 1 = BitVec.ofNat 64 (c.code + 256 + 512 + 1024) := by
  simp [trapCauseWord, Cause.code_lt]

/-- Settles O42: the checks of an instruction on registers alone are its combination, its length and its registers, and enqueue
goes by the first that fails and by the room in the queue. -/
theorem enteringTheQueue : Obligations.EnteringTheQueue := by
  intro s i x hr hi hx e
  have hexec := exec_registerOnly hi s
  obtain ⟨gl, hg, -⟩ := gl_registerOnly hi hx
  refine ⟨fun he hl hf hm => ?_, fun hl => ?_, fun tr hf hne => ?_, fun tr hf hq hp hv hh => ?_, fun o ho het hq hn => ?_,
    fun hc hq => ?_, fun gl' hg' hc hq => ?_⟩
  · refine ⟨?_, rfl, rfl, captureMvl_registerOnly hi _ _ _, rfl, rfl, fun c hc hp => newEntry_caps hc hp⟩
    have he : (append s i e).eager = false := he
    rw [hexec, enqueue_enters hr hx hl hf, settleQueue_of_not_eager he,
      append_plain (statusIn_registerOnly hi _) (ne_tmode_of_registerOnly hi) rfl hm]
  · rw [hexec, enqueue_full hr hx hl]
  · rw [hexec, enqueue_behind hr hx hne hf]
  · have hloc : handlesLocally s s.cur tr.cause = true := by
      have hv : (s.hive (s.strand s.cur).hive).trapmask.getLsbD tr.cause.code = true := hv
      have hh : (s.strand s.cur).trapcause.getLsbD 8 = false := hh
      simp only [handlesLocally, Strand.inHandler, hp, hv, hh, Bool.not_false, Bool.and_self]
    have hm := trapAtEnqueue_me (e := e) hr hloc
    refine ⟨_, hexec.trans (enqueue_traps hr hx hq hf), ?_⟩
    rw [hm]
    exact ⟨rfl, rfl, rfl, rfl, trapCauseWord_one _, rfl, rfl⟩
  · subst ho
    cases hx
    have hc : combosOk (.vadd o) = true := by simp [combosOk, etNumeric, etInt, etFloat, het]
    rw [firstTrap_registerOnly hi rfl rfl hq, if_pos hc]
    exact if_pos hn
  · rw [firstTrap_registerOnly hi hx hg hq, if_neg (by simp [hc])]
    rfl
  · intro n most beyond odd split
    have hb : beyondBudget s.me x = true ↔ beyond := beyondBudget_iff s.me x
    have ho := oddLength_iff i n
    have hs := splitBlock_iff i n
    rw [firstTrap_registerOnly hi hx hg' hq, if_pos hc]
    refine ⟨fun h => ?_, fun h h1 => ?_, fun h h2 => ?_, fun h h1 h2 h3 => ?_, fun h h1 h2 h3 => ?_⟩
    · rw [if_pos h]
      rfl
    · rw [if_neg (Nat.not_lt.mpr h), if_pos (ho.mpr h1)]
      rfl
    · have h1 : oddLength i n = false := by
        obtain ⟨o, rfl, -⟩ := h2
        rfl
      rw [if_neg (Nat.not_lt.mpr h), if_neg (by simp [n, h1]), if_pos (hs.mpr h2)]
      rfl
    · rw [if_neg (Nat.not_lt.mpr h), if_neg (mt ho.mp h1), if_neg (mt hs.mp h2), if_pos (hb.mpr h3)]
      rfl
    · rw [if_neg (Nat.not_lt.mpr h), if_neg (mt ho.mp h1), if_neg (mt hs.mp h2), if_neg (mt hb.mp h3)]

end Sys2Proof.Machine

/-! SUPPORT. An instruction alone in the queue, run whole at its head. -/

namespace Sys2Proof.Machine

/-! ## The head -/

/-- Entry e of instruction i stands alone in strand k's queue, and may run: its operands are known, no check fails, and it is no
tile instruction. -/
structure RunsAlone (s : State) (k : Nat) (i : Instr) (x : Shape) (e : QEntry) : Prop where
  queue : (s.strand k).queue = [e]
  placed : (s.strand k).placed = true
  fault : (s.strand k).pendFault = none
  item : e.item = .instr i
  shape : shapeOf i = some x
  tags : e.tags = none
  known : e.known = true
  checks : firstTrap (s.strand k) [] i e = none
  notDone : e.done x = false
  tile : tileNamed i = none

/-- What the meaning of an instruction at the head of strand k's queue answers, over all that it has not completed. -/
def headRan (s : State) (k : Nat) (i : Instr) (x : Shape) (e : QEntry) : Ran :=
  runItem i s k (wholeWork (s.strand k) e x) (startPart (s.strand k) e x)

/-- With an empty queue nothing runs. -/
theorem drain_of_empty {s : State} {k : Nat} (hq : (s.strand k).queue = []) (n : Nat) : drain n s k = s := by
  cases n with
  | zero => rfl
  | succ n => simp [drain, runHead, hq]

theorem startMore_of_empty {s : State} {k : Nat} (hq : (s.strand k).queue = []) (n : Nat) : startMore n s k = s := by
  cases n with
  | zero => rfl
  | succ n => simp [startMore, hq]

namespace RunsAlone

variable {s u : State} {k : Nat} {i : Instr} {x : Shape} {e : QEntry} {a : Part} (h : RunsAlone s k i x e)
include h

theorem runHead_ok (hr : headRan s k i x e = .ok u a) :
    runHead s k = .left (retireHead u k i e x a) := by
  unfold headRan at hr
  simp [runHead, h.queue, h.item, h.shape, h.tags, h.known, h.checks, h.notDone, h.tile, hr]

theorem runHead_wait (hr : headRan s k i x e = .wait) :
    runHead s k = .stay := by
  unfold headRan at hr
  simp [runHead, h.queue, h.item, h.shape, h.tags, h.known, h.checks, h.notDone, h.tile, hr]

theorem runHead_trap {tr : Trap} {m : Bool}
    (hr : headRan s k i x e = .trap tr m u a) :
    runHead s k = .left (trapAtHead (u.modStrand k (fun t => commitRegs t x a)) k tr m) := by
  unfold headRan at hr
  simp [runHead, h.queue, h.item, h.shape, h.tags, h.known, h.checks, h.notDone, h.tile, hr]

theorem drain_left (hl : runHead s k = .left u) (n : Nat) : drain (n + 1) s k = drain n u k := by
  simp [drain, faultDue, h.fault, h.placed, hl]

theorem drain_stay (hl : runHead s k = .stay) (n : Nat) : drain (n + 1) s k = s := by
  simp [drain, faultDue, h.fault, h.placed, hl]

/-- It leaves the queue, and nothing is left in it. -/
theorem settleQueue_left (he : s.eager = true) (hl : runHead s k = .left u) (hq : (u.strand k).queue = []) :
    settleQueue s k = u := by
  rw [settleQueue, if_pos he, h.drain_left hl, drain_of_empty hq, startMore_of_empty hq]

/-- It waits, where it is no instruction of the comb. -/
theorem settleQueue_stay (he : s.eager = true) (hl : runHead s k = .stay) (hc : isComb i = false) :
    settleQueue s k = s := by
  have hb : startBehind s k 0 = none := by
    simp [startBehind, h.queue, h.item, h.shape, combFree, hc]
  have hm (n : Nat) : startMore n s k = s := by
    cases n with
    | zero => rfl
    | succ n => simp [startMore, h.queue, h.tags, hb]
  rw [settleQueue, if_pos he, h.drain_stay hl, hm]

end RunsAlone


/-! ## Retiring -/

/-- The strand after the instruction that stood alone in its queue has gone. -/
def retired (t : Strand) (x : Shape) (a : Part) : Strand :=
  { commitRegs t x a with queue := [], pendFault := countDown t.pendFault }

/-- What an instruction writes of its strand. -/
theorem commitRegs_eq (t : Strand) (x : Shape) (a : Part) :
    commitRegs t x a = { t with
      v := (commitRegs t x a).v, m := (commitRegs t x a).m, g := (commitRegs t x a).g
      fpctl := t.fpctl ||| (BitVec.ofNat 64 a.flags &&& 0xFF8), rsr := if x.steps then a.rsr else t.rsr } := by
  unfold commitRegs
  cases x.vd <;> cases x.md <;> cases x.gd <;> cases a.gd
  case none.none.some.some | none.some.some.some | some.none.some.some | some.some.some.some =>
    dsimp only
    rw [Strand.setGreg_eq]
    rfl
  all_goals rfl

theorem commitRegs_queue (t : Strand) (x : Shape) (a : Part) : (commitRegs t x a).queue = t.queue := by
  rw [commitRegs_eq]

theorem commitRegs_pendFault (t : Strand) (x : Shape) (a : Part) : (commitRegs t x a).pendFault = t.pendFault := by
  rw [commitRegs_eq]

theorem dropHead_alone {t : Strand} {e : QEntry} (hq : t.queue = [e]) (x : Shape) (a : Part) :
    dropHead t x a = { t with queue := [], pendFault := countDown t.pendFault } := by
  have hs := settleMvl_of_no_tmode (t := { t with queue := [], pendFault := countDown t.pendFault })
    (fun d hd => absurd hd List.not_mem_nil)
  unfold dropHead
  rw [hq]
  cases x.gd <;> cases a.gd <;> exact hs

theorem countWork_strands (s : State) (hive : Nat) (i : Instr) (x : Shape) (e : QEntry) :
    (countWork s hive i x e).strands = s.strands := by
  unfold countWork
  split
  · rfl
  · split <;> rfl

/-- An instruction that moves no stream leaves its strand so. -/
theorem dropHead_commitRegs {t : Strand} {e : QEntry} (hq : t.queue = [e]) (hp : e.post = []) (hm : streamMoves e = [])
    (x : Shape) (a : Part) :
    dropHead (advanceStreams { commitRegs t x a with rsr := stepGens (if x.steps then a.rsr else t.rsr) e.post } e a.blocks) x a =
      retired t x a := by
  have hc : ({ commitRegs t x a with rsr := stepGens (if x.steps then a.rsr else t.rsr) [] } : Strand) = commitRegs t x a :=
    congrArg (fun r => ({ commitRegs t x a with rsr := r } : Strand)) (congrArg Strand.rsr (commitRegs_eq t x a)).symm
  rw [advanceStreams, hm, hp, List.foldl_nil, hc, dropHead_alone (e := e) ((commitRegs_queue t x a).trans hq), retired,
    commitRegs_pendFault]

theorem retireHead_alone {s : State} {k : Nat} {i : Instr} {e : QEntry} {x : Shape} {a : Part}
    (hq : (s.strand k).queue = [e]) (hf : e.fence = none) (hp : e.post = []) (hm : streamMoves e = [])
    (hd : ∀ o, i ≠ .fdrain o) :
    retireHead s k i e x a = (countWork s (s.strand k).hive i x e).modStrand k (fun t => retired t x a) := by
  have hs : (countWork s (s.strand k).hive i x e).strand k = s.strand k := by
    simp [State.strand, countWork_strands]
  have hr := dropHead_commitRegs hq hp hm x a
  unfold retireHead
  simp only [passFence, hf, hm, Option.elim_none, List.foldl_nil]
  split
  · next h => cases h
  · unfold State.modStrand
    rw [hs]
    exact congrArg (State.setStrand _ k) hr

/-! ## From the scalar stream to the head -/

/-- A queued instruction that neither blocks the scalar stream, nor settles MVL, nor moves a stream, nor names a tile. -/
structure PlainQueued (i : Instr) : Prop where
  exec : ∀ s, exec i s = enqueue i s
  status : ∀ st, statusIn i st = st
  ne_tmode : ∀ o, i ≠ .tmode o
  ne_fdrain : ∀ o, i ≠ .fdrain o
  tile : tileNamed i = none
  moves : ∀ e : QEntry, e.item = .instr i → streamMoves e = []

/-- The state in which an instruction stands alone in the queue of the strand that issued it. -/
def entered (s : State) (i : Instr) (x : Shape) : State :=
  { s with nextCmd := s.nextCmd + 1 }.modMe (fun t => { t with pc := t.pc + 8, queue := [newEntry s s.me i x] })

theorem newEntry_not_done (s : State) (t : Strand) (i : Instr) (x : Shape) : (newEntry s t i x).done x = false := by
  cases hg : x.gl with
  | none => simp [QEntry.done, hg]
  | some gl =>
    have hp : (newEntry s t i x).p = 0 := rfl
    have hu : 1 ≤ uopCount x (newEntry s t i x) := by simp [uopCount, hg]
    simp [QEntry.done, hg, hp]
    omega

/-- The checks look at a strand's share, its budget and its fabric slots. -/
theorem firstTrap_congr {t u : Strand} (hs : u.share = t.share) (hb : u.vregs = t.vregs) (hf : u.fslots = t.fslots)
    (older : List QEntry) (i : Instr) (e : QEntry) : firstTrap u older i e = firstTrap t older i e := by
  have hd : u.shareD = t.shareD := congrArg (fun x => x.getD ⟨0, 0, 16⟩) hs
  have hg : u.budget = t.budget := congrArg (fun x => 8 * 2 ^ x.toNat) hb
  have hn (n : BitVec 5) : u.fslot n = t.fslot n := by rw [Strand.fslot, Strand.fslot, hf]
  have hq (x : Shape) : queueChecks u older x i e = queueChecks t older x i e := by
    simp only [queueChecks, hd, hg, hn]
  unfold firstTrap
  cases shapeOf i with
  | none => rfl
  | some x => simp only [hq]

section
variable {s : State} {i : Instr} {x : Shape}

theorem entered_strand (hr : s.runs = true) : (entered s i x).strand s.cur =
    { s.me with pc := s.me.pc + 8, queue := [newEntry s s.me i x] } :=
  State.me_mod (s := { s with nextCmd := s.nextCmd + 1 }) hr _

theorem entered_strand_other {k : Nat} (hk : k ≠ s.cur) : (entered s i x).strand k = s.strand k :=
  State.strand_mod_other { s with nextCmd := s.nextCmd + 1 } s.cur k _ hk

theorem Enters.runsAlone (h : Enters s i) (hp : PlainQueued i) (hx : shapeOf i = some x) :
    RunsAlone (entered s i x) s.cur i x (newEntry s s.me i x) := by
  obtain ⟨hr, hq, hf, y, hy, hc⟩ := h
  obtain rfl : y = x := Option.some.inj (hy.symm.trans hx)
  have hs := entered_strand (i := i) (x := y) hr
  exact
    { queue := by rw [hs]
      placed := by
        rw [hs]
        exact State.placed_of_runs hr
      fault := by rw [hs, hf]
      item := rfl
      shape := hx
      tags := rfl
      known := newEntry_known s i y (Strand.pending_of_empty hq)
      checks := by
        rw [hs]
        exact (firstTrap_congr rfl rfl rfl _ _ _).trans hc
      notDone := newEntry_not_done _ _ _ _
      tile := hp.tile }

theorem Enters.exec_eq (h : Enters s i) (hp : PlainQueued i) (hx : shapeOf i = some x) :
    exec i s = .next (settleQueue (entered s i x) s.cur) := by
  obtain ⟨hr, hq, hf, y, hy, hc⟩ := h
  obtain rfl : y = x := Option.some.inj (hy.symm.trans hx)
  have hl : s.me.queue.length < 32 := by simp [hq]
  have ha := append_plain (s := s) (hp.status s.me.status) hp.ne_tmode (e := newEntry s s.me i y) rfl (by simp [hq])
  have he : ({ s with nextCmd := s.nextCmd + 1 }.modMe (fun t => { t with
      pc := t.pc + 8, queue := t.queue ++ [newEntry s s.me i y] })) = entered s i y :=
    congrArg (fun q => ({ s with nextCmd := s.nextCmd + 1 } : State).setStrand s.cur { s.me with
      pc := s.me.pc + 8, queue := q ++ [newEntry s s.me i y] }) hq
  rw [hp.exec, enqueue_enters hr hx hl (by rw [hq]; exact hc), ha, he]

/-- The state after the instruction that stands alone in strand k's queue has run. -/
def ranAlone (u : State) (k : Nat) (i : Instr) (x : Shape) (e : QEntry) (a : Part) : State :=
  (countWork u (u.strand k).hive i x e).modStrand k (fun t => retired t x a)

/-- An instruction that its head completes leaves an empty queue. -/
theorem RunsAlone.settleQueue_ok {u v : State} {k : Nat} {e : QEntry} {a : Part} (h : RunsAlone u k i x e) (hp : PlainQueued i)
    (he : u.eager = true) (hf : e.fence = none) (hpost : e.post = []) (hk : k < v.strands.length)
    (hr : headRan u k i x e = .ok v a) (hq : (v.strand k).queue = [e]) : settleQueue u k = ranAlone v k i x e a := by
  have hret := retireHead_alone hq hf hpost (hp.moves e h.item) hp.ne_fdrain (x := x) (a := a)
  have hs : ((ranAlone v k i x e a).strand k).queue = [] := by
    rw [ranAlone, State.strand_mod_self _ _ _ (by rwa [countWork_strands])]
    rfl
  refine (h.settleQueue_left he (h.runHead_ok hr) ?_).trans hret
  rw [hret]
  exact hs

end

theorem registerOnly_plainQueued {i : Instr} (hi : registerOnly i = true) : PlainQueued i where
  exec := exec_registerOnly hi
  status := statusIn_registerOnly hi
  ne_tmode := ne_tmode_of_registerOnly hi
  ne_fdrain o := by
    rintro rfl
    cases hi
  tile := tileNamed_registerOnly hi
  moves e he := by
    unfold streamMoves streamUse
    cases i <;> simp only [registerOnly, reduceCtorEq] at hi <;> simp only [he, Option.toList_none]

/-! ## Vector and mask instructions on registers -/

theorem runItem_registerOnly {i : Instr} (hi : registerOnly i = true) (s : State) (k : Nat) (x : Work) (a : Part) :
    ∃ b, runItem i s k x a = .ok s b := by
  cases i <;> simp only [registerOnly, reduceCtorEq] at hi <;> exact ⟨_, rfl⟩

/-- An update of one hive that keeps its number: any hive is as it was or as updated. -/
theorem State.hive_modHive_any (s : State) (n h : Nat) {f : Hive → Hive} (hf : ∀ x, (f x).id = x.id) :
    (s.modHive n f).hive h = s.hive h ∨ (s.modHive n f).hive h = f (s.hive h) := by
  have hid : (fun x : Hive => x.id == h) ∘ (fun x => if x.id == n then f x else x) = fun x => x.id == h := by
    funext x
    by_cases hx : x.id = n <;> simp [hx, hf]
  have hm : (s.modHive n f).findHive h = (s.findHive h).map (fun x => if x.id == n then f x else x) := by
    simp only [State.findHive, State.modHive, List.find?_map, hid]
  unfold State.hive
  rw [hm]
  cases s.findHive h with
  | none => exact .inl rfl
  | some y =>
    by_cases hy : (y.id == n) = true
    · exact .inr (if_pos hy)
    · exact .inl (if_neg hy)

theorem countWork_eq (s : State) (hive : Nat) (i : Instr) (x : Shape) (e : QEntry) :
    countWork s hive i x e = { s with hives := (countWork s hive i x e).hives } := by
  unfold countWork
  split
  · rfl
  · split <;> rfl

/-- No tile instruction counts for more than EGs. -/
theorem countWork_hive {i : Instr} (ht : tileNamed i = none) (s : State) (hive : Nat) (x : Shape) (e : QEntry) (h : Nat) :
    (countWork s hive i x e).hive h = { s.hive h with egops := ((countWork s hive i x e).hive h).egops } := by
  have hm (n : Nat) (w : Word) : (s.modHive n (fun y => { y with egops := y.egops + w })).hive h =
      { s.hive h with egops := ((s.modHive n (fun y => { y with egops := y.egops + w })).hive h).egops } := by
    rcases State.hive_modHive_any s n h (f := fun y => { y with egops := y.egops + w }) (fun _ => rfl) with hh | hh <;> rw [hh]
  unfold countWork
  rw [ht]
  simp only [Option.isSome_none, Bool.false_eq_true, if_false]
  split
  · exact hm _ _
  · rfl

theorem ranAlone_eq (v : State) (k : Nat) (i : Instr) (x : Shape) (e : QEntry) (a : Part) : ranAlone v k i x e a =
    { v.setStrand k (retired (v.strand k) x a) with hives := (countWork v (v.strand k).hive i x e).hives } := by
  rw [ranAlone, countWork_eq]
  rfl

/-! ### What a completed instruction writes -/

theorem Strand.setGreg_g_congr (t : Strand) {u : Strand} (h : u.g = t.g) (r : BitVec 5) (w : Word) :
    (u.setGreg r w).g = (t.setGreg r w).g := by
  unfold Strand.setGreg
  split <;> simp only [h]

section
variable (t : Strand) (x : Shape) (a : Part)

theorem commitRegs_v : (commitRegs t x a).v = (x.vd.elim t (fun r => t.setVreg r a.v)).v := by
  unfold commitRegs
  cases x.md <;> cases x.gd <;> cases a.gd <;> simp

theorem commitRegs_m : (commitRegs t x a).m = (x.md.elim t (fun r => t.setMreg r a.m)).m := by
  unfold commitRegs
  cases x.vd <;> cases x.md <;> cases x.gd <;> cases a.gd <;> simp [Strand.setMreg]

theorem commitRegs_g : (commitRegs t x a).g = (x.gd.elim t (fun r => a.gd.elim t (t.setGreg r))).g := by
  unfold commitRegs
  cases x.vd <;> cases x.md <;> cases x.gd <;> cases a.gd <;> simp
  all_goals
    refine Strand.setGreg_g_congr t ?_ _ _
    rfl

end

theorem commitRegs_vreg {t : Strand} {x : Shape} {r : BitVec 6} (hr : x.vd ≠ some r) (a : Part) :
    (commitRegs t x a).vreg r = t.vreg r := by
  rw [Strand.vreg, commitRegs_v, ← Strand.vreg]
  cases hv : x.vd with
  | none => rfl
  | some q =>
    rw [Option.elim_some, Strand.vreg_setVreg, if_neg]
    rintro rfl
    exact hr hv

theorem commitRegs_mreg {t : Strand} {x : Shape} {r : BitVec 3} (hr : x.md ≠ some r) (a : Part) :
    (commitRegs t x a).mreg r = t.mreg r := by
  rw [Strand.mreg, commitRegs_m, ← Strand.mreg]
  cases hv : x.md with
  | none => rfl
  | some q =>
    rw [Option.elim_some, Strand.mreg_setMreg, if_neg]
    rintro rfl
    exact hr hv

theorem commitRegs_greg {t : Strand} {x : Shape} {r : BitVec 5} (hr : x.gd ≠ some r) (a : Part) :
    (commitRegs t x a).greg r = t.greg r := by
  have hg : (commitRegs t x a).greg r = (x.gd.elim t (fun r => a.gd.elim t (t.setGreg r))).greg r := by
    rw [Strand.greg, commitRegs_g, ← Strand.greg]
  rw [hg]
  cases hv : x.gd with
  | none => rfl
  | some q =>
    rw [Option.elim_some]
    cases a.gd with
    | none => rfl
    | some w =>
      rw [Option.elim_some, Strand.greg_setGreg, if_neg]
      rintro ⟨rfl, -⟩
      exact hr hv

/-- A strand whose queue was empty before the instruction entered it. -/
theorem retired_of_empty {t : Strand} (hq : t.queue = []) (hf : t.pendFault = none) (p : Word) (q : List QEntry) (x : Shape)
    (a : Part) : retired { t with pc := p, queue := q } x a = { t with
      g := (retired { t with pc := p, queue := q } x a).g, v := (retired { t with pc := p, queue := q } x a).v
      m := (retired { t with pc := p, queue := q } x a).m, fpctl := (retired { t with pc := p, queue := q } x a).fpctl
      rsr := (retired { t with pc := p, queue := q } x a).rsr, pc := p } := by
  cases t
  cases hq
  cases hf
  rw [retired, commitRegs_eq]
  rfl

theorem retired_fpctl (t : Strand) (x : Shape) (a : Part) :
    (retired t x a).fpctl = t.fpctl ||| (BitVec.ofNat 64 a.flags &&& 0xFF8) := by
  rw [retired, commitRegs_eq]

theorem retired_rsr (t : Strand) (x : Shape) (a : Part) :
    (retired t x a).rsr = if x.steps then a.rsr else t.rsr := by
  rw [retired, commitRegs_eq]

/-- Settles O37: an instruction on registers alone that meets an empty queue is retired by its head in the same step. -/
theorem vectorRegisterInstructionsComplete : Obligations.VectorRegisterInstructionsComplete := by
  intro s i x hi hx he hE
  have hp := registerOnly_plainQueued hi
  have hr : s.runs = true := hE.1
  have h := hE.runsAlone hp hx
  have hes := entered_strand (i := i) (x := x) hr
  obtain ⟨a, ha⟩ := runItem_registerOnly hi (entered s i x) s.cur
    (wholeWork ((entered s i x).strand s.cur) (newEntry s s.me i x) x)
    (startPart ((entered s i x).strand s.cur) (newEntry s s.me i x) x)
  have hk : s.cur < (entered s i x).strands.length := by
    simpa [entered] using State.cur_lt_of_runs hr
  have hset := h.settleQueue_ok hp he rfl rfl hk ha h.queue
  rw [ranAlone_eq, hes] at hset
  refine ⟨_, (hE.exec_eq hp hx).trans (congrArg Host.Outcome.next hset), ?_⟩
  generalize hH : (countWork (entered s i x) s.me.hive i x (newEntry s s.me i x)).hives = H
  generalize hT : ({ (entered s i x).setStrand s.cur (retired { s.me with
    pc := s.me.pc + 8, queue := [newEntry s s.me i x] } x a) with hives := H } : State) = T
  have hm : T.me = retired { s.me with pc := s.me.pc + 8, queue := [newEntry s s.me i x] } x a := by
    subst hT
    exact (State.strand_set (entered s i x) s.cur s.cur _).trans (if_pos ⟨rfl, hk⟩)
  have hother (k : Nat) (hk : k ≠ s.cur) : T.strand k = s.strand k := by
    subst hT
    exact ((State.strand_set (entered s i x) s.cur k _).trans (if_neg (fun hn => hk hn.1.symm))).trans (entered_strand_other hk)
  refine ⟨⟨?_, ?_, hother, fun n => ?_, ?_⟩, ?_, ?_, ?_, fun b => ?_, fun hs => ?_⟩
  · subst hT
    rfl
  · subst hT
    exact (List.length_set ..).trans (List.length_set ..)
  · subst hT hH
    exact countWork_hive hp.tile (entered s i x) _ _ _ n
  · rw [hm]
    exact retired_of_empty hE.2.1 hE.2.2.1 _ _ _ _
  · exact fun r hr => (congrArg (fun t => t.vreg r) hm).trans (commitRegs_vreg hr a)
  · exact fun r hr => (congrArg (fun t => t.mreg r) hm).trans (commitRegs_mreg hr a)
  · exact fun r hr => (congrArg (fun t => t.greg r) hm).trans (commitRegs_greg hr a)
  · rw [hm, retired_fpctl, BitVec.getLsbD_or]
    cases s.me.fpctl.getLsbD b <;> simp
  · rw [hm, retired_rsr, if_neg (by simp [hs])]

end Sys2Proof.Machine

/-! SUPPORT. VPUSH and VWAITF at the head of the queue (spec/10 R245, spec/17 R437). -/

namespace Sys2Proof.Machine

theorem vpush_plainQueued (o : XFmt) : PlainQueued (.vpush o) where
  exec _ := rfl
  status _ := rfl
  ne_tmode _ := by simp
  ne_fdrain _ := by simp
  tile := rfl
  moves e he := by simp [streamMoves, streamUse, he]

theorem vwaitf_plainQueued (o : XFmt) : PlainQueued (.vwaitf o) where
  exec _ := rfl
  status _ := rfl
  ne_tmode _ := by simp
  ne_fdrain _ := by simp
  tile := rfl
  moves e he := by simp [streamMoves, streamUse, he]

/-! ## What a release and an acquire leave in memory -/

section
variable {s t : State} (hc : t.cores = s.cores) (hm : t.mem = s.mem) (w : Who) (n : Nat)
include hc hm

theorem flushL1_mem_congr (hive c : Nat) : (flushL1 t hive c).mem = (flushL1 s hive c).mem := by
  have hf (l : List L1Line) (u : State) : (l.foldl (fun s x => writeBack s hive x) u).mem = l.foldl putDirty u.mem := by
    induction l generalizing u with
    | nil => rfl
    | cons x l ih => rw [List.foldl_cons, List.foldl_cons, ih, writeBack_mem]
  have hl (u : State) : (flushL1 u hive c).mem = (u.core c).l1.foldl putDirty u.mem := hf _ _
  rw [hl, hl, hm, State.core, State.core, hc]

theorem releaseL1_mem_congr : (releaseL1 t w n).mem = (releaseL1 s w n).mem := by
  unfold releaseL1
  split
  · split
    · exact hm
    · exact flushL1_mem_congr hc hm _ _
  · exact hm

theorem acquireL1_mem_congr : (acquireL1 t w n).mem = (acquireL1 s w n).mem := by
  unfold acquireL1
  split
  · split
    · exact hm
    · exact flushL1_mem_congr hc hm _ _
  · exact hm

end

/-! ## Which strand a STRANDID names -/

theorem strandOf_congr {s t : State} (hl : t.strands.length = s.strands.length)
    (h : ∀ k, (t.strand k).status = (s.strand k).status ∧ (t.strand k).hive = (s.strand k).hive ∧
      (t.strand k).strandId = (s.strand k).strandId) (hive : Nat) (id : Word) : strandOf t hive id = strandOf s hive id := by
  unfold strandOf
  rw [hl]
  refine List.find?_congr fun k _ => ?_
  obtain ⟨hs, hh, hi⟩ := h k
  simp only [hs, hh, hi]

theorem strandOf_entered {s : State} (hr : s.runs = true) (i : Instr) (x : Shape) (hive : Nat) (id : Word) :
    strandOf (entered s i x) hive id = strandOf s hive id := by
  refine strandOf_congr (List.length_set ..) (fun k => ?_) hive id
  by_cases hk : k = s.cur
  · subst hk
    rw [entered_strand hr]
    exact ⟨rfl, rfl, rfl⟩
  · rw [entered_strand_other hk]
    exact ⟨rfl, rfl, rfl⟩

/-! ## VPUSH at the head -/

/-- A strand with a value pushed to it (R245). -/
def Strand.pushedTo (t : Strand) (r : BitVec 6) (egs : Nat) (v : VReg) : Strand :=
  { t with pushed := t.pushed ++ [⟨r, egs, v⟩], pushBits := t.pushBits ||| (1 : Word) <<< r.toNat }

/-- A strand that no value can be pushed to now: it is away, its bit is set, or 16 values wait. -/
def Strand.pushFull (t : Strand) (r : BitVec 6) : Prop :=
  t.placed = false ∨ t.resuming = true ∨ t.pushBits.getLsbD r.toNat = true ∨ 16 ≤ t.pushed.length

/-- A VPUSH whose value is transferred: its queue is empty, and its target has the value. -/
def pushedState (u : State) (k q : Nat) (r : BitVec 6) (e : QEntry) (v : VReg) : State :=
  ((releaseL1 u ⟨(u.strand k).hive, (u.strand k).share, true⟩ 2).modStrand q (fun t => t.pushedTo r e.grant v)).modStrand k
    (fun t => { t with queue := [], pendFault := countDown t.pendFault })

/-- A plain instruction writes no register but what it gives to gd. -/
theorem commitRegs_plain (t : Strand) (gd : Option (BitVec 5)) (vs : List (BitVec 6)) (args : List (BitVec 5)) {a : Part}
    (hg : a.gd = none) (hf : a.flags = 0) : commitRegs t (plainShape gd vs args) a = t := by
  have h0 : t.fpctl ||| (BitVec.ofNat 64 0 &&& 0xFF8) = t.fpctl := by simp
  have ho : t.orFlags 0 = t := congrArg (fun w => ({ t with fpctl := w } : Strand)) h0
  cases gd <;> simp only [commitRegs, plainShape, hg, hf, Option.elim_none, Bool.false_eq_true, if_false, ho]

theorem retired_plain (t : Strand) (gd : Option (BitVec 5)) (vs : List (BitVec 6)) (args : List (BitVec 5)) {a : Part}
    (hg : a.gd = none) (hf : a.flags = 0) :
    retired t (plainShape gd vs args) a = { t with queue := [], pendFault := countDown t.pendFault } := by
  rw [retired, commitRegs_plain t gd vs args hg hf]

theorem countWork_plain (s : State) (hive : Nat) {i : Instr} (ht : tileNamed i = none) {x : Shape} (hg : x.gl = none) (e : QEntry) :
    countWork s hive i x e = s := by
  simp [countWork, ht, hg]

section
variable {u : State} {k q : Nat} {o : XFmt} {e : QEntry}

theorem headRan_vpush (x : Shape) : headRan u k (.vpush o) x e =
    runVpush o u k (wholeWork (u.strand k) e x) (startPart (u.strand k) e x) := rfl

theorem headRan_vpush_ok (x : Shape) (hs : strandOf u (u.strand k).hive (e.arg o.ga) = some q) (hq : q ≠ k)
    (hf : ¬ (u.strand q).pushFull o.vd) (hb : o.vd.toNat < (u.strand q).budget) : headRan u k (.vpush o) x e =
      .ok ((releaseL1 u ⟨(u.strand k).hive, (u.strand k).share, true⟩ 2).modStrand q
        (fun t => t.pushedTo o.vd e.grant ((u.strand k).vreg o.va))) (startPart (u.strand k) e x) := by
  simp only [Strand.pushFull, not_or, Bool.not_eq_false, Bool.not_eq_true, not_le] at hf
  obtain ⟨hp, hr, hbit, hl⟩ := hf
  rw [headRan_vpush]
  simp [runVpush, wholeWork, hs, hq, hp, hr, hbit, Nat.not_le.mpr hl, Nat.not_le.mpr hb, -BitVec.getLsbD_eq_getElem]
  rfl

theorem headRan_vpush_wait (x : Shape) (hs : strandOf u (u.strand k).hive (e.arg o.ga) = some q) (hq : q ≠ k)
    (hf : (u.strand q).pushFull o.vd) : headRan u k (.vpush o) x e = .wait := by
  have hf : (!(u.strand q).placed || (u.strand q).resuming || (u.strand q).pushBits.getLsbD o.vd.toNat ||
      decide (16 ≤ (u.strand q).pushed.length)) = true := by
    simpa [Strand.pushFull, or_assoc] using hf
  rw [headRan_vpush]
  unfold runVpush
  simp only [wholeWork, hs, if_neg hq, hf, if_true]

theorem headRan_vpush_fault (x : Shape)
    (hs : strandOf u (u.strand k).hive (e.arg o.ga) = none ∨ strandOf u (u.strand k).hive (e.arg o.ga) = some k) :
    headRan u k (.vpush o) x e =
      .trap (Trap.at .pushFault (e.arg o.ga)) false u (startPart (u.strand k) e x) := by
  rw [headRan_vpush]
  unfold runVpush
  rcases hs with hs | hs <;> simp only [wholeWork, hs, if_true]

/-- The head transfers its value. -/
theorem RunsAlone.settleQueue_vpush {x : Shape} (h : RunsAlone u k (.vpush o) x e) (he : u.eager = true) (hfe : e.fence = none)
    (hpost : e.post = []) (hfl : e.flags = 0) (hk : k < u.strands.length)
    (hs : strandOf u (u.strand k).hive (e.arg o.ga) = some q) (hq : q ≠ k) (hf : ¬ (u.strand q).pushFull o.vd)
    (hb : o.vd.toNat < (u.strand q).budget) :
    settleQueue u k = pushedState u k q o.vd e ((u.strand k).vreg o.va) := by
  obtain rfl : plainShape none [o.va] [o.ga] = x := Option.some.inj h.shape
  have hr := headRan_vpush_ok (plainShape none [o.va] [o.ga]) hs hq hf hb
  refine (h.settleQueue_ok (vpush_plainQueued o) he hfe hpost ?_ hr ?_).trans ?_
  · simpa [releaseL1_strands] using hk
  · rw [State.strand_mod_other _ _ _ _ hq.symm, releaseL1_strand]
    exact h.queue
  · rw [ranAlone, countWork_plain _ _ rfl rfl]
    exact congrArg (State.modStrand _ k) (funext fun t => retired_plain t none [o.va] [o.ga] rfl hfl)

end

section
variable (u : State) (k q : Nat) (r : BitVec 6) (e : QEntry) (v : VReg)

theorem pushedState_strand_self (hk : k < u.strands.length) (hq : q ≠ k) : (pushedState u k q r e v).strand k =
    { u.strand k with queue := [], pendFault := countDown (u.strand k).pendFault } := by
  rw [pushedState, State.strand_mod_self _ _ _ (by simpa [releaseL1_strands] using hk),
    State.strand_mod_other _ _ _ _ hq.symm, releaseL1_strand]

theorem pushedState_strand_target (hl : q < u.strands.length) (hq : q ≠ k) :
    (pushedState u k q r e v).strand q = (u.strand q).pushedTo r e.grant v := by
  rw [pushedState, State.strand_mod_other _ _ _ _ hq, State.strand_mod_self _ _ _ (by simpa [releaseL1_strands] using hl), releaseL1_strand]

theorem pushedState_strand_other {j : Nat} (hk : j ≠ k) (hq : j ≠ q) : (pushedState u k q r e v).strand j = u.strand j := by
  rw [pushedState, State.strand_mod_other _ _ _ _ hk, State.strand_mod_other _ _ _ _ hq, releaseL1_strand]

theorem pushedState_cur : (pushedState u k q r e v).cur = u.cur := releaseL1_cur _ _ _

theorem pushedState_mem : (pushedState u k q r e v).mem =
    (releaseL1 u ⟨(u.strand k).hive, (u.strand k).share, true⟩ 2).mem := rfl

end

/-! ## VWAITF at the head -/

/-- A strand whose VWAITF has taken a value: bit vd is clear and the value is gone (R245). -/
def Strand.tookPush (t : Strand) (r : BitVec 6) (p : Pushed) : Strand :=
  { t with pushBits := t.pushBits &&& ~~~((1 : Word) <<< r.toNat), pushed := t.pushed.erase p }

/-- A VWAITF whose value is taken. -/
def filledState (u : State) (k : Nat) (r : BitVec 6) (p : Pushed) (egs : Nat) : State :=
  ((acquireL1 u ⟨(u.strand k).hive, (u.strand k).share, true⟩ 2).modStrand k (fun t => t.tookPush r p)).modStrand k
    (fun t => { t.setVreg r (overlay ((u.strand k).vreg r) p.val (2048 * min p.egs egs)) with
      queue := [], pendFault := countDown t.pendFault })

/-- VWAITF's operands. -/
def waitShape (o : XFmt) : Shape := { plainShape none [] [] with vd := some o.vd }

/-- A VWAITF writes its destination and empties its queue. -/
theorem retired_waitShape (t : Strand) (o : XFmt) {a : Part} (hf : a.flags = 0) : retired t (waitShape o) a =
    { t.setVreg o.vd a.v with queue := [], pendFault := countDown t.pendFault } := by
  have h0 : t.fpctl ||| (BitVec.ofNat 64 0 &&& 0xFF8) = t.fpctl := by simp
  have ho : (t.setVreg o.vd a.v).orFlags 0 = t.setVreg o.vd a.v :=
    congrArg (fun w => ({ t.setVreg o.vd a.v with fpctl := w } : Strand)) h0
  simp only [retired, commitRegs, waitShape, plainShape, hf, Option.elim_none, Option.elim_some, Bool.false_eq_true, if_false, ho]

section
variable {u : State} {k : Nat} {o : XFmt} {e : QEntry} {p : Pushed}

theorem headRan_vwaitf (x : Shape) : headRan u k (.vwaitf o) x e =
    runVwaitf o u k (wholeWork (u.strand k) e x) (startPart (u.strand k) e x) := rfl

theorem headRan_vwaitf_wait (x : Shape) (h : ∀ p ∈ (u.strand k).pushed, p.reg ≠ o.vd) :
    headRan u k (.vwaitf o) x e = .wait := by
  have hn : (u.strand k).pushed.find? (fun p => p.reg == o.vd) = none := by simpa using h
  rw [headRan_vwaitf]
  unfold runVwaitf
  simp only [wholeWork, hn]

theorem headRan_vwaitf_ok (h : (u.strand k).pushed.find? (fun p => p.reg == o.vd) = some p) :
    headRan u k (.vwaitf o) (waitShape o) e =
      .ok ((acquireL1 u ⟨(u.strand k).hive, (u.strand k).share, true⟩ 2).modStrand k (fun t => t.tookPush o.vd p))
        { startPart (u.strand k) e (waitShape o) with
          v := overlay ((u.strand k).vreg o.vd) p.val (2048 * min p.egs e.grant) } := by
  rw [headRan_vwaitf]
  unfold runVwaitf
  simp only [wholeWork, h]
  rfl

/-- The head takes its value. -/
theorem RunsAlone.settleQueue_vwaitf {x : Shape} (h : RunsAlone u k (.vwaitf o) x e) (he : u.eager = true) (hfe : e.fence = none)
    (hpost : e.post = []) (hfl : e.flags = 0) (hk : k < u.strands.length)
    (hs : (u.strand k).pushed.find? (fun p => p.reg == o.vd) = some p) :
    settleQueue u k = filledState u k o.vd p e.grant := by
  obtain rfl : waitShape o = x := Option.some.inj h.shape
  refine (h.settleQueue_ok (vwaitf_plainQueued o) he hfe hpost ?_ (headRan_vwaitf_ok hs) ?_).trans ?_
  · simpa using hk
  · rw [State.strand_mod_self _ _ _ (by simpa using hk), acquireL1_strand]
    exact h.queue
  · rw [ranAlone, countWork_plain _ _ rfl rfl]
    exact congrArg (State.modStrand _ k) (funext fun t => retired_waitShape t o hfl)

theorem filledState_strand_self (hk : k < u.strands.length) (r : BitVec 6) (n : Nat) : (filledState u k r p n).strand k =
    { ((u.strand k).tookPush r p).setVreg r (overlay ((u.strand k).vreg r) p.val (2048 * min p.egs n)) with
      queue := [], pendFault := countDown (u.strand k).pendFault } := by
  rw [filledState, State.strand_mod_self _ _ _ (by simpa using hk), State.strand_mod_self _ _ _ (by simpa using hk), acquireL1_strand]
  rfl

theorem filledState_strand_other {j : Nat} (hj : j ≠ k) (r : BitVec 6) (n : Nat) :
    (filledState u k r p n).strand j = u.strand j := by
  rw [filledState, State.strand_mod_other _ _ _ _ hj, State.strand_mod_other _ _ _ _ hj, acquireL1_strand]

theorem filledState_cur (r : BitVec 6) (n : Nat) : (filledState u k r p n).cur = u.cur := acquireL1_cur _ _ _

theorem filledState_mem (r : BitVec 6) (n : Nat) : (filledState u k r p n).mem =
    (acquireL1 u ⟨(u.strand k).hive, (u.strand k).share, true⟩ 2).mem := rfl

end

theorem getLsbD_overlay {w : Nat} (old new : BitVec w) (n b : Nat) :
    (overlay old new n).getLsbD b = if b < n then new.getLsbD b else old.getLsbD b := by
  have hlt : new.toNat % 2 ^ n < 2 ^ n := Nat.mod_lt _ (Nat.two_pow_pos n)
  rw [overlay, Nat.add_comm, Nat.mul_comm, BitVec.getLsbD_ofNat, Nat.testBit_two_pow_mul_add _ hlt]
  by_cases hw : b < w
  · by_cases hb : b < n
    · simp [hw, hb, BitVec.getLsbD]
    · simp [hw, hb, BitVec.getLsbD, Nat.testBit_div_two_pow, Nat.sub_add_cancel (Nat.not_lt.mp hb)]
  · simp [hw, BitVec.getLsbD_of_ge _ _ (Nat.not_lt.mp hw)]

/-! ## The events -/

section
variable {u : State} {k : Nat} {i : Instr} {x : Shape} {e : QEntry}

theorem RunsAlone.moveHead_eq (h : RunsAlone u k i x e) (he : u.eager = true) :
    moveHead u k = if (u.strand k).resuming then u else settleQueue u k := by
  cases hr : (u.strand k).resuming <;> simp [moveHead, Strand.onShare, h.placed, hr, faultDue, h.fault, he]

theorem RunsAlone.exec_vpushTransfer {o : XFmt} (h : RunsAlone u k (.vpush o) x e) :
    exec (.vpushTransfer k) u = .next (moveHead u k) := by
  show execVpushTransfer k u = _
  simp [execVpushTransfer, runHeadOf, h.queue, h.item]

theorem RunsAlone.exec_vwaitfFill {o : XFmt} (h : RunsAlone u k (.vwaitf o) x e) :
    exec (.vwaitfFill k) u = .next (moveHead u k) := by
  show execVwaitfFill k u = _
  simp [execVwaitfFill, runHeadOf, h.queue, h.item]

/-- Where the head waits, its event changes nothing. -/
theorem RunsAlone.moveHead_stay (h : RunsAlone u k i x e) (he : u.eager = true) (hr : headRan u k i x e = .wait)
    (hc : isComb i = false) : moveHead u k = u := by
  rw [h.moveHead_eq he, h.settleQueue_stay he (h.runHead_wait hr) hc, ite_self]

end

/-- An entry that stands alone in the queue may run, where its instruction writes no general register. -/
theorem AwaitsAlone.runsAlone {s : State} {i : Instr} {x : Shape} (h : AwaitsAlone s i) (hp : PlainQueued i)
    (hx : shapeOf i = some x) (hg : x.gd = none) :
    ∃ a n, RunsAlone s s.cur i x { newEntry s s.me i x with addr := a, order := n } ∧
      ∀ r ∈ x.args, (newEntry s s.me i x).arg r = s.me.greg r := by
  obtain ⟨-, hpl, -, hf, y, a, n, hy, hq, hc⟩ := h
  obtain rfl : y = x := Option.some.inj (hy.symm.trans hx)
  have hpend (r : BitVec 5) : s.me.pending r = false := by
    have hgd : ({ newEntry s s.me i y with addr := a, order := n } : QEntry).gdest = none := by
      show (shapeOf i).bind _ = none
      rw [hx]
      exact hg
    rw [Strand.pending, hq, List.any_cons, hgd]
    simp
  refine ⟨a, n, ?_, fun r hr => newEntry_arg s i y hpend hr⟩
  exact
    { queue := hq
      placed := hpl
      fault := hf
      item := rfl
      shape := hx
      tags := rfl
      known := newEntry_known s i y hpend
      checks := by
        refine Eq.trans ?_ hc
        simp only [firstTrap, hx]
        rfl
      notDone := newEntry_not_done s s.me i y
      tile := hp.tile }

/-! ## What stopping the FXs of a strand leaves alone -/

theorem dropLine_keepsStrands (s : State) (hive c line : Nat) : KeepsStrands s (dropLine s hive c line) :=
  .of_cachesOnly dropLine_cachesOnly

theorem l1Write_keepsStrands (s : State) (hive c pa n x : Nat) : KeepsStrands s (l1Write s hive c pa n x) := by
  unfold l1Write
  exact (KeepsStrands.of_cachesOnly fetchLine_cachesOnly).modCore _ _

theorem writePlace_keepsStrands (s : State) (w : Who) (p : Place) (n x : Nat) (b : Bool) :
    KeepsStrands s (writePlace s w p n x b) := by
  unfold writePlace
  split
  · exact (KeepsStrands.refl s).modCore _ _
  · exact .refl s
  · exact .refl s
  · split
    · exact (KeepsStrands.refl s).charge _ _ _ _
    · split
      · exact (dropLine_keepsStrands s _ _ _).charge _ _ _ _
      · exact l1Write_keepsStrands _ _ _ _ _ _

theorem locateV_keepsStrands {s t : State} {g : VAgent} {va : Nat} {kind : AccessKind} {p : Place}
    (h : locateV s g va kind = .ok (p, t)) : KeepsStrands s t := by
  unfold locateV at h
  dsimp only at h
  split at h
  · cases hp : placeOf s g.who kind va _ <;> rw [hp] at h <;> cases h
    exact .refl s
  · exact locate_keepsStrands h

theorem storeV_keepsStrands {g : VAgent} {b : Bool} {n va : Nat} {bs : List Byte} {s t : State}
    (h : storeV g b n va bs s = .ok t) : KeepsStrands s t := by
  induction n generalizing s va bs with
  | zero =>
    cases h
    exact .refl _
  | succ n ih =>
    unfold storeV at h
    split at h
    · cases h
    · next u h4 =>
      refine KeepsStrands.trans ?_ (ih h)
      unfold store4 at h4
      split at h4
      · cases h4
      · split at h4
        · cases h4
        · next hl =>
          cases h4
          exact (locateV_keepsStrands hl).trans (writePlace_keepsStrands _ _ _ _ _ _)

theorem foldl_keepsStrands {α : Type} {f : State → α → State} (h : ∀ s x, KeepsStrands s (f s x)) :
    ∀ (l : List α) (s : State), KeepsStrands s (l.foldl f s)
  | [], s => .refl s
  | x :: l, s => (h s x).trans (foldl_keepsStrands h l (f s x))

theorem flushBuf_keepsStrands (s : State) (core : Nat) (b : PortBuf) : KeepsStrands s (flushBuf s core b) := by
  unfold flushBuf
  have hm := (KeepsStrands.refl s).modCore core (fun c => { c with bufs := c.bufs.filter (fun y => y != b) })
  dsimp only
  split
  · exact hm.trans (foldl_keepsStrands (fun s x => (KeepsStrands.refl s).modCore _ _) _ _)
  · exact (hm.trans (dropLine_keepsStrands _ _ _ _)).charge _ _ _ _

theorem flushCtx_keepsStrands (s : State) (core : Nat) (x : CombCtx) : KeepsStrands s (flushCtx s core x) :=
  foldl_keepsStrands (fun s b => flushBuf_keepsStrands s core b) _ s

theorem freePorts_keepsStrands (s : State) (core : Nat) (x : CombCtx) : KeepsStrands s (freePorts s core x) :=
  ⟨rfl, rfl, rfl⟩

theorem putCtx_keepsStrands (s : State) (core : Nat) (x : CombCtx) : KeepsStrands s (s.putCtx core x) :=
  ⟨rfl, rfl, rfl⟩

theorem writeRecord_keepsStrands {s t : State} {x : CombCtx} {st : SlotState} {b : Bool}
    (h : writeRecord s x st b = .ok t) : KeepsStrands s t :=
  storeV_keepsStrands h

/-- Of strand k no more than its fabric slots and its flags changed, and no hive. -/
structure KeepsQueue (k : Nat) (s t : State) : Prop where
  cur : t.cur = s.cur
  hives : t.hives = s.hives
  length : t.strands.length = s.strands.length
  strand : t.strand k = { s.strand k with fslots := (t.strand k).fslots, fpctl := (t.strand k).fpctl }

namespace KeepsQueue

variable {k : Nat} {s t u : State}

theorem refl (k : Nat) (s : State) : KeepsQueue k s s := ⟨rfl, rfl, rfl, rfl⟩

theorem trans (h : KeepsQueue k s t) (g : KeepsQueue k t u) : KeepsQueue k s u :=
  ⟨g.cur.trans h.cur, g.hives.trans h.hives, g.length.trans h.length, g.strand.trans (by rw [h.strand])⟩

theorem of_keepsStrands (h : KeepsStrands s t) : KeepsQueue k s t :=
  ⟨h.cur, h.hives, congrArg List.length h.strands, by rw [h.strand]⟩

/-- An update of strand k that changes its fabric slots or its flags. -/
theorem modStrand {f : Strand → Strand} (hf : f (s.strand k) = { s.strand k with
    fslots := (f (s.strand k)).fslots, fpctl := (f (s.strand k)).fpctl }) : KeepsQueue k s (s.modStrand k f) := by
  refine ⟨rfl, rfl, List.length_set .., ?_⟩
  rw [State.strand_mod]
  split
  · exact hf
  · rfl

theorem queue (h : KeepsQueue k s t) : (t.strand k).queue = (s.strand k).queue := by rw [h.strand]

end KeepsQueue

/-! An FX that stops, where its strand's queue holds one entry, without tags. -/

section
variable {s : State} {k core : Nat} {x : CombCtx} {e : QEntry} (hq : (s.strand k).queue = [e]) (he : e.tags = none)
include hq he

theorem stopRegs_keepsQueue : KeepsQueue k s (s.modStrand k (fun t => (stopRegs t x).orFlags x.flags)) := by
  have hf : stopRegs (s.strand k) x = s.strand k := by simp [stopRegs, fxEntry, hq, he]
  refine .modStrand ?_
  rw [hf]
  rfl

theorem setTags_keepsQueue (n : BitVec 5) (g : Option Tags) : KeepsQueue k s (setTags s k (fun e => e.inComb n) g) := by
  have hm : (s.strand k).queue.map (fun e => if e.inComb n then { e with tags := g } else e) = (s.strand k).queue := by
    simp [hq, QEntry.inComb, he]
  exact .modStrand (congrArg (fun q => ({ s.strand k with queue := q } : Strand)) hm)

omit hq he in
theorem modSlot_keepsQueue (s : State) (k : Nat) (n : BitVec 5) (f : FSlot → FSlot) : KeepsQueue k s (s.modSlot k n f) :=
  .modStrand rfl

theorem stopFx_keepsQueue (hx : x.owner = k) : KeepsQueue k s (stopFx s core x).1 := by
  subst hx
  have h1 : KeepsQueue x.owner s (freePorts (flushCtx s core x) core x) :=
    .of_keepsStrands ((flushCtx_keepsStrands s core x).trans (freePorts_keepsStrands _ _ _))
  have h2 := h1.trans (stopRegs_keepsQueue (x := x) (h1.queue.trans hq) he)
  have h3 := h2.trans (setTags_keepsQueue (h2.queue.trans hq) he x.slot none)
  unfold stopFx
  dsimp only
  split
  · next hw =>
    exact (h3.trans (modSlot_keepsQueue _ _ _ _)).trans
      (.of_keepsStrands ((writeRecord_keepsStrands hw).trans (putCtx_keepsStrands _ _ _)))
  · exact (h3.trans (modSlot_keepsQueue _ _ _ _)).trans (.of_keepsStrands (putCtx_keepsStrands _ _ _))

theorem stopFxs_keepsQueue : KeepsQueue k s (stopFxs s k) := by
  have hl (l : List CombCtx) (u : State) (hu : KeepsQueue k s u) (ho : ∀ x ∈ l, x.owner = k) :
      KeepsQueue k s (l.foldl (fun s x => (stopFx s (s.strand k).coreNo x).1) u) := by
    induction l generalizing u with
    | nil => exact hu
    | cons x l ih =>
      exact ih _ (hu.trans (stopFx_keepsQueue (hu.queue.trans hq) he (ho x List.mem_cons_self)))
        (fun y hy => ho y (List.mem_cons_of_mem _ hy))
  refine hl _ s (.refl k s) fun x hx => ?_
  have hx := (List.mem_filter.mp hx).2
  simp only [Bool.and_eq_true, beq_iff_eq] at hx
  exact hx.1

end

/-! ## A trap of the head -/

section
variable {s : State} {k : Nat} {e : QEntry} {x : Trap} (hk : k < s.strands.length) (hq : (s.strand k).queue = [e])
  (he : e.tags = none) (hl : handlesLocally s k x.cause = true)

include hq he in
/-- The matrix unit holds nothing of a queue of one entry without tags. -/
theorem finishTaken_keepsQueue : KeepsQueue k s (finishTaken s k) := by
  have hu : e.inUnit = false := by
    unfold QEntry.inUnit
    split <;> simp [he]
  have hf : finishUnit s k = s := by simp [finishUnit, inUnitAt, hq, hu]
  have hset : finishTaken s k = s.setStrand k { s.strand k with queue := [e] } := by
    unfold finishTaken
    rw [hf]
    simp [hq, hu]
  rw [hset]
  exact .modStrand (f := fun t => { t with queue := [e] })
    (congrArg (fun q => ({ s.strand k with queue := q } : Strand)) hq.symm)

include hk hq he hl in
/-- The strand is in its handler, with the instruction held. -/
theorem trapAtHead_strand (m7 : Bool) : (trapAtHead s k x m7).cur = s.cur ∧ ∃ f w, (trapAtHead s k x m7).strand k =
    { s.strand k with fslots := f, fpctl := w, pendFault := none }.inHandlerFor x e.addr (s.hive (s.strand k).hive).trapvec true
      (holdAll [{ e with underM7 := m7 }]) := by
  have h1 := stopFxs_keepsQueue hq he
  have h := h1.trans (finishTaken_keepsQueue (h1.queue.trans hq) he)
  have hv (n : Nat) : (finishTaken (stopFxs s k) k).hive n = s.hive n := by
    simp only [State.hive, State.findHive, h.hives]
  have hk' : k < (finishTaken (stopFxs s k) k).strands.length := by rwa [h.length]
  have hl' : handlesLocally (finishTaken (stopFxs s k) k) k x.cause = true := by
    unfold handlesLocally Strand.inHandler at *
    rw [hv, h.strand]
    exact hl
  refine ⟨(raiseQueued_cur hk' (h.queue.trans hq) hl' m7).trans h.cur, ((finishTaken (stopFxs s k) k).strand k).fslots,
    ((finishTaken (stopFxs s k) k).strand k).fpctl, ?_⟩
  refine (raiseQueued_strand hk' (h.queue.trans hq) hl' m7).trans ?_
  rw [hv, h.strand]

end

/-- The strand after a VPUSH that traps. -/
theorem RunsAlone.settleQueue_trap {u v : State} {k : Nat} {i : Instr} {x : Shape} {e : QEntry} {a : Part} {tr : Trap} {m7 : Bool}
    (h : RunsAlone u k i x e) (he : u.eager = true) (hr : headRan u k i x e = .trap tr m7 v a)
    (hq : ((trapAtHead (v.modStrand k (fun t => commitRegs t x a)) k tr m7).strand k).queue = []) :
    settleQueue u k = trapAtHead (v.modStrand k (fun t => commitRegs t x a)) k tr m7 :=
  h.settleQueue_left he (h.runHead_trap hr) hq

/-! ## VPUSH and VWAITF from the scalar stream -/

/-- The queue of a strand that met an empty one is empty again. -/
theorem Strand.emptied_eq {t : Strand} (hq : t.queue = []) (hf : t.pendFault = none) (p : Word) (q : List QEntry) :
    ({ { t with pc := p, queue := q } with queue := [], pendFault := countDown t.pendFault } : Strand) = { t with pc := p } := by
  cases t
  cases hq
  cases hf
  rfl

/-- A strand whose VWAITF has taken a value, with an empty queue. -/
def Strand.filled (t : Strand) (r : BitVec 6) (p : Pushed) (n : Nat) : Strand :=
  { (t.tookPush r p).setVreg r (overlay (t.vreg r) p.val (2048 * min p.egs n)) with
    queue := [], pendFault := countDown t.pendFault }

theorem Strand.filled_vreg (t : Strand) (r q : BitVec 6) (p : Pushed) (n : Nat) : (t.filled r p n).vreg q =
    if q = r then overlay (t.vreg r) p.val (2048 * min p.egs n) else t.vreg q :=
  Strand.vreg_setVreg _ _ _ _

theorem Strand.filled_eq {t : Strand} (hf : t.pendFault = none) (pc : Word) (q : List QEntry) (r : BitVec 6) (p : Pushed)
    (n : Nat) : { t with pc := pc, queue := q }.filled r p n = { t with
      pc := pc, queue := [], v := ({ t with pc := pc, queue := q }.filled r p n).v, pushed := t.pushed.erase p
      pushBits := t.pushBits &&& ~~~((1 : Word) <<< r.toNat) } := by
  cases t
  cases hf
  rfl

section
variable {s : State} {o : XFmt}

theorem entered_who (hr : s.runs = true) (i : Instr) (x : Shape) :
    (⟨((entered s i x).strand s.cur).hive, ((entered s i x).strand s.cur).share, true⟩ : Who) = s.who := by
  rw [entered_strand hr]
  rfl

/-- An instruction that waits at its head once it has entered: only its queue and its pc changed, and its event runs it again. -/
theorem Enters.waits {i : Instr} {x : Shape} (h : Enters s i) (hp : PlainQueued i) (hx : shapeOf i = some x) (he : s.eager = true)
    (hc : isComb i = false) (hr : headRan (entered s i x) s.cur i x (newEntry s s.me i x) = .wait) :
    exec i s = .next (entered s i x) ∧ OnlyMe s { entered s i x with nextCmd := s.nextCmd } ∧
      (entered s i x).me = { s.me with pc := s.me.pc + 8, queue := (entered s i x).me.queue } ∧
      (entered s i x).me.queue.length = 1 ∧ moveHead (entered s i x) s.cur = entered s i x := by
  have hra := h.runsAlone hp hx
  have hme : (entered s i x).me = { s.me with pc := s.me.pc + 8, queue := [newEntry s s.me i x] } := entered_strand h.1
  refine ⟨(h.exec_eq hp hx).trans (congrArg Host.Outcome.next (hra.settleQueue_stay he (hra.runHead_wait hr) hc)),
    ⟨rfl, List.length_set .., fun k hk => entered_strand_other hk⟩, ?_, ?_, hra.moveHead_stay he hr hc⟩
  · rw [hme]
  · rw [hme]
    rfl

/-- The state in which a VPUSH stands alone in its queue. -/
theorem Enters.vpush_target (h : Enters s (.vpush o)) (n : Option Nat) (hs : strandOf s s.me.hive (s.me.greg o.ga) = n) :
    strandOf (entered s (.vpush o) (plainShape none [o.va] [o.ga]))
      ((entered s (.vpush o) (plainShape none [o.va] [o.ga])).strand s.cur).hive
      ((newEntry s s.me (.vpush o) (plainShape none [o.va] [o.ga])).arg o.ga) = n := by
  have ha := newEntry_arg s (.vpush o) (plainShape none [o.va] [o.ga]) (Strand.pending_of_empty h.2.1) (r := o.ga)
    List.mem_cons_self
  rw [strandOf_entered h.1, entered_strand h.1, ha]
  exact hs

theorem Enters.cur_lt {i : Instr} {x : Shape} (h : Enters s i) : s.cur < (entered s i x).strands.length := by
  simpa [entered] using State.cur_lt_of_runs h.1

theorem vpush_transfers {q : Nat} (he : s.eager = true) (h : Enters s (.vpush o)) (hq : q ≠ s.cur) (hl : q < s.strands.length)
    (hs : strandOf s s.me.hive (s.me.greg o.ga) = some q) (hf : ¬ (s.strand q).pushFull o.vd)
    (hb : o.vd.toNat < (s.strand q).budget) :
    ∃ t, exec (.vpush o) s = .next t ∧ t.me = { s.me with pc := s.me.pc + 8 } ∧ t.mem = (releaseL1 s s.who 2).mem ∧
      t.strand q = (s.strand q).pushedTo o.vd s.me.grant (s.me.vreg o.va) ∧
      ∀ k, k ≠ s.cur → k ≠ q → t.strand k = s.strand k := by
  have hp := vpush_plainQueued o
  have hr := h.runsAlone hp rfl
  have hme := entered_strand (i := .vpush o) (x := plainShape none [o.va] [o.ga]) h.1
  have hoth := fun {k : Nat} => entered_strand_other (s := s) (i := .vpush o) (x := plainShape none [o.va] [o.ga]) (k := k)
  have hset := hr.settleQueue_vpush he rfl rfl rfl h.cur_lt (h.vpush_target _ hs) hq (by rwa [hoth hq]) (by rwa [hoth hq])
  refine ⟨_, (h.exec_eq hp rfl).trans (congrArg Host.Outcome.next hset), ?_, ?_, ?_, fun k hk hkq => ?_⟩
  · rw [State.me, pushedState_cur]
    refine (pushedState_strand_self _ _ _ _ _ _ h.cur_lt hq).trans ?_
    rw [hme]
    exact Strand.emptied_eq h.2.1 h.2.2.1 _ _
  · rw [pushedState_mem, entered_who h.1]
    exact releaseL1_mem_congr (s := s) (t := entered s _ _) rfl rfl s.who 2
  · rw [pushedState_strand_target _ _ _ _ _ _ (by simpa [entered] using hl) hq, hoth hq, hme]
    rfl
  · rw [pushedState_strand_other _ _ _ _ _ _ hk hkq, hoth hk]

theorem vpush_waits {q : Nat} (he : s.eager = true) (h : Enters s (.vpush o)) (hq : q ≠ s.cur)
    (hs : strandOf s s.me.hive (s.me.greg o.ga) = some q) (hf : (s.strand q).pushFull o.vd) :
    ∃ t, exec (.vpush o) s = .next t ∧ OnlyMe s { t with nextCmd := s.nextCmd } ∧
      t.me = { s.me with pc := s.me.pc + 8, queue := t.me.queue } ∧ t.me.queue.length = 1 ∧
      exec (.vpushTransfer s.cur) t = .next t := by
  have hp := vpush_plainQueued o
  have hr := h.runsAlone hp rfl
  obtain ⟨hx, ho, hm, hl, hmove⟩ := h.waits hp rfl he rfl
    (headRan_vpush_wait _ (h.vpush_target _ hs) hq (by rwa [entered_strand_other hq]))
  exact ⟨_, hx, ho, hm, hl, hr.exec_vpushTransfer.trans (congrArg Host.Outcome.next hmove)⟩

theorem vpushTransfer_completes {q : Nat} (he : s.eager = true) (h : AwaitsAlone s (.vpush o)) (hq : q ≠ s.cur)
    (hl : q < s.strands.length) (hs : strandOf s s.me.hive (s.me.greg o.ga) = some q) (hf : ¬ (s.strand q).pushFull o.vd)
    (hb : o.vd.toNat < (s.strand q).budget) :
    ∃ t, exec (.vpushTransfer s.cur) s = .next t ∧ t.me = { s.me with queue := [] } ∧ t.mem = (releaseL1 s s.who 2).mem ∧
      t.strand q = (s.strand q).pushedTo o.vd s.me.grant (s.me.vreg o.va) ∧
      ∀ k, k ≠ s.cur → k ≠ q → t.strand k = s.strand k := by
  obtain ⟨a, n, hr, harg⟩ := h.runsAlone (vpush_plainQueued o) rfl rfl
  obtain ⟨hk, hpl, hres, hpf, -⟩ := h
  have hset := hr.settleQueue_vpush (q := q) he rfl rfl rfl hk
    ((congrArg (strandOf s s.me.hive) (harg o.ga List.mem_cons_self)).trans hs) hq hf hb
  have hmove := hr.moveHead_eq he
  rw [if_neg (by simpa [State.me] using hres), hset] at hmove
  refine ⟨_, hr.exec_vpushTransfer.trans (congrArg Host.Outcome.next hmove), ?_, ?_, ?_, fun k hk hkq => ?_⟩
  · rw [State.me, pushedState_cur]
    refine (pushedState_strand_self _ _ _ _ _ _ hk hq).trans ?_
    exact congrArg (fun f => ({ s.me with queue := [], pendFault := countDown f } : Strand)) hpf |>.trans
      (congrArg (fun f => ({ s.me with queue := [], pendFault := f } : Strand)) hpf.symm)
  · exact pushedState_mem _ _ _ _ _ _
  · exact pushedState_strand_target _ _ _ _ _ _ hl hq
  · exact pushedState_strand_other _ _ _ _ _ _ hk hkq

theorem vwaitf_waits (he : s.eager = true) (h : Enters s (.vwaitf o)) (hn : ∀ p ∈ s.me.pushed, p.reg ≠ o.vd) :
    ∃ t, exec (.vwaitf o) s = .next t ∧ OnlyMe s { t with nextCmd := s.nextCmd } ∧
      t.me = { s.me with pc := s.me.pc + 8, queue := t.me.queue } ∧ t.me.queue.length = 1 ∧
      exec (.vwaitfFill s.cur) t = .next t := by
  have hp := vwaitf_plainQueued o
  have hr := h.runsAlone hp rfl
  obtain ⟨hx, ho, hm, hl, hmove⟩ := h.waits hp rfl he rfl
    (headRan_vwaitf_wait _ (by rw [entered_strand h.1]; exact hn))
  exact ⟨_, hx, ho, hm, hl, hr.exec_vwaitfFill.trans (congrArg Host.Outcome.next hmove)⟩

theorem vwaitf_takes {p : Pushed} (he : s.eager = true) (h : Enters s (.vwaitf o))
    (hs : s.me.pushed.find? (fun p => p.reg == o.vd) = some p) :
    ∃ t, exec (.vwaitf o) s = .next t ∧
      t.me = { s.me with pc := s.me.pc + 8, v := t.me.v, pushed := s.me.pushed.erase p
                         pushBits := s.me.pushBits &&& ~~~((1 : Word) <<< o.vd.toNat) } ∧
      (∀ r, r ≠ o.vd → t.me.vreg r = s.me.vreg r) ∧ t.mem = (acquireL1 s s.who 2).mem ∧
      (∀ b, (t.me.vreg o.vd).getLsbD b =
        if b < 2048 * min p.egs s.me.grant then p.val.getLsbD b else (s.me.vreg o.vd).getLsbD b) ∧
      ∀ k, k ≠ s.cur → t.strand k = s.strand k := by
  have hp := vwaitf_plainQueued o
  have hr := h.runsAlone hp (x := waitShape o) rfl
  have hme := entered_strand (i := .vwaitf o) (x := waitShape o) h.1
  have hset := hr.settleQueue_vwaitf (p := p) he rfl rfl rfl h.cur_lt (by rw [hme]; exact hs)
  have hm : (filledState (entered s (.vwaitf o) (waitShape o)) s.cur o.vd p s.me.grant).me =
      { s.me with pc := s.me.pc + 8, queue := [newEntry s s.me (.vwaitf o) (waitShape o)] }.filled o.vd p s.me.grant := by
    rw [State.me, filledState_cur]
    exact (filledState_strand_self h.cur_lt o.vd s.me.grant).trans (congrArg (fun t => t.filled o.vd p s.me.grant) hme)
  refine ⟨_, (h.exec_eq hp rfl).trans (congrArg Host.Outcome.next hset), ?_, fun r hr => ?_, ?_, fun b => ?_, fun k hk => ?_⟩
  · refine (hm.trans (Strand.filled_eq h.2.2.1 _ _ _ _ _)).trans ?_
    rw [← hm]
    exact congrArg (fun q => ({ s.me with
      pc := s.me.pc + 8, queue := q
      v := (filledState (entered s (.vwaitf o) (waitShape o)) s.cur o.vd p s.me.grant).me.v, pushed := s.me.pushed.erase p
      pushBits := s.me.pushBits &&& ~~~((1 : Word) <<< o.vd.toNat) } : Strand)) h.2.1.symm
  · exact (congrArg (fun t => t.vreg r) hm).trans ((Strand.filled_vreg _ _ _ _ _).trans (if_neg hr))
  · rw [filledState_mem, entered_who h.1]
    exact acquireL1_mem_congr (s := s) (t := entered s _ _) rfl rfl s.who 2
  · have hv := (congrArg (fun t => t.vreg o.vd) hm).trans ((Strand.filled_vreg _ _ _ _ _).trans (if_pos rfl))
    exact (congrArg (fun v => v.getLsbD b) hv).trans (getLsbD_overlay _ _ _ _)
  · rw [filledState_strand_other hk, entered_strand_other hk]

theorem vwaitfFill_completes {p : Pushed} (he : s.eager = true) (h : AwaitsAlone s (.vwaitf o))
    (hs : s.me.pushed.find? (fun p => p.reg == o.vd) = some p) :
    ∃ t, exec (.vwaitfFill s.cur) s = .next t ∧
      t.me = { s.me with v := t.me.v, queue := [], pushed := s.me.pushed.erase p
                         pushBits := s.me.pushBits &&& ~~~((1 : Word) <<< o.vd.toNat) } ∧
      (∀ r, r ≠ o.vd → t.me.vreg r = s.me.vreg r) ∧ t.mem = (acquireL1 s s.who 2).mem ∧
      ∀ b, (t.me.vreg o.vd).getLsbD b =
        if b < 2048 * min p.egs s.me.grant then p.val.getLsbD b else (s.me.vreg o.vd).getLsbD b := by
  obtain ⟨a, n, hr, -⟩ := h.runsAlone (vwaitf_plainQueued o) (x := waitShape o) rfl rfl
  obtain ⟨hk, hpl, hres, hpf, -⟩ := h
  have hset := hr.settleQueue_vwaitf (p := p) he rfl rfl rfl hk hs
  have hmove := hr.moveHead_eq he
  rw [if_neg (by simpa [State.me] using hres), hset] at hmove
  have hm : (filledState s s.cur o.vd p s.me.grant).me = s.me.filled o.vd p s.me.grant := by
    rw [State.me, filledState_cur]
    exact filledState_strand_self hk o.vd s.me.grant
  refine ⟨_, hr.exec_vwaitfFill.trans (congrArg Host.Outcome.next hmove), ?_, fun r hr => ?_, ?_, fun b => ?_⟩
  · refine (hm.trans (Strand.filled_eq hpf s.me.pc s.me.queue _ _ _)).trans ?_
    rw [← hm]
    rfl
  · exact (congrArg (fun t => t.vreg r) hm).trans ((Strand.filled_vreg _ _ _ _ _).trans (if_neg hr))
  · exact filledState_mem _ _
  · have hv := (congrArg (fun t => t.vreg o.vd) hm).trans ((Strand.filled_vreg _ _ _ _ _).trans (if_pos rfl))
    exact (congrArg (fun v => v.getLsbD b) hv).trans (getLsbD_overlay _ _ _ _)

theorem vpush_faults (he : s.eager = true) (h : Enters s (.vpush o))
    (hs : strandOf s s.me.hive (s.me.greg o.ga) = none ∨ strandOf s s.me.hive (s.me.greg o.ga) = some s.cur)
    (hmask : s.myHive.trapmask.getLsbD 0x1B = true) (hh : s.me.trapcause.getLsbD 8 = false) :
    ∃ t, exec (.vpush o) s = .next t ∧ t.me.trappc = s.me.pc ∧ t.me.trapval = s.me.greg o.ga ∧ t.me.pc = s.myHive.trapvec ∧
      t.me.trapcause.extractLsb' 0 6 = 0x1B := by
  have hp := vpush_plainQueued o
  have hr := h.runsAlone hp rfl
  have hme := entered_strand (i := .vpush o) (x := plainShape none [o.va] [o.ga]) h.1
  have ha := newEntry_arg s (.vpush o) (plainShape none [o.va] [o.ga]) (Strand.pending_of_empty h.2.1) (r := o.ga)
    List.mem_cons_self
  have hran := headRan_vpush_fault (k := s.cur) (plainShape none [o.va] [o.ga])
    (hs.imp (h.vpush_target none) (h.vpush_target (some s.cur)))
  have hv : ((entered s (.vpush o) (plainShape none [o.va] [o.ga])).modStrand s.cur (fun t => commitRegs t
      (plainShape none [o.va] [o.ga]) (startPart ((entered s (.vpush o) (plainShape none [o.va] [o.ga])).strand s.cur)
        (newEntry s s.me (.vpush o) (plainShape none [o.va] [o.ga])) (plainShape none [o.va] [o.ga])))).strand s.cur =
      { s.me with pc := s.me.pc + 8, queue := [newEntry s s.me (.vpush o) (plainShape none [o.va] [o.ga])] } :=
    (State.strand_mod_self _ _ _ h.cur_lt).trans ((commitRegs_plain _ _ _ _ rfl rfl).trans hme)
  rw [ha] at hran
  generalize hw : (entered s (.vpush o) (plainShape none [o.va] [o.ga])).modStrand s.cur _ = w at hv
  have hhive : w.hive s.me.hive = s.myHive := by
    rw [← hw]
    rfl
  have hcur : w.cur = s.cur := by
    rw [← hw]
    rfl
  have hloc : handlesLocally w s.cur (Trap.at .pushFault (s.me.greg o.ga)).cause = true := by
    unfold handlesLocally Strand.inHandler
    rw [hv, hhive]
    have hh' : (!s.me.trapcause.getLsbD 8) = true := by rw [hh, Bool.not_false]
    exact Bool.and_eq_true_iff.mpr ⟨Bool.and_eq_true_iff.mpr ⟨rfl, hmask⟩, hh'⟩
  have htrap := trapAtHead_strand (s := w) (x := Trap.at .pushFault (s.me.greg o.ga)) (k := s.cur)
    (by rw [← hw]; exact (List.length_set ..).symm ▸ h.cur_lt) (congrArg Strand.queue hv) rfl hloc false
  obtain ⟨hc, f, g, hst⟩ := htrap
  have hset := hr.settleQueue_trap he hran
  rw [hw] at hset
  refine ⟨_, (h.exec_eq hp rfl).trans (congrArg Host.Outcome.next (hset (congrArg Strand.queue hst))), ?_⟩
  have hm : (trapAtHead w s.cur (Trap.at .pushFault (s.me.greg o.ga)) false).me =
      (trapAtHead w s.cur (Trap.at .pushFault (s.me.greg o.ga)) false).strand s.cur :=
    congrArg (trapAtHead w s.cur (Trap.at .pushFault (s.me.greg o.ga)) false).strand (hc.trans hcur)
  rw [hm, hst, hv, hhive]
  refine ⟨rfl, rfl, rfl, ?_⟩
  show (trapCauseWord Cause.pushFault.code true 1).extractLsb' 0 6 = 0x1B
  decide

end

/-- Settles O47: a VPUSH or VWAITF that stands alone at its head completes, waits or traps on the conditions of its meaning, at its
issue and at its event alike. -/
theorem pushedValues : Obligations.PushedValues := by
  refine ⟨fun s o q he h hq hl hs => ⟨fun hf hb => vpush_transfers he h hq hl hs hf hb, fun hf => vpush_waits he h hq hs hf⟩,
    fun s o q he h hq hl hs hp hr hbit hlen hb => vpushTransfer_completes he h hq hl hs ?_ hb,
    fun s o he h => ⟨fun p hp => vwaitf_takes he h hp, fun hn => vwaitf_waits he h hn⟩,
    fun s o p he h hp => vwaitfFill_completes he h hp, fun s o he h hs hm hh => vpush_faults he h hs hm hh⟩
  rintro (h | h | h | h)
  · exact absurd hp (by simp [h])
  · exact absurd hr (by simp [h])
  · exact absurd h (by simp [hbit])
  · exact absurd hlen (Nat.not_lt.mpr h)

end Sys2Proof.Machine

/-! SUPPORT. Placement, tags, micro-operations and the matrix unit (spec/02 R33, R36, R45 to R51, spec/07 R177, R186). -/

namespace Sys2Proof.Machine

/-! ## Placement -/

section
variable {s : State} {x : ShareRef} {k : Nat}

/-- What a strand fits with: a grant between its bounds, EG slots that are free, and a slot of the share. -/
theorem fitting_bounds {t : Strand} {slot pg egs e : Nat} (h : fitting s t x = some (slot, pg, egs, e)) :
    t.vlmin ≤ pg ∧ pg ≤ t.vlmax ∧ egs ≤ freeEgs s x ∧ slot < x.size / 2 := by
  unfold fitting at h
  dsimp only at h
  split at h
  · next hslot hpg he =>
    obtain ⟨hegs, h⟩ := Option.ite_none_right_eq_some.mp h
    cases h
    have hp := List.find?_some hpg
    simp only [Bool.and_eq_true, decide_eq_true_eq] at hp
    obtain ⟨⟨hmin, hmax⟩, -⟩ := hp
    exact ⟨hmin, hmax, hegs, List.mem_range.mp (List.mem_of_find?_eq_some hslot)⟩
  · cases h

theorem mem_waitingFor : k ∈ waitingFor s x ↔ k < s.strands.length ∧
    (s.strand k).status.isWaiting = true ∧ (s.strand k).placed = false ∧ (s.strand k).share = some x := by
  simp [waitingFor, List.mem_mergeSort, and_assoc]

/-- Where no strand that may be placed fits, the scheduler does nothing. -/
theorem placeInOrder_of_none {n : Nat}
    (h : ∀ k ∈ (blockingStrand s (waitingFor s x)).elim (waitingFor s x) (fun k => [k]), fitting s (s.strand k) x = none) :
    placeInOrder x n s = s := by
  cases n with
  | zero => rfl
  | succ n =>
    have hn : ((blockingStrand s (waitingFor s x)).elim (waitingFor s x) (fun k => [k])).findSome?
        (fun k => (fitting s (s.strand k) x).map (fun p => (k, p))) = none := by
      rw [List.findSome?_eq_none_iff]
      intro k hk
      rw [h k hk]
      rfl
    simp only [placeInOrder, hn]

/-- A strand that is alone waits no more, or blocks itself. -/
theorem placing_order_of_alone (h : waitingFor s x = [k]) :
    (blockingStrand s (waitingFor s x)).elim (waitingFor s x) (fun k => [k]) = [k] := by
  rw [h]
  unfold blockingStrand
  cases hf : [k].find? (fun k => decide (16 ≤ (s.strand k).passed)) with
  | none => rfl
  | some q =>
    rw [List.mem_singleton.mp (List.mem_of_find?_eq_some hf)]
    rfl

theorem placeInOrder_of_alone {p : Nat × Nat × Nat × Nat} (h : waitingFor s x = [k]) (hf : fitting s (s.strand k) x = some p)
    (n : Nat) : placeInOrder x (n + 1) s = placeInOrder x n (placeStrand s k p) := by
  simp [placeInOrder, placing_order_of_alone h, hf]

/-- The strand as it stands once placed (R33). -/
def Strand.placedWith (t : Strand) (p : Nat × Nat × Nat × Nat) : Strand :=
  { t with
    placed := true, slot := p.1, pg := p.2.1, egs := p.2.2.1, entry := some p.2.2.2, spilled := false, passed := 0
    fresh := false, grant := if t.fresh then p.2.1 else t.grant, status := .running, resuming := !t.fresh }

theorem placeStrand_strand (hk : k < s.strands.length) (ht : (s.strand k).task = none) (p : Nat × Nat × Nat × Nat) (j : Nat) :
    (placeStrand s k p).strand j = if j = k then (s.strand k).placedWith p else s.strand j := by
  have hs : startTask s (s.strand k) = s := by rw [startTask, ht]
  have hl : KeepsStrands s (if (s.strand k).fresh then acquireL1 s ⟨(s.strand k).hive, (s.strand k).share, true⟩ 1 else s) := by
    split
    · exact acquireL1_keepsStrands _ _ _
    · exact .refl s
  unfold placeStrand
  dsimp only
  rw [hs, State.strand_mod, hl.strand, hl.strands]
  by_cases hj : j = k
  · rw [if_pos ⟨hj.symm, hk⟩, if_pos hj]
    rfl
  · rw [if_neg (fun h => hj h.1.symm), if_neg hj, hl.strand]

theorem placeStrand_length (p : Nat × Nat × Nat × Nat) : (placeStrand s k p).strands.length = s.strands.length := by
  unfold placeStrand
  dsimp only
  split
  · exact (List.length_set ..).trans (congrArg List.length ((acquireL1_strands _ _ _).trans (startTask_strands _ _)))
  · exact (List.length_set ..).trans (congrArg List.length (startTask_strands _ _))

/-- The share has no strand left that waits. -/
theorem waitingFor_placeStrand (h : waitingFor s x = [k]) (ht : (s.strand k).task = none) (p : Nat × Nat × Nat × Nat) :
    waitingFor (placeStrand s k p) x = [] := by
  have hk : k < s.strands.length := (mem_waitingFor.mp (h ▸ List.mem_singleton_self k)).1
  refine List.eq_nil_iff_forall_not_mem.mpr fun j hj => ?_
  rw [mem_waitingFor, placeStrand_length, placeStrand_strand hk ht] at hj
  by_cases hjk : j = k
  · rw [if_pos hjk] at hj
    exact absurd hj.2.2.1 (by simp [Strand.placedWith])
  · rw [if_neg hjk, ← mem_waitingFor, h] at hj
    exact hjk (List.mem_singleton.mp hj)

/-- A strand that waits alone and fits is placed, and that is all. -/
theorem placeShare_of_alone {p : Nat × Nat × Nat × Nat} (h : waitingFor s x = [k]) (hf : fitting s (s.strand k) x = some p)
    (ht : (s.strand k).task = none) (hx : 0 < x.size / 2) : placeShare s x = placeStrand s k p := by
  obtain ⟨n, hn⟩ := Nat.exists_eq_succ_of_ne_zero hx.ne'
  rw [placeShare, hn, placeInOrder_of_alone h hf, placeInOrder_of_none]
  intro q hq
  rw [waitingFor_placeStrand h ht] at hq
  cases hq

theorem exec_strandPlacement
    (h : (s.strands.filterMap (fun t => t.share)).find? (fun y => y.core == x.core && y.lg == x.lg) = some x) :
    exec (.strandPlacement x.core x.lg) s = .next (placeShare s x) := by
  show execStrandPlacement x.core x.lg s = _
  rw [execStrandPlacement, h]

end

/-- The scheduler at a share. -/
theorem strandPlacement_event (s : State) (x : ShareRef)
    (h : (s.strands.filterMap (fun t => t.share)).find? (fun y => y.core == x.core && y.lg == x.lg) = some x) :
    (∀ k, waitingFor s x = [k] → ∀ slot pg egs e, fitting s (s.strand k) x = some (slot, pg, egs, e) → (s.strand k).task = none →
      let t := s.strand k
      (t.vlmin ≤ pg ∧ pg ≤ t.vlmax ∧ egs ≤ freeEgs s x ∧ slot < x.size / 2) ∧
      ∃ u, exec (.strandPlacement x.core x.lg) s = .next u ∧ (∀ j, j ≠ k → u.strand j = s.strand j) ∧
        u.strand k = { t with placed := true, slot := slot, pg := pg, egs := egs, entry := some e, spilled := false, passed := 0
                              fresh := false, grant := if t.fresh then pg else t.grant, status := .running
                              resuming := !t.fresh }) ∧
    ((∀ k ∈ waitingFor s x, fitting s (s.strand k) x = none) → exec (.strandPlacement x.core x.lg) s = .next s) ∧
    (∀ k, (waitingFor s x).find? (fun k => decide (16 ≤ (s.strand k).passed)) = some k → fitting s (s.strand k) x = none →
      exec (.strandPlacement x.core x.lg) s = .next s) := by
  rw [exec_strandPlacement h]
  refine ⟨fun k hw slot pg egs e hf ht => ?_, fun hn => ?_, fun k hb hf => ?_⟩
  · obtain ⟨hmin, hmax, hegs, hslot⟩ := fitting_bounds hf
    have hk : k < s.strands.length := (mem_waitingFor.mp (hw ▸ List.mem_singleton_self k)).1
    refine ⟨⟨hmin, hmax, hegs, hslot⟩, _,
      congrArg Host.Outcome.next (placeShare_of_alone hw hf ht (Nat.zero_lt_of_lt hslot)), fun j hj => ?_, ?_⟩
    · rw [placeStrand_strand hk ht, if_neg hj]
    · rw [placeStrand_strand hk ht, if_pos rfl]
      rfl
  · refine congrArg Host.Outcome.next (placeInOrder_of_none fun k hk => hn k ?_)
    cases hb : blockingStrand s (waitingFor s x) with
    | none => rwa [hb] at hk
    | some q =>
      rw [hb] at hk
      rw [List.mem_singleton.mp hk]
      exact List.mem_of_find?_eq_some hb
  · refine congrArg Host.Outcome.next (placeInOrder_of_none fun q hq => ?_)
    rw [blockingStrand, hb] at hq
    rw [List.mem_singleton.mp hq, hf]

/-! ## Tags -/

section
variable {s : State} {k : Nat}

theorem moveHead_eq (hp : (s.strand k).placed = true) (hr : (s.strand k).resuming = false) (hf : (s.strand k).pendFault = none)
    (he : s.eager = false) (ht : headTagless s k = false) : moveHead s k = allocate s k := by
  simp [moveHead, Strand.onShare, hp, hr, faultDue, hf, he, ht]

/-- Without an entry that lacks tags there is nothing to give. -/
theorem tagWish_of_tagged (h : ∀ e ∈ (s.strand k).queue, e.tags.isSome = true) : tagWish s k = none := by
  have hn : nextUntagged (s.strand k) = none := by
    rw [nextUntagged, List.findIdx?_eq_none_iff]
    intro e he
    rw [Option.isNone_eq_false_iff]
    exact h e he
  have ha : allocHead s k = none := by
    unfold allocHead
    dsimp only
    rw [hn]
    simp
  rw [tagWish, ha]
  rfl

theorem headTagless_of_tagged (h : ∀ e ∈ (s.strand k).queue, e.tags.isSome = true) : headTagless s k = false := by
  unfold headTagless
  dsimp only
  split
  · rfl
  · next e l hq =>
    rw [Option.isNone_eq_false_iff.mpr (h e (hq ▸ List.mem_cons_self)), Bool.false_and]

section
variable {j : Nat} {e : QEntry} {i : Instr} {x : Shape} (ha : allocHead s k = some (j, e, i, x)) (hw : windowed i = true)
  (hfree : headFree s k j e i x = true)
include ha hw hfree

theorem tagWish_windowed : tagWish s k = some (uopCount x e) := by
  simp [tagWish, ha, hw, hfree]

theorem allocate_of_other_turn (ht : allocTurn s (s.strand k).coreNo ≠ some k) : allocate s k = s := by
  rw [allocate, tagWish_windowed ha hw hfree]
  exact if_pos ht

theorem allocate_of_no_room (ht : allocTurn s (s.strand k).coreNo = some k)
    (hr : 8 * (s.strand k).shareD.size < tagsUsed s k + uopCount x e) : allocate s k = setTurn s k 0 := by
  have hroom : tagRoom s k (uopCount x e) = false := by simpa [tagRoom] using hr
  rw [allocate, tagWish_windowed ha hw hfree]
  dsimp only
  rw [if_neg (not_not.mpr ht), hroom, if_neg Bool.false_ne_true]

theorem allocate_of_room (ht : allocTurn s (s.strand k).coreNo = some k)
    (hr : tagsUsed s k + uopCount x e ≤ 8 * (s.strand k).shareD.size) :
    allocate s k = giveTags (setTurn s k 1) k := by
  have hroom : tagRoom s k (uopCount x e) = true := by simpa [tagRoom] using hr
  rw [allocate, tagWish_windowed ha hw hfree]
  dsimp only
  rw [if_neg (not_not.mpr ht), hroom, if_pos rfl]

end

/-- The allocator's pointer is no part of what it finds at a head. -/
theorem allocHead_setTurn (past : Nat) : allocHead (setTurn s k past) k = allocHead s k := rfl

theorem setTurn_tagTurn (hc : (s.strand k).coreNo < s.cores.length) (past : Nat) :
    ((setTurn s k past).core (s.strand k).coreNo).tagTurn = ((s.strand k).coreSlot + past) % 8 := by
  rw [setTurn, State.core_mod, if_pos ⟨rfl, hc⟩]

theorem tagNumber_setTurn (past : Nat) : tagNumber (setTurn s k past) k = tagNumber s k := by
  unfold tagNumber setTurn
  rw [State.modCore_strand, State.core_mod]
  split
  · rfl
  · rfl

/-- The tags that a windowed head gets: those of the EGs that a save found complete are used up (R47, R259). -/
def givenTags (s : State) (k j : Nat) (e : QEntry) (x : Shape) : Tags :=
  { Tags.given (uopCount x e) (tagNumber s k) (startPart (viewAt (s.strand k) j) e x) with
    issued := if x.last && !e.done x then 0 else min e.p (uopCount x e)
    produced := if x.last && !e.done x then 0 else min e.p (uopCount x e) }

theorem giveWindow_eq {j : Nat} {e : QEntry} {i : Instr} {x : Shape} (hr : runsAtTags i = false) :
    giveWindow s k j e i x =
      countTags (setEntry s k j { e with tags := some (givenTags s k j e x) }) k (uopCount x e) := by
  unfold giveWindow
  dsimp only
  rw [hr, Bool.false_and, if_neg Bool.false_ne_true]
  rfl

theorem countTags_strand (n q : Nat) : (countTags s k n).strand q = s.strand q := rfl

theorem countTags_tagTurn (n c : Nat) : ((countTags s k n).core c).tagTurn = (s.core c).tagTurn := by
  unfold countTags
  dsimp only
  rw [State.core_mod]
  split
  · next h => rw [h.1]
  · rfl

theorem setEntry_strand_other (j : Nat) (e : QEntry) {q : Nat} (hq : q ≠ k) : (setEntry s k j e).strand q = s.strand q :=
  State.strand_mod_other s k q _ hq

theorem setEntry_queue (hk : k < s.strands.length) (j : Nat) (e : QEntry) :
    ((setEntry s k j e).strand k).queue = (s.strand k).queue.set j e := by
  rw [setEntry, State.strand_mod_self s k _ hk]

theorem lt_of_placed (hp : (s.strand k).placed = true) : k < s.strands.length := by
  refine Nat.lt_of_not_le fun hk => ?_
  rw [State.strand, List.getD_eq_default _ _ hk] at hp
  cases hp

end

/-- The event of a queue head that waits for tags. -/
theorem tagAllocation_event (s : State) (k : Nat) (hp : (s.strand k).placed = true) (hr : (s.strand k).resuming = false)
    (hf : (s.strand k).pendFault = none) :
    (s.eager = true → exec (.queueHeadTagAllocation k) s = .next (settleQueue s k)) ∧
    (s.eager = false → (∀ e ∈ (s.strand k).queue, e.tags.isSome = true) → exec (.queueHeadTagAllocation k) s = .next s) ∧
    ∀ j e i x, s.eager = false → headTagless s k = false → allocHead s k = some (j, e, i, x) → windowed i = true →
      headFree s k j e i x = true → runsAtTags i = false →
      let n := uopCount x e
      let core := (s.strand k).coreNo
      (allocTurn s core ≠ some k → exec (.queueHeadTagAllocation k) s = .next s) ∧
      (allocTurn s core = some k → 8 * (s.strand k).shareD.size < tagsUsed s k + n →
        ∃ u, exec (.queueHeadTagAllocation k) s = .next u ∧ u.strands = s.strands ∧
          (core < s.cores.length → (u.core core).tagTurn = (s.strand k).coreSlot % 8)) ∧
      (allocTurn s core = some k → tagsUsed s k + n ≤ 8 * (s.strand k).shareD.size →
        ∃ u g, exec (.queueHeadTagAllocation k) s = .next u ∧ (∀ q, q ≠ k → u.strand q = s.strand q) ∧
          (u.strand k).queue = (s.strand k).queue.set j { e with tags := some g } ∧ g.uops = n ∧ g.base = tagNumber s k ∧
          g.issued = g.produced ∧ g.taken = false ∧ (core < s.cores.length →
            (u.core core).tagTurn = ((s.strand k).coreSlot + 1) % 8)) := by
  have hexec : exec (.queueHeadTagAllocation k) s = .next (moveHead s k) := rfl
  rw [hexec]
  refine ⟨fun he => ?_, fun he ht => ?_, fun j e i x he htl ha hw hfree hnow => ?_⟩
  · simp [moveHead, Strand.onShare, hp, hr, faultDue, hf, he]
  · rw [moveHead_eq hp hr hf he (headTagless_of_tagged ht), allocate, tagWish_of_tagged ht]
  rw [moveHead_eq hp hr hf he htl]
  refine ⟨fun ht => ?_, fun ht hroom => ?_, fun ht hroom => ?_⟩
  · rw [allocate_of_other_turn ha hw hfree ht]
  · rw [allocate_of_no_room ha hw hfree ht hroom]
    exact ⟨_, rfl, rfl, fun hc => setTurn_tagTurn hc 0⟩
  · have hgive : giveTags (setTurn s k 1) k = giveWindow (setTurn s k 1) k j e i x := by
      rw [giveTags, allocHead_setTurn, ha]
      exact if_pos hw
    rw [allocate_of_room ha hw hfree ht hroom, hgive, giveWindow_eq hnow]
    refine ⟨_, givenTags (setTurn s k 1) k j e x, rfl, fun q hq => ?_, ?_, rfl, tagNumber_setTurn 1, rfl, rfl, fun hc => ?_⟩
    · exact (countTags_strand _ _).trans (setEntry_strand_other j _ hq)
    · exact (congrArg Strand.queue (countTags_strand _ _)).trans (setEntry_queue (s := setTurn s k 1) (lt_of_placed hp) j _)
    · exact (countTags_tagTurn _ _).trans (setTurn_tagTurn hc 1)

/-! ## The choice of micro-operations -/

/-! `better` is a strict order on classes of candidates. -/

theorem better_self (a : Candidate) : better a a = false := by
  unfold better
  cases h : decide (256 ≤ a.waited) <;> simp [h]

theorem better_asymm {a b : Candidate} (h : better a b = true) : better b a = false := by
  unfold better at *
  by_cases ha : 256 ≤ a.waited <;> by_cases hb : 256 ≤ b.waited <;> simp [ha, hb] at * <;> omega

theorem better_negtrans {a b c : Candidate} (h : better a b = false) (g : better b c = false) : better a c = false := by
  unfold better at *
  by_cases ha : 256 ≤ a.waited <;> by_cases hb : 256 ≤ b.waited <;> by_cases hc : 256 ≤ c.waited <;>
    simp [ha, hb, hc] at * <;> omega

theorem best_mem {l : List Candidate} {b : Candidate} (h : best l = some b) : b ∈ l := by
  induction l with
  | nil => cases h
  | cons c cs ih =>
    unfold best at h
    split at h
    · cases h
      exact List.mem_cons_self
    · next d hd =>
      split at h
      · cases h
        exact List.mem_cons_of_mem _ (ih hd)
      · cases h
        exact List.mem_cons_self

/-- Nothing is better than the best. -/
theorem better_best {l : List Candidate} {b : Candidate} (h : best l = some b) : ∀ c ∈ l, better c b = false := by
  induction l generalizing b with
  | nil => cases h
  | cons c cs ih =>
    unfold best at h
    split at h
    · next hn =>
      cases h
      have hcs : cs = [] := by
        cases cs with
        | nil => rfl
        | cons d ds =>
          unfold best at hn
          split at hn
          · cases hn
          · split at hn <;> cases hn
      intro d hd
      rw [hcs, List.mem_singleton] at hd
      rw [hd, better_self]
    · next d hd =>
      split at h
      · next hbd =>
        cases h
        intro e he
        rcases List.mem_cons.mp he with rfl | he
        · exact better_asymm hbd
        · exact ih hd e he
      · next hbd =>
        cases h
        intro e he
        rcases List.mem_cons.mp he with rfl | he
        · exact better_self _
        · exact better_negtrans (ih hd e he) (Bool.not_eq_true _ ▸ hbd)

/-- What goes on A0 and on A1: candidates for an arithmetic pipe that may go there, two of them, and no more than one that
multiplies. -/
structure ArithmeticChoice (cs : List Candidate) (x y : Option Candidate) : Prop where
  first : ∀ c, x = some c → c ∈ cs ∧ c.pipe = .a ∧ c.second ≠ some true
  second : ∀ c, y = some c → c ∈ cs ∧ c.pipe = .a ∧ c.second ≠ some false
  apart : ∀ c d, x = some c → y = some d → c ≠ d ∧ (c.mult && d.mult) = false

/-- One candidate for a pipe. -/
def onPipe (x : Option Candidate) (b : Bool) : List (Candidate × Bool) := x.toList.map (fun c => (c, b))

theorem arithmetic_choice (cs : List Candidate) :
    ∃ x y, arithmetic cs = onPipe x false ++ onPipe y true ∧ ArithmeticChoice cs x y := by
  have hon {b : Bool} {c : Candidate} (h : (c.pipe == .a && c.second != some (!b)) = true) :
      c.pipe = .a ∧ c.second ≠ some (!b) := by
    simpa using h
  unfold arithmetic
  dsimp only
  generalize ha0 : best (cs.filter fun c => c.pipe == .a && c.second != some (!false)) = a0
  have h0 (c : Candidate) (h : a0 = some c) : c ∈ cs ∧ c.pipe = .a ∧ c.second ≠ some true := by
    have hm := List.mem_filter.mp (best_mem (ha0.trans h))
    exact ⟨hm.1, hon hm.2⟩
  have hrest (c : Candidate) (h : c ∈ cs.filter fun c => (c.pipe == .a && c.second != some (!true)) && some c != a0) :
      (c ∈ cs ∧ c.pipe = .a ∧ c.second ≠ some false) ∧ a0 ≠ some c := by
    have hm := List.mem_filter.mp h
    have hb := Bool.and_eq_true_iff.mp hm.2
    exact ⟨⟨hm.1, hon hb.1⟩, (bne_iff_ne.mp hb.2).symm⟩
  generalize cs.filter (fun c => (c.pipe == .a && c.second != some (!true)) && some c != a0) = rest at hrest
  cases hy : best rest with
  | none =>
    refine ⟨a0, none, ?_, h0, fun c h => (nomatch h), fun c d _ h => (nomatch h)⟩
    cases a0 <;> rfl
  | some y =>
    have hy' := hrest y (best_mem hy)
    cases ha : a0 with
    | none => exact ⟨none, some y, rfl, fun c h => (nomatch h), fun c h => (Option.some.inj h) ▸ hy'.1, fun c d h => (nomatch h)⟩
    | some x =>
      rw [ha] at h0 hrest
      have hx := h0 x rfl
      have hxy : x ≠ y := fun h => (hrest y (best_mem hy)).2 (congrArg some h)
      dsimp only
      split
      · next hm =>
        have hm := Bool.and_eq_true_iff.mp hm
        split
        · refine ⟨best (cs.filter fun c => (c.pipe == .a && c.second != some (!false)) && !c.mult), some y, rfl, fun c h => ?_,
            fun c h => (Option.some.inj h) ▸ hy'.1, fun c d h g => ?_⟩
          · have hc := List.mem_filter.mp (best_mem h)
            exact ⟨hc.1, hon (Bool.and_eq_true_iff.mp hc.2).1⟩
          · have hc := (Bool.and_eq_true_iff.mp (List.mem_filter.mp (best_mem h)).2).2
            rw [Bool.not_eq_true'] at hc
            obtain rfl := Option.some.inj g
            refine ⟨fun hcy => ?_, by rw [hc, Bool.false_and]⟩
            rw [hcy, hm.2] at hc
            cases hc
        · refine ⟨some x, best (rest.filter fun c => !c.mult), rfl, fun c h => (Option.some.inj h) ▸ hx, fun c h => ?_,
            fun c d h g => ?_⟩
          · exact (hrest c (List.mem_filter.mp (best_mem h)).1).1
          · have hd := List.mem_filter.mp (best_mem g)
            obtain rfl := Option.some.inj h
            refine ⟨fun hcd => (hrest d hd.1).2 (congrArg some hcd), ?_⟩
            rw [(Bool.not_eq_true' _).mp hd.2, Bool.and_false]
      · next hm =>
        refine ⟨some x, some y, rfl, fun c h => (Option.some.inj h) ▸ hx, fun c h => (Option.some.inj h) ▸ hy'.1, fun c d h g => ?_⟩
        obtain rfl := Option.some.inj h
        obtain rfl := Option.some.inj g
        exact ⟨hxy, Bool.not_eq_true _ ▸ hm⟩

theorem mem_onPipe {x : Option Candidate} {b d : Bool} {c : Candidate} : (c, d) ∈ onPipe x b ↔ x = some c ∧ d = b := by
  cases x with
  | none => simp [onPipe]
  | some y => simp [onPipe, eq_comm]

theorem length_filter_onPipe (x : Option Candidate) (b : Bool) (p : Candidate × Bool → Bool) :
    ((onPipe x b).filter p).length ≤ 1 :=
  (List.length_filter_le _ _).trans (by cases x <;> simp [onPipe])

theorem filter_onPipe_eq_nil {x : Option Candidate} {b : Bool} {p : Candidate × Bool → Bool}
    (h : ∀ c, x = some c → p (c, b) = false) : (onPipe x b).filter p = [] := by
  cases x with
  | none => rfl
  | some c => simp [onPipe, h c rfl]

/-- The parts of the choice: A0, A1, LS, PR, and those that occupy no pipe. -/
structure Choice (cs : List Candidate) (x y ls pr : Option Candidate) : Prop extends ArithmeticChoice cs x y where
  eq : chosen cs = onPipe x false ++ onPipe y true ++ onPipe ls false ++ onPipe pr false ++
    (cs.filter (fun c => c.pipe == .none)).map (fun c => (c, false))
  load : ∀ c, ls = some c → c ∈ cs ∧ c.pipe = .ls
  permute : ∀ c, pr = some c → c ∈ cs ∧ c.pipe = .pr
  bestLoad : ∀ c, ls = some c → ∀ d ∈ cs, d.pipe = .ls → better d c = false

theorem exists_choice (cs : List Candidate) : ∃ x y ls pr, Choice cs x y ls pr := by
  obtain ⟨x, y, he, ha⟩ := arithmetic_choice cs
  have hm {p : Pipe} {c : Candidate} (h : best (cs.filter (fun c => c.pipe == p)) = some c) : c ∈ cs ∧ c.pipe = p := by
    simpa using best_mem h
  refine ⟨x, y, best (cs.filter (fun c => c.pipe == .ls)), best (cs.filter (fun c => c.pipe == .pr)), ha, ?_, fun c h => hm h,
    fun c h => hm h, fun c h d hd hp => better_best h d (by simp [hd, hp])⟩
  rw [chosen, he]
  rfl

namespace Choice

variable {cs : List Candidate} {x y ls pr : Option Candidate} (h : Choice cs x y ls pr)
include h

theorem mem_iff {c : Candidate} {b : Bool} : (c, b) ∈ chosen cs ↔ (x = some c ∧ b = false) ∨ (y = some c ∧ b = true) ∨
    (ls = some c ∧ b = false) ∨ (pr = some c ∧ b = false) ∨ (c ∈ cs ∧ c.pipe = .none ∧ b = false) := by
  rw [h.eq]
  simp only [List.mem_append, mem_onPipe, List.mem_map, List.mem_filter, beq_iff_eq, Prod.mk.injEq, or_assoc]
  refine or_congr_right (or_congr_right (or_congr_right (or_congr_right ⟨?_, ?_⟩)))
  · rintro ⟨d, ⟨hd, hp⟩, rfl, rfl⟩
    exact ⟨hd, hp, rfl⟩
  · rintro ⟨hd, hp, rfl⟩
    exact ⟨c, ⟨hd, hp⟩, rfl, rfl⟩

/-- What is chosen is a candidate. -/
theorem mem_cs {c : Candidate × Bool} (hc : c ∈ chosen cs) : c.1 ∈ cs := by
  obtain ⟨c, b⟩ := c
  rcases h.mem_iff.mp hc with hx | hx | hx | hx | hx
  · exact (h.first c hx.1).1
  · exact (h.second c hx.1).1
  · exact (h.load c hx.1).1
  · exact (h.permute c hx.1).1
  · exact hx.1

theorem of_true {c : Candidate} (hc : (c, true) ∈ chosen cs) : y = some c := by
  simpa using h.mem_iff.mp hc

theorem of_false {c : Candidate} (hc : (c, false) ∈ chosen cs) : x = some c ∨ c.pipe ≠ .a := by
  rcases h.mem_iff.mp hc with hx | hx | hx | hx | hx
  · exact .inl hx.1
  · exact nomatch hx.2
  · exact .inr (by simp [(h.load c hx.1).2])
  · exact .inr (by simp [(h.permute c hx.1).2])
  · exact .inr (by simp [hx.2.1])

/-- A candidate is chosen for one pipe. -/
theorem unique {c : Candidate} {b d : Bool} (hb : (c, b) ∈ chosen cs) (hd : (c, d) ∈ chosen cs) : b = d := by
  have hne (ht : (c, true) ∈ chosen cs) (hf : (c, false) ∈ chosen cs) : False := by
    have hy := h.of_true ht
    rcases h.of_false hf with hx | hp
    · exact (h.apart c c hx hy).1 rfl
    · exact hp (h.second c hy).2.1
  cases b <;> cases d
  · rfl
  · exact (hne hd hb).elim
  · exact (hne hb hd).elim
  · rfl

/-- An instruction stays on its pipe. -/
theorem stays {c : Candidate × Bool} (hc : c ∈ chosen cs) (hp : c.1.pipe = .a) : c.1.second = none ∨ c.1.second = some c.2 := by
  obtain ⟨c, b⟩ := c
  cases b with
  | true =>
    have hs := (h.second c (h.of_true hc)).2.2
    cases hcs : c.second with
    | none => exact .inl rfl
    | some d =>
      cases d with
      | true => exact .inr rfl
      | false => exact absurd hcs hs
  | false =>
    have hs := (h.first c ((h.of_false hc).resolve_right (not_not.mpr hp))).2.2
    cases hcs : c.second with
    | none => exact .inl rfl
    | some d =>
      cases d with
      | false => exact .inr rfl
      | true => exact absurd hcs hs

theorem filter_eq (p : Candidate × Bool → Bool) : (chosen cs).filter p =
    (onPipe x false).filter p ++ (onPipe y true).filter p ++ (onPipe ls false).filter p ++ (onPipe pr false).filter p ++
      ((cs.filter (fun c => c.pipe == .none)).map (fun c => (c, false))).filter p := by
  rw [h.eq, List.filter_append, List.filter_append, List.filter_append, List.filter_append]

omit h in
theorem filter_none_eq_nil {p : Candidate × Bool → Bool} (hp : ∀ c : Candidate, c.pipe = .none → p (c, false) = false) :
    ((cs.filter (fun c => c.pipe == .none)).map (fun c => (c, false))).filter p = [] := by
  simp only [List.filter_eq_nil_iff, List.mem_map, List.mem_filter, beq_iff_eq]
  rintro _ ⟨c, ⟨-, hc⟩, rfl⟩
  simp [hp c hc]

theorem load_le_one : ((chosen cs).filter (fun c => c.1.pipe == .ls)).length ≤ 1 := by
  rw [h.filter_eq, filter_none_eq_nil (fun c hc => by simp [hc]), filter_onPipe_eq_nil (fun c hc => by simp [(h.first c hc).2.1]),
    filter_onPipe_eq_nil (fun c hc => by simp [(h.second c hc).2.1]),
    filter_onPipe_eq_nil (x := pr) (fun c hc => by simp [(h.permute c hc).2])]
  simpa using length_filter_onPipe ls false _

theorem permute_le_one : ((chosen cs).filter (fun c => c.1.pipe == .pr)).length ≤ 1 := by
  rw [h.filter_eq, filter_none_eq_nil (fun c hc => by simp [hc]), filter_onPipe_eq_nil (fun c hc => by simp [(h.first c hc).2.1]),
    filter_onPipe_eq_nil (fun c hc => by simp [(h.second c hc).2.1]),
    filter_onPipe_eq_nil (x := ls) (fun c hc => by simp [(h.load c hc).2])]
  simpa using length_filter_onPipe pr false _

/-- What the choice has for an arithmetic pipe stands on A0 or A1. -/
theorem filter_arithmetic (p : Candidate × Bool → Bool) (hp : ∀ c b, p (c, b) = true → c.pipe = .a) :
    (chosen cs).filter p = (onPipe x false).filter p ++ (onPipe y true).filter p := by
  have hn (c : Candidate) (b : Bool) (hc : c.pipe ≠ .a) : p (c, b) = false := by
    rw [← Bool.not_eq_true]
    exact fun ht => hc (hp c b ht)
  rw [h.filter_eq, filter_none_eq_nil (fun c hc => hn c false (by simp [hc])),
    filter_onPipe_eq_nil (x := ls) (fun c hc => hn c false (by simp [(h.load c hc).2])),
    filter_onPipe_eq_nil (x := pr) (fun c hc => hn c false (by simp [(h.permute c hc).2]))]
  simp

theorem arithmetic_le_one (b : Bool) : ((chosen cs).filter (fun c => c.1.pipe == .a && c.2 == b)).length ≤ 1 := by
  rw [h.filter_arithmetic _ (fun c d hc => by simpa using (Bool.and_eq_true_iff.mp hc).1)]
  cases b with
  | false =>
    rw [filter_onPipe_eq_nil (x := y) (fun c _ => by simp), List.append_nil]
    exact length_filter_onPipe _ _ _
  | true =>
    rw [filter_onPipe_eq_nil (x := x) (fun c _ => by simp), List.nil_append]
    exact length_filter_onPipe _ _ _

theorem multiplier_le_one : ((chosen cs).filter (fun c => c.1.pipe == .a && c.1.mult)).length ≤ 1 := by
  rw [h.filter_arithmetic _ (fun c d hc => by simpa using (Bool.and_eq_true_iff.mp hc).1)]
  cases hx : x with
  | none => exact length_filter_onPipe y _ _
  | some c =>
    cases hc : c.mult with
    | false =>
      rw [filter_onPipe_eq_nil (x := some c) (fun d hd => by rw [← Option.some.inj hd, hc, Bool.and_false]), List.nil_append]
      exact length_filter_onPipe y _ _
    | true =>
      rw [filter_onPipe_eq_nil (x := y), List.append_nil]
      · exact length_filter_onPipe _ _ _
      · intro d hd
        have ha := (h.apart c d hx hd).2
        rw [hc, Bool.true_and] at ha
        rw [ha, Bool.and_false]

theorem best_load {c : Candidate × Bool} (hc : c ∈ chosen cs) (hp : c.1.pipe = .ls) :
    ∀ d ∈ cs, d.pipe = .ls → better d c.1 = false := by
  obtain ⟨c, b⟩ := c
  refine h.bestLoad c ?_
  rcases h.mem_iff.mp hc with hx | hx | hx | hx | hx
  · exact absurd (hp.symm.trans (h.first c hx.1).2.1) (by simp)
  · exact absurd (hp.symm.trans (h.second c hx.1).2.1) (by simp)
  · exact hx.1
  · exact absurd (hp.symm.trans (h.permute c hx.1).2) (by simp)
  · exact absurd (hp.symm.trans hx.2.1) (by simp)

end Choice

/-! ## Issue -/

theorem foldl_proj {α β : Type} (g : State → β) {f : State → α → State} (h : ∀ s a, g (f s a) = g s) :
    ∀ (l : List α) (s : State), g (l.foldl f s) = g s
  | [], _ => rfl
  | a :: l, s => (foldl_proj g h l (f s a)).trans (h s a)

/-- Strands of a list, each once, updated one after another. -/
theorem foldl_modStrand_strand (f : Nat → Strand → Strand) (k : Nat) : ∀ (l : List Nat) (s : State), l.Nodup →
    (∀ q ∈ l, q < s.strands.length) →
    (l.foldl (fun s q => s.modStrand q (f q)) s).strand k = if k ∈ l then f k (s.strand k) else s.strand k
  | [], s, _, _ => by simp
  | q :: l, s, hn, hl => by
    obtain ⟨hq, hn⟩ := List.nodup_cons.mp hn
    have hlen : ∀ r ∈ l, r < (s.modStrand q (f q)).strands.length := by
      intro r hr
      simpa using hl r (List.mem_cons_of_mem _ hr)
    rw [List.foldl_cons, foldl_modStrand_strand f k l _ hn hlen, State.strand_mod]
    by_cases hk : q = k
    · subst hk
      simp [hq, hl q List.mem_cons_self]
    · simp [hk, Ne.symm hk]

theorem mem_strandsOn {s : State} {core lg k : Nat} (h : k ∈ strandsOn s core lg) : k < s.strands.length :=
  List.mem_range.mp (List.mem_filter.mp h).1

theorem nodup_strandsOn (s : State) (core lg : Nat) : (strandsOn s core lg).Nodup :=
  List.nodup_range.filter _

theorem candidate_place {s : State} {k j : Nat} {c : Candidate} (h : candidate s k j = some c) : c.k = k ∧ c.j = j := by
  unfold candidate at h
  dsimp only at h
  split at h
  · cases h
  · split at h
    · cases h
      exact ⟨rfl, rfl⟩
    · cases h

theorem mem_candidates {s : State} {core lg : Nat} {c : Candidate} (h : c ∈ candidates s core lg) :
    c.k ∈ strandsOn s core lg ∧ candidate s c.k c.j = some c := by
  obtain ⟨k, hk, hc⟩ := List.mem_flatMap.mp h
  obtain ⟨j, -, hj⟩ := List.mem_filterMap.mp hc
  obtain ⟨rfl, rfl⟩ := candidate_place hj
  exact ⟨hk, hj⟩

/-- An entry makes one candidate. -/
theorem candidate_unique {s : State} {core lg : Nat} {c d : Candidate} (hc : c ∈ candidates s core lg)
    (hd : d ∈ candidates s core lg) (hk : c.k = d.k) (hj : c.j = d.j) : c = d := by
  have h1 := (mem_candidates hc).2
  have h2 := (mem_candidates hd).2
  rw [hk, hj, h2] at h1
  exact (Option.some.inj h1).symm

section
variable {cs : List Candidate} {win : List (Candidate × Bool)} {k j : Nat}

theorem afterCycle_chosen {c : Candidate × Bool} (hc : c ∈ win) (hk : c.1.k = k) (hj : c.1.j = j)
    (hu : ∀ d ∈ win, d.1.k = k → d.1.j = j → d = c) (g : Tags) : afterCycle cs win k j g =
      { g with issued := g.issued + 1, waited := 0, second := if c.1.pipe = .a then some c.2 else none } := by
  unfold afterCycle
  cases hf : win.find? (fun c => c.1.k == k && c.1.j == j) with
  | none => exact absurd (List.find?_eq_none.mp hf c hc) (by simp [hk, hj])
  | some d =>
    have hp := List.find?_some hf
    simp only [Bool.and_eq_true, beq_iff_eq] at hp
    rw [hu d (List.mem_of_find?_eq_some hf) hp.1 hp.2]

theorem afterCycle_not_chosen (hn : ∀ c ∈ win, c.1.k = k → c.1.j ≠ j) (g : Tags) : afterCycle cs win k j g =
    { g with waited := if cs.any (fun c => c.k == k && c.j == j) then g.waited + 1 else 0 } := by
  have hf : win.find? (fun c => c.1.k == k && c.1.j == j) = none := by
    rw [List.find?_eq_none]
    intro c hc hp
    simp only [Bool.and_eq_true, beq_iff_eq] at hp
    exact hn c hc hp.1 hp.2
  rw [afterCycle, hf]

end

/-- Strand k of a share after a cycle: each entry with its tags as the choice leaves them. -/
def cycledStrand (s : State) (core lg k : Nat) (t : Strand) : Strand :=
  { t with queue := t.queue.mapIdx (fun j e => { e with
      tags := e.tags.map (afterCycle (candidates s core lg) (chosen (candidates s core lg)) k j) }) }

/-- The strands of a share after a cycle. -/
def cycled (s : State) (core lg : Nat) : State :=
  (strandsOn s core lg).foldl (fun u k => u.modStrand k (cycledStrand s core lg k)) s

/-- A micro-operation issued counts in its hive (Table 3.6). -/
def countUop (s : State) (c : Candidate × Bool) : State :=
  s.modHive (s.strand c.1.k).hive (fun h => { h with egops := h.egops + 1 })

theorem exec_microOperationIssue (s : State) (core lg : Nat) : exec (.microOperationIssue core lg) s =
    .next ((chosen (candidates s core lg)).foldl countUop (cycled s core lg)) := rfl

theorem cycled_mem (s : State) (core lg : Nat) : (cycled s core lg).mem = s.mem :=
  foldl_proj State.mem (f := fun u k => u.modStrand k (cycledStrand s core lg k)) (fun _ _ => rfl) _ _

theorem cycled_cores (s : State) (core lg : Nat) : (cycled s core lg).cores = s.cores :=
  foldl_proj State.cores (f := fun u k => u.modStrand k (cycledStrand s core lg k)) (fun _ _ => rfl) _ _

theorem cycled_strand (s : State) (core lg k : Nat) : (cycled s core lg).strand k =
    if k ∈ strandsOn s core lg then cycledStrand s core lg k (s.strand k) else s.strand k :=
  foldl_modStrand_strand (cycledStrand s core lg) k (strandsOn s core lg) s (nodup_strandsOn s core lg)
    (fun _ h => mem_strandsOn h)

/-- The entries of a strand on the share, each with its tags after the cycle. -/
theorem cycled_entry {s : State} {core lg k j : Nat} {e : QEntry} {g : Tags} (hk : k ∈ strandsOn s core lg)
    (he : (s.strand k).queue[j]? = some e) (hg : e.tags = some g) : ((cycled s core lg).strand k).queue[j]? =
      some { e with tags := some (afterCycle (candidates s core lg) (chosen (candidates s core lg)) k j g) } := by
  rw [cycled_strand, if_pos hk, cycledStrand]
  simp [List.getElem?_mapIdx, he, hg]

/-- One cycle of a share's sequencer. -/
theorem microOperationIssue_event (s : State) (core lg : Nat) :
    let cs := candidates s core lg
    let win := chosen cs
    ∃ t, exec (.microOperationIssue core lg) s = .next t ∧ t.mem = s.mem ∧ t.cores = s.cores ∧
      ∀ k j e g, (s.strand k).queue[j]? = some e → e.tags = some g →
        (∀ c ∈ win, c.1.k = k → c.1.j = j → (t.strand k).queue[j]? = some { e with tags := some { g with
            issued := g.issued + 1, waited := 0, second := if c.1.pipe = .a then some c.2 else none } }) ∧
        ((∃ c ∈ cs, c.k = k ∧ c.j = j) → (∀ c ∈ win, c.1.k = k → c.1.j ≠ j) →
          (t.strand k).queue[j]? = some { e with tags := some { g with waited := g.waited + 1 } }) ∧
        ((∀ c ∈ cs, c.k = k → c.j ≠ j) → k ∈ strandsOn s core lg →
          (t.strand k).queue[j]? = some { e with tags := some { g with waited := 0 } }) ∧
        (k ∉ strandsOn s core lg → (t.strand k).queue[j]? = some e) := by
  intro cs win
  obtain ⟨x, y, ls, pr, hch⟩ := exists_choice cs
  have hstrand (k : Nat) : (win.foldl countUop (cycled s core lg)).strand k = (cycled s core lg).strand k :=
    foldl_proj (fun s => s.strand k) (f := countUop) (fun _ _ => rfl) _ _
  refine ⟨_, exec_microOperationIssue s core lg,
    (foldl_proj State.mem (f := countUop) (fun _ _ => rfl) _ _).trans (cycled_mem s core lg),
    (foldl_proj State.cores (f := countUop) (fun _ _ => rfl) _ _).trans (cycled_cores s core lg), fun k j e g he hg => ?_⟩
  rw [hstrand]
  refine ⟨fun c hc hk hj => ?_, fun ⟨c, hc, hk, hj⟩ hn => ?_, fun hn hk => ?_, fun hk => ?_⟩
  · have hcs := hch.mem_cs hc
    have hu (d) (hd : d ∈ win) (hdk : d.1.k = k) (hdj : d.1.j = j) : d = c := by
      have hdc := candidate_unique (hch.mem_cs hd) hcs (hdk.trans hk.symm) (hdj.trans hj.symm)
      refine Prod.ext hdc (hch.unique (c := c.1) ?_ hc)
      rw [← hdc]
      exact hd
    rw [cycled_entry (hk ▸ (mem_candidates hcs).1) he hg, afterCycle_chosen hc hk hj hu]
  · have hany : cs.any (fun c => c.k == k && c.j == j) = true :=
      List.any_eq_true.mpr ⟨c, hc, by simp [hk, hj]⟩
    rw [cycled_entry (hk ▸ (mem_candidates hc).1) he hg, afterCycle_not_chosen hn, if_pos hany]
  · have hany : ¬ cs.any (fun c => c.k == k && c.j == j) = true := by
      rw [List.any_eq_true]
      rintro ⟨c, hc, hp⟩
      simp only [Bool.and_eq_true, beq_iff_eq] at hp
      exact hn c hc hp.1 hp.2
    rw [cycled_entry hk he hg, afterCycle_not_chosen (fun c hc => hn c.1 (hch.mem_cs hc)), if_neg hany]
  · rw [cycled_strand, if_neg hk]
    exact he

/-! ## Producing and retiring -/

theorem exec_egProduced {s : State} {k j : Nat} (h : (s.strand k).queue.findIdx? inFlight = some j) :
    exec (.egProduced k) s = .next ((produceAt s k j).elim s (fun u => retireDone 32 u k)) := by
  show execEgProduced k s = _
  rw [execEgProduced, h]
  dsimp only
  cases produceAt s k j <;> rfl

/-- The oldest micro-operation in flight of a strand produced. -/
theorem egProduced_event (s : State) (k : Nat) :
    ((s.strand k).queue.findIdx? inFlight = none → exec (.egProduced k) s = .next s) ∧
    ∀ j e, (s.strand k).queue.findIdx? inFlight = some j → (s.strand k).queue[j]? = some e →
      (readingTile e = true → exec (.egProduced k) s =
        .next (retireDone 32 (modTags s k j (fun g => { g with egs := g.egs + 1 })) k)) ∧
      (readingTile e = false →
        (∀ d x g u a, egRun s k j false = some (d, x, g, .ok u a) → exec (.egProduced k) s =
          .next (retireDone 32 (producedEg u k j d g a) k)) ∧
        (∀ d x g tr m u a, egRun s k j false = some (d, x, g, .trap tr m u a) → j ≠ 0 → exec (.egProduced k) s = .next s)) := by
  refine ⟨fun hn => ?_, fun j e hj he => ⟨fun ht => ?_, fun ht => ⟨fun d x g u a hr => ?_, fun d x g tr m u a hr h0 => ?_⟩⟩⟩
  · show execEgProduced k s = _
    rw [execEgProduced, hn]
  · have hp : produceAt s k j = some (modTags s k j (fun g => { g with egs := g.egs + 1 })) := by
      simp [produceAt, he, ht]
    rw [exec_egProduced hj, hp]
    rfl
  · have hp : produceAt s k j = some (producedEg u k j d g a) := by
      simp [produceAt, he, ht, hr]
    rw [exec_egProduced hj, hp]
    rfl
  · have hp : produceAt s k j = none := by
      simp [produceAt, he, ht, hr, h0]
    rw [exec_egProduced hj, hp]
    rfl

/-! ## The matrix unit -/

/-- A unit that holds nothing has nothing to leave it. -/
theorem leaver_of_idle {s : State} {core : Nat} (h : unitBusy s core = false) : leaver s core = none := by
  rw [leaver, List.findSome?_eq_none_iff]
  intro k hk
  have hmem : s.strand k ∈ s.strands := by
    have hk := List.mem_range.mp hk
    rw [State.strand, List.getD_eq_getElem _ _ hk]
    exact List.getElem_mem hk
  have hb : ((s.strand k).placed && (s.strand k).coreNo == core && (inUnitAt (s.strand k)).isSome) = false :=
    Bool.eq_false_iff.mpr fun ht => Bool.eq_false_iff.mp h (List.any_eq_true.mpr ⟨_, hmem, ht⟩)
  dsimp only
  split
  · next hs =>
    cases hu : inUnitAt (s.strand k) with
    | none => rfl
    | some j =>
      simp only [Strand.onShare, Bool.and_eq_true] at hs
      simp [hs.1.1, hs.2, hu] at hb
  · rfl

/-- A fold that keeps what it has or takes what it meets ends with something that it met. -/
theorem mem_of_foldl_pick {α : Type} {f : Option α → α → Option α} (hf : ∀ m p, f m p = m ∨ f m p = some p) {q : α} :
    ∀ {l : List α} {m : Option α}, l.foldl f m = some q → m = some q ∨ q ∈ l
  | [], _, h => .inl h
  | p :: l, m, h => by
    rcases mem_of_foldl_pick hf (l := l) h with h | h
    · rcases hf m p with hm | hm
      · exact .inl (hm.symm.trans h)
      · exact .inr (Option.some.inj (hm.symm.trans h) ▸ List.mem_cons_self)
    · exact .inr (List.mem_cons_of_mem _ h)

/-- The strand that the unit serves stands on its core. -/
theorem coreNo_of_nextTurn {s : State} {core k j : Nat} (h : nextTurn s core = some (k, j)) : (s.strand k).coreNo = core := by
  unfold nextTurn at h
  have hpick := mem_of_foldl_pick (fun m p => ?_) h
  · rcases hpick with h | h
    · cases h
    · obtain ⟨q, -, hq⟩ := List.mem_filterMap.mp h
      dsimp only at hq
      split at hq
      · next hs =>
        obtain ⟨n, -, hn⟩ := Option.bind_eq_some_iff.mp hq
        obtain ⟨-, hn⟩ := Option.ite_none_right_eq_some.mp hn
        cases hn
        simp only [Bool.and_eq_true, beq_iff_eq] at hs
        exact hs.2
      · cases hq
  · cases m with
    | none => exact .inr rfl
    | some q =>
      dsimp only
      split
      · exact .inr rfl
      · exact .inl rfl

theorem exec_matrixUnitTake {s : State} {core k j : Nat} {e : QEntry} {i : Instr} {x : Shape} {g : Tags}
    (hb : unitBusy s core = false) (hn : nextTurn s core = some (k, j)) (ht : taggedAt (s.strand k) j = some (e, i, x, g)) :
    (∀ sc u, reachAt s k e i x j = .ok (sc, u) → exec (.matrixUnitTake core) s = .next (takeAt u k j e i x sc)) ∧
      (∀ tr, reachAt s k e i x j = .error tr → exec (.matrixUnitTake core) s = .next (trapAtHead s k tr e.underM7)) := by
  have hx : exec (.matrixUnitTake core) s = execMatrixUnitTake core s := rfl
  rw [hx]
  constructor
  · intro sc u hr
    simp [execMatrixUnitTake, hb, hn, ht, hr]
  · intro tr hr
    simp [execMatrixUnitTake, hb, hn, ht, hr]

/-- No instruction but TOPA and TOPS reads scales on reaching the unit. -/
theorem reachAt_without_scales {i : Instr} (ha : ∀ o, i ≠ .topa o) (hs : ∀ o, i ≠ .tops o) (s : State) (k j : Nat) (e : QEntry)
    (x : Shape) : reachAt s k e i x j = .ok (([], []), s) := by
  unfold reachAt reachUnit
  split
  · next o => exact absurd rfl (ha o)
  · next o => exact absurd rfl (hs o)
  · rfl

theorem taggedAt_eq_some {t : Strand} {j : Nat} {e : QEntry} {i : Instr} {x : Shape} {g : Tags}
    (h : taggedAt t j = some (e, i, x, g)) : t.queue[j]? = some e ∧ e.item = .instr i ∧ e.tags = some g ∧ shapeOf i = some x := by
  unfold taggedAt at h
  obtain ⟨d, hd, h⟩ := Option.bind_eq_some_iff.mp h
  split at h
  · next hi hg =>
    obtain ⟨y, hy, he⟩ := Option.map_eq_some_iff.mp h
    cases he
    exact ⟨hd, hi, hg, hy⟩
  · cases h

theorem lt_of_entry {s : State} {k j : Nat} {e : QEntry} (h : (s.strand k).queue[j]? = some e) : k < s.strands.length := by
  refine Nat.lt_of_not_le fun hk => ?_
  rw [State.strand, List.getD_eq_default _ _ hk] at h
  cases h

theorem modTags_entry {s : State} {k j : Nat} {e : QEntry} {g : Tags} (he : (s.strand k).queue[j]? = some e)
    (hg : e.tags = some g) (f : Tags → Tags) :
    ((modTags s k j f).strand k).queue[j]? = some { e with tags := some (f g) } := by
  rw [modTags, State.strand_mod_self _ _ _ (lt_of_entry he)]
  simp [modAt, he, hg]

theorem passTurn_tiles (s : State) (k q : Nat) : ((passTurn s k).core q).tiles = (s.core q).tiles := by
  unfold passTurn
  dsimp only
  rw [State.core_mod]
  split
  · next h => rw [h.1]
  · rfl

theorem passTurn_matNext {s : State} {k : Nat} (h : (s.strand k).coreNo < s.cores.length) :
    ((passTurn s k).core (s.strand k).coreNo).matNext = ((s.strand k).shareD.lg / 2 + (s.strand k).slot + 1) % 8 := by
  unfold passTurn
  dsimp only
  rw [State.core_mod, if_pos ⟨rfl, h⟩]

/-- The instruction that the unit takes is in it, and the unit looks at the next slot. -/
theorem takeAt_entry {s : State} {k j core : Nat} {e : QEntry} {i : Instr} {x : Shape} {g : Tags}
    (ht : taggedAt (s.strand k) j = some (e, i, x, g)) (hn : (s.strand k).coreNo = core) (hc : core < s.cores.length) (sc : Scales) :
    (takeAt s k j e i x sc).mem = s.mem ∧ ((takeAt s k j e i x sc).core core).tiles = (s.core core).tiles ∧
      ((takeAt s k j e i x sc).core core).matNext = ((s.strand k).shareD.lg / 2 + (s.strand k).slot + 1) % 8 ∧
      ∃ h, ((takeAt s k j e i x sc).strand k).queue[j]? = some { e with tags := some h } ∧ h.taken = true ∧ h.issued = 1 ∧
        h.produced = g.produced := by
  obtain ⟨he, -, hg, -⟩ := taggedAt_eq_some ht
  have hk := lt_of_entry he
  have hs (f : Tags → Tags) : (modTags s k j f).strand k =
      { s.strand k with queue := modAt (s.strand k).queue j (fun e => { e with tags := e.tags.map f }) } :=
    State.strand_mod_self s k _ hk
  have hm (f : Tags → Tags) : ((passTurn (modTags s k j f) k).core core).matNext =
      ((s.strand k).shareD.lg / 2 + (s.strand k).slot + 1) % 8 := by
    have hp := passTurn_matNext (s := modTags s k j f) (k := k) (by rw [hs]; exact hn ▸ hc)
    rw [hs] at hp
    exact hn ▸ hp
  exact ⟨rfl, passTurn_tiles _ k core, hm _, _, modTags_entry he hg _, rfl, rfl, rfl⟩

/-- A tile access that leaves the unit is performed. -/
theorem leaveAt_tiles {s : State} {k j : Nat} {e : QEntry} {i : Instr} {x : Shape} {g : Tags}
    (ht : taggedAt (s.strand k) j = some (e, i, x, g)) (hr : g.ran = false) (q : Nat) : ((leaveAt s k j).core q).tiles =
      ((leaveUnit i g.scales s k (wholeWork (viewAt (s.strand k) j) e x) (startPart (viewAt (s.strand k) j) e x)).1.core q).tiles := by
  obtain ⟨he, hi, hg, hx⟩ := taggedAt_eq_some ht
  unfold leaveAt
  simp only [he, hi, hg, hx, hr, Bool.false_eq_true, if_false]
  rfl

theorem matrixUnit_event (s : State) (core : Nat) :
    (unitBusy s core = true → exec (.matrixUnitTake core) s = .next s) ∧
    (unitBusy s core = false → exec (.matrixUnitLeave core) s = .next s) ∧
    (∀ k j e i x g, unitBusy s core = false → nextTurn s core = some (k, j) → taggedAt (s.strand k) j = some (e, i, x, g) →
      (∀ sc u, reachAt s k e i x j = .ok (sc, u) → exec (.matrixUnitTake core) s = .next (takeAt u k j e i x sc)) ∧
      (∀ tr, reachAt s k e i x j = .error tr → exec (.matrixUnitTake core) s = .next (trapAtHead s k tr e.underM7)) ∧
      ((∀ o, i ≠ .topa o) → (∀ o, i ≠ .tops o) → core < s.cores.length →
        ∃ t, exec (.matrixUnitTake core) s = .next t ∧ t.mem = s.mem ∧ (t.core core).tiles = (s.core core).tiles ∧
          (t.core core).matNext = ((s.strand k).shareD.lg / 2 + (s.strand k).slot + 1) % 8 ∧
          ∃ h, (t.strand k).queue[j]? = some { e with tags := some h } ∧ h.taken = true ∧ h.issued = 1 ∧
            h.produced = g.produced)) ∧
    ∀ k j, leaver s core = some (k, j) →
      exec (.matrixUnitLeave core) s = .next (retireDone 32 (leaveAt s k j) k) ∧
      ∀ e i x g, taggedAt (s.strand k) j = some (e, i, x, g) → g.ran = false →
        let v := viewAt (s.strand k) j
        ∀ q, ((leaveAt s k j).core q).tiles = ((leaveUnit i g.scales s k (wholeWork v e x) (startPart v e x)).1.core q).tiles := by
  have hleave : exec (.matrixUnitLeave core) s =
      .next ((leaver s core).elim s (fun p => retireDone 32 (leaveAt s p.1 p.2) p.1)) := rfl
  refine ⟨fun hb => ?_, fun hb => ?_, fun k j e i x g hb hn ht => ?_,
    fun k j hl => ⟨?_, fun e i x g ht hr q => leaveAt_tiles ht hr q⟩⟩
  · show execMatrixUnitTake core s = _
    rw [execMatrixUnitTake, if_pos hb]
  · rw [hleave, leaver_of_idle hb]
    rfl
  · obtain ⟨hok, herr⟩ := exec_matrixUnitTake hb hn ht
    refine ⟨hok, herr, fun ha hs hc => ⟨_, hok _ _ (reachAt_without_scales ha hs s k j e x), ?_⟩⟩
    exact takeAt_entry ht (coreNo_of_nextTurn hn) hc _
  · rw [hleave, hl]
    rfl

/-- Settles O55, part by part: the scheduler at a share, the tag allocator, the sequencer, the oldest micro-operation in flight, and
the matrix unit. -/
theorem placementAndTheWindow : Obligations.PlacementAndTheWindow := by
  refine ⟨strandPlacement_event, tagAllocation_event, fun s core lg => ?_, egProduced_event, matrixUnit_event⟩
  intro cs win
  obtain ⟨x, y, ls, pr, h⟩ := exists_choice cs
  refine ⟨fun c hc => h.mem_cs hc, h.load_le_one, h.permute_le_one, h.arithmetic_le_one, fun c hc hp => h.stays hc hp,
    h.multiplier_le_one, fun c hc hp => ⟨false, ?_⟩, fun c hc d hd hp hq => h.best_load hc hp d hd hq,
    microOperationIssue_event s core lg⟩
  exact h.mem_iff.mpr (.inr (.inr (.inr (.inr ⟨hc, hp, rfl⟩))))

end Sys2Proof.Machine

/-! SUPPORT. Scalar loads and stores that do not go through (R77, R97, R98, R126): the trap of each, where a check or the walk refuses
the access. -/

namespace Sys2Proof.Machine

section
variable {s u : State} {w : Who} {va : Word} {n x pa : Nat} {r : Reason} {e : TlbEntry} {b : Bool}

theorem loadW_misaligned (ha : va.toNat % n ≠ 0) : loadW s w va n b = .error ⟨.align, va, 0, 0⟩ := if_pos ha

theorem loadW_unreached (ha : va.toNat % n = 0) (hl : locate s w va.toNat .read = .error r) :
    loadW s w va n b = .error (accessTrap va .read r) := by
  rw [loadW, if_neg (not_not.mpr ha), hl]

theorem storeSt_misaligned (ha : va.toNat % n ≠ 0) : storeSt s w va n x b = .error ⟨.align, va, 0, 0⟩ := if_pos ha

theorem storeSt_unreached (ha : va.toNat % n = 0) (hl : locate s w va.toNat .write = .error r) :
    storeSt s w va n x b = .error (accessTrap va .write r) := by
  rw [storeSt, if_neg (not_not.mpr ha), hl]

/-- A store to a page of translation tables (R77). -/
theorem storeSt_tablePage (ha : va.toNat % n = 0) (hl : locate s w va.toNat .write = .ok (.mem pa e, u)) (htw : e.tw = true) :
    storeSt s w va n x b = .error (tableWriteTrap va pa e n x) := by
  rw [storeSt, if_neg (not_not.mpr ha), hl]
  exact if_pos htw

/-- The trap of a scalar access that does not go through, in the words of Table 4.9 (R97). -/
theorem accessTrap_eq (va : Word) (k : AccessKind) (r : Reason) : accessTrap va k r =
    ⟨match r with | .notPresent | .malformed => .pageFault | .notPermitted => .protection | .revoked => .revoked, va,
      BitVec.ofNat 64 (1 + k.code * 64 + r.code * 256 + 65536), 0⟩ := by
  cases r <;> rfl

/-- A store of a register's low bytes to a page of translation tables: only one of 8 bytes is handed to the parent (R77). -/
theorem tableWriteTrap_eq (sz : StoreSize) (va g : Word) (pa : Nat) (e : TlbEntry) :
    tableWriteTrap va pa e (storeBytes sz) (g.toNat % 2 ^ (8 * storeBytes sz)) =
      if sz = .d then ⟨.tableWrite, va, BitVec.ofNat 64 (e.hbase + (pa - e.pbase)), g⟩
      else accessTrap va .write .notPermitted := by
  have hd : BitVec.ofNat 64 (g.toNat % 2 ^ (8 * storeBytes .d)) = g := by
    rw [Nat.mod_eq_of_lt (show g.toNat < 2 ^ (8 * storeBytes .d) from g.isLt), BitVec.ofNat_toNat, BitVec.setWidth_eq]
  cases sz with
  | d => exact congrArg (Trap.mk .tableWrite va _) hd
  | b | h | w => rfl

section
variable {sz : LoadSize} {o : MFmt} {t : Trap} (hr : s.runs = true)
include hr

theorem exec_ld_trap (ho : o.ord = 0) (h : loadW s s.who (mAddr s.me o) (loadBytes sz) false = .error t) :
    exec (.ld sz o) s = .next (raise s t) := by
  rw [exec_ld_eq ho, h]
  exact scalar_trap hr t

theorem exec_lda_trap (ho : o.ord = 1) (h : loadW s s.who (mAddr s.me o) (loadBytes sz) (o.scope != 0) = .error t) :
    exec (.lda sz o) s = .next (raise s t) := by
  rw [exec_lda_eq ho, h]
  exact scalar_trap hr t

theorem exec_ld_order (ho : o.ord ≠ 0) : exec (.ld sz o) s = .next (raise s ⟨.illegalCombo, encode (.ld sz o), 0, 0⟩) := by
  rw [← scalar_trap hr]
  change execLd sz o s = _
  rw [execLd, need, if_neg (by simpa using ho)]
  rfl

theorem exec_lda_order (ho : o.ord ≠ 1) : exec (.lda sz o) s = .next (raise s ⟨.illegalCombo, encode (.lda sz o), 0, 0⟩) := by
  rw [← scalar_trap hr]
  change execLda sz o s = _
  rw [execLda, need, if_neg (by simpa using ho)]
  rfl

end

section
variable {sz : StoreSize} {o : MFmt} {t : Trap} (hr : s.runs = true)
include hr

theorem exec_st_trap (ho : o.ord = 0) (h : storeSt s s.who (mAddr s.me o) (storeBytes sz)
    ((s.me.greg o.gb).toNat % 2 ^ (8 * storeBytes sz)) false = .error t) : exec (.st sz o) s = .next (raise s t) := by
  rw [exec_st_eq ho, h]
  exact scalar_trap hr t

/-- The address of an STL leads where it does after the release (R125). -/
theorem exec_stl_trap (ho : o.ord = 2) (h : storeSt (releaseL1 s s.who o.scope.toNat) s.who (mAddr s.me o) (storeBytes sz)
    ((s.me.greg o.gb).toNat % 2 ^ (8 * storeBytes sz)) (o.scope != 0) = .error t) : exec (.stl sz o) s = .next (raise s t) := by
  rw [exec_stl_eq ho, h]
  exact scalar_trap hr t

theorem exec_st_order (ho : o.ord ≠ 0) : exec (.st sz o) s = .next (raise s ⟨.illegalCombo, encode (.st sz o), 0, 0⟩) := by
  rw [← scalar_trap hr]
  change execSt sz o s = _
  rw [execSt, need, if_neg (by simpa using ho)]
  rfl

theorem exec_stl_order (ho : o.ord ≠ 2) : exec (.stl sz o) s = .next (raise s ⟨.illegalCombo, encode (.stl sz o), 0, 0⟩) := by
  rw [← scalar_trap hr]
  change execStl sz o s = _
  rw [execStl, need, if_neg (by simpa using ho)]
  rfl

end

end

/-- Settles O17: each refusal is that of the load or the store that the instruction makes. -/
theorem accessTraps : Obligations.AccessTraps := by
  unfold Obligations.AccessTraps
  intro s o hr _ va trap
  have htrap (k : AccessKind) (r : Reason) : accessTrap va k r = trap k r := accessTrap_eq va k r
  have htable (sz : StoreSize) (pa : Nat) (e : TlbEntry) := htrap .write .notPermitted ▸ tableWriteTrap_eq sz va (s.me.greg o.gb) pa e
  refine ⟨fun sz => ⟨?_, ?_, ?_, ?_, exec_ld_order hr, exec_lda_order hr⟩,
    fun sz => ⟨?_, ?_, ?_, fun ho => ⟨?_, ?_, ?_⟩, exec_st_order hr, exec_stl_order hr⟩⟩
  · exact fun ho ha => exec_ld_trap hr ho (loadW_misaligned ha)
  · exact fun ho ha r hl => htrap .read r ▸ exec_ld_trap hr ho (loadW_unreached ha hl)
  · exact fun ho ha => exec_lda_trap hr ho (loadW_misaligned ha)
  · exact fun ho ha r hl => htrap .read r ▸ exec_lda_trap hr ho (loadW_unreached ha hl)
  · exact fun ho ha => exec_st_trap hr ho (storeSt_misaligned ha)
  · exact fun ho ha r hl => htrap .write r ▸ exec_st_trap hr ho (storeSt_unreached ha hl)
  · exact fun ho ha pa e u hl htw => htable sz pa e ▸ exec_st_trap hr ho (storeSt_tablePage ha hl htw)
  · exact fun ha => exec_stl_trap hr ho (storeSt_misaligned ha)
  · exact fun ha r hl => htrap .write r ▸ exec_stl_trap hr ho (storeSt_unreached ha hl)
  · exact fun ha pa e u hl htw => htable sz pa e ▸ exec_stl_trap hr ho (storeSt_tablePage ha hl htw)

end Sys2Proof.Machine

/-! SUPPORT. The list of hives (R59): what a hive reads after an update of it or of another one, and updates of several hives in a
row. -/

namespace Sys2Proof.Machine

section
variable {s : State} {f : Hive → Hive}

/-- An update that keeps numbers touches the hive it names alone. -/
theorem State.findHive_modHive (n h : Nat) (hf : ∀ x, (f x).id = x.id) :
    (s.modHive n f).findHive h = if h = n then (s.findHive n).map f else s.findHive h := by
  have hp : (fun x : Hive => x.id == h) ∘ (fun x => if x.id == n then f x else x) = fun x => x.id == h := by
    funext x
    by_cases hx : x.id = n <;> simp [hx, hf]
  rw [State.findHive, State.modHive, List.find?_map, hp]
  by_cases hn : h = n
  · subst hn
    rw [if_pos rfl, ← State.findHive]
    cases hs : s.findHive h with
    | none => rfl
    | some x =>
      have hx : x.id = h := by simpa using List.find?_some hs
      simp [hx]
  · rw [if_neg hn, ← State.findHive]
    cases hs : s.findHive h with
    | none => rfl
    | some x =>
      have hx : x.id = h := by simpa using List.find?_some hs
      simp [hx, hn]

theorem State.hive_modHive_other {n h : Nat} (hn : h ≠ n) (hf : ∀ x, (f x).id = x.id) :
    (s.modHive n f).hive h = s.hive h := by
  rw [State.hive, State.findHive_modHive _ _ hf, if_neg hn, State.hive]

theorem State.hive_modHive_self {n : Nat} (hs : (s.findHive n).isSome = true) (hf : ∀ x, (f x).id = x.id) :
    (s.modHive n f).hive n = f (s.hive n) := by
  obtain ⟨x, hx⟩ := Option.isSome_iff_exists.mp hs
  rw [State.hive, State.findHive_modHive _ _ hf, if_pos rfl, State.hive, hx]
  rfl

theorem State.findHive_modHive_isSome (n h : Nat) (hf : ∀ x, (f x).id = x.id) :
    ((s.modHive n f).findHive h).isSome = (s.findHive h).isSome := by
  rw [State.findHive_modHive _ _ hf]
  split
  · subst h; exact Option.isSome_map ..
  · rfl

/-- The number of a live hive. -/
theorem State.id_of_findHive {h : Nat} {x : Hive} (hx : s.findHive h = some x) : x.id = h := by
  simpa using List.find?_some hx

theorem State.hive_of_findHive {h : Nat} {x : Hive} (hx : s.findHive h = some x) : s.hive h = x := by
  rw [State.hive, hx]
  rfl

theorem State.mem_of_findHive {h : Nat} {x : Hive} (hx : s.findHive h = some x) : x ∈ s.hives := List.mem_of_find?_eq_some hx

/-- Where a HIVEID names one hive, a live hive is what its number finds. -/
theorem State.findHive_of_mem (hn : (s.hives.map (fun h => h.id)).Nodup) {x : Hive} (hx : x ∈ s.hives) : s.findHive x.id = some x := by
  obtain ⟨y, hy⟩ := Option.isSome_iff_exists.mp
    (show (s.findHive x.id).isSome = true from List.find?_isSome.mpr ⟨x, hx, by simp⟩)
  rw [hy, List.inj_on_of_nodup_map hn (State.mem_of_findHive hy) hx (State.id_of_findHive hy)]

theorem State.hive_of_mem (hn : (s.hives.map (fun h => h.id)).Nodup) {x : Hive} (hx : x ∈ s.hives) : s.hive x.id = x :=
  State.hive_of_findHive (State.findHive_of_mem hn hx)

end

/-! ## One update for each hive of a list -/

section
variable {g : Hive → Hive → Hive} (hg : ∀ h x, (g h x).id = x.id)
include hg

theorem foldl_modHive_other (l : List Hive) (s : State) {n : Nat} (hn : ∀ h ∈ l, h.id ≠ n) :
    (l.foldl (fun s h => s.modHive h.id (g h)) s).findHive n = s.findHive n := by
  induction l generalizing s with
  | nil => rfl
  | cons h l ih =>
    rw [List.foldl_cons, ih _ (fun x hx => hn x (List.mem_cons_of_mem _ hx)), State.findHive_modHive _ _ (hg h),
      if_neg (hn h List.mem_cons_self).symm]

theorem foldl_modHive_self {l : List Hive} (s : State) (hl : (l.map (fun h => h.id)).Nodup) {x : Hive} (hx : x ∈ l) :
    (l.foldl (fun s h => s.modHive h.id (g h)) s).findHive x.id = (s.findHive x.id).map (g x) := by
  induction l generalizing s with
  | nil => exact absurd hx List.not_mem_nil
  | cons h l ih =>
    rw [List.map_cons, List.nodup_cons] at hl
    rw [List.foldl_cons]
    have hne (y : Hive) (hy : y ∈ l) : y.id ≠ h.id := fun he => hl.1 (he ▸ List.mem_map_of_mem hy)
    rcases List.mem_cons.mp hx with rfl | hx
    · rw [foldl_modHive_other hg l _ hne, State.findHive_modHive _ _ (hg x), if_pos rfl]
    · rw [ih _ hl.2 hx, State.findHive_modHive _ _ (hg h), if_neg (hne x hx)]

end

end Sys2Proof.Machine

/-! SUPPORT. The walker of a die (R12, R114): the walks in progress, each counted once, stay within 64. -/

namespace Sys2Proof.Machine

/-- What two requests must share for one walk to serve both. -/
def Walk.key (w : Walk) : Nat × Nat × Nat × Nat := (w.die, w.hive, w.gen, w.va)

theorem sameWalk_iff (a b : Walk) : sameWalk a b = true ↔ a.key = b.key := by
  simp only [sameWalk, Walk.key, Bool.and_eq_true, beq_iff_eq, Prod.mk.injEq, and_assoc]

theorem any_sameWalk_iff (l : List Walk) (w : Walk) : l.any (sameWalk w) = true ↔ w.key ∈ l.map Walk.key := by
  rw [List.any_eq_true, List.mem_map]
  exact exists_congr fun x => and_congr_right fun _ => (sameWalk_iff w x).trans eq_comm

theorem pairwise_sameWalk_iff (l : List Walk) : l.Pairwise (fun a b => sameWalk a b = false) ↔ (l.map Walk.key).Nodup := by
  rw [List.Nodup, List.pairwise_map]
  simp only [ne_eq, ← sameWalk_iff, Bool.not_eq_true]

/-- One request of a walk in progress, where the list has none of that walk. -/
def joinWalk (l : List Walk) (w : Walk) : List Walk := if l.any (sameWalk w) then l else l ++ [w]

/-- The walks of a die in progress, each once. -/
def busyWalks (s : State) (die : Nat) : List Walk := (s.walks.filter (fun w => w.die == die && w.begun)).foldl joinWalk []

/-- One request of the list as the walker of a die goes through it, with the walks in progress so far. -/
def admitWalk (s : State) (die : Nat) (acc : List Walk × List Walk) (w : Walk) : List Walk × List Walk :=
  if w.die ≠ die ∨ w.begun then (acc.1 ++ [w], acc.2)
  else
    let b := { w with gen := (s.hive w.hive).gen, begun := true }
    if acc.2.any (sameWalk b) then (acc.1 ++ [b], acc.2)
    else if acc.2.length < walkLimit then (acc.1 ++ [b], acc.2 ++ [b])
    else (acc.1 ++ [w], acc.2)

theorem startWalks_walks (s : State) (die : Nat) :
    (startWalks s die).walks = (s.walks.foldl (admitWalk s die) ([], busyWalks s die)).1 := rfl

theorem joinWalk_keys (l : List Walk) (w : Walk) :
    (∀ k, k ∈ (joinWalk l w).map Walk.key ↔ k ∈ l.map Walk.key ∨ k = w.key) ∧
      ((l.map Walk.key).Nodup → ((joinWalk l w).map Walk.key).Nodup) ∧ ∀ x ∈ joinWalk l w, x ∈ l ∨ x = w := by
  unfold joinWalk
  split
  next h =>
    rw [any_sameWalk_iff] at h
    exact ⟨fun k => ⟨.inl, fun hk => hk.elim id (fun e => e ▸ h)⟩, id, fun x => .inl⟩
  next h =>
    rw [any_sameWalk_iff] at h
    refine ⟨fun k => by simp, fun hl => ?_, fun x hx => by simpa using hx⟩
    rw [List.map_append, List.nodup_append]
    exact ⟨hl, by simp, fun a ha b hb he => h (by simpa [← (show b = w.key by simpa using hb), ← he] using ha)⟩

theorem foldl_joinWalk_keys (ws l : List Walk) :
    (∀ w, w ∈ ws ∨ w ∈ l → w.key ∈ (ws.foldl joinWalk l).map Walk.key) ∧
      ((l.map Walk.key).Nodup → ((ws.foldl joinWalk l).map Walk.key).Nodup) ∧ ∀ x ∈ ws.foldl joinWalk l, x ∈ l ∨ x ∈ ws := by
  induction ws generalizing l with
  | nil => exact ⟨fun w hw => List.mem_map_of_mem (hw.resolve_left List.not_mem_nil), id, fun x => .inl⟩
  | cons v ws ih =>
    obtain ⟨hk, hn, hm⟩ := ih (joinWalk l v)
    obtain ⟨jk, jn, jm⟩ := joinWalk_keys l v
    refine ⟨fun w hw => ?_, fun h => hn (jn h), fun x hx => ?_⟩
    · have hkey : w ∈ ws ∨ w.key ∈ (joinWalk l v).map Walk.key := by
        rcases hw with hw | hw
        · exact (List.mem_cons.mp hw).elim (fun e => .inr ((jk _).mpr (.inr (e ▸ rfl)))) .inl
        · exact .inr ((jk _).mpr (.inl (List.mem_map_of_mem hw)))
      rcases hkey with hw | hw
      · exact hk w (.inl hw)
      · obtain ⟨y, hy, he⟩ := List.mem_map.mp hw
        exact he ▸ hk y (.inr hy)
    · rcases hm x hx with h | h
      · exact (jm x h).imp_right (fun e => by simp [e])
      · exact .inr (List.mem_cons_of_mem _ h)

/-- The walks in progress of a die are all among those counted, of which there are at most 64. -/
def Counted (die : Nat) (acc : List Walk × List Walk) : Prop :=
  (∀ w ∈ acc.1, w.die = die → w.begun = true → w.key ∈ acc.2.map Walk.key) ∧ acc.2.length ≤ walkLimit

theorem admitWalk_counted {s : State} {die : Nat} {acc : List Walk × List Walk} {w : Walk} (h : Counted die acc)
    (hw : w.die = die → w.begun = true → w.key ∈ acc.2.map Walk.key) :
    Counted die (admitWalk s die acc w) ∧ ∀ k ∈ acc.2.map Walk.key, k ∈ (admitWalk s die acc w).2.map Walk.key := by
  obtain ⟨hall, hlen⟩ := h
  unfold admitWalk
  split
  next hold =>
    refine ⟨⟨fun x hx hd hb => ?_, hlen⟩, fun k hk => hk⟩
    rcases List.mem_append.mp hx with hx | hx
    · exact hall x hx hd hb
    · obtain rfl := List.mem_singleton.mp hx
      exact hw hd hb
  next hnew =>
    dsimp only
    split
    next hjoin =>
      refine ⟨⟨fun x hx hd hb => ?_, hlen⟩, fun k hk => hk⟩
      rcases List.mem_append.mp hx with hx | hx
      · exact hall x hx hd hb
      · obtain rfl := List.mem_singleton.mp hx
        exact (any_sameWalk_iff _ _).mp hjoin
    next =>
      split
      next hroom =>
        refine ⟨⟨fun x hx hd hb => ?_, by simpa using hroom⟩, fun k hk => by simp [List.mem_map.mp hk]⟩
        rw [List.map_append, List.mem_append]
        rcases List.mem_append.mp hx with hx | hx
        · exact .inl (hall x hx hd hb)
        · obtain rfl := List.mem_singleton.mp hx
          exact .inr List.mem_cons_self
      next =>
        refine ⟨⟨fun x hx hd hb => ?_, hlen⟩, fun k hk => hk⟩
        rcases List.mem_append.mp hx with hx | hx
        · exact hall x hx hd hb
        · obtain rfl := List.mem_singleton.mp hx
          exact absurd (.inr hb) hnew

theorem foldl_admitWalk_counted {s : State} {die : Nat} (ws : List Walk) {acc : List Walk × List Walk} (h : Counted die acc)
    (hw : ∀ w ∈ ws, w.die = die → w.begun = true → w.key ∈ acc.2.map Walk.key) : Counted die (ws.foldl (admitWalk s die) acc) := by
  induction ws generalizing acc with
  | nil => exact h
  | cons v ws ih =>
    obtain ⟨hc, hk⟩ := admitWalk_counted (s := s) h (hw v List.mem_cons_self)
    exact ih hc (fun w hm hd hb => hk _ (hw w (List.mem_cons_of_mem _ hm) hd hb))

theorem busyWalks_bounded {s : State} {die : Nat} (h : WalksBounded s die) : (busyWalks s die).length ≤ walkLimit := by
  obtain ⟨-, hn, hm⟩ := foldl_joinWalk_keys (s.walks.filter (fun w => w.die == die && w.begun)) []
  refine h _ ((pairwise_sameWalk_iff _).mpr (hn List.nodup_nil)) (fun w hw => ?_)
  simpa using (hm w hw).resolve_left List.not_mem_nil

/-- The walker never performs more than 64 walks at once (R12, R114). -/
theorem startWalks_bounded {s : State} {die : Nat} (h : WalksBounded s die) : WalksBounded (startWalks s die) die := by
  have hin (w : Walk) (hw : w ∈ s.walks) (hd : w.die = die) (hb : w.begun = true) : w.key ∈ (busyWalks s die).map Walk.key :=
    (foldl_joinWalk_keys _ []).1 w (.inl (List.mem_filter.mpr ⟨hw, by simp [hd, hb]⟩))
  obtain ⟨hall, hlen⟩ := foldl_admitWalk_counted (s := s) s.walks (acc := ([], busyWalks s die))
    ⟨fun w hw => absurd hw List.not_mem_nil, busyWalks_bounded h⟩ hin
  intro l hl hb
  have hsub : l.map Walk.key ⊆ (s.walks.foldl (admitWalk s die) ([], busyWalks s die)).2.map Walk.key := by
    intro k hk
    obtain ⟨w, hw, rfl⟩ := List.mem_map.mp hk
    obtain ⟨hmem, hd, hbegun⟩ := hb w hw
    exact hall w (startWalks_walks s die ▸ hmem) hd hbegun
  have hle := (((pairwise_sameWalk_iff l).mp hl).subperm hsub).length_le
  simp only [List.length_map] at hle
  exact hle.trans hlen

/-! ## PAGE_WALK_COMPLETE -/

section
variable {s : State} {die : Nat} {w : Walk}

theorem exec_pageWalkComplete_idle (h : s.walks.find? (fun w => w.die == die && w.begun) = none) :
    exec (.pageWalkComplete die) s = .next (startWalks s die) := by
  change execPageWalkComplete die s = _
  rw [execPageWalkComplete, h]

variable (h : s.walks.find? (fun w => w.die == die && w.begun) = some w)
include h

theorem exec_pageWalkComplete_stale (hg : w.gen ≠ (s.hive w.hive).gen) : exec (.pageWalkComplete die) s =
    .next (startWalks { s with
      walks := (s.walks.filter (fun y => y.begun && sameWalk w y)).map (fun y => { y with begun := false }) ++
        s.walks.filter (fun y => !(y.begun && sameWalk w y)) } die) := by
  change execPageWalkComplete die s = _
  rw [execPageWalkComplete, h]
  simp only [if_pos hg]

theorem exec_pageWalkComplete_current (hg : w.gen = (s.hive w.hive).gen) : exec (.pageWalkComplete die) s =
    .next (startWalks (match walk s (s.hive w.hive) w.va with
      | .leaf e => (s.walks.filter (fun y => y.begun && sameWalk w y)).foldl (fun s x => s.modStrand x.strand (keepLook x e))
          { s with walks := s.walks.filter (fun y => !(y.begun && sameWalk w y)) }
      | .fail _ => { s with walks := s.walks.filter (fun y => !(y.begun && sameWalk w y)) }) die) := by
  change execPageWalkComplete die s = _
  rw [execPageWalkComplete, h]
  simp only [if_neg (fun x : w.gen ≠ _ => x hg)]
  rfl

end

theorem Strand.stream_setStream_self (t : Strand) (k : BitVec 4) (x : Stream) : (t.setStream k x).stream k = x := by
  simp [Strand.stream, Strand.setStream]

theorem keepLook_look {w : Walk} {e : TlbEntry} {t : Strand} (hb : (t.stream (BitVec.ofNat 4 w.stream)).bound = true)
    (hh : t.hive = w.hive) : ((keepLook w e t).stream (BitVec.ofNat 4 w.stream)).look =
      (e :: (t.stream (BitVec.ofNat 4 w.stream)).look).filter
        (fun y => (t.stream (BitVec.ofNat 4 w.stream)).reach.any (fun p => y.covers e.hive e.gen (p * 65536))) := by
  rw [keepLook, if_pos (by simp [hb, hh]), Strand.stream_setStream_self]

/-! ## Buckets -/

theorem Hive.bucket_mod (k : Hive) {i : Nat} (f : Bucket → Bucket) (hi : i < k.buckets.length) :
    Hive.bucket { k with buckets := modAt k.buckets i f } i = f (k.bucket i) := by
  simp [Hive.bucket, modAt, List.getD_eq_getElem?_getD, hi]

theorem Hive.bucket_mod_of_own (k : Hive) {i : Nat} (f : Bucket → Bucket) (ho : (k.bucket i).own = true) :
    Hive.bucket { k with buckets := modAt k.buckets i f } i = f (k.bucket i) := by
  refine Hive.bucket_mod k f (Nat.lt_of_not_le fun hi => ?_)
  rw [Hive.bucket, List.getD_eq_default _ _ hi] at ho
  exact Bool.false_ne_true ho

section
variable {s : State} {h n i : Nat} {f : Bucket → Bucket}

theorem State.bucket_modBucket_self (hs : (s.findHive h).isSome = true) (hi : i < (s.hive h).buckets.length) :
    ((s.modBucket h i f).hive h).bucket i = f ((s.hive h).bucket i) := by
  rw [State.modBucket, State.hive_modHive_self hs fun _ => by rfl, Hive.bucket_mod _ _ hi]

theorem State.hive_modBucket_other (hn : n ≠ h) : (s.modBucket h i f).hive n = s.hive n :=
  State.hive_modHive_other hn (by exact fun _ => rfl)

theorem State.findHive_modBucket_isSome : ((s.modBucket h i f).findHive n).isSome = (s.findHive n).isSome :=
  State.findHive_modHive_isSome h n (by exact fun _ => rfl)

theorem State.buckets_length_modBucket (hs : (s.findHive h).isSome = true) :
    ((s.modBucket h i f).hive h).buckets.length = (s.hive h).buckets.length := by
  rw [State.modBucket, State.hive_modHive_self hs fun _ => by rfl]
  exact List.length_modify f _ _

end

/-- What the rate of a remainder bucket is made of (R86). -/
def rateView (s : State) (i : Nat) : List (Nat × Nat × Bool) :=
  s.hives.map (fun k => (k.parent, (k.bucket i).rate, (k.bucket i).own))

theorem remainderRate_of_rateView {s t : State} {i : Nat} (hv : rateView t i = rateView s i) (h : Hive) :
    remainderRate t h i = remainderRate s h i := by
  have hr (u : State) : remainderRate u h i =
      (h.bucket i).rate - (((rateView u i).filter (fun p => p.1 == h.id && p.2.2)).map (fun p => p.2.1)).sum := by
    rw [remainderRate, childrenOf, rateView, List.filter_map, List.map_map, List.filter_filter]
    congr 3
    exact List.filter_congr fun k _ => Bool.and_comm ..
  rw [hr t, hr s, hv]

/-- A bucket of a hive counted on by n, up to 16 BURST (R87). -/
def Bucket.refill (b : Bucket) (n : Nat) : Bucket := Bucket.cut { b with tokens := b.tokens + n }

theorem rateView_modBucket {s : State} {h i : Nat} {f : Bucket → Bucket}
    (hf : ∀ b, (f b).rate = b.rate ∧ (f b).own = b.own) : rateView (s.modBucket h i f) i = rateView s i := by
  rw [rateView, State.modBucket, State.modHive, List.map_map, rateView]
  refine List.map_congr_left fun k _ => ?_
  rw [Function.comp]
  split
  · by_cases hi : i < k.buckets.length
    · rw [Hive.bucket_mod _ _ hi, (hf _).1, (hf _).2]
    · simp [Hive.bucket, modAt, List.getD_eq_getElem?_getD, Nat.le_of_not_lt hi]
  · rfl

/-- The rates that a cycle of a slice adds are those that it began with. -/
theorem foldl_refill (i : Nat) (l : List Hive) (s u : State) (hv : rateView u i = rateView s i) :
    l.foldl (fun s h => s.modBucket h.id i (fun b => b.refill (remainderRate s h i))) u =
      l.foldl (fun u h => u.modBucket h.id i (fun b => b.refill (remainderRate s h i))) u := by
  induction l generalizing u with
  | nil => rfl
  | cons h l ih =>
    rw [List.foldl_cons, List.foldl_cons, remainderRate_of_rateView hv]
    exact ih _ ((rateView_modBucket (by exact fun b => ⟨rfl, rfl⟩)).trans hv)

/-- The hives that a cycle of a slice refills (R86). -/
def refilled (s : State) (slice : Nat) : List Hive := s.hives.filter (fun h => h.part == slice / 4 && (h.bucket (slice % 4)).own)

theorem exec_bucketRefill_eq (s : State) (slice : Nat) : exec (.bucketRefill slice) s =
    .next ((refilled s slice).foldl (fun u h => u.modHive h.id (fun k =>
      { k with buckets := modAt k.buckets (slice % 4) (fun b => b.refill (remainderRate s h (slice % 4))) })) s) :=
  congrArg Host.Outcome.next (foldl_refill (slice % 4) (refilled s slice) s s rfl)

/-! ## L1_DIRTY_TIMEOUT -/

theorem dirtyDue_of {s : State} {core line : Nat} {l : L1Line} (h : (s.core core).line line = some l) :
    dirtyDue s core line = if l.dirty ≠ 0 ∧ l.since + 65536 ≤ (s.core core).cycles.toNat then some l else none := by
  rw [dirtyDue, h, Option.filter_some]
  by_cases h0 : l.dirty = 0 <;> by_cases h1 : l.since + 65536 ≤ (s.core core).cycles.toNat <;> simp [dirtyLimit, h0, h1]

theorem exec_l1DirtyTimeout_due {s : State} {core line : Nat} {l : L1Line} (h : dirtyDue s core line = some l) :
    exec (.l1DirtyTimeout core line) s = .next ((writeBack s l.hive l).modCore core (fun c => { c with
      l1 := c.l1.map (fun x => if x.line == line then { x with dirty := 0 } else x) })) := by
  change execL1DirtyTimeout core line s = _
  rw [execL1DirtyTimeout, h]

theorem exec_l1DirtyTimeout_idle {s : State} {core line : Nat} (h : dirtyDue s core line = none) :
    exec (.l1DirtyTimeout core line) s = .next s := by
  change execL1DirtyTimeout core line s = _
  rw [execL1DirtyTimeout, h]

theorem writeBack_core (s : State) (hive : Nat) (l : L1Line) (c : Nat) : (writeBack s hive l).core c = s.core c := by
  obtain ⟨m, q, h⟩ := writeBack_eq s hive l
  rw [h]
  rfl

/-- The line that a core holds after one of its lines was made clean. -/
theorem Core.line_clean {c : Core} {line : Nat} {l : L1Line} (h : c.line line = some l) :
    Core.line { c with l1 := c.l1.map (fun x => if x.line == line then { x with dirty := 0 } else x) } line =
      some { l with dirty := 0 } := by
  have hp : (fun x : L1Line => x.line == line) ∘ (fun x => if x.line == line then { x with dirty := 0 } else x) =
      fun x => x.line == line := by
    funext x
    by_cases hx : x.line = line <;> simp [hx]
  have hl : l.line = line := by simpa using List.find?_some (show c.l1.find? (fun x => x.line == line) = some l from h)
  rw [Core.line] at h ⊢
  rw [List.find?_map, hp, h]
  simp [hl]

/-! ## The clauses -/

theorem pageWalkComplete_leaf {s : State} {die : Nat} {w : Walk} {e : TlbEntry}
    (h : s.walks.find? (fun w => w.die == die && w.begun) = some w) (hg : w.gen = (s.hive w.hive).gen)
    (he : walk s (s.hive w.hive) w.va = .leaf e) (hw : w.strand < s.strands.length)
    (hj : s.walks.filter (fun y => y.begun && sameWalk w y) = [w])
    (hb : ((s.strand w.strand).stream (BitVec.ofNat 4 w.stream)).bound = true) (hh : (s.strand w.strand).hive = w.hive) :
    ∃ t, exec (.pageWalkComplete die) s = .next t ∧ t.mem = s.mem ∧ t.cores = s.cores ∧
      ((t.strand w.strand).stream (BitVec.ofNat 4 w.stream)).look =
        (e :: ((s.strand w.strand).stream (BitVec.ofNat 4 w.stream)).look).filter
          (fun y => ((s.strand w.strand).stream (BitVec.ofNat 4 w.stream)).reach.any (fun p => y.covers e.hive e.gen (p * 65536))) ∧
      ∀ k, k ≠ w.strand → t.strand k = s.strand k := by
  refine ⟨_, exec_pageWalkComplete_current h hg, ?_⟩
  rw [he, hj]
  refine ⟨rfl, rfl, ?_, fun k hk => State.strand_mod_other _ _ _ _ hk⟩
  rw [← keepLook_look hb hh]
  exact congrArg (fun t : Strand => (t.stream (BitVec.ofNat 4 w.stream)).look) (State.strand_mod_self _ _ _ hw)

theorem llcRequestAdmit_none {s : State} {slice : Nat} (h : admissible s slice = none) :
    exec (.llcRequestAdmit slice) s = .next s := by
  change execLlcRequestAdmit slice s = _
  rw [execLlcRequestAdmit, h]

theorem llcRequestAdmit_some {s : State} {slice c : Nat} {r : LlcReq} {borrow : Bool} (h : admissible s slice = some r)
    (ha : admits s r = some (c, borrow)) : exec (.llcRequestAdmit slice) s =
      .next ((State.modBucket { s with llc := s.llc.erase r } c (slice % 4)
        (fun b => { b with tokens := b.tokens - (16 * r.bytes : Nat) })).modBucket r.hive (slice % 4) (fun b => { b with
          llcBytes := b.llcBytes + BitVec.ofNat 64 r.bytes
          borrowed := if borrow then b.borrowed + BitVec.ofNat 64 r.bytes else b.borrowed })) := by
  change execLlcRequestAdmit slice s = _
  rw [execLlcRequestAdmit, h]
  simp only [ha]

/-- A request is admitted only by a bucket that holds tokens (R87, R88). -/
theorem tokens_of_admits {s : State} {c : Nat} {r : LlcReq} {borrow : Bool} (ha : admits s r = some (c, borrow)) :
    0 < ((s.hive c).bucket (r.slice % 4)).tokens := by
  unfold admits at ha
  simp only [] at ha
  split at ha
  next h0 =>
    obtain ⟨rfl, -⟩ := Prod.mk.inj (Option.some.inj ha)
    exact h0
  next =>
    split at ha
    · exact absurd ha (by simp)
    · split at ha
      next p hp =>
        split at ha
        next h1 =>
          obtain ⟨rfl, -⟩ := Prod.mk.inj (Option.some.inj ha)
          exact h1
        next => exact absurd ha (by simp)
      next => exact absurd ha (by simp)

theorem slice_of_admissible {s : State} {slice : Nat} {r : LlcReq} (h : admissible s slice = some r) : r.slice = slice := by
  have hp := List.find?_some h
  simp only [Bool.and_eq_true, beq_iff_eq] at hp
  exact hp.1

/-- Where the hive that is charged is the one that asks, its bucket has both changes; else each has its own. -/
theorem State.modBucket_modBucket_bucket {s : State} {c h i : Nat} {f g : Bucket → Bucket} (hc : (s.findHive c).isSome = true)
    (hh : (s.findHive h).isSome = true) (lc : i < (s.hive c).buckets.length) (lh : i < (s.hive h).buckets.length) :
    (((s.modBucket c i f).modBucket h i g).hive h).bucket i =
        g (if h = c then f ((s.hive h).bucket i) else (s.hive h).bucket i) ∧
      (((s.modBucket c i f).modBucket h i g).hive c).bucket i =
        if h = c then g (f ((s.hive c).bucket i)) else f ((s.hive c).bucket i) := by
  have hs : ((s.modBucket c i f).findHive h).isSome = true := State.findHive_modBucket_isSome.trans hh
  by_cases he : h = c
  · subst he
    have hl : i < ((s.modBucket h i f).hive h).buckets.length := (State.buckets_length_modBucket hh).symm ▸ lh
    rw [if_pos rfl, if_pos rfl, State.bucket_modBucket_self hs hl, State.bucket_modBucket_self hh lh]
    exact ⟨rfl, rfl⟩
  · have hl : i < ((s.modBucket c i f).hive h).buckets.length := (State.hive_modBucket_other he).symm ▸ lh
    rw [if_neg he, if_neg he, State.bucket_modBucket_self hs hl, State.hive_modBucket_other he,
      State.hive_modBucket_other (Ne.symm he), State.bucket_modBucket_self hc lc]
    exact ⟨rfl, rfl⟩

theorem foldl_refilled_frame (g : Hive → Hive → Hive) (l : List Hive) (s : State) :
    (l.foldl (fun u h => u.modHive h.id (g h)) s).strands = s.strands ∧ (l.foldl (fun u h => u.modHive h.id (g h)) s).mem = s.mem := by
  induction l generalizing s with
  | nil => exact ⟨rfl, rfl⟩
  | cons h l ih => exact ih _

/-- Settles O56: walks, admission, refill and time-out, each event by its own cases. -/
theorem memoryEvents : Obligations.MemoryEvents := by
  refine ⟨fun s die => ⟨rfl, startWalks_bounded, exec_pageWalkComplete_idle, fun w hw => ⟨exec_pageWalkComplete_stale hw,
    fun f hg hf => ?_, fun e hg he hk hj hb hh => pageWalkComplete_leaf hw hg he hk hj hb hh⟩⟩, ?_, ?_, ?_⟩
  · rw [exec_pageWalkComplete_current hw hg, hf]
  · refine fun s slice => ⟨llcRequestAdmit_none, fun r c borrow hr ha => ?_⟩
    have hi : r.slice % 4 = slice % 4 := by rw [slice_of_admissible hr]
    refine ⟨hi ▸ tokens_of_admits ha, fun hc hh lc lh => ⟨_, llcRequestAdmit_some hr ha, rfl, rfl, rfl, ?_⟩⟩
    obtain ⟨hself, hcharged⟩ := State.modBucket_modBucket_bucket (s := { s with llc := s.llc.erase r })
      (f := fun b => { b with tokens := b.tokens - (16 * r.bytes : Nat) })
      (g := fun b => { b with llcBytes := b.llcBytes + BitVec.ofNat 64 r.bytes
                              borrowed := if borrow then b.borrowed + BitVec.ofNat 64 r.bytes else b.borrowed })
      hc hh lc lh
    rw [hself, hcharged]
    refine ⟨?_, ?_, ?_⟩
    · split <;> simp <;> rfl
    · split <;> rfl
    · split <;> rfl
  · intro s slice hn
    refine ⟨_, exec_bucketRefill_eq s slice, (foldl_refilled_frame _ _ s).1, (foldl_refilled_frame _ _ s).2, fun h hh => ?_⟩
    have hfind := State.findHive_of_mem hn hh
    have hsub : ((refilled s slice).map (fun h => h.id)).Nodup := hn.sublist (List.filter_sublist.map _)
    by_cases hr : h.part = slice / 4 ∧ (h.bucket (slice % 4)).own = true
    · rw [if_pos hr, State.hive, foldl_modHive_self (fun _ _ => by rfl) s hsub (List.mem_filter.mpr ⟨hh, by simp [hr]⟩), hfind]
      exact Hive.bucket_mod_of_own h _ hr.2
    · rw [if_neg hr, State.hive, foldl_modHive_other (fun _ _ => by rfl) _ s (fun x hx he => hr ?_), hfind]
      · rfl
      · obtain ⟨hx, hp⟩ := List.mem_filter.mp hx
        rw [List.inj_on_of_nodup_map hn hx hh he] at hp
        simpa using hp
  · refine fun s core line hc => ⟨fun l hl h0 h1 => ?_, fun l hl h => exec_l1DirtyTimeout_idle ?_⟩
    · have hw : core < (writeBack s l.hive l).cores.length := by
        obtain ⟨m, q, h⟩ := writeBack_eq s l.hive l
        exact h ▸ hc
      refine ⟨_, exec_l1DirtyTimeout_due ((dirtyDue_of hl).trans (if_pos ⟨h0, h1⟩)), ?_, ?_, fun a => ?_⟩
      · obtain ⟨m, q, h⟩ := writeBack_eq s l.hive l
        rw [h]
        rfl
      · rw [State.core_mod, if_pos ⟨rfl, hw⟩, writeBack_core]
        exact Core.line_clean hl
      · have hline : l.line = line := by
          simpa using List.find?_some (show (s.core core).l1.find? (fun x => x.line == line) = some l from hl)
        refine (congrArg (fun m => Mem.get m a) (writeBack_mem s l.hive l)).trans ((get_putDirty s.mem l a).trans ?_)
        simp only [hline, eq_comm]
    · rw [dirtyDue_of hl, if_neg (fun x => h.elim x.1 (Nat.not_lt.mpr x.2))]

end Sys2Proof.Machine

/-! SUPPORT. The checks of hive instructions (R69): what each one comes to where it holds and where it fails. -/

namespace Sys2Proof.Machine

theorem need_of {b : Bool} {t : Trap} (h : b = true) : need b t = .ok () := if_pos h

theorem need_fails {b : Bool} {t : Trap} (h : b = false) : need b t = .error t := if_neg (by simp [h])

theorem error_bind {ε α β : Type} (x : ε) (f : α → Except ε β) : ((Except.error x : Except ε α) >>= f) = .error x := rfl

theorem needLimits_of {i : Instr} {l : List (Word × Bool)} (h : ∀ c ∈ l, c.2 = true) : needLimits i l = .ok () := by
  rw [needLimits, List.find?_eq_none.mpr fun c hc => by simp [h c hc]]

theorem needMapped_of {s : State} {h : Hive} {va n least : Nat}
    (hm : firstUnmapped s h least (n / 65536 + 1) va (va + n) = none) : needMapped s h va n least = .ok () := by
  rw [needMapped, hm]

theorem aligned64_of {a : Word} (h : a.toNat % 64 = 0) : aligned64 a = .ok () := need_of (by simp [h])

theorem aligned64_fails {a : Word} (h : a.toNat % 64 ≠ 0) : aligned64 a = .error ⟨.align, a, 0, 0⟩ := need_fails (by simp [h])

/-- The RATE of a bucket word is its first 2 bytes (Table 3.2). -/
theorem bucketRate_field (r off : Nat) : bucketRate (field r off 8) = field r off 2 := by
  simp only [bucketRate, bits, field, Nat.pow_zero, Nat.div_one]
  exact Nat.mod_mod_of_dvd _ (Nat.pow_dvd_pow 2 (by decide))

/-- The BURST of a bucket word is the next 4 (Table 3.2). -/
theorem bucketBurst_field (r off : Nat) : bucketBurst (field r off 8) = field r (off + 2) 4 := by
  have hd : r / 2 ^ (8 * (off + 2)) = r / 2 ^ (8 * off) / 2 ^ 16 := by
    rw [Nat.div_div_eq_div_mul, ← Nat.pow_add, Nat.mul_add]
  simp only [bucketBurst, bits, field, hd]
  generalize r / 2 ^ (8 * off) = x
  omega

theorem bucketLimits_hold {s : State} {h : Hive} {added r : Nat → Nat}
    (hl : ∀ i < 4, added i ≤ remainderRate s h i ∧ bucketBurst (r i) ≤ (h.bucket i).burst) :
    ∀ c ∈ bucketLimits s h added r, c.2 = true := by
  intro c hc
  obtain ⟨i, hi, hc⟩ := List.mem_flatMap.mp hc
  obtain ⟨hrate, hburst⟩ := hl i (List.mem_range.mp hi)
  rcases List.mem_cons.mp hc with rfl | hc
  · exact decide_eq_true hrate
  · obtain rfl := List.mem_singleton.mp hc
    exact decide_eq_true hburst

/-- A free HIVEID is the least that names no live hive (R59). -/
theorem freeHiveId_least {s : State} {id : Nat} (h : freeHiveId s = some id) :
    1 ≤ id ∧ id ≤ 4096 ∧ s.findHive id = none ∧ ∀ n, 1 ≤ n → n < id → s.findHive n ≠ none := by
  obtain ⟨m, hm, rfl⟩ := Option.map_eq_some_iff.mp h
  obtain ⟨hp, hlt, hleast⟩ := List.find?_range_eq_some.mp hm
  refine ⟨Nat.le_add_left .., List.mem_range.mp hlt, by simpa using hp, fun n h1 hn hnone => ?_⟩
  have hn := hleast (n - 1) (by omega)
  rw [show n - 1 + 1 = n by omega, hnone] at hn
  exact Bool.false_ne_true hn

/-! ## The initial strand of a hive (R69) -/

theorem writeEntry_keepsStrands (s : State) (k kind : Nat) : KeepsStrands s (writeEntry s k kind) := by
  have hf (l : List (Nat × List Byte)) (h : Hive) (base n : Nat) :
      KeepsStrands s { l.foldl (fun s x => poolPut s h (base + x.1) x.2) s with freeCount := n } := by
    obtain ⟨hs, hc, hh⟩ := foldl_keepsStrands (fun u (x : Nat × List Byte) => poolPut_keepsStrands u h (base + x.1) x.2) l s
    exact ⟨hs, hc, hh⟩
  exact hf _ _ _ _

/-- A strand in its launch state, suspended with its state in the first save entry (R69). -/
def Strand.asInitial (t : Strand) (share : Option ShareRef) (p : Suspension) : Strand :=
  { t with status := .suspended, share := share, entry := some 0, fresh := false, susp := some p }

/-- The launch state of a hive's initial strand (R30, R69). -/
def launched (w : State) (id r : Nat) : Strand :=
  freshStrand id (nextStrandIds w 1) (nextGang (w.hive id)) (field r 0x88 8) [field r 0x90 8] (field r 0xB 1) 0 1 8

/-- The strand has its argument in g1, and every other general register is zero (R30). -/
theorem launched_greg (w : State) (id r : Nat) (q : BitVec 5) :
    (launched w id r).greg q = if q = 1 then BitVec.ofNat 64 (field r 0x90 8) else 0 := by
  simp only [launched, freshStrand, Strand.greg]
  by_cases h0 : q = 0
  · subst h0; rfl
  · by_cases h1 : q = 1
    · subst h1; rfl
    · have hn : q.toNat ≠ 1 := fun he => h1 (BitVec.eq_of_toNat_eq he)
      rw [if_neg h0, if_neg h1]
      simp [Vector.getElem_set, Ne.symm hn]

/-- The state in which a hive's initial strand has its save entry and no ticket yet (R69). -/
theorem initialStrand_eq (w : State) (id r : Nat) : ∃ (v : State) (note : TrapRecord) (share : Option ShareRef),
    initialStrand w id r = v.modStrand w.strands.length (fun t =>
      { t with susp := some ⟨.initial, BitVec.ofNat 32 id, (w.hive id).parent, note⟩ }) ∧
    v.strands = w.strands ++ [{ launched w id r with status := .suspended, share := share, entry := some 0, fresh := false }] :=
  ⟨_, _, _, rfl, (writeEntry_keepsStrands _ _ _).strands⟩

/-- HNEW's strand stands after those that are there, suspended, and its ticket is the HIVEID, held by the parent (R69). -/
theorem initialStrand_strands (w : State) (id r : Nat) : ∃ (note : TrapRecord) (share : Option ShareRef),
    (initialStrand w id r).strands =
      w.strands ++ [(launched w id r).asInitial share ⟨.initial, BitVec.ofNat 32 id, (w.hive id).parent, note⟩] := by
  obtain ⟨v, note, share, hi, hv⟩ := initialStrand_eq w id r
  refine ⟨note, share, ?_⟩
  rw [hi, State.modStrand, State.strand, hv]
  simp [Strand.asInitial]

/-- Settles O30: HNEW by its checks in their order, and its strand by what initialStrand adds. -/
theorem hnewMakesAChild : Obligations.HnewMakesAChild := by
  refine ⟨fun s u o r id left out hr hq ht ha hl => ⟨fun off hd => ?_, fun hd hcb hcd hcv hn hdep hfs hbk hsrc hring hm0 hm1 hid => ?_⟩,
    fun w id r => ?_, fun s o hr ha => ?_, fun s o hr ha ht => ?_⟩
  · change execHnew o s = _
    unfold execHnew
    rw [ht]
    refine hiveOp_err hr (quietV_of hq) (aligned64_of ha) ?_
    simp only [hl, ok_bind, hd]
    rfl
  · refine ⟨?_, rfl, rfl, rfl, rfl, freeHiveId_least hid⟩
    have hlimits : ∀ c ∈ [ (BitVec.allOnes 64, decide (u.hives.length < 4096)), (BitVec.allOnes 64 - 1, decide (u.myHive.depth < 8)),
        ((0x0A : Word), decide (field r 0xA 1 ≤ unusedSlots u u.myHive)) ] ++
        bucketLimits u u.myHive (fun k => bucketRate (field r (0xA0 + 8 * k) 8)) (fun k => field r (0xA0 + 8 * k) 8),
        c.2 = true := by
      intro c hc
      rcases List.mem_append.mp hc with hc | hc
      · simp only [List.mem_cons, List.not_mem_nil, or_false] at hc
        rcases hc with rfl | rfl | rfl
        · exact decide_eq_true hn
        · exact decide_eq_true hdep
        · exact decide_eq_true hfs
      · refine bucketLimits_hold (fun i hi => ?_) c hc
        rw [bucketRate_field, bucketBurst_field, show 0xA0 + 8 * i + 2 = 0xA2 + 8 * i by omega]
        exact hbk i hi
    have hcores : (!bit (field r 0 8) 0 || (u.myHive.ring.isHeld &&
        (List.range 12).all (fun p => out.any (fun x => x.2 == ⟨12 * u.myHive.part + p, 0, 16⟩)))) = true := by
      cases hb : bit (field r 0 8) 0 with
      | false => rfl
      | true =>
        obtain ⟨hheld, hall⟩ := hring hb
        rw [hheld]
        refine List.all_eq_true.mpr fun p hp => List.any_eq_true.mpr ?_
        obtain ⟨x, hx, he⟩ := hall p (List.mem_range.mp hp)
        exact ⟨x, hx, by simp [he]⟩
    change execHnew o s = _
    unfold execHnew
    rw [ht]
    refine hiveOp_ok hr (quietV_of hq) (aligned64_of ha) ?_
    simp only [hl, ok_bind, hd, need_of (decide_eq_true hcb), need_of (decide_eq_true hcd), hcv, needLimits_of hlimits, need_of hsrc,
      need_of hcores, needMapped_of hm0, needMapped_of hm1, hid]
    rfl
  · obtain ⟨note, share, hs⟩ := initialStrand_strands w id r
    have hlast (x : Strand) (h : (initialStrand w id r).strands = w.strands ++ [x]) :
        (initialStrand w id r).strand w.strands.length = x := by
      rw [State.strand, h, List.getD_append_right _ _ _ _ (Nat.le_refl _)]
      simp
    dsimp only
    rw [hlast _ hs]
    refine ⟨by rw [hs]; simp, fun k hk => ?_, rfl, rfl, rfl, launched_greg w id r 1,
      fun q hq => (launched_greg w id r q).trans (if_neg hq),
      rfl, rfl, _, rfl, rfl, BitVec.toNat_ofNat .., rfl⟩
    rw [State.strand, hs, List.getD_append _ _ _ _ hk]
    rfl
  · change execHnew o s = _
    unfold execHnew
    exact hiveOp_refused hr (aligned64_fails ha)
  · change execHnew o s = _
    unfold execHnew
    exact hiveOp_waits hr (.inr ht) (aligned64_of ha)

end Sys2Proof.Machine

/-! SUPPORT. What a part of the model keeps of every hive (R59), and the merging of shares that ends a hive operation (R60, R63): it
touches shares and the ring alone. -/

namespace Sys2Proof.Machine

/-- The same hives in the same order, and a reading F of each as it was. -/
def SameHives {α : Type} (F : Hive → α) (s t : State) : Prop :=
  t.hives.map (fun x => (x.id, F x)) = s.hives.map (fun x => (x.id, F x))

section
variable {α : Type} {F : Hive → α} {s t u : State}

namespace SameHives

theorem refl (s : State) : SameHives F s s := rfl

theorem trans (h : SameHives F s t) (g : SameHives F t u) : SameHives F s u := Eq.trans g h

theorem of_hives (h : t.hives = s.hives) : SameHives F s t := by rw [SameHives, h]

theorem modHive {f : Hive → Hive} (s : State) (n : Nat) (hf : ∀ x, (f x).id = x.id ∧ F (f x) = F x) :
    SameHives F s (s.modHive n f) := by
  rw [SameHives, State.modHive, List.map_map]
  refine List.map_congr_left fun x _ => ?_
  rw [Function.comp]
  split
  · rw [(hf x).1, (hf x).2]
  · rfl

theorem foldl {β : Type} {f : State → β → State} (hf : ∀ s x, SameHives F s (f s x)) (l : List β) (s : State) :
    SameHives F s (l.foldl f s) := by
  induction l generalizing s with
  | nil => exact refl s
  | cons x l ih => exact (hf s x).trans (ih _)

/-- A coarser reading. -/
theorem map {β : Type} (h : SameHives F s t) (g : α → β) : SameHives (fun x => g (F x)) s t := by
  have hm := congrArg (List.map (fun p : Nat × α => (p.1, g p.2))) h
  rw [List.map_map, List.map_map] at hm
  exact hm

theorem findHive (h : SameHives F s t) (n : Nat) : (t.findHive n).map F = (s.findHive n).map F := by
  have hp (l : List Hive) : (l.find? (fun x => x.id == n)).map F =
      ((l.map (fun x => (x.id, F x))).find? (fun p => p.1 == n)).map Prod.snd := by
    rw [List.find?_map, Option.map_map]
    rfl
  rw [State.findHive, State.findHive, hp, hp, h]

theorem isSome (h : SameHives F s t) (n : Nat) : (t.findHive n).isSome = (s.findHive n).isSome := by
  rw [← Option.isSome_map (f := F), h.findHive, Option.isSome_map]

theorem hive (h : SameHives F s t) (n : Nat) : F (t.hive n) = F (s.hive n) := by
  have hd (o : Option Hive) : F (o.getD Hive.blank) = (o.map F).getD (F Hive.blank) := (Option.getD_map F ..).symm
  rw [State.hive, State.hive, hd, hd, h.findHive]

theorem ids (h : SameHives F s t) : t.hives.map (fun x => x.id) = s.hives.map (fun x => x.id) := by
  have hm := congrArg (List.map Prod.fst) h
  rw [List.map_map, List.map_map] at hm
  exact hm

end SameHives

/-! ## The merging of shares -/

theorem mergeShares_eq (n : Nat) (s : State) (h : Nat) : mergeShares n s h = { s with hives := (mergeShares n s h).hives } := by
  induction n generalizing s with
  | zero => rfl
  | succ n ih =>
    rw [mergeShares]
    split
    · rw [ih]
      rfl
    · rfl

theorem settleHives_eq (s : State) (hs : List Nat) : settleHives s hs = { s with hives := (settleHives s hs).hives } := by
  have hf : hs.foldl (fun s h => mergeShares (s.hive h).shares.length s h) s =
      { s with hives := (hs.foldl (fun s h => mergeShares (s.hive h).shares.length s h) s).hives } := by
    induction hs generalizing s with
    | nil => rfl
    | cons h hs ih =>
      rw [List.foldl_cons, ih, mergeShares_eq]
  rw [settleHives, hf]

section
variable (hF : ∀ (x : Hive) (sh : List ShareRef) (r : RingHold), F { x with shares := sh, ring := r } = F x)
include hF

theorem mergeShares_sameHives (n : Nat) (s : State) (h : Nat) : SameHives F s (mergeShares n s h) := by
  induction n generalizing s with
  | zero => exact .refl s
  | succ n ih =>
    rw [mergeShares]
    split
    · refine .trans ?_ (ih _)
      exact .modHive s h fun x => ⟨rfl, hF x _ x.ring⟩
    · exact .refl s

theorem settleHives_sameHives (s : State) (hs : List Nat) : SameHives F s (settleHives s hs) := by
  refine .trans (.foldl (f := fun s h => mergeShares (s.hive h).shares.length s h)
    (fun s h => mergeShares_sameHives hF _ s h) hs s) ?_
  rw [settleHives, SameHives, List.map_map]
  refine List.map_congr_left fun k _ => ?_
  rw [Function.comp]
  split
  · exact congrArg (k.id, ·) (hF k k.shares .held)
  · rfl

end

end

/-- An instruction of an extent record that names no direct child of the issuer (R68). -/
theorem extentOp_refused {s : State} {o : GFmt} {kind : Nat} {f : Hive → Nat → State → Except Trap State} (i : Instr)
    (hr : s.runs = true) (hw : s.me.awayHere = none) (hd : ∀ d, s.findHive (s.me.greg o.ga).toNat = some d → d.parent ≠ s.me.hive) :
    extentOp i o kind s f = .next (raise s ⟨.privilege, encode i, 0, 0⟩) := by
  simp only [extentOp, hw]
  exact hiveOp_refused hr (by rw [childOf_refused hd]; rfl)

end Sys2Proof.Machine

/-! SUPPORT. HGIVE (R70, R358), one lemma for each KIND. -/

namespace Sys2Proof.Machine

section
variable {s u : State} {o : GFmt} {d : Hive} {r : Nat} (h : ChildRecord s o d r u)
include h

theorem exec_hgiveShares_ok {left out : List (Nat × ShareRef)} (hok : extentOk r 0 (4 * field r 1 1) = true)
    (hes : ∀ e ∈ extentEntries r, e < 2 ^ 13) (hc : carveShares u.myHive (extentEntries r) = .ok (left, out))
    (hsrc : sourcesIdle u u.myHive out = true) :
    let v := passShares (ringBefore u u.myHive.id (out.map (fun x => x.2))) u.myHive.id d.id left out
    exec (.hgiveShares o) s = .next (settleHives (if u.myHive.ring.isHeld then claimRing v u.myHive.id else v) [u.myHive.id, d.id]).advance := by
  have hall : (extentEntries r).all (fun e => decide (e < 2 ^ 13)) = true :=
    List.all_eq_true.mpr fun e he => decide_eq_true (hes e he)
  intro v
  change execHgiveShares o s = _
  unfold execHgiveShares
  refine extentOp_ok _ h (extentOk_kind hok) ?_
  simp only [hok, hall, Bool.and_self, need_of, ok_bind, hc, hsrc]
  rfl

theorem exec_hgiveRing_ok (hok : extentOk r 1 0 = true) (hheld : u.myHive.ring.isHeld = true) (hcores : holdsCores d = true) :
    exec (.hgiveRing o) s = .next (settleHives ((revokeRing u u.myHive.id).modHive d.id (fun k => { k with ring := .held }))
      [u.myHive.id, d.id]).advance := by
  change execHgiveRing o s = _
  unfold execHgiveRing
  refine extentOp_ok _ h (extentOk_kind hok) ?_
  simp only [hok, hheld, hcores, Bool.and_self, need_of, ok_bind]
  rfl

theorem exec_hgiveRing_refused (hok : extentOk r 1 0 = true) (hno : u.myHive.ring.isHeld = false ∨ holdsCores d = false) :
    exec (.hgiveRing o) s = .next (raise s ⟨.illegalCombo, encode (.hgiveRing o), 0, 0⟩) := by
  have hb : (u.myHive.ring.isHeld && holdsCores d) = false := by
    rcases hno with hn | hn <;> simp [hn]
  change execHgiveRing o s = _
  unfold execHgiveRing
  refine extentOp_err _ h (extentOk_kind hok) ?_
  simp only [hok, need_of, ok_bind, need_fails hb]
  rfl

theorem exec_hgiveFabric_ok (hok : extentOk r 2 1 = true) (hge : d.fslots ≤ field r 8 1)
    (hfit : field r 8 1 - d.fslots ≤ unusedSlots u u.myHive) :
    exec (.hgiveFabricBindings o) s = .next (settleHives (u.modHive d.id (fun k => { k with fslots := field r 8 1 }))
      [u.myHive.id, d.id]).advance := by
  have hl : needLimits (.hgiveFabricBindings o) [(0x0A, decide (field r 8 1 - d.fslots ≤ unusedSlots u u.myHive))] = .ok () :=
    needLimits_of (by simpa using hfit)
  change execHgiveFabricBindings o s = _
  unfold execHgiveFabricBindings
  refine extentOp_ok _ h (extentOk_kind hok) ?_
  simp only [hok, need_of, ok_bind, need_of (decide_eq_true hge), hl]
  rfl

theorem exec_hgiveFabric_refused (hok : extentOk r 2 1 = true)
    (hno : field r 8 1 < d.fslots ∨ unusedSlots u u.myHive < field r 8 1 - d.fslots) :
    exec (.hgiveFabricBindings o) s = .next (raise s ⟨.hiveLimit, encode (.hgiveFabricBindings o), 0, 0x0A⟩) := by
  change execHgiveFabricBindings o s = _
  unfold execHgiveFabricBindings
  refine extentOp_err _ h (extentOk_kind hok) ?_
  by_cases hge : d.fslots ≤ field r 8 1
  · have hn := Nat.not_le.mpr (hno.resolve_left (Nat.not_lt.mpr hge))
    simp only [hok, need_of, ok_bind, need_of (decide_eq_true hge), needLimits, decide_eq_false hn]
    rfl
  · simp only [hok, need_of, ok_bind, need_fails (decide_eq_false hge)]
    rfl

theorem exec_hgiveMemory_ok (hok : extentOk r 3 8 = true) (hge : d.wsize ≤ field r 8 8) (hal : field r 8 8 % 65536 = 0)
    (hpool : d.poolBase + d.poolSize ≤ d.wbase ∨ d.wbase + field r 8 8 ≤ d.poolBase)
    (hm : firstUnmapped u u.myHive 0 ((field r 8 8 - d.wsize) / 65536 + 1) (d.wbase + d.wsize)
      (d.wbase + d.wsize + (field r 8 8 - d.wsize)) = none) :
    exec (.hgiveMemory o) s = .next (settleHives (u.modHive d.id (fun k => { k with wsize := field r 8 8 }))
      [u.myHive.id, d.id]).advance := by
  change execHgiveMemory o s = _
  unfold execHgiveMemory
  refine extentOp_ok _ h (extentOk_kind hok) ?_
  simp only [hok, need_of, ok_bind, need_of (show (decide (d.wsize ≤ field r 8 8) && field r 8 8 % 65536 == 0) = true by simp [hge, hal]),
    need_of (show (decide (d.poolBase + d.poolSize ≤ d.wbase) || decide (d.wbase + field r 8 8 ≤ d.poolBase)) = true by simpa using hpool),
    needMapped_of hm]
  rfl

omit h in
/-- The bytes of a bucket record are four words of 48 bits (Table 3.4). -/
theorem extentWords_ok (hok : extentOk r 4 32 = true) (hw : ∀ i < 4, field r (8 + 8 * i) 8 < 2 ^ 48) :
    (extentOk r 4 32 && (List.range 4).all (fun k => decide (field r (8 + 8 * k) 8 < 2 ^ 48))) = true := by
  rw [hok, Bool.true_and]
  exact List.all_eq_true.mpr fun k hk => decide_eq_true (hw k (List.mem_range.mp hk))

theorem exec_hgiveBuckets_ok (hok : extentOk r 4 32 = true)
    (hw : ∀ i < 4, field r (8 + 8 * i) 8 < 2 ^ 48 ∧ (d.bucket i).rate ≤ bucketRate (field r (8 + 8 * i) 8) ∧
      (d.bucket i).burst ≤ bucketBurst (field r (8 + 8 * i) 8) ∧
      bucketRate (field r (8 + 8 * i) 8) - (if (d.bucket i).own then (d.bucket i).rate else 0) ≤ remainderRate u u.myHive i ∧
      bucketBurst (field r (8 + 8 * i) 8) ≤ (u.myHive.bucket i).burst) :
    exec (.hgiveBuckets o) s = .next (settleHives ((List.range 4).foldl (fun v i =>
      grantBucket v d.id i (bucketRate (field r (8 + 8 * i) 8)) (bucketBurst (field r (8 + 8 * i) 8))) u)
        [u.myHive.id, d.id]).advance := by
  have hnone : (List.range 4).find? (fun k => decide (bucketRate (field r (8 + 8 * k) 8) < (d.bucket k).rate) ||
      decide (bucketBurst (field r (8 + 8 * k) 8) < (d.bucket k).burst)) = none := by
    refine List.find?_eq_none.mpr fun k hk => ?_
    obtain ⟨-, hrate, hburst, -⟩ := hw k (List.mem_range.mp hk)
    simp [hrate, hburst]
  change execHgiveBuckets o s = _
  unfold execHgiveBuckets
  refine extentOp_ok _ h (extentOk_kind hok) ?_
  simp only [need_of (extentWords_ok hok fun i hi => (hw i hi).1), ok_bind, hnone,
    needLimits_of (bucketLimits_hold fun i hi => (hw i hi).2.2.2)]
  rfl

theorem exec_hgiveBuckets_refused (hok : extentOk r 4 32 = true) (hw : ∀ i < 4, field r (8 + 8 * i) 8 < 2 ^ 48) {k : Nat} (hk : k < 4)
    (hle : ∀ i < k, (d.bucket i).rate ≤ bucketRate (field r (8 + 8 * i) 8) ∧ (d.bucket i).burst ≤ bucketBurst (field r (8 + 8 * i) 8))
    (hlt : bucketRate (field r (8 + 8 * k) 8) < (d.bucket k).rate ∨ bucketBurst (field r (8 + 8 * k) 8) < (d.bucket k).burst) :
    exec (.hgiveBuckets o) s = .next (raise s ⟨.hiveLimit, encode (.hgiveBuckets o), 0, BitVec.ofNat 64 (0xA0 + 8 * k)⟩) := by
  have hsome : (List.range 4).find? (fun k => decide (bucketRate (field r (8 + 8 * k) 8) < (d.bucket k).rate) ||
      decide (bucketBurst (field r (8 + 8 * k) 8) < (d.bucket k).burst)) = some k := by
    refine List.find?_range_eq_some.mpr ⟨by simpa using hlt, List.mem_range.mpr hk, fun i hi => ?_⟩
    simp [hle i hi]
  change execHgiveBuckets o s = _
  unfold execHgiveBuckets
  refine extentOp_err _ h (extentOk_kind hok) ?_
  simp only [need_of (extentWords_ok hok hw), ok_bind, hsome]
  rfl

end

theorem exec_hgiveShares_privilege {s : State} {o : GFmt} (hr : s.runs = true) (hw : s.me.awayHere = none)
    (hd : ∀ d, s.findHive (s.me.greg o.ga).toNat = some d → d.parent ≠ s.me.hive) :
    exec (.hgiveShares o) s = .next (raise s ⟨.privilege, encode (.hgiveShares o), 0, 0⟩) := by
  change execHgiveShares o s = _
  unfold execHgiveShares
  exact extentOp_refused _ hr hw hd

/-- A hive updated, the shares merged and the strand gone on: hives and strands alone differ. -/
theorem settled_advance_eq (u : State) (n : Nat) (f : Hive → Hive) (l : List Nat) :
    (settleHives (u.modHive n f) l).advance =
      { u with hives := (settleHives (u.modHive n f) l).advance.hives, strands := (settleHives (u.modHive n f) l).advance.strands } ∧
    (settleHives (u.modHive n f) l).advance.strands = u.advance.strands := by
  rw [settleHives_eq]
  exact ⟨rfl, rfl⟩

/-- A reading of hives that shares and the ring have no part in, after one hive was updated and shares merged. -/
theorem settled_advance_hive {α : Type} {F : Hive → α}
    (hF : ∀ (x : Hive) (sh : List ShareRef) (r : RingHold), F { x with shares := sh, ring := r } = F x)
    {u : State} {d : Hive} {f : Hive → Hive} (hf : ∀ x, (f x).id = x.id) (l : List Nat) (hd : u.findHive d.id = some d) :
    F ((settleHives (u.modHive d.id f) l).advance.hive d.id) = F (f d) ∧
      ∀ k, k ≠ d.id → F ((settleHives (u.modHive d.id f) l).advance.hive k) = F (u.hive k) := by
  have hs (k : Nat) : F ((settleHives (u.modHive d.id f) l).advance.hive k) = F ((u.modHive d.id f).hive k) :=
    (settleHives_sameHives hF (u.modHive d.id f) l).hive k
  refine ⟨?_, fun k hk => ?_⟩
  · rw [hs, State.hive_modHive_self (by rw [hd]; rfl) hf, State.hive_of_findHive hd]
  · rw [hs, State.hive_modHive_other hk hf]

/-- Settles O31: each KIND of HGIVE by its own lemma. -/
theorem hgivePassesResources : Obligations.HgivePassesResources := by
  refine ⟨fun s u o d r h => ⟨fun left out hok hes hc hsrc => exec_hgiveShares_ok h hok hes hc hsrc, exec_hgiveRing_ok h,
    exec_hgiveRing_refused h, fun hok hge hfit hd => ?_, exec_hgiveFabric_refused h, fun hok hge hal hpool hm hd => ?_,
    exec_hgiveBuckets_ok h, fun hok hw k hk hle hlt => exec_hgiveBuckets_refused h hok hw hk hle hlt⟩,
    fun s o hr hw hd => exec_hgiveShares_privilege hr hw hd⟩
  · obtain ⟨heq, hst⟩ := settled_advance_eq u d.id (fun k => { k with fslots := field r 8 1 }) [u.myHive.id, d.id]
    obtain ⟨hself, hother⟩ := settled_advance_hive (F := fun k => k.fslots) (fun _ _ _ => rfl)
      (f := fun k => { k with fslots := field r 8 1 }) (fun _ => rfl) [u.myHive.id, d.id] hd
    exact ⟨_, exec_hgiveFabric_ok h hok hge hfit, hself, heq, hst, hother⟩
  · obtain ⟨heq, hst⟩ := settled_advance_eq u d.id (fun k => { k with wsize := field r 8 8 }) [u.myHive.id, d.id]
    obtain ⟨hself, hother⟩ := settled_advance_hive (F := fun k => k.wsize) (fun _ _ _ => rfl)
      (f := fun k => { k with wsize := field r 8 8 }) (fun _ => rfl) [u.myHive.id, d.id] hd
    exact ⟨_, exec_hgiveMemory_ok h hok hge hal hpool hm, hself, heq, hst, hother⟩

end Sys2Proof.Machine

/-! SUPPORT. Records posted to trap queues (R81, R82): what a post may change. -/

namespace Sys2Proof.Machine

/-- What the device writes for a hive changes memory and the requests at the slice ports alone. -/
theorem devicePut_eq (s : State) (hive va : Nat) (bs : List Byte) : ∃ m q, devicePut s hive va bs = { s with mem := m, llc := q } := by
  unfold devicePut
  split
  · next h =>
    obtain rfl := locate_mem_eq h
    exact ⟨_, _, rfl⟩
  · exact ⟨s.mem, s.llc, rfl⟩

theorem deviceWrite_eq (s : State) (hive va : Nat) (bs : List Byte) : ∃ m q, deviceWrite s hive va bs = { s with mem := m, llc := q } := by
  obtain ⟨m, q, hm⟩ := devicePut_eq s hive va (bs.take (65536 - va % 65536))
  unfold deviceWrite
  dsimp only
  split
  · obtain ⟨m', q', hm'⟩ := devicePut_eq (devicePut s hive va (bs.take (65536 - va % 65536))) hive (va + (65536 - va % 65536))
      (bs.drop (65536 - va % 65536))
    exact ⟨m', q', hm'.trans (by rw [hm])⟩
  · exact ⟨m, q, hm⟩

theorem deviceTake_eq {s t : State} {hive va n x : Nat} (h : deviceTake s hive va n = some (x, t)) : ∃ q, t = { s with llc := q } := by
  unfold deviceTake at h
  split at h
  · next hl =>
    obtain rfl := locate_mem_eq hl
    cases h
    exact ⟨_, rfl⟩
  · cases h

theorem deviceRead_eq {s t : State} {hive va x : Nat} (h : deviceRead s hive va = some (x, t)) : ∃ q, t = { s with llc := q } := by
  unfold deviceRead at h
  dsimp only at h
  split at h
  · exact deviceTake_eq h
  · simp only [Option.bind_eq_some_iff, Option.map_eq_some_iff] at h
    obtain ⟨⟨x, u⟩, hlo, ⟨y, v⟩, hhi, h⟩ := h
    cases h
    obtain ⟨q, rfl⟩ := deviceTake_eq hlo
    obtain ⟨q', rfl⟩ := deviceTake_eq hhi
    exact ⟨q', rfl⟩

/-- A hive but for what its trap queue counts and keeps (R81, R82). -/
def Hive.queueless (h : Hive) : Hive := { h with seq := 0, pend := [], pendNotices := [] }

/-- Records were posted between s and t: memory, slice requests, partitions, interrupts and the trap queues of hives may differ. -/
structure Posts (s t : State) : Prop where
  eq : t = { s with mem := t.mem, llc := t.llc, hives := t.hives, parts := t.parts, interrupts := t.interrupts }
  hives : SameHives Hive.queueless s t

namespace Posts

variable {s t u : State}

theorem refl (s : State) : Posts s s := ⟨rfl, .refl s⟩

theorem trans (h : Posts s t) (g : Posts t u) : Posts s u := by
  obtain ⟨ht, hh⟩ := h
  obtain ⟨hu, gh⟩ := g
  refine ⟨?_, hh.trans gh⟩
  rw [hu, ht]

theorem of_memLlc {m : Mem} {q : List LlcReq} (h : t = { s with mem := m, llc := q }) : Posts s t := by
  subst h
  exact ⟨rfl, .of_hives rfl⟩

theorem modPart (s : State) (n : Nat) (f : Partition → Partition) : Posts s (s.modPart n f) := ⟨rfl, .of_hives rfl⟩

theorem modHive {f : Hive → Hive} (s : State) (n : Nat) (hf : ∀ x, (f x).id = x.id ∧ (f x).queueless = x.queueless) :
    Posts s (s.modHive n f) := ⟨rfl, .modHive s n hf⟩

theorem strands (h : Posts s t) : t.strands = s.strands := by rw [h.eq]

theorem strand (h : Posts s t) (k : Nat) : t.strand k = s.strand k := by rw [State.strand, h.strands, State.strand]

/-- A reading of hives that their trap queues have no part in. -/
theorem same {α : Type} (h : Posts s t) {F : Hive → α} (hF : ∀ x, F x.queueless = F x) : SameHives F s t := by
  have hm := h.hives.map F
  simp only [hF] at hm
  exact hm

end Posts

theorem deviceWrite_posts (s : State) (hive va : Nat) (bs : List Byte) : Posts s (deviceWrite s hive va bs) := by
  obtain ⟨m, q, h⟩ := deviceWrite_eq s hive va bs
  exact .of_memLlc h

theorem deviceRead_posts {s t : State} {hive va x : Nat} (h : deviceRead s hive va = some (x, t)) : Posts s t := by
  obtain ⟨q, rfl⟩ := deviceRead_eq h
  exact .of_memLlc rfl

theorem postHive_posts {s u : State} {h : Hive} {r : TrapRecord}
    (hp : postHive s h r = .done u ∨ postHive s h r = .full u ∨ postHive s h r = .unmapped u) : Posts s u := by
  unfold postHive at hp
  dsimp only at hp
  split at hp
  · simp only [reduceCtorEq, Posted.unmapped.injEq, false_or] at hp
    exact hp ▸ .refl s
  · next head v hv =>
    have hv := deviceRead_posts hv
    split at hp
    · simp only [reduceCtorEq, Posted.unmapped.injEq, false_or] at hp
      exact hp ▸ hv
    · next tail w hw =>
      have hw := hv.trans (deviceRead_posts hw)
      split at hp
      · split at hp
        · simp only [reduceCtorEq, Posted.done.injEq, or_false] at hp
          subst hp
          exact ((hw.trans (deviceWrite_posts _ _ _ _)).trans (deviceWrite_posts _ _ _ _)).trans (.modHive _ _ fun x => ⟨rfl, rfl⟩)
        · simp only [reduceCtorEq, Posted.unmapped.injEq, false_or] at hp
          exact hp ▸ hw
      · simp only [reduceCtorEq, Posted.full.injEq, false_or, or_false] at hp
        exact hp ▸ hw

theorem Posts.interrupt {s u : State} (h : Posts s u) (b : Prop) [Decidable b] (n : Nat) :
    Posts s (if b then { u with interrupts := n :: u.interrupts } else u) := by
  split
  · exact ⟨by rw [h.eq], h.hives⟩
  · exact h

theorem Posts.withMem {s u : State} (h : Posts s u) (m : Mem) : Posts s { u with mem := m } := h.trans (.of_memLlc rfl)

theorem postHost_posts {s u : State} {n : Nat} {r : TrapRecord} (hp : postHost s n r = .done u) : Posts s u := by
  simp only [postHost] at hp
  split at hp
  · exact Posted.done.inj hp ▸ (((Posts.refl s).withMem _).trans (.modPart _ n _)).interrupt _ n
  · cases hp

theorem pendRecord_posts (s : State) (owner part : Nat) (r : TrapRecord) : Posts s (pendRecord s owner part r) := by
  unfold pendRecord
  split
  · exact .modPart s part _
  · split
    · exact .modHive s owner fun x => ⟨rfl, rfl⟩
    · exact .modHive s owner fun x => ⟨rfl, rfl⟩

theorem postFrom_posts (fuel : Nat) (s : State) (owner part : Nat) (r : TrapRecord) : Posts s (postFrom fuel s owner part r).2 := by
  induction fuel generalizing s owner r with
  | zero => exact pendRecord_posts s owner part r
  | succ fuel ih =>
    unfold postFrom
    split
    · split
      · next h => exact postHost_posts h
      · exact pendRecord_posts s 0 part r
    · split
      · next h => exact postHive_posts (.inl h)
      · next h => exact (postHive_posts (.inr (.inl h))).trans (pendRecord_posts _ owner part r)
      · next h => exact (postHive_posts (.inr (.inr h))).trans (ih _ _ _)

theorem post_posts (s : State) (owner part : Nat) (r : TrapRecord) : Posts s (post s owner part r).2 := postFrom_posts 10 s owner part r

end Sys2Proof.Machine

/-! SUPPORT. The answers of HRET (R74): strands that go back among the waiting ones, and reads of a save entry. -/

namespace Sys2Proof.Machine

/-! ## A strand that waits again -/

/-- A strand among those that wait for a share, its ticket used (R34, R84). -/
def Strand.waitingOn (t : Strand) (y : ShareRef) (full : Bool) (n : Nat) : Strand :=
  { t with status := .waiting, placed := false, share := some y, spilled := full, arrival := n, passed := 0, susp := none }

/-- What GRANT of a save entry gives a strand (Table 11.4). -/
theorem rereadGrant_eq (s : State) (t : Strand) : ∃ (lo hi : Nat) (vr pr : BitVec 2) (gr : Nat),
    rereadGrant s t = { t with vlmin := lo, vlmax := hi, vregs := vr, prio := pr, grant := gr } := by
  unfold rereadGrant
  split
  · exact ⟨t.vlmin, t.vlmax, t.vregs, t.prio, t.grant, rfl⟩
  · exact ⟨_, _, _, _, _, rfl⟩

theorem chargeGrant_keepsStrands (s : State) (t : Strand) : KeepsStrands s (chargeGrant s t) := by
  unfold chargeGrant
  dsimp only
  split
  · exact .refl s
  · exact (KeepsStrands.refl s).charge s.mem _ _ _

theorem chargeGrant_mem (s : State) (t : Strand) : (chargeGrant s t).mem = s.mem := by
  unfold chargeGrant
  dsimp only
  split <;> rfl

theorem resumeOn_mem (s : State) (k : Nat) (y : ShareRef) : (resumeOn s k y).mem = s.mem := chargeGrant_mem s _

theorem waitOn_self (s : State) {k : Nat} (y : ShareRef) (hk : k < s.strands.length) : ∃ (full : Bool) (n : Nat),
    (waitOn s k y).strand k =
      { s.strand k with status := .waiting, placed := false, share := some y, spilled := full, arrival := n, passed := 0 } :=
  ⟨_, _, State.strand_mod_self { s with nextArrival := s.nextArrival + 1 } k _ hk⟩

theorem waitOn_other (s : State) {k j : Nat} (y : ShareRef) (hj : j ≠ k) : (waitOn s k y).strand j = s.strand j :=
  State.strand_mod_other { s with nextArrival := s.nextArrival + 1 } k j _ hj

theorem resumeOn_strand (s : State) {k : Nat} (y : ShareRef) (hk : k < s.strands.length) : ∃ full n,
    (resumeOn s k y).strand k = (rereadGrant s (s.strand k)).waitingOn y full n := by
  have hc := chargeGrant_keepsStrands s (s.strand k)
  have hk' : k < (chargeGrant s (s.strand k)).strands.length := by rw [hc.strands]; exact hk
  have hu := State.strand_mod_self (chargeGrant s (s.strand k)) k (fun t => { rereadGrant s t with susp := none }) hk'
  obtain ⟨full, n, hw⟩ := waitOn_self ((chargeGrant s (s.strand k)).modStrand k (fun t => { rereadGrant s t with susp := none })) y
    (by simpa using hk')
  refine ⟨full, n, hw.trans ?_⟩
  rw [hu, hc.strand k]
  rfl

theorem resumeOn_other (s : State) {k j : Nat} (y : ShareRef) (hj : j ≠ k) : (resumeOn s k y).strand j = s.strand j :=
  (waitOn_other _ y hj).trans ((State.strand_mod_other (chargeGrant s (s.strand k)) k j
    (fun t => { rereadGrant s t with susp := none }) hj).trans ((chargeGrant_keepsStrands s (s.strand k)).strand j))

/-- A strand that is put back keeps all but its place, its ticket and its grant. -/
theorem resumeOn_strand_eq (s : State) {k : Nat} (y : ShareRef) (hk : k < s.strands.length) :
    ∃ (full : Bool) (n lo hi : Nat) (vr pr : BitVec 2) (gr : Nat), (resumeOn s k y).strand k =
      Strand.waitingOn { s.strand k with vlmin := lo, vlmax := hi, vregs := vr, prio := pr, grant := gr } y full n := by
  obtain ⟨full, n, hw⟩ := resumeOn_strand s y hk
  obtain ⟨lo, hi, vr, pr, gr, hg⟩ := rereadGrant_eq s (s.strand k)
  exact ⟨full, n, lo, hi, vr, pr, gr, by rw [hw, hg]⟩

/-- An answer puts strand k of s back among those that wait for a share, its registers as they were. -/
def PutBack (s : State) (k : Nat) (y : ShareRef) (r : Answer) : Prop :=
  ∃ t, r = .ok t ∧ (t.strand k).status = .waiting ∧ (t.strand k).placed = false ∧ (t.strand k).share = some y ∧
    (t.strand k).susp = none ∧ (t.strand k).pc = (s.strand k).pc ∧ (t.strand k).g = (s.strand k).g ∧
    ∀ j, j ≠ k → t.strand j = s.strand j

theorem putBack_resumeOn {s u : State} {k : Nat} (y : ShareRef) (hk : k < s.strands.length) (h : KeepsStrands s u) :
    PutBack s k y (.ok (resumeOn u k y)) := by
  obtain ⟨full, n, lo, hi, vr, pr, gr, hw⟩ := resumeOn_strand_eq u y (show k < u.strands.length by rw [h.strands]; exact hk)
  refine ⟨_, rfl, ?_, ?_, ?_, ?_, ?_, ?_, fun j hj => (resumeOn_other u y hj).trans (h.strand j)⟩
  all_goals rw [hw]
  · rfl
  · rfl
  · rfl
  · rfl
  · exact h.strand k ▸ rfl
  · exact h.strand k ▸ rfl

/-! ## The save entry -/

theorem poolPut_mem (s : State) (h : Hive) (off : Nat) (bs : List Byte) (hroom : bs.length ≤ 2 ^ 21 - off % 2 ^ 21) :
    (poolPut s h off bs).mem = Mem.put s.mem (h.poolPhys off) bs := by
  rw [poolPut, chargePool_mem, if_neg (Nat.not_lt.mpr hroom), List.take_of_length_le hroom]

/-- A word of the pool that lies in one chunk reads as it was put (R65). -/
theorem poolRead_of_mem {s t : State} {h : Hive} {off : Nat} (x : Nat) (hroom : off % 2 ^ 21 + 8 ≤ 2 ^ 21)
    (hm : t.mem = (poolPut s h off (leBytes 8 x)).mem) : poolRead t h off 8 = x % 2 ^ 64 := by
  have hr : 8 ≤ 2 ^ 21 - off % 2 ^ 21 := by omega
  rw [poolRead, if_pos hr, hm, poolPut_mem _ _ _ _ (by rw [leBytes_length]; exact hr)]
  exact Mem.read_write s.mem (h.poolPhys off) 8 x

/-! ## The answers -/

section
variable {s : State} {k : Nat} {x : Suspension}

theorem answerReissue_none (h : heldShare s k = none) : answerReissue s k = .error 2 := by
  rw [answerReissue, h]

theorem answerReissue_some {y : ShareRef} (hk : k < s.strands.length) (h : heldShare s k = some y) :
    PutBack s k y (answerReissue s k) := by
  rw [answerReissue, h]
  exact putBack_resumeOn y hk (.refl s)

theorem answerPlace_paired {n : Word} (h : (s.strand k).task.isSome = true) : answerPlace s k n = .error 3 := if_pos h

theorem answerPlace_none {n : Word} (h : (s.strand k).task = none)
    (hn : (sharesInOrder (s.hive (s.strand k).hive))[n.toNat]? = none) : answerPlace s k n = .error 2 := by
  rw [answerPlace]
  simp only [h, hn]
  rfl

theorem answerPlace_some {n : Word} {y : ShareRef} (hk : k < s.strands.length) (h : (s.strand k).task = none)
    (hn : (sharesInOrder (s.hive (s.strand k).hive))[n.toNat]? = some y) : PutBack s k y (answerPlace s k n) := by
  rw [answerPlace]
  simp only [h, hn]
  exact putBack_resumeOn y hk (.refl s)

theorem answerSkip_refused (h : (x.kind ≠ .trap ∧ x.kind ≠ .handlerTrap) ∨ (s.strand k).queue ≠ []) : answerSkip s k x = .error 3 := by
  refine if_pos ?_
  rcases h with ⟨h1, h2⟩ | h
  · simp [h1, h2]
  · simp [h]

/-- The record's successor in the save entry, and the strand back among the waiting ones (R84). -/
theorem answerSkip_trap {y : ShareRef} (hx : x.kind = .trap) (hq : (s.strand k).queue = []) (hy : heldShare s k = some y) :
    answerSkip s k x = .ok (resumeOn (poolPut s (s.hive (s.strand k).hive) (entryOff (s.hive (s.strand k).hive) (s.strand k))
      (leBytes 8 (x.record.pc + 8).toNat)) k y) := by
  simp only [answerSkip, hx, hq, hy]
  rfl

theorem answerSkip_putBack {y : ShareRef} (hk : k < s.strands.length) (hx : x.kind = .trap) (hq : (s.strand k).queue = [])
    (hy : heldShare s k = some y) : PutBack s k y (answerSkip s k x) := by
  rw [answerSkip_trap hx hq hy]
  exact putBack_resumeOn y hk (poolPut_keepsStrands _ _ _ _)

theorem answerSkip_entry {y : ShareRef} {t : State} (hx : x.kind = .trap) (hq : (s.strand k).queue = []) (hy : heldShare s k = some y)
    (hroom : entryOff (s.hive (s.strand k).hive) (s.strand k) % 2 ^ 21 + 8 ≤ 2 ^ 21) (ht : answerSkip s k x = .ok t) :
    poolRead t (s.hive (s.strand k).hive) (entryOff (s.hive (s.strand k).hive) (s.strand k)) 8 = (x.record.pc + 8).toNat := by
  rw [answerSkip_trap hx hq hy] at ht
  rw [poolRead_of_mem _ hroom (Except.ok.inj ht ▸ resumeOn_mem _ k y)]
  exact Nat.mod_eq_of_lt (x.record.pc + 8).isLt

theorem answerSkip_handler {y : ShareRef} (hx : x.kind = .handlerTrap) (hq : (s.strand k).queue = []) (hy : heldShare s k = some y) :
    answerSkip s k x = .ok (resumeOn (s.modStrand k (fun t => { t with pc := x.record.pc + 8 })) k y) := by
  simp only [answerSkip, hx, hq, hy]
  rfl

theorem answerDeliver_refused {n : Nat} (h : x.kind ≠ .trap) : answerDeliver s k x n = .error 3 := if_pos (by simp [h])

theorem answerDeliver_trap {n : Nat} {y : ShareRef} (hx : x.kind = .trap) (hy : heldShare s k = some y) :
    answerDeliver s k x n = .ok (resumeOn (writeEntry ((chargeEntry s (s.strand k)).setStrand k
      (delivered s (s.strand k) x n)) k 0) k y) := by
  simp only [answerDeliver, hx, hy]
  rfl

/-- A strand as its hive's handler finds it when its parent delivers a record's trap (R84, R253). -/
def Strand.handed (r : Strand) (vec : Word) (x : TrapRecord) (cause : Nat) : Strand :=
  { r with
    held := r.queue, queue := [], resumePc := r.pc, hsave := #v[r.g[28], r.g[29], r.g[30], r.g[31]]
    trappc := x.pc, trapcause := trapCauseWord cause (!r.queue.isEmpty) r.queue.length, trapval := x.val, trapinfo := x.info
    pc := vec }

theorem delivered_eq (s : State) (t : Strand) (x : Suspension) (cause : Nat) :
    delivered s t x cause = (readEntry s t).handed (s.hive t.hive).trapvec x.record cause := rfl

/-- The strand that DELIVER puts back is the one its hive's handler finds (R84). -/
theorem deliver_strand {n : Nat} (hk : k < s.strands.length) :
    let u := writeEntry ((chargeEntry s (s.strand k)).setStrand k (delivered s (s.strand k) x n)) k 0
    k < u.strands.length ∧ u.strand k = delivered s (s.strand k) x n ∧ ∀ j, j ≠ k → u.strand j = s.strand j := by
  have hc : KeepsStrands s (chargeEntry s (s.strand k)) := chargePool_keepsStrands s _ _ _
  have hw := writeEntry_keepsStrands ((chargeEntry s (s.strand k)).setStrand k (delivered s (s.strand k) x n)) k 0
  have hl : k < (chargeEntry s (s.strand k)).strands.length := by rw [hc.strands]; exact hk
  refine ⟨?_, (hw.strand k).trans ((State.strand_set _ k k _).trans (if_pos ⟨rfl, hl⟩)), fun j hj => (hw.strand j).trans ?_⟩
  · rw [hw.strands]
    simpa [State.setStrand] using hl
  · exact ((State.strand_set _ k j _).trans (if_neg fun h => hj h.1.symm)).trans (hc.strand j)

/-- DELIVER puts the strand back as its hive's handler finds it (R84). -/
theorem answerDeliver_handed {n : Nat} {y : ShareRef} (hk : k < s.strands.length) (hx : x.kind = .trap) (hy : heldShare s k = some y) :
    ∃ (t : State) (full : Bool) (m lo hi : Nat) (vr pr : BitVec 2) (gr : Nat), answerDeliver s k x n = .ok t ∧
      t.strand k = Strand.waitingOn { (readEntry s (s.strand k)).handed (s.hive (s.strand k).hive).trapvec x.record n with
        vlmin := lo, vlmax := hi, vregs := vr, prio := pr, grant := gr } y full m ∧ ∀ j, j ≠ k → t.strand j = s.strand j := by
  obtain ⟨hl, hself, hother⟩ := deliver_strand (x := x) (n := n) hk
  obtain ⟨full, m, lo, hi, vr, pr, gr, hw⟩ := resumeOn_strand_eq _ y hl
  rw [hself, delivered_eq] at hw
  exact ⟨_, full, m, lo, hi, vr, pr, gr, answerDeliver_trap hx hy, hw, fun j hj => (resumeOn_other _ y hj).trans (hother j hj)⟩

/-- FORWARD posts the record, declined, and leaves its strand suspended with the new holder (R84). -/
theorem answerForward_eq (hk : k < s.strands.length) (h : Nat) :
    let r := { x.record with flags := x.record.flags ||| 2 }
    let v := s.modHive h (fun d => { d with reflected := d.reflected + 1 })
    let p := post v (v.hive h).parent (v.partOf h) r
    ∃ t, answerForward s h k x = .ok t ∧ t = { p.2 with strands := t.strands } ∧
      (t.strand k).susp = some { x with holder := p.1, record := r } ∧ (t.strand k).status = (s.strand k).status ∧
      ∀ j, j ≠ k → t.strand j = s.strand j := by
  intro r v p
  have hp : ∀ j, p.2.strand j = s.strand j := (post_posts v _ _ _).strand
  have hl : k < p.2.strands.length := by
    rw [(post_posts v _ _ _).strands]
    exact hk
  have hself := State.strand_mod_self p.2 k (fun t => { t with susp := some { x with holder := p.1, record := r } }) hl
  refine ⟨_, rfl, rfl, (congrArg Strand.susp hself).trans rfl, (congrArg Strand.status hself).trans ?_,
    fun j hj => (State.strand_mod_other p.2 k j _ hj).trans (hp j)⟩
  exact (congrArg Strand.status (hp k) : (p.2.strand k).status = _)

end

/-! ## HRET -/

section
variable {s : State} {o : GFmt} {i : Instr} {action : Nat} {f : State → Nat → Suspension → Answer}

theorem hret_refused (hr : s.runs = true)
    (h : 4 < (s.me.greg o.gb).toNat ∨ (s.me.greg o.gb).toNat = 2 ∧ isCauseCode (s.me.greg o.gc).toNat = false) :
    hret i o action s f = .next (raise s ⟨.illegalField, encode i, 0, 0⟩) := by
  unfold hret
  refine hiveOp_refused hr ?_
  by_cases hle : (s.me.greg o.gb).toNat ≤ 4
  · obtain ⟨h2, hc⟩ := h.resolve_left (Nat.not_lt.mpr hle)
    rw [need_of (decide_eq_true hle), ok_bind, need_fails (by simp [h2, hc])]
    rfl
  · rw [need_fails (decide_eq_false hle)]
    rfl

/-- What HRET of an action answers to the ticket in ga (Table 3.7): its status in gd, after the pending records are posted. -/
def Answers (s : State) (o : GFmt) (i : Instr) (f : Nat → Suspension → Answer) : Prop :=
  let a := releaseL1 s.fenced s.fenced.who 2
  (ticketStrand a a.me.hive (s.me.greg o.ga) = none → exec i s = .next ((postPending a a.me.hive).finish o.gd 1)) ∧
  ∀ k x, ticketStrand a a.me.hive (s.me.greg o.ga) = some (k, x) →
    (∀ v, f k x = .ok v → exec i s = .next ((postPending v v.me.hive).finish o.gd 0)) ∧
    ∀ n, f k x = .error n → exec i s = .next ((postPending a a.me.hive).finish o.gd (BitVec.ofNat 64 n))

theorem hret_next (hr : s.runs = true) (hq : s.me.queue.any (fun e => e.vectorAccess) = false) (ha : (s.me.greg o.gb).toNat = action)
    (h4 : action ≤ 4) (hc : action = 2 → isCauseCode (s.me.greg o.gc).toNat = true) : hret i o action s f = .next
      (let a := releaseL1 s.fenced s.fenced.who 2
      match ticketStrand a a.me.hive (s.me.greg o.ga) with
      | none => (postPending a a.me.hive).finish o.gd 1
      | some (k, x) =>
        match f a k x with
        | .ok v => (postPending v v.me.hive).finish o.gd 0
        | .error n => (postPending a a.me.hive).finish o.gd (BitVec.ofNat 64 n)) := by
  have hcheck : (do
      need (decide ((s.me.greg o.gb).toNat ≤ 4)) (Trap.at .illegalField (encode i))
      need ((s.me.greg o.gb).toNat != 2 || isCauseCode (s.me.greg o.gc).toNat) (Trap.at .illegalField (encode i))) = .ok () := by
    rw [need_of (decide_eq_true (ha ▸ h4)), ok_bind]
    refine need_of ?_
    by_cases h2 : action = 2
    · simp [hc h2]
    · simp [ha, h2]
  unfold hret
  refine hiveOp_ok hr (quietV_of hq) hcheck ?_
  have hme : (releaseL1 s.fenced s.fenced.who 2).me = s.me :=
    ((acquireL1_keepsStrands s s.who 2).trans (releaseL1_keepsStrands s.fenced s.fenced.who 2)).me
  rw [if_neg (not_not.mpr ha)]
  dsimp only
  rw [show (releaseL1 s.fenced s.fenced.who 2).me.greg o.ga = s.me.greg o.ga from congrArg (fun t => t.greg o.ga) hme]
  cases ticketStrand (releaseL1 s.fenced s.fenced.who 2) (releaseL1 s.fenced s.fenced.who 2).me.hive (s.me.greg o.ga) with
  | none => rfl
  | some p => cases hf : f (releaseL1 s.fenced s.fenced.who 2) p.1 p.2 <;> simp only [hf]; rfl

theorem hret_answers (he : exec i s = hret i o action s f) (hr : s.runs = true)
    (hq : s.me.queue.any (fun e => e.vectorAccess) = false) (ha : (s.me.greg o.gb).toNat = action) (h4 : action ≤ 4)
    (hc : action = 2 → isCauseCode (s.me.greg o.gc).toNat = true) : Answers s o i (f (releaseL1 s.fenced s.fenced.who 2)) := by
  have hn := he.trans (hret_next (i := i) (f := f) hr hq ha h4 hc)
  refine ⟨fun ht => ?_, fun k x ht => ⟨fun v hv => ?_, fun n hv => ?_⟩⟩
  · simpa only [ht] using hn
  · simpa only [ht, hv] using hn
  · simpa only [ht, hv] using hn

end

theorem exec_hretReissue_refused {s : State} {o : GFmt} (hr : s.runs = true)
    (h : 4 < (s.me.greg o.gb).toNat ∨ (s.me.greg o.gb).toNat = 2 ∧ isCauseCode (s.me.greg o.gc).toNat = false) :
    exec (.hretReissue o) s = .next (raise s ⟨.illegalField, encode (.hretReissue o), 0, 0⟩) := by
  change execHretReissue o s = _
  unfold execHretReissue
  exact hret_refused hr h

/-- Settles O34: the five actions by what each answers, and the status by the ticket. -/
theorem hretAnswersTickets : Obligations.HretAnswersTickets := by
  refine ⟨fun s o hr hq => ⟨
    fun ha => hret_answers (i := .hretReissue o) (f := fun s k _ => answerReissue s k) rfl hr hq ha (by decide) (absurd · (by decide)),
    fun ha => hret_answers (i := .hretSkip o) (f := answerSkip) rfl hr hq ha (by decide) (absurd · (by decide)),
    fun ha hc => hret_answers (i := .hretDeliver o) (f := fun t k x => answerDeliver t k x (s.me.greg o.gc).toNat) rfl hr hq ha
      (by decide) (fun _ => hc),
    fun ha => hret_answers (i := .hretForward o) (f := fun s k x => answerForward s s.me.hive k x) rfl hr hq ha (by decide) (absurd · (by decide)),
    fun ha => hret_answers (i := .hretPlace o) (f := fun t k _ => answerPlace t k (s.me.greg o.gc)) rfl hr hq ha (by decide) (absurd · (by decide)),
    fun h => exec_hretReissue_refused hr h⟩, fun s k x n hk => ⟨answerReissue_none, fun y hy => answerReissue_some hk hy, answerSkip_refused,
    answerDeliver_refused, answerPlace_paired, answerPlace_none, fun y ht hy => answerPlace_some hk ht hy, fun hx hq y hy => ?_,
    fun hx hq y hy => ?_, fun hx y hy => ?_, answerForward_eq hk⟩⟩
  · exact ⟨answerSkip_putBack hk hx hq hy, fun hroom t ht => answerSkip_entry hx hq hy hroom ht⟩
  · have hself := State.strand_mod_self s k (fun t => { t with pc := x.record.pc + 8 }) hk
    obtain ⟨full, m, lo, hi, vr, pr, gr, hw⟩ := resumeOn_strand_eq (s.modStrand k (fun t => { t with pc := x.record.pc + 8 })) y
      (by simpa using hk)
    rw [hself] at hw
    refine ⟨_, answerSkip_handler hx hq hy, ?_, ?_, ?_, ?_, fun j hj => (resumeOn_other _ y hj).trans (State.strand_mod_other s k j _ hj)⟩
    all_goals rw [hw]; rfl
  · obtain ⟨t, full, m, lo, hi, vr, pr, gr, ht, hw, hother⟩ := answerDeliver_handed (n := n.toNat) hk hx hy
    refine ⟨t, ht, ?_⟩
    rw [hw]
    generalize readEntry s (s.strand k) = r
    refine ⟨rfl, rfl, rfl, rfl, rfl, ?_, rfl, rfl, rfl, rfl, rfl, fun j => ?_, hother⟩
    · cases hq : r.queue <;> simp [Strand.waitingOn, Strand.handed, trapCauseWord, hq]
    · fin_cases j <;> rfl

end Sys2Proof.Machine

/-! SUPPORT. Trap records and their queues (Table 3.9, R81, R82, R302). -/

namespace Sys2Proof.Machine

/-! ## Numbers packed one after another -/

theorem ofLeBytes_append (a b : List Byte) : ofLeBytes (a ++ b) = ofLeBytes a + 256 ^ a.length * ofLeBytes b := by
  induction a with
  | nil => simp [ofLeBytes]
  | cons x a ih =>
    rw [List.cons_append, ofLeBytes, ofLeBytes, ih, List.length_cons, Nat.pow_succ]
    ring

theorem ofLeBytes_leBytes_append (n x : Nat) (b : List Byte) :
    ofLeBytes (leBytes n x ++ b) = x % 2 ^ (8 * n) + 2 ^ (8 * n) * ofLeBytes b := by
  rw [ofLeBytes_append, ofLeBytes_leBytes, leBytes_length, show (256 : Nat) = 2 ^ 8 from rfl, ← Nat.pow_mul]

theorem field_first (n x : Nat) (b : List Byte) : field (ofLeBytes (leBytes n x ++ b)) 0 n = x % 2 ^ (8 * n) := by
  rw [ofLeBytes_leBytes_append, field, Nat.mul_zero, Nat.pow_zero, Nat.div_one, Nat.add_mul_mod_self_left, Nat.mod_mod]

theorem field_rest (n x : Nat) (b : List Byte) (off m : Nat) :
    field (ofLeBytes (leBytes n x ++ b)) (n + off) m = field (ofLeBytes b) off m := by
  have hlt : x % 2 ^ (8 * n) < 2 ^ (8 * n) := Nat.mod_lt _ (Nat.two_pow_pos _)
  rw [field, field, ofLeBytes_leBytes_append, Nat.mul_add, Nat.pow_add, ← Nat.div_div_eq_div_mul, Nat.add_mul_div_left _ _ (Nat.two_pow_pos _),
    Nat.div_eq_of_lt hlt, Nat.zero_add]

/-- The bytes of numbers of given sizes one after another. -/
def packed (l : List (Nat × Nat)) : List Byte := l.flatMap (fun p => leBytes p.1 p.2)

theorem field_packed {l : List (Nat × Nat)} (k : Nat) {off size x : Nat} (hk : l[k]? = some (size, x))
    (ho : ((l.take k).map Prod.fst).sum = off) : field (ofLeBytes (packed l)) off size = x % 2 ^ (8 * size) := by
  subst ho
  induction l generalizing k with
  | nil => exact absurd hk (by simp)
  | cons p l ih =>
    rw [packed, List.flatMap_cons]
    cases k with
    | zero =>
      obtain rfl : p = (size, x) := by simpa using hk
      exact field_first size x _
    | succ k =>
      rw [List.take_succ_cons, List.map_cons, List.sum_cons, field_rest]
      exact ih k hk

theorem packed_length (l : List (Nat × Nat)) : (packed l).length = (l.map Prod.fst).sum := by
  simp [packed, List.length_flatMap, leBytes_length]

/-! ## The record (Table 3.9) -/

/-- The fields of a record, with their sizes in bytes. -/
def TrapRecord.fields (r : TrapRecord) (n : Nat) : List (Nat × Nat) :=
  [(4, r.ticket.toNat), (1, r.cause), (1, r.flags.toNat), (2, r.hive), (4, r.strand.toNat), (4, r.gang.toNat), (8, r.pc.toNat),
    (8, r.val.toNat), (8, r.info.toNat), (8, r.data.toNat), (8, r.save.toNat), (8, n)]

theorem TrapRecord.bytes_eq (r : TrapRecord) (n : Nat) : r.bytes n = packed (r.fields n) := by
  simp [TrapRecord.bytes, packed, TrapRecord.fields]

theorem TrapRecord.bytes_length (r : TrapRecord) (n : Nat) : (r.bytes n).length = 64 := by
  simp [r.bytes_eq, packed_length, TrapRecord.fields]

theorem TrapRecord.bytes_fields (r : TrapRecord) (n : Nat) :
    let f := field (ofLeBytes (r.bytes n))
    f 0 4 = r.ticket.toNat ∧ f 4 1 = r.cause % 256 ∧ f 5 1 = r.flags.toNat ∧ f 6 2 = r.hive % 65536 ∧ f 8 4 = r.strand.toNat ∧
    f 0xC 4 = r.gang.toNat ∧ f 0x10 8 = r.pc.toNat ∧ f 0x18 8 = r.val.toNat ∧ f 0x20 8 = r.info.toNat ∧
    f 0x28 8 = r.data.toNat ∧ f 0x30 8 = r.save.toNat ∧ f 0x38 8 = n % 2 ^ 64 := by
  rw [r.bytes_eq]
  have hf (k : Nat) {off size x : Nat} (hk : (r.fields n)[k]? = some (size, x)) (ho : (((r.fields n).take k).map Prod.fst).sum = off) :=
    field_packed k hk ho
  exact ⟨(hf 0 rfl (by simp [TrapRecord.fields])).trans (Nat.mod_eq_of_lt r.ticket.isLt), hf 1 rfl (by simp [TrapRecord.fields]),
    (hf 2 rfl (by simp [TrapRecord.fields])).trans (Nat.mod_eq_of_lt r.flags.isLt), hf 3 rfl (by simp [TrapRecord.fields]),
    (hf 4 rfl (by simp [TrapRecord.fields])).trans (Nat.mod_eq_of_lt r.strand.isLt), (hf 5 rfl (by simp [TrapRecord.fields])).trans (Nat.mod_eq_of_lt r.gang.isLt),
    (hf 6 rfl (by simp [TrapRecord.fields])).trans (Nat.mod_eq_of_lt r.pc.isLt), (hf 7 rfl (by simp [TrapRecord.fields])).trans (Nat.mod_eq_of_lt r.val.isLt),
    (hf 8 rfl (by simp [TrapRecord.fields])).trans (Nat.mod_eq_of_lt r.info.isLt), (hf 9 rfl (by simp [TrapRecord.fields])).trans (Nat.mod_eq_of_lt r.data.isLt),
    (hf 10 rfl (by simp [TrapRecord.fields])).trans (Nat.mod_eq_of_lt r.save.isLt), hf 11 rfl (by simp [TrapRecord.fields])⟩

/-! ## A hive's queue (R81) -/

section
variable {s a b : State} {owner part n head tail : Nat} {r : TrapRecord} (hne : owner ≠ 0) (hs : (s.findHive owner).isSome = true)

theorem State.id_hive (hs : (s.findHive owner).isSome = true) : (s.hive owner).id = owner := by
  obtain ⟨x, hx⟩ := Option.isSome_iff_exists.mp hs
  rw [State.hive_of_findHive hx]
  exact State.id_of_findHive hx

include hne hs

theorem postFrom_room (ha : deviceRead s owner (s.hive owner).tqbase.toNat = some (head, a))
    (hb : deviceRead a owner ((s.hive owner).tqbase.toNat + 8) = some (tail, b))
    (hroom : (tail + 2 ^ 64 - head) % 2 ^ 64 < (s.hive owner).tqsize)
    (hw : deviceWritable b owner ((s.hive owner).tqbase.toNat + 64 + 64 * (tail % max (s.hive owner).tqsize 1)) 64 = true)
    (ht : deviceWritable b owner ((s.hive owner).tqbase.toNat + 8) 8 = true) :
    postFrom (n + 1) s owner part r = (owner,
      (deviceWrite (deviceWrite b owner ((s.hive owner).tqbase.toNat + 64 + 64 * (tail % max (s.hive owner).tqsize 1))
        (r.bytes (s.hive owner).seq)) owner ((s.hive owner).tqbase.toNat + 8) (leBytes 8 (tail + 1))).modHive owner
          (fun x => { x with seq := x.seq + 1 })) := by
  rw [postFrom, if_neg hne, postHive]
  simp only [State.id_hive hs, ha, hb, if_pos hroom, hw, ht, Bool.and_self, if_true]

theorem postFrom_full (ha : deviceRead s owner (s.hive owner).tqbase.toNat = some (head, a))
    (hb : deviceRead a owner ((s.hive owner).tqbase.toNat + 8) = some (tail, b))
    (hfull : (s.hive owner).tqsize ≤ (tail + 2 ^ 64 - head) % 2 ^ 64) :
    postFrom (n + 1) s owner part r = (owner, pendRecord b owner part r) := by
  rw [postFrom, if_neg hne, postHive]
  simp only [State.id_hive hs, ha, hb, if_neg (Nat.not_lt.mpr hfull)]

/-- A queue that cannot be read passes the record on, with QFAULT (R83). -/
theorem postFrom_unread (h : deviceRead s owner (s.hive owner).tqbase.toNat = none ∨
      ∃ head a, deviceRead s owner (s.hive owner).tqbase.toNat = some (head, a) ∧
        deviceRead a owner ((s.hive owner).tqbase.toNat + 8) = none) :
    ∃ t q, postFrom (n + 1) s owner part r = postFrom n t (s.hive owner).parent part { r with flags := r.flags ||| 4 } ∧
      t = { s with llc := q } := by
  rw [postFrom, if_neg hne, postHive]
  rcases h with h | ⟨head, a, ha, hb⟩
  · refine ⟨s, s.llc, ?_, rfl⟩
    simp only [State.id_hive hs, h]
    rfl
  · obtain ⟨q, rfl⟩ := deviceRead_eq ha
    refine ⟨_, q, ?_, rfl⟩
    simp only [State.id_hive hs, ha, hb]
    rfl

end

/-- A record with a ticket stays pending with its hive, after those that are (R81). -/
theorem pendRecord_hive {b : State} {owner part : Nat} {r : TrapRecord} (hne : owner ≠ 0) (hs : (b.findHive owner).isSome = true)
    (hr : r.ticket ≠ 0) : ((pendRecord b owner part r).hive owner).pend = (b.hive owner).pend ++ [r] ∧
      ((pendRecord b owner part r).hive owner).pendNotices = (b.hive owner).pendNotices := by
  have hp : pendRecord b owner part r = b.modHive owner (fun h => { h with
      pend := if r.ticket = 0 ∧ h.pend.contains r then h.pend else h.pend ++ [r] }) := by
    rw [pendRecord, if_neg hne, if_neg (fun h => hr h.1)]
  rw [hp, State.hive_modHive_self hs fun _ => by rfl]
  exact ⟨if_neg fun h => hr h.1, rfl⟩

theorem pendRecord_mem (b : State) (owner part : Nat) (r : TrapRecord) : (pendRecord b owner part r).mem = b.mem := by
  unfold pendRecord
  split
  · rfl
  · split <;> rfl

/-- What the device stores within one page lies at that page's place, byte for byte (R81). -/
theorem get_deviceWrite {s v : State} {owner va pa : Nat} {e : TlbEntry} {bs : List Byte} (hpage : va % 65536 + bs.length ≤ 65536)
    (hl : locate s ⟨owner, none, false⟩ va .write = .ok (.mem pa e, v)) (a : Nat) :
    Mem.get (deviceWrite s owner va bs).mem a = if pa ≤ a ∧ a < pa + bs.length then bs.getD (a - pa) 0 else Mem.get s.mem a := by
  have hv : v.mem = s.mem := by rw [locate_mem_eq hl]; rfl
  have hput : (devicePut s owner va bs).mem = Mem.put s.mem pa bs := by
    rw [devicePut, hl, ← hv]
    rfl
  have hshort : ¬ 65536 - va % 65536 < bs.length := by omega
  rw [deviceWrite, if_neg hshort, List.take_of_length_le (by omega), hput, Mem.get_put]
  rfl

/-! ## The host's queue (R302) -/

theorem State.part_modPart (s : State) {n : Nat} (f : Partition → Partition) (hn : n < s.parts.length) :
    (s.modPart n f).part n = f (s.part n) := by
  simp [State.part, State.modPart, List.getD_eq_getElem?_getD, hn]

section
variable (s : State) (part n : Nat) (r : TrapRecord)

/-- Memory with a record in the host's queue and TAIL past it (R302). -/
def hostStored : Mem :=
  let p := s.part part
  let tail := Mem.read s.mem (p.hqbase + 8) 8
  Mem.write (Mem.put s.mem (p.hqbase + 64 + 64 * (tail % max p.hqsize 1)) (r.bytes p.seq)) (p.hqbase + 8) 8 (tail + 1)

/-- The state with a record in the host's queue, counted (R302). -/
def hostPosted : State := State.modPart { s with mem := hostStored s part r } part (fun x => { x with seq := x.seq + 1 })

/-- A link interrupt message that names the partition, where the queue was empty (R302). -/
def interruptIf (u : State) (b : Prop) [Decidable b] : State := if b then { u with interrupts := part :: u.interrupts } else u

theorem interruptIf_mem (u : State) (b : Prop) [Decidable b] : (interruptIf part u b).mem = u.mem := by
  unfold interruptIf
  split <;> rfl

theorem interruptIf_part (u : State) (b : Prop) [Decidable b] (n : Nat) : (interruptIf part u b).part n = u.part n := by
  unfold interruptIf
  split <;> rfl

theorem interruptIf_interrupts (u : State) (b : Prop) [Decidable b] :
    (interruptIf part u b).interrupts = if b then part :: u.interrupts else u.interrupts := by
  unfold interruptIf
  split <;> rfl

theorem postFrom_host_room (h : (Mem.read s.mem ((s.part part).hqbase + 8) 8 + 2 ^ 64 - Mem.read s.mem (s.part part).hqbase 8) % 2 ^ 64 <
      (s.part part).hqsize) : postFrom (n + 1) s 0 part r = (0, interruptIf part (hostPosted s part r)
        (Mem.read s.mem (s.part part).hqbase 8 = Mem.read s.mem ((s.part part).hqbase + 8) 8)) := by
  rw [postFrom, if_pos rfl, postHost]
  simp only [if_pos h]
  rfl

theorem postFrom_host_full (h : (s.part part).hqsize ≤
      (Mem.read s.mem ((s.part part).hqbase + 8) 8 + 2 ^ 64 - Mem.read s.mem (s.part part).hqbase 8) % 2 ^ 64) :
    postFrom (n + 1) s 0 part r = (0, s.modPart part (fun p => { p with pend := p.pend ++ [r] })) := by
  rw [postFrom, if_pos rfl, postHost]
  simp only [if_neg (Nat.not_lt.mpr h)]
  rfl

theorem hostPosted_mem : (hostPosted s part r).mem = hostStored s part r := rfl

theorem hostPosted_interrupts : (hostPosted s part r).interrupts = s.interrupts := rfl

variable {s part}

theorem hostStored_entry (hsize : 0 < (s.part part).hqsize) {k : Nat} (hk : k < 64) :
    Mem.get (hostStored s part r) ((s.part part).hqbase + 64 +
      64 * (Mem.read s.mem ((s.part part).hqbase + 8) 8 % (s.part part).hqsize) + k) = (r.bytes (s.part part).seq).getD k 0 := by
  have hm : max (s.part part).hqsize 1 = (s.part part).hqsize := Nat.max_eq_left hsize
  have hb := r.bytes_length (s.part part).seq
  rw [hostStored, hm, Mem.get_write, if_neg (by omega), Mem.get_put, if_pos (by omega), Nat.add_sub_cancel_left]
  rfl

theorem hostStored_tail : Mem.read (hostStored s part r) ((s.part part).hqbase + 8) 8 =
    (Mem.read s.mem ((s.part part).hqbase + 8) 8 + 1) % 2 ^ 64 := by
  rw [hostStored, Mem.read_write, show (256 : Nat) ^ 8 = 2 ^ 64 by norm_num]

theorem hostPosted_seq (hp : part < s.parts.length) : ((hostPosted s part r).part part).seq = (s.part part).seq + 1 :=
  congrArg Partition.seq (State.part_modPart { s with mem := hostStored s part r } (fun x => { x with seq := x.seq + 1 }) hp)

end

/-! ## Suspension (R80, R259) -/

/-- The partitions and the numbering of tickets are as they were. -/
structure KeepsTickets (s t : State) : Prop where
  parts : t.parts = s.parts
  nextTicket : t.nextTicket = s.nextTicket

theorem KeepsTickets.trans {s t u : State} (h : KeepsTickets s t) (g : KeepsTickets t u) : KeepsTickets s u :=
  ⟨g.parts.trans h.parts, g.nextTicket.trans h.nextTicket⟩

theorem KeepsTickets.foldl {α : Type} {f : State → α → State} (hf : ∀ s x, KeepsTickets s (f s x)) (l : List α) (s : State) :
    KeepsTickets s (l.foldl f s) := by
  induction l generalizing s with
  | nil => exact ⟨rfl, rfl⟩
  | cons x l ih => exact (hf s x).trans (ih _)

theorem releaseL1_keepsTickets (s : State) (w : Who) (scope : Nat) : KeepsTickets s (releaseL1 s w scope) := by
  obtain ⟨c, h⟩ := releaseL1_cachesOnly s w scope
  rw [h.state_eq]
  exact ⟨rfl, rfl⟩

theorem deviceWrite_keepsTickets (s : State) (hive va : Nat) (bs : List Byte) : KeepsTickets s (deviceWrite s hive va bs) := by
  obtain ⟨m, q, h⟩ := deviceWrite_eq s hive va bs
  rw [h]
  exact ⟨rfl, rfl⟩

theorem deviceRead_keepsTickets {s t : State} {hive va x : Nat} (h : deviceRead s hive va = some (x, t)) : KeepsTickets s t := by
  obtain ⟨q, rfl⟩ := deviceRead_eq h
  exact ⟨rfl, rfl⟩

theorem poolPut_keepsTickets (s : State) (h : Hive) (off : Nat) (bs : List Byte) : KeepsTickets s (poolPut s h off bs) :=
  ⟨chargePool_parts { s with mem := _ } h off bs.length, chargePool_nextTicket { s with mem := _ } h off bs.length⟩

theorem writeEntry_keepsTickets (s : State) (k kind : Nat) : KeepsTickets s (writeEntry s k kind) := by
  have hf (l : List (Nat × List Byte)) (h : Hive) (base n : Nat) :
      KeepsTickets s { l.foldl (fun s x => poolPut s h (base + x.1) x.2) s with freeCount := n } := by
    obtain ⟨hp, ht⟩ := KeepsTickets.foldl (fun u (x : Nat × List Byte) => poolPut_keepsTickets u h (base + x.1) x.2) l s
    exact ⟨hp, ht⟩
  exact hf _ _ _ _

theorem traceRecord_keepsTickets (s : State) (k kind : Nat) (a b : Word) : KeepsTickets s (traceRecord s k kind a b) := by
  unfold traceRecord
  dsimp only
  split
  · exact ⟨rfl, rfl⟩
  · have drop (u : State) (id va : Nat) : KeepsTickets u
        (match deviceRead u id va with
          | some (d, v) => if deviceWritable v id va 8 then deviceWrite v id va (leBytes 8 (d + 1)) else v
          | none => u) := by
      split
      · next hd =>
        split
        · exact (deviceRead_keepsTickets hd).trans (deviceWrite_keepsTickets _ _ _ _)
        · exact deviceRead_keepsTickets hd
      · exact ⟨rfl, rfl⟩
    split
    · exact drop s _ _
    · next hd =>
      refine (deviceRead_keepsTickets hd).trans ?_
      split
      · exact (deviceWrite_keepsTickets _ _ _ _).trans (deviceWrite_keepsTickets _ _ _ _)
      · exact drop _ _ _

theorem State.modStrand_strands_congr {s t : State} (h : t.strands = s.strands) (k : Nat) (f : Strand → Strand) :
    (t.modStrand k f).strands = (s.modStrand k f).strands := by
  simp only [State.modStrand, State.strand, h]

/-- Strand k off its share, with its state in its save entry: what a suspension comes to before its record is posted (R80, R259). -/
def saved (s : State) (k kind : Nat) : State :=
  writeEntry ((unpin (releaseL1 s ⟨(s.strand k).hive, (s.strand k).share, true⟩ 2) k).modStrand k
    (fun t => { releaseShare t with status := .suspended, preempt := none })) k kind

/-- Strand k with its ticket, after its record was posted: p is the hive that received it, and the state (R74, R82). -/
def ticketed (p : Nat × State) (k : Nat) (kind : SuspKind) (r : TrapRecord) : State :=
  State.modStrand { p.2 with nextTicket := p.2.nextTicket + 1 } k (fun t => { t with susp := some ⟨kind, r.ticket, p.1, r⟩ })

section
variable (p : Nat × State) {k : Nat} (kind : SuspKind) (r : TrapRecord)

theorem ticketed_eq : ticketed p k kind r =
    { p.2 with strands := (ticketed p k kind r).strands, nextTicket := p.2.nextTicket + 1 } := rfl

theorem ticketed_strand (hk : k < p.2.strands.length) :
    (ticketed p k kind r).strand k = { p.2.strand k with susp := some ⟨kind, r.ticket, p.1, r⟩ } :=
  State.strand_mod_self { p.2 with nextTicket := p.2.nextTicket + 1 } k _ hk

theorem ticketed_other {j : Nat} (hj : j ≠ k) : (ticketed p k kind r).strand j = p.2.strand j :=
  State.strand_mod_other { p.2 with nextTicket := p.2.nextTicket + 1 } k j _ hj

end

section
variable (s : State) (k saveKind : Nat) (kind : SuspKind) (owner : Nat) (r : TrapRecord)

theorem suspendWith_eq {part : Nat} (hpart : (saved s k saveKind).partOf (s.strand k).hive = part) :
    suspendWith s k saveKind kind owner r = ticketed (post (saved s k saveKind) owner part r) k kind r := by
  subst hpart
  unfold saved suspendWith ticketed
  rfl

theorem saved_keepsTickets : KeepsTickets s (saved s k saveKind) := by
  obtain ⟨hp, ht⟩ := releaseL1_keepsTickets s ⟨(s.strand k).hive, (s.strand k).share, true⟩ 2
  exact KeepsTickets.trans ⟨by simp [unpin, hp], by simp [unpin, ht]⟩ (writeEntry_keepsTickets _ k saveKind)

theorem saved_keepsStrands : KeepsStrands (s.modStrand k (fun t => { releaseShare t with status := .suspended, preempt := none }))
    (saved s k saveKind) := by
  obtain ⟨hs, hc, hh⟩ := releaseL1_keepsStrands s ⟨(s.strand k).hive, (s.strand k).share, true⟩ 2
  exact KeepsStrands.trans ⟨State.modStrand_strands_congr (by simp [unpin, hs]) k _, by simp [unpin, hc], by simp [unpin, hh]⟩
    (writeEntry_keepsStrands _ k saveKind)

end


/-! ## A trap that goes to the parent (R80, R254) -/

/-- A new ticket is not the HIVEID of an initial strand (R82). -/
theorem freshTicket_ge (s : State) : 0x10000 ≤ (freshTicket s).toNat := by
  unfold freshTicket
  simp only []
  cases hf : List.find? _ _ with
  | none => decide
  | some c =>
    obtain ⟨n, -, rfl⟩ := List.mem_map.mp (List.mem_of_find?_eq_some hf)
    rw [Option.getD_some, BitVec.toNat_ofNat]
    have hlt : (s.nextTicket - 0x10000 + n) % (2 ^ 32 - 0x10000) < 2 ^ 32 - 0x10000 := Nat.mod_lt _ (by decide)
    omega

section
variable {s : State} {x : Trap}

/-- The strand as a trap finds it, its queue held (R254). -/
def trapped (s : State) (k : Nat) (held : List QEntry) : State :=
  s.modStrand k (fun t => { t with queue := held, pendTrap := none })

theorem trapped_strand {k : Nat} (hk : k < s.strands.length) (held : List QEntry) :
    (trapped s k held).strand k = { s.strand k with queue := held, pendTrap := none } := State.strand_mod_self s k _ hk

/-- The trap traced and counted for its hive (R80, R311). -/
def reflected (s : State) (k : Nat) (x : Trap) (pc : Word) (held : List QEntry) : State :=
  (traceRecord (trapped s k held) k 2 pc (BitVec.ofNat 64 x.cause.code)).modHive (s.hive (s.strand k).hive).id
    (fun h => { h with reflected := h.reflected + 1 })

theorem deliverParent_eq (s : State) (k : Nat) (x : Trap) (pc : Word) (held : List QEntry) : deliverParent s k x pc held =
    suspendWith (reflected s k x pc held) k 0 (if (s.strand k).inHandler then .handlerTrap else .trap) (s.hive (s.strand k).hive).parent
      (trapRecord (trapped s k held) k x pc (freshTicket (trapped s k held)) (!x.cause.parental || (s.strand k).inHandler)) := rfl

theorem raise_parental (hq : s.me.queue = [])
    (hp : x.cause.parental = true ∨ s.myHive.trapmask.getLsbD x.cause.code = false ∨ s.me.trapcause.getLsbD 8 = true)
    (hw : ¬ (x.cause = .tableWrite ∧ s.myHive.parent = 0)) : raise s x = deliverParent s s.cur x s.me.pc [] := by
  have hl : handlesLocally s s.cur x.cause = false := by
    change (!x.cause.parental && s.myHive.trapmask.getLsbD x.cause.code && !s.me.trapcause.getLsbD 8) = false
    rcases hp with h | h | h <;> simp [h]
  have he : (s.strand s.cur).queue.isEmpty = true := by
    rw [← State.me, hq]
    rfl
  rw [raise, raiseAt]
  simp only [he, if_true]
  rw [deliver, if_neg (by simp [hl])]
  exact if_neg hw

variable {k : Nat} {pc : Word} {held : List QEntry}

theorem reflected_keepsTickets : KeepsTickets s (reflected s k x pc held) := by
  obtain ⟨hp, ht⟩ := traceRecord_keepsTickets (trapped s k held) k 2 pc (BitVec.ofNat 64 x.cause.code)
  exact ⟨hp, ht⟩

theorem reflected_keepsStrands :
    KeepsStrands ((trapped s k held).modHive (s.hive (s.strand k).hive).id (fun h => { h with reflected := h.reflected + 1 }))
      (reflected s k x pc held) := by
  obtain ⟨hs, hc, hh⟩ := traceRecord_keepsStrands (trapped s k held) k 2 pc (BitVec.ofNat 64 x.cause.code)
  exact ⟨hs, hc, congrArg (List.map _) hh⟩

theorem Posts.nextTicket {s t : State} (h : Posts s t) : t.nextTicket = s.nextTicket := by rw [h.eq]

theorem Posts.cur {s t : State} (h : Posts s t) : t.cur = s.cur := by rw [h.eq]

/-- What a strand is as its record is posted (R259). -/
theorem saved_reflected_strand (hk : k < s.strands.length) (kind : Nat) :
    (saved (reflected s k x pc held) k kind).strand k =
        { releaseShare { s.strand k with queue := held, pendTrap := none } with status := .suspended, preempt := none } ∧
      (∀ j, j ≠ k → (saved (reflected s k x pc held) k kind).strand j = s.strand j) ∧
      k < (saved (reflected s k x pc held) k kind).strands.length ∧
      (saved (reflected s k x pc held) k kind).cur = s.cur ∧
      (saved (reflected s k x pc held) k kind).hives =
        (s.modHive (s.hive (s.strand k).hive).id (fun h => { h with reflected := h.reflected + 1 })).hives := by
  have hr := reflected_keepsStrands (s := s) (x := x) (k := k) (pc := pc) (held := held)
  have hs := saved_keepsStrands (reflected s k x pc held) k kind
  have hl : k < (reflected s k x pc held).strands.length := by
    rw [hr.strands]
    simpa [trapped] using hk
  refine ⟨?_, fun j hj => ?_, ?_, hs.cur.trans hr.cur, hs.hives.trans hr.hives⟩
  · rw [hs.strand, State.strand_mod_self _ k _ hl, hr.strand]
    exact congrArg (fun t => { releaseShare t with status := .suspended, preempt := none }) (trapped_strand hk held)
  · rw [hs.strand, State.strand_mod_other _ k j _ hj, hr.strand]
    exact State.strand_mod_other s k j (fun t => { t with queue := held, pendTrap := none }) hj
  · rw [hs.strands]
    simpa using hl

end

/-- A parental or declined trap: the strand off its share with a ticket, its record posted to the parent's queue (R80, R254). -/
theorem raise_parental_posts {s : State} {x : Trap} (hr : s.runs = true) (hq : s.me.queue = [])
    (hp : x.cause.parental = true ∨ s.myHive.trapmask.getLsbD x.cause.code = false ∨ s.me.trapcause.getLsbD 8 = true)
    (hw : ¬ (x.cause = .tableWrite ∧ s.myHive.parent = 0)) :
    ∃ (w : State) (r : TrapRecord), KeepsTickets s w ∧
      w.hives = (s.modHive s.myHive.id (fun h => { h with reflected := h.reflected + 1 })).hives ∧ w.cur = s.cur ∧
      s.cur < w.strands.length ∧ (∀ k, k ≠ s.cur → w.strand k = s.strand k) ∧
      w.strand s.cur = { releaseShare { s.me with queue := [], pendTrap := none } with status := .suspended, preempt := none } ∧
      r = trapRecord (trapped s s.cur []) s.cur x s.me.pc (freshTicket (trapped s s.cur []))
        (!x.cause.parental || s.me.trapcause.getLsbD 8) ∧
      raise s x = ticketed (post w s.myHive.parent s.myHive.part r) s.cur
        (if s.me.trapcause.getLsbD 8 then .handlerTrap else .trap) r := by
  have hk := State.cur_lt_of_runs hr
  obtain ⟨hself, hother, hlen, hcur, hhives⟩ := saved_reflected_strand (x := x) (pc := s.me.pc) (held := []) hk 0
  have htickets := (reflected_keepsTickets (s := s) (k := s.cur) (x := x) (pc := s.me.pc) (held := [])).trans
    (saved_keepsTickets _ s.cur 0)
  have hpart : (saved (reflected s s.cur x s.me.pc []) s.cur 0).partOf ((reflected s s.cur x s.me.pc []).strand s.cur).hive =
      s.myHive.part := by
    have hst : ((reflected s s.cur x s.me.pc []).strand s.cur).hive = s.me.hive := by
      rw [reflected_keepsStrands.strand]
      change ((trapped s s.cur []).strand s.cur).hive = s.me.hive
      rw [trapped_strand hk]
      rfl
    have hsame : SameHives Hive.part s (saved (reflected s s.cur x s.me.pc []) s.cur 0) := by
      refine SameHives.trans ?_ (.of_hives hhives)
      exact .modHive s _ fun _ => ⟨rfl, rfl⟩
    rw [hst, State.partOf, hsame.hive, State.myHive]
  have hdeliver : deliverParent s s.cur x s.me.pc [] = suspendWith (reflected s s.cur x s.me.pc []) s.cur 0
      (if s.me.trapcause.getLsbD 8 then .handlerTrap else .trap) s.myHive.parent (trapRecord (trapped s s.cur []) s.cur x s.me.pc
        (freshTicket (trapped s s.cur [])) (!x.cause.parental || s.me.trapcause.getLsbD 8)) := deliverParent_eq s s.cur x s.me.pc []
  refine ⟨_, _, htickets, hhives, hcur, hlen, hother, hself, rfl, ?_⟩
  rw [raise_parental hq hp hw, hdeliver, suspendWith_eq _ _ _ _ _ _ hpart]

theorem trapRecord_trapped {s : State} {k : Nat} {held : List QEntry} (hk : k < s.strands.length) (x : Trap) (pc : Word)
    (ticket : BitVec 32) (declined : Bool) : trapRecord (trapped s k held) k x pc ticket declined =
      { ticket := ticket, cause := x.cause.code, flags := if declined then 2 else 0, hive := (s.strand k).hive
        strand := (s.strand k).strandId, gang := (s.strand k).gangId, pc := pc, val := x.val, info := x.info, data := x.data
        save := BitVec.ofNat 64 (entryOff (s.hive (s.strand k).hive) (s.strand k)) } := by
  rw [trapRecord, trapped_strand hk]
  rfl

/-- Settles O27: the suspension by what a parental trap posts, the queues by the cases of a post. -/
theorem parentalTrapDelivery : Obligations.ParentalTrapDelivery := by
  refine ⟨fun s x hr hq hp hw => ?_, fun r n => ⟨r.bytes_length n, r.bytes_fields n⟩, fun s owner part n r hne hs => ⟨fun head a tail b ha hb =>
    ⟨postFrom_room hne hs ha hb, fun hfull => ⟨_, postFrom_full hne hs ha hb hfull, ?_, fun hr => ?_⟩⟩, fun h => ?_⟩,
    fun s owner va pa e v bs hpage hl a => get_deviceWrite hpage hl a, fun s part n r hp => ⟨fun h => ?_, fun h => ?_⟩⟩
  · obtain ⟨w, r, htickets, hhives, hcur, hlen, hother, hself, hrec, hraise⟩ := raise_parental_posts hr hq hp hw
    have hposts := post_posts w s.myHive.parent s.myHive.part r
    have hlt : s.cur < (post w s.myHive.parent s.myHive.part r).2.strands.length := by
      rw [hposts.strands]
      exact hlen
    have hme : (raise s x).me = { (post w s.myHive.parent s.myHive.part r).2.strand s.cur with
        susp := some ⟨if s.me.trapcause.getLsbD 8 then .handlerTrap else .trap, r.ticket,
          (post w s.myHive.parent s.myHive.part r).1, r⟩ } := by
      have hc : (raise s x).cur = s.cur := by
        rw [hraise]
        exact hposts.cur.trans hcur
      rw [State.me, hc, hraise]
      exact ticketed_strand _ _ _ hlt
    rw [hposts.strand, hself] at hme
    rw [trapRecord_trapped (State.cur_lt_of_runs hr)] at hrec
    dsimp only
    rw [hme]
    refine ⟨rfl, rfl, rfl, rfl, fun k hk => ?_, fun hs => ?_, _, rfl, rfl, ?_⟩
    · rw [hraise]
      exact (ticketed_other _ _ _ hk).trans ((hposts.strand k).trans (hother k hk))
    · have hsame : SameHives Hive.reflected w (raise s x) := by
        rw [hraise]
        exact hposts.same (F := Hive.reflected) fun _ => rfl
      have hself := State.hive_modHive_self (f := fun h => { h with reflected := h.reflected + 1 }) hs fun _ => rfl
      have hid : s.myHive.id = s.me.hive := State.id_hive hs
      rw [hid] at hhives
      rw [hsame.hive, (SameHives.of_hives hhives : SameHives Hive.reflected _ w).hive, hself]
    · subst hrec
      refine ⟨rfl, rfl, rfl, rfl, rfl, rfl, rfl, rfl, rfl, freshTicket_ge _, rfl, ?_, w, hhives, htickets.parts, rfl, ?_⟩
      · cases x.cause.parental <;> cases s.me.trapcause.getLsbD 8 <;> rfl
      · rw [hraise, ← htickets.nextTicket, ← hposts.nextTicket]
        exact ticketed_eq _ _ _
  · obtain ⟨q, rfl⟩ := deviceRead_eq ha
    obtain ⟨q', rfl⟩ := deviceRead_eq hb
    exact pendRecord_mem _ _ _ _
  · obtain ⟨q, rfl⟩ := deviceRead_eq ha
    obtain ⟨q', rfl⟩ := deviceRead_eq hb
    exact pendRecord_hive hne hs hr
  · obtain ⟨t, q, ht, rfl⟩ := postFrom_unread (part := part) (n := n) (r := r) hne hs h
    exact ⟨_, ht, rfl, rfl, rfl⟩
  · have hsize : 0 < (s.part part).hqsize := Nat.zero_lt_of_lt h
    refine ⟨_, postFrom_host_room s part n r h, fun k hk => ?_, ?_, ?_, ?_⟩
    · rw [interruptIf_mem, hostPosted_mem]
      exact hostStored_entry r hsize hk
    · rw [interruptIf_mem, hostPosted_mem]
      exact hostStored_tail r
    · rw [interruptIf_part]
      exact hostPosted_seq r hp
    · rw [interruptIf_interrupts, hostPosted_interrupts]
  · exact ⟨_, postFrom_host_full s part n r h, rfl, congrArg Partition.pend (State.part_modPart s _ hp)⟩

end Sys2Proof.Machine


/-! SUPPORT. What a memory access on behalf of a comb, an engine or a device leaves alone: everything but memory, the cores, the
slices' requests and the number of free choices made. -/

namespace Sys2Proof.Machine

/-- Between s and t only memory was accessed. -/
def Access (s t : State) : Prop :=
  t = { s with mem := t.mem, cores := t.cores, llc := t.llc, freeCount := t.freeCount }

namespace Access

variable {s t u : State}

theorem refl (s : State) : Access s s := rfl

theorem trans (h : Access s t) (g : Access t u) : Access s u := by
  rw [Access] at h g ⊢
  rw [g, h]

theorem of_cachesOnly {c : Nat} (h : CachesOnly s t c) : Access s t := by
  rw [Access, h.state_eq]

theorem modCore (s : State) (c : Nat) (f : Core → Core) : Access s (s.modCore c f) := rfl

theorem charge (s : State) (m : Mem) (hive pa n : Nat) : Access s (Sys2Proof.Machine.charge { s with mem := m } hive pa n) := rfl

theorem foldl {α : Type} {f : State → α → State} (h : ∀ s x, Access s (f s x)) :
    ∀ (l : List α) (s : State), Access s (l.foldl f s)
  | [], s => refl s
  | x :: l, s => (h s x).trans (foldl h l (f s x))

theorem strands (h : Access s t) : t.strands = s.strands := by rw [h]

theorem hives (h : Access s t) : t.hives = s.hives := by rw [h]

theorem cmds (h : Access s t) : t.cmds = s.cmds := by rw [h]

theorem vfs (h : Access s t) : t.vfs = s.vfs := by rw [h]

theorem strand (h : Access s t) (k : Nat) : t.strand k = s.strand k := by rw [State.strand, h.strands, State.strand]

end Access

theorem xlate_access (s : State) (core : Option Nat) (h : Hive) (k : Nat) : Access s (xlate s core h k).2 := by
  unfold xlate
  split
  · exact .refl s
  · split
    · exact .refl s
    · split <;> exact .refl _

theorem locate_access {s t : State} {w : Who} {va : Nat} {kind : AccessKind} {p : Place}
    (h : locate s w va kind = .ok (p, t)) : Access s t := by
  have hx := xlate_access s w.core (s.hive w.hive) (va % 2 ^ 52)
  unfold locate at h
  dsimp only at h
  split at h
  · cases h
  · split at h
    · split at h
      · split at h <;> cases h
        exact .refl s
      · cases h
    · split at h
      · split at h
        · next e u hu =>
          rw [hu] at hx
          cases hp : placeOf s w kind (va % 2 ^ 52) e <;> rw [hp] at h <;> cases h
          exact hx
        · cases h
      · split at h
        · cases h
        · split at h <;> cases h
          rfl

theorem dropLine_access (s : State) (hive c line : Nat) : Access s (dropLine s hive c line) := .of_cachesOnly dropLine_cachesOnly

theorem releaseL1_access (s : State) (w : Who) (scope : Nat) : Access s (releaseL1 s w scope) := by
  obtain ⟨c, h⟩ := releaseL1_cachesOnly (s := s) (w := w) (n := scope)
  exact .of_cachesOnly h

theorem acquireL1_access (s : State) (w : Who) (scope : Nat) : Access s (acquireL1 s w scope) := by
  obtain ⟨c, h⟩ := acquireL1_cachesOnly (s := s) (w := w) (n := scope)
  exact .of_cachesOnly h

theorem writePlace_access (s : State) (w : Who) (p : Place) (n x : Nat) (b : Bool) : Access s (writePlace s w p n x b) := by
  unfold writePlace
  split
  · exact .modCore s _ _
  · exact .refl s
  · exact .refl s
  · split
    · exact .charge s _ _ _ _
    · split
      · exact (dropLine_access s _ _ _).trans (.charge _ _ _ _ _)
      · unfold l1Write
        exact (Access.of_cachesOnly fetchLine_cachesOnly).trans (.modCore _ _ _)

theorem locateV_access {s t : State} {g : VAgent} {va : Nat} {kind : AccessKind} {p : Place}
    (h : locateV s g va kind = .ok (p, t)) : Access s t := by
  unfold locateV at h
  dsimp only at h
  split at h
  · cases hp : placeOf s g.who kind va _ <;> rw [hp] at h <;> cases h
    exact .refl s
  · exact locate_access h

theorem storeV_access {g : VAgent} {b : Bool} {n va : Nat} {bs : List Byte} {s t : State}
    (h : storeV g b n va bs s = .ok t) : Access s t := by
  induction n generalizing s va bs with
  | zero =>
    cases h
    exact .refl _
  | succ n ih =>
    unfold storeV at h
    split at h
    · cases h
    · next u h4 =>
      refine Access.trans ?_ (ih h)
      unfold store4 at h4
      split at h4
      · cases h4
      · split at h4
        · cases h4
        · next hl =>
          cases h4
          exact (locateV_access hl).trans (writePlace_access _ _ _ _ _ _)

theorem flushBuf_access (s : State) (core : Nat) (b : PortBuf) : Access s (flushBuf s core b) := by
  unfold flushBuf
  have hm := Access.modCore s core (fun c => { c with bufs := c.bufs.filter (fun y => y != b) })
  dsimp only
  split
  · exact hm.trans (.foldl (fun s x => .modCore s _ _) _ _)
  · exact (hm.trans (dropLine_access _ _ _ _)).trans (.charge _ _ _ _ _)

theorem flushCtx_access (s : State) (core : Nat) (x : CombCtx) : Access s (flushCtx s core x) :=
  .foldl (fun s b => flushBuf_access s core b) _ s

theorem freePorts_access (s : State) (core : Nat) (x : CombCtx) : Access s (freePorts s core x) := rfl

theorem putCtx_access (s : State) (core : Nat) (x : CombCtx) : Access s (s.putCtx core x) := rfl

theorem dropCtx_access (s : State) (core : Nat) (x : CombCtx) : Access s (s.dropCtx core x) := rfl

theorem writeRecord_access {s t : State} {x : CombCtx} {st : SlotState} {b : Bool} (h : writeRecord s x st b = .ok t) : Access s t :=
  storeV_access h

/-- What a context leaves in memory when its slot is released. -/
def slotFlushed (s : State) (k : Nat) (n : BitVec 5) : State :=
  match s.ctxOf k n with
  | some (c, x) => (freePorts (flushCtx s c x) c x).dropCtx c x
  | none => s

theorem slotFlushed_access (s : State) (k : Nat) (n : BitVec 5) : Access s (slotFlushed s k n) := by
  unfold slotFlushed
  split
  · exact ((flushCtx_access _ _ _).trans (freePorts_access _ _ _)).trans (dropCtx_access _ _ _)
  · exact .refl s

theorem releaseSlot_eq (s : State) (k : Nat) (n : BitVec 5) :
    releaseSlot s k n = (slotFlushed s k n).modSlot k n (fun _ => FSlot.free) := rfl

/-- A context whose state was written where its record takes it. -/
theorem evictCtx_eq {s t : State} {core : Nat} {x : CombCtx} (h : evictCtx s core x = .ok t) :
    ∃ v, Access s v ∧ t = (v.modSlot x.owner x.slot (fun f => f.note x)).dropCtx core x := by
  unfold evictCtx at h
  dsimp only at h
  split at h
  · cases h
  · next v hv =>
    refine ⟨v, ?_, (Except.ok.inj h).symm⟩
    split at hv
    · cases hv
      exact .refl s
    · exact writeRecord_access hv

end Sys2Proof.Machine


/-! SUPPORT. The end of what a killed hive has (R72): strands that end or lose slots and wait no longer, commands and bound functions
that are no more, and the tree without the hive. -/

namespace Sys2Proof.Machine

/-- A strand that has ended and holds nothing (R37). -/
structure Strand.Over (t : Strand) : Prop where
  status : t.status = .ended
  placed : t.placed = false
  queue : t.queue = []
  susp : t.susp = none
  bound : ∀ n, (t.fslot n).bound = false

/-- Between a and b a strand stayed as over as it was, and ended only to be over. -/
structure Strand.Fades (a b : Strand) : Prop where
  hive : b.hive = a.hive
  stays : a.Over → b.Over
  ended : b.status = .ended → a.status = .ended ∨ b.Over

namespace Strand.Fades

variable {a b c : Strand}

theorem refl (a : Strand) : a.Fades a := ⟨rfl, id, .inl⟩

theorem trans (h : a.Fades b) (g : b.Fades c) : a.Fades c :=
  ⟨g.hive.trans h.hive, fun o => g.stays (h.stays o), fun e => (g.ended e).elim (fun e => (h.ended e).imp_right g.stays) .inr⟩

theorem completedAt (w : Away) (t : Strand) : t.Fades (completedAt w t) := by
  unfold Machine.completedAt
  split
  · exact refl t
  · next hlive =>
    have hno : t.status ≠ .ended := fun h => hlive (by rw [h]; rfl)
    split
    · exact ⟨Strand.setGreg_hive .., fun o => absurd o.status hno, fun h => nomatch h⟩
    · exact ⟨rfl, fun o => absurd o.status hno, .inl⟩

end Strand.Fades

theorem Strand.fslot_setFslot (t : Strand) (n m : BitVec 5) (x : FSlot) :
    (t.setFslot n x).fslot m = if n = m then x else t.fslot m := by
  simp only [Strand.setFslot, Strand.fslot, Vector.getElem_set, ← BitVec.toNat_inj]

theorem Strand.fades_setFslot {t : Strand} {n : BitVec 5} {x : FSlot} (hx : x.bound = true → (t.fslot n).bound = true) :
    t.Fades (t.setFslot n x) := by
  refine ⟨rfl, fun o => ⟨o.status, o.placed, o.queue, o.susp, fun m => ?_⟩, .inl⟩
  rw [Strand.fslot_setFslot]
  split
  · exact Bool.eq_false_iff.mpr fun h => absurd (hx h) (by simp [o.bound n])
  · exact o.bound m

/-- Between s and t strands faded, no command was issued and no function bound, and of each hive F is as it was. -/
structure Fades {α : Type} (F : Hive → α) (s t : State) : Prop where
  length : t.strands.length = s.strands.length
  strand : ∀ k, (s.strand k).Fades (t.strand k)
  cmds : ∀ c ∈ t.cmds, c ∈ s.cmds
  vfs : ∀ v ∈ t.vfs, v ∈ s.vfs
  hives : SameHives F s t

section
variable {α : Type} {F : Hive → α} {s t u : State}

namespace Fades

theorem refl (s : State) : Fades F s s := ⟨rfl, fun _ => .refl _, fun _ => id, fun _ => id, .refl s⟩

theorem trans (h : Fades F s t) (g : Fades F t u) : Fades F s u :=
  ⟨g.length.trans h.length, fun k => (h.strand k).trans (g.strand k), fun c hc => h.cmds c (g.cmds c hc),
    fun v hv => h.vfs v (g.vfs v hv), h.hives.trans g.hives⟩

theorem foldl {β : Type} {f : State → β → State} (hf : ∀ s x, Fades F s (f s x)) (l : List β) (s : State) :
    Fades F s (l.foldl f s) := by
  induction l generalizing s with
  | nil => exact refl s
  | cons x l ih => exact (hf s x).trans (ih _)

/-- The strands, the commands, the functions and the hives as they were. -/
theorem of_eq (hs : t.strands = s.strands) (hc : t.cmds = s.cmds) (hv : t.vfs = s.vfs) (hh : t.hives = s.hives) : Fades F s t :=
  ⟨by rw [hs], fun k => by rw [State.strand, State.strand, hs]; exact .refl _, by rw [hc]; exact fun _ => id, by rw [hv]; exact fun _ => id, .of_hives hh⟩

theorem of_access (h : Access s t) : Fades F s t := of_eq h.strands h.cmds h.vfs h.hives

theorem modHive {f : Hive → Hive} (s : State) (n : Nat) (hf : ∀ x, (f x).id = x.id ∧ F (f x) = F x) : Fades F s (s.modHive n f) :=
  ⟨rfl, fun _ => .refl _, fun _ => id, fun _ => id, .modHive s n hf⟩

theorem modStrand (s : State) (k : Nat) {f : Strand → Strand} (hf : ∀ t : Strand, t.Fades (f t)) : Fades F s (s.modStrand k f) := by
  refine ⟨State.modStrand_length .., fun j => ?_, fun _ => id, fun _ => id, .of_hives rfl⟩
  rw [State.strand_mod]
  split
  · next h => exact h.1 ▸ hf _
  · exact .refl _

theorem of_posts (h : Posts s t) (hq : ∀ x, F x.queueless = F x) : Fades F s t :=
  ⟨by rw [h.strands], fun k => by rw [h.strand]; exact .refl _, by rw [h.eq]; exact fun _ => id, by rw [h.eq]; exact fun _ => id,
    h.same hq⟩

end Fades

theorem modSlot_fades (s : State) (k : Nat) (n : BitVec 5) {f : FSlot → FSlot} (hf : ∀ x, (f x).bound = true → x.bound = true) :
    Fades F s (s.modSlot k n f) :=
  .modStrand s k fun _ => Strand.fades_setFslot (hf _)

theorem releaseSlot_fades (s : State) (k : Nat) (n : BitVec 5) : Fades F s (releaseSlot s k n) :=
  releaseSlot_eq s k n ▸ (Fades.of_access (slotFlushed_access s k n)).trans (modSlot_fades _ k n fun _ h => nomatch h)

theorem completeAt_fades (s : State) (k : Nat) (w : Away) : Fades F s (completeAt s k w) := by
  have hrest : (completeAt s k w).cmds = s.cmds ∧ (completeAt s k w).vfs = s.vfs ∧ (completeAt s k w).hives = s.hives := by
    unfold completeAt
    dsimp only
    split
    · exact ⟨rfl, rfl, rfl⟩
    · split
      · split
        · have h := acquireL1_access s ⟨(s.strand k).hive, (s.strand k).share, true⟩ 1
          exact ⟨h.cmds, h.vfs, h.hives⟩
        · exact ⟨rfl, rfl, rfl⟩
      · exact ⟨rfl, rfl, rfl⟩
  obtain ⟨hc, hv, hh⟩ := hrest
  refine ⟨by rw [completeAt_strands, List.length_set], fun j => ?_, by rw [hc]; exact fun _ => id, by rw [hv]; exact fun _ => id,
    .of_hives hh⟩
  rw [completeAt_strand]
  split
  · next h => exact h.1 ▸ .completedAt w _
  · exact .refl _

/-! ## Strands that end -/

theorem undoBindings_fades (s : State) (k : Nat) : Fades F s (undoBindings s k) :=
  .foldl (fun s _ => releaseSlot_fades s k _) _ s

theorem releaseSlot_strand (s : State) (k j : Nat) (n : BitVec 5) : (releaseSlot s k n).strand j =
    if k = j ∧ k < s.strands.length then (s.strand k).setFslot n FSlot.free else s.strand j := by
  have h := slotFlushed_access s k n
  rw [releaseSlot_eq, State.modSlot, State.strand_mod, h.strands, h.strand, h.strand]

/-- A strand whose fabric slots alone were released. -/
theorem undoBindings_strand (s : State) (k : Nat) : ∃ l, (undoBindings s k).strand k = { s.strand k with fslots := l } := by
  have hfold (l : List Nat) : ∀ s, ∃ v, (l.foldl (fun s n => releaseSlot s k (BitVec.ofNat 5 n)) s).strand k =
      { s.strand k with fslots := v } := by
    induction l with
    | nil => exact fun s => ⟨_, rfl⟩
    | cons n l ih =>
      intro s
      obtain ⟨v, hv⟩ := ih (releaseSlot s k (BitVec.ofNat 5 n))
      refine ⟨v, hv.trans ?_⟩
      rw [releaseSlot_strand]
      split <;> rfl
  exact hfold _ s

theorem undoBindings_other (s : State) {k j : Nat} (hj : j ≠ k) : (undoBindings s k).strand j = s.strand j := by
  have hfold (l : List Nat) : ∀ s, (l.foldl (fun s n => releaseSlot s k (BitVec.ofNat 5 n)) s).strand j = s.strand j := by
    induction l with
    | nil => exact fun s => rfl
    | cons n l ih =>
      intro s
      rw [List.foldl_cons, ih, releaseSlot_strand, if_neg (fun h => hj h.1.symm)]
  exact hfold _ s

/-- A released slot stays unbound while others are released. -/
theorem releaseSlots_unbound (s : State) {k : Nat} (hk : k < s.strands.length) (m : BitVec 5) (l : List Nat)
    (hm : ((s.strand k).fslot m).bound = false ∨ ∃ n ∈ l, BitVec.ofNat 5 n = m) :
    (((l.foldl (fun s n => releaseSlot s k (BitVec.ofNat 5 n)) s).strand k).fslot m).bound = false := by
  induction l generalizing s with
  | nil => exact hm.elim id fun ⟨_, h, _⟩ => nomatch h
  | cons n l ih =>
    have hlen : (releaseSlot s k (BitVec.ofNat 5 n)).strands.length = s.strands.length :=
      (releaseSlot_fades (F := id) s k _).length
    refine ih _ (hlen ▸ hk) ?_
    rw [releaseSlot_strand, if_pos ⟨rfl, hk⟩, Strand.fslot_setFslot]
    by_cases hn : BitVec.ofNat 5 n = m
    · exact .inl (by rw [if_pos hn]; rfl)
    · rw [if_neg hn]
      refine hm.imp_right fun ⟨i, hi, him⟩ => ⟨i, ?_, him⟩
      exact (List.mem_cons.mp hi).resolve_left fun h => hn (h ▸ him)

theorem undoBindings_unbound (s : State) {k : Nat} (hk : k < s.strands.length) (m : BitVec 5) :
    (((undoBindings s k).strand k).fslot m).bound = false := by
  refine releaseSlots_unbound s hk m _ ?_
  by_cases hm : ((s.strand k).fslot m).bound = false
  · exact .inl hm
  · refine .inr ⟨m.toNat, List.mem_filter.mpr ⟨List.mem_range.mpr m.isLt, ?_⟩, BitVec.ofNat_toNat .. |>.trans (BitVec.setWidth_eq m)⟩
    simpa using hm

theorem endStrand_over (s : State) {k : Nat} (hk : k < s.strands.length) : ((endStrand s k).strand k).Over := by
  have hlen : (undoBindings s k).strands.length = s.strands.length := (undoBindings_fades (F := id) s k).length
  have hun := undoBindings_unbound s hk
  rw [endStrand, State.strand_mod_self _ k _ (hlen ▸ hk)]
  exact ⟨rfl, rfl, rfl, rfl, hun⟩

theorem endStrand_fades (s : State) (k : Nat) : Fades F s (endStrand s k) := by
  have hu : Fades F s (undoBindings s k) := undoBindings_fades s k
  refine ⟨(State.modStrand_length ..).trans hu.length, fun j => ?_, hu.cmds, hu.vfs, hu.hives⟩
  by_cases hj : k = j ∧ k < s.strands.length
  · obtain ⟨rfl, hk⟩ := hj
    have hover := endStrand_over s hk
    refine ⟨?_, fun _ => hover, fun _ => .inr hover⟩
    rw [endStrand, State.strand_mod]
    split
    · exact (hu.strand k).hive
    · exact (hu.strand k).hive
  · rw [endStrand, State.strand_mod, hu.length, if_neg hj]
    exact hu.strand j

/-- Every strand of a hive ended. -/
def endStrandsOf (h : Nat) (l : List Nat) (s : State) : State :=
  l.foldl (fun s i => if (s.strand i).hive == h && !(s.strand i).status.isEnded then endStrand s i else s) s

theorem endStrandsOf_step_fades (h : Nat) (s : State) (i : Nat) :
    Fades F s (if (s.strand i).hive == h && !(s.strand i).status.isEnded then endStrand s i else s) := by
  split
  · exact endStrand_fades s i
  · exact .refl s

theorem endStrandsOf_fades (h : Nat) (l : List Nat) (s : State) : Fades F s (endStrandsOf h l s) :=
  .foldl (endStrandsOf_step_fades h) l s

theorem isEnded_iff (x : Status) : x.isEnded = true ↔ x = .ended := by
  cases x <;> simp [Status.isEnded]

theorem endStrandsOf_over {h : Nat} {l : List Nat} {s : State} {k : Nat} (hl : k ∈ l) (hk : k < s.strands.length)
    (hh : (s.strand k).hive = h) (hs : (s.strand k).status ≠ .ended) : ((endStrandsOf h l s).strand k).Over := by
  induction l generalizing s with
  | nil => exact absurd hl List.not_mem_nil
  | cons i l ih =>
    have hstep := endStrandsOf_step_fades (F := id) h s i
    have hrest := endStrandsOf_fades (F := id) h l
      (if (s.strand i).hive == h && !(s.strand i).status.isEnded then endStrand s i else s)
    by_cases hik : i = k
    · subst hik
      refine (hrest.strand i).stays ?_
      have hc : ((s.strand i).hive == h && !(s.strand i).status.isEnded) = true := by
        simp [hh, Bool.eq_false_iff, isEnded_iff, hs]
      rw [if_pos hc]
      exact endStrand_over s hk
    · by_cases he : ((if (s.strand i).hive == h && !(s.strand i).status.isEnded then endStrand s i else s).strand k).status = .ended
      · exact (hrest.strand k).stays (((hstep.strand k).ended he).resolve_left hs)
      · exact ih ((List.mem_cons.mp hl).resolve_left (Ne.symm hik)) (hstep.length ▸ hk) ((hstep.strand k).hive.trans hh) he

/-! ## Lane groups that pass -/

theorem dropRegion_fades (s : State) (c : Nat) (x : CombCtx) : Fades F s (dropRegion s c x) := by
  unfold dropRegion
  split
  · next hv =>
    obtain ⟨v, ha, rfl⟩ := evictCtx_eq hv
    have hn : Fades F v (v.modSlot x.owner x.slot (fun f => f.note x)) := modSlot_fades v _ _ fun _ h => h
    exact ((Fades.of_access ha).trans hn).trans (.of_access (dropCtx_access _ _ _))
  · exact .of_access (dropCtx_access _ _ _)

theorem clearComb_fades (s : State) (x : ShareRef) : Fades F s (clearComb s x) :=
  .foldl (fun s y => dropRegion_fades s x.core y) _ s

theorem clearLanes_fades (s : State) (x : ShareRef) : Fades F s (clearLanes s x) :=
  (clearComb_fades s x).trans (.of_eq rfl rfl rfl rfl)

end

end Sys2Proof.Machine


/-! SUPPORT. Killing (R72): one hive, and a hive with its descendants. -/

namespace Sys2Proof.Machine

section
variable {α : Type} {F : Hive → α} {s t : State}

/-! ## What happens to a hive before it leaves the tree -/

theorem foldl_rings_eq {β : Type} {f : State → β → State} (hf : ∀ s x, f s x = { s with rings := (f s x).rings }) (l : List β) (s : State) :
    l.foldl f s = { s with rings := (l.foldl f s).rings } := by
  induction l generalizing s with
  | nil => rfl
  | cons x l ih =>
    rw [List.foldl_cons, ih, hf]

theorem discardRing_eq (s : State) (h : Nat) : discardRing s h = { s with rings := (discardRing s h).rings } := by
  unfold discardRing
  dsimp only
  split
  · exact foldl_rings_eq (fun _ _ => rfl) _ s
  · rfl

/-- What a hive has running in the machine at once, gone. -/
def dropWork (s : State) (h : Nat) : State :=
  { s with
    cmds := s.cmds.filter (fun c => c.hive != h), llc := s.llc.filter (fun r => r.hive != h)
    walks := s.walks.filter (fun w => w.hive != h), imports := s.imports.filter (fun x => x.2.2 != h)
    cores := s.cores.map (fun c => { c with tlb := c.tlb.filter (fun e => e.hive != h) }) }

theorem dropWork_fades (s : State) (h : Nat) : Fades F s (dropWork s h) :=
  ⟨rfl, fun _ => .refl _, fun _ hc => List.mem_of_mem_filter hc, fun _ => id, .of_hives rfl⟩

theorem releaseVfs_fades (hq : ∀ x, F x.queueless = F x) (s : State) (h : Nat) : Fades F s (releaseVfs s h) := by
  have hd : Fades F s { s with vfs := s.vfs.filter (fun v => v.2 != h) } :=
    ⟨rfl, fun _ => .refl _, fun _ => id, fun _ hv => List.mem_of_mem_filter hv, .of_hives rfl⟩
  exact hd.trans (.foldl (fun s v => .of_posts (post_posts s 0 _ _) hq) _ _)

theorem dropTaking_fades (s : State) (part h : Nat) : Fades F s (dropTaking s part h) := by
  unfold dropTaking
  split
  · split
    · next x _ _ =>
      have hm : Fades F s (s.modPart part (fun p => { p with taking := none })) := .of_eq rfl rfl rfl rfl
      exact hm.trans (completeAt_fades _ _ _)
    · exact .refl s
  · exact .refl s

/-- A hive's strands ended, and its work gone. -/
def emptied (s : State) (h : Nat) : State :=
  dropWork (endStrandsOf h (List.range (discardRing s h).strands.length) (discardRing s h)) h

/-- A hive that is to leave the tree. -/
def leaving (s : State) (h : Nat) : State := dropTaking (releaseVfs (emptied s h) h) (s.hive h).part h

/-- What a hive held, passed on: its shares, and its ring. -/
def passOn (tgt : Nat) (k : Hive) (s : State) : State :=
  let s := k.shares.foldl (fun s x => if tgt = 0 then clearLanes s x else receiveShare s tgt x) s
  if hasRing k && tgt != 0 then claimRing s tgt else s

theorem killOne_eq (tgt : Nat) (s : State) (h : Nat) : killOne tgt s h =
    passOn tgt (s.hive h) { leaving s h with hives := (leaving s h).hives.filter (fun x => x.id != h) } := rfl

theorem discardRing_fades (s : State) (h : Nat) : Fades F s (discardRing s h) := by
  rw [discardRing_eq]
  exact .of_eq rfl rfl rfl rfl

theorem emptied_fades (s : State) (h : Nat) : Fades F s (emptied s h) :=
  ((discardRing_fades s h).trans (endStrandsOf_fades h _ _)).trans (dropWork_fades _ h)

theorem leaving_fades (hq : ∀ x, F x.queueless = F x) (s : State) (h : Nat) : Fades F s (leaving s h) :=
  ((emptied_fades s h).trans (releaseVfs_fades hq _ h)).trans (dropTaking_fades _ _ h)

/-- The strands of a hive that leaves have ended. -/
theorem leaving_over {s : State} {h k : Nat} (hk : k < s.strands.length) (hh : (s.strand k).hive = h)
    (hs : (s.strand k).status ≠ .ended) : ((leaving s h).strand k).Over := by
  have hr := discardRing_eq s h
  have hafter : Fades (fun _ => ()) (dropWork (endStrandsOf h (List.range (discardRing s h).strands.length) (discardRing s h)) h)
      (leaving s h) := (releaseVfs_fades (fun _ => rfl) _ h).trans (dropTaking_fades _ _ h)
  refine (hafter.strand k).stays ?_
  exact endStrandsOf_over (h := h) (s := discardRing s h) (by rw [hr]; exact List.mem_range.mpr hk) (by rw [hr]; exact hk)
    (by rw [hr]; exact hh) (by rw [hr]; exact hs)

theorem leaving_cmds (s : State) (h : Nat) : ∀ c ∈ (leaving s h).cmds, c.hive ≠ h := by
  have hafter : Fades (fun _ => ()) (emptied s h) (leaving s h) :=
    (releaseVfs_fades (fun _ => rfl) _ h).trans (dropTaking_fades _ _ h)
  exact fun c hc => by simpa using (List.mem_filter.mp (hafter.cmds c hc)).2

theorem leaving_vfs (s : State) (h : Nat) : ∀ v ∈ (leaving s h).vfs, v.2 ≠ h := by
  have hafter : Fades (fun _ => ()) { emptied s h with vfs := (emptied s h).vfs.filter (fun v => v.2 != h) } (leaving s h) :=
    Fades.trans (.foldl (fun s v => .of_posts (post_posts s 0 _ _) fun _ => rfl) _ _) (dropTaking_fades _ _ h)
  exact fun v hv => by simpa using (List.mem_filter.mp (hafter.vfs v hv)).2

/-! ## What it held passes on -/

/-- No hive lost a share. -/
def KeepsShares (s t : State) : Prop := ∀ e, ∀ x ∈ (s.hive e).shares, x ∈ (t.hive e).shares

theorem KeepsShares.of_same (h : SameHives Hive.shares s t) : KeepsShares s t := fun e _ hx => h.hive e ▸ hx

theorem KeepsShares.refl (s : State) : KeepsShares s s := fun _ _ => id

theorem KeepsShares.trans {s t u : State} (h : KeepsShares s t) (g : KeepsShares t u) : KeepsShares s u :=
  fun e x hx => g e x (h e x hx)

theorem KeepsShares.modHive {f : Hive → Hive} (s : State) (n : Nat) (hid : ∀ x, (f x).id = x.id)
    (hf : ∀ k : Hive, ∀ x ∈ k.shares, x ∈ (f k).shares) : KeepsShares s (s.modHive n f) := by
  intro e x hx
  by_cases he : e = n
  · subst he
    by_cases hs : (s.findHive e).isSome = true
    · rw [State.hive_modHive_self hs hid]
      exact hf _ x hx
    · rw [State.hive, Option.not_isSome_iff_eq_none.mp hs] at hx
      exact absurd hx List.not_mem_nil
  · rwa [State.hive_modHive_other he hid]

/-- What a hive has that is told neither of its shares nor of its ring. -/
theorem passOn_step_fades (hF : ∀ (x : Hive) (sh : List ShareRef) (r : RingHold), F { x with shares := sh, ring := r } = F x)
    (tgt : Nat) (s : State) (x : ShareRef) : Fades F s (if tgt = 0 then clearLanes s x else receiveShare s tgt x) := by
  split
  · exact clearLanes_fades s x
  · exact (clearLanes_fades s x).trans (.modHive _ tgt fun k => ⟨rfl, hF k _ k.ring⟩)

theorem passOn_cases (tgt : Nat) (k : Hive) (s : State) :
    let v := k.shares.foldl (fun s x => if tgt = 0 then clearLanes s x else receiveShare s tgt x) s
    passOn tgt k s = claimRing v tgt ∨ passOn tgt k s = v := by
  unfold passOn
  dsimp only
  split
  · exact .inl rfl
  · exact .inr rfl

theorem passOn_fades (hF : ∀ (x : Hive) (sh : List ShareRef) (r : RingHold), F { x with shares := sh, ring := r } = F x)
    (tgt : Nat) (k : Hive) (s : State) : Fades F s (passOn tgt k s) := by
  have hfold := Fades.foldl (F := F) (passOn_step_fades hF tgt) k.shares s
  rcases passOn_cases tgt k s with hp | hp <;> rw [hp]
  · exact hfold.trans (.modHive _ tgt fun x => ⟨rfl, hF x x.shares _⟩)
  · exact hfold

theorem claimRing_keepsShares (s : State) (h : Nat) : KeepsShares s (claimRing s h) :=
  .modHive s h (fun _ => rfl) fun _ _ => id

theorem receiveShare_keepsShares (s : State) (h : Nat) (x : ShareRef) : KeepsShares s (receiveShare s h x) :=
  (KeepsShares.of_same (clearLanes_fades s x).hives).trans (.modHive _ h (fun _ => rfl) fun _ _ => List.mem_cons_of_mem _)

theorem receiveShare_mem {s : State} {h : Nat} (hs : (s.findHive h).isSome = true) (x : ShareRef) :
    x ∈ ((receiveShare s h x).hive h).shares := by
  have hc := (clearLanes_fades (F := id) s x).hives.isSome h
  rw [receiveShare, State.hive_modHive_self (hc.trans hs) (by exact fun _ => rfl)]
  exact List.mem_cons_self

theorem passOn_step_keepsShares (tgt : Nat) (s : State) (x : ShareRef) :
    KeepsShares s (if tgt = 0 then clearLanes s x else receiveShare s tgt x) := by
  split
  · exact .of_same (clearLanes_fades s x).hives
  · exact receiveShare_keepsShares s tgt x

theorem passOn_shares_keepsShares (tgt : Nat) (l : List ShareRef) (s : State) :
    KeepsShares s (l.foldl (fun s x => if tgt = 0 then clearLanes s x else receiveShare s tgt x) s) := by
  induction l generalizing s with
  | nil => exact .refl s
  | cons x l ih => exact (passOn_step_keepsShares tgt s x).trans (ih _)

theorem passOn_keepsShares (tgt : Nat) (k : Hive) (s : State) : KeepsShares s (passOn tgt k s) := by
  rcases passOn_cases tgt k s with hp | hp <;> rw [hp]
  · exact (passOn_shares_keepsShares tgt _ s).trans (claimRing_keepsShares _ tgt)
  · exact passOn_shares_keepsShares tgt _ s

/-- The hive that takes over has every share (R72). -/
theorem passOn_mem {tgt : Nat} {s : State} (k : Hive) (ht : tgt ≠ 0) (hs : (s.findHive tgt).isSome = true) :
    ∀ x ∈ k.shares, x ∈ ((passOn tgt k s).hive tgt).shares := by
  have hfold (l : List ShareRef) : ∀ s : State, (s.findHive tgt).isSome = true → ∀ x ∈ l,
      x ∈ ((l.foldl (fun s x => if tgt = 0 then clearLanes s x else receiveShare s tgt x) s).hive tgt).shares := by
    induction l with
    | nil => exact fun _ _ _ h => nomatch h
    | cons y l ih =>
      intro s hs x hx
      rw [List.foldl_cons]
      have hstep := (passOn_step_fades (F := Hive.id) (fun _ _ _ => rfl) tgt s y).hives.isSome tgt
      rcases List.mem_cons.mp hx with rfl | hx
      · refine passOn_shares_keepsShares tgt l _ tgt x ?_
        rw [if_neg ht]
        exact receiveShare_mem hs x
      · exact ih _ (hstep.trans hs) x hx
  intro x hx
  rcases passOn_cases tgt k s with hp | hp <;> rw [hp]
  · exact claimRing_keepsShares _ tgt tgt x (hfold _ s hs x hx)
  · exact hfold _ s hs x hx

/-! ## One hive killed -/

theorem findHive_without (s : State) (h e : Nat) :
    ({ s with hives := s.hives.filter (fun x => x.id != h) } : State).findHive e = if e = h then none else s.findHive e := by
  rw [State.findHive, State.findHive, List.find?_filter]
  split
  · next he =>
    refine List.find?_eq_none.mpr fun x _ => ?_
    by_cases hx : x.id = h <;> simp [hx, he]
  · next he =>
    refine congrArg (fun p => s.hives.find? p) (funext fun x => ?_)
    by_cases hx : x.id = e <;> simp [hx, he]

/-- A hive out of the tree, its work and its strands gone. -/
def outOfTree (s : State) (h : Nat) : State := { leaving s h with hives := (leaving s h).hives.filter (fun x => x.id != h) }

/-- Of the hives that live on, a reading that has no part in trap queue, shares and ring is as it was. -/
theorem killOne_findHive (hq : ∀ x, F x.queueless = F x)
    (hF : ∀ (x : Hive) (sh : List ShareRef) (r : RingHold), F { x with shares := sh, ring := r } = F x) (tgt : Nat) (s : State) (h e : Nat) :
    ((killOne tgt s h).findHive e).map F = if e = h then none else (s.findHive e).map F := by
  rw [killOne_eq, (passOn_fades hF tgt _ _).hives.findHive, findHive_without]
  split
  · rfl
  · exact (leaving_fades hq s h).hives.findHive e

theorem killOne_isSome (tgt : Nat) (s : State) (h e : Nat) :
    ((killOne tgt s h).findHive e).isSome = ((s.findHive e).isSome && e != h) := by
  have hm := killOne_findHive (F := Hive.depth) (fun _ => rfl) (fun _ _ _ => rfl) tgt s h e
  rw [← Option.isSome_map (f := Hive.depth), hm]
  by_cases he : e = h
  · simp [he]
  · rw [if_neg he, Option.isSome_map]
    simp [he]

theorem killOne_length (tgt : Nat) (s : State) (h : Nat) : (killOne tgt s h).strands.length = s.strands.length := by
  rw [killOne_eq, (passOn_fades (F := Hive.id) (fun _ _ _ => rfl) tgt _ _).length]
  exact (leaving_fades (F := Hive.id) (fun _ => rfl) s h).length

theorem killOne_strand (tgt : Nat) (s : State) (h k : Nat) : (s.strand k).Fades ((killOne tgt s h).strand k) := by
  have hp := (passOn_fades (F := Hive.id) (fun _ _ _ => rfl) tgt (s.hive h) (outOfTree s h)).strand k
  exact ((leaving_fades (F := Hive.id) (fun _ => rfl) s h).strand k).trans hp

theorem killOne_over {tgt : Nat} {s : State} {h k : Nat} (hk : k < s.strands.length) (hh : (s.strand k).hive = h)
    (hs : (s.strand k).status ≠ .ended) : ((killOne tgt s h).strand k).Over := by
  have hp := (passOn_fades (F := Hive.id) (fun _ _ _ => rfl) tgt (s.hive h) (outOfTree s h)).strand k
  exact hp.stays (leaving_over hk hh hs)

theorem killOne_cmds (tgt : Nat) (s : State) (h : Nat) : ∀ c ∈ (killOne tgt s h).cmds, c ∈ s.cmds ∧ c.hive ≠ h := by
  intro c hc
  have hl := (passOn_fades (F := Hive.id) (fun _ _ _ => rfl) tgt (s.hive h) (outOfTree s h)).cmds c hc
  exact ⟨(leaving_fades (F := Hive.id) (fun _ => rfl) s h).cmds c hl, leaving_cmds s h c hl⟩

theorem killOne_vfs (tgt : Nat) (s : State) (h : Nat) : ∀ v ∈ (killOne tgt s h).vfs, v ∈ s.vfs ∧ v.2 ≠ h := by
  intro v hv
  have hl := (passOn_fades (F := Hive.id) (fun _ _ _ => rfl) tgt (s.hive h) (outOfTree s h)).vfs v hv
  exact ⟨(leaving_fades (F := Hive.id) (fun _ => rfl) s h).vfs v hl, leaving_vfs s h v hl⟩

theorem killOne_keepsShares (tgt : Nat) (s : State) (h : Nat) {e : Nat} (he : e ≠ h) :
    ∀ x ∈ (s.hive e).shares, x ∈ ((killOne tgt s h).hive e).shares := by
  intro x hx
  refine passOn_keepsShares tgt (s.hive h) (outOfTree s h) e x ?_
  rw [State.hive, outOfTree, findHive_without, if_neg he, ← State.hive, (leaving_fades (F := Hive.shares) (fun _ => rfl) s h).hives.hive]
  exact hx

theorem killOne_passes {tgt : Nat} {s : State} {h : Nat} (ht : tgt ≠ 0) (hth : tgt ≠ h) (hs : (s.findHive tgt).isSome = true) :
    ∀ x ∈ (s.hive h).shares, x ∈ ((killOne tgt s h).hive tgt).shares := by
  refine passOn_mem (s := outOfTree s h) (s.hive h) ht ?_
  rw [outOfTree, findHive_without, if_neg hth, (leaving_fades (F := Hive.id) (fun _ => rfl) s h).hives.isSome]
  exact hs

end

/-! ## Several hives killed, one after the other -/

section
variable {tgt : Nat} {l : List Nat} {s : State}

theorem kills_findHive {α : Type} {F : Hive → α} (hq : ∀ x, F x.queueless = F x)
    (hF : ∀ (x : Hive) (sh : List ShareRef) (r : RingHold), F { x with shares := sh, ring := r } = F x) (e : Nat) :
    ((l.foldl (killOne tgt) s).findHive e).map F = if e ∈ l then none else (s.findHive e).map F := by
  induction l generalizing s with
  | nil => rfl
  | cons h l ih =>
    rw [List.foldl_cons, ih, killOne_findHive hq hF]
    by_cases he : e = h <;> simp [he]

theorem kills_isSome (e : Nat) : ((l.foldl (killOne tgt) s).findHive e).isSome = ((s.findHive e).isSome && !l.contains e) := by
  have hm := kills_findHive (tgt := tgt) (l := l) (s := s) (F := Hive.depth) (fun _ => rfl) (fun _ _ _ => rfl) e
  rw [← Option.isSome_map (f := Hive.depth), hm]
  by_cases he : e ∈ l
  · simp [he]
  · rw [if_neg he, Option.isSome_map]
    simp [he]

theorem kills_strand (k : Nat) : (s.strand k).Fades ((l.foldl (killOne tgt) s).strand k) := by
  induction l generalizing s with
  | nil => exact .refl _
  | cons h l ih => exact (killOne_strand tgt s h k).trans ih

theorem kills_over {k : Nat} (hk : k < s.strands.length) (hh : (s.strand k).hive ∈ l) (hs : (s.strand k).status ≠ .ended) :
    ((l.foldl (killOne tgt) s).strand k).Over := by
  induction l generalizing s with
  | nil => exact absurd hh List.not_mem_nil
  | cons h l ih =>
    rw [List.foldl_cons]
    by_cases he : (s.strand k).hive = h
    · exact (kills_strand k).stays (killOne_over hk he hs)
    · have hf := killOne_strand tgt s h k
      by_cases hend : ((killOne tgt s h).strand k).status = .ended
      · exact (kills_strand k).stays ((hf.ended hend).resolve_left hs)
      · exact ih (killOne_length tgt s h ▸ hk) (by rw [hf.hive]; exact (List.mem_cons.mp hh).resolve_left he) hend

theorem kills_cmds : ∀ c ∈ (l.foldl (killOne tgt) s).cmds, c ∈ s.cmds ∧ c.hive ∉ l := by
  induction l generalizing s with
  | nil => exact fun c hc => ⟨hc, List.not_mem_nil⟩
  | cons h l ih =>
    intro c hc
    obtain ⟨hs, hl⟩ := ih c hc
    obtain ⟨hs, hh⟩ := killOne_cmds tgt s h c hs
    exact ⟨hs, List.not_mem_cons_of_ne_of_not_mem hh hl⟩

theorem kills_vfs : ∀ v ∈ (l.foldl (killOne tgt) s).vfs, v ∈ s.vfs ∧ v.2 ∉ l := by
  induction l generalizing s with
  | nil => exact fun v hv => ⟨hv, List.not_mem_nil⟩
  | cons h l ih =>
    intro v hv
    obtain ⟨hs, hl⟩ := ih v hv
    obtain ⟨hs, hh⟩ := killOne_vfs tgt s h v hs
    exact ⟨hs, List.not_mem_cons_of_ne_of_not_mem hh hl⟩

theorem kills_keepShares {e : Nat} (he : e ∉ l) : ∀ x ∈ (s.hive e).shares, x ∈ ((l.foldl (killOne tgt) s).hive e).shares := by
  induction l generalizing s with
  | nil => exact fun _ => id
  | cons h l ih =>
    obtain ⟨hh, hl⟩ := List.ne_and_not_mem_of_not_mem_cons he
    exact fun x hx => ih hl x (killOne_keepsShares tgt s h hh x hx)

/-- The hive that takes over has every share that one of them had. -/
theorem kills_pass (ht : tgt ≠ 0) (htl : tgt ∉ l) (hs : (s.findHive tgt).isSome = true) :
    ∀ e ∈ l, ∀ x ∈ (s.hive e).shares, x ∈ ((l.foldl (killOne tgt) s).hive tgt).shares := by
  induction l generalizing s with
  | nil => exact fun _ h => nomatch h
  | cons h l ih =>
    obtain ⟨hth, hout⟩ := List.ne_and_not_mem_of_not_mem_cons htl
    intro e he x hx
    rw [List.foldl_cons]
    by_cases heh : e = h
    · subst heh
      exact kills_keepShares hout x (killOne_passes ht hth hs x hx)
    · have hsome : ((killOne tgt s h).findHive tgt).isSome = true := by
        rw [killOne_isSome, hs]
        simpa using hth
      exact ih hout hsome e ((List.mem_cons.mp he).resolve_left heh) x (killOne_keepsShares tgt s h heh x hx)

end

/-- The hives that a kill takes out of the tree, in its order. -/
theorem mem_killed {s : State} {h e : Nat} : e ∈ (descendants s h).reverse ++ [h] ↔ e ∈ h :: descendants s h := by
  rw [List.mem_append, List.mem_reverse, List.mem_singleton, List.mem_cons, or_comm]

/-- What a hive killed with its descendants takes with it, and what passes to its parent (R72). -/
theorem killHive_takesAll (s : State) (h : Nat) :
    let t := killHive s h
    let gone := h :: descendants s h
    (∀ e, (t.findHive e).isSome = ((s.findHive e).isSome && !gone.contains e)) ∧
    (∀ k < s.strands.length, (s.strand k).hive ∈ gone → (s.strand k).status ≠ .ended → (t.strand k).Over) ∧
    (∀ c ∈ t.cmds, c.hive ∉ gone) ∧ (∀ v ∈ t.vfs, v.2 ∉ gone) ∧
    ((s.findHive (s.hive h).parent).isSome = true → (s.hive h).parent ∉ gone → (s.hive h).parent ≠ 0 →
      ∀ e ∈ gone, ∀ x ∈ (s.hive e).shares, x ∈ (t.hive (s.hive h).parent).shares) := by
  intro t gone
  have hmem {e : Nat} : e ∈ (descendants s h).reverse ++ [h] ↔ e ∈ gone := mem_killed
  refine ⟨fun e => (kills_isSome e).trans ?_, fun k hk hg hs => kills_over hk (hmem.mpr hg) hs,
    fun c hc hg => (kills_cmds c hc).2 (hmem.mpr hg), fun v hv hg => (kills_vfs v hv).2 (hmem.mpr hg),
    fun hs hp h0 e he x hx => kills_pass h0 (fun hl => hp (hmem.mp hl)) hs e (hmem.mpr he) x hx⟩
  have hc : ((descendants s h).reverse ++ [h]).contains e = gone.contains e := by
    rw [Bool.eq_iff_iff, List.contains_iff_mem, List.contains_iff_mem, hmem]
  rw [hc]

end Sys2Proof.Machine


/-! SUPPORT. HKILL and HSTAT (R68, R72, R73, R359, R362). -/

namespace Sys2Proof.Machine

/-! ## The instructions -/

theorem childOf_of {s : State} {i : Instr} {x : Word} {d : Hive} (hd : s.findHive x.toNat = some d) (hp : d.parent = s.me.hive)
    (hn : s.me.hive ≠ 0) : childOf s i x = .ok d := by
  rw [childOf, hd]
  exact if_pos ⟨hp, hn⟩

section
variable {s : State} {o : GFmt} (hr : s.runs = true)
include hr

theorem exec_hkill_ok {d : Hive} (hq : s.me.queue.any (fun e => e.vectorAccess) = false) (ht : s.treeFree = true)
    (hc : childOf s (.hkill o) (s.me.greg o.ga) = .ok d) : exec (.hkill o) s =
      .next (postPending (settleHives (killHive s.fenced d.id) [s.fenced.me.hive]) s.fenced.me.hive).advance := by
  change execHkill o s = _
  unfold execHkill
  rw [ht]
  exact hiveOp_ok hr (quietV_of hq) hc rfl

theorem exec_hkill_waits {d : Hive} (ht : s.treeFree = false) (hc : childOf s (.hkill o) (s.me.greg o.ga) = .ok d) :
    exec (.hkill o) s = .next { s with stalled := true } := by
  change execHkill o s = _
  unfold execHkill
  exact hiveOp_waits hr (.inr ht) hc

theorem exec_hkill_refused (hd : ∀ d, s.findHive (s.me.greg o.ga).toNat = some d → d.parent ≠ s.me.hive) :
    exec (.hkill o) s = .next (raise s ⟨.privilege, encode (.hkill o), 0, 0⟩) := by
  change execHkill o s = _
  unfold execHkill
  exact hiveOp_refused hr (childOf_refused hd)

omit hr in
theorem hstatTarget_ok {h : Hive} {i : Instr} {x : Word}
    (hh : (x = 0 ∧ h = s.myHive) ∨ (x ≠ 0 ∧ s.findHive x.toNat = some h ∧ s.within s.me.hive h.id = true)) :
    hstatTarget s i x = .ok h := by
  rcases hh with ⟨hx, rfl⟩ | ⟨hx, hf, hw⟩
  · exact if_pos hx
  · rw [hstatTarget, if_neg hx, hf]
    exact if_pos hw

omit hr in
theorem hstatTarget_refused {i : Instr} {x : Word} (hx : x ≠ 0) (hd : ∀ d, s.findHive x.toNat = some d → s.within s.me.hive d.id = false) :
    hstatTarget s i x = .error ⟨.privilege, encode i, 0, 0⟩ := by
  rw [hstatTarget, if_neg hx]
  split
  · next h hf => exact if_neg (by simp [hd h hf])
  · rfl

theorem exec_hstat_ok {h : Hive} {v : State} (hq : s.me.queue.any (fun e => e.vectorAccess) = false)
    (ht : hstatTarget s (.hstat o) (s.me.greg o.ga) = .ok h) (ha : (s.me.greg o.gb).toNat % 64 = 0)
    (hv : (hstatBlock s.fenced h).zipIdx.foldlM
      (fun u w => storeW u u.who (s.me.greg o.gb + BitVec.ofNat 64 (8 * w.2)) 8 w.1 true) s.fenced = .ok v) :
    exec (.hstat o) s = .next (postPending v v.me.hive).advance := by
  change execHstat o s = _
  unfold execHstat
  refine hiveOp_ok (x := h) hr (quietV_of hq) ?_ ?_
  · rw [ht, ok_bind, aligned64_of ha]
    rfl
  · rw [hv]
    rfl

theorem exec_hstat_refused (hx : s.me.greg o.ga ≠ 0)
    (hd : ∀ d, s.findHive (s.me.greg o.ga).toNat = some d → s.within s.me.hive d.id = false) :
    exec (.hstat o) s = .next (raise s ⟨.privilege, encode (.hstat o), 0, 0⟩) := by
  change execHstat o s = _
  unfold execHstat
  exact hiveOp_refused hr (by rw [hstatTarget_refused hx hd]; rfl)

theorem exec_hstat_misaligned {h : Hive} (ht : hstatTarget s (.hstat o) (s.me.greg o.ga) = .ok h)
    (ha : (s.me.greg o.gb).toNat % 64 ≠ 0) : exec (.hstat o) s = .next (raise s ⟨.align, s.me.greg o.gb, 0, 0⟩) := by
  change execHstat o s = _
  unfold execHstat
  exact hiveOp_refused hr (by rw [ht, ok_bind, aligned64_fails ha]; rfl)

end

/-! ## A kill where no comb context is resident -/

/-- No context of a comb is resident on any core. -/
def Combless (s : State) : Prop := ∀ c, (s.core c).comb = []

/-- Requests, walks, imports and the combs' contexts are as they were. -/
structure Still (s t : State) : Prop where
  llc : t.llc = s.llc
  walks : t.walks = s.walks
  imports : t.imports = s.imports
  comb : ∀ c, (t.core c).comb = (s.core c).comb

namespace Still

variable {s t u : State}

theorem refl (s : State) : Still s s := ⟨rfl, rfl, rfl, fun _ => rfl⟩

theorem trans (h : Still s t) (g : Still t u) : Still s u :=
  ⟨g.llc.trans h.llc, g.walks.trans h.walks, g.imports.trans h.imports, fun c => (g.comb c).trans (h.comb c)⟩

theorem combless (h : Still s t) (hc : Combless s) : Combless t := fun c => (h.comb c).trans (hc c)

theorem foldl {β : Type} {f : State → β → State} (hf : ∀ s x, Combless s → Still s (f s x)) (l : List β) {s : State} (hc : Combless s) :
    Still s (l.foldl f s) := by
  induction l generalizing s with
  | nil => exact refl s
  | cons x l ih => exact (hf s x hc).trans (ih ((hf s x hc).combless hc))

theorem modCore (s : State) (c : Nat) {f : Core → Core} (hf : ∀ k, (f k).comb = k.comb) : Still s (s.modCore c f) := by
  refine ⟨rfl, rfl, rfl, fun d => ?_⟩
  rw [State.core_mod]
  split
  · next h => exact h.1 ▸ hf _
  · rfl

end Still

section
variable {s : State} (hc : Combless s)
include hc

theorem ctxOf_of_combless (k : Nat) (n : BitVec 5) : s.ctxOf k n = none := by
  refine List.findSome?_eq_none_iff.mpr fun c hm => ?_
  obtain ⟨hi, hx⟩ := List.mem_zipIdx' hm
  have hcore := hc c.2
  rw [State.core, List.getD_eq_getElem _ _ hi, ← hx] at hcore
  rw [hcore]
  rfl

theorem releaseSlot_still (k : Nat) (n : BitVec 5) : Still s (releaseSlot s k n) := by
  rw [releaseSlot_eq, slotFlushed, ctxOf_of_combless hc]
  exact ⟨rfl, rfl, rfl, fun _ => rfl⟩

theorem endStrand_still (k : Nat) : Still s (endStrand s k) :=
  (Still.foldl (fun _ _ hc => releaseSlot_still hc k _) _ hc).trans ⟨rfl, rfl, rfl, fun _ => rfl⟩

theorem endStrandsOf_still (h : Nat) (l : List Nat) : Still s (endStrandsOf h l s) := by
  refine .foldl (fun s i hc => ?_) l hc
  split
  · exact endStrand_still hc i
  · exact .refl s

theorem clearLanes_still (x : ShareRef) : Still s (clearLanes s x) := by
  have hnone : clearComb s x = s := by rw [clearComb, hc]; rfl
  rw [clearLanes, hnone]
  exact .modCore s _ fun _ => rfl

theorem passOn_still (tgt : Nat) (k : Hive) : Still s (passOn tgt k s) := by
  have hfold := Still.foldl (f := fun s x => if tgt = 0 then clearLanes s x else receiveShare s tgt x)
    (fun s x hc => by
      split
      · exact clearLanes_still hc x
      · exact (clearLanes_still hc x).trans ⟨rfl, rfl, rfl, fun _ => rfl⟩) k.shares hc
  rcases passOn_cases tgt k s with hp | hp <;> rw [hp]
  · exact hfold.trans ⟨rfl, rfl, rfl, fun _ => rfl⟩
  · exact hfold

end

theorem hostPosted_still (s : State) (part : Nat) (r : TrapRecord) : Still s (hostPosted s part r) := ⟨rfl, rfl, rfl, fun _ => rfl⟩

theorem interruptIf_still {s u : State} (part : Nat) (b : Prop) [Decidable b] (h : Still s u) : Still s (interruptIf part u b) := by
  unfold interruptIf
  split
  · exact h.trans ⟨rfl, rfl, rfl, fun _ => rfl⟩
  · exact h

theorem post_host_still (s : State) (part : Nat) (r : TrapRecord) : Still s (post s 0 part r).2 := by
  rcases Nat.lt_or_ge ((Mem.read s.mem ((s.part part).hqbase + 8) 8 + 2 ^ 64 - Mem.read s.mem (s.part part).hqbase 8) % 2 ^ 64)
    (s.part part).hqsize with h | h
  · rw [post, postFrom_host_room (h := h)]
    dsimp only
    exact interruptIf_still part _ (hostPosted_still s part r)
  · rw [post, postFrom_host_full (h := h)]
    exact ⟨rfl, rfl, rfl, fun _ => rfl⟩

theorem completeAt_still (s : State) (k : Nat) (pc : Word) (gd : BitVec 5) (x : Word) : Still s (completeAt s k ⟨pc, gd, x, false⟩) := by
  unfold completeAt
  dsimp only
  split
  · exact .refl s
  · split <;> exact ⟨rfl, rfl, rfl, fun _ => rfl⟩

theorem dropTaking_still (s : State) (part h : Nat) : Still s (dropTaking s part h) := by
  unfold dropTaking
  split
  · split
    · have hm : Still s (s.modPart part (fun p => { p with taking := none })) := ⟨rfl, rfl, rfl, fun _ => rfl⟩
      exact hm.trans (completeAt_still _ _ _ _ _)
    · exact .refl s
  · exact .refl s

/-- What the machine still does for others is all that is left of what it did. -/
theorem leaving_still {s : State} (hc : Combless s) (h : Nat) : Still (emptied s h) (leaving s h) ∧ Combless (leaving s h) := by
  have hring : Still s (discardRing s h) := by
    rw [discardRing_eq]
    exact ⟨rfl, rfl, rfl, fun _ => rfl⟩
  have hends := endStrandsOf_still (hring.combless hc) h (List.range (discardRing s h).strands.length)
  have hempty : Combless (emptied s h) := by
    intro c
    have hmap : ((emptied s h).core c).comb =
        ((endStrandsOf h (List.range (discardRing s h).strands.length) (discardRing s h)).core c).comb := by
      simp only [emptied, dropWork, State.core, List.getD_eq_getElem?_getD, List.getElem?_map]
      cases (endStrandsOf h (List.range (discardRing s h).strands.length) (discardRing s h)).cores[c]? <;> rfl
    rw [hmap, hends.comb, hring.comb, hc]
  have hrel : Still (emptied s h) (releaseVfs (emptied s h) h) :=
    Still.trans (t := { emptied s h with vfs := (emptied s h).vfs.filter (fun v => v.2 != h) }) ⟨rfl, rfl, rfl, fun _ => rfl⟩
      (.foldl (fun s v _ => post_host_still s _ _) _ hempty)
  have hall := hrel.trans (dropTaking_still _ (s.hive h).part h)
  exact ⟨hall, hall.combless hempty⟩

/-- A hive destroyed where no context is resident leaves nothing at work (R72). -/
theorem killOne_gone (tgt : Nat) {s : State} (hc : Combless s) (h : Nat) :
    let t := killOne tgt s h
    t.findHive h = none ∧ (∀ c ∈ t.cmds, c.hive ≠ h) ∧ (∀ q ∈ t.llc, q.hive ≠ h) ∧ (∀ w ∈ t.walks, w.hive ≠ h) ∧
      ∀ x ∈ t.imports, x.2.2 ≠ h := by
  obtain ⟨hleft, hcomb⟩ := leaving_still hc h
  have hout : Still (leaving s h) (outOfTree s h) := ⟨rfl, rfl, rfl, fun _ => rfl⟩
  have hall := (hleft.trans hout).trans (passOn_still (hout.combless hcomb) tgt (s.hive h))
  intro t
  refine ⟨?_, fun c hc => (killOne_cmds tgt s h c hc).2, fun q hq => ?_, fun w hw => ?_, fun x hx => ?_⟩
  · refine Option.not_isSome_iff_eq_none.mp ?_
    rw [killOne_isSome]
    simp
  · have hm : q ∈ (emptied s h).llc := hall.llc ▸ hq
    simpa using (List.mem_filter.mp hm).2
  · have hm : w ∈ (emptied s h).walks := hall.walks ▸ hw
    simpa using (List.mem_filter.mp hm).2
  · have hm : x ∈ (emptied s h).imports := hall.imports ▸ hx
    simpa using (List.mem_filter.mp hm).2

end Sys2Proof.Machine


/-! SUPPORT. The result block of HSTAT (R73, Table 3.6), offset by offset. -/

namespace Sys2Proof.Machine

/-- An entry of the block for a share, by its number. -/
def shareEntry (x : ShareRef) : Nat := x.core % 12 + sizeCode x.size * 16 + x.lg * 64

/-- The byte of flags of the block: the ring, a bound function, and the slices without a bucket of its own. -/
def hstatFlags (s : State) (k : Hive) : Nat :=
  let own (i : Nat) : Nat := (!(k.bucket i).own).toNat * 2 ^ (2 + i)
  k.ring.isHeld.toNat + (s.vfs.any (fun v => v.2 == k.id)).toNat * 2 + own 0 + own 1 + own 2 + own 3

/-- The first word of the block. -/
def hstatHead (s : State) (k : Hive) : Nat :=
  k.id + k.depth * 2 ^ 16 + k.shares.length % 256 * 2 ^ 24 + hstatFlags s k * 2 ^ 32 + k.fslots * 2 ^ 40
    + (childrenOf s k.id).length * 2 ^ 48

section
variable (s : State) (k : Hive)

theorem hstatBlock_length : (hstatBlock s k).length = 128 := by simp [hstatBlock]

/-- Eight words, and three more for each of four slices. -/
def frontOf (a b c d e f g h : Nat) (x y z : Nat → Nat) : List Nat :=
  [a, b, c, d, e, f, g, h] ++ (List.range 4).map x ++ (List.range 4).map y ++ (List.range 4).map z

theorem frontOf_words (a b c d e f g h : Nat) (x y z : Nat → Nat) :
    let l := frontOf a b c d e f g h x y z
    l.getD 0 0 = a ∧ l.getD 1 0 = b ∧ l.getD 2 0 = c ∧ l.getD 3 0 = d ∧ l.getD 4 0 = e ∧ l.getD 5 0 = f ∧ l.getD 6 0 = g ∧ l.getD 7 0 = h :=
  ⟨rfl, rfl, rfl, rfl, rfl, rfl, rfl, rfl⟩

theorem frontOf_slice (a b c d e f g h : Nat) (x y z : Nat → Nat) {i : Nat} (hi : i < 4) :
    let l := frontOf a b c d e f g h x y z
    l.getD (8 + i) 0 = x i ∧ l.getD (12 + i) 0 = y i ∧ l.getD (16 + i) 0 = z i := by
  match i, hi with
  | 0, _ => exact ⟨rfl, rfl, rfl⟩
  | 1, _ => exact ⟨rfl, rfl, rfl⟩
  | 2, _ => exact ⟨rfl, rfl, rfl⟩
  | 3, _ => exact ⟨rfl, rfl, rfl⟩

/-- The words of the block before the share list, but for those that are reserved. -/
def hstatFront : List Nat :=
  let hs := subtree s k.id
  frontOf (hstatHead s k) k.wsize (s.strands.filter (fun t => !t.status.isEnded && hs.contains t.hive)).length
    (sumOver s hs (fun h => h.issued.toNat)) (sumOver s hs (fun h => h.egops.toNat)) (sumOver s hs (fun h => h.tileops.toNat))
    (sumOver s hs (fun h => h.reflected.toNat)) (sumOver s hs (fun h => h.preempted.toNat))
    (fun i => sumOver s hs (fun h => (h.bucket i).llcBytes.toNat)) (fun i => sumOver s hs (fun h => (h.bucket i).borrowed.toNat))
    (fun i => (k.bucket i).rate + (k.bucket i).burst * 2 ^ 16)

theorem hstatFront_length : (hstatFront s k).length = 20 := by simp [hstatFront, frontOf]

theorem hstatFront_words :
    (hstatFront s k).getD 0 0 = hstatHead s k ∧ (hstatFront s k).getD 1 0 = k.wsize ∧
    (hstatFront s k).getD 2 0 = (s.strands.filter (fun t => !t.status.isEnded && (subtree s k.id).contains t.hive)).length ∧
    (hstatFront s k).getD 3 0 = sumOver s (subtree s k.id) (fun h => h.issued.toNat) ∧
    (hstatFront s k).getD 4 0 = sumOver s (subtree s k.id) (fun h => h.egops.toNat) ∧
    (hstatFront s k).getD 5 0 = sumOver s (subtree s k.id) (fun h => h.tileops.toNat) ∧
    (hstatFront s k).getD 6 0 = sumOver s (subtree s k.id) (fun h => h.reflected.toNat) ∧
    (hstatFront s k).getD 7 0 = sumOver s (subtree s k.id) (fun h => h.preempted.toNat) :=
  frontOf_words ..

theorem hstatFront_slice {i : Nat} (hi : i < 4) :
    (hstatFront s k).getD (8 + i) 0 = sumOver s (subtree s k.id) (fun h => (h.bucket i).llcBytes.toNat) ∧
    (hstatFront s k).getD (12 + i) 0 = sumOver s (subtree s k.id) (fun h => (h.bucket i).borrowed.toNat) ∧
    (hstatFront s k).getD (16 + i) 0 = (k.bucket i).rate + (k.bucket i).burst * 2 ^ 16 :=
  frontOf_slice (hi := hi) ..

theorem hstatBlock_eq : hstatBlock s k = hstatFront s k ++ List.replicate 12 0 ++ (List.range 48).map (fun n =>
    ((sharesInOrder k).map shareEntry).getD (2 * n) 0 + ((sharesInOrder k).map shareEntry).getD (2 * n + 1) 0 * 2 ^ 32) ++
    List.replicate 48 0 := by
  unfold hstatBlock hstatFront frontOf hstatHead hstatFlags shareEntry
  dsimp only

theorem hstatBlock_front {n : Nat} (hn : n < 20) : (hstatBlock s k).getD n 0 = (hstatFront s k).getD n 0 := by
  have hlen := hstatFront_length s k
  rw [hstatBlock_eq, List.getD_append _ _ _ _ (by simp [hlen]; omega), List.getD_append _ _ _ _ (by simp [hlen]; omega),
    List.getD_append _ _ _ _ (by omega)]

theorem hstatBlock_reserved {n : Nat} (hn : n < 12) : (hstatBlock s k).getD (20 + n) 0 = 0 := by
  have hlen := hstatFront_length s k
  rw [hstatBlock_eq, List.getD_append _ _ _ _ (by simp [hlen]; omega), List.getD_append _ _ _ _ (by simp [hlen]; omega),
    List.getD_append_right _ _ _ _ (by omega), hlen, Nat.add_sub_cancel_left, List.getD_eq_getElem?_getD, List.getElem?_getD_replicate_default_eq]

theorem hstatBlock_shares {n : Nat} (hn : n < 48) : (hstatBlock s k).getD (32 + n) 0 =
    ((sharesInOrder k).map shareEntry).getD (2 * n) 0 + ((sharesInOrder k).map shareEntry).getD (2 * n + 1) 0 * 2 ^ 32 := by
  have hlen := hstatFront_length s k
  have hoff : 32 + n - (hstatFront s k ++ List.replicate 12 0).length = n := by simp [hlen]
  rw [hstatBlock_eq, List.getD_append _ _ _ _ (by simp [hlen]; omega), List.getD_append_right _ _ _ _ (by simp [hlen]), hoff,
    List.getD_eq_getElem?_getD, List.getElem?_map, List.getElem?_range hn, Option.map_some, Option.getD_some]

theorem hstatBlock_rest (n : Nat) : (hstatBlock s k).getD (80 + n) 0 = 0 := by
  have hlen := hstatFront_length s k
  rw [hstatBlock_eq, List.getD_append_right _ _ _ _ (by simp [hlen]), List.getD_eq_getElem?_getD,
    List.getElem?_getD_replicate_default_eq]

end

/-! ## Fields of words -/

/-- An entry of the share list, or 0 beyond them. -/
theorem shareEntries_getD (k : Hive) (n : Nat) : ((sharesInOrder k).map shareEntry).getD n 0 =
    ((sharesInOrder k)[n]?).elim 0 (fun x =>
      x.core % 12 + (if x.size = 16 then 0 else if x.size = 8 then 1 else if x.size = 4 then 2 else 3) * 16 + x.lg * 64) := by
  rw [List.getD_eq_getElem?_getD, List.getElem?_map]
  cases (sharesInOrder k)[n]? <;> rfl

theorem mem_shares_of_inOrder {k : Hive} {x : ShareRef} (h : x ∈ sharesInOrder k) : x ∈ k.shares := by
  obtain ⟨n, -, hf⟩ := List.mem_filterMap.mp h
  exact List.mem_of_find?_eq_some hf

theorem shareEntry_lt {x : ShareRef} (h : x.lg < 16) : shareEntry x < 2 ^ 32 := by
  have hc : sizeCode x.size ≤ 3 := by
    unfold sizeCode
    split
    · exact Nat.zero_le _
    · split
      · decide
      · split <;> decide
  unfold shareEntry
  omega

theorem shareEntries_lt {k : Hive} (h : ∀ x ∈ k.shares, x.lg < 16) (n : Nat) : ((sharesInOrder k).map shareEntry).getD n 0 < 2 ^ 32 := by
  rw [List.getD_eq_getElem?_getD, List.getElem?_map]
  cases hx : (sharesInOrder k)[n]? with
  | none => decide
  | some x => exact shareEntry_lt (h x (mem_shares_of_inOrder (List.mem_of_getElem? hx)))

/-- The 4-byte halves of a word. -/
theorem half_of_words {a b n : Nat} (ha : a < 2 ^ 32) (hb : b < 2 ^ 32) :
    (a + b * 2 ^ 32) / 2 ^ (8 * (4 * n % 8)) % 2 ^ (8 * 4) = if n % 2 = 0 then a else b := by
  rcases Nat.mod_two_eq_zero_or_one n with h | h
  · have h0 : 4 * n % 8 = 0 := by omega
    rw [h0, if_pos h]
    omega
  · have h0 : 4 * n % 8 = 4 := by omega
    rw [h0, if_neg (by omega)]
    omega

/-- Six flags in a byte. -/
def sixFlags (a b c d e f : Bool) : Nat :=
  a.toNat + b.toNat * 2 + c.toNat * 2 ^ (2 + 0) + d.toNat * 2 ^ (2 + 1) + e.toNat * 2 ^ (2 + 2) + f.toNat * 2 ^ (2 + 3)

theorem sixFlags_lt : ∀ a b c d e f : Bool, sixFlags a b c d e f < 64 := by decide +kernel

theorem sixFlags_testBit : ∀ a b c d e f : Bool, (sixFlags a b c d e f).testBit 0 = a ∧ (sixFlags a b c d e f).testBit 1 = b ∧
    (sixFlags a b c d e f).testBit (2 + 0) = c ∧ (sixFlags a b c d e f).testBit (2 + 1) = d ∧
    (sixFlags a b c d e f).testBit (2 + 2) = e ∧ (sixFlags a b c d e f).testBit (2 + 3) = f := by decide +kernel
theorem hstatFlags_bits (s : State) (k : Hive) : hstatFlags s k < 64 ∧ (hstatFlags s k).testBit 0 = k.ring.isHeld ∧
    (hstatFlags s k).testBit 1 = s.vfs.any (fun v => v.2 == k.id) ∧
    ∀ i < 4, (hstatFlags s k).testBit (2 + i) = !(k.bucket i).own := by
  have hsix : hstatFlags s k = sixFlags k.ring.isHeld (s.vfs.any (fun v => v.2 == k.id)) (!(k.bucket 0).own) (!(k.bucket 1).own)
      (!(k.bucket 2).own) (!(k.bucket 3).own) := rfl
  obtain ⟨h0, h1, h2, h3, h4, h5⟩ := sixFlags_testBit k.ring.isHeld (s.vfs.any (fun v => v.2 == k.id)) (!(k.bucket 0).own)
    (!(k.bucket 1).own) (!(k.bucket 2).own) (!(k.bucket 3).own)
  rw [hsix]
  refine ⟨sixFlags_lt .., h0, h1, fun i hi => ?_⟩
  match i, hi with
  | 0, _ => exact h2
  | 1, _ => exact h3
  | 2, _ => exact h4
  | 3, _ => exact h5

/-- The fields of the first word. -/
theorem hstatHead_fields {s : State} {k : Hive} (hid : k.id < 2 ^ 16) (hd : k.depth < 2 ^ 8) (hf : k.fslots < 2 ^ 8)
    (hc : (childrenOf s k.id).length < 2 ^ 16) :
    hstatHead s k % 2 ^ 16 = k.id ∧ hstatHead s k / 2 ^ 16 % 2 ^ 8 = k.depth ∧ hstatHead s k / 2 ^ 24 % 2 ^ 8 = k.shares.length % 256 ∧
    hstatHead s k / 2 ^ 32 % 2 ^ 8 = hstatFlags s k ∧ hstatHead s k / 2 ^ 40 % 2 ^ 8 = k.fslots ∧
    hstatHead s k / 2 ^ 48 % 2 ^ 16 = (childrenOf s k.id).length := by
  obtain ⟨hlt, -⟩ := hstatFlags_bits s k
  unfold hstatHead
  generalize hstatFlags s k = f at hlt
  generalize (childrenOf s k.id).length = c at hc
  omega

end Sys2Proof.Machine


/-! SUPPORT. HKILL and HSTAT settled (R72, R73). -/

namespace Sys2Proof.Machine

/-- An 8-byte field of the block is a word of it. -/
theorem hstatBlock_word (s : State) (k : Hive) {off m : Nat} (h : off = 8 * m) :
    (hstatBlock s k).getD (off / 8) 0 / 2 ^ (8 * (off % 8)) % 2 ^ (8 * 8) = (hstatBlock s k).getD m 0 % 2 ^ 64 := by
  have hd : off / 8 = m := by omega
  have hm : off % 8 = 0 := by omega
  rw [hd, hm, Nat.mul_zero, Nat.pow_zero, Nat.div_one]

/-- The block at the offsets of Table 3.6. -/
theorem hstatBlock_fields (s : State) (k : Hive) (hid : k.id < 2 ^ 16) (hd : k.depth < 2 ^ 8) (hf : k.fslots < 2 ^ 8)
    (hc : (childrenOf s k.id).length < 2 ^ 16) (hlg : ∀ x ∈ k.shares, x.lg < 16) :
    let at_ : Nat → Nat → Nat := fun off n => (hstatBlock s k).getD (off / 8) 0 / 2 ^ (8 * (off % 8)) % 2 ^ (8 * n)
    let sum : (Hive → Nat) → Nat := fun f => ((subtree s k.id).map (fun e => f (s.hive e))).sum % 2 ^ 64
    at_ 0 2 = k.id ∧ at_ 2 1 = k.depth ∧ at_ 3 1 = k.shares.length % 256 ∧
    (at_ 4 1).testBit 0 = k.ring.isHeld ∧ (at_ 4 1).testBit 1 = s.vfs.any (fun v => v.2 == k.id) ∧
    (∀ i < 4, (at_ 4 1).testBit (2 + i) = !(k.bucket i).own) ∧ at_ 5 1 = k.fslots ∧ at_ 6 2 = (childrenOf s k.id).length ∧
    at_ 8 8 = k.wsize % 2 ^ 64 ∧
    at_ 0x10 8 = (s.strands.filter (fun t => !t.status.isEnded && (subtree s k.id).contains t.hive)).length % 2 ^ 64 ∧
    at_ 0x18 8 = sum (fun e => e.issued.toNat) ∧ at_ 0x20 8 = sum (fun e => e.egops.toNat) ∧
    at_ 0x28 8 = sum (fun e => e.tileops.toNat) ∧ at_ 0x30 8 = sum (fun e => e.reflected.toNat) ∧
    at_ 0x38 8 = sum (fun e => e.preempted.toNat) ∧
    (∀ i < 4, at_ (0x40 + 8 * i) 8 = sum (fun e => (e.bucket i).llcBytes.toNat) ∧
      at_ (0x60 + 8 * i) 8 = sum (fun e => (e.bucket i).borrowed.toNat) ∧
      at_ (0x80 + 8 * i) 8 = ((k.bucket i).rate + (k.bucket i).burst * 2 ^ 16) % 2 ^ 64) ∧
    (∀ n < 12, at_ (0xA0 + 8 * n) 8 = 0) ∧ (∀ n < 48, at_ (0x280 + 8 * n) 8 = 0) ∧
    ∀ n < 96, at_ (0x100 + 4 * n) 4 = ((sharesInOrder k)[n]?).elim 0 (fun x =>
      x.core % 12 + (if x.size = 16 then 0 else if x.size = 8 then 1 else if x.size = 4 then 2 else 3) * 16 + x.lg * 64) := by
  intro at_ sum
  obtain ⟨h0, h2, h3, h4, h5, h6⟩ := hstatHead_fields hid hd hf hc
  obtain ⟨-, hring, hvf, hown⟩ := hstatFlags_bits s k
  obtain ⟨hfirst, hwsize, hlive, hc3, hc4, hc5, hc6, hc7⟩ := hstatFront_words s k
  have hword {m x : Nat} (hm : m < 20) (hx : (hstatFront s k).getD m 0 = x) : at_ (8 * m) 8 = x % 2 ^ 64 :=
    (hstatBlock_word s k rfl).trans (by rw [hstatBlock_front s k hm, hx])
  have hhead (off n : Nat) (ho : off < 8) : at_ off n = hstatHead s k / 2 ^ (8 * off) % 2 ^ (8 * n) := by
    have hd : off / 8 = 0 := by omega
    have hm : off % 8 = off := by omega
    simp only [at_, hd, hm, hstatBlock_front s k (show 0 < 20 by decide), hfirst]
  have hflags : at_ 4 1 = hstatFlags s k := (hhead 4 1 (by decide)).trans h4
  refine ⟨(hhead 0 2 (by decide)).trans (by rw [← h0]; simp), (hhead 2 1 (by decide)).trans h2, (hhead 3 1 (by decide)).trans h3, hflags ▸ hring,
    hflags ▸ hvf, fun i hi => hflags ▸ hown i hi, (hhead 5 1 (by decide)).trans h5, (hhead 6 2 (by decide)).trans h6, ?_, ?_, ?_, ?_, ?_, ?_, ?_,
    fun i hi => ?_, fun n hn => ?_, fun n hn => ?_, fun n hn => ?_⟩
  · exact hword (m := 1) (by decide) hwsize
  · exact hword (m := 2) (by decide) hlive
  · exact hword (m := 3) (by decide) hc3
  · exact hword (m := 4) (by decide) hc4
  · exact hword (m := 5) (by decide) hc5
  · exact hword (m := 6) (by decide) hc6
  · exact hword (m := 7) (by decide) hc7
  · obtain ⟨h8, h12, h16⟩ := hstatFront_slice s k hi
    have hb := hword (m := 8 + i) (by omega) h8
    have hr := hword (m := 12 + i) (by omega) h12
    have hw := hword (m := 16 + i) (by omega) h16
    rw [Nat.mul_add] at hb hr hw
    exact ⟨hb, hr, hw⟩
  · exact (hstatBlock_word s k (m := 20 + n) (by omega)).trans (by rw [hstatBlock_reserved s k hn, Nat.zero_mod])
  · exact (hstatBlock_word s k (m := 80 + n) (by omega)).trans (by rw [hstatBlock_rest, Nat.zero_mod])
  · have hd : (0x100 + 4 * n) / 8 = 32 + n / 2 := by omega
    have hm : (0x100 + 4 * n) % 8 = 4 * n % 8 := by omega
    rw [← shareEntries_getD]
    simp only [at_, hd, hm]
    rw [hstatBlock_shares s k (show n / 2 < 48 by omega), half_of_words (shareEntries_lt hlg _) (shareEntries_lt hlg _)]
    split
    · next h => rw [show 2 * (n / 2) = n by omega]
    · next h => rw [show 2 * (n / 2) + 1 = n by omega]

/-- Settles O33: each hive killed takes its strands, its commands and its place in the tree with it, one after the other up to
the hive named; the block of HSTAT is read word by word. -/
theorem hkillAndHstat : Obligations.HkillAndHstat := by
  unfold Obligations.HkillAndHstat
  refine ⟨fun s o d hr hq hd hp hn => ?_, fun s h tgt hc => killOne_gone tgt hc h, fun s o h v hr hq hh ha hv =>
    ⟨exec_hstat_ok hr hq (hstatTarget_ok hh) ha hv, hstatBlock_length _ h⟩, fun s o hr => ?_, fun s h _ => ?_, hstatBlock_fields⟩
  · have hc := childOf_of (i := .hkill o) hd hp hn
    exact ⟨fun ht => exec_hkill_ok hr hq ht hc, fun ht => exec_hkill_waits hr ht hc⟩
  · refine ⟨exec_hkill_refused hr, exec_hstat_refused hr, fun ht ha => ?_⟩
    by_cases h0 : s.me.greg o.ga = 0
    · exact exec_hstat_misaligned hr (hstatTarget_ok (.inl ⟨h0, rfl⟩)) ha
    · obtain ⟨d, hd, hw⟩ := ht.resolve_left h0
      exact exec_hstat_misaligned hr (hstatTarget_ok (.inr ⟨h0, hd, hw⟩)) ha
  · obtain ⟨hids, hover, hrest⟩ := killHive_takesAll s h
    refine ⟨hids, fun k hk hh hs => ?_, hrest⟩
    obtain ⟨h1, h2, h3, h4, h5⟩ := hover k hk hh hs
    exact ⟨h1, h2, h3, h4, h5⟩

end Sys2Proof.Machine


/-! SUPPORT. The tree of hives (R59) under updates that leave parents and depths alone, and updates of several hives by number. -/

namespace Sys2Proof.Machine

/-! ## The tree -/

/-- Where a hive stands in the tree. -/
def Hive.rank (k : Hive) : Nat × Nat := (k.parent, k.depth)

section
variable {s t : State} (h : SameHives Hive.rank s t)
include h

theorem SameHives.isWithin (anc fuel e : Nat) : isWithin t anc fuel e = isWithin s anc fuel e := by
  induction fuel generalizing e with
  | zero => rfl
  | succ fuel ih =>
    have hp : (t.hive e).parent = (s.hive e).parent := congrArg Prod.fst (h.hive e)
    rw [Machine.isWithin, Machine.isWithin, hp, ih]

theorem SameHives.descendants (n : Nat) : descendants t n = descendants s n := by
  have hl (d : Nat) (l : List Hive) : (l.filter (fun k => k.depth == d && k.id != n && s.within n k.id)).map (fun k => k.id) =
      ((l.map (fun x => (x.id, x.rank))).filter (fun p => p.2.2 == d && p.1 != n && s.within n p.1)).map (fun p => p.1) := by
    rw [List.filter_map, List.map_map]
    rfl
  have hw : t.within n = s.within n := funext fun e => h.isWithin n 9 e
  unfold Machine.descendants
  refine congrArg (fun f => (List.range' 1 8).flatMap f) (funext fun d => ?_)
  rw [hw, hl, hl, h]

end

section
variable {s : State} (hn : (s.hives.map (fun k => k.id)).Nodup)

theorem mem_descendants {h e : Nat} (he : e ∈ descendants s h) : e ≠ h ∧ (s.findHive e).isSome = true := by
  obtain ⟨d, -, hd⟩ := List.mem_flatMap.mp he
  obtain ⟨k, hk, rfl⟩ := List.mem_map.mp hd
  obtain ⟨hk, hc⟩ := List.mem_filter.mp hk
  refine ⟨?_, List.find?_isSome.mpr ⟨k, hk, by simp⟩⟩
  have hne : (k.id != h) = true := by
    simp only [Bool.and_eq_true] at hc
    exact hc.1.2
  simpa using hne

include hn in
theorem descendants_nodup (h : Nat) : (descendants s h).Nodup := by
  refine List.nodup_flatMap.mpr ⟨fun d _ => List.Nodup.sublist (List.filter_sublist.map _) hn, ?_⟩
  refine List.Pairwise.imp ?_ (List.nodup_range' (s := 1) (n := 8))
  intro a b hab e ha hb
  obtain ⟨x, hx, rfl⟩ := List.mem_map.mp ha
  obtain ⟨y, hy, hxy⟩ := List.mem_map.mp hb
  obtain ⟨hx, hxd⟩ := List.mem_filter.mp hx
  obtain ⟨hy, hyd⟩ := List.mem_filter.mp hy
  have heq : y = x := List.inj_on_of_nodup_map hn hy hx hxy
  subst heq
  simp only [Bool.and_eq_true, beq_iff_eq] at hxd hyd
  exact hab (hxd.1.1.symm.trans hyd.1.1)

theorem not_mem_descendants_self (h : Nat) : h ∉ descendants s h := fun he => (mem_descendants he).1 rfl

end

/-! ## One update for each hive of a list of numbers -/

section
variable {g : Nat → Hive → Hive} (hg : ∀ e x, (g e x).id = x.id)
include hg

theorem foldl_modHive_findHive {l : List Nat} (hl : l.Nodup) (s : State) (e : Nat) :
    (l.foldl (fun s d => s.modHive d (g d)) s).findHive e = if e ∈ l then (s.findHive e).map (g e) else s.findHive e := by
  induction l generalizing s with
  | nil => rfl
  | cons d l ih =>
    obtain ⟨hd, hl⟩ := List.nodup_cons.mp hl
    rw [List.foldl_cons, ih hl, State.findHive_modHive _ _ (hg d)]
    by_cases he : e = d
    · subst he
      rw [if_neg hd, if_pos rfl, if_pos List.mem_cons_self]
    · rw [if_neg he]
      simp only [List.mem_cons, he, false_or]

theorem foldl_modHive_hive {l : List Nat} (hl : l.Nodup) {s : State} {e : Nat} (he : (s.findHive e).isSome = true) :
    (l.foldl (fun s d => s.modHive d (g d)) s).hive e = if e ∈ l then g e (s.hive e) else s.hive e := by
  obtain ⟨x, hx⟩ := Option.isSome_iff_exists.mp he
  rw [State.hive, foldl_modHive_findHive hg hl, State.hive, hx]
  split <;> rfl

end

/-! ## Less rate on a slice -/

/-- A bucket with less, as R87 has it. -/
theorem Bucket.reduce_eq (b : Bucket) (rate burst : Nat) : b.reduce rate burst = { b with
    rate := rate, burst := burst, own := b.own && decide (rate ≠ 0)
    tokens := if rate = 0 then 0 else min b.tokens ((burst * 16 : Nat) : Int) } := by
  unfold Bucket.reduce
  by_cases h : rate = 0
  · simp [h]
  · simp [h, Bucket.cut]

theorem Hive.bucket_mod_other (k : Hive) {i n : Nat} (f : Bucket → Bucket) (hn : n ≠ i) :
    Hive.bucket { k with buckets := modAt k.buckets i f } n = k.bucket n := by
  simp [Hive.bucket, modAt, List.getD_eq_getElem?_getD, Ne.symm hn]

/-- The reduction of a descendant's bucket, in proportion. -/
def lessBelow (i rate burst old : Nat) (_ : Nat) (k : Hive) : Hive :=
  { k with buckets := modAt k.buckets i (fun b => b.reduce (b.rate * rate / max old 1) (min b.burst burst)) }

theorem takeRate_hive {s : State} {h i rate burst e : Nat} (hn : (s.hives.map (fun k => k.id)).Nodup)
    (hh : (s.findHive h).isSome = true) (he : (s.findHive e).isSome = true) : (takeRate s h i rate burst).hive e =
      if e = h then { s.hive h with buckets := modAt (s.hive h).buckets i (fun b => b.reduce rate burst) }
      else if e ∈ descendants s h then lessBelow i rate burst ((s.hive h).bucket i).rate e (s.hive e) else s.hive e := by
  have hd : descendants (s.modBucket h i (fun b => b.reduce rate burst)) h = descendants s h :=
    SameHives.descendants (.modHive s h (f := fun k => { k with buckets := modAt k.buckets i (fun b => b.reduce rate burst) })
      fun _ => ⟨rfl, rfl⟩) h
  have hfold : takeRate s h i rate burst = (descendants s h).foldl
      (fun v d => v.modHive d (lessBelow i rate burst ((s.hive h).bucket i).rate d)) (s.modBucket h i (fun b => b.reduce rate burst)) := by
    rw [← hd]
    rfl
  rw [hfold, foldl_modHive_hive (g := lessBelow i rate burst ((s.hive h).bucket i).rate) (fun _ _ => rfl) (descendants_nodup hn h) (State.findHive_modBucket_isSome.trans he)]
  by_cases heh : e = h
  · subst heh
    rw [if_pos rfl, if_neg (not_mem_descendants_self e), State.modBucket, State.hive_modHive_self hh (by exact fun _ => rfl)]
  · rw [if_neg heh, State.hive_modBucket_other heh]

/-- Rates taken from a hive and, in proportion, from its descendants, on one slice alone (R87). -/
theorem takeRate_bucket {s : State} {h i rate burst e : Nat} (hn : (s.hives.map (fun k => k.id)).Nodup)
    (hh : (s.findHive h).isSome = true) (he : (s.findHive e).isSome = true) :
    (∀ n, n ≠ i → ((takeRate s h i rate burst).hive e).bucket n = (s.hive e).bucket n) ∧
    (i < (s.hive e).buckets.length → ((takeRate s h i rate burst).hive e).bucket i =
      if e = h then ((s.hive e).bucket i).reduce rate burst
      else if e ∈ descendants s h then
        ((s.hive e).bucket i).reduce (((s.hive e).bucket i).rate * rate / max ((s.hive h).bucket i).rate 1)
          (min ((s.hive e).bucket i).burst burst)
      else (s.hive e).bucket i) := by
  rw [takeRate_hive hn hh he]
  by_cases heh : e = h
  · subst heh
    simp only [if_true]
    exact ⟨fun n hni => Hive.bucket_mod_other _ _ hni, fun hi => Hive.bucket_mod _ _ hi⟩
  · simp only [if_neg heh]
    split
    · exact ⟨fun n hni => Hive.bucket_mod_other _ _ hni, fun hi => Hive.bucket_mod _ _ hi⟩
    · exact ⟨fun _ _ => rfl, fun _ => rfl⟩

/-! ## Marks -/

theorem markLeaves_revoked {s : State} {h : Nat} (hh : (s.findHive h).isSome = true) (l : List (Nat × Nat × Nat × Nat)) :
    ((markLeaves s h l).hive h).revoked =
      (s.hive h).revoked ++ (l.map (fun x => x.1)).filter (fun p => !(s.hive h).revoked.contains p) := by
  rw [markLeaves, State.hive_modHive_self hh (by exact fun _ => rfl)]

theorem mem_markLeaves {s : State} {h : Nat} (hh : (s.findHive h).isSome = true) {l : List (Nat × Nat × Nat × Nat)}
    {x : Nat × Nat × Nat × Nat} (hx : x ∈ l) : x.1 ∈ ((markLeaves s h l).hive h).revoked := by
  rw [markLeaves_revoked hh, List.mem_append, List.mem_filter]
  by_cases hm : x.1 ∈ (s.hive h).revoked
  · exact .inl hm
  · exact .inr ⟨List.mem_map_of_mem hx, by simpa using hm⟩

theorem markLeaves_keeps {s : State} {h : Nat} (hh : (s.findHive h).isSome = true) (l : List (Nat × Nat × Nat × Nat)) :
    ∀ p ∈ (s.hive h).revoked, p ∈ ((markLeaves s h l).hive h).revoked := by
  intro p hp
  rw [markLeaves_revoked hh]
  exact List.mem_append_left _ hp

end Sys2Proof.Machine


/-! SUPPORT. HTAKE (R71, R363), one lemma for each KIND, and the HTAKE of shares or of the ring that goes on. -/

namespace Sys2Proof.Machine

theorem takeRate_me (s : State) (h i rate burst : Nat) : (takeRate s h i rate burst).me = s.me := by
  have hfold (f : Nat → Bucket → Bucket) (l : List Nat) : ∀ s : State, (l.foldl (fun s d => s.modBucket d i (f d)) s).me = s.me := by
    induction l with
    | nil => exact fun _ => rfl
    | cons d l ih => exact fun s => ih _
  exact hfold (fun _ b => b.reduce (b.rate * rate / max ((s.hive h).bucket i).rate 1) (min b.burst burst)) _ _

theorem takeRates_me (s : State) (h : Nat) (f g : Nat → Nat) (l : List Nat) :
    (l.foldl (fun v i => takeRate v h i (f i) (g i)) s).me = s.me := by
  induction l generalizing s with
  | nil => rfl
  | cons i l ih => exact (ih _).trans (takeRate_me s h i _ _)

section
variable {s u : State} {o : GFmt} {d : Hive} {r : Nat} (h : ChildRecord s o d r u)
include h

theorem exec_htakeShares_ok (hok : extentOk r 0 (4 * field r 1 1) = true) (hes : ∀ e ∈ extentEntries r, e < d.shares.length) :
    let xs := (extentEntries r).eraseDups.filterMap (fun n => (sharesInOrder d)[n]?)
    exec (.htakeShares o) s = .next (startTaking
      (if d.ring.isHeld && xs.any (fun x => x.core / 12 == d.part) then claimRing (revokeRing u d.id) u.me.hive else u) d.id xs) := by
  have hall : (extentEntries r).all (fun e => decide (e < d.shares.length)) = true :=
    List.all_eq_true.mpr fun e he => decide_eq_true (hes e he)
  intro xs
  change execHtakeShares o s = _
  unfold execHtakeShares
  refine extentOp_ok _ h (extentOk_kind hok) ?_
  simp only [hok, hall, Bool.and_self, need_of, ok_bind]
  rfl

theorem exec_htakeShares_refused (hok : extentOk r 0 (4 * field r 1 1) = true) (hes : ∃ e ∈ extentEntries r, d.shares.length ≤ e) :
    exec (.htakeShares o) s = .next (raise s ⟨.illegalField, encode (.htakeShares o), 0, 0⟩) := by
  have hall : (extentEntries r).all (fun e => decide (e < d.shares.length)) = false := by
    obtain ⟨e, he, hl⟩ := hes
    exact List.all_eq_false.mpr ⟨e, he, by simpa using hl⟩
  change execHtakeShares o s = _
  unfold execHtakeShares
  refine extentOp_err _ h (extentOk_kind hok) ?_
  simp only [hok, hall, Bool.and_false, need_fails]
  rfl

theorem exec_htakeRing_ok (hok : extentOk r 1 0 = true) :
    exec (.htakeRing o) s = .next (startTaking (match (subtree u d.id).find? (fun h => hasRing (u.hive h)) with
      | some h => claimRing (revokeRing u h) u.me.hive
      | none => u) d.id []) := by
  change execHtakeRing o s = _
  unfold execHtakeRing
  refine extentOp_ok _ h (extentOk_kind hok) ?_
  simp only [hok, need_of, ok_bind]
  rfl

theorem exec_htakeFabric_ok (hok : extentOk r 2 1 = true) (hle : field r 8 1 ≤ d.fslots) :
    exec (.htakeFabricBindings o) s = .next (settleHives (takeSlots u d.id (field r 8 1)) [u.me.hive, d.id]).advance := by
  change execHtakeFabricBindings o s = _
  unfold execHtakeFabricBindings
  refine extentOp_ok _ h (extentOk_kind hok) ?_
  simp only [hok, decide_eq_true hle, Bool.and_self, need_of, ok_bind]
  rfl

theorem exec_htakeFabric_refused (hok : extentOk r 2 1 = true) (hlt : d.fslots < field r 8 1) :
    exec (.htakeFabricBindings o) s = .next (raise s ⟨.illegalField, encode (.htakeFabricBindings o), 0, 0⟩) := by
  change execHtakeFabricBindings o s = _
  unfold execHtakeFabricBindings
  refine extentOp_err _ h (extentOk_kind hok) ?_
  simp only [decide_eq_false (Nat.not_le.mpr hlt), Bool.and_false, need_fails]
  rfl

theorem exec_htakeMemory_ok (hok : extentOk r 3 16 = true) (hb : field r 8 8 % 65536 = 0) (hs : field r 16 8 % 65536 = 0) :
    exec (.htakeMemory o) s = .next (settleHives (takeMemory u d.id (field r 8 8) (field r 16 8)) [u.me.hive, d.id]).advance := by
  change execHtakeMemory o s = _
  unfold execHtakeMemory
  refine extentOp_ok _ h (extentOk_kind hok) ?_
  simp only [hok, hb, hs, beq_self_eq_true, Bool.and_self, need_of, ok_bind]
  rfl

theorem exec_htakeMemory_refused (hok : extentOk r 3 16 = true) (hno : field r 8 8 % 65536 ≠ 0 ∨ field r 16 8 % 65536 ≠ 0) :
    exec (.htakeMemory o) s = .next (raise s ⟨.illegalField, encode (.htakeMemory o), 0, 0⟩) := by
  have hb : (extentOk r 3 16 && field r 8 8 % 65536 == 0 && field r 16 8 % 65536 == 0) = false := by
    rcases hno with hn | hn <;> simp [hn]
  change execHtakeMemory o s = _
  unfold execHtakeMemory
  refine extentOp_err _ h (extentOk_kind hok) ?_
  simp only [hb, need_fails]
  rfl

theorem exec_htakeBuckets_ok (hok : extentOk r 4 32 = true)
    (hw : ∀ i < 4, let w := field r (8 + 8 * i) 8
      w < 2 ^ 48 ∧ bits w 15 0 ≤ (d.bucket i).rate ∧ bits w 47 16 ≤ (d.bucket i).burst) :
    exec (.htakeBuckets o) s = .next (settleHives ((List.range 4).foldl (fun v i =>
      takeRate v d.id i (bits (field r (8 + 8 * i) 8) 15 0) (bits (field r (8 + 8 * i) 8) 47 16)) u) [u.me.hive, d.id]).advance := by
  have hall : (List.range 4).all (fun k => decide (field r (8 + 8 * k) 8 < 2 ^ 48) &&
      decide (bucketRate (field r (8 + 8 * k) 8) ≤ (d.bucket k).rate) &&
      decide (bucketBurst (field r (8 + 8 * k) 8) ≤ (d.bucket k).burst)) = true := by
    refine List.all_eq_true.mpr fun k hk => ?_
    obtain ⟨h48, hrate, hburst⟩ := hw k (List.mem_range.mp hk)
    simp only [h48, decide_eq_true (show bucketRate _ ≤ _ from hrate), decide_eq_true (show bucketBurst _ ≤ _ from hburst), decide_true, Bool.and_self]
  change execHtakeBuckets o s = _
  unfold execHtakeBuckets
  refine extentOp_ok _ h (extentOk_kind hok) ?_
  simp only [hok, hall, Bool.and_self, need_of, ok_bind, takeRates_me]
  rfl

theorem exec_htakeBuckets_refused (hok : extentOk r 4 32 = true)
    (hno : ∃ i < 4, let w := field r (8 + 8 * i) 8; (d.bucket i).rate < bits w 15 0 ∨ (d.bucket i).burst < bits w 47 16) :
    exec (.htakeBuckets o) s = .next (raise s ⟨.illegalField, encode (.htakeBuckets o), 0, 0⟩) := by
  have hall : (List.range 4).all (fun k => decide (field r (8 + 8 * k) 8 < 2 ^ 48) &&
      decide (bucketRate (field r (8 + 8 * k) 8) ≤ (d.bucket k).rate) &&
      decide (bucketBurst (field r (8 + 8 * k) 8) ≤ (d.bucket k).burst)) = false := by
    obtain ⟨i, hi, hn⟩ := hno
    refine List.all_eq_false.mpr ⟨i, List.mem_range.mpr hi, ?_⟩
    rcases hn with hn | hn
    · simp [decide_eq_false (show ¬ bucketRate (field r (8 + 8 * i) 8) ≤ _ from Nat.not_le.mpr hn)]
    · simp [decide_eq_false (show ¬ bucketBurst (field r (8 + 8 * i) 8) ≤ _ from Nat.not_le.mpr hn)]
  change execHtakeBuckets o s = _
  unfold execHtakeBuckets
  refine extentOp_err _ h (extentOk_kind hok) ?_
  simp only [hall, Bool.and_false, need_fails]
  rfl

end

section
variable {s : State} {o : GFmt} (hr : s.runs = true)
include hr

theorem exec_htakeShares_privilege (hw : s.me.awayHere = none)
    (hd : ∀ d, s.findHive (s.me.greg o.ga).toNat = some d → d.parent ≠ s.me.hive) :
    exec (.htakeShares o) s = .next (raise s ⟨.privilege, encode (.htakeShares o), 0, 0⟩) := by
  change execHtakeShares o s = _
  unfold execHtakeShares
  exact extentOp_refused _ hr hw hd

/-- An HTAKE that completed while its strand was away is over when the strand comes back to it (R71). -/
theorem exec_htakeShares_away {w : Away} (hw : s.me.awayHere = some w) : exec (.htakeShares o) s = .next (completeAt s s.cur w) := by
  change execHtakeShares o s = _
  unfold execHtakeShares extentOp
  simp only [hw]
  exact scalar_next hr _

end

/-- What completing an instruction leaves of a strand that stands at it. -/
theorem completedAt_here {w : Away} {t : Strand} (hp : t.placed = true) (hs : t.resuming = false) (hpc : t.pc = w.pc)
    (he : t.status ≠ .ended) :
    completedAt w t = { t.setGreg w.gd w.val with status := .running, pc := t.pc + 8, away := none } := by
  have hlive : t.status.isEnded = false := Bool.eq_false_iff.mpr fun h => he ((isEnded_iff _).mp h)
  simp [completedAt, hlive, Strand.onShare, hp, hs, hpc]

/-! ## An HTAKE of shares or of the ring that goes on -/

/-- No strand of the shares, and no task of the ring, is left (R71). -/
def AllGone (b : State) (x : Taking) : Prop := (∀ y ∈ x.shares, shareEmpty b y = true) ∧ tasksLeaving b (subtree b x.child) = false

/-- The shares pass to the issuer. -/
def sharesTaken (b : State) (n : Nat) (x : Taking) : State :=
  let c := (stopOnShares b x.child x.shares).modHive x.child (fun k => { k with
    shares := k.shares.filter (fun y => !x.shares.contains y) })
  let e := x.shares.foldl (fun v y => receiveShare v x.hive y) c
  (settleHives e [x.hive, x.child]).modPart n (fun p => { p with taking := none })

theorem allGone_iff (b : State) (x : Taking) :
    (x.shares.all (shareEmpty b) && !tasksLeaving b (subtree b x.child)) = true ↔ AllGone b x := by
  rw [Bool.and_eq_true, List.all_eq_true, Bool.not_eq_true', AllGone]

theorem goOnTaking_waits {a : State} {n : Nat} {x : Taking} (h : ¬ AllGone (x.shares.foldl emptyShare a) x) :
    goOnTaking a n x = (x.shares.foldl emptyShare a).modPart n (fun p => { p with taking := some x }) :=
  if_neg fun hc => h ((allGone_iff _ x).mp hc)

theorem goOnTaking_completes {a : State} {n : Nat} {x : Taking} (h : AllGone (x.shares.foldl emptyShare a) x) :
    goOnTaking a n x = completeAt (sharesTaken (x.shares.foldl emptyShare a) n x) x.strand ⟨x.pc, 0, 0, false⟩ :=
  if_pos ((allGone_iff _ x).mpr h)

end Sys2Proof.Machine


/-! SUPPORT. Fabric bindings that are undone (R71, R205): how many a hive's strands hold. -/

namespace Sys2Proof.Machine

/-! ## Counting bindings -/

/-- The slots that a strand has bound. -/
def Strand.boundCount (t : Strand) : Nat := (t.fslots.toList.filter (fun f => f.bound)).length

/-- What a strand adds to the bindings of a hive. -/
def Strand.slotsFor (h : Nat) (t : Strand) : Nat := if !t.status.isEnded && t.hive == h then t.boundCount else 0

theorem slotsBound_eq (s : State) (h : Nat) :
    slotsBound s h = ∑ k ∈ Finset.range s.strands.length, (s.strand k).slotsFor h := by
  have hl (l : List Strand) : ((l.filter (fun t => !t.status.isEnded && t.hive == h)).map Strand.boundCount).sum =
      ∑ k ∈ Finset.range l.length, (l.getD k Strand.blank).slotsFor h := by
    induction l with
    | nil => rfl
    | cons t l ih =>
      rw [List.length_cons, Finset.sum_range_succ', List.filter_cons]
      simp only [List.getD_cons_succ, List.getD_cons_zero, ← ih]
      rw [Strand.slotsFor]
      split
      · rw [List.map_cons, List.sum_cons, Nat.add_comm]
      · rfl
  exact hl s.strands

theorem Strand.boundCount_setFslot (t : Strand) (n : BitVec 5) (x : FSlot) :
    (t.setFslot n x).boundCount = t.boundCount - (if (t.fslot n).bound then 1 else 0) + (if x.bound then 1 else 0) := by
  simp only [Strand.boundCount, Strand.setFslot, Vector.toList_set, ← List.countP_eq_length_filter]
  rw [List.countP_set (by simpa using n.isLt)]
  rfl

theorem Strand.boundCount_pos {t : Strand} {n : BitVec 5} (h : (t.fslot n).bound = true) : 0 < t.boundCount := by
  rw [Strand.boundCount, ← List.countP_eq_length_filter, List.countP_pos_iff]
  exact ⟨t.fslot n, by simp [Strand.fslot], h⟩

theorem Strand.fslot_bound (t : Strand) {i : Nat} (hi : i < 32) : (t.fslot (BitVec.ofNat 5 i)).bound = (t.fslots[i]'hi).bound := by
  simp only [Strand.fslot, BitVec.toNat_ofNat, Nat.mod_eq_of_lt (show i < 2 ^ 5 from hi)]

theorem Strand.boundCount_congr {a b : Strand} (h : ∀ n, (b.fslot n).bound = (a.fslot n).bound) : b.boundCount = a.boundCount := by
  have hmap : b.fslots.toList.map (fun f => f.bound) = a.fslots.toList.map (fun f => f.bound) := by
    refine List.ext_getElem (by simp) fun i hi _ => ?_
    have hi : i < 32 := by simpa using hi
    simpa [Strand.fslot_bound _ hi] using h (BitVec.ofNat 5 i)
  have hcount (t : Strand) : t.boundCount = (t.fslots.toList.map (fun f => f.bound)).countP id := by
    rw [Strand.boundCount, List.countP_map, ← List.countP_eq_length_filter]
    rfl
  rw [hcount, hcount, hmap]

theorem Strand.boundCount_of_unbound {t : Strand} (h : ∀ n, (t.fslot n).bound = false) : t.boundCount = 0 := by
  rw [Strand.boundCount, ← List.countP_eq_length_filter, List.countP_eq_zero]
  intro f hf
  obtain ⟨i, hi, rfl⟩ := List.getElem_of_mem hf
  have hi : i < 32 := by simpa using hi
  have hn := h (BitVec.ofNat 5 i)
  rw [Strand.fslot_bound t hi] at hn
  simpa using hn

/-- Between a and b a strand kept its hive, its life and what it has bound. -/
structure Strand.SameSlots (a b : Strand) : Prop where
  hive : b.hive = a.hive
  ended : b.status.isEnded = a.status.isEnded
  bound : ∀ n, (b.fslot n).bound = (a.fslot n).bound

namespace Strand.SameSlots

variable {a b c : Strand}

theorem refl (a : Strand) : a.SameSlots a := ⟨rfl, rfl, fun _ => rfl⟩

theorem trans (h : a.SameSlots b) (g : b.SameSlots c) : a.SameSlots c :=
  ⟨g.hive.trans h.hive, g.ended.trans h.ended, fun n => (g.bound n).trans (h.bound n)⟩

theorem slotsFor (h : a.SameSlots b) (e : Nat) : b.slotsFor e = a.slotsFor e := by
  rw [Strand.slotsFor, Strand.slotsFor, h.hive, h.ended, Strand.boundCount_congr h.bound]

theorem setFslot {t : Strand} {n : BitVec 5} {x : FSlot} (hx : x.bound = (t.fslot n).bound) : t.SameSlots (t.setFslot n x) := by
  refine ⟨rfl, rfl, fun m => ?_⟩
  rw [Strand.fslot_setFslot]
  split
  · next h => rw [hx, h]
  · rfl

theorem setVreg (t : Strand) (r : BitVec 6) (x : VReg) : t.SameSlots (t.setVreg r x) := ⟨rfl, rfl, fun _ => rfl⟩

theorem setGreg (t : Strand) (r : BitVec 5) (x : Word) : t.SameSlots (t.setGreg r x) := by
  unfold Strand.setGreg
  split <;> exact ⟨rfl, rfl, fun _ => rfl⟩

end Strand.SameSlots

/-- Between s and t no strand's bindings changed, nor any hive. -/
structure SameSlots (s t : State) : Prop where
  length : t.strands.length = s.strands.length
  strand : ∀ k, (s.strand k).SameSlots (t.strand k)
  hives : t.hives = s.hives

namespace SameSlots

variable {s t u : State}

theorem refl (s : State) : SameSlots s s := ⟨rfl, fun _ => .refl _, rfl⟩

theorem trans (h : SameSlots s t) (g : SameSlots t u) : SameSlots s u :=
  ⟨g.length.trans h.length, fun k => (h.strand k).trans (g.strand k), g.hives.trans h.hives⟩

theorem of_keepsStrands (h : KeepsStrands s t) : SameSlots s t :=
  ⟨by rw [h.strands], fun k => by rw [h.strand]; exact .refl _, h.hives⟩

theorem of_access (h : Access s t) : SameSlots s t := ⟨by rw [h.strands], fun k => by rw [h.strand]; exact .refl _, h.hives⟩

theorem modStrand (s : State) (k : Nat) {f : Strand → Strand} (hf : ∀ t : Strand, t.SameSlots (f t)) : SameSlots s (s.modStrand k f) := by
  refine ⟨State.modStrand_length .., fun j => ?_, rfl⟩
  rw [State.strand_mod]
  split
  · next h => exact h.1 ▸ hf _
  · exact .refl _

theorem modSlot (s : State) (k : Nat) (n : BitVec 5) {f : FSlot → FSlot} (hf : ∀ x, (f x).bound = x.bound) : SameSlots s (s.modSlot k n f) :=
  modStrand s k fun _ => .setFslot (hf _)

theorem slotsBound (h : SameSlots s t) (e : Nat) : slotsBound t e = slotsBound s e := by
  rw [slotsBound_eq, slotsBound_eq, h.length]
  exact Finset.sum_congr rfl fun k _ => (h.strand k).slotsFor e

end SameSlots

/-! ## An FX that stops, and a binding undone -/

theorem stopRegs_sameSlots (t : Strand) (x : CombCtx) : t.SameSlots (stopRegs t x) := by
  unfold stopRegs
  split
  · dsimp only
    split
    · exact .setVreg t _ _
    · exact (Strand.SameSlots.setVreg t _ _).trans (.setGreg _ _ _)
  · exact .refl t

theorem stopFx_sameSlots (s : State) (core : Nat) (x : CombCtx) : SameSlots s (stopFx s core x).1 := by
  have hflush : SameSlots s (freePorts (flushCtx s core x) core x) :=
    .of_access ((flushCtx_access s core x).trans (freePorts_access _ _ _))
  have hregs (v : State) : SameSlots v (v.modStrand x.owner (fun t => (stopRegs t x).orFlags x.flags)) :=
    .modStrand v _ fun t => (stopRegs_sameSlots t x).trans ⟨rfl, rfl, fun _ => rfl⟩
  have htags (v : State) : SameSlots v (setTags v x.owner (fun e => e.inComb x.slot) none) :=
    .modStrand v _ fun t => ⟨rfl, rfl, fun _ => rfl⟩
  have hslot (v : State) (y : CombCtx) : SameSlots v (v.modSlot x.owner x.slot (fun f => { f.note y with state := .stopped })) :=
    .modSlot v _ _ fun _ => rfl
  have hall (y : CombCtx) := ((hflush.trans (hregs _)).trans (htags _)).trans (hslot _ y)
  unfold stopFx
  dsimp only
  split
  · next hw => exact ((hall _).trans (.of_access (writeRecord_access hw))).trans (.of_access (putCtx_access _ _ _))
  · exact (hall _).trans (.of_access (putCtx_access _ _ _))

/-- The state in which the slot of a binding is released: an FX in flight on it has stopped. -/
def bindingStopped (s : State) (k : Nat) (n : BitVec 5) : State :=
  match s.ctxOf k n with
  | some (c, x) => if x.running then (stopFx s c x).1 else s
  | none => s

theorem bindingStopped_sameSlots (s : State) (k : Nat) (n : BitVec 5) : SameSlots s (bindingStopped s k n) := by
  unfold bindingStopped
  split
  · split
    · exact stopFx_sameSlots s _ _
    · exact .refl s
  · exact .refl s

theorem undoBinding_keepsStrands (s : State) (k : Nat) (n : BitVec 5) :
    KeepsStrands (releaseSlot (bindingStopped s k n) k n) (undoBinding s k n) := by
  have hput (v : State) : KeepsStrands v (if (v.strand k).status.isSuspended || ((v.strand k).unloaded && (v.strand k).entry.isSome) then
      poolPut v (v.hive (v.strand k).hive) (entryOff (v.hive (v.strand k).hive) (v.strand k) + 0xB00 + 16 * n.toNat) (leBytes 16 0)
      else v) := by
    split
    · exact poolPut_keepsStrands _ _ _ _
    · exact .refl v
  exact hput _

theorem undoBinding_hives (s : State) (k : Nat) (n : BitVec 5) : (undoBinding s k n).hives = s.hives := by
  rw [(undoBinding_keepsStrands s k n).hives, releaseSlot_eq, ← (bindingStopped_sameSlots s k n).hives]
  exact (slotFlushed_access _ k n).hives

theorem undoBinding_length (s : State) (k : Nat) (n : BitVec 5) : (undoBinding s k n).strands.length = s.strands.length := by
  rw [(undoBinding_keepsStrands s k n).strands, (releaseSlot_fades (F := id) _ k n).length, (bindingStopped_sameSlots s k n).length]

theorem undoBinding_slotsFor (s : State) (k j : Nat) (n : BitVec 5) (e : Nat) : ((undoBinding s k n).strand j).slotsFor e =
    if k = j ∧ k < s.strands.length then
      if !(s.strand k).status.isEnded && (s.strand k).hive == e then
        (s.strand k).boundCount - (if ((s.strand k).fslot n).bound then 1 else 0)
      else 0
    else (s.strand j).slotsFor e := by
  have hs := bindingStopped_sameSlots s k n
  rw [(undoBinding_keepsStrands s k n).strand, releaseSlot_strand, hs.length]
  split
  · next h =>
    have hk := hs.strand k
    rw [Strand.slotsFor, Strand.boundCount_setFslot, Strand.boundCount_congr hk.bound, hk.bound n]
    simp only [Strand.setFslot_status, Strand.setFslot_hive, hk.hive, hk.ended]
    rfl
  · exact (hs.strand j).slotsFor e

theorem undoBinding_slotsFor_le (s : State) (k j : Nat) (n : BitVec 5) (e : Nat) :
    ((undoBinding s k n).strand j).slotsFor e ≤ (s.strand j).slotsFor e := by
  rw [undoBinding_slotsFor]
  split
  · next h =>
    rw [← h.1, Strand.slotsFor]
    split
    · exact Nat.sub_le _ _
    · exact Nat.le_refl _
  · exact Nat.le_refl _

/-- A binding undone raises no hive's count. -/
theorem undoBinding_slotsBound_le (s : State) (k : Nat) (n : BitVec 5) (e : Nat) : slotsBound (undoBinding s k n) e ≤ slotsBound s e := by
  rw [slotsBound_eq, slotsBound_eq, undoBinding_length]
  exact Finset.sum_le_sum fun j _ => undoBinding_slotsFor_le s k j n e

/-- It lowers that of its own hive. -/
theorem undoBinding_slotsBound_lt {s : State} {k : Nat} {n : BitVec 5} (hk : k < s.strands.length)
    (he : (s.strand k).status.isEnded = false) (hb : ((s.strand k).fslot n).bound = true) :
    slotsBound (undoBinding s k n) (s.strand k).hive < slotsBound s (s.strand k).hive := by
  rw [slotsBound_eq, slotsBound_eq, undoBinding_length]
  refine Finset.sum_lt_sum (fun j _ => undoBinding_slotsFor_le s k j n _) ⟨k, Finset.mem_range.mpr hk, ?_⟩
  have hpos := Strand.boundCount_pos hb
  rw [undoBinding_slotsFor, if_pos ⟨rfl, hk⟩, Strand.slotsFor]
  simp only [he, hb, Bool.not_false, beq_self_eq_true, Bool.and_self, if_true]
  omega

end Sys2Proof.Machine


/-! SUPPORT. Fabric bindings taken from a hive and its descendants (R71). -/

namespace Sys2Proof.Machine

/-! ## The newest binding -/

/-- The bindings of a hive's strands that live: order of binding, strand and slot. -/
def bindingsOf (s : State) (h : Nat) : List (Nat × Nat × BitVec 5) :=
  (List.range s.strands.length).flatMap (fun k =>
    let t := s.strand k
    if t.hive == h && !t.status.isEnded then
      ((List.range 32).filter (fun n => (t.fslot (BitVec.ofNat 5 n)).bound)).map (fun n =>
        ((t.fslot (BitVec.ofNat 5 n)).order, k, BitVec.ofNat 5 n))
    else [])

/-- The later of two bindings. -/
def newerOf (m : Option (Nat × Nat × BitVec 5)) (x : Nat × Nat × BitVec 5) : Option (Nat × Nat × BitVec 5) :=
  match m with
  | none => some x
  | some y => if y.1 < x.1 then some x else m

theorem newestBinding_eq (s : State) (h : Nat) : newestBinding s h = ((bindingsOf s h).foldl newerOf none).map (fun x => x.2) := rfl

theorem foldl_newerOf_mem (l : List (Nat × Nat × BitVec 5)) (m : Option (Nat × Nat × BitVec 5)) {x : Nat × Nat × BitVec 5}
    (hx : l.foldl newerOf m = some x) : m = some x ∨ x ∈ l := by
  induction l generalizing m with
  | nil => exact .inl hx
  | cons y l ih =>
    refine (ih _ hx).elim (fun hm => ?_) fun hm => .inr (List.mem_cons_of_mem _ hm)
    unfold newerOf at hm
    split at hm
    · exact .inr (List.mem_cons.mpr (.inl (Option.some.inj hm).symm))
    · split at hm
      · exact .inr (List.mem_cons.mpr (.inl (Option.some.inj hm).symm))
      · exact .inl hm

theorem foldl_newerOf_some (l : List (Nat × Nat × BitVec 5)) (y : Nat × Nat × BitVec 5) : (l.foldl newerOf (some y)).isSome = true := by
  induction l generalizing y with
  | nil => rfl
  | cons x l ih =>
    rw [List.foldl_cons, newerOf]
    split <;> exact ih _

theorem mem_bindingsOf {s : State} {h order k : Nat} {n : BitVec 5} (hm : (order, k, n) ∈ bindingsOf s h) :
    k < s.strands.length ∧ (s.strand k).hive = h ∧ (s.strand k).status.isEnded = false ∧ ((s.strand k).fslot n).bound = true := by
  obtain ⟨j, hj, hm⟩ := List.mem_flatMap.mp hm
  dsimp only at hm
  split at hm
  · next hc =>
    obtain ⟨i, hi, heq⟩ := List.mem_map.mp hm
    simp only [Prod.mk.injEq] at heq
    obtain ⟨-, rfl, rfl⟩ := heq
    simp only [Bool.and_eq_true, beq_iff_eq, Bool.not_eq_true'] at hc
    exact ⟨List.mem_range.mp hj, hc.1, hc.2, (List.mem_filter.mp hi).2⟩
  · exact absurd hm List.not_mem_nil

/-- The newest binding is one of a strand of the hive that lives. -/
theorem newestBinding_bound {s : State} {h k : Nat} {n : BitVec 5} (hb : newestBinding s h = some (k, n)) :
    k < s.strands.length ∧ (s.strand k).hive = h ∧ (s.strand k).status.isEnded = false ∧ ((s.strand k).fslot n).bound = true := by
  rw [newestBinding_eq] at hb
  obtain ⟨⟨order, x⟩, hx, rfl⟩ := Option.map_eq_some_iff.mp hb
  exact mem_bindingsOf ((foldl_newerOf_mem _ none hx).resolve_left (fun h => nomatch h))

/-- Where there is none, the hive's strands have bound no slot. -/
theorem slotsBound_of_none {s : State} {h : Nat} (hb : newestBinding s h = none) : slotsBound s h = 0 := by
  have hnil : bindingsOf s h = [] := by
    rw [newestBinding_eq, Option.map_eq_none_iff] at hb
    cases hl : bindingsOf s h with
    | nil => rfl
    | cons x l =>
      rw [hl] at hb
      have hsome := foldl_newerOf_some l x
      rw [show l.foldl newerOf (some x) = none from hb] at hsome
      cases hsome
  rw [slotsBound_eq]
  refine Finset.sum_eq_zero fun k hk => ?_
  rw [Strand.slotsFor]
  split
  · next hc =>
    refine Strand.boundCount_of_unbound fun n => Bool.eq_false_iff.mpr fun hn => ?_
    have hnone := List.flatMap_eq_nil_iff.mp hnil k (List.mem_range.mpr (Finset.mem_range.mp hk))
    rw [if_pos (by rw [Bool.and_comm]; exact hc), List.map_eq_nil_iff, List.filter_eq_nil_iff] at hnone
    refine hnone n.toNat (List.mem_range.mpr n.isLt) ?_
    rw [BitVec.ofNat_toNat, BitVec.setWidth_eq]
    exact hn
  · rfl

/-! ## Bindings trimmed -/

theorem trimBindings_hives (n : Nat) (s : State) (h : Nat) : (trimBindings n s h).hives = s.hives := by
  induction n generalizing s with
  | zero => rfl
  | succ n ih =>
    rw [trimBindings]
    split
    · rfl
    · split
      · rw [ih, undoBinding_hives]
      · rfl

theorem trimBindings_slotsBound_le (n : Nat) (s : State) (h e : Nat) : slotsBound (trimBindings n s h) e ≤ slotsBound s e := by
  induction n generalizing s with
  | zero => exact Nat.le_refl _
  | succ n ih =>
    rw [trimBindings]
    split
    · exact Nat.le_refl _
    · split
      · exact Nat.le_trans (ih _) (undoBinding_slotsBound_le s _ _ e)
      · exact Nat.le_refl _

/-- What the bindings of a hive's own strands are counted from (R69). -/
def Hive.owning (k : Hive) : Nat × Nat × Nat := (k.id, k.parent, k.fslots)

theorem ownSlots_same {s t : State} (h : SameHives Hive.owning s t) (e : Nat) : ownSlots t (t.hive e) = ownSlots s (s.hive e) := by
  have hsum (u : State) (n : Nat) : ((u.hives.filter (fun k => k.parent == n)).map (fun k => k.fslots)).sum =
      (((u.hives.map (fun x => (x.id, x.owning))).filter (fun p => p.2.2.1 == n)).map (fun p => p.2.2.2)).sum := by
    rw [List.filter_map, List.map_map]
    rfl
  have hk := h.hive e
  simp only [Hive.owning, Prod.mk.injEq] at hk
  obtain ⟨hid, -, hf⟩ := hk
  rw [ownSlots, ownSlots, hsum, hsum, h, hid, hf]

/-- A hive's bindings brought down to what it owns. -/
theorem trimBindings_fits (n : Nat) {s : State} {h : Nat} (hn : slotsBound s h ≤ n) :
    slotsBound (trimBindings n s h) h ≤ ownSlots s (s.hive h) := by
  induction n generalizing s with
  | zero => exact Nat.le_trans hn (Nat.zero_le _)
  | succ n ih =>
    rw [trimBindings]
    split
    · next hle => exact hle
    · split
      · next k slot hb =>
        obtain ⟨hk, rfl, he, hbound⟩ := newestBinding_bound hb
        have hlt := undoBinding_slotsBound_lt hk he hbound
        have hown : ownSlots (undoBinding s k slot) ((undoBinding s k slot).hive (s.strand k).hive) = ownSlots s (s.hive (s.strand k).hive) :=
          ownSlots_same (.of_hives (undoBinding_hives s k slot)) _
        rw [← hown]
        exact ih (by omega)
      · next hb =>
        rw [slotsBound_of_none hb]
        exact Nat.zero_le _

/-- Several hives trimmed, one after the other. -/
theorem trims_hives (l : List Nat) (s : State) : (l.foldl (fun s d => trimBindings (slotsBound s d) s d) s).hives = s.hives := by
  induction l generalizing s with
  | nil => rfl
  | cons d l ih => rw [List.foldl_cons, ih, trimBindings_hives]

theorem trims_slotsBound_le (l : List Nat) (s : State) (e : Nat) :
    slotsBound (l.foldl (fun s d => trimBindings (slotsBound s d) s d) s) e ≤ slotsBound s e := by
  induction l generalizing s with
  | nil => exact Nat.le_refl _
  | cons d l ih => exact Nat.le_trans (ih _) (trimBindings_slotsBound_le _ s d e)

theorem trims_fit {l : List Nat} {s : State} {e : Nat} (he : e ∈ l) :
    slotsBound (l.foldl (fun s d => trimBindings (slotsBound s d) s d) s) e ≤ ownSlots s (s.hive e) := by
  induction l generalizing s with
  | nil => exact absurd he List.not_mem_nil
  | cons d l ih =>
    rw [List.foldl_cons]
    rcases List.mem_cons.mp he with rfl | he
    · exact Nat.le_trans (trims_slotsBound_le l _ e) (trimBindings_fits _ (Nat.le_refl _))
    · exact Nat.le_trans (ih he) (Nat.le_of_eq (ownSlots_same (.of_hives (trimBindings_hives _ s d)) e))

/-! ## FSLOTS of a child reduced -/

/-- A descendant's FSLOTS in proportion. -/
def slotsBelow (new old : Nat) (_ : Nat) (k : Hive) : Hive := { k with fslots := k.fslots * new / max old 1 }

/-- The new counts of a hive and its descendants. -/
def slotsSet (s : State) (h new : Nat) : State :=
  ((descendants s h).foldl (fun v d => v.modHive d (slotsBelow new (s.hive h).fslots d)) s).modHive h (fun k => { k with fslots := new })

/-- The bindings of a hive and its descendants brought down to the new counts. -/
def slotsTrimmed (s : State) (h new : Nat) : State :=
  (h :: descendants s h).foldl (fun s d => trimBindings (slotsBound s d) s d) (slotsSet s h new)

theorem foldl_posts {β : Type} {f : State → β → State} (hf : ∀ s x, Posts s (f s x)) (l : List β) (s : State) : Posts s (l.foldl f s) := by
  induction l generalizing s with
  | nil => exact .refl s
  | cons x l ih => exact (hf s x).trans (ih _)

/-- Then those whose count fell are told. -/
theorem takeSlots_posts (s : State) (h new : Nat) : Posts (slotsTrimmed s h new) (takeSlots s h new) := by
  have hsplit (b : Prop) [Decidable b] (l : List Nat) (v : State) :
      Posts v (if b then l.foldl (fun s d => (post s d (s.partOf d) (revokedNotice d 2)).2) v else v) := by
    split
    · exact foldl_posts (fun s d => post_posts s _ _ _) l v
    · exact .refl v
  exact hsplit _ _ _

theorem slotsSet_hive {s : State} {h new e : Nat} (hn : (s.hives.map (fun k => k.id)).Nodup) (hh : (s.findHive h).isSome = true)
    (he : (s.findHive e).isSome = true) : (slotsSet s h new).hive e =
      if e = h then { s.hive h with fslots := new }
      else if e ∈ descendants s h then slotsBelow new (s.hive h).fslots e (s.hive e) else s.hive e := by
  have hfold (x : Nat) := foldl_modHive_findHive (g := slotsBelow new (s.hive h).fslots) (fun _ _ => rfl) (descendants_nodup hn h) s x
  have hhive {x : Nat} (hx : (s.findHive x).isSome = true) :=
    foldl_modHive_hive (g := slotsBelow new (s.hive h).fslots) (fun _ _ => rfl) (descendants_nodup hn h) hx
  by_cases heh : e = h
  · subst heh
    have hsome := congrArg Option.isSome (hfold e)
    rw [if_neg (not_mem_descendants_self e)] at hsome
    rw [if_pos rfl, slotsSet, State.hive_modHive_self (hsome.trans hh) (by exact fun _ => rfl), hhive hh,
      if_neg (not_mem_descendants_self e)]
  · rw [if_neg heh, slotsSet, State.hive_modHive_other heh (by exact fun _ => rfl), hhive he]

/-- FSLOTS falls to the new value and in proportion below (R71). -/
theorem takeSlots_fslots {s : State} {h new e : Nat} (hn : (s.hives.map (fun k => k.id)).Nodup) (hh : (s.findHive h).isSome = true)
    (he : (s.findHive e).isSome = true) : ((takeSlots s h new).hive e).fslots =
      if e = h then new
      else if e ∈ descendants s h then (s.hive e).fslots * new / max (s.hive h).fslots 1 else (s.hive e).fslots := by
  have hp := ((takeSlots_posts s h new).same (F := Hive.fslots) fun _ => rfl).hive e
  have ht : (slotsTrimmed s h new).hives = (slotsSet s h new).hives := trims_hives _ _
  rw [hp, State.hive, State.findHive, ht, ← State.findHive, ← State.hive, slotsSet_hive hn hh he]
  split
  · rfl
  · split <;> rfl

/-- No hive of the subtree has more slots bound than it owns. -/
theorem takeSlots_fit (s : State) (h new : Nat) {e : Nat} (he : e ∈ h :: descendants s h) :
    slotsBound (takeSlots s h new) e ≤ ownSlots (takeSlots s h new) ((takeSlots s h new).hive e) := by
  have hp := takeSlots_posts s h new
  have ht : (slotsTrimmed s h new).hives = (slotsSet s h new).hives := trims_hives _ _
  rw [ownSlots_same (hp.same fun _ => rfl), ownSlots_same (.of_hives ht)]
  refine Nat.le_trans (Nat.le_of_eq ?_) (trims_fit he)
  rw [slotsBound, hp.strands]
  rfl

end Sys2Proof.Machine


/-! SUPPORT. Pages taken from a hive and its descendants (R71, R79, R244): what of the hives the steps leave alone. -/

namespace Sys2Proof.Machine

/-! ## Completion records, and commands that stop -/

theorem engineWrite_access {s t : State} {w : Who} {va : Nat} {p : Place} (h : engineWrite s w va = .ok (p, t)) : Access s t := by
  have hl : engineLocate s w va .write = .ok (p, t) := by
    unfold engineWrite at h
    split at h
    · cases h
    · cases h
    · next he =>
      split at h
      · cases h
      · rw [he]
        exact congrArg Except.ok (Except.ok.inj h)
    · next he =>
      rw [he]
      exact congrArg Except.ok (Except.ok.inj h)
  unfold engineLocate at hl
  split at hl
  · cases hl
  · exact locate_access hl

theorem enginePlaces_access {w : Who} {fuel va n : Nat} {s t : State} {ps : List (Place × Nat)}
    (h : enginePlaces s w fuel va n = .ok (ps, t)) : Access s t := by
  induction fuel generalizing s va n ps with
  | zero =>
    cases h
    exact .refl _
  | succ fuel ih =>
    unfold enginePlaces at h
    split at h
    · cases h
      exact .refl _
    · dsimp only at h
      split at h
      · cases h
      · next hw =>
        split at h
        · cases h
        · next hr =>
          cases h
          exact (engineWrite_access hw).trans (ih hr)

theorem fillGranules_access (s : State) (c off n : Nat) : Access s (fillGranules s c off n) := by
  unfold fillGranules
  split
  · exact .refl s
  · exact .foldl (fun s k => .modCore s _ _) _ s

theorem putPlace_access (s : State) (w : Who) (p : Place) (bs : List Byte) : Access s (putPlace s w p bs) := by
  unfold putPlace
  split
  · exact (Access.modCore s _ _).trans (fillGranules_access _ _ _ _)
  · rfl
  · exact .refl s
  · exact .refl s

theorem putPlaces_access (w : Who) (ps : List (Place × Nat)) (s : State) (bs : List Byte) : Access s (putPlaces s w ps bs) := by
  induction ps generalizing s bs with
  | nil => exact .refl s
  | cons p ps ih => exact (putPlace_access s w p.1 _).trans (ih _ _)

theorem writeRange_access {s t : State} {w : Who} {va : Nat} {bs : List Byte} (h : writeRange s w va bs = .ok t) : Access s t := by
  unfold writeRange at h
  cases hp : enginePlaces s w (pieceFuel bs.length) va bs.length with
  | error e => rw [hp] at h; cases h
  | ok x =>
    rw [hp] at h
    cases h
    exact (enginePlaces_access hp).trans (putPlaces_access _ _ _ _)

theorem writeCompletion_access {s t : State} {c : Cmd} {e : Ending} (h : writeCompletion s c e = .ok t) : Access s t := by
  unfold writeCompletion at h
  dsimp only at h
  split at h
  · cases h
  · next hw => exact (writeRange_access hw).trans (writeRange_access h)

section
variable {α : Type} {F : Hive → α} {s t : State}

section
variable (hseal : ∀ (x : Hive) (n : Nat), F { x with sealSeq := n } = F x)
include hseal

theorem leaveStep5_sameHives (s : State) (k : Nat) : SameHives F s (leaveStep5 s k) := by
  have hmake (kind : CmdKind) (r : Nat) : SameHives F s (makeCommand s k kind r) := by
    unfold makeCommand
    dsimp only
    split
    · exact .modHive _ _ fun x => ⟨rfl, hseal x _⟩
    · exact .of_hives rfl
  unfold leaveStep5
  split
  · split
    · split
      · exact hmake _ _
      · exact .refl s
    · exact .refl s
  · exact .refl s

theorem tryCompletion_sameHives (s : State) (cmd : Nat) : SameHives F s (tryCompletion s cmd) := by
  unfold tryCompletion
  split
  · exact .refl s
  · split
    · exact .refl s
    · split
      · exact .refl s
      · next hw => exact SameHives.trans (.of_hives (writeCompletion_access hw).hives) (leaveStep5_sameHives hseal _ _)

/-- Commands that stop leave of every hive all but the sequence of its seals. -/
theorem stopCommands_sameHives (s : State) (h : Nat) : SameHives F s (stopCommands s h) := by
  have hstep (s : State) (c : Cmd) :
      SameHives F s (tryCompletion (s.modCmd c.id (fun c => { c with ending := some endingRevoked })) c.id) :=
    SameHives.trans (.of_hives rfl) (tryCompletion_sameHives hseal _ _)
  exact .foldl hstep _ s

theorem stopAll_sameHives (l : List Nat) (s : State) : SameHives F s (l.foldl stopCommands s) :=
  .foldl (fun s h => stopCommands_sameHives hseal s h) l s

end

/-! ## The effect of AINV -/

theorem flushL1_access (s : State) (hive c : Nat) : Access s (flushL1 s hive c) := .of_cachesOnly flushL1_cachesOnly

theorem flushBufs_access (s : State) (core : Nat) (p : PortBuf → Bool) : Access s (flushBufs s core p) :=
  .foldl (fun s b => flushBuf_access s core b) _ s

theorem flushHive_access (s : State) (hive : Nat) : Access s (flushHive s hive) := by
  refine .foldl (fun s c => ?_) _ s
  have hb : Access s (if (s.core c).bufs.isEmpty then s else flushBufs s c (fun b => b.hive == hive)) := by
    split
    · exact .refl s
    · exact flushBufs_access s c _
  have hl (v : State) : Access v (if mayHoldStores v hive c then flushL1 v hive c else v) := by
    split
    · exact flushL1_access v hive c
    · exact .refl v
  exact hb.trans (hl _)

theorem requestWalks_hives (s : State) (k : Nat) (sx : BitVec 4) : (requestWalks s k sx).hives = s.hives := by
  unfold requestWalks
  dsimp only
  split
  · rfl
  · rfl

theorem foldl_hives {β : Type} {f : State → β → State} (hf : ∀ s x, (f s x).hives = s.hives) (l : List β) (s : State) :
    (l.foldl f s).hives = s.hives := by
  induction l generalizing s with
  | nil => rfl
  | cons x l ih => rw [List.foldl_cons, ih, hf]

theorem refillLook_hives (s : State) (k : Nat) : (refillLook s k).hives = s.hives :=
  foldl_hives (fun s _ => requestWalks_hives s k _) _ s

/-- A later generation of a hive, and nothing else of any. -/
theorem newGeneration_hives (s : State) (h : Nat) :
    (newGeneration s h).hives = (s.modHive h (fun k => { k with gen := (s.hive h).gen + 1 })).hives := by
  refine (foldl_hives (fun s k => ?_) _ _).trans rfl
  split
  · exact refillLook_hives s k
  · rfl

theorem invalidate_hives (s : State) (h : Nat) :
    (invalidate s h).hives = (s.modHive h (fun k => { k with gen := (s.hive h).gen + 1 })).hives := by
  have ha := (flushHive_access s h).hives
  rw [invalidate, newGeneration_hives, State.modHive, State.modHive, State.hive, State.findHive, ha]
  rfl

theorem invalidate_findHive (s : State) (h e : Nat) : (invalidate s h).findHive e =
    if e = h then (s.findHive h).map (fun k => { k with gen := k.gen + 1 }) else s.findHive e := by
  rw [State.findHive, invalidate_hives, ← State.findHive, State.findHive_modHive _ _ (by exact fun _ => rfl)]
  split
  · cases hs : s.findHive h with
    | none => rfl
    | some x =>
      rw [State.hive_of_findHive hs]
      rfl
  · rfl

/-- Several hives, each once. -/
theorem invalidates_findHive {l : List Nat} (hl : l.Nodup) (s : State) (e : Nat) : (l.foldl invalidate s).findHive e =
    if e ∈ l then (s.findHive e).map (fun k => { k with gen := k.gen + 1 }) else s.findHive e := by
  induction l generalizing s with
  | nil => rfl
  | cons d l ih =>
    obtain ⟨hd, hl⟩ := List.nodup_cons.mp hl
    rw [List.foldl_cons, ih hl, invalidate_findHive]
    by_cases he : e = d
    · subst he
      rw [if_neg hd, if_pos rfl, if_pos List.mem_cons_self]
    · rw [if_neg he]
      simp only [List.mem_cons, he, false_or]

/-! ## Hives that die meanwhile -/

/-- Of each hive that is still in the tree a reading is as it was. -/
def Survives (F : Hive → α) (s t : State) : Prop := ∀ e, t.findHive e = none ∨ (t.findHive e).map F = (s.findHive e).map F

theorem Survives.refl (s : State) : Survives F s s := fun _ => .inr rfl

theorem Survives.of_same (h : SameHives F s t) : Survives F s t := fun e => .inr (h.findHive e)

theorem Survives.trans {u : State} (h : Survives F s t) (g : Survives F t u) : Survives F s u := by
  intro e
  rcases g e with hu | hu
  · exact .inl hu
  · rcases h e with ht | ht
    · rw [ht] at hu
      exact .inl (Option.map_eq_none_iff.mp hu)
    · exact .inr (hu.trans ht)

theorem Survives.foldl {β : Type} {f : State → β → State} (hf : ∀ s x, Survives F s (f s x)) (l : List β) (s : State) :
    Survives F s (l.foldl f s) := by
  induction l generalizing s with
  | nil => exact .refl s
  | cons x l ih => exact (hf s x).trans (ih _)

/-- A hive out of the tree stays out. -/
theorem Survives.none (h : Survives F s t) {e : Nat} (he : s.findHive e = none) : t.findHive e = none := by
  rcases h e with ht | ht
  · exact ht
  · rw [he] at ht
    exact Option.map_eq_none_iff.mp ht

/-- One that is still in it was in it. -/
theorem Survives.hive (h : Survives F s t) {e : Nat} (he : (t.findHive e).isSome = true) :
    (s.findHive e).isSome = true ∧ F (t.hive e) = F (s.hive e) := by
  obtain ⟨y, hy⟩ := Option.isSome_iff_exists.mp he
  have ht := (h e).resolve_left (by rw [hy]; exact fun h => nomatch h)
  rw [hy] at ht
  obtain ⟨x, hx, hxy⟩ := Option.map_eq_some_iff.mp ht.symm
  rw [State.hive_of_findHive hy, State.hive_of_findHive hx, hx, hxy]
  exact ⟨rfl, rfl⟩

/-- A hive whose pool lay in what was taken, killed with its descendants where it is still there (R71). -/
def killDoomed (s : State) (d : Nat) : State :=
  if (s.findHive d).isSome then
    let tgt := (s.hive d).parent
    settleHives (killHive s d) [tgt]
  else s

section
variable (hq : ∀ x, F x.queueless = F x)
  (hF : ∀ (x : Hive) (sh : List ShareRef) (r : RingHold), F { x with shares := sh, ring := r } = F x)
include hq hF

theorem killHive_survives (s : State) (h : Nat) : Survives F s (killHive s h) := by
  intro e
  have hk := kills_findHive (tgt := (s.hive h).parent) (l := (descendants s h).reverse ++ [h]) (s := s) hq hF e
  split at hk
  · exact .inl (Option.map_eq_none_iff.mp hk)
  · exact .inr hk

theorem killDoomed_survives (s : State) (d : Nat) : Survives F s (killDoomed s d) := by
  unfold killDoomed
  split
  · exact (killHive_survives hq hF s d).trans (.of_same (settleHives_sameHives hF _ _))
  · exact .refl s

end

theorem killDoomed_gone (s : State) (d : Nat) : (killDoomed s d).findHive d = none := by
  unfold killDoomed
  split
  · refine Option.not_isSome_iff_eq_none.mp ?_
    rw [(settleHives_sameHives (F := Hive.depth) (fun _ _ _ => rfl) _ _).isSome]
    have hk := (killHive_takesAll s d).1 d
    simp [hk]
  · next h => exact Option.not_isSome_iff_eq_none.mp h

theorem killsDoomed_gone {l : List Nat} {d : Nat} (hd : d ∈ l) (s : State) : (l.foldl killDoomed s).findHive d = none := by
  induction l generalizing s with
  | nil => exact absurd hd List.not_mem_nil
  | cons e l ih =>
    rw [List.foldl_cons]
    by_cases he : d ∈ l
    · exact ih he _
    · obtain rfl := (List.mem_cons.mp hd).resolve_right he
      exact (Survives.foldl (F := Hive.depth) (killDoomed_survives (fun _ => rfl) fun _ _ _ => rfl) l _).none (killDoomed_gone s d)

end

end Sys2Proof.Machine


/-! SUPPORT. Memory taken from a child (R71): the leaves marked, the hives that lose a page, and those that die of it. -/

namespace Sys2Proof.Machine

/-- What of a hive tells of the pages that were taken from it. -/
def Hive.taken (k : Hive) : List Nat × Nat := (k.revoked, k.gen)

/-- Leaves of a hive made revoked markers. -/
def Hive.marked (k : Hive) (l : List (Nat × Nat × Nat × Nat)) : Hive :=
  { k with revoked := k.revoked ++ (l.map (fun x => x.1)).filter (fun p => !k.revoked.contains p) }

section
variable (s : State) (h : Nat) (more : List Nat) (pages : List (Nat × Nat))

/-- The leaves of a descendant that the pages back. -/
def backedLeaves (d : Nat) : List (Nat × Nat × Nat × Nat) :=
  (shadowLeaves s (s.hive d)).filter (fun l => hitBy pages l.2.2.1 l.2.2.2)

/-- Those leaves of every descendant marked. -/
def markedBelow : State := (descendants s h).foldl (fun v d => markLeaves v d (backedLeaves s pages d)) s

/-- The descendants whose pools lie in the pages. -/
def doomedBelow : List Nat := (descendants (markedBelow s h pages) h).filter (fun d =>
  ((markedBelow s h pages).hive d).pool.any (fun c => hitBy pages c (2 ^ 21)))

/-- The tree without them. -/
def killedBelow : State := (doomedBelow s h pages).foldl killDoomed (markedBelow s h pages)

/-- The hives that lost a page and are still there, after those given. -/
def losers : List Nat := (more ++ (((descendants s h).map (fun d => (d, backedLeaves s pages d))).filter (fun d => !d.2.isEmpty)).map
  (fun d => d.1)).filter (fun d => ((killedBelow s h pages).findHive d).isSome)

/-- Their commands stopped, and their translations of a later generation. -/
def losersTold : State := (losers s h more pages).foldl invalidate ((losers s h more pages).foldl stopCommands (killedBelow s h pages))

theorem takePages_posts : Posts (losersTold s h more pages) (takePages s h more pages) := by
  have hmark : ((descendants s h).map (fun d => (d, backedLeaves s pages d))).foldl (fun v d => markLeaves v d.1 d.2) s =
      markedBelow s h pages := List.foldl_map
  have heq : takePages s h more pages =
      (losers s h more pages).foldl (fun s d => (post s d (s.partOf d) (revokedNotice d 3)).2) (losersTold s h more pages) := by
    unfold losersTold losers killedBelow doomedBelow
    rw [← hmark]
    rfl
  rw [heq]
  exact foldl_posts (fun s d => post_posts s _ _ _) _ _

end

section
variable {s : State} {h : Nat} {more : List Nat} {pages : List (Nat × Nat)}

theorem takePages_isSome (hl : (losers s h more pages).Nodup) (e : Nat) :
    ((takePages s h more pages).findHive e).isSome = ((killedBelow s h pages).findHive e).isSome := by
  have hstop := stopAll_sameHives (F := Hive.taken) (fun _ _ => rfl) (losers s h more pages) (killedBelow s h pages)
  rw [((takePages_posts s h more pages).same (F := Hive.taken) fun _ => rfl).isSome, losersTold, invalidates_findHive hl, ← hstop.isSome]
  split
  · rw [Option.isSome_map]
  · rfl

theorem killedBelow_survives : Survives Hive.taken (markedBelow s h pages) (killedBelow s h pages) :=
  .foldl (fun s d => killDoomed_survives (fun _ => rfl) (fun _ _ _ => rfl) s d) _ _

/-- A hive that lost pages and lives on has its marks, and is of the next generation. -/
theorem takePages_taken (hl : (losers s h more pages).Nodup) {e : Nat}
    (he : e ∈ more ∨ e ∈ descendants s h ∧ backedLeaves s pages e ≠ []) (hs : ((takePages s h more pages).findHive e).isSome = true) :
    ((takePages s h more pages).hive e).revoked = ((markedBelow s h pages).hive e).revoked ∧
      ((takePages s h more pages).hive e).gen = ((markedBelow s h pages).hive e).gen + 1 := by
  have hk : ((killedBelow s h pages).findHive e).isSome = true := (takePages_isSome hl e).symm.trans hs
  have hm : e ∈ losers s h more pages := by
    refine List.mem_filter.mpr ⟨List.mem_append.mpr (he.imp_right fun ⟨hd, hb⟩ => ?_), hk⟩
    refine List.mem_map.mpr ⟨(e, backedLeaves s pages e), List.mem_filter.mpr ⟨List.mem_map.mpr ⟨e, hd, rfl⟩, ?_⟩, rfl⟩
    simpa using hb
  obtain ⟨-, hsurv⟩ := killedBelow_survives.hive hk
  have hstop := stopAll_sameHives (F := Hive.taken) (fun _ _ => rfl) (losers s h more pages) (killedBelow s h pages)
  have hpost := ((takePages_posts s h more pages).same (F := Hive.taken) fun _ => rfl).hive e
  have htold : ((losersTold s h more pages).hive e).taken =
      ((((losers s h more pages).foldl stopCommands (killedBelow s h pages)).hive e).revoked,
        (((losers s h more pages).foldl stopCommands (killedBelow s h pages)).hive e).gen + 1) := by
    obtain ⟨x, hx⟩ := Option.isSome_iff_exists.mp ((hstop.isSome e).trans hk)
    rw [losersTold, State.hive, invalidates_findHive hl, if_pos hm, State.hive_of_findHive hx, hx]
    rfl
  have hstep := hstop.hive e
  rw [htold] at hpost
  simp only [Hive.taken, Prod.mk.injEq] at hpost hstep hsurv
  obtain ⟨hr, hg⟩ := hpost
  exact ⟨hr.trans (hstep.1.trans hsurv.1), hg.trans (by rw [hstep.2, hsurv.2])⟩

/-- A descendant whose pool the pages hold is gone. -/
theorem takePages_gone (hl : (losers s h more pages).Nodup) {e : Nat} (he : e ∈ doomedBelow s h pages) :
    (takePages s h more pages).findHive e = none := by
  refine Option.not_isSome_iff_eq_none.mp ?_
  rw [takePages_isSome hl, killedBelow, killsDoomed_gone he]
  exact Bool.false_ne_true

theorem losers_nodup (hn : (s.hives.map (fun k => k.id)).Nodup) : (losers s h [h] pages).Nodup := by
  have hsub : (((descendants s h).map (fun d => (d, backedLeaves s pages d))).filter (fun d => !d.2.isEmpty)).map (fun d => d.1)
      |>.Sublist (descendants s h) := by
    have hm := (List.filter_sublist (p := fun d : Nat × List (Nat × Nat × Nat × Nat) => !d.2.isEmpty)
      (l := (descendants s h).map (fun d => (d, backedLeaves s pages d)))).map (fun d => d.1)
    rwa [List.map_map, show (fun d : Nat × List (Nat × Nat × Nat × Nat) => d.1) ∘ (fun d => (d, backedLeaves s pages d)) = id from rfl,
      List.map_id] at hm
  refine List.Nodup.filter _ (List.nodup_cons.mpr ⟨fun hm => ?_, hsub.nodup (descendants_nodup hn h)⟩)
  exact not_mem_descendants_self h (hsub.subset hm)

/-- The marks of a descendant, and what of it and of others is as it was. -/
theorem markedBelow_hive (hn : (s.hives.map (fun k => k.id)).Nodup) {e : Nat} (he : (s.findHive e).isSome = true) :
    (markedBelow s h pages).hive e = if e ∈ descendants s h then (markLeaves s e (backedLeaves s pages e)).hive e else s.hive e := by
  have hself : (markLeaves s e (backedLeaves s pages e)).hive e = (s.hive e).marked (backedLeaves s pages e) :=
    State.hive_modHive_self he (by exact fun _ => rfl)
  rw [hself]
  exact foldl_modHive_hive (g := fun d k => k.marked (backedLeaves s pages d)) (fun _ _ => rfl) (descendants_nodup hn h) he

theorem markLeaves_sameHives {α : Type} {F : Hive → α} (hF : ∀ (x : Hive) (l : List Nat), F { x with revoked := l } = F x) (s : State)
    (h : Nat) (l : List (Nat × Nat × Nat × Nat)) : SameHives F s (markLeaves s h l) := .modHive s h fun x => ⟨rfl, hF x _⟩

theorem markedBelow_sameHives {α : Type} {F : Hive → α} (hF : ∀ (x : Hive) (l : List Nat), F { x with revoked := l } = F x) :
    SameHives F s (markedBelow s h pages) :=
  .foldl (f := fun v d => markLeaves v d (backedLeaves s pages d)) (fun v d => markLeaves_sameHives hF v d _) _ s

theorem mem_doomedBelow {e : Nat} (he : e ∈ descendants s h) (hp : ∃ c ∈ (s.hive e).pool, hitBy pages c (2 ^ 21) = true) :
    e ∈ doomedBelow s h pages := by
  have hsame : SameHives (fun k : Hive => (k.rank, k.pool)) s (markedBelow s h pages) := markedBelow_sameHives fun _ _ => rfl
  have hpool : ((markedBelow s h pages).hive e).pool = (s.hive e).pool := congrArg Prod.snd (hsame.hive e)
  rw [doomedBelow, (hsame.map Prod.fst).descendants, List.mem_filter, hpool, List.any_eq_true]
  exact ⟨he, hp⟩

end

/-! ## HTAKE of memory -/

section
variable {s : State} {h : Nat} (hn : (s.hives.map (fun k => k.id)).Nodup) (hh : (s.findHive h).isSome = true) (base size : Nat)

/-- The leaves of a child whose origins lie in a range. -/
def takenLeaves (s : State) (h base size : Nat) : List (Nat × Nat × Nat × Nat) :=
  (shadowLeaves s (s.hive h)).filter (fun l => decide (base ≤ l.2.1) && decide (l.2.1 < base + size))

/-- The child with its leaves marked. -/
def ownMarked (s : State) (h base size : Nat) : State := markLeaves s h (takenLeaves s h base size)

/-- The pages that were taken. -/
def takenPages (s : State) (h base size : Nat) : List (Nat × Nat) := (takenLeaves s h base size).map (fun l => l.2.2)

theorem takeMemory_eq : takeMemory s h base size = takePages (ownMarked s h base size) h [h] (takenPages s h base size) := rfl

theorem hitBy_takenPages {a n : Nat} : hitBy (takenPages s h base size) a n = true ↔
    ∃ y ∈ takenLeaves s h base size, overlaps y.2.2.1 y.2.2.2 a n = true := by
  rw [hitBy, takenPages, List.any_map, List.any_eq_true]
  rfl

theorem ownMarked_sameHives {α : Type} {F : Hive → α} (hF : ∀ (x : Hive) (l : List Nat), F { x with revoked := l } = F x) :
    SameHives F s (ownMarked s h base size) := markLeaves_sameHives hF s h _

theorem ownMarked_descendants : descendants (ownMarked s h base size) h = descendants s h :=
  (ownMarked_sameHives base size fun _ _ => rfl).descendants h

theorem ownMarked_other {e : Nat} (he : e ≠ h) : (ownMarked s h base size).hive e = s.hive e :=
  State.hive_modHive_other he (by exact fun _ => rfl)

include hn in
theorem ownMarked_nodup : ((ownMarked s h base size).hives.map (fun k => k.id)).Nodup := by
  rw [(ownMarked_sameHives (F := Hive.depth) base size fun _ _ => rfl).ids]
  exact hn

theorem ownMarked_isSome (e : Nat) : ((ownMarked s h base size).findHive e).isSome = (s.findHive e).isSome :=
  (ownMarked_sameHives (F := Hive.depth) base size fun _ _ => rfl).isSome e

include hn hh in
/-- The child's leaves are marked, and it is of the next generation. -/
theorem takeMemory_own (ht : ((takeMemory s h base size).findHive h).isSome = true) :
    (∀ l ∈ takenLeaves s h base size, l.1 ∈ ((takeMemory s h base size).hive h).revoked) ∧
      ((takeMemory s h base size).hive h).gen = (s.hive h).gen + 1 := by
  have hn' := ownMarked_nodup hn base size (h := h)
  rw [takeMemory_eq] at ht
  obtain ⟨hr, hg⟩ := takePages_taken (losers_nodup hn') (.inl List.mem_cons_self) ht
  have hm := markedBelow_hive (pages := takenPages s h base size) (h := h) hn' ((ownMarked_isSome base size h).trans hh)
  rw [if_neg (not_mem_descendants_self h)] at hm
  rw [takeMemory_eq, hr, hg, hm]
  refine ⟨fun l hl => mem_markLeaves hh hl, ?_⟩
  rw [ownMarked, markLeaves, State.hive_modHive_self hh (by exact fun _ => rfl)]

include hn in
/-- So are the leaves of a descendant that those pages back. -/
theorem takeMemory_below {e : Nat} (he : e ∈ descendants s h) {l : Nat × Nat × Nat × Nat} (hl : l ∈ shadowLeaves s (s.hive e))
    (hy : ∃ y ∈ takenLeaves s h base size, overlaps y.2.2.1 y.2.2.2 l.2.2.1 l.2.2.2 = true)
    (ht : ((takeMemory s h base size).findHive e).isSome = true) :
    l.1 ∈ ((takeMemory s h base size).hive e).revoked ∧ ((takeMemory s h base size).hive e).gen = (s.hive e).gen + 1 := by
  have hn' := ownMarked_nodup hn base size (h := h)
  obtain ⟨heh, hes⟩ := mem_descendants he
  have he' : e ∈ descendants (ownMarked s h base size) h := by rwa [ownMarked_descendants]
  have hs' := (ownMarked_isSome base size e (h := h)).trans hes
  have hback : l ∈ backedLeaves (ownMarked s h base size) (takenPages s h base size) e := by
    refine List.mem_filter.mpr ⟨?_, (hitBy_takenPages base size).mpr hy⟩
    rw [ownMarked_other base size heh]
    exact hl
  rw [takeMemory_eq] at ht
  obtain ⟨hr, hg⟩ := takePages_taken (losers_nodup hn') (.inr ⟨he', List.ne_nil_of_mem hback⟩) ht
  have hm := markedBelow_hive (pages := takenPages s h base size) (h := h) hn' hs'
  rw [if_pos he'] at hm
  rw [takeMemory_eq, hr, hg, hm]
  refine ⟨mem_markLeaves hs' hback, ?_⟩
  rw [markLeaves, State.hive_modHive_self hs' (by exact fun _ => rfl), ownMarked_other base size heh]

include hn in
/-- A descendant whose pool one of those pages holds is gone. -/
theorem takeMemory_gone {e : Nat} (he : e ∈ descendants s h)
    (hy : ∃ y ∈ takenLeaves s h base size, ∃ c ∈ (s.hive e).pool, overlaps y.2.2.1 y.2.2.2 c (2 ^ 21) = true) :
    (takeMemory s h base size).findHive e = none := by
  obtain ⟨y, hy, c, hc, ho⟩ := hy
  refine takePages_gone (losers_nodup (ownMarked_nodup hn base size)) (mem_doomedBelow (by rwa [ownMarked_descendants]) ⟨c, ?_,
    (hitBy_takenPages base size).mpr ⟨y, hy, ho⟩⟩)
  rw [ownMarked_other base size (mem_descendants he).1]
  exact hc

end

end Sys2Proof.Machine


/-! SUPPORT. HTAKE settled (R71, R363). -/

namespace Sys2Proof.Machine

/-- A strand whose HTAKE is complete and that stands at it goes on (R71). -/
theorem completeAt_here {s : State} {k : Nat} {pc : Word} (hk : k < s.strands.length) (hp : (s.strand k).placed = true)
    (hs : (s.strand k).resuming = false) (hpc : (s.strand k).pc = pc) (he : (s.strand k).status ≠ .ended) :
    (completeAt s k ⟨pc, 0, 0, false⟩).strand k = { s.strand k with status := .running, pc := pc + 8, away := none } := by
  rw [completeAt_strand, if_pos ⟨rfl, hk⟩, completedAt_here hp hs hpc he, Strand.setGreg_zero, hpc]

/-- One whose HTAKE completed while it was away goes on alone. -/
theorem htakeShares_away {s : State} {o : GFmt} {w : Away} (hr : s.runs = true) (hres : s.me.resuming = false)
    (hw : s.me.awayHere = some w) :
    ∃ t, exec (.htakeShares o) s = .next t ∧ t.me.status = .running ∧ t.me.pc = s.me.pc + 8 ∧ t.me.away = none := by
  have hpc : s.me.pc = w.pc := (beq_iff_eq.mp (Option.filter_eq_some_iff.mp hw).2).symm
  have hlive : s.me.status ≠ .ended := by rw [State.status_of_runs hr]; exact fun h => nomatch h
  have hme : (completeAt s s.cur w).me = { s.me.setGreg w.gd w.val with status := .running, pc := s.me.pc + 8, away := none } := by
    rw [State.me, completeAt_cur, completeAt_strand, if_pos ⟨rfl, State.cur_lt_of_runs hr⟩]
    exact completedAt_here (State.placed_of_runs hr) hres hpc hlive
  exact ⟨_, exec_htakeShares_away hr hw, by rw [hme], by rw [hme], by rw [hme]⟩

/-- Settles O32, one KIND after the other: what falls in proportion and which bindings are undone by counting them, which leaves are
marked and which hives die by following the pages that were taken. -/
theorem htakeRevokesResources : Obligations.HtakeRevokesResources := by
  unfold Obligations.HtakeRevokesResources
  refine ⟨fun s u o d r h => ?_, fun s h new hn hh => ?_, fun s h base size hn hh => ?_, fun s h i rate burst hn hh => ?_,
    fun a n x _ => ?_, fun s h l x hx hh => ⟨mem_markLeaves hh hx, markLeaves_keeps hh l⟩,
    fun s o hr hw hd => exec_htakeShares_privilege hr hw hd, fun s o w hr hres hw => htakeShares_away hr hres hw⟩
  · exact ⟨exec_htakeShares_ok h, exec_htakeRing_ok h, exec_htakeFabric_ok h, exec_htakeMemory_ok h, exec_htakeBuckets_ok h,
      exec_htakeShares_refused h, exec_htakeFabric_refused h, exec_htakeMemory_refused h, exec_htakeBuckets_refused h⟩
  · refine ⟨?_, fun e he heh => ?_, fun e he => takeSlots_fit s h new he⟩
    · rw [takeSlots_fslots hn hh hh, if_pos rfl]
    · rw [takeSlots_fslots hn hh he, if_neg heh]
  · exact ⟨takeMemory_own hn hh base size, fun e he l hl hy => takeMemory_below hn base size he hl hy,
      fun e he hy => takeMemory_gone hn base size he hy⟩
  · simp only [← Bucket.reduce_eq]
    exact fun e he => takeRate_bucket hn hh he
  · refine ⟨fun h => goOnTaking_waits h, fun h => ⟨goOnTaking_completes h, fun hp hs hpc hk he => ?_⟩⟩
    rw [goOnTaking_completes h]
    exact completeAt_here hk hp hs hpc he

end Sys2Proof.Machine


/-! SUPPORT. What the accesses of an agent may change (R105, R122): bytes of memory that were dirty in its own L1, those that it
writes, and bytes of lines that it makes dirty. -/

namespace Sys2Proof.Machine

/-- A byte is dirty in the L1 of the core of an agent, where it has one. -/
def State.dirtyIn (s : State) (c : Option Nat) (a : Nat) : Prop :=
  ∃ d l, c = some d ∧ l ∈ (s.core d).l1 ∧ l.line = a / 128 ∧ l.dirty.getLsbD (a % 128) = true

/-- Between s and u memory changed where it was dirty in the L1 of a core or p holds, and no byte but of that core's, where q holds,
became dirty. -/
structure Touches (c : Option Nat) (p q : Nat → Prop) (s u : State) : Prop where
  mem : ∀ a, Mem.get u.mem a ≠ Mem.get s.mem a → s.dirtyIn c a ∨ p a
  l1 : ∀ d, ∀ l ∈ (u.core d).l1, ∀ k < 128, l.dirty.getLsbD k = true →
    (∃ y ∈ (s.core d).l1, y.line = l.line ∧ y.dirty.getLsbD k = true) ∨ (c = some d ∧ q (128 * l.line + k))

namespace Touches

variable {c : Option Nat} {p q : Nat → Prop} {s t u : State}

/-- Memory and the lines of the L1s as they were. -/
theorem of_same (hm : u.mem = s.mem) (hl : ∀ d, (u.core d).l1 = (s.core d).l1) : Touches c p q s u :=
  ⟨fun a ha => absurd (by rw [hm]) ha, fun d l hm k _ hk => .inl ⟨l, hl d ▸ hm, rfl, hk⟩⟩

theorem refl (s : State) : Touches c p q s s := of_same rfl fun _ => rfl

theorem trans (hqp : ∀ a, q a → p a) (h : Touches c p q s t) (g : Touches c p q t u) : Touches c p q s u := by
  constructor
  · intro a ha
    by_cases hat : Mem.get u.mem a = Mem.get t.mem a
    · exact h.mem a (hat ▸ ha)
    · rcases g.mem a hat with ⟨d, l, hd, hl, hline, hk⟩ | hp
      · rcases h.l1 d l hl (a % 128) (Nat.mod_lt _ (by decide)) hk with ⟨y, hy, hyl, hyk⟩ | ⟨-, hq⟩
        · exact .inl ⟨d, y, hd, hy, hyl.trans hline, hyk⟩
        · refine .inr (hqp a ?_)
          rwa [hline, Nat.div_add_mod] at hq
      · exact .inr hp
  · intro d l hl k hk hdirty
    rcases g.l1 d l hl k hk hdirty with ⟨y, hy, hyl, hyk⟩ | hq
    · exact hyl ▸ h.l1 d y hy k hk hyk
    · exact .inr hq

theorem mono {p' q' : Nat → Prop} (h : Touches c p q s u) (hp : ∀ a, p a → p' a) (hq : ∀ a, q a → q' a) : Touches c p' q' s u :=
  ⟨fun a ha => (h.mem a ha).imp_right (hp a), fun d l hl k hk hd => (h.l1 d l hl k hk hd).imp_right fun ⟨hc, h⟩ => ⟨hc, hq _ h⟩⟩

/-- Bytes of memory written. -/
theorem write (s : State) {pa n x : Nat} (hp : ∀ a, pa ≤ a → a < pa + n → p a) :
    Touches c p q s { s with mem := Mem.write s.mem pa n x } := by
  refine ⟨fun a ha => .inr ?_, fun d l hl k _ hk => .inl ⟨l, hl, rfl, hk⟩⟩
  rw [Mem.get_write] at ha
  by_cases hin : pa ≤ a ∧ a < pa + n
  · exact hp a hin.1 hin.2
  · rw [if_neg hin] at ha
    exact absurd rfl ha

end Touches

section
variable {p q : Nat → Prop} {s : State} {c : Nat}

/-- A line of the core written back, and its lines replaced by cleaner ones. -/
theorem writeBack_touches (hive : Nat) {l : L1Line} (hl : l ∈ (s.core c).l1) {f : Core → Core}
    (hf : ∀ k : Core, ∀ y ∈ (f k).l1, y ∈ k.l1) : Touches (some c) p q s ((writeBack s hive l).modCore c f) := by
  constructor
  · intro a ha
    have hm : ((writeBack s hive l).modCore c f).mem = putDirty s.mem l := writeBack_mem s hive l
    rw [hm, get_putDirty] at ha
    by_cases hd : l.line = a / 128 ∧ l.dirty.getLsbD (a % 128) = true
    · exact .inl ⟨c, l, rfl, hl, hd⟩
    · rw [if_neg hd] at ha
      exact absurd rfl ha
  · intro d y hy k _ hk
    have hcore : (writeBack s hive l).core d = s.core d := by
      obtain ⟨m, r, he⟩ := writeBack_eq s hive l
      rw [he]
      rfl
    refine .inl ⟨y, ?_, rfl, hk⟩
    rw [State.core_mod] at hy
    split at hy
    · next h =>
      obtain ⟨rfl, -⟩ := h
      exact hcore ▸ hf _ y hy
    · exact hcore ▸ hy

theorem dropLine_touches (s : State) (hive c line : Nat) : Touches (some c) p q s (dropLine s hive c line) := by
  unfold dropLine
  split
  · exact .refl s
  · next h => exact writeBack_touches hive (Core.line_mem h).1 fun _ _ hy => List.mem_of_mem_filter hy

theorem makeRoom_touches (s : State) (c : Nat) : Touches (some c) p q s (makeRoom s c) := by
  unfold makeRoom
  dsimp only
  split
  · exact .refl s
  · split
    · next h => exact writeBack_touches _ (List.mem_of_getElem? h) fun _ _ hy => List.mem_of_mem_filter hy
    · exact .refl s

/-- A line fetched is dirty where it stood in the L1 so. -/
theorem fetchLine_touches (hqp : ∀ a, q a → p a) (s : State) (hive c line : Nat) :
    Touches (some c) p q s (fetchLine s hive c line).2 ∧ (fetchLine s hive c line).1.line = line ∧
      ∀ k, (fetchLine s hive c line).1.dirty.getLsbD k = true →
        ∃ y ∈ (s.core c).l1, y.line = line ∧ y.dirty.getLsbD k = true := by
  unfold fetchLine
  split
  · next l h =>
    obtain ⟨hl, hline⟩ := Core.line_mem h
    exact ⟨.refl s, hline, fun k hk => ⟨l, hl, hline, hk⟩⟩
  · refine ⟨.trans hqp (makeRoom_touches s c) ⟨fun a ha => absurd rfl ha, fun d y hy k hk hd => .inl ?_⟩, rfl, fun k hk => ?_⟩
    · have hcore : y ∈ (((makeRoom s c).modCore c (fun k => { k with l1 := freshLine (makeRoom s c) hive line :: k.l1 })).core d).l1 := hy
      rw [State.core_mod] at hcore
      split at hcore
      · next h =>
        obtain ⟨rfl, -⟩ := h
        rcases List.mem_cons.mp hcore with rfl | hm
        · simp [freshLine] at hd
        · exact ⟨y, hm, rfl, hd⟩
      · exact ⟨y, hcore, rfl, hd⟩
    · simp [freshLine] at hk

theorem l1Read_touches (hqp : ∀ a, q a → p a) (s : State) (hive c pa n : Nat) : Touches (some c) p q s (l1Read s hive c pa n).2 :=
  (fetchLine_touches hqp s hive c (pa / 128)).1

/-- A line of the core replaced by one that is dirty where it was, or where q holds. -/
theorem replaceLine_touches {t : State} {line n : Nat} {l' : L1Line} (h : Touches (some c) p q s t) (hline : l'.line = line)
    (hd : ∀ k < 128, l'.dirty.getLsbD k = true → (∃ y ∈ (s.core c).l1, y.line = line ∧ y.dirty.getLsbD k = true) ∨ q (128 * line + k)) :
    Touches (some c) p q s (t.modCore c (fun k => { k with l1 := k.l1.map (fun y => if y.line == n then l' else y) })) := by
  refine ⟨h.mem, fun d l hl k hk hdirty => ?_⟩
  rw [State.core_mod] at hl
  split at hl
  · next hcd =>
    obtain ⟨rfl, -⟩ := hcd
    obtain ⟨y, hy, rfl⟩ := List.mem_map.mp hl
    by_cases hyl : (y.line == n) = true
    · rw [if_pos hyl] at hdirty ⊢
      rw [hline]
      exact (hd k hk hdirty).imp_right fun hq => ⟨rfl, hq⟩
    · rw [if_neg hyl] at hdirty ⊢
      exact h.l1 c y hy k hk hdirty
  · exact h.l1 d l hl k hk hdirty

/-- A store in the L1 makes its own bytes dirty. -/
theorem l1Write_touches (hqp : ∀ a, q a → p a) (s : State) (hive c x : Nat) {pa n : Nat} (hn : n ∣ 128) (hpa : pa % n = 0)
    (hq : ∀ a, pa ≤ a → a < pa + n → q a) : Touches (some c) p q s (l1Write s hive c pa n x) := by
  obtain ⟨hfetch, hline, hdirty⟩ := fetchLine_touches hqp s hive c (pa / 128)
  obtain ⟨hoff, hroom⟩ := aligned_in_line hn hpa
  refine replaceLine_touches hfetch hline fun k _ hk => ?_
  rw [getLsbD_setElemAt _ _ _ _ _ (by omega)] at hk
  split at hk
  · exact .inr (hq _ (by omega) (by omega))
  · exact .inl (hdirty k hk)

/-! ## Accesses at a place -/

section
variable {w : Who} {n : Nat}

/-- A read changes what was dirty, and makes nothing dirty. -/
theorem readPlace_touches (hqp : ∀ a, q a → p a) (s : State) (w : Who) (a : Place) (n : Nat) (coh : Bool) :
    Touches w.core p q s (readPlace s w a n coh).2 := by
  unfold readPlace
  split
  · exact .refl s
  · exact .of_same rfl fun _ => rfl
  · exact .of_same rfl fun _ => rfl
  · split
    · exact .of_same rfl fun _ => rfl
    · next c hc =>
      rw [hc]
      split
      · exact .trans hqp (dropLine_touches s _ c _) (.of_same rfl fun _ => rfl)
      · exact l1Read_touches hqp s _ c _ n

/-- The bytes of memory that a place names. -/
def Place.holds (a : Place) (n b : Nat) : Prop := ∃ pa e, a = .mem pa e ∧ pa ≤ b ∧ b < pa + n

theorem scratchWrite_same (s : State) (c off n x : Nat) : (scratchWrite s c off n x).mem = s.mem ∧
    ∀ d, ((scratchWrite s c off n x).core d).l1 = (s.core d).l1 := by
  refine ⟨rfl, fun d => ?_⟩
  rw [scratchWrite, State.core_mod]
  split
  · next h => rw [← h.1]
  · rfl

theorem writePlace_touches (hqp : ∀ a, q a → p a) (s : State) (w : Who) {a : Place} {n : Nat} (x : Nat) (through : Bool) (hn : n ∣ 128)
    (ha : ∀ pa e, a = .mem pa e → pa % n = 0) (hq : ∀ b, a.holds n b → q b) :
    Touches w.core p q s (writePlace s w a n x through) := by
  unfold writePlace
  split
  · next c off => exact .of_same (scratchWrite_same s c off n x).1 (scratchWrite_same s c off n x).2
  · exact .refl s
  · exact .refl s
  · next pa e =>
    have hown : ∀ b, pa ≤ b → b < pa + n → q b := fun b h1 h2 => hq b ⟨pa, e, rfl, h1, h2⟩
    have hput (u : State) (c : Option Nat) : Touches c p q u { u with mem := Mem.write u.mem pa n x } :=
      .write u fun b h1 h2 => hqp b (hown b h1 h2)
    split
    · exact .trans hqp (hput s w.core) (.of_same rfl fun _ => rfl)
    · next c hc =>
      rw [hc]
      split
      · exact .trans hqp (.trans hqp (dropLine_touches s _ c _) (hput _ _)) (.of_same rfl fun _ => rfl)
      · exact l1Write_touches hqp s _ c x hn (ha pa e rfl) hown

theorem amoPlace_touches (hqp : ∀ a, q a → p a) (s : State) (w : Who) {a : Place} (op : AmoOp) (n x z : Nat)
    (hp : ∀ b, a.holds n b → p b) : Touches w.core p q s (amoPlace s w a op n x z).2 := by
  unfold amoPlace modifyPlace
  split
  · next c off =>
    have hw (o : Option Nat) : Touches w.core p q s (o.elim s (scratchWrite s c off n)) := by
      cases o with
      | none => exact .refl s
      | some y => exact .of_same (scratchWrite_same s c off n y).1 (scratchWrite_same s c off n y).2
    exact hw _
  · exact .refl s
  · exact .of_same rfl fun _ => rfl
  · next pa e =>
    have hdrop : Touches w.core p q s (w.core.elim s (fun c => dropLine s w.hive c (pa / 128))) := by
      cases w.core with
      | none => exact .refl s
      | some c => exact dropLine_touches s _ c _
    have hput (u : State) (o : Option Nat) : Touches w.core p q u (o.elim u (fun new => { u with mem := Mem.write u.mem pa n new })) := by
      cases o with
      | none => exact .refl u
      | some y => exact .write u fun b h1 h2 => hp b ⟨pa, e, rfl, h1, h2⟩
    exact .trans hqp (.trans hqp hdrop (hput _ _)) (.of_same rfl fun _ => rfl)

end

end

end Sys2Proof.Machine


/-! SUPPORT. Where an address leads (R61, R76, R93, R95, R97). -/

namespace Sys2Proof.Machine

/-! ## The window of the scratchpad -/

section
variable (s : State) (h : Nat) (x : ShareRef) (l1 : Bool) (k : AccessKind)

theorem locate_window_inside {off : Nat} (ho : off < scratchLen (s.core x.core) x) (h52 : off < 2 ^ 52) :
    locate s ⟨h, some x, l1⟩ (windowBase + off) k = .ok (.scratch x.core (scratchBase (s.core x.core) x + off), s) := by
  have hm : (windowBase + off) % 2 ^ 52 = off := by rw [windowBase]; omega
  have h1 : bits (windowBase + off) 63 57 = 0 := by rw [bits, windowBase]; omega
  have h2 : bits (windowBase + off) 56 52 = 31 := by rw [bits, windowBase]; omega
  have hl := locate_window (w := ⟨h, some x, l1⟩) k rfl h1 h2 (hm.symm ▸ ho)
  rwa [hm] at hl

theorem locate_window_outside {off : Nat} (ho : scratchLen (s.core x.core) x ≤ off) (h52 : off < 2 ^ 52) :
    locate s ⟨h, some x, l1⟩ (windowBase + off) k = .error .notPermitted := by
  have hm : (windowBase + off) % 2 ^ 52 = off := by rw [windowBase]; omega
  have h2 : bits (windowBase + off) 56 52 = 31 := by rw [bits, windowBase]; omega
  exact locate_beyond_window (w := ⟨h, some x, l1⟩) k rfl h2 (hm.symm ▸ ho)

theorem locate_reserved {w : Who} {va : Nat} (h57 : 2 ^ 57 ≤ va) (h64 : va < 2 ^ 64) : locate s w va k = .error .notPermitted := by
  refine locate_above k ?_
  rw [bits]
  omega

end

/-! ## The local space -/

section
variable {s u : State} {w : Who} {k : AccessKind} {va : Nat} {p : Place} {e : TlbEntry}

/-- An address of PEER 0 goes where its translation leads. -/
theorem locate_low (hva : va < 2 ^ 52) : locate s w va k = match xlate s w.core (s.hive w.hive) va with
    | (.leaf e, s') => (placeOf s w k va e).map (fun p => (p, s'))
    | (.fail r, _) => .error r := by
  have h1 : bits va 63 57 = 0 := by rw [bits]; omega
  have h2 : bits va 56 52 = 0 := by rw [bits]; omega
  have hm : va % 2 ^ 52 = va := Nat.mod_eq_of_lt hva
  unfold locate
  dsimp only
  rw [h1, h2, hm]
  rfl

/-- One that the TLB does not hold is walked. -/
theorem xlate_miss {h : Hive} (hno : ∀ c, w.core = some c → ∀ e ∈ (s.core c).tlb, e.covers h.id h.gen va = false) :
    (xlate s w.core h va).1 = walk s h va := by
  unfold xlate
  split
  · rfl
  · next c hc =>
    have hf : (s.core c).tlb.find? (fun e => e.covers h.id h.gen va) = none :=
      List.find?_eq_none.mpr fun e he => by rw [hno c hc e he]; exact Bool.false_ne_true
    rw [hf]
    dsimp only
    split <;> next hw => exact hw.symm

theorem placeOf_refused (hp : e.permits k = false) : placeOf s w k va e = .error .notPermitted := by
  rw [placeOf, hp]
  rfl

theorem placeOf_mem (hp : e.permits k = true) (hs : s.shadowAt (e.pbase + (va - e.vbase)) = none)
    (hseal : s.sealed (e.pbase + (va - e.vbase)) = false) : placeOf s w k va e = .ok (.mem (e.pbase + (va - e.vbase)) e) := by
  unfold placeOf
  simp only [hp, hs, Bool.not_true, Bool.false_eq_true, if_false]
  exact if_neg fun h => Bool.false_ne_true (hseal.symm.trans h.2)

/-- What a place tells of the leaf that it comes from (R76, R246). -/
theorem placeOf_ok (h : placeOf s w k va e = .ok p) : e.permits k = true ∧
    ((∃ d off, s.shadowAt (e.pbase + (va - e.vbase)) = some (d, off) ∧ d.parent = w.hive ∧ k ≠ .amo ∧
        p = .shadow d.id off (e.pbase + (va - e.vbase)) e) ∨
      (s.shadowAt (e.pbase + (va - e.vbase)) = none ∧ (k ≠ .write → s.sealed (e.pbase + (va - e.vbase)) = false) ∧
        p = .mem (e.pbase + (va - e.vbase)) e)) := by
  unfold placeOf at h
  split at h
  · cases h
  · next hp =>
    refine ⟨by simpa using hp, ?_⟩
    dsimp only at h
    split at h
    · next d off hs =>
      split at h
      · next hc => exact .inl ⟨d, off, hs, hc.1, hc.2, (Except.ok.inj h).symm⟩
      · cases h
    · next hs =>
      split at h
      · cases h
      · next hc => exact .inr ⟨hs, fun hk => Bool.eq_false_iff.mpr fun hseal => hc ⟨hk, hseal⟩, (Except.ok.inj h).symm⟩

/-- The ways in which an access goes through. -/
theorem locate_ok (h : locate s w va k = .ok (p, u)) : (∃ c off, p = .scratch c off ∧ u = s) ∨
    (∃ e, xlate s w.core (s.hive w.hive) (va % 2 ^ 52) = (.leaf e, u) ∧ placeOf s w k (va % 2 ^ 52) e = .ok p) ∨
    ∃ m, p = .peer m ∧ u = { s with freeCount := s.freeCount + 1 } := by
  unfold locate at h
  dsimp only at h
  split at h
  · cases h
  · split at h
    · split at h
      · split at h
        · cases h
          exact .inl ⟨_, _, rfl, rfl⟩
        · cases h
      · cases h
    · split at h
      · split at h
        · next e v hx =>
          cases hp : placeOf s w k (va % 2 ^ 52) e with
          | error r => rw [hp] at h; cases h
          | ok q =>
            rw [hp] at h
            cases h
            exact .inr (.inl ⟨e, hx, hp⟩)
        · cases h
      · split at h
        · cases h
        · split at h
          · cases h
          · cases h
            exact .inr (.inr ⟨_, rfl, rfl⟩)

/-- A place in memory is where a leaf that permits the access leads. -/
theorem locate_mem {pa : Nat} (h : locate s w va k = .ok (.mem pa e, u)) :
    xlate s w.core (s.hive w.hive) (va % 2 ^ 52) = (.leaf e, u) ∧ e.permits k = true ∧ pa = e.pbase + (va % 2 ^ 52 - e.vbase) ∧
      s.shadowAt pa = none ∧ (k ≠ .write → s.sealed pa = false) := by
  rcases locate_ok h with ⟨c, off, hp, -⟩ | ⟨e', hx, hp⟩ | ⟨m, hp, -⟩
  · cases hp
  · obtain ⟨hperm, hplace⟩ := placeOf_ok hp
    rcases hplace with ⟨d, off, -, -, -, hq⟩ | ⟨hs, hseal, hq⟩
    · cases hq
    · cases hq
      exact ⟨hx, hperm, rfl, hs, hseal⟩
  · cases hp

/-- A place in a shadow part is one of a direct child. -/
theorem locate_shadow {child off pa : Nat} (h : locate s w va k = .ok (.shadow child off pa e, u)) :
    k ≠ .amo ∧ ∃ d ∈ s.hives, d.id = child ∧ d.parent = w.hive ∧ s.shadowAt pa = some (d, off) := by
  rcases locate_ok h with ⟨c, off', hp, -⟩ | ⟨e', hx, hp⟩ | ⟨m, hp, -⟩
  · cases hp
  · obtain ⟨-, hplace⟩ := placeOf_ok hp
    rcases hplace with ⟨d, off', hs, hpar, hk, hq⟩ | ⟨-, -, hq⟩
    · cases hq
      obtain ⟨y, hy, hf⟩ := List.exists_of_findSome?_eq_some hs
      split at hf
      · split at hf
        · cases hf
          exact ⟨hk, d, hy, rfl, hpar, hs⟩
        · cases hf
      · cases hf
    · cases hq
  · cases hp

/-- A translation leaves memory and the lines of the L1s as they were. -/
theorem xlate_same (s : State) (c : Option Nat) (h : Hive) (a : Nat) :
    (xlate s c h a).2.mem = s.mem ∧ ∀ d, ((xlate s c h a).2.core d).l1 = (s.core d).l1 := by
  unfold xlate
  split
  · exact ⟨rfl, fun _ => rfl⟩
  · split
    · exact ⟨rfl, fun _ => rfl⟩
    · split
      · refine ⟨rfl, fun d => ?_⟩
        rw [State.core_mod]
        split
        · next h => rw [← h.1]
        · rfl
      · exact ⟨rfl, fun _ => rfl⟩

theorem locate_same (h : locate s w va k = .ok (p, u)) : u.mem = s.mem ∧ ∀ d, (u.core d).l1 = (s.core d).l1 := by
  rcases locate_ok h with ⟨c, off, -, rfl⟩ | ⟨e, hx, -⟩ | ⟨m, -, rfl⟩
  · exact ⟨rfl, fun _ => rfl⟩
  · have hs := xlate_same s w.core (s.hive w.hive) (va % 2 ^ 52)
    rwa [hx] at hs
  · exact ⟨rfl, fun _ => rfl⟩

end

/-! ## Leaves and pools -/

theorem pageSize_dvd (level : Nat) : 65536 ∣ pageSize level := by
  unfold pageSize levelShift
  split <;> decide

/-- A page of an entry is aligned to its size (R97). -/
theorem page_aligned {level stored out : Nat} {r w tw nl1 : Bool} (h : viewEntry level stored = .page out r w tw nl1) :
    out % pageSize level = 0 := by
  have hform : viewForm level stored = .page out r w tw nl1 := by
    unfold viewEntry at h
    split at h
    · next hv =>
      split at h
      · cases h
        exact hv
      · cases h
    · exact h
  unfold viewForm at hform
  split_ifs at hform with _ _ _ _ _ hout
  cases hform
  simpa using hout

/-- What a walk gives is a page of one of the sizes, aligned in both spaces, that holds the address (R97). -/
structure LeafAt (e : TlbEntry) (va : Nat) : Prop where
  vbase : e.vbase = va / e.size * e.size
  whole : 65536 ∣ e.size
  pbase : e.pbase % e.size = 0
  pos : 0 < e.size

theorem leafOf_at {s : State} {h : Hive} {va level epa stored out : Nat} {r w tw nl1 : Bool}
    (hv : viewEntry level stored = .page out r w tw nl1) : LeafAt (leafOf s h va level epa out r w tw nl1) va :=
  ⟨rfl, pageSize_dvd level, page_aligned hv, Nat.two_pow_pos _⟩

theorem walkFrom_leaf {s : State} {h : Hive} {va level tbl : Nat} {e : TlbEntry} (hw : walkFrom s h va level tbl = .leaf e) :
    LeafAt e va := by
  induction level generalizing tbl with
  | zero =>
    unfold walkFrom at hw
    dsimp only at hw
    split at hw
    · cases hw
    · split at hw
      · cases hw
      · next hv =>
        cases hw
        exact leafOf_at hv
      · cases hw
  | succ level ih =>
    unfold walkFrom at hw
    dsimp only at hw
    split at hw
    · cases hw
    · split at hw
      · cases hw
      · cases hw
      · next hv =>
        cases hw
        exact leafOf_at hv
      · exact ih hw

theorem walk_leaf {s : State} {h : Hive} {va : Nat} {e : TlbEntry} (hva : va < 2 ^ 52) (hw : walk s h va = .leaf e) : LeafAt e va := by
  unfold walk at hw
  split at hw
  · cases hw
  · rw [Nat.mod_eq_of_lt hva] at hw
    exact walkFrom_leaf hw

/-- The bytes of an aligned access lie in its page, and in one block of 64 KiB. -/
theorem LeafAt.access {e : TlbEntry} {va n a : Nat} (h : LeafAt e va) (hn : n ∣ 8) (hva : va % n = 0)
    (h1 : e.pbase + (va - e.vbase) ≤ a) (h2 : a < e.pbase + (va - e.vbase) + n) :
    (e.pbase + (va - e.vbase)) % n = 0 ∧ e.pbase ≤ a ∧ a < e.pbase + e.size ∧ (e.pbase + (va - e.vbase)) / 65536 = a / 65536 := by
  obtain ⟨hvb, ⟨m, hm⟩, hpb, hpos⟩ := h
  have hoff : va - e.vbase = va % e.size := by
    rw [hvb, Nat.mul_comm]
    have := Nat.div_add_mod va e.size
    omega
  have hlt : va % e.size < e.size := Nat.mod_lt _ hpos
  have hn64 : n ∣ 65536 := hn.trans (by decide)
  have hns : n ∣ e.size := hn64.trans ⟨m, hm⟩
  have hr : va % e.size % n = 0 := by rw [Nat.mod_mod_of_dvd _ hns]; exact hva
  obtain ⟨b, hb⟩ := Nat.dvd_of_mod_eq_zero hpb
  rw [hoff] at h1 h2 ⊢
  generalize va % e.size = r at hlt hr h1 h2 ⊢
  have hpn : e.pbase % n = 0 := Nat.mod_eq_zero_of_dvd (hns.trans ⟨b, hb⟩)
  have h16 : e.pbase % 65536 = 0 := Nat.mod_eq_zero_of_dvd (Dvd.dvd.trans ⟨m, hm⟩ ⟨b, hb⟩)
  have hcases : n = 1 ∨ n = 2 ∨ n = 4 ∨ n = 8 := by
    have hle : n ≤ 8 := Nat.le_of_dvd (by decide) hn
    interval_cases n <;> revert hn <;> decide
  rcases hcases with rfl | rfl | rfl | rfl <;> omega

end Sys2Proof.Machine


/-! SUPPORT. The shadow parts of pools in blocks of 64 KiB, and the bytes that an access of a strand may write (R65, R76, R114). -/

namespace Sys2Proof.Machine

/-! ## Pools in blocks of 64 KiB -/

section
variable {a b : Nat}

theorem chunkOf_block {l : List Nat} (hl : ∀ c ∈ l, c % 2 ^ 21 = 0) (h : a / 65536 = b / 65536) (k : Nat) :
    chunkOf a l k = chunkOf b l k := by
  induction l generalizing k with
  | nil => rfl
  | cons c cs ih =>
    have hc : c % 2 ^ 21 = 0 := hl c List.mem_cons_self
    have hin : (c ≤ a ∧ a < c + 2 ^ 21) ↔ (c ≤ b ∧ b < c + 2 ^ 21) := by omega
    rw [chunkOf, chunkOf, ih (fun d hd => hl d (List.mem_cons_of_mem c hd))]
    simp only [hin]

theorem chunkOf_holds {l : List Nat} {pa n : Nat} {c : Nat × Nat} (h : chunkOf pa l n = some c) :
    c.2 ∈ l ∧ c.2 ≤ pa := by
  induction l generalizing n with
  | nil => cases h
  | cons d ds ih =>
    rw [chunkOf] at h
    split at h
    · next hin =>
      cases h
      exact ⟨List.mem_cons_self, hin.1⟩
    · exact ⟨List.mem_cons_of_mem d (ih h).1, (ih h).2⟩

/-- Addresses of one block lie in a pool together, at offsets of one block. -/
theorem poolOff_block {h : Hive} (hl : ∀ c ∈ h.pool, c % 2 ^ 21 = 0) (hab : a / 65536 = b / 65536) {off : Nat}
    (ho : h.poolOff b = some off) : ∃ off', h.poolOff a = some off' ∧ off' / 65536 = off / 65536 := by
  have hf : firmwarePhys h.part % 65536 = 0 := by rw [firmwarePhys]; omega
  have hin : (firmwarePhys h.part ≤ a ∧ a < firmwarePhys h.part + 2 ^ 42) ↔
      (firmwarePhys h.part ≤ b ∧ b < firmwarePhys h.part + 2 ^ 42) := by omega
  rw [Hive.poolOff, chunkOf_block hl hab]
  rw [Hive.poolOff] at ho
  simp only [hin]
  split at ho
  · next hb =>
    rw [if_pos hb]
    cases ho
    refine ⟨_, rfl, ?_⟩
    rw [firmwareOff]
    omega
  · next hb =>
    rw [if_neg hb]
    obtain ⟨c, hc, rfl⟩ := Option.map_eq_some_iff.mp ho
    have hle := (chunkOf_holds hc).2
    have hle' := (chunkOf_holds ((chunkOf_block hl hab 0).trans hc)).2
    have h0 := hl c.2 (chunkOf_holds hc).1
    refine ⟨c.1 * 2 ^ 21 + (a - c.2), by rw [hc]; rfl, ?_⟩
    omega

/-- Where pools are whole chunks and their shadow parts whole blocks, no block lies partly in one. -/
theorem shadowAt_block {s : State} (hs : ∀ h ∈ s.hives, h.saveoff % 65536 = 0 ∧ ∀ b ∈ h.pool, b % 2 ^ 21 = 0)
    (hab : a / 65536 = b / 65536) (ha : s.shadowAt a = none) : s.shadowAt b = none := by
  rw [State.shadowAt, List.findSome?_eq_none_iff] at ha ⊢
  intro h hm
  obtain ⟨hsave, hpool⟩ := hs h hm
  have hno := ha h hm
  split
  · next off ho =>
    obtain ⟨off', ho', hblock⟩ := poolOff_block hpool hab ho
    rw [ho'] at hno
    dsimp only at hno
    split at hno
    · cases hno
    · next hlt => exact if_neg (by omega)
  · rfl

end

/-! ## The bytes that a strand's own translation lets it write -/

section
variable {s u : State} {va pa n : Nat} {e : TlbEntry} {k : AccessKind}

/-- What a sound TLB gives is what a walk gives. -/
theorem xlate_leaf (hs : s.CachesSound) {c : Option Nat} {h : Nat} (hx : (xlate s c (s.hive h) va).1 = .leaf e) :
    walk s (s.hive h) va = .leaf e := by
  obtain ⟨-, htlb, -⟩ := hs
  unfold xlate at hx
  split at hx
  · exact hx
  · next c =>
    split at hx
    · next f hf =>
      cases hx
      have hcov := List.find?_some hf
      exact htlb c e (List.mem_of_find?_eq_some hf) h va hcov
    · split at hx
      · next hw => exact hw.trans hx
      · cases hx

/-- A byte that the issuing strand may write: in no shadow part, and in a writable page of its hive (R76, R97). -/
def State.Own (s : State) (a : Nat) : Prop := s.shadowAt a = none ∧ s.Reaches s.me.hive a

theorem permits_writable (hk : k ≠ .read) (hp : e.permits k = true) : e.w = true := by
  cases k with
  | read => exact absurd rfl hk
  | write => exact hp
  | amo => exact (Bool.and_eq_true_iff.mp hp).2

/-- The bytes of an aligned place in memory are the strand's own where the access writes. -/
theorem locate_own (hs : s.CachesSound) (hn : n ∣ 8) (hva : va % n = 0) (h : locate s s.who va k = .ok (.mem pa e, u)) (hk : k ≠ .read) :
    pa % n = 0 ∧ ∀ a, pa ≤ a → a < pa + n → s.Own a := by
  obtain ⟨hx, hperm, rfl, hsh, -⟩ := locate_mem h
  have hw : walk s (s.hive s.me.hive) (va % 2 ^ 52) = .leaf e := xlate_leaf hs (by rw [← show s.who.hive = s.me.hive from rfl, hx])
  have hleaf := walk_leaf (Nat.mod_lt _ (by decide)) hw
  have hva' : va % 2 ^ 52 % n = 0 := by rw [Nat.mod_mod_of_dvd _ (hn.trans (by decide))]; exact hva
  have hpos : 0 < n := Nat.pos_of_dvd_of_pos hn (by decide)
  refine ⟨(hleaf.access hn hva' le_rfl (by omega)).1, fun a h1 h2 => ?_⟩
  obtain ⟨-, hlo, hhi, hblock⟩ := hleaf.access hn hva' h1 h2
  exact ⟨shadowAt_block hs.2.2.2 hblock hsh, _, e, hw, permits_writable hk hperm, hlo, hhi⟩

end

end Sys2Proof.Machine


/-! SUPPORT. What the accesses of a strand may change (R76, R105, R122): O13. -/

namespace Sys2Proof.Machine

section
variable {s t u : State} {h : Hive} {off level x : Nat} {va : Word} {c : Option Nat} {p q : Nat → Prop}

theorem composeAt_ok (ht : composeAt s h off level x va = .ok t) : ∃ eff, t = putEntry s h off level eff x := by
  unfold composeAt at ht
  split at ht
  · exact ⟨0, (Except.ok.inj ht).symm⟩
  · exact ⟨x, (Except.ok.inj ht).symm⟩
  · split at ht
    · exact ⟨_, (Except.ok.inj ht).symm⟩
    · cases ht
  · split at ht
    · cases ht
    · split at ht
      · cases ht
      · dsimp only at ht
        split at ht
        · cases ht
        · exact ⟨_, (Except.ok.inj ht).symm⟩

/-- A composing store that goes through puts an entry. -/
theorem composeStore_ok (ht : composeStore s h off x va = .ok t) : ∃ level eff, t = putEntry s h off level eff x := by
  unfold composeStore at ht
  split at ht
  · next l _ => exact ⟨l.2, composeAt_ok ht⟩
  · cases ht

/-- Putting an entry writes its two halves. -/
theorem putEntry_touches (hqp : ∀ a, q a → p a) (s : State) (h : Hive) (off level eff x : Nat)
    (hp : ∀ a o, h.poolPhys o ≤ a → a < h.poolPhys o + 8 → p a) : Touches c p q s (putEntry s h off level eff x) :=
  .trans hqp (.write s fun a => hp a off) (.trans hqp (.write _ fun a => hp a (off + tableSize level)) (.of_same rfl fun _ => rfl))

end

/-! ## Scalar accesses of the issuing strand -/

section
variable {s u : State} {va : Word} {n x : Nat}

/-- A byte of an entry in the pool of a direct child of the issuing strand's hive. -/
def State.ChildEntry (s : State) (a : Nat) : Prop :=
  ∃ d ∈ s.hives, d.parent = s.me.hive ∧ ∃ off, d.poolPhys off ≤ a ∧ a < d.poolPhys off + 8

theorem loadW_touches {coh : Bool} {y : Nat} (h : loadW s s.who va n coh = .ok (y, u)) :
    Touches s.who.core (fun _ => False) (fun _ => False) s u := by
  unfold loadW at h
  split at h
  · cases h
  · split at h
    · cases h
    · next a v hl =>
      obtain ⟨hm, hc⟩ := locate_same hl
      have hu : u = (readPlace v s.who a n coh).2 := (congrArg Prod.snd (Except.ok.inj h)).symm
      rw [hu]
      exact .trans (fun _ => id) (.of_same hm hc) (readPlace_touches (fun _ => id) v s.who a n coh)

/-- A write at the place that an address leads to makes the strand's own bytes dirty, or writes them. -/
theorem writePlace_own {v : State} {a : Place} (hs : s.CachesSound) (hn : n ∣ 8) (hva : va.toNat % n = 0) (through : Bool)
    (hl : locate s s.who va.toNat .write = .ok (a, v)) : Touches s.who.core s.Own s.Own s (writePlace v s.who a n x through) := by
  obtain ⟨hm, hc⟩ := locate_same hl
  refine .trans (fun _ => id) (.of_same hm hc) (writePlace_touches (fun _ => id) v s.who x through (hn.trans (by decide)) ?_ ?_)
  · rintro pa e rfl
    exact (locate_own hs hn hva hl nofun).1
  · rintro b ⟨pa, e, rfl, h1, h2⟩
    exact (locate_own hs hn hva hl nofun).2 b h1 h2

theorem storeW_touches {through : Bool} (hs : s.CachesSound) (hn : n ∣ 8) (h : storeW s s.who va n x through = .ok u) :
    Touches s.who.core s.Own s.Own s u := by
  unfold storeW at h
  split at h
  · cases h
  · next hva =>
    split at h
    · cases h
    · cases h
    · next hl =>
      split at h
      · cases h
      · exact Except.ok.inj h ▸ writePlace_own hs hn (not_not.mp hva) through hl
    · next hl => exact Except.ok.inj h ▸ writePlace_own hs hn (not_not.mp hva) through hl

/-- An AMO at the place that an address leads to. -/
theorem amoPlace_own {v : State} {a : Place} (hs : s.CachesSound) (hn : n ∣ 8) (hva : va.toNat % n = 0) {op : AmoOp} {y z : Nat}
    (hl : locate s s.who va.toNat .amo = .ok (a, v)) (h : amoPlace v s.who a op n x z = (y, u)) :
    Touches s.who.core s.Own (fun _ => False) s u := by
  obtain rfl : (amoPlace v s.who a op n x z).2 = u := congrArg Prod.snd h
  obtain ⟨hm, hc⟩ := locate_same hl
  refine .trans nofun (.of_same hm hc) (amoPlace_touches nofun v s.who op n x z ?_)
  rintro b ⟨pa, e, rfl, h1, h2⟩
  exact (locate_own hs hn hva hl nofun).2 b h1 h2

theorem amoW_touches {op : AmoOp} {y z : Nat} (hs : s.CachesSound) (hn : n ∣ 8) (h : amoW s s.who va op n x z = .ok (y, u)) :
    Touches s.who.core s.Own (fun _ => False) s u := by
  unfold amoW at h
  split at h
  · cases h
  · next hva =>
    split at h
    · cases h
    · next hl =>
      split at h
      · cases h
      · exact amoPlace_own hs hn (not_not.mp hva) hl (Except.ok.inj h)
    · next hl => exact amoPlace_own hs hn (not_not.mp hva) hl (Except.ok.inj h)

/-- A composing store writes entries of the pool of a direct child. -/
theorem composeStore_touches {v : State} {child off pa : Nat} {e : TlbEntry} (hs : s.CachesSound)
    (hl : locate s s.who va.toNat .write = .ok (.shadow child off pa e, v))
    (h : composeStore (charge v s.who.hive pa 128) (v.hive child) off x va = .ok u) :
    Touches s.who.core (fun a => s.Own a ∨ s.ChildEntry a) s.Own s u := by
  obtain ⟨hm, hc⟩ := locate_same hl
  obtain ⟨-, d, hd, rfl, hparent, -⟩ := locate_shadow hl
  obtain ⟨level, eff, rfl⟩ := composeStore_ok h
  have hhive : v.hive d.id = d := by
    rw [State.hive, State.findHive, (locate_access hl).hives]
    exact State.hive_of_mem hs.2.2.1 hd
  rw [hhive]
  have hqp (a : Nat) (ha : s.Own a) : s.Own a ∨ s.ChildEntry a := .inl ha
  have hcharge : Touches s.who.core (fun a => s.Own a ∨ s.ChildEntry a) s.Own s (charge v s.who.hive pa 128) := .of_same hm hc
  exact .trans hqp hcharge
    (putEntry_touches hqp _ d off level eff x fun a o h1 h2 => Or.inr ⟨d, hd, hparent, o, h1, h2⟩)

theorem storeSt_touches {through : Bool} (hs : s.CachesSound) (hn : n ∣ 8) (h : storeSt s s.who va n x through = .ok u) :
    Touches s.who.core (fun a => s.Own a ∨ s.ChildEntry a) s.Own s u := by
  have hown {v : State} {a : Place} (hva : va.toNat % n = 0) (hl : locate s s.who va.toNat .write = .ok (a, v)) :
      Touches s.who.core (fun a => s.Own a ∨ s.ChildEntry a) s.Own s (writePlace v s.who a n x through) :=
    (writePlace_own hs hn hva through hl).mono (fun _ => .inl) fun _ => id
  unfold storeSt at h
  split at h
  · cases h
  · next hva =>
    split at h
    · cases h
    · next hl =>
      split at h
      · cases h
      · split at h
        · exact composeStore_touches hs hl h
        · cases h
    · next hl =>
      split at h
      · cases h
      · exact Except.ok.inj h ▸ hown (not_not.mp hva) hl
    · next hl => exact Except.ok.inj h ▸ hown (not_not.mp hva) hl

end

end Sys2Proof.Machine


/-! SUPPORT. Where a translation leads in the two cases of a walk, and O13. -/

namespace Sys2Proof.Machine

/-- The kinds of access that a leaf permits, spelled out. -/
theorem permits_eq (e : TlbEntry) (k : AccessKind) :
    e.permits k = match k with | .read => e.r | .write => e.w | .amo => e.r && e.w := by
  cases k <;> rfl

theorem locate_of_fail {s : State} {w : Who} {k : AccessKind} {va : Nat} {r : Reason} (hva : va < 2 ^ 52)
    (hx : (xlate s w.core (s.hive w.hive) va).1 = .fail r) : locate s w va k = .error r := by
  rw [locate_low hva]
  generalize xlate s w.core (s.hive w.hive) va = x at hx ⊢
  obtain ⟨y, v⟩ := x
  cases hx
  rfl

theorem locate_of_leaf {s : State} {w : Who} {k : AccessKind} {va : Nat} {e : TlbEntry} (hva : va < 2 ^ 52)
    (hx : (xlate s w.core (s.hive w.hive) va).1 = .leaf e) :
    locate s w va k = (placeOf s w k va e).map fun p => (p, (xlate s w.core (s.hive w.hive) va).2) := by
  rw [locate_low hva]
  generalize xlate s w.core (s.hive w.hive) va = x at hx ⊢
  obtain ⟨y, v⟩ := x
  cases hx
  rfl

/-- Settles O13: the window and the walk case by case, and for what an access may change the places that sound caches allow, a read,
write, AMO or composing store touching no byte but there and where the core's L1 was dirty. -/
theorem whereAnAddressLeads : Obligations.WhereAnAddressLeads := by
  unfold Obligations.WhereAnAddressLeads
  refine ⟨fun s h x l1 k va h64 => ⟨?_, ?_, fun h57 => locate_reserved s k h57 h64⟩, fun s w k va hva hno => ⟨?_, ?_⟩,
    fun s u w k va pa e hl => ?_, fun s u w k va child off pa e hl => locate_shadow hl, fun s va n x coh hs hn => ?_⟩
  · rintro off rfl ho h52
    exact locate_window_inside s h x l1 k ho h52
  · rintro off rfl ho h52
    exact locate_window_outside s h x l1 k ho h52
  · intro r hw
    exact locate_of_fail hva ((xlate_miss hno).trans hw)
  · intro e hw
    have hl := locate_of_leaf (k := k) hva ((xlate_miss hno).trans hw)
    rw [hl]
    refine ⟨fun hp => ?_, fun hp u hu hsh hseal => ?_⟩
    · rw [placeOf_refused ((permits_eq e k).trans hp)]
      rfl
    · rw [placeOf_mem ((permits_eq e k).trans hp) hsh hseal, hu]
      rfl
  · obtain ⟨-, -, -, hsh, hseal⟩ := locate_mem hl
    exact ⟨hsh, hseal⟩
  · have hn8 : n ∣ 8 := by rcases hn with rfl | rfl | rfl | rfl <;> decide
    refine ⟨fun y u h => ?_, fun u h => ?_, fun op y z u h => ?_, fun u h => ?_⟩
    · obtain ⟨hm, hc⟩ := loadW_touches h
      exact ⟨hm, hc⟩
    · obtain ⟨hm, hc⟩ := storeW_touches hs hn8 h
      exact ⟨hm, hc⟩
    · obtain ⟨hm, hc⟩ := amoW_touches hs hn8 h
      exact ⟨hm, hc⟩
    · obtain ⟨hm, hc⟩ := storeSt_touches hs hn8 h
      exact ⟨hm, hc⟩

end Sys2Proof.Machine
